-- ==== Sys2Proof/Word.lean ====
section
/-! DEFINITION. The word types of the Atelo and the type of sparse tables.
Registers are 32 bits wide (R3), adjacent pairs of them hold 64-bit values (R4), and memories hold bytes (R2). -/

namespace Sys2Proof

/-- One byte of a memory, a page or a record (R2). -/
abbrev Byte := BitVec 8

/-- One host-visible register (R3). -/
abbrev Word := BitVec 32

/-- One 64-bit register: two adjacent 32-bit words (R4). -/
abbrev DWord := BitVec 64

/-- A sparse table in one canonical form: keys strictly rising, and no entry equal to the value that an
unlisted key stands for. The operations stand in Sys2Proof/Machine/SMap.lean. -/
abbrev SMap (α : Type) := List (Nat × α)

end Sys2Proof
end

