-- ==== Sys2Proof/Machine/SMap.lean ====
section
/-! DEFINITION. The operations on sparse tables: read a key, write a key, erase a key, and the predicate that says the
canonical form holds. Memories are tables of bytes. -/

namespace Sys2Proof

/-- The entry a table lists at key i, if it lists one. -/
def SMap.find {α : Type} : SMap α → Nat → Option α
  | [], _ => none
  | (k, v) :: r, i => if i = k then some v else SMap.find r i

/-- The value of a table at key i; d is what an unlisted key stands for. -/
def SMap.getAt {α : Type} (m : SMap α) (i : Nat) (d : α) : α :=
  (SMap.find m i).getD d

/-- List v at key i, keeping the keys strictly rising. -/
def SMap.insertAt {α : Type} : SMap α → Nat → α → SMap α
  | [], i, v => [(i, v)]
  | (k, w) :: r, i, v =>
    if i < k then (i, v) :: (k, w) :: r
    else if i = k then (i, v) :: r
    else (k, w) :: SMap.insertAt r i v

/-- Take key i out of a table. -/
def SMap.eraseAt {α : Type} : SMap α → Nat → SMap α
  | [], _ => []
  | (k, w) :: r, i => if i = k then r else (k, w) :: SMap.eraseAt r i

/-- Write v at key i; writing the value d that an unlisted key stands for takes the entry out. -/
def SMap.putAt {α : Type} [DecidableEq α] (m : SMap α) (i : Nat) (v d : α) : SMap α :=
  if v = d then SMap.eraseAt m i else SMap.insertAt m i v

/-- Every key of the table is above i, and the keys rise strictly. -/
def SMap.risesFrom {α : Type} : Option Nat → SMap α → Bool
  | _, [] => true
  | none, (k, _) :: r => SMap.risesFrom (some k) r
  | some i, (k, _) :: r => decide (i < k) && SMap.risesFrom (some k) r

/-- The canonical form: keys strictly rising, no entry equal to what an unlisted key stands for. -/
def SMap.wf {α : Type} [DecidableEq α] (m : SMap α) (d : α) : Bool :=
  SMap.risesFrom none m && m.all (fun e => decide (e.2 ≠ d))

/-- Write a run of values from key i upward. -/
def SMap.putRun {α : Type} [DecidableEq α] (m : SMap α) (i : Nat) (d : α) : List α → SMap α
  | [] => m
  | v :: vs => SMap.putRun (SMap.putAt m i v d) (i + 1) d vs

/-- Read a run of n values from key i upward. -/
def SMap.getRun {α : Type} (m : SMap α) (i : Nat) (d : α) : Nat → List α
  | 0 => []
  | n + 1 => SMap.getAt m i d :: SMap.getRun m (i + 1) d n

/-- Take out every entry whose key lies in [lo, hi). -/
def SMap.eraseRange {α : Type} (m : SMap α) (lo hi : Nat) : SMap α :=
  m.filter (fun e => ! (decide (lo ≤ e.1) && decide (e.1 < hi)))

end Sys2Proof
end

