-- ==== Sys2Proof/Machine/Bits.lean ====
section
/-! DEFINITION. Bit fields, byte order and check codes: the little-endian rule R2, saturating counters R454, CRC-32 (R452),
CRC-8 (Table 12.3), CRC-16 (R352) and SHA-256 (Tables 5.2 and 15.2). -/

namespace Sys2Proof

/-- The word whose bits [hi:lo] hold v and whose other bits are 0. -/
def fieldAt (lo width v : Nat) : Word :=
  BitVec.ofNat 32 ((v % 2 ^ width) * 2 ^ lo)

/-- Bits [lo+width-1:lo] of a word, as a number. -/
def fieldOf (w : Word) (lo width : Nat) : Nat :=
  (w.toNat / 2 ^ lo) % 2 ^ width

/-- One bit of a word. -/
def bitOf (w : Word) (n : Nat) : Bool := w.getLsbD n

/-- A Boolean as a number. -/
def bit1 (b : Bool) : Nat := if b then 1 else 0

/-- A list of Booleans as a number, the first of weight 1. -/
def bitsNat : List Bool → Nat
  | [] => 0
  | b :: r => bit1 b + 2 * bitsNat r

/-- A counter of the given width saturates at the largest value its field holds (R454). -/
def satAdd (width c n : Nat) : Nat := min (c + n) (2 ^ width - 1)

/-- An integer as the two's-complement number of the given width. -/
def twosNat (width : Nat) (i : Int) : Nat := (i % (2 ^ width : Int)).toNat

/-- An integer as the two's-complement number of the given width; beyond its range it saturates (R454). -/
def twosSat (width : Nat) (i : Int) : Nat := twosNat width (max (-(2 ^ (width - 1) : Int)) (min i ((2 ^ (width - 1) : Int) - 1)))

/-- The integer that a two's-complement number of the given width stands for. -/
def twosInt (width v : Nat) : Int :=
  let u := v % 2 ^ width
  if u < 2 ^ (width - 1) then (u : Int) else (u : Int) - (2 ^ width : Int)

/-- n bytes of v, the lowest first (R2). -/
def leBytes : Nat → Nat → List Byte
  | 0, _ => []
  | n + 1, v => BitVec.ofNat 8 v :: leBytes n (v / 256)

/-- The number that bytes stand for, the lowest first (R2). -/
def leNat : List Byte → Nat
  | [] => 0
  | b :: r => b.toNat + 256 * leNat r

/-- The n bytes of a list from offset i, zeros beyond its end. -/
def bytesAt (l : List Byte) (i n : Nat) : List Byte :=
  let t := (l.drop i).take n
  t ++ List.replicate (n - t.length) 0#8

/-- The little-endian number of n bytes at offset i. -/
def leAt (l : List Byte) (i n : Nat) : Nat := leNat (bytesAt l i n)

/-- Pad a list of bytes with zeros to a length. -/
def padTo (n : Nat) (l : List Byte) : List Byte := (l.take n) ++ List.replicate (n - l.length) 0#8

/-- Round a length up to a multiple of m. -/
def roundUp (m n : Nat) : Nat := if m = 0 then n else (n + m - 1) / m * m

/-- ⌈a / b⌉. -/
def ceilDiv (a b : Nat) : Nat := if b = 0 then 0 else (a + b - 1) / b

/-- One bit of a reflected CRC-32. -/
def crc32Bit (c : Nat) : Nat :=
  if c % 2 = 1 then (c / 2) ^^^ 0xEDB88320 else c / 2

/-- n bits of a reflected CRC-32. -/
def crc32Bits : Nat → Nat → Nat
  | 0, c => c
  | n + 1, c => crc32Bits n (crc32Bit c)

/-- The CRC-32 of IEEE 802.3 over a run of bytes (R452). -/
def crc32 (l : List Byte) : Nat :=
  (l.foldl (fun c b => crc32Bits 8 (c ^^^ b.toNat)) 0xFFFFFFFF) ^^^ 0xFFFFFFFF

/-- n bits of a CRC whose register has the given width, most significant bit first. -/
def crcMsbBits (width poly : Nat) : Nat → Nat → Nat
  | 0, c => c
  | n + 1, c =>
    let t := (c * 2) % 2 ^ width
    crcMsbBits width poly n (if c / 2 ^ (width - 1) % 2 = 1 then t ^^^ poly else t)

/-- CRC-8, polynomial 0x07, initial value 0 (Table 12.3). -/
def crc8 (l : List Byte) : Nat :=
  l.foldl (fun c b => crcMsbBits 8 0x07 8 (c ^^^ b.toNat)) 0

/-- CRC-16, polynomial 0x1021, initial value 0xFFFF, no reflection, no final XOR (R352). -/
def crc16 (l : List Byte) : Nat :=
  l.foldl (fun c b => crcMsbBits 16 0x1021 8 (c ^^^ (b.toNat * 256))) 0xFFFF

/-- The largest r with r ^ k ≤ n, sought from bit t - 1 down; r holds the bits found so far. -/
def rootBits (k n : Nat) : Nat → Nat → Nat
  | 0, r => r
  | t + 1, r => rootBits k n t (if (r + 2 ^ t) ^ k ≤ n then r + 2 ^ t else r)

/-- The first 32 bits of the fraction of the k-th root of p, as FIPS 180-4 takes its constants. -/
def rootFrac (k p : Nat) : Word := BitVec.ofNat 32 (rootBits k (p * 2 ^ (32 * k)) 37 0)

/-- The first 64 primes: the numbers up to 311 that no smaller prime below 18 divides. -/
def shaPrimes : List Nat :=
  (List.range 312).filter (fun n => decide (2 ≤ n) && [2, 3, 5, 7, 11, 13, 17].all (fun d => n == d || n % d != 0))

/-- The eight chaining words of SHA-256. -/
structure ShaVars where
  a : Word
  b : Word
  c : Word
  d : Word
  e : Word
  f : Word
  g : Word
  h : Word
deriving DecidableEq, Repr

/-- The hash value before the first block: the square roots of the first eight primes. -/
def ShaVars.init : ShaVars :=
  let r (i : Nat) : Word := rootFrac 2 (shaPrimes.getD i 0)
  { a := r 0, b := r 1, c := r 2, d := r 3, e := r 4, f := r 5, g := r 6, h := r 7 }

/-- The words of a hash value, in order. -/
def ShaVars.words (v : ShaVars) : List Word := [v.a, v.b, v.c, v.d, v.e, v.f, v.g, v.h]

/-- Two hash values added word by word. -/
def ShaVars.plus (u v : ShaVars) : ShaVars :=
  { a := u.a + v.a, b := u.b + v.b, c := u.c + v.c, d := u.d + v.d, e := u.e + v.e, f := u.f + v.f, g := u.g + v.g,
    h := u.h + v.h }

/-- The XOR of the word turned right by each of the amounts. -/
def turns (x : Word) (l : List Nat) : Word := l.foldl (fun acc n => acc ^^^ x.rotateRight n) 0#32

/-- The word 16 places after the head of a window of 16 schedule words, the oldest first. -/
def shaNext (win : List Word) : Word :=
  let old := win.getD 1 0#32
  let young := win.getD 14 0#32
  win.headD 0#32 + win.getD 9 0#32 + (turns old [7, 18] ^^^ (old >>> 3)) + (turns young [17, 19] ^^^ (young >>> 10))

/-- One of the 64 steps of a block: kw is the step's constant plus its schedule word. -/
def ShaVars.next (v : ShaVars) (kw : Word) : ShaVars :=
  let pick := v.g ^^^ (v.e &&& (v.f ^^^ v.g))
  let most := (v.a &&& (v.b ||| v.c)) ||| (v.b &&& v.c)
  let t := kw + v.h + pick + turns v.e [6, 11, 25]
  { a := t + most + turns v.a [2, 13, 22], b := v.a, c := v.b, d := v.c, e := v.d + t, f := v.e, g := v.f, h := v.g }

/-- The steps of a block, one for each prime left, over the window of schedule words. -/
def shaRun : List Nat → List Word → ShaVars → ShaVars
  | [], _, v => v
  | p :: ps, win, v => shaRun ps (win.tail ++ [shaNext win]) (v.next (rootFrac 3 p + win.headD 0#32))

/-- The n big-endian words at the front of a run of bytes. -/
def beWords (n : Nat) (l : List Byte) : List Word :=
  (List.range n).map (fun i => BitVec.ofNat 32 (leNat (bytesAt l (4 * i) 4).reverse))

/-- The hash value after n blocks of 64 bytes. -/
def shaBlocks : Nat → List Byte → ShaVars → ShaVars
  | 0, _, v => v
  | n + 1, l, v => shaBlocks n (l.drop 64) (v.plus (shaRun shaPrimes (beWords 16 l) v))

/-- n bytes of v, the highest first. -/
def beBytes (n v : Nat) : List Byte := (leBytes n v).reverse

/-- SHA-256 of a run of bytes: 32 bytes. The message is closed with a one bit, zeros and its length in bits. -/
def sha256 (l : List Byte) : List Byte :=
  let blocks := (l.length + 72) / 64
  let body := padTo (64 * blocks - 8) (l ++ [0x80#8]) ++ beBytes 8 (8 * l.length)
  (shaBlocks blocks body .init).words.flatMap (fun w => beBytes 4 w.toNat)

end Sys2Proof
end

