-- ==== Sys2Proof/Machine/Num.lean ====
section
/-! DEFINITION. The number formats and their arithmetic: the operand formats of Table 6.2, FP32, and the internal format XF
of R196; exact sums and products, and rounding to nearest with ties to even, written once over sign, magnitude and
exponent. -/

namespace Sys2Proof

/-- A value of any number format: a NaN, an infinity, or the finite value (−1)^neg × m × 2^e. The sign of a zero is kept. -/
inductive FNum where
  | nan
  | inf (neg : Bool)
  | fin (neg : Bool) (m : Nat) (e : Int)
deriving DecidableEq, Repr

/-- A floating-point format: precision with the leading bit, exponent of the smallest step, and the largest finite value
maxM × 2^maxE. -/
structure FFmt where
  p : Nat
  qmin : Int
  maxM : Nat
  maxE : Int
deriving DecidableEq, Repr

/-- FP32, IEEE 754 binary32. -/
def fp32Fmt : FFmt := ⟨24, -149, 2 ^ 24 - 1, 104⟩
/-- BF16. -/
def bf16Fmt : FFmt := ⟨8, -133, 2 ^ 8 - 1, 120⟩
/-- FP16, IEEE 754 binary16. -/
def fp16Fmt : FFmt := ⟨11, -24, 2 ^ 11 - 1, 5⟩
/-- FP8 E4M3: the largest finite value is 448 (R200). -/
def e4m3Fmt : FFmt := ⟨4, -9, 14, 5⟩
/-- FP8 E5M2: the largest finite value is 57,344 (R200). -/
def e5m2Fmt : FFmt := ⟨3, -16, 7, 13⟩
/-- The internal format XF of R196: 40 bits of precision, smallest step 2^−2,085, largest value (2 − 2^−39) × 2^2,047. -/
def xfFmt : FFmt := ⟨40, -2085, 2 ^ 40 - 1, 2008⟩

/-- m × 2^(e − q) when q is at or below e, and its integer part otherwise. -/
def alignTo (m : Nat) (e q : Int) : Nat :=
  if q ≤ e then m * 2 ^ (e - q).toNat else m / 2 ^ (q - e).toNat

/-- m1 × 2^e1 is below m2 × 2^e2. -/
def magLt (m1 : Nat) (e1 : Int) (m2 : Nat) (e2 : Int) : Bool :=
  let q := min e1 e2
  decide (alignTo m1 e1 q < alignTo m2 e2 q)

/-- ⌊log2 (n / d)⌋ for n and d above 0. -/
def floorLog2Rat (n d : Nat) : Int :=
  let l : Int := (Nat.log2 n : Int) - (Nat.log2 d : Int)
  let ok : Bool := if 0 ≤ l then decide (d * 2 ^ l.toNat ≤ n) else decide (d ≤ n * 2 ^ (-l).toNat)
  if ok then l else l - 1

/-- n / d rounded to the nearest integer, ties to even. -/
def rneDiv (n d : Nat) : Nat :=
  let q := n / d
  let r := n % d
  if 2 * r < d then q else if d < 2 * r then q + 1 else q + q % 2

/-- (n / d) × 2^e as k × 2^q, rounded to nearest with ties to even at the step 2^q. -/
def roundAtStep (n d : Nat) (e q : Int) : Nat :=
  if q ≤ e then rneDiv (n * 2 ^ (e - q).toNat) d else rneDiv n (d * 2 ^ (q - e).toNat)

/-- The step 2^q at which (n / d) × 2^e is rounded in a format. -/
def stepFor (f : FFmt) (n d : Nat) (e : Int) : Int :=
  if n = 0 then f.qmin else max f.qmin (floorLog2Rat n d + e - (f.p - 1 : Int))

/-- Round (n / d) × 2^e to a format, to nearest with ties to even; overflow is judged after rounding (R197). -/
def roundTo (f : FFmt) (neg : Bool) (n d : Nat) (e : Int) : FNum :=
  let q := stepFor f n d e
  let k := roundAtStep n d e q
  if magLt f.maxM f.maxE k q then .inf neg else .fin neg k q

/-- Round a value to a format. -/
def FNum.round (f : FFmt) : FNum → FNum
  | .nan => .nan
  | .inf s => .inf s
  | .fin s m e => roundTo f s m 1 e

/-- Zero of a sign. -/
def fzero (neg : Bool) : FNum := .fin neg 0 0

/-- The sign of a value; a NaN has none. -/
def FNum.isNeg : FNum → Bool
  | .nan => false
  | .inf s => s
  | .fin s _ _ => s

/-- The value is a NaN. -/
def FNum.isNan : FNum → Bool
  | .nan => true
  | _ => false

/-- The value is an infinity. -/
def FNum.isInf : FNum → Bool
  | .inf _ => true
  | _ => false

/-- The value is +0 or −0 (R137). -/
def FNum.isZero : FNum → Bool
  | .fin _ 0 _ => true
  | _ => false

/-- The value with its sign inverted. -/
def FNum.neg : FNum → FNum
  | .nan => .nan
  | .inf s => .inf (!s)
  | .fin s m e => .fin (!s) m e

/-- The exact product. -/
def FNum.mul : FNum → FNum → FNum
  | .nan, _ => .nan
  | _, .nan => .nan
  | .inf s, .inf t => .inf (s != t)
  | .inf s, .fin t m _ => if m = 0 then .nan else .inf (s != t)
  | .fin s m _, .inf t => if m = 0 then .nan else .inf (s != t)
  | .fin s m e, .fin t n g => .fin (s != t) (m * n) (e + g)

/-- A signed integer times 2^e as a value; the zero is +0. -/
def ofIntExp (i : Int) (e : Int) : FNum := .fin (decide (i < 0)) i.natAbs e

/-- The exact sum; a sum of zero is −0 only when both terms are negative (IEEE 754, to nearest). -/
def FNum.add : FNum → FNum → FNum
  | .nan, _ => .nan
  | _, .nan => .nan
  | .inf s, .inf t => if s = t then .inf s else .nan
  | .inf s, .fin _ _ _ => .inf s
  | .fin _ _ _, .inf t => .inf t
  | .fin s m e, .fin t n g =>
    let q := min e g
    let a : Int := if s then -(alignTo m e q : Int) else (alignTo m e q : Int)
    let b : Int := if t then -(alignTo n g q : Int) else (alignTo n g q : Int)
    if a + b = 0 then .fin (s && t) 0 q else ofIntExp (a + b) q

/-- The exact x × y + z. -/
def FNum.fmaExact (x y z : FNum) : FNum := FNum.add (FNum.mul x y) z

/-- IEEE 754 binary32 fused multiply-add, rounded once. -/
def fma32 (x y z : FNum) : FNum := FNum.round fp32Fmt (FNum.fmaExact x y z)

/-- IEEE 754 binary32 multiplication. -/
def mul32 (x y : FNum) : FNum := FNum.round fp32Fmt (FNum.mul x y)

/-- IEEE 754 binary32 addition. -/
def add32 (x y : FNum) : FNum := FNum.round fp32Fmt (FNum.add x y)

/-- |x| is below |y|; an infinity is above every finite value. A NaN compares with nothing. -/
def FNum.absLt : FNum → FNum → Bool
  | .fin _ m e, .fin _ n g => magLt m e n g
  | .fin _ _ _, .inf _ => true
  | _, _ => false

/-- The value a code of an IEEE 754 format stands for: eb exponent bits, mb mantissa bits. -/
def decodeIeee (eb mb code : Nat) : FNum :=
  let s := decide (code / 2 ^ (eb + mb) % 2 = 1)
  let ex := code / 2 ^ mb % 2 ^ eb
  let f := code % 2 ^ mb
  let bias : Int := 2 ^ (eb - 1) - 1
  if ex = 2 ^ eb - 1 then (if f = 0 then .inf s else .nan)
  else if ex = 0 then .fin s f (1 - bias - mb)
  else .fin s (f + 2 ^ mb) (ex - bias - mb)

/-- The value an FP8 E4M3 code stands for: no infinities, and the NaN is S.1111.111 (R141). -/
def decodeE4m3 (code : Nat) : FNum :=
  let s := decide (code / 128 % 2 = 1)
  let ex := code / 8 % 16
  let f := code % 8
  if ex = 15 ∧ f = 7 then .nan
  else if ex = 0 then .fin s f (-9)
  else .fin s (f + 8) (ex - 10)

/-- The value formats of Tables 6.1 and 8.1. -/
inductive ValFmt where
  | e4m3 | e5m2 | int8 | int4 | bf16 | fp16 | fp32
deriving DecidableEq, Repr

/-- The VALFMT code of a format (Tables 6.1 and 8.1). -/
def ValFmt.code : ValFmt → Nat
  | .e4m3 => 0 | .e5m2 => 1 | .int8 => 2 | .int4 => 3 | .bf16 => 4 | .fp16 => 5 | .fp32 => 6

/-- The format of a VALFMT code. -/
def ValFmt.ofCode : Nat → Option ValFmt
  | 0 => some .e4m3 | 1 => some .e5m2 | 2 => some .int8 | 3 => some .int4 | 4 => some .bf16 | 5 => some .fp16
  | 6 => some .fp32 | _ => none

/-- Bits of one value (Table 6.2). -/
def ValFmt.bits : ValFmt → Nat
  | .int4 => 4 | .bf16 => 16 | .fp16 => 16 | .fp32 => 32 | _ => 8

/-- The value classes of R138. -/
inductive ValClass where
  | fp8 | int8 | int4 | bf16 | fp16 | fp32
deriving DecidableEq, Repr

/-- The value class of a format (R138). -/
def ValFmt.cls : ValFmt → ValClass
  | .e4m3 => .fp8 | .e5m2 => .fp8 | .int8 => .int8 | .int4 => .int4 | .bf16 => .bf16 | .fp16 => .fp16 | .fp32 => .fp32

/-- The value a code of a format stands for (R141, Table 6.2). -/
def decodeVal (f : ValFmt) (code : Nat) : FNum :=
  match f with
  | .e4m3 => decodeE4m3 code
  | .e5m2 => decodeIeee 5 2 code
  | .int8 => ofIntExp (twosInt 8 code) 0
  | .int4 => ofIntExp (twosInt 4 code) 0
  | .bf16 => decodeIeee 8 7 code
  | .fp16 => decodeIeee 5 10 code
  | .fp32 => decodeIeee 8 23 code

/-- The code of a value that an IEEE 754 format holds; a NaN takes the code nanCode. -/
def encodeIeee (eb mb nanCode : Nat) : FNum → Nat
  | .nan => nanCode
  | .inf s => bit1 s * 2 ^ (eb + mb) + (2 ^ eb - 1) * 2 ^ mb
  | .fin s m e =>
    let sg := bit1 s * 2 ^ (eb + mb)
    let bias : Int := 2 ^ (eb - 1) - 1
    let h : Int := (Nat.log2 m : Int) + e
    if m = 0 then sg
    else if h < 1 - bias then sg + alignTo m e (1 - bias - mb)
    else sg + (h + bias).toNat * 2 ^ mb + (alignTo m e (h - mb) - 2 ^ mb)

/-- The code of a value that FP8 E4M3 holds. -/
def encodeE4m3 : FNum → Nat
  | .nan => 0x7F
  | .inf s => bit1 s * 128 + 0x7E
  | .fin s m e =>
    let h : Int := (Nat.log2 m : Int) + e
    if m = 0 then bit1 s * 128
    else if h < -6 then bit1 s * 128 + alignTo m e (-9)
    else bit1 s * 128 + (h + 7).toNat * 8 + (alignTo m e (h - 3) - 8)

/-- The signed integer of a value whose exponent is not negative, or its integer part. -/
def FNum.toInt : FNum → Int
  | .fin s m e => if s then -(alignTo m e 0 : Int) else (alignTo m e 0 : Int)
  | _ => 0

/-- The code of a value that the format holds, with the canonical NaN of R196. -/
def encodeVal (f : ValFmt) (x : FNum) : Nat :=
  match f with
  | .e4m3 => encodeE4m3 x
  | .e5m2 => encodeIeee 5 2 0x7F x
  | .int8 => twosNat 8 x.toInt
  | .int4 => twosNat 4 x.toInt
  | .bf16 => encodeIeee 8 7 0x7FC0 x
  | .fp16 => encodeIeee 5 10 0x7E00 x
  | .fp32 => encodeIeee 8 23 0x7FC00000 x

/-- The FP32 value of a 32-bit code. -/
def fp32Of (code : Nat) : FNum := decodeVal .fp32 code

/-- The 32-bit code of an FP32 value. -/
def fp32Code (x : FNum) : Nat := encodeVal .fp32 x

/-- 1.0. -/
def fone : FNum := .fin false 1 0

/-- The positive magnitude (n / d) × 2^e rounded toward +∞ to FP32; beyond the largest finite value it is +∞. -/
def roundUpFp32 (n d : Nat) (e : Int) : FNum :=
  let q := stepFor fp32Fmt n d e
  let k := if q ≤ e then ceilDiv (n * 2 ^ (e - q).toNat) d else ceilDiv n (d * 2 ^ (q - e).toNat)
  if magLt fp32Fmt.maxM fp32Fmt.maxE k q then .inf false else .fin false k q

/-- ⌈log2 (n / d)⌉ for n and d above 0. -/
def ceilLog2Rat (n d : Nat) : Int :=
  let l := floorLog2Rat n d
  let exact : Bool := if 0 ≤ l then decide (d * 2 ^ l.toNat = n) else decide (d = n * 2 ^ (-l).toNat)
  if exact then l else l + 1

/-- The signed integer nearest to num / den, ties to even; den is above 0. -/
def roundIntDiv (num : Int) (den : Nat) : Int :=
  if num < 0 then -(rneDiv num.natAbs den : Int) else (rneDiv num.natAbs den : Int)

end Sys2Proof
end

