-- ==== Sys2Proof/Syntax.lean ====
section
/-! DEFINITION. The commands of the Atelo: one constructor of Instr for each row of spec/opcode_table.json. The table gives the
rows no operands; the operands here are what the outside world, an analog circuit or the plan decides for that step (log 1). -/

namespace Sys2Proof

/-- A quadrant Q0 to Q3, or the Comb slice of the same number (Table 5.1). -/
abbrev Quad := Fin 4
/-- A hive port P0 to P19 (R276). -/
abbrev PortId := Fin 20
/-- A mailbox WG0 to WG3 (R336). -/
abbrev MboxId := Fin 4
/-- A plan context 0 to 3 (R118). -/
abbrev Ctx := Fin 4

/-- The three loops of the synthesiser ("The three loops and their references"). -/
inductive Loop where
  | b | c0 | c1
deriving DecidableEq, Repr

/-- The two reference inputs (R51). -/
inductive RefIn where
  | hive | localRef
deriving DecidableEq, Repr

/-- The kinds of feeder thread (Table 10.2). -/
inductive ThreadKind where
  | act | resid | gather | stream | out | save
deriving DecidableEq, Repr

/-- Where a feeder thread reads or writes (R235): a plan address, or a buffer reference with an offset: request slot k of the nth instance
admitted at the batch's edge (log 123), or a variable of the slot program that ALLOC has set. -/
inductive FeedAddr where
  | plan (addr : Nat)
  | slot (k : Nat) (off : Nat) (nth : Nat)
  | var (v : Nat) (off : Nat)
deriving DecidableEq, Repr

/-- One feeder thread as a quadrant slot program names it (R235, R243). The beats count those of the instance; src is the
GATHER thread that delivers the source rows of a row gather (R190). -/
structure FeedDesc where
  thread : Nat
  kind : ThreadKind
  write : Bool
  addr : FeedAddr
  bytes : Nat
  startBeat : Nat
  startSlot : Nat
  deadBeat : Nat
  deadSlot : Nat
  persist : Bool
  desc : Option Nat
  kT : Nat
  fmt : ValFmt
  src : Option Nat
deriving DecidableEq, Repr

/-- One pass as a quadrant slot program declares it (R138, R152, R155, R165, R174, R180, R181). -/
structure PassDesc where
  tile : Nat
  fmt : ValFmt
  actScaled : Bool
  p : Nat
  kb : Nat
  anchor : Int
  overwrite : Bool
  tileEnd : Option Nat
  tileSeq : Nat
  feed : Nat
  resid : Option Nat
  out : Option Nat
  outCols : Nat
  link : Nat
  cost : Nat
deriving DecidableEq, Repr

/-- One phase of a stream chunk (Table 9.3). -/
inductive ChunkPhase where
  | gate | level (j : Nat) | load | expand | readout | store
deriving DecidableEq, Repr

/-- One chunk phase as a quadrant slot program names it (R218, R219, R221, R222). inThread delivers z, x, B and C; out is
the OUT thread of the y tiles. -/
structure ChunkDesc where
  stream : Nat
  phase : ChunkPhase
  seqStart : Bool
  inThread : Nat
  out : Option Nat
deriving DecidableEq, Repr

/-- The operations of a quadrant slot program, decoded (Table 5.3: the encoding stands in the Flobo guide; the effects are
those of each block's chapter). -/
inductive ProgOp where
  | pass (d : PassDesc)
  | feed (d : FeedDesc)
  | acq (i min : Nat)
  | rel (i inc : Nat)
  | wait (i min : Nat)
  | send (obj inc : Nat) (port : PortId)
  | save (cols : Nat) (thread : Nat)
  | restore (cols : Nat) (thread : Nat)
  | recordAdd (addr cols : Nat) (thread : Nat)
  | alloc (var bytes : Nat)
  | free (var : Nat)
  | freeSlot (k : Nat)
  | chunk (d : ChunkDesc)
deriving DecidableEq, Repr

/-- The quadrant slot program of one quadrant: its sync objects (plan index, REMOTE flag, STEP) and the operations of
each slot, in slot order, where slot 128 b + i is slot i of beat b of an instance; beats counts the beats of one instance. -/
structure QuadProg where
  quad : Quad
  objects : List (Nat × Bool × Nat)
  slots : List (Nat × List ProgOp)
  beats : Nat
deriving DecidableEq, Repr

/-- What a plan fetch reads from host memory: the bytes of the image and its QPROG sections decoded (log 2). -/
structure PlanSource where
  bytes : List Byte
  progs : List QuadProg
deriving DecidableEq, Repr

/-- The board record of a firmware image (R233, R387): the data rate as XM_STAT.RATE codes it, ranks, density of a channel in
GiB, and SCRUB_PERIOD in seconds, 0 where the record names none. -/
structure BoardRec where
  rate : Nat
  ranks : Nat
  gib : Nat
  scrubS : Nat
deriving DecidableEq, Repr

/-- What the verification of one firmware image finds (R42): a well-formed header, the image's length in bytes, whether its signature
checks, its version, and its board record. -/
structure ImageInfo where
  header : Bool
  len : Nat
  signed : Bool
  major : Nat
  minor : Nat
  build : Nat
  board : BoardRec
deriving DecidableEq, Repr

/-- A calibration target (Table 16.2): kind 0 to 4, loop, port or channel, and index (profile, code, lane or byte lane). -/
structure CalTarget where
  kind : Nat
  unit : Nat
  index : Nat
deriving DecidableEq, Repr

/-- What the analog side and the board show at a beat edge: validity of the references (R104), the 11 sensors in eighths
of a degree (R397; none where a sensor fails to convert), and the Understory times of the beat in ns (R386). -/
structure EdgeEnv where
  hiveOk : Bool
  localOk : Bool
  temps : List (Option Int)
  utime : List Nat
  uused : List Nat
  slack : List Nat
  corrected : List (PortId × Nat × Nat)
deriving DecidableEq, Repr

/-- One reading of one regulator page over PMBus (R397, R425): fault bit set or third failed transaction, power in 0.1 W. -/
structure RegReading where
  page : Nat
  fault : Bool
  volts : Nat
  amps : Nat
  deciWatts : Nat
deriving DecidableEq, Repr

/-- A loop that locks (R66), and its tuning voltage at the lock in mV (Table 3.18). -/
structure LoopLock where
  loop : Loop
  vt : Nat
deriving DecidableEq, Repr

/-- A quadrant that is reset (Table 2.6), and whether Keeper has found a quadrant fault (log 115). -/
structure QuadFault where
  quad : Quad
  fault : Bool
deriving DecidableEq, Repr

/-- A pass that starts on a quadrant (R153), and the errors that its read of the weight tile meets (R110, R128): how many codewords are
corrected, and which of the tile's pages hold an uncorrectable one, by their place among them. -/
structure PassRead where
  quad : Quad
  corrected : Nat
  bad : List Nat
deriving DecidableEq, Repr

/-- A transfer that is issued (R236): on a channel that is ready, or one of Keeper's own at an address, at a time in ns. -/
structure XmIssue where
  chan : Fin 8
  keeper : Option Nat
  nowNs : Nat
deriving DecidableEq, Repr

/-- The move of a lane to or from the spare of a port takes effect, in the transmit or in the receive direction (R282). -/
structure SpareSwitch where
  port : PortId
  tx : Bool
deriving DecidableEq, Repr

/-- The end of a wake: the measured latency in µs (R420), and the tuning voltage of a core loop that relocks, in mV (Table 3.18). -/
structure WakeEnd where
  us : Nat
  vt : Nat
deriving DecidableEq, Repr

/-- The commands of the Atelo, in the order of the table. -/
inductive Instr where
  | registerWrite (off : Nat) (v : Word) (sameClock : Word)
  | rcFieldRead (off : Nat) (sameClock : Word)
  | lowWordRead (off : Nat)
  | highWordWrite (off : Nat) (v : Word)
  | misalignedAccess (write : Bool) (off width : Nat)
  | undefinedOffsetAccess (write : Bool) (off : Nat)
  | aonPowerGood
  | aonPowerGoodFall
  | powerFailWarning
  | aonBrownOut
  | aonSupplyRecovery
  | perstAssert
  | perstDeassert
  | pcieHotReset
  | functionLevelReset
  | configRequest (bme : Option Bool)
  | romStart (hiveOk localOk : Bool)
  | referenceRecheck (hiveOk localOk : Bool)
  | lockAcquired (x : LoopLock)
  | pllBLockTimeout
  | hifPowerGood
  | imageVerifyComplete (img : ImageInfo)
  | domainWindow
  | quadrantBistComplete (q : Quad) (ok : Bool)
  | lpddrTrainingComplete (ok : BitVec 8)
  | portTrainingStart (p : PortId)
  | readyReached (us : Nat)
  | warmReset
  | keeperWatchdogExpiry
  | lockstepMismatch
  | quadrantReset (x : QuadFault)
  | queryBoot
  | hiveReset
  | resetWarm
  | resetQuad
  | beatEdge (env : EdgeEnv)
  | slotBoundary
  | slotGuardStart
  | vtComplianceCrossing (l : Loop) (high : Bool)
  | phaseWindowViolation (l : Loop) (cycle : Nat)
  | lossOfLock (l : Loop)
  | prelockTimeout (l : Loop)
  | querySyn
  | synCalRun
  | synHoldRelease
  | synHoldFreeze
  | synHoldSafeClock
  | calibrationStart (t : CalTarget)
  | calibrationComplete (t : CalTarget) (pass : Bool) (value : Nat)
  | beatMarkerReceive (p : PortId) (flit : List Byte) (eighths : Int)
  | portExclusionLimit (p : PortId)
  | seekTimeout
  | coarseJump
  | parentLost
  | holdTimeout
  | masterHoldoverTimeout
  | rateLimitExceeded
  | queryBeat
  | beatMasterEn
  | refSelect
  | planLoad (src : Option PlanSource)
  | planFetchComplete
  | dmaReadError
  | dmaCompletionTimeout
  | planActivate
  | planDeactivate
  | planDrainComplete (c : Ctx)
  | planUnload
  | zeroFillComplete (q : Quad) (bank : Nat)
  | planReplace (src : Option PlanSource)
  | replacePhaseReady (c : Ctx)
  | planSwap
  | planFitmode
  | queryPlan
  | queryComb
  | pageRebuildComplete (page : Nat) (clean : Bool)
  | bankCopyComplete (page : Nat)
  | rebuildWaitLimit (page : Nat)
  | passStart (x : PassRead)
  | passComplete (q : Quad)
  | accumulatorSetSwap (q : Quad) (stall : Nat)
  | contextSave (q : Quad)
  | contextRestore (q : Quad)
  | queryJoin
  | queryArr
  | epilogueComplete (q : Quad)
  | forwardTileSend (q : Quad)
  | forwardDrop (q : Quad)
  | tileRecordAdd (q : Quad)
  | queryFus
  | chunkGate (q : Quad)
  | chunkLevel (q : Quad)
  | chunkLoad (q : Quad)
  | chunkExpand (q : Quad)
  | chunkReadout (q : Quad)
  | chunkStore (q : Quad)
  | chunkSkip (q : Quad)
  | streamCtlPause
  | streamCtlResume
  | streamCtlReset
  | streamCtlEnd
  | streamCtlApply (entry : Fin 256)
  | queryRcs
  | transferIssue (x : XmIssue)
  | readTransferComplete (tag : Nat) (ecc : Nat) (nowNs : Nat)
  | writeTransferAccepted (tag : Nat) (failed : Bool)
  | instanceComplete (c : Ctx)
  | scheduleAlloc (q : Quad)
  | scheduleFree (q : Quad)
  | bufAlloc
  | bufFree
  | bufGive
  | queryXm
  | queryBuf
  | xmShare
  | syncAcq (q : Quad)
  | syncRel (q : Quad)
  | syncWait (q : Quad)
  | syncSend (q : Quad)
  | blockedOpProceed (q : Quad)
  | sidePortRequest (q : Quad) (id : Fin 14) (page : Nat) (len : Nat)
  | sidePortGrant (q : Quad) (errs : Nat)
  | portWatchdogExpiry (q : Quad)
  | querySo
  | queryArb
  | lnkPowerGood (wake : Bool)
  | portNoSignalTimeout (p : PortId)
  | portTrainingTimeout (p : PortId)
  | portRetryTimer (p : PortId)
  | pmdTrainingComplete (p : PortId) (spare : Nat) (ms : Nat)
  | identReceive (p : PortId) (flit : List Byte)
  | lossOfSignal (p : PortId)
  | laneFlitReceive (p : PortId) (flit : List Byte)
  | laneSpareSwitch (x : SpareSwitch)
  | uncorrectableCodeword (p : PortId)
  | codewordErrorLimit (p : PortId)
  | flitDataReceive (p : PortId) (flit : List Byte) (ns : Nat)
  | flitSyncReceive (p : PortId) (flit : List Byte) (ns : Nat)
  | flitUnschedReceive (p : PortId) (flit : List Byte) (ns : Nat)
  | flitHaltReceive (p : PortId) (flit : List Byte)
  | flitTagReceive (p : PortId) (flit : List Byte)
  | flitAckReceive (p : PortId) (flit : List Byte)
  | flitNakReceive (p : PortId) (flit : List Byte)
  | ackTimer (p : PortId)
  | replayTimeout (p : PortId)
  | sealGroupClose (p : PortId)
  | floodDetected (p : PortId)
  | inboundEntryComplete (c : Ctx) (entry : Nat)
  | hiveRoster
  | hivePortRetrain
  | hivePortUnfence
  | hivePortHold
  | hiveKeySwitch
  | queryHl
  | inflowWriteTlp (addr : Nat) (bytes : List Byte) (allEnabled : Bool)
  | flushNow
  | flushPkt
  | flushPktComplete
  | completionBacklogDrain
  | eventOverflowRecord
  | ringEnable (completion : Bool) (cfg : Word)
  | ringHeadWrite (completion : Bool) (v : Word)
  | ringSetupWrite (completion : Bool) (word : Fin 3) (v : Word)
  | intmaskWrite (v : Word)
  | apertureRead (off len : Nat)
  | apertureTimeout
  | apertureWrite
  | combAperture
  | queryHi
  | pciPowerStateChange (d3hot : Bool)
  | doorbellRing (m : MboxId)
  | doorbellNext (m : MboxId)
  | doorbellInvalid (m : MboxId) (v : Word)
  | mailboxPageWrite (m : MboxId) (off : Nat) (v : Word)
  | smbusSetOffset (off : Nat) (pecOk : Bool)
  | smbusWrite (bytes : List Byte) (pecOk : Bool)
  | smbusRead
  | smbusTimeout
  | uartWrite (frame : List Byte)
  | uartRead (frame : List Byte)
  | uartBaud (frame : List Byte)
  | uartFrameTimeout
  | uartBreak
  | queryDevice
  | queryWg
  | graftStage
  | graftCommit
  | graftAbort
  | graftPhaseApply
  | graftWaitLimit
  | queryGraft
  | queryPresence
  | rjRead
  | rjMark
  | fwLoadBegin
  | fwLoadData
  | fwLoadFinish (img : ImageInfo)
  | fwLoadSessionTimeout
  | hiveKeyLoad
  | hwErase
  | repairRead
  | calOverrideSet
  | calOverrideRelease
  | wg3Unseal
  | wg3Seal
  | wg3UnsealExpiry
  | reseal
  | presenceSample (low : Bool)
  | presenceQualified
  | presenceWindowExpiry
  | sealSample (driven read : Bool)
  | sealBreak
  | scrubPageStart (q : Quad)
  | regulatorRead (rs : List RegReading)
  | regulatorFaultClear (page : Nat)
  | telemetrySummary
  | heartwoodProgramComplete (copy : Bool) (ok : Bool) (retries : Nat)
  | blockReclaim
  | heartwoodEraseComplete (blank : Bool) (pct : Nat)
  | heartwoodScanComplete (sfdpOk : Bool)
  | heartwoodScanDeadline
  | hwRead
  | queryUs
  | queryHw
  | powerStateEntry
  | wakeComplete (x : WakeEnd)
  | thermalTrip (sensor : Fin 11) (eighths : Int)
  | thermalTripRecovery
  | pwrTolerance
  | pwrLimit
  | queryPwr
  | jtagTapReset
  | jtagBypass
  | jtagIdcode
  | jtagSamplePreload (pins preload : List Bool)
  | jtagExtest
  | jtagClamp
  | jtagHighz
  | dmaReadComplete (src : PlanSource)
  | bootNorEraseComplete
deriving DecidableEq, Repr

end Sys2Proof
end

