-- ==== Sys2Proof/Config.lean ====
section
/-! DEFINITION. What an implementation fixes, and the free values: the values that the spec leaves open are opaque constants,
so that no proof can see one. Each has a row in the assumption log. -/

namespace Sys2Proof

/-- DESIGN CHOICE (log 4): the byte an external memory address reads as after its contents were lost (R228, R249,
Table 2.7), by the number of the loss and the address. -/
opaque Config.lostByte : Nat → Nat → BitVec 8

/-- DESIGN CHOICE (log 5): the functions of the table file ATL-9416-FC-ACT (R195), which is not part of the spec: function
1 GELU-tanh, 2 SiLU, 3 sigmoid, 4 softplus, 5 exp, applied to (−1)^s × m × 2^e with m odd or 0, as sign, magnitude and
exponent of the result. -/
opaque Config.actTable : Nat → Bool → Nat → Int → Bool × Nat × Int

/-- DESIGN CHOICE (log 6): the 96-bit AES-GMAC tag of R300 under a key, an initial vector and the authenticated data. -/
opaque Config.gmac : List (BitVec 8) → List (BitVec 8) → List (BitVec 8) → BitVec 96

/-- DESIGN CHOICE (log 7): a key wrapped under RFC 3394 with the fused device key (Table 16.4): 40 bytes as a number. -/
opaque Config.wrapKey : List (BitVec 8) → BitVec 320

/-- DESIGN CHOICE (log 8): the fused 8-byte device serial number (Table 13.1, Table 14.13). -/
opaque Config.serial : BitVec 64

/-- DESIGN CHOICE (log 9): the spare columns fused into the array of a quadrant (R163): entry k is the logical column that
spare k replaces, 0xFFFF for an unused spare. -/
opaque Config.repairColumn : Nat → Nat → BitVec 16

/-- DESIGN CHOICE (log 9): the number of repaired rows of a Comb slice, and bank and row of each (Table 15.6). -/
opaque Config.repairRowCount : Nat → BitVec 8
/-- DESIGN CHOICE (log 9): bank and row of a repaired row of a slice. -/
opaque Config.repairRow : Nat → Nat → BitVec 32

/-- DESIGN CHOICE (log 10): a free value of up to 64 bits for a result that the spec leaves open: the argument is the
counter of free values that the step advances. -/
opaque Config.freeValue : Nat → BitVec 64

/-- DESIGN CHOICE (log 11): the boundary-scan cell values and the identification code of the BSDL file ATL-9416-BSDL
(R448), which is not part of the spec. -/
opaque Config.jtagIdcode : BitVec 32

/-- DESIGN CHOICE (log 12): the Keeper-defined body of a Keeper message (Table 12.6) has no effect that the spec gives;
the regulator pages of the board record (R423) are this many. -/
opaque Config.regulatorPages : Nat

/-- The default SCRUB_PERIOD, seconds (R387); the board record may name another from 60 to 86,400. -/
def Config.scrubPeriodDefault : Nat := 600

/-- R387: ranges of SCRUB_PERIOD. -/
def Config.scrubPeriodMin : Nat := 60

end Sys2Proof
end

