-- ==== Sys2Proof/Machine/Act.lean ====
section
/-! DEFINITION. The functions of ACT and of the stream engine (R194, R195, R212): their mathematical values in fixed point, and the
table file's values, free within the bound of R195. -/

namespace Sys2Proof.Machine

open Sys2Proof

/-- 1 in the fixed point of this file: 192 fraction bits. -/
def fixOne : Nat := 2 ^ 192
/-- ln 2. -/
def fixLn2 : Nat := 4350955369971217654477563090224794165364344896676135745069
/-- 2 √(2/π), the factor of GELU-tanh written as v × σ(2y) (R194). -/
def fixGelu : Nat := 10016805122507811459578197244997354253072253424553930005347

/-- m × 2^e in fixed point, cut below its last bit. -/
def fixOf (m : Nat) (e : Int) : Nat := alignTo m e (-192)

/-- exp(−t): 2^−k × exp(−r) with t = k ln 2 + r, the second factor by its series; 0 from t = 128, far below the FP32 step. -/
def fixExpNeg (t : Nat) : Nat :=
  if 128 * fixOne ≤ t then 0
  else (List.range 48).foldr (fun i a => fixOne - t % fixLn2 * a / ((i + 1) * fixOne)) fixOne / 2 ^ (t / fixLn2)

/-- σ(t) of a sign and magnitude. -/
def fixSigma (neg : Bool) (t : Nat) : Nat :=
  let x := fixExpNeg t
  (if neg then x else fixOne) * fixOne / (fixOne + x)

/-- ln(1 + x) for x at most 1: twice the inverse hyperbolic tangent of z = x / (2 + x), by its series. -/
def fixLog1p (x : Nat) : Nat :=
  let z := x * fixOne / (2 * fixOne + x)
  let w := z * z / fixOne
  2 * (z * (List.range 64).foldr (fun i a => fixOne / (2 * i + 1) + w * a / fixOne) 0 / fixOne)

/-- The mathematical value of a function at (−1)^s × m × 2^e, as sign, magnitude and exponent, to far within the FP32 step: 1 GELU-tanh,
2 SiLU, 3 sigmoid, 4 softplus (R194), 5 exp (R212), which above 128 is beyond FP32 and stays at its value there. -/
def actValue (fn : Nat) (s : Bool) (m : Nat) (e : Int) : Bool × Nat × Int :=
  let v := fixOf m e
  match fn with
  | 1 =>
    let y := v + 44715 * (v * v / fixOne * v / fixOne) / 1000000
    (s, m * fixSigma s (fixGelu * y / fixOne), e - 192)
  | 2 => (s, m * fixSigma s v, e - 192)
  | 3 => (false, fixSigma s v, -192)
  | 4 =>
    let l := fixLog1p (fixExpNeg v)
    if s then (false, l, -192) else (false, alignTo m e (min e (-192)) + alignTo l (-192) (min e (-192)), min e (-192))
  | _ => (false, if s then fixExpNeg v else fixOne * fixOne / fixExpNeg (min v (127 * fixOne)), -192)

/-- The exponent of a unit in the last place of FP32 at m × 2^e; a value within 2^−40 of the next power of two takes that one's. -/
def ulp32 (m : Nat) (e : Int) : Int :=
  if m = 0 then -149 else max (-149) ((Nat.log2 (m + m / 2 ^ 40) : Int) + e - 23)

/-- A result r lies within 2 units in the last place of FP32 of a value a (R195), with 2^−16 of a unit for the arithmetic here. -/
def within2 (r a : Bool × Nat × Int) : Bool :=
  let u := ulp32 a.2.1 a.2.2 - 16
  let q := min (min r.2.2 a.2.2) u
  let sg (x : Bool × Nat × Int) : Int := if x.1 then -(alignTo x.2.1 x.2.2 q : Int) else (alignTo x.2.1 x.2.2 q : Int)
  decide ((sg r - sg a).natAbs ≤ (2 ^ 17 + 1) * alignTo 1 u q)

/-- m × 2^e with every factor 2 of m moved into e. -/
def normPow : Nat → Nat → Int → Nat × Int
  | 0, m, e => (m, e)
  | n + 1, m, e => if m ≠ 0 ∧ m % 2 = 0 then normPow n (m / 2) (e + 1) else (m, if m = 0 then 0 else e)

/-- A function of the table file ATL-9416-FC-ACT at a finite value (R195, log 5): the table's result, free within its bound. A free
value outside the bound stands for the FP32 value nearest to the function. -/
def actFinite (fn : Nat) (s : Bool) (m : Nat) (e : Int) : FNum :=
  let n := normPow (Nat.log2 m + 1) m e
  let a := actValue fn s n.1 n.2
  let r := Config.actTable fn s n.1 n.2
  if within2 r a then .fin r.1 r.2.1 r.2.2 else FNum.round { fp32Fmt with maxE := 4096 } (.fin a.1 a.2.1 a.2.2)

end Sys2Proof.Machine
end

