-- ==== Sys2Proof/Machine/State.lean ====
section
/-! DEFINITION. The state of the Atelo as plain data, block by block, the reasons a step can stop, and the state right after
reset. Each field's comment names its width, the file and rule of the spec that give it, and its reset value. -/

namespace Sys2Proof.Machine

open Sys2Proof

/-- The reasons a step can stop the machine. No meaning of this model answers with one: a step that the state does not enable
changes nothing (log 3), and AON without power only waits for power. The one constructor stands for an access to an address
that the spec says does not exist, which the model's accesses never reach (safe). -/
inductive Fault where
  /-- Raised by no command; an address outside every memory the spec lays out (safe). -/
  | noSuchAddress
deriving DecidableEq, Repr

/-- The reasons a step can refuse a command. -/
inductive Refusal where
  /-- Raised only by an arm of exec whose command has no meaning in this model yet (safe). -/
  | notModelled (mnemonic : String)
deriving DecidableEq, Repr

/-- Severities of events (Table 13.6). -/
inductive Sev where
  | info | minor | major | critical
deriving DecidableEq, Repr

/-- One event: CODE, SEVERITY, SEQ, BEAT and DETAIL of Table 13.6. -/
structure Event where
  code : Nat
  sev : Sev
  seq : Nat
  beat : Nat
  detail : Nat
deriving DecidableEq, Repr

/-- Readiness states (Table 2.2). -/
inductive Readiness where
  | rom | clocking | fwVerify | domains | memory | links | ready | recovery | failed
deriving DecidableEq, Repr

/-- Lock detector states (Table 3.3, Table 3.9). -/
inductive LockSt where
  | off | acquire | locked | lost | failed
deriving DecidableEq, Repr

/-- What an idle core loop is locking to, or holds (R75, R76, R457). -/
inductive LoopPurpose where
  | none | hop | fallbackHop | standby | base | baseFallback
deriving DecidableEq, Repr

/-- One core or beat loop of the synthesiser. -/
structure LoopSt where
  /-- 3 bits; 03 R66, Table 3.9; reset OFF. -/
  ld : LockSt
  /-- profile index the loop is retargeted to; 03 R75; reset none. -/
  target : Option Nat
  /-- why the loop locks that profile; 03 R75, R76, R457; reset none. -/
  purpose : LoopPurpose
  /-- slot of the HOP the target is for; 03 R75; reset none. -/
  slot : Option Nat
  /-- the band step of R76 has been made in this pre-lock: the band before it; 03 R76; reset none. -/
  stepped : Option Nat
  /-- live lower comparator; 1 bit; 03 R61, Table 3.10; reset 0. -/
  lowLive : Bool
  /-- live upper comparator; 1 bit; 03 R61, Table 3.10; reset 0. -/
  highLive : Bool
  /-- sticky lower crossing, W1C; 1 bit; 03 R61, Table 3.10; reset 0. -/
  low : Bool
  /-- sticky upper crossing, W1C; 1 bit; 03 R61, Table 3.10; reset 0. -/
  high : Bool
  /-- the pre-lock limit T_pl runs, from the write of a profile or a band step until LOCKED; 03 R67; reset false. -/
  pre : Bool
  /-- the compliance flag that fell in this pre-lock, true for the upper one; 03 R76; reset none. -/
  preFlag : Option Bool
  /-- band retargets due at the next pre-lock, by profile and direction; 03 R63, R64; reset empty. -/
  retarget : SMap Int
  /-- reference cycles of the violations still in the 256-cycle window; 03 R66, Table 3.3; reset empty. -/
  viol : List Nat
  /-- losses of lock; 8 bits, saturates; 03 R80, Table 3.13; reset 0. -/
  lol : Nat
  /-- beats of the last losses of lock, newest first; 03 R80; reset empty. -/
  lolBeats : List Nat
  /-- out of service; 03 R80; reset false. -/
  out : Bool
  /-- band and pump calibrations passed since the loop went out of service; 03 R80; reset false. -/
  bandOk : Bool
  pumpOk : Bool
deriving DecidableEq, Repr

/-- A loop that is off. -/
def LoopSt.init : LoopSt :=
  { ld := .off, target := none, purpose := .none, slot := none, stepped := none, lowLive := false, highLive := false, low := false,
    high := false, pre := false, preFlag := none, retarget := [], viol := [], lol := 0, lolBeats := [], out := false, bandOk := false,
    pumpOk := false }

/-- One profile of a core loop's table (Table 3.18). -/
structure Profile where
  fallback : Nat
  icp : Nat
  band : Nat
  valid : Bool
  d : Nat
  p : Nat
  n : Nat
  f : Nat
  kvco : Nat
  vtCal : Nat
deriving DecidableEq, Repr

/-- Core clock sources (Table 3.9). -/
inductive CoreSrc where
  | c0 | c1 | safe | gated
deriving DecidableEq, Repr

/-- Clock holds (R86). -/
inductive Hold where
  | none | freeze | safeClock
deriving DecidableEq, Repr

/-- Runs, failures and last success of a calibration kind (Table 3.17). -/
structure CalStat where
  runs : Nat
  fails : Nat
  lastBeat : Nat
deriving DecidableEq, Repr

/-- The frequency synthesiser (chapter 3). -/
structure Syn where
  /-- REF_SEL; 1 bit; 03 R53, Table 3.9; reset 0 (HIVE_REF). -/
  refSel : RefIn
  /-- HREF_OK; 1 bit; 03 R53, Table 3.9; reset 0. -/
  hrefOk : Bool
  /-- LREF_OK; 1 bit; 03 R53, Table 3.9; reset 0. -/
  lrefOk : Bool
  /-- HIVE_REF carries a valid reference, as it was last seen; 03 R51, R52, 04 R104, R108; reset false. -/
  hrefIn : Bool
  /-- LOCAL_REF carries a valid reference, as it was last seen; 03 R51, R52, 04 R104, R108; reset false. -/
  lrefIn : Bool
  /-- a reference has been selected and PLL-B acquires it; 02 Table 2.3; reset false. -/
  refFound : Bool
  /-- failed checks of R51 since the anchor; 02 R30; reset 0. -/
  checksFailed : Nat
  /-- PLL-B; 03 R51; reset OFF. -/
  b : LoopSt
  /-- PLL-C0; 03; reset OFF. -/
  c0 : LoopSt
  /-- PLL-C1; 03; reset OFF. -/
  c1 : LoopSt
  /-- PLL-B has locked since AON power-good; 03 R70; reset false. -/
  bLocked : Bool
  /-- PLL-B in holdover; 04 R104, Table 4.5 HOLDOVER; reset 0. -/
  holdover : Bool
  /-- beats in holdover; 04 Table 4.2; reset 0. -/
  holdBeats : Nat
  /-- CORE_SRC; 2 bits; 03 Table 3.9; reset 0b10 (safe clock). -/
  src : CoreSrc
  /-- PROF_NOW; 4 bits; 03 Table 3.9; reset 0. -/
  profNow : Nat
  /-- SYN_HOPCNT; 32 bits, saturates; 03 Table 3.11; reset 0. -/
  hopCnt : Nat
  /-- SYN_HOPCANCEL.CANCEL; 16 bits, RC; 03 Table 3.12; reset 0. -/
  cancel : Nat
  /-- SYN_HOPCANCEL.HOPLATE; 16 bits, RC; 03 Table 3.12; reset 0. -/
  hopLate : Nat
  /-- SYN_VIOL; 32 bits, RC; 03 Table 3.14; reset 0. -/
  violCnt : Nat
  /-- SYN_B_PHASE; 32 bits two's complement; 03 Table 3.15; reset 0. -/
  phase : Int
  /-- SYN_B_SLIP; 32 bits two's complement; 03 Table 3.15; reset 0. -/
  slip : Int
  /-- SYN_B_CFG.XM_DIV; 2 bits; 03 Table 3.16; reset 0. -/
  xmDiv : Nat
  /-- SYN_B_CFG.ICP; 6 bits; 03 Table 3.16; reset 31. -/
  icpB : Nat
  /-- SYN_B_CFG.BAND; 5 bits; 03 Table 3.16; reset 21. -/
  bandB : Nat
  /-- SYN_CALSTAT kinds 0 to 2, US_CAL kinds 3 and 4; 03 Table 3.17, 16 Table 16.6; reset 0. -/
  cal : Vector CalStat 5
  /-- profile tables, 16 entries each; 03 R84, Table 3.18; reset VALID 0, KVCO 450. -/
  prof0 : SMap Profile
  prof1 : SMap Profile
  /-- profile writes that wait until the profile is no longer on the active loop of its table: the loop's number, the index and
  the entry; 03 R84; reset none. -/
  profDue : List (Nat × Nat × Profile)
  /-- measured K_vco of a loop and band, MHz/V, entry 32 × loop + band; 03 R60; reset 450 (unlisted). -/
  kvco : SMap Nat
  /-- the 256 entries of the phase-interpolator table, and the one step that waits for the next beat edge; 03 Table 3.6; reset 0
  (unlisted), none. -/
  interp : SMap Int
  interpDue : SMap Int
  /-- clock hold in force; 03 R86; reset none. -/
  hold : Hold
  /-- the source behind the gate while the core clock is gated at the mux, which drives the core again after Park; 03 Table 3.7;
  reset safe clock. -/
  parkSrc : CoreSrc
  /-- a late swap waits for the first guard after its lock; 03 R76; reset none. -/
  lateSwap : Option Nat
  /-- the core swaps to the base profile at the first edge after a loop locks; 03 R74, R79; reset false. -/
  baseSwapDue : Bool
  /-- slot whose HOP has been cancelled before its guard; 03 R76; reset none. -/
  skip : Option Nat
deriving DecidableEq, Repr

/-- Phase states (Table 4.2). -/
inductive PState where
  | solo | seek | acquire | track | hold | master
deriving DecidableEq, Repr

/-- One phase sample of the estimator window (R91): the count of its edge, θ in half steps of 0.305 ps, and SYN_B_PHASE at the
edge. -/
structure Sample where
  edge : Nat
  theta : Int
  phase : Int
  port : Nat
deriving DecidableEq, Repr

/-- When a marker arrived (R88): the local edge that its Δ is taken against, by the count of edges and by the beat number it has,
Δ in steps of 0.305 ps, and SYN_B_PHASE at the edge before. -/
structure Arrival where
  edge : Nat
  num : Nat
  delta : Int
  phase : Int
deriving DecidableEq, Repr

/-- The last marker of a port (R87 to R89): what the neighbour advertised; the local edge of the last marker with timing; and the
two Δ last measured, newest first, each with the count of its edge. -/
structure MarkerSt where
  beat : Nat
  beatEdge : Nat
  sender : Nat
  master : Nat
  hops : Nat
  eligible : Bool
  holdover : Bool
  inPhase : Bool
  meas : List (Nat × Int)
  edgeSeen : Nat
  valid : Bool
  dlyValid : Bool
  dly : Nat
deriving DecidableEq, Repr

/-- No marker heard yet. -/
def MarkerSt.init : MarkerSt :=
  { beat := 0, beatEdge := 0, sender := 0, master := 0, hops := 31, eligible := false, holdover := false, inPhase := false,
    meas := [], edgeSeen := 0, valid := false, dlyValid := false, dly := 0 }

/-- The beat generator and the Hive phase engine (chapters 1 and 4). -/
structure Beat where
  /-- the beat runs (PLL-B has locked); 01 R15; reset false. -/
  running : Bool
  /-- HI_BEATNUM; 64 bits; 01 R15, Table 1.12; reset 0. -/
  num : Nat
  /-- HI_SLOTNOW; 7 bits; 01 Table 1.14; reset 0. -/
  slot : Nat
  /-- the guard of the current slot has begun; 01 R16; reset false. -/
  guard : Bool
  /-- HI_BEATCFG.SLOT_TICKS; 14 bits; 01 Table 1.13; reset 625. -/
  slotTicks : Nat
  /-- HI_BEATCFG.US_SLOTS; 6 bits; 01 Table 1.13; reset 6. -/
  usSlots : Nat
  /-- BEAT_SLOT, 128 descriptors of 32 bits; 04 R107; reset the idle table of R21 (unlisted). -/
  table : SMap Nat
  /-- PSTATE; 3 bits; 04 Table 4.5; reset 0 SOLO. -/
  pstate : PState
  /-- IN_PHASE; 1 bit; 04 Table 4.5; reset 0. -/
  inPhase : Bool
  /-- ELIGIBLE is withheld after 1,024 beats of holdover; 04 Table 4.2; reset false. -/
  steppedDown : Bool
  /-- MASTER_RANK; 10 bits; 04 Table 4.5; reset 0. -/
  masterRank : Nat
  /-- HOPS; 5 bits; 04 Table 4.5; reset 31. -/
  hops : Nat
  /-- PARENT_VALID and PARENT_RANK; 1 and 10 bits; 04 Table 4.6; reset 0. -/
  parent : Option Nat
  /-- MASTER_EN; 1 bit; 04 Table 4.6; reset 1. -/
  masterEn : Bool
  /-- OWN_RANK; 10 bits; 04 Table 4.6; reset 0. -/
  ownRank : Nat
  /-- BEAT_OFFSET_PS; 32 bits two's complement; 04 Table 4.7; reset 0. -/
  offsetPs : Int
  /-- BEAT_RATE_PPB; 32 bits two's complement; 04 Table 4.7; reset 0. -/
  ratePpb : Int
  /-- BEAT_SAMPLES.EXCLUDED; 16 bits, RC; 04 Table 4.7; reset 0. -/
  excluded : Nat
  /-- estimator window, at most 4,096 samples, oldest first; 04 R91; reset empty. -/
  window : List Sample
  /-- samples of the present edge, not yet judged; 04 R92; reset empty. -/
  fresh : List Sample
  /-- BEAT_PORTX; 20 bits; 04 Table 4.7; reset 0. -/
  portx : Vector Bool 20
  /-- consecutive edges each port was excluded; 04 R92; reset 0. -/
  portxRun : Vector Nat 20
  /-- BEAT_STEER; 32 bits two's complement; 04 Table 4.7; reset 0. -/
  steer : Int
  /-- BEAT_STEERLIM; 32 bits, RC; 04 Table 4.7; reset 0. -/
  steerLim : Nat
  /-- BEAT_JUMPS; 32 bits; 04 Table 4.7; reset 0. -/
  jumps : Nat
  /-- BEAT_LAST_J; 21 bits; 04 Table 4.7; reset 0. -/
  lastJ : Nat
  /-- slot 127 of the current beat is lengthened by this many ticks; 04 R100; reset 0. -/
  jumpDue : Nat
  /-- a coarse jump is due at the next edge, and the parent's edges that its lengthening passes; 04 R100; reset none. -/
  jumpSkip : Option Nat
  /-- the count of the edge of the last coarse jump: a sample of an earlier edge no longer describes the local edge; 04 R100;
  reset 0. -/
  jumpedAt : Nat
  /-- beat edges since reset, on which the ages of markers and samples stand whatever number is adopted; 04 R91, R102; reset 0. -/
  edges : Nat
  /-- beat number to adopt at the next edge; 04 R100, R103; reset none. -/
  adopt : Option Nat
  /-- BEAT_CHANGES.ELECTIONS; 16 bits; 04 Table 4.7; reset 0. -/
  elections : Nat
  /-- BEAT_CHANGES.PARENT_CHG; 16 bits; 04 Table 4.7; reset 0. -/
  parentChg : Nat
  /-- markers of each port; 04 R87 to R89; reset none heard. -/
  markers : Vector MarkerSt 20
  /-- edges in SEEK without a master heard, and edges in HOLD; 04 R97, Table 4.2; reset 0. -/
  waitEdges : Nat
  /-- hop distance before HOLD; 04 Table 4.2; reset 31. -/
  prevHops : Nat
  /-- consecutive edges with |ρ| above 15 ppm; 04 R94; reset 0. -/
  rateRun : Nat
  /-- samples gathered since the window was cleared; 04 Table 4.2; reset 0. -/
  gathered : Nat
  /-- SYN_B_PHASE as it stood at the last edge and at the edge before it; 04 R91; reset 0. -/
  phaseAt : Int
  phaseBefore : Int
deriving DecidableEq, Repr

/-- Plan states (Table 5.7, Table 5.10). -/
inductive PlanSt where
  | empty | loading | standby | installed | draining | unloading
deriving DecidableEq, Repr

/-- One stage descriptor (Table 8.3). -/
structure StageDesc where
  chain : Nat
  prologue : Nat
  perStage : Bool
  ifmt : Nat
  ofmt : Nat
  act : Nat
  keepK : Nat
  qmode : Nat
  hyst : Nat
  scaleSrc : Nat
  biasSrc : Nat
  fwdPayload : Nat
  amaxGain : Nat
  scalar : Nat
  scaleVec : Nat
  biasVec : Nat
  initScale : Nat
  fwdRank : Nat
  fwdPort : Nat
  gatherRows : Nat
  rsv : Nat
deriving DecidableEq, Repr

/-- One LINKS entry (Table 12.5), with its run-time state: the indexes written and verified, and completion (R291). -/
structure LinkEnt where
  port : Nat
  inbound : Bool
  kind : Nat
  first : Nat
  last : Nat
  peer : Nat
  flits : Nat
  object : Nat
  peerEntry : Nat
  dest : Nat
  rsv : Nat
  got : List Nat
  held : List Nat
  inst : Nat
  complete : Bool
  sent : Nat
deriving DecidableEq, Repr

/-- Result statuses of an instance that R265 orders, and the faults that give INCONSISTENT (R327). -/
structure InstFaults where
  poisoned : Bool
  fenced : Bool
  orderFault : Bool
  notOwner : Bool
  waitTimeout : Bool
  invalid : Bool
  cause : Nat
deriving DecidableEq, Repr

/-- No fault. -/
def InstFaults.none : InstFaults :=
  { poisoned := false, fenced := false, orderFault := false, notOwner := false, waitTimeout := false, invalid := false,
    cause := 0 }

/-- One plan instance: number n, the request that started it, the buffers lent to it, and its faults (R241, R255, R265). -/
structure Inst where
  n : Nat
  tag : Nat
  agent : Nat
  admitBeat : Nat
  refs : List Nat
  lent : List Nat
  faults : InstFaults
  policyDue : Bool
  stopped : Bool
deriving DecidableEq, Repr

/-- One replacement phase: the plan banks it replaces, as pairs of slice and plan bank, and the shadow banks reserved for
them (R123, R124). -/
structure ReplPhase where
  banks : List (Nat × Nat)
  shadow : List (Nat × Nat × Nat)
  ready : Bool
deriving DecidableEq, Repr

/-- One plan context (CMB_CTX, Table 5.10) and what the resident plan's image gives it. -/
structure PlanCtx where
  /-- PLAN_ID; 64 bits; 05 Table 5.10; reset 0. -/
  planId : Nat
  /-- STATE; 3 bits; 05 Table 5.10; reset EMPTY. -/
  st : PlanSt
  /-- PARITY; 1 bit; 05 Table 5.10; reset 0. -/
  parity : Bool
  /-- LOAD_PCT; 8 bits; 05 Table 5.10; reset 0. -/
  loadPct : Nat
  /-- SO_COUNT; 9 bits; 05 Table 5.10; reset 0. -/
  soCount : Nat
  /-- SO_BASE; 8 bits; 05 Table 5.10, R114; reset 0. -/
  soBase : Nat
  /-- bank map, entry 64 q + b: the physical bank; 05 R122, R133; reset none. -/
  bankMap : SMap Nat
  /-- BANKUSE, one list of used pages for each claimed plan bank, entry 64 q + b; 05 Table 5.3. -/
  bankUse : SMap (List Nat)
  /-- the image and its programs while the plan is resident; 05 R119, R120. -/
  src : Option PlanSource
  slotTicks : Nat
  admitRate : Nat
  skip : Bool
  hiveSize : Nat
  quads : Nat
  usMin : Nat
  ports : Nat
  banks : List Nat
  feeders : List Nat
  xmBytes : Nat
  ctxBytes : Nat
  slots : List Nat
  profiles : List (Nat × Profile × Bool)
  chains : List StageDesc
  links : List LinkEnt
  groups : List (List (Nat × Nat))
  stripes : List (Nat × Nat × Nat)
  /-- halted by HALT since the last PLAN_ACTIVATE; 13 R323. -/
  halted : Bool
  /-- running instances; 10 R241; reset none. -/
  insts : List Inst
  /-- instances admitted since PLAN_ACTIVATE; 11 R255. -/
  admitted : Nat
  /-- beat of the last HALT applied or received; 12 R294. -/
  haltBeat : Option Nat
  /-- the stop of a received HALT is due at this edge; 12 R294. -/
  haltDue : Option Nat
  /-- replacement phases not yet swapped; PHASES_LEFT is their number; 05 R123, R124; reset none. -/
  phases : List ReplPhase
  /-- the replacement image; 05 R123; reset none. -/
  replSrc : Option PlanSource
  /-- its page maps by replaced bank, 64 q + b, and the entries of its PARITY section; 05 R123, R125; reset none. -/
  replUse : SMap (List Nat)
  replStripes : List (Nat × Nat × Nat)
  /-- PWR_TOL_CTX; 32 bits; 17 Table 17.5; reset 0xFFFF_FFFF. -/
  tol : Nat
  /-- RCS_CTXBASE; 8 bits; 09 R230; reset 0. -/
  rcsBase : Nat
  rcsCount : Nat
  /-- XM_CTXBASE; 64 bits; 10 Table 10.6; reset 0. -/
  xmBase : Nat
  /-- the feeder threads that the plan's threads take, by quadrant, lowest free first; 05 Table 5.4, 10 R235; DESIGN CHOICE (log 41). -/
  threads : List (List Nat)
  /-- regions of the plan's area taken by ALLOC, as base and length; 10 Table 10.3. -/
  allocs : List (Nat × Nat)
deriving DecidableEq, Repr

/-- A free plan context. -/
def PlanCtx.init : PlanCtx :=
  { planId := 0, st := .empty, parity := false, loadPct := 0, soCount := 0, soBase := 0, bankMap := [], bankUse := [],
    src := none, slotTicks := 625, admitRate := 0, skip := false, hiveSize := 1, quads := 0, usMin := 0, ports := 0,
    banks := [], feeders := [], xmBytes := 0, ctxBytes := 0, slots := [], profiles := [], chains := [], links := [],
    groups := [], stripes := [], halted := false, insts := [], admitted := 0, haltBeat := none, haltDue := none,
    phases := [], replSrc := none, replUse := [], replStripes := [], tol := 0xFFFFFFFF, rcsBase := 0, rcsCount := 0, xmBase := 0, threads := [],
    allocs := [] }

/-- One page on the rebuild list (R127, R128): the context, the beats waited, and the flits received from the peers. -/
structure Rebuild where
  page : Nat
  ctx : Nat
  stripe : Nat
  waited : Nat
  data : SMap Byte
  got : List (Nat × Nat)
  failedOnce : Bool
  /-- event 0x0306 has been raised for it (R127). -/
  told : Bool
  /-- the free bank that the plan bank is copied into (R130). -/
  copyTo : Option Nat
deriving DecidableEq, Repr

/-- The Comb controller (chapter 5). -/
structure Cmb where
  /-- Comb contents, 1,536 MiB; 05 R109; reset zero-filled (Table 2.1), so an unlisted byte reads 0. -/
  mem : SMap Byte
  /-- FIT_MODE; 1 bit; 05 Table 5.9; reset 0 strict. -/
  rotate : Bool
  /-- plan contexts 0 to 3; 05 Table 5.10; reset EMPTY. -/
  ctx : Vector PlanCtx 4
  /-- physical banks awaiting zero-fill, as 64 q + bank; CMB_DIRTY counts them; 05 R121; reset none. -/
  dirty : List Nat
  /-- CMB_CE_CNT; 32 bits, RC; 05 Table 5.9; reset 0. -/
  ce : Nat
  /-- CMB_UE_CNT; 32 bits; 05 Table 5.9; reset 0. -/
  ue : Nat
  /-- poison map, one bit a page; CMB_POISON counts them; 05 R128, R133; reset 0. -/
  poison : SMap Bool
  /-- pages whose error has been set right and whose poison clears at the next edge; 05 R130. -/
  clearing : List Nat
  /-- retired pages in Heartwood's list, at most 4,096; 05 R131; reset none. -/
  retired : List Nat
  /-- pages retired for the run only; 05 R131; reset none. -/
  retiredRun : List Nat
  /-- CMB_REBUILD.DONE; 16 bits, RC; 05 Table 5.9; reset 0. -/
  rebuilt : Nat
  /-- the rebuild list; PENDING is its length; 05 R128; reset empty. -/
  rebuilds : List Rebuild
  /-- CMB_LASTERR; VALID RC, PAGE; 05 Table 5.9; reset 0. -/
  lastErrValid : Bool
  lastErrPage : Nat
  /-- context whose plan or replacement image is being fetched; 05 R120; reset none. -/
  fetch : Option Nat
  /-- the fetch serves a replacement phase; 05 R124. -/
  fetchRepl : Bool
  /-- pages whose poison a planned read met in this beat; 05 R129. -/
  readThisBeat : List Nat
  /-- copied plan banks whose map entry swaps at the next edge: context, 64 q + plan bank, new bank, failing page; 05 R130. -/
  mapDue : List (Nat × Nat × Nat × Nat)
  /-- transfers of the fetch made so far; LOAD_PCT; 05 R120; reset 0. -/
  fetchDone : Nat
  /-- transfers of 64 bytes that the fetch has written to each physical page; 05 R120; reset 0 (unlisted). -/
  fill : SMap Nat
deriving DecidableEq, Repr

/-- Long-accumulator classes (R171, R178). -/
inductive AccCls where
  | fin | pinf | ninf | nan
deriving DecidableEq, Repr

/-- Long-accumulator modes (Table 7.2). -/
inductive AccMode where
  | int | fp8 | window
deriving DecidableEq, Repr

/-- One long accumulator: its value in units of bit 0, its class, and whether it has saturated (R175 to R178). -/
structure AccCell where
  val : Int
  cls : AccCls
  sat : Bool
  lost : Bool
deriving DecidableEq, Repr

/-- The accumulator that a clear leaves (R180). -/
def AccCell.zero : AccCell := { val := 0, cls := .fin, sat := false, lost := false }

/-- One accumulator set of 128 × 512 long accumulators, entry 512 r + l, with its tile flags (R174, R180, R181). -/
structure AccSet where
  cells : SMap AccCell
  mode : AccMode
  anchor : Int
  sat : Bool
  lost : Bool
  nan : Bool
  inf : Bool
  poison : Bool
  opened : Bool
  perm : List Nat
  rows : Nat
  scale : Option Nat
  scaleMix : Bool
  ctx : Nat
  adm : Nat
  desc : Nat
  tileSeq : Nat
  resid : Option Nat
  out : Option Nat
  outCols : Nat
  link : Nat
deriving DecidableEq, Repr

/-- An accumulator set after a clear. -/
def AccSet.init : AccSet :=
  { cells := [], mode := .int, anchor := 0, sat := false, lost := false, nan := false, inf := false, poison := false,
    opened := false, perm := [], rows := 0, scale := none, scaleMix := false, ctx := 0, adm := 0, desc := 0, tileSeq := 0,
    resid := none, out := none, outCols := 0, link := 0 }

/-- An activation or residual tile in the quadrant's buffer: K_T, format, the codes of the values at r × K_T + k, block scale
codes at r × (K_T / 32) + j, and the SCALE, FLAGS and poison of its header (R137, R142, R191). -/
structure ActTile where
  kT : Nat
  fmt : ValFmt
  scaled : Bool
  codes : SMap Nat
  scales : SMap Nat
  scale : Nat
  /-- FLAGS of the tile's header; 08 R191, Table 8.1. -/
  flags : Nat
  poison : Bool
deriving DecidableEq, Repr

/-- The pass that runs (R151 to R161): its declaration, the costs computed at its start, and what its lanes deliver. -/
structure RunPass where
  d : PassDesc
  ctx : Nat
  adm : Nat
  planned : Nat
  actual : Nat
  /-- formed pairs of each lane, group by group: K index and weight code (R148, R166). -/
  lanes : List (Nat × List (List (Nat × Nat)))
  scaled : Bool
  wfmt : ValFmt
  scaleBlk : SMap Nat
  kT : Nat
deriving DecidableEq, Repr

/-- A tile or record that a chain has finished and that waits for its link window (R203, R205). -/
structure Forward where
  ctx : Nat
  adm : Nat
  entry : Nat
  port : Nat
  bytes : List Byte
  sent : Nat
  inst : Nat
  /-- when the tile was ready, as 128 × beat + slot. -/
  born : Nat
deriving DecidableEq, Repr

/-- The scale state of one chain stream (R202): scale in force as an FP32 code, down_run and run_max. -/
structure ChainSt where
  inForce : Nat
  downRun : Nat
  runMax : Nat
deriving DecidableEq, Repr

/-- What a context last saved on a quadrant (R187). -/
structure SavedCtx where
  planId : Nat
  mode : AccMode
  anchor : Int
  cols : Nat
  seq : Nat
  /-- SCALE of the first activation tile of the open tile, and a mix of them, kept beside the record; 08 R209; DESIGN CHOICE (log 118). -/
  scale : Option Nat
  scaleMix : Bool
deriving DecidableEq, Repr

/-- An FC11 tile on its way to the fused gate path: its FP32 codes, its poison and its batch (R193, R220). -/
structure FcTile where
  codes : List Nat
  poison : Bool
  ctx : Nat
  adm : Nat
deriving DecidableEq, Repr

/-- A chunk that holds the scan buffer (R219): the a, u and h values of step t and element i at t × D + i as FP32 codes. -/
structure ChunkRun where
  stream : Nat
  level : Nat
  phase : ChunkPhase
  a : SMap Nat
  u : SMap Nat
  h : SMap Nat
  h0 : SMap Nat
  exact : List (Nat × Int)
  zeroStart : Bool
  poison : Bool
  /-- z, x, B and C of the chunk as FP32 codes, in the order of R212; 09 R218. -/
  input : List Nat
  out : Option Nat
  ctx : Nat
  adm : Nat
deriving DecidableEq, Repr

/-- A blocked sync operation (R254). -/
structure Blocked where
  acq : Bool
  obj : Nat
  thr : Nat
deriving DecidableEq, Repr

/-- One operation that waits in a quadrant: its context, the admission beat of its instance, and whether it is the first of a
slot whose boundary passed while earlier work still ran (R25). -/
structure Todo where
  ctx : Nat
  adm : Nat
  op : ProgOp
  late : Bool
deriving DecidableEq, Repr

/-- A feed that its thread has not taken up yet (10 R235, R243): its batch, the feed, and how many
operations in front of the quadrant's list still stand before it, the last of which uses the same thread. -/
structure FeedDue where
  ctx : Nat
  adm : Nat
  d : FeedDesc
  ahead : Nat
deriving DecidableEq, Repr

/-- One quadrant: the join units, the array, the drain unit, the fused chain unit and the stream engine (chapters 6 to 9),
with the operations of its slot program that have not run yet. -/
structure QuadSt where
  /-- operations of the slot program whose slot has begun, in program order; 06 R153, 01 R24, R25; reset none. -/
  todo : List Todo
  /-- feeds that are due and whose thread has not taken them up; 10 R235; reset none. -/
  feeds : List FeedDue
  /-- the quadrant has yielded to a guaranteed Understory slot; 01 R26; reset false. -/
  yielded : Bool
  /-- instances, by context and admission beat, of which the quadrant runs no further work; 11 R258, R264; reset none. -/
  stopped : List (Nat × Nat)
  /-- blocked sync operation; 11 R254; reset none. -/
  blocked : Option Blocked
  /-- the pass that runs; JN_STAT, ARR_STAT.BUSY; 06 Table 6.8; reset none. -/
  run : Option RunPass
  /-- activation tile buffer by feeder thread; 06 R137; reset empty. -/
  acts : SMap ActTile
  /-- bytes delivered by GATHER and STREAM threads and index lists, with their poison, by thread; 10 Table 10.2; reset empty. -/
  raw : SMap (List Byte × Bool)
  /-- set A and set B of the drain unit; 07 R180; reset clear. -/
  setA : AccSet
  setB : AccSet
  /-- ARR_STAT.ACTIVE: the active set is set B; 07 Table 7.7; reset 0. -/
  activeB : Bool
  /-- a closed tile waits for the swap; 07 R181, R182; reset false. -/
  swapDue : Bool
  /-- ARR_STAT.SHADOW_BUSY; 07 Table 7.7; reset 0. -/
  shadowBusy : Bool
  /-- P and KB and format codes of the current tile; 06 Table 6.8, 07 Table 7.7; reset P 8, others 0. -/
  curP : Nat
  curKb : Nat
  curFmt : Nat
  curVal : Nat
  /-- JN_FAULT: POISON_IN, BOUND, FMT, W1C; 06 Table 6.9; reset 0. -/
  jnPoison : Bool
  jnBound : Bool
  jnFmt : Bool
  /-- JN_FAULT_ADDR, 32 bits; JN_FAULT_CODE, 8 bits; 06 Table 6.10; reset 0. -/
  jnAddr : Nat
  jnCode : Nat
  /-- JN_PASSES, JN_BOUNDX, JN_FMTX 32 bits; JN_SAVED, JN_PAIRS 64 bits; 06 Table 6.10; reset 0. -/
  jnPasses : Nat
  jnBoundx : Nat
  jnFmtx : Nat
  jnSaved : Nat
  jnPairs : Nat
  /-- ARR_FLAGS, W1C; 07 Table 7.8; reset 0. -/
  arrCtxErr : Bool
  arrPoison : Bool
  arrNan : Bool
  arrInf : Bool
  arrLost : Bool
  arrSat : Bool
  /-- ARR_UNDER RC, ARR_SATX, ARR_DRAINSTALL RC 32 bits; ARR_SAVES 16 + 16 bits; 07 Table 7.9; reset 0. -/
  arrUnder : Nat
  arrSatx : Nat
  arrStall : Nat
  arrSaves : Nat
  arrRestores : Nat
  /-- ARR_AMAX, FP32, 32 bits; 07 Table 7.9; reset 0. -/
  arrAmax : Nat
  /-- AMAX of the shadow set, exact: magnitude and exponent; 07 R181; reset 0. -/
  amaxM : Nat
  amaxE : Int
  /-- last-saved values of each context, in AON; 07 R187; reset none. -/
  saved : Vector (Option SavedCtx) 4
  /-- FUS_FAULT: RECORD, FWD_DROP, SCALE_MIX, GATHER, POISON_OUT, W1C; 08 Table 8.8; reset 0. -/
  fusRecord : Bool
  fusDrop : Bool
  fusMix : Bool
  fusGather : Bool
  fusPoisonOut : Bool
  /-- FUS_STAT.DESC, CHAIN, BUSY; 08 Table 8.7; reset 0. -/
  fusDesc : Nat
  fusChain : Nat
  fusBusy : Bool
  /-- FUS_STAT.PRO_BUSY; 08 Table 8.7; reset 0. -/
  fusPro : Bool
  /-- FUS_FAULT_CODE 8 bits; FUS_TILES, FUS_QSATX RC, FUS_POISONX, FUS_FWDTILES, FUS_FWDDROP 32 bits; 08 Table 8.9; reset 0. -/
  fusCode : Nat
  fusTiles : Nat
  fusQsatx : Nat
  fusPoisonx : Nat
  fusFwd : Nat
  fusFwdDrop : Nat
  /-- FUS_LASTSCALE, FP32, 32 bits; FUS_HYST 8 + 3 bits; 08 Table 8.9; reset 0. -/
  fusScale : Nat
  fusHystDesc : Nat
  fusDownRun : Nat
  /-- scale state of the chain streams, entry 256 ctx + descriptor; 08 R202; reset INIT_SCALE (unlisted). -/
  chains : SMap ChainSt
  /-- tiles that wait for their link window; 08 R205; reset none. -/
  fwds : List Forward
  /-- FC11 tiles delivered to the fused gate path; 08 R193, 09 R220; reset none. -/
  fc11 : List FcTile
  /-- batches, by context and admission beat, once for each FC11 tile of a skipped chunk that has yet to come; 09 R225; reset none. -/
  fc11Skip : List (Nat × Nat)
  /-- a watchdog reset has spoiled the λ of the chunk whose GATE comes next; 11 Table 11.4, 09 R226; reset false. -/
  lamPoison : Bool
  /-- the chunk that holds the scan buffer; RCS_STAT; 09 Table 9.6; reset none. -/
  chunk : Option ChunkRun
  /-- RCS_FAULT: ABORTED, SKIPPED, NONFINITE, POISON_IN, W1C; 09 Table 9.7; reset 0. -/
  rcsAborted : Bool
  rcsSkipped : Bool
  rcsNonfin : Bool
  rcsPoison : Bool
  /-- RCS_CHUNKS, RCS_RENORM, RCS_EARLYREN RC, RCS_SKIPX, 32 bits; 09 Table 9.8; reset 0. -/
  rcsChunks : Nat
  rcsRenorm : Nat
  rcsEarly : Nat
  rcsSkipx : Nat
  /-- variables of the slot programs that hold buffer references, by variable, context and batch; 10 Table 10.3 ALLOC; reset none. -/
  vars : SMap Nat
  /-- the quadrant is reset at the next edge; 02 R47; reset false. -/
  resetDue : Bool
  /-- the beat at whose edge the quadrant was last reset, in which it runs no planned work; 02 R47; reset none. -/
  resetAt : Option Nat
deriving DecidableEq, Repr

/-- A quadrant after a cold reset. -/
def QuadSt.init : QuadSt :=
  { todo := [], feeds := [], yielded := false, stopped := [], blocked := none, run := none, acts := [], raw := [],
    setA := .init, setB := .init, activeB := false, swapDue := false, shadowBusy := false, curP := 8, curKb := 0,
    curFmt := 0, curVal := 0, jnPoison := false, jnBound := false, jnFmt := false, jnAddr := 0, jnCode := 0, jnPasses := 0,
    jnBoundx := 0, jnFmtx := 0, jnSaved := 0, jnPairs := 0, arrCtxErr := false, arrPoison := false, arrNan := false,
    arrInf := false, arrLost := false, arrSat := false, arrUnder := 0, arrSatx := 0, arrStall := 0, arrSaves := 0,
    arrRestores := 0, arrAmax := 0, amaxM := 0, amaxE := 0, saved := Vector.replicate 4 none,
    fusRecord := false, fusDrop := false, fusMix := false, fusGather := false,
    fusPoisonOut := false, fusDesc := 0, fusChain := 0, fusBusy := false, fusPro := false, fusCode := 0, fusTiles := 0,
    fusQsatx := 0, fusPoisonx := 0, fusFwd := 0, fusFwdDrop := 0, fusScale := 0, fusHystDesc := 0, fusDownRun := 0,
    chains := [], fwds := [], fc11 := [], fc11Skip := [], lamPoison := false, chunk := none, rcsAborted := false, rcsSkipped := false, rcsNonfin := false,
    rcsPoison := false, rcsChunks := 0, rcsRenorm := 0, rcsEarly := 0, rcsSkipx := 0, vars := [], resetDue := false,
    resetAt := none }

/-- Stream states (Table 9.1). -/
inductive StreamSt where
  | free | idle | running | paused | ended
deriving DecidableEq, Repr

/-- One stream table entry (Table 9.1), with the STREAM_CTL actions that wait for a chunk boundary (R225). -/
structure StreamEnt where
  ptr : Nat
  g : Nat
  nLog2 : Nat
  mode : Nat
  len : Nat
  renorm : Nat
  quad : Nat
  lambda : Nat
  reset : Bool
  cur : Bool
  poison : Bool
  nonfin : Bool
  st : StreamSt
  ctx : Nat
  seq : Nat
  action : List Nat
deriving DecidableEq, Repr

/-- A free stream table entry. -/
def StreamEnt.init : StreamEnt :=
  { ptr := 0, g := 0, nLog2 := 0, mode := 0, len := 0, renorm := 0, quad := 0, lambda := 0, reset := false, cur := false,
    poison := false, nonfin := false, st := .free, ctx := 0, seq := 0, action := [] }

/-- States of a feeder thread (R251). -/
inductive ThreadRun where
  | idle | waiting | issuing | late
deriving DecidableEq, Repr

/-- One feeder thread (XM_THR, R251). base is the resolved external memory address, issued the bytes issued, done the bytes
moved; data holds the bytes a write still has to send. -/
structure Thread where
  d : FeedDesc
  ctx : Nat
  inst : Nat
  run : ThreadRun
  base : Nat
  issued : Nat
  done : Nat
  ref : Nat
  data : List Byte
  poison : Bool
  missed : Bool
  /-- the beat of the thread's last event 0x0801; 10 R238; reset none. -/
  missBeat : Option Nat
  /-- a PERSIST thread whose transfers for an ended instance are still in flight; 10 R243; reset false. -/
  closing : Bool
  admitBeat : Nat
deriving DecidableEq, Repr

/-- One transfer in flight (R236): its thread (32 q + i), or that number plus 128 once the thread has ended (R250), address, length
and direction, the issue time, a repeat made, and the bytes a write carries. -/
structure Transfer where
  tag : Nat
  thread : Nat
  addr : Nat
  len : Nat
  off : Nat
  write : Bool
  t0 : Nat
  repeated : Bool
  data : List Byte
deriving DecidableEq, Repr

/-- The external memory interface and its feeders (chapter 10). -/
structure Xm where
  /-- external memory; 10 R234; an unlisted byte reads 0 until contents are lost (log 4). -/
  mem : SMap Byte
  /-- losses of contents; 09 R228, 10 R249, 02 Table 2.7; reset 0. -/
  epoch : Nat
  /-- bytes that count as poisoned until they are written; 10 R240; reset none. -/
  poison : SMap Bool
  /-- XM_STAT.CHAN_OK; 8 bits; 10 Table 10.6; reset 0. -/
  chanOk : Nat
  /-- XM_STAT.RATE; 2 bits; 10 Table 10.6; reset 0. -/
  rate : Nat
  /-- XM_STAT.SHARE: FIXED; 1 bit; 10 Table 10.6; reset 0. -/
  fixed : Bool
  /-- XM_QUOTA; 11 bits each; 10 Table 10.6; reset 256. -/
  quota : Vector Nat 4
  /-- XM_DLMISS; 4 bits, W1C; 10 Table 10.6; reset 0. -/
  dlmiss : Vector Bool 4
  /-- XM_DLMISS_CNT; 32 bits, RC; 10 Table 10.6; reset 0. -/
  dlmissCnt : Nat
  /-- XM_TAGS.PEAK; 11 bits, RC; 10 Table 10.6; reset 0. -/
  peak : Nat
  /-- XM_LAT; 16 + 16 bits; 10 Table 10.6; reset 0. -/
  latMax : Nat
  latMean : Nat
  /-- read latencies of the current beat: sum, count, largest; 10 Table 10.6. -/
  latSum : Nat
  latCnt : Nat
  latTop : Nat
  /-- XM_ECC.UE and CE (RC); 16 bits each; 10 Table 10.6; reset 0. -/
  eccUe : Nat
  eccCe : Nat
  /-- feeder threads, entry 32 q + i; XM_THR; 10 R251; reset idle (unlisted). -/
  threads : SMap Thread
  /-- transfers in flight; XM_TAGS.IN_FLIGHT is their number; 10 R236; reset none. -/
  tags : List Transfer
  /-- quadrant last served by each channel under FIXED; 10 R237; DESIGN CHOICE 3, so Q0 is first (log 14). -/
  turn : Vector Nat 8
  /-- training has ended; 02 R37; reset false. -/
  trained : Bool
deriving DecidableEq, Repr

/-- Ledger entry states (Table 10.3). -/
inductive BlSt where
  | free | pooled | owned | lent
deriving DecidableEq, Repr

/-- One ledger entry (BL_ENTRY, Table 10.7), with its region. -/
structure BlEntry where
  gen : Nat
  holder : Nat
  owner : Nat
  st : BlSt
  base : Nat
  len : Nat
deriving DecidableEq, Repr

/-- The entry of a buffer that nobody holds. -/
def BlEntry.init : BlEntry := { gen := 0, holder := 0, owner := 0, st := .free, base := 0, len := 0 }

/-- The buffer ledger (chapter 10). -/
structure Bl where
  /-- 4,096 entries; 10 R244, Table 10.7; reset FREE, GEN 0 (unlisted). -/
  ent : SMap BlEntry
  /-- BL_DFREE_CNT, BL_NOWN_CNT; 32 bits; 10 Table 10.7; reset 0. -/
  dfree : Nat
  nown : Nat
  /-- BL_LAST; 16 + 16 bits; 10 Table 10.7; reset 0. -/
  lastCode : Nat
  lastRef : Nat
deriving DecidableEq, Repr

/-- One sync object (SO_OBJ, R253, Table 11.7). -/
structure SoObj where
  value : Nat
  holder : Option (Nat × Nat)
  /-- the admission beat of the holder's batch; none where no one holds. -/
  heldBy : Option Nat
  /-- the batch has completed and has left the hold; 11 R266. -/
  left : Bool
  remote : Bool
  step : Nat
deriving DecidableEq, Repr

/-- An object that no plan uses. -/
def SoObj.init : SoObj := { value := 0, holder := none, heldBy := none, left := false, remote := false, step := 0 }

/-- The sync objects (chapter 11). -/
structure So where
  /-- 256 objects; 11 R253, R275; reset VALUE 0, no holder (unlisted). -/
  obj : SMap SoObj
  /-- SO_INST; 64 bits each; 11 Table 11.6; reset 0. -/
  inst : Vector Nat 4
  /-- SO_ORDERX, SO_TIMEOUTX, SO_NOWNX, SO_STALE (RC), SO_STRAY; 32 bits; 11 Table 11.6; reset 0. -/
  orderx : Nat
  timeoutx : Nat
  nownx : Nat
  stale : Nat
  stray : Nat
  /-- SO_LAST: CODE, CTX, QUAD, INDEX; 11 Table 11.6; reset 0. -/
  lastCode : Nat
  lastCtx : Nat
  lastQuad : Nat
  lastIdx : Nat
deriving DecidableEq, Repr

/-- One entry of a side port's pending queue, and the owner of the data phase: requester, page, transfer number in the job. -/
structure PqEntry where
  id : Nat
  page : Nat
  write : Bool
deriving DecidableEq, Repr

/-- A job of a requester (R271): its length in transfers and its progress count, and how often it has been reset (R273). -/
structure PortJob where
  len : Nat
  done : Nat
  resets : Nat
deriving DecidableEq, Repr

/-- The Comb port arbiter of one slice (chapter 11). -/
structure Arb where
  /-- owner of the open data phase; ARB_STAT.OWNER; 11 Table 11.8; reset none (0xF). -/
  owner : Option PqEntry
  /-- ARB_STAT.DATA_CLKS; 12 bits; 11 Table 11.8; reset 0. -/
  clks : Nat
  /-- pending queue, 8 entries, oldest first; 11 R269; reset empty. -/
  queue : List PqEntry
  /-- jobs of requesters 0 to 13; ARB_PROG; 11 R271; reset 0. -/
  jobs : SMap PortJob
  /-- ARB_PQFULL RC, ARB_WDOG, ARB_DISPLACE RC; 32 bits; 11 Table 11.8; reset 0. -/
  pqfull : Nat
  wdog : Nat
  displace : Nat
  /-- ARB_WDLAST: PROG 16 bits, ID 4 bits; 11 Table 11.8; reset 0 and 0xF. -/
  wdProg : Nat
  wdId : Nat
  /-- ARB_GRANTS, 5 classes, RC; 32 bits; 11 Table 11.8; reset 0. -/
  grants : Vector Nat 5
  /-- requester last granted in each class; 11 R269; DESIGN CHOICE 13 (log 14). -/
  lastGrant : Vector Nat 5
  /-- scrub job abandoned and to be repeated; 16 R390; reset false. -/
  scrubAgain : Bool
  /-- the scrub job's next transfer writes a corrected one back; 16 R388; reset false. -/
  writeBack : Bool
  /-- an aperture read waits: offset and length; 13 R312; reset none. -/
  aperture : Option (Nat × Nat)
deriving DecidableEq, Repr

/-- The arbiter of one slice after a cold reset. -/
def Arb.init : Arb :=
  { owner := none, clks := 0, queue := [], jobs := [], pqfull := 0, wdog := 0, displace := 0, wdProg := 0, wdId := 15,
    grants := Vector.replicate 5 0, lastGrant := Vector.replicate 5 13, scrubAgain := false, writeBack := false, aperture := none }

/-- Port states (Table 12.2, Table 12.13). -/
inductive PortSt where
  | off | listen | training | up | absent | down | fenced | held
deriving DecidableEq, Repr

/-- A flit of a seal group that is not verified yet (R301): its arrival, if it is a marker, and whether it was accepted, so that
it has an effect once the group verifies. -/
structure SealedFlit where
  flit : List Byte
  arr : Option Arrival
  good : Bool
deriving DecidableEq, Repr

/-- A SEND whose sync flit waits for its link window or for room in the replay buffer (R261, R290). -/
structure SendWait where
  ctx : Nat
  inst : Nat
  obj : Nat
  inc : Nat
deriving DecidableEq, Repr

/-- A peer's page read that this member serves (R127, R384): where the page stands, and whom its data go to. -/
structure PeerRead where
  page : Nat
  planId : Nat
  stripe : Nat
  rank : Nat
deriving DecidableEq, Repr

/-- One hive port (chapter 12). -/
structure Port where
  /-- HL_PSTAT.STATE; 4 bits; 12 Table 12.13; reset OFF. -/
  st : PortSt
  /-- roster neighbour: rank (0xFFFF none) and port, EXPRESS; 12 Table 12.10; reset none. -/
  nbrRank : Nat
  nbrPort : Nat
  express : Bool
  /-- FENCE_CAUSE; 3 bits; 12 Table 12.13; reset 0. -/
  fence : Nat
  /-- SEALED; 1 bit; 12 Table 12.13; reset 0. -/
  sealed : Bool
  /-- lane that the spare carries in the receive direction, and in the transmit direction; SPARE_USED, SPARED_LANE; 12 R282,
  Table 12.13; reset none. -/
  spared : Option Nat
  txSpared : Option Nat
  /-- the receiver has a weak lane, which the spare carries; 12 R283; reset false. -/
  weak : Bool
  /-- the transmitter's move that a LANE flit asked for: lane, and true for back; 12 R282; reset none. -/
  move : Option (Nat × Bool)
  /-- the receiver's move, asked for by a LANE flit sent: lane, and true for back; 12 R282; reset none. -/
  laneTx : Option (Nat × Bool)
  /-- physical lane chosen as spare at training; 12 R278; reset 8. -/
  spareLane : Nat
  /-- HL_TRAIN: LAST_MS, ATTEMPTS 16 bits; HL_DROPS 32 bits; 12 Table 12.13; reset 0. -/
  lastMs : Nat
  attempts : Nat
  drops : Nat
  /-- beats of the last drops, newest first; 12 Table 12.2; reset empty. -/
  dropBeats : List Nat
  /-- HL_TXFLITS, HL_RXFLITS 64 bits; HL_REPLAY, HL_NAK (RC), HL_UNCORR 32 bits; 12 Table 12.13; reset 0. -/
  tx : Nat
  rx : Nat
  replay : Nat
  nak : Nat
  uncorr : Nat
  /-- undecodable codewords of the current beat; 12 R287; reset 0. -/
  uncorrBeat : Nat
  /-- HL_BAD 16 bits, HL_BADTOTAL, HL_TAGFAIL 32 bits; 12 Table 12.13; reset 0. -/
  bad : Nat
  badTotal : Nat
  tagFail : Nat
  /-- HL_LANE, lanes 0 to 8, RC; 32 bits; 12 Table 12.13; reset 0. -/
  lanes : Vector Nat 9
  /-- transmit SEQ, replay buffer of SEQ flits oldest first, flits to send; 12 R286; reset 0, empty. -/
  txSeq : Nat
  buffer : List (List Byte)
  outq : List (List Byte)
  /-- next SEQ expected, flits received in order since the last ACK, waiting for a resend; 12 R286; reset 0. -/
  rxSeq : Nat
  unacked : Nat
  gap : Bool
  /-- timeouts in a row without ACK advance; 12 R286; reset 0. -/
  timeouts : Nat
  /-- unscheduled credit held, credits to return, unscheduled flits buffered; 12 R292; reset 64 credits. -/
  credit : Nat
  creditRet : Nat
  rxUnsched : Nat
  /-- transmit seal group: flits so far, GROUP; SESSION of the port; 12 R300; reset 0. -/
  sealTx : List (List Byte)
  group : Nat
  session : Nat
  peerSession : Nat
  /-- flits of the receive seal group that is not verified yet; 12 R300, R301; reset empty. -/
  sealRx : List SealedFlit
  /-- SEQ flits that wait for room in the replay buffer; 12 R286; reset empty. -/
  txWait : List (List Byte)
  /-- unscheduled flits that wait for credit or a slot, with the port whose buffer holds a relayed one; 12 R292, R293. -/
  waitq : List (List Byte × Option Nat)
  /-- sync flits that wait for their window; 12 R261, R290; reset empty. -/
  syncq : List SendWait
  /-- PMD training done; 12 R278; reset false. -/
  pmdDone : Bool
  /-- the port was UP when LNK powered down, so a wake retrains it quickly; 12 R279; reset false. -/
  quick : Bool
  /-- IDENT flits sent; 12 R278. -/
  identSent : Bool
deriving DecidableEq, Repr

/-- A port while LNK has no power. -/
def Port.init : Port :=
  { st := .off, nbrRank := 0xFFFF, nbrPort := 0, express := false, fence := 0, sealed := false, spared := none, txSpared := none,
    weak := false, move := none, laneTx := none, spareLane := 8, lastMs := 0, attempts := 0, drops := 0, dropBeats := [], tx := 0, rx := 0,
    replay := 0, nak := 0, uncorr := 0, uncorrBeat := 0, bad := 0, badTotal := 0, tagFail := 0,
    lanes := Vector.replicate 9 0, txSeq := 0, buffer := [], outq := [], rxSeq := 0, unacked := 0, gap := false,
    timeouts := 0, credit := 64, creditRet := 0, rxUnsched := 0, sealTx := [], group := 0, session := 0, peerSession := 0,
    sealRx := [], txWait := [], waitq := [], syncq := [], pmdDone := false, quick := false, identSent := false }

/-- The hive links (chapter 12). -/
structure Hl where
  /-- roster installed, SIZE 11 bits, HIVE_ID 64 bits, EPOCH 32 bits, SEALED; 12 Table 12.12; reset 0. -/
  roster : Bool
  size : Nat
  hiveId : Nat
  epoch : Nat
  sealed : Bool
  /-- route table, 1,024 bytes; 12 R293, Table 12.12; reset 0xFF (unlisted). -/
  route : SMap Nat
  /-- current and next key, 256 bits each, held in AON; 12 R299; reset none. -/
  keyCur : Option (List Byte)
  keyNext : Option (List Byte)
  /-- HL_GSTAT.KEY_SLOT; 1 bit; 12 Table 12.12; reset 0. -/
  keySlot : Nat
  /-- HL_SESSION; 32 bits; 12 R300; reset 0. -/
  session : Nat
  /-- HL_HALTS; 32 bits, RC; 12 Table 12.12; reset 0. -/
  halts : Nat
  /-- ports P0 to P19; 12 R276; reset OFF. -/
  port : Vector Port 20
  /-- Keeper messages received and delivered to Keeper, newest first; 12 Table 12.6. -/
  keeperMsgs : List (List Byte)
  /-- plans and beats of the HALTs relayed so far, so that none is relayed twice; 12 R294; reset none. -/
  haltSeen : List (Nat × Nat)
  /-- page reads of peers that wait to be served; 12 Table 12.6, 05 R127; reset none. -/
  peerReads : List PeerRead
  /-- number of the next unscheduled message; 12 Table 12.3; reset 0. -/
  msgNo : Nat
deriving DecidableEq, Repr

/-- One host memory ring (Table 13.10). -/
structure Ring where
  /-- BASE; 64 bits; 13 Table 13.10; reset 0. -/
  base : Nat
  /-- ENABLE; 1 bit; 13 Table 13.10; reset 0. -/
  enable : Bool
  /-- MIN_SEV; 2 bits; 13 Table 13.10; reset 0. -/
  minSev : Nat
  /-- SIZE; 5 bits; 13 Table 13.10; reset 6. -/
  size : Nat
  /-- HEAD, TAIL; 16 bits; 13 Table 13.10; reset 0. -/
  head : Nat
  tail : Nat
  /-- PHASE of the next record; 13 R329; reset 1. -/
  phase : Bool
  /-- records written since the last edge that signalled them; 13 Table 13.7; reset false. -/
  fresh : Bool
deriving DecidableEq, Repr

/-- A ring after reset. -/
def Ring.init : Ring :=
  { base := 0, enable := false, minSev := 0, size := 6, head := 0, tail := 0, phase := true, fresh := false }

/-- One wide word of the Inflow queue: its bytes, VBYTES and EOP (R315). -/
structure WideWord where
  bytes : List Byte
  vbytes : Nat
  eop : Bool
deriving DecidableEq, Repr

/-- One completion record before it is written (Table 13.5). -/
structure Completion where
  status : Nat
  agent : Nat
  admitted : Bool
  cause : Nat
  tag : Nat
  planId : Nat
  n : Nat
  admitBeat : Nat
  doneBeat : Nat
deriving DecidableEq, Repr

/-- The host interface, the identity page, the Inflow queue, the rings and the MSI-X logic (chapters 1, 2 and 13). -/
structure Hi where
  /-- HI_FWVER; 8 + 8 + 16 bits; 01 Table 1.10; reset 0. -/
  fwMajor : Nat
  fwMinor : Nat
  fwBuild : Nat
  /-- HI_GSTAT.READINESS; 4 bits; 01 Table 1.11, 02 R38; reset ROM. -/
  readiness : Readiness
  /-- HI_GSTAT.QUAD_OFF; 4 bits; 01 Table 1.11; reset 0. -/
  quadOff : Vector Bool 4
  /-- HI_GSTAT.IMAGE_B; 1 bit; 01 Table 1.11; reset 0. -/
  imageB : Bool
  /-- HI_GSTAT.RECOVERY; 1 bit; 01 Table 1.11; reset 0. -/
  recovery : Bool
  /-- HI_OVERRUN_CNT; 32 bits; 01 Table 1.15; reset 0. -/
  overruns : Nat
  /-- HI_LATE_CNT; 32 bits, RC; 01 Table 1.16; reset 0. -/
  lates : Nat
  /-- HI_BOOTPROG: PROGRESS, FAIL_STEP 8 bits, IMAGE_A_FAIL, IMAGE_B_FAIL; 02 Table 2.9; reset 0. -/
  progress : Nat
  failStep : Nat
  imageAFail : Bool
  imageBFail : Bool
  /-- HI_BOOTTIME; 32 bits; 02 Table 2.10; reset 0. -/
  bootUs : Nat
  /-- HI_RESET_CAUSE: COLD, QUAD, HIVE, FLR, PERST, HOT (W1C), WARM; 02 Table 2.11; reset COLD 1. -/
  cold : Bool
  quadRst : Vector Bool 4
  hiveRst : Bool
  flr : Bool
  perstRst : Bool
  hot : Bool
  warm : Nat
  /-- verified firmware runs; 02 R32; reset false. -/
  fwRuns : Bool
  /-- the function is configuration-ready, so CRS has ended; 02 R32; reset false. -/
  cfgReady : Bool
  /-- last configuration request was answered with CRS; 02 R32; reset false. -/
  crs : Bool
  /-- PERST# is asserted; 18 R444; reset false. -/
  perst : Bool
  /-- the PCIe link is up; 02 Table 2.1; reset false. -/
  link : Bool
  /-- the function is in D3hot; 13 R308; reset false. -/
  d3hot : Bool
  /-- Bus Master Enable; 13 R310; reset 0 (PRESUMED, PCI Express Base Specification; log 20). -/
  bme : Bool
  /-- verification of image B is under way; 02 R42; reset false. -/
  tryingB : Bool
  /-- next window of Table 2.1: 0 to 3 Q0 to Q3, 4 to 7 CB0 to CB3, 8 XMI, 9 none; 02 R31; reset 0. -/
  window : Nat
  /-- BIST of each quadrant is under way; 02 R35; reset false. -/
  bist : Vector Bool 4
  /-- data returned by the last host read of BAR0, BAR2 or BAR4; 00 R3, R4; reset 0. -/
  readData : List Word
  /-- high words latched by a low-word read, by BAR0 offset of the low word; 00 R4; reset none. -/
  latch : SMap Nat
  /-- high words held by a write, by BAR0 offset of the low word; 00 R4; reset none. -/
  held : SMap Nat
  /-- HI_ACCESS_ERR; 32 bits, RC; 13 Table 13.9; reset 0. -/
  accessErr : Nat
  /-- Inflow queue, 4,096 wide words; 13 R316; reset empty. -/
  queue : List WideWord
  /-- the wide word being packed: words so far as bytes; 13 R315; reset empty. -/
  packer : List Byte
  /-- HI_INFLOW_STAT: AP_POISON, FLUSH_PEND, DISCARDING, OVERFLOW, UNDERRUN; 13 Table 13.9; reset 0. -/
  apPoison : Bool
  flushPend : Bool
  discarding : Bool
  overflow : Bool
  underrun : Bool
  /-- HI_INFLOW_DROP, BADTLP, FLUSHED, HI_ADMITTED; 32 bits; 13 Table 13.9; reset 0. -/
  drop : Nat
  badTlp : Nat
  flushed : Nat
  admitted : Nat
  /-- value of the previous pop; 13 R318; reset empty. -/
  lastPop : List Byte
  /-- whole packets that ended since the last edge, discarded ones too; 13 R326; reset 0. -/
  arrived : Nat
  /-- HI_APERTURE.WINDOW; 3 bits; 13 Table 13.9; reset 0. -/
  aperture : Nat
  /-- HI_INTMASK; 4 bits; 13 Table 13.9; reset 0xF. -/
  intMask : Nat
  /-- MSI-X table mask bits, pending bits and table words; 13 R309, R331; reset masked, none pending, 0. -/
  msixMask : Vector Bool 64
  msixPend : Vector Bool 64
  msixTable : SMap Nat
  /-- vectors signalled, newest first; 13 R331. -/
  signals : List Nat
  /-- event ring and completion ring; 13 Table 13.10; reset disabled. -/
  evr : Ring
  cpr : Ring
  /-- HI_EVR_LOST; 32 bits, RC; 13 Table 13.10; reset 0. -/
  evrLost : Nat
  /-- events lost since the last overflow record; 13 R330; reset 0. -/
  evrLostNew : Nat
  /-- boot queue of 64 events; 02 R41; reset empty. -/
  bootq : List Event
  bootLost : Nat
  /-- sequence number of the next event; 13 Table 13.6; reset 0. -/
  evSeq : Nat
  /-- events raised, newest first: what the event ring, the boot queue and Heartwood were given; 13 R330. -/
  raised : List Event
  /-- completion backlog of 1,024; 13 R328; reset empty. -/
  backlog : List Completion
  /-- HI_CPR_BACKLOG.COUNT; 32 bits, RC; 13 Table 13.10; reset 0. It takes the number of waiting records whenever that changes, and a
  host read clears it (R6). -/
  backlogCnt : Nat
  /-- bytes the Atelo has written to host memory; 13 R329; reset none. -/
  hostMem : SMap Byte
  /-- a warm reset follows the round: its cause; 14 R348, 02 R43; reset none. -/
  warmDue : Option Nat
deriving DecidableEq, Repr

/-- Mailbox states (Table 14.5). -/
inductive MbSt where
  | idle | rung | busy | done | refused
deriving DecidableEq, Repr

/-- Command classes (R10, R343). -/
inductive CmdClass where
  | presence | safety | operational | advisory
deriving DecidableEq, Repr

/-- Conflict keys (R347, R353, Table 14.8). -/
inductive Key where
  | plan (id : Nat)
  | fitMode
  | stream (id entry : Nat)
  | aperture
  | cal (kind unit : Nat)
  | clock
  | graft
  | share
  | master
  | ref
  | roster
  | port (n : Nat)
  | key
  | hive
  | power
  | powerLimit
  | device
  | quad (q : Nat)
  | firmware
  | heartwood
  | seal
deriving DecidableEq, Repr

/-- One mailbox (R336 to R341, Table 14.12). -/
structure Mbox where
  /-- the 4 KiB page up to 0xFDF; 14 R337; DESIGN CHOICE 0 (log 15). -/
  page : SMap Byte
  /-- STATE; 3 bits; 14 Table 14.11; reset IDLE. -/
  st : MbSt
  /-- WG_STATUS.CODE; 16 bits; 14 Table 14.11; reset 0. -/
  code : Nat
  /-- the whole response and the part delivered; 14 R339; reset empty. -/
  resp : List Byte
  part : Nat
  /-- the answer of a BUSY command is discarded (R354). -/
  discard : Bool
  /-- a NEXT doorbell waits until Keeper is free; 14 R349. -/
  nextDue : Bool
  /-- WG_CNT: ACCEPTED, REFUSED, SUPERSEDED 32 bits; FRAME_ERR, RING_BUSY 16 bits RC; 14 Table 14.12; reset 0. -/
  accepted : Nat
  refused : Nat
  superseded : Nat
  frameErr : Nat
  ringBusy : Nat
deriving DecidableEq, Repr

/-- A mailbox after reset. -/
def Mbox.init : Mbox :=
  { page := [], st := .idle, code := 0, resp := [], part := 0, discard := false, nextDue := false, accepted := 0,
    refused := 0, superseded := 0, frameErr := 0, ringBusy := 0 }

/-- What a BUSY command waits for before Keeper answers it (R349). -/
inductive CmdWait where
  | none | dmaLoad | dmaRepl | norErase
deriving DecidableEq, Repr

/-- The Waggle mailboxes and the round (chapter 14). -/
structure Wg where
  /-- mailboxes WG0 to WG3; 14 R336; reset IDLE. -/
  mb : Vector Mbox 4
  /-- mailboxes of the round whose turn has not come, in authority order; 14 R343; reset none. -/
  order : List Nat
  /-- the mailbox whose command is accepted and not yet answered; 14 R343; reset none. -/
  cur : Option Nat
  /-- what that command waits for; 14 R349. -/
  wait : CmdWait
  /-- SEQ assigned to that command, 0 when it is not recorded; 15 R368. -/
  curSeq : Nat
  /-- keys held for the rest of the round, each with the SEQ of its holder; 14 R347; reset none. -/
  held : List (Key × Nat)
  /-- WG_ROUND; 64 bits; 14 Table 14.12; reset 0. -/
  round : Nat
  /-- WG_SKIPPED; 32 bits, RC; 14 Table 14.12; reset 0. -/
  skipped : Nat
  /-- WG_GSTAT.WG3_OPEN; 1 bit; 14 Table 14.12; reset 0. -/
  open3 : Bool
  /-- seconds of the unseal DURATION, 0 for no limit; 15 R376; reset 0. -/
  unsealS : Nat
  /-- SMBus page offset; 12 bits; 14 R351; reset 0. -/
  smbOff : Nat
  /-- data returned by the last SMBus or UART read, and the UART RESULT; 14 R351, R352. -/
  smbData : List Byte
  uartReply : List Byte
  /-- UART rate in baud; 14 R352; reset 115,200. -/
  baud : Nat
  /-- bytes of a partial UART frame; 14 R352; reset none. -/
  uartPart : List Byte
  /-- event 0x0E02 has been raised in this beat; 14 R351, R352; reset false. -/
  frameEv : Bool
  /-- an SMBus transaction was not acknowledged; 14 R351; reset false. -/
  smbNak : Bool
deriving DecidableEq, Repr

/-- One graft member: opcode and payload as staged, its TOGETHER group and its response tag (R361). -/
structure Member where
  op : Nat
  payload : List Byte
  group : Nat
deriving DecidableEq, Repr

/-- An open graft of a mailbox (R361). -/
structure OpenGraft where
  members : List Member
  waitLimit : Nat
  groups : Nat
deriving DecidableEq, Repr

/-- One phase of a committed graft (R363): members in staging order, edge offset, and whether it holds a waiting member. -/
structure GPhase where
  first : Nat
  members : List Member
  waits : Bool
  off : Nat
deriving DecidableEq, Repr

/-- A staged change: a graft committed, or a graftable command alone (R356). edge is the earliest edge of its next phase. -/
structure Graft where
  seq : Nat
  source : Nat
  cls : CmdClass
  alone : Bool
  target : Nat
  waitLimit : Nat
  phases : List GPhase
  total : Nat
  next : Nat
  shift : Nat
  count : Nat
deriving DecidableEq, Repr

/-- Grafts, presence and the seal loop (chapter 15). -/
structure Gr where
  /-- open grafts of WG0 to WG3; 15 R361, Table 15.4 OPEN; reset none. -/
  opened : Vector (Option OpenGraft) 4
  /-- staged changes in SEQ order; 15 R356, R363; COMMITTED counts the grafts; reset none. -/
  staged : List Graft
  /-- GR_APPLIED, GR_ABANDONED, GR_NOTATOMIC; 32 bits; 15 Table 15.4; reset 0. -/
  applied : Nat
  abandoned : Nat
  notAtomic : Nat
  /-- consecutive low samples of PRESENCE#; 15 R372, 18 R449; reset 0. -/
  lowRun : Nat
  /-- PRESENCE# low at the last sample; GR_PRES.PRESENCE; 15 Table 15.4; reset 0. -/
  presLow : Bool
  /-- a qualified assertion is in progress; 15 R372; reset false. -/
  qualified : Bool
  /-- samples of 1 ms since the last qualified assertion ended; none if none; GR_PRES.PRES_AGE; 15 Table 15.4; reset none. -/
  ageMs : Option Nat
  /-- the 30 s window of the last qualified assertion is open; 15 R372; reset false. -/
  window : Bool
  /-- consecutive open seal samples; 15 R373; reset 0. -/
  openRun : Nat
  /-- GR_PRES.SEAL_OK; 1 bit; 15 Table 15.4; reset 0. -/
  sealOk : Bool
  /-- seal latch held in AON; GR_PRES.SEAL_LATCH; 15 R373; reset as Heartwood holds it. -/
  latch : Bool
  /-- GR_SEALBRK; 32 bits; 15 Table 15.4; reset 0. -/
  breaks : Nat
  /-- breaks over the life of the device, and the beat of the last one, as the SEAL record holds them; 16 Table 16.4; reset 0. -/
  lifeBreaks : Nat
  breakBeat : Nat
  /-- consecutive samples that were not open, up to 8: the loop is intact again after 8; 18 R450; reset 0. -/
  okRun : Nat
  /-- the break in progress has been reported; 15 R373; reset false. -/
  broken : Bool
deriving DecidableEq, Repr

/-- One Ring journal entry (Table 15.2). -/
structure JEntry where
  seq : Nat
  source : Nat
  cls : CmdClass
  op : Nat
  outcome : Nat
  mirrored : Bool
  member : Bool
  phase : Nat
  beat : Nat
  tag : Nat
  digest : Nat
  link : Nat
  effect : Nat
deriving DecidableEq, Repr

/-- The Ring journal (chapter 15). -/
structure Rj where
  /-- at most 8,192 entries, oldest first; 15 R367; reset empty. -/
  ent : List JEntry
  /-- RJ_NEXT_SEQ; 64 bits; 15 Table 15.5; reset 1. -/
  next : Nat
deriving DecidableEq, Repr

/-- Calibration state of one target (R392 to R396): due, running, failures in a row, override, the value in force, and the value that
a ramp, or an override of a PLL-B pump, still moves to; the sensor reading at the last success and the beat of the last run. -/
structure CalSt where
  due : Bool
  running : Bool
  failRun : Nat
  override : Option Nat
  value : Nat
  target : Option Nat
  lastTemp : Int
  lastBeat : Nat
deriving DecidableEq, Repr

/-- A calibration target that has not run yet. -/
def CalSt.init : CalSt :=
  { due := false, running := false, failRun := 0, override := none, value := 0, target := none, lastTemp := 0, lastBeat := 0 }

/-- One temperature sensor (US_TEMP, R397). -/
structure Temp where
  valid : Bool
  now : Int
  peak : Option Int
deriving DecidableEq, Repr

/-- The Understory and telemetry (chapter 16). -/
structure Us where
  /-- US_STAT.SCRUB_BEHIND; 4 bits; 16 Table 16.6; reset 0. -/
  behind : Vector Bool 4
  /-- event 0x1101 raised in this pass; 16 R391; reset false. -/
  behindEv : Vector Bool 4
  /-- US_ADMIT_DEFICIT; 32 bits; 13 R326, 16 Table 16.6; reset 0. -/
  deficit : Nat
  /-- US_UTIME, US_UUSED, US_SLACK; 32 bits each; 16 Table 16.6; reset 0. -/
  utime : Vector Nat 4
  uused : Vector Nat 4
  slack : Vector Nat 4
  /-- US_SCRUB_CFG.PERIOD_S; 17 bits; 16 Table 16.6; reset 600. -/
  periodS : Nat
  /-- US_SCRUB: PAGE 17 bits, PASSES 12 bits (wraps); 16 Table 16.6; reset 0. -/
  page : Vector Nat 4
  passes : Vector Nat 4
  /-- pages started since the pacing period began, and the beats elapsed of it; 16 R387; reset 0. -/
  started : Vector Nat 4
  elapsed : Nat
  /-- page at which the paced pass goes on after a catch-up pass; 16 R391; reset 0. -/
  pacedPage : Vector Nat 4
  /-- pages that the pace has called for in the periods before this one, less those started; 16 R391. -/
  paced : Vector Nat 4
  /-- catch-up pass after retention; 16 R391; reset false. -/
  catchUp : Vector Bool 4
  /-- US_SCRUB_UE; 32 bits; 16 Table 16.6; reset 0. -/
  scrubUe : Nat
  /-- US_TEMP, 11 sensors; 16 R397, Table 16.6; reset 0. -/
  temp : Vector Temp 11
  /-- the sensors have been sampled since the cold reset; 16 R397; reset false. -/
  sampled : Bool
  /-- US_POWER: NOW, PEAK 16 bits; 16 Table 16.6; reset 0. -/
  power : Nat
  powerPeak : Nat
  powerRead : Bool
  /-- calibration targets, by kind, unit and index; 16 R392; reset factory defaults (unlisted). -/
  cal : List (CalTarget × CalSt)
  /-- last readings of the regulator pages; 17 R423; reset none. -/
  regs : List RegReading
  /-- minimum, maximum, sum and count of each sensor over the telemetry period; 16 R398. -/
  telMin : Vector Int 11
  telMax : Vector Int 11
  telSum : Vector Int 11
  telCnt : Nat
  /-- power of each regulator page in 0.1 W over the period: page, minimum, maximum, sum and count; 16 R398; reset none. -/
  telRail : List (Nat × Nat × Nat × Nat × Nat)
  telBeats : Vector Nat 5
deriving DecidableEq, Repr

/-- One Heartwood record (Table 16.3), without its COPY and CRC: those are the two pages that hold it. blks names
the physical blocks that hold its copies that verified. -/
structure HwRec where
  typ : Nat
  rseq : Nat
  beat : Nat
  boot : Nat
  payload : List Byte
  blks : List Nat
deriving DecidableEq, Repr

/-- Why a record waits in the queue: an event, the mirror of a journal entry, or a state record (R403). -/
inductive HwKind where
  | event (sev : Sev)
  | mirror (seq : Nat)
  | state
deriving DecidableEq, Repr

/-- A record that waits to be programmed. A KEYS record holds the two keys that its payload wraps. -/
structure HwPend where
  kind : HwKind
  typ : Nat
  payload : List Byte
  keys : List (Option (List Byte)) := []
deriving DecidableEq, Repr

/-- Heartwood (chapter 16): the NOR and its writer. -/
structure Hw where
  /-- HW_STAT.ONLINE; 1 bit; 16 Table 16.7; reset 0. -/
  online : Bool
  /-- the scan of R405 has ended; 16 R405; reset false. -/
  scanned : Bool
  /-- HW_STAT.LAST_RESORT; 1 bit; 16 Table 16.7; kept in the NOR. -/
  lastResort : Bool
  /-- the AON state of R402 has been read from Heartwood since the cold reset; 16 R405; reset false. -/
  loaded : Bool
  /-- the spare blocks, by physical number; HW_STAT.SPARES is their number; 16 R400, Table 16.7; reset 32 blocks; in the NOR. -/
  spares : List Nat
  /-- queue of 7 records, oldest first, and the Critical overflow of 16; 16 R403; reset empty. -/
  queue : List HwPend
  spill : List HwPend
  /-- state records waiting in Keeper SRAM, the newest of each type and chunk; 16 R403; reset none. -/
  states : List HwPend
  /-- copies of the record at the front of the queue that have verified; 16 R402; reset none. -/
  copy0 : Bool
  /-- records committed, oldest first; 16 R402; kept in the NOR. -/
  log : List HwRec
  /-- next RSEQ; 64 bits; 16 R401; starts at 1 over the life of the device. -/
  nextRseq : Nat
  /-- count of cold resets; 32 bits; 16 Table 16.3; kept in the NOR. -/
  boot : Nat
  /-- HW_LOST, HW_TORN; 32 bits; 16 Table 16.7; reset 0. -/
  lost : Nat
  torn : Nat
  /-- HW_WEAR: ERASE_PCT; retries and programs of the last 1,024 programs; 16 R408; reset 0. -/
  erasePct : Nat
  retries : List Nat
  /-- beat of the last event 0x1203; 16 R408. -/
  wearBeat : Option Nat
  /-- erase counts of the 1,024 blocks; 16 R400; kept in the NOR. -/
  erases : SMap Nat
  /-- HW_RETIRED blocks; 11 bits; 16 Table 16.7; kept in the NOR. -/
  retired : List Nat
  /-- the block map: the physical blocks of the log in its order, 990 of them, or 64 and fewer in last-resort mode; 16 R400, R409;
  kept in the NOR. -/
  map : List Nat
  /-- the two anchor blocks, and the number of map pages written since manufacture; 16 R400, R407; kept in the NOR. -/
  anchorA : Nat
  anchorB : Nat
  mapVer : Nat
  /-- log head A stands at this place of the map and head B at the next one, with so many pages used in each (none: not opened
  yet); used counts the blocks that hold records; 16 R400, R402, R404; kept in the NOR. -/
  head : Nat
  headPage : Nat
  used : Nat
  /-- an erase of this physical block is in progress, and its failed attempts; 16 R404, R407; reset none, 0. -/
  erasing : Option Nat
  attempts : Nat
  /-- physical blocks that HW_ERASE still has to erase, and the RSEQ range that it erases; 16 R378; reset none. -/
  wipe : List Nat
  wipeFrom : Nat
  wipeTo : Nat
  /-- retired pages, seal latch, keys, session count as the newest state records hold them; 16 R402; kept in the NOR. -/
  norRetired : List Nat
  norLatch : Bool
  norBreaks : Nat
  norKeyCur : Option (List Byte)
  norKeyNext : Option (List Byte)
  norKeySlot : Nat
  norSession : Nat
  /-- number of event records lost by a forced warm reset, held in AON; 16 R455; reset 0. -/
  lostAtReset : Nat
  /-- a POWER_FAIL record was written and is to be reported; 16 R406; kept in the NOR. -/
  powerFail : Option Nat
  /-- the BOOT record of this boot is still to be written; 16 R456; reset true. -/
  bootRecDue : Bool
  /-- CAUSE of the present boot: 0 cold, 1 to 4 the WARM codes; 16 R456, Table 16.9; reset 0. -/
  bootCause : Nat
  /-- beat of entry into last-resort mode; 16 Table 16.4 MODE; reset 0; kept in the NOR. -/
  resortBeat : Nat
  /-- RSEQ of the SNAP_BEGIN record of the newest complete snapshot, 0 if none; 16 R404; kept in the NOR. -/
  snapAt : Nat
deriving DecidableEq, Repr

/-- Power states (Table 17.2). -/
inductive PwrSt where
  | active | park | doze | deep | winter
deriving DecidableEq, Repr

/-- Thermal levels (Table 17.3). -/
inductive Therm where
  | normal | warn | throttle | stop
deriving DecidableEq, Repr

/-- Power domains, states, regulators, and thermal and power limits (chapter 17). -/
structure Pwr where
  /-- on-die switches Q0 to Q3, CB0 to CB3, LNK, XMI, HIF; PWR_STAT.DOM_ON; 17 Table 17.5; reset 0. -/
  quad : Vector Bool 4
  cb : Vector Bool 4
  lnk : Bool
  xmi : Bool
  hif : Bool
  /-- PWR_STAT.CB_RET; 4 bits; 17 Table 17.5; reset 0. -/
  cbRet : Vector Bool 4
  /-- PWR_STAT.TRIPPED, THERM, TARGET, STATE; 17 Table 17.5; reset 0. -/
  tripped : Bool
  therm : Therm
  target : PwrSt
  st : PwrSt
  /-- PWR_TOL_DEV; 32 bits; 17 Table 17.5; reset 0. -/
  tolDev : Nat
  /-- PWR_CFG: LIMIT_W 10 bits, ENTRY_BEATS 8 bits; 17 Table 17.5; reset 650, 16. -/
  limitW : Nat
  entryBeats : Nat
  /-- PWR_RESID; 64 bits each; 17 Table 17.5; reset 0. -/
  resid : Vector Nat 5
  /-- PWR_WAKES, PWR_WAKE; 32 bits; 17 Table 17.5; reset 0. -/
  wakes : Nat
  wakeUs : Nat
  /-- PWR_REGFAULT: COUNT 16 bits, PAGE 4 bits; 17 Table 17.5; reset 0. -/
  regFaults : Nat
  regPage : Nat
  /-- consecutive idle edges; 17 R418; reset 0. -/
  idle : Nat
  /-- state a wake moves to, while the wake runs; 17 R419; reset none. -/
  waking : Option PwrSt
  /-- regulator pages in fault, each with the beat of its last fault report; 17 R425; reset none. -/
  faulty : List (Nat × Nat)
  /-- consecutive samples above the limit, and at or below it; power action in force; 17 R428; reset 0, none. -/
  above : Nat
  below : Nat
  limitAct : Therm
  /-- consecutive edges of a thermal trip with every valid reading at or below 95 °C; 17 R427; reset 0. -/
  cool : Nat
  /-- the quadrants come up through BIST, because a thermal trip powered them down; 17 R427; reset false. -/
  rebist : Bool
  /-- nominal VOUT set for each domain's rail; CB rails at retention VOUT; 17 R424; reset false. -/
  cbLow : Bool
  /-- VDD_AON is below its range, so AON counts as not good; 18 R438; reset false. -/
  brown : Bool
  /-- AON_PWRGD as driven; 18 R434; reset false. -/
  pwrgd : Bool
  /-- AON runs: power good and no power-fail warning since; 18 R437; reset false. -/
  on : Bool
  /-- RAIL_EN; 18 R435; reset low. -/
  railEn : Bool
  /-- the device has stopped after a power-fail commit; 18 R437; reset false. -/
  stopped : Bool
  /-- THERMTRIP# is driven low; 18 R451; reset released. -/
  thermTrip : Bool
  /-- HW_RST# is low; 18 R442; reset low until 1 ms after the anchor. -/
  hwRst : Bool
  /-- Keeper runs, from its ROM start on; 14 R345; reset false. -/
  keeper : Bool
deriving DecidableEq, Repr

/-- JTAG instructions (R448). -/
inductive JtagInstr where
  | bypass | idcode | samplePreload | extest | clamp | highz
deriving DecidableEq, Repr

/-- The TAP (chapter 18). -/
structure Jtag where
  /-- instruction in force; 18 R448; reset IDCODE (PRESUMED, IEEE 1149.1; log 16). -/
  instr : JtagInstr
  /-- TRST# holds the TAP in reset; 18 R448; reset true. -/
  inReset : Bool
  /-- boundary-scan register: captured cells and preloaded cells; 18 R448; DESIGN CHOICE empty (log 16). -/
  captured : List Bool
  preload : List Bool
  /-- word that the TAP shifts out; 18 R448; reset 0 (log 16). -/
  shift : Word
deriving DecidableEq, Repr

/-- The boot NOR and the firmware load session (chapters 2 and 15). -/
structure Fw where
  /-- slots A and B: bytes and whether the slot was invalidated; 02, 15 R375; DESIGN CHOICE empty (log 17). -/
  slotA : SMap Byte
  slotB : SMap Byte
  badA : Bool
  badB : Bool
  /-- versions of images A and B as last verified: major, minor, build; 02 Table 2.12; reset 0. -/
  verA : Nat
  verB : Nat
  /-- the board record of the running firmware image; 10 R233, 16 R387; DESIGN CHOICE 8,533 MT/s, 1 rank, 2 GiB, no period until
  an image runs (log 13). -/
  board : BoardRec
  /-- load session: slot, expected offset, total length; 15 R375; reset none. -/
  session : Option (Nat × Nat × Nat)
deriving DecidableEq, Repr

/-- The state of the Atelo: every register, queue, buffer, counter and pin the spec gives it, and the queue of commands that
wait, first in, first out. -/
structure State where
  pending : List Instr
  /-- the model's own field: counter of free values (log 10); DESIGN CHOICE 0. -/
  freeCtr : Nat
  syn : Syn
  beat : Beat
  cmb : Cmb
  quad : Vector QuadSt 4
  streams : SMap StreamEnt
  xm : Xm
  bl : Bl
  so : So
  arb : Vector Arb 4
  hl : Hl
  hi : Hi
  wg : Wg
  gr : Gr
  rj : Rj
  us : Us
  hw : Hw
  pwr : Pwr
  jtag : Jtag
  fw : Fw
deriving DecidableEq, Repr

/-- The synthesiser after a cold reset (chapter 3). -/
def Syn.init : Syn :=
  { refSel := .hive, hrefOk := false, lrefOk := false, hrefIn := false, lrefIn := false, refFound := false, checksFailed := 0, b := .init, c0 := .init,
    c1 := .init, bLocked := false, holdover := false, holdBeats := 0, src := .safe, profNow := 0, hopCnt := 0, cancel := 0,
    hopLate := 0, violCnt := 0, phase := 0, slip := 0, xmDiv := 0, icpB := 31, bandB := 21,
    cal := Vector.replicate 5 ⟨0, 0, 0⟩, prof0 := [], prof1 := [], profDue := [], kvco := [], interp := [], interpDue := [],
    hold := .none, parkSrc := .safe, lateSwap := none, baseSwapDue := false,
    skip := none }

/-- The beat generator after a cold reset (chapters 1 and 4). -/
def Beat.init : Beat :=
  { running := false, num := 0, slot := 0, guard := false, slotTicks := 625, usSlots := 6, table := [], pstate := .solo,
    inPhase := false, steppedDown := false, masterRank := 0, hops := 31, parent := none, masterEn := true, ownRank := 0,
    offsetPs := 0, ratePpb := 0, excluded := 0, window := [], fresh := [], portx := Vector.replicate 20 false,
    portxRun := Vector.replicate 20 0, steer := 0, steerLim := 0, jumps := 0, lastJ := 0, jumpDue := 0, jumpSkip := none, jumpedAt := 0, edges := 0, adopt := none,
    elections := 0, parentChg := 0, markers := Vector.replicate 20 .init, waitEdges := 0, prevHops := 31, rateRun := 0,
    gathered := 0, phaseAt := 0, phaseBefore := 0 }

/-- The Comb controller after a cold reset (chapter 5). -/
def Cmb.init : Cmb :=
  { mem := [], rotate := false, ctx := Vector.replicate 4 .init, dirty := [], ce := 0, ue := 0, poison := [], clearing := [],
    retired := [], retiredRun := [], rebuilt := 0, rebuilds := [], lastErrValid := false, lastErrPage := 0, fetch := none,
    fetchRepl := false, readThisBeat := [], mapDue := [], fetchDone := 0, fill := [] }

/-- The external memory interface after a cold reset (chapter 10). -/
def Xm.init : Xm :=
  { mem := [], epoch := 0, poison := [], chanOk := 0, rate := 0, fixed := false, quota := Vector.replicate 4 256,
    dlmiss := Vector.replicate 4 false, dlmissCnt := 0, peak := 0, latMax := 0, latMean := 0, latSum := 0, latCnt := 0,
    latTop := 0, eccUe := 0, eccCe := 0, threads := [], tags := [], turn := Vector.replicate 8 3, trained := false }

/-- The ledger after a cold reset (chapter 10). -/
def Bl.init : Bl := { ent := [], dfree := 0, nown := 0, lastCode := 0, lastRef := 0 }

/-- The sync objects after a cold reset (chapter 11). -/
def So.init : So :=
  { obj := [], inst := Vector.replicate 4 0, orderx := 0, timeoutx := 0, nownx := 0, stale := 0, stray := 0, lastCode := 0,
    lastCtx := 0, lastQuad := 0, lastIdx := 0 }

/-- The hive links after a cold reset (chapter 12). -/
def Hl.init : Hl :=
  { roster := false, size := 0, hiveId := 0, epoch := 0, sealed := false, route := [], keyCur := none, keyNext := none,
    keySlot := 0, session := 0, halts := 0, port := Vector.replicate 20 .init, keeperMsgs := [], haltSeen := [],
    peerReads := [], msgNo := 0 }

/-- The host interface after a cold reset (chapters 1, 2 and 13). -/
def Hi.init : Hi :=
  { fwMajor := 0, fwMinor := 0, fwBuild := 0, readiness := .rom, quadOff := Vector.replicate 4 false, imageB := false,
    recovery := false, overruns := 0, lates := 0, progress := 0, failStep := 0, imageAFail := false, imageBFail := false,
    bootUs := 0, cold := true, quadRst := Vector.replicate 4 false, hiveRst := false, flr := false, perstRst := false,
    hot := false, warm := 0, fwRuns := false, cfgReady := false, crs := false, perst := false, link := false,
    d3hot := false, bme := false, tryingB := false, window := 0, bist := Vector.replicate 4 false, readData := [], latch := [],
    held := [], accessErr := 0, queue := [], packer := [], apPoison := false, flushPend := false, discarding := false,
    overflow := false, underrun := false, drop := 0, badTlp := 0, flushed := 0, admitted := 0, lastPop := [], arrived := 0,
    aperture := 0, intMask := 15, msixMask := Vector.replicate 64 true, msixPend := Vector.replicate 64 false,
    msixTable := [], signals := [], evr := .init, cpr := .init, evrLost := 0, evrLostNew := 0, bootq := [], bootLost := 0,
    evSeq := 0, raised := [], backlog := [], backlogCnt := 0, hostMem := [], warmDue := none }

/-- The mailboxes after a cold reset (chapter 14). -/
def Wg.init : Wg :=
  { mb := Vector.replicate 4 .init, order := [], cur := none, wait := .none, curSeq := 0, held := [], round := 0,
    skipped := 0, open3 := false, unsealS := 0, smbOff := 0, smbData := [], uartReply := [], baud := 115200, uartPart := [],
    frameEv := false, smbNak := false }

/-- Grafts, presence and seal after a cold reset (chapter 15). -/
def Gr.init : Gr :=
  { opened := Vector.replicate 4 none, staged := [], applied := 0, abandoned := 0, notAtomic := 0, lowRun := 0,
    presLow := false, qualified := false, ageMs := none, window := false, openRun := 0, sealOk := false, latch := false,
    breaks := 0, lifeBreaks := 0, breakBeat := 0, okRun := 0, broken := false }

/-- The journal after a cold reset (R367). -/
def Rj.init : Rj := { ent := [], next := 1 }

/-- The Understory after a cold reset (chapter 16). -/
def Us.init : Us :=
  { behind := Vector.replicate 4 false, behindEv := Vector.replicate 4 false, deficit := 0, utime := Vector.replicate 4 0,
    uused := Vector.replicate 4 0, slack := Vector.replicate 4 0, periodS := Config.scrubPeriodDefault,
    page := Vector.replicate 4 0, pacedPage := Vector.replicate 4 0, passes := Vector.replicate 4 0, started := Vector.replicate 4 0, elapsed := 0,
    paced := Vector.replicate 4 0, catchUp := Vector.replicate 4 false, scrubUe := 0,
    temp := Vector.replicate 11 ⟨false, 0, none⟩, sampled := false, power := 0, powerPeak := 0, powerRead := true, cal := [], regs := [],
    telMin := Vector.replicate 11 0, telMax := Vector.replicate 11 0, telSum := Vector.replicate 11 0, telCnt := 0,
    telRail := [], telBeats := Vector.replicate 5 0 }

/-- Heartwood as a device with a blank record holds it (chapter 16; log 18). -/
def Hw.init : Hw :=
  { online := false, scanned := false, lastResort := false, loaded := false, spares := (List.range 32).map (fun i => 992 + i),
    queue := [], spill := [], states := [], copy0 := false, log := [], nextRseq := 1, boot := 0, lost := 0, torn := 0,
    erasePct := 0, retries := [], wearBeat := none, erases := [], retired := [], map := (List.range 990).map (fun i => 2 + i),
    anchorA := 0, anchorB := 1, mapVer := 0, head := 0, headPage := 0, used := 0, erasing := none, attempts := 0, wipe := [],
    wipeFrom := 0, wipeTo := 0, norRetired := [], norLatch := false, norBreaks := 0, norKeyCur := none, norKeyNext := none,
    norKeySlot := 0, norSession := 0, lostAtReset := 0, powerFail := none, bootRecDue := false,
    bootCause := 0, resortBeat := 0, snapAt := 0 }

/-- The power block before AON power-good (chapters 17 and 18). -/
def Pwr.init : Pwr :=
  { quad := Vector.replicate 4 false, cb := Vector.replicate 4 false, lnk := false, xmi := false, hif := false,
    cbRet := Vector.replicate 4 false, tripped := false, therm := .normal, target := .active, st := .active, tolDev := 0,
    limitW := 650, entryBeats := 16, resid := Vector.replicate 5 0, wakes := 0, wakeUs := 0, regFaults := 0, regPage := 0,
    idle := 0, waking := none, faulty := [], above := 0, below := 0, limitAct := .normal, cool := 0, rebist := false, cbLow := false,
    brown := false, pwrgd := false, on := false, railEn := false, stopped := false, thermTrip := false, hwRst := true,
    keeper := false }

/-- The TAP after reset (chapter 18). -/
def Jtag.init : Jtag := { instr := .idcode, inReset := true, captured := [], preload := [], shift := 0 }

/-- The boot NOR and no load session (chapters 2 and 15). -/
def Fw.init : Fw :=
  { slotA := [], slotB := [], badA := false, badB := false, verA := 0, verB := 0, board := ⟨0, 1, 2, 0⟩, session := none }

/-- The machine right after a cold reset: AON power is good, the anchor of Table 2.1 has just passed, Keeper has not started
from ROM, and no command waits (R5, R434, Table 2.7, Table 18.6). -/
def State.reset : State :=
  { pending := [], freeCtr := 0, syn := .init, beat := .init,
    cmb := .init, quad := Vector.replicate 4 .init, streams := [], xm := .init, bl := .init, so := .init,
    arb := Vector.replicate 4 .init, hl := .init, hi := .init, wg := .init, gr := .init, rj := .init, us := .init,
    hw := { Hw.init with boot := 1, bootRecDue := true }, pwr := { Pwr.init with pwrgd := true, on := true }, jtag := .init, fw := .init }

end Sys2Proof.Machine
end

