-- ==== Sys2Proof/Machine/Ops.lean ====
section
/-! DEFINITION. The operations every block shares: one entry of a vector or of a sub-state changed, memory accesses, events and
the two rings (R329, R330), MSI-X (R331), completions (R327, R328), Heartwood's queue (R403) and the journal (R367 to R369). -/

namespace Sys2Proof.Machine

open Sys2Proof

/-- Entry i of a vector, d beyond its end. -/
def vget {α : Type} {n : Nat} (v : Vector α n) (i : Nat) (d : α) : α :=
  if h : i < n then v[i] else d

/-- Change entry i of a vector; nothing beyond its end. -/
def vmod {α : Type} {n : Nat} (v : Vector α n) (i : Nat) (f : α → α) : Vector α n :=
  if h : i < n then v.set i (f v[i]) h else v

/-- Set entry i of a vector; nothing beyond its end. -/
def vput {α : Type} {n : Nat} (v : Vector α n) (i : Nat) (x : α) : Vector α n :=
  vmod v i (fun _ => x)

/-- Change one quadrant. -/
def onQuad (s : State) (q : Nat) (f : QuadSt → QuadSt) : State := { s with quad := vmod s.quad q f }
/-- Change one plan context. -/
def onCtx (s : State) (c : Nat) (f : PlanCtx → PlanCtx) : State := { s with cmb.ctx := vmod s.cmb.ctx c f }
/-- Change one hive port. -/
def onPort (s : State) (p : Nat) (f : Port → Port) : State := { s with hl.port := vmod s.hl.port p f }
/-- Change one Comb port arbiter. -/
def onArb (s : State) (q : Nat) (f : Arb → Arb) : State := { s with arb := vmod s.arb q f }
/-- Change one mailbox. -/
def onMb (s : State) (m : Nat) (f : Mbox → Mbox) : State := { s with wg.mb := vmod s.wg.mb m f }
/-- One quadrant. -/
def quadAt (s : State) (q : Nat) : QuadSt := vget s.quad q .init
/-- One plan context. -/
def ctxAt (s : State) (c : Nat) : PlanCtx := vget s.cmb.ctx c .init
/-- One hive port. -/
def portAt (s : State) (p : Nat) : Port := vget s.hl.port p .init
/-- One Comb port arbiter. -/
def arbAt (s : State) (q : Nat) : Arb := vget s.arb q .init
/-- One mailbox. -/
def mbAt (s : State) (m : Nat) : Mbox := vget s.wg.mb m .init
/-- One stream table entry (Table 9.1). -/
def streamAt (s : State) (i : Nat) : StreamEnt := s.streams.getAt i .init
/-- Change one stream table entry. -/
def onStream (s : State) (i : Nat) (f : StreamEnt → StreamEnt) : State :=
  { s with streams := s.streams.putAt i (f (s.streams.getAt i .init)) .init }
/-- One sync object (R253). -/
def soAt (s : State) (i : Nat) : SoObj := s.so.obj.getAt i .init
/-- Change one sync object. -/
def onSo (s : State) (i : Nat) (f : SoObj → SoObj) : State :=
  { s with so.obj := s.so.obj.putAt i (f (s.so.obj.getAt i .init)) .init }
/-- One ledger entry (R244). -/
def blAt (s : State) (i : Nat) : BlEntry := s.bl.ent.getAt i .init
/-- Change one ledger entry. -/
def onBl (s : State) (i : Nat) (f : BlEntry → BlEntry) : State :=
  { s with bl.ent := s.bl.ent.putAt i (f (s.bl.ent.getAt i .init)) .init }

/-- A loop of the synthesiser. -/
def loopAt (s : State) : Loop → LoopSt
  | .b => s.syn.b
  | .c0 => s.syn.c0
  | .c1 => s.syn.c1
/-- Change a loop of the synthesiser. -/
def onLoop (s : State) (l : Loop) (f : LoopSt → LoopSt) : State :=
  match l with
  | .b => { s with syn.b := f s.syn.b }
  | .c0 => { s with syn.c0 := f s.syn.c0 }
  | .c1 => { s with syn.c1 := f s.syn.c1 }

/-- Fold a state over the numbers below n, from 0 up. -/
def forUpto {σ : Type} (n : Nat) (f : σ → Nat → σ) (s : σ) : σ := (List.range n).foldl f s

/-- The list with its last element that meets p taken out. -/
def dropLastWhere {α : Type} (p : α → Bool) (l : List α) : List α :=
  match l.reverse.findIdx? p with
  | none => l
  | some k => (l.reverse.eraseIdx k).reverse

/-- A power of two or not. -/
def isPow2 (n : Nat) : Bool := decide (n ≠ 0) && decide (2 ^ Nat.log2 n = n)

/- Memories. -/

/-- n bytes of the Comb from a physical address (R109); an unlisted byte reads 0. -/
def combRead (s : State) (a n : Nat) : List Byte := s.cmb.mem.getRun a 0#8 n
/-- Write bytes into the Comb from a physical address. -/
def combWrite (s : State) (a : Nat) (l : List Byte) : State := { s with cmb.mem := s.cmb.mem.putRun a 0#8 l }
/-- A physical address of the Comb: 384 MiB slices, 6 MiB banks, 4 KiB pages (R109). -/
def combAddr (slice bank off : Nat) : Nat := slice * 0x18000000 + bank * 0x600000 + off
/-- What an unlisted byte of external memory reads as: 0 until contents are lost, then a free byte (log 4). -/
def xmDefault (epoch a : Nat) : Byte := if epoch = 0 then 0#8 else Config.lostByte epoch a
/-- One byte of external memory. -/
def xmByte (s : State) (a : Nat) : Byte := s.xm.mem.getAt a (xmDefault s.xm.epoch a)
/-- n bytes of external memory from an address. -/
def xmRead (s : State) (a : Nat) : Nat → List Byte
  | 0 => []
  | n + 1 => xmByte s a :: xmRead s (a + 1) n
/-- Bytes written to a memory whose unlisted bytes read by d. -/
def putRunBy (d : Nat → Byte) (m : SMap Byte) (a : Nat) : List Byte → SMap Byte
  | [] => m
  | b :: r => putRunBy d (m.putAt a b (d a)) (a + 1) r
/-- Write bytes to external memory; bytes written whole are no longer poisoned (R240). -/
def xmWrite (s : State) (a : Nat) (l : List Byte) : State :=
  { s with xm.mem := putRunBy (xmDefault s.xm.epoch) s.xm.mem a l
           xm.poison := s.xm.poison.eraseRange a (a + l.length) }
/-- Some byte of a run of external memory counts as poisoned (R240). -/
def xmPoisoned (s : State) (a n : Nat) : Bool :=
  s.xm.poison.any (fun e => decide (a ≤ e.1) && decide (e.1 < a + n) && e.2)
/-- Mark a run of external memory poisoned, or not. -/
def xmPoison (s : State) (a n : Nat) (b : Bool) : State :=
  if b then { s with xm.poison := s.xm.poison.putRun a false (List.replicate n true) }
  else { s with xm.poison := s.xm.poison.eraseRange a (a + n) }

/-- The next free value: the counter advances by one (log 10). -/
def takeFree (s : State) (w : Nat) : BitVec w × State :=
  ((Config.freeValue s.freeCtr).setWidth w, { s with freeCtr := s.freeCtr + 1 })

/- Power and reach. -/

/-- AON runs: its power has been good since the last cold reset and no power-fail commit has stopped the device (R437). -/
def alive (s : State) : Bool := s.pwr.on && !s.pwr.stopped
/-- The function answers memory accesses: HIF is powered, the link is up, PERST# is high, CRS has ended (R32), D0 (R308). -/
def hostUp (s : State) : Bool :=
  alive s && s.pwr.hif && s.hi.link && !s.hi.perst && s.hi.cfgReady && !s.hi.d3hot
/-- The Atelo may make requests of its own: the function answers and Bus Master Enable is set (R310). -/
def dmaUp (s : State) : Bool := hostUp s && s.hi.bme

/- MSI-X. -/

/-- Signal a vector, or leave it pending while a mask suppresses it or the link is down (R331). -/
def signal (s : State) (v : Nat) : State :=
  if s.hi.intMask / 2 ^ v % 2 = 1 ∨ vget s.hi.msixMask v true = true ∨ hostUp s = false then
    { s with hi.msixPend := vput s.hi.msixPend v true }
  else { s with hi.signals := v :: s.hi.signals, hi.msixPend := vput s.hi.msixPend v false }

/-- Signal each pending vector whose masks have both cleared (R331). -/
def signalPending (s : State) : State :=
  [0, 1, 2, 3].foldl (fun s v => if vget s.hi.msixPend v false = true then signal s v else s) s

/- Events. -/

/-- The severity code of Table 13.6. -/
def Sev.code : Sev → Nat
  | .info => 0 | .minor => 1 | .major => 2 | .critical => 3

/-- The event record of Table 13.6. -/
def eventBytes (e : Event) (phase : Bool) : List Byte :=
  leBytes 2 e.code ++ leBytes 1 e.sev.code ++ leBytes 1 (bit1 phase * 128) ++ leBytes 4 e.seq ++ leBytes 8 e.beat ++
    leBytes 48 e.detail

/-- Records a ring holds (R329). -/
def Ring.count (r : Ring) : Nat := 2 ^ r.size
/-- A ring is full when TAIL + 1 = HEAD modulo its size (R329). -/
def Ring.full (r : Ring) : Bool := decide ((r.tail + 1) % r.count = r.head)
/-- The record just written: TAIL advances, and PHASE inverts on a wrap (R329). -/
def Ring.advance (r : Ring) : Ring :=
  let t := (r.tail + 1) % r.count
  { r with tail := t, phase := if t = 0 then !r.phase else r.phase, fresh := true }

/-- Write bytes to host memory; an unlisted byte of it has not been written by the Atelo. -/
def hostMemWrite (s : State) (a : Nat) (l : List Byte) : State := { s with hi.hostMem := s.hi.hostMem.putRun a 0#8 l }

/-- Write one record at TAIL of the event ring. -/
def evrPut (s : State) (e : Event) : State :=
  let s := hostMemWrite s (s.hi.evr.base + 64 * s.hi.evr.tail) (eventBytes e s.hi.evr.phase)
  let s := { s with hi.evr := s.hi.evr.advance }
  match e.sev with
  | .major => signal s 1
  | .critical => signal s 1
  | _ => s

/-- Write the overflow record that R330 asks for once room exists: event 0x0D8F, Minor, with the lost count (log 21). -/
def evrOverflow (s : State) : State :=
  if s.hi.evrLostNew ≠ 0 ∧ s.hi.evr.enable = true ∧ dmaUp s = true ∧ s.hi.evr.full = false then
    let e : Event := { code := 0x0D8F, sev := .minor, seq := s.hi.evSeq, beat := s.beat.num, detail := s.hi.evrLostNew }
    { evrPut s e with hi.evSeq := (s.hi.evSeq + 1) % 2 ^ 32, hi.evrLostNew := 0 }
  else s

/-- An event meets the enabled, reachable event ring (R330). -/
def evrEmit (s : State) (e : Event) : State :=
  let s := evrOverflow s
  if e.sev.code < s.hi.evr.minSev then s
  else if s.hi.evr.full then
    { s with hi.evrLost := satAdd 32 s.hi.evrLost 1, hi.evrLostNew := s.hi.evrLostNew + 1 }
  else evrPut s e

/-- The boot queue of R41: 64 records; past them the 64th becomes an overflow record with the count of events lost. -/
def bootqAdd (s : State) (e : Event) : State :=
  if s.hi.bootLost ≠ 0 then { s with hi.bootLost := s.hi.bootLost + 1 }
  else if s.hi.bootq.length < 64 then { s with hi.bootq := s.hi.bootq ++ [e] }
  else { s with hi.bootq := s.hi.bootq.take 63, hi.bootLost := 2 }

/-- Deliver the events that wait, in order, once the ring is enabled and reachable (R41, R310). -/
def bootqDeliver (s : State) : State :=
  if s.hi.evr.enable = true ∧ dmaUp s = true then
    let q := s.hi.bootq
    let lost := s.hi.bootLost
    let s := { s with hi.bootq := [], hi.bootLost := 0 }
    let s := q.foldl evrEmit s
    evrOverflow { s with hi.evrLostNew := s.hi.evrLostNew + lost }
  else s

/-- An event goes to the event ring, or waits while the ring is not enabled or not reachable (R41, R310, R330). -/
def toRing (s : State) (e : Event) : State :=
  if s.hi.evr.enable = true ∧ dmaUp s = true then evrEmit (bootqDeliver s) e else bootqAdd s e

/-- Raise an event that goes to the ring only, with the next sequence number (Table 13.6). -/
def raiseRing (s : State) (beat code : Nat) (sev : Sev) (detail : Nat) : State :=
  let e : Event := { code := code, sev := sev, seq := s.hi.evSeq, beat := beat, detail := detail }
  toRing { s with hi.evSeq := (s.hi.evSeq + 1) % 2 ^ 32, hi.raised := e :: s.hi.raised } e

/- Heartwood's queue. -/

/-- Count an event record that Heartwood does not take. -/
def hwLose (s : State) (n : Nat) : State := { s with hw.lost := satAdd 32 s.hw.lost n }

/-- The newest queued record of a kind gives way to a Critical one (R403); a record whose COPY 0 stands in the NOR stays. -/
def hwDisplace (s : State) (p : HwPend → Bool) (r : HwPend) : Option (HwPend × List HwPend) :=
  let k := bit1 s.hw.copy0
  match (s.hw.queue.drop k).reverse.find? p with
  | none => none
  | some x => some (x, s.hw.queue.take k ++ dropLastWhere p (s.hw.queue.drop k) ++ [r])

/-- The record that holds a Major event. -/
def HwPend.isMajor (r : HwPend) : Bool := match r.kind with
  | .event .major => true
  | _ => false
/-- The record that mirrors a journal entry. -/
def HwPend.isMirror (r : HwPend) : Bool := match r.kind with
  | .mirror _ => true
  | _ => false
/-- The record that holds a state. -/
def HwPend.isState (r : HwPend) : Bool := match r.kind with
  | .state => true
  | _ => false
/-- The record that holds an event. -/
def HwPend.isEvent (r : HwPend) : Bool := match r.kind with
  | .event _ => true
  | _ => false

/-- Two state records of one type, and of one chunk where the type has chunks (R402, R403); BOOT and TELEMETRY records, which wait
beside them, replace none. -/
def sameState (a b : HwPend) : Bool :=
  decide (a.typ = b.typ) && !(a.typ == 9 || a.typ == 10) && (!(a.typ == 3 || a.typ == 7) || a.payload.take 2 == b.payload.take 2)

/-- A state record waits in Keeper SRAM; the newest of its type replaces an older one (R403). -/
def hwHoldState (s : State) (r : HwPend) : State :=
  { s with hw.states := s.hw.states.filter (fun x => !sameState x r) ++ [r] }

/-- Heartwood is offline once its tables or its scan have failed (R399). -/
def hwOffline (s : State) : Bool := s.hw.scanned && !s.hw.online

/-- Queue a state record, or let it wait in Keeper SRAM (R403). -/
def hwState (s : State) (typ : Nat) (payload : List Byte) : State :=
  let r : HwPend :=
    { kind := .state, typ := typ, payload := payload, keys := if typ = 5 then [s.hl.keyCur, s.hl.keyNext] else [] }
  if hwOffline s then s
  else if s.hw.queue.length < 7 then { s with hw.queue := s.hw.queue ++ [r] }
  else hwHoldState s r

/-- Queue the record of a Major or Critical event under R403. -/
def hwEvent (s : State) (e : Event) : State :=
  let r : HwPend := { kind := .event e.sev, typ := 1, payload := eventBytes e false }
  let full (s : State) : State := raiseRing (hwLose s 1) e.beat 0x1206 .major 0
  if hwOffline s then hwLose s 1
  else if s.hw.queue.length < 7 then { s with hw.queue := s.hw.queue ++ [r] }
  else
    match e.sev with
    | .critical =>
      match hwDisplace s HwPend.isMajor r with
      | some (_, q) => hwLose { s with hw.queue := q } 1
      | none =>
        match hwDisplace s HwPend.isMirror r with
        | some (_, q) => { s with hw.queue := q }
        | none =>
          match hwDisplace s HwPend.isState r with
          | some (x, q) => hwHoldState { s with hw.queue := q } x
          | none => if s.hw.spill.length < 16 then { s with hw.spill := s.hw.spill ++ [r] } else full s
    | _ => full s

/-- Raise an event at a beat: to the ring, and to Heartwood when Major or Critical (R330, R403). -/
def raiseAt (s : State) (beat code : Nat) (sev : Sev) (detail : Nat) : State :=
  let e : Event := { code := code, sev := sev, seq := s.hi.evSeq, beat := beat, detail := detail }
  let s := raiseRing s beat code sev detail
  match sev with
  | .major => hwEvent s e
  | .critical => hwEvent s e
  | _ => s

/-- Raise an event in the current beat. -/
def raise (s : State) (code : Nat) (sev : Sev) (detail : Nat) : State := raiseAt s s.beat.num code sev detail

/- The journal. -/

/-- The class code of Table 15.2. -/
def CmdClass.code : CmdClass → Nat
  | .presence => 0 | .safety => 1 | .operational => 2 | .advisory => 3

/-- The 64 bytes of a journal entry (Table 15.2). -/
def jBytes (e : JEntry) : List Byte :=
  leBytes 8 e.seq ++ leBytes 1 e.source ++ leBytes 1 e.cls.code ++ leBytes 2 e.op ++ leBytes 2 e.outcome ++
    leBytes 1 (bit1 e.mirrored + 2 * bit1 e.member) ++ leBytes 1 e.phase ++ leBytes 8 e.beat ++ leBytes 4 e.tag ++
    leBytes 4 0 ++ leBytes 16 e.digest ++ leBytes 8 e.link ++ leBytes 8 e.effect

/-- Entries of Safety and Presence class are mirrored (R370). -/
def JEntry.mirrors (e : JEntry) : Bool :=
  match e.cls with
  | .presence => true
  | .safety => true
  | _ => false

/-- Some record queued or being programmed mirrors the entry of that SEQ. -/
def mirrorQueued (s : State) (seq : Nat) : Bool :=
  s.hw.queue.any (fun r => match r.kind with
    | .mirror n => n == seq
    | _ => false)

/-- Queue the mirrors that wait in the journal, oldest first, while the queue has room (R370, R403). -/
def hwMirrors (s : State) : State :=
  if hwOffline s then s
  else
    s.rj.ent.foldl (fun s e =>
      if e.mirrors && !e.mirrored && !mirrorQueued s e.seq && decide (s.hw.queue.length < 7) then
        { s with hw.queue := s.hw.queue ++ [{ kind := .mirror e.seq, typ := 2, payload := jBytes e }] }
      else s) s

/-- Write an entry into the journal; at 8,192 entries the oldest gives way (R367). -/
def jWrite (s : State) (e : JEntry) : State :=
  let l := s.rj.ent ++ [e]
  hwMirrors { s with rj.ent := if l.length ≤ 8192 then l else l.drop 1 }

/-- Assign the next SEQ (R367, R368). -/
def takeSeq (s : State) : Nat × State := (s.rj.next, { s with rj.next := s.rj.next + 1 })

/-- Keeper writes an entry of its own with the next SEQ (R368). -/
def jKeeper (s : State) (source : Nat) (cls : CmdClass) (op outcome phase beat digest link effect : Nat) : State :=
  let (n, s) := takeSeq s
  jWrite s { seq := n, source := source, cls := cls, op := op, outcome := outcome, mirrored := false, member := false,
             phase := phase, beat := beat, tag := 0, digest := digest, link := link, effect := effect }

/- Completions. -/

/-- The completion record of Table 13.5. -/
def completionBytes (c : Completion) (phase : Bool) : List Byte :=
  leBytes 2 c.status ++ leBytes 1 c.agent ++ leBytes 1 (bit1 c.admitted + 128 * bit1 phase) ++ leBytes 2 c.cause ++
    leBytes 2 0 ++ leBytes 8 c.tag ++ leBytes 8 c.planId ++ leBytes 8 c.n ++ leBytes 8 c.admitBeat ++
    leBytes 8 c.doneBeat ++ leBytes 16 0

/-- The completion ring can take a record (R328). -/
def cprOpen (s : State) : Bool := s.hi.cpr.enable && dmaUp s && !s.hi.cpr.full

/-- Write one record at TAIL of the completion ring (R329). -/
def cprPut (s : State) (c : Completion) : State :=
  let s := hostMemWrite s (s.hi.cpr.base + 64 * s.hi.cpr.tail) (completionBytes c s.hi.cpr.phase)
  { s with hi.cpr := s.hi.cpr.advance }

/-- The backlog changes, and HI_CPR_BACKLOG with it (R328, Table 13.10). -/
def setBacklog (s : State) (l : List Completion) : State := { s with hi.backlog := l, hi.backlogCnt := l.length }

/-- A request completes: its record is written, or kept in the backlog, in order (R327, R328). A backlog that fills raises
event 0x0D11 (Table 13.8). -/
def complete (s : State) (c : Completion) : State :=
  if s.hi.backlog.isEmpty && cprOpen s then cprPut s c
  else
    let s := setBacklog s (s.hi.backlog ++ [c])
    if s.hi.backlog.length = 1024 then raise s 0x0D11 .major 0 else s

/-- Write records of the backlog in order while the ring has room (R328). -/
def drainBacklog : Nat → State → State
  | 0, s => s
  | n + 1, s =>
    match s.hi.backlog with
    | [] => s
    | c :: r => if cprOpen s then drainBacklog n (cprPut (setBacklog s r) c) else s

/-- EXTEST, CLAMP or HIGHZ is loaded: the chained balls leave the Atelo's control, and SMBus, UART and both NOR buses fail (R448). -/
def ballsTaken (s : State) : Bool :=
  !s.jtag.inReset && (s.jtag.instr == .extest || s.jtag.instr == .clamp || s.jtag.instr == .highz)

/-- The number of the coming beat edge: the next one, or the one that the beat generator adopts (R15, R100, R103). -/
def edgeNum (s : State) : Nat := s.beat.adopt.getD (s.beat.num + 1)

/-- What a step does at the coming edge, before BEAT_EDGE has counted it: the beat number is that of the edge (log 39). -/
def atEdge (s : State) (f : State → Nat → State) : State :=
  let t := f { s with beat.num := edgeNum s, beat.slot := 0, beat.guard := false } (edgeNum s)
  { t with beat.num := s.beat.num, beat.slot := s.beat.slot, beat.guard := s.beat.guard }

end Sys2Proof.Machine
end

