-- ==== Sys2Proof/Machine/Flags.lean ====
section
/-! DEFINITION. The status and flag words: what a host read of each BAR0 word returns, block by block, from the register tables
of the chapters; the RC fields a read clears; and the W1C fields a write clears. A Keeper mirror (KW) shows Keeper's value at
once (log 22). -/

namespace Sys2Proof.Machine

open Sys2Proof

/-- The low or high word of a 64-bit value (R4). -/
def lo32 (v : Nat) : Word := BitVec.ofNat 32 v
/-- The high word of a 64-bit value (R4). -/
def hi32 (v : Nat) : Word := BitVec.ofNat 32 (v / 2 ^ 32)
/-- A word from a number. -/
def w32 (v : Nat) : Word := BitVec.ofNat 32 v

/-- One word of a calibration counter set (Table 3.17). -/
def calStatWord (c : CalStat) (w : Nat) : Word :=
  if w = 0 then fieldAt 16 16 c.fails ||| fieldAt 0 16 c.runs
  else if w = 1 then lo32 c.lastBeat
  else if w = 2 then hi32 c.lastBeat
  else 0#32

/- The synthesiser (chapter 3). -/

/-- The detector code of Table 3.9. -/
def LockSt.code : LockSt → Nat
  | .off => 0 | .acquire => 1 | .locked => 2 | .lost => 3 | .failed => 4
/-- The core source code of Table 3.9. -/
def CoreSrc.code : CoreSrc → Nat
  | .c0 => 0 | .c1 => 1 | .safe => 2 | .gated => 3
/-- An uninstalled profile (Table 3.18). -/
def Profile.empty : Profile :=
  { fallback := 0, icp := 0, band := 0, valid := false, d := 0, p := 1, n := 0, f := 0, kvco := 450, vtCal := 0 }
/-- SYN_STAT (Table 3.9). -/
def synStat (s : State) : Word :=
  fieldAt 16 4 s.syn.profNow ||| fieldAt 12 2 s.syn.src.code ||| fieldAt 9 3 s.syn.c1.ld.code |||
    fieldAt 6 3 s.syn.c0.ld.code ||| fieldAt 3 3 s.syn.b.ld.code ||| fieldAt 2 1 (bit1 s.syn.lrefOk) |||
    fieldAt 1 1 (bit1 s.syn.hrefOk) ||| fieldAt 0 1 (bit1 (s.syn.refSel == .localRef))
/-- SYN_CPSTAT (Table 3.10). -/
def synCpstat (s : State) : Word :=
  fieldAt 12 3 (bitsNat [s.syn.b.highLive, s.syn.c0.highLive, s.syn.c1.highLive]) |||
    fieldAt 8 3 (bitsNat [s.syn.b.lowLive, s.syn.c0.lowLive, s.syn.c1.lowLive]) |||
    fieldAt 4 3 (bitsNat [s.syn.b.high, s.syn.c0.high, s.syn.c1.high]) |||
    fieldAt 0 3 (bitsNat [s.syn.b.low, s.syn.c0.low, s.syn.c1.low])
/-- Output frequency of a profile in kHz, rounded: (100 MHz / P) × (N + F / 2^24) / D (R54). -/
def foutKhz (p : Profile) : Nat :=
  if p.valid then rneDiv (100000 * (p.n * 2 ^ 24 + p.f)) (p.p * p.d * 2 ^ 24) else 0
/-- One word of a SYN_PROF entry (Table 3.18). -/
def profWord (p : Profile) (w : Nat) : Word :=
  if w = 0 then
    fieldAt 28 4 p.fallback ||| fieldAt 27 1 (bit1 (p.valid && p.f == 0)) ||| fieldAt 21 6 p.icp ||| fieldAt 16 5 p.band |||
      fieldAt 15 1 (bit1 p.valid) ||| fieldAt 10 5 (p.d / 2) ||| fieldAt 8 2 (p.p - 1) ||| fieldAt 0 8 p.n
  else if w = 1 then fieldAt 0 24 p.f
  else if w = 2 then fieldAt 16 10 p.kvco ||| fieldAt 0 10 p.vtCal
  else fieldAt 0 21 (foutKhz p)
/-- The SYN_ words at BAR0 0x0004_0000. -/
def synReg (s : State) (o : Nat) : Option Word :=
  if o = 0x00 then some (synStat s)
  else if o = 0x04 then some (synCpstat s)
  else if o = 0x08 then some (w32 s.syn.hopCnt)
  else if o = 0x0C then some (fieldAt 16 16 s.syn.hopLate ||| fieldAt 0 16 s.syn.cancel)
  else if o = 0x10 then some (fieldAt 16 8 s.syn.c1.lol ||| fieldAt 8 8 s.syn.c0.lol ||| fieldAt 0 8 s.syn.b.lol)
  else if o = 0x14 then some (w32 s.syn.violCnt)
  else if o = 0x18 then some (w32 (twosSat 32 s.syn.phase))
  else if o = 0x1C then some (w32 (twosSat 32 s.syn.slip))
  else if o = 0x20 then
    some (fieldAt 26 2 s.syn.xmDiv ||| fieldAt 20 6 s.syn.icpB ||| fieldAt 15 5 s.syn.bandB ||| 0x80#32)
  else if 0x30 ≤ o ∧ o < 0x60 then
    some (calStatWord (vget s.syn.cal ((o - 0x30) / 16) ⟨0, 0, 0⟩) (o / 4 % 4))
  else if 0x1000 ≤ o ∧ o < 0x1100 then some (profWord (s.syn.prof0.getAt ((o - 0x1000) / 16) .empty) (o / 4 % 4))
  else if 0x1400 ≤ o ∧ o < 0x1500 then some (profWord (s.syn.prof1.getAt ((o - 0x1400) / 16) .empty) (o / 4 % 4))
  else none

/- The beat generator (chapter 4). -/

/-- The state code of Table 4.5. -/
def PState.code : PState → Nat
  | .solo => 0 | .seek => 1 | .acquire => 2 | .track => 3 | .hold => 4 | .master => 5
/-- ELIGIBLE as advertised (R95, R104): PLL-B locked and not in holdover, MASTER_EN, and master already or in TRACK with
IN_PHASE; a master in holdover keeps its role until it steps down (Table 4.2). -/
def eligible (s : State) : Bool :=
  let master := s.beat.pstate == .master
  s.beat.masterEn && !s.beat.steppedDown &&
    ((s.syn.b.ld == .locked && !s.syn.holdover && (master || (s.beat.pstate == .track && s.beat.inPhase))) ||
      (s.syn.holdover && master))
/-- The descriptor of the idle table (R21). -/
def idleDesc (slot : Nat) : Nat :=
  if slot = 127 then 0xDB6 else if 1 ≤ slot ∧ slot ≤ 6 then 0x924 else 0xB6D
/-- The descriptor of a slot in the installed table (R18, R107). -/
def descAt (s : State) (slot : Nat) : Nat := s.beat.table.getAt slot (idleDesc slot)
/-- Pn is trained and reaches the parent, and is not an express port (R91). -/
def parentPort (s : State) (p : Nat) : Bool :=
  match s.beat.parent with
  | none => false
  | some r => (portAt s p).st == .up && !(portAt s p).express && (portAt s p).nbrRank == r
/-- BEAT_STAT (Table 4.5). -/
def beatStat (s : State) : Word :=
  fieldAt 16 10 s.beat.masterRank ||| fieldAt 8 5 s.beat.hops ||| fieldAt 5 1 (bit1 (eligible s)) |||
    fieldAt 4 1 (bit1 s.syn.holdover) ||| fieldAt 3 1 (bit1 s.beat.inPhase) ||| fieldAt 0 3 s.beat.pstate.code
/-- BEAT_RANK (Table 4.6). -/
def beatRank (s : State) : Word :=
  fieldAt 31 1 (bit1 s.beat.parent.isSome) ||| fieldAt 16 10 (s.beat.parent.getD 0) ||| fieldAt 10 1 (bit1 s.beat.masterEn) |||
    fieldAt 0 10 s.beat.ownRank
/-- The BEAT_ words at BAR0 0x0005_0000. -/
def beatReg (s : State) (o : Nat) : Option Word :=
  if o = 0x00 then some (beatStat s)
  else if o = 0x04 then some (beatRank s)
  else if o = 0x08 then some (w32 (twosNat 32 s.beat.offsetPs))
  else if o = 0x0C then some (w32 (twosNat 32 s.beat.ratePpb))
  else if o = 0x10 then some (fieldAt 16 16 s.beat.excluded ||| fieldAt 0 13 s.beat.window.length)
  else if o = 0x14 then some (w32 (bitsNat ((List.range 20).map (parentPort s))))
  else if o = 0x18 then some (w32 (bitsNat s.beat.portx.toList))
  else if o = 0x1C then some (w32 (twosNat 32 s.beat.steer))
  else if 0x20 ≤ o ∧ o < 0x70 then
    let m := vget s.beat.markers ((o - 0x20) / 4) .init
    some (fieldAt 31 1 (bit1 m.dlyValid) ||| fieldAt 0 16 m.dly)
  else if o = 0x70 then some (w32 s.beat.steerLim)
  else if o = 0x74 then some (w32 s.beat.jumps)
  else if o = 0x78 then some (fieldAt 0 21 s.beat.lastJ)
  else if o = 0x7C then some (fieldAt 16 16 s.beat.elections ||| fieldAt 0 16 s.beat.parentChg)
  else if 0x1000 ≤ o ∧ o < 0x1200 then some (w32 (descAt s ((o - 0x1000) / 4)))
  else none

/- The Comb controller (chapter 5). -/

/-- The state code of Table 5.10. -/
def PlanSt.code : PlanSt → Nat
  | .empty => 0 | .loading => 1 | .standby => 2 | .installed => 3 | .draining => 4 | .unloading => 5
/-- A plan is resident from the moment it passes step 3 until its unload completes (R119). -/
def PlanSt.resident (p : PlanSt) : Bool := p != .empty
/-- The context of a resident plan. -/
def ctxOf (s : State) (id : Nat) : Option Nat :=
  (List.range 4).find? (fun c => (ctxAt s c).st.resident && (ctxAt s c).planId == id)
/-- The map entry that holds a physical bank: context and 64 q + plan bank (R122). -/
def bankOwner (s : State) (q pb : Nat) : Option (Nat × Nat) :=
  (List.range 4).findSome? (fun c =>
    ((ctxAt s c).bankMap.find? (fun e => decide (e.1 / 64 = q) && e.2 == pb)).map (fun e => (c, e.1)))
/-- A physical bank is reserved for a replacement phase or a bank copy (R124, R130). -/
def bankReserved (s : State) (q pb : Nat) : Bool :=
  (List.range 4).any (fun c => (ctxAt s c).phases.any (fun p => p.shadow.any (fun x => x.1 == q && x.2.2 == pb))) ||
    s.cmb.rebuilds.any (fun r => r.copyTo == some (64 * q + pb)) ||
    s.cmb.mapDue.any (fun e => e.2.1 / 64 == q && e.2.2.1 == pb)
/-- The free banks of a slice: neither mapped, nor reserved, nor awaiting zero-fill (R117, R121). -/
def freeBanks (s : State) (q : Nat) : List Nat :=
  (List.range 64).filter (fun b =>
    (bankOwner s q b).isNone && !bankReserved s q b && !s.cmb.dirty.contains (64 * q + b))
/-- Page p is poisoned (R128). -/
def pagePoisoned (s : State) (p : Nat) : Bool := s.cmb.poison.getAt p false
/-- Page p is retired, in Heartwood's list or for the run (R131). -/
def pageRetired (s : State) (p : Nat) : Bool := s.cmb.retired.contains p || s.cmb.retiredRun.contains p
/-- Four counts, one to a slice, in fields of 8 bits (Table 5.9). -/
def perSlice (f : Nat → Nat) : Word :=
  fieldAt 24 7 (f 3) ||| fieldAt 16 7 (f 2) ||| fieldAt 8 7 (f 1) ||| fieldAt 0 7 (f 0)
/-- One word of CMB_CTX (Table 5.10). -/
def ctxWord (c : PlanCtx) (w : Nat) : Word :=
  if w = 0 then lo32 c.planId
  else if w = 1 then hi32 c.planId
  else if w = 2 then
    fieldAt 16 16 c.phases.length ||| fieldAt 8 8 c.loadPct ||| fieldAt 3 1 (bit1 c.parity) ||| fieldAt 0 3 c.st.code
  else if w = 3 then fieldAt 16 9 c.soCount ||| fieldAt 0 8 c.soBase
  else 0#32
/-- CMB_STAT (Table 5.9). -/
def cmbStat (s : State) : Word :=
  let used := s.cmb.ctx.toList.map (fun c => c.st.resident)
  fieldAt 4 4 (bitsNat used) ||| fieldAt 1 3 (used.filter id).length ||| fieldAt 0 1 (bit1 s.cmb.rotate)
/-- The CMB_ words at BAR0 0x0006_0000. -/
def cmbReg (s : State) (o : Nat) : Option Word :=
  if o = 0x00 then some (cmbStat s)
  else if o = 0x04 then some (perSlice (fun q => (freeBanks s q).length))
  else if o = 0x08 then some (perSlice (fun q => (s.cmb.dirty.filter (fun k => k / 64 == q)).length))
  else if o = 0x0C then some (w32 s.cmb.ce)
  else if o = 0x10 then some (w32 s.cmb.ue)
  else if o = 0x14 then some (fieldAt 0 19 s.cmb.poison.length)
  else if o = 0x18 then some (fieldAt 0 19 (s.cmb.retired.length + s.cmb.retiredRun.length))
  else if o = 0x1C then some (fieldAt 16 16 s.cmb.rebuilt ||| fieldAt 0 16 (min 0xFFFF s.cmb.rebuilds.length))
  else if o = 0x20 then some (fieldAt 31 1 (bit1 s.cmb.lastErrValid) ||| fieldAt 0 19 s.cmb.lastErrPage)
  else if 0x100 ≤ o ∧ o < 0x180 ∧ o / 4 % 8 < 4 then some (ctxWord (ctxAt s ((o - 0x100) / 32)) (o / 4 % 8))
  else if 0x1000 ≤ o ∧ o < 0x2000 then
    let k := (o - 0x1000) / 4
    match (ctxAt s (k / 256)).bankMap.find (k % 256) with
    | some b => some (fieldAt 6 1 1 ||| fieldAt 0 6 b)
    | none => some 0#32
  else if 0x4000 ≤ o ∧ o < 0x10000 then
    let w := (o - 0x4000) / 4
    some (w32 (bitsNat ((List.range 32).map (fun i => pagePoisoned s (32 * w + i)))))
  else none

/- Identity page (chapters 1 and 2). -/

/-- The readiness code of Table 2.2. -/
def Readiness.code : Readiness → Nat
  | .rom => 0 | .clocking => 1 | .fwVerify => 2 | .domains => 3 | .memory => 4 | .links => 5 | .ready => 6
  | .recovery => 7 | .failed => 8

/-- The device belongs to a Hive of two or more members (Table 1.11). -/
def hiveMember (s : State) : Bool := s.hl.roster && decide (2 ≤ s.hl.size)

/-- HI_DEVID (Table 1.8). -/
def hiDevid : Word := 0x94161F7B#32
/-- HI_STEP (Table 1.9). -/
def hiStep : Word := 0xB0#32
/-- HI_FWVER (Table 1.10). -/
def hiFwver (s : State) : Word :=
  fieldAt 24 8 s.hi.fwMajor ||| fieldAt 16 8 s.hi.fwMinor ||| fieldAt 0 16 s.hi.fwBuild
/-- HI_GSTAT (Table 1.11). -/
def hiGstat (s : State) : Word :=
  fieldAt 10 1 (bit1 (hiveMember s)) ||| fieldAt 9 1 (bit1 s.hi.recovery) ||| fieldAt 8 1 (bit1 s.hi.imageB) |||
    fieldAt 4 4 (bitsNat s.hi.quadOff.toList) ||| fieldAt 0 4 s.hi.readiness.code
/-- HI_BEATCFG (Table 1.13). -/
def hiBeatcfg (s : State) : Word := fieldAt 14 6 s.beat.usSlots ||| fieldAt 0 14 s.beat.slotTicks
/-- HI_BOOTPROG (Table 2.9). -/
def hiBootprog (s : State) : Word :=
  fieldAt 17 1 (bit1 s.hi.imageBFail) ||| fieldAt 16 1 (bit1 s.hi.imageAFail) ||| fieldAt 8 8 s.hi.failStep |||
    fieldAt 0 8 s.hi.progress
/-- HI_RESET_CAUSE (Table 2.11). -/
def hiResetCause (s : State) : Word :=
  fieldAt 31 1 (bit1 s.hi.cold) ||| fieldAt 17 4 (bitsNat s.hi.quadRst.toList) ||| fieldAt 16 1 (bit1 s.hi.hiveRst) |||
    fieldAt 10 1 (bit1 s.hi.flr) ||| fieldAt 9 1 (bit1 s.hi.perstRst) ||| fieldAt 8 1 (bit1 s.hi.hot) |||
    fieldAt 0 4 s.hi.warm

/-- The words of the identity page at BAR0 0x0000_0000 (R29). -/
def idReg (s : State) (o : Nat) : Option Word :=
  if o = 0x00 then some hiDevid
  else if o = 0x04 then some hiStep
  else if o = 0x08 then some (hiFwver s)
  else if o = 0x0C then some (hiGstat s)
  else if o = 0x10 then some (lo32 s.beat.num)
  else if o = 0x14 then some (hi32 s.beat.num)
  else if o = 0x18 then some (hiBeatcfg s)
  else if o = 0x1C then some (fieldAt 0 7 s.beat.slot)
  else if o = 0x20 then some (w32 s.hi.overruns)
  else if o = 0x24 then some (w32 s.hi.lates)
  else if o = 0x28 then some (hiBootprog s)
  else if o = 0x2C then some (w32 s.hi.bootUs)
  else if o = 0x30 then some (hiResetCause s)
  else none

/- The host interface (chapter 13). -/

/-- Whole packets in the queue (R316). -/
def inflowPkts (s : State) : Nat := (s.hi.queue.filter (fun w => w.eop)).length
/-- HI_INFLOW_STAT (Table 13.9). -/
def hiInflowStat (s : State) : Word :=
  fieldAt 4 1 (bit1 s.hi.apPoison) ||| fieldAt 3 1 (bit1 s.hi.flushPend) ||| fieldAt 2 1 (bit1 s.hi.discarding) |||
    fieldAt 1 1 (bit1 s.hi.overflow) ||| fieldAt 0 1 (bit1 s.hi.underrun)
/-- HI_INFLOW_HEAD (Table 13.9). -/
def hiInflowHead (s : State) : Word :=
  match s.hi.queue with
  | [] => 0#32
  | w :: _ => fieldAt 7 1 (bit1 w.eop) ||| fieldAt 0 7 w.vbytes
/-- HI_EVR_CFG and HI_CPR_CFG (Table 13.10). -/
def ringCfg (r : Ring) : Word :=
  fieldAt 31 1 (bit1 r.enable) ||| fieldAt 8 2 r.minSev ||| fieldAt 0 5 r.size
/-- The words of one ring (Table 13.10); cnt is its last register. -/
def ringReg (r : Ring) (cnt o : Nat) : Option Word :=
  if o = 0x00 then some (lo32 r.base)
  else if o = 0x04 then some (hi32 r.base)
  else if o = 0x08 then some (ringCfg r)
  else if o = 0x0C then some (fieldAt 0 16 r.head)
  else if o = 0x10 then some (fieldAt 0 16 r.tail)
  else if o = 0x14 then some (w32 cnt)
  else none
/-- The words of the host interface at BAR0 0x0001_0000 (Tables 13.9 and 13.10). -/
def hiReg (s : State) (o : Nat) : Option Word :=
  if o = 0x00 then some 0#32
  else if o = 0x04 then some (fieldAt 0 13 (s.hi.queue.length + bit1 (!s.hi.packer.isEmpty)))
  else if o = 0x08 then some (fieldAt 0 13 (inflowPkts s))
  else if o = 0x0C then some (hiInflowStat s)
  else if o = 0x10 then some (w32 s.hi.drop)
  else if o = 0x14 then some (w32 s.hi.badTlp)
  else if o = 0x18 then some (w32 s.hi.flushed)
  else if o = 0x1C then some (w32 s.hi.admitted)
  else if o = 0x20 then some (w32 s.hi.accessErr)
  else if o = 0x24 then some (hiInflowHead s)
  else if o = 0x28 then some (fieldAt 0 3 s.hi.aperture)
  else if o = 0x30 then some (fieldAt 0 4 s.hi.intMask)
  else if 0x40 ≤ o ∧ o < 0x58 then ringReg s.hi.evr s.hi.evrLost (o - 0x40)
  else if 0x60 ≤ o ∧ o < 0x78 then ringReg s.hi.cpr s.hi.backlogCnt (o - 0x60)
  else none
/-- The MSI-X table at 0x0001_8000 and the PBA at 0x0001_9000 (R309, PCI Express Base Specification). -/
def msixReg (s : State) (o : Nat) : Option Word :=
  if o < 0x400 then
    if o / 4 % 4 = 3 then some (fieldAt 0 1 (bit1 (vget s.hi.msixMask (o / 16) true)))
    else some (w32 (s.hi.msixTable.getAt (o / 4) 0))
  else if o = 0x1000 then some (w32 (bitsNat s.hi.msixPend.toList))
  else if o = 0x1004 then some (hi32 (bitsNat s.hi.msixPend.toList))
  else none

/- The mailboxes (chapter 14). -/

/-- The state code of Table 14.11. -/
def MbSt.code : MbSt → Nat
  | .idle => 0 | .rung => 1 | .busy => 2 | .done => 3 | .refused => 4
/-- WG_STATUS of a mailbox (Table 14.11): CODE is 0 outside DONE and REFUSED. -/
def wgStatus (m : Mbox) : Word :=
  fieldAt 16 16 (if m.st = .done ∨ m.st = .refused then m.code else 0) ||| fieldAt 0 3 m.st.code
/-- WG_GSTAT (Table 14.12). -/
def wgGstat (s : State) : Word :=
  fieldAt 16 1 (bit1 s.wg.open3) ||| fieldAt 12 3 (mbAt s 3).st.code ||| fieldAt 8 3 (mbAt s 2).st.code |||
    fieldAt 4 3 (mbAt s 1).st.code ||| fieldAt 0 3 (mbAt s 0).st.code
/-- One word of a mailbox page (Table 14.2). -/
def pageWord (m : Mbox) (o : Nat) : Word :=
  if o < 0xFE0 then w32 (leNat (m.page.getRun o 0#8 4))
  else if o = 0xFE4 then wgStatus m
  else 0#32
/-- The WG_ words at BAR0 0x0002_0000: the pages of WG0 and WG1 (R336) and the global registers. -/
def wgReg (s : State) (o : Nat) : Option Word :=
  if o < 0x2000 then some (pageWord (mbAt s (o / 0x1000)) (o % 0x1000))
  else if o = 0x4000 then some (wgGstat s)
  else if o = 0x4008 then some (lo32 s.wg.round)
  else if o = 0x400C then some (hi32 s.wg.round)
  else if o = 0x4010 then some (w32 s.wg.skipped)
  else if 0x4020 ≤ o ∧ o < 0x4060 then
    let m := mbAt s ((o - 0x4020) / 16)
    if o % 16 = 0 then some (w32 m.accepted)
    else if o % 16 = 4 then some (w32 m.refused)
    else if o % 16 = 8 then some (w32 m.superseded)
    else some (fieldAt 16 16 m.frameErr ||| fieldAt 0 16 m.ringBusy)
  else none

/- Grafts, the journal and presence (chapter 15). -/

/-- Committed grafts that are pending, in SEQ order (Table 15.4). -/
def committed (s : State) : List Graft := s.gr.staged.filter (fun g => !g.alone)
/-- The earliest edge of the next phase of a staged change (R364). -/
def Graft.nextEdge (g : Graft) : Nat :=
  g.target + ((g.phases.getD 0 ⟨0, [], false, 0⟩).off) + g.shift
/-- GR_NEXT_EDGE: the next edge with a staged change, 0 if none; a phase that waits (R364) may apply at any edge that comes. -/
def grNextEdge (s : State) : Nat :=
  match s.gr.staged.map Graft.nextEdge with
  | [] => 0
  | e :: r => max (s.beat.num + 1) (r.foldl min e)

/-- Presence would be proved now (R372): a qualified assertion is in progress, or one ended at most 30 s ago. -/
def presProved (s : State) : Bool := s.gr.qualified || (s.gr.window && decide (s.gr.ageMs.getD 0 ≤ 30000))
/-- GR_PRES.PRES_AGE (Table 15.4). -/
def presAge (s : State) : Nat :=
  if s.gr.qualified then 0
  else match s.gr.ageMs with
    | none => 0xFFFF
    | some ms => min (ms / 1000) 0xFFFF
/-- The seal latch as presence-class commands and GR_PRES see it (R373, R399). -/
def sealLatch (s : State) : Bool := s.gr.latch || hwOffline s
/-- GR_PRES (Table 15.4). -/
def grPres (s : State) : Word :=
  fieldAt 16 16 (presAge s) ||| fieldAt 3 1 (bit1 (presProved s)) ||| fieldAt 2 1 (bit1 (sealLatch s)) |||
    fieldAt 1 1 (bit1 s.gr.sealOk) ||| fieldAt 0 1 (bit1 s.gr.presLow)
/-- GR_STAT (Table 15.4). -/
def grStat (s : State) : Word :=
  fieldAt 16 5 (committed s).length ||| fieldAt 8 4 (bitsNat (s.gr.opened.toList.map Option.isSome))
/-- GR_GRAFT.STATE: staged, waiting or partly applied (Table 15.4). -/
def Graft.stateCode (g : Graft) (num : Nat) : Nat :=
  if g.next ≠ 0 then 3 else if g.nextEdge ≤ num then 2 else 1
/-- One word of a GR_GRAFT entry (Table 15.4). -/
def graftWord (num : Nat) (g : Option Graft) (w : Nat) : Word :=
  match g with
  | none => 0#32
  | some g =>
    if w = 0 then lo32 g.seq
    else if w = 1 then hi32 g.seq
    else if w = 2 then lo32 g.nextEdge
    else if w = 3 then hi32 g.nextEdge
    else if w = 4 then
      fieldAt 20 3 (g.stateCode num) ||| fieldAt 16 4 g.source ||| fieldAt 12 4 g.total ||| fieldAt 8 4 g.next |||
        fieldAt 0 7 g.count
    else 0#32
/-- The GR_ words at BAR0 0x000F_0000 (Table 15.4). -/
def grReg (s : State) (o : Nat) : Option Word :=
  if o = 0x00 then some (grStat s)
  else if o = 0x08 then some (lo32 (grNextEdge s))
  else if o = 0x0C then some (hi32 (grNextEdge s))
  else if o = 0x10 then some (w32 s.gr.applied)
  else if o = 0x14 then some (w32 s.gr.abandoned)
  else if o = 0x18 then some (w32 s.gr.notAtomic)
  else if o = 0x20 then some (grPres s)
  else if o = 0x24 then some (w32 s.gr.breaks)
  else if 0x100 ≤ o ∧ o < 0x300 ∧ o / 4 % 8 < 5 then some (graftWord s.beat.num (committed s)[(o - 0x100) / 32]? (o / 4 % 8))
  else none
/-- SEQ of the oldest entry held, 0 if none (Table 15.5). -/
def rjOldest (s : State) : Nat :=
  match s.rj.ent with
  | [] => 0
  | e :: _ => e.seq
/-- Entries that wait for their Heartwood mirror (R370). -/
def rjMirrorPend (s : State) : Nat := (s.rj.ent.filter (fun e => e.mirrors && !e.mirrored)).length
/-- The RJ_ words at BAR0 0x000F_8000 (Table 15.5). -/
def rjReg (s : State) (o : Nat) : Option Word :=
  if o = 0x00 then some (lo32 s.rj.next)
  else if o = 0x04 then some (hi32 s.rj.next)
  else if o = 0x08 then some (lo32 (rjOldest s))
  else if o = 0x0C then some (hi32 (rjOldest s))
  else if o = 0x10 then some (fieldAt 0 14 s.rj.ent.length)
  else if o = 0x14 then some (fieldAt 0 14 (rjMirrorPend s))
  else none

/- The Understory and Heartwood (chapter 16). -/

/-- The peak a US_TEMP read returns: 0 before the first sample after a read (R397). -/
def Temp.word (t : Temp) : Word :=
  fieldAt 31 1 (bit1 t.valid) ||| fieldAt 16 12 (twosNat 12 (t.peak.getD 0)) ||| fieldAt 0 12 (twosNat 12 t.now)
/-- The US_ words at BAR0 0x0010_0000 (Table 16.6). -/
def usReg (s : State) (o : Nat) : Option Word :=
  if o = 0x00 then some (fieldAt 4 1 (bit1 !s.cmb.rebuilds.isEmpty) ||| fieldAt 0 4 (bitsNat s.us.behind.toList))
  else if o = 0x04 then some (w32 s.us.deficit)
  else if 0x10 ≤ o ∧ o < 0x20 then some (w32 (vget s.us.utime ((o - 0x10) / 4) 0))
  else if 0x20 ≤ o ∧ o < 0x30 then some (w32 (vget s.us.uused ((o - 0x20) / 4) 0))
  else if 0x30 ≤ o ∧ o < 0x40 then some (w32 (vget s.us.slack ((o - 0x30) / 4) 0))
  else if o = 0x40 then some (fieldAt 0 17 s.us.periodS)
  else if 0x44 ≤ o ∧ o < 0x54 then
    some (fieldAt 20 12 (vget s.us.passes ((o - 0x44) / 4) 0) ||| fieldAt 0 17 (vget s.us.page ((o - 0x44) / 4) 0))
  else if o = 0x54 then some (w32 s.us.scrubUe)
  else if 0x80 ≤ o ∧ o < 0xAC then some (vget s.us.temp ((o - 0x80) / 4) ⟨false, 0, none⟩).word
  else if o = 0xB0 then some (fieldAt 16 16 s.us.powerPeak ||| fieldAt 0 16 s.us.power)
  else if 0xC0 ≤ o ∧ o < 0xE0 then some (calStatWord (vget s.syn.cal (3 + (o - 0xC0) / 16) ⟨0, 0, 0⟩) (o / 4 % 4))
  else none
/-- Keeper knows the Heartwood record once its scan has ended (R405). -/
def hwKnown (s : State) : Bool := s.hw.scanned && s.hw.online
/-- Log blocks' mean erase count (Table 16.7). -/
def hwMeanErases (s : State) : Nat := (s.hw.map.map (fun b => s.hw.erases.getAt b 0)).sum / max 1 s.hw.map.length
/-- Retries per 1,000 page programs over the last 1,024 programs (R408). -/
def hwRetryMilli (s : State) : Nat :=
  if s.hw.retries.isEmpty then 0 else s.hw.retries.sum * 1000 / s.hw.retries.length
/-- RSEQ of the oldest record held, 0 if none. -/
def hwOldest (s : State) : Nat :=
  match s.hw.log with
  | [] => 0
  | r :: _ => r.rseq
/-- The HW_ words at BAR0 0x0011_0000 (Table 16.7). -/
def hwReg (s : State) (o : Nat) : Option Word :=
  let k := hwKnown s
  if o = 0x00 then
    some (fieldAt 16 6 (if k then s.hw.spares.length else 32) ||| fieldAt 4 3 s.hw.queue.length |||
      fieldAt 1 1 (bit1 (k && s.hw.lastResort)) ||| fieldAt 0 1 (bit1 s.hw.online))
  else if o = 0x04 then some (fieldAt 16 16 s.hw.erasePct ||| fieldAt 0 16 (min (hwRetryMilli s) 0xFFFF))
  else if o = 0x08 then some (fieldAt 0 20 (if k then min ((s.hw.erases.map (fun e => e.2)).foldl max 0) (2 ^ 20 - 1) else 0))
  else if o = 0x0C then some (fieldAt 0 20 (if k then min (hwMeanErases s) (2 ^ 20 - 1) else 0))
  else if o = 0x10 then some (fieldAt 0 11 (if k then s.hw.retired.length else 0))
  else if o = 0x14 then some (w32 s.hw.lost)
  else if o = 0x18 then some (w32 s.hw.torn)
  else if o = 0x20 then some (lo32 (if k then s.hw.nextRseq else 0))
  else if o = 0x24 then some (hi32 (if k then s.hw.nextRseq else 0))
  else if o = 0x28 then some (lo32 (if k then hwOldest s else 0))
  else if o = 0x2C then some (hi32 (if k then hwOldest s else 0))
  else none

/- Power (chapter 17). -/

/-- The state code of Table 17.5. -/
def PwrSt.code : PwrSt → Nat
  | .active => 0 | .park => 1 | .doze => 2 | .deep => 3 | .winter => 4
/-- The level code of Table 17.5. -/
def Therm.code : Therm → Nat
  | .normal => 0 | .warn => 1 | .throttle => 2 | .stop => 3
/-- PWR_STAT.DOM_ON: Q0 to Q3, CB0 to CB3, LNK, XMI, HIF. -/
def domOn (s : State) : Nat :=
  bitsNat (s.pwr.quad.toList ++ s.pwr.cb.toList ++ [s.pwr.lnk, s.pwr.xmi, s.pwr.hif])
/-- PWR_STAT (Table 17.5). -/
def pwrStat (s : State) : Word :=
  fieldAt 16 11 (domOn s) ||| fieldAt 12 4 (bitsNat s.pwr.cbRet.toList) ||| fieldAt 10 1 (bit1 s.pwr.tripped) |||
    fieldAt 8 2 s.pwr.therm.code ||| fieldAt 4 3 s.pwr.target.code ||| fieldAt 0 3 s.pwr.st.code
/-- The effective tolerance in µs (R421): the smallest of the device's and of each INSTALLED plan's. -/
def tolEff (s : State) : Nat :=
  s.cmb.ctx.toList.foldl (fun m c =>
    if c.st = .installed ∧ c.tol ≠ 0xFFFFFFFF then min m c.tol else m) s.pwr.tolDev
/-- The PWR_ words at BAR0 0x0012_0000 (Table 17.5). -/
def pwrReg (s : State) (o : Nat) : Option Word :=
  if o = 0x00 then some (pwrStat s)
  else if o = 0x04 then some (w32 s.pwr.tolDev)
  else if o = 0x08 then some (w32 (tolEff s))
  else if 0x10 ≤ o ∧ o < 0x20 then some (w32 (ctxAt s ((o - 0x10) / 4)).tol)
  else if o = 0x20 then some (fieldAt 16 10 s.pwr.limitW ||| fieldAt 0 8 s.pwr.entryBeats)
  else if 0x30 ≤ o ∧ o < 0x58 then
    let v := vget s.pwr.resid ((o - 0x30) / 8) 0
    some (if o % 8 = 0 then lo32 v else hi32 v)
  else if o = 0x58 then some (w32 s.pwr.wakes)
  else if o = 0x5C then some (w32 s.pwr.wakeUs)
  else if o = 0x60 then some (fieldAt 16 16 s.pwr.regFaults ||| fieldAt 0 4 s.pwr.regPage)
  else none

end Sys2Proof.Machine
end

