-- ==== Sys2Proof/Machine/Synth.lean ====
section
/-! DEFINITION. The frequency synthesiser (chapter 3): HOP slots and the base profile, pre-locks, swaps and fallbacks
(R72 to R80, R457), the lock detector (R66), compliance (R61 to R65), and the commands of those events. -/

namespace Sys2Proof.Machine

open Sys2Proof

/-- What the two reference inputs carry is seen (R51, R52). -/
def seeRefs (s : State) (hiveOk localOk : Bool) : State := { s with syn.hrefIn := hiveOk, syn.lrefIn := localOk }
/-- Both inputs are judged: SYN_STAT shows their validity at the last check (R53). -/
def checkRefs (s : State) : State := { s with syn.hrefOk := s.syn.hrefIn, syn.lrefOk := s.syn.lrefIn }

/-- HOP of a descriptor (Table 1.4). -/
def descHop (d : Nat) : Bool := decide (d / 2 ^ 13 % 2 = 1)
/-- HOP_PROFILE of a descriptor (Table 1.4). -/
def descProfile (d : Nat) : Nat := d / 2 ^ 14 % 16
/-- LINK_SCHED of a descriptor (Table 1.4). -/
def descLink (d : Nat) : Bool := decide (d / 2 ^ 12 % 2 = 1)
/-- The owner code of quadrant q in a descriptor (Table 1.5). -/
def descOwner (d q : Nat) : Nat := d / 2 ^ (3 * q) % 8
/-- A guaranteed Understory slot carries the Understory code in all four quadrants (R20). -/
def descGuaranteed (d : Nat) : Bool := decide (d % 2 ^ 12 = 0x924)

/-- The HOPs of a table as slot and profile, in slot order. -/
def hopsOf (table : Nat → Nat) : List (Nat × Nat) :=
  (List.range 128).filterMap (fun i => if descHop (table i) then some (i, descProfile (table i)) else none)

/-- The HOPs of the installed table. -/
def hops (s : State) : List (Nat × Nat) := hopsOf (descAt s)

/-- The first HOP after a slot, in slot order across the beat edge (R75). -/
def nextHopAfter (l : List (Nat × Nat)) (slot : Nat) : Option (Nat × Nat) :=
  match l.find? (fun h => decide (slot < h.1)) with
  | some h => some h
  | none => l.head?

/-- The base profile that a plan names: the target of its last HOP, or the profile its image marks (R72). -/
def ctxBase (c : PlanCtx) : Option Nat :=
  match (hopsOf (fun i => c.slots.getD i 0)).getLast? with
  | some h => some h.2
  | none => (c.profiles.find? (fun p => p.2.2)).map (fun p => p.1)

/-- The contexts whose slots stand in the installed table: INSTALLED and DRAINING plans (Table 5.7). -/
def PlanSt.inTable : PlanSt → Bool
  | .installed => true
  | .draining => true
  | _ => false

/-- The base profile in force (R72, R74): the last HOP's target, else what the lowest plan in the table names, else what the
lowest resident plan names. -/
def baseProfile (s : State) : Option Nat :=
  match (hops s).getLast? with
  | some h => some h.2
  | none =>
    match s.cmb.ctx.toList.find? (fun c => c.st.inTable) with
    | some c => ctxBase c
    | none =>
      match s.cmb.ctx.toList.find? (fun c => c.st.resident) with
      | some c => ctxBase c
      | none => none

/- The mux and the two core loops. -/

/-- What drives the core clock, or stands behind the gate in Park and drives it again afterwards (Table 3.7). -/
def drive (s : State) : CoreSrc := if s.syn.src = .gated then s.syn.parkSrc else s.syn.src

/-- Select what drives the core clock; the gate of Park stays closed (Table 3.7). -/
def setDrive (s : State) (d : CoreSrc) : State :=
  if s.syn.src = .gated then { s with syn.parkSrc := d } else { s with syn.src := d }

/-- The active core loop (SYN_STAT.CORE_SRC). -/
def activeLoop (s : State) : Option Loop :=
  match drive s with
  | .c0 => some .c0
  | .c1 => some .c1
  | _ => none

/-- A core loop is in service (R80). -/
def inService (s : State) (l : Loop) : Bool := !(loopAt s l).out

/-- Both core loops are in service (R80). -/
def bothInService (s : State) : Bool := inService s .c0 && inService s .c1

/-- The core loops have their power: they are off from Doze on (Table 3.7). -/
def loopsPowered (s : State) : Bool := decide (s.pwr.st.code < 2)

/-- The idle loop: the one that does not drive the core; from the safe clock, the first in service that serves (R74, R79). -/
def idleLoop (s : State) : Option Loop :=
  if loopsPowered s then
    match drive s with
    | .c0 => if inService s .c1 then some .c1 else none
    | .c1 => if inService s .c0 then some .c0 else none
    | .safe => if inService s .c0 then some .c0 else if inService s .c1 then some .c1 else none
    | .gated => none
  else none

/-- The number that a loop has in a calibration target: 0 PLL-B, 1 PLL-C0, 2 PLL-C1. -/
def loopUnit : Loop → Nat
  | .b => 0
  | .c0 => 1
  | .c1 => 2

/- Profiles (R60, R62, R84). -/

/-- The initial band of R57: round((f_vco − 9.650 GHz) / 0.150 GHz), an exact half down, clamped to 0 to 31. -/
def initialBand (p n f : Nat) : Nat :=
  let num : Int := 100 * ((n * 2 ^ 24 + f : Nat) : Int) - 9650 * (p * 2 ^ 24 : Nat)
  let den : Int := 150 * (p * 2 ^ 24 : Nat)
  if den ≤ 0 then 0 else (min 31 (-((den - 2 * num) / (2 * den)))).toNat

/-- The pump code of R60: the loop gain as close to 6,667 µA·MHz/V as the code allows, the lower code on a tie. -/
def pumpCode (n f kvco : Nat) : Nat :=
  let m : Int := (n * 2 ^ 24 + f : Nat)
  let off (i : Nat) : Nat := ((50 * (i + 1) * kvco * 2 ^ 24 : Nat) - 6667 * m : Int).natAbs
  (List.range 64).foldl (fun b i => if off i < off b then i else b) 0

/-- A profile as a core loop's table holds it (R84). -/
def profAt (s : State) (l : Loop) (i : Nat) : Profile :=
  match l with
  | .c1 => s.syn.prof1.getAt i .empty
  | _ => s.syn.prof0.getAt i .empty

/-- Write an entry of a core loop's table. -/
def profPut (s : State) (l : Loop) (i : Nat) (p : Profile) : State :=
  match l with
  | .c0 => { s with syn.prof0 := s.syn.prof0.putAt i p .empty }
  | .c1 => { s with syn.prof1 := s.syn.prof1.putAt i p .empty }
  | .b => s

/-- The profile is on the active loop of its table, so that Keeper does not write it (R84). -/
def profBusy (s : State) (l : Loop) (i : Nat) : Bool := activeLoop s == some l && s.syn.profNow == i

/-- The entry that Keeper last asked for: what waits to be written, or what the table holds. -/
def profWant (s : State) (l : Loop) (i : Nat) : Profile :=
  ((s.syn.profDue.find? (fun e => e.1 == loopUnit l && e.2.1 == i)).map (fun e => e.2.2)).getD (profAt s l i)

/-- Keeper writes an entry, at once or once the profile leaves the active loop of its table (R84). -/
def setProf (s : State) (l : Loop) (i : Nat) (p : Profile) : State :=
  let due := s.syn.profDue.filter (fun e => !(e.1 == loopUnit l && e.2.1 == i))
  if profBusy s l i then { s with syn.profDue := due ++ [(loopUnit l, i, p)] }
  else profPut { s with syn.profDue := due } l i p

/-- Change a core loop's copy of a profile (R84). -/
def onProf (s : State) (l : Loop) (i : Nat) (f : Profile → Profile) : State := setProf s l i (f (profWant s l i))

/-- The core loop of a calibration unit. -/
def unitLoop (u : Nat) : Loop := if u = 0 then .b else if u = 1 then .c0 else .c1

/-- The writes that waited are made once their profile has left the active loop (R84). -/
def profFlush (s : State) : State :=
  s.syn.profDue.foldl (fun s e => if profBusy s (unitLoop e.1) e.2.1 then s else setProf s (unitLoop e.1) e.2.1 e.2.2) s

/-- The K_vco measured for a loop and band, or 450 MHz/V before any calibration (R60). -/
def kvcoOf (s : State) (l : Loop) (band : Nat) : Nat := s.syn.kvco.getAt (32 * loopUnit l + band) 450

/-- A profile in a band of a loop, with that band's K_vco and the pump code that follows from it (R60). -/
def inBand (s : State) (l : Loop) (band : Nat) (p : Profile) : Profile :=
  { p with band := band, kvco := kvcoOf s l band, icp := pumpCode p.n p.f (kvcoOf s l band) }

/-- Retarget the band of a core loop's copy of a profile (R62 to R64, R76). -/
def bandTo (s : State) (l : Loop) (i band : Nat) : State := onProf s l i (inBand s l band)

/-- One band step, clamped to 0 to 31: down for VT_LOW, up for VT_HIGH (R64, R76). -/
def bandStep (band : Nat) (high : Bool) : Nat := if high then min 31 (band + 1) else band - 1

/-- The override of a calibration value, if one is set (R379). -/
def overrideOf (s : State) (kind unit index : Nat) : Option Nat :=
  (s.us.cal.find? (fun e => e.1 == { kind := kind, unit := unit, index := index })).bind (fun e => e.2.override)

/- Pre-locks (R63, R67, R75, R457). -/

/-- A band step that has not locked is not kept (R76): the loop's copy of its target goes back to the band before it. -/
def undoStep (s : State) (l : Loop) : State :=
  match (loopAt s l).stepped with
  | none => s
  | some old => onLoop (bandTo s l ((loopAt s l).target.getD 0) old) l (fun x => { x with stepped := none })

/-- The band retarget that is due at this pre-lock of a profile is made (R63, R64). -/
def bandDue (s : State) (l : Loop) (prof : Nat) : State :=
  match (loopAt s l).retarget.find prof with
  | none => s
  | some dir => onLoop (bandTo s l prof (bandStep (profWant s l prof).band (decide (0 < dir)))) l
      (fun x => { x with retarget := x.retarget.eraseAt prof })

/-- Overrides of a profile's band and pump take effect at its pre-lock on the loop (R379). -/
def overrideDue (s : State) (l : Loop) (prof : Nat) : State :=
  let s := match overrideOf s 0 (loopUnit l) prof with
    | none => s
    | some v => bandTo s l prof v
  match overrideOf s 1 (loopUnit l) prof with
  | none => s
  | some v => onProf s l prof (fun p => { p with icp := v })

/-- Write a profile into an idle core loop, and pre-lock begins: T_pl runs from here (R67, R75, Table 3.3). -/
def retarget (s : State) (l : Loop) (prof : Nat) (why : LoopPurpose) (slot : Option Nat) : State :=
  onLoop (overrideDue (bandDue (undoStep s l) l prof) l prof) l (fun x =>
    { x with ld := .acquire, target := some prof, purpose := why, slot := slot, stepped := none, pre := true, preFlag := none,
             viol := [] })

/-- T_pl of a profile in beat ticks of 1.25 ns: 12 µs at P = 1, 16 µs at P = 2 (R67). -/
def tplTicks (p : Profile) : Nat := if p.p = 2 then 12800 else 9600

/-- What R75 asks of the idle loop after a slot: the next HOP that is not cancelled; the FALLBACK of the profile in force as a
standby; or, on the safe clock, the base profile (R74, R79). -/
def nextPre (s : State) (slot : Nat) : Option (Nat × LoopPurpose × Option Nat) :=
  match nextHopAfter ((hops s).filter (fun h => s.syn.skip != some h.1)) slot with
  | some h => some (h.2, .hop, some h.1)
  | none =>
    match activeLoop s with
    | some a => some ((profAt s a s.syn.profNow).fallback, .standby, none)
    | none => (baseProfile s).map (fun b => (b, .base, none))

/-- The pre-lock of R75 on a loop. -/
def prelockOn (s : State) (l : Loop) (slot : Nat) : State :=
  match nextPre s slot with
  | some n => retarget s l n.1 n.2.1 n.2.2
  | none => onLoop s l (fun x => { x with purpose := .none, slot := none })

/-- The pre-lock of R75 on the idle loop. -/
def prelockNext (s : State) (slot : Nat) : State :=
  match idleLoop s with
  | none => s
  | some l => prelockOn s l slot

/-- The loop is acquiring or holds that profile. -/
def holds (x : LoopSt) (prof : Nat) : Bool := x.target == some prof && (x.ld == .acquire || x.ld == .locked)

/-- The pre-lock of R75 on the idle loop, which keeps a pre-lock of the same profile that has begun (R457). -/
def ensureNext (s : State) (slot : Nat) : State :=
  match idleLoop s, nextPre s slot with
  | some l, some n =>
    if holds (loopAt s l) n.1 then onLoop s l (fun x => { x with purpose := n.2.1, slot := n.2.2 })
    else retarget s l n.1 n.2.1 n.2.2
  | _, _ => s

/-- A fallback or the base profile is being locked for the core (R74, R76, R79). -/
def LoopPurpose.pursued : LoopPurpose → Bool
  | .fallbackHop => true
  | .baseFallback => true
  | .base => true
  | _ => false

/-- From a slot on, the idle loop takes up what the table in force asks for, unless a fallback or the base profile is on its way to the core
(R76, R457). -/
def afterTable (s : State) (slot : Nat) : State :=
  let s := { s with syn.skip := none }
  match s.syn.hold, idleLoop s with
  | .none, some l => if (loopAt s l).purpose.pursued then s else ensureNext s slot
  | _, _ => s

/-- At an edge the idle loop gets a target where it has none that is of use: none at all, one prepared for the edge (R457), or a
profile that has left the table (R84). -/
def settleIdle (s : State) : State :=
  match s.syn.hold, idleLoop s with
  | .none, some l =>
    let x := loopAt s l
    if x.purpose = .none ∨ x.slot = some 128 ∨ (profAt s l (x.target.getD 0)).valid = false then
      if x.purpose.pursued then s else ensureNext s 127
    else s
  | _, _ => s

/- Swaps (R74, R76 to R79, R86). -/

/-- A core loop as a core source. -/
def loopSrc : Loop → CoreSrc
  | .c0 => .c0
  | .c1 => .c1
  | .b => .safe

/-- The mux selects a locked core loop: the profile it holds is in force, and SYN_HOPCNT counts. -/
def driveLoop (s : State) (l : Loop) : State :=
  let t := setDrive { s with syn.profNow := ((loopAt s l).target).getD 0, syn.hopCnt := satAdd 32 s.syn.hopCnt 1,
                             syn.lateSwap := none, syn.baseSwapDue := false } (loopSrc l)
  profFlush (onLoop t l (fun x => { x with purpose := .none, slot := none }))

/-- The glitch-free swap to a locked core loop (R77). The freed loop starts the next pre-lock (R75); after the swap for a coming
edge, slot 128, it does so at the edge (R457). -/
def swapTo (s : State) (l : Loop) (slot : Nat) : State :=
  if slot = 128 then driveLoop s l else prelockNext (driveLoop s l) slot

/-- The core clock swaps to the safe clock (R74, R78, R86). -/
def swapSafe (s : State) : State :=
  let s := { s with syn.lateSwap := none, syn.baseSwapDue := false }
  if drive s = .safe then s
  else profFlush (setDrive { s with syn.hopCnt := satAdd 32 s.syn.hopCnt 1 } .safe)

/-- A locked core loop in service whose target is that profile and that does not drive the core. -/
def lockedTo (s : State) (prof : Nat) : Option Loop :=
  [Loop.c0, Loop.c1].find? (fun l =>
    (loopAt s l).ld == .locked && (loopAt s l).target == some prof && activeLoop s != some l && inService s l)

/-- The loop that serves the HOP of a slot: the one that pre-locks it, else the idle one (R76). -/
def hopLoop (s : State) (slot : Nat) : Option Loop :=
  match [Loop.c0, Loop.c1].find? (fun l =>
    (loopAt s l).purpose == .hop && (loopAt s l).slot == some slot && activeLoop s != some l && inService s l) with
  | some l => some l
  | none => idleLoop s

/-- A hop to a slot is cancelled (R76): event 0x0102, SYN_HOPCANCEL, and the loop pre-locks the fallback, or the next HOP where the
fallback is in force. While one loop only is in service the fallback is treated as unreachable (R80). -/
def cancelHop (s : State) (lo : Option Loop) (slot prof : Nat) : State :=
  let s := raise { s with syn.cancel := satAdd 16 s.syn.cancel 1 } 0x0102 .major 0
  match lo with
  | none => s
  | some l =>
    let s := undoStep s l
    let fb := (profAt s l prof).fallback
    if ¬ bothInService s ∨ (drive s ≠ .safe ∧ fb = s.syn.profNow) then prelockOn s l slot
    else retarget s l fb .fallbackHop (some slot)

/-- The guard before a slot has come: a cancellation of its HOP is over. -/
def clearSkip (s : State) (slot : Nat) : State := if s.syn.skip = some slot then { s with syn.skip := none } else s

/-- A planned HOP meets its guard (R75 to R79): the swap is made if a loop is LOCKED to its target, and the hop is cancelled
otherwise. On the safe clock the core stays there until a loop has locked the target. -/
def hopGuard (s : State) (slot prof : Nat) : State :=
  if s.syn.skip = some slot then { s with syn.skip := none }
  else
    match lockedTo s prof with
    | some l => if bothInService s ∨ drive s = .safe then swapTo s l slot else cancelHop s (hopLoop s slot) slot prof
    | none => cancelHop s (hopLoop s slot) slot prof

/-- The late swap of R76: in the first guard after the fallback's lock. -/
def lateHopSwap (s : State) (slot : Nat) : State :=
  match s.syn.lateSwap with
  | none => s
  | some prof =>
    match lockedTo s prof with
    | none => s
    | some l => { swapTo s l slot with syn.hopLate := satAdd 16 s.syn.hopLate 1 }

/-- The compliance flag that a pre-lock failed with, true for the upper one: it fell during the pre-lock, or its comparator still
shows it; the lower one counts first (R76). -/
def preFlagOf (x : LoopSt) : Option Bool :=
  match x.preFlag with
  | some h => some h
  | none => if x.lowLive then some false else if x.highLive then some true else none

/-- The one band step of R76, with a second T_pl window. -/
def prelockStep (s : State) (l : Loop) (high : Bool) : State :=
  let prof := (loopAt s l).target.getD 0
  let old := (profWant s l prof).band
  onLoop (bandTo s l prof (bandStep old high)) l (fun x =>
    { x with ld := .acquire, stepped := some old, pre := true, preFlag := none })

/-- No attempt locks the base profile (R74): event 0x0102; the loop stays FAILED, and each edge tries again. -/
def baseFailed (s : State) (l : Loop) : State :=
  raise (onLoop s l (fun x => { x with purpose := .base })) 0x0102 .major 0

/-- A pre-lock has failed for good, after a band step or without a flag: what its purpose asks for (R74, R76). Event 0x0109 reports
a standby or fallback whose band step did not lock. -/
def prelockGone (s : State) (l : Loop) : State :=
  let x := loopAt s l
  let prof := x.target.getD 0
  let s := undoStep (onLoop s l (fun x => { x with ld := .failed, pre := false, preFlag := none })) l
  let told (s : State) : State := if x.stepped.isSome then raise s 0x0109 .major 0 else s
  match x.purpose with
  | .hop => cancelHop { s with syn.skip := x.slot } (some l) (x.slot.getD 0) prof
  | .fallbackHop => prelockOn (told s) l (x.slot.getD 0)
  | .standby => told s
  | .baseFallback => baseFailed (told s) l
  | .base =>
    let fb := (profAt s l prof).fallback
    if fb = prof then baseFailed s l else retarget s l fb .baseFallback none
  | .none => s

/-- A pre-lock fails (R76, R74): one band step if a compliance flag caused it, and otherwise what its purpose asks for. -/
def prelockFailed (s : State) (l : Loop) : State :=
  match preFlagOf (loopAt s l), (loopAt s l).stepped with
  | some high, none => prelockStep s l high
  | _, _ => prelockGone s l

/-- Keeper starts to lock a core loop to the base profile, and the core swaps to it at the first edge after (R74, R79). -/
def lockBase (s : State) : State :=
  match baseProfile s, idleLoop s with
  | some b, some l => retarget s l b .base none
  | _, _ => s

/-- The retries a beat edge makes (R74, R76): a failed standby, and a failed base profile. -/
def prelockRetries (s : State) : State :=
  [Loop.c0, Loop.c1].foldl (fun s l =>
    let x := loopAt s l
    if x.ld = .failed ∧ x.out = false ∧ activeLoop s ≠ some l then
      match x.purpose with
      | .standby => retarget s l (x.target.getD 0) .standby none
      | .base => match baseProfile s with
        | some b => retarget s l b .base none
        | none => s
      | _ => s
    else s) s

/-- At a beat edge the core swaps to the base profile that a loop has locked for it (R74, R79). -/
def baseSwapAtEdge (s : State) : State :=
  if s.syn.baseSwapDue = true ∧ s.syn.hold = .none then
    match [Loop.c0, Loop.c1].find? (fun l =>
      (loopAt s l).ld == .locked && (loopAt s l).purpose == .base && inService s l && activeLoop s != some l) with
    | some l => swapTo s l 127
    | none => s
  else s

/-- R65: the PLL-B pump code falls by one step per beat, down to 15, until the flag clears. DESIGN CHOICE (log 73): the flag is the
live comparator, since the sticky bit of SYN_CPSTAT clears only by a host write. -/
def pumpStep (s : State) : State :=
  if s.syn.b.lowLive || s.syn.b.highLive then
    { s with syn.icpB := if 15 < s.syn.icpB then s.syn.icpB - 1 else s.syn.icpB }
  else s

/-- A core loop leaves service (R80): event 0x0108. -/
def loopOut (s : State) (l : Loop) : State :=
  raise (onLoop s l (fun x => { x with out := true, bandOk := false, pumpOk := false })) 0x0108 .critical 0

/-- The other core loop. -/
def otherLoop (l : Loop) : Loop := if l = .c0 then .c1 else .c0

/-- What the loop that has failed under R78 does next, or the other one in its place (R79): the next HOP target; with no HOP the
base profile, unless the core runs it already. -/
def relockFailed (s : State) (l : Loop) : State :=
  let o := otherLoop l
  match nextHopAfter (hops s) s.beat.slot, baseProfile s with
  | some h, _ => if inService s l then retarget s l h.2 .hop (some h.1) else s
  | none, some b =>
    if drive s ≠ .safe ∧ s.syn.profNow = b then (if inService s l then prelockOn s l s.beat.slot else s)
    else if inService s l then retarget s l b .base none
    else if activeLoop s ≠ some o ∧ inService s o = true then retarget s o b .base none
    else s
  | none, none => s

/-- The core swap on a loss of lock of the active loop (R78), and what the core loops do next (R79). A late swap or a swap to the
base profile that was pending is over. -/
def emergencySwap (s : State) (l : Loop) : State :=
  let o := otherLoop l
  let s :=
    if (loopAt s o).ld = .locked ∧ inService s o then raise (driveLoop s o) 0x0103 .major 0
    else raise (swapSafe s) 0x0104 .critical 0
  relockFailed s l

/-- Meaning of LOSS_OF_LOCK (R66, R70, R78 to R80): four violations in the window of a LOCKED loop. -/
def lossOfLock (s : State) (l : Loop) : State :=
  let x := loopAt s l
  if ¬ alive s ∨ x.ld ≠ .locked ∨ x.viol.length < 4 then s
  else
    let recent := (s.beat.num :: x.lolBeats).filter (fun b => decide (s.beat.num < b + 1000))
    let s := onLoop s l (fun x => { x with ld := .acquire, viol := [], lol := satAdd 8 x.lol 1, lolBeats := recent.take 3 })
    match l with
    | .b => raise { s with syn.holdover := true, syn.holdBeats := 0 } 0x0105 .critical 0
    | _ =>
      let s := if 3 ≤ recent.length ∧ x.out = false then loopOut s l else s
      if activeLoop s = some l then emergencySwap s l else s

/-- LOSS_OF_LOCK (R66). -/
def execLossOfLock (l : Loop) (s : State) : Host.Outcome State Fault Refusal := .next (lossOfLock s l)

/-- PHASE_WINDOW_VIOLATION (R66): in LOCKED a violation enters the 256-cycle window and counts in SYN_VIOL; in ACQUIRE it
clears the counter, whose 1,024th cycle is LOCK_ACQUIRED. -/
def phaseWindowViolation (s : State) (l : Loop) (cycle : Nat) : State :=
  if alive s = true ∧ (loopAt s l).ld = .locked then
    let s := onLoop s l (fun x => { x with viol := cycle :: x.viol.filter (fun c => decide (cycle < c + 256)) })
    { s with syn.violCnt := satAdd 32 s.syn.violCnt 1 }
  else s

/-- PHASE_WINDOW_VIOLATION. -/
def execPhaseWindowViolation (l : Loop) (cycle : Nat) (s : State) : Host.Outcome State Fault Refusal :=
  .next (phaseWindowViolation s l cycle)

/-- PRELOCK_TIMEOUT (R67): T_pl expires before LOCKED on a core loop. -/
def prelockTimeout (s : State) (l : Loop) : State :=
  if alive s = true ∧ l ≠ .b ∧ (loopAt s l).ld = .acquire ∧ (loopAt s l).pre = true ∧ activeLoop s ≠ some l then prelockFailed s l
  else s

/-- PRELOCK_TIMEOUT. -/
def execPrelockTimeout (l : Loop) (s : State) : Host.Outcome State Fault Refusal := .next (prelockTimeout s l)

/-- The band retarget that a flag leaves for the next pre-lock of a profile on the loop (R63, R64). -/
def noteRetarget (s : State) (l : Loop) (prof : Nat) (high : Bool) : State :=
  onLoop s l (fun x => { x with retarget := x.retarget.putAt prof (if high then 1 else -1) 0 })

/-- A compliance flag on an idle core loop (R63, Table 3.8): event 0x0107. During a pre-lock it decides the band step of R76, the
lower flag first; otherwise the band moves at the next pre-lock of what the loop holds. -/
def idleFlag (s : State) (l : Loop) (high : Bool) : State :=
  let x := loopAt s l
  let s :=
    if x.ld = .acquire ∧ x.pre = true then
      onLoop s l (fun x => { x with preFlag := if x.preFlag = some false then some false else some high })
    else match x.target with
      | some prof => noteRetarget s l prof high
      | none => s
  raise s 0x0107 .major 0

/-- VT_COMPLIANCE_CROSSING (R61, R63 to R65): the live comparator changes; outward, the sticky bit sets and the response
follows. A crossing of a threshold that is already crossed is the way back. -/
def vtCrossing (s : State) (l : Loop) (high : Bool) : State :=
  let x := loopAt s l
  if ¬ alive s ∨ x.ld = .off then s
  else if high ∧ x.highLive = true then onLoop s l (fun x => { x with highLive := false })
  else if ¬ high ∧ x.lowLive = true then onLoop s l (fun x => { x with lowLive := false })
  else
    let s := onLoop s l (fun x => if high then { x with highLive := true, high := true }
                                  else { x with lowLive := true, low := true })
    match l with
    | .b => raise s 0x0101 .major 0
    | _ => if activeLoop s = some l then raise (noteRetarget s l s.syn.profNow high) 0x0101 .major 0 else idleFlag s l high

/-- VT_COMPLIANCE_CROSSING. -/
def execVtComplianceCrossing (l : Loop) (high : Bool) (s : State) : Host.Outcome State Fault Refusal :=
  .next (vtCrossing s l high)

/-- A core loop reaches LOCKED (R66) at the tuning voltage vt in mV, which its profile shows (Table 3.18): a fallback waits for the
first guard after (R76), a base profile for the next edge (R74, R79). -/
def coreLocked (s : State) (l : Loop) (vt : Nat) : State :=
  let x := loopAt s l
  let s := onLoop s l (fun x => { x with ld := .locked, viol := [], stepped := none, pre := false, preFlag := none })
  let s := match x.target with
    | some i => if (profWant s l i).valid then onProf s l i (fun p => { p with vtCal := vt % 1024 }) else s
    | none => s
  match x.purpose with
  | .fallbackHop => { s with syn.lateSwap := x.target }
  | .baseFallback => { s with syn.lateSwap := x.target }
  | .base => { s with syn.baseSwapDue := true }
  | _ => s

end Sys2Proof.Machine
end

