-- ==== Sys2Proof/Machine/Phase.lean ====
section
/-! DEFINITION. Holding the Hive to one beat (chapter 4): the window and its fit (R91, R92), steering (R93), election (R96 to
R98), the phase states (R99), joining (R100 to R103) and the reference switch (R104). Phases are counted in half steps of the
interpolator: a step is 1/256 of a VCO period, 78,125 / 256,000 ps. -/

namespace Sys2Proof.Machine

open Sys2Proof

/-- The beat period in ps: 160 × L ns (R11). -/
def beatPs (s : State) : Nat := 160000 * s.beat.slotTicks

/-- Half steps as picoseconds, rounded (log 23). -/
def halfToPs (num : Int) (den : Nat) : Int := roundIntDiv (num * 78125) (den * 512000)

/-- The sums of a least-squares fit over the samples, re-referenced to now (R91): count, Σx, Σy, Σxx, Σxy, with x the edges
back from now and y the offset in half steps. -/
def fitSums (now : Nat) (phase : Int) (l : List Sample) : Nat × Int × Int × Int × Int :=
  l.foldl (fun (n, sx, sy, sxx, sxy) a =>
    let x : Int := (a.edge : Int) - now
    let y : Int := a.theta + 2 * (phase - a.phase)
    (n + 1, sx + x, sy + y, sxx + x * x, sxy + x * y)) (0, 0, 0, 0, 0)

/-- θ and ρ of the fit as fractions with one denominator: half steps, and half steps per beat. -/
def fitLine (now : Nat) (phase : Int) (l : List Sample) : Int × Int × Nat :=
  let (n, sx, sy, sxx, sxy) := fitSums now phase l
  let den := (n : Int) * sxx - sx * sx
  if n = 0 then (0, 0, 1)
  else if den ≤ 0 then (sy, 0, n)
  else (sxx * sy - sx * sxy, (n : Int) * sxy - sx * sy, den.toNat)

/-- S_max of R93: 20 ppm of the beat period in steps, rounded. -/
def steerMax (L : Nat) : Nat := rneDiv (L * 2 ^ 20) 100000

/-- The step count of R93 before the clamp: −ρ × T_beat − θ / 16 in whole steps, an exact half to even (DESIGN CHOICE, log 23). -/
def steerWanted (theta rho : Int) (den : Nat) : Int := roundIntDiv (-(rho * 16) - theta) (den * 32)

/-- The median of one edge's samples, doubled (R92). DESIGN CHOICE (log 124): of an even number it is the mean of the two middle
ones. -/
def medianTwice (l : List Int) : Int :=
  let m := l.mergeSort (fun a b => decide (a ≤ b))
  let n := m.length
  if n % 2 = 1 then 2 * m.getD (n / 2) 0 else m.getD (n / 2 - 1) 0 + m.getD (n / 2) 0

/-- A sample differs by more than 500 ps from the median of its edge (R92). -/
def offMedian (med2 y : Int) : Bool := decide (512000000 < (2 * y - med2).natAbs * 78125)

/-- A sample is off the median of the samples of its edge, where there are several (R92). -/
def offEdge (l : List Sample) (a : Sample) : Bool :=
  let same := l.filter (fun b => b.edge == a.edge)
  decide (2 ≤ same.length) && offMedian (medianTwice (same.map (fun b => b.theta))) a.theta

/-- The samples of every edge whose markers have had a beat to arrive enter the window; with more than one parent port those off
the median of their edge are excluded (R92). -/
def takeSamples (s : State) : State :=
  let ripe (a : Sample) : Bool := decide (a.edge + 2 ≤ s.beat.edges)
  let fresh := s.beat.fresh.filter (fun a => ripe a && parentPort s a.port)
  let bad := fresh.filter (offEdge fresh)
  let good := fresh.filter (fun a => !bad.contains a)
  let w := s.beat.window ++ good
  let portx := Vector.ofFn (fun i : Fin 20 => bad.any (fun a => a.port == i.val))
  let run := Vector.ofFn (fun i : Fin 20 => if vget portx i.val false then vget s.beat.portxRun i.val 0 + 1 else 0)
  { s with beat.fresh := s.beat.fresh.filter (fun a => !ripe a), beat.window := w.drop (w.length - 4096), beat.portx := portx, beat.portxRun := run,
           beat.excluded := satAdd 16 s.beat.excluded bad.length, beat.gathered := s.beat.gathered + good.length }

/-- The window is cleared (Table 4.2, R100, R105). -/
def clearWindow (s : State) : State := { s with beat.window := [], beat.fresh := [], beat.gathered := 0 }

/-- No port was excluded at the last edge, for the member judges no samples (R92). -/
def noPortx (s : State) : State :=
  { s with beat.portx := Vector.replicate 20 false, beat.portxRun := Vector.replicate 20 0 }

/-- The fit of the edge (R91): BEAT_OFFSET_PS and BEAT_RATE_PPB. -/
def estimate (s : State) : State :=
  let (t, r, d) := fitLine s.beat.edges s.beat.phaseAt s.beat.window
  { s with beat.offsetPs := halfToPs t d,
           beat.ratePpb := roundIntDiv (r * 78125 * 1000000000) (d * 512000 * beatPs s) }

/-- The steering of the coming beat (R93), in TRACK only, and never while LNK is down (R105). -/
def steerEdge (s : State) : State :=
  if s.beat.pstate = .track ∧ s.pwr.lnk = true then
    let (t, r, d) := fitLine s.beat.edges s.beat.phaseAt s.beat.window
    let want := steerWanted t r d
    let m : Int := steerMax s.beat.slotTicks
    let steps := max (-m) (min m want)
    { s with beat.steer := steps, beat.steerLim := if steps = want then s.beat.steerLim else satAdd 32 s.beat.steerLim 1 }
  else { s with beat.steer := 0 }

/-- The interpolator applies its share of the steps at a point of the beat, of 128: they are spread evenly (R69, R93). SYN_B_SLIP counts
the net whole VCO periods, 256 steps each (Table 3.15). -/
def applySteer (s : State) (k : Nat) : State :=
  let upTo (k : Nat) : Int := s.beat.steer * k / 128
  let p := s.syn.phase + (upTo (k + 1) - upTo k)
  { s with syn.phase := p, syn.slip := Int.tdiv p 256 }

/-- The neighbours heard in the last 4 edges with HOPS below 31 on trained ports that are not express ports (R96, R102). -/
def heard (s : State) : List MarkerSt :=
  (List.range 20).filterMap (fun p =>
    let m := vget s.beat.markers p .init
    if (portAt s p).st = .up ∧ (portAt s p).express = false ∧ m.valid = true ∧ s.beat.edges < m.edgeSeen + 4 ∧ m.hops < 31
    then some m else none)

/-- The neighbour to follow (R96): the lowest master, then the fewest hops, then the lower sender. -/
def bestNeighbour (l : List MarkerSt) : Option MarkerSt :=
  l.foldl (fun b m =>
    match b with
    | none => some m
    | some x =>
      if m.master < x.master ∨ (m.master = x.master ∧ (m.hops < x.hops ∨ (m.hops = x.hops ∧ m.sender < x.sender)))
      then some m else b) none

/-- Follow a neighbour: its master, and HOPS one more than its own, capped at 31 (R96); changes count (R98). A member without a
master, as in SEEK, changes its master with the first that it follows (log 24). -/
def follow (s : State) (m : MarkerSt) : State :=
  let newMaster := s.beat.masterRank ≠ m.master ∨ s.beat.pstate = .seek
  let newParent := s.beat.parent ≠ some m.sender
  let s := { s with beat.masterRank := m.master, beat.parent := some m.sender, beat.hops := min 31 (m.hops + 1),
                    beat.parentChg := if newParent then satAdd 16 s.beat.parentChg 1 else s.beat.parentChg }
  if newMaster then raise { s with beat.elections := satAdd 16 s.beat.elections 1 } 0x0207 .minor 0 else s

/-- The freshest markers of the parent. -/
def parentMarkers (s : State) : List MarkerSt :=
  (List.range 20).filterMap (fun p =>
    let m := vget s.beat.markers p .init
    if (portAt s p).st = .up ∧ m.valid = true ∧ some m.sender = s.beat.parent ∧ s.beat.edges < m.edgeSeen + 4 then some m
    else none)

/-- The parent is lost (R102): no marker for 4 edges, another master than the one followed, or HOPS at or above the member's
own. -/
def parentLostNow (s : State) : Bool :=
  let l := parentMarkers s
  l.isEmpty || l.any (fun m => m.master != s.beat.masterRank || decide (s.beat.hops ≤ m.hops) || m.hops == 31)

/-- A member in TRACK takes the master and the parent of R96 at this edge: its parent still reaches a master, the one followed
nearer than the member does, or a lower one. Otherwise its parent is lost, and R102 takes it to HOLD (log 24). -/
def mayFollow (s : State) : Bool :=
  let l := parentMarkers s
  !l.isEmpty && l.all (fun m => decide (m.hops < 31) &&
    (decide (m.master < s.beat.masterRank) || (m.master == s.beat.masterRank && decide (m.hops < s.beat.hops))))

/-- No plan instance runs on this device. -/
def noInstance (s : State) : Bool := s.cmb.ctx.toList.all (fun c => c.insts.isEmpty)

/-- The phase state's own transitions at an edge (Table 4.2, R96, R99), other than those that rows of the table name. -/
def phaseState (s : State) : State :=
  match s.beat.pstate with
  | .seek =>
    match bestNeighbour (heard s) with
    | some m => { follow s m with beat.pstate := .acquire, beat.waitEdges := 0 }
    | none => { s with beat.waitEdges := s.beat.waitEdges + 1 }
  | .acquire =>
    if 64 ≤ s.beat.gathered ∧ noInstance s = false then { s with beat.pstate := .track } else s
  | .track =>
    let s := if mayFollow s then (bestNeighbour (heard s)).elim s (follow s) else s
    if s.beat.inPhase = false ∧ 256 ≤ s.beat.window.length ∧ s.beat.offsetPs.natAbs ≤ 1000 then
      raise { s with beat.inPhase := true } 0x0204 .minor 0
    else if s.beat.inPhase = true ∧ 1500 < s.beat.offsetPs.natAbs then
      raise { s with beat.inPhase := false } 0x0205 .major 0
    else s
  | .hold =>
    match (bestNeighbour (heard s)).filter (fun m => m.master != s.beat.masterRank || decide (m.hops < s.beat.prevHops)) with
    | some m => clearWindow { follow s m with beat.pstate := .acquire, beat.waitEdges := 0 }
    | none => { s with beat.waitEdges := s.beat.waitEdges + 1 }
  | .master =>
    match bestNeighbour ((heard s).filter (fun m => m.eligible && decide (m.master < s.beat.ownRank))) with
    | some m => { follow s m with beat.pstate := .acquire }
    | none => s
  | .solo => s

/-- The rate count of R94, and the holdover count of Table 4.2. -/
def phaseCounts (s : State) : State :=
  { s with beat.rateRun := if 15000 < s.beat.ratePpb.natAbs then s.beat.rateRun + 1 else 0,
           syn.holdBeats := if s.syn.holdover then s.syn.holdBeats + 1 else 0,
           beat.steppedDown := s.beat.steppedDown && s.syn.holdover }

/-- The work of the beat generator's phase logic at an edge whose number stands in HI_BEATNUM. -/
def phaseEdge (s : State) : State :=
  if s.beat.pstate = .solo then noPortx { s with beat.steer := 0, beat.fresh := [] }
  else steerEdge (phaseState (phaseCounts (estimate (takeSamples s))))

/-- PLL-B switches to, or relocks to, an input (R104, R108): event 0x020C names it in DETAIL. DESIGN CHOICE (log 125): by the code
that SYN_STAT.REF_SEL has for it. -/
def refSwitch (s : State) (r : RefIn) (beat : Nat) : State :=
  raiseAt { s with syn.refSel := r, syn.b := { s.syn.b with ld := .acquire, viol := [] } } beat 0x020C .major
    (if r = .hive then 0 else 1)

/-- The other input. -/
def otherRef : RefIn → RefIn
  | .hive => .localRef
  | .localRef => .hive

/-- An input is valid (R52). -/
def refValid (s : State) : RefIn → Bool
  | .hive => s.syn.hrefIn
  | .localRef => s.syn.lrefIn

/-- R104: at every edge in holdover Keeper judges both inputs, and switches to the other one if it is valid, or relocks to the
one in use if only that is valid. -/
def holdoverEdge (s : State) (hiveOk localOk : Bool) : State :=
  let s := seeRefs s hiveOk localOk
  if s.syn.holdover = true then
    let s := checkRefs s
    if refValid s (otherRef s.syn.refSel) then refSwitch s (otherRef s.syn.refSel) s.beat.num
    else if refValid s s.syn.refSel then refSwitch s s.syn.refSel s.beat.num
    else s
  else s

/-- The instances of every plan are invalidated (R103, R47). -/
def invalidateAll (s : State) (cause : Nat) : State :=
  { s with cmb.ctx := s.cmb.ctx.map (fun c =>
      { c with insts := c.insts.map (fun i =>
          { i with stopped := true,
                   faults := { i.faults with invalid := true, cause := if i.faults.cause = 0 then cause else i.faults.cause } }) }) }

/-- The arrival of a marker now (R88): eighths is its offset from the local edge with its beat number, in timestamps of 9.77 ps, an
eighth of a VCO period or 32 steps; one that arrives before that edge has a negative offset. -/
def arrival (s : State) (eighths : Int) : Arrival :=
  if eighths < 0 then
    { edge := s.beat.edges + 1, num := edgeNum s, delta := 32 * eighths, phase := s.beat.phaseAt }
  else { edge := s.beat.edges, num := s.beat.num, delta := 32 * eighths, phase := s.beat.phaseBefore }

/-- Δ that a port measured at an edge (R88). -/
def measured (m : MarkerSt) (edge : Nat) : Option Int := (m.meas.find? (fun x => x.1 == edge)).map (fun x => x.2)

/-- What a marker advertises (Table 4.1), heard at an edge. -/
def MarkerSt.advert (m : MarkerSt) (pay : List Byte) (edge : Nat) : MarkerSt :=
  let fl := leAt pay 12 1
  { m with sender := leAt pay 8 2 % 1024, master := leAt pay 10 2 % 1024, hops := fl % 32,
           eligible := decide (fl / 32 % 2 = 1), holdover := decide (fl / 64 % 2 = 1), inPhase := decide (fl / 128 % 2 = 1),
           edgeSeen := edge, valid := true }

/-- The sample of R89 that a marker completes: it carries the neighbour's Δ of the edge before, and this port measured its own Δ
of that edge, which no coarse jump has moved since. -/
def sampleOf (s : State) (p : Nat) (old : MarkerSt) (pay : List Byte) (a : Arrival) : Option Sample :=
  match measured old (a.edge - 1) with
  | some d =>
    if 1 ≤ a.edge ∧ s.beat.jumpedAt ≤ a.edge - 1 ∧ s.beat.jumpSkip = none then
      some { edge := a.edge - 1, theta := twosInt 32 (leAt pay 16 4) - d, phase := a.phase, port := p }
    else none
  | none => none

/-- t_link of R89 in the units of Table 4.7, 10 ps, from the two Δ of an edge. -/
def linkDelay (dPeer dLocal : Int) : Nat := min 0xFFFF (roundIntDiv ((dPeer + dLocal) * 78125) 5120000).toNat

/-- A marker's BEATNUM names, for the edge that comes next here, another number than the member's own (R103); one of a beat whose
edge a jump or an adoption is about to renumber is not judged. -/
def numberDiffers (s : State) (num : Nat) (a : Arrival) : Bool :=
  s.beat.adopt.isNone && num + (s.beat.edges + 1 - a.edge) != s.beat.num + 1

/-- BEAT_MARKER_RECEIVE on the beat generator's side (R88, R89, R103), once the link layer has accepted the flit: the payload
of Table 4.1, and the arrival. -/
def markerTake (s : State) (p : Nat) (pay : List Byte) (a : Arrival) : State :=
  let old := vget s.beat.markers p .init
  let num := leAt pay 0 8
  let m := old.advert pay a.edge
  let m := { m with
    beat := num, beatEdge := a.edge
    meas := (a.edge, a.delta) :: (old.meas.filter (fun x => x.1 != a.edge)).take 1
    dlyValid := old.dlyValid || (measured old (a.edge - 1)).isSome
    dly := (measured old (a.edge - 1)).elim old.dly (linkDelay (twosInt 32 (leAt pay 16 4))) }
  let s := { s with beat.markers := vput s.beat.markers p m, beat.fresh := s.beat.fresh ++ (sampleOf s p old pay a).toList }
  if s.beat.pstate = .track ∧ some m.sender = s.beat.parent ∧ numberDiffers s num a = true then
    raise (invalidateAll { s with beat.adopt := some (num + (s.beat.edges + 1 - a.edge)) } 0x0209) 0x0209 .critical 0
  else s

/-- The edge of a coarse jump (R100): the window clears again, for samples of the lengthened beat describe the old edge too, and the
count of edges keeps with the parent's. -/
def jumpEdge (s : State) : State :=
  match s.beat.jumpSkip with
  | none => s
  | some z =>
    clearWindow { s with beat.edges := s.beat.edges + z, beat.jumpedAt := s.beat.edges + z, beat.jumpSkip := none }

/-- PORT_EXCLUSION_LIMIT (R92). -/
def execPortExclusionLimit (p : PortId) (s : State) : Host.Outcome State Fault Refusal :=
  .next (if alive s = true ∧ vget s.beat.portxRun p.val 0 = 64 then raise s 0x020B .minor 0 else s)

/-- SEEK_TIMEOUT (R97): 64 edges in SEEK without a master; a member that is eligible apart from IN_PHASE becomes master. -/
def execSeekTimeout (s : State) : Host.Outcome State Fault Refusal :=
  .next (
    if alive s = true ∧ s.beat.pstate = .seek ∧ 64 ≤ s.beat.waitEdges ∧ s.beat.masterEn = true ∧ s.syn.b.ld = .locked ∧
        s.syn.holdover = false then
      raise { s with beat.pstate := .master, beat.masterRank := s.beat.ownRank, beat.hops := 0, beat.parent := none,
                     beat.waitEdges := 0, beat.elections := satAdd 16 s.beat.elections 1 } 0x0207 .minor 0
    else s)

/-- −θ in ticks of 1.25 ns, rounded (R100; ties to even, log 23). -/
def aheadTicks (s : State) : Int :=
  let (t, _, d) := fitLine s.beat.edges s.beat.phaseAt s.beat.window
  roundIntDiv (-t * 78125) (d * 640000000)

/-- J of R100: the lag that lengthening slot 127 makes up, from 0 to one beat period (log 26). -/
def jumpTicks (s : State) : Nat := (aheadTicks s % (128 * s.beat.slotTicks : Nat)).toNat

/-- The parent's edges that the lengthening passes: a member that is late meets a later edge of its parent's (R100). -/
def jumpEdges (s : State) : Nat := (-(aheadTicks s / (128 * s.beat.slotTicks : Nat))).toNat

/-- COARSE_JUMP (R100): slot 127 of the current beat is lengthened; at that edge the number that the parent's markers name for it is
adopted, and the window clears. -/
def execCoarseJump (s : State) : Host.Outcome State Fault Refusal :=
  .next (
    if alive s = true ∧ s.beat.pstate = .acquire ∧ 64 ≤ s.beat.gathered ∧ noInstance s = true then
      match parentMarkers s with
      | [] => s
      | m :: _ =>
        let j := jumpTicks s
        let z := jumpEdges s
        raise (clearWindow { s with beat.pstate := .track, beat.inPhase := false, beat.jumpDue := j, beat.lastJ := j,
                                    beat.jumps := satAdd 32 s.beat.jumps 1, beat.jumpSkip := some z,
                                    beat.adopt := some (m.beat + (s.beat.edges + 1 - m.beatEdge) + z) }) 0x0208 .minor 0
    else s)

/-- PARENT_LOST (R102, Table 4.2): the interpolator holds, and HOPS 31 is advertised. -/
def execParentLost (s : State) : Host.Outcome State Fault Refusal :=
  .next (
    if alive s = true ∧ s.beat.pstate = .track ∧ parentLostNow s = true then
      raise { s with beat.pstate := .hold, beat.prevHops := s.beat.hops, beat.hops := 31, beat.parent := none,
                     beat.steer := 0, beat.waitEdges := 0 } 0x0206 .major 0
    else s)

/-- HOLD_TIMEOUT (Table 4.2): 64 edges in HOLD without a suitable neighbour. -/
def execHoldTimeout (s : State) : Host.Outcome State Fault Refusal :=
  .next (
    if alive s = true ∧ s.beat.pstate = .hold ∧ 64 ≤ s.beat.waitEdges then
      { s with beat.pstate := .seek, beat.waitEdges := 0 }
    else s)

/-- A master gives up its role and seeks another (Table 4.2, R108). -/
def masterLeaves (s : State) : State := { s with beat.pstate := .seek, beat.hops := 31, beat.waitEdges := 0 }

/-- BEAT_MASTER_EN applies (R108): a master that is no longer eligible leaves its role, and election follows (log 126). -/
def masterEnable (s : State) (on : Bool) : State :=
  let s := { s with beat.masterEn := on }
  if on = false ∧ s.beat.pstate = .master then masterLeaves s else s

/-- MASTER_HOLDOVER_TIMEOUT (Table 4.2, Table 4.4): a master in holdover for 1,024 beats steps down. -/
def execMasterHoldoverTimeout (s : State) : Host.Outcome State Fault Refusal :=
  .next (
    if alive s = true ∧ s.beat.pstate = .master ∧ s.syn.holdover = true ∧ 1024 ≤ s.syn.holdBeats then
      raise { masterLeaves s with beat.steppedDown := true } 0x0207 .minor 0
    else s)

/-- RATE_LIMIT_EXCEEDED (R94): |ρ| above 15 ppm for 64 edges. -/
def execRateLimitExceeded (s : State) : Host.Outcome State Fault Refusal :=
  .next (
    if alive s = true ∧ 64 ≤ s.beat.rateRun then
      raise { s with beat.inPhase := false, beat.rateRun := 0 } 0x020A .major 0
    else s)

end Sys2Proof.Machine
end

