-- ==== Sys2Proof/Machine/Comb.lean ====
section
/-! DEFINITION. The Comb (chapter 5): bank maps and zero-fill (R121, R122), poisoned, rebuilt and retired pages (R128 to R132),
replacement phases (R123, R124) and the installed slot table (R21, R23). -/

namespace Sys2Proof.Machine

open Sys2Proof

/-- The slice, bank and page in the bank of a physical page (Table 5.1). -/
def pageSlice (p : Nat) : Nat := p / 98304
/-- The bank of a physical page, within its slice. -/
def pageBank (p : Nat) : Nat := p / 1536 % 64
/-- The first page of a bank. -/
def bankPage (q b : Nat) : Nat := q * 98304 + b * 1536

/-- The physical address of a plan address of a context (R122). -/
def planPhys (c : PlanCtx) (a : Nat) : Option Nat :=
  let q := a / 0x18000000
  let b := a % 0x18000000 / 0x600000
  (c.bankMap.find (64 * q + b)).map (fun pb => combAddr q pb (a % 0x600000))

/-- The physical bank is free of retired pages that a plan bank uses (R117, R131). -/
def bankFits (s : State) (q pb : Nat) (used : List Nat) : Bool :=
  used.all (fun n => !pageRetired s (bankPage q pb + n))

/-- Chunk k of the retired-page list as the record of Table 16.4 holds it. -/
def retiredChunk (l : List Nat) (k : Nat) : List Byte :=
  let c := (l.drop (55 * k)).take 55
  leBytes 2 k ++ leBytes 2 c.length ++ c.flatMap (leBytes 4)

/-- A page is retired (R131): in Heartwood's list of at most 4,096, or for the run only with event 0x0308. -/
def retirePage (s : State) (p : Nat) : State :=
  if pageRetired s p then s
  else if s.cmb.retired.length < 4096 ∧ hwOffline s = false then
    let l := s.cmb.retired ++ [p]
    hwState { s with cmb.retired := l } 3 (retiredChunk l ((l.length - 1) / 55))
  else
    let s := { s with cmb.retiredRun := s.cmb.retiredRun ++ [p] }
    if s.cmb.retired.length < 4096 then s else raise s 0x0308 .critical 0

/-- The stripe of a plan page (R126). -/
def stripeOf (c : PlanCtx) (planPage : Nat) : Option Nat :=
  (c.stripes.find? (fun e => e.2.1 == planPage)).map (fun e => e.1)

/-- The plan page that a physical page holds for a map entry 64 q + b. -/
def planPageOf (key p : Nat) : Nat := bankPage (key / 64) (key % 64) + p % 1536

/-- A page of a mapped bank goes on the rebuild list, where its plan has parity and a stripe names it (R126, R128). -/
def listRebuild (s : State) (p c key : Nat) : State :=
  match (ctxAt s c).parity, stripeOf (ctxAt s c) (planPageOf key p) with
  | true, some st =>
    { s with cmb.rebuilds := s.cmb.rebuilds.filter (fun r => r.page != p) ++
        [{ page := p, ctx := c, stripe := st, waited := 0, data := [], got := [], failedOnce := false, told := false, copyTo := none }] }
  | _, _ => s

/-- A page marks a use of a plan bank that stands, or is to stand, in its bank (R117, R131). -/
def usesPage (used : List Nat) (q pb p : Nat) : Bool := pageSlice p == q && pageBank p == pb && used.contains (p % 1536)

/-- A context's shadow banks in which a retired page is used are given up, and await zero-fill: the phase is no longer ready, and it
fetches their pages again into others (R124, R131). -/
def dropShadow (s : State) (p c : Nat) : State :=
  match (ctxAt s c).phases with
  | [] => s
  | ph :: rest =>
    let lost := ph.shadow.filter (fun x => usesPage (((ctxAt s c).replUse.find (64 * x.1 + x.2.1)).getD []) x.1 x.2.2 p)
    if lost.isEmpty then s
    else
      let s := onCtx s c (fun x =>
        { x with phases := { ph with shadow := ph.shadow.filter (fun x => !lost.contains x), ready := false } :: rest })
      { s with
        cmb.dirty := s.cmb.dirty ++ lost.map (fun x => 64 * x.1 + x.2.2)
        cmb.fetch := if s.cmb.fetch.isNone then some c else s.cmb.fetch
        cmb.fetchRepl := if s.cmb.fetch.isNone then true else s.cmb.fetchRepl
        cmb.fetchDone := if s.cmb.fetch.isNone then 0 else s.cmb.fetchDone
        cmb.fill := if s.cmb.fetch.isNone then [] else s.cmb.fill }

/-- A bank copy does not take effect in a bank in which a retired page is used: its target awaits zero-fill, and the failing page is
rebuilt and copied again (R130, R131). -/
def dropCopy (s : State) (p : Nat) : State :=
  let hit (c key pb : Nat) : Bool := usesPage (((ctxAt s c).bankUse.find key).getD []) (key / 64) pb p
  let lost := s.cmb.mapDue.filter (fun e => hit e.1 e.2.1 e.2.2.1)
  let s := { s with
    cmb.mapDue := s.cmb.mapDue.filter (fun e => !lost.contains e)
    cmb.dirty := s.cmb.dirty ++ (lost.map (fun e => 64 * (e.2.1 / 64) + e.2.2.1)).eraseDups
    cmb.rebuilds := s.cmb.rebuilds.map (fun r =>
      if r.copyTo = some (64 * pageSlice p + pageBank p) then { r with copyTo := none } else r) }
  lost.foldl (fun s e => listRebuild s e.2.2.2 e.1 e.2.1) s

/-- PAGE_POISON (R128): the page is recorded and reported; a free page is retired, a page of a plan with parity is put on the
rebuild list, and any other stays poisoned. A page that was about to lose its poison keeps it (R130). -/
def poisonPage (s : State) (p : Nat) : State :=
  let s := { s with cmb.ue := satAdd 32 s.cmb.ue 1, cmb.lastErrValid := true, cmb.lastErrPage := p }
  if pagePoisoned s p && !s.cmb.clearing.contains p then s
  else
    let s := raise { s with cmb.poison := s.cmb.poison.putAt p true false
                            cmb.clearing := s.cmb.clearing.filter (fun x => x != p) } 0x0305 .major 0
    match bankOwner s (pageSlice p) (pageBank p) with
    | none => dropCopy (forUpto 4 (fun s c => dropShadow s p c) (retirePage s p)) p
    | some (c, key) => listRebuild s p c key

/-- R129: the first planned read of a poisoned page in a beat raises event 0x0304. -/
def poisonRead (s : State) (p : Nat) : State :=
  if s.cmb.readThisBeat.contains p then s
  else raise { s with cmb.readThisBeat := p :: s.cmb.readThisBeat } 0x0304 .major 0

/-- A bank leaves a map (R121, R132): its rebuilds are dropped, its poisoned pages retired, and it awaits zero-fill; so does the
target of a copy of it that has begun. -/
def releaseBank (s : State) (q pb : Nat) : State :=
  let inBank (p : Nat) : Bool := pageSlice p == q && pageBank p == pb
  let bad := (s.cmb.poison.map (fun e => e.1)).filter inBank
  let begun := (s.cmb.rebuilds.filter (fun r => inBank r.page)).filterMap (fun r => r.copyTo) ++
    (s.cmb.mapDue.filter (fun e => inBank e.2.2.2)).map (fun e => 64 * q + e.2.2.1)
  let s := { s with cmb.rebuilds := s.cmb.rebuilds.filter (fun r => !inBank r.page),
                    cmb.mapDue := s.cmb.mapDue.filter (fun e => !inBank e.2.2.2),
                    cmb.dirty := s.cmb.dirty ++ ((64 * q + pb) :: begun.eraseDups) }
  bad.foldl retirePage s

/-- Zero the unretired pages of a bank that the test keeps (R119, R121, R131). -/
def zeroPages (s : State) (q pb : Nat) (keep : Nat → Bool) : State :=
  { s with cmb.mem := s.cmb.mem.filter (fun e =>
      !(e.1 / 0x600000 == q * 64 + pb) || keep (e.1 / 0x1000 % 1536) || pageRetired s (e.1 / 0x1000)) }

/-- Place one more plan bank among free banks, moving those already placed where that makes room: whether it succeeds, the banks tried,
and the placement as pairs of plan bank and physical bank. The first number bounds the length of the chain of moves. -/
def placeOne (fits : Nat → Nat → Bool) (free : List Nat) : Nat → Nat → List Nat × List (Nat × Nat) → Bool × List Nat × List (Nat × Nat)
  | 0, _, st => (false, st)
  | n + 1, b, (seen, m) =>
    let put (m : List (Nat × Nat)) (pb : Nat) : List (Nat × Nat) := m.filter (fun e => e.1 != b) ++ [(b, pb)]
    match free.find? (fun pb => fits b pb && m.all (fun e => e.2 != pb)) with
    | some pb => (true, seen, put m pb)
    | none =>
      free.foldl (fun a pb =>
        match a.1 || !fits b pb || a.2.1.contains pb, a.2.2.find? (fun e => e.2 == pb) with
        | false, some e =>
          let r := placeOne fits free n e.1 (pb :: a.2.1, a.2.2)
          if r.1 then (true, r.2.1, put r.2.2 pb) else (false, r.2.1, a.2.2)
        | _, _ => a) (false, seen, m)

/-- Free banks of a slice for plan banks with their page maps (R117, R131): as many plan banks as can be placed, each on a bank in which
no page that it uses is retired, the lowest free bank first. -/
def fitBanks (s : State) (use : SMap (List Nat)) (q : Nat) (want : List Nat) : List (Nat × Nat) :=
  (want.foldl (fun m k => (placeOne (fun k pb => bankFits s q pb ((use.find k).getD [])) (freeBanks s q) 65 k ([], m)).2.2) []).mergeSort
    (fun a b => decide (a.1 ≤ b.1))

/-- Reserve shadow banks of the first pending phase as they become free (R124). -/
def reserveShadow (s : State) (c : Nat) : State :=
  match (ctxAt s c).phases with
  | [] => s
  | ph :: rest =>
    let want (q : Nat) : List Nat :=
      (ph.banks.filter (fun b => b.1 == q && ph.shadow.all (fun x => x.1 != q || x.2.1 != b.2))).map (fun b => 64 * q + b.2)
    let got := (List.range 4).flatMap (fun q =>
      (fitBanks s (ctxAt s c).replUse q (want q)).map (fun e => (q, e.1 % 64, e.2)))
    onCtx s c (fun x => { x with phases := { ph with shadow := ph.shadow ++ got } :: rest })

/-- A context whose replacement phase waits for banks (R124). -/
def phaseWaits (c : PlanCtx) : Bool :=
  match c.phases with
  | [] => false
  | p :: _ => decide (p.shadow.length < p.banks.length)

/-- A fetch is in progress (R120, R134): of an image, or of a replacement phase that is not ready yet. -/
def fetchBusy (s : State) : Bool :=
  s.cmb.fetch.isSome || s.cmb.ctx.toList.any (fun c => match c.phases with
    | [] => false
    | p :: _ => !p.ready)

/-- Every phase that waits reserves what has become free. -/
def reserveAll (s : State) : State := forUpto 4 (fun s c => if phaseWaits (ctxAt s c) then reserveShadow s c else s) s

/-- ZERO_FILL_COMPLETE (R121): a freed bank reads zero and counts as free; a phase that waits for it reserves it (R124). -/
def execZeroFillComplete (q : Quad) (bank : Nat) (s : State) : Host.Outcome State Fault Refusal :=
  .next (
    if alive s = true ∧ bank < 64 ∧ s.cmb.dirty.contains (64 * q.val + bank) = true ∧ vget s.pwr.cb q.val false = true ∧
        vget s.pwr.cbRet q.val false = false then
      let s := zeroPages s q.val bank (fun _ => false)
      reserveAll { s with cmb.dirty := s.cmb.dirty.filter (fun k => k != 64 * q.val + bank),
                          cmb.fill := s.cmb.fill.filter (fun e => !(pageSlice e.1 == q.val && pageBank e.1 == bank)) }
    else s)

/-- The XOR of the peers' pages that a rebuild has gathered (R126, R127). -/
def rebuiltPage (r : Rebuild) : List Byte := r.data.getRun 0 0#8 4096

/-- All seven peers' pages have come: 19 flits from each (R127, Table 12.6). -/
def rebuildReady (r : Rebuild) : Bool := decide (7 * 19 ≤ r.got.length)

/-- Change the rebuild of a page. -/
def onRebuild (s : State) (p : Nat) (f : Rebuild → Rebuild) : State :=
  { s with cmb.rebuilds := s.cmb.rebuilds.map (fun r => if r.page = p then f r else r) }
/-- Take a page off the rebuild list. -/
def dropRebuild (s : State) (p : Nat) : State :=
  { s with cmb.rebuilds := s.cmb.rebuilds.filter (fun r => r.page != p) }

/-- A free bank for the copy of a plan bank (R130). -/
def copyTarget (s : State) (r : Rebuild) : Option Nat :=
  match bankOwner s (pageSlice r.page) (pageBank r.page) with
  | none => none
  | some (c, key) =>
    (freeBanks s (pageSlice r.page)).find? (fun pb =>
      bankFits s (pageSlice r.page) pb (((ctxAt s c).bankUse.find key).getD []))

/-- The target of a copy of a page's bank that waits for its edge (R130). -/
def copyDue (s : State) (page : Nat) : Option Nat :=
  (s.cmb.mapDue.find? (fun e => pageSlice e.2.2.2 == pageSlice page && pageBank e.2.2.2 == pageBank page)).map (fun e => e.2.2.1)

/-- A rebuilt page is written in place, and into the copy of its bank that waits for its edge. -/
def writeBoth (s : State) (page : Nat) (bytes : List Byte) : State :=
  let s := combWrite s (page * 0x1000) bytes
  match copyDue s page with
  | some pb => combWrite s (combAddr (pageSlice page) pb (page % 1536 * 0x1000)) bytes
  | none => s

/-- A rebuilt page is written in place and read back (R127, R130): clean, its poison clears at the next edge; failing a second time,
its plan bank is to be copied into a free bank; with none, event 0x0307 is raised. -/
def pageRebuilt (s : State) (page : Nat) (clean : Bool) (r : Rebuild) (bytes : List Byte) : State :=
  let s := writeBoth s page bytes
  if clean then
    { dropRebuild s page with cmb.clearing := page :: s.cmb.clearing, cmb.rebuilt := satAdd 16 s.cmb.rebuilt 1 }
  else if r.failedOnce = false then onRebuild s page (fun r => { r with failedOnce := true })
  else
    match copyTarget s r with
    | some pb => onRebuild s page (fun r => { r with copyTo := some (64 * pageSlice page + pb) })
    | none => raise (dropRebuild s page) 0x0307 .critical 0

/-- PAGE_REBUILD_COMPLETE (R127, R130): the page gathered from its peers is written, and read back. -/
def execPageRebuildComplete (page : Nat) (clean : Bool) (s : State) : Host.Outcome State Fault Refusal :=
  .next (
    match s.cmb.rebuilds.find? (fun r => r.page == page) with
    | none => s
    | some r =>
      if alive s = true ∧ rebuildReady r = true ∧ r.copyTo = none then pageRebuilt s page clean r (rebuiltPage r) else s)

/-- A bank of slice q copied over another one of it, which loses what it held (R130). -/
def copyBank (s : State) (q src dst : Nat) : State :=
  let moved := (s.cmb.mem.filter (fun e => e.1 / 0x600000 == q * 64 + src)).map
    (fun e => (combAddr q dst (e.1 % 0x600000), e.2))
  { s with cmb.mem := moved.foldl (fun (m : SMap Byte) e => m.putAt e.1 e.2 0#8) (zeroPages s q dst (fun _ => false)).cmb.mem }

/-- The plan bank of a failing page, with the rebuilt page, stands in a free bank; its map entry swaps at the next edge (R130). A bank
that has been copied for another page in this beat takes the rebuilt page into that copy. -/
def bankCopied (s : State) (page c key pb : Nat) (bytes : List Byte) : State :=
  let q := pageSlice page
  let dst := (copyDue s page).getD pb
  let s := if (copyDue s page).isSome then s else copyBank s q (pageBank page) dst
  let s := combWrite s (combAddr q dst (page % 1536 * 0x1000)) bytes
  { dropRebuild s page with
    cmb.mapDue := s.cmb.mapDue ++ [(c, key, dst, page)], cmb.rebuilt := satAdd 16 s.cmb.rebuilt 1
    cmb.dirty := if dst = pb then s.cmb.dirty else s.cmb.dirty ++ [64 * q + pb] }

/-- BANK_COPY_COMPLETE (R130): the plan bank, with the rebuilt page, stands in the free bank; the failing page is retired when the
map entry swaps. -/
def execBankCopyComplete (page : Nat) (s : State) : Host.Outcome State Fault Refusal :=
  .next (
    match s.cmb.rebuilds.find? (fun r => r.page == page) with
    | none => s
    | some r =>
      match r.copyTo, bankOwner s (pageSlice page) (pageBank page) with
      | some k, some (c, key) => if alive s = true then bankCopied s page c key (k % 64) (rebuiltPage r) else s
      | _, _ => s)

/-- REBUILD_WAIT_LIMIT (R127): a rebuild blocked for 1,000 beats raises event 0x0306 and keeps retrying. -/
def execRebuildWaitLimit (page : Nat) (s : State) : Host.Outcome State Fault Refusal :=
  .next (
    match s.cmb.rebuilds.find? (fun r => r.page == page) with
    | none => s
    | some r =>
      if alive s = true ∧ 1000 ≤ r.waited ∧ r.told = false then
        raise (onRebuild s page (fun r => { r with told := true })) 0x0306 .major 0
      else s)

/-- A copied plan bank takes its map entry at the edge (R130): what of the old bank is still poisoned is poisoned in the copy as well
(R129), and the old bank is released. -/
def mapSwap (s : State) (e : Nat × Nat × Nat × Nat) : State :=
  let q := pageSlice e.2.2.2
  let old := pageBank e.2.2.2
  if (ctxAt s e.1).bankMap.find e.2.1 = some e.2.2.1 then s
  else
    let bad := (s.cmb.poison.map (fun x => x.1)).filter (fun p => pageSlice p == q && pageBank p == old)
    let s := releaseBank (onCtx s e.1 (fun x => { x with bankMap := x.bankMap.putAt e.2.1 e.2.2.1 64 })) q old
    bad.foldl (fun s p =>
      let n := bankPage q e.2.2.1 + p % 1536
      listRebuild { s with cmb.poison := (s.cmb.poison.eraseAt p).putAt n true false } n e.1 e.2.1) s

/-- What a beat edge does to the Comb's pages (R129, R130, R132): copied banks take their map entries, rebuilt pages lose their
poison, and rebuilds count a beat of waiting. -/
def combEdge (s : State) : State :=
  let due := s.cmb.mapDue
  let s := s.cmb.clearing.foldl (fun s p => { s with cmb.poison := s.cmb.poison.eraseAt p }) s
  let s := { s with cmb.mapDue := [], cmb.readThisBeat := [] }
  let s := due.foldl (fun s (_, _, _, page) => { retirePage s page with cmb.poison := s.cmb.poison.eraseAt page }) s
  let s := due.foldl mapSwap s
  { s with cmb.clearing := [],
           cmb.rebuilds := s.cmb.rebuilds.map (fun r => if rebuildReady r then r else { r with waited := r.waited + 1 }) }

/- The installed slot table. -/

/-- The owner code of a quadrant in one merged slot: the plan that claims it, else Edge, else Understory if a plan marks it,
else Idle (R18, R23, log 27). -/
def mergeOwner (cs : List (Nat × PlanCtx)) (i q : Nat) : Nat :=
  match cs.find? (fun c => descOwner (c.2.slots.getD i 0) q == 0) with
  | some c => c.1
  | none =>
    if i = 127 then 6
    else if cs.any (fun c => descOwner (c.2.slots.getD i 0) q == 4) then 4 else 5

/-- One merged descriptor. DESIGN CHOICE (log 27): R23 does not say how the other fields merge; LINK_SCHED is 1 where a plan sets it, and
HOP with its profile is that of the lowest context that hops there, since plans that hop differently in one slot conflict. -/
def mergeDesc (cs : List (Nat × PlanCtx)) (i : Nat) : Nat :=
  let own := mergeOwner cs i 0 + 8 * mergeOwner cs i 1 + 64 * mergeOwner cs i 2 + 512 * mergeOwner cs i 3
  let link := if cs.any (fun c => descLink (c.2.slots.getD i 0)) then 2 ^ 12 else 0
  match cs.find? (fun c => descHop (c.2.slots.getD i 0)) with
  | some c => own + link + 2 ^ 13 + 2 ^ 14 * (c.2.slots.getD i 0 / 2 ^ 14)
  | none => own + link

/-- The table of the plans that stand in it; the idle table when there is none (R21, R23). -/
def mergeTable (cs : List (Nat × PlanCtx)) (i : Nat) : Nat :=
  if cs.isEmpty then idleDesc i else mergeDesc cs i

/-- The contexts of a machine that meet a test, with their numbers. -/
def ctxsWhere (s : State) (p : Nat → PlanCtx → Bool) : List (Nat × PlanCtx) :=
  (List.range 4).filterMap (fun c => if p c (ctxAt s c) then some (c, ctxAt s c) else none)

/-- Keeper installs the combined table of the plans in it, and US_SLOTS follows (R20, R21, R23). -/
def installTable (s : State) : State :=
  let cs := ctxsWhere s (fun _ c => c.st.inTable)
  let t := (List.range 128).foldl (fun (m : SMap Nat) i => SMap.putAt m i (mergeTable cs i) (idleDesc i)) []
  { s with beat.table := t,
           beat.usSlots := ((List.range 128).filter (fun i => descGuaranteed (mergeTable cs i))).length }

/-- PLAN_SWAP at its edge (R124): every map entry of the ready phase points to its shadow bank, and the old banks are freed; the
next phase then reserves its banks. DESIGN CHOICE (log 89): the page maps and PARITY entries of a phase's banks take effect at that
phase's own swap. -/
def swapPhase (s : State) (c : Nat) : State :=
  match (ctxAt s c).phases with
  | [] => s
  | ph :: rest =>
    let s := onCtx s c (fun x => { x with phases := rest })
    let s := ph.shadow.foldl (fun s (q, b, pb) =>
      let key := 64 * q + b
      let old := (ctxAt s c).bankMap.find key
      let fresh := (ctxAt s c).replStripes.filter (fun e => e.2.1 / 98304 == q && e.2.1 % 98304 / 1536 == b)
      let s := onCtx s c (fun x =>
        { x with bankMap := x.bankMap.putAt key pb 64, bankUse := x.bankUse.putAt key ((x.replUse.find key).getD []) [],
                 stripes := x.stripes.filter (fun e => fresh.all (fun f => f.1 != e.1)) ++ fresh })
      match old with
      | some o => releaseBank s q o
      | none => s) s
    if rest.isEmpty then onCtx s c (fun x => { x with replSrc := none, replUse := [], replStripes := [] }) else reserveShadow s c

/-- Abandon the phases not yet swapped, and free their shadow banks (R124). -/
def abandonPhases (s : State) (c : Nat) : State :=
  let sh := (ctxAt s c).phases.flatMap (fun p => p.shadow)
  let s := onCtx s c (fun x => { x with phases := [], replSrc := none, replUse := [], replStripes := [] })
  let s := if s.cmb.fetchRepl = true ∧ s.cmb.fetch = some c then { s with cmb.fetch := none, cmb.fetchRepl := false } else s
  sh.foldl (fun s (q, _, pb) => { s with cmb.dirty := s.cmb.dirty ++ [64 * q + pb] }) s

end Sys2Proof.Machine
end

