-- ==== Sys2Proof/Machine/Quad.lean ====
section
/-! DEFINITION. The quadrant sequencer: the operations of a slot program in program order (R153, R24 to R26), the instances they
belong to (R241, R255, R265), and the feeder threads they arm (R235, R243). -/

namespace Sys2Proof.Machine

open Sys2Proof

/-- A quadrant has power and no reset is due (R413, R47). -/
def quadUp (s : State) (q : Nat) : Bool :=
  alive s && vget s.pwr.quad q false && !vget s.hi.bist q false && (quadAt s q).resetAt != some s.beat.num

/-- The core clock runs (Table 3.9); a freeze keeps it on the profile in force (R86). -/
def coreRuns (s : State) : Bool := s.syn.src != .gated

/-- The running instances of a batch: one plan context and one admission beat (R241). -/
def batch (s : State) (c adm : Nat) : List Inst := (ctxAt s c).insts.filter (fun i => i.admitBeat == adm)

/-- The instance number that the operations of a batch use (R255). -/
def batchN (s : State) (c adm : Nat) : Nat := (batch s c adm).foldl (fun m i => max m i.n) 0

/-- Change the faults of every instance of a batch, and let the plan's overrun policy apply at the next edge when asked. -/
def faultBatch (s : State) (c adm : Nat) (policy : Bool) (f : InstFaults → InstFaults) : State :=
  onCtx s c (fun x => { x with insts := x.insts.map (fun i =>
    if i.admitBeat = adm then { i with faults := f i.faults, policyDue := i.policyDue || policy } else i) })

/-- The faults with the event code of the first one as CAUSE (Table 13.5). -/
def InstFaults.because (f : InstFaults) (cause : Nat) : InstFaults := if f.cause = 0 then { f with cause := cause } else f

/-- The result is poisoned (R129, R183, R208, R240). -/
def poisonInst (s : State) (c adm cause : Nat) : State :=
  faultBatch s c adm false (fun f => { f.because cause with poisoned := true })

/-- The result is invalid for the reason a cause code gives (R247, R225). -/
def invalidInst (s : State) (c adm cause : Nat) (policy : Bool) : State :=
  faultBatch s c adm policy (fun f => { f.because cause with invalid := true })

/-- The FC11 tiles of a batch that come first, n of them at most, and the others. -/
def splitTiles (c adm : Nat) : Nat → List FcTile → List FcTile × List FcTile
  | _, [] => ([], [])
  | 0, l => ([], l)
  | n + 1, t :: r =>
    if t.ctx = c ∧ t.adm = adm then let p := splitTiles c adm n r; (t :: p.1, p.2)
    else let p := splitTiles c adm (n + 1) r; (p.1, t :: p.2)

/-- The phases of Table 9.3 that an open chunk has yet to run, as operations of its batch. -/
def chunkRest (s : State) (r : ChunkRun) : List Todo :=
  let m := ((List.range 11).find? (fun k => decide ((streamAt s r.stream).len ≤ 2 ^ k))).getD 10
  let levels (j : Nat) : List ChunkPhase := (List.range (m - j)).map (fun i => .level (j + 1 + i))
  let rest : List ChunkPhase := match r.phase with
    | .gate => levels 0 ++ [.load, .expand, .readout, .store]
    | .level j => levels j ++ [.load, .expand, .readout, .store]
    | .load => [.expand, .readout, .store]
    | .expand => [.readout, .store]
    | .readout => [.store]
    | .store => []
  rest.map (fun p => { ctx := r.ctx, adm := r.adm, late := false,
                       op := .chunk { stream := r.stream - (ctxAt s r.ctx).rcsBase, phase := p, seqStart := false, inThread := 0, out := r.out } })

/-- A batch's operations leave a quadrant's list, but a chunk in progress always completes (R225): its remaining phases come first. -/
def dropTodo (s : State) (x : QuadSt) (c adm : Nat) : List Todo :=
  (x.chunk.toList.flatMap (fun r => if r.ctx = c ∧ r.adm = adm then chunkRest s r else [])) ++
    x.todo.filter (fun t => !(t.ctx == c && t.adm == adm))

/-- A quadrant runs no further work of a batch (R258, R264). -/
def stopWork (s : State) (q c adm : Nat) : State :=
  onQuad s q (fun x => { x with todo := dropTodo s x c adm, fc11 := x.fc11.filter (fun t => !(t.ctx == c && t.adm == adm)),
                                feeds := x.feeds.filter (fun t => !(t.ctx == c && t.adm == adm)), blocked := none,
                                stopped := if x.stopped.contains (c, adm) then x.stopped else (c, adm) :: x.stopped })

/- Feeder threads. -/

/-- A thread that is idle. -/
def Thread.idle : Thread :=
  { d := { thread := 0, kind := .act, write := false, addr := .plan 0, bytes := 0, startBeat := 0, startSlot := 0, deadBeat := 0,
           deadSlot := 0, persist := false, desc := none, kT := 0, fmt := .e4m3, src := none },
    ctx := 0, inst := 0, run := .idle, base := 0, issued := 0, done := 0, ref := 0, data := [], poison := false, missed := false,
    missBeat := none, closing := false, admitBeat := 0 }
/-- Thread i of quadrant q (R251). -/
def threadAt (s : State) (k : Nat) : Thread := s.xm.threads.getAt k .idle
/-- Change a thread. -/
def onThread (s : State) (k : Nat) (f : Thread → Thread) : State :=
  { s with xm.threads := s.xm.threads.putAt k (f (threadAt s k)) .idle }

/-- The buffer reference of request slot k of the nth instance of a batch (R241, log 123). -/
def batchRef (s : State) (c adm k nth : Nat) : Option Nat := ((batch s c adm)[nth]?).bind (fun i => i.refs[k]?)

/-- Where a batch of a plan keeps a variable of its slot program. -/
def varKey (v c adm : Nat) : Nat := (4 * v + c) * 2 ^ 64 + adm % 2 ^ 64

/-- A run inside the buffer of a current reference, with the reference (R235, R244). -/
def refRun (s : State) (ref off bytes : Nat) : Option (Nat × Nat) :=
  let e := blAt s (ref % 4096)
  if e.gen = ref / 4096 ∧ off + bytes ≤ e.len then some (e.base + off, ref) else none

/-- The external memory address that a feed of a quadrant names, with its buffer reference (R234, R235); none where a reference is
absent or the run lies outside the buffer. -/
def feedBase (s : State) (q c adm : Nat) (d : FeedDesc) : Option (Nat × Nat) :=
  match d.addr with
  | .plan a => some ((ctxAt s c).xmBase + a, 0)
  | .slot k off nth => (batchRef s c adm k nth).bind (fun r => refRun s r off d.bytes)
  | .var v off => ((quadAt s q).vars.find (varKey v c adm)).bind (fun r => refRun s r off d.bytes)

/-- The START slot of a thread has begun (R235). -/
def feedStarted (s : State) (adm : Nat) (d : FeedDesc) : Bool :=
  decide (128 * (adm + d.startBeat) + d.startSlot ≤ 128 * s.beat.num + s.beat.slot)

/-- The start of a thread's DEADLINE slot has passed (R238). -/
def feedLate (s : State) (adm : Nat) (d : FeedDesc) : Bool :=
  decide (128 * (adm + d.deadBeat) + d.deadSlot ≤ 128 * s.beat.num + s.beat.slot)

/-- An empty activation tile that poisons its consumer, for a feed that could not run. -/
def ActTile.dead (d : FeedDesc) : ActTile :=
  { kT := d.kT, fmt := d.fmt, scaled := false, codes := [], scales := [], scale := 0x3F800000, flags := 0x10, poison := true }

/-- Arm a thread for a batch (R235, R243). A feed whose address does not resolve leaves poison for its consumer. -/
def armThread (s : State) (q c adm : Nat) (d : FeedDesc) : State :=
  let k := 32 * q + d.thread
  match feedBase s q c adm d with
  | none =>
    onQuad s q (fun x => { x with acts := x.acts.insertAt d.thread (ActTile.dead d), raw := x.raw.insertAt d.thread ([], true) })
  | some (base, r) =>
    let held := ((quadAt s q).raw.find d.thread).getD ([], false)
    let s := onQuad s q (fun x => { x with acts := x.acts.eraseAt d.thread, raw := x.raw.eraseAt d.thread })
    onThread s k (fun t =>
      { d := d, ctx := c, inst := batchN s c adm, run := if feedStarted s adm d then .issuing else .waiting, base := base,
        issued := 0, done := 0, ref := r, data := if d.write then held.1 else [], poison := held.2 && d.write, missed := false,
        missBeat := t.missBeat, closing := false, admitBeat := adm })

/-- A PERSIST thread already bound to the plan needs no feed operation (R243). -/
def boundPersist (s : State) (q c : Nat) (d : FeedDesc) : Bool :=
  let t := threadAt s (32 * q + d.thread)
  d.persist && t.d.persist && t.d == d && t.ctx == c

/-- An operation is a feed. -/
def isFeed : ProgOp → Bool
  | .feed _ => true
  | _ => false

/-- An operation uses a thread's data: its activation or residual tile, its stream input or its output. -/
def usesThread (k : Nat) : ProgOp → Bool
  | .pass d => d.feed == k || d.resid == some k || d.out == some k
  | .chunk d => d.inThread == k || d.out == some k
  | .save _ i => i == k
  | .restore _ i => i == k
  | .recordAdd _ _ i => i == k
  | _ => false

/-- The feeds that are due arm their threads (R235): each as soon as its thread has ended the round before it, and
the operations that use that round have run (R243). -/
def armDue (s : State) (q : Nat) : State :=
  (quadAt s q).feeds.foldl (fun s f =>
    if boundPersist s q f.ctx f.d then s
    else if f.ahead = 0 ∧ (threadAt s (32 * q + f.d.thread)).run = .idle then armThread s q f.ctx f.adm f.d
    else onQuad s q (fun x => { x with feeds := x.feeds ++ [f] }))
    (onQuad s q (fun x => { x with feeds := [] }))

/-- What takes no time of its own: the feeds that have begun, and the lateness of the operation in front, counted and reported by event
0x0202 (R25, Table 1.7). -/
def advanceAll (s : State) (q : Nat) : State :=
  let s := armDue s q
  match (quadAt s q).todo with
  | [] => s
  | t :: rest =>
    if t.late then
      raise { onQuad s q (fun x => { x with todo := { t with late := false } :: rest }) with hi.lates := satAdd 32 s.hi.lates 1 }
        0x0202 .minor 0
    else s

/-- The operation at the front of a quadrant's list has ended: the next one comes to the front, late if its slot's boundary
has passed (R25). -/
def popOp (s : State) (q : Nat) : State :=
  advanceAll (onQuad s q (fun x =>
    { x with todo := x.todo.drop 1, feeds := x.feeds.map (fun f => { f with ahead := f.ahead - 1 }) })) q

/-- The operation that a quadrant may start now: none in a slot guard (R16), while the quadrant has yielded (R26), is blocked (R254)
or runs a pass, or without power or clock. -/
def headOp (s : State) (q : Nat) : Option Todo :=
  let x := quadAt s q
  if quadUp s q && coreRuns s && !s.beat.guard && !x.yielded && x.blocked.isNone && x.run.isNone then x.todo.head? else none

/-- New array work may begin: not in slot 127 (chapter 1, Table 1.5). -/
def arrayMay (s : State) : Bool := s.beat.slot != 127

/- Tiles that arrive. -/

/-- The header of Table 8.1 as bytes. -/
structure TileHdr where
  ofmt : Nat
  flags : Nat
  rows : Nat
  cols : Nat
  scale : Nat
  amax : Nat
  seq : Nat
  planId : Nat
deriving DecidableEq, Repr

/-- Read the header of Table 8.1. -/
def readTileHdr (l : List Byte) : TileHdr :=
  { ofmt := leAt l 0 1, flags := leAt l 1 1, rows := leAt l 2 2, cols := leAt l 4 2, scale := leAt l 8 4, amax := leAt l 12 4,
    seq := leAt l 16 4, planId := leAt l 24 8 }

/-- The bytes of a header of Table 8.1. -/
def tileHdrBytes (h : TileHdr) : List Byte :=
  leBytes 1 h.ofmt ++ leBytes 1 h.flags ++ leBytes 2 h.rows ++ leBytes 2 h.cols ++ leBytes 2 0 ++ leBytes 4 h.scale ++
    leBytes 4 h.amax ++ leBytes 4 h.seq ++ leBytes 4 0 ++ leBytes 8 h.planId

/-- Value code i of a packed run (Table 6.2). -/
def codeAt (f : ValFmt) (l : List Byte) (i : Nat) : Nat :=
  match f with
  | .int4 => leAt l (i / 2) 1 / 16 ^ (i % 2) % 16
  | _ => leAt l (i * (f.bits / 8)) (f.bits / 8)

/-- Bytes of a packed run of n values, without padding (Table 6.2). -/
def packedLen (f : ValFmt) (n : Nat) : Nat := (n * f.bits + 7) / 8

/-- Pack value codes (Table 6.2). -/
def packCodes (f : ValFmt) (l : List Nat) : List Byte :=
  match f with
  | .int4 => (List.range ((l.length + 1) / 2)).map (fun i =>
      BitVec.ofNat 8 (l.getD (2 * i) 0 % 16 + 16 * (l.getD (2 * i + 1) 0 % 16)))
  | _ => l.flatMap (leBytes (f.bits / 8))

/-- A table of codes from a function, leaving out code 0. -/
def tabulate (n : Nat) (f : Nat → Nat) : SMap Nat :=
  (List.range n).filterMap (fun i => if f i = 0 then none else some (i, f i))

/-- An activation or residual tile of 128 rows and k columns from its stored bytes, entered as stored or transposed (R190,
R191); its block scales are those of the entering orientation (R142). -/
def actTile (f : ValFmt) (k : Nat) (transpose : Bool) (l : List Byte) (poison : Bool) : ActTile :=
  let h := readTileHdr l
  let vals := l.drop 32
  let mx := decide (h.flags / 64 % 2 = 1)
  let blk := vals.drop (packedLen f (128 * k))
  { kT := k, fmt := f, scaled := mx,
    codes := tabulate (128 * k) (fun i => if transpose then codeAt f vals (i % k * 128 + i / k) else codeAt f vals i),
    scales := if mx then tabulate (128 * (k / 32)) (fun i => leAt blk i 1) else [], scale := h.scale, flags := h.flags,
    poison := poison || decide (h.flags / 16 % 2 = 1) }

/-- An activation tile of a row gather (R190): row r is row INDEX[r] of the source matrix, with that row's block scales, and +0 for
an index of 0xFFFF, whatever GATHER_ROWS is, and for a fault. The second component says that an index was at or above GATHER_ROWS. The source begins with a header of Table 8.1 (log 28). -/
def gatherTile (f : ValFmt) (k rows : Nat) (idx src : List Byte) (poison : Bool) : ActTile × Bool :=
  let h := readTileHdr src
  let vals := src.drop 32
  let ix (r : Nat) : Nat := leAt idx (2 * r) 2
  let out (r : Nat) : Bool := ix r == 0xFFFF || decide (rows ≤ ix r)
  let bad := (List.range 128).any (fun r => ix r != 0xFFFF && out r)
  let mx := decide (h.flags / 64 % 2 = 1)
  let blk := vals.drop (packedLen f (rows * k))
  ({ kT := k, fmt := f, scaled := mx,
     codes := tabulate (128 * k) (fun i => if out (i / k) then 0 else codeAt f vals (ix (i / k) * k + i % k)),
     scales := if mx then tabulate (128 * (k / 32)) (fun i =>
       if out (i / (k / 32)) then 127 else leAt blk (ix (i / (k / 32)) * (k / 32) + i % (k / 32)) 1) else [],
     scale := h.scale, flags := h.flags,
     poison := poison || bad || decide (h.flags / 16 % 2 = 1) }, bad)

/-- The stage descriptor of a context that an operation names (Table 8.3). -/
def StageDesc.zero : StageDesc :=
  { chain := 0, prologue := 0, perStage := false, ifmt := 0, ofmt := 0, act := 0, keepK := 0, qmode := 0, hyst := 0,
    scaleSrc := 0, biasSrc := 0, fwdPayload := 0, amaxGain := 0, scalar := 0, scaleVec := 0, biasVec := 0, initScale := 0,
    fwdRank := 0, fwdPort := 0, gatherRows := 0, rsv := 0 }
/-- A descriptor of a context, all zero where there is none. -/
def descOf (s : State) (c i : Nat) : StageDesc := ((ctxAt s c).chains[i]?).getD .zero

/-- The gather fault of R190: FUS_FAULT.GATHER, the code of Table 8.6 and event 0x0603. -/
def gatherFault (s : State) (q : Nat) : State :=
  raise (onQuad s q (fun x => { x with fusGather := true, fusCode := 2 })) 0x0603 .major 0

/-- A row gather whose index list and source have both come enters the buffer (R190). -/
def tryGather (s : State) (q i : Nat) : State :=
  let t := threadAt s (32 * q + i)
  let x := quadAt s q
  let d := (t.d.desc.map (descOf s t.ctx)).getD .zero
  if t.d.kind ≠ .act ∨ d.prologue ≠ 2 then s
  else
    match x.raw.find i, t.d.src with
    | some idx, none => onQuad s q (fun x => { x with acts := x.acts.insertAt i { ActTile.dead t.d with poison := true || idx.2 } })
    | some idx, some g =>
      match x.raw.find g with
      | none => s
      | some src =>
        let (tile, bad) := gatherTile t.d.fmt t.d.kT d.gatherRows idx.1 src.1 (idx.2 || src.2)
        let s := onQuad s q (fun x => { x with acts := x.acts.insertAt i tile, raw := x.raw.eraseAt i })
        if bad then gatherFault s q else s
    | none, _ => s

/-- A residual tile: its header gives the format and the columns (R191, R194, Table 8.1). A header without a format poisons its
consumer. -/
def residTile (l : List Byte) (poison : Bool) : ActTile :=
  let h := readTileHdr l
  match ValFmt.ofCode h.ofmt with
  | some f => actTile f h.cols false l poison
  | none => { actTile .e4m3 h.cols false l poison with poison := true }

/-- A read thread has delivered its last byte (R236, R190): the prologue enters the tile, or the bytes stand in the buffer. -/
def deliver (s : State) (k : Nat) : State :=
  let q := k / 32
  let i := k % 32
  let t := threadAt s k
  let bytes := padTo t.d.bytes t.data
  let d := (t.d.desc.map (descOf s t.ctx)).getD .zero
  match t.d.kind with
  | .act =>
    if d.prologue = 2 then tryGather (onQuad s q (fun x => { x with raw := x.raw.insertAt i (bytes, t.poison) })) q i
    else
      onQuad s q (fun x => { x with acts := x.acts.insertAt i (actTile t.d.fmt t.d.kT (d.prologue == 1) bytes t.poison) })
  | .resid => onQuad s q (fun x => { x with acts := x.acts.insertAt i (residTile bytes t.poison) })
  | .gather =>
    forUpto 32 (fun s j => tryGather s q j) (onQuad s q (fun x => { x with raw := x.raw.insertAt i (bytes, t.poison) }))
  | .stream => onQuad s q (fun x => { x with raw := x.raw.insertAt i (bytes, t.poison) })
  | .out => s
  | .save => onQuad s q (fun x => { x with raw := x.raw.insertAt i (bytes, t.poison) })

/-- The first of a plan's batches admitted after a beat. -/
def batchAfter (s : State) (c adm : Nat) : Option Nat :=
  ((ctxAt s c).insts.filterMap (fun i => if adm < i.admitBeat then some i.admitBeat else none)).min?

/-- A thread's round has ended: a PERSIST thread takes the round of the request admitted next after its own (R243), and an operation
that waited for the thread goes on. -/
def threadEnded (s : State) (k : Nat) : State :=
  let t := threadAt s k
  let s := onThread s k (fun t => { t with run := .idle, closing := false })
  let s := match t.d.persist, batchAfter s t.ctx t.admitBeat with
    | true, some adm => armThread s (k / 32) t.ctx adm t.d
    | _, _ => s
  advanceAll s (k / 32)

/-- Hand bytes to an OUT thread (R239, R242): a thread that is armed carries them, and they wait for one that is not. -/
def handOut (s : State) (q i : Nat) (bytes : List Byte) : State :=
  let k := 32 * q + i
  if (threadAt s k).run ≠ .idle ∧ (threadAt s k).d.write = true then
    onThread s k (fun t => { t with data := t.data ++ bytes })
  else
    onQuad s q (fun x => { x with raw := x.raw.insertAt i ((((x.raw.find i).getD ([], false)).1 ++ bytes), false) })

end Sys2Proof.Machine
end

