-- ==== Sys2Proof/Machine/Weights.lean ====
section
/-! DEFINITION. Weight tiles (chapter 6): the header (Table 6.1), its checks (R140), the stored entries of each row in the five
formats (R143 to R145), what a join lane meets as it scans (R147, R159, R160), promotion groups (R166), and the planned and
actual cost of a pass (R151, R152, R155, R172, R173). -/

namespace Sys2Proof.Machine

open Sys2Proof

/-- The header of a weight tile (Table 6.1). -/
structure WHdr where
  format : Nat
  valfmt : Nat
  flags : Nat
  rsv : Nat
  rows : Nat
  kT : Nat
  nnz : Nat
  nmN : Nat
  nmM : Nat
  bytes : Nat
  count : Nat
  scaleOff : Nat
  permOff : Nat
  rsv2 : Nat
deriving DecidableEq, Repr

/-- A weight tile as a reader sees it: its bytes by tile offset, and whether the byte lies in a poisoned page. -/
structure WView where
  byte : Nat → Nat
  bad : Nat → Bool

/-- The little-endian number of n bytes of a tile from an offset. -/
def viewNat (v : WView) : Nat → Nat → Nat
  | _, 0 => 0
  | o, n + 1 => v.byte o + 256 * viewNat v (o + 1) n

/-- Some of n bytes of a tile from an offset lies in a poisoned page. -/
def viewBad (v : WView) (o n : Nat) : Bool := (List.range n).any (fun i => v.bad (o + i))

/-- Read the header of Table 6.1. -/
def wHdr (v : WView) : WHdr :=
  { format := viewNat v 0 1, valfmt := viewNat v 1 1, flags := viewNat v 2 1, rsv := viewNat v 3 1, rows := viewNat v 4 2,
    kT := viewNat v 6 2, nnz := viewNat v 8 2, nmN := viewNat v 10 1, nmM := viewNat v 11 1, bytes := viewNat v 12 4,
    count := viewNat v 16 4, scaleOff := viewNat v 20 4, permOff := viewNat v 24 4, rsv2 := viewNat v 28 4 }

/-- Block scales are present. -/
def WHdr.scaled (h : WHdr) : Bool := decide (h.flags % 2 = 1)
/-- A permutation table is present. -/
def WHdr.permuted (h : WHdr) : Bool := decide (h.flags / 2 % 2 = 1)
/-- The value format of a tile whose header passed R140. -/
def WHdr.fmt (h : WHdr) : ValFmt := (ValFmt.ofCode h.valfmt).getD .e4m3
/-- Bytes of n values, padded to 4 (R143). -/
def padVals (f : ValFmt) (n : Nat) : Nat := roundUp 4 (packedLen f n)
/-- Bytes of the index region of an NM row (Table 6.3). -/
def nmIdxLen (h : WHdr) : Nat := roundUp 4 ((h.kT / h.nmM * h.nmN * Nat.log2 h.nmM + 7) / 8)
/-- Bytes of an NM row: its index region and its values (Table 6.3). -/
def nmRowLen (h : WHdr) : Nat := nmIdxLen h + padVals h.fmt (h.kT / h.nmM * h.nmN)
/-- Bytes of a body whose extent follows from the header alone (R140): DENSE, NM and COO. -/
def fixedBody (h : WHdr) : Nat :=
  if h.format = 0 then padVals h.fmt (h.rows * h.kT)
  else if h.format = 2 then h.rows * nmRowLen h
  else if h.format = 4 then roundUp 4 (6 * h.count)
  else 0

/-- Two regions of bytes, as offset and length, do not meet. -/
def apart (a b : Nat × Nat) : Bool :=
  decide (a.2 = 0) || decide (b.2 = 0) || decide (a.1 + a.2 ≤ b.1) || decide (b.1 + b.2 ≤ a.1)

/-- The header check of R140 against Table 6.1, R136 and R142. -/
def wHdrOk (h : WHdr) : Bool :=
  let body := (0x20, fixedBody h)
  let sc := (h.scaleOff, if h.scaled then h.rows * h.kT / 32 else 0)
  let pm := (h.permOff, if h.permuted then 2 * h.rows else 0)
  let inside (r : Nat × Nat) : Bool := decide (r.1 + r.2 ≤ h.bytes)
  let offOk (o : Nat) (f : Bool) : Bool := if f then decide (o % 4 = 0) && decide (0x20 ≤ o) else decide (o = 0)
  decide (h.format ≤ 4) && decide (h.valfmt ≤ 5) && decide (h.flags < 4) && decide (h.rsv = 0) && decide (h.rsv2 = 0) &&
    decide (16 ≤ h.rows) && decide (h.rows ≤ 512) && decide (h.rows % 16 = 0) && decide (16 ≤ h.kT) &&
    decide (h.kT ≤ 4096) && decide (h.kT % 16 = 0) && (!h.scaled || decide (h.kT % 32 = 0)) &&
    decide (1 ≤ h.nnz) && decide (h.nnz ≤ h.kT) && (h.format != 0 || decide (h.nnz = h.kT)) &&
    (if h.format = 2 then (h.nmM == 4 || h.nmM == 8 || h.nmM == 16) && decide (1 ≤ h.nmN) && decide (h.nmN < h.nmM) &&
        decide (h.kT % h.nmM = 0)
      else decide (h.nmN = 0) && decide (h.nmM = 0)) &&
    (h.format == 4 || decide (h.count = 0)) && decide (h.bytes % 64 = 0) && decide (0x20 ≤ h.bytes) &&
    (!h.scaled || decide (h.valfmt ≤ 2)) && offOk h.scaleOff h.scaled && offOk h.permOff h.permuted &&
    inside body && inside sc && inside pm && apart body sc && apart body pm && apart sc pm

/-- One stored entry that a lane meets: K index, value code, and the tile bytes it was read from (offset and length). -/
structure WEnt where
  k : Nat
  code : Nat
  reads : List (Nat × Nat)
deriving DecidableEq, Repr

/-- What a lane meets in turn: a stored entry, an entry it only scans, or a fault of Table 6.7. -/
inductive WItem where
  | ent (e : WEnt)
  | scan (reads : List (Nat × Nat))
  | fault (code : Nat)
deriving DecidableEq, Repr

/-- The value code i of a value region that starts at offset o, and the bytes it is read from. -/
def viewVal (f : ValFmt) (v : WView) (o i : Nat) : Nat × (Nat × Nat) :=
  match f with
  | .int4 => (v.byte (o + i / 2) / 16 ^ (i % 2) % 16, (o + i / 2, 1))
  | _ => (viewNat v (o + i * (f.bits / 8)) (f.bits / 8), (o + i * (f.bits / 8), f.bits / 8))

/-- The entries of a DENSE row (Table 6.3). -/
def denseRow (h : WHdr) (v : WView) (l : Nat) : List WItem :=
  (List.range h.kT).map (fun k =>
    let x := viewVal h.fmt v 0x20 (l * h.kT + k)
    .ent { k := k, code := x.1, reads := [x.2] })

/-- Where the body of a B16 or CST tile must end: BYTES, the scale block or the permutation table (R159). -/
def bodyLimit (h : WHdr) : Nat :=
  let a := if h.scaled then min h.bytes h.scaleOff else h.bytes
  if h.permuted then min a h.permOff else a

/-- Set bits of a number below a bit count. -/
def popBits (n bits : Nat) : Nat := ((List.range bits).filter (fun i => decide (n / 2 ^ i % 2 = 1))).length

/-- Offsets of the B16 blocks in order, n of them from an offset (Table 6.3). -/
def b16Offs (h : WHdr) (v : WView) : Nat → Nat → List Nat
  | 0, _ => []
  | n + 1, o => o :: b16Offs h v n (o + 32 + padVals h.fmt (popBits (viewNat v o 32) 256))

/-- The part of B16 row l in one block at an offset, block column j. -/
def b16Block (h : WHdr) (v : WView) (l o j : Nat) : List WItem :=
  let r := l % 16
  let bm := viewNat v (o + 2 * r) 2
  let before := popBits (viewNat v o (2 * r)) (16 * r)
  if bodyLimit h < o + 32 then [.fault 7]
  else
    .scan [(o + 2 * r, 2)] ::
      ((List.range 16).filter (fun c => decide (bm / 2 ^ c % 2 = 1))).zipIdx.map (fun ci =>
        let x := viewVal h.fmt v (o + 32) (before + ci.2)
        if bodyLimit h < x.2.1 + x.2.2 then .fault 7
        else .ent { k := 16 * j + ci.1, code := x.1, reads := [x.2] })

/-- The entries of a B16 row (Table 6.3). -/
def b16Row (h : WHdr) (v : WView) (offs : List Nat) (l : Nat) : List WItem :=
  (List.range (h.kT / 16)).flatMap (fun j => b16Block h v l (offs.getD (l / 16 * (h.kT / 16) + j) 0) j)

/-- The entries of an NM row (Table 6.3, R145). -/
def nmRow (h : WHdr) (v : WView) (l : Nat) : List WItem :=
  let o := 0x20 + l * nmRowLen h
  let b := Nat.log2 h.nmM
  let posn (e : Nat) : Nat := viewNat v (o + e * b / 8) 2 / 2 ^ (e * b % 8) % 2 ^ b
  (List.range (h.kT / h.nmM * h.nmN)).map (fun e =>
    let x := viewVal h.fmt v (o + nmIdxLen h) e
    if h.nmM ≤ posn e ∨ (e % h.nmN ≠ 0 ∧ posn e ≤ posn (e - 1)) then .fault 5
    else .ent { k := e / h.nmN * h.nmM + posn e, code := x.1, reads := [(o + e * b / 8, 1), x.2] })

/-- Offsets of the CST strips in order, n of them from an offset (Table 6.3). -/
def cstOffs (h : WHdr) (v : WView) : Nat → Nat → List Nat
  | 0, _ => []
  | n + 1, o =>
    let streams := ((List.range 16).map (fun r => roundUp 4 (viewNat v (o + 4 + 2 * r) 2))).sum
    o :: cstOffs h v n (o + 36 + streams + padVals h.fmt (16 * viewNat v o 2))

/-- The entries of one CST index stream (R144): at stream offset i of len bytes, with e entries done, the previous index plus
one, and whether a pad has come; val reads value e. -/
def cstScan (h : WHdr) (v : WView) (o len c : Nat) (val : Nat → Nat × (Nat × Nat)) :
    Nat → Nat → Nat → Nat → Bool → List WItem
  | 0, _, _, _, _ => []
  | n + 1, i, e, prev, padded =>
    if e = c then (if i = len then [] else [.fault 6])
    else if len ≤ i then [.fault 6]
    else if bodyLimit h < o + i + 1 then [.fault 7]
    else
      let d := v.byte (o + i)
      let esc : Bool := decide (d = 0)
      let w := if esc then 3 else 1
      let ix := if esc then viewNat v (o + i + 1) 2 else prev + d - 1
      let x := val e
      if len < i + w then [.fault 6]
      else if bodyLimit h < o + i + w ∨ bodyLimit h < x.2.1 + x.2.2 then [.fault 7]
      else if h.nnz ≤ e then [.fault 4]
      else if esc ∧ ix = 0xFFFF then
        .scan [(o + i, w)] :: cstScan h v o len c val n (i + w) (e + 1) prev true
      else if padded then [.fault 6]
      else if ix < prev ∨ h.kT ≤ ix then [.fault 3]
      else .ent { k := ix, code := x.1, reads := [(o + i, w), x.2] } ::
        cstScan h v o len c val n (i + w) (e + 1) (ix + 1) false

/-- The entries of a CST row (Table 6.3). -/
def cstRow (h : WHdr) (v : WView) (offs : List Nat) (l : Nat) : List WItem :=
  let o := offs.getD (l / 16) 0
  let r := l % 16
  let len (j : Nat) : Nat := viewNat v (o + 4 + 2 * j) 2
  let start (j : Nat) : Nat := o + 36 + ((List.range j).map (fun i => roundUp 4 (len i))).sum
  let c := viewNat v o 2
  if bodyLimit h < o + 36 then [.fault 7]
  else .scan [(o, 4), (o + 4 + 2 * r, 2)] ::
    cstScan h v (start r) (len r) c (fun e => viewVal h.fmt v (start 16) (r * c + e)) (c + 1) 0 0 0 false

/-- The whole COO list up to the entry that stops every lane (R159): row, column, value code and offset, in order; the Boolean
says that such an entry was met. -/
def cooScan (h : WHdr) (v : WView) : Nat → Nat → Nat → List (Nat × WEnt) × Bool
  | 0, _, _ => ([], false)
  | n + 1, e, last =>
    let o := 0x20 + 6 * e
    let row := viewNat v o 2
    let code := if h.fmt = .int4 then v.byte (o + 4) % 16 else viewNat v (o + 4) (h.fmt.bits / 8)
    if h.rows ≤ row ∨ row < last then ([], true)
    else
      let r := cooScan h v n (e + 1) row
      ((row, { k := viewNat v (o + 2) 2, code := code, reads := [(o, 6)] }) :: r.1, r.2)

/-- The entries of a COO row: a column that does not ascend or lies at or above K_T stops the lane (R159). -/
def cooRow (h : WHdr) (l : List WEnt) : List WItem :=
  let rec go : Nat → List WEnt → List WItem
    | _, [] => []
    | next, e :: r => if e.k < next ∨ h.kT ≤ e.k then [.fault 3] else .ent e :: go (e.k + 1) r
  go 0 l

/-- A lane's scan (R154, R159, R160): items up to the one that stops it. The entries delivered, the fault code, and whether
poisoned data stopped it. -/
def laneScan (v : WView) (nnz : Nat) : Nat → List WItem → List WEnt × Option Nat × Bool
  | _, [] => ([], none, false)
  | _, .fault c :: _ => ([], some c, false)
  | n, .scan rd :: r => if rd.any (fun x => viewBad v x.1 x.2) then ([], none, true) else laneScan v nnz n r
  | n, .ent e :: r =>
    if nnz ≤ n then ([], some 4, false)
    else if e.reads.any (fun x => viewBad v x.1 x.2) then ([], none, true)
    else
      let t := laneScan v nnz (n + 1) r
      (e :: t.1, t.2.1, t.2.2)

/-- The stored entries that a row's items hold, whatever stops the lane. -/
def storedOf (l : List WItem) : List WEnt := l.filterMap (fun i => match i with
  | .ent e => some e
  | _ => none)

/-- Scan clocks J of a row (Table 6.4). -/
def scanClocks (h : WHdr) (l : List WItem) : Nat :=
  if h.format = 3 then
    let x := (l.map (fun i => match i with
      | .ent e => if e.reads.head?.map (fun r => r.2) = some 3 then 2 else 1
      | .scan [(_, 3)] => 2
      | _ => 0)).sum
    ceilDiv x 8
  else if h.format = 4 then (storedOf l).length
  else h.kT / 16

/-- The items of every row of a tile, in row order, and whether a COO entry stops every lane. -/
def tileItems (h : WHdr) (v : WView) : List (List WItem) × Bool :=
  if h.format = 0 then ((List.range h.rows).map (denseRow h v), false)
  else if h.format = 1 then
    let offs := b16Offs h v (h.rows / 16 * (h.kT / 16)) 0x20
    ((List.range h.rows).map (b16Row h v offs), false)
  else if h.format = 2 then ((List.range h.rows).map (nmRow h v), false)
  else if h.format = 3 then
    let offs := cstOffs h v (h.rows / 16) 0x20
    ((List.range h.rows).map (cstRow h v offs), false)
  else
    let es := cooScan h v h.count 0 0
    ((List.range h.rows).map (fun l => cooRow h ((es.1.filter (fun e => e.1 == l)).map (fun e => e.2))), es.2)

/-- Stored entries of a promotion step (Table 7.1). -/
def perStep (f : ValFmt) : Nat := if f = .int4 then 2 else 1

/-- Promotion groups of a row's stored entries (R166): a group closes at P steps' worth of entries, and at a 32-element K
boundary when either operand is scaled. -/
def groupsOf (cap : Nat) (scaled : Bool) (l : List WEnt) : List (List WEnt) :=
  let rec go : List WEnt → List WEnt → List (List WEnt)
    | [], [] => []
    | [], cur => [cur.reverse]
    | e :: r, [] => go r [e]
    | e :: r, c :: cs =>
      if cap ≤ (c :: cs).length ∨ (scaled = true ∧ c.k / 32 ≠ e.k / 32) then (c :: cs).reverse :: go r [e]
      else go r (e :: c :: cs)
  go l []

/-- C(n), the clocks of n pairs (R151). -/
def pairClocks (f : ValFmt) (n : Nat) : Nat :=
  match f with
  | .int4 => ceilDiv n 2
  | .bf16 => 2 * n
  | .fp16 => 2 * n
  | _ => n

/-- Clocks per step s (Table 7.1). -/
def stepClocks (f : ValFmt) : Nat :=
  match f with
  | .bf16 => 2
  | .fp16 => 2
  | _ => 1

/-- The array time of a column over the pairs of its non-empty groups (R172); prev is the last start plus 8. -/
def arrayTime (f : ValFmt) (l : List Nat) : Nat :=
  ((l.filter (fun n => n != 0)).foldl (fun (p : Nat × Nat) n =>
    let st := max p.1 p.2
    (st + pairClocks f n, st + 8)) (0, 0)).1

/-- The planned array time of a row (R155, R173): worst case, or bounded with KB. -/
def plannedArray (f : ValFmt) (p kb : Nat) (groups : List (List WEnt)) (stored : List WEnt) : Nat :=
  if kb = 0 then arrayTime f (groups.map List.length)
  else
    let e := ((List.range 256).map (fun b => min kb (stored.filter (fun x => x.k / 16 == b)).length)).sum
    if e = 0 then 0 else max (pairClocks f e) (8 * (min groups.length e - 1) + p * stepClocks f)

/-- The core frequency as a ratio of MHz: numerator and denominator (R54; the safe clock is 800 MHz, Table 3.5). -/
def coreMhz (s : State) : Nat × Nat :=
  let of (l : Loop) : Nat × Nat :=
    let p := profAt s l s.syn.profNow
    (100 * (p.n * 2 ^ 24 + p.f), p.p * p.d * 2 ^ 24)
  match s.syn.src with
  | .c0 => of .c0
  | .c1 => of .c1
  | _ => (800, 1)

/-- Bytes per clock of a Comb slice at a core frequency (R151). -/
def bytesPerClock (f : Nat × Nat) : Nat := if f.1 = 0 then 1 else max 1 (6000000 * f.2 / f.1)

/-- The planned cost of a pass from its tile (R151, R152, R173): NNZ_ROW bounds the entries of every row. -/
def plannedCost (f : Nat × Nat) (h : WHdr) (p kb : Nat) (scaled : Bool) (rows : List (List WItem)) : Nat :=
  8 + (rows.map (fun r =>
    let st := (storedOf r).take h.nnz
    max (max (plannedArray h.fmt p kb (groupsOf (p * perStep h.fmt) scaled st) st) (scanClocks h r))
      (ceilDiv h.bytes (bytesPerClock f)))).foldl max 0

/-- The permutation table of a tile, or the identity (R146, R150). -/
def permOf (h : WHdr) (v : WView) : List Nat :=
  if h.permuted then (List.range h.rows).map (fun l => viewNat v (h.permOff + 2 * l) 2) else List.range h.rows

/-- The table is a permutation of 0 to ROWS − 1 (R146). -/
def permOk (rows : Nat) (l : List Nat) : Bool := (List.range rows).all (fun i => l.contains i)

/-- The weight tile of a context at a plan Comb address, as its readers see it. -/
def tileView (s : State) (c a : Nat) : WView :=
  let x := ctxAt s c
  let phys (o : Nat) : Option Nat := planPhys x (a + o)
  { byte := fun o => match phys o with
      | some p => (s.cmb.mem.getAt p 0#8).toNat
      | none => 0
    bad := fun o => match phys o with
      | some p => pagePoisoned s (p / 0x1000)
      | none => false }

end Sys2Proof.Machine
end

