-- ==== Sys2Proof/Machine/Join.lean ====
section
/-! DEFINITION. The join units and the arrays (chapters 6 and 7): pass start and its checks, promotion into the long
accumulators, the two accumulator sets and their swap, and the tile record of SAVE, RESTORE and received sums. -/

namespace Sys2Proof.Machine

open Sys2Proof

/-- The active accumulator set. -/
def activeSet (x : QuadSt) : AccSet := if x.activeB then x.setB else x.setA
/-- The shadow accumulator set. -/
def shadowSet (x : QuadSt) : AccSet := if x.activeB then x.setA else x.setB
/-- Change the active set. -/
def onActive (s : State) (q : Nat) (f : AccSet → AccSet) : State :=
  onQuad s q (fun x => if x.activeB then { x with setB := f x.setB } else { x with setA := f x.setA })

/-- The mode of a pass (Table 7.2). -/
def passMode (f : ValFmt) (scaled : Bool) : AccMode :=
  if scaled then .window
  else match f with
    | .int8 => .int
    | .int4 => .int
    | .e4m3 => .fp8
    | .e5m2 => .fp8
    | _ => .window

/-- The weight of bit 0 of a mode, as a power of two (Table 7.2). -/
def unitExp (m : AccMode) (anchor : Int) : Int :=
  match m with
  | .int => 0
  | .fp8 => -32
  | .window => anchor
/-- Bits of a mode (Table 7.2). -/
def accBits : AccMode → Nat
  | .window => 128
  | _ => 96
/-- The MODE code of Table 7.5. -/
def AccMode.code : AccMode → Nat
  | .int => 0 | .fp8 => 1 | .window => 2
/-- The CLASS code of Table 7.5. -/
def AccCls.code : AccCls → Nat
  | .fin => 0 | .pinf => 1 | .ninf => 2 | .nan => 3
/-- The class of a code. -/
def AccCls.ofCode : Nat → AccCls
  | 1 => .pinf | 2 => .ninf | 3 => .nan | _ => .fin

/-- Two classes meet (R171, R178): NaN absorbs, and +∞ meets −∞ as NaN. -/
def AccCls.meet (a b : AccCls) : AccCls :=
  if a = .fin then b else if b = .fin then a else if a = b then a else .nan

/-- The class of a product. -/
def clsOf : FNum → AccCls
  | .nan => .nan
  | .inf s => if s then .ninf else .pinf
  | .fin _ _ _ => .fin

/-- The finite sum of a group (R168, R169) as an integer times 2^e: exact for integers and for one nonzero product, and otherwise
each product is rounded to a multiple of 2^(H − 19). -/
def groupSum (exact : Bool) (l : List FNum) : Int × Int :=
  let nz := l.filterMap (fun p => match p with
    | .fin s m e => if m = 0 then none else some (s, m, e)
    | _ => none)
  let sg (s : Bool) (m : Nat) : Int := if s then -(m : Int) else m
  let q : Int :=
    if exact ∨ nz.length ≤ 1 then (nz.map (fun p => p.2.2)).foldl min ((nz.map (fun p => p.2.2)).headD 0)
    else
      let h := (nz.map (fun p => (Nat.log2 p.2.1 : Int) + p.2.2)).foldl max ((nz.map (fun p => (Nat.log2 p.2.1 : Int) + p.2.2)).headD 0)
      h - 19
  ((nz.map (fun p => sg p.1 (roundAtStep p.2.1 1 p.2.2 q))).sum, q)

/-- What an addition into a long accumulator leaves: the cell, whether a term lay wholly below the window, whether it saturated
now, and whether bits were lost (R175 to R178). -/
structure AccStep where
  cell : AccCell
  under : Bool
  sat : Bool
  lost : Bool
deriving DecidableEq, Repr

/-- Add a term, a class and i × 2^e, into a long accumulator (R175 to R178, R189). -/
def accAdd (m : AccMode) (anchor : Int) (c : AccCell) (cls : AccCls) (i e : Int) : AccStep :=
  if cls ≠ .fin then { cell := { c with cls := c.cls.meet cls }, under := false, sat := false, lost := false }
  else if c.cls ≠ .fin ∨ c.sat = true ∨ i = 0 then { cell := c, under := false, sat := false, lost := false }
  else
    let u := unitExp m anchor
    let k : Int := if u ≤ e then i * 2 ^ (e - u).toNat else i.tdiv (2 ^ (u - e).toNat)
    let lost : Bool := if u ≤ e then false else decide (i.tmod (2 ^ (u - e).toNat) ≠ 0)
    let hi : Int := 2 ^ (accBits m - 1) - 1
    let v := c.val + k
    if hi < v then { cell := { c with val := hi, sat := true, lost := c.lost || lost }, under := lost && k == 0, sat := true, lost := lost }
    else if v < -hi - 1 then
      { cell := { c with val := -hi - 1, sat := true, lost := c.lost || lost }, under := lost && k == 0, sat := true, lost := lost }
    else { cell := { c with val := v, lost := c.lost || lost }, under := lost && k == 0, sat := false, lost := lost }

/-- A set with what its additions have counted: terms below the window, saturations, and whether any discarded bits. -/
structure AccRun where
  set : AccSet
  under : Nat
  satx : Nat
  lost : Bool
deriving DecidableEq, Repr

/-- Add one term into one cell of a set, with the set's tile flags (R181): INF is raised by every infinite term, whatever the
cell's class is by then, so the flags do not depend on the order of the terms (R179). -/
def setAdd (r : AccRun) (cell : Nat) (cls : AccCls) (i e : Int) : AccRun :=
  let st := accAdd r.set.mode r.set.anchor (r.set.cells.getAt cell .zero) cls i e
  { set := { r.set with cells := r.set.cells.putAt cell st.cell .zero, sat := r.set.sat || st.sat, lost := r.set.lost || st.lost,
                        nan := r.set.nan || st.cell.cls == .nan,
                        inf := r.set.inf || cls == .pinf || cls == .ninf }
    under := r.under + bit1 st.under, satx := r.satx + bit1 st.sat, lost := r.lost || st.lost }

/-- One promotion (R170 to R172): the pairs of one group, for one activation row. -/
def promote (p : RunPass) (tile : ActTile) (lane row : Nat) (pairs : List (Nat × Nat)) (r : AccRun) : AccRun :=
  let j := ((pairs.head?.map (fun x => x.1)).getD 0) / 32
  let sw := if p.scaled then p.scaleBlk.getAt (lane * (p.kT / 32) + j) 0 else 127
  let sa := if tile.scaled then tile.scales.getAt (row * (tile.kT / 32) + j) 0 else 127
  let prods := pairs.map (fun x => FNum.mul (decodeVal p.wfmt x.2) (decodeVal p.d.fmt (tile.codes.getAt (row * tile.kT + x.1) 0)))
  let prods := if sw = 0xFF ∨ sa = 0xFF then prods.map (fun _ => FNum.nan) else prods
  let cls := (prods.map clsOf).foldl AccCls.meet .fin
  let exact := match p.wfmt with
    | .int8 => true
    | .int4 => true
    | _ => false
  let t := groupSum exact prods
  setAdd r (512 * row + lane) cls t.1 (t.2 + (sw : Int) + (sa : Int) - 254)

/-- Every promotion of a pass, lane by lane, group by group (R172, R178). -/
def promoteAll (p : RunPass) (tile : ActTile) (set : AccSet) : AccRun :=
  p.lanes.foldl (fun r lg =>
    lg.2.foldl (fun r g => if g.isEmpty then r else forUpto 128 (fun r row => promote p tile lg.1 row g r) r) r)
    { set := set, under := 0, satx := 0, lost := false }

/-- K index k of an activation tile is occupied (R137). -/
def occupied (t : ActTile) (fmt : ValFmt) (k : Nat) : Bool :=
  t.codes.any (fun e => e.1 % t.kT == k && !(decodeVal fmt e.2).isZero)

/-- The aligned 16-element blocks of the occupancy map that hold more than kb set bits (R156). -/
def boundBroken (t : ActTile) (fmt : ValFmt) (kb : Nat) : Nat :=
  ((List.range (t.kT / 16)).filter (fun b =>
    decide (kb < ((List.range 16).filter (fun i => occupied t fmt (16 * b + i))).length))).length

/-- Keep the first n entries of a row in their groups. -/
def cutGroups : Nat → List (List WEnt) → List (List WEnt)
  | _, [] => []
  | n, g :: r => g.take n :: cutGroups (n - g.length) r

/-- What a pass finds at its start (R148, R151, R159 to R161): the fault codes, poisoned weight data, and the run. -/
structure PassFind where
  codes : List Nat
  poisonIn : Bool
  bound : Nat
  run : RunPass
  rows : Nat
  perm : List Nat
  hdr : WHdr

/-- Everything that the start of a pass settles. -/
def passFind (s : State) (t : Todo) (d : PassDesc) (tile : ActTile) : PassFind :=
  let v := tileView s t.ctx d.tile
  let h := wHdr v
  let scaled := h.scaled || tile.scaled
  let perm := permOf h v
  let headBad := viewBad v 0 32 || (h.scaled && viewBad v h.scaleOff (h.rows * h.kT / 32)) ||
    (h.permuted && viewBad v h.permOff (2 * h.rows))
  let scaleFmt := match d.fmt.cls with
    | .fp8 => true
    | .int8 => true
    | _ => false
  let startCodes :=
    (if d.fmt.cls ≠ h.fmt.cls then [1] else []) ++ (if tile.scaled ∧ scaleFmt = false then [2] else []) ++
      (if h.permuted ∧ permOk h.rows perm = false then [8] else [])
  let stopAll := headBad || !startCodes.isEmpty
  let items := tileItems h v
  let lanes := items.1.map (fun r =>
    let sc := laneScan v h.nnz 0 r
    (r, if stopAll then [] else sc.1, if stopAll then none else sc.2.1, !stopAll && sc.2.2))
  let groups := lanes.map (fun x =>
    let g := cutGroups x.2.1.length (groupsOf (d.p * perStep h.fmt) scaled (storedOf x.1))
    g.map (fun es => (es.filter (fun e => !(decodeVal h.fmt e.code).isZero && occupied tile d.fmt e.k)).map (fun e => (e.k, e.code))))
  let codes := startCodes ++ lanes.filterMap (fun x => x.2.2.1) ++ (if items.2 && !stopAll then [9] else [])
  let poisonIn := headBad || lanes.any (fun x => x.2.2.2)
  let f := coreMhz s
  let planned := plannedCost f h d.p d.kb scaled items.1
  let cost := 8 + ((lanes.zip groups).map (fun x =>
    max (max (arrayTime h.fmt (x.2.map List.length)) (scanClocks h x.1.1)) (ceilDiv h.bytes (bytesPerClock f)))).foldl max 0
  let actual := if codes.isEmpty && !poisonIn then cost else min cost planned
  { codes := codes, poisonIn := poisonIn, bound := if d.kb = 0 then 0 else boundBroken tile d.fmt d.kb, rows := h.rows, perm := perm, hdr := h,
    run := { d := d, ctx := t.ctx, adm := t.adm, planned := planned, actual := actual,
             lanes := groups.zipIdx.map (fun g => (g.2, g.1)), scaled := h.scaled, wfmt := h.fmt,
             scaleBlk := if h.scaled then tabulate (h.rows * h.kT / 32) (fun i => viewNat v (h.scaleOff + i) 1) else [],
             kT := h.kT } }

/-- The mode that the load check of R174 gives a pass: by the class of its weights, and WINDOW where its weight tile holds scales or
its program declares scaled activations. -/
def declaredMode (h : WHdr) (d : PassDesc) : AccMode := passMode h.fmt (h.scaled || d.actScaled)

/-- The anchor of a mode: the declared one in WINDOW, otherwise 0 (Table 7.5). -/
def anchorOf (m : AccMode) (d : PassDesc) : Int := if m = .window then d.anchor else 0

/-- The active set as a pass takes it up (R180, R183, R209): cleared by OVERWRITE. The first pass of a tile fixes its mode and
anchor, and later ones add in them (R174, R187). Lanes count as driven once any pass of the tile drives them (R150). -/
def takeUp (f : PassFind) (tile : ActTile) (poison : Bool) (a : AccSet) : AccSet :=
  let a := if f.run.d.overwrite then AccSet.init else a
  let m := if a.opened then a.mode else declaredMode f.hdr f.run.d
  { a with mode := m, anchor := if a.opened then a.anchor else anchorOf m f.run.d, opened := true, perm := f.perm,
           rows := max a.rows f.rows, ctx := f.run.ctx, adm := f.run.adm, poison := a.poison || poison,
           scale := match a.scale with
             | none => some tile.scale
             | some c => some c
           scaleMix := a.scaleMix || (match a.scale with
             | none => false
             | some c => c != tile.scale) }

/-- The pages of a run of bytes at a plan Comb address, in order. -/
def runPages (s : State) (c a bytes : Nat) : List Nat :=
  (List.range (bytes / 0x1000 + 2)).filterMap (fun i =>
    let o := a / 0x1000 * 0x1000 + i * 0x1000
    if bytes = 0 ∨ a + bytes ≤ o then none else (planPhys (ctxAt s c) o).map (fun p => p / 0x1000))

/-- Planned reads of the poisoned pages of a run (R129). -/
def poisonReads (s : State) (c a bytes : Nat) : State :=
  (runPages s c a bytes).foldl (fun s p => if pagePoisoned s p then poisonRead s p else s) s

/-- Errors that the planned read of a weight tile meets (R110, R128): corrected codewords are counted, and an uncorrectable one
poisons its page, named by its place among the tile's pages. -/
def weightErrors (s : State) (t : Todo) (d : PassDesc) (corrected : Nat) (bad : List Nat) : State :=
  let pages := runPages s t.ctx d.tile (wHdr (tileView s t.ctx d.tile)).bytes
  (pages.zipIdx.filter (fun e => bad.contains e.2)).foldl (fun s e => poisonPage s e.1)
    { s with cmb.ce := satAdd 32 s.cmb.ce corrected }

/-- Meaning of PASS_START (R110, R128, R137, R153, R156, R159 to R161, R180, R182, R183). -/
def passStart (s : State) (q corrected : Nat) (bad : List Nat) : State :=
  match headOp s q with
  | some t =>
    match t.op, (quadAt s q).swapDue with
    | .pass d, false =>
      match (if arrayMay s then (quadAt s q).acts.find d.feed else none) with
      | none => s
      | some tile =>
        let s := weightErrors s t d corrected bad
        let f := passFind s t d tile
        let poison := !f.codes.isEmpty || f.poisonIn || tile.poison
        let s := onActive s q (takeUp f tile poison)
        let s := onQuad s q (fun x =>
          { x with run := some f.run, curP := d.p, curKb := d.kb, curFmt := f.hdr.format, curVal := f.hdr.valfmt,
                   jnPoison := x.jnPoison || f.poisonIn })
        let s := if f.poisonIn then poisonReads s t.ctx d.tile f.hdr.bytes else s
        let s := if f.codes.isEmpty then s else
          raise (onQuad s q (fun x =>
            { x with jnFmt := true, jnFmtx := satAdd 32 x.jnFmtx 1, jnAddr := d.tile,
                     jnCode := f.codes.foldl min (f.codes.headD 0) })) 0x0401 .major 0
        let s := if f.bound = 0 then s else
          invalidInst (forUpto f.bound (fun s _ => raise s 0x0402 .major 0)
            (onQuad s q (fun x => { x with jnBound := true, jnBoundx := satAdd 32 x.jnBoundx f.bound }))) t.ctx t.adm 0x0402 true
        if ¬ f.codes.isEmpty then poisonInst s t.ctx t.adm 0x0401
        else if f.poisonIn then poisonInst s t.ctx t.adm 0x0304 else s
    | _, _ => s
  | none => s

/-- PASS_START (R153), with the errors that its read of the weight tile meets (R110, R128). -/
def execPassStart (x : PassRead) (s : State) : Host.Outcome State Fault Refusal :=
  .next (passStart s x.quad.val x.corrected x.bad)

/-- The tile flags that a tile raises as it closes (Table 7.6, R189); ARR_FLAGS tells of its accumulators (Table 7.8). -/
def closeTile (s : State) (q : Nat) (a : AccSet) : State :=
  let s := onQuad s q (fun x =>
    { x with arrNan := x.arrNan || a.cells.any (fun e => e.2.cls == .nan),
             arrInf := x.arrInf || a.cells.any (fun e => e.2.cls == .pinf || e.2.cls == .ninf),
             arrPoison := x.arrPoison || a.poison })
  let s := if a.sat then raise s 0x0501 .minor 0 else s
  if a.nan || a.inf then raise s 0x0502 .minor 0 else s

/-- JN_SAVED after a pass: the planned minus the actual cost is added with its sign, between 0 and the largest value (R157, log 116). -/
def savedClocks (n : Nat) (p : RunPass) : Nat := min (2 ^ 64 - 1) ((n : Int) + (p.planned : Int) - (p.actual : Int)).toNat

/-- Meaning of PASS_COMPLETE (R151, R157, R172, R176, R177, R181). -/
def passComplete (s : State) (q : Nat) : State :=
  match (quadAt s q).run with
  | none => s
  | some p =>
    if ¬ (quadUp s q = true ∧ coreRuns s = true) then s
    else
      let tile := ((quadAt s q).acts.find p.d.feed).getD (ActTile.dead Thread.idle.d)
      let r := promoteAll p tile (activeSet (quadAt s q))
      let set := match p.d.tileEnd with
        | none => r.set
        | some i => { r.set with opened := false, desc := i, tileSeq := p.d.tileSeq, resid := p.d.resid, out := p.d.out,
                                 outCols := p.d.outCols, link := p.d.link }
      let s := onActive s q (fun _ => set)
      let s := onQuad s q (fun x =>
        { x with run := none, jnPasses := satAdd 32 x.jnPasses 1, jnSaved := savedClocks x.jnSaved p,
                 jnPairs := satAdd 64 x.jnPairs ((p.lanes.map (fun l => (l.2.map List.length).sum)).sum),
                 arrUnder := satAdd 32 x.arrUnder r.under, arrSatx := satAdd 32 x.arrSatx r.satx,
                 arrSat := x.arrSat || decide (r.satx ≠ 0), arrLost := x.arrLost || r.lost,
                 swapDue := x.swapDue || p.d.tileEnd.isSome })
      popOp (if p.d.tileEnd.isSome then closeTile s q set else s) q

/-- PASS_COMPLETE (R151). -/
def execPassComplete (q : Quad) (s : State) : Host.Outcome State Fault Refusal := .next (passComplete s q.val)

/-- The largest magnitude among a set's finite, unsaturated accumulators, in units of bit 0 (R181). -/
def amaxOf (a : AccSet) : Nat :=
  (a.cells.map (fun e => if e.2.cls = .fin ∧ e.2.sat = false then e.2.val.natAbs else 0)).foldl max 0

/-- Meaning of ACCUMULATOR_SET_SWAP (R181, R182, R207). -/
def setSwap (s : State) (q stall : Nat) : State :=
  let x := quadAt s q
  if quadUp s q = true ∧ coreRuns s = true ∧ x.swapDue = true ∧ x.shadowBusy = false then
    let a := activeSet x
    let m := amaxOf a
    let e := unitExp a.mode a.anchor
    onQuad s q (fun x =>
      { x with activeB := !x.activeB, swapDue := false, shadowBusy := true, amaxM := m, amaxE := e,
               arrAmax := fp32Code (if m = 0 then fzero false else roundUpFp32 m 1 e), arrStall := satAdd 32 x.arrStall stall,
               fusBusy := true, fusDesc := a.desc, fusChain := (descOf s a.ctx a.desc).chain })
  else s

/-- ACCUMULATOR_SET_SWAP (R181). -/
def execAccumulatorSetSwap (q : Quad) (stall : Nat) (s : State) : Host.Outcome State Fault Refusal :=
  .next (setSwap s q.val stall)

/- Tile records. -/

/-- Bytes of a tile record of a number of columns (Table 7.5). -/
def recLen (cols : Nat) : Nat := 64 + 2080 * cols

/-- The bytes of a tile record (Table 7.5). -/
def recBytes (planId : Nat) (a : AccSet) (cols seq : Nat) : List Byte :=
  let cell (i : Nat) : AccCell := a.cells.getAt (512 * (i / cols) + i % cols) .zero
  leBytes 8 planId ++ leBytes 2 a.mode.code ++ leBytes 2 (twosNat 16 a.anchor) ++ leBytes 2 cols ++
    leBytes 1 (bitsNat [a.sat, a.lost, a.nan, a.inf, a.poison]) ++ leBytes 1 0 ++ leBytes 16 0 ++ leBytes 4 seq ++ leBytes 28 0 ++
    (List.range (128 * cols)).flatMap (fun i => leBytes 16 (twosNat 128 (cell i).val)) ++
    (List.range (32 * cols)).map (fun b => BitVec.ofNat 8
      ((cell (4 * b)).cls.code + 4 * (cell (4 * b + 1)).cls.code + 16 * (cell (4 * b + 2)).cls.code +
        64 * (cell (4 * b + 3)).cls.code))

/-- The header fields of a tile record (Table 7.5). -/
structure RecHdr where
  planId : Nat
  mode : Nat
  anchor : Int
  cols : Nat
  flags : Nat
  seq : Nat
deriving DecidableEq, Repr

/-- Read the header of a tile record. -/
def readRec (l : List Byte) : RecHdr :=
  { planId := leAt l 0 8, mode := leAt l 8 2, anchor := twosInt 16 (leAt l 10 2), cols := leAt l 12 2, flags := leAt l 14 1,
    seq := leAt l 32 4 }

/-- The accumulator that entry i of a record holds. -/
def recCell (l : List Byte) (cols i : Nat) : Int × AccCls :=
  (twosInt 128 (leAt l (64 + 16 * i) 16), AccCls.ofCode (leAt l (64 + 2048 * cols + i / 4) 1 / 4 ^ (i % 4) % 4))

/-- Columns that the saves of one quadrant program declare, at most. -/
def saveCols (p : QuadProg) : Nat :=
  (p.slots.flatMap (fun e => e.2.map (fun o => match o with
    | .save c _ => c
    | _ => 0))).foldl max 0

/-- The programs of a resident plan. -/
def progsOf (c : PlanCtx) : List QuadProg := (c.src.map (fun p => p.progs)).getD []

/-- Meaning of CONTEXT_SAVE (R185, R186): the record leaves by the SAVE thread that the operation names (Table 10.2). -/
def contextSave (s : State) (q : Nat) : State :=
  match headOp s q with
  | some t =>
    match t.op with
    | .save cols th =>
      let x := quadAt s q
      if x.swapDue ∨ x.shadowBusy then s
      else
        let a := activeSet x
        let c := ctxAt s t.ctx
        let last := match vget x.saved t.ctx none with
          | some k => k.seq
          | none => 0
        let seq := if (last + 1) % 2 ^ 32 = 0 then 1 else (last + 1) % 2 ^ 32
        let s := handOut s q th (recBytes c.planId a cols seq)
        let k : SavedCtx := { planId := c.planId, mode := a.mode, anchor := a.anchor, cols := cols, seq := seq, scale := a.scale,
                              scaleMix := a.scaleMix }
        let s := onQuad s q (fun x =>
          { x with saved := vput x.saved t.ctx (some k), arrSaves := satAdd 16 x.arrSaves 1 })
        popOp s q
    | _ => s
  | none => s

/-- CONTEXT_SAVE (R186). -/
def execContextSave (q : Quad) (s : State) : Host.Outcome State Fault Refusal := .next (contextSave s q.val)

/-- The set that a matching RESTORE loads (R187), with the SCALE values that fed the tile before its SAVE (R209, log 118). -/
def restored (l : List Byte) (h : RecHdr) (k : SavedCtx) (t : Todo) (poison : Bool) : AccSet :=
  let m := k.mode
  let hi : Int := 2 ^ (accBits m - 1) - 1
  let fl (k : Nat) : Bool := decide (h.flags / 2 ^ k % 2 = 1)
  let cells := (List.range (128 * h.cols)).foldl (fun (c : SMap AccCell) i =>
    let e := recCell l h.cols i
    SMap.putAt c (512 * (i / h.cols) + i % h.cols)
      { val := e.1, cls := e.2, sat := fl 0 && (e.1 == hi || e.1 == -hi - 1), lost := false } AccCell.zero) []
  { AccSet.init with cells := cells, mode := m, anchor := h.anchor, sat := fl 0, lost := fl 1, nan := fl 2, inf := fl 3,
                     poison := fl 4 || poison, opened := true, ctx := t.ctx, adm := t.adm, rows := h.cols, scale := k.scale,
                     scaleMix := k.scaleMix }

/-- The pass that follows a RESTORE at the front of the queue: the context's next one there, or the first of its program (log 117). -/
def nextPass (s : State) (q c : Nat) : Option PassDesc :=
  let ops := ((quadAt s q).todo.filter (fun t => t.ctx == c)).map (fun t => t.op) ++
    ((progsOf (ctxAt s c)).filter (fun p => p.quad.val == q)).flatMap (fun p => p.slots.flatMap (fun e => e.2))
  (ops.filterMap (fun o => match o with
    | .pass d => some d
    | _ => none)).head?

/-- The mode and anchor that a RESTORE expects (R187): those last saved, and before any SAVE those of the tile's next pass. -/
def expected (s : State) (q c : Nat) : AccMode × Int :=
  match vget (quadAt s q).saved c none with
  | some k => (k.mode, k.anchor)
  | none =>
    match nextPass s q c with
    | some d => let m := declaredMode (wHdr (tileView s c d.tile)) d; (m, anchorOf m d)
    | none => (.int, 0)

/-- A RESTORE that matches nothing saved (R187): the set is cleared, in the mode and anchor expected, and poisoned. -/
def mismatch (s : State) (q : Nat) (t : Todo) : State :=
  let e := expected s q t.ctx
  raise (onQuad (onActive s q (fun _ => { AccSet.init with mode := e.1, anchor := e.2, poison := true, opened := true, ctx := t.ctx,
                                                           adm := t.adm })) q (fun x => { x with arrCtxErr := true })) 0x0503 .major 0

/-- Meaning of CONTEXT_RESTORE (R187), once the SAVE thread that it names has brought the record (Table 10.2, R238). -/
def contextRestore (s : State) (q : Nat) : State :=
  match headOp s q with
  | some t =>
    match t.op with
    | .restore cols th =>
      let x := quadAt s q
      match x.swapDue, x.raw.find th with
      | true, _ => s
      | _, none => s
      | _, some raw =>
        let c := ctxAt s t.ctx
        let l := padTo (recLen cols) raw.1
        let h := readRec l
        let s := onQuad s q (fun x => { x with raw := x.raw.eraseAt th, arrRestores := satAdd 16 x.arrRestores 1 })
        let s :=
          match vget x.saved t.ctx none with
          | some k =>
            if h.planId = k.planId ∧ k.planId = c.planId ∧ h.mode = k.mode.code ∧ h.anchor = k.anchor ∧ h.cols = k.cols ∧ cols = k.cols ∧
                h.seq = k.seq then
              onActive s q (fun _ => restored l h k t raw.2)
            else mismatch s q t
          | none => mismatch s q t
        popOp s q
    | _ => s
  | none => s

/-- CONTEXT_RESTORE (R187). -/
def execContextRestore (q : Quad) (s : State) : Host.Outcome State Fault Refusal := .next (contextRestore s q.val)

/-- A received record is added entry by entry into the active set (R204): values first as terms of weight bit 0, then classes,
and the flags are ORed in. -/
def addRecord (l : List Byte) (h : RecHdr) (a : AccSet) : AccRun :=
  let u := unitExp a.mode a.anchor
  let r := (List.range (128 * h.cols)).foldl (fun (r : AccRun) i =>
    let e := recCell l h.cols i
    setAdd r (512 * (i / h.cols) + i % h.cols) e.2 e.1 u) { set := { a with rows := max a.rows h.cols }, under := 0, satx := 0, lost := false }
  let fl (k : Nat) : Bool := decide (h.flags / 2 ^ k % 2 = 1)
  { r with set := { r.set with sat := r.set.sat || fl 0, lost := r.set.lost || fl 1, nan := r.set.nan || fl 2, inf := r.set.inf || fl 3,
                               poison := r.set.poison || fl 4 } }

/-- A received record may be added (R186): the inbound LINKS entry that brings it, if a LINKS entry does, is complete with the
flits of this batch's instance (log 120). -/
def recordHere (s : State) (t : Todo) (addr : Nat) : Bool :=
  match (ctxAt s t.ctx).links.find? (fun e => e.inbound && e.kind == 1 && e.dest == addr) with
  | none => true
  | some e => e.complete && e.inst == batchN s t.ctx t.adm % 65536

/-- Meaning of TILE_RECORD_ADD (R186, R204), once the SAVE thread that it names has brought the record (Table 10.2, R238). -/
def tileRecordAdd (s : State) (q : Nat) : State :=
  match headOp s q with
  | some t =>
    match t.op with
    | .recordAdd addr cols th =>
      let x := quadAt s q
      match x.swapDue || !recordHere s t addr, x.raw.find th with
      | true, _ => s
      | _, none => s
      | _, some raw =>
        let l := padTo (recLen cols) raw.1
        let h := readRec l
        let set := activeSet x
        let s :=
          if h.mode = set.mode.code ∧ h.anchor = set.anchor ∧ h.cols = cols then
            let r := addRecord l h set
            let s := onActive s q (fun _ => { r.set with poison := r.set.poison || raw.2 })
            onQuad s q (fun x => { x with arrUnder := satAdd 32 x.arrUnder r.under, arrSatx := satAdd 32 x.arrSatx r.satx,
                                          arrSat := x.arrSat || decide (r.satx ≠ 0), arrLost := x.arrLost || r.lost })
          else
            raise (onQuad (onActive s q (fun y => { y with poison := true })) q (fun x => { x with fusRecord := true, fusCode := 5 }))
              0x0606 .major 0
        popOp (onQuad s q (fun x => { x with raw := x.raw.eraseAt th })) q
    | _ => s
  | none => s

/-- TILE_RECORD_ADD (R204). -/
def execTileRecordAdd (q : Quad) (s : State) : Host.Outcome State Fault Refusal := .next (tileRecordAdd s q.val)

end Sys2Proof.Machine
end

