-- ==== Sys2Proof/Machine/Fused.lean ====
section
/-! DEFINITION. The fused chains on the way out (chapter 8): stages and rounding (R194 to R197), keep-K (R198), quantisation and
the scale header (R200 to R202), the output tile (R192), and the faults of a chain (R208 to R210). -/

namespace Sys2Proof.Machine

open Sys2Proof

/-- A value is below zero. -/
def fBelow0 : FNum → Bool
  | .inf s => s
  | .fin s m _ => s && m != 0
  | .nan => false

/-- The activation functions (R194, R195): 0 ReLU, 1 GELU-tanh, 2 SiLU, 3 sigmoid, 4 softplus; 5 is the exp of R212. -/
def actFn (fn : Nat) (v : FNum) : FNum :=
  match fn, v with
  | _, .nan => .nan
  | 0, v => if fBelow0 v then fzero false else v
  | 3, .inf s => if s then fzero false else fone
  | _, .inf s => if s then fzero false else .inf false
  | fn, .fin s m e => actFinite fn s m e

/-- The stages of a chain (Table 8.2): ACT, RESID, KEEPK, QUANT, FWD, in that order. SCALE and BIAS run in every chain but FC0 and
FC10. -/
structure ChainRow where
  scaleBias : Bool
  act : Bool
  resid : Bool
  keepk : Bool
  quant : Bool
  fwd : Bool
deriving DecidableEq, Repr

/-- Table 8.2. -/
def chainRow (n : Nat) : ChainRow :=
  { scaleBias := n != 0 && n != 10, act := [2, 3, 6, 7, 8, 11].contains n, resid := [4, 5, 9].contains n,
    keepk := n == 6 || n == 8, quant := [3, 5, 6, 7, 8, 9].contains n, fwd := [7, 8, 9, 10].contains n }

/-- The intermediate format of a descriptor (R196). -/
def ifmtOf (d : StageDesc) : FFmt :=
  if d.perStage then (if d.ifmt = 1 then bf16Fmt else if d.ifmt = 2 then fp16Fmt else fp32Fmt) else xfFmt

/-- The format that QUANT or the last rounding writes. -/
def ofmtOf (d : StageDesc) : ValFmt := (ValFmt.ofCode d.ofmt).getD .fp32
/-- The rounding of an output format without QUANT (Table 8.2). -/
def outFmt : ValFmt → FFmt
  | .bf16 => bf16Fmt
  | .fp16 => fp16Fmt
  | _ => fp32Fmt

/-- An element on its way through a chain, and whether a rounding has made it infinite (R197). -/
structure Elem where
  v : FNum
  inf : Bool
deriving DecidableEq, Repr

/-- Round an element to the intermediate format; a finite value that leaves the range sets INF. -/
def Elem.to (f : FFmt) (e : Elem) (x : FNum) : Elem :=
  let r := FNum.round f x
  { v := r, inf := e.inf || (r.isInf && !x.isInf) }

/-- What the stages read beside the element: the SCALE factor and BIAS of a column, and the residual of an element. -/
structure ChainIn where
  factor : Nat → FNum
  bias : Nat → FNum
  resid : Nat → Nat → FNum

/-- The stages up to KEEPK on one element (R194, R196). -/
def stages (d : StageDesc) (inp : ChainIn) (r c : Nat) (x : FNum) : Elem :=
  let f := ifmtOf d
  let row := chainRow d.chain
  let e := Elem.to f { v := x, inf := false } x
  let e := if row.scaleBias then e.to f (FNum.mul e.v (inp.factor c)) else e
  let e := if row.scaleBias && d.biasSrc == 1 then e.to f (FNum.add e.v (inp.bias c)) else e
  let e := if row.act then e.to f (actFn d.act e.v) else e
  if row.resid then e.to f (FNum.add e.v (inp.resid r c)) else e

/-- The columns of one aligned block that KEEPK keeps (R198): the highest scores, a NaN above all, ties to the lower column. -/
def keepCols (k cols b : Nat) (score : Nat → FNum) : List Nat :=
  let cs := (List.range 16).filterMap (fun i => if 16 * b + i < cols then some (16 * b + i) else none)
  let above (x y : Nat) : Bool :=
    match score x, score y with
    | .nan, .nan => decide (x < y)
    | .nan, _ => true
    | _, .nan => false
    | a, e => FNum.absLt e a || (!FNum.absLt a e && decide (x < y))
  cs.filter (fun x => decide ((cs.filter (fun y => above y x)).length < k))

/-- The largest |v| of a column; a NaN wins (R198). -/
def colScore (l : List FNum) : FNum :=
  l.foldl (fun m v => if m.isNan then m else if v.isNan then .nan else if FNum.absLt m v then v else m) (fzero false)

/-- QMAX of an output format (R200). -/
def qmax : ValFmt → Nat
  | .e4m3 => 448
  | .e5m2 => 57344
  | .int8 => 127
  | .int4 => 7
  | _ => 1

/-- QUANT of one element by a finite positive scale ms × 2^es (R200): the code, and whether it was clamped. -/
def quantElem (f : ValFmt) (ms : Nat) (es : Int) (v : FNum) : Nat × Bool :=
  let lim (s : Bool) : Nat := encodeVal f (.fin s (qmax f) 0)
  match v with
  | .nan => (match f with
    | .int8 => 0
    | .int4 => 0
    | _ => encodeVal f .nan, false)
  | .inf s => (lim s, true)
  | .fin s m e =>
    if magLt (qmax f * ms) es m e then (lim s, true)
    else
      match f with
      | .int8 => (twosNat 8 (ofIntExp (let k := roundAtStep m ms (e - es) 0; if s then -(k : Int) else (k : Int)) 0).toInt, false)
      | .int4 => (twosNat 4 (ofIntExp (let k := roundAtStep m ms (e - es) 0; if s then -(k : Int) else (k : Int)) 0).toInt, false)
      | .e4m3 => (encodeVal f (roundTo e4m3Fmt s m ms (e - es)), false)
      | _ => (encodeVal f (roundTo e5m2Fmt s m ms (e - es)), false)

/-- Numerator, denominator and exponent of a finite FP32 code. -/
def fp32Parts (code : Nat) : Nat × Int :=
  match fp32Of code with
  | .fin _ m e => (m, e)
  | _ => (0, 0)

/-- The candidate scale of a tile as an FP32 code (R201), from AMAX = m × 2^e. -/
def candidate (d : StageDesc) (m : Nat) (e : Int) : Option Nat :=
  let g := fp32Parts d.amaxGain
  let a := m * g.1
  let q := qmax (ofmtOf d)
  if a = 0 then none
  else if d.qmode % 2 = 0 then
    let k := max (-127) (min 127 (ceilLog2Rat a q + e + g.2))
    some (fp32Code (.fin false 1 k))
  else some (fp32Code (roundUpFp32 a q (e + g.2)))

/-- The scale state of a chain stream before its first tile (R202). -/
def chainInit (d : StageDesc) : ChainSt := { inForce := d.initScale, downRun := 0, runMax := 0 }

/-- The hysteresis rule of R202 on one tile. -/
def hyst (d : StageDesc) (poisoned : Bool) (cand : Option Nat) (c : ChainSt) : ChainSt :=
  match cand with
  | none => c
  | some k =>
    if poisoned then c
    else if d.hyst = 0 then { c with inForce := k, downRun := 0 }
    else if c.inForce < k then { c with inForce := k, downRun := 0 }
    else if k = c.inForce then { c with downRun := 0 }
    else
      let m := if c.downRun = 0 then k else max c.runMax k
      if c.downRun + 1 = d.hyst then { inForce := m, downRun := 0, runMax := m }
      else { c with downRun := c.downRun + 1, runMax := m }

/-- The E8M0 code of a scale (R201): a scale that is no power of two takes the power of two at or above it (log 31). -/
def blockCode (scale : Nat) : Nat :=
  let p := fp32Parts scale
  if p.1 = 0 then 0 else (max 0 (min 254 (ceilLog2Rat p.1 1 + p.2 + 127))).toNat

/-- A run of FP32 values of the Comb at a plan address, and whether a poisoned page holds some of it (R129). -/
def combVec (s : State) (c a n : Nat) : (Nat → FNum) × Bool :=
  let v := tileView s c a
  (fun i => fp32Of (viewNat v (4 * i) 4), viewBad v 0 (4 * n))

/-- The finished tile of an epilogue. -/
structure TileOut where
  bytes : List Byte
  codes : List Nat
  poison : Bool
  qsat : Nat
  /-- The poison came in with the shadow set, the residual tile or a vector (Table 8.5, first row). -/
  inPoison : Bool
  mix : Bool
  badVec : Bool
  scale : Nat
  chain : ChainSt
  flags : Nat

/-- The value that a cell of the shadow set brings into a chain (R196), by output column (R150); a column that no weight row
produces holds zero. -/
def shadowElem (a : AccSet) (r c : Nat) : FNum :=
  match (List.range a.rows).find? (fun l => a.perm.getD l l == c) with
  | none => fzero false
  | some l =>
    let x := a.cells.getAt (512 * r + l) .zero
    match x.cls with
    | .fin => ofIntExp x.val (unitExp a.mode a.anchor)
    | .pinf => .inf false
    | .ninf => .inf true
    | .nan => .nan

/-- An element of a residual tile, multiplied by its header SCALE, and by its block scale if MX is set (R194). -/
def residElem (t : ActTile) (r c : Nat) : FNum :=
  let v := FNum.mul (decodeVal t.fmt (t.codes.getAt (r * t.kT + c) 0)) (fp32Of t.scale)
  if t.scaled then
    let k := t.scales.getAt (r * (t.kT / 32) + c / 32) 0
    if k = 0xFF then .nan else FNum.mul v (.fin false 1 ((k : Int) - 127))
  else v

/-- Everything that the epilogue of a shadow set makes (R192 to R202, R208 to R210). -/
def epilogue (s : State) (q : Nat) : TileOut :=
  let x := quadAt s q
  let a := shadowSet x
  let d := descOf s a.ctx a.desc
  let row := chainRow d.chain
  let cols := a.outCols
  let sv := combVec s a.ctx d.scaleVec cols
  let bv := combVec s a.ctx d.biasVec cols
  let inScale := if d.qmode / 128 % 2 = 1 then fp32Of (a.scale.getD 0x3F800000) else fone
  let base (c : Nat) : FNum := if d.scaleSrc = 1 then sv.1 c else if d.scaleSrc = 2 then fp32Of d.scalar else fone
  let res := a.resid.bind (fun k => x.acts.find k)
  let badVec := row.scaleBias && ((d.scaleSrc == 1 && sv.2) || (d.biasSrc == 1 && bv.2))
  let mix := row.scaleBias && decide (d.qmode / 128 % 2 = 1) && a.scaleMix
  let residBad := row.resid && (match res with
    | none => true
    | some t => t.poison || t.kT != cols)
  let inPoison := a.poison || badVec || residBad
  let poison := inPoison || mix
  let inp : ChainIn :=
    { factor := fun c => FNum.mul (base c) inScale, bias := bv.1,
      resid := fun r c => match res with
        | none => fzero false
        | some t => if t.kT = cols then residElem t r c else fzero false }
  let el := (List.range (128 * cols)).map (fun i => stages d inp (i / cols) (i % cols) (shadowElem a (i / cols) (i % cols)))
  let kept := if row.keepk then (List.range (cols / 16)).flatMap (fun b =>
      keepCols d.keepK cols b (fun c => colScore ((List.range 128).map (fun r => (el.getD (r * cols + c) ⟨.nan, false⟩).v)))) else []
  let el := if row.keepk then el.zipIdx.map (fun e => if kept.contains (e.2 % cols) then e.1 else { e.1 with v := fzero false }) else el
  let cand := if a.nan || a.inf then none else candidate d x.amaxM x.amaxE
  let st0 := x.chains.getAt (256 * a.ctx + a.desc) (chainInit d)
  let st := if row.quant then hyst d poison cand st0 else st0
  let scale := if row.quant then st.inForce else 0x3F800000
  let sp := fp32Parts scale
  let ofm := ofmtOf d
  let out : List (Nat × Bool × Bool) :=
    if row.quant then el.map (fun e =>
      let k := match fp32Of scale with
        | .inf _ => if e.v.isNan || e.v.isInf then quantElem ofm 1 0 e.v else (encodeVal ofm (fzero e.v.isNeg), false)
        | _ => quantElem ofm sp.1 sp.2 e.v
      (k.1, k.2, e.inf || e.v.isInf))
    else el.map (fun e =>
      let r := FNum.round (outFmt ofm) e.v
      (encodeVal ofm r, false, e.inf || r.isInf))
  let qsat := (out.filter (fun o => o.2.1)).length
  let mx := row.quant && d.qmode % 2 == 0
  let nan := a.nan || el.any (fun e => e.v.isNan)
  let inf := a.inf || out.any (fun o => o.2.2)
  let flags := bitsNat [a.sat, a.lost, nan, inf, poison, decide (qsat ≠ 0), mx]
  let hdr : TileHdr := { ofmt := d.ofmt, flags := flags, rows := 128, cols := cols, scale := scale, amax := x.arrAmax,
                         seq := a.tileSeq, planId := (ctxAt s a.ctx).planId }
  let codes := out.map (fun o => o.1)
  let bytes := if d.chain = 10 then recBytes (ctxAt s a.ctx).planId a cols 0
    else tileHdrBytes hdr ++ packCodes ofm codes ++
      (if mx then List.replicate (128 * cols / 32) (BitVec.ofNat 8 (blockCode scale)) else [])
  { bytes := bytes, codes := codes, poison := poison, inPoison := inPoison, qsat := qsat, mix := mix, badVec := badVec, scale := scale, chain := st,
    flags := flags }

/-- The outbound LINKS entry that carries a forward: a tile, or in FC10 a record, to the peer of rank FWD_RANK through port
FWD_PORT (R203, R288). It is the one that the program names where that fits, and otherwise the first that does (log 119). -/
def fwdLink (c : PlanCtx) (link : Nat) (d : StageDesc) : Nat :=
  let fits (e : LinkEnt) : Bool := !e.inbound && e.kind == bit1 (d.chain == 10) && e.port == d.fwdPort && e.peer == d.fwdRank
  if (c.links[link]?).any fits then link else (c.links.findIdx? fits).getD c.links.length

/-- What the chain does with its finished tile (R193, R203): to the stream engine, to a peer, or to the OUT thread. -/
def tileAway (s : State) (q : Nat) (a : AccSet) (d : StageDesc) (o : TileOut) : State :=
  let out (s : State) : State := match a.out with
    | some i => handOut s q i o.bytes
    | none => s
  if d.chain = 11 then
    onQuad s q (fun x =>
      if x.fc11Skip.contains (a.ctx, a.adm) then { x with fc11Skip := x.fc11Skip.erase (a.ctx, a.adm) }
      else if x.stopped.contains (a.ctx, a.adm) then x
      else { x with fc11 := x.fc11 ++ [{ codes := o.codes, poison := o.poison, ctx := a.ctx, adm := a.adm }] })
  else if (chainRow d.chain).fwd then
    let s := onQuad s q (fun x =>
      { x with fwds := x.fwds ++ [{ ctx := a.ctx, adm := a.adm, entry := fwdLink (ctxAt s a.ctx) a.link d, port := d.fwdPort, bytes := o.bytes, sent := 0,
                                    inst := batchN s a.ctx a.adm, born := 128 * s.beat.num + s.beat.slot }] })
    if d.fwdPayload / 2 % 2 = 1 then out s else s
  else out s

/-- The chain may finish: its residual tile, if it has one, is in the buffer (R194). -/
def residReady (x : QuadSt) (d : StageDesc) (a : AccSet) : Bool :=
  !(chainRow d.chain).resid || (match a.resid with
    | none => true
    | some k => (x.acts.find k).isSome)

/-- The chain may hand over its output: the OUT thread that carries it has missed no deadline with earlier output (R239). -/
def outReady (s : State) (q : Nat) (a : AccSet) : Bool :=
  match a.out with
  | none => true
  | some i => (threadAt s (32 * q + i)).run != .late || (threadAt s (32 * q + i)).data.length == (threadAt s (32 * q + i)).done

/-- Meaning of EPILOGUE_COMPLETE (R207, R239). -/
def epilogueComplete (s : State) (q : Nat) : State :=
  let x := quadAt s q
  let a := shadowSet x
  let d := descOf s a.ctx a.desc
  if quadUp s q = true ∧ coreRuns s = true ∧ x.shadowBusy = true ∧ residReady x d a = true ∧ outReady s q a = true then
    let o := epilogue s q
    let row := chainRow d.chain
    let s := onQuad s q (fun x =>
      { x with shadowBusy := false, fusBusy := false, fusTiles := satAdd 32 x.fusTiles 1, fusQsatx := satAdd 32 x.fusQsatx o.qsat,
               fusScale := o.scale, fusPoisonx := satAdd 32 x.fusPoisonx (bit1 o.poison), fusPoisonOut := x.fusPoisonOut || o.poison,
               fusMix := x.fusMix || o.mix, fusCode := if o.badVec then 4 else if o.mix then 1 else x.fusCode,
               chains := if row.quant then x.chains.insertAt (256 * a.ctx + a.desc) o.chain else x.chains,
               fusHystDesc := if row.quant then a.desc else x.fusHystDesc,
               fusDownRun := if row.quant then o.chain.downRun else x.fusDownRun })
    let s := if row.scaleBias ∧ d.scaleSrc = 1 then poisonReads s a.ctx d.scaleVec (4 * a.outCols) else s
    let s := if row.scaleBias ∧ d.biasSrc = 1 then poisonReads s a.ctx d.biasVec (4 * a.outCols) else s
    let s := if o.mix then raise s 0x0602 .major 0 else s
    let s := if o.inPoison then raise s 0x0601 .minor 0 else s
    let s := if o.poison then poisonInst s a.ctx a.adm (if o.inPoison then 0x0601 else 0x0602) else s
    let s := if o.qsat ≠ 0 then raise s 0x0605 .minor 0 else s
    tileAway s q a d o
  else s

/-- EPILOGUE_COMPLETE (R207). -/
def execEpilogueComplete (q : Quad) (s : State) : Host.Outcome State Fault Refusal := .next (epilogueComplete s q.val)

end Sys2Proof.Machine
end

