-- ==== Sys2Proof/Machine/Streams.lean ====
section
/-! DEFINITION. State-carrying streams (chapter 9): the phases of a chunk (R218, R219, R221, R222), the state area in FP32 and BE40
(R216, R217, R223, R224), and the stream table's states (R225 to R227). -/

namespace Sys2Proof.Machine

open Sys2Proof

/-- N of a stream (R213). -/
def StreamEnt.n (e : StreamEnt) : Nat := 2 ^ e.nLog2
/-- D of a stream (R213). -/
def StreamEnt.d (e : StreamEnt) : Nat := e.g * e.n
/-- PREC: the state is BE40 (Table 9.1). -/
def StreamEnt.be40 (e : StreamEnt) : Bool := decide (e.mode % 2 = 1)
/-- GATE_PATH: fused (Table 9.1). -/
def StreamEnt.fused (e : StreamEnt) : Bool := decide (e.mode / 2 % 2 = 1)
/-- The gate function as a function of the table file: softplus, or sigmoid (R212). -/
def StreamEnt.deltaFn (e : StreamEnt) : Nat := if e.mode / 4 % 2 = 1 then 3 else 4
/-- B_MODE (Table 9.1). -/
def StreamEnt.bMode (e : StreamEnt) : Bool := decide (e.mode / 8 % 2 = 1)
/-- OUT_FMT (Table 9.1). -/
def StreamEnt.outFmt (e : StreamEnt) : ValFmt := if e.mode / 16 % 2 = 1 then .bf16 else .fp32
/-- Bytes of one copy of the state (R216). -/
def StreamEnt.copyLen (e : StreamEnt) : Nat := if e.be40 then 336 * e.d / 64 else 4 * e.d
/-- External memory address of a copy of the state: 0 or 1 (R216). -/
def StreamEnt.copyAt (e : StreamEnt) (one : Bool) : Nat := if one then e.ptr + e.copyLen else e.ptr

/-- The chunk of an operation: its physical stream entry (R214). -/
def chunkStream (s : State) (t : Todo) (d : ChunkDesc) : Nat := (ctxAt s t.ctx).rcsBase + d.stream

/-- The operation at the front names a phase of a chunk of a stream that runs. -/
def chunkOp (s : State) (q : Nat) (ph : ChunkPhase) : Option (Todo × ChunkDesc) :=
  match headOp s q with
  | some t =>
    match t.op with
    | .chunk d => if d.phase = ph then some (t, d) else none
    | _ => none
  | none => none

/-- The chunk in the scan buffer, when it is the one of an operation. -/
def chunkRunOf (s : State) (q : Nat) (i : Nat) : Option ChunkRun :=
  match (quadAt s q).chunk with
  | some r => if r.stream = i then some r else none
  | none => none

/-- A code of a table of FP32 values. -/
def codeVal (m : SMap Nat) (i : Nat) : FNum := fp32Of (m.getAt i 0)

/-- The stream entry takes POISON (R226). -/
def streamPoison (s : State) (q i : Nat) : State :=
  raise (onQuad (onStream s i (fun e => { e with poison := true })) q (fun x => { x with rcsPoison := true })) 0x0704 .minor 0

/-- A state element becomes non-finite (R227). -/
def streamNonfin (s : State) (q i : Nat) : State :=
  raise (onQuad (onStream s i (fun e => { e with nonfin := true })) q (fun x => { x with rcsNonfin := true })) 0x0702 .minor 0

/-- FC11 tiles that one chunk of the fused path takes (R220). -/
def chunkTiles (e : StreamEnt) : Nat := ceilDiv e.len 128

/-- Δ of every step and group (R212, R220): from z, or as FC11 delivers it. -/
def chunkDelta (e : StreamEnt) (inp : Nat → FNum) (fc : List FcTile) (t g : Nat) : FNum :=
  if e.fused then fp32Of (((fc[t / 128]?).elim [] (fun x => x.codes)).getD (t % 128 * e.g + g) 0)
  else FNum.round fp32Fmt (actFn e.deltaFn (inp (t * e.g + g)))

/-- Meaning of CHUNK_GATE (R218, R219, R221, R225, R226). -/
def chunkGate (s : State) (q : Nat) : State :=
  match chunkOp s q .gate with
  | none => s
  | some (t, d) =>
    let i := chunkStream s t d
    let e := streamAt s i
    let x := quadAt s q
    match x.raw.find d.inThread with
    | none => s
    | some raw =>
      if arrayMay s = false ∨ x.chunk.isSome ∨ !e.action.isEmpty ∨ ¬ (e.st = .idle ∨ e.st = .running) ∨ 
          (e.fused = true ∧ (splitTiles t.ctx t.adm (chunkTiles e) x.fc11).1.length < chunkTiles e) then s
      else
        let L := e.len
        let D := e.d
        let zl := if e.fused then 0 else L * e.g
        let words := (List.range (zl + L * e.g + 2 * L * e.n)).map (fun k => leAt raw.1 (32 + 4 * k) 4)
        let inp (k : Nat) : FNum := fp32Of (words.getD k 0)
        let fs := splitTiles t.ctx t.adm (if e.fused then chunkTiles e else 0) x.fc11
        let fc := fs.1
        let lam := combVec s t.ctx e.lambda D
        let xv (t g : Nat) : FNum := inp (zl + t * e.g + g)
        let bv (t n : Nat) : FNum := inp (zl + L * e.g + t * e.n + n)
        let a := tabulate (L * D) (fun k =>
          let g := k % D / e.n
          fp32Code (FNum.round fp32Fmt (actFn 5 (mul32 (chunkDelta e inp fc (k / D) g) (lam.1 (k % D))))))
        let u := tabulate (L * D) (fun k =>
          let g := k % D / e.n
          let n := k % e.n
          let b := if e.bMode then bv (k / D) n else mul32 (chunkDelta e inp fc (k / D) g) (bv (k / D) n)
          fp32Code (mul32 b (xv (k / D) g)))
        let poison := raw.2 || decide (leAt raw.1 1 1 / 16 % 2 = 1) || fc.any (fun f => f.poison) || lam.2 || x.lamPoison
        let s := onStream s i (fun e => { e with st := .running })
        let s := onQuad s q (fun x =>
          { x with chunk := some { stream := i, level := 0, phase := .gate, a := a, u := u, h := [], h0 := [], exact := [],
                                   zeroStart := e.reset || d.seqStart, poison := poison, input := words, out := d.out, ctx := t.ctx,
                                   adm := t.adm },
                   fc11 := fs.2, lamPoison := false, raw := x.raw.eraseAt d.inThread })
        let s := if lam.2 then poisonReads s t.ctx e.lambda (4 * D) else s
        popOp (if poison then streamPoison s q i else s) q

/-- CHUNK_GATE (R221). -/
def execChunkGate (q : Quad) (s : State) : Host.Outcome State Fault Refusal := .next (chunkGate s q.val)

/-- One level of the prefix scan at distance dist (R221): every step reads the values of the level before. -/
def scanLevel (L D dist : Nat) (r : ChunkRun) : ChunkRun :=
  let a := tabulate (L * D) (fun k =>
    if k / D < dist then r.a.getAt k 0 else fp32Code (mul32 (codeVal r.a k) (codeVal r.a (k - dist * D))))
  let u := tabulate (L * D) (fun k =>
    if k / D < dist then r.u.getAt k 0 else fp32Code (fma32 (codeVal r.a k) (codeVal r.u (k - dist * D)) (codeVal r.u k)))
  { r with a := a, u := u }

/-- Meaning of CHUNK_LEVEL (R221). -/
def chunkLevel (s : State) (q : Nat) : State :=
  match headOp s q with
  | some t =>
    match t.op with
    | .chunk d =>
      match d.phase, chunkRunOf s q (chunkStream s t d) with
      | .level j, some r =>
        let e := streamAt s r.stream
        if j = 0 ∨ e.len ≤ 2 ^ (j - 1) then popOp s q
        else
          let r := scanLevel e.len e.d (2 ^ (j - 1)) r
          popOp (onQuad s q (fun x => { x with chunk := some { r with level := j, phase := .level j } })) q
      | _, _ => s
    | _ => s
  | none => s

/-- CHUNK_LEVEL (R221). -/
def execChunkLevel (q : Quad) (s : State) : Host.Outcome State Fault Refusal := .next (chunkLevel s q.val)

/-- Exponent E of a BE40 block, and significand i (Table 9.2). -/
def be40At (l : List Byte) (i : Nat) : Int × Int :=
  (twosInt 16 (leAt l (336 * (i / 64)) 2), twosInt 40 (leAt l (336 * (i / 64) + 16 + 5 * (i % 64)) 5))

/-- Element i of a BE40 state as an exact value (Table 9.2). -/
def be40Val (l : List Byte) (i : Nat) : FNum :=
  let p := be40At l i
  if p.1 = 0x7FFF then .nan else ofIntExp p.2 (p.1 - 38)

/-- h_0 of every element as the chunk reads it (R221). -/
def loadState (s : State) (e : StreamEnt) : Nat → FNum :=
  let l := xmRead s (e.copyAt e.cur) e.copyLen
  fun i => if e.be40 then be40Val l i else fp32Of (leAt l (4 * i) 4)

/-- Meaning of CHUNK_LOAD (R216, R221): skipped under RESET and at a SEQ_START. -/
def chunkLoad (s : State) (q : Nat) : State :=
  match chunkOp s q .load with
  | none => s
  | some (t, d) =>
    match chunkRunOf s q (chunkStream s t d) with
    | none => s
    | some r =>
      let e := streamAt s r.stream
      if r.zeroStart then popOp (onQuad s q (fun x => { x with chunk := some { r with phase := .load, level := 0 } })) q
      else
        let h := loadState s e
        let r := { r with phase := .load, level := 0, h0 := tabulate e.d (fun i => fp32Code (FNum.round fp32Fmt (h i))) }
        let s := onQuad s q (fun x => { x with chunk := some r })
        popOp (if xmPoisoned s (e.copyAt e.cur) e.copyLen then streamPoison s q r.stream else s) q

/-- CHUNK_LOAD (R221). -/
def execChunkLoad (q : Quad) (s : State) : Host.Outcome State Fault Refusal := .next (chunkLoad s q.val)

/-- A code of a table of FP32 values is an infinity or a NaN. -/
def nonfinAt (m : SMap Nat) (i : Nat) : Bool := (codeVal m i).isNan || (codeVal m i).isInf

/-- Some state element becomes an infinity or a NaN in a chunk (R227): it is one at a step, and was none at the step before. -/
def becomes (e : StreamEnt) (r : ChunkRun) (h : SMap Nat) : Bool :=
  (List.range (e.len * e.d)).any (fun k =>
    nonfinAt h k && !(if k < e.d then !r.zeroStart && nonfinAt r.h0 k else nonfinAt h (k - e.d)))

/-- Meaning of CHUNK_EXPAND (R221, R227). -/
def chunkExpand (s : State) (q : Nat) : State :=
  match chunkOp s q .expand with
  | none => s
  | some (t, d) =>
    match chunkRunOf s q (chunkStream s t d) with
    | none => s
    | some r =>
      let e := streamAt s r.stream
      let h := tabulate (e.len * e.d) (fun k =>
        fp32Code (fma32 (codeVal r.a k) (if r.zeroStart then fzero false else codeVal r.h0 (k % e.d)) (codeVal r.u k)))
      let s := onQuad s q (fun x => { x with chunk := some { r with phase := .expand, level := 0, h := h } })
      popOp (if becomes e r h then streamNonfin s q r.stream else s) q

/-- CHUNK_EXPAND (R221). -/
def execChunkExpand (q : Quad) (s : State) : Host.Outcome State Fault Refusal := .next (chunkExpand s q.val)

/-- One level of the balanced pairwise tree of R222. -/
def pairUp : List FNum → List FNum
  | a :: b :: r => add32 a b :: pairUp r
  | l => l

/-- The balanced pairwise sum of 2^n values (R222). -/
def treeSum : Nat → List FNum → FNum
  | 0, l => l.headD (fzero false)
  | n + 1, l => treeSum n (pairUp l)

/-- y_t[g] in OUT_FMT (R222). -/
def readout (e : StreamEnt) (r : ChunkRun) (t g : Nat) : FNum :=
  let c0 := (if e.fused then 0 else e.len * e.g) + e.len * e.g + e.len * e.n
  let prods := (List.range e.n).map (fun n =>
    mul32 (fp32Of (r.input.getD (c0 + t * e.n + n) 0)) (codeVal r.h (t * e.d + g * e.n + n)))
  FNum.round (outFmt e.outFmt) (treeSum e.nLog2 prods)

/-- The y tile k of a chunk (R222, R226, R227). The spec gives no AMAX or TILE_SEQ of a y tile: both are free values (log 32). -/
def yTile (s : State) (e : StreamEnt) (r : ChunkRun) (k : Nat) : List Byte × State :=
  let f1 := takeFree s 32
  let f2 := takeFree f1.2 32
  let vals := (List.range (128 * e.g)).map (fun i =>
    if 128 * k + i / e.g < e.len then readout e r (128 * k + i / e.g) (i % e.g) else fzero false)
  let flags := bitsNat [false, false, vals.any FNum.isNan, vals.any FNum.isInf, e.poison]
  let h : TileHdr := { ofmt := e.outFmt.code, flags := flags, rows := 128, cols := e.g, scale := 0x3F800000, amax := f1.1.toNat,
                       seq := f2.1.toNat, planId := (ctxAt s r.ctx).planId }
  (tileHdrBytes h ++ packCodes e.outFmt (vals.map (encodeVal e.outFmt)), f2.2)

/-- The bytes of every y tile of a chunk, first tile first (R222). -/
def yTiles (s : State) (e : StreamEnt) (r : ChunkRun) : List Byte × State :=
  (List.range (chunkTiles e)).foldl (fun (p : List Byte × State) k =>
    let y := yTile p.2 e r k
    (p.1 ++ y.1, y.2)) ([], s)

/-- Meaning of CHUNK_READOUT (R222, R226). -/
def chunkReadout (s : State) (q : Nat) : State :=
  match chunkOp s q .readout with
  | none => s
  | some (t, d) =>
    match chunkRunOf s q (chunkStream s t d) with
    | none => s
    | some r =>
      let e := streamAt s r.stream
      let w := yTiles s e r
      let s := onQuad w.2 q (fun x => { x with chunk := some { r with phase := .readout, level := 0 } })
      let s := match r.out with
        | some o => handOut s q o w.1
        | none => s
      popOp (if e.poison then poisonInst s t.ctx t.adm 0x0704 else s) q

/-- CHUNK_READOUT (R222). -/
def execChunkReadout (q : Quad) (s : State) : Host.Outcome State Fault Refusal := .next (chunkReadout s q.val)

/-- An integer times 2^e as the nearest multiple of 2^q, ties to even. -/
def toStep (v : FNum) (q : Int) : Int :=
  match v with
  | .fin neg m e => let k := roundAtStep m 1 e q; if neg then -(k : Int) else k
  | _ => 0

/-- ⌊log2⌋ of the largest magnitude of a list of finite values; none where all are zero (R223). -/
def topLog (l : List FNum) : Option Int :=
  (l.filterMap (fun v => match v with
    | .fin _ m e => if m = 0 then none else some ((Nat.log2 m : Int) + e)
    | _ => none)).foldl (fun m x => match m with
    | none => some x
    | some y => some (max x y)) none

/-- What STORE makes of one BE40 block (R221, R223, R224, R227): E, the significands, a renormalisation under R223, an early one,
and whether the block is non-finite. -/
structure BlkOut where
  e : Int
  m : List Int
  renorm : Bool
  early : Bool
  nonfin : Bool
deriving DecidableEq, Repr

/-- The values of a block re-expressed at the exponent that R223 gives. -/
def renormAt (old : Int) (l : List FNum) : Int × List Int :=
  match topLog l with
  | none => (old, l.map (fun v => toStep v (old - 38)))
  | some k => (k + 2, l.map (fun v => toStep v (k + 2 - 38)))

/-- One block at STORE, from its exact carries, its exponent and whether renormalisation is due. -/
def storeBlock (e : Int) (due : Bool) (l : List FNum) : BlkOut :=
  if l.any (fun v => v.isNan || v.isInf) then { e := 0x7FFF, m := [], renorm := false, early := false, nonfin := true }
  else
    let m := l.map (fun v => toStep v (e - 38))
    if e = 0x7FFF ∨ m.any (fun k => decide (k < -(2 ^ 39)) || decide (2 ^ 39 ≤ k)) then
      let r := renormAt (if e = 0x7FFF then 0 else e) l
      { e := r.1, m := r.2, renorm := false, early := true, nonfin := false }
    else if due ∧ (topLog l).isSome = true then
      let r := renormAt e (m.map (fun k => ofIntExp k (e - 38)))
      { e := r.1, m := r.2, renorm := true, early := false, nonfin := false }
    else { e := e, m := m, renorm := false, early := false, nonfin := false }

/-- 64 significands that the spec leaves open, of a block stored as non-finite (R227, log 32). -/
def freeBlock (s : State) : List Byte × State :=
  forUpto 64 (fun (p : List Byte × State) _ =>
    let f := takeFree p.2 40
    (p.1 ++ leBytes 5 f.1.toNat, f.2)) ([], s)

/-- The bytes of a stored block (Table 9.2). -/
def blkBytes (s : State) (b : BlkOut) : List Byte × State :=
  let top := leBytes 2 (twosNat 16 b.e) ++ leBytes 14 0
  if b.nonfin then
    let f := freeBlock s
    (top ++ f.1, f.2)
  else (top ++ b.m.flatMap (fun k => leBytes 5 (twosNat 40 k)), s)

/-- The exact carry of element i (R221): h[L − 1] in FP32 mode, a × h_0 + u in BE40 mode. -/
def carry (e : StreamEnt) (r : ChunkRun) (h0 : Nat → FNum) (i : Nat) : FNum :=
  let k := (e.len - 1) * e.d + i
  if e.be40 then FNum.fmaExact (codeVal r.a k) (if r.zeroStart then fzero false else h0 i) (codeVal r.u k)
  else codeVal r.h k

/-- A chunk of a stream is between GATE and STORE (R225). -/
def chunkOpen (s : State) (i : Nat) : Bool :=
  s.quad.toList.any (fun x => match x.chunk with
    | some r => r.stream == i
    | none => false)

/-- Table 9.4: what an action does when it takes effect: 0 pause, 1 resume, 2 reset, 3 end. -/
def streamAct (e : StreamEnt) (a : Nat) : StreamEnt :=
  let live := e.st == .idle || e.st == .running || e.st == .paused
  if a = 0 then (if e.st = .idle ∨ e.st = .running then { e with st := .paused } else e)
  else if a = 1 then (if e.st = .paused then { e with st := .running } else e)
  else if a = 2 then (if live then { e with reset := true, seq := 0, poison := false, nonfin := false } else e)
  else if live then { e with st := .ended } else e

/-- Meaning of STREAM_CTL_APPLY (R225): at the first chunk boundary the actions that wait take effect. -/
def streamApply (s : State) (i : Nat) : State :=
  if chunkOpen s i then s
  else onStream s i (fun e => (e.action.foldl streamAct e) |> fun e => { e with action := [] })

/-- The bytes of stored BE40 blocks, in order. -/
def blksBytes (s : State) (blks : List BlkOut) : List Byte × State :=
  blks.foldl (fun (p : List Byte × State) b =>
    let y := blkBytes p.2 b
    (p.1 ++ y.1, y.2)) ([], s)

/-- Meaning of CHUNK_STORE (R217, R221, R223 to R225, R227). -/
def chunkStore (s : State) (q : Nat) : State :=
  match chunkOp s q .store with
  | none => s
  | some (t, d) =>
    match chunkRunOf s q (chunkStream s t d) with
    | none => s
    | some r =>
      let e := streamAt s r.stream
      let old := xmRead s (e.copyAt e.cur) e.copyLen
      let h0 := loadState s e
      let due := decide (e.seq % e.renorm + 1 = e.renorm)
      let blks := if e.be40 then (List.range (e.d / 64)).map (fun b =>
          storeBlock (be40At old (64 * b)).1 due ((List.range 64).map (fun i => carry e r h0 (64 * b + i)))) else []
      let w := if e.be40 then blksBytes s blks else ((List.range e.d).flatMap (fun i => leBytes 4 (fp32Code (carry e r h0 i))), s)
      let nonfin := if e.be40 then blks.any (fun b => b.nonfin) else
        (List.range e.d).any (fun i => (carry e r h0 i).isNan || (carry e r h0 i).isInf)
      let s := xmWrite w.2 (e.copyAt (!e.cur)) w.1
      let s := onStream s r.stream (fun e => { e with cur := !e.cur, seq := (e.seq + 1) % 2 ^ 32, reset := false })
      let s := onQuad s q (fun x =>
        { x with chunk := none, rcsChunks := satAdd 32 x.rcsChunks 1,
                 rcsRenorm := satAdd 32 x.rcsRenorm (blks.filter (fun b => b.renorm)).length,
                 rcsEarly := satAdd 32 x.rcsEarly (blks.filter (fun b => b.early)).length })
      popOp (streamApply (if nonfin ∧ (streamAt s r.stream).nonfin = false then streamNonfin s q r.stream else s) r.stream) q

/-- CHUNK_STORE (R217). -/
def execChunkStore (q : Quad) (s : State) : Host.Outcome State Fault Refusal := .next (chunkStore s q.val)

/-- Meaning of CHUNK_SKIP (R225): a chunk of a PAUSED or ENDED stream is skipped, and its later phases with it; the FC11 tiles meant for
it are dropped, also those that have yet to come (R220). -/
def chunkSkip (s : State) (q : Nat) : State :=
  match headOp s q with
  | some t =>
    match t.op with
    | .chunk d =>
      let i := chunkStream s t d
      let e := streamAt s i
      if d.phase = .gate ∧ (e.st = .paused ∨ e.st = .ended) then
        let n := if e.fused then chunkTiles e else 0
        let s := raise (onQuad s q (fun x =>
          let fs := splitTiles t.ctx t.adm n x.fc11
          { x with rcsSkipped := true, rcsSkipx := satAdd 32 x.rcsSkipx 1, fc11 := fs.2,
                   fc11Skip := x.fc11Skip ++ List.replicate (n - fs.1.length) (t.ctx, t.adm) })) 0x0705 .minor 0
        popOp (invalidInst s t.ctx t.adm 0x0705 false) q
      else if d.phase ≠ .gate ∧ (chunkRunOf s q i).isNone = true then popOp s q
      else s
    | _ => s
  | none => s

/-- CHUNK_SKIP (R225). -/
def execChunkSkip (q : Quad) (s : State) : Host.Outcome State Fault Refusal := .next (chunkSkip s q.val)

/-- STREAM_CTL_APPLY (R225). -/
def execStreamCtlApply (entry : Fin 256) (s : State) : Host.Outcome State Fault Refusal :=
  .next (if alive s then streamApply s entry.val else s)

end Sys2Proof.Machine
end

