-- ==== Sys2Proof/Machine/Xmem.lean ====
section
/-! DEFINITION. External memory, feeder threads and the buffer ledger (chapter 10): transfers and their tags (R236, R237), deadlines
(R238, R239), link ECC (R240), the ledger's states and rejections (R244 to R248), and ALLOC and frees of a slot program. -/

namespace Sys2Proof.Machine

open Sys2Proof

/-- The interface serves transfers: XMI is powered and has trained (R233, R249). -/
def xmUp (s : State) : Bool := alive s && s.pwr.xmi && s.xm.trained

/-- Number of channels that trained. -/
def chanCount (s : State) : Nat := popCount8 s.xm.chanOk
where
  /-- Set bits of a byte. -/
  popCount8 (n : Nat) : Nat := ((List.range 8).filter (fun i => decide (n / 2 ^ i % 2 = 1))).length

/-- Capacity in bytes (R233). -/
def xmCapacity (s : State) : Nat := chanCount s * s.fw.board.gib * 2 ^ 30

/-- The trained channels in order. -/
def channels (s : State) : List Nat := (List.range 8).filter (fun i => decide (s.xm.chanOk / 2 ^ i % 2 = 1))

/-- The channel that serves an address (R233), as its place among the trained ones. -/
def chanOf (s : State) (a : Nat) : Nat := if chanCount s = 0 then 0 else a / 256 % chanCount s

/- The ledger. -/

/-- The owner code of a plan context (Table 10.4). -/
def ctxOwner (c : Nat) : Nat := 4 + c

/-- A host-owned entry: its owner is WG0 or WG1 (Table 10.4). -/
def hostOwned (e : BlEntry) : Bool := e.owner == 1 || e.owner == 2

/-- The regions that plans hold (R234). -/
def planRuns (s : State) : List (Nat × Nat) :=
  s.cmb.ctx.toList.filterMap (fun c =>
    if c.st.resident && c.xmBytes + c.ctxBytes != 0 then some (c.xmBase, c.xmBytes + c.ctxBytes) else none)

/-- The regions that host buffers hold (R245). -/
def hostRuns (s : State) : List (Nat × Nat) :=
  s.bl.ent.filterMap (fun e => if hostOwned e.2 then some (e.2.base, e.2.len) else none)

/-- The external memory that is not Keeper's (R234). -/
def xmLimit (s : State) : Nat := xmCapacity s - 64 * 2 ^ 20

/-- The lowest aligned free run of a length below a limit that meets none of the runs given. -/
def findRun (limit align len : Nat) (used : List (Nat × Nat)) : Option Nat :=
  let starts := 0 :: used.map (fun r => roundUp align (r.1 + r.2))
  let ok := starts.filter (fun a => decide (a + len ≤ limit) && used.all (fun r => decide (a + len ≤ r.1) || decide (r.1 + r.2 ≤ a)))
  match ok with
  | [] => none
  | a :: r => some (r.foldl min a)

/-- The free bytes of the host pool (R234, XM_POOL). -/
def poolBytes (s : State) : Nat :=
  xmLimit s - ((planRuns s ++ hostRuns s).map (fun r => r.2)).sum

/-- The reference of a ledger entry (R244). -/
def refOf (i : Nat) (e : BlEntry) : Nat := e.gen * 4096 + i

/-- How the ledger judges a free (R246). -/
inductive FreeJudge where
  | ok | doubleFree | notOwner
deriving DecidableEq, Repr

/-- R246: a free succeeds only when its reference is current and its requester holds the entry, which must be OWNED. -/
def judgeFree (s : State) (ref who : Nat) : FreeJudge :=
  let e := blAt s (ref % 4096)
  if e.gen ≠ ref / 4096 % 16 then .doubleFree
  else if e.st = .owned ∧ e.holder = who then .ok
  else .notOwner

/-- A free that succeeds (Table 10.3). -/
def doFree (s : State) (ref : Nat) : State :=
  let i := ref % 4096
  let e := blAt s i
  if hostOwned e then onBl s i (fun e => { e with gen := (e.gen + 1) % 16, holder := 0, owner := 0, st := .free, base := 0, len := 0 })
  else
    let s := onCtx s (e.owner - 4) (fun c => { c with allocs := c.allocs.filter (fun r => r.1 != e.base) })
    onBl s i (fun e => { e with gen := (e.gen + 1) % 16, holder := 0, st := .pooled, base := 0, len := 0 })

/-- A rejection is counted and reported (R246). -/
def rejectFree (s : State) (ref : Nat) (j : FreeJudge) : State :=
  match j with
  | .ok => s
  | .doubleFree =>
    raise { s with bl.dfree := satAdd 32 s.bl.dfree 1, bl.lastCode := 0x41, bl.lastRef := ref } 0x0901 .minor 0
  | .notOwner =>
    raise { s with bl.nown := satAdd 32 s.bl.nown 1, bl.lastCode := 0x40, bl.lastRef := ref } 0x0902 .minor 0

/-- The first 16 bytes of SHA-256 as a number (Table 15.2). -/
def digest16 (l : List Byte) : Nat := leNat ((sha256 l).take 16)

/-- The status code of a judgement. -/
def FreeJudge.code : FreeJudge → Nat
  | .ok => 0 | .doubleFree => 0x41 | .notOwner => 0x40

/-- R247: a rejected free or ALLOC of a slot program faults the instance. -/
def ledgerFault (s : State) (c adm : Nat) : State := invalidInst (raise s 0x0903 .major 0) c adm 0x0903 true

/-- A free that a slot program issues (R246, R247). -/
def schedFree (s : State) (c adm ref : Nat) : State :=
  match judgeFree s ref (ctxOwner c) with
  | .ok => doFree s ref
  | j =>
    let s := rejectFree s ref j
    let s := jKeeper s (ctxOwner c) .operational 0x0502 j.code 0 s.beat.num (digest16 (leBytes 2 ref)) 0 0
    ledgerFault s c adm

/-- Meaning of SCHEDULE_FREE (R246, R247): the variable's reference, or that of a request slot; a variable never set names 0. -/
def scheduleFree (s : State) (q : Nat) : State :=
  match headOp s q with
  | some t =>
    match t.op with
    | .free v => popOp (schedFree s t.ctx t.adm ((quadAt s q).vars.getAt (varKey v t.ctx t.adm) 0)) q
    | .freeSlot k => popOp (schedFree s t.ctx t.adm ((batchRef s t.ctx t.adm k 0).getD 0)) q
    | _ => s
  | none => s

/-- SCHEDULE_FREE (R246). -/
def execScheduleFree (q : Quad) (s : State) : Host.Outcome State Fault Refusal := .next (scheduleFree s q.val)

/-- The lowest POOLED entry of a plan context (Table 10.3). -/
def pooledOf (s : State) (c : Nat) : Option Nat :=
  (s.bl.ent.find? (fun e => e.2.st == .pooled && e.2.owner == ctxOwner c)).map (fun e => e.1)

/-- Meaning of SCHEDULE_ALLOC (Table 10.3, R247): a POOLED entry of the plan and a region of its area. -/
def scheduleAlloc (s : State) (q : Nat) : State :=
  match headOp s q with
  | some t =>
    match t.op with
    | .alloc v bytes =>
      let c := ctxAt s t.ctx
      let len := roundUp 4096 bytes
      match pooledOf s t.ctx, findRun c.xmBytes 4096 len (c.allocs.map (fun r => (r.1 - c.xmBase, r.2))) with
      | some i, some off =>
        let base := c.xmBase + off
        let s := onBl s i (fun e => { e with holder := ctxOwner t.ctx, st := .owned, base := base, len := len })
        let s := onCtx s t.ctx (fun c => { c with allocs := c.allocs ++ [(base, len)] })
        popOp (onQuad s q (fun x => { x with vars := x.vars.putAt (varKey v t.ctx t.adm) (refOf i (blAt s i)) 0 })) q
      | _, _ => popOp (ledgerFault s t.ctx t.adm) q
    | _ => s
  | none => s

/-- SCHEDULE_ALLOC (R245). -/
def execScheduleAlloc (q : Quad) (s : State) : Host.Outcome State Fault Refusal := .next (scheduleAlloc s q.val)

/- Transfers. -/

/-- Bytes that a thread's round may move by now: a write moves what its producer has handed over, up to its byte count. -/
def roundBytes (t : Thread) : Nat := if t.d.write then min t.d.bytes t.data.length else t.d.bytes

/-- Tags that a thread holds. -/
def tagsOf (s : State) (k : Nat) : Nat := (s.xm.tags.filter (fun x => x.thread == k)).length
/-- Tags that a quadrant's threads hold. -/
def quadTags (s : State) (q : Nat) : Nat := (s.xm.tags.filter (fun x => decide (x.thread < 256) && x.thread / 32 % 4 == q)).length
/-- The thread number that stands for Keeper's own traffic (R236). -/
def keeperThread : Nat := 256

/-- A thread could issue its next transfer (R235, R236, R237). -/
def canIssue (s : State) (k : Nat) (t : Thread) : Bool :=
  (t.run == .issuing || t.run == .late) && !t.closing && decide (t.issued < roundBytes t) && decide (tagsOf s k < 64) &&
    quadUp s (k / 32) && (!s.xm.fixed || decide (quadTags s (k / 32) < vget s.xm.quota (k / 32) 0))

/-- A thread's deadline, counted in slots from beat 0 (R237). -/
def deadlineOf (t : Thread) : Nat := 128 * (t.admitBeat + t.d.deadBeat) + t.d.deadSlot

/-- The thread of the earliest deadline; ties go to the lower quadrant, then to the lower thread (R237). -/
def earliest (l : List (Nat × Thread)) : Option (Nat × Thread) :=
  l.foldl (fun m x => match m with
    | none => some x
    | some y => if deadlineOf x.2 < deadlineOf y.2 then some x else some y) none

/-- The first quadrant after the one last served, in turn, that is in a list (R237). -/
def nextInTurn (last : Nat) (l : List Nat) : Option Nat :=
  ((List.range 4).map (fun i => (last + 1 + i) % 4)).find? (fun q => l.contains q)

/-- The thread whose transfer is next (R237): by deadline among all, and under FIXED on a channel that is ready, by that channel's
turn among the quadrants whose next transfer by deadline uses it. -/
def nextThread (s : State) (ch : Nat) : Option (Nat × Thread) :=
  let can := s.xm.threads.filter (fun e => canIssue s e.1 e.2)
  if s.xm.fixed then
    let here := ((List.range 4).filterMap (fun q => earliest (can.filter (fun e => e.1 / 32 == q)))).filter
      (fun y => chanOf s (y.2.base + y.2.issued) == ch)
    match nextInTurn (vget s.xm.turn ch 3) (here.map (fun y => y.1 / 32)) with
    | none => none
    | some q => here.find? (fun y => y.1 / 32 == q)
  else earliest can

/-- The lowest free tag (R236). -/
def freeTag (s : State) : Option Nat :=
  if 1024 ≤ s.xm.tags.length then none
  else (List.range 1024).find? (fun i => s.xm.tags.all (fun t => t.tag != i))

/-- A transfer takes its tag. -/
def addTag (s : State) (x : Transfer) : State :=
  let tags := s.xm.tags ++ [x]
  { s with xm.tags := tags, xm.peak := max s.xm.peak tags.length }

/-- A transfer of Keeper's own (R236), which reads at an address: it issues only while 64 tags are free, and holds at most 16. -/
def keeperIssue (s : State) (a now : Nat) : State :=
  match freeTag s with
  | some tag =>
    if xmUp s = true ∧ s.xm.tags.length ≤ 960 ∧ tagsOf s keeperThread < 16 ∧ a < xmCapacity s then
      addTag s { tag := tag, thread := keeperThread, addr := a, len := 256 - a % 256, off := 0, write := false, t0 := now,
                 repeated := false, data := [] }
    else s
  | none => s

/-- Meaning of TRANSFER_ISSUE for the threads (R235 to R237), on a channel that is ready. -/
def transferIssue (s : State) (ch now : Nat) : State :=
  match xmUp s, nextThread s ch, freeTag s with
  | true, some (k, t), some tag =>
    let a := t.base + t.issued
    let len := min (256 - a % 256) (roundBytes t - t.issued)
    let x : Transfer := { tag := tag, thread := k, addr := a, len := len, off := t.issued, write := t.d.write, t0 := now, repeated := false,
                          data := if t.d.write then bytesAt t.data t.issued len else [] }
    let s := addTag (onThread s k (fun t => { t with issued := t.issued + len })) x
    { s with xm.turn := if s.xm.fixed then vput s.xm.turn (chanOf s a) (k / 32) else s.xm.turn }
  | _, _, _ => s

/-- TRANSFER_ISSUE (R236): a thread's next transfer on a channel, or one of Keeper's own at an address. -/
def execTransferIssue (x : XmIssue) (s : State) : Host.Outcome State Fault Refusal :=
  .next (match x.keeper with
    | some a => keeperIssue s a x.nowNs
    | none => transferIssue s x.chan.val x.nowNs)

/-- A thread has missed its deadline (R238, R239): each miss is counted once, and its event comes once per thread per beat. -/
def deadlineMiss (s : State) (k : Nat) : State :=
  let t := threadAt s k
  let s := onThread s k (fun t =>
    { t with missed := true, run := if t.run = .idle then .idle else .late, missBeat := some s.beat.num })
  let s := if t.missed then s
    else { s with xm.dlmiss := vput s.xm.dlmiss (k / 32) true, xm.dlmissCnt := satAdd 32 s.xm.dlmissCnt 1 }
  if t.missBeat = some s.beat.num then s else raise s 0x0801 .minor 0

/-- Bytes put into a run of bytes at an offset. -/
def splice (l : List Byte) (o : Nat) (b : List Byte) : List Byte := padTo o l ++ b ++ l.drop (o + b.length)

/-- A transfer's bytes have moved (R236, R238, R242): the round ends with its last byte, or for a thread of an ended instance with the
last transfer in flight (R243). -/
def moved (s : State) (k len : Nat) : State :=
  let s := onThread s k (fun t => { t with done := t.done + len })
  let t := threadAt s k
  if t.closing then (if tagsOf s k = 0 then threadEnded s k else s)
  else if t.d.bytes ≤ t.done then
    let s := if feedLate s t.admitBeat t.d then deadlineMiss s k else s
    threadEnded (if t.d.write then s else deliver s k) k
  else s

/-- Meaning of READ_TRANSFER_COMPLETE (R236, R238, R240, XM_LAT). ecc: 0 none, 1 corrected, 2 uncorrectable. -/
def readComplete (s : State) (tag ecc now : Nat) : State :=
  match s.xm.tags.find? (fun x => x.tag == tag && !x.write) with
  | none => s
  | some x =>
    if ¬ xmUp s then s
    else
      let bad := ecc == 2 || xmPoisoned s x.addr x.len
      let data := xmRead s x.addr x.len
      let lat := now - x.t0
      let s := { s with xm.tags := s.xm.tags.filter (fun y => y.tag != tag), xm.latSum := s.xm.latSum + lat,
                        xm.latCnt := s.xm.latCnt + 1, xm.latTop := max s.xm.latTop lat,
                        xm.eccCe := satAdd 16 s.xm.eccCe (if ecc = 1 then 1 else 0),
                        xm.eccUe := satAdd 16 s.xm.eccUe (if ecc = 2 then 1 else 0) }
      let t := threadAt s x.thread
      let s := if ecc = 2 then raise s 0x0802 .major 0 else s
      if t.run = .idle then s
      else
        let s := if bad then poisonInst s t.ctx t.admitBeat 0x0802 else s
        let s := onThread s x.thread (fun t => { t with data := splice t.data x.off data, poison := t.poison || bad })
        moved s x.thread x.len

/-- READ_TRANSFER_COMPLETE (R236). -/
def execReadTransferComplete (tag : Nat) (ecc : Nat) (nowNs : Nat) (s : State) : Host.Outcome State Fault Refusal :=
  .next (readComplete s tag ecc nowNs)

/-- Meaning of WRITE_TRANSFER_ACCEPTED (R236, R240, R242): a failed write is repeated once, and a second failure leaves the
destination bytes poisoned. -/
def writeAccepted (s : State) (tag : Nat) (failed : Bool) : State :=
  match s.xm.tags.find? (fun x => x.tag == tag && x.write) with
  | none => s
  | some x =>
    if ¬ xmUp s then s
    else if failed ∧ x.repeated = false then
      { s with xm.tags := s.xm.tags.map (fun y => if y.tag = tag then { y with repeated := true } else y) }
    else
      let t := threadAt s x.thread
      let s := { s with xm.tags := s.xm.tags.filter (fun y => y.tag != tag) }
      let s := if failed then raise (xmPoison s x.addr x.len true) 0x0802 .major 0
        else xmWrite s x.addr x.data
      if t.run = .idle then s else moved s x.thread x.len

/-- WRITE_TRANSFER_ACCEPTED (R236). -/
def execWriteTransferAccepted (tag : Nat) (failed : Bool) (s : State) : Host.Outcome State Fault Refusal :=
  .next (writeAccepted s tag failed)

/-- What a slot boundary does to the threads (R235, R238, R239): those whose START slot begins may issue, and those not done at
the start of their DEADLINE slot have missed it. -/
def threadBoundary (s : State) : State :=
  (s.xm.threads.map (fun e => e.1)).foldl (fun s k =>
    let t := threadAt s k
    let s := if t.run = .waiting ∧ feedStarted s t.admitBeat t.d = true then onThread s k (fun t => { t with run := .issuing }) else s
    if t.run ≠ .idle ∧ feedLate s t.admitBeat t.d = true then deadlineMiss s k else s) s

/-- The threads of a quadrant end (R250): their tags are released as their transfers complete. -/
def endThreads (s : State) (p : Nat → Thread → Bool) : State :=
  let ended := (s.xm.threads.filter (fun e => p e.1 e.2)).map (fun e => e.1)
  { s with xm.threads := s.xm.threads.filter (fun e => !p e.1 e.2),
           xm.tags := s.xm.tags.map (fun x => if ended.contains x.thread then { x with thread := x.thread + 128 } else x) }

end Sys2Proof.Machine
end

