-- ==== Sys2Proof/Machine/Wake.lean ====
section
/-! DEFINITION. The wake triggers of the power states (R417 to R421): the latency of each state, the deepest state that fits a
tolerance, and the start of a wake. -/

namespace Sys2Proof.Machine

open Sys2Proof

/-- Wake latency in µs (Table 17.2); a member of a Hive of two or more counts the rejoin of 320 beats in Winter (R421). -/
def wakeUsOf (s : State) : PwrSt → Nat
  | .active => 0
  | .park => 2
  | .doze => 60
  | .deep => 1200
  | .winter => 40000 + (if hiveMember s then 320 * 160 * s.beat.slotTicks / 1000 else 0)

/-- The wake latency of a state in beats, rounded up. -/
def wakeBeats (s : State) (p : PwrSt) : Nat := ceilDiv (wakeUsOf s p * 1000) (160 * s.beat.slotTicks)

/-- The deepest state whose wake latency does not exceed a tolerance (R421). -/
def fitState (s : State) (tol : Nat) : PwrSt :=
  if wakeUsOf s .winter ≤ tol then .winter
  else if wakeUsOf s .deep ≤ tol then .deep
  else if wakeUsOf s .doze ≤ tol then .doze
  else if wakeUsOf s .park ≤ tol then .park
  else .active

/-- The shallower of two states. -/
def PwrSt.shallower (a b : PwrSt) : PwrSt := if a.code ≤ b.code then a else b

/-- A wake trigger moves a device in a low state toward a state; triggers during a wake move it no deeper (R419). -/
def wakeTo (s : State) (t : PwrSt) : State :=
  if s.pwr.st = .active ∨ s.pwr.st.code ≤ t.code then s
  else { s with pwr.waking := some (match s.pwr.waking with
    | none => t
    | some w => PwrSt.shallower w t) }

/-- The triggers that move the device to Active (R419). -/
def wakeActive (s : State) : State := wakeTo s .active

/-- The effective tolerance has fallen below the wake latency of the state in force (R419): the wake is to the deepest state that
fits under R421. -/
def wakeTolerance (s : State) : State :=
  if tolEff s < wakeUsOf s s.pwr.st then wakeTo s (fitState s (tolEff s)) else s

/-- The deepest state chosen under R421 shows in PWR_STAT.TARGET. -/
def retarget421 (s : State) : State := { s with pwr.target := fitState s (tolEff s) }

end Sys2Proof.Machine
end

