-- ==== Sys2Proof/Machine/Links.lean ====
section
/-! DEFINITION. The hive links (chapter 12), first part: flits (R284, R285), the transmitter with its replay buffer and seal groups
(R286, R300), port states (R278 to R281), drops and fences (R287, R303 to R305), and the unscheduled channel (R292, R293). -/

namespace Sys2Proof.Machine

open Sys2Proof

/- Flits (Table 12.3). -/

/-- TYPE. -/
def fType (l : List Byte) : Nat := leAt l 0 1
/-- REPLAY. -/
def fReplay (l : List Byte) : Bool := decide (leAt l 1 1 % 2 = 1)
/-- SRC rank. -/
def fSrc (l : List Byte) : Nat := leAt l 2 3 % 1024
/-- DST rank. -/
def fDst (l : List Byte) : Nat := leAt l 2 3 / 1024 % 1024
/-- SEQ. -/
def fSeq (l : List Byte) : Nat := leAt l 5 2
/-- ENTRY. -/
def fEntry (l : List Byte) : Nat := leAt l 7 2
/-- INDEX. -/
def fIndex (l : List Byte) : Nat := leAt l 9 2
/-- INST. -/
def fInst (l : List Byte) : Nat := leAt l 11 2
/-- PTAG. -/
def fPtag (l : List Byte) : Nat := leAt l 13 2
/-- HCRC is right. -/
def hcrcOk (l : List Byte) : Bool := crc8 (bytesAt l 0 15) == leAt l 15 1
/-- The 240 bytes of payload. -/
def fPay (l : List Byte) : List Byte := bytesAt l 16 240
/-- A flit of 256 bytes of a type. -/
def isFlit (l : List Byte) (t : Nat) : Bool := l.length == 256 && fType l == t

/-- A flit with HCRC over its first 15 bytes (Table 12.3). -/
def sealHcrc (l : List Byte) : List Byte :=
  let h := bytesAt l 0 15
  h ++ leBytes 1 (crc8 h) ++ bytesAt l 16 240
/-- A flit from its fields (Table 12.3). -/
def mkFlit (typ src dst entry index inst ptag : Nat) (pay : List Byte) : List Byte :=
  sealHcrc (leBytes 1 typ ++ leBytes 1 0 ++ leBytes 3 (src % 1024 + 1024 * (dst % 1024)) ++ leBytes 2 0 ++ leBytes 2 entry ++
    leBytes 2 index ++ leBytes 2 inst ++ leBytes 2 ptag ++ leBytes 1 0 ++ padTo 240 pay)
/-- A flit with its SEQ. -/
def withSeq (l : List Byte) (n : Nat) : List Byte := sealHcrc (l.take 5 ++ leBytes 2 n ++ l.drop 7)
/-- A flit with REPLAY set or cleared. -/
def withReplay (l : List Byte) (b : Bool) : List Byte := sealHcrc (l.take 1 ++ leBytes 1 (bit1 b) ++ l.drop 2)

/-- One SEQ is before another by less than half the circle (R286). -/
def seqLe (a b : Nat) : Bool := decide ((b + 65536 - a % 65536) % 65536 < 32768)

/-- The flits that one beat holds on a link: ⌊T_beat / 1.28 ns⌋ (R303). -/
def beatFlits (s : State) : Nat := 125 * s.beat.slotTicks
/-- Above this many bad flits in one beat, a port is flooded (R303). -/
def floodLimit (s : State) : Nat := beatFlits s / 100

/-- The links are powered and the device runs. -/
def lnkUp (s : State) : Bool := alive s && s.pwr.lnk
/-- A port is UP. -/
def portUp (s : State) (p : Nat) : Bool := lnkUp s && (portAt s p).st == .up

/- Keys (R299, R302). -/

/-- The key in a slot: 0 and 1 name the two slots of AON. -/
def keyIn (s : State) (slot : Nat) : Option (List Byte) := if slot = 0 then s.hl.keyCur else s.hl.keyNext
/-- The current key: the one in the slot in force. -/
def keyNow (s : State) : Option (List Byte) := keyIn s s.hl.keySlot
/-- The next key: the one in the other slot. -/
def keyAhead (s : State) : Option (List Byte) := keyIn s (1 - s.hl.keySlot)
/-- A key is installed and usable (R299). -/
def keyInstalled (k : Option (List Byte)) : Bool := k.isSome

/- Port states. -/

/-- What the link layer of a port forgets when it leaves UP or trains again (R286, R300, R305). -/
def Port.linkClear (x : Port) : Port :=
  { x with move := none, laneTx := none, uncorrBeat := 0, txSeq := 0, buffer := [], rxSeq := 0,
           unacked := 0, gap := false, timeouts := 0, credit := 64, creditRet := 0, rxUnsched := 0, sealTx := [], group := 0,
           sealRx := [], txWait := [], waitq := [], syncq := [], pmdDone := false, identSent := false }

/-- Return one credit of a port whose buffered unscheduled flit has gone (R292). -/
def creditBack (s : State) (p : Option Nat) : State :=
  match p with
  | none => s
  | some p => onPort s p (fun x => { x with rxUnsched := x.rxUnsched - 1, creditRet := x.creditRet + 1 })

/-- The lane assignment of a training that uses all lanes: none is on the spare (R278). -/
def Port.lanesClear (x : Port) : Port := { x with spared := none, txSpared := none, weak := false, quick := false }

/-- The lane that the spare carries, as HL_PSTAT shows it: the receiver's, or else the transmitter's (log 129). -/
def Port.spareUse (x : Port) : Option Nat := x.spared.orElse (fun _ => x.txSpared)

/-- A port takes a state and forgets its link layer; relayed flits that wait there are discarded (R281, R305). A port that was UP when
LNK powered down keeps its lane assignment until it has started on the wake (R279). -/
def portTo (s : State) (p : Nat) (st : PortSt) : State :=
  let s := ((portAt s p).waitq.map (fun w => w.2)).foldl creditBack s
  onPort s p (fun x =>
    let y := { x.linkClear with st := st }
    if st = .off ∧ x.st = .up then { y with quick := true }
    else if st = .training ∧ x.st = .off ∧ x.quick = true then y
    else y.lanesClear)

/-- Training starts (Table 12.2). -/
def portTrain (s : State) (p : Nat) : State :=
  onPort (portTo s p .training) p (fun x => { x with attempts := satAdd 16 x.attempts 1, fence := 0 })

/-- A port drops from UP (Table 12.2): to TRAINING, or to HELD at the third drop within 1,000 beats. -/
def portDrop (s : State) (p code : Nat) : State :=
  let x := portAt s p
  if x.st ≠ .up then s
  else
    let recent := (s.beat.num :: x.dropBeats).filter (fun b => decide (s.beat.num < b + 1000))
    let s := raise s code .major 0
    let s := onPort s p (fun x => { x with drops := satAdd 32 x.drops 1, dropBeats := recent.take 3 })
    if 3 ≤ recent.length then raise (portTo s p .held) 0x0C07 .critical 0 else portTrain s p

/-- A port is fenced (R304): 1 roster, 2 tag, 3 flood. -/
def portFence (s : State) (p cause : Nat) : State :=
  raise (onPort (portTo s p .fenced) p (fun x => { x with fence := cause })) 0x0C04 .major 0

/- The transmitter. -/

/-- Give a flit to the transmitter; HL_TXFLITS counts it. -/
def giveTx (s : State) (p : Nat) (l : List Byte) : State :=
  onPort s p (fun x => { x with outq := l :: x.outq, tx := satAdd 64 x.tx 1 })

/-- The replay buffer has room for a flit of a type: 512, of which 8 are reserved for MARKER, HALT and TAG (R286). -/
def txRoom (x : Port) (typ : Nat) : Bool :=
  decide (x.buffer.length < (if typ = 3 ∨ typ = 5 ∨ typ = 6 then 512 else 504))

/-- Send a SEQ flit (R286); on a sealed port it joins the open group (R300). -/
def txNow (s : State) (p : Nat) (l : List Byte) : State :=
  let f := withSeq l (portAt s p).txSeq
  onPort (giveTx s p f) p (fun x =>
    { x with buffer := x.buffer ++ [f], txSeq := (x.txSeq + 1) % 65536,
             sealTx := if x.sealed && fType f != 6 then x.sealTx ++ [f] else x.sealTx })

/-- A control flit that carries a SEQ: MARKER, HALT or TAG (Table 12.4). -/
def isCtl (l : List Byte) : Bool := fType l == 3 || fType l == 5 || fType l == 6

/-- Send a SEQ flit, or keep it until the replay buffer has room; control flits take precedence over others (R285). -/
def txTry (s : State) (p : Nat) (l : List Byte) : State :=
  let ahead := (portAt s p).txWait.filter (fun w => !isCtl l || isCtl w)
  if ¬ portUp s p then s
  else if ahead.isEmpty && txRoom (portAt s p) (fType l) then txNow s p l
  else
    let behind := (portAt s p).txWait.filter (fun w => isCtl l && !isCtl w)
    onPort s p (fun x => { x with txWait := ahead ++ [l] ++ behind })

/-- The initial vector of R300. -/
def sealIv (rank port session group : Nat) : List Byte :=
  leBytes 2 rank ++ leBytes 1 port ++ leBytes 1 0 ++ leBytes 4 session ++ leBytes 4 group
/-- The tag of a group under a key (R300). -/
def sealTag (key iv : List Byte) (flits : List (List Byte)) : Nat :=
  (Config.gmac key iv (flits.flatMap (fun f => withReplay f false))).toNat

/-- A seal group closes: its TAG flit follows (R300, Table 12.7); a port whose GROUP wraps retrains. -/
def closeGroup (s : State) (p : Nat) : State :=
  let x := portAt s p
  match x.sealTx with
  | [] => s
  | f :: _ =>
    let tag := sealTag ((keyNow s).getD []) (sealIv s.beat.ownRank p x.session x.group) x.sealTx
    let pay := leBytes 2 (fSeq f) ++ leBytes 1 x.sealTx.length ++ leBytes 1 s.hl.keySlot ++ leBytes 12 tag ++
      leBytes 4 x.session ++ leBytes 4 x.group
    let s := onPort s p (fun x => { x with sealTx := [], group := x.group + 1 })
    let s := txTry s p (mkFlit 6 s.beat.ownRank x.nbrRank 0 0 0 0 pay)
    if x.group + 1 = 2 ^ 32 then portTrain s p else s

/-- Send a SEQ flit; a group closes after its 64th (R300). -/
def txFlit (s : State) (p : Nat) (l : List Byte) : State :=
  let s := txTry s p l
  if 64 ≤ (portAt s p).sealTx.length then closeGroup s p else s

/-- Send the flits that waited for room, as far as there is room. -/
def drainWait : Nat → State → Nat → State
  | 0, s, _ => s
  | n + 1, s, p =>
    match (portAt s p).txWait with
    | [] => s
    | l :: r =>
      if txRoom (portAt s p) (fType l) then
        let s := txNow (onPort s p (fun x => { x with txWait := r })) p l
        drainWait n (if 64 ≤ (portAt s p).sealTx.length then closeGroup s p else s) p
      else s

/-- SEAL_GROUP_CLOSE (R300): 32 flit times with nothing to send. -/
def execSealGroupClose (p : PortId) (s : State) : Host.Outcome State Fault Refusal :=
  .next (if portUp s p.val = true then closeGroup s p.val else s)

/-- An ACK, with the credits to return (Table 12.4). -/
def sendAck (s : State) (p : Nat) : State :=
  let x := portAt s p
  let pay := leBytes 2 (x.rxSeq + 65535) ++ leBytes 2 x.creditRet
  giveTx (onPort s p (fun x => { x with unacked := 0, creditRet := 0 })) p (mkFlit 0x11 s.beat.ownRank x.nbrRank 0 0 0 0 pay)

/-- A NAK; every later flit is discarded until the resend arrives (R286). -/
def sendNak (s : State) (p : Nat) : State :=
  let x := portAt s p
  giveTx (onPort s p (fun x => { x with gap := true })) p (mkFlit 0x12 s.beat.ownRank x.nbrRank 0 0 0 0 (leBytes 2 x.rxSeq))

/-- ACK_TIMER (R286): 200 ns after the oldest flit that is not acknowledged, or while credits wait to return (R292). -/
def execAckTimer (p : PortId) (s : State) : Host.Outcome State Fault Refusal :=
  .next (
    if portUp s p.val = true ∧ ((portAt s p.val).unacked ≠ 0 ∨ (portAt s p.val).creditRet ≠ 0) then sendAck s p.val else s)

/-- Resend from a SEQ onward, with REPLAY set (R286). -/
def resend (s : State) (p from' : Nat) : State :=
  let again := (portAt s p).buffer.filter (fun f => seqLe from' (fSeq f))
  let s := again.foldl (fun s f => giveTx s p (withReplay f true)) s
  onPort s p (fun x => { x with replay := satAdd 32 x.replay again.length })

/-- REPLAY_TIMEOUT (R286): no ACK advances within 2 µs; eight in a row drop the port. -/
def execReplayTimeout (p : PortId) (s : State) : Host.Outcome State Fault Refusal :=
  .next (
    if portUp s p.val = true ∧ (portAt s p.val).buffer ≠ [] then
      let s := onPort s p.val (fun x => { x with timeouts := x.timeouts + 1 })
      if 8 ≤ (portAt s p.val).timeouts then portDrop s p.val 0x0C02
      else
        match (portAt s p.val).buffer with
        | [] => s
        | f :: _ => resend s p.val (fSeq f)
    else s)

/- The receiver. -/

/-- A flit arrives at an UP port: HL_RXFLITS. -/
def rxCount (s : State) (p : Nat) : State := onPort s p (fun x => { x with rx := satAdd 64 x.rx 1 })

/-- A flit without SEQ whose HCRC fails is lost, and a NAK asks for a resend (R286). -/
def hcrcNak (s : State) (p : Nat) (l : List Byte) : State := if hcrcOk l ∨ (portAt s p).gap = true then s else sendNak s p

/-- A SEQ flit meets the order of R286: it is taken, or it is discarded with or without a NAK. Without a roster a port carries
none (R295). -/
def rxTake (s : State) (p : Nat) (l : List Byte) : Bool × State :=
  if ¬ portUp s p then (false, s)
  else
    let s := rxCount s p
    let x := portAt s p
    if ¬ hcrcOk l then (false, if x.gap then s else sendNak s p)
    else if fSeq l = x.rxSeq then
      let s := onPort s p (fun x => { x with rxSeq := (x.rxSeq + 1) % 65536, gap := false, unacked := x.unacked + 1 })
      (s.hl.roster, if 32 ≤ x.unacked + 1 then sendAck s p else s)
    else if x.gap ∨ seqLe x.rxSeq (fSeq l) = false then (false, s)
    else (false, sendNak s p)

/-- SRC is the roster neighbour of the port (R303). -/
def fromNbr (s : State) (p : Nat) (l : List Byte) : Bool := fSrc l == (portAt s p).nbrRank

/-- A bad flit (R303). -/
def badFlit (s : State) (p : Nat) : State :=
  let first := (portAt s p).bad = 0
  let s := onPort s p (fun x => { x with bad := satAdd 16 x.bad 1, badTotal := satAdd 32 x.badTotal 1 })
  if first then raise s 0x0C08 .minor 0 else s

/-- FLOOD_DETECTED (R303): more than ⌊F_beat / 100⌋ bad flits on one port in one beat. -/
def execFloodDetected (p : PortId) (s : State) : Host.Outcome State Fault Refusal :=
  .next (if portUp s p.val = true ∧ floodLimit s < (portAt s p.val).bad then portFence s p.val 3 else s)

/- The unscheduled channel. -/

/-- The slot in force has LINK_SCHED 0 (R292). -/
def slotUnsched (s : State) : Bool := !descLink (descAt s s.beat.slot)

/-- Send an unscheduled flit if credit, slot and room allow it, and otherwise keep it (R292). -/
def sendUnsched (s : State) (p : Nat) (l : List Byte) (held : Option Nat) : State :=
  let x := portAt s p
  if ¬ portUp s p then creditBack s held
  else if x.waitq.isEmpty && decide (0 < x.credit) && slotUnsched s && txRoom x 4 && x.txWait.isEmpty then
    creditBack (txFlit (onPort s p (fun x => { x with credit := x.credit - 1 })) p l) held
  else onPort s p (fun x => { x with waitq := x.waitq ++ [(l, held)] })

/-- Send what waits on a port, in order, as far as credit, slot and room allow it. -/
def flushUnsched : Nat → State → Nat → State
  | 0, s, _ => s
  | n + 1, s, p =>
    let x := portAt s p
    match x.waitq with
    | [] => s
    | (l, held) :: r =>
      if portUp s p && decide (0 < x.credit) && slotUnsched s && txRoom x 4 && x.txWait.isEmpty then
        let s := onPort s p (fun x => { x with waitq := r, credit := x.credit - 1 })
        flushUnsched n (creditBack (txFlit s p l) held) p
      else s

/-- The port that the route table names for a rank (R293). -/
def routeOf (s : State) (rank : Nat) : Nat := s.hl.route.getAt rank 0xFF

/-- Send an unscheduled flit toward a rank; a flit whose port is not UP is discarded (R281, R293). -/
def unschedTo (s : State) (rank : Nat) (l : List Byte) (held : Option Nat) : State :=
  let p := routeOf s rank
  if p < 20 ∧ portUp s p = true then sendUnsched s p l held else creditBack s held

/-- The payload of Table 12.6. -/
def unschedPay (kind count planId stripe : Nat) (body : List Byte) : List Byte :=
  leBytes 1 kind ++ leBytes 1 0 ++ leBytes 2 count ++ leBytes 8 planId ++ leBytes 4 stripe ++ body

/-- Ask a peer for its page of a stripe (R127, Table 12.6). -/
def askPage (s : State) (rank planId stripe : Nat) : State :=
  let n := s.hl.msgNo
  unschedTo { s with hl.msgNo := (n + 1) % 65536 } rank
    (mkFlit 4 s.beat.ownRank rank n 0 0 (planId % 65536) (unschedPay 1 1 planId stripe [])) none

/-- The 19 flits of a page go to the member that asked for it (Table 12.6). -/
def sendPage (s : State) (r : PeerRead) : State :=
  let n := s.hl.msgNo
  let data := combRead s (r.page * 4096) 4096
  forUpto 19 (fun s i =>
    unschedTo s r.rank (mkFlit 4 s.beat.ownRank r.rank n i 0 (r.planId % 65536)
      (unschedPay 2 19 r.planId r.stripe (bytesAt data (224 * i) 224))) none) { s with hl.msgNo := (n + 1) % 65536 }

/-- The ranks of the other seven members of the parity group of 8 (R126). -/
def peersOf (s : State) : List Nat :=
  let g := s.beat.ownRank / 8
  ((List.range 8).map (fun i => 8 * g + i)).filter (fun r => r != s.beat.ownRank)

/-- A peer that the route table reaches over an UP port. -/
def peerReachable (s : State) (rank : Nat) : Bool := decide (routeOf s rank < 20) && portUp s (routeOf s rank)

/-- Each rebuild asks the peers whose pages have not come; while a peer is absent or fenced, it waits (R127). -/
def rebuildRequests (s : State) : State :=
  s.cmb.rebuilds.foldl (fun s r =>
    if rebuildReady r ∨ ¬ (peersOf s).all (peerReachable s) then s
    else
      (peersOf s).foldl (fun s k =>
        if 19 ≤ (r.got.filter (fun g => g.1 == k)).length then s else askPage s k (ctxAt s r.ctx).planId r.stripe) s) s

/-- A peer's page read request (R127, R384, R417): a member in Deep wakes to Doze and serves none; a poisoned page makes the stripe
one that cannot be rebuilt. -/
def peerRequest (s : State) (rank planId stripe : Nat) : State :=
  if s.pwr.st = .deep then wakeTo s .doze
  else
    match ctxOf s planId with
    | none => s
    | some c =>
      match (ctxAt s c).stripes.find? (fun e => e.1 == stripe) with
      | none => s
      | some e =>
        match planPhys (ctxAt s c) (e.2.1 * 4096) with
        | none => s
        | some a =>
          let pg := a / 4096
          if vget s.pwr.cb (pageSlice pg) false = false ∨ vget s.pwr.cbRet (pageSlice pg) false = true then s
          else if pagePoisoned s pg then raise (dropRebuild s pg) 0x0307 .critical 0
          else { s with hl.peerReads := s.hl.peerReads ++ [{ page := pg, planId := planId, stripe := stripe, rank := rank }] }

/-- Flit k of a peer's page joins the XOR of a rebuild, once (R127, Table 12.6). -/
def takePageData (s : State) (rank planId stripe k : Nat) (body : List Byte) : State :=
  { s with cmb.rebuilds := s.cmb.rebuilds.map (fun r =>
      if (ctxAt s r.ctx).planId = planId ∧ r.stripe = stripe ∧ k < 19 ∧ (peersOf s).contains rank = true ∧
          r.got.contains (rank, k) = false then
        let n := if k = 18 then 64 else 224
        let old := r.data.getRun (224 * k) 0#8 n
        { r with got := (rank, k) :: r.got,
                 data := r.data.putRun (224 * k) 0#8 ((old.zip (bytesAt body 0 n)).map (fun x => x.1 ^^^ x.2)) }
      else r) }

/-- An unscheduled flit is relayed, or its message is delivered (R293, Table 12.6). -/
def unschedDeliver (s : State) (p : Nat) (l : List Byte) : State :=
  if fDst l ≠ s.beat.ownRank then unschedTo s (fDst l) (withReplay l false) (some p)
  else
    let s := creditBack s (some p)
    let pay := fPay l
    if leAt pay 0 1 = 1 then peerRequest s (fSrc l) (leAt pay 4 8) (leAt pay 12 4)
    else if leAt pay 0 1 = 2 then takePageData s (fSrc l) (leAt pay 4 8) (leAt pay 12 4) (fIndex l) (bytesAt pay 16 224)
    else if leAt pay 0 1 = 3 then { s with hl.keeperMsgs := pay :: s.hl.keeperMsgs }
    else s

/-- The window of R292: this slot has LINK_SCHED 0, or the slot before it had and at most 100 ns have passed. -/
def unschedWindow (s : State) (ns : Nat) : Bool :=
  slotUnsched s || (!descLink (descAt s ((s.beat.slot + 127) % 128)) && decide (ns ≤ 100))

/-- FLIT_UNSCHED_RECEIVE (R292): ns is the time since the slot boundary. -/
def execFlitUnschedReceive (p : PortId) (flit : List Byte) (ns : Nat) (s : State) : Host.Outcome State Fault Refusal :=
  .next (
    if isFlit flit 4 then
      let (ok, s) := rxTake s p.val flit
      if ¬ ok then s
      else if s.hl.size ≤ fSrc flit ∨ s.hl.size ≤ fDst flit then portFence s p.val 1
      else if ¬ unschedWindow s ns ∨ 64 ≤ (portAt s p.val).rxUnsched then
        badFlit (if (portAt s p.val).sealed then
          onPort s p.val (fun x => { x with sealRx := x.sealRx ++ [{ flit := flit, arr := none, good := false }] }) else s) p.val
      else
        let s := onPort s p.val (fun x => { x with rxUnsched := x.rxUnsched + 1 })
        if (portAt s p.val).sealed then onPort s p.val (fun x => { x with sealRx := x.sealRx ++ [{ flit := flit, arr := none, good := true }] })
        else unschedDeliver s p.val flit
    else s)

/- Training (R278 to R281, Table 12.2). -/

/-- LNK_POWER_GOOD (R33, R280): listen-only at power-up and after a warm reset; on a wake each port waits for its start (R279). -/
def execLnkPowerGood (wake : Bool) (s : State) : Host.Outcome State Fault Refusal :=
  .next (
    if alive s = true ∧ s.pwr.lnk = false then
      if wake then
        if s.pwr.waking.isSome = true ∧ s.pwr.st = .winter then { s with pwr.lnk := true } else s
      else if s.hi.readiness = .memory ∨ s.hi.readiness = .links then
        forUpto 20 (fun s p => portTo s p .listen) { s with pwr.lnk := true }
      else s
    else s)

/-- PORT_TRAINING_START (R33, R279). -/
def execPortTrainingStart (p : PortId) (s : State) : Host.Outcome State Fault Refusal :=
  .next (
    if lnkUp s = true ∧ ((portAt s p.val).st = .listen ∨ (portAt s p.val).st = .off) then
      let s := portTrain s p.val
      if s.hi.readiness = .links then { s with hi.progress := 0x51 } else s
    else s)

/-- PORT_NO_SIGNAL_TIMEOUT (R278, R34): no signal within 20 ms. -/
def execPortNoSignalTimeout (p : PortId) (s : State) : Host.Outcome State Fault Refusal :=
  .next (
    if lnkUp s = true ∧ (portAt s p.val).st = .training ∧ (portAt s p.val).pmdDone = false then
      raise (onPort (portTo s p.val .absent) p.val (fun x => { x with lastMs := 20 })) 0x0C03 .minor 0
    else s)

/-- PORT_TRAINING_TIMEOUT (R278, R279, R34): a port on its quick wake start falls back to full training. -/
def execPortTrainingTimeout (p : PortId) (s : State) : Host.Outcome State Fault Refusal :=
  .next (
    if lnkUp s = true ∧ (portAt s p.val).st = .training then
      if (portAt s p.val).quick then onPort s p.val (fun x => { x.lanesClear with pmdDone := false, identSent := false })
      else
        let ms := if s.hi.readiness = .ready then 250 else 350 - 5 * p.val
        raise (onPort (portTo s p.val .down) p.val (fun x => { x with lastMs := ms })) 0x0C02 .major 0
    else s)

/-- PORT_RETRY_TIMER (Table 12.2): 100 ms in ABSENT, or 1 s in DOWN; before READY no port retries (R34, Table 2.8). -/
def execPortRetryTimer (p : PortId) (s : State) : Host.Outcome State Fault Refusal :=
  .next (
    if lnkUp s = true ∧ s.hi.readiness = .ready ∧ ((portAt s p.val).st = .absent ∨ (portAt s p.val).st = .down) then
      portTrain s p.val
    else s)

/-- The IDENT payload of Table 12.8. -/
def identPay (s : State) (p : Nat) : List Byte :=
  leBytes 8 s.hl.hiveId ++ leBytes 4 s.hl.epoch ++ leBytes 2 s.beat.ownRank ++ leBytes 1 p ++ leBytes 1 (bit1 s.hl.sealed) ++
    leBytes 4 (portAt s p).session

/-- PMD_TRAINING_COMPLETE (R278, R300): the ninth lane is the spare, a sealed port counts a new session, and IDENT is sent. -/
def execPmdTrainingComplete (p : PortId) (spare : Nat) (ms : Nat) (s : State) : Host.Outcome State Fault Refusal :=
  .next (
    let x := portAt s p.val
    if lnkUp s = true ∧ x.st = .training ∧ x.pmdDone = false ∧ spare < 9 then
      let s := if x.sealed then
          let n := satAdd 32 s.hl.session 1
          hwState { s with hl.session := n } 6 (leBytes 4 n)
        else s
      let s := onPort s p.val (fun x =>
        { x with pmdDone := true, lastMs := min ms 0xFFFF, spareLane := if x.quick then x.spareLane else spare, identSent := true,
                 session := if x.sealed then s.hl.session else x.session })
      giveTx s p.val (mkFlit 0x13 s.beat.ownRank x.nbrRank 0 0 0 0 (identPay s p.val))
    else s)

/-- The check of R296; without a roster every IDENT passes (R295). -/
def identOk (s : State) (p : Nat) (pay : List Byte) : Bool :=
  let x := portAt s p
  !s.hl.roster ||
    (leAt pay 0 8 == s.hl.hiveId && leAt pay 8 4 == s.hl.epoch && leAt pay 12 2 == x.nbrRank && leAt pay 14 1 == x.nbrPort &&
      decide (leAt pay 15 1 % 2 = bit1 s.hl.sealed) && x.nbrRank != 0xFFFF)

/-- IDENT_RECEIVE (R278, R296, R105): the port is UP, or it is fenced. A Hive member whose ports train enters SEEK. -/
def execIdentReceive (p : PortId) (flit : List Byte) (s : State) : Host.Outcome State Fault Refusal :=
  .next (
    let x := portAt s p.val
    if lnkUp s = true ∧ isFlit flit 0x13 = true ∧ x.st = .training ∧ x.pmdDone = true ∧ hcrcOk flit = true then
      let pay := fPay flit
      if identOk s p.val pay then
        let s := onPort s p.val (fun x => { x.linkClear with st := .up, quick := false, peerSession := leAt pay 16 4 })
        let s := raise s 0x0C01 .info 0
        if hiveMember s = true ∧ s.beat.pstate = .solo then
          { s with beat.pstate := .seek, beat.waitEdges := 0, beat.hops := 31 }
        else s
      else portFence s p.val 1
    else s)

/-- LOSS_OF_SIGNAL (Table 12.2): loss of signal or of codeword lock on an UP port. -/
def execLossOfSignal (p : PortId) (s : State) : Host.Outcome State Fault Refusal :=
  .next (if portUp s p.val = true then portDrop s p.val 0x0C02 else s)

/-- LANE_FLIT_RECEIVE (R282): the transmitter schedules the move for the 256th codeword-pair boundary. -/
def execLaneFlitReceive (p : PortId) (flit : List Byte) (s : State) : Host.Outcome State Fault Refusal :=
  .next (
    if portUp s p.val = true ∧ isFlit flit 0x14 = true then
      let s := rxCount s p.val
      let pay := fPay flit
      if hcrcOk flit = true ∧ leAt pay 0 1 < 8 ∧ leAt pay 1 1 < 2 then
        onPort s p.val (fun x => { x with move := some (leAt pay 0 1, leAt pay 1 1 == 1) })
      else hcrcNak s p.val flit
    else s)

/-- Send a LANE flit: move a lane to the spare, or back (R282, R283). -/
def sendLane (s : State) (p lane : Nat) (back : Bool) : State :=
  giveTx (onPort s p (fun x => { x with laneTx := some (lane, back) })) p
    (mkFlit 0x14 s.beat.ownRank (portAt s p).nbrRank 0 0 0 0 (leBytes 1 lane ++ leBytes 1 (bit1 back)))

/-- The lane that the receiver's spare carries, or is about to carry. -/
def Port.rxOn (x : Port) : Option Nat :=
  match x.laneTx with
  | some (k, back) => if back then none else some k
  | none => x.spared

/-- LANE_SPARE_SWITCH (R282): at the boundary the lane's symbols pass to the spare, or back, in the transmit direction if tx is set,
and otherwise in the receive direction. The receiver of a weak lane raises event 0x0C05. -/
def execLaneSpareSwitch (e : SpareSwitch) (s : State) : Host.Outcome State Fault Refusal :=
  .next (
    let p := e.port.val
    let x := portAt s p
    let on (m : Nat × Bool) : Option Nat := if m.2 then none else some m.1
    if portUp s p = true then
      if e.tx then x.move.elim s (fun m => onPort s p (fun x => { x with move := none, txSpared := on m }))
      else
        x.laneTx.elim s (fun m =>
          let s := onPort s p (fun x => { x with laneTx := none, spared := on m })
          if x.weak ∧ m.2 = false then raise s 0x0C05 .minor 0 else s)
    else s)

/-- WEAK_LANE_DETECT (R282, R283): the receiver of a weak lane asks for the spare. A second weak lane raises 0x0C06 (R283) and drops the
port with the 0x0C02 of Table 12.2 (log 152). A spare that
carries a lane under recalibration is not free: that lane stays on it if it is the weak one, and another waits (log 130). -/
def weakLane (s : State) (p k : Nat) : State :=
  let x := portAt s p
  if ¬ portUp s p ∨ 8 ≤ k then s
  else if x.rxOn = some k then onPort s p (fun x => { x with weak := true })
  else if x.weak then portDrop (raise s 0x0C06 .major 0) p 0x0C02
  else if x.rxOn.isSome then s
  else sendLane (onPort s p (fun x => { x with weak := true })) p k false

/-- UNCORRECTABLE_CODEWORD (R277, R286): the flits it touches are lost, and the receiver asks for a resend. -/
def execUncorrectableCodeword (p : PortId) (s : State) : Host.Outcome State Fault Refusal :=
  .next (
    if portUp s p.val = true then
      let s := onPort s p.val (fun x => { x with uncorr := satAdd 32 x.uncorr 1, uncorrBeat := x.uncorrBeat + 1 })
      if (portAt s p.val).gap then s else sendNak s p.val
    else s)

/-- CODEWORD_ERROR_LIMIT (R287): more than 32 codewords fail to decode in one beat. -/
def execCodewordErrorLimit (p : PortId) (s : State) : Host.Outcome State Fault Refusal :=
  .next (if portUp s p.val = true ∧ 32 < (portAt s p.val).uncorrBeat then portDrop s p.val 0x0C02 else s)

/-- LNK loses its power (Table 12.2, R105): every port is OFF, and the beat generator holds until its ports train again. -/
def lnkDown (s : State) : State :=
  let s := forUpto 20 (fun s p =>
    portTo s p .off) s
  let s := noPortx (clearWindow s)
  { s with pwr.lnk := false, beat.steer := 0, beat.pstate := .solo, beat.inPhase := false, beat.parent := none, beat.hops := 31,
           beat.markers := Vector.replicate 20 .init, beat.adopt := none, beat.jumpDue := 0, beat.jumpSkip := none,
           hl.peerReads := [] }

end Sys2Proof.Machine
end

