-- ==== Sys2Proof/Machine/Sched.lean ====
section
/-! DEFINITION. The hive links (chapter 12), second part: the scheduled channel (R290, R291) with its forwards (R203, R205) and sync
flits (R261 to R263), HALT (R294), beat markers (R87, R298), acknowledgements (R286), and the seal groups of a receiver (R301). -/

namespace Sys2Proof.Machine

open Sys2Proof

/- Remote objects (R262, R263). -/

/-- A sync flit or a completed tile adds to a REMOTE object of an INSTALLED plan, or is discarded as stale or misaddressed. -/
def remoteAdd (s : State) (c : Option Nat) (obj inc inst : Nat) : State :=
  let stale (s : State) : State := { s with so.stale := satAdd 32 s.so.stale 1 }
  let bad (s : State) : State := raise (stale s) 0x0A05 .minor 0
  match c with
  | none => bad s
  | some c =>
    let x := ctxAt s c
    if x.st = .installed ∧ obj < x.soCount ∧ (soAt s (x.soBase + obj)).remote = true then
      let d := (vget s.so.inst c 0 + 65536 - inst % 65536) % 65536
      if d = 0 ∨ 32768 ≤ d then onSo s (x.soBase + obj) (fun o => { o with value := (o.value + inc) % 2 ^ 32 }) else stale s
    else bad s

/-- The INSTALLED plan whose PLAN_ID ends in a PTAG (R291, R289). -/
def ctxOfTag (s : State) (ptag : Nat) : Option Nat :=
  (List.range 4).find? (fun c => (ctxAt s c).st == .installed && (ctxAt s c).planId % 65536 == ptag)

/-- Change one LINKS entry of a context. -/
def onLink (s : State) (c i : Nat) (f : LinkEnt → LinkEnt) : State :=
  onCtx s c (fun x => { x with links := x.links.mapIdx (fun j e => if j = i then f e else e) })

/-- The window in which a receiver accepts flits of an entry (R291): from 100 ns before FIRST_SLOT to the beat edge. -/
def rxWindow (s : State) (first ns : Nat) : Bool :=
  decide (first ≤ s.beat.slot) ||
    ((s.beat.slot + 1) % 128 == first && decide (5 * s.beat.slotTicks ≤ 4 * (ns + 100)))

/-- The inbound entry that a DATA or SYNC flit names, if R291 accepts the flit. -/
def schedEntry (s : State) (p : Nat) (l : List Byte) (sync : Bool) (ns : Nat) : Option (Nat × LinkEnt) :=
  match ctxOfTag s (fPtag l) with
  | none => none
  | some c =>
    match (ctxAt s c).links[fEntry l]? with
    | none => none
    | some e =>
      if e.inbound = true ∧ e.port = p ∧ (e.kind == 2) = sync ∧ fSrc l = e.peer ∧ fIndex l < e.flits ∧ rxWindow s e.first ns = true
      then some (c, e) else none

/-- An entry begins anew with the flits of another instance (R288: FLITS per instance). -/
def LinkEnt.forInst (e : LinkEnt) (n : Nat) : LinkEnt :=
  if e.inst = n then e else { e with inst := n, got := [], held := [], complete := false, sent := 0 }

/-- A list of numbers with one more. -/
def addOnce (l : List Nat) (n : Nat) : List Nat := if l.contains n then l else n :: l

/-- An accepted DATA flit: its payload is written at DEST + 240 × INDEX, and its index is noted, for a sealed port only until its
group verifies (R291, R301). -/
def dataWrite (s : State) (c : Nat) (e : LinkEnt) (l : List Byte) (hold : Bool) : State :=
  let s := if xmUp s then xmWrite s ((ctxAt s c).xmBase + e.dest + 240 * fIndex l) (fPay l) else s
  onLink s c (fEntry l) (fun e =>
    let e := e.forInst (fInst l)
    if hold then { e with held := addOnce e.held (fIndex l) } else { e with got := addOnce e.got (fIndex l) })

/-- Keep a flit's effects until its group verifies (R301). -/
def holdFlit (s : State) (p : Nat) (l : List Byte) (arr : Option Arrival) (good : Bool) : State :=
  onPort s p (fun x => { x with sealRx := x.sealRx ++ [{ flit := l, arr := arr, good := good }] })

/-- FLIT_DATA_RECEIVE (R291): ns is the time since the slot boundary. -/
def execFlitDataReceive (p : PortId) (flit : List Byte) (ns : Nat) (s : State) : Host.Outcome State Fault Refusal :=
  .next (
    if isFlit flit 1 then
      let (ok, s) := rxTake s p.val flit
      if ¬ ok then s
      else if ¬ fromNbr s p.val flit then portFence s p.val 1
      else
        match schedEntry s p.val flit false ns with
        | none => badFlit (if (portAt s p.val).sealed then holdFlit s p.val flit none false else s) p.val
        | some (c, e) =>
          let hold := (portAt s p.val).sealed
          dataWrite (if hold then holdFlit s p.val flit none true else s) c e flit hold
    else s)

/-- The increment of an accepted SYNC flit (R262, Table 11.2). -/
def syncApply (s : State) (l : List Byte) : State :=
  let pay := fPay l
  let c := (List.range 4).find? (fun c => (ctxAt s c).st == .installed && (ctxAt s c).planId == leAt pay 0 8)
  remoteAdd s c (leAt pay 8 2) (leAt pay 10 2) (leAt pay 12 2)

/-- FLIT_SYNC_RECEIVE (R291, R262). -/
def execFlitSyncReceive (p : PortId) (flit : List Byte) (ns : Nat) (s : State) : Host.Outcome State Fault Refusal :=
  .next (
    if isFlit flit 2 then
      let (ok, s) := rxTake s p.val flit
      if ¬ ok then s
      else if ¬ fromNbr s p.val flit then portFence s p.val 1
      else
        match schedEntry s p.val flit true ns with
        | none => badFlit (if (portAt s p.val).sealed then holdFlit s p.val flit none false else s) p.val
        | some _ => if (portAt s p.val).sealed then holdFlit s p.val flit none true else syncApply s flit
    else s)

/-- INBOUND_ENTRY_COMPLETE (R291, R263): every INDEX is written and verified, and the named REMOTE object gains 1. -/
def execInboundEntryComplete (c : Ctx) (entry : Nat) (s : State) : Host.Outcome State Fault Refusal :=
  .next (
    match (ctxAt s c.val).links[entry]? with
    | none => s
    | some e =>
      if alive s = true ∧ e.inbound = true ∧ e.kind ≠ 2 ∧ e.complete = false ∧ e.got.length = e.flits then
        let s := onLink s c.val entry (fun e => { e with complete := true })
        if e.object = 0xFFFF then s else remoteAdd s (some c.val) e.object 1 e.inst
      else s)

/- HALT (R294). -/

/-- A HALT flit on every UP port but one. -/
def haltFlits (s : State) (but : Option Nat) (id n : Nat) : State :=
  if s.hl.roster then
    forUpto 20 (fun s p =>
      if some p ≠ but ∧ portUp s p = true then
        txFlit s p (mkFlit 5 s.beat.ownRank (portAt s p).nbrRank 0 0 0 (id % 65536) (leBytes 8 id ++ leBytes 8 n))
      else s) s
  else s

/-- A member applies HALT to one of its plans at beat edge n: it tells the Hive, and stops the plan's instances at edge n + 1
(R27, R294). -/
def applyHalt (s : State) (c n : Nat) : State :=
  let id := (ctxAt s c).planId
  let s := onCtx s c (fun x => { x with halted := true, haltBeat := some n, haltDue := some (n + 1) })
  haltFlits { s with hl.haltSeen := (id, n) :: s.hl.haltSeen } none id n

/-- A HALT arrives (R294): it is relayed once, and a resident plan stops at edge n + 1, or at the next edge after it; one for a later beat
puts off no stop that is due. -/
def haltTake (s : State) (p : Nat) (l : List Byte) : State :=
  let id := leAt (fPay l) 0 8
  let n := leAt (fPay l) 8 8
  let s := { s with hl.halts := satAdd 32 s.hl.halts 1 }
  if s.hl.haltSeen.contains (id, n) then s
  else
    let s := haltFlits { s with hl.haltSeen := (id, n) :: s.hl.haltSeen } (some p) id n
    match ctxOf s id with
    | none => s
    | some c => onCtx s c (fun x =>
        let due := max n s.beat.num + 1
        { x with halted := true, haltBeat := some n, haltDue := some (min due (x.haltDue.getD due)) })

/-- FLIT_HALT_RECEIVE (R294). -/
def execFlitHaltReceive (p : PortId) (flit : List Byte) (s : State) : Host.Outcome State Fault Refusal :=
  .next (
    if isFlit flit 5 then
      let (ok, s) := rxTake s p.val flit
      if ¬ ok then s
      else if ¬ fromNbr s p.val flit then portFence s p.val 1
      else if (portAt s p.val).sealed then holdFlit s p.val flit none true
      else haltTake s p.val flit
    else s)

/- Beat markers. -/

/-- BEAT_MARKER_SEND (R87, R298): every trained port that is not an express port sends one at the edge, with the Δ that the port
measured at the edge before. DESIGN CHOICE (log 127): DELTA is 0 where it measured none. -/
def markersSend (s : State) : State :=
  if s.hl.roster then
    forUpto 20 (fun s p =>
      if portUp s p = true ∧ (portAt s p).express = false then
        let m := vget s.beat.markers p .init
        let d := (measured m (s.beat.edges - 1)).getD 0
        let fl := s.beat.hops + 32 * bit1 (eligible s) + 64 * bit1 s.syn.holdover + 128 * bit1 s.beat.inPhase
        let pay := leBytes 8 s.beat.num ++ leBytes 2 s.beat.ownRank ++ leBytes 2 s.beat.masterRank ++ leBytes 1 fl ++ leBytes 3 0 ++
          leBytes 4 (twosNat 32 d)
        txFlit s p (mkFlit 3 s.beat.ownRank (portAt s p).nbrRank 0 0 0 0 pay)
      else s) s
  else s

/-- What a marker brings to the beat generator: a resent one carries no timing (R286), an express port gives none at all (R298),
and one whose SENDER is not the neighbour is discarded (R87). -/
def markerIn (s : State) (p : Nat) (l : List Byte) (a : Arrival) : State :=
  let pay := fPay l
  if (portAt s p).express = true ∨ leAt pay 8 2 % 1024 ≠ (portAt s p).nbrRank then s
  else if fReplay l then { s with beat.markers := vmod s.beat.markers p (fun m => m.advert pay a.edge) }
  else markerTake s p pay a

/-- BEAT_MARKER_RECEIVE (R88, R89): eighths is the arrival's offset from the local edge, in timestamps of 9.77 ps. -/
def execBeatMarkerReceive (p : PortId) (flit : List Byte) (eighths : Int) (s : State) : Host.Outcome State Fault Refusal :=
  .next (
    if isFlit flit 3 then
      let (ok, s) := rxTake s p.val flit
      if ¬ ok then s
      else if ¬ fromNbr s p.val flit then portFence s p.val 1
      else if (portAt s p.val).sealed then holdFlit s p.val flit (some (arrival s eighths)) true
      else markerIn s p.val flit (arrival s eighths)
    else s)

/- Seal groups of the receiver (R301). -/

/-- The deferred effects of one flit of a group that has verified. -/
def verified (s : State) (p : Nat) (l : List Byte) (arr : Option Arrival) : State :=
  if fType l = 1 then
    match ctxOfTag s (fPtag l) with
    | none => s
    | some c =>
      onLink s c (fEntry l) (fun e =>
        if e.inst = fInst l ∧ e.held.contains (fIndex l) = true then
          { e with held := e.held.filter (fun i => i != fIndex l), got := addOnce e.got (fIndex l) }
        else e)
  else if fType l = 2 then syncApply s l
  else if fType l = 3 then arr.elim s (markerIn s p l)
  else if fType l = 5 then haltTake s p l
  else if fType l = 4 then unschedDeliver s p l
  else s

/-- A group fails: none of its effects is ever applied (R301). -/
def unheld (s : State) (l : List Byte) : State :=
  match ctxOfTag s (fPtag l) with
  | none => s
  | some c =>
    if fType l = 1 then
      onLink s c (fEntry l) (fun e => if e.inst = fInst l then { e with held := e.held.filter (fun i => i != fIndex l) } else e)
    else s

/-- The TAG of a group is right (R300, Table 12.7). -/
def tagOk (s : State) (p : Nat) (pay : List Byte) : Bool :=
  let x := portAt s p
  let flits := x.sealRx.map (fun f => f.flit)
  match flits, keyIn s (leAt pay 3 1) with
  | f :: _, some k =>
    decide (leAt pay 3 1 < 2) && leAt pay 2 1 == flits.length && leAt pay 0 2 == fSeq f && leAt pay 16 4 == x.peerSession &&
      leAt pay 4 12 == sealTag k (sealIv x.nbrRank x.nbrPort (leAt pay 16 4) (leAt pay 20 4)) flits
  | _, _ => false

/-- FLIT_TAG_RECEIVE (R301, R303). -/
def execFlitTagReceive (p : PortId) (flit : List Byte) (s : State) : Host.Outcome State Fault Refusal :=
  .next (
    if isFlit flit 6 then
      let (ok, s) := rxTake s p.val flit
      if ¬ ok then s
      else if ¬ fromNbr s p.val flit then portFence s p.val 1
      else if ¬ (portAt s p.val).sealed then s
      else
        let grp := (portAt s p.val).sealRx
        let good := tagOk s p.val (fPay flit)
        let s := onPort s p.val (fun x => { x with sealRx := [] })
        if good then grp.foldl (fun s f => if f.good then verified s p.val f.flit f.arr else s) s
        else
          let s := onPort (grp.foldl (fun s f => unheld s f.flit) s) p.val (fun x => { x with tagFail := satAdd 32 x.tagFail 1 })
          portFence s p.val 2
    else s)

/- Scheduled flits sent. -/

/-- The outbound sync entry of a plan on a port (R290). -/
def syncEntry (s : State) (c p : Nat) : Option (Nat × LinkEnt) :=
  let l := (ctxAt s c).links
  ((List.range l.length).find? (fun i => match l[i]? with
    | some e => !e.inbound && e.kind == 2 && e.port == p
    | none => false)).bind (fun i => (l[i]?).map (fun e => (i, e)))

/-- The entry's window is open (R288). -/
def windowOpen (s : State) (e : LinkEnt) : Bool := decide (e.first ≤ s.beat.slot) && decide (s.beat.slot ≤ e.last)

/-- The outbound entry of a forward. -/
def fwdEntry (s : State) (f : Forward) : Option LinkEnt :=
  match (ctxAt s f.ctx).links[f.entry]? with
  | some e => if e.inbound then none else some e
  | none => none

/-- The slot, counted from beat 0, that ends the window of a forward (R205): the first of its entry's windows that has not closed when
the tile is ready. -/
def fwdClose (f : Forward) (e : LinkEnt) : Nat :=
  128 * (if f.born % 128 ≤ e.last then f.born / 128 else f.born / 128 + 1) + e.last

/-- A forward may send now (R290): its window is open, and it has not missed it. -/
def fwdOpen (s : State) (f : Forward) : Bool :=
  match fwdEntry s f with
  | some e =>
    portUp s f.port && windowOpen s e && decide (128 * s.beat.num + s.beat.slot ≤ fwdClose f e) && txRoom (portAt s f.port) 1 &&
      (portAt s f.port).txWait.isEmpty
  | none => false

/-- The window that a forward was ready for has closed, or its port is not UP (R205). -/
def fwdLost (s : State) (f : Forward) : Bool :=
  match fwdEntry s f with
  | some e => !portUp s f.port || decide (fwdClose f e < 128 * s.beat.num + s.beat.slot)
  | none => true

/-- A tile of an entry below i is ready and its window is open on a port (R290). -/
def lowerTile (s : State) (p i : Nat) : Bool :=
  (List.range 4).any (fun r => (quadAt s r).fwds.any (fun g => g.port == p && decide (g.entry < i) && fwdOpen s g))

/-- The sync flit that a port may send next: that of the lowest sync entry whose window is open, in the order of its SENDs (R261, R290). -/
def nextSync (s : State) (p : Nat) : Option (SendWait × Nat × LinkEnt) :=
  ((portAt s p).syncq.filterMap (fun w => (syncEntry s w.ctx p).bind (fun x =>
    let e := x.2.forInst (w.inst % 65536)
    if windowOpen s e && decide (e.sent < e.flits) then some (w, x.1, e) else none))).foldl (fun m x => match m with
      | none => some x
      | some y => if x.2.1 < y.2.1 then some x else some y) none

/-- Send the sync flits that wait on a port, in ascending entry order, while there is room and no tile of a lower entry is ready (R261,
R290). -/
def flushSync : Nat → State → Nat → State
  | 0, s, _ => s
  | n + 1, s, p =>
    match nextSync s p with
    | none => s
    | some (w, i, e) =>
      if portUp s p && txRoom (portAt s p) 2 && (portAt s p).txWait.isEmpty && !lowerTile s p i then
        let id := (ctxAt s w.ctx).planId
        let pay := leBytes 8 id ++ leBytes 2 w.obj ++ leBytes 2 w.inc ++ leBytes 2 w.inst
        let s := onLink (onPort s p (fun x => { x with syncq := x.syncq.erase w })) w.ctx i (fun _ => { e with sent := e.sent + 1 })
        flushSync n (txFlit s p (mkFlit 2 s.beat.ownRank e.peer e.peerEntry e.sent w.inst (id % 65536) pay)) p
      else s

/-- What a port may send once a window opens or room appears. -/
def portFlush (s : State) (p : Nat) : State :=
  let s := flushSync (portAt s p).syncq.length s p
  flushUnsched (portAt s p).waitq.length s p

/-- FLIT_ACK_RECEIVE (R286, R292): acknowledged flits leave the replay buffer, and credits return. -/
def execFlitAckReceive (p : PortId) (flit : List Byte) (s : State) : Host.Outcome State Fault Refusal :=
  .next (
    if portUp s p.val = true ∧ isFlit flit 0x11 = true then
      let s := rxCount s p.val
      if hcrcOk flit then
        let pay := fPay flit
        let old := (portAt s p.val).buffer
        let left := old.filter (fun f => !seqLe (fSeq f) (leAt pay 0 2))
        let s := onPort s p.val (fun x =>
          { x with buffer := left, credit := min 64 (x.credit + leAt pay 2 2),
                   timeouts := if left.length < old.length then 0 else x.timeouts })
        portFlush (drainWait (portAt s p.val).txWait.length s p.val) p.val
      else hcrcNak s p.val flit
    else s)

/-- FLIT_NAK_RECEIVE (R286). -/
def execFlitNakReceive (p : PortId) (flit : List Byte) (s : State) : Host.Outcome State Fault Refusal :=
  .next (
    if portUp s p.val = true ∧ isFlit flit 0x12 = true then
      let s := rxCount s p.val
      if hcrcOk flit then
        let s := onPort s p.val (fun x => { x with nak := satAdd 32 x.nak 1 })
        resend s p.val (leAt (fPay flit) 0 2)
      else hcrcNak s p.val flit
    else s)

/-- The forward that a quadrant sends next: the open one of the lowest entry, unless a lower one, tile or sync, is open on the same
port (R290). -/
def nextForward (s : State) (q : Nat) : Option Forward :=
  let best := ((quadAt s q).fwds.filter (fwdOpen s)).foldl (fun (m : Option Forward) f => match m with
    | none => some f
    | some g => if f.entry < g.entry then some f else some g) none
  match best with
  | none => none
  | some f =>
    if lowerTile s f.port f.entry || (nextSync s f.port).any (fun x => decide (x.2.1 < f.entry)) then none else some f

/-- Send the flits of a forward from one index on while there is room. -/
def sendTile : Nat → State → Forward → LinkEnt → Nat → Nat × State
  | 0, s, _, _, i => (i, s)
  | n + 1, s, f, e, i =>
    if i < e.flits ∧ txRoom (portAt s f.port) 1 = true then
      sendTile n (txFlit s f.port (mkFlit 1 s.beat.ownRank e.peer e.peerEntry i f.inst ((ctxAt s f.ctx).planId % 65536)
        (bytesAt f.bytes (240 * i) 240))) f e (i + 1)
    else (i, s)

/-- Meaning of FORWARD_TILE_SEND (R203, R290): the tile's flits go out in order as far as the replay buffer has room; the last one
ends the forward. -/
def forwardSend (s : State) (q : Nat) : State :=
  if ¬ lnkUp s then s
  else
    match nextForward s q with
    | none => s
    | some f =>
      match fwdEntry s f with
      | none => s
      | some e =>
        let (i, s) := sendTile 512 s f e f.sent
        let s :=
          if e.flits ≤ i then onQuad s q (fun x => { x with fwds := x.fwds.erase f, fusFwd := satAdd 32 x.fusFwd 1 })
          else onQuad s q (fun x => { x with fwds := x.fwds.map (fun g => if g = f then { f with sent := i } else g) })
        flushSync (portAt s f.port).syncq.length s f.port

/-- FORWARD_TILE_SEND (R203). -/
def execForwardTileSend (q : Quad) (s : State) : Host.Outcome State Fault Refusal := .next (forwardSend s q.val)

/-- A forward is given up (R205). -/
def dropForward (s : State) (q : Nat) (f : Forward) : State :=
  let fenced := (portAt s f.port).st == .fenced
  let s := onQuad s q (fun x =>
    { x with fwds := x.fwds.erase f, fusDrop := true, fusCode := 3, fusFwdDrop := satAdd 32 x.fusFwdDrop 1 })
  let s := raise s 0x0604 .major 0
  faultBatch s f.ctx f.adm true (fun g =>
    let g := g.because 0x0604
    if fenced then { g with fenced := true } else { g with poisoned := true })

/-- FORWARD_DROP (R205). -/
def execForwardDrop (q : Quad) (s : State) : Host.Outcome State Fault Refusal :=
  .next (
    if alive s then
      match (quadAt s q.val).fwds.find? (fwdLost s) with
      | none => s
      | some f => dropForward s q.val f
    else s)

end Sys2Proof.Machine
end

