-- ==== Sys2Proof/Machine/Sync.lean ====
section
/-! DEFINITION. Sync objects (chapter 11): the operations of Table 11.1, the threshold rule (R255, R257), the ascending rule (R258,
R259), the beat edge's time limit (R264) and the realignment at request boundaries (R266). -/

namespace Sys2Proof.Machine

open Sys2Proof

/-- The threshold of an operation of instance n (R255). -/
def soThreshold (step n min : Nat) : Nat := (step * n + min) % 2 ^ 32

/-- A value meets a threshold: (VALUE − T) mod 2^32 is less than 2^31 (R255). -/
def soMet (value thr : Nat) : Bool := decide ((value + 2 ^ 32 - thr % 2 ^ 32) % 2 ^ 32 < 2 ^ 31)

/-- The physical index of a plan's object (R253). -/
def soIndex (s : State) (c i : Nat) : Nat := (ctxAt s c).soBase + i

/-- The threshold of an operation of a batch on a physical object. -/
def opThreshold (s : State) (c adm obj min : Nat) : Nat := soThreshold (soAt s obj).step (batchN s c adm) min

/-- A quadrant, for whatever context, holds an object at or above an index (R258). -/
def holdsFrom (s : State) (q obj : Nat) : Bool :=
  s.so.obj.any (fun e => decide (obj ≤ e.1) && e.2.holder.any (fun h => h.2 == q))

/-- SO_LAST. -/
def soLast (s : State) (code c q obj : Nat) : State :=
  { s with so.lastCode := code, so.lastCtx := c, so.lastQuad := q, so.lastIdx := obj }

/-- ORDER_FAULT (R258): nothing is performed, the instance is faulted, and its quadrant runs no further work of it. -/
def orderFault (s : State) (q c adm obj : Nat) : State :=
  let s := raise (soLast { s with so.orderx := satAdd 32 s.so.orderx 1 } 0x52 c q obj) 0x0A01 .major 0
  stopWork (faultBatch s c adm true (fun f => { f.because 0x0A01 with orderFault := true })) q c adm

/-- NOT_OWNER of a REL (R259). -/
def relFault (s : State) (q c adm obj : Nat) : State :=
  let s := raise (soLast { s with so.nownx := satAdd 32 s.so.nownx 1 } 0x40 c q obj) 0x0A03 .major 0
  stopWork (faultBatch s c adm true (fun f => { f.because 0x0A03 with notOwner := true })) q c adm

/-- The operation may proceed on the values in force (R254, R255). -/
def soReady (s : State) (acq : Bool) (obj thr : Nat) : Bool :=
  soMet (soAt s obj).value thr && (!acq || (soAt s obj).holder.isNone)

/-- An ACQ or WAIT of a batch is performed. -/
def soPerform (s : State) (q c adm : Nat) (acq : Bool) (obj : Nat) : State :=
  let s := if acq then onSo s obj (fun o => { o with holder := some (c, q), heldBy := some adm, left := false }) else s
  popOp (onQuad s q (fun x => { x with blocked := none })) q

/-- A quadrant below q is blocked in an ACQ of an object that it may now take (R257). -/
def lowerReady (s : State) (q obj : Nat) : Bool :=
  (List.range q).any (fun r => match (quadAt s r).blocked with
    | some a => a.acq && a.obj == obj && soReady s true a.obj a.thr
    | none => false)

/-- An ACQ or WAIT is issued (R254, R257, R258). -/
def soIssue (s : State) (q : Nat) (t : Todo) (acq : Bool) (i min : Nat) : State :=
  let obj := soIndex s t.ctx i
  let thr := opThreshold s t.ctx t.adm obj min
  if holdsFrom s q obj then advanceAll (orderFault s q t.ctx t.adm obj) q
  else if soReady s acq obj thr && !(acq && lowerReady s q obj) then soPerform s q t.ctx t.adm acq obj
  else onQuad s q (fun x => { x with blocked := some { acq := acq, obj := obj, thr := thr } })

/-- SYNC_ACQ (R254). -/
def execSyncAcq (q : Quad) (s : State) : Host.Outcome State Fault Refusal :=
  .next (
    match headOp s q.val with
    | some t => match t.op with
      | .acq i min => soIssue s q.val t true i min
      | _ => s
    | none => s)

/-- SYNC_WAIT (R254). -/
def execSyncWait (q : Quad) (s : State) : Host.Outcome State Fault Refusal :=
  .next (
    match headOp s q.val with
    | some t => match t.op with
      | .wait i min => soIssue s q.val t false i min
      | _ => s
    | none => s)

/-- Meaning of SYNC_REL (R254, R259). -/
def soRelease (s : State) (q : Nat) (t : Todo) (i inc : Nat) : State :=
  let obj := soIndex s t.ctx i
  if (soAt s obj).holder = some (t.ctx, q) then
    popOp (onSo s obj (fun o => { o with value := (o.value + inc) % 2 ^ 32, holder := none, heldBy := none, left := false })) q
  else advanceAll (relFault s q t.ctx t.adm obj) q

/-- SYNC_REL (R254). -/
def execSyncRel (q : Quad) (s : State) : Host.Outcome State Fault Refusal :=
  .next (
    match headOp s q.val with
    | some t => match t.op with
      | .rel i inc => soRelease s q.val t i inc
      | _ => s
    | none => s)

/-- SYNC_SEND (R254, R261): the flit leaves in its link window; the quadrant does not wait for it. -/
def execSyncSend (q : Quad) (s : State) : Host.Outcome State Fault Refusal :=
  .next (
    match headOp s q.val with
    | some t => match t.op with
      | .send obj inc port =>
        let s := if portUp s port.val then
            onPort s port.val (fun x => { x with syncq := x.syncq ++ [{ ctx := t.ctx, inst := batchN s t.ctx t.adm, obj := obj, inc := inc }] })
          else s
        popOp (flushSync (portAt s port.val).syncq.length s port.val) q.val
      | _ => s
    | none => s)

/-- A blocked operation of a quadrant can proceed now: no lower quadrant wins its object in the same clock (R257). -/
def canProceed (s : State) (q : Nat) : Bool :=
  match (quadAt s q).blocked with
  | none => false
  | some b =>
    soReady s b.acq b.obj b.thr && !(b.acq && lowerReady s q b.obj)

/-- Meaning of BLOCKED_OP_PROCEED (R255, R257). -/
def blockedProceed (s : State) (q : Nat) : State :=
  match (quadAt s q).blocked, (quadAt s q).todo with
  | some b, t :: _ => if canProceed s q then soPerform s q t.ctx t.adm b.acq b.obj else s
  | _, _ => s

/-- BLOCKED_OP_PROCEED (R257). -/
def execBlockedOpProceed (q : Quad) (s : State) : Host.Outcome State Fault Refusal :=
  .next (if quadUp s q.val && coreRuns s then blockedProceed s q.val else s)

/-- WAIT_TIMEOUT (R264): an operation still blocked at the edge is abandoned; one whose condition holds has proceeded. -/
def waitTimeout (s : State) (q : Nat) : State :=
  match (quadAt s q).blocked, (quadAt s q).todo with
  | some b, t :: _ =>
    if canProceed s q then blockedProceed s q
    else
      let s := soLast { s with so.timeoutx := satAdd 32 s.so.timeoutx 1 } 0x53 t.ctx q b.obj
      let s := raise s 0x0A02 .major 0
      stopWork (faultBatch s t.ctx t.adm true (fun f => { f.because 0x0A02 with waitTimeout := true })) q t.ctx t.adm
  | _, _ => s

/-- The physical indexes of a plan's objects. -/
def soRange (s : State) (c : Nat) : List Nat := (List.range (ctxAt s c).soCount).map (fun i => (ctxAt s c).soBase + i)

/-- A hold is cleared; one that a completed instance left is counted, with event 0x0A04 (R266). -/
def soStray (s : State) (i : Nat) : State :=
  if (soAt s i).holder.isSome then
    let t := onSo s i (fun o => { o with holder := none, heldBy := none, left := false })
    if (soAt s i).left then raise { t with so.stray := satAdd 32 t.so.stray 1 } 0x0A04 .minor 0 else t
  else s

/-- A batch of a plan has completed: what it still holds it has left (R266). -/
def leaveHolds (s : State) (c adm : Nat) : State :=
  { s with so.obj := s.so.obj.map (fun e =>
      if e.2.holder.any (fun h => h.1 == c) ∧ e.2.heldBy = some adm then (e.1, { e.2 with left := true }) else e) }

/-- The value of an object is raised to one it has not met (R266). -/
def soRaiseTo (s : State) (i base : Nat) : State :=
  if soMet (soAt s i).value base then s else onSo s i (fun o => { o with value := base })

/-- An object at the admission edge of instance n: its base is STEP × n (R266). -/
def soRealign (n : Nat) (s : State) (i : Nat) : State := soRaiseTo (soStray s i) i (((soAt s i).step * n) % 2 ^ 32)

/-- R266 at the admission edge of instance n: every hold is cleared, and each value is raised to STEP × n. -/
def syncRealign (s : State) (c n : Nat) : State :=
  (soRange s c).foldl (soRealign n) s

/-- PLAN_ACTIVATE and a Hive reset set every object of the plan to VALUE 0 and no holder, and n to 0 (R266). -/
def syncZero (s : State) (c : Nat) : State :=
  let s := (soRange s c).foldl (fun s i => onSo s i (fun o => { o with value := 0, holder := none, heldBy := none, left := false })) s
  { s with so.inst := vput s.so.inst c 0 }

/-- A quadrant that is reset or loses power holds nothing (R274). -/
def clearHolds (s : State) (q : Nat) : State :=
  { s with so.obj := s.so.obj.filterMap (fun e =>
      let o := match e.2.holder with
        | some (_, r) => if r = q then { e.2 with holder := none, heldBy := none, left := false } else e.2
        | none => e.2
      if o = SoObj.init then none else some (e.1, o)) }

end Sys2Proof.Machine
end

