-- ==== Sys2Proof/Machine/Image.lean ====
section
/-! DEFINITION. Plan images (chapter 5): the header (R111), the section table (R112), the claims (R113) and the content of each
section, read into the fields of a plan context; the initial band and pump code of a profile (R57, R60). Layouts that the spec does
not give (PROFILES, PARITY, GROUPS) are those of log 30. -/

namespace Sys2Proof.Machine

open Sys2Proof

/-- One entry of the section table (R112). -/
structure Sect where
  typ : Nat
  flags : Nat
  len : Nat
  off : Nat
deriving DecidableEq, Repr

/-- SECTIONS of the header (Table 5.2). -/
def imgSections (l : List Byte) : Nat := leAt l 6 2
/-- PLAN_ID of the header. -/
def imgPlanId (l : List Byte) : Nat := leAt l 8 8
/-- IMAGE_BYTES of the header. -/
def imgBytes (l : List Byte) : Nat := leAt l 16 8
/-- SLOT_TICKS of the header. -/
def imgTicks (l : List Byte) : Nat := leAt l 24 2
/-- FIT_MODES of the header. -/
def imgFit (l : List Byte) : Nat := leAt l 26 1
/-- OVERRUN of the header. -/
def imgOverrun (l : List Byte) : Nat := leAt l 27 1
/-- HIVE_SIZE of the header. -/
def imgHive (l : List Byte) : Nat := leAt l 28 2
/-- RANK of the header. -/
def imgRank (l : List Byte) : Nat := leAt l 30 2
/-- DIGEST of the header holds (Table 5.2). -/
def imgDigestOk (l : List Byte) : Bool := sha256 (bytesAt l 128 (imgBytes l - 128)) == bytesAt l 64 32

/-- The section table (R112). -/
def sects (l : List Byte) : List Sect :=
  (List.range (imgSections l)).map (fun i =>
    let o := 128 + 16 * i
    { typ := leAt l o 2, flags := leAt l (o + 2) 2, len := leAt l (o + 4) 4, off := leAt l (o + 8) 8 })
/-- The sections of a type. -/
def sectsOf (l : List Byte) (t : Nat) : List Sect := (sects l).filter (fun x => x.typ == t)
/-- The bytes of the first section of a type; none where the image has no such section. -/
def sectBytes (l : List Byte) (t : Nat) : List Byte :=
  match sectsOf l t with
  | [] => []
  | x :: _ => bytesAt l x.off x.len

/-- The claims (Table 5.4). -/
structure Claims where
  banks : List Nat
  quads : Nat
  usMin : Nat
  profiles : Nat
  parity : Nat
  soCount : Nat
  buffers : Nat
  streams : Nat
  feeders : List Nat
  ports : Nat
  xmBytes : Nat
  ctxBytes : Nat
  rsv : Bool
deriving DecidableEq, Repr

/-- Read the CLAIMS section (Table 5.4). -/
def readClaims (l : List Byte) : Claims :=
  { banks := (List.range 4).map (fun q => leAt l q 1), quads := leAt l 4 1, usMin := leAt l 5 1, profiles := leAt l 6 1,
    parity := leAt l 7 1, soCount := leAt l 8 2, buffers := leAt l 10 2, streams := leAt l 12 2,
    feeders := (List.range 4).map (fun q => leAt l (16 + q) 1), ports := leAt l 20 4, xmBytes := leAt l 24 8,
    ctxBytes := leAt l 32 8, rsv := (bytesAt l 14 2 ++ bytesAt l 40 24).all (fun b => b == 0#8) }

/-- The plan claims a bank of a slice. -/
def Claims.bank (c : Claims) (q b : Nat) : Bool := decide (b < c.banks.getD q 0)
/-- The plan claims a port. -/
def claimsPort (ports p : Nat) : Bool := decide (p < 20) && decide (ports / 2 ^ p % 2 = 1)
/-- The plan claims a quadrant. -/
def claimsQuad (quads q : Nat) : Bool := decide (quads / 2 ^ q % 2 = 1)

/-- The 128 slot descriptors. -/
def imgSlots (l : List Byte) : List Nat := (List.range 128).map (fun i => leAt (sectBytes l 2) (4 * i) 4)

/-- One entry of the PROFILES section (log 30), with its BASE mark. -/
def readProfile (l : List Byte) (o : Nat) : Profile × Bool :=
  let p := leAt l o 1
  let n := leAt l (o + 1) 1
  let f := leAt l (o + 2) 3
  ({ fallback := leAt l (o + 6) 1, icp := pumpCode n f 450, band := initialBand p n f, valid := true, d := leAt l (o + 5) 1, p := p,
     n := n, f := f, kvco := 450, vtCal := 0 }, decide (leAt l (o + 15) 1 / 128 = 1))

/-- The entries of the PROFILES section. -/
def imgProfiles (l : List Byte) : List (Profile × Bool) :=
  let b := sectBytes l 3
  (List.range (b.length / 16)).map (fun i => readProfile b (16 * i))

/-- A run of weight pages: slice, plan bank, first page, and the offset and number of its pages in the image (Table 5.3). -/
structure WeightRun where
  slice : Nat
  bank : Nat
  first : Nat
  off : Nat
  pages : Nat
deriving DecidableEq, Repr

/-- The WEIGHTS sections. -/
def imgWeights (l : List Byte) : List WeightRun :=
  (sectsOf l 4).map (fun x =>
    { slice := leAt l x.off 1, bank := leAt l (x.off + 1) 1, first := leAt l (x.off + 2) 2, off := x.off + 4,
      pages := (x.len - 4) / 4096 })

/-- A 192-byte page map as a list of page numbers (Table 5.3). -/
def usedPages (l : List Byte) : List Nat := (List.range 1536).filter (fun n => decide (leAt l (n / 8) 1 / 2 ^ (n % 8) % 2 = 1))

/-- The plan banks of the claims in slice, then bank order, as 64 q + b. -/
def claimedBanks (c : Claims) : List Nat := (List.range 4).flatMap (fun q => (List.range (c.banks.getD q 0)).map (fun b => 64 * q + b))

/-- The page maps of a list of plan banks, one after another (Table 5.3). -/
def readBankUse (l : List Byte) (banks : List Nat) : SMap (List Nat) :=
  banks.zipIdx.map (fun k => (k.1, usedPages (bytesAt l (192 * k.2) 192)))

/-- One LINKS entry (Table 12.5). -/
def readLink (l : List Byte) (o : Nat) : LinkEnt :=
  { port := leAt l o 1, inbound := leAt l (o + 1) 1 == 1, kind := leAt l (o + 2) 1, first := leAt l (o + 3) 1,
    last := leAt l (o + 4) 1, peer := leAt l (o + 6) 2, flits := leAt l (o + 8) 2, object := leAt l (o + 10) 2,
    peerEntry := leAt l (o + 12) 2, dest := leAt l (o + 16) 8,
    rsv := leAt l (o + 5) 1 + leAt l (o + 14) 2 + (if 1 < leAt l (o + 1) 1 then 1 else 0), got := [], held := [], inst := 0,
    complete := false, sent := 0 }

/-- A section that begins with a 4-byte count and holds entries of n bytes, read by f; none where the length does not fit. -/
def counted {α : Type} (l : List Byte) (n : Nat) (f : List Byte → Nat → α) : List α :=
  (List.range (leAt l 0 4)).map (fun i => f l (4 + n * i))

/-- One stage descriptor (Table 8.3). -/
def readDesc (l : List Byte) (o : Nat) : StageDesc :=
  { chain := leAt l o 1, prologue := leAt l (o + 1) 1, perStage := leAt l (o + 2) 1 == 1, ifmt := leAt l (o + 3) 1,
    ofmt := leAt l (o + 4) 1, act := leAt l (o + 5) 1, keepK := leAt l (o + 6) 1, qmode := leAt l (o + 7) 1,
    hyst := leAt l (o + 8) 1, scaleSrc := leAt l (o + 9) 1, biasSrc := leAt l (o + 10) 1, fwdPayload := leAt l (o + 11) 1,
    amaxGain := leAt l (o + 12) 4, scalar := leAt l (o + 16) 4, scaleVec := leAt l (o + 20) 4, biasVec := leAt l (o + 24) 4,
    initScale := leAt l (o + 28) 4, fwdRank := leAt l (o + 32) 2, fwdPort := leAt l (o + 34) 1, gatherRows := leAt l (o + 36) 4,
    rsv := leAt l (o + 35) 1 + leAt l (o + 40) 8 + (if 1 < leAt l (o + 2) 1 then 1 else 0) }

/-- One initial stream entry (Table 9.1, R214), and the bytes that must be 0. -/
def readStream (l : List Byte) (o : Nat) : StreamEnt × Nat :=
  ({ StreamEnt.init with ptr := leAt l o 8, g := leAt l (o + 8) 2, nLog2 := leAt l (o + 10) 1, mode := leAt l (o + 11) 1,
                         len := leAt l (o + 12) 2, renorm := leAt l (o + 14) 1, quad := leAt l (o + 15) 1,
                         lambda := leAt l (o + 16) 4 }, leAt l (o + 20) 12)

/-- The stream entries of an image. -/
def imgStreams (l : List Byte) : List (StreamEnt × Nat) :=
  match sectsOf l 9 with
  | [] => []
  | _ => counted (sectBytes l 9) 32 readStream

/-- Entries of the PARITY section: stripe, plan page, role (log 30). -/
def imgStripes (l : List Byte) : List (Nat × Nat × Nat) :=
  let b := sectBytes l 8
  (List.range (b.length / 12)).map (fun i => (leAt b (12 * i) 4, leAt b (12 * i + 4) 4, leAt b (12 * i + 8) 1))

/-- n slice and bank pairs from an offset. -/
def readPairs (l : List Byte) (o n : Nat) : List (Nat × Nat) := (List.range n).map (fun i => (leAt l (o + 2 * i) 1, leAt l (o + 2 * i + 1) 1))

/-- n groups from an offset: a 2-byte bank count, then the pairs, padded to 4 bytes (log 30). -/
def readGroups (l : List Byte) : Nat → Nat → List (List (Nat × Nat))
  | 0, _ => []
  | n + 1, o =>
    let k := leAt l o 2
    readPairs l (o + 2) k :: readGroups l n (o + roundUp 4 (2 + 2 * k))

/-- The replacement groups of an image. -/
def imgGroups (l : List Byte) : List (List (Nat × Nat)) :=
  match sectsOf l 11 with
  | [] => []
  | _ => readGroups (sectBytes l 11) (min 256 (leAt (sectBytes l 11) 0 4)) 4

/-- A plan context with all that an image gives it, before its resources are placed. -/
def imageCtx (src : PlanSource) : PlanCtx :=
  let l := src.bytes
  let c := readClaims (sectBytes l 1)
  { PlanCtx.init with
    planId := imgPlanId l, parity := c.parity == 1, soCount := c.soCount, src := some src, slotTicks := imgTicks l,
    admitRate := leAt l 32 4, skip := imgOverrun l == 1, hiveSize := imgHive l, quads := c.quads, usMin := c.usMin, ports := c.ports,
    banks := c.banks, feeders := c.feeders, xmBytes := c.xmBytes, ctxBytes := c.ctxBytes, slots := imgSlots l,
    profiles := (imgProfiles l).zipIdx.map (fun p => (p.2, p.1.1, p.1.2)),
    bankUse := readBankUse (sectBytes l 5) (claimedBanks c),
    chains := (match sectsOf l 10 with
      | [] => []
      | _ => counted (sectBytes l 10) 48 readDesc),
    links := (match sectsOf l 7 with
      | [] => []
      | _ => counted (sectBytes l 7) 24 readLink),
    groups := imgGroups l, stripes := imgStripes l, rcsCount := c.streams }

/-- A byte of the image's weights at a plan Comb address, 0 where no WEIGHTS section writes it (R119). -/
def weightByte (l : List Byte) (ws : List WeightRun) (a : Nat) : Nat :=
  let q := a / 0x18000000
  let b := a % 0x18000000 / 0x600000
  let pg := a % 0x600000 / 4096
  match ws.find? (fun w => w.slice == q && w.bank == b && decide (w.first ≤ pg) && decide (pg < w.first + w.pages)) with
  | some w => leAt l (w.off + 4096 * (pg - w.first) + a % 4096) 1
  | none => 0

/-- A weight tile as the image holds it. -/
def imageView (src : PlanSource) (a : Nat) : WView :=
  let ws := imgWeights src.bytes
  { byte := fun o => weightByte src.bytes ws (a + o), bad := fun _ => false }

end Sys2Proof.Machine
end

