-- ==== Sys2Proof/Machine/LoadCheck.lean ====
section
/-! DEFINITION. The checks of a plan at load (R115, Table 5.5): the shape of the image, its consistency with itself and with the
device, and the fit checks with their shortfall table (R116). -/

namespace Sys2Proof.Machine

open Sys2Proof

/- Step 1: BAD_PAYLOAD. -/

/-- Sections do not overlap. -/
def sectsApart : List Sect → Bool
  | [] => true
  | x :: r => r.all (fun y => apart (x.off, x.len) (y.off, y.len)) && sectsApart r

/-- A counted section holds exactly its entries (R115). -/
def countFits (l : List Byte) (t n max : Nat) : Bool :=
  (sectsOf l t).all (fun x => decide (x.len = 4 + n * leAt l x.off 4) && decide (leAt l x.off 4 ≤ max))

/-- A WEIGHTS section holds whole pages of a bank. -/
def weightShape (x : Sect) : Bool := decide (4 ≤ x.len) && decide ((x.len - 4) % 4096 = 0)

/-- Header, section table, bounds and counts of an image (R111, R112, Table 5.3). -/
def imageShape (src : PlanSource) : Bool :=
  let l := src.bytes
  let n := imgSections l
  let one (t : Nat) : Bool := (sectsOf l t).length == 1
  let atMost1 (t : Nat) : Bool := decide ((sectsOf l t).length ≤ 1)
  decide (leAt l 0 4 = 0x4E414C50) && decide (leAt l 4 2 = 1) && decide (3 ≤ n) && decide (n ≤ 32) &&
    (bytesAt l 36 28 ++ bytesAt l 96 32).all (fun b => b == 0#8) && decide (imgBytes l % 4096 = 0) &&
    decide (imgBytes l ≤ l.length) && decide (4096 ≤ imgBytes l) &&
    (sects l).all (fun x => x.flags == 0 && decide (1 ≤ x.typ) && decide (x.typ ≤ 11) && decide (x.off % 4096 = 0) &&
      decide (128 + 16 * n ≤ x.off) && decide (x.off + x.len ≤ imgBytes l)) && sectsApart (sects l) &&
    one 1 && (sectBytes l 1).length == 64 && one 2 && (sectBytes l 2).length == 512 && one 3 &&
    decide (16 ≤ (sectBytes l 3).length) && decide ((sectBytes l 3).length ≤ 256) && decide ((sectBytes l 3).length % 16 = 0) &&
    (sectsOf l 4).all weightShape && atMost1 5 && ((sectsOf l 4).isEmpty || one 5) && atMost1 7 && atMost1 8 && atMost1 9 &&
    atMost1 10 && atMost1 11 && countFits l 7 24 1024 && decide ((sectBytes l 8).length % 12 = 0) && countFits l 9 32 256 &&
    countFits l 10 48 256 && (readClaims (sectBytes l 1)).rsv && (sectsOf l 6).length == src.progs.length &&
    (List.range 4).all (fun q => (src.progs.filter (fun p => p.quad.val == q)).length ==
      bit1 (claimsQuad (readClaims (sectBytes l 1)).quads q))

/- Step 2: INCONSISTENT. -/

/-- The ranges of Tables 5.2 and 5.4. Table 5.5 lists no check of them; DESIGN CHOICE (log 109): a value outside them is INCONSISTENT. -/
def claimRanges (l : List Byte) (c : Claims) : Bool :=
  c.banks.all (fun b => decide (b ≤ 64)) && decide (c.quads < 16) && decide (4 ≤ c.usMin) && decide (c.usMin ≤ 32) &&
    decide (1 ≤ c.profiles) && decide (c.profiles ≤ 16) && decide (c.parity ≤ 1) && decide (c.soCount ≤ 256) &&
    decide (c.buffers ≤ 4096) && decide (c.streams ≤ 256) && c.feeders.all (fun f => decide (f ≤ 32)) &&
    decide (c.ports < 2 ^ 20) && (decide (c.ctxBytes = 0) || decide (imgFit l / 2 % 2 = 1)) && decide (imgOverrun l ≤ 1) &&
    decide (1 ≤ imgHive l) && decide (imgHive l ≤ 1024) && decide (imgPlanId l ≠ 0)

/-- The plan may load on this device in its present mode (R12, R13, R115). -/
def planFitsDevice (s : State) (l : List Byte) : Bool :=
  (ctxOf s (imgPlanId l)).isNone && (imgHive l == 1 || (s.hl.roster && imgRank l == s.beat.ownRank)) &&
    (if s.cmb.rotate then decide (imgFit l / 2 % 2 = 1) else decide (imgFit l % 2 = 1)) && decide (125 ≤ imgTicks l) &&
    decide (imgTicks l ≤ 12500) && s.cmb.ctx.toList.all (fun c => !c.st.resident || c.slotTicks == imgTicks l) && !fetchBusy s

/-- The slot table (R18 to R20): the plan's own work carries code 0 and lies on quadrants that it claims. -/
def slotTableOk (quads : Nat) (t : List Nat) : Bool :=
  let own (i q : Nat) : Nat := descOwner (t.getD i 0) q
  let all4 (f : Nat → Bool) : Bool := (List.range 4).all f
  (List.range 128).all (fun i =>
    let d := t.getD i 0
    decide (d < 2 ^ 18) && !(descHop d && (i == 0 || i == 127)) &&
      all4 (fun q => !(own i q == 7 || own i q == 1 || own i q == 2 || own i q == 3) && (own i q == 6) == (i == 127) &&
        !(i == 0 && own i q == 4) && (own i q != 0 || claimsQuad quads q))) &&
    (let g := ((List.range 128).filter (fun i => descGuaranteed (t.getD i 0))).length
     decide (4 ≤ g) && decide (g ≤ 32))

/-- A profile is valid (R55, Table 3.1) among n profiles. -/
def profileOk (n : Nat) (p : Profile) : Bool :=
  let m := p.n * 2 ^ 24 + p.f
  let d := min p.f (2 ^ 24 - p.f)
  (p.p == 1 || p.p == 2) && decide (24 ≤ p.n) && decide (p.n ≤ 255) && decide (9600 * p.p * 2 ^ 24 ≤ 100 * m) &&
    decide (100 * m ≤ 14400 * p.p * 2 ^ 24) && decide (p.d % 2 = 0) && decide (4 ≤ p.d) && decide (p.d ≤ 24) &&
    decide (600 * p.p * p.d * 2 ^ 24 ≤ 100 * m) && decide (100 * m ≤ 1800 * p.p * p.d * 2 ^ 24) &&
    (p.f == 0 || decide (5 * p.p * 2 ^ 24 ≤ 100 * d)) && decide (p.fallback < n)

/-- The invalid profiles of a plan as the response names them (R55): one index a byte. DESIGN CHOICE (log 112): R55 gives no layout. -/
def badProfiles (c : PlanCtx) : List Byte :=
  (c.profiles.filter (fun p => !profileOk c.profiles.length p.2.1)).flatMap (fun p => leBytes 1 p.1)

/-- The HOPs of a table: each names a profile of the plan other than the one in force there; one profile is the base (R72). -/
def hopsOk (n : Nat) (t : List Nat) (bases : List Nat) : Bool :=
  let h := hopsOf (fun i => t.getD i 0)
  let prev := h.getLast?.toList ++ h
  h.all (fun x => decide (x.2 < n)) && (prev.zip h).all (fun x => x.1.2 != x.2.2) &&
    (match h.getLast? with
     | none => bases.length == 1
     | some x => bases.all (fun b => b == x.2))

/-- WEIGHTS and BANKUSE agree with the claims (R115, Table 5.3): claimed banks, pages inside them, marked used, written once. -/
def weightsOk (c : Claims) (l : List Byte) (use : SMap (List Nat)) : Bool :=
  let ws := imgWeights l
  let pages := ws.flatMap (fun w => (List.range w.pages).map (fun i => (64 * w.slice + w.bank, w.first + i)))
  ((sectsOf l 5).isEmpty || (sectBytes l 5).length == 192 * (claimedBanks c).length) &&
    ws.all (fun w => decide (w.slice < 4) && c.bank w.slice w.bank && decide (w.first + w.pages ≤ 1536)) &&
    pages.all (fun p => ((use.find p.1).getD []).contains p.2) && decide (pages.length = pages.eraseDups.length)

/- Slot programs. -/

/-- Operations of a program in program order, with their slot keys. -/
def progOps (p : QuadProg) : List (Nat × ProgOp) := p.slots.flatMap (fun e => e.2.map (fun o => (e.1, o)))

/-- Keys rise strictly. -/
def keysRise : List Nat → Bool
  | a :: b :: r => decide (a < b) && keysRise (b :: r)
  | _ => true

/-- The plan's object of an index, as the program declares it: REMOTE or not (R253). -/
def objRemote (progs : List QuadProg) (i : Nat) : Bool := progs.any (fun p => p.objects.any (fun o => o.1 == i && o.2.1))
/-- STEP of the plan's object of an index. -/
def objStep (progs : List QuadProg) (i : Nat) : Nat :=
  ((progs.flatMap (fun p => p.objects)).find? (fun o => o.1 == i)).elim 0 (fun o => o.2.2)

/-- R260: the sync operations of one quadrant in program order, with the indexes held. -/
def syncOk (c : PlanCtx) (progs : List QuadProg) : List Nat → List ProgOp → Bool
  | _, [] => true
  | held, .acq i _ :: r =>
    decide (i < c.soCount) && !objRemote progs i && held.all (fun j => decide (j < i)) && syncOk c progs (i :: held) r
  | held, .rel i _ :: r => decide (i < c.soCount) && !objRemote progs i && syncOk c progs (held.filter (fun j => j != i)) r
  | held, .wait i _ :: r => decide (i < c.soCount) && held.all (fun j => decide (j < i)) && syncOk c progs held r
  | held, .send obj _ port :: r => decide (obj < c.soCount) && claimsPort c.ports port.val && syncOk c progs held r
  | held, _ :: r => syncOk c progs held r

/-- R219: the phases of each chunk in the order of Table 9.3; the second component is the phase that must come next. -/
def chunkOk (n : Nat) (ent : Nat → Option StreamEnt) (q : Nat) : Option (Nat × Nat) → List ProgOp → Bool
  | st, [] => st.isNone
  | st, .chunk d :: r =>
    match ent d.stream with
    | none => false
    | some e =>
      let m := (List.range 11).find? (fun k => decide (e.len ≤ 2 ^ k))
      let m := m.getD 10
      let k := match d.phase with
        | .gate => 0
        | .level j => j
        | .load => m + 1
        | .expand => m + 2
        | .readout => m + 3
        | .store => m + 4
      decide (e.quad = q) && decide (d.stream < n) &&
        (match st with
         | none => k == 0
         | some (i, next) => i == d.stream && k == next && k != 0) &&
        chunkOk n ent q (if k = m + 4 then none else some (d.stream, k + 1)) r
  | st, _ :: r => chunkOk n ent q st r

/-- R174: the passes of one tile use one mode and one anchor. -/
def modesOk (mode : PassDesc → AccMode) : Option (AccMode × Int) → List ProgOp → Bool
  | _, [] => true
  | st, .pass d :: r =>
    let m := mode d
    let a := anchorOf m d
    (match st with
     | none => true
     | some x => d.overwrite || (x.1 == m && x.2 == a)) &&
      modesOk mode (if d.tileEnd.isSome then none else some (m, a)) r
  | st, _ :: r => modesOk mode st r

/-- R220: the FC11 tiles of one quadrant, in program order, reach the fused streams whose GATE takes them with the ACT of their
DELTA_FN; acts lists the ACT of those not yet taken. -/
def fc11Ok (chains : List StageDesc) (ent : Nat → Option StreamEnt) : List Nat → List ProgOp → Bool
  | _, [] => true
  | acts, .pass d :: r =>
    match d.tileEnd.bind (fun i => chains[i]?) with
    | some x => fc11Ok chains ent (if x.chain = 11 then acts ++ [x.act] else acts) r
    | none => fc11Ok chains ent acts r
  | acts, .chunk d :: r =>
    match ent d.stream with
    | some e =>
      if e.fused ∧ d.phase = .gate then
        (acts.take (chunkTiles e)).all (fun a => a == e.deltaFn) && fc11Ok chains ent (acts.drop (chunkTiles e)) r
      else fc11Ok chains ent acts r
    | none => fc11Ok chains ent acts r
  | acts, _ :: r => fc11Ok chains ent acts r

/-- A tile is open after these operations of one slot (R185). -/
def openAfter (o : Bool) : List ProgOp → Bool
  | [] => o
  | .pass d :: r => openAfter ((o || d.overwrite) && d.tileEnd.isNone) r
  | .restore _ _ :: r => openAfter true r
  | _ :: r => openAfter o r

/-- R185 over the owned slots in order: own says whether a change of owner follows the slot. due: the next slot with work must
begin with RESTORE. -/
def savesOk (change : Nat → Bool) : Bool → Bool → List (Nat × List ProgOp) → Bool
  | _, _, [] => true
  | o, due, e :: r =>
    let starts := match e.2.head? with
      | some (.restore _ _) => true
      | _ => false
    let ends := match e.2.getLast? with
      | some (.save _ _) => true
      | _ => false
    let op := openAfter o e.2
    (!due || e.2.isEmpty || starts) && (!(op && change e.1) || ends || (due && e.2.isEmpty)) &&
      savesOk change op ((due && e.2.isEmpty) || (op && change e.1)) r

/-- Operations of a slot of a program. -/
def opsAt (p : QuadProg) (k : Nat) : List ProgOp := (p.slots.find? (fun e => e.1 == k)).elim [] (fun e => e.2)

/-- A slot key belongs to a slot that a quadrant owns. -/
def ownsKey (c : PlanCtx) (q k : Nat) : Bool := descOwner (c.slots.getD (k % 128) 0) q == 0

/-- A change of owner may follow a slot of a quadrant: the next one that is not Edge is not the plan's own (R185). -/
def ownerChanges (c : PlanCtx) (q k : Nat) : Bool :=
  ((List.range 128).map (fun i => descOwner (c.slots.getD ((k + 1 + i) % 128) 0) q)).find? (fun o => o != 6) != some 0

/-- Bytes of the plan's region: its XM_BYTES area and its CTX_BYTES area (R234). -/
def regionBytes (c : PlanCtx) : Nat := c.xmBytes + c.ctxBytes

/-- The ranges of one feed (R235). -/
def feedOk (c : PlanCtx) (q beats : Nat) (d : FeedDesc) : Bool :=
  decide (d.thread < c.feeders.getD q 0) && decide (d.startSlot < 128) && decide (d.deadSlot < 128) &&
    decide (128 * d.startBeat + d.startSlot ≤ 128 * d.deadBeat + d.deadSlot) && decide (d.deadBeat < beats) &&
    (match d.addr with
     | .plan a => decide (a + d.bytes ≤ regionBytes c)
     | _ => true) &&
    (match d.desc with
     | some i => decide (i < c.chains.length)
     | none => d.kind != .act)

/-- The ranges of one operation (R155, R167, R174, R186, R206, R214). -/
def opOk (c : PlanCtx) (q beats : Nat) : ProgOp → Bool
  | .pass d =>
    [1, 2, 4, 8].contains d.p && decide (d.kb ≤ 15) && decide (-512 ≤ d.anchor) && decide (d.anchor ≤ 511) &&
      (match d.tileEnd with
       | some i => decide (i < c.chains.length)
       | none => true)
  | .feed d => feedOk c q beats d
  | .save k _ => decide (16 ≤ k) && decide (k ≤ 512) && decide (k % 16 = 0)
  | .restore k _ => decide (16 ≤ k) && decide (k ≤ 512) && decide (k % 16 = 0)
  | .recordAdd a k _ => decide (16 ≤ k) && decide (k ≤ 512) && decide (k % 16 = 0) && decide (a + recLen k ≤ regionBytes c)
  | .acq _ m => decide (m < 65536)
  | .wait _ m => decide (m < 65536)
  | .rel _ m => decide (m < 65536)
  | .send _ m _ => decide (m < 65536)
  | .alloc _ _ => true
  | .free _ => true
  | .freeSlot k => decide (k < 16)
  | .chunk d => decide (d.stream < c.rcsCount)

/-- A tile record moves by a SAVE thread of the program that carries the whole record (Table 10.2, R186): a write into the plan's CTX_BYTES
area for SAVE, a read for RESTORE, and for a received record a read at its address (log 121). -/
def recordFeedOk (c : PlanCtx) (feeds : List FeedDesc) : ProgOp → Bool
  | .save k i => feeds.any (fun d => d.kind == .save && d.write && d.thread == i && d.bytes == recLen k && inCtx d)
  | .restore k i => feeds.any (fun d => d.kind == .save && !d.write && d.thread == i && d.bytes == recLen k && inCtx d)
  | .recordAdd a k i => feeds.any (fun d => d.kind == .save && !d.write && d.thread == i && d.bytes == recLen k && d.addr == .plan a)
  | _ => true
where
  /-- The feed's address lies in the CTX_BYTES area. -/
  inCtx (d : FeedDesc) : Bool :=
    match d.addr with
    | .plan a => decide (c.xmBytes ≤ a)
    | _ => false

/-- The feeds of a program. -/
def feedsOf (p : QuadProg) : List FeedDesc := (progOps p).filterMap (fun o => match o.2 with
  | .feed d => some d
  | _ => none)

/-- One quadrant slot program (R18, R153, R167, R174, R185, R206, R215, R219, R220, R260). -/
def progOk (c : PlanCtx) (src : PlanSource) (ent : Nat → Option StreamEnt) (p : QuadProg) : Bool :=
  let q := p.quad.val
  let ops := (progOps p).map (fun o => o.2)
  let mode (d : PassDesc) : AccMode := declaredMode (wHdr (imageView src d.tile)) d
  let owned := (List.range (128 * p.beats)).filter (ownsKey c q)
  claimsQuad c.quads q && decide (1 ≤ p.beats) && keysRise (p.slots.map (fun e => e.1)) &&
    p.slots.all (fun e => decide (e.1 < 128 * p.beats) && (ownsKey c q e.1 || e.2.all (isFeed))) && ops.all (opOk c q p.beats) &&
    syncOk c src.progs [] ops && chunkOk c.rcsCount ent q none ops && modesOk mode none ops &&
    fc11Ok c.chains ent [] ops && ops.all (recordFeedOk c (feedsOf p)) &&
    (decide (imgFit src.bytes / 2 % 2 = 0) || savesOk (ownerChanges c q) false false (owned.map (fun k => (k, (opsAt p k).filter (fun o => !isFeed o)))))

/-- FP32, positive and finite. -/
def posFinite (code : Nat) : Bool :=
  let v := fp32Of code
  !v.isNan && !v.isInf && !v.isZero && !v.isNeg

/-- A Comb vector of n values lies in claimed banks of one plan. -/
def vecOk (banks : List Nat) (a n : Nat) : Bool :=
  let inBank (x : Nat) : Bool := decide (x / 0x18000000 < 4) && decide (x % 0x18000000 / 0x600000 < banks.getD (x / 0x18000000) 0)
  decide (a % 64 = 0) && inBank a && inBank (a + 4 * n - 1)

/-- The columns of a descriptor's tiles: the most that a pass that names it at TILE_END declares (R206), 16 where none does. -/
def descCols (c : PlanCtx) (i : Nat) : Nat :=
  ((progsOf c).flatMap (fun p => (progOps p).map (fun o => match o.2 with
    | .pass d => if d.tileEnd = some i then d.outCols else 0
    | _ => 0))).foldl max 16

/-- One stage descriptor, of an index (R206, R458, Table 8.3). -/
def descOk (c : PlanCtx) (i : Nat) (d : StageDesc) : Bool :=
  let r := chainRow d.chain
  let cols := descCols c i
  let zero (b : Bool) (v : Nat) : Bool := b || v == 0
  let inScale := decide (d.qmode / 128 = 1)
  decide (d.chain ≤ 11) && decide (d.prologue ≤ 2) && decide (d.rsv = 0) &&
    (if d.prologue = 2 then decide (1 ≤ d.gatherRows) && decide (d.gatherRows ≤ 2 ^ 24) else d.gatherRows == 0) &&
    (if d.chain = 10 then !d.perStage && d.ofmt == 0
     else if r.quant then decide (d.ofmt ≤ 3)
     else if d.chain = 11 then d.ofmt == 6 else d.ofmt == 4 || d.ofmt == 5 || d.ofmt == 6) &&
    (if d.perStage then decide (d.ifmt ≤ 2) else d.ifmt == 0) && zero r.scaleBias d.scaleSrc && decide (d.scaleSrc ≤ 2) &&
    (if d.scaleSrc = 1 then vecOk c.banks d.scaleVec cols else d.scaleVec == 0) &&
    zero (d.scaleSrc == 2) d.scalar && zero r.scaleBias d.biasSrc && decide (d.biasSrc ≤ 1) &&
    (if d.biasSrc = 1 then vecOk c.banks d.biasVec cols else d.biasVec == 0) && zero r.act d.act && decide (d.act ≤ 4) &&
    (if r.keepk then decide (1 ≤ d.keepK) && decide (d.keepK ≤ 15) else d.keepK == 0) && decide (d.qmode / 2 % 64 = 0) &&
    (!inScale || r.scaleBias) &&
    (if r.quant then decide (d.hyst ≤ 4) && posFinite d.amaxGain && posFinite d.initScale
     else decide (d.qmode % 2 = 0) && d.hyst == 0 && d.amaxGain == 0 && d.initScale == 0) &&
    (if r.fwd then decide (d.fwdPayload ≤ 3) && decide (d.fwdPayload % 2 = bit1 (d.chain == 10)) && decide (d.fwdRank ≤ 1023) &&
        claimsPort c.ports d.fwdPort
     else d.fwdPayload == 0 && d.fwdRank == 0 && d.fwdPort == 0)

/-- One stream entry (R213 to R215, R220). -/
def streamOk (c : PlanCtx) (e : StreamEnt) (z : Nat) : Bool :=
  decide (z = 0) && decide (1 ≤ e.g) && decide (e.g ≤ 4096) && decide (4 ≤ e.nLog2) && decide (e.nLog2 ≤ 8) &&
    decide (e.d ≤ 65536) && decide (e.d % 64 = 0) && decide (e.mode < 32) && decide (16 ≤ e.len) && decide (e.len ≤ 1024) &&
    decide (e.len % 16 = 0) && (if e.be40 then decide (1 ≤ e.renorm) && decide (e.renorm ≤ 64) else e.renorm == 0) &&
    decide (e.quad ≤ 3) && decide (e.len * e.d ≤ 1048576) && decide (e.ptr % 64 = 0) &&
    decide (e.ptr + 2 * e.copyLen ≤ c.xmBytes) && vecOk c.banks e.lambda e.d &&
    (!e.fused || (decide (e.len % 128 = 0) && decide (e.g ≤ 512) && decide (e.g % 16 = 0)))

/-- The COLS that the plan declares for a record entry of an index (R186, R289): those of the received records at its DEST, or those of
the FC10 tiles that leave by it (R203). -/
def recordCols (c : PlanCtx) (i : Nat) (e : LinkEnt) : List Nat :=
  (progsOf c).flatMap (fun p => (progOps p).filterMap (fun o => match o.2 with
    | .recordAdd a k _ => if e.inbound ∧ a = e.dest then some k else none
    | .pass d =>
      match d.tileEnd.bind (fun j => c.chains[j]?) with
      | some x => if x.chain = 10 ∧ fwdLink c d.link x = i then some d.outCols else none
      | none => none
    | _ => none))

/-- One LINKS entry, of an index (R289, Table 12.5). -/
def linkOk (s : State) (c : PlanCtx) (i : Nat) (e : LinkEnt) : Bool :=
  let nbr := (portAt s e.port).nbrRank
  decide (e.rsv = 0) && claimsPort c.ports e.port && decide (e.kind ≤ 2) && decide (e.first ≤ e.last) && decide (e.last ≤ 127) &&
    s.hl.roster && e.peer == nbr && decide (nbr ≠ 0xFFFF) && decide (1 ≤ e.flits) &&
    ((List.range 128).all (fun i => decide (i < e.first) || decide (e.last < i) || descLink (c.slots.getD i 0))) &&
    (if e.inbound then
       e.peerEntry == 0 && (e.kind == 2 || decide (e.dest + 240 * e.flits ≤ regionBytes c)) && (e.kind != 2 || e.dest == 0) &&
         (e.object == 0xFFFF || (decide (e.object < c.soCount) && objRemote (progsOf c) e.object))
     else e.dest == 0 && e.object == 0) &&
    (e.kind != 1 || (recordCols c i e).all (fun k => decide (recLen k ≤ 240 * e.flits)))

/-- R186: the CTX_BYTES area holds one record for each quadrant that saves. -/
def ctxRoom (c : PlanCtx) : Bool :=
  decide (((progsOf c).map (fun p => if saveCols p = 0 then 0 else recLen (saveCols p))).sum ≤ c.ctxBytes)

/-- The groups divide the claimed banks (R123). -/
def groupsOk (c : PlanCtx) (cl : Claims) : Bool :=
  c.groups.isEmpty ||
    (let all := c.groups.flatMap (fun g => g.map (fun b => 64 * b.1 + b.2))
     c.groups.all (fun g => !g.isEmpty) && all.length == (claimedBanks cl).length && (claimedBanks cl).all (fun b => all.contains b))

/-- A parity plan has its stripe table and belongs to whole groups of 8 (R126). No check of it is stated; DESIGN CHOICE (log 110): a plan
that fails it is INCONSISTENT. -/
def parityShape (c : PlanCtx) : Bool := !c.parity || (!c.stripes.isEmpty && decide (c.hiveSize % 8 = 0))

/-- Step 2 of Table 5.5. -/
def planConsistent (s : State) (src : PlanSource) (c : PlanCtx) : Bool :=
  let l := src.bytes
  let cl := readClaims (sectBytes l 1)
  let n := c.profiles.length
  let str := imgStreams l
  let ent (i : Nat) : Option StreamEnt := (str[i]?).map (fun e => e.1)
  claimRanges l cl && planFitsDevice s l && slotTableOk c.quads c.slots && cl.profiles == n &&
    c.profiles.all (fun p => profileOk n p.2.1) &&
    hopsOk n c.slots ((c.profiles.filter (fun p => p.2.2)).map (fun p => p.1)) && weightsOk cl l c.bankUse && str.length == cl.streams &&
    str.all (fun e => streamOk c e.1 e.2) && c.chains.zipIdx.all (fun d => descOk c d.2 d.1) && (sectsOf l 10).all (fun _ => !c.chains.isEmpty) &&
    src.progs.all (progOk c src ent) &&
    ctxRoom c && c.links.zipIdx.all (fun e => linkOk s c e.2 e.1) &&
    (c.links.isEmpty || s.cmb.ctx.toList.all (fun x => !x.st.resident || x.planId % 65536 != c.planId % 65536)) && groupsOk c cl &&
    parityShape c

/- Step 3: DOES_NOT_FIT. -/

/-- One entry of the shortfall table (R116). -/
structure Shortfall where
  code : Nat
  detail : Nat
  needed : Nat
  avail : Nat
deriving DecidableEq, Repr

/-- The shortfall table as bytes (R116). -/
def shortfallBytes (l : List Shortfall) : List Byte :=
  leBytes 4 l.length ++ (l.take 332).flatMap (fun x => leBytes 2 x.code ++ leBytes 2 x.detail ++ leBytes 4 x.needed ++ leBytes 4 x.avail)

/-- The cost of one operation that its slot is charged with (R152, R186, Table 9.3). -/
def opCost (ent : Nat → Option StreamEnt) : ProgOp → Nat
  | .pass d => d.cost
  | .save k _ => 8 + ceilDiv (recLen k) 32
  | .restore k _ => 8 + ceilDiv (recLen k) 32
  | .recordAdd _ k _ => 8 + ceilDiv (recLen k) 32
  | .chunk d =>
    match ent d.stream with
    | none => 0
    | some e =>
      match d.phase with
      | .gate => 8 + ceilDiv (e.len * e.d) 2048
      | .level _ => 8 + ceilDiv (2 * e.len * e.d) 16384
      | .load => 8 + ceilDiv e.copyLen 64
      | .expand => 8 + ceilDiv (e.len * e.d) 16384
      | .readout => 8 + ceilDiv (e.len * e.d) 16384
      | .store => 8 + ceilDiv e.copyLen 64
  | _ => 0

/-- The plans resident with the one being loaded. -/
def residents (s : State) : List PlanCtx := s.cmb.ctx.toList.filter (fun c => c.st.resident)

/-- The lowest free context, or none (R118). -/
def freeCtx (s : State) : Option Nat :=
  if s.cmb.rotate then (List.range 4).find? (fun c => !(ctxAt s c).st.resident)
  else if (residents s).isEmpty then some 0 else none

/-- The plans whose tables merge with that of the plan being loaded: those resident, in rotate (R23); none in strict (R118). -/
def mergeMates (s : State) : List PlanCtx := if s.cmb.rotate then residents s else []

/-- The plans of the merged table, by context, with the plan being loaded in the context it would take (R23, R118); where none is free,
it stands last. -/
def mergeSet (s : State) (c : PlanCtx) : List (Nat × PlanCtx) :=
  if s.cmb.rotate then
    match freeCtx s with
    | some k => (ctxsWhere s (fun i x => x.st.resident && decide (i < k))) ++ [(k, c)] ++ ctxsWhere s (fun i x => x.st.resident && decide (k < i))
    | none => ctxsWhere s (fun _ x => x.st.resident) ++ [(0, c)]
  else [(0, c)]

/-- The HOPs of a merged table in slot order, with the device index that each targets; an index above 15 stands for a profile that finds
no place (R71). -/
def mergedHops (cs : List (Nat × PlanCtx)) : List (Nat × Nat) :=
  (List.range 128).filterMap (fun i =>
    let d := mergeDesc cs i
    if descHop d then some (i, d / 2 ^ 14) else none)

/-- Consecutive pairs of HOPs, across the beat edge (R72, R73). -/
def hopPairs (h : List (Nat × Nat)) : List ((Nat × Nat) × (Nat × Nat)) := (h.getLast?.toList ++ h).zip h

/-- No HOP of the merged table targets the profile already in force there (R72). -/
def mergedHopsOk (s : State) (c : PlanCtx) : Bool := (hopPairs (mergedHops (mergeSet s c))).all (fun x => x.1.2 != x.2.2)

/-- The profile in force at a slot of a merged table: its index (R72). -/
def profileAtSlot (cs : List (Nat × PlanCtx)) (i : Nat) : Option Nat :=
  let h := mergedHops cs
  match ((h.filter (fun x => decide (x.1 ≤ i))).getLast?).or h.getLast? with
  | some x => some x.2
  | none => cs.head?.bind (fun c => ctxBase c.2)

/-- The profile of an index among the plans of a merged table. -/
def profileIn (cs : List (Nat × PlanCtx)) (k : Nat) : Option Profile :=
  ((cs.flatMap (fun c => c.2.profiles)).find? (fun p => p.1 == k)).map (fun p => p.2.1)

/-- The planned budget B of a slot of a merged table (R16). -/
def slotBudget (cs : List (Nat × PlanCtx)) (ticks i : Nat) : Nat :=
  match (profileAtSlot cs i).bind (profileIn cs) with
  | none => 0
  | some p => ticks * 5 * 100 * (p.n * 2 ^ 24 + p.f) / (4 * 1000 * p.p * p.d * 2 ^ 24) - 16

/-- The stream entries of a plan's image (R214). -/
def planStream (c : PlanCtx) (i : Nat) : Option StreamEnt := ((imgStreams ((c.src.map (fun p => p.bytes)).getD []))[i]?).map (fun e => e.1)

/-- The planned worst-case count of a slot in one plan. R17 does not say how the beats of a longer program count together; DESIGN CHOICE
(log 111): the largest count that any one beat of any quadrant's program gives the slot. -/
def slotCount (c : PlanCtx) (i : Nat) : Nat :=
  ((progsOf c).flatMap (fun p => (p.slots.filter (fun e => e.1 % 128 == i)).map (fun e => (e.2.map (opCost (planStream c))).sum))).foldl max 0

/-- R17: slots of the merged table whose planned count exceeds B. -/
def budgetShort (s : State) (c : PlanCtx) : List Shortfall :=
  let cs := mergeSet s c
  (List.range 128).filterMap (fun i =>
    let worst := (cs.map (fun x => slotCount x.2 i)).foldl max 0
    let b := slotBudget cs c.slotTicks i
    if b < worst then some { code := 1, detail := i, needed := worst, avail := b } else none)

/-- R23: slots that two plans claim. DESIGN CHOICE (log 27): plans that hop to different profiles in one slot conflict there as well. -/
def conflictShort (s : State) (c : PlanCtx) : List Shortfall :=
  (List.range 128).filterMap (fun i =>
    let d := c.slots.getD i 0
    let clash := (mergeMates s).any (fun x =>
      let e := x.slots.getD i 0
      (List.range 4).any (fun q => descOwner d q == 0 && descOwner e q == 0) || (descHop d && descHop e && d / 2 ^ 14 != e / 2 ^ 14))
    if clash then some { code := 3, detail := i, needed := 1, avail := 0 } else none)

/-- Guaranteed Understory slots of the merged table (R20, R23). -/
def mergedGuaranteed (cs : List (Nat × PlanCtx)) : Nat :=
  ((List.range 128).filter (fun i => descGuaranteed (mergeDesc cs i))).length

/-- R20, R23: the merge leaves fewer guaranteed Understory slots than a plan declares. -/
def understoryShort (s : State) (c : PlanCtx) : List Shortfall :=
  let cs := mergeSet s c
  let have' := mergedGuaranteed cs
  let need := (cs.map (fun x => x.2.usMin)).foldl max 0
  if have' < need then [{ code := 4, detail := 0, needed := need, avail := have' }] else []

/-- R73: pairs of consecutive HOPs of the merged table that are too close for the pre-lock. -/
def spacingShort (s : State) (c : PlanCtx) : List Shortfall :=
  let cs := mergeSet s c
  (hopPairs (mergedHops cs)).filterMap (fun x =>
    let d := (x.2.1 + 128 - x.1.1) % 128
    let d := if d = 0 then 128 else d
    let lim := if (profileIn cs x.2.2).elim 1 (fun p => p.p) = 2 then 16000 else 12000
    if (d - 2) * 5 * c.slotTicks < 4 * lim then
      some { code := 6, detail := 256 * x.1.1 + x.2.1, needed := ceilDiv (4 * lim) (5 * c.slotTicks) + 2, avail := d } else none)

/-- Two profiles are one (R71): P, N, F, D and those of their FALLBACK. -/
def sameProfile (a fa b fb : Profile) : Bool :=
  a.p == b.p && a.n == b.n && a.f == b.f && a.d == b.d && fa.p == fb.p && fa.n == fb.n && fa.f == fb.f && fa.d == fb.d

/-- A profile of a context's list by device index. -/
def profBy (l : List (Nat × Profile × Bool)) (i : Nat) : Profile := (l.find? (fun p => p.1 == i)).elim .empty (fun p => p.2.1)

/-- The device indexes that the image's profiles take (R71): an equal profile of a resident plan, or the lowest free index; 16 and
above where there is none. -/
def placeProfiles (taken : List (Nat × Profile × Profile)) (img : List (Nat × Profile × Bool)) : List Nat :=
  (img.foldl (fun (a : List (Nat × Profile × Profile) × List Nat) p =>
    let fb := profBy img p.2.1.fallback
    match a.1.find? (fun t => sameProfile t.2.1 t.2.2 p.2.1 fb) with
    | some t => (a.1, a.2 ++ [t.1])
    | none =>
      let free := ((List.range 32).find? (fun i => a.1.all (fun t => t.1 != i))).getD 31
      (a.1 ++ [(free, p.2.1, fb)], a.2 ++ [free])) (taken, [])).2

/-- Profiles of the resident plans, with their fallbacks. -/
def takenProfiles (s : State) : List (Nat × Profile × Profile) :=
  (residents s).flatMap (fun c => c.profiles.map (fun p => (p.1, p.2.1, profBy c.profiles p.2.1.fallback)))

/-- A context whose profiles stand at their device indexes, HOPs and fallbacks alike (R71). -/
def renumber (c : PlanCtx) (idx : List Nat) : PlanCtx :=
  { c with
    profiles := c.profiles.map (fun p => (idx.getD p.1 0, { p.2.1 with fallback := idx.getD p.2.1.fallback 0 }, p.2.2)),
    slots := c.slots.map (fun d =>
      if descHop d then d % 2 ^ 14 + 2 ^ 14 * idx.getD (descProfile d) 0 else d) }

/-- The banks that a slice's claim takes, for as many of its plan banks as free banks suit (R117). -/
def placeBanks (s : State) (use : SMap (List Nat)) (q n : Nat) : List (Nat × Nat) :=
  fitBanks s use q ((List.range n).map (fun b => 64 * q + b))

/-- The lowest base of a run of n entries out of m that none of the given runs touches (R114, R214). -/
def findBase (m n : Nat) (used : List (Nat × Nat)) : Option Nat :=
  (List.range (m + 1)).find? (fun b => decide (b + n ≤ m) && used.all (fun r => r.2 == 0 || decide (b + n ≤ r.1) || decide (r.1 + r.2 ≤ b)))

/-- The longest free run out of m entries. -/
def longestRun (m : Nat) (used : List (Nat × Nat)) : Nat :=
  ((List.range (m + 1)).filter (fun n => (findBase m n used).isSome)).foldl max 0

/-- Free ledger entries in order. -/
def freeEntries (s : State) : List Nat := (List.range 4096).filter (fun i => (blAt s i).st == .free)

/-- The feeder threads of a quadrant that no resident plan has taken (Table 5.4). -/
def freeThreads (s : State) (q : Nat) : List Nat :=
  (List.range 32).filter (fun i => (residents s).all (fun c => !(c.threads.getD q []).contains i))

/-- Runs of sync objects, of stream entries, and of external memory of the resident plans. -/
def soRuns (s : State) : List (Nat × Nat) := (residents s).map (fun c => (c.soBase, c.soCount))
/-- Runs of stream entries. -/
def rcsRuns (s : State) : List (Nat × Nat) := (residents s).map (fun c => (c.rcsBase, c.rcsCount))

/-- Flits that a slot carries, and the planned limit (R289). -/
def roomFlits (L : Nat) : Nat := 9 * (L * 125 / 128) / 10

/-- One slot of the check of R289 on one port: what each entry still has to send. -/
def linkSlot (room : Nat) (i : Nat) : List (LinkEnt × Nat) → List (LinkEnt × Nat)
  | [] => []
  | (e, left) :: r =>
    if e.first ≤ i ∧ i ≤ e.last then
      let take := min room left
      (e, left - take) :: linkSlot (room - take) i r
    else (e, left) :: linkSlot room i r

/-- R289: flits of a port that its windows cannot hold. -/
def linkMiss (c : PlanCtx) (p : Nat) : Nat :=
  let es := (c.links.filter (fun e => !e.inbound && e.port == p)).map (fun e => (e, e.flits))
  (((List.range 128).foldl (fun l i => linkSlot (roomFlits c.slotTicks) i l) es).map (fun e => e.2)).sum

/-- R289: ports whose windows cannot hold the planned flits. -/
def linkShort (c : PlanCtx) : List Shortfall :=
  ((List.range 20).filter (fun p => linkMiss c p != 0)).map (fun p => { code := 14, detail := p, needed := 1, avail := 0 })

/-- One shortfall where a claim exceeds what is free. -/
def short (code detail needed avail : Nat) : List Shortfall :=
  if avail < needed then [{ code := code, detail := detail, needed := needed, avail := avail }] else []

/-- Step 3 of Table 5.5: every shortfall (R115, R116). c is the context with its profiles renumbered. -/
def shortfalls (s : State) (src : PlanSource) (c : PlanCtx) : List Shortfall :=
  let cl := readClaims (sectBytes src.bytes 1)
  let xm := c.xmBytes + c.ctxBytes
  let used := planRuns s ++ hostRuns s
  let top := (c.profiles.map (fun p => p.1 + 1)).foldl max 0
  budgetShort s c ++
    (List.range 4).filterMap (fun q => if claimsQuad c.quads q && vget s.hi.quadOff q false then
      some { code := 2, detail := q, needed := 1, avail := 0 } else none) ++
    conflictShort s c ++ understoryShort s c ++ short 5 0 top 16 ++
    spacingShort s c ++
    (List.range 4).flatMap (fun q => short 7 q (c.banks.getD q 0) (placeBanks s c.bankUse q (c.banks.getD q 0)).length) ++
    (if (findBase 256 c.soCount (soRuns s)).isNone then short 8 0 c.soCount (longestRun 256 (soRuns s)) else []) ++
    short 9 0 cl.buffers (freeEntries s).length ++
    (if (findBase 256 c.rcsCount (rcsRuns s)).isNone then short 10 0 c.rcsCount (longestRun 256 (rcsRuns s)) else []) ++
    (List.range 4).flatMap (fun q => short 11 q (c.feeders.getD q 0) (freeThreads s q).length) ++
    (if xm ≠ 0 ∧ (findRun (xmLimit s) (2 * 2 ^ 20) xm used).isNone then
      [{ code := 12, detail := 0, needed := ceilDiv xm (2 ^ 20), avail := ceilDiv (poolBytes s) (2 ^ 20) }] else []) ++
    (if (freeCtx s).isNone then [{ code := 13, detail := 0, needed := 1, avail := 0 }] else []) ++ linkShort c

end Sys2Proof.Machine
end

