-- ==== Sys2Proof/Machine/Mailbox.lean ====
section
/-! DEFINITION. The Waggle mailboxes (chapter 14): the page and its headers (R337 to R339), the handshake (R340, R341), the opcode
catalogue (R353), the checks of a turn (R344), contradictory orders (R347, R348), rounds (R342, R343), what ROM answers (R345), and
the answer with its journal entry (R368, R369). -/

namespace Sys2Proof.Machine

open Sys2Proof

/- Status codes (Table 14.14). -/

/-- OK. -/
def stOk : Nat := 0
/-- STAGED. -/
def stStaged : Nat := 1
/-- PHASED. -/
def stPhased : Nat := 2
/-- BUSY_BOOTING. -/
def stBooting : Nat := 0x10
/-- SUPERSEDED. -/
def stSuperseded : Nat := 0x11
/-- BAD_PAYLOAD. -/
def stBad : Nat := 0x20
/-- UNKNOWN_OPCODE. -/
def stUnknown : Nat := 0x21
/-- PRESENCE_REQUIRED. -/
def stPresence : Nat := 0x22
/-- REFUSED_SEAL. -/
def stSeal : Nat := 0x23
/-- NO_SUCH_OBJECT. -/
def stNone : Nat := 0x30
/-- INCONSISTENT. -/
def stIncons : Nat := 0x31
/-- DOES_NOT_FIT. -/
def stNoFit : Nat := 0x32
/-- NOT_ATOMIC. -/
def stNotAtomic : Nat := 0x33
/-- NOT_OWNER. -/
def stNotOwner : Nat := 0x40
/-- DOUBLE_FREE. -/
def stDoubleFree : Nat := 0x41
/-- FENCED. -/
def stFenced : Nat := 0x51

/- The catalogue (Table 14.8). -/

/-- The opcodes from 0x0010 to 0x0023, with 0x0001 and 0x0002: the queries. -/
def isQuery (op : Nat) : Bool := op == 1 || op == 2 || (decide (0x10 ≤ op) && decide (op ≤ 0x23))

/-- The class of an opcode; none where Table 14.8 does not list it. -/
def classOf (op : Nat) : Option CmdClass :=
  if isQuery op || [0x401, 0x402, 0x801].contains op then some .advisory
  else if [0x202, 0x602, 0x702, 0x710].contains op then some .safety
  else if [0x101, 0x102, 0x103, 0x104, 0x105, 0x106, 0x107, 0x110, 0x120, 0x201, 0x301, 0x302, 0x303, 0x501, 0x502, 0x503, 0x510].contains op ||
      [0x601, 0x603, 0x604, 0x605, 0x610, 0x701, 0x711].contains op then some .operational
  else if decide (0x901 ≤ op) && decide (op ≤ 0x907) then some .presence
  else none

/-- The mailbox accepts the opcode (Table 14.8); in RECOVERY only WG3 accepts FW_LOAD (R43). -/
def acceptsOp (s : State) (m op : Nat) : Bool :=
  match classOf op with
  | none => false
  | some .presence => decide (2 ≤ m) && (op != 0x901 || m == 3 || s.hi.readiness != .recovery)
  | some _ => op != 0x710 || decide (2 ≤ m)

/-- The conflict keys of a command (Table 14.8, R347); RESET_WARM's DEVICE stands apart (R348). PLAN_LOAD's key stands in its image
and is judged when the image is read (R353). -/
def cmdKeys (op : Nat) (p : List Byte) : List Key :=
  if 0x102 ≤ op ∧ op ≤ 0x106 then [.plan (leAt p 0 8)]
  else if op = 0x107 then [.fitMode]
  else if op = 0x110 then [.stream (leAt p 0 8) (leAt p 16 1)]
  else if op = 0x120 then [.aperture]
  else if op = 0x201 ∨ op = 0x905 then [.cal (leAt p 0 1) (leAt p 1 1)]
  else if op = 0x202 then [.clock]
  else if op = 0x302 ∨ op = 0x303 then [.graft]
  else if op = 0x510 then [.share]
  else if op = 0x601 then [.master]
  else if op = 0x602 then [.ref]
  else if op = 0x603 then [.roster]
  else if op = 0x604 then [.port (leAt p 0 1)]
  else if op = 0x605 ∨ op = 0x902 then [.key]
  else if op = 0x610 then [.hive]
  else if op = 0x701 then [.power]
  else if op = 0x702 then [.powerLimit]
  else if op = 0x710 then [.device]
  else if op = 0x711 then [.quad (leAt p 0 1)]
  else if op = 0x901 then [.firmware]
  else if op = 0x903 then [.heartwood]
  else if op = 0x906 ∨ op = 0x907 then [.seal]
  else []

/-- The members that a GRAFT_STAGE payload carries, n of them from an offset: opcode, payload, and the offset after the last one;
none where one does not lie inside the payload (Table 15.6). -/
def readMembers (p : List Byte) : Nat → Nat → Option (List (Nat × List Byte) × Nat)
  | 0, o => some ([], o)
  | n + 1, o =>
    let len := leAt p (o + 2) 2
    if o + 4 + len ≤ p.length then
      let last := if n = 0 ∧ p.length < roundUp 4 (o + 4 + len) then p.length else roundUp 4 (o + 4 + len)
      match readMembers p n last with
      | some (r, e) => some ((leAt p o 2, bytesAt p (o + 4) len) :: r, e)
      | none => none
    else none

/-- All keys of a command: GRAFT_STAGE holds GRAFT and those of its members (R362). -/
def allKeys (op : Nat) (p : List Byte) : List Key :=
  if op = 0x301 then
    .graft :: (((readMembers p (leAt p 2 2) 8).elim [] (fun r => r.1)).flatMap (fun m => cmdKeys m.1 m.2))
  else cmdKeys op p

/- The page. -/

/-- n bytes of a mailbox page as a number. -/
def mbNat (s : State) (m o n : Nat) : Nat := leNat ((mbAt s m).page.getRun o 0#8 n)
/-- OPCODE of a mailbox's command header (Table 14.3). -/
def mbOp (s : State) (m : Nat) : Nat := mbNat s m 0 2
/-- PAYLOAD_LEN. -/
def mbLen (s : State) (m : Nat) : Nat := mbNat s m 2 2
/-- CMD_TAG. -/
def mbTag (s : State) (m : Nat) : Nat := mbNat s m 4 4
/-- The payload as received. -/
def mbPayload (s : State) (m : Nat) : List Byte := (mbAt s m).page.getRun 0x40 0#8 (mbLen s m)
/-- A mailbox whose page is locked (R341). -/
def mbLocked (s : State) (m : Nat) : Bool := (mbAt s m).st == .rung || (mbAt s m).st == .busy
/-- Write bytes to a page. -/
def pagePut (s : State) (m o : Nat) (l : List Byte) : State := onMb s m (fun x => { x with page := x.page.putRun o 0#8 l })
/-- An ignored doorbell or a dropped write (R340, R341). -/
def ringBusy (s : State) (m : Nat) : State := onMb s m (fun x => { x with ringBusy := satAdd 16 x.ringBusy 1 })

/-- Each time WG0 or WG1 enters DONE or REFUSED its vector is signalled (R350). -/
def notify (s : State) (m : Nat) : State := if m = 0 then signal s 0 else if m = 1 then signal s 3 else s

/-- Parts of a response of n bytes (R339). -/
def partsOf (n : Nat) : Nat := max 1 (ceilDiv n 4000)

/-- The response header of part k (Table 14.4). -/
def respHeader (s : State) (op tag st seq winner beat total k : Nat) : List Byte :=
  leBytes 2 op ++ leBytes 2 st ++ leBytes 4 tag ++ leBytes 8 seq ++ leBytes 8 winner ++ leBytes 8 beat ++ leBytes 1 s.hi.progress ++
    leBytes 1 s.hi.readiness.code ++ leBytes 2 (min 4000 (total - 4000 * k)) ++ leBytes 2 k ++ leBytes 2 (partsOf total) ++
    leBytes 4 total ++ List.replicate 20 0#8

/-- Write part k of a stored response: its 64-byte header, with RESP_LEN and PART of this part, and its bytes (R339). -/
def putPart (s : State) (m k : Nat) : State :=
  let x := mbAt s m
  let body := x.resp.drop 64
  let h := x.resp.take 34 ++ leBytes 2 (min 4000 (body.length - 4000 * k)) ++ leBytes 2 k ++ (x.resp.drop 38).take 26
  onMb (pagePut s m 0 (h ++ (body.drop (4000 * k)).take 4000)) m (fun x => { x with part := k })

/-- A response goes to a mailbox, which enters DONE or REFUSED and is notified. A response whose mailbox was reset while BUSY is
discarded, and the mailbox reads IDLE (R354). -/
def respond (s : State) (m st seq winner beat : Nat) (body : List Byte) (fin : MbSt) : State :=
  if (mbAt s m).discard then onMb s m (fun x => { x with st := .idle, code := 0, discard := false, resp := [], part := 0 })
  else
    let h := respHeader s (mbOp s m) (mbTag s m) st seq winner beat body.length 0
    let s := putPart (onMb s m (fun x => { x with resp := h ++ body })) m 0
    notify (onMb s m (fun x => { x with st := fin, code := st })) m

/-- The beat number in force for a response outside a round; 0 before the beat runs (Table 14.4, R345). -/
def beatNow (s : State) : Nat := if s.beat.running then s.beat.num else 0

/-- The beat number of the round that takes a command (Table 14.4). -/
def roundBeat (s : State) : Nat := if s.beat.running then s.wg.round else 0

/- The journal. -/

/-- The accepted command is recorded (R368): every class but Advisory, and RJ_MARK. -/
def recorded (op : Nat) : Bool := op == 0x402 || (classOf op != some .advisory)

/-- DIGEST of a command (Table 15.2). -/
def cmdDigest (s : State) (m : Nat) : Nat := digest16 (leBytes 2 (mbOp s m) ++ leBytes 2 (mbLen s m) ++ mbPayload s m)

/-- Write the journal entry of a mailbox's command (R368, R369). -/
def journal (s : State) (m seq st link effect : Nat) : State :=
  jWrite s { seq := seq, source := m, cls := (classOf (mbOp s m)).getD .advisory, op := mbOp s m, outcome := st, mirrored := false,
             member := false, phase := 0, beat := roundBeat s, tag := mbTag s m, digest := cmdDigest s m, link := link,
             effect := effect }

/- The turn. -/

/-- The readiness state admits the opcode (Table 2.5); in RECOVERY, FW_LOAD is admitted on WG3. -/
def stateAdmits (s : State) (m op : Nat) : Bool :=
  match s.hi.readiness with
  | .ready => true
  | .fwVerify => s.hi.fwRuns && decide (op < 0x100)
  | .domains => decide (op < 0x100)
  | .memory => decide (op < 0x100)
  | .links => decide (op < 0x100)
  | .recovery => op == 2 || (op == 0x901 && m == 3)
  | .failed => op == 2
  | _ => false

/-- The SEQ of the command that beats one with these keys in this round (R347, R348). -/
def lostTo (s : State) (ks : List Key) : Option Nat :=
  (s.wg.held.find? (fun h => h.1 == .device || ks.contains .device || ks.contains h.1)).map (fun h => h.2)

/-- A command is answered SUPERSEDED, recorded whatever its class, and reported (R347, R368). -/
def supersede (s : State) (m winner : Nat) : State :=
  let (seq, s) := takeSeq s
  let s := journal s m seq stSuperseded winner 0
  let s := onMb s m (fun x => { x with superseded := satAdd 32 x.superseded 1 })
  respond (raise s 0x0E01 .info 0) m stSuperseded seq winner (roundBeat s) [] .done

/-- A command is refused (R344). -/
def refuse (s : State) (m st : Nat) : State :=
  respond (onMb s m (fun x => { x with refused := satAdd 32 x.refused 1 })) m st 0 0 (roundBeat s) [] .refused

/-- A command is accepted: its mailbox is BUSY, its SEQ is assigned (R368), and an accepted command that is not Advisory wakes the
device (R419). -/
def accept (s : State) (m : Nat) : State :=
  let (seq, s) := if recorded (mbOp s m) then takeSeq s else (0, s)
  let s := onMb s m (fun x => { x with st := .busy, accepted := satAdd 32 x.accepted 1 })
  let s := { s with wg.cur := some m, wg.curSeq := seq, wg.wait := .none }
  if classOf (mbOp s m) = some .advisory then s else wakeActive s

/-- A mailbox's turn: steps 1 to 5 of Table 14.6. -/
def takeTurn (s : State) (m : Nat) : State :=
  let op := mbOp s m
  if 4000 < mbLen s m ∨ mbNat s m 8 56 ≠ 0 then refuse s m stBad
  else if ¬ acceptsOp s m op then refuse s m stUnknown
  else if ¬ stateAdmits s m op then respond s m stBooting 0 0 (roundBeat s) [] .done
  else if m = 3 ∧ s.wg.open3 = false ∧ classOf op ≠ some .advisory ∧ classOf op ≠ some .presence then refuse s m stPresence
  else
    match lostTo s (allKeys op (mbPayload s m)) with
    | some w => supersede s m w
    | none => accept s m

/-- NEXT doorbells that waited are served once Keeper is free (R349). -/
def serveNext (s : State) : State :=
  forUpto 4 (fun s m =>
    if (mbAt s m).nextDue then
      notify (onMb (putPart s m ((mbAt s m).part + 1)) m (fun x => { x with st := .done, nextDue := false })) m
    else s) s

/-- Keeper goes on with its round until a command is accepted or the round ends. -/
def turns : Nat → State → State
  | 0, s => s
  | n + 1, s =>
    match s.wg.cur, s.wg.order with
    | some _, _ => s
    | none, [] => serveNext s
    | none, m :: r => turns n (takeTurn { s with wg.order := r } m)

/-- Keeper is free for a round. -/
def keeperFree (s : State) : Bool := s.wg.cur.isNone && s.wg.order.isEmpty

/-- The mailboxes in authority order (R343): by class, then by number; an opcode without a class comes last. -/
def byAuthority (s : State) (ms : List Nat) : List Nat :=
  let rank (m : Nat) : Nat := ((classOf (mbOp s m)).map CmdClass.code).getD 4
  (List.range 5).flatMap (fun k => ms.filter (fun m => rank m == k))

/-- A round starts (R342, R343): it takes the mailboxes that are RUNG. -/
def startRound (s : State) : State :=
  let ms := byAuthority s ((List.range 4).filter (fun m => (mbAt s m).st == .rung))
  turns 5 { s with wg.order := ms, wg.held := [], wg.round := s.beat.num }

/-- Keeper ROM answers at once, without rounds (R345). -/
def romAnswers (s : State) : Bool := !s.hi.fwRuns && s.hi.readiness != .recovery && s.hi.readiness != .failed

/-- ROM takes mailboxes as soon as they are RUNG: RECOVERY or FAILED before firmware, with no beat edge (R345). -/
def romTakes (s : State) : Bool :=
  !s.hi.fwRuns && !s.beat.running && (s.hi.readiness == .failed || (s.hi.readiness == .recovery && s.hw.scanned))

/-- ROM, once it is free, takes the mailboxes that are RUNG without waiting for an edge (R345). -/
def romRound (s : State) : State :=
  if romTakes s && keeperFree s && (List.range 4).any (fun m => (mbAt s m).st == .rung) then startRound s else s

/-- Answer the command that Keeper works on, with the edge at which a staged change takes effect (R343, R347, R368). Its keys are
held for the rest of the round when it is OK, STAGED or PHASED. -/
def answerAt (s : State) (st : Nat) (body : List Byte) (effect : Nat) : State :=
  match s.wg.cur with
  | none => s
  | some m =>
    let op := mbOp s m
    let seq := s.wg.curSeq
    let s := if recorded op then journal s m seq st 0 effect else s
    let s := if st ≤ 2 then { s with wg.held := s.wg.held ++ (allKeys op (mbPayload s m)).map (fun k => (k, seq)) } else s
    let s := respond s m st seq 0 (roundBeat s) body .done
    romRound (turns 5 { s with wg.cur := none, wg.curSeq := 0, wg.wait := .none })

/-- Answer without a staged change. -/
def answer (s : State) (st : Nat) (body : List Byte) : State := answerAt s st body 0

/-- The mailbox whose accepted command has this opcode and waits for nothing (R343). -/
def curOp (s : State) (op : Nat) : Option Nat :=
  match s.wg.cur with
  | none => none
  | some m => if mbOp s m = op ∧ s.wg.wait = .none ∧ alive s = true ∧ s.pwr.keeper = true then some m else none

/-- The payload of the accepted command of an opcode; none where Keeper does not work on such a command. -/
def curPay (s : State) (op : Nat) : Option (List Byte) := (curOp s op).map (fun m => mbPayload s m)

/-- Answer the accepted command of an opcode by a function of its payload; a step that Keeper is not at changes nothing (log 3). -/
def onCmd (s : State) (op : Nat) (f : List Byte → State) : State :=
  match curPay s op with
  | none => s
  | some p => f p

/-- An Advisory query answers OK with what it holds; it takes no payload (R10). -/
def queryCmd (s : State) (op : Nat) (body : List Byte) : State :=
  onCmd s op (fun _ => answer s stOk body)

/- Doorbells. -/

/-- A mailbox has become RUNG: ROM may answer or take it at once (R345). -/
def rung (s : State) (m : Nat) : State :=
  if romAnswers s then respond s m stBooting 0 0 (beatNow s) [] .done
  else romRound s

/-- A doorbell write (Table 14.5). -/
def doorbell (s : State) (m v : Nat) : State :=
  let x := mbAt s m
  if mbLocked s m then ringBusy s m
  else if v = 1 then rung (onMb s m (fun x => { x with st := .rung, code := 0, resp := [], part := 0 })) m
  else if v = 2 ∧ x.st = .done ∧ x.part + 1 < partsOf (x.resp.length - 64) then
    let s := onMb s m (fun x => { x with st := .busy, nextDue := true })
    if keeperFree s then serveNext s else s
  else ringBusy s m

/-- A mailbox is reached through its transport (R336, R354): the host's BARs, SMBus and UART from Keeper's start (R345). -/
def mbReach (s : State) (m : Nat) : Bool := if m < 2 then hostUp s else alive s && s.pwr.keeper && !ballsTaken s

/-- A write of one word to a page (R337, R341). -/
def pageWrite (s : State) (m o : Nat) (l : List Byte) : State :=
  if mbLocked s m then ringBusy s m else pagePut s m o l

/-- DOORBELL_RING (R340). -/
def execDoorbellRing (m : MboxId) (s : State) : Host.Outcome State Fault Refusal :=
  .next (if mbReach s m.val then doorbell s m.val 1 else s)

/-- DOORBELL_NEXT (R340, R349). -/
def execDoorbellNext (m : MboxId) (s : State) : Host.Outcome State Fault Refusal :=
  .next (if mbReach s m.val then doorbell s m.val 2 else s)

/-- DOORBELL_INVALID (R340): a value other than 0x1 or 0x2, or NEXT with no part left. -/
def execDoorbellInvalid (m : MboxId) (v : Word) (s : State) : Host.Outcome State Fault Refusal :=
  .next (
    let x := mbAt s m.val
    let next := decide (v.toNat = 2 ∧ x.st = .done ∧ x.part + 1 < partsOf (x.resp.length - 64))
    if mbReach s m.val ∧ (mbLocked s m.val = true ∨ (v.toNat ≠ 1 ∧ next = false)) then doorbell s m.val v.toNat else s)

/-- MAILBOX_PAGE_WRITE (R337, R341): one aligned word below the doorbell. -/
def execMailboxPageWrite (m : MboxId) (off : Nat) (v : Word) (s : State) : Host.Outcome State Fault Refusal :=
  .next (if mbReach s m.val ∧ off < 0xFE0 ∧ off % 4 = 0 then pageWrite s m.val off (leBytes 4 v.toNat) else s)

/- SMBus (R351). -/

/-- A frame error of a transport: counted, with event 0x0E02 at most once per beat (R351, R352). -/
def frameError (s : State) (m : Nat) : State :=
  let s := onMb s m (fun x => { x with frameErr := satAdd 16 x.frameErr 1 })
  if s.wg.frameEv then s else raise { s with wg.frameEv := true } 0x0E02 .minor 0

/-- SMBUS_SET_OFFSET (Table 14.7): 4-byte aligned, 0x000 to 0xFFC. -/
def execSmbusSetOffset (off : Nat) (pecOk : Bool) (s : State) : Host.Outcome State Fault Refusal :=
  .next (
    if mbReach s 2 = false then s
    else if off % 4 ≠ 0 ∨ 0xFFC < off then { s with wg.smbNak := true }
    else if pecOk then { s with wg.smbOff := off, wg.smbNak := false }
    else frameError { s with wg.smbNak := true } 2)

/-- Words written to a page over SMBus or UART, from an offset: those at the doorbell ring it, those above are reserved (R337). -/
def transportWrite (s : State) (m o : Nat) (l : List Byte) : State :=
  let s := if o < 0xFE0 then pagePut s m o (l.take (0xFE0 - o)) else s
  if o ≤ 0xFE0 ∧ 0xFE0 < o + l.length then doorbell s m (leAt l (0xFE0 - o) 4) else s

/-- A write run touches the header or payload area of a page. -/
def touchesArea (o : Nat) : Bool := decide (o < 0xFE0)

/-- SMBUS_WRITE (Table 14.7, R351): 4 to 128 bytes, a multiple of 4, within the page; the doorbell is rung by 4 bytes at 0xFE0. -/
def execSmbusWrite (bytes : List Byte) (pecOk : Bool) (s : State) : Host.Outcome State Fault Refusal :=
  .next (
    let n := bytes.length
    let o := s.wg.smbOff
    if mbReach s 2 = false then s
    else if n < 4 ∨ 128 < n ∨ n % 4 ≠ 0 ∨ 0x1000 < o + n then { s with wg.smbNak := true }
    else if mbLocked s 2 && touchesArea o then ringBusy { s with wg.smbNak := true } 2
    else if pecOk then
      let s := { s with wg.smbOff := (o + n) % 0x1000, wg.smbNak := false }
      if n = 4 ∨ o + n ≤ 0xFE0 ∨ 0xFE0 < o then transportWrite s 2 o bytes else pagePut s 2 o (bytes.take (0xFE0 - o))
    else frameError { s with wg.smbNak := true } 2)

/-- n bytes of a page as a transport reads them: the page, WG_STATUS, and zeros above. -/
def pageRead (s : State) (m o n : Nat) : List Byte :=
  (List.range n).map (fun i => BitVec.ofNat 8 ((pageWord (mbAt s m) ((o + i) / 4 * 4)).toNat / 256 ^ ((o + i) % 4)))

/-- SMBUS_READ (Table 14.7): min(128, 0x1000 − offset) bytes. -/
def execSmbusRead (s : State) : Host.Outcome State Fault Refusal :=
  .next (
    if mbReach s 2 = false then s
    else
      let n := min 128 (0x1000 - s.wg.smbOff)
      { s with wg.smbData := pageRead s 2 s.wg.smbOff n, wg.smbOff := (s.wg.smbOff + n) % 0x1000, wg.smbNak := false })

/-- SMBUS_TIMEOUT: the target releases SDA and discards the transaction (SMBus timing, chapter 18). -/
def execSmbusTimeout (s : State) : Host.Outcome State Fault Refusal :=
  .next (if mbReach s 2 then { s with wg.smbData := [], wg.smbNak := false } else s)

/- UART (R352). -/

/-- A UART reply: 0x5A, RESULT, LEN, data and CRC-16. -/
def uartAnswer (s : State) (result : Nat) (data : List Byte) : State :=
  let l := leBytes 1 result ++ leBytes 2 data.length ++ data
  { s with wg.uartReply := leBytes 1 0x5A ++ l ++ leBytes 2 (crc16 l), wg.uartPart := [] }

/-- A request frame of an OP: 0xA5, OP, OFFSET, LEN, data, CRC-16. -/
def uartFrame (s : State) (op : Nat) (l : List Byte) : Bool :=
  mbReach s 3 && leAt l 0 1 == 0xA5 && leAt l 1 1 == op && decide (8 ≤ l.length) &&
    l.length == 8 + (if op = 2 then 0 else leAt l 4 2)

/-- The CRC of a frame holds. -/
def uartCrcOk (l : List Byte) : Bool := crc16 ((l.drop 1).take (l.length - 3)) == leAt l (l.length - 2) 2

/-- OFFSET and LEN of a frame are within R352's ranges. -/
def uartRangeOk (l : List Byte) : Bool :=
  let o := leAt l 2 2
  let n := leAt l 4 2
  decide (o % 4 = 0) && decide (4 ≤ n) && decide (n ≤ 256) && decide (n % 4 = 0) && decide (o + n ≤ 0x1000)

/-- A partial frame is held until its bytes have come or its gap limit passes. -/
def uartHold (s : State) (op : Nat) (l : List Byte) : State :=
  if mbReach s 3 && leAt l 0 1 == 0xA5 && leAt l 1 1 == op then { s with wg.uartPart := l } else s

/-- UART_WRITE (R352). -/
def execUartWrite (frame : List Byte) (s : State) : Host.Outcome State Fault Refusal :=
  .next (
    if uartFrame s 1 frame then
      if ¬ uartCrcOk frame then uartAnswer (frameError s 3) 1 []
      else if ¬ uartRangeOk frame then uartAnswer s 2 []
      else if mbLocked s 3 && touchesArea (leAt frame 2 2) then uartAnswer (ringBusy s 3) 3 []
      else uartAnswer (transportWrite s 3 (leAt frame 2 2) ((frame.drop 6).take (leAt frame 4 2))) 0 []
    else uartHold s 1 frame)

/-- UART_READ (R352). -/
def execUartRead (frame : List Byte) (s : State) : Host.Outcome State Fault Refusal :=
  .next (
    if uartFrame s 2 frame then
      if ¬ uartCrcOk frame then uartAnswer (frameError s 3) 1 []
      else if ¬ uartRangeOk frame then uartAnswer s 2 []
      else uartAnswer s 0 (pageRead s 3 (leAt frame 2 2) (leAt frame 4 2))
    else uartHold s 2 frame)

/-- The rates of R352. -/
def uartRates : List Nat := [115200, 230400, 460800, 921600, 1000000, 2000000, 3000000]

/-- UART_BAUD (R352): OFFSET 0 and 4 data bytes that name a rate. -/
def execUartBaud (frame : List Byte) (s : State) : Host.Outcome State Fault Refusal :=
  .next (
    if uartFrame s 3 frame then
      if ¬ uartCrcOk frame then uartAnswer (frameError s 3) 1 []
      else if leAt frame 2 2 = 0 ∧ leAt frame 4 2 = 4 ∧ uartRates.contains (leAt frame 6 4) = true then
        { uartAnswer s 0 [] with wg.baud := leAt frame 6 4 }
      else uartAnswer s 2 []
    else uartHold s 3 frame)

/-- UART_FRAME_TIMEOUT (R352): a gap of more than 10 ms discards the partial frame. -/
def execUartFrameTimeout (s : State) : Host.Outcome State Fault Refusal :=
  .next (if mbReach s 3 then { s with wg.uartPart := [] } else s)

/-- UART_BREAK: UART_RX held low for more than a frame is a frame error (chapter 18). -/
def execUartBreak (s : State) : Host.Outcome State Fault Refusal :=
  .next (if mbReach s 3 then frameError { s with wg.uartPart := [] } 3 else s)

end Sys2Proof.Machine
end

