-- ==== Sys2Proof/Machine/PlanLife.lean ====
section
/-! DEFINITION. The life of a plan (chapter 5): placement at step 3 (R114, R117, R119), the fetch and its checks (R120, R126, R140,
R150, R152), activation, draining, unloading (Table 5.7), replacement phases (R123, R124), quadrant power (R413), and the plan
commands. -/

namespace Sys2Proof.Machine

open Sys2Proof

/- Quadrants. -/

/-- The contents of a quadrant's domain are lost (R188, R202, R250, R274, R415): no open tile, no chain state, no threads. -/
def quadClear (s : State) (q : Nat) : State :=
  let s := clearHolds (endThreads s (fun k _ => k / 32 == q)) q
  onQuad s q (fun x =>
    { x with todo := [], feeds := [], yielded := false, stopped := [], blocked := none, run := none, acts := [], raw := [], setA := .init,
             setB := .init, activeB := false, swapDue := false, shadowBusy := false, curP := 8, curKb := 0, curFmt := 0, curVal := 0,
             amaxM := 0, amaxE := 0, fusDesc := 0, fusChain := 0, fusBusy := false, fusPro := false, chains := [], fwds := [],
             arrAmax := 0, fc11 := [], fc11Skip := [], lamPoison := false, chunk := none, vars := [] })

/-- A quadrant is powered down (R413, R415). -/
def quadDown (s : State) (q : Nat) : State := { quadClear s q with pwr.quad := vput s.pwr.quad q false }

/-- The plans whose staged PLAN_ACTIVATE takes effect at the edge that closes this beat (R413). -/
def activating (s : State) : List Nat :=
  (s.gr.staged.filter (fun g => decide (g.nextEdge ≤ s.beat.num + 1))).flatMap (fun g =>
    ((g.phases.head?.map (fun p => p.members)).getD []).filterMap (fun m => if m.op = 0x102 then some (leAt m.payload 0 8) else none))

/-- Some plan in the installed table claims a quadrant, or one that the coming edge activates (R413). -/
def quadClaimed (s : State) (q : Nat) : Bool :=
  s.cmb.ctx.toList.any (fun c => (c.st.inTable || (c.st.resident && (activating s).contains c.planId)) && claimsQuad c.quads q)

/-- QUADRANT_POWER_GATE (R413): in Active and Park, the quadrants that the installed plans claim are powered, and no others. A
quadrant whose BIST runs is left alone. -/
def powerQuads (s : State) : State :=
  if s.pwr.st = .active ∨ s.pwr.st = .park then
    forUpto 4 (fun s q =>
      let want := quadClaimed s q && !vget s.hi.quadOff q false && !s.pwr.tripped
      let on := vget s.pwr.quad q false
      if vget s.hi.bist q false then s
      else if want && !on then { s with pwr.quad := vput s.pwr.quad q true }
      else if !want && on then quadDown s q
      else s) s
  else s

/-- Every instance of a plan that claims a quadrant is invalidated and stops, with a cause (R47, R427). -/
def invalidOn (s : State) (q cause : Nat) : State :=
  forUpto 4 (fun s c =>
    if claimsQuad (ctxAt s c).quads q then
      onCtx s c (fun x => { x with insts := x.insts.map (fun i =>
        { i with stopped := true, faults := { i.faults.because cause with invalid := true } }) })
    else s) s

/- Placement. -/

/-- A profile enters both core loops' tables at a device index, each with what calibration has measured for its band (R60, R71,
R84). -/
def installProfile (s : State) (i : Nat) (p : Profile) : State :=
  setProf (setProf s .c0 i (inBand s .c0 p.band p)) .c1 i (inBand s .c1 p.band p)

/-- Entry j of a plan's stream table in its placed form (R214). -/
def placeStream (k base : Nat) (e : StreamEnt) : StreamEnt := { e with ptr := base + e.ptr, st := .idle, ctx := k }

/-- The stream entries of a plan take the values of its STREAMS section (R214, R229). -/
def placeStreams (s : State) (k : Nat) : State :=
  let c := ctxAt s k
  ((imgStreams ((c.src.map (fun p => p.bytes)).getD [])).zipIdx).foldl (fun s e =>
    onStream s (c.rcsBase + e.2) (fun _ => placeStream k c.xmBase e.1.1)) s

/-- KIND and STEP of a plan's sync objects, from its slot programs (R253). -/
def placeObjects (s : State) (k : Nat) : State :=
  let c := ctxAt s k
  (List.range c.soCount).foldl (fun s i =>
    onSo s (c.soBase + i) (fun _ =>
      { SoObj.init with remote := objRemote (progsOf c) i, step := objStep (progsOf c) i })) s

/-- The ledger entries that a plan's BUFFERS claim takes: the lowest free ones, POOLED to the plan (Table 10.3). -/
def placeBuffers (s : State) (k n : Nat) : State :=
  ((freeEntries s).take n).foldl (fun s i => onBl s i (fun e => { e with st := .pooled, owner := ctxOwner k, holder := 0 })) s

/-- A plan that passed step 3 takes its resources and enters LOADING (R114, R117 to R119); the first resident plan starts the lock of
the base profile (R74). c is its context with the profiles renumbered. -/
def placePlan (s : State) (src : PlanSource) (c : PlanCtx) : Nat × State :=
  let k := (freeCtx s).getD 0
  let first := (residents s).isEmpty
  let taken := (takenProfiles s).map (fun t => t.1)
  let xm := c.xmBytes + c.ctxBytes
  let base := if xm = 0 then 0 else (findRun (xmLimit s) (2 * 2 ^ 20) xm (planRuns s ++ hostRuns s)).getD 0
  let map := (List.range 4).flatMap (fun q => placeBanks s c.bankUse q (c.banks.getD q 0))
  let c := { c with
    st := .loading, src := some src, soBase := (findBase 256 c.soCount (soRuns s)).getD 0, xmBase := base,
    threads := (List.range 4).map (fun q => (freeThreads s q).take (c.feeders.getD q 0)),
    rcsBase := (findBase 256 c.rcsCount (rcsRuns s)).getD 0, bankMap := map.foldl (fun m e => SMap.putAt m e.1 e.2 64) [] }
  let s := onCtx s k (fun _ => c)
  let s := placeBuffers (placeObjects (placeStreams s k) k) k (readClaims (sectBytes src.bytes 1)).buffers
  let s := c.profiles.foldl (fun s p => if taken.contains p.1 then s else installProfile s p.1 p.2.1) s
  let s := { s with cmb.fetch := some k, cmb.fetchRepl := false, cmb.fetchDone := 0, cmb.fill := [] }
  (k, if first then lockBase s else s)

/- Release. -/

/-- Profiles that no resident plan names any more leave the tables, each once it is not on the active loop (R71, R84). -/
def prunProfiles (s : State) : State :=
  let used := (takenProfiles s).map (fun t => t.1)
  ((List.range 16).filter (fun i => !used.contains i)).foldl (fun s i => setProf (setProf s .c0 i .empty) .c1 i .empty) s

/-- With no plan resident the core loops lock nothing for the core (R74). -/
def stopLoops (s : State) : State :=
  let idle (x : LoopSt) : LoopSt := { x with purpose := .none, slot := none, pre := false }
  onLoop (onLoop { s with syn.skip := none } .c0 idle) .c1 idle

/-- The work of a plan that is released ends: its threads, its operations, its open chunks, its tiles and its sends. -/
def endWork (s : State) (k : Nat) : State :=
  let s := endThreads s (fun _ t => t.ctx == k)
  let s := forUpto 4 (fun s q => onQuad s q (fun x =>
    { x with todo := x.todo.filter (fun t => t.ctx != k), chunk := x.chunk.filter (fun r => r.ctx != k),
             fwds := x.fwds.filter (fun f => f.ctx != k) })) s
  forUpto 20 (fun s p => onPort s p (fun x => { x with syncq := x.syncq.filter (fun w => w.ctx != k) })) s

/-- The streams, synchronisation objects and buffers of plan c of slot k are released (R119, R132, Table 10.3). -/
def freeObjects (s : State) (k : Nat) (c : PlanCtx) : State :=
  let s := { s with
    streams := s.streams.filter (fun e => decide (e.1 < c.rcsBase) || decide (c.rcsBase + c.rcsCount ≤ e.1)),
    so.obj := s.so.obj.filter (fun e => decide (e.1 < c.soBase) || decide (c.soBase + c.soCount ≤ e.1)),
    so.inst := vput s.so.inst k 0,
    bl.ent := s.bl.ent.map (fun (e : Nat × BlEntry) =>
      if e.2.owner = ctxOwner k then (e.1, { BlEntry.init with gen := (e.2.gen + 1) % 16 }) else e),
    cmb.fetch := if s.cmb.fetch = some k then none else s.cmb.fetch }
  { s with bl.ent := s.bl.ent.filter (fun (e : Nat × BlEntry) => decide (e.2 ≠ BlEntry.init)) }

/-- Every resource of a plan is released (R119, R121, R132, Table 10.3), and the last plan's release moves the core to the safe
clock (R74). -/
def releasePlan (s : State) (k : Nat) : State :=
  let c := ctxAt s k
  let s := abandonPhases s k
  let s := c.bankMap.foldl (fun s e => releaseBank s (e.1 / 64) e.2) s
  let s := onCtx (freeObjects (endWork s k) k c) k (fun _ => .init)
  let s := if (residents s).isEmpty then stopLoops (swapSafe s) else s
  reserveAll (prunProfiles s)

/-- PLAN_FETCH_FAILURE (Table 5.7, R124): the plan is discarded, or its replacement is abandoned; event 0x0302. -/
def fetchFail (s : State) : State :=
  match s.cmb.fetch with
  | none => s
  | some k => raise (if s.cmb.fetchRepl then abandonPhases s k else releasePlan s k) 0x0302 .major 0

/- The checks of a completed fetch. -/

/-- The weight tile of a pass: its header passes R140, and it lies in one claimed bank of its quadrant's slice (R136). -/
def tileOk (c : PlanCtx) (view : Nat → WView) (q : Nat) (d : PassDesc) : Bool :=
  let h := wHdr (view d.tile)
  decide (d.tile % 64 = 0) && d.tile / 0x18000000 == q && decide (d.tile % 0x18000000 / 0x600000 < c.banks.getD q 0) &&
    wHdrOk h && decide (d.tile % 0x600000 + h.bytes ≤ 0x600000)

/-- The passes of one tile map their lanes alike (R150). -/
def permsAgree (view : Nat → WView) : Option (Bool × List Nat) → List ProgOp → Bool
  | _, [] => true
  | st, .pass d :: r =>
    let v := view d.tile
    let h := wHdr v
    let me := (h.permuted, if h.permuted then permOf h v else [])
    (match st with
     | none => true
     | some x => d.overwrite || x == me) && permsAgree view (if d.tileEnd.isSome then none else some me) r
  | st, _ :: r => permsAgree view st r

/-- The frequency of a slot of a merged table, as a ratio of MHz (R16). -/
def slotMhz (cs : List (Nat × PlanCtx)) (i : Nat) : Nat × Nat :=
  match (profileAtSlot cs i).bind (profileIn cs) with
  | some p => (100 * (p.n * 2 ^ 24 + p.f), p.p * p.d * 2 ^ 24)
  | none => (800, 1)

/-- No pass declares less than its planned cost (R152). -/
def costOk (cs : List (Nat × PlanCtx)) (view : Nat → WView) (slot : Nat) (d : PassDesc) : Bool :=
  let v := view d.tile
  let h := wHdr v
  decide (plannedCost (slotMhz cs (slot % 128)) h d.p d.kb (h.scaled || d.actScaled) (tileItems h v).1 ≤ d.cost)

/-- The passes of a program with their slots. -/
def passesOf (p : QuadProg) : List (Nat × PassDesc) :=
  (progOps p).filterMap (fun o => match o.2 with
    | .pass d => some (o.1, d)
    | _ => none)

/-- The local page list of a parity plan matches its stripes (R126): each stripe once, each page claimed and used, and the role of
rank 8g + (i mod 8). -/
def stripesOk (c : PlanCtx) (rank : Nat) : Bool :=
  !c.parity ||
    (decide ((c.stripes.map (fun e => e.1)).eraseDups.length = c.stripes.length) &&
      decide ((c.stripes.map (fun e => e.2.1)).eraseDups.length = c.stripes.length) &&
      c.stripes.all (fun e =>
        let key := 64 * (e.2.1 / 98304) + e.2.1 % 98304 / 1536
        ((c.bankUse.find key).getD []).contains (e.2.1 % 1536) && decide ((e.2.2 = 1) ↔ rank % 8 = e.1 % 8) && decide (e.2.2 ≤ 1)))

/-- What Keeper checks when the fetch of a plan completes (Table 5.7, R126, R140, R150, R152). -/
def fetchOk (cs : List (Nat × PlanCtx)) (c : PlanCtx) (src : PlanSource) (rank : Nat) : Bool :=
  imgDigestOk src.bytes && stripesOk c rank &&
    src.progs.all (fun p =>
      (passesOf p).all (fun d => tileOk c (imageView src) p.quad.val d.2) &&
        permsAgree (imageView src) none ((progOps p).map (fun o => o.2)) &&
        (passesOf p).all (fun d => costOk cs (imageView src) d.1 d.2))

/-- The image that the fetch under way reads, and the banks that it fills: plan bank and physical bank (R120, R124). -/
def fetchBanks (s : State) : List Byte × List (Nat × Nat) :=
  match s.cmb.fetch with
  | none => ([], [])
  | some k =>
    let c := ctxAt s k
    if s.cmb.fetchRepl then
      ((c.replSrc.map (fun p => p.bytes)).getD [],
       (c.phases.head?.map (fun p => p.shadow.map (fun x => (64 * x.1 + x.2.1, x.2.2)))).getD [])
    else ((c.src.map (fun p => p.bytes)).getD [], c.bankMap)

/-- The weight pages that the fetch under way writes: the physical page, and where its bytes stand in the image. No retired page is
written (R131); the other pages of a free bank read zero (R121). -/
def fetchPages (s : State) : List (Nat × Nat) :=
  let f := fetchBanks s
  (imgWeights f.1).flatMap (fun w =>
    match f.2.find? (fun b => b.1 == 64 * w.slice + w.bank) with
    | none => []
    | some b => ((List.range w.pages).map (fun i => (bankPage w.slice b.2 + w.first + i, w.off + 4096 * i))).filter
        (fun e => !pageRetired s e.1))

/-- Every weight page of the fetch is written (R120). -/
def fetchFull (s : State) : Bool := (fetchPages s).all (fun e => s.cmb.fill.getAt e.1 0 == 64)

/-- One transfer of the fill engine to a page (R120): the next 64 bytes of its image, where the fetch writes that page. LOAD_PCT counts
the transfers of a plan's fetch, at most 99 until it completes. -/
def fetchWrite (s : State) (page : Nat) : State :=
  let n := s.cmb.fill.getAt page 0
  let all := fetchPages s
  match s.cmb.fetch, all.find? (fun e => e.1 == page) with
  | some k, some e =>
    if 64 ≤ n then s
    else
      let s := combWrite s (page * 0x1000 + 64 * n) (bytesAt (fetchBanks s).1 (e.2 + 64 * n) 64)
      let s := { s with cmb.fill := s.cmb.fill.putAt page (n + 1) 0, cmb.fetchDone := s.cmb.fetchDone + 1 }
      if s.cmb.fetchRepl then s
      else onCtx s k (fun x => { x with loadPct := min 99 (s.cmb.fetchDone * 100 / (64 * all.length)) })
  | _, _ => s

/-- Meaning of PLAN_FETCH_COMPLETE (R119, R120, R126, R136, R140, R150, R152): the last weight page has been written. -/
def planFetched (s : State) : State :=
  match s.cmb.fetch, s.cmb.fetchRepl with
  | some k, false =>
    let c := ctxAt s k
    match c.src with
    | none => s
    | some src =>
      if fetchFull s = false then s
      else if ¬ fetchOk (ctxsWhere s (fun _ c => c.st.resident)) c src s.beat.ownRank then fetchFail s
      else
        let s := onCtx { s with cmb.fetch := none } k (fun c => { c with st := .standby, loadPct := 100 })
        raise s 0x0301 .info 0
  | _, _ => s

/-- PLAN_FETCH_COMPLETE (R119). -/
def execPlanFetchComplete (s : State) : Host.Outcome State Fault Refusal := .next (if alive s then planFetched s else s)

/- Loading. -/

/-- The entries of a scatter list from an offset: host address and length, 4 KiB aligned (Table 5.11). -/
def scatterOk (p : List Byte) (o n : Nat) : Bool :=
  decide (p.length = o + 16 * n) &&
    (List.range n).all (fun i => decide (leAt p (o + 16 * i) 8 % 4096 = 0) && decide (leAt p (o + 16 * i + 8) 8 % 4096 = 0) &&
      decide (leAt p (o + 16 * i + 8) 8 ≠ 0))

/-- A command whose key is held when its image is read loses (R347, R353). -/
def answerLost (s : State) (winner : Nat) : State :=
  match s.wg.cur with
  | none => s
  | some m =>
    let seq := s.wg.curSeq
    let s := journal s m seq stSuperseded winner 0
    let s := onMb s m (fun x => { x with superseded := satAdd 32 x.superseded 1 })
    let s := respond (raise s 0x0E01 .info 0) m stSuperseded seq winner (roundBeat s) [] .done
    turns 5 { s with wg.cur := none, wg.curSeq := 0, wg.wait := .none }

/-- The status of a command whose image could not be read, which the spec does not state: one of those its table lists (log 33). -/
def readFailed (s : State) (l : List Nat) : State :=
  let (v, s) := takeFree s 8
  answer s (l.getD (v.toNat % l.length) stBad) []

/-- Meaning of PLAN_LOAD once its image has been read (R115 to R119). -/
def planLoad (s : State) (src : PlanSource) : State :=
  let id := imgPlanId src.bytes
  match lostTo s [.plan id] with
  | some w => answerLost s w
  | none =>
    let c := imageCtx src
    if ¬ imageShape src then answer s stBad []
    else if ¬ planConsistent s src c then answer s stIncons (badProfiles c)
    else
      let c := renumber c (placeProfiles (takenProfiles s) c.profiles)
      let miss := shortfalls s src c
      if ¬ mergedHopsOk s c then answer s stIncons []
      else if ¬ miss.isEmpty then answer s stNoFit (shortfallBytes miss)
      else
        let (k, s) := placePlan s src c
        answer { s with wg.held := s.wg.held ++ [(.plan id, s.wg.curSeq)] } stOk (leBytes 4 k)

/-- PLAN_LOAD (R115, R120): the image is read by DMA; without it at once, the answer waits for the read (R349). -/
def execPlanLoad (src : Option PlanSource) (s : State) : Host.Outcome State Fault Refusal :=
  .next (onCmd s 0x101 (fun p =>
    let n := leAt p 0 4
    if n = 0 ∨ 249 < n ∨ leAt p 4 4 ≠ 0 ∨ scatterOk p 8 n = false then answer s stBad []
    else if dmaUp s = false then readFailed s [stBad, stIncons, stNoFit]
    else
      match src with
      | some i => planLoad s i
      | none => { s with wg.wait := .dmaLoad }))

/- Replacement. -/

/-- The banks that a replacement image writes, in slice, then bank order (R123). -/
def replBanks (l : List Byte) : List Nat :=
  (List.range 256).filter (fun k => (imgWeights l).any (fun w => 64 * w.slice + w.bank == k))

/-- The shape of a replacement image (R111, R112, R123). -/
def replShape (src : PlanSource) : Bool :=
  let l := src.bytes
  let n := imgSections l
  decide (leAt l 0 4 = 0x4E414C50) && decide (leAt l 4 2 = 1) && decide (1 ≤ n) && decide (n ≤ 32) &&
    (bytesAt l 36 28 ++ bytesAt l 96 32).all (fun b => b == 0#8) && decide (imgBytes l % 4096 = 0) &&
    decide (imgBytes l ≤ l.length) && decide (4096 ≤ imgBytes l) &&
    (sects l).all (fun x => x.flags == 0 && (x.typ == 4 || x.typ == 5 || x.typ == 8) && decide (x.off % 4096 = 0) &&
      decide (128 + 16 * n ≤ x.off) && decide (x.off + x.len ≤ imgBytes l)) && sectsApart (sects l) &&
    (sectsOf l 4).all weightShape && !(sectsOf l 4).isEmpty && (sectsOf l 5).length == 1 && decide ((sectsOf l 8).length ≤ 1) &&
    decide ((sectBytes l 8).length % 12 = 0)

/-- The plan banks that a plan claims, in slice, then bank order, as 64 q + b. -/
def ownBanks (c : PlanCtx) : List Nat := (List.range 4).flatMap (fun q => (List.range (c.banks.getD q 0)).map (fun b => 64 * q + b))

/-- The page maps of a replacement image, one for each plan bank that the plan claims (Table 5.3). -/
def replMaps (c : PlanCtx) (l : List Byte) : SMap (List Nat) := readBankUse (sectBytes l 5) (ownBanks c)

/-- A replacement image agrees with its plan (R123): its pages, weights and parity alike, lie in the plan's own banks, marked used. -/
def replConsistent (c : PlanCtx) (src : PlanSource) : Bool :=
  let l := src.bytes
  let use := replMaps c l
  let ws := imgWeights l
  let pages := ws.flatMap (fun w => (List.range w.pages).map (fun i => (64 * w.slice + w.bank, w.first + i)))
  imgPlanId l == c.planId && (sectBytes l 5).length == 192 * (ownBanks c).length &&
    ws.all (fun w => decide (w.slice < 4) && decide (w.bank < c.banks.getD w.slice 0) && decide (w.first + w.pages ≤ 1536)) &&
    pages.all (fun p => ((use.find p.1).getD []).contains p.2) && decide (pages.length = pages.eraseDups.length) &&
    (imgStripes l).all (fun e => ((use.find (64 * (e.2.1 / 98304) + e.2.1 % 98304 / 1536)).getD []).contains (e.2.1 % 1536))

/-- Banks of a list in each slice. -/
def perSliceCount (l : List Nat) : List Nat := (List.range 4).map (fun q => (l.filter (fun k => k / 64 == q)).length)

/-- Counts fit, slice by slice. -/
def fitsIn (need room : List Nat) : Bool := (List.range 4).all (fun q => decide (need.getD q 0 ≤ room.getD q 0))

/-- The replacement groups of a plan restricted to the banks replaced, with their numbers; one group where it has none (R123). -/
def replGroups (c : PlanCtx) (banks : List Nat) : List (Nat × List Nat) :=
  let gs := if c.groups.isEmpty then [banks] else c.groups.map (fun g => (g.map (fun b => 64 * b.1 + b.2)).filter (fun k => banks.contains k))
  (gs.zipIdx.map (fun g => (g.2, g.1))).filter (fun g => !g.2.isEmpty)

/-- Pack whole groups in order (R123): the current phase so far, and the phases before it. Each phase opens with as many banks as the
first, because those that the previous phase releases become free. -/
def packGroups (room : List Nat) : List Nat → List (List Nat) → List (Nat × List Nat) → List (List Nat)
  | cur, done, [] => done ++ (if cur.isEmpty then [] else [cur])
  | cur, done, g :: r =>
    if fitsIn (perSliceCount (cur ++ g.2)) room then packGroups room (cur ++ g.2) done r
    else packGroups room g.2 (done ++ [cur]) r

/-- The phase plan of a replacement (R123): none where some group cannot fit. -/
def replPlan (s : State) (c : PlanCtx) (banks : List Nat) : Option (List (List Nat)) :=
  let room := (List.range 4).map (fun q => (freeBanks s q).length)
  if fitsIn (perSliceCount banks) room then some [banks]
  else if (replGroups c banks).all (fun g => fitsIn (perSliceCount g.2) room) then some (packGroups room [] [] (replGroups c banks))
  else none

/-- A phase plan as a response holds it (log 30): a 4-byte count; per phase the banks per slice, a 2-byte group count, and the groups. -/
def phasePlanBytes (c : PlanCtx) (phases : List (List Nat)) : List Byte :=
  let all := phases.flatMap (fun p => p)
  leBytes 4 phases.length ++ phases.flatMap (fun p =>
    let gs := (replGroups c all).filter (fun g => g.2.all (fun k => p.contains k))
    (perSliceCount p).flatMap (leBytes 1) ++ leBytes 2 gs.length ++ gs.flatMap (fun g => leBytes 2 g.1))

/-- The banks of a pending phase as a list of 64 q + b. -/
def phaseBanks (p : ReplPhase) : List Nat := p.banks.map (fun b => 64 * b.1 + b.2)

/-- Meaning of PLAN_REPLACE once its image has been read (R123, R124). -/
def planReplace (s : State) (k : Nat) (src : PlanSource) : State :=
  let c := ctxAt s k
  let banks := replBanks src.bytes
  if ¬ replShape src then answer s stBad []
  else if ¬ replConsistent c src then answer s stIncons []
  else
    match replPlan s c banks with
    | none => answer s stNotAtomic []
    | some ps =>
      let s := onCtx s k (fun c =>
        { c with phases := ps.map (fun p => { banks := p.map (fun b => (b / 64, b % 64)), shadow := [], ready := false }),
                 replSrc := some src, replUse := replMaps c src.bytes, replStripes := imgStripes src.bytes })
      let s := reserveShadow { s with cmb.fetch := some k, cmb.fetchRepl := true, cmb.fetchDone := 0, cmb.fill := [] } k
      answer s (if ps.length = 1 then stOk else stPhased) (phasePlanBytes c ps)

/-- PLAN_REPLACE (R123, R124, R134). An empty list abandons what is pending whatever is being fetched: R124 gives it that effect, and
R134 would refuse it just while there is something to abandon (DEDUCED, log 113). -/
def execPlanReplace (src : Option PlanSource) (s : State) : Host.Outcome State Fault Refusal :=
  .next (onCmd s 0x105 (fun p =>
    let n := leAt p 8 4
    if 249 < n ∨ leAt p 12 4 ≠ 0 ∨ scatterOk p 16 n = false then answer s stBad []
    else
      match ctxOf s (leAt p 0 8) with
      | none => answer s stNone []
      | some k =>
        if n = 0 then answer (reserveAll (abandonPhases s k)) stOk (phasePlanBytes (ctxAt s k) [])
        else if fetchBusy s = true ∨ (ctxAt s k).phases ≠ [] ∨ (ctxAt s k).st = .loading ∨ (ctxAt s k).st = .unloading then
          answer s stIncons []
        else if dmaUp s = false then readFailed s [stBad, stIncons]
        else
          match src with
          | some i => planReplace s k i
          | none => { s with wg.wait := .dmaRepl }))

/-- The weight tiles that a phase replaces pass R140 in the replacement image. -/
def phaseTilesOk (c : PlanCtx) (src : PlanSource) (ph : ReplPhase) : Bool :=
  (progsOf c).all (fun p => (passesOf p).all (fun d =>
    let key := 64 * (d.2.tile / 0x18000000) + d.2.tile % 0x18000000 / 0x600000
    !(phaseBanks ph).contains key || tileOk c (imageView src) p.quad.val d.2))

/-- Meaning of REPLACE_PHASE_READY (R124, R140): the shadow banks of the current phase hold its pages. -/
def phaseReady (s : State) (k : Nat) : State :=
  let c := ctxAt s k
  match c.phases, c.replSrc with
  | ph :: rest, some src =>
    if ph.ready ∨ ph.shadow.length ≠ ph.banks.length ∨ (s.cmb.fetch ≠ none ∧ ¬ (s.cmb.fetch = some k ∧ s.cmb.fetchRepl = true)) then s
    else
      let s := { s with cmb.fetch := some k, cmb.fetchRepl := true }
      if fetchFull s = false then s
      else if ¬ (imgDigestOk src.bytes = true ∧ phaseTilesOk c src ph = true) then fetchFail s
      else
        let s := onCtx { s with cmb.fetch := none, cmb.fetchRepl := false } k (fun c => { c with phases := { ph with ready := true } :: rest })
        raise s 0x0303 .info 0
  | _, _ => s

/-- REPLACE_PHASE_READY (R124). -/
def execReplacePhaseReady (c : Ctx) (s : State) : Host.Outcome State Fault Refusal :=
  .next (if alive s then phaseReady s c.val else s)

/-- The fetch of the next phase is under way again after a swap, where no other fetch is (R120, R124). -/
def nextPhaseFetch (s : State) (k : Nat) : State :=
  match (ctxAt s k).phases with
  | p :: _ =>
    if s.cmb.fetch.isNone && !p.ready then { s with cmb.fetch := some k, cmb.fetchRepl := true, cmb.fetchDone := 0, cmb.fill := [] }
    else s
  | [] => s

/- Activation and draining. -/


/-- PLAN_INSTALL (Table 5.7, R188, R266, R360, R413): slot table, profiles and programs at the edge. -/
def installPlan (s : State) (k : Nat) : State :=
  let c := ctxAt s k
  let s := onCtx s k (fun c =>
    { c with st := .installed, halted := false, admitted := 0, haltBeat := none, haltDue := none, insts := [],
             links := c.links.map (fun e => { e with got := [], held := [], inst := 0, complete := false, sent := 0 }) })
  let s := { s with beat.slotTicks := c.slotTicks }
  let s := forUpto 4 (fun s q => onQuad s q (fun x =>
    { x with saved := vput x.saved k none, chains := x.chains.filter (fun e => e.1 / 256 != k) })) (syncZero s k)
  afterTable (powerQuads (installTable s)) 127

/-- A DRAINING plan with no instance left goes to STANDBY, and its slot-table entries with it (Table 5.7). -/
def drainDone (s : State) (k : Nat) : State :=
  let s := onCtx s k (fun c => { c with st := .standby })
  afterTable (powerQuads (installTable (endThreads s (fun _ t => t.ctx == k)))) 127

/-- A plan that is DRAINING and runs no instance. -/
def drained (s : State) (k : Nat) : Bool := (ctxAt s k).st == .draining && (ctxAt s k).insts.isEmpty

/-- PLAN_DRAIN_COMPLETE (Table 5.7): at the edge that comes, in the guard of the last slot of the beat. -/
def execPlanDrainComplete (c : Ctx) (s : State) : Host.Outcome State Fault Refusal :=
  .next (if alive s ∧ s.beat.running = true ∧ s.beat.slot = 127 ∧ s.beat.guard = true ∧ drained s c.val = true then atEdge s (fun s _ => drainDone s c.val) else s)

/- Commands. -/

/-- PLAN_UNLOAD (R119, R134): the fetch stops, and the resources are released at the next edge. DESIGN CHOICE (log 114): a plan that is
UNLOADING already answers INCONSISTENT, here and to PLAN_REPLACE. -/
def execPlanUnload (s : State) : Host.Outcome State Fault Refusal :=
  .next (onCmd s 0x104 (fun p =>
    if p.length ≠ 8 then answer s stBad []
    else
      match ctxOf s (leAt p 0 8) with
      | none => answer s stNone []
      | some k =>
        match (ctxAt s k).st with
        | .installed => answer s stIncons []
        | .draining => answer s stIncons []
        | .unloading => answer s stIncons []
        | _ =>
          let s := if s.cmb.fetch = some k then { s with cmb.fetch := none, cmb.fetchRepl := false } else s
          answer (onCtx s k (fun c => { c with st := .unloading })) stOk []))

/-- PLAN_FITMODE (R118, R134). -/
def execPlanFitmode (s : State) : Host.Outcome State Fault Refusal :=
  .next (onCmd s 0x107 (fun p =>
    if p.length ≠ 1 ∨ 1 < leAt p 0 1 then answer s stBad []
    else if ¬ (residents s).isEmpty then answer s stIncons []
    else answer { s with cmb.rotate := leAt p 0 1 == 1 } stOk []))

/-- A DMA read that a command or a fetch waits on completes (R349): Keeper answers the command. -/
def dmaDone (s : State) (src : PlanSource) : State :=
  match s.wg.wait, s.wg.cur with
  | .dmaLoad, some _ => planLoad { s with wg.wait := .none } src
  | .dmaRepl, some m =>
    match ctxOf s (leAt (mbPayload s m) 0 8) with
    | some k => planReplace { s with wg.wait := .none } k src
    | none => answer s stNone []
  | _, _ => s

/-- DMA_READ_COMPLETE (R310, R349). -/
def execDmaReadComplete (src : PlanSource) (s : State) : Host.Outcome State Fault Refusal :=
  .next (if alive s ∧ dmaUp s = true then dmaDone s src else s)

/-- Every DMA read fails (R310, Table 5.7), as at a hot reset or an FLR: the command that waits on one is answered, and the fetch
fails. -/
def dmaAllFail (s : State) : State :=
  fetchFail (match s.wg.wait with
    | .dmaLoad => readFailed s [stBad, stIncons, stNoFit]
    | .dmaRepl => readFailed s [stBad, stIncons]
    | _ => s)

/-- A DMA read fails (R310, Table 5.7): the command that waits on it is answered, or the fetch fails. -/
def dmaFail (s : State) : State :=
  match s.wg.wait with
  | .dmaLoad => readFailed s [stBad, stIncons, stNoFit]
  | .dmaRepl => readFailed s [stBad, stIncons]
  | _ => fetchFail s

/-- DMA_READ_ERROR (R310). -/
def execDmaReadError (s : State) : Host.Outcome State Fault Refusal := .next (if alive s then dmaFail s else s)

/-- DMA_COMPLETION_TIMEOUT (R310). -/
def execDmaCompletionTimeout (s : State) : Host.Outcome State Fault Refusal := .next (if alive s then dmaFail s else s)

end Sys2Proof.Machine
end

