-- ==== Sys2Proof/Machine/Instances.lean ====
section
/-! DEFINITION. Plan instances at a beat edge: overruns and the overrun policy (R27, R239, R264), HALT (R294), what ends an instance
(R242, R47), its completion record and its lent buffers (R265, R327, Table 10.3). -/

namespace Sys2Proof.Machine

open Sys2Proof

/-- The batches of running instances: plan context and admission beat (R241). -/
def batches (s : State) : List (Nat × Nat) :=
  (List.range 4).flatMap (fun c => ((ctxAt s c).insts.map (fun i => (c, i.admitBeat))).eraseDups)

/-- Planned work of a batch whose slot has begun is not complete (R27). -/
def workOpen (s : State) (c adm : Nat) : Bool :=
  s.quad.toList.any (fun x =>
    x.todo.any (fun t => t.ctx == c && t.adm == adm) || x.feeds.any (fun t => t.ctx == c && t.adm == adm) ||
      x.run.any (fun r => r.ctx == c && r.adm == adm))

/-- A tile of a batch waits for its swap, or is in the fused chain. -/
def tileOpen (s : State) (c adm : Nat) : Bool :=
  s.quad.toList.any (fun x =>
    (x.swapDue && (activeSet x).ctx == c && (activeSet x).adm == adm) || (x.shadowBusy && (shadowSet x).ctx == c && (shadowSet x).adm == adm))

/-- Output of a batch is not accepted yet (R242). -/
def drainsOpen (s : State) (c adm : Nat) : Bool :=
  s.xm.threads.any (fun e => e.2.d.write && e.2.ctx == c && e.2.admitBeat == adm && e.2.run != .idle &&
    decide (e.2.done < roundBytes e.2))

/-- A forward of a batch has not been sent yet (R205). -/
def fwdsOpen (s : State) (c adm : Nat) : Bool := s.quad.toList.any (fun x => x.fwds.any (fun f => f.ctx == c && f.adm == adm))

/-- Beats of one instance of a plan. -/
def planBeats (c : PlanCtx) : Nat := (progsOf c).foldl (fun m p => max m p.beats) 1

/-- The batch has run every slot of its program by beat edge e, and its last drain has ended (R242). -/
def batchDone (s : State) (c adm e : Nat) : Bool :=
  decide (adm + planBeats (ctxAt s c) ≤ e) && !workOpen s c adm && !tileOpen s c adm && !drainsOpen s c adm && !fwdsOpen s c adm

/-- Nothing of a batch runs any more: its operations, pass, tiles, forwards and threads end. A PERSIST thread stays bound to the plan,
and its transfers in flight complete first (R243); so does a chunk in progress, without its output (R225). -/
def endBatch (s : State) (c adm : Nat) : State :=
  let mine (t : Thread) : Bool := t.ctx == c && t.admitBeat == adm
  let kept := (s.xm.threads.filter (fun e => mine e.2 && e.2.d.persist)).map (fun e => e.1)
  let s := endThreads s (fun _ t => mine t && !t.d.persist)
  let s := kept.foldl (fun s k =>
    if tagsOf s k = 0 then onThread s k (fun t => { t with run := .idle, data := [], issued := 0, done := 0 })
    else onThread s k (fun t => { t with closing := true })) s
  forUpto 4 (fun s q => onQuad s q (fun x =>
    let shut (a : AccSet) : AccSet := if a.ctx = c ∧ a.adm = adm then { a with opened := false } else a
    let mineB := match x.blocked, x.todo with
      | some _, t :: _ => t.ctx == c && t.adm == adm
      | _, _ => false
    { x with
      swapDue := x.swapDue && !((activeSet x).ctx == c && (activeSet x).adm == adm),
      shadowBusy := x.shadowBusy && !((shadowSet x).ctx == c && (shadowSet x).adm == adm),
      setA := shut x.setA, setB := shut x.setB,
      blocked := if mineB then none else x.blocked,
      todo := dropTodo s x c adm, feeds := x.feeds.filter (fun t => !(t.ctx == c && t.adm == adm)),
      vars := x.vars.filter (fun e => !(e.1 / 2 ^ 64 % 4 == c && e.1 % 2 ^ 64 == adm % 2 ^ 64)),
      run := x.run.filter (fun r => !(r.ctx == c && r.adm == adm)),
      chunk := x.chunk.map (fun r => if r.ctx = c ∧ r.adm = adm then { r with out := none } else r),
      fc11 := x.fc11.filter (fun t => !(t.ctx == c && t.adm == adm)), fc11Skip := x.fc11Skip.filter (fun p => p != (c, adm)),
      stopped := x.stopped.filter (fun p => p != (c, adm)),
      fwds := x.fwds.filter (fun f => !(f.ctx == c && f.adm == adm)) })) s

/-- The result status of an instance (R265, R327). -/
def instStatus (f : InstFaults) : Nat :=
  if f.poisoned then 0x50 else if f.fenced then 0x51 else if f.orderFault then 0x52 else if f.notOwner then 0x40
  else if f.waitTimeout then 0x53 else if f.invalid then stIncons else stOk

/-- A buffer returns to its lender (Table 10.3). -/
def returnLent (s : State) (i : Nat) : State :=
  if (blAt s i).st = .lent then onBl s i (fun e => { e with st := .owned, holder := e.owner }) else s

/-- An instance ends at beat edge e: its buffers return, and its record is written (R242, R327). -/
def finishInst (s : State) (c : Nat) (i : Inst) (e : Nat) : State :=
  let st := instStatus i.faults
  let s := i.lent.foldl returnLent s
  let s := onCtx s c (fun x => { x with insts := x.insts.filter (fun j => j.n != i.n) })
  complete s { status := st, agent := i.agent, admitted := true, cause := if st = 0 then 0 else i.faults.cause, tag := i.tag,
               planId := (ctxAt s c).planId, n := i.n, admitBeat := i.admitBeat, doneBeat := e }

/-- The instances of a batch end at beat edge e; where they complete, the batch leaves what it still holds (R266). -/
def finishBatch (s : State) (c adm e : Nat) : State :=
  let is := batch s c adm
  let s := if is.any (fun i => i.stopped) then s else leaveHolds s c adm
  is.foldl (fun s i => finishInst s c i e) (endBatch s c adm)

/-- The stopped instances end at beat edge e (R27, R47, R103, R294). -/
def finishStopped (s : State) (e : Nat) : State :=
  (batches s).foldl (fun s b => if (batch s b.1 b.2).any (fun i => i.stopped) then finishBatch s b.1 b.2 e else s) s

/-- The instances of one context whose last drain has ended are complete at beat edge e (R242). -/
def completeCtx (s : State) (c e : Nat) : State :=
  (batches s).foldl (fun s b => if b.1 = c ∧ batchDone s c b.2 e = true then finishBatch s c b.2 e else s) s

/-- INSTANCE_COMPLETE (R242): at the edge that comes, in the last slot of the beat. -/
def execInstanceComplete (c : Ctx) (s : State) : Host.Outcome State Fault Refusal :=
  .next (if alive s ∧ s.beat.running = true ∧ s.beat.slot = 127 then atEdge s (fun s e => completeCtx s c.val e) else s)

/-- Every instance of a context stops, invalidated with a cause (R27, R46, R294). -/
def stopCtx (s : State) (c cause : Nat) : State :=
  onCtx s c (fun x => { x with insts := x.insts.map (fun i =>
    { i with stopped := true, faults := { i.faults.because cause with invalid := true } }) })

/-- Work of a batch overruns (R27): counted and reported, and the policy applies at this edge. Under HALT an instance that still
completes before the stop is not invalidated by its lateness alone. -/
def overrun (s : State) (c adm : Nat) : State :=
  let s := raise { s with hi.overruns := satAdd 32 s.hi.overruns 1 } 0x0201 .major 0
  faultBatch s c adm true (fun f => { f.because 0x0201 with invalid := f.invalid || (ctxAt s c).skip })

/-- The overrun policy of a context at beat edge e (R27, R247, R264): SKIP ends the instances at fault; HALT stops the Hive at the
next beat. -/
def policyCtx (s : State) (c e : Nat) : State :=
  let x := ctxAt s c
  if x.insts.any (fun i => i.policyDue) then
    if x.skip then
      onCtx s c (fun x => { x with insts := x.insts.map (fun i =>
        if i.policyDue then { i with policyDue := false, stopped := true, faults := { i.faults.because 0x0201 with invalid := true } }
        else i) })
    else
      let s := onCtx s c (fun x => { x with insts := x.insts.map (fun i => { i with policyDue := false }) })
      if x.halted then s else applyHalt s c e
  else s

/-- The stop of an applied or received HALT is due (R294). -/
def haltStop (s : State) (c e : Nat) : State :=
  match (ctxAt s c).haltDue with
  | none => s
  | some n => if n ≤ e then stopCtx (onCtx s c (fun x => { x with haltDue := none })) c 0x0201 else s

/-- What the beat edge e judges on the values in force before its own updates (R27, R239, R264): a blocked operation whose condition
holds proceeds, work not complete is an overrun, and open waits are abandoned; each plan's policy applies once. -/
def judgeEdge (s : State) (e : Nat) : State :=
  let s := forUpto 4 (fun s q => if canProceed s q then blockedProceed s q else s) s
  let late := (batches s).filter (fun b => workOpen s b.1 b.2)
  let s := late.foldl (fun s b => overrun s b.1 b.2) s
  let s := forUpto 4 waitTimeout s
  let drains := (batches s).filter (fun b => decide (b.2 + planBeats (ctxAt s b.1) = e) && drainsOpen s b.1 b.2)
  let s := drains.foldl (fun s b => raise (if late.contains b then s else overrun s b.1 b.2) 0x0803 .major 0) s
  let s := forUpto 4 (fun s c => haltStop s c e) s
  forUpto 4 (fun s c => policyCtx s c e) s

end Sys2Proof.Machine
end

