-- ==== Sys2Proof/Machine/Operands.lean ====
section
/-! DEFINITION. The forms that operands take: the payloads of the commands that a graft or a reservation may carry (Chapter 15,
R356 to R359), and where each field of them lies. -/

namespace Sys2Proof.Machine

open Sys2Proof

/- Payloads. -/

/-- The graftable opcodes (the Graftable column of the command tables). -/
def graftable (op : Nat) : Bool :=
  [0x102, 0x103, 0x106, 0x110, 0x202, 0x510, 0x601, 0x602, 0x603, 0x605, 0x610, 0x701].contains op

/-- Payload length of a graftable command. -/
def stagedLen (op : Nat) : Nat :=
  if op = 0x110 ∨ op = 0x510 then 18
  else if op = 0x603 then 1136
  else if op = 0x605 ∨ op = 0x610 then 8
  else if op = 0x701 then 24
  else 16

/-- Offset of the target-beat field. -/
def targetAt (op : Nat) : Nat :=
  if op = 0x510 then 10
  else if op = 0x603 then 1128
  else if op = 0x605 ∨ op = 0x610 then 0
  else if op = 0x701 then 16
  else 8

/-- The target beat that a payload names (R356). -/
def targetOf (op : Nat) (p : List Byte) : Nat := leAt p (targetAt op) 8

/-- Bytes of a payload that are all zero. -/
def rsvZero (p : List Byte) (o n : Nat) : Bool := (bytesAt p o n).all (fun b => b == 0#8)

/-- The payload has its table's length, its reserved bytes are zero, and its fields are within their ranges. -/
def stagedShape (op : Nat) (p : List Byte) : Bool :=
  p.length == stagedLen op &&
    (if op = 0x202 then decide (leAt p 0 1 ≤ 2) && rsvZero p 1 7
     else if op = 0x601 ∨ op = 0x602 then decide (leAt p 0 1 ≤ 1) && rsvZero p 1 7
     else if op = 0x510 then decide (leAt p 0 1 ≤ 1) && rsvZero p 1 1
     else if op = 0x110 then decide (leAt p 17 1 ≤ 3)
     else if op = 0x701 then rsvZero p 12 4 && (leAt p 0 8 != 0 || leAt p 8 4 != 0xFFFFFFFF)
     else if op = 0x603 then
       decide (leAt p 12 2 ≤ 1024) && decide (leAt p 16 1 ≤ 1) && rsvZero p 17 7 &&
         (List.range 20).all (fun i => decide (leAt p (24 + 4 * i + 3) 1 ≤ 1))
     else true)

/-- The XM_SHARE quotas of a payload. -/
def quotasOf (p : List Byte) : List Nat := (List.range 4).map (fun i => leAt p (2 + 2 * i) 2)

/-- The neighbour rank that a roster gives a port. -/
def rosterRank (p : List Byte) (n : Nat) : Nat := leAt p (24 + 4 * n) 2

end Sys2Proof.Machine
end

