-- ==== Sys2Proof/Machine/Staged.lean ====
section
/-! DEFINITION. What each graftable command checks and does at its edge (R356 to R360): clock holds (R86), references and mastership
(R108), external memory sharing (R237, R252), streams (R225, R231), rosters (R295, R297, R307), keys (R302), power tolerances (R421),
plans (R134, R124) and the Hive reset (R46). -/

namespace Sys2Proof.Machine

open Sys2Proof

/- Checks. -/

/-- A resident plan agrees with the neighbours of a roster (R307): its claimed ports have one, and its LINKS entries name it. -/
def rosterFits (c : PlanCtx) (p : List Byte) : Bool :=
  !c.st.resident ||
    ((List.range 20).all (fun n => !claimsPort c.ports n || rosterRank p n != 0xFFFF) &&
      c.links.all (fun e => rosterRank p e.port == e.peer))

/-- R307: a roster is consistent. -/
def rosterOk (s : State) (p : List Byte) : Bool :=
  let size := leAt p 12 2
  let inside (r : Nat) : Bool := r == 0xFFFF || decide (r < size)
  inside (leAt p 14 2) && (List.range 20).all (fun n => inside (rosterRank p n)) &&
    (leAt p 16 1 == 0 || keyInstalled (keyNow s)) && s.cmb.ctx.toList.all (fun c => rosterFits c p)

/-- The slices whose banks a plan claims are powered beyond retention (R380). -/
def combUp (s : State) (c : PlanCtx) : Bool :=
  (List.range 4).all (fun q => c.banks.getD q 0 == 0 || (vget s.pwr.cb q false && !vget s.pwr.cbRet q false))

/-- The reference that a payload names. -/
def refOfByte (b : Nat) : RefIn := if b = 0 then .hive else .localRef

/-- What a graftable command checks against a state (R134, R86, R108, R231, R252, R307, R429): its status. timeMet counts the two
conditions that only time produces as met (R361). -/
def checkState (s : State) (op : Nat) (p : List Byte) (timeMet : Bool) : Nat :=
  let plan (f : Nat → PlanCtx → Nat) : Nat := (ctxOf s (leAt p 0 8)).elim stNone (fun k => f k (ctxAt s k))
  if op = 0x102 then
    plan (fun _ c => if c.st = .standby ∨ (timeMet = true ∧ c.st = .draining) then stOk else stIncons)
  else if op = 0x103 then plan (fun _ c => if c.st = .installed then stOk else stIncons)
  else if op = 0x106 then
    plan (fun _ c => match c.phases with
      | [] => stIncons
      | ph :: _ => if ph.ready = true ∨ timeMet = true then stOk else stIncons)
  else if op = 0x110 then
    plan (fun _ c =>
      if c.rcsCount ≤ leAt p 16 1 then stNone
      else
        let e := streamAt s (c.rcsBase + leAt p 16 1)
        if e.st = .ended ∨ (leAt p 17 1 = 1 ∧ e.st ≠ .paused) then stIncons else stOk)
  else if op = 0x202 then (if leAt p 0 1 = 0 ∧ s.syn.hold = .none then stIncons else stOk)
  else if op = 0x510 then (if (quotasOf p).sum ≤ 1024 then stOk else stIncons)
  else if op = 0x602 then
    (if refValid s (refOfByte (leAt p 0 1)) = true ∧ s.syn.refSel ≠ refOfByte (leAt p 0 1) then stOk else stIncons)
  else if op = 0x603 then (if rosterOk s p then stOk else stIncons)
  else if op = 0x605 then (if keyInstalled (keyAhead s) then stOk else stIncons)
  else if op = 0x701 then (if leAt p 0 8 = 0 then stOk else plan (fun _ _ => stOk))
  else stOk

/-- At the edge, a change whose domain is powered down fails its check (R380). -/
def domainUp (s : State) (op : Nat) (p : List Byte) : Bool :=
  if op = 0x102 ∨ op = 0x106 then (ctxOf s (leAt p 0 8)).elim true (fun k => combUp s (ctxAt s k)) else true

/- Effects. -/

/-- A hold cancels every late swap of R76, made ready or still to be locked (R86). -/
def cancelLate (s : State) : State :=
  let drop (x : LoopSt) : LoopSt :=
    if x.purpose = .fallbackHop ∨ x.purpose = .baseFallback then { x with purpose := .none, slot := none } else x
  onLoop (onLoop { s with syn.lateSwap := none } .c0 drop) .c1 drop

/-- A clock hold takes effect (R86): 0 release, 1 freeze, 2 safe clock. A release restores planned hops; the swap to a new base profile
has met its guard before the edge (R457). -/
def holdApply (s : State) (mode : Nat) : State :=
  if mode = 1 then { cancelLate s with syn.hold := .freeze }
  else if mode = 2 then { swapSafe (cancelLate s) with syn.hold := .safeClock }
  else afterTable { s with syn.hold := .none } 127

/-- A roster is installed (R295, R297, R99): every port whose entry changed returns to TRAINING. -/
def rosterApply (s : State) (p : List Byte) : State :=
  let size := leAt p 12 2
  let sea := leAt p 16 1 == 1 && decide (size ≠ 0)
  let s := { s with
    hl.roster := decide (size ≠ 0), hl.size := size, hl.hiveId := if size = 0 then 0 else leAt p 0 8,
    hl.epoch := if size = 0 then 0 else leAt p 8 4, hl.sealed := sea,
    beat.ownRank := if size = 0 then 0 else leAt p 14 2 % 1024,
    beat.masterRank := if s.beat.pstate = .master ∧ size ≠ 0 then leAt p 14 2 % 1024 else s.beat.masterRank,
    hl.route := (List.range 1024).foldl (fun m r =>
      SMap.putAt m r (if size = 0 then 0xFF else leAt p (104 + r) 1) 0xFF) [] }
  let s := forUpto 20 (fun s n =>
    let x := portAt s n
    let rank := if size = 0 then 0xFFFF else rosterRank p n
    let port := if size = 0 then 0 else leAt p (24 + 4 * n + 2) 1
    let ex := leAt p (24 + 4 * n + 3) 1 == 1 && decide (size ≠ 0)
    let changed := x.nbrRank != rank || x.nbrPort != port || x.express != ex
    let s := onPort s n (fun x => { x with nbrRank := rank, nbrPort := port, express := ex, sealed := sea })
    if changed && lnkUp s && x.st != .off then portTrain s n else s) s
  if size < 2 then
    noPortx <| clearWindow { s with beat.pstate := .solo, beat.steer := 0, beat.inPhase := false, beat.parent := none, beat.hops := 31 }
  else if s.beat.pstate = .solo ∧ lnkUp s = true then
    clearWindow { s with beat.pstate := .seek, beat.waitEdges := 0, beat.hops := 31 }
  else s

/-- The payload of a KEYS record (Table 16.4): slot flags, and both slots wrapped. -/
def keysRecord (s : State) : List Byte :=
  leBytes 1 (bit1 s.hl.keyCur.isSome + 2 * bit1 s.hl.keyNext.isSome + 4 * s.hl.keySlot) ++
    leBytes 40 ((s.hl.keyCur.map Config.wrapKey).getD 0).toNat ++ leBytes 40 ((s.hl.keyNext.map Config.wrapKey).getD 0).toNat

/-- The next key is current for the groups that follow; the groups open at the edge close under the old one (R302). -/
def keySwitch (s : State) : State :=
  let s := forUpto 20 closeGroup s
  let s := { s with hl.keySlot := 1 - s.hl.keySlot }
  hwState s 5 (keysRecord s)

/-- The ledger after a Hive reset (R250): cleared, with each resident plan's entries POOLED. -/
def ledgerClear (s : State) : State :=
  let s := { s with bl.ent := s.bl.ent.filterMap (fun (e : Nat × BlEntry) =>
    if 4 ≤ e.2.owner then some (e.1, { BlEntry.init with owner := e.2.owner, st := .pooled }) else none) }
  forUpto 4 (fun s c => onCtx s c (fun x => { x with allocs := [] })) s

/-- HIVE_RESET_APPLY (R46, Table 2.7, R229, R250, R266): every plan instance stops at beat edge e, and the plans stay loaded. -/
def hiveReset (s : State) (e : Nat) : State :=
  let s := { s with hi.hiveRst := true }
  let s := forUpto 4 (fun s c => stopCtx s c 0) s
  let s := ledgerClear (endThreads (finishStopped s e) (fun _ _ => true))
  let s := forUpto 4 (fun s q => onQuad s q (fun x => { x with todo := [], feeds := [], blocked := none, run := none, chunk := none, vars := [] })) s
  forUpto 4 (fun s c =>
    if (ctxAt s c).st.resident then
      let s := onCtx s c (fun x =>
        { x with
          admitted := 0, haltDue := none,
          links := x.links.map (fun e => { e with got := [], held := [], inst := 0, complete := false, sent := 0 }) })
      placeStreams (syncZero s c) c
    else s) s

/-- A power tolerance takes effect (R421): the device-wide one, or a plan's. -/
def toleranceApply (s : State) (id tol : Nat) : State :=
  let s := if id = 0 then { s with pwr.tolDev := tol } else
    match ctxOf s id with
    | none => s
    | some k => onCtx s k (fun c => { c with tol := tol })
  wakeTolerance (retarget421 s)

/-- A graftable command takes effect at beat edge e. -/
def applyMember (s : State) (op : Nat) (p : List Byte) (e : Nat) : State :=
  let plan (f : State → Nat → State) : State := (ctxOf s (leAt p 0 8)).elim s (f s)
  if op = 0x102 then plan installPlan
  else if op = 0x103 then plan (fun s k => onCtx s k (fun c => { c with st := .draining }))
  else if op = 0x106 then plan (fun s k => nextPhaseFetch (swapPhase s k) k)
  else if op = 0x110 then
    plan (fun s k =>
      let i := (ctxAt s k).rcsBase + leAt p 16 1
      streamApply (onStream s i (fun x => { x with action := x.action ++ [leAt p 17 1] })) i)
  else if op = 0x202 then holdApply s (leAt p 0 1)
  else if op = 0x510 then
    { s with xm.fixed := leAt p 0 1 == 1,
             xm.quota := #v[leAt p 2 2, leAt p 4 2, leAt p 6 2, leAt p 8 2] }
  else if op = 0x601 then masterEnable s (leAt p 0 1 == 1)
  else if op = 0x602 then refSwitch s (refOfByte (leAt p 0 1)) e
  else if op = 0x603 then rosterApply s p
  else if op = 0x605 then keySwitch s
  else if op = 0x610 then hiveReset s e
  else if op = 0x701 then toleranceApply s (leAt p 0 8) (leAt p 8 4)
  else s

/- What the consistency rules of Table 15.1 ask of a member. -/

/-- The conditions of G2 that a member waits for: a plan's drain (0) or its next replacement phase (1). -/
def memberNeeds (m : Member) : List (Nat × Nat) :=
  if m.op = 0x102 then [(0, leAt m.payload 0 8)] else if m.op = 0x106 then [(1, leAt m.payload 0 8)] else []

/-- The conditions of G2 that a member produces in time. -/
def memberMakes (m : Member) : List (Nat × Nat) :=
  if m.op = 0x103 then [(0, leAt m.payload 0 8)] else if m.op = 0x106 then [(1, leAt m.payload 0 8)] else []

/-- The condition that a member waits for holds (R364). -/
def memberReady (s : State) (m : Member) : Bool :=
  match ctxOf s (leAt m.payload 0 8) with
  | none => true
  | some k =>
    if m.op = 0x102 then (ctxAt s k).st == .standby
    else if m.op = 0x106 then (ctxAt s k).phases.head?.any (fun p => p.ready)
    else true

/-- A member that needs the idle core loop retargeted in the beat before its edge (G3, R457). -/
def memberG3 (s : State) (m : Member) : Bool :=
  let withSt (st : PlanSt) : Bool :=
    match ctxOf s (leAt m.payload 0 8) with
    | none => false
    | some k => baseProfile s != baseProfile (onCtx s k (fun c => { c with st := st }))
  if m.op = 0x202 then leAt m.payload 0 1 == 0 && (drive s == .safe || baseProfile s != some s.syn.profNow)
  else if m.op = 0x102 then withSt .installed
  else if m.op = 0x103 then withSt .standby
  else false

end Sys2Proof.Machine
end

