-- ==== Sys2Proof/Machine/Grafts.lean ====
section
/-! DEFINITION. Staged changes and grafts (chapter 15): the projected state (R358), one key for one change (R357), a graftable command
sent alone (R356), building and committing a graft (R361 to R364, Table 15.1), and what happens at the edge (R359, R364). -/

namespace Sys2Proof.Machine

open Sys2Proof

/- Pending changes. -/

/-- A member of a pending phase with the edge it is due at. -/
structure DueMember where
  edge : Nat
  op : Nat
  payload : List Byte
deriving DecidableEq, Repr

/-- The members of the phases of a staged change that are still to come, with their edges (R364). -/
def Graft.dues (g : Graft) : List DueMember :=
  g.phases.flatMap (fun p => p.members.map (fun m => { edge := g.target + p.off + g.shift, op := m.op, payload := m.payload }))

/-- Insert by edge, after those of the same edge: SEQ order at one edge (R358). -/
def insertDue (x : DueMember) : List DueMember → List DueMember
  | [] => [x]
  | y :: r => if x.edge < y.edge then x :: y :: r else y :: insertDue x r

/-- Every pending member in edge order, and at one edge in SEQ order (R358). -/
def pendingDues (s : State) : List DueMember := (s.gr.staged.flatMap Graft.dues).foldl (fun l x => insertDue x l) []

/-- The keys that have a staged change pending (R357). -/
def pendingKeys (s : State) : List Key := (pendingDues s).flatMap (fun m => cmdKeys m.op m.payload)

/-- The projected state: the current one with every pending change up to an edge applied (R358); none stands for all of them. -/
def projected (s : State) (upto : Option Nat) : State :=
  (pendingDues s).foldl (fun s m => if upto.all (fun e => decide (m.edge ≤ e)) then applyMember s m.op m.payload m.edge else s) s

/- A graftable command alone. -/

/-- A non-zero target beat lies ahead of the accepting edge, by two beats for HIVE_RESET (R356, R50). -/
def targetAhead (s : State) (op t : Nat) : Bool := t == 0 || decide ((if op = 0x610 then s.wg.round + 2 else s.wg.round + 1) ≤ t)

/-- Stage a one-member graft for the mailbox that Keeper serves (R356). -/
def stageOne (s : State) (op : Nat) (p : List Byte) (edge : Nat) : State :=
  let g : Graft :=
    { seq := s.wg.curSeq, source := s.wg.cur.getD 0, cls := (classOf op).getD .operational, alone := true, target := edge,
      waitLimit := 10000, phases := [{ first := 0, members := [{ op := op, payload := p, group := 0 }], waits := false, off := 0 }],
      total := 1, next := 0, shift := 0, count := 1 }
  { s with gr.staged := s.gr.staged ++ [g] }

/-- The status of a graftable command sent alone, and the edge at which it takes effect (R356 to R358). -/
def judgeAlone (s : State) (op : Nat) (p : List Byte) : Nat × Nat :=
  let t := targetOf op p
  let edge := if t = 0 then s.wg.round + 2 else t
  if ¬ stagedShape op p then (stBad, 0)
  else if ¬ targetAhead s op t ∨ (cmdKeys op p).any (fun k => (pendingKeys s).contains k) then (stIncons, 0)
  else
    let st := checkState (projected s (some edge)) op p false
    if st = stOk then (stStaged, edge) else (st, 0)

/-- A graftable command sent on its own (R356): STAGED, or the status of the check that fails. -/
def stageCmd (s : State) (op : Nat) (p : List Byte) : State :=
  let j := judgeAlone s op p
  if j.1 = stStaged then answerAt (stageOne s op p j.2) stStaged [] j.2 else answer s j.1 []

/-- PLAN_ACTIVATE (R134). -/
def execPlanActivate (s : State) : Host.Outcome State Fault Refusal := .next (onCmd s 0x102 (stageCmd s 0x102))
/-- PLAN_DEACTIVATE (R134). -/
def execPlanDeactivate (s : State) : Host.Outcome State Fault Refusal := .next (onCmd s 0x103 (stageCmd s 0x103))
/-- PLAN_SWAP (R124). -/
def execPlanSwap (s : State) : Host.Outcome State Fault Refusal := .next (onCmd s 0x106 (stageCmd s 0x106))
/-- XM_SHARE (R237, R252). -/
def execXmShare (s : State) : Host.Outcome State Fault Refusal := .next (onCmd s 0x510 (stageCmd s 0x510))
/-- BEAT_MASTER_EN (R108). -/
def execBeatMasterEn (s : State) : Host.Outcome State Fault Refusal := .next (onCmd s 0x601 (stageCmd s 0x601))
/-- REF_SELECT (R108): Keeper judges both inputs as it accepts it (log 128). -/
def execRefSelect (s : State) : Host.Outcome State Fault Refusal := .next (onCmd s 0x602 (stageCmd (checkRefs s) 0x602))
/-- HIVE_ROSTER (R295, R307). -/
def execHiveRoster (s : State) : Host.Outcome State Fault Refusal := .next (onCmd s 0x603 (stageCmd s 0x603))
/-- HIVE_KEY_SWITCH (R302, R307). -/
def execHiveKeySwitch (s : State) : Host.Outcome State Fault Refusal := .next (onCmd s 0x605 (stageCmd s 0x605))
/-- HIVE_RESET (R46, R50). -/
def execHiveReset (s : State) : Host.Outcome State Fault Refusal := .next (onCmd s 0x610 (stageCmd s 0x610))
/-- PWR_TOLERANCE (R421). -/
def execPwrTolerance (s : State) : Host.Outcome State Fault Refusal := .next (onCmd s 0x701 (stageCmd s 0x701))

/-- A row of a command whose action byte names it: the row takes its own action, and one that no row names (BAD_PAYLOAD). -/
def onAction (s : State) (op at' act max : Nat) (f : List Byte → State) : State :=
  onCmd s op (fun p => if leAt p at' 1 = act ∨ max < leAt p at' 1 then f p else s)

/-- SYN_HOLD release (R86). -/
def execSynHoldRelease (s : State) : Host.Outcome State Fault Refusal := .next (onAction s 0x202 0 0 2 (stageCmd s 0x202))
/-- SYN_HOLD freeze (R86). -/
def execSynHoldFreeze (s : State) : Host.Outcome State Fault Refusal := .next (onAction s 0x202 0 1 2 (stageCmd s 0x202))
/-- SYN_HOLD safe clock (R86). -/
def execSynHoldSafeClock (s : State) : Host.Outcome State Fault Refusal := .next (onAction s 0x202 0 2 2 (stageCmd s 0x202))
/-- STREAM_CTL pause (R225). -/
def execStreamCtlPause (s : State) : Host.Outcome State Fault Refusal := .next (onAction s 0x110 17 0 3 (stageCmd s 0x110))
/-- STREAM_CTL resume (R225, R231). -/
def execStreamCtlResume (s : State) : Host.Outcome State Fault Refusal := .next (onAction s 0x110 17 1 3 (stageCmd s 0x110))
/-- STREAM_CTL reset (R225). -/
def execStreamCtlReset (s : State) : Host.Outcome State Fault Refusal := .next (onAction s 0x110 17 2 3 (stageCmd s 0x110))
/-- STREAM_CTL end (R225). -/
def execStreamCtlEnd (s : State) : Host.Outcome State Fault Refusal := .next (onAction s 0x110 17 3 3 (stageCmd s 0x110))

/- Building a graft. -/

/-- The status of one member, sent as if alone (R361). -/
def judgeMember (s view : State) (m : Member) : Nat :=
  if ¬ graftable m.op then stUnknown
  else if ¬ stagedShape m.op m.payload ∨ targetOf m.op m.payload ≠ 0 then stBad
  else if (cmdKeys m.op m.payload).any (fun k => (pendingKeys s).contains k) then stIncons
  else checkState view m.op m.payload true

/-- The statuses of members in staging order, each against the state that the members before it leave (R361). -/
def judgeMembers (s : State) : State → List Member → List Nat
  | _, [] => []
  | view, m :: r =>
    let st := judgeMember s view m
    st :: judgeMembers s (if st = stOk then applyMember view m.op m.payload (s.beat.num + 1) else view) r

/-- The state that members leave. -/
def afterMembers (view : State) (ms : List Member) (e : Nat) : State := ms.foldl (fun v m => applyMember v m.op m.payload e) view

/-- The members' indexes and statuses as a response holds them (log 30). -/
def statusBytes (first : Nat) (l : List Nat) : List Byte := (l.zipIdx first).flatMap (fun x => leBytes 2 x.2 ++ leBytes 2 x.1)

/-- The members of a GRAFT_STAGE payload, numbered by groups from one on; none where the payload is malformed (Table 15.6). -/
def stagedMembers (p : List Byte) (g : Nat) : Option (List Member) :=
  let together := leAt p 0 1
  let n := leAt p 2 2
  if 1 < together ∨ leAt p 1 1 ≠ 0 ∨ n < 1 ∨ 64 < n then none
  else
    match readMembers p n 8 with
    | none => none
    | some (l, e) =>
      if e ≠ p.length then none
      else some (l.zipIdx.map (fun x => { op := x.1.1, payload := x.1.2, group := if together = 1 then g else g + x.2 }))

/-- Meaning of GRAFT_STAGE (R361). -/
def graftStage (s : State) (p : List Byte) : State :=
  let m := s.wg.cur.getD 0
  let o := (vget s.gr.opened m none).getD { members := [], waitLimit := if leAt p 4 4 = 0 then 10000 else leAt p 4 4, groups := 0 }
  match stagedMembers p o.groups with
  | none => answer s stBad []
  | some ms =>
    if 64 < o.members.length + ms.length then answer s stNoFit []
    else
      let sts := judgeMembers s (afterMembers (projected s none) o.members (s.beat.num + 1)) ms
      let body := statusBytes o.members.length sts
      match sts.find? (fun x => x != stOk) with
      | some st => answer s st body
      | none =>
        let o := { o with members := o.members ++ ms, groups := o.groups + ms.length }
        answer { s with gr.opened := vput s.gr.opened m (some o) } stOk body

/-- GRAFT_STAGE (R361). -/
def execGraftStage (s : State) : Host.Outcome State Fault Refusal := .next (onCmd s 0x301 (graftStage s))

/- Committing (R363, Table 15.1). -/

/-- The units of a graft in staging order: a TOGETHER group, or one member (G4). -/
def graftUnits : List Member → List (List Member)
  | [] => []
  | m :: r =>
    match graftUnits r with
    | [] => [[m]]
    | u :: us => if u.head?.any (fun x => x.group == m.group) then (m :: u) :: us else [m] :: u :: us

/-- The members may share a phase that starts from a state (G1 to G3, G5). -/
def fitsPhase (edge : Nat) : State → List (Nat × Nat) → Nat → List Member → Bool
  | _, _, _, [] => true
  | v, made, g3, m :: r =>
    let g3 := g3 + bit1 (memberG3 v m)
    !(memberNeeds m).any (fun c => made.contains c) && decide (g3 ≤ 1) && checkState v m.op m.payload true == stOk &&
      fitsPhase edge (applyMember v m.op m.payload edge) (made ++ memberMakes m) g3 r

/-- A set of members is consistent as one phase (Table 15.1). -/
def phaseFits (v : State) (ms : List Member) (edge : Nat) : Bool := decide (ms.length ≤ 32) && fitsPhase edge v [] 0 ms

/-- The phases of R363: units enter the current phase while they fit; none where a unit fits no phase of its own. -/
def formPhases (edge : Nat) : State → List Member → List (List Member) → List (List Member) → Option (List (List Member))
  | _, cur, done, [] => some (done ++ (if cur.isEmpty then [] else [cur]))
  | v, cur, done, u :: us =>
    let after := afterMembers v cur edge
    if ¬ phaseFits after u edge then none
    else if cur.isEmpty ∨ phaseFits v (cur ++ u) edge = true then formPhases edge v (cur ++ u) done us
    else formPhases edge after u (done ++ [cur]) us

/-- Number the phases, and mark those that hold a waiting member (R363, R364). -/
def numberPhases (s : State) : List (Nat × Nat) → Nat → Nat → List (List Member) → List GPhase
  | _, _, _, [] => []
  | made, first, off, ms :: r =>
    let waits := ms.any (fun m => !memberReady s m || (memberNeeds m).any (fun c => made.contains c))
    { first := first, members := ms, waits := waits, off := off } ::
      numberPhases s (made ++ ms.flatMap memberMakes) (first + ms.length) (off + 1) r

/-- The phases of an open graft for a target edge; none is NOT_ATOMIC (R363). -/
def graftPhases (s : State) (o : OpenGraft) (target : Nat) : Option (List GPhase) :=
  match formPhases target (projected s (some target)) [] [] (graftUnits o.members) with
  | none => none
  | some l => if l.length ≤ 8 then some (numberPhases s [] 0 0 l) else none

/-- The phase plan of a response (Table 15.6). -/
def graftPlanBytes (l : List GPhase) : List Byte :=
  let ent := l.flatMap (fun p => leBytes 1 p.first ++ leBytes 1 p.members.length ++ leBytes 1 (bit1 p.waits) ++ leBytes 1 0 ++ leBytes 4 p.off)
  leBytes 2 l.length ++ leBytes 2 0 ++ leBytes 4 (crc32 ent) ++ ent

/-- Meaning of GRAFT_COMMIT (R363, R364, R381). -/
def graftCommit (s : State) (p : List Byte) : State :=
  let m := s.wg.cur.getD 0
  let target := if leAt p 0 8 = 0 then s.wg.round + 2 else leAt p 0 8
  if p.length ≠ 9 ∨ 1 < leAt p 8 1 then answer s stBad []
  else
    match vget s.gr.opened m none with
    | none => answer s stNone []
    | some o =>
      let sts := judgeMembers s (projected s (some target)) o.members
      match sts.findIdx? (fun x => x != stOk) with
      | some i => answer s stIncons (leBytes 2 i ++ leBytes 2 (sts.getD i 0))
      | none =>
        if target < s.wg.round + 2 then answer s stIncons []
        else
          match graftPhases s o target with
          | none => answer { s with gr.notAtomic := satAdd 32 s.gr.notAtomic 1 } stNotAtomic []
          | some ps =>
            if leAt p 8 1 = 1 then answer s stOk (graftPlanBytes ps)
            else if 16 ≤ (committed s).length then answer s stNoFit []
            else
              let g : Graft :=
                { seq := s.wg.curSeq, source := m, cls := .operational, alone := false, target := target, waitLimit := o.waitLimit,
                  phases := ps, total := ps.length, next := 0, shift := 0, count := o.members.length }
              let s := { s with gr.staged := s.gr.staged ++ [g], gr.opened := vput s.gr.opened m none }
              answerAt s (if ps.length = 1 then stStaged else stPhased) (graftPlanBytes ps) target

/-- GRAFT_COMMIT (R363). -/
def execGraftCommit (s : State) : Host.Outcome State Fault Refusal := .next (onCmd s 0x302 (graftCommit s))

/-- Meaning of GRAFT_ABORT (R366, R381). -/
def graftAbort (s : State) (p : List Byte) : State :=
  let m := s.wg.cur.getD 0
  let n := leAt p 0 8
  if p.length ≠ 8 then answer s stBad []
  else if n = 0 then
    match vget s.gr.opened m none with
    | none => answer s stNone []
    | some _ => answer { s with gr.opened := vput s.gr.opened m none } stOk []
  else
    match s.gr.staged.find? (fun g => g.seq == n) with
    | none => answer s stNone []
    | some g =>
      if g.source ≠ m ∧ m ≠ 2 then answer s stNotOwner []
      else answer { s with gr.staged := s.gr.staged.filter (fun g => g.seq != n) } stOk []

/-- GRAFT_ABORT (R366). -/
def execGraftAbort (s : State) : Host.Outcome State Fault Refusal := .next (onCmd s 0x303 (graftAbort s))

/- The edge (R359, R364). -/

/-- Replace the staged change of a SEQ, or take it out. -/
def putGraft (s : State) (seq : Nat) (g : Option Graft) : State :=
  { s with gr.staged := s.gr.staged.flatMap (fun x => if x.seq = seq then g.toList else [x]) }

/-- Keeper's journal entry for a phase (R368, R369, Table 15.2). -/
def journalPhase (s : State) (g : Graft) (st e : Nat) : State :=
  let (n, s) := takeSeq s
  jWrite s { seq := n, source := 8, cls := g.cls, op := 0x302, outcome := st, mirrored := false, member := !g.alone, phase := g.next,
             beat := e, tag := 0, digest := 0, link := g.seq, effect := e }

/-- A phase is not applied, and the later phases are abandoned with it (R359, R364): one event, and an entry for each of them (R368). -/
def abandonPhase (s : State) (g : Graft) (st e : Nat) : State :=
  let s := putGraft { s with gr.abandoned := satAdd 32 s.gr.abandoned g.phases.length } g.seq none
  forUpto g.phases.length (fun s k => journalPhase s { g with next := g.next + k } st e) (raiseAt s e 0x0F02 .major 0)

/-- Apply the members of a phase in order, each checked on the state before it: the state after them, or the first failing status. -/
def applyPhase (e : Nat) : State → List Member → Nat × State
  | s, [] => (stOk, s)
  | s, m :: r =>
    let st := if domainUp s m.op m.payload then checkState s m.op m.payload false else stIncons
    if st = stOk then applyPhase e (applyMember s m.op m.payload e) r else (st, s)

/-- A staged change whose next phase is due at beat edge e is applied, waits for its conditions, or is abandoned (R359, R364). -/
def dueChange (s : State) (g : Graft) (e : Nat) : State :=
  match g.phases with
  | [] => putGraft s g.seq none
  | ph :: rest =>
    if ph.waits && !(ph.members.all (memberReady s)) then
      if e < g.nextEdge + g.waitLimit then s else abandonPhase s g stIncons e
    else
      let a := applyPhase e s ph.members
      if a.1 ≠ stOk then abandonPhase s g a.1 e
      else
        let s := { a.2 with gr.applied := satAdd 32 a.2.gr.applied 1 }
        let s := journalPhase (raiseAt s e 0x0F01 .info 0) g stOk e
        putGraft s g.seq (if rest.isEmpty then none else
          some { g with phases := rest, next := g.next + 1, shift := g.shift + (e - g.nextEdge) })

/-- The staged changes due at beat edge e, in SEQ order (R359, R101). -/
def applyDue (s : State) (e : Nat) : State :=
  s.gr.staged.foldl (fun s g => if g.nextEdge ≤ e then dueChange s g e else s) s

/-- The last slot of a beat of a running generator, in which the rows that happen at the coming edge may come. -/
def edgeNear (s : State) : Bool := alive s && s.beat.running && s.beat.slot == 127

/-- GRAFT_PHASE_APPLY (R359): the changes due at the edge that comes. -/
def execGraftPhaseApply (s : State) : Host.Outcome State Fault Refusal :=
  .next (if edgeNear s then atEdge s applyDue else s)

/-- GRAFT_WAIT_LIMIT (R364): waiting phases past their limit are abandoned. -/
def execGraftWaitLimit (s : State) : Host.Outcome State Fault Refusal :=
  .next (
    if edgeNear s then
      atEdge s (fun s e => s.gr.staged.foldl (fun s g =>
        if g.nextEdge + g.waitLimit ≤ e ∧ (g.phases.head?.any (fun p => p.waits && !(p.members.all (memberReady s)))) = true then
          abandonPhase s g stIncons e
        else s) s)
    else s)

end Sys2Proof.Machine
end

