-- ==== Sys2Proof/Machine/Regs.lean ====
section
/-! DEFINITION. Host access to BAR0 (R2 to R9): the register words of the blocks of chapters 6 to 12, the word at every offset, the
RC fields that a read clears, the fields that a write changes, and the 64-bit latch and hold of R4. -/

namespace Sys2Proof.Machine

open Sys2Proof

/- The blocks of a quadrant (chapters 6 to 9). -/

/-- The JN_ words of one quadrant (Tables 6.8 to 6.10). -/
def jnReg (x : QuadSt) (o : Nat) : Option Word :=
  if o = 0x00 then
    some (fieldAt 16 5 x.curKb ||| fieldAt 8 3 x.curVal ||| fieldAt 2 3 x.curFmt ||| fieldAt 1 1 (bit1 (x.curKb != 0)) |||
      fieldAt 0 1 (bit1 x.run.isSome))
  else if o = 0x04 then some (w32 (bitsNat [x.jnFmt, x.jnBound, x.jnPoison]))
  else if o = 0x08 then some (w32 x.jnAddr)
  else if o = 0x0C then some (fieldAt 0 8 x.jnCode)
  else if o = 0x10 then some (w32 x.jnPasses)
  else if o = 0x14 then some (w32 x.jnBoundx)
  else if o = 0x18 then some (w32 x.jnFmtx)
  else if o = 0x20 then some (lo32 x.jnSaved)
  else if o = 0x24 then some (hi32 x.jnSaved)
  else if o = 0x28 then some (lo32 x.jnPairs)
  else if o = 0x2C then some (hi32 x.jnPairs)
  else none

/-- Spare columns in use in the array of a quadrant, 0 until firmware has read the fuses (Table 7.9, R163). -/
def sparesUsed (s : State) (q : Nat) : Nat :=
  if s.hi.fwRuns then ((List.range 8).filter (fun k => Config.repairColumn q k != 0xFFFF#16)).length else 0
/-- The ARR_ words of one quadrant (Tables 7.7 to 7.9). -/
def arrReg (s : State) (q o : Nat) : Option Word :=
  let x := quadAt s q
  let a := activeSet x
  if o = 0x00 then
    some (fieldAt 16 10 (match a.mode with
        | .window => twosNat 10 a.anchor
        | _ => 0) ||| fieldAt 8 4 x.curP ||| fieldAt 6 2 a.mode.code ||| fieldAt 5 1 (bit1 x.shadowBusy) |||
      fieldAt 4 1 (bit1 x.activeB) ||| fieldAt 0 1 (bit1 x.run.isSome))
  else if o = 0x04 then some (w32 (bitsNat [x.arrSat, x.arrLost, x.arrInf, x.arrNan, x.arrPoison, x.arrCtxErr]))
  else if o = 0x08 then some (w32 x.arrUnder)
  else if o = 0x0C then some (w32 x.arrSatx)
  else if o = 0x10 then some (w32 x.arrStall)
  else if o = 0x14 then some (fieldAt 16 16 x.arrRestores ||| fieldAt 0 16 x.arrSaves)
  else if o = 0x18 then some (fieldAt 0 4 (sparesUsed s q))
  else if o = 0x1C then some (w32 x.arrAmax)
  else none

/-- The FUS_ words of one quadrant (Tables 8.7 to 8.9). -/
def fusReg (x : QuadSt) (o : Nat) : Option Word :=
  if o = 0x00 then
    some (fieldAt 16 8 x.fusDesc ||| fieldAt 4 4 x.fusChain ||| fieldAt 1 1 (bit1 x.fusPro) ||| fieldAt 0 1 (bit1 x.fusBusy))
  else if o = 0x04 then some (w32 (bitsNat [x.fusPoisonOut, x.fusGather, x.fusMix, x.fusDrop, x.fusRecord]))
  else if o = 0x08 then some (fieldAt 0 8 x.fusCode)
  else if o = 0x0C then some (w32 x.fusTiles)
  else if o = 0x10 then some (w32 x.fusQsatx)
  else if o = 0x14 then some (w32 x.fusPoisonx)
  else if o = 0x18 then some (w32 x.fusFwd)
  else if o = 0x1C then some (w32 x.fusFwdDrop)
  else if o = 0x20 then some (w32 x.fusScale)
  else if o = 0x24 then some (fieldAt 8 8 x.fusHystDesc ||| fieldAt 0 3 x.fusDownRun)
  else none

/-- Phase and LEVEL codes of Table 9.6. -/
def chunkPhaseCode : ChunkPhase → Nat × Nat
  | .gate => (0, 0) | .level j => (1, j) | .load => (2, 0) | .expand => (3, 0) | .readout => (4, 0) | .store => (5, 0)
/-- RCS_STAT (Table 9.6). -/
def rcsStat (x : QuadSt) : Word :=
  match x.chunk with
  | none => 0#32
  | some c => fieldAt 16 8 c.stream ||| fieldAt 8 4 (chunkPhaseCode c.phase).2 ||| fieldAt 4 3 (chunkPhaseCode c.phase).1 ||| 1#32
/-- The RCS_ words of one quadrant (Tables 9.6 to 9.8). -/
def rcsQuadReg (x : QuadSt) (o : Nat) : Option Word :=
  if o = 0x00 then some (rcsStat x)
  else if o = 0x04 then some (w32 (bitsNat [x.rcsPoison, x.rcsNonfin, x.rcsSkipped, x.rcsAborted]))
  else if o = 0x08 then some (w32 x.rcsChunks)
  else if o = 0x0C then some (w32 x.rcsRenorm)
  else if o = 0x10 then some (w32 x.rcsEarly)
  else if o = 0x14 then some (w32 x.rcsSkipx)
  else none
/-- The state code of Table 9.1. -/
def StreamSt.code : StreamSt → Nat
  | .free => 0 | .idle => 1 | .running => 2 | .paused => 3 | .ended => 4
/-- One word of a stream table entry (Table 9.1). -/
def streamWord (e : StreamEnt) (w : Nat) : Word :=
  if w = 0 then lo32 e.ptr
  else if w = 1 then hi32 e.ptr
  else if w = 2 then fieldAt 24 8 e.mode ||| fieldAt 16 8 e.nLog2 ||| fieldAt 0 16 e.g
  else if w = 3 then fieldAt 24 8 e.quad ||| fieldAt 16 8 e.renorm ||| fieldAt 0 16 e.len
  else if w = 4 then w32 e.lambda
  else if w = 5 then
    fieldAt 16 8 e.ctx ||| fieldAt 8 8 e.st.code ||| fieldAt 0 8 (bitsNat [e.reset, e.cur, e.poison, e.nonfin])
  else if w = 6 then w32 e.seq
  else 0#32
/-- The RCS_ words at BAR0 0x000A_0000: four quadrants, RCS_CTXBASE and the stream table (R230). -/
def rcsReg (s : State) (o : Nat) : Option Word :=
  if o < 0x400 then rcsQuadReg (quadAt s (o / 0x100)) (o % 0x100)
  else if o < 0x410 then some (fieldAt 0 8 (ctxAt s ((o - 0x400) / 4)).rcsBase)
  else if 0x1000 ≤ o ∧ o < 0x3000 then some (streamWord (streamAt s ((o - 0x1000) / 32)) (o / 4 % 8))
  else none

/- External memory and the ledger (chapter 10). -/

/-- The kind code of R251: the order of Table 10.2. -/
def threadKindCode : ThreadKind → Nat
  | .act => 0 | .resid => 1 | .gather => 2 | .stream => 3 | .out => 4 | .save => 5
/-- The state code of R251. -/
def ThreadRun.code : ThreadRun → Nat
  | .idle => 0 | .waiting => 1 | .issuing => 2 | .late => 3
/-- One word of XM_THR for thread 32 q + i (R251). -/
def thrWord (s : State) (k w : Nat) : Word :=
  match s.xm.threads.find k with
  | none => 0#32
  | some t =>
    if w = 0 then
      fieldAt 8 7 (s.xm.tags.filter (fun g => g.thread == k)).length ||| fieldAt 4 2 t.run.code ||| fieldAt 3 1 (bit1 t.d.persist) |||
        fieldAt 0 3 (threadKindCode t.d.kind)
    else if w = 1 then fieldAt 8 8 t.d.deadBeat ||| fieldAt 0 7 t.d.deadSlot
    else if w = 2 then w32 (t.d.bytes - t.done)
    else fieldAt 0 16 t.ref
/-- The XM_ words at BAR0 0x000B_0000 (Table 10.6, R251). -/
def xmReg (s : State) (o : Nat) : Option Word :=
  if o = 0x00 then some (fieldAt 16 1 (bit1 s.xm.fixed) ||| fieldAt 8 2 s.xm.rate ||| fieldAt 0 8 s.xm.chanOk)
  else if o = 0x04 then some (fieldAt 0 20 (xmCapacity s / 2 ^ 20))
  else if o = 0x08 then some (fieldAt 0 20 (poolBytes s / 2 ^ 20))
  else if o = 0x10 then some (w32 (bitsNat s.xm.dlmiss.toList))
  else if o = 0x14 then some (w32 s.xm.dlmissCnt)
  else if o = 0x18 then some (fieldAt 16 11 s.xm.peak ||| fieldAt 0 11 s.xm.tags.length)
  else if 0x20 ≤ o ∧ o < 0x30 then some (fieldAt 0 11 (vget s.xm.quota ((o - 0x20) / 4) 0))
  else if o = 0x30 then some (fieldAt 16 16 s.xm.latMax ||| fieldAt 0 16 s.xm.latMean)
  else if o = 0x34 then some (fieldAt 16 16 s.xm.eccUe ||| fieldAt 0 16 s.xm.eccCe)
  else if 0x40 ≤ o ∧ o < 0x60 then
    let v := (ctxAt s ((o - 0x40) / 8)).xmBase
    some (if o % 8 = 0 then lo32 v else hi32 v)
  else if 0x1000 ≤ o ∧ o < 0x1800 then some (thrWord s ((o - 0x1000) / 16) (o / 4 % 4))
  else none

/-- The state code of Table 10.7. -/
def BlSt.code : BlSt → Nat
  | .free => 0 | .pooled => 1 | .owned => 2 | .lent => 3
/-- BL_ENTRY (Table 10.7). -/
def blWord (e : BlEntry) : Word :=
  fieldAt 12 4 e.gen ||| fieldAt 8 4 e.holder ||| fieldAt 4 4 e.owner ||| fieldAt 0 2 e.st.code
/-- Ledger entries in a state other than FREE, which alone are listed. -/
def blCount (s : State) (st : BlSt) : Nat := (s.bl.ent.filter (fun (e : Nat × BlEntry) => decide (e.2.st = st))).length
/-- The BL_ words at BAR0 0x000B_8000 (Table 10.7). -/
def blReg (s : State) (o : Nat) : Option Word :=
  if o = 0x00 then
    some (fieldAt 16 13 (blCount s .pooled) ||| fieldAt 0 13 (4096 - (blCount s .pooled + blCount s .owned + blCount s .lent)))
  else if o = 0x04 then some (w32 s.bl.dfree)
  else if o = 0x08 then some (w32 s.bl.nown)
  else if o = 0x0C then some (fieldAt 16 16 s.bl.lastCode ||| fieldAt 0 16 s.bl.lastRef)
  else if 0x4000 ≤ o ∧ o < 0x8000 then some (blWord (blAt s ((o - 0x4000) / 4)))
  else none

/- Sync objects and arbiters (chapter 11). -/

/-- The quadrants blocked on an object (Table 11.7). -/
def waitersOn (s : State) (i : Nat) : List Bool :=
  s.quad.toList.map (fun x => match x.blocked with
    | some b => b.obj == i
    | none => false)
/-- One word of SO_OBJ (Table 11.7). -/
def soWord (s : State) (i w : Nat) : Word :=
  let e := soAt s i
  if w = 0 then w32 e.value
  else if w = 1 then
    (match e.holder with
      | none => 0#32
      | some (c, q) => fieldAt 31 1 1 ||| fieldAt 28 2 c ||| fieldAt 24 2 q) |||
      fieldAt 8 1 (bit1 e.remote) ||| fieldAt 0 4 (bitsNat (waitersOn s i))
  else if w = 2 then w32 e.step
  else 0#32
/-- The SO_ words at BAR0 0x000C_0000 (Tables 11.6 and 11.7). -/
def soReg (s : State) (o : Nat) : Option Word :=
  if o = 0x00 then some (w32 s.so.orderx)
  else if o = 0x04 then some (w32 s.so.timeoutx)
  else if o = 0x08 then some (w32 s.so.nownx)
  else if o = 0x0C then some (w32 s.so.stale)
  else if o = 0x10 then some (w32 s.so.stray)
  else if o = 0x14 then
    some (fieldAt 16 16 s.so.lastCode ||| fieldAt 10 2 s.so.lastCtx ||| fieldAt 8 2 s.so.lastQuad ||| fieldAt 0 8 s.so.lastIdx)
  else if 0x20 ≤ o ∧ o < 0x40 then
    let v := vget s.so.inst ((o - 0x20) / 8) 0
    some (if o % 8 = 0 then lo32 v else hi32 v)
  else if 0x1000 ≤ o ∧ o < 0x2000 then some (soWord s ((o - 0x1000) / 16) (o / 4 % 4))
  else none

/-- The class of a requester (Table 11.3): 0 PLANNED, 1 KEEPER, 2 PEER, 3 UNDERSTORY, 4 DEBUG. -/
def portClass (id : Nat) : Nat :=
  if id < 8 then 0 else if id = 8 then 1 else if id = 9 then 2 else if id < 13 then 3 else 4
/-- The ARB_ words of one slice (Table 11.8). -/
def arbReg (a : Arb) (o : Nat) : Option Word :=
  if o = 0x00 then
    some (fieldAt 16 12 a.clks ||| fieldAt 8 4 a.queue.length |||
      (match a.owner with
        | none => 0xF#32
        | some e => fieldAt 4 3 (portClass e.id) ||| fieldAt 0 4 e.id))
  else if o = 0x04 then some (w32 a.pqfull)
  else if o = 0x08 then some (w32 a.wdog)
  else if o = 0x0C then some (fieldAt 16 16 a.wdProg ||| fieldAt 0 4 a.wdId)
  else if 0x10 ≤ o ∧ o < 0x24 then some (w32 (vget a.grants ((o - 0x10) / 4) 0))
  else if 0x30 ≤ o ∧ o < 0x68 then
    let j := a.jobs.getAt ((o - 0x30) / 4) ⟨0, 0, 0⟩
    some (fieldAt 16 16 j.len ||| fieldAt 0 16 j.done)
  else if o = 0x70 then some (w32 a.displace)
  else none

/- The hive links (chapter 12). -/

/-- The state code of Table 12.13. -/
def PortSt.code : PortSt → Nat
  | .off => 0 | .listen => 1 | .training => 2 | .up => 3 | .absent => 4 | .down => 5 | .fenced => 6 | .held => 7
/-- HL_GSTAT (Table 12.12). -/
def hlGstat (s : State) : Word :=
  fieldAt 20 1 s.hl.keySlot ||| fieldAt 19 1 (bit1 (keyAhead s).isSome) ||| fieldAt 18 1 (bit1 (keyNow s).isSome) |||
    fieldAt 17 1 (bit1 s.hl.sealed) ||| fieldAt 16 1 (bit1 s.hl.roster) ||| fieldAt 0 11 s.hl.size
/-- HL_PSTAT (Table 12.13). -/
def hlPstat (p : Port) : Word :=
  fieldAt 27 5 p.nbrPort ||| fieldAt 16 10 p.nbrRank ||| fieldAt 12 3 p.fence ||| fieldAt 10 1 (bit1 p.express) |||
    fieldAt 9 1 (bit1 p.sealed) ||| fieldAt 8 1 (bit1 p.spareUse.isSome) ||| fieldAt 4 4 (p.spareUse.getD 0) ||| fieldAt 0 4 p.st.code
/-- The HL_ words of one port (Table 12.13). -/
def portReg (p : Port) (o : Nat) : Option Word :=
  if o = 0x00 then some (hlPstat p)
  else if o = 0x04 then some (fieldAt 16 16 p.lastMs ||| fieldAt 0 16 p.attempts)
  else if o = 0x08 then some (w32 p.drops)
  else if o = 0x10 then some (lo32 p.tx)
  else if o = 0x14 then some (hi32 p.tx)
  else if o = 0x18 then some (lo32 p.rx)
  else if o = 0x1C then some (hi32 p.rx)
  else if o = 0x20 then some (w32 p.replay)
  else if o = 0x24 then some (w32 p.nak)
  else if o = 0x28 then some (w32 p.uncorr)
  else if o = 0x2C then some (fieldAt 0 16 p.bad)
  else if o = 0x30 then some (w32 p.badTotal)
  else if o = 0x34 then some (w32 p.tagFail)
  else if 0x40 ≤ o ∧ o < 0x64 then some (w32 (vget p.lanes ((o - 0x40) / 4) 0))
  else none
/-- The HL_ words at BAR0 0x000E_0000 (Tables 12.12 and 12.13). -/
def hlReg (s : State) (o : Nat) : Option Word :=
  if o = 0x00 then some (hlGstat s)
  else if o = 0x08 then some (lo32 s.hl.hiveId)
  else if o = 0x0C then some (hi32 s.hl.hiveId)
  else if o = 0x10 then some (w32 s.hl.epoch)
  else if o = 0x14 then some (w32 s.hl.session)
  else if o = 0x18 then some (w32 s.hl.halts)
  else if 0x400 ≤ o ∧ o < 0x800 then
    let r := o - 0x400
    some (w32 ((List.range 4).foldl (fun a j => a + s.hl.route.getAt (r + j) 0xFF % 256 * 256 ^ j) 0))
  else if 0x1000 ≤ o ∧ o < 0x2400 then portReg (portAt s ((o - 0x1000) / 0x100)) (o % 0x100)
  else none

/- BAR0. -/

/-- A per-quadrant block of four 0x100-byte banks. -/
def quadBlock (f : Nat → Nat → Option Word) (o : Nat) : Option Word := if o < 0x400 then f (o / 0x100) (o % 0x100) else none

/-- The word at an aligned BAR0 offset; none where the offset is undefined (Table 0.5, R8). -/
def readReg (s : State) (off : Nat) : Option Word :=
  if off % 4 ≠ 0 then none
  else if off < 0x10000 then idReg s off
  else if off < 0x18000 then hiReg s (off - 0x10000)
  else if off < 0x20000 then msixReg s (off - 0x18000)
  else if off < 0x40000 then wgReg s (off - 0x20000)
  else if off < 0x50000 then synReg s (off - 0x40000)
  else if off < 0x60000 then beatReg s (off - 0x50000)
  else if off < 0x70000 then cmbReg s (off - 0x60000)
  else if off < 0x80000 then quadBlock (fun q o => jnReg (quadAt s q) o) (off - 0x70000)
  else if off < 0x90000 then quadBlock (arrReg s) (off - 0x80000)
  else if off < 0xA0000 then quadBlock (fun q o => fusReg (quadAt s q) o) (off - 0x90000)
  else if off < 0xB0000 then rcsReg s (off - 0xA0000)
  else if off < 0xB8000 then xmReg s (off - 0xB0000)
  else if off < 0xC0000 then blReg s (off - 0xB8000)
  else if off < 0xD0000 then soReg s (off - 0xC0000)
  else if off < 0xE0000 then quadBlock (fun q o => arbReg (arbAt s q) o) (off - 0xD0000)
  else if off < 0xF0000 then hlReg s (off - 0xE0000)
  else if off < 0xF8000 then grReg s (off - 0xF0000)
  else if off < 0x100000 then rjReg s (off - 0xF8000)
  else if off < 0x110000 then usReg s (off - 0x100000)
  else if off < 0x120000 then hwReg s (off - 0x110000)
  else if off < 0x130000 then pwrReg s (off - 0x120000)
  else none

/-- An access fault (Table 0.6, R9): the only state it changes. -/
def accessErr (s : State) : State := { s with hi.accessErr := satAdd 32 s.hi.accessErr 1 }

/-- The low word of a 64-bit register at this offset (R4). -/
def is64 (off : Nat) : Bool :=
  [0x10, 0x10040, 0x10060, 0x24008, 0xE0008, 0xF0008, 0xF8000, 0xF8008, 0x110020, 0x110028].contains off ||
    (decide (0x40034 ≤ off ∧ off < 0x40064) && off % 16 == 4) ||
    (decide (0x60100 ≤ off ∧ off < 0x60180) && off % 32 == 0) ||
    (decide (0x70000 ≤ off ∧ off < 0x70400) && (off % 0x100 == 0x20 || off % 0x100 == 0x28)) ||
    (decide (0xA1000 ≤ off ∧ off < 0xA3000) && off % 32 == 0) ||
    (decide (0xB0040 ≤ off ∧ off < 0xB0060) && off % 8 == 0) ||
    (decide (0xC0020 ≤ off ∧ off < 0xC0040) && off % 8 == 0) ||
    (decide (0xE1000 ≤ off ∧ off < 0xE2400) && (off % 0x100 == 0x10 || off % 0x100 == 0x18)) ||
    (decide (0xF0100 ≤ off ∧ off < 0xF0300) && (off % 32 == 0 || off % 32 == 8)) ||
    (decide (0x1000C0 ≤ off ∧ off < 0x1000E0) && off % 16 == 4) ||
    (decide (0x120030 ≤ off ∧ off < 0x120058) && off % 8 == 0)

/- RC fields (Table 0.3, R7). -/

/-- RC fields of a quadrant's blocks take the number u that the Atelo counts in the clock of the read (R7). -/
def rcQuad (s : State) (off u : Nat) : State :=
  let q := off % 0x1000 / 0x100
  let o := off % 0x100
  if off < 0x90000 then
    if o = 0x08 then onQuad s q (fun x => { x with arrUnder := u })
    else if o = 0x10 then onQuad s q (fun x => { x with arrStall := u })
    else s
  else if off < 0xA0000 then (if o = 0x10 then onQuad s q (fun x => { x with fusQsatx := u }) else s)
  else (if o = 0x10 then onQuad s q (fun x => { x with rcsEarly := u }) else s)

/-- RC fields of the links. -/
def rcLinks (s : State) (o u : Nat) : State :=
  if o = 0x18 then { s with hl.halts := u }
  else if 0x1000 ≤ o ∧ o < 0x2400 then
    onPort s ((o - 0x1000) / 0x100) (fun p =>
      if o % 0x100 = 0x24 then { p with nak := u }
      else if 0x40 ≤ o % 0x100 ∧ o % 0x100 < 0x64 then { p with lanes := vput p.lanes ((o % 0x100 - 0x40) / 4) u }
      else p)
  else s

/-- RC fields of the arbiters. -/
def rcArb (s : State) (o u : Nat) : State :=
  onArb s (o / 0x100) (fun a =>
    if o % 0x100 = 0x04 then { a with pqfull := u }
    else if 0x10 ≤ o % 0x100 ∧ o % 0x100 < 0x24 then { a with grants := vput a.grants ((o % 0x100 - 0x10) / 4) u }
    else if o % 0x100 = 0x70 then { a with displace := u }
    else a)

/-- RC fields of the sensors: the next sample begins a new peak (R397). -/
def rcSensors (s : State) (o : Nat) (u : Word) : State :=
  if 0x80 ≤ o ∧ o < 0xAC then
    { s with us.temp := vmod s.us.temp ((o - 0x80) / 4) (fun t =>
        { t with peak := if bitOf u 31 then some (twosInt 12 (fieldOf u 16 12)) else none }) }
  else if o = 0xB0 then { s with us.powerPeak := fieldOf u 16 16, us.powerRead := decide (fieldOf u 16 16 = 0) }
  else s

/-- A host read of the word at an offset clears its RC fields, which then hold what the Atelo counts in that clock, given at the
fields' own bits (R7). -/
def rcPut (s : State) (off : Nat) (u : Word) : State :=
  let n := u.toNat
  if off = 0x24 then { s with hi.lates := n }
  else if off = 0x10020 then { s with hi.accessErr := n }
  else if off = 0x10054 then { s with hi.evrLost := n }
  else if off = 0x10074 then { s with hi.backlogCnt := n }
  else if off = 0x24010 then { s with wg.skipped := n }
  else if 0x24020 ≤ off ∧ off < 0x24060 ∧ off % 16 = 12 then
    onMb s ((off - 0x24020) / 16) (fun m => { m with frameErr := fieldOf u 16 16, ringBusy := fieldOf u 0 16 })
  else if off = 0x4000C then { s with syn.hopLate := fieldOf u 16 16, syn.cancel := fieldOf u 0 16 }
  else if off = 0x40014 then { s with syn.violCnt := n }
  else if off = 0x50010 then { s with beat.excluded := fieldOf u 16 16 }
  else if off = 0x50070 then { s with beat.steerLim := n }
  else if off = 0x6000C then { s with cmb.ce := n }
  else if off = 0x6001C then { s with cmb.rebuilt := fieldOf u 16 16 }
  else if off = 0x60020 then { s with cmb.lastErrValid := bitOf u 31 }
  else if 0x80000 ≤ off ∧ off < 0xA0400 then rcQuad s off n
  else if off = 0xB0014 then { s with xm.dlmissCnt := n }
  else if off = 0xB0018 then { s with xm.peak := fieldOf u 16 11 }
  else if off = 0xB0034 then { s with xm.eccCe := fieldOf u 0 16 }
  else if off = 0xC000C then { s with so.stale := n }
  else if 0xD0000 ≤ off ∧ off < 0xD0400 then rcArb s (off - 0xD0000) n
  else if 0xE0000 ≤ off ∧ off < 0xF0000 then rcLinks s (off - 0xE0000) n
  else if 0x100000 ≤ off ∧ off < 0x110000 then rcSensors s (off - 0x100000) u
  else s

/-- Take the read latch of a 64-bit register (R4). -/
def dropLatch (s : State) (off : Nat) : State := { s with hi.latch := s.hi.latch.eraseAt off }

/-- A host read of one aligned word (R4, R7, Table 0.6): its data, and what it leaves. u is what the Atelo counts in RC fields of that
word in that clock. -/
def hostRead32 (s : State) (off : Nat) (u : Word) : State :=
  match readReg s off with
  | none => accessErr { s with hi.readData := [0#32] }
  | some v =>
    if is64 off then
      { s with hi.readData := [v], hi.latch := s.hi.latch.insertAt off ((readReg s (off + 4)).getD 0#32).toNat }
    else if decide (4 ≤ off) && is64 (off - 4) then
      match s.hi.latch.find (off - 4) with
      | some h => dropLatch { s with hi.readData := [w32 h] } (off - 4)
      | none => { s with hi.readData := [v] }
    else rcPut { s with hi.readData := [v] } off u

/- Rings (Table 13.10, R329, R333). -/

/-- Ring 0 is the event ring, ring 1 the completion ring. -/
def ringAt (s : State) (c : Bool) : Ring := if c then s.hi.cpr else s.hi.evr
/-- Change one ring. -/
def onRing (s : State) (c : Bool) (f : Ring → Ring) : State :=
  if c then { s with hi.cpr := f s.hi.cpr } else { s with hi.evr := f s.hi.evr }
/-- What follows once a ring can take records again: the boot queue and the overflow record, or the backlog (R41, R328, R330). -/
def ringRoom (s : State) (c : Bool) : State :=
  if c then drainBacklog s.hi.backlog.length s else evrOverflow (bootqDeliver s)

/-- A write of HI_EVR_CFG or HI_CPR_CFG (R329, R333): an ignored SIZE is counted, and the other fields take the write. -/
def ringCfgWrite (s : State) (c : Bool) (v : Word) : State :=
  let r := ringAt s c
  let size := fieldOf v 0 5
  let en := bitOf v 31
  let bad := decide (size < 6) || decide (16 < size) || (r.enable && size != r.size)
  let s := if bad then accessErr s else s
  let s := onRing s c (fun r =>
    let r := { r with size := if bad then r.size else size, minSev := if c then 0 else fieldOf v 8 2, enable := en }
    if en && !(ringAt s c).enable then { r with head := 0, tail := 0, phase := true } else r)
  ringRoom s c

/-- A write of HEAD (R333): ignored and counted where it lies beyond the ring or off the path from HEAD forward to TAIL. -/
def ringHeadWrite (s : State) (c : Bool) (v : Nat) : State :=
  let r := ringAt s c
  let n := r.count
  let h := v % 2 ^ 16
  if n ≤ h ∨ (r.tail + n - r.head) % n < (h + n - r.head) % n then accessErr s
  else ringRoom (onRing s c (fun r => { r with head := h })) c

/-- A write of BASE: the low word with the high word held (R4, R333). -/
def ringBaseWrite (s : State) (c : Bool) (lo : Nat) : State :=
  let off := if c then 0x10060 else 0x10040
  let r := ringAt s c
  let hi := (s.hi.held.find off).getD (r.base / 2 ^ 32)
  let b := hi * 2 ^ 32 + lo
  let s := dropLatch { s with hi.held := s.hi.held.eraseAt off } off
  if r.enable = true ∨ b % (64 * r.count) ≠ 0 then accessErr s else onRing s c (fun r => { r with base := b })

/- The Inflow control (R319). -/

/-- A packet in the queue or the packer lacks its end mark. -/
def packetOpen (s : State) : Bool :=
  !s.hi.packer.isEmpty || (match s.hi.queue.getLast? with
    | some w => !w.eop
    | none => false)
/-- Empty the queue and the packer; flushed packets are counted, the open one too, and the words that follow are kept (R319). -/
def flushQueue (s : State) : State :=
  { s with hi.flushed := satAdd 32 s.hi.flushed (inflowPkts s + bit1 (packetOpen s)), hi.queue := [], hi.packer := [],
           hi.flushPend := false, hi.discarding := false }
/-- A FLUSH_PKT that waits takes effect once no packet lacks its end mark. -/
def flushDue (s : State) : State := if s.hi.flushPend && !packetOpen s then flushQueue s else s
/-- A write of HI_INFLOW_CTL (R319). -/
def inflowCtl (s : State) (v : Word) : State :=
  let s := if bitOf v 1 then flushQueue s else s
  if bitOf v 0 then flushDue { s with hi.flushPend := true } else s

/-- A write of HI_INTMASK (R331). -/
def intmaskWrite (s : State) (v : Word) : State := signalPending { s with hi.intMask := fieldOf v 0 4 }

/- Writes (Table 0.3). -/

/-- A W1C bit after a write: cleared by a 1, and set where the Atelo sets it in that clock (R7). -/
def w1c (b : Bool) (v sc : Word) (n : Nat) : Bool := (b && !bitOf v n) || bitOf sc n

/-- Writes of the fault words of a quadrant's blocks (Tables 6.9, 7.8, 8.8 and 9.7). -/
def w1cQuad (s : State) (off : Nat) (v sc : Word) : State :=
  if off % 0x100 ≠ 0x04 ∨ 0x400 ≤ off % 0x10000 then s
  else
    onQuad s (off % 0x10000 / 0x100) (fun x =>
      if off < 0x80000 then
        { x with jnFmt := w1c x.jnFmt v sc 0, jnBound := w1c x.jnBound v sc 1, jnPoison := w1c x.jnPoison v sc 2 }
      else if off < 0x90000 then
        { x with arrSat := w1c x.arrSat v sc 0, arrLost := w1c x.arrLost v sc 1, arrInf := w1c x.arrInf v sc 2,
                 arrNan := w1c x.arrNan v sc 3, arrPoison := w1c x.arrPoison v sc 4, arrCtxErr := w1c x.arrCtxErr v sc 5 }
      else if off < 0xA0000 then
        { x with fusPoisonOut := w1c x.fusPoisonOut v sc 0, fusGather := w1c x.fusGather v sc 1, fusMix := w1c x.fusMix v sc 2,
                 fusDrop := w1c x.fusDrop v sc 3, fusRecord := w1c x.fusRecord v sc 4 }
      else
        { x with rcsPoison := w1c x.rcsPoison v sc 0, rcsNonfin := w1c x.rcsNonfin v sc 1, rcsSkipped := w1c x.rcsSkipped v sc 2,
                 rcsAborted := w1c x.rcsAborted v sc 3 })

/-- A write of HI_RESET_CAUSE (Table 2.11). -/
def w1cCause (s : State) (v sc : Word) : State :=
  { s with hi.cold := w1c s.hi.cold v sc 31, hi.hiveRst := w1c s.hi.hiveRst v sc 16, hi.flr := w1c s.hi.flr v sc 10,
           hi.perstRst := w1c s.hi.perstRst v sc 9, hi.hot := w1c s.hi.hot v sc 8,
           hi.quadRst := Vector.ofFn (fun (i : Fin 4) => w1c s.hi.quadRst[i] v sc (17 + i.val)) }

/-- A write of SYN_CPSTAT (Table 3.10). -/
def w1cCpstat (s : State) (v sc : Word) : State :=
  let f (l : LoopSt) (k : Nat) : LoopSt := { l with low := w1c l.low v sc k, high := w1c l.high v sc (4 + k) }
  { s with syn.b := f s.syn.b 0, syn.c0 := f s.syn.c0 1, syn.c1 := f s.syn.c1 2 }

/-- A write of the MSI-X table (R309, R331): a mask that clears signals its pending vector. -/
def msixWrite (s : State) (o : Nat) (v : Word) : State :=
  if 0x400 ≤ o then s
  else if o / 4 % 4 = 3 then signalPending { s with hi.msixMask := vput s.hi.msixMask (o / 16) (bitOf v 0) }
  else { s with hi.msixTable := s.hi.msixTable.putAt (o / 4) (if o / 4 % 4 = 0 then v.toNat / 4 * 4 else v.toNat) 0 }

/-- What a host write of one defined word does (Table 0.3): a write to a field that is RO, RC, KW or RSV has no effect. -/
def writeReg (s : State) (off : Nat) (v sc : Word) : State :=
  if off = 0x30 then w1cCause s v sc
  else if off = 0x10000 then inflowCtl s v
  else if off = 0x1000C then
    { s with hi.underrun := w1c s.hi.underrun v sc 0, hi.overflow := w1c s.hi.overflow v sc 1,
             hi.apPoison := w1c s.hi.apPoison v sc 4 }
  else if off = 0x10030 then intmaskWrite s v
  else if off = 0x10040 ∨ off = 0x10060 then ringBaseWrite s (off == 0x10060) v.toNat
  else if off = 0x10048 ∨ off = 0x10068 then ringCfgWrite s (off == 0x10068) v
  else if off = 0x1004C ∨ off = 0x1006C then ringHeadWrite s (off == 0x1006C) v.toNat
  else if 0x18000 ≤ off ∧ off < 0x20000 then msixWrite s (off - 0x18000) v
  else if 0x20000 ≤ off ∧ off < 0x22000 then
    let m := (off - 0x20000) / 0x1000
    let o := off % 0x1000
    if o < 0xFE0 then pageWrite s m o (leBytes 4 v.toNat) else if o = 0xFE0 then doorbell s m v.toNat else s
  else if off = 0x40004 then w1cCpstat s v sc
  else if 0x70000 ≤ off ∧ off < 0xB0000 then w1cQuad s off v sc
  else if off = 0xB0010 then
    { s with xm.dlmiss := Vector.ofFn (fun (i : Fin 4) => w1c s.xm.dlmiss[i] v sc i.val) }
  else s

/-- A host write of one aligned word (R4, R6, Table 0.6). -/
def hostWrite32 (s : State) (off : Nat) (v sc : Word) : State :=
  match readReg s off with
  | none => accessErr s
  | some _ =>
    if decide (4 ≤ off) && is64 (off - 4) then
      dropLatch { s with hi.held := s.hi.held.insertAt (off - 4) v.toNat } (off - 4)
    else if is64 off && !(off == 0x10040 || off == 0x10060) then
      dropLatch { s with hi.held := s.hi.held.eraseAt off } off
    else writeReg s off v sc

/-- REGISTER_WRITE (R6, Table 0.3): a host write of one aligned, defined word; sameClock gives the W1C bits that the Atelo sets in
that clock (R7). -/
def execRegisterWrite (off : Nat) (v sameClock : Word) (s : State) : Host.Outcome State Fault Refusal :=
  .next (if hostUp s && (readReg s off).isSome then hostWrite32 s off v sameClock else s)

/-- RC_FIELD_READ (R6, R7): a host read of one aligned, defined word. -/
def execRcFieldRead (off : Nat) (sameClock : Word) (s : State) : Host.Outcome State Fault Refusal :=
  .next (if hostUp s && (readReg s off).isSome then hostRead32 s off sameClock else s)

/-- LOW_WORD_READ (R4). -/
def execLowWordRead (off : Nat) (s : State) : Host.Outcome State Fault Refusal :=
  .next (if hostUp s && is64 off then hostRead32 s off 0#32 else s)

/-- HIGH_WORD_WRITE (R4). -/
def execHighWordWrite (off : Nat) (v : Word) (s : State) : Host.Outcome State Fault Refusal :=
  .next (if hostUp s && decide (4 ≤ off) && is64 (off - 4) then hostWrite32 s off v 0#32 else s)

/-- MISALIGNED_ACCESS (R3, Table 0.6): a BAR0 access of a width other than 4 bytes, or not aligned to 4. -/
def execMisalignedAccess (write : Bool) (off width : Nat) (s : State) : Host.Outcome State Fault Refusal :=
  .next (
    if hostUp s && decide (off < 0x400000) && (width != 4 || off % 4 != 0) then
      accessErr (if write then s else { s with hi.readData := [0#32] })
    else s)

/-- UNDEFINED_OFFSET_ACCESS (Table 0.6, R9). -/
def execUndefinedOffsetAccess (write : Bool) (off : Nat) (s : State) : Host.Outcome State Fault Refusal :=
  .next (
    if hostUp s && decide (off < 0x400000) && decide (off % 4 = 0) && (readReg s off).isNone then
      (if write then hostWrite32 s off 0#32 0#32 else hostRead32 s off 0#32)
    else s)

/-- RING_ENABLE (R329, R41): a write of a ring's CFG word. -/
def execRingEnable (completion : Bool) (cfg : Word) (s : State) : Host.Outcome State Fault Refusal :=
  .next (if hostUp s then ringCfgWrite s completion cfg else s)

/-- RING_HEAD_WRITE (R333). -/
def execRingHeadWrite (completion : Bool) (v : Word) (s : State) : Host.Outcome State Fault Refusal :=
  .next (if hostUp s then ringHeadWrite s completion v.toNat else s)

/-- RING_SETUP_WRITE (R333): word 0 BASE low, word 1 BASE high, word 2 CFG. -/
def execRingSetupWrite (completion : Bool) (word : Fin 3) (v : Word) (s : State) : Host.Outcome State Fault Refusal :=
  .next (if hostUp s then hostWrite32 s ((if completion then 0x10060 else 0x10040) + 4 * word.val) v 0#32 else s)

/-- INTMASK_WRITE (R331). -/
def execIntmaskWrite (v : Word) (s : State) : Host.Outcome State Fault Refusal :=
  .next (if hostUp s then intmaskWrite s v else s)

/-- FLUSH_NOW (R319). -/
def execFlushNow (s : State) : Host.Outcome State Fault Refusal :=
  .next (if hostUp s then inflowCtl s 2#32 else s)

/-- FLUSH_PKT (R319). -/
def execFlushPkt (s : State) : Host.Outcome State Fault Refusal :=
  .next (if hostUp s then inflowCtl s 1#32 else s)

/-- FLUSH_PKT_COMPLETE (R319): the point at which no packet lacks its end mark. -/
def execFlushPktComplete (s : State) : Host.Outcome State Fault Refusal :=
  .next (if alive s then flushDue s else s)

end Sys2Proof.Machine
end

