-- ==== Sys2Proof/Machine/Ports.lean ====
section
/-! DEFINITION. The Comb port arbiter (chapter 11): requests (R269, R270), grants (R269, R271), the watchdog (R273), and the jobs on the
side port: peer reads, scrubbing (R387 to R390), plan fetch and the debug aperture (R311, R312). -/

namespace Sys2Proof.Machine

open Sys2Proof

/-- The slice runs: powered, and not in retention (R274). -/
def sliceRuns (s : State) (q : Nat) : Bool := alive s && vget s.pwr.cb q false && !vget s.pwr.cbRet q false

/-- It is Understory time of Qq (R24, R382, R384): the beat runs, no guard has begun, and the quadrant is down, or yields a guaranteed
slot, or has no planned work left of this slot and those before it. -/
def understoryTime (s : State) (q : Nat) : Bool :=
  s.beat.running && !s.beat.guard &&
    (!vget s.pwr.quad q false || (descGuaranteed (descAt s s.beat.slot) && (quadAt s q).run.isNone) ||
      ((quadAt s q).todo.isEmpty && (quadAt s q).run.isNone && !(quadAt s q).fusBusy && (quadAt s q).chunk.isNone))

/-- The job of a requester (ARB_PROG). -/
def jobOf (a : Arb) (id : Nat) : PortJob := a.jobs.getAt id ⟨0, 0, 0⟩
/-- Change a job. -/
def onJob (s : State) (q id : Nat) (f : PortJob → PortJob) : State :=
  onArb s q (fun a => { a with jobs := a.jobs.putAt id (f (jobOf a id)) ⟨0, 0, 0⟩ })

/-- The page that the scrubber of a slice works on. -/
def scrubPage (s : State) (q : Nat) : Nat := q * 98304 + vget s.us.page q 0

/-- The requester has work on a page of this slice (Table 11.3). -/
def hasWork (s : State) (q id page : Nat) : Bool :=
  if id < 4 then vget s.pwr.quad id false
  else if id < 8 then vget s.pwr.quad (id - 4) false
  else if id = 8 then s.pwr.keeper
  else if id = 9 then s.hl.peerReads.any (fun r => r.page == page)
  else if id = 10 then decide (0 < (jobOf (arbAt s q) 10).len) && page == scrubPage s q
  else if id = 11 then (fetchPages s).any (fun e => e.1 == page) || s.cmb.dirty.contains (64 * q + pageBank page)
  else if id = 12 then s.cmb.rebuilds.any (fun r => r.page == page && (rebuildReady r || r.copyTo.isSome))
  else match (arbAt s q).aperture with
    | some (a, _) => page == a / 4096
    | none => false

/- Scrubbing (R387 to R391). -/

/-- Nanoseconds of a beat (R12 to R14). -/
def beatNs (s : State) : Nat := 160 * s.beat.slotTicks

/-- The pace: pages in each period of 1,024 beats (R387). -/
def scrubPace (s : State) : Nat := ceilDiv (98304 * 1024 * beatNs s) (s.us.periodS * 1000000000)

/-- Pages that the pace calls for so far in this period: a page starts while fewer have been started than the pace multiplied by the
beats elapsed and divided by 1,024, a bound that is not rounded down (R387). -/
def scrubDue (s : State) : Nat := ceilDiv (scrubPace s * s.us.elapsed) 1024

/-- The scrubber of a slice is to start a page: one to repeat, the next of a catch-up pass, or one that the pace calls for (R387, R390,
R391). -/
def scrubCalled (s : State) (q : Nat) : Bool :=
  (jobOf (arbAt s q) 10).len == 0 &&
    ((arbAt s q).scrubAgain || vget s.us.catchUp q false || decide (vget s.us.started q 0 < scrubDue s))

/-- The pages that the scrubber skips (R387). -/
def scrubSkips (s : State) (p : Nat) : Bool :=
  pageRetired s p || pagePoisoned s p || s.cmb.dirty.contains (64 * pageSlice p + pageBank p) ||
    bankReserved s (pageSlice p) (pageBank p)

/-- A rebuild write or bank copy of the slice waits, rank 1 of Table 16.1. -/
def rebuildWaits (s : State) (q : Nat) : Bool := (arbAt s q).queue.any (fun e => e.id == 12)

/-- A job of the fill engine may not start yet: a task of a higher rank waits for the side port of the slice (R383, R384): a rebuild
write, a scrub page, or, before a fetch write, a bank to zero-fill. -/
def fillHeld (s : State) (q id page : Nat) : Bool :=
  id == 11 && (jobOf (arbAt s q) 11).len == 0 &&
    (rebuildWaits s q || scrubCalled s q ||
      (s.cmb.dirty.any (fun b => b / 64 == q) && !s.cmb.dirty.contains (64 * q + pageBank page)))

/-- Enter a request in the pending queue (R269, R270). -/
def presentReq (s : State) (q : Nat) (e : PqEntry) : State :=
  let a := arbAt s q
  if a.queue.length < 8 then onArb s q (fun a => { a with queue := a.queue ++ [e] })
  else
    let lower (x : PqEntry) : Bool := decide (0 < portClass x.id)
    if portClass e.id = 0 ∧ a.queue.any lower = true then
      onArb s q (fun a => { a with queue := dropLastWhere lower a.queue ++ [e], displace := satAdd 32 a.displace 1 })
    else onArb s q (fun a => { a with pqfull := satAdd 32 a.pqfull 1 })

/-- A requester begins a job of len transfers, or goes on with the one it has (R271), and presents its next request. -/
def portRequest (s : State) (q id page len : Nat) : State :=
  presentReq (onJob s q id (fun j => if j.len = 0 then { j with len := len, done := 0 } else j)) q
    { id := id, page := page, write := id == 11 || id == 12 || (id == 10 && (arbAt s q).writeBack) }

/-- SIDE_PORT_REQUEST (R269, R270, R384). -/
def execSidePortRequest (q : Quad) (id : Fin 14) (page : Nat) (len : Nat) (s : State) : Host.Outcome State Fault Refusal :=
  .next (
    if sliceRuns s q.val = true ∧ page / 98304 = q.val ∧ 0 < len ∧ hasWork s q.val id.val page = true ∧
        (arbAt s q.val).queue.any (fun e => e.id == id.val) = false ∧ fillHeld s q.val id.val page = false ∧
        (¬ (10 ≤ id.val ∧ id.val ≤ 12) ∨ understoryTime s q.val = true) then
      portRequest s q.val id.val page len
    else s)

/- Scrub jobs. -/

/-- The scrubber goes on to the next page; after the last one, a pass is complete: a catch-up pass gives way to the paced one, which
goes on where it was, and a paced pass starts again (R387, R391). -/
def scrubAdvance (s : State) (q : Nat) : State :=
  let n := vget s.us.page q 0 + 1
  if n < 98304 then { s with us.page := vput s.us.page q n }
  else
    let s := { s with us.passes := vmod s.us.passes q (fun k => (k + 1) % 4096) }
    if vget s.us.catchUp q false then
      { s with us.page := vput s.us.page q (vget s.us.pacedPage q 0), us.catchUp := vput s.us.catchUp q false }
    else { s with us.page := vput s.us.page q 0, us.behindEv := vput s.us.behindEv q false }

/-- SCRUB_PAGE_START (R383, R387, R390): a page in its turn, within the pace or in a catch-up pass, while no rebuild write waits; a page
that is skipped counts as started; an abandoned page is repeated. -/
def execScrubPageStart (q : Quad) (s : State) : Host.Outcome State Fault Refusal :=
  .next (
    let k := q.val
    if sliceRuns s k && understoryTime s k && scrubCalled s k && !rebuildWaits s k then
      let again := (arbAt s k).scrubAgain
      let s := if again || vget s.us.catchUp k false then s else { s with us.started := vmod s.us.started k (fun n => n + 1) }
      let s := onArb s k (fun a => { a with scrubAgain := false, writeBack := false })
      if scrubSkips s (scrubPage s k) then scrubAdvance s k else onJob s k 10 (fun j => { j with len := 64, done := 0 })
    else s)

/-- A scrub job ends without completing, and is repeated in the same pass (R390, R273). -/
def scrubAbandon (s : State) (q : Nat) : State :=
  onArb s q (fun a =>
    { a with jobs := a.jobs.eraseAt 10, queue := a.queue.filter (fun e => e.id != 10), scrubAgain := true, writeBack := false })

/- The aperture. -/

/-- The words of a run of bytes. -/
def bytesWords (n : Nat) (l : List Byte) : List Word := (List.range n).map (fun i => w32 (leAt l (4 * i) 4))

/-- An aperture read ends (R312): its data, or zeros from a poisoned page with AP_POISON. -/
def apertureDone (s : State) (q : Nat) : State :=
  match (arbAt s q).aperture with
  | none => s
  | some (a, n) =>
    let s := onArb s q (fun x => { x with aperture := none })
    if pagePoisoned s (a / 4096) then { s with hi.readData := bytesWords (n / 4) [], hi.apPoison := true }
    else { s with hi.readData := bytesWords (n / 4) (combRead s a n) }

/-- An aperture read that is not served returns zeros and counts an access fault (R312, Table 11.4). -/
def apertureFails (s : State) (q : Nat) : State :=
  match (arbAt s q).aperture with
  | none => s
  | some (_, n) =>
    accessErr (onArb { s with hi.readData := bytesWords (n / 4) [] } q (fun x =>
      { x with aperture := none, jobs := x.jobs.eraseAt 13, queue := x.queue.filter (fun e => e.id != 13) }))

/-- No aperture read is under way. -/
def apertureIdle (s : State) : Bool := s.arb.toList.all (fun a => a.aperture.isNone)

/-- APERTURE_READ (R311, R312): it is presented at the arbiter of its slice; a read of another shape follows R3. -/
def execApertureRead (off len : Nat) (s : State) : Host.Outcome State Fault Refusal :=
  .next (
    if hostUp s && decide (off < 0x10000000) && apertureIdle s then
      if off % 4 ≠ 0 ∨ len % 4 ≠ 0 ∨ len < 4 ∨ 64 < len ∨ off / 64 ≠ (off + len - 1) / 64 then
        accessErr { s with hi.readData := [0#32] }
      else
        let a := s.hi.aperture * 0x10000000 + off
        let q := a / 0x18000000
        portRequest (onArb s q (fun x => { x with aperture := some (a, len) })) q 13 (a / 4096) 1
    else s)

/-- APERTURE_TIMEOUT (R312): 40 µs have passed without a grant. -/
def execApertureTimeout (s : State) : Host.Outcome State Fault Refusal :=
  .next (
    if alive s then
      forUpto 4 (fun s q =>
        if (arbAt s q).aperture.isSome && !(match (arbAt s q).owner with
            | some e => e.id == 13
            | none => false) then apertureFails s q
        else s) s
    else s)

/-- APERTURE_WRITE (R311): dropped and counted. -/
def execApertureWrite (s : State) : Host.Outcome State Fault Refusal := .next (if hostUp s then accessErr s else s)

/- Transfers. -/

/-- A job of a requester has made all its transfers. -/
def jobDone (s : State) (q : Nat) (e : PqEntry) : State :=
  let s := onArb s q (fun a => { a with jobs := a.jobs.eraseAt e.id })
  if e.id = 9 then
    match s.hl.peerReads.find? (fun r => r.page == e.page) with
    | none => s
    | some r =>
      let s := { s with hl.peerReads := s.hl.peerReads.filter (fun x => x != r) }
      if pagePoisoned s r.page then s else sendPage s r
  else if e.id = 10 then scrubAdvance s q
  else if e.id = 13 then apertureDone s q
  else s

/-- Errors that a read transfer meets (R110, R388, R389): corrected codewords are counted, and written back by a scrub; an
uncorrectable one poisons the page, and a scrub counts it. -/
def readErrors (s : State) (e : PqEntry) (corrected bad : Nat) : State :=
  if e.write then s
  else
    let s := { s with cmb.ce := satAdd 32 s.cmb.ce corrected }
    if bad = 0 then s
    else
      let s := if e.id = 10 then { s with us.scrubUe := satAdd 32 s.us.scrubUe bad } else s
      poisonPage s e.page

/-- A scrub transfer that corrected a codeword is written back in the next clock of its job, one transfer more (R388); it has been
written back when that transfer ends. -/
def scrubBack (s : State) (q : Nat) (e : PqEntry) (corrected : Nat) : State :=
  if e.id ≠ 10 then s
  else if e.write ∨ corrected = 0 then onArb s q (fun a => { a with writeBack := false })
  else onJob (onArb s q (fun a => { a with writeBack := true })) q 10 (fun j => if j.len = 0 then j else { j with len := j.len + 1 })

/-- The open data phase ends: its transfer is complete (R271). Another write to the page of an open scrub job abandons that job
(R390). -/
def transferDone (s : State) (q : Nat) (errs : Nat) : State :=
  match (arbAt s q).owner with
  | none => s
  | some e =>
    let s := onArb s q (fun a => { a with owner := none })
    let s := scrubBack (readErrors s e (errs % 16) (errs / 16)) q e (errs % 16)
    let s := if e.id = 11 then fetchWrite s e.page else s
    let s := if e.write && e.id != 10 && decide (0 < (jobOf (arbAt s q) 10).len) && e.page == scrubPage s q then scrubAbandon s q else s
    let s := onJob s q e.id (fun j => if j.len = 0 then j else { j with done := j.done + 1 })
    let j := jobOf (arbAt s q) e.id
    if j.len ≠ 0 ∧ j.len ≤ j.done then jobDone s q e else s

/-- The entry that the arbiter grants (R269): the highest class, then the next requester after the last one granted in it. -/
def nextGrant (a : Arb) : Option PqEntry :=
  match (List.range 5).find? (fun c => a.queue.any (fun e => portClass e.id == c)) with
  | none => none
  | some c =>
    let last := vget a.lastGrant c 13
    (List.range 14).findSome? (fun k => a.queue.find? (fun e => portClass e.id == c && e.id == (last + 1 + k) % 14))

/-- One clock of arbitration (R269): the open data phase ends, and the entry granted owns the next one. -/
def portGrant (s : State) (q errs : Nat) : State :=
  let pick := nextGrant (arbAt s q)
  let s := transferDone s q errs
  match pick with
  | none => s
  | some e =>
    if (arbAt s q).queue.contains e then
      onArb s q (fun a =>
        { a with queue := a.queue.erase e, owner := some e, grants := vmod a.grants (portClass e.id) (fun n => satAdd 32 n 1),
                 lastGrant := vput a.lastGrant (portClass e.id) e.id })
    else s

/-- SIDE_PORT_GRANT (R267, R269, R271): errs gives the codewords that the transfer now ending corrected, plus 16 for each one that
was uncorrectable. -/
def execSidePortGrant (q : Quad) (errs : Nat) (s : State) : Host.Outcome State Fault Refusal :=
  .next (if sliceRuns s q.val then portGrant s q.val errs else s)

/-- What a watchdog reset means for the job (Table 11.4); n counts this requester's resets. A λ that a chunk has already taken, or that
its GATE is about to take, poisons its stream (R226); a fetch fails at its second reset, and a zero-fill job is only done again. -/
def watchdogOutcome (s : State) (q : Nat) (e : PqEntry) (n : Nat) : State :=
  if e.id < 4 then
    onQuad s e.id (fun x => if x.activeB then { x with setA := { x.setA with poison := true } }
                            else { x with setB := { x.setB with poison := true } })
  else if e.id < 8 then
    match (quadAt s (e.id - 4)).chunk with
    | some r => streamPoison s (e.id - 4) r.stream
    | none => onQuad s (e.id - 4) (fun x => { x with lamPoison := true })
  else if e.id = 8 then (if 2 ≤ n then fetchFail s else s)
  else if e.id = 9 then { s with hl.peerReads := s.hl.peerReads.filter (fun r => r.page != e.page) }
  else if e.id = 10 then scrubAbandon s q
  else if e.id = 11 then
    (if (fetchPages s).any (fun f => f.1 == e.page) = false then s
     else if 2 ≤ n then fetchFail s else { s with cmb.fill := s.cmb.fill.eraseAt e.page })
  else if e.id = 13 then apertureFails s q
  else s

/-- Meaning of PORT_WATCHDOG_EXPIRY (R273, Table 11.4). -/
def portWatchdog (s : State) (q : Nat) : State :=
  match (arbAt s q).owner with
  | none => s
  | some e =>
    let j := jobOf (arbAt s q) e.id
    let n := j.resets + 1
    let s := onArb s q (fun a =>
      { a with owner := none, queue := a.queue.filter (fun x => x.id != e.id),
               jobs := a.jobs.putAt e.id ⟨0, 0, if 2 ≤ n then 0 else n⟩ ⟨0, 0, 0⟩,
               wdog := satAdd 32 a.wdog 1, wdProg := j.done, wdId := e.id })
    watchdogOutcome (raise s 0x0B01 .major 0) q e n

/-- PORT_WATCHDOG_EXPIRY (R273): 4,096 clocks of an open data phase. -/
def execPortWatchdogExpiry (q : Quad) (s : State) : Host.Outcome State Fault Refusal :=
  .next (if sliceRuns s q.val then portWatchdog s q.val else s)

end Sys2Proof.Machine
end

