-- ==== Sys2Proof/Machine/Inflow.lean ====
section
/-! DEFINITION. The Inflow queue (R313 to R319), admission at a beat edge (R320 to R326), the completion backlog (R328), the overflow
record (R330), and the function's power state (R308). -/

namespace Sys2Proof.Machine

open Sys2Proof

/- The packer. -/

/-- Words of the open packet leave the queue (R317). -/
def dropOpen (q : List WideWord) : List WideWord := (q.reverse.dropWhile (fun w => !w.eop)).reverse

/-- A packet finds no room and is discarded whole (R317); last tells whether the word at hand ends it. -/
def discardPacket (s : State) (last : Bool) : State :=
  { s with hi.queue := dropOpen s.hi.queue, hi.packer := [], hi.drop := satAdd 32 s.hi.drop 1, hi.overflow := true,
           hi.discarding := !last }

/-- One word enters the packer (R315, R317); last marks the end of its packet. A wide word takes its place in the queue when its first
word arrives. -/
def packWord (s : State) (w : List Byte) (last : Bool) : State :=
  let s := if last then { s with hi.arrived := s.hi.arrived + 1 } else s
  if s.hi.discarding then { s with hi.discarding := !last }
  else if s.hi.packer.isEmpty && decide (4096 ≤ s.hi.queue.length) then discardPacket s last
  else
    let p := s.hi.packer ++ w
    if decide (64 ≤ p.length) || last then
      { s with hi.packer := [], hi.queue := s.hi.queue ++ [{ bytes := padTo 64 p, vbytes := p.length, eop := last }] }
    else { s with hi.packer := p }

/-- n words of a TLP, in ascending address order; end marks the packet end after the last one (R313, R314). -/
def packWords : Nat → State → List Byte → Bool → State
  | 0, s, _, _ => s
  | n + 1, s, l, e => packWords n (packWord s (l.take 4) (e && n == 0)) (l.drop 4) e

/-- INFLOW_WRITE_TLP (R313 to R317): a write TLP to BAR2; a request packet that ends is a wake trigger (R419). -/
def execInflowWriteTlp (addr : Nat) (bytes : List Byte) (allEnabled : Bool) (s : State) : Host.Outcome State Fault Refusal :=
  .next (
    if hostUp s && decide (addr + bytes.length ≤ 0x10000) && !bytes.isEmpty then
      if addr % 4 ≠ 0 ∨ bytes.length % 4 ≠ 0 ∨ allEnabled = false then { s with hi.badTlp := satAdd 32 s.hi.badTlp 1 }
      else
        let e := decide ((addr + bytes.length - 4) / 0x8000 % 2 = 1)
        let s := flushDue (packWords (bytes.length / 4) s bytes e)
        if inflowPkts s = 0 then s else wakeActive s
    else s)

/- Admission. -/

/-- The action in force on admission: the stricter of the thermal level and the power limit (R426, R428); STOP during a trip or a
regulator fault (R425, R427). -/
def admitAction (s : State) : Therm :=
  if s.pwr.tripped ∨ s.pwr.faulty ≠ [] then .stop
  else if s.pwr.therm.code ≤ s.pwr.limitAct.code then s.pwr.limitAct else s.pwr.therm

/-- The request of a packet has the shape of Table 13.3. -/
def requestOk (w : List WideWord) : Bool :=
  match w with
  | [x] =>
    x.vbytes == 64 && (leAt x.bytes 16 1 == 1 || leAt x.bytes 16 1 == 2) && decide (leAt x.bytes 17 1 ≤ 16) &&
      leAt x.bytes 18 2 == 0 && leAt x.bytes 28 4 == 0 &&
      (List.range 16).all (fun i => decide (i < leAt x.bytes 17 1) || leAt x.bytes (32 + 2 * i) 2 == 0)
  | _ => false

/-- The references of a request. -/
def requestRefs (b : List Byte) : List Nat := (List.range (leAt b 17 1)).map (fun i => leAt b (32 + 2 * i) 2)

/-- A packet completes without admission (R323). -/
def completeAtOnce (s : State) (b : List Byte) (st e : Nat) : State :=
  complete s { status := st, agent := leAt b 16 1, admitted := false, cause := 0, tag := leAt b 8 8, planId := leAt b 0 8, n := 0,
               admitBeat := 0, doneBeat := e }

/-- A request becomes instance n of its plan at edge e (R241, R255, R266, R321). -/
def admitReq (s : State) (c e : Nat) (b : List Byte) : State :=
  let refs := requestRefs b
  let ids := (refs.map (fun r => r % 4096)).eraseDups
  let n := (ctxAt s c).admitted
  let i : Inst := { n := n, tag := leAt b 8 8, agent := leAt b 16 1, admitBeat := e, refs := refs, lent := ids, faults := .none,
                    policyDue := false, stopped := false }
  let s := ids.foldl (fun s k => onBl s k (fun x => { x with st := .lent, holder := ctxOwner c })) s
  let s := onCtx s c (fun x => { x with insts := x.insts ++ [i], admitted := x.admitted + 1 })
  let s := syncRealign { s with so.inst := vput s.so.inst c n } c n
  { s with hi.admitted := satAdd 32 s.hi.admitted 1 }

/-- What Keeper does with the head packet at edge e (R321, R323). -/
inductive Judged where
  | stop | now (st : Nat) | enter (c : Nat)
deriving DecidableEq, Repr

/-- The head packet: its wide words, where a whole packet stands in the queue. -/
def headPacket (s : State) : Option (List WideWord) :=
  if inflowPkts s = 0 then none
  else
    let n := (s.hi.queue.takeWhile (fun w => !w.eop)).length + 1
    some (s.hi.queue.take n)

/-- Judge a request of the right shape (R321, R323, R426): adm gives the requests that each context has admitted at this edge. -/
def judgeRequest (s : State) (adm : List Nat) (e : Nat) (b : List Byte) : Judged :=
  let ab := leAt b 20 8
  let agent := leAt b 16 1
  match ctxOf s (leAt b 0 8) with
  | none => if e < ab then .stop else .now stNone
  | some c =>
    let x := ctxAt s c
    if x.admitRate ≠ 0 ∧ x.admitRate ≤ adm.getD c 0 then .stop
    else if e < ab then .stop
    else if x.st ≠ .installed ∨ x.admitRate = 0 ∨ x.halted = true ∨ (ab ≠ 0 ∧ ab < e) then .now stIncons
    else if (requestRefs b).any (fun r => (blAt s (r % 4096)).gen != r / 4096) then .now stDoubleFree
    else if (requestRefs b).any (fun r => !((blAt s (r % 4096)).st == .owned && (blAt s (r % 4096)).owner == agent)) then
      .now stNotOwner
    else match admitAction s with
      | .stop => .stop
      | .throttle => if e % 2 = 1 ∧ ab = 0 then .stop else .enter c
      | _ => .enter c

/-- Judge the head packet. -/
def judgeHead (s : State) (adm : List Nat) (e : Nat) (w : List WideWord) : Judged :=
  if 1024 ≤ s.hi.backlog.length then .stop
  else if requestOk w then judgeRequest s adm e ((w.head?.map (fun x => x.bytes)).getD [])
  else .now stBad

/-- Take the packets of an edge from the queue, in order, until one stops admission; the answer counts those removed. -/
def admitLoop : Nat → State → List Nat → Nat → Nat → State × List Nat × Nat
  | 0, s, adm, _, k => (s, adm, k)
  | n + 1, s, adm, e, k =>
    match headPacket s with
    | none => (s, adm, k)
    | some w =>
      let b := (w.head?.map (fun x => x.bytes)).getD []
      let popped (s : State) : State :=
        { s with hi.queue := s.hi.queue.drop w.length, hi.lastPop := (w.getLast?.map (fun x => x.bytes)).getD [] }
      match judgeHead s adm e w with
      | .stop => (s, adm, k)
      | .now st => admitLoop n (completeAtOnce (popped s) b st e) adm e (k + 1)
      | .enter c => admitLoop n (admitReq (popped s) c e b) (adm.set c (adm.getD c 0 + 1)) e (k + 1)

/-- A request boundary of a plan (R202, R243): its chain streams start again at INIT_SCALE, and its PERSIST threads re-arm. -/
def requestBoundary (s : State) (c e : Nat) : State :=
  let s := forUpto 4 (fun s q => onQuad s q (fun x => { x with chains := x.chains.eraseRange (256 * c) (256 * c + 256) })) s
  let idle := s.xm.threads.filter (fun (t : Nat × Thread) => t.2.ctx == c && t.2.d.persist && t.2.run == .idle)
  idle.foldl (fun s t => armThread s (t.1 / 32) c e t.2.d) s

/-- Keeper judges requests at this edge: verified firmware runs, and the device is Active (R321, R420). -/
def admits (s : State) : Bool := s.hi.fwRuns && s.pwr.st == .active && s.pwr.waking.isNone

/-- Admission at beat edge e (R321 to R326), with US_ADMIT_DEFICIT. -/
def admission (s : State) (e : Nat) : State :=
  let arrived := s.hi.arrived
  let s := { s with hi.arrived := 0 }
  if ¬ s.hi.fwRuns then s
  else
    let (s, adm, k) := if admits s then admitLoop s.hi.queue.length s [0, 0, 0, 0] e 0 else (s, [0, 0, 0, 0], 0)
    let s := forUpto 4 (fun s c => if 0 < adm.getD c 0 then requestBoundary s c e else s) s
    flushDue { s with us.deficit := min (s.us.deficit + arrived - k) (2 ^ 32 - 1) }

/- Rings and the function's power state. -/

/-- COMPLETION_BACKLOG_DRAIN (R328). -/
def execCompletionBacklogDrain (s : State) : Host.Outcome State Fault Refusal :=
  .next (if alive s then drainBacklog s.hi.backlog.length s else s)

/-- EVENT_OVERFLOW_RECORD (R330). -/
def execEventOverflowRecord (s : State) : Host.Outcome State Fault Refusal := .next (if alive s then evrOverflow s else s)

/-- What follows once the function answers again: the boot queue, the backlog and the pending vectors (R41, R328, R331). -/
def hostBack (s : State) : State := signalPending (ringRoom (ringRoom s false) true)

/-- PCI_POWER_STATE_CHANGE (R308, R310). -/
def execPciPowerStateChange (d3hot : Bool) (s : State) : Host.Outcome State Fault Refusal :=
  .next (
    if alive s && s.pwr.hif && s.hi.link && !s.hi.perst && s.hi.cfgReady then
      if d3hot then { s with hi.d3hot := true } else hostBack { s with hi.d3hot := false }
    else s)

end Sys2Proof.Machine
end

