-- ==== Sys2Proof/Machine/HostCmds.lean ====
section
/-! DEFINITION. Commands that act at once on one block: the ledger (R245 to R248, R252), the aperture window (R311, R334), calibration
requests (R85), hive ports (R281, R307), the power limit (R428, R429), and the resets asked for by command (R47, R50). -/

namespace Sys2Proof.Machine

open Sys2Proof

/- The ledger. -/

/-- The lowest FREE entry (Table 10.3). -/
def freeEntry (s : State) : Option Nat := (List.range 4096).find? (fun i => (blAt s i).st == .free)

/-- Meaning of BUF_ALLOC (R245, R252). -/
def bufAlloc (s : State) (p : List Byte) : State :=
  let m := s.wg.cur.getD 0
  let len := leAt p 0 8
  if 2 ≤ m then answer s stNotOwner []
  else if p.length ≠ 8 ∨ len = 0 ∨ 2 ^ 32 < len ∨ len % 4096 ≠ 0 then answer s stBad []
  else
    match freeEntry s, findRun (xmLimit s) 4096 len (planRuns s ++ hostRuns s) with
    | some i, some base =>
      let s := onBl s i (fun e => { e with owner := m + 1, holder := m + 1, st := .owned, base := base, len := len })
      answer s stOk (leBytes 2 (refOf i (blAt s i)) ++ leBytes 8 base)
    | _, _ => answer s stNoFit []

/-- BUF_ALLOC (R252). -/
def execBufAlloc (s : State) : Host.Outcome State Fault Refusal := .next (onCmd s 0x501 (bufAlloc s))

/-- A ledger command on a reference: judged by R246, and done when it stands. -/
def bufOnRef (s : State) (p : List Byte) (f : State → Nat → State) : State :=
  let m := s.wg.cur.getD 0
  let ref := leAt p 0 2
  if 2 ≤ m then answer s stNotOwner []
  else if p.length ≠ 2 then answer s stBad []
  else
    match judgeFree s ref (m + 1) with
    | .ok => answer (f s ref) stOk []
    | j => answer (rejectFree s ref j) j.code []

/-- BUF_FREE (R246). -/
def execBufFree (s : State) : Host.Outcome State Fault Refusal := .next (onCmd s 0x502 (fun p => bufOnRef s p doFree))

/-- The buffer passes to the other host mailbox (Table 10.3). -/
def giveBuf (s : State) (ref : Nat) : State :=
  let o := 2 - s.wg.cur.getD 0
  onBl s (ref % 4096) (fun e => { e with owner := o, holder := o })

/-- BUF_GIVE (R252). -/
def execBufGive (s : State) : Host.Outcome State Fault Refusal := .next (onCmd s 0x503 (fun p => bufOnRef s p giveBuf))

/-- The ledger command that Keeper has accepted takes effect (R248): at the latest before admission at the next edge. -/
def settleLedger (s : State) : State :=
  match s.wg.cur.map (fun m => mbOp s m) with
  | some 0x501 => onCmd s 0x501 (bufAlloc s)
  | some 0x502 => onCmd s 0x502 (fun p => bufOnRef s p doFree)
  | some 0x503 => onCmd s 0x503 (fun p => bufOnRef s p giveBuf)
  | _ => s

/-- COMB_APERTURE (R311, R334). -/
def execCombAperture (s : State) : Host.Outcome State Fault Refusal :=
  .next (onCmd s 0x120 (fun p =>
    if p.length ≠ 1 ∨ 5 < leAt p 0 1 then answer s stBad [] else answer { s with hi.aperture := leAt p 0 1 } stOk []))

/- Calibration targets (R392, R396). -/

/-- The state of a calibration target. -/
def calAt (s : State) (t : CalTarget) : CalSt := ((s.us.cal.find? (fun e => e.1 == t)).map (fun e => e.2)).getD .init
/-- Change a calibration target. -/
def onCal (s : State) (t : CalTarget) (f : CalSt → CalSt) : State :=
  let v := f (calAt s t)
  { s with us.cal := if s.us.cal.any (fun e => e.1 == t) then s.us.cal.map (fun e => if e.1 = t then (t, v) else e)
                     else s.us.cal ++ [(t, v)] }

/-- The installed profiles of a core loop (R84). -/
def loopProfiles (s : State) (unit : Nat) : List Nat :=
  ((if unit = 1 then s.syn.prof0 else s.syn.prof1).filter (fun e => e.2.valid)).map (fun e => e.1)

/-- Table 3.6 allows the kind on the loop, and a core loop has an installed profile (R85). -/
def calAllowed (s : State) (kind unit : Nat) : Bool :=
  if unit = 0 then kind == 1 || kind == 2 else kind != 2 && !(loopProfiles s unit).isEmpty

/-- The targets of a kind on a loop (Table 16.2). -/
def loopTargets (s : State) (kind unit : Nat) : List CalTarget :=
  if kind = 0 then (loopProfiles s unit).map (fun i => { kind := 0, unit := unit, index := i })
  else [{ kind := kind, unit := unit, index := 0 }]

/-- A target under CAL_OVERRIDE is not calibrated (R396); a pump and the interpolator are one target each, whichever index the
override names. -/
def calHeld (s : State) (t : CalTarget) : Bool :=
  s.us.cal.any (fun e => e.1.kind == t.kind && e.1.unit == t.unit && (t.kind == 1 || t.kind == 2 || e.1.index == t.index) &&
    e.2.override.isSome)

/-- A trigger that arrives while a run of the target is in progress is absorbed by it, and an override holds it off (R396). -/
def calDue (s : State) (t : CalTarget) : State :=
  if (calAt s t).running = true ∨ calHeld s t = true then s else onCal s t (fun c => { c with due := true })

/-- SYN_CAL_RUN (R85, R396): its targets are due at once. -/
def execSynCalRun (s : State) : Host.Outcome State Fault Refusal :=
  .next (onCmd s 0x201 (fun p =>
    if p.length ≠ 2 ∨ 2 < leAt p 0 1 ∨ 2 < leAt p 1 1 then answer s stBad []
    else if ¬ calAllowed s (leAt p 0 1) (leAt p 1 1) then answer s stNone []
    else answer ((loopTargets s (leAt p 0 1) (leAt p 1 1)).foldl calDue s) stOk []))

/- Hive ports (R281, R307). -/

/-- A plan that is INSTALLED claims the port (Table 5.4). -/
def portClaimed (s : State) (p : Nat) : Bool :=
  s.cmb.ctx.toList.any (fun c => c.st == .installed && decide (c.ports / 2 ^ p % 2 = 1))

/-- HIVE_PORT with one of its actions; a malformed payload is answered by any of the three. -/
def hivePort (s : State) (act : Nat) (f : Nat → State) : State :=
  onCmd s 0x604 (fun p =>
    if p.length ≠ 2 ∨ 2 < leAt p 1 1 then answer s stBad []
    else if leAt p 1 1 ≠ act then s
    else if 19 < leAt p 0 1 then answer s stNone []
    else f (leAt p 0 1))

/-- HIVE_PORT retrain (Table 12.2, R307). -/
def execHivePortRetrain (s : State) : Host.Outcome State Fault Refusal :=
  .next (hivePort s 0 (fun p =>
    match (portAt s p).st with
    | .fenced => answer s stFenced []
    | .off => answer s stIncons []
    | _ => answer (portTrain s p) stOk []))

/-- HIVE_PORT unfence (Table 12.2, R307). -/
def execHivePortUnfence (s : State) : Host.Outcome State Fault Refusal :=
  .next (hivePort s 1 (fun p =>
    match (portAt s p).st with
    | .fenced => answer (portTrain s p) stOk []
    | _ => answer s stIncons []))

/-- HIVE_PORT hold (R281, R307). -/
def execHivePortHold (s : State) : Host.Outcome State Fault Refusal :=
  .next (hivePort s 2 (fun p =>
    let st := (portAt s p).st
    if st = .off ∨ st = .fenced ∨ st = .held ∨ portClaimed s p = true then answer s stIncons []
    else answer (raise (portTo s p .held) 0x0C09 .info 0) stOk []))

/-- PWR_LIMIT (R428, R429). -/
def execPwrLimit (s : State) : Host.Outcome State Fault Refusal :=
  .next (onCmd s 0x702 (fun p =>
    let w := leAt p 0 2
    if p.length ≠ 2 ∨ w < 100 ∨ 650 < w then answer s stBad [] else answer { s with pwr.limitW := w } stOk []))

/-- RESET_QUAD (R47, R50): the quadrant is reset at the next beat edge. -/
def execResetQuad (s : State) : Host.Outcome State Fault Refusal :=
  .next (onCmd s 0x711 (fun p =>
    let q := leAt p 0 1
    if p.length ≠ 1 ∨ 3 < q then answer s stBad []
    else if vget s.hi.quadOff q false then answer s stNone []
    else answer (onQuad s q (fun x => { x with resetDue := true })) stOk []))

/-- RESET_WARM (R50, R348): it is answered OK and recorded, and the reset follows the round. -/
def execResetWarm (s : State) : Host.Outcome State Fault Refusal :=
  .next (onCmd s 0x710 (fun p =>
    if p.length ≠ 0 then answer s stBad [] else answer { s with hi.warmDue := some 1 } stOk []))

end Sys2Proof.Machine
end

