-- ==== Sys2Proof/Machine/Heartwood.lean ====
section
/-! DEFINITION. Heartwood (chapter 16): records and copies (R401, R402), the queue's refill (R403), snapshots and reclaim (R404), the
scan (R399, R405), the power-fail commit (R406), failed blocks and wear (R407, R408), last-resort mode (R409), BOOT records (R456),
the warm-reset commit (R455), HW_ERASE (R378) and HW_READ (R411). -/

namespace Sys2Proof.Machine

open Sys2Proof

/- The log. -/

/-- Place i of the block map, counted round the ring. -/
def hwBlock (s : State) (i : Nat) : Nat := s.hw.map.getD (i % max 1 s.hw.map.length) 0
/-- The block at log head A. -/
def hwHeadA (s : State) : Nat := hwBlock s s.hw.head
/-- The block at log head B (R402). -/
def hwHeadB (s : State) : Nat := hwBlock s (s.hw.head + 1)
/-- Erased blocks ahead of the log heads (R404); heads that are not opened yet stand on two of them. -/
def hwAhead (s : State) : Nat := s.hw.map.length - s.hw.used
/-- The first place after the blocks that hold records. -/
def hwEnd (s : State) : Nat := s.hw.head + (if s.hw.headPage = 0 then 0 else 2)
/-- The oldest log block (R404). -/
def hwTail (s : State) : Nat := hwBlock s (hwEnd s + hwAhead s)
/-- Keeper's Heartwood writer runs: AON is alive, Keeper runs, and the scan has found Heartwood online. -/
def hwWriter (s : State) : Bool := alive s && s.pwr.keeper && hwKnown s
/-- A page can be programmed: no erase is in progress (erase suspend is not used, R399), and the heads stand on erased pages. -/
def hwCanProgram (s : State) : Bool :=
  hwWriter s && s.hw.erasing.isNone && s.hw.wipe.isEmpty && (s.hw.headPage != 0 || decide (2 ≤ hwAhead s))

/-- A pair of head blocks is opened: each begins with its BLOCK record (R400, log 34). -/
def hwOpen (s : State) : State :=
  if s.hw.headPage = 0 then { s with hw.headPage := 1, hw.used := min s.hw.map.length (s.hw.used + 2) } else s

/-- Write a record at the heads, both copies (R401, R402): the heads move on when their 256 pages are used. -/
def hwWrite (s : State) (typ : Nat) (payload : List Byte) : State :=
  let s := hwOpen s
  let r : HwRec := { typ := typ, rseq := s.hw.nextRseq, beat := s.beat.num, boot := s.hw.boot, payload := payload.take 224,
                     blks := [hwHeadA s, hwHeadB s] }
  let s := { s with hw.log := s.hw.log ++ [r], hw.nextRseq := s.hw.nextRseq + 1, hw.headPage := s.hw.headPage + 1 }
  if 256 ≤ s.hw.headPage then { s with hw.head := (s.hw.head + 2) % max 1 s.hw.map.length, hw.headPage := 0 } else s

/-- The newest state record of a type holds that state (R402). -/
def hwNor (s : State) (r : HwPend) : State :=
  let p := r.payload
  if r.typ = 3 then
    let k := 55 * leAt p 0 2
    { s with hw.norRetired := s.hw.norRetired.take k ++ (List.range (leAt p 2 2)).map (fun i => leAt p (4 + 4 * i) 4) ++
        s.hw.norRetired.drop (k + 55) }
  else if r.typ = 4 then { s with hw.norLatch := leAt p 0 1 % 2 == 1, hw.norBreaks := leAt p 4 4 }
  else if r.typ = 5 then
    { s with hw.norKeyCur := r.keys.getD 0 none, hw.norKeyNext := r.keys.getD 1 none, hw.norKeySlot := leAt p 0 1 / 4 % 2 }
  else if r.typ = 6 then { s with hw.norSession := leAt p 0 4 }
  else s

/-- A record commits (R402): the state it holds is kept, and MIRRORED sets when a mirror commits (R370). -/
def hwCommit (s : State) (r : HwPend) : State :=
  let s := hwNor (hwWrite s r.typ r.payload) r
  match r.kind with
  | .mirror n => { s with rj.ent := s.rj.ent.map (fun e => if e.seq = n then { e with mirrored := true } else e) }
  | _ => s

/-- Records enter the queue as room appears: the Critical overflow in order, the state records that wait, and the mirrors (R403,
log 35). -/
def hwRefill (s : State) : State :=
  let k := 7 - s.hw.queue.length
  let s := { s with hw.queue := s.hw.queue ++ s.hw.spill.take k, hw.spill := s.hw.spill.drop k }
  let k := 7 - s.hw.queue.length
  hwMirrors { s with hw.queue := s.hw.queue ++ s.hw.states.take k, hw.states := s.hw.states.drop k }

/-- The event records among those that wait. -/
def hwEventsWaiting (s : State) : Nat := ((s.hw.queue ++ s.hw.spill).filter HwPend.isEvent).length

/-- Heartwood is offline (R399): event 0x1201 goes to the ring only, the records that wait cannot be written, and the retired-page
list counts as empty. -/
def hwGoOffline (s : State) : State :=
  let s := hwLose s (hwEventsWaiting s)
  raiseRing
    { s with hw.online := false, hw.scanned := true, hw.queue := [], hw.spill := [], hw.states := [], hw.copy0 := false,
             hw.erasing := none, hw.attempts := 0, hw.wipe := [], cmb.retired := [] }
    s.beat.num 0x1201 .critical 0

/- State records. -/

/-- The payload of a SEAL record (Table 16.4). -/
def sealRecord (s : State) : List Byte :=
  leBytes 4 (bit1 s.gr.latch) ++ leBytes 4 s.gr.lifeBreaks ++ leBytes 8 s.gr.breakBeat
/-- Chunk k of the WEAR records (Table 16.4): the erase counts of 55 blocks. -/
def wearChunk (s : State) (k : Nat) : List Byte :=
  leBytes 2 k ++ ((List.range 55).filter (fun i => decide (55 * k + i < 1024))).flatMap (fun i =>
    leBytes 4 (s.hw.erases.getAt (55 * k + i) 0))
/-- The payload of a MODE record (Table 16.4). -/
def modeRecord (s : State) : List Byte := leBytes 8 (bit1 s.hw.lastResort) ++ leBytes 8 s.hw.resortBeat

/-- A state record of the state that Keeper holds now. -/
def stateRec (s : State) (typ : Nat) (payload : List Byte) : HwPend :=
  { kind := .state, typ := typ, payload := payload, keys := if typ = 5 then [s.hl.keyCur, s.hl.keyNext] else [] }

/-- Every state record (R404). -/
def hwStateRecs (s : State) : List HwPend :=
  (List.range (ceilDiv s.cmb.retired.length 55)).map (fun k => stateRec s 3 (retiredChunk s.cmb.retired k)) ++
    [stateRec s 4 (sealRecord s), stateRec s 5 (keysRecord s), stateRec s 6 (leBytes 4 s.hl.session)] ++
    (List.range 19).map (fun k => stateRec s 7 (wearChunk s k)) ++ [stateRec s 8 (modeRecord s)]

/-- A snapshot is written at the heads (R404): SNAP_BEGIN, every state record, SNAP_END. -/
def hwSnapshot (s : State) : State :=
  let rs := hwStateRecs s
  let s := hwWrite s 0x0D []
  let begin_ := ((s.hw.log.getLast?).map (fun r => r.rseq)).getD 0
  let s := rs.foldl hwCommit s
  { hwWrite s 0x0E (leBytes 4 rs.length ++ leBytes 4 (crc32 (rs.flatMap (fun r => r.payload)))) with hw.snapAt := begin_ }

/-- A complete snapshot lies in blocks newer than this one. -/
def hwSnapNewer (s : State) (b : Nat) : Bool :=
  s.hw.log.any (fun r => decide (r.rseq = s.hw.snapAt) && !r.blks.contains b)

/- Failed blocks (R407, R409). -/

/-- A block is no longer read: the records that stood in no other block are lost. -/
def hwForget (s : State) (b : Nat) : State :=
  { s with hw.log := s.hw.log.filterMap (fun r =>
      let l := r.blks.filter (fun x => x != b)
      if l.isEmpty then none else some { r with blks := l }) }

/-- The block map is rewritten (R400, R407): each version is one page, the two anchors alternate, and an anchor that is full is
erased first. An anchor whose erase count exceeds the mean log count by 1,000 moves to a spare. -/
def mapRewrite (s : State) : State :=
  let v := s.hw.mapVer
  let a := if v % 2 = 0 then s.hw.anchorA else s.hw.anchorB
  let s := { s with hw.mapVer := v + 1 }
  let s := if v / 2 % 256 = 0 ∧ 512 ≤ v then { s with hw.erases := s.hw.erases.putAt a (s.hw.erases.getAt a 0 + 1) 0 } else s
  if hwMeanErases s + 1000 < s.hw.erases.getAt a 0 then
    match s.hw.spares with
    | [] => s
    | x :: r =>
      let s := { s with hw.spares := r ++ [a] }
      if v % 2 = 0 then { s with hw.anchorA := x } else { s with hw.anchorB := x }
  else s

/-- The ring of log blocks without one of them, at most k blocks: the erased blocks ahead of the heads, then those with records,
oldest first, of which the newest are kept (R409). -/
def hwRing (s : State) (b k : Nat) : State :=
  let n := s.hw.map.length
  let l := (List.range n).map (fun i => hwBlock s (hwEnd s + i))
  let written := l.drop (n - s.hw.used)
  let l := l.filter (fun x => x != b)
  let l := l.drop (l.length - k)
  let stay := s.hw.headPage != 0 && hwHeadA s != b && hwHeadB s != b
  { s with
    hw.map := l
    hw.used := (l.filter (fun x => written.contains x)).length
    hw.head := if stay then l.length - 2 else 0
    hw.headPage := if stay then s.hw.headPage else 0
    hw.copy0 := s.hw.copy0 && stay
    hw.log := s.hw.log.filterMap (fun r =>
      let c := r.blks.filter (fun x => l.contains x)
      if c.isEmpty then none else some { r with blks := c }) }

/-- BLOCK_FAILURE (R407) and LAST_RESORT_ENTRY (R409): the block is retired, and a spare takes its role; with no spare the log keeps
its newest 64 good blocks, or one fewer, and below 8 Heartwood is offline. -/
def blockFailure (s : State) (b : Nat) : State :=
  let s := raise (hwForget { s with hw.retired := s.hw.retired ++ [b] } b) 0x1202 .minor 0
  match s.hw.spares with
  | x :: r => mapRewrite { s with hw.map := s.hw.map.map (fun y => if y = b then x else y), hw.spares := r }
  | [] =>
    let s := mapRewrite (hwRing s b (if s.hw.lastResort then s.hw.map.length else 64))
    let s :=
      if s.hw.lastResort then s
      else
        let s := { s with hw.lastResort := true, hw.resortBeat := s.beat.num }
        raise (hwState s 8 (modeRecord s)) 0x1205 .critical 0
    if s.hw.map.length < 8 then hwGoOffline s else s

/-- WEAR_WARNING (R408): the retries of one program. -/
def hwRetries (s : State) (n : Nat) : State :=
  let s := { s with hw.retries := (n :: s.hw.retries).take 1024 }
  let quiet := match s.hw.wearBeat with
    | none => false
    | some b => decide (s.beat.num < b + 1000)
  if hwRetryMilli s ≤ 10 ∨ quiet = true then s
  else raise { s with hw.wearBeat := some s.beat.num } 0x1203 .major 0

/-- HEARTWOOD_PROGRAM_COMPLETE (R402, R403, R407, R408): a copy of the record at the front is programmed and read back. -/
def execHeartwoodProgramComplete (copy ok : Bool) (retries : Nat) (s : State) : Host.Outcome State Fault Refusal :=
  .next (
    match s.hw.queue with
    | [] => s
    | r :: _ =>
      if hwCanProgram s = false ∨ copy ≠ s.hw.copy0 then s
      else
        let s := hwRetries (hwOpen s) (min retries 3)
        if ok = false ∨ ballsTaken s = true then blockFailure s (if copy then hwHeadB s else hwHeadA s)
        else if copy = false then { s with hw.copy0 := true }
        else
          -- the wear event may have queued behind the record at the front
          let q := s.hw.queue.drop 1
          hwRefill (hwCommit { s with hw.queue := q, hw.copy0 := false } r))

/- Reclaim and erase. -/

/-- An erase of a block starts: what it held is no longer read. -/
def eraseStart (s : State) (b : Nat) : State :=
  { hwForget s b with hw.erasing := some b, hw.attempts := 0 }

/-- BLOCK_RECLAIM (R404). -/
def execBlockReclaim (s : State) : Host.Outcome State Fault Refusal :=
  .next (
    if hwWriter s && s.hw.erasing.isNone && s.hw.wipe.isEmpty && decide (hwAhead s < 2) then
      let b := hwTail s
      eraseStart (if hwSnapNewer s b || !hwCanProgram s then s else hwSnapshot s) b
    else s)

/-- HW_ERASE has erased its last block (R378): what it keeps stands in RSEQ order in the blocks that follow, and the ERASED record is
the first one written after the erase. -/
def wipeDone (s : State) : State :=
  let k := s.hw.log.length
  let e := hwEnd s
  let blks (i : Nat) : List Nat := [hwBlock s (e + 2 * (i / 255)), hwBlock s (e + 2 * (i / 255) + 1)]
  let s := { s with
    hw.log := s.hw.log.mapIdx (fun i r => { r with blks := blks i })
    hw.head := (e + 2 * (k / 255)) % max 1 s.hw.map.length
    hw.headPage := if k % 255 = 0 then 0 else 1 + k % 255
    hw.used := min s.hw.map.length (2 * ceilDiv k 255) }
  hwWrite s 0x0B (leBytes 8 s.hw.wipeFrom ++ leBytes 8 s.hw.wipeTo)

/-- The next block of HW_ERASE is erased, or its last step is taken. -/
def wipeNext (s : State) : State :=
  match s.hw.wipe with
  | [] => wipeDone s
  | b :: _ => { s with hw.erasing := some b, hw.attempts := 0 }

/-- The blocks that hold records. -/
def hwUsedBlocks (s : State) : List Nat := (List.range s.hw.used).map (fun i => hwBlock s (hwEnd s + hwAhead s + i))

/-- An erased block of the log: its count rises, its WEAR chunk changes, and the log may use it. -/
def eraseDone (s : State) (b : Nat) : State :=
  let s := { s with hw.erases := s.hw.erases.putAt b (s.hw.erases.getAt b 0 + 1) 0 }
  hwState s 7 (wearChunk s (b / 55))

/-- HEARTWOOD_ERASE_COMPLETE (R404, R407, R408, R378): an erase ends after pct per cent of the typical time, and the block reads blank
or not. -/
def execHeartwoodEraseComplete (blank : Bool) (pct : Nat) (s : State) : Host.Outcome State Fault Refusal :=
  .next (
    match s.hw.erasing with
    | none => s
    | some b =>
      if hwWriter s = false then s
      else
        let blank := blank && !ballsTaken s
        let s := { s with hw.erasePct := min pct 0xFFFF }
        let s := eraseDone (if 200 < pct then raise s 0x1204 .major 0 else s) b
        if blank = false ∧ s.hw.attempts = 0 then { s with hw.attempts := 1 }
        else
          let wiping := !s.hw.wipe.isEmpty
          let s := { s with hw.erasing := none, hw.attempts := 0, hw.wipe := s.hw.wipe.filter (fun x => x != b) }
          let spare := !s.hw.spares.isEmpty
          let s := if blank then s else blockFailure s b
          if hwKnown s = false then s
          else if wiping then wipeNext s
          else if blank || spare then { s with hw.used := s.hw.used - 1 }
          else s)

/-- The presence checks of R374, in their order; reseal needs only an intact loop, and a Heartwood that is online (R405). The answer, or
none where they pass. -/
def presenceCheck (s : State) (reseal : Bool) : Option Nat :=
  if s.gr.sealOk = false ∨ hwOffline s = true ∨ (reseal = false ∧ sealLatch s = true) then some stSeal
  else if presProved s then none
  else some stPresence

/-- Answer the accepted presence-class command of an opcode: its checks of R374, then its own function of the payload. -/
def presenceCmd (s : State) (op : Nat) (f : List Byte → State) : State :=
  onCmd s op (fun p =>
    match presenceCheck s (op == 0x907) with
    | some st => answer s st []
    | none => f p)

/-- HW_ERASE (R378): every event record and journal mirror is erased; the queue waits until the erase ends. -/
def execHwErase (s : State) : Host.Outcome State Fault Refusal :=
  .next (presenceCmd s 0x903 (fun _ =>
    let s := { s with
      hw.wipeFrom := hwOldest s, hw.wipeTo := s.hw.nextRseq - 1, hw.copy0 := false
      hw.log := s.hw.log.filter (fun r => r.typ != 1 && r.typ != 2)
      hw.wipe := hwUsedBlocks s }
    answer (wipeNext s) stOk []))

/- The scan. -/

/-- The payload of the BOOT record (Table 16.9). -/
def bootRecord (s : State) : List Byte :=
  leBytes 1 s.hw.bootCause ++ leBytes 1 (if s.hi.fwRuns then bit1 s.hi.imageB else 0xFF) ++ leBytes 1 s.hi.readiness.code ++
    leBytes 1 s.hi.failStep ++ leBytes 4 (if s.hi.readiness = .ready then s.hi.bootUs else 0) ++
    leBytes 4 (if s.hi.fwRuns then (hiFwver s).toNat else 0) ++ leBytes 1 (bit1 s.hi.imageAFail + 2 * bit1 s.hi.imageBFail)

/-- BOOT_RECORD_WRITE (R456): the record of the present boot is queued, once, when Heartwood has been scanned. -/
def bootRecordWrite (s : State) : State :=
  if s.hw.bootRecDue && s.hw.scanned then { hwState s 9 (bootRecord s) with hw.bootRecDue := false } else s

/-- A state record is rewritten where the newest one in Heartwood differs from the state that AON keeps (R455). -/
def hwRewrite (s : State) : State :=
  let s := (List.range (ceilDiv s.cmb.retired.length 55)).foldl (fun s k =>
    if (s.cmb.retired.drop (55 * k)).take 55 = (s.hw.norRetired.drop (55 * k)).take 55 then s
    else hwState s 3 (retiredChunk s.cmb.retired k)) s
  let s := if s.gr.latch = s.hw.norLatch ∧ s.gr.lifeBreaks = s.hw.norBreaks then s else hwState s 4 (sealRecord s)
  let s :=
    if s.hl.keyCur = s.hw.norKeyCur ∧ s.hl.keyNext = s.hw.norKeyNext ∧ s.hl.keySlot = s.hw.norKeySlot then s
    else hwState s 5 (keysRecord s)
  if s.hl.session = s.hw.norSession then s else hwState s 6 (leBytes 4 s.hl.session)

/-- After a cold reset the scan brings the newest state records into AON (R402, R405); a break held in AON until then stays (R373). -/
def hwLoad (s : State) : State :=
  if s.hw.loaded then s
  else
    { s with
      cmb.retired := s.hw.norRetired
      gr.latch := s.gr.latch || s.hw.norLatch
      gr.lifeBreaks := s.gr.lifeBreaks + s.hw.norBreaks
      hl.keyCur := s.hw.norKeyCur
      hl.keyNext := s.hw.norKeyNext
      hl.keySlot := s.hw.norKeySlot
      hl.session := s.hw.norSession
      hw.loaded := true }

/-- The scan ends (R399, R405, R455): Heartwood is online and its state is read, or it is offline, and no key is installed (R299). -/
def hwScanEnd (s : State) (ok : Bool) : State :=
  let s := { hwLose s s.hw.lostAtReset with hw.lostAtReset := 0 }
  if ok = false then
    hwGoOffline { s with hl.keyCur := none, hl.keyNext := none, hw.loaded := false
                         gr.lifeBreaks := s.gr.lifeBreaks - (if s.hw.loaded then s.hw.norBreaks else 0) }
  else
    let s := { s with hw.scanned := true, hw.online := true }
    let s := hwRewrite (hwLoad s)
    let s := match s.hw.powerFail with
      | none => s
      | some d => raise { s with hw.powerFail := none } 0x1207 .info d
    let s := hwMirrors s
    let s := { s with hw.erasing := s.hw.wipe.head?, hw.attempts := 0 }
    let s := match s.hi.readiness with
      | .recovery => bootRecordWrite s
      | .failed => bootRecordWrite s
      | _ => s
    romRound s

/-- The scan runs: verified firmware runs, or ROM scans in RECOVERY and FAILED (R405, R456). -/
def hwScanning (s : State) : Bool :=
  alive s && s.pwr.keeper && !s.hw.scanned &&
    (s.hi.fwRuns || s.hi.readiness == .recovery || s.hi.readiness == .failed)

/-- HEARTWOOD_SCAN_COMPLETE (R399, R405): ok is whether the SFDP tables keep R399's limits and the scan has succeeded. -/
def execHeartwoodScanComplete (sfdpOk : Bool) (s : State) : Host.Outcome State Fault Refusal :=
  .next (if hwScanning s then hwScanEnd s (sfdpOk && !ballsTaken s) else s)

/-- HEARTWOOD_SCAN_DEADLINE (R405): a scan that has not ended by the CB0 window leaves Heartwood offline; RECOVERY has no limit. -/
def execHeartwoodScanDeadline (s : State) : Host.Outcome State Fault Refusal :=
  .next (if hwScanning s && s.hi.fwRuns && s.hi.readiness != .recovery then hwScanEnd s false else s)

/- Power failure and warm resets. -/

/-- The contents of the POWER_FAIL record (Table 16.4), as a number: the n records committed, entries that no commit has mirrored, their
first and last SEQ. -/
def powerFailNat (s : State) (n : Nat) : Nat :=
  let l := s.rj.ent.filter (fun e => e.mirrors && !e.mirrored)
  n % 256 + 2 ^ 8 * (l.length % 2 ^ 24) + 2 ^ 32 * (((l.head?).map (fun e => e.seq)).getD 0 % 2 ^ 64) +
    2 ^ 96 * (((l.getLast?).map (fun e => e.seq)).getD 0 % 2 ^ 64)

/-- The power-fail commit (R406): an erase ends by the NOR reset, the queued records are committed, and then a POWER_FAIL record. -/
def hwPowerFail (s : State) : State :=
  if hwKnown s then
    let n := s.hw.queue.length
    let s := s.hw.queue.foldl hwCommit { s with hw.erasing := none, hw.attempts := 0 }
    let d := powerFailNat s n
    { hwWrite s 0x0F (leBytes 20 d) with hw.queue := [], hw.copy0 := false, hw.powerFail := some d }
  else s

/-- Before a warm reset that Keeper starts itself, every record in the queue and in the Critical overflow is committed (R455). -/
def hwFlush (s : State) : State :=
  if hwKnown s then
    { (s.hw.queue ++ s.hw.spill).foldl hwCommit s with hw.queue := [], hw.spill := [], hw.copy0 := false }
  else s

/- HW_READ. -/

/-- The page of one copy of a record (Table 16.3). -/
def hwPage (r : HwRec) (copy : Nat) : List Byte :=
  let p := leBytes 4 0x44525748 ++ leBytes 1 r.typ ++ leBytes 1 copy ++ leBytes 2 r.payload.length ++ leBytes 8 r.rseq ++
    leBytes 8 r.beat ++ leBytes 4 r.boot ++ padTo 224 r.payload
  p ++ leBytes 4 (crc32 p)

/-- HW_READ (R411). -/
def execHwRead (s : State) : Host.Outcome State Fault Refusal :=
  .next (onCmd s 0x801 (fun p =>
    let first := leAt p 0 8
    let n := leAt p 8 2
    if p.length ≠ 11 ∨ n = 0 ∨ 1024 < n then answer s stBad []
    else if hwKnown s = false then answer s stIncons []
    else
      let old := if s.hw.log.isEmpty then s.hw.nextRseq else hwOldest s
      let rs := (s.hw.log.filter (fun r => decide (first ≤ r.rseq) && (leAt p 10 1 == 0 || leAt p 10 1 == r.typ))).take n
      answer s stOk (leBytes 8 (hwOldest s) ++ leBytes 8 s.hw.nextRseq ++ leBytes 1 (bit1 (decide (first < old))) ++
        rs.flatMap (fun r => hwPage r 0))))

end Sys2Proof.Machine
end

