-- ==== Sys2Proof/Machine/Calib.lean ====
section
/-! DEFINITION. Calibrations (chapter 16 and Table 3.6): what is due (Table 16.2), where a run may start (R385, R393), what a run's
end does (R81, R394, R395, R80), and the overrides of CAL_OVERRIDE (R379, R381). -/

namespace Sys2Proof.Machine

open Sys2Proof

/-- A duration in seconds as beats, rounded up. -/
def beatsOfS (s : State) (sec : Nat) : Nat := ceilDiv (sec * 1000000000) (beatNs s)

/-- Seconds after which a kind is due again (Table 16.2). -/
def calPeriod (kind : Nat) : Nat := if kind ≤ 1 then 1800 else if kind = 2 then 3600 else if kind = 3 then 600 else 10

/-- The sensor of a kind, and the change in eighths of a degree that makes it due (Table 16.2); kind 2 has none. -/
def calSensor (kind : Nat) : Option (Nat × Nat) :=
  if kind ≤ 1 then some (8, 80) else if kind = 3 then some (9, 64) else if kind = 4 then some (10, 40) else none

/-- The beat at which a target is due by time (Table 16.2). -/
def calDueBeat (s : State) (t : CalTarget) : Nat := (calAt s t).lastBeat + beatsOfS s (calPeriod t.kind)

/-- The reading of a sensor, in eighths of a degree. -/
def tempNow (s : State) (k : Nat) : Int := (vget s.us.temp k ⟨false, 0, none⟩).now

/-- A target is due (Table 16.2, R396): a trigger has come, its time has passed, the sensor has moved, or its loop is out of
service (R80). -/
def calIsDue (s : State) (t : CalTarget) : Bool :=
  let c := calAt s t
  c.due || decide (calDueBeat s t ≤ s.beat.num) ||
    (match calSensor t.kind with
     | none => false
     | some (k, d) => (vget s.us.temp k ⟨false, 0, none⟩).valid && decide (d ≤ (tempNow s k - c.lastTemp).natAbs)) ||
    (t.kind ≤ 1 && t.unit != 0 && !inService s (unitLoop t.unit))

/-- A run of the kind is in progress on the loop, port or channel (R393). -/
def calBusy (s : State) (t : CalTarget) : Bool :=
  s.us.cal.any (fun e => e.1.kind == t.kind && e.1.unit == t.unit && e.2.running)

/-- The target exists (Table 16.2). -/
def calExists (s : State) (t : CalTarget) : Bool :=
  if t.kind ≤ 2 then decide (t.unit ≤ 2) && calAllowed s t.kind t.unit && (loopTargets s t.kind t.unit).contains t
  else if t.kind = 3 then decide (t.unit < 20) && decide (t.index < 9)
  else t.kind == 4 && decide (t.unit < 8) && decide (t.index < 4)

/-- The 655.36 µs of the histogram, 524,288 ticks, end before the idle loop must start the pre-lock of the next HOP (R393), measured
as R73 measures T_pl. Without a HOP, or while a hold suppresses them (R86), none has to start. -/
def histogramFits (s : State) (l : Loop) : Bool :=
  match s.syn.hold, nextHopAfter (hops s) s.beat.slot with
  | .none, some h =>
    let d := if h.1 ≤ s.beat.slot then h.1 + 128 - s.beat.slot else h.1 - s.beat.slot
    decide (524288 + tplTicks (profAt s l h.2) ≤ (d - 2) * s.beat.slotTicks)
  | _, _ => true

/-- A core loop is idle for as long as a calibration needs it (R85, R385, R393). A loop out of service serves no HOP (R80). -/
def loopFree (s : State) (l : Loop) : Bool :=
  activeLoop s != some l && (!inService s l || ((loopAt s l).ld != .acquire && histogramFits s l))

/-- The resource of a target is free, and its domain is powered (R385, R393, R410, R283). -/
def calFree (s : State) (t : CalTarget) : Bool :=
  if t.kind ≤ 2 then (loopAt s (unitLoop t.unit)).ld != .off && (t.unit == 0 || loopFree s (unitLoop t.unit))
  else if t.kind = 3 then
    let x := portAt s t.unit
    portUp s t.unit && x.laneTx.isNone && (x.spared.isNone || (x.weak && x.spared == some t.index))
  else xmUp s && decide (s.xm.chanOk / 2 ^ t.unit % 2 = 1)

/-- An overridden lane equaliser that is not in force yet waits for the lane's next recalibration slot (R379). -/
def laneOverride (s : State) (t : CalTarget) : Bool :=
  t.kind == 3 && (match (calAt s t).override with
    | none => false
    | some v => (calAt s t).value != v)

/-- CALIBRATION_START (R385, R393): at a guaranteed Understory slot. A lane's traffic moves to the spare, where a weak lane's is already
(R283). -/
def execCalibrationStart (t : CalTarget) (s : State) : Host.Outcome State Fault Refusal :=
  .next (
    if alive s && s.hi.fwRuns && s.beat.running && !s.beat.guard && descGuaranteed (descAt s s.beat.slot) && calExists s t &&
        calFree s t && !calBusy s t && ((calIsDue s t && !calHeld s t) || laneOverride s t) then
      let s := onCal s t (fun c => { c with due := false, running := true })
      if t.kind = 3 ∧ t.index < 8 ∧ (portAt s t.unit).spared = none then sendLane s t.unit t.index false else s
    else s)

/-- The band that a band calibration chooses: it moves by one step where V_t at the lock, in mV, is outside 0.30 to 0.60 V
(Table 3.6). -/
def calBand (band vt : Nat) : Nat := if vt < 300 then bandStep band false else if 600 < vt then bandStep band true else band

/-- V_t with the band that a band calibration chooses: bits [9:0] of its value are V_t at the lock in mV, and bits [19:10] V_t after
the band has moved. -/
def calVt (v : Nat) : Nat := if v % 1024 < 300 ∨ 600 < v % 1024 then v / 1024 % 1024 else v % 1024

/-- The figure of merit of a run (Table 3.6): what the analog side judged, and for a band also V_t inside 0.25 to 0.65 V. -/
def calMeets (t : CalTarget) (pass : Bool) (v : Nat) : Bool :=
  pass && (t.kind != 0 || (decide (250 ≤ calVt v) && decide (calVt v ≤ 650)))

/-- The step of entry k of the interpolator table that a run asks for: digit k of its value in base 4, 1 for one code up and 2 for one
code down, since no entry changes by more than one code (Table 3.6). -/
def interpStep (v k : Nat) : Int := let d := v / 4 ^ k % 4; if d = 1 then 1 else if d = 2 then -1 else 0

/-- A measured K_vco of a core loop in the band of what it holds, and the pump codes that follow from it (R60). -/
def calPump (s : State) (l : Loop) (k : Nat) : State :=
  let band := (profAt s l ((loopAt s l).target.getD 0)).band
  let s := { s with syn.kvco := s.syn.kvco.putAt (32 * loopUnit l + band) k 450 }
  (loopProfiles s (loopUnit l)).foldl (fun s i => onProf s l i (fun p => if p.band = band then inBand s l band p else p)) s

/-- A run that keeps its new set is applied (Tables 3.6 and 16.2): a band; a measured K_vco, from which R60 gives the pump code; the
steps of the interpolator table, at the next beat edge; and what a ramp moves to. -/
def calApply (s : State) (t : CalTarget) (v : Nat) : State :=
  let l := unitLoop t.unit
  if t.kind = 0 then
    onProf s l t.index (fun p => { inBand s l (calBand p.band (v % 1024)) p with vtCal := calVt v })
  else if t.kind = 1 then
    let k := v % 1024
    if t.unit = 0 then onCal s t (fun c => { c with target := some (pumpCode 128 0 k) }) else calPump s l k
  else if t.kind = 2 then
    { s with syn.interpDue := (List.range 256).foldl (fun m i => m.putAt i (interpStep v i) 0) [] }
  else if t.kind = 4 then onCal s t (fun c => { c with target := some (v % 64) })
  else onCal s t (fun c => { c with value := v })

/-- R80: a loop out of service returns after it has passed band and pump calibration. -/
def calService (s : State) (t : CalTarget) : State :=
  let l := unitLoop t.unit
  if t.kind ≤ 1 ∧ t.unit ≠ 0 ∧ (loopAt s l).out = true then
    let s := onLoop s l (fun x => if t.kind = 0 then { x with bandOk := true } else { x with pumpOk := true })
    if (loopAt s l).bandOk && (loopAt s l).pumpOk then
      let s := onLoop s l (fun x => { x with out := false, bandOk := false, pumpOk := false, lolBeats := [] })
      if s.syn.hold = .none ∧ (drive s ≠ .safe ∨ inService s (otherLoop l) = false) then prelockOn s l s.beat.slot else s
    else s
  else s

/-- A lane's run has ended (R283, R395): the traffic returns from the spare when the lane meets its figure of merit, and a lane that
does not is weak and stays there. -/
def laneEnd (s : State) (t : CalTarget) (meets : Bool) : State :=
  if t.kind ≠ 3 ∨ 8 ≤ t.index ∨ portUp s t.unit = false ∨ (portAt s t.unit).rxOn ≠ some t.index then s
  else if meets then sendLane (onPort s t.unit (fun x => { x with weak := false })) t.unit t.index true
  else onPort s t.unit (fun x => { x with weak := true })

/-- Count a run of a kind (Table 3.17). -/
def calCount (s : State) (kind : Nat) (pass : Bool) : State :=
  { s with syn.cal := vmod s.syn.cal kind (fun c =>
      { c with runs := satAdd 16 c.runs 1, fails := if pass then c.fails else satAdd 16 c.fails 1,
               lastBeat := if pass then s.beat.num else c.lastBeat }) }

/-- A run on a core loop that has come to drive the core (R62, R78, R393): it is deferred, and neither passes nor fails. -/
def calStranded (s : State) (t : CalTarget) : Bool := decide (t.kind ≤ 1) && t.unit != 0 && activeLoop s == some (unitLoop t.unit)

/-- CALIBRATION_COMPLETE (R81, R394, R395): pass is the figure of merit, and value the new set. On a failed lane run bit 0 of value says
whether the lane meets the figure of merit with the set in force. -/
def execCalibrationComplete (t : CalTarget) (pass : Bool) (value : Nat) (s : State) : Host.Outcome State Fault Refusal :=
  .next (
    let c := calAt s t
    if alive s = false ∨ c.running = false then s
    else if calStranded s t then onCal s t (fun c => { c with running := false, due := true })
    else
      let s := onCal s t (fun c => { c with running := false, lastBeat := s.beat.num })
      match c.override with
      | some v => laneEnd (onCal s t (fun c => { c with value := v })) t true
      | none =>
        let s := calCount s t.kind (calMeets t pass value)
        if calMeets t pass value then
          let s := onCal s t (fun c =>
            { c with failRun := 0, lastTemp := ((calSensor t.kind).map (fun k => tempNow s k.1)).getD 0 })
          laneEnd (calService (calApply s t value) t) t true
        else
          let s := onCal s t (fun c => { c with failRun := c.failRun + 1 })
          let s := raise s (if t.kind ≤ 2 then 0x0106 else 0x1102) .minor 0
          let s := if (calAt s t).failRun = 8 then raise s 0x1103 .major 0 else s
          laneEnd s t (decide (value % 2 = 1)))

/-- At a beat edge the interpolator table takes its steps (Table 3.6). -/
def interpEdge (s : State) : State :=
  { s.syn.interpDue.foldl (fun s e =>
      { s with syn.interp := s.syn.interp.putAt e.1 (s.syn.interp.getAt e.1 0 + e.2) 0 }) s with syn.interpDue := [] }

/-- The code of a ramped calibration value takes effect: the PLL-B pump, or an overridden entry of the interpolator table. -/
def rampTo (s : State) (t : CalTarget) (v : Nat) : State :=
  if t.kind = 1 then { s with syn.icpB := v }
  else if t.kind = 2 then { s with syn.interp := s.syn.interp.putAt t.index (twosInt 32 v) 0 }
  else s

/-- At a beat edge each ramp moves by one code, and an override of the PLL-B pump or of an interpolator entry takes effect (Table 16.2,
R379). -/
def calRamps (s : State) : State :=
  s.us.cal.foldl (fun s e =>
    match e.2.target with
    | none => s
    | some v =>
      let now := if e.1.kind = 1 then s.syn.icpB else e.2.value
      let next := if e.2.override = some v then v else if now < v then now + 1 else now - (if v < now then 1 else 0)
      let s := onCal s e.1 (fun c => { c with value := next, target := if next = v then none else c.target })
      rampTo s e.1 next) (interpEdge s)

/- The lanes of a port. -/

/-- The symbols that a lane carries in one beat: 212.5 Gb/s of 10-bit symbols (R276, R277). -/
def laneSymbols (s : State) : Nat := 3400 * s.beat.slotTicks

/-- What the FEC decoder of a port corrected on a lane in the beat that ends (R282, Table 12.13): HL_LANE counts it, above 10^−5 the
lane's recalibration is due (Table 16.2), and above 10^−3 the lane is weak. -/
def laneCount (s : State) (p k n : Nat) : State :=
  if ¬ portUp s p then s
  else
    let s := onPort s p (fun x => { x with lanes := vmod x.lanes k (fun m => satAdd 32 m n) })
    let t : CalTarget := { kind := 3, unit := p, index := k }
    let s := if laneSymbols s < 100000 * n then calDue s t else s
    if laneSymbols s < 1000 * n then weakLane s p k else s

/- CAL_OVERRIDE. -/

/-- The answer to a CAL_OVERRIDE that fails its checks (R379, R381). -/
def overrideCheck (s : State) (p : List Byte) : Nat :=
  let kind := leAt p 0 1
  let unit := leAt p 1 1
  let index := leAt p 2 1
  let v := leAt p 4 4
  if p.length ≠ 8 ∨ 3 < kind ∨ 1 < leAt p 3 1 ∨ (kind ≠ 3 ∧ 2 < unit) ∨ (kind = 2 ∧ unit ≠ 0) then stBad
  else if leAt p 3 1 = 0 ∧ ((kind = 0 ∧ 31 < v) ∨ (kind = 1 ∧ 63 < v)) then stBad
  else if kind = 3 then (if 19 < unit ∨ 8 < index then stNone else stOk)
  else if kind = 0 ∧ unit = 0 then stIncons
  else if kind ≤ 1 ∧ unit ≠ 0 ∧ (loopProfiles s unit).contains index = false then stNone
  else stOk

/-- The target that a CAL_OVERRIDE names; PLL-B has one pump value. -/
def overrideTarget (p : List Byte) : CalTarget :=
  { kind := leAt p 0 1, unit := leAt p 1 1, index := if leAt p 0 1 = 1 ∧ leAt p 1 1 = 0 then 0 else leAt p 2 1 }

/-- CAL_OVERRIDE with one of its actions; a malformed payload is answered by either. -/
def overrideCmd (s : State) (act : Nat) (f : CalSt → CalSt) : State :=
  onCmd s 0x905 (fun p =>
    if p.length = 8 ∧ leAt p 3 1 ≤ 1 ∧ leAt p 3 1 ≠ act then s
    else
      match presenceCheck s false with
      | some st => answer s st []
      | none =>
        if overrideCheck s p = stOk then answer (onCal s (overrideTarget p) f) stOk [] else answer s (overrideCheck s p) [])

/-- CAL_OVERRIDE set (R379): a core loop's value waits for the profile's next pre-lock, a PLL-B pump for the next edge, and so does an
interpolator entry (log 108). -/
def execCalOverrideSet (s : State) : Host.Outcome State Fault Refusal :=
  .next (
    let v := leAt ((curPay s 0x905).getD []) 4 4
    let t := overrideTarget ((curPay s 0x905).getD [])
    overrideCmd s 0 (fun c =>
      { c with override := some v, due := false, target := if (t.kind = 1 ∧ t.unit = 0) ∨ t.kind = 2 then some v else c.target }))

/-- CAL_OVERRIDE release (R379). -/
def execCalOverrideRelease (s : State) : Host.Outcome State Fault Refusal :=
  .next (overrideCmd s 1 (fun c => { c with override := none }))

end Sys2Proof.Machine
end

