-- ==== Sys2Proof/Machine/Presence.lean ====
section
/-! DEFINITION. Presence and the seal loop (chapters 15 and 18): the samplers (R372, R373, R449, R450), the presence-class commands
(R374 to R378, R163), the firmware load session (R375), WG3 unsealing (R376) and the commands that read and mark the journal (R371). -/

namespace Sys2Proof.Machine

open Sys2Proof

/- The samplers. -/

/-- PRESENCE_SAMPLE (R449): every 1 ms; a high sample ends a qualified assertion, whose window of 30 s then runs. -/
def execPresenceSample (low : Bool) (s : State) : Host.Outcome State Fault Refusal :=
  .next (
    if alive s = false then s
    else if low then
      { s with gr.presLow := true, gr.lowRun := min 50 (s.gr.lowRun + 1)
               gr.ageMs := if s.gr.qualified then s.gr.ageMs else s.gr.ageMs.map (fun n => n + 1) }
    else if s.gr.qualified then
      { s with gr.presLow := false, gr.lowRun := 0, gr.qualified := false, gr.window := true, gr.ageMs := some 0 }
    else { s with gr.presLow := false, gr.lowRun := 0, gr.ageMs := s.gr.ageMs.map (fun n => n + 1) })

/-- PRESENCE_QUALIFIED (R372, R449): fifty consecutive low samples form a qualified assertion. -/
def execPresenceQualified (s : State) : Host.Outcome State Fault Refusal :=
  .next (if alive s ∧ s.gr.qualified = false ∧ 50 ≤ s.gr.lowRun then { s with gr.qualified := true } else s)

/-- PRESENCE_WINDOW_EXPIRY (R372): more than 30 s after the assertion ended. -/
def execPresenceWindowExpiry (s : State) : Host.Outcome State Fault Refusal :=
  .next (if alive s ∧ s.gr.window = true ∧ 30000 ≤ s.gr.ageMs.getD 0 then { s with gr.window := false } else s)

/-- SEAL_SAMPLE (R450): a sample is open when SEAL_B does not read the bit that SEAL_A drove. Eight samples in a row that are not open
show the loop intact (log 37). -/
def execSealSample (driven read : Bool) (s : State) : Host.Outcome State Fault Refusal :=
  .next (
    if alive s = false then s
    else if driven != read then { s with gr.openRun := min 2 (s.gr.openRun + 1), gr.okRun := 0 }
    else
      let n := min 8 (s.gr.okRun + 1)
      { s with gr.openRun := 0, gr.okRun := n, gr.sealOk := s.gr.sealOk || decide (n = 8)
               gr.broken := s.gr.broken && decide (n ≠ 8) })

/-- WG3 writes are sealed (R376). -/
def wg3Close (s : State) : State := { s with wg.open3 := false, wg.unsealS := 0 }

/-- SEAL_BREAK (R373): two consecutive open samples. AON holds the latch at once, and Heartwood records it once it has been scanned
(R405). -/
def execSealBreak (s : State) : Host.Outcome State Fault Refusal :=
  .next (
    if alive s ∧ 2 ≤ s.gr.openRun ∧ s.gr.broken = false then
      let s := wg3Close { s with
        gr.latch := true, gr.sealOk := false, gr.broken := true, gr.window := false
        gr.breaks := satAdd 32 s.gr.breaks 1, gr.lifeBreaks := satAdd 32 s.gr.lifeBreaks 1, gr.breakBeat := beatNow s }
      let s := raise s 0x0F04 .critical 0
      if s.hw.scanned then hwState s 4 (sealRecord s) else s
    else s)

/- The firmware load. -/

/-- Bytes of one boot NOR slot (chapter 2). -/
def slotBytes : Nat := 16 * 2 ^ 20

/-- Whether a slot fails verification as Keeper knows it. -/
def slotBad (s : State) (slot : Nat) : Bool := if slot = 0 then s.fw.badA else s.fw.badB

/-- Mark a slot verified or not. -/
def slotMark (s : State) (slot : Nat) (bad : Bool) : State :=
  if slot = 0 then { s with fw.badA := bad } else { s with fw.badB := bad }

/-- The longest firmware image (R42): 768 KiB. -/
def imageMax : Nat := 768 * 1024

/-- A firmware image verifies (R42): its header is well formed, its length is at most 768 KiB, and its signature checks. -/
def imageOk (i : ImageInfo) : Bool := i.header && decide (i.len ≤ imageMax) && i.signed

/-- The version word of an image. -/
def imageVersion (i : ImageInfo) : Nat := i.major % 256 * 2 ^ 24 + i.minor % 256 * 2 ^ 16 + i.build % 2 ^ 16

/-- A step of FW_LOAD: the seal is checked at every step, presence where asked (R374, R375); a malformed payload is answered by any
step. -/
def fwStep (s : State) (step : Nat) (presence : Bool) (f : List Byte → State) : State :=
  onCmd s 0x901 (fun p =>
    if 8 ≤ p.length ∧ leAt p 1 1 ≤ 2 ∧ leAt p 1 1 ≠ step then s
    else
      match presenceCheck s false with
      | some st => if st = stPresence ∧ presence = false then f p else answer s st []
      | none => f p)

/-- The fields that every step of FW_LOAD shares are within their ranges. -/
def fwShape (p : List Byte) : Bool :=
  decide (8 ≤ p.length) && decide (leAt p 0 1 ≤ 1) && decide (leAt p 1 1 ≤ 2) && decide (leAt p 2 2 = 0)

/-- Readiness RECOVERY shows progress 0x71 while a load session is open, and 0x70 otherwise (Table 2.4). -/
def loadProgress (s : State) : State :=
  if s.hi.readiness = .recovery then { s with hi.progress := if s.fw.session.isSome then 0x71 else 0x70 } else s

/-- FW_LOAD BEGIN (R375): the session opens and the erase of the slot's first 1 MiB starts; the answer follows the erase. -/
def execFwLoadBegin (s : State) : Host.Outcome State Fault Refusal :=
  .next (fwStep s 0 true (fun p =>
    let slot := leAt p 0 1
    let total := leAt p 4 4
    if fwShape p = false ∨ p.length ≠ 8 ∨ total = 0 ∨ slotBytes < total then answer s stBad []
    else if s.hi.fwRuns = true ∧ bit1 s.hi.imageB = slot ∧ slotBad s (1 - slot) = true then answer s stIncons []
    else loadProgress { slotMark s slot true with fw.session := some (slot, 0, total), wg.wait := .norErase }))

/-- The first 1 MiB of a slot of the boot NOR erased (R375). -/
def slotErase (s : State) (slot : Nat) : State :=
  if slot = 0 then { s with fw.slotA := s.fw.slotA.eraseRange 0 (2 ^ 20) }
  else { s with fw.slotB := s.fw.slotB.eraseRange 0 (2 ^ 20) }

/-- BOOT_NOR_ERASE_COMPLETE (R375): the first 1 MiB of the slot is erased, and Keeper answers BEGIN. -/
def execBootNorEraseComplete (s : State) : Host.Outcome State Fault Refusal :=
  .next (
    match s.wg.wait, s.wg.cur, s.fw.session with
    | .norErase, some _, some (slot, _, _) =>
      if alive s && s.pwr.keeper then
        answer { slotErase s slot with wg.wait := .none } stOk []
      else s
    | _, _, _ => s)

/-- Bytes of an image written into a slot of the boot NOR (R375). -/
def slotWrite (s : State) (slot off : Nat) (data : List Byte) : State :=
  if slot = 0 then { s with fw.slotA := s.fw.slotA.putRun off 0xFF#8 data }
  else { s with fw.slotB := s.fw.slotB.putRun off 0xFF#8 data }

/-- FW_LOAD DATA (R375): 1 to 3,992 bytes at the next expected offset; another offset leaves the session as it was. -/
def execFwLoadData (s : State) : Host.Outcome State Fault Refusal :=
  .next (fwStep s 1 false (fun p =>
    let data := p.drop 8
    if fwShape p = false then answer s stBad []
    else
      match s.fw.session with
      | none => answer s stIncons []
      | some (slot, next, total) =>
        if slot ≠ leAt p 0 1 then answer s stIncons []
        else if data.isEmpty ∨ 3992 < data.length ∨ leAt p 4 4 ≠ next ∨ total < next + data.length then answer s stBad []
        else
          answer { slotWrite s slot next data with fw.session := some (slot, next + data.length, total) } stOk []))

/-- FW_LOAD FINISH (R375, R42, R43): img is what the verification of the slot finds. -/
def execFwLoadFinish (img : ImageInfo) (s : State) : Host.Outcome State Fault Refusal :=
  .next (fwStep s 2 true (fun p =>
    if fwShape p = false ∨ p.length ≠ 8 then answer s stBad []
    else
      match s.fw.session with
      | none => answer s stIncons []
      | some (slot, next, total) =>
        if slot ≠ leAt p 0 1 then answer s stIncons []
        else
          let s := loadProgress { s with fw.session := none }
          if imageOk img = false ∨ next ≠ total ∨ imageMax < total then answer s stBad []
          else
            let s := slotMark s slot false
            let s := if slot = 0 then { s with fw.verA := imageVersion img } else { s with fw.verB := imageVersion img }
            if s.hi.readiness = .recovery then answer { s with hi.warmDue := some 4 } stOk []
            else answer (raise s 0x0F06 .major 0) stOk []))

/-- FW_LOAD_SESSION_TIMEOUT (R375): no step for 60 s; the slot fails verification. -/
def execFwLoadSessionTimeout (s : State) : Host.Outcome State Fault Refusal :=
  .next (
    match s.fw.session, s.wg.wait with
    | some _, .norErase => s
    | some (slot, _, _), _ => if alive s then loadProgress { slotMark s slot true with fw.session := none } else s
    | none, _ => s)

/- The other presence-class commands. -/

/-- HIVE_KEY_LOAD (R377): the next slot, or the current slot when no current key is installed. -/
def execHiveKeyLoad (s : State) : Host.Outcome State Fault Refusal :=
  .next (presenceCmd s 0x902 (fun p =>
    let key := bytesAt p 4 32
    if p.length ≠ 36 ∨ 1 < leAt p 0 1 ∨ rsvZero p 1 3 = false ∨ rsvZero p 4 32 = true then answer s stBad []
    else if leAt p 0 1 = 0 ∧ keyInstalled (keyNow s) = true then answer s stIncons []
    else
      let slot := if keyInstalled (keyNow s) then 1 - s.hl.keySlot else s.hl.keySlot
      let s := if slot = 0 then { s with hl.keyCur := some key } else { s with hl.keyNext := some key }
      answer (hwState s 5 (keysRecord s)) stOk []))

/-- REPAIR_READ (R163, Table 15.6): the fused array and Comb repair maps. -/
def repairBytes : List Byte :=
  (List.range 4).flatMap (fun q => (List.range 8).flatMap (fun k => leBytes 2 (Config.repairColumn q k).toNat)) ++
    (List.range 4).flatMap (fun q =>
      let n := (Config.repairRowCount q).toNat
      leBytes 4 n ++ (List.range n).flatMap (fun k => leBytes 4 (Config.repairRow q k).toNat))

/-- REPAIR_READ. -/
def execRepairRead (s : State) : Host.Outcome State Fault Refusal :=
  .next (presenceCmd s 0x904 (fun _ => answer s stOk repairBytes))

/-- WG3_UNSEAL with one of its actions; a malformed payload is answered by either. -/
def unsealCmd (s : State) (act : Nat) (f : List Byte → State) : State :=
  onCmd s 0x906 (fun p =>
    let good := p.length == 6 && decide (leAt p 0 1 ≤ 1) && leAt p 1 1 == 0
    if good = true ∧ leAt p 0 1 ≠ act then s
    else
      match presenceCheck s false with
      | some st => answer s st []
      | none => if good then answer (f p) stOk [] else answer s stBad [])

/-- WG3_UNSEAL (R376). -/
def execWg3Unseal (s : State) : Host.Outcome State Fault Refusal :=
  .next (unsealCmd s 1 (fun p => { s with wg.open3 := true, wg.unsealS := leAt p 2 4 }))

/-- WG3_SEAL (R376): action 0 seals WG3 writes at once. -/
def execWg3Seal (s : State) : Host.Outcome State Fault Refusal := .next (unsealCmd s 0 (fun _ => wg3Close s))

/-- WG3_UNSEAL_EXPIRY (R376). -/
def execWg3UnsealExpiry (s : State) : Host.Outcome State Fault Refusal :=
  .next (if alive s ∧ s.wg.open3 = true ∧ s.wg.unsealS ≠ 0 then wg3Close s else s)

/-- RESEAL (R374). -/
def execReseal (s : State) : Host.Outcome State Fault Refusal :=
  .next (presenceCmd s 0x907 (fun _ =>
    if s.gr.latch = false then answer s stIncons []
    else
      let s := raise { s with gr.latch := false } 0x0F05 .major 0
      answer (hwState s 4 (sealRecord s)) stOk []))

/- The journal. -/

/-- RJ_READ (R371, Table 15.6). -/
def execRjRead (s : State) : Host.Outcome State Fault Refusal :=
  .next (onCmd s 0x401 (fun p =>
    let first := leAt p 0 8
    let n := leAt p 8 2
    let src := leAt p 10 1
    if p.length ≠ 11 ∨ n = 0 ∨ 8192 < n then answer s stBad []
    else
      let old := if s.rj.ent.isEmpty then s.rj.next else rjOldest s
      let es := (s.rj.ent.filter (fun e => decide (first ≤ e.seq) && (src == 0xFF || src == e.source))).take n
      answer s stOk (leBytes 8 (rjOldest s) ++ leBytes 8 s.rj.next ++ leBytes 1 (bit1 (decide (first < old))) ++
        es.flatMap jBytes)))

/-- RJ_MARK (R368): 16 bytes of the requester's own data, which its entry's digest covers. -/
def execRjMark (s : State) : Host.Outcome State Fault Refusal :=
  .next (onCmd s 0x402 (fun p => if p.length = 16 then answer s stOk [] else answer s stBad []))

end Sys2Proof.Machine
end

