-- ==== Sys2Proof/Machine/Power.lean ====
section
/-! DEFINITION. Power states (chapter 17): idleness and entry (R415, R418), wakes (R419, R420, R228, R249, R391), the thermal level
(R426), the thermal trip (R427), the power limit (R428), regulators (R425) and the telemetry summary (R398). -/

namespace Sys2Proof.Machine

open Sys2Proof

/- Idleness. -/

/-- A tile is open in some quadrant (R185). -/
def anyTileOpen (s : State) : Bool :=
  s.quad.toList.any (fun x => x.setA.opened || x.setB.opened || x.swapDue || x.shadowBusy || x.run.isSome || x.chunk.isSome)

/-- Some staged change falls due within the wake latency of a state plus 2 beats (R418, R419). -/
def stagedSoon (s : State) (p : PwrSt) : Bool :=
  grNextEdge s != 0 && decide (grNextEdge s ≤ s.beat.num + wakeBeats s p + 2)

/-- The rebuild list, the zero-fill list and the fetch engine are idle, which Deep and Winter need (R418). -/
def combQuiet (s : State) : Bool := s.cmb.fetch.isNone && s.cmb.rebuilds.isEmpty && s.cmb.dirty.isEmpty

/-- Keeper is idle for the state that R421 chooses (R418). -/
def idleFor (s : State) (p : PwrSt) : Bool :=
  s.cmb.ctx.toList.all (fun c => c.insts.isEmpty) && !anyTileOpen s && inflowPkts s == 0 && !stagedSoon s p &&
    (decide (p.code < 3) || combQuiet s)

/-- The device may leave Active: it is READY, in Active, and no wake runs (R418). -/
def mayEnter (s : State) : Bool :=
  alive s && s.hi.readiness == .ready && s.pwr.st == .active && s.pwr.waking.isNone && s.hi.warmDue.isNone

/- Entry. -/

/-- The core loops lose their power and their lock (Table 3.7). -/
def loopsOff (s : State) : State :=
  let off (x : LoopSt) : LoopSt :=
    { x with ld := .off, target := none, purpose := .none, slot := none, stepped := none, pre := false, preFlag := none,
             lowLive := false, highLive := false, viol := [] }
  let s := profFlush (onLoop (onLoop { undoStep (undoStep s .c0) .c1 with syn.parkSrc := .safe } .c0 off) .c1 off)
  { s with syn.lateSwap := none, syn.baseSwapDue := false, syn.skip := none }

/-- The contents of external memory are lost (R228, R249, Table 2.7). -/
def xmLose (s : State) : State := { s with xm.mem := [], xm.epoch := s.xm.epoch + 1 }

/-- Every feeder thread ends and every quadrant loses its power (R415). -/
def quadsOff (s : State) : State := forUpto 4 quadDown s

/-- The state of Table 17.2 is entered from Active. -/
def enterState (s : State) (p : PwrSt) : State :=
  let s := { s with pwr.st := p, pwr.idle := 0, syn.parkSrc := s.syn.src, syn.src := .gated }
  let s := if 2 ≤ p.code then loopsOff (quadsOff s) else s
  let s := if 3 ≤ p.code then
      { s with pwr.xmi := false, xm.tags := [], pwr.cbRet := s.pwr.cb, pwr.cbLow := true }
    else s
  if p = .winter then lnkDown (xmLose s) else s

/-- POWER_STATE_ENTRY (R418, R421): the first edge at which Keeper has been idle for ENTRY_BEATS edges in a row. -/
def execPowerStateEntry (s : State) : Host.Outcome State Fault Refusal :=
  .next (
    let p := fitState s (tolEff s)
    if mayEnter s && p != .active && decide (max 1 s.pwr.entryBeats ≤ s.pwr.idle) && idleFor s p then enterState s p else s)

/- Wake. -/

/-- Every quadrant that is not disabled, and whose window has come, powers up through BIST (R427, R35), which releases THERMTRIP#
(R451). -/
def bistQuads (s : State) : State :=
  forUpto 4 (fun s q =>
    if vget s.hi.quadOff q false ∨ s.hi.window ≤ q then s
    else { s with pwr.quad := vput s.pwr.quad q true, hi.bist := vput s.hi.bist q true })
    { s with pwr.rebist := false, pwr.thermTrip := false }

/-- Keeper relocks the base profile, at the tuning voltage vt in mV, and the core runs from it (R415, Table 3.7); with no base profile,
or under a hold on the safe clock, the core runs from the safe clock. -/
def relockBase (s : State) (vt : Nat) : State :=
  let s := { s with syn.src := .safe }
  match baseProfile s, (if inService s .c0 then some Loop.c0 else if inService s .c1 then some Loop.c1 else none) with
  | some b, some l =>
    if s.syn.hold = .safeClock then s
    else
      let s := coreLocked (retarget s l b .none none) l vt
      let s := { s with syn.src := loopSrc l, syn.profNow := b }
      if s.syn.hold = .none then prelockNext s s.beat.slot else s
  | _, _ => s

/-- The Comb slices leave retention, and each scrubber starts its catch-up pass from page 0 (R424, R391); the page of its paced pass is
kept. -/
def combWake (s : State) : State :=
  let s := { s with pwr.cbLow := false, pwr.cbRet := Vector.replicate 4 false }
  forUpto 4 (fun s q =>
    if vget s.pwr.cb q false then
      let s := onArb s q (fun a =>
        { a with queue := a.queue.filter (fun e => e.id != 10), jobs := a.jobs.eraseAt 10, scrubAgain := false, writeBack := false })
      { s with us.page := vput s.us.page q 0, us.catchUp := vput s.us.catchUp q true
               us.pacedPage := if vget s.us.catchUp q false then s.us.pacedPage else vput s.us.pacedPage q (vget s.us.page q 0) }
    else s) s

/-- On a wake from Winter the contents of external memory are lost: RESET is set in every installed stream entry, with events 0x0706
and 0x0804 (R228, R249). -/
def contentsLost (s : State) : State :=
  let s := { s with streams := s.streams.map (fun (e : Nat × StreamEnt) =>
      if e.2.st = .free then e else (e.1, { e.2 with reset := true })) }
  raise (raise s 0x0706 .major 0) 0x0804 .major 0

/-- The wake reaches its target state; vt is the tuning voltage at a relock of the base profile, in mV. -/
def wakeReach (s : State) (t : PwrSt) (vt : Nat) : State :=
  let old := s.pwr.st
  let s := { s with pwr.st := t, pwr.idle := 0, pwr.waking := none }
  let s := if old = .winter then contentsLost s else s
  let s := if 3 ≤ old.code ∧ t.code ≤ 2 then combWake { s with pwr.xmi := true } else s
  let s :=
    if 2 ≤ old.code ∧ t.code ≤ 1 then
      let s := if s.pwr.tripped then s else if s.pwr.rebist then bistQuads s else powerQuads s
      let s := relockBase s vt
      if t = .park then { s with syn.parkSrc := s.syn.src, syn.src := .gated } else s
    else s
  if old = .park ∧ t = .active then afterTable { s with syn.src := s.syn.parkSrc } s.beat.slot else s

/-- WAKE_COMPLETE (R420). A wake from Winter needs LNK (R279). -/
def execWakeComplete (x : WakeEnd) (s : State) : Host.Outcome State Fault Refusal :=
  .next (
    match s.pwr.waking with
    | none => s
    | some t =>
      if alive s = false ∨ (s.pwr.st = .winter ∧ s.pwr.lnk = false) then s
      else
        let late := decide (wakeUsOf s s.pwr.st < x.us)
        let s := wakeReach s t x.vt
        let s := { s with pwr.wakes := satAdd 32 s.pwr.wakes 1, pwr.wakeUs := min x.us (2 ^ 32 - 1) }
        if late then raise s 0x1306 .major 0 else s)

/-- The triggers of R419 that a beat edge shows: a packet in the queue, a staged change near, a page on the rebuild list, and a
tolerance that no longer fits. -/
def wakeEdge (s : State) : State :=
  if s.pwr.st = .active then s
  else
    let s := wakeTolerance s
    if inflowPkts s ≠ 0 ∨ s.cmb.rebuilds.isEmpty = false ∨ stagedSoon s s.pwr.st = true then wakeActive s else s

/- Thermal. -/

/-- THERMAL_TRIP (R427, R451): a valid sensor reads 115 °C or more. -/
def execThermalTrip (sensor : Fin 11) (eighths : Int) (s : State) : Host.Outcome State Fault Refusal :=
  .next (
    if alive s ∧ s.pwr.tripped = false ∧ 920 ≤ eighths ∧ eighths ≤ 1200 ∧ sensor.val < 11 then
      let s := forUpto 4 (fun s q => invalidOn s q 0x1304) s
      let s := { quadsOff s with pwr.tripped := true, pwr.thermTrip := true, pwr.cool := 0, pwr.rebist := true,
                                 hi.bist := Vector.replicate 4 false }
      raise s 0x1304 .critical 0
    else s)

/-- THERMAL_TRIP_RECOVERY (R427): at a beat edge the quadrants power up through BIST; in a state that keeps them down they do on the
wake. -/
def execThermalTripRecovery (s : State) : Host.Outcome State Fault Refusal :=
  .next (
    if alive s ∧ s.pwr.tripped = true ∧ 1000 ≤ s.pwr.cool then
      let s := { s with pwr.tripped := false, pwr.cool := 0 }
      if s.pwr.st.code ≤ 1 then bistQuads s else s
    else s)

/-- One sample of one sensor (R397): a reading outside −40 °C to 150 °C, or none, is invalid. -/
def tempSample (s : State) (k : Nat) (r : Option Int) : State :=
  match (match r with
    | some v => if -320 ≤ v ∧ v ≤ 1200 then some v else none
    | none => none) with
  | some v =>
    { s with us.temp := vmod s.us.temp k (fun t =>
        { valid := true, now := v, peak := some (match t.peak with
          | none => v
          | some p => max p v) }) }
  | none =>
    let was := (vget s.us.temp k ⟨false, 0, none⟩).valid
    let s := { s with us.temp := vmod s.us.temp k (fun t => { t with valid := false }) }
    if was || !s.us.sampled then raise s 0x1104 .major 0 else s

/-- What the power chapter reads of a sensor: 105 °C where it is invalid (R397, R426). -/
def tempRead (s : State) (k : Nat) : Int :=
  let t := vget s.us.temp k ⟨false, 0, none⟩
  if t.valid then t.now else 840

/-- The level of Table 17.3 that a reading calls for. -/
def levelOf (v : Int) : Therm := if 840 ≤ v then .stop else if 800 ≤ v then .throttle else if 760 ≤ v then .warn else .normal

/-- The thermal level at a beat edge (R426): a level clears when every reading is 5 °C below its threshold. -/
def thermalEdge (s : State) : State :=
  let hot := ((List.range 11).map (tempRead s)).foldl max (-320)
  let up := levelOf hot
  let keep := levelOf (hot + 39)
  let held := if keep.code ≤ s.pwr.therm.code then keep else s.pwr.therm
  let new := if held.code ≤ up.code then up else held
  let s' := { s with pwr.therm := new }
  let cool := (List.range 11).all (fun k => !(vget s.us.temp k ⟨false, 0, none⟩).valid || decide (tempNow s k ≤ 760))
  let s' := { s' with pwr.cool := if s.pwr.tripped && cool then s.pwr.cool + 1 else 0 }
  if s.pwr.therm.code < new.code then raise s' 0x1302 (if new = .warn then .minor else .major) 0 else s'

/-- The temperatures of a beat edge (R397), and the telemetry they feed (R398). -/
def tempEdge (s : State) (temps : List (Option Int)) : State :=
  let s := forUpto 11 (fun s k => tempSample s k (temps.getD k none)) s
  let first := s.us.telCnt == 0
  { s with
    us.telMin := Vector.ofFn (fun (k : Fin 11) =>
      if first then tempRead s k.val else min (vget s.us.telMin k.val 0) (tempRead s k.val))
    us.telMax := Vector.ofFn (fun (k : Fin 11) =>
      if first then tempRead s k.val else max (vget s.us.telMax k.val 0) (tempRead s k.val))
    us.telSum := Vector.ofFn (fun (k : Fin 11) => vget s.us.telSum k.val 0 + tempRead s k.val)
    us.telCnt := s.us.telCnt + 1
    us.sampled := true
    us.telBeats := vmod s.us.telBeats s.pwr.st.code (fun n => n + 1) }

/- Regulators and the power limit. -/

/-- POWER_LIMIT_ACTION (R428): one US_POWER sample, in 0.1 W. -/
def powerLimit (s : State) (w : Nat) : State :=
  let high := decide (10 * s.pwr.limitW < w)
  let above := if high then s.pwr.above + 1 else 0
  let below := if high then 0 else s.pwr.below + 1
  let act : Therm :=
    if 11 * s.pwr.limitW < w then .stop
    else if s.pwr.limitAct = .normal then (if 2 ≤ above then .throttle else .normal)
    else if 2 ≤ below then .normal
    else s.pwr.limitAct
  let s' := { s with pwr.above := above, pwr.below := below, pwr.limitAct := act }
  if s.pwr.limitAct.code < act.code then raise s' 0x1305 .minor 0 else s'

/-- REGULATOR_FAULT (R425): a fault bit, or three failed transactions in a row. -/
def regulatorFault (s : State) (page : Nat) : State :=
  if s.pwr.faulty.any (fun f => f.1 == page) then
    { s with pwr.faulty := s.pwr.faulty.map (fun f => if f.1 = page then (page, s.beat.num) else f) }
  else
    let s := { s with pwr.faulty := s.pwr.faulty ++ [(page, s.beat.num)], pwr.regFaults := satAdd 16 s.pwr.regFaults 1,
                      pwr.regPage := page % 16 }
    raise s 0x1303 .critical 0

/-- One page's power enters the telemetry of the period (R398). -/
def railSample (s : State) (r : RegReading) : State :=
  let w := r.deciWatts
  { s with us.telRail :=
      if s.us.telRail.any (fun e => e.1 == r.page) then
        s.us.telRail.map (fun e => if e.1 = r.page then (e.1, min e.2.1 w, max e.2.2.1 w, e.2.2.2.1 + w, e.2.2.2.2 + 1) else e)
      else s.us.telRail ++ [(r.page, w, w, w, 1)] }

/-- REGULATOR_READ (R397, R423, R425, R428): the readings of the regulator pages, every 64 beats. -/
def execRegulatorRead (rs : List RegReading) (s : State) : Host.Outcome State Fault Refusal :=
  .next (
    if alive s && s.hi.fwRuns && decide (s.beat.num % 64 = 0) && decide (rs.length ≤ 16) then
      let w := min (rs.map (fun r => r.deciWatts)).sum 0xFFFF
      let s := { s with us.regs := rs, us.power := w, us.powerPeak := if s.us.powerRead then w else max s.us.powerPeak w,
                        us.powerRead := false }
      let s := rs.foldl railSample s
      let s := (rs.filter (fun r => r.fault)).foldl (fun s r => regulatorFault s r.page) s
      powerLimit s w
    else s)

/-- REGULATOR_FAULT_CLEAR (R425): the regulator has reported no fault for 1,000 beats. -/
def execRegulatorFaultClear (page : Nat) (s : State) : Host.Outcome State Fault Refusal :=
  .next (
    if alive s ∧ s.pwr.faulty.any (fun f => f.1 == page && decide (f.2 + 1000 ≤ s.beat.num)) = true then
      { s with pwr.faulty := s.pwr.faulty.filter (fun f => f.1 != page) }
    else s)

/-- The payload of the telemetry summary (R398, log 38): for each sensor the minimum, mean and maximum in eighths of a degree; the beats
in each power state; and for each page its power's minimum, mean and maximum in 0.1 W. -/
def telemetryBytes (s : State) : List Byte :=
  let n := max 1 s.us.telCnt
  (List.range 11).flatMap (fun k =>
    leBytes 2 (twosNat 16 (vget s.us.telMin k 0)) ++ leBytes 2 (twosNat 16 (vget s.us.telSum k 0 / n)) ++
      leBytes 2 (twosNat 16 (vget s.us.telMax k 0))) ++
    s.us.telBeats.toList.flatMap (leBytes 4) ++
    (s.us.telRail.take 16).flatMap (fun e =>
      leBytes 2 e.2.1 ++ leBytes 2 (e.2.2.2.1 / max 1 e.2.2.2.2) ++ leBytes 2 e.2.2.1)

/-- TELEMETRY_SUMMARY (R398): every 3,600 s Keeper writes the record, and the next period starts. -/
def execTelemetrySummary (s : State) : Host.Outcome State Fault Refusal :=
  .next (
    if alive s && s.hi.fwRuns && decide (beatsOfS s 3600 ≤ s.us.telBeats.toList.sum) then
      { hwState s 10 (telemetryBytes s) with
        us.telCnt := 0, us.telSum := Vector.replicate 11 0, us.telBeats := Vector.replicate 5 0, us.telRail := [] }
    else s)

end Sys2Proof.Machine
end

