-- ==== Sys2Proof/WellFormed.lean ====
section
/-! DEFINITION. Which commands are well formed: the ranges that the spec gives the operands of a command. A command outside them is
not a step that the block can be given; exec is total on it all the same. -/

namespace Sys2Proof

/-- An aligned word of BAR0, which is 4 MiB (R3, Table 13.1). -/
def wfWordOff (off : Nat) : Bool := off % 4 == 0 && decide (off < 0x400000)

/-- One half of a pair of words that hold a 64-bit value (R4). -/
def wfHalf (high : Bool) (off : Nat) : Bool := wfWordOff off && (off % 8 == if high then 4 else 0)

/-- A misaligned or narrow access within BAR0 (R3). -/
def wfMisaligned (off width : Nat) : Bool :=
  decide (off < 0x400000) && decide (1 ≤ width) && (off % 4 != 0 || width != 4)

/-- A flit is 256 bytes (R284). -/
def wfFlit (flit : List Byte) : Bool := flit.length == 256

/-- The outside of a beat edge: 11 sensors (Table 16.3), four quadrants, 8 active lanes and the spare of a port (R277). -/
def wfEdge (env : EdgeEnv) : Bool :=
  env.temps.length == 11 && env.utime.length == 4 && env.uused.length == 4 && env.slack.length == 4 &&
    env.corrected.all (fun p => decide (p.2.1 < 9))

/-- A quadrant slot program: at least one beat, its slots in rising order within those beats. -/
def wfProg (p : QuadProg) : Bool :=
  decide (1 ≤ p.beats) && p.slots.all (fun e => decide (e.1 < 128 * p.beats)) &&
    (p.slots.zip (p.slots.drop 1)).all (fun e => decide (e.1.1 < e.2.1))

/-- What a plan fetch brings: one program for each quadrant at most. -/
def wfSource (src : PlanSource) : Bool :=
  src.progs.all wfProg && (src.progs.map (fun p => p.quad)).eraseDups.length == src.progs.length

/-- A board record: one of the three data rates, 1 or 2 ranks, and 2 to 32 GiB a channel (Table 10.1), with a SCRUB_PERIOD within R387
where it names one. -/
def wfBoard (b : BoardRec) : Bool :=
  decide (b.rate < 3) && decide (1 ≤ b.ranks) && decide (b.ranks ≤ 2) && decide (2 ≤ b.gib) && decide (b.gib ≤ 32) &&
    (b.scrubS == 0 || (decide (60 ≤ b.scrubS) && decide (b.scrubS ≤ 86400)))

/-- A firmware image: version bytes, and the board record of an image that verifies. -/
def wfImage (img : ImageInfo) : Bool :=
  decide (img.major < 256) && decide (img.minor < 256) && decide (img.build < 65536) && wfBoard img.board

/-- A calibration target of Table 16.2: kinds 0 to 2 on a loop, kind 3 on a port, kind 4 on a channel. -/
def wfCal (t : CalTarget) : Bool :=
  match t.kind with
  | 0 => decide (1 ≤ t.unit) && decide (t.unit ≤ 2) && decide (t.index < 16)
  | 1 => decide (t.unit ≤ 2) && t.index == 0
  | 2 => t.unit == 0 && t.index == 0
  | 3 => decide (t.unit < 20) && decide (t.index < 9)
  | 4 => decide (t.unit < 8) && decide (t.index < 4)
  | _ => false

/-- A write TLP to BAR2, which is 64 KiB (Table 13.1): 1 to 4,096 bytes. -/
def wfTlp (addr : Nat) (bytes : List Byte) : Bool :=
  decide (1 ≤ bytes.length) && decide (bytes.length ≤ 4096) && decide (addr + bytes.length ≤ 0x10000)

/-- A frame of the UART console (R352): at least one byte. -/
def wfFrame (frame : List Byte) : Bool := decide (1 ≤ frame.length)

/-- The command is well formed. -/
def Instr.wf : Instr → Bool
  | .registerWrite off _ _ => wfWordOff off
  | .rcFieldRead off _ => wfWordOff off
  | .lowWordRead off => wfHalf false off
  | .highWordWrite off _ => wfHalf true off
  | .misalignedAccess _ off width => wfMisaligned off width
  | .undefinedOffsetAccess _ off => wfWordOff off
  | .imageVerifyComplete img => wfImage img
  | .beatEdge env => wfEdge env
  | .calibrationStart t => wfCal t
  | .calibrationComplete t _ _ => wfCal t
  | .beatMarkerReceive _ flit _ => wfFlit flit
  | .planLoad (some src) => wfSource src
  | .planReplace (some src) => wfSource src
  | .pageRebuildComplete page _ => decide (page < 393216)
  | .bankCopyComplete page => decide (page < 393216)
  | .rebuildWaitLimit page => decide (page < 393216)
  | .zeroFillComplete _ bank => decide (bank < 64)
  | .readTransferComplete tag ecc _ => decide (tag < 1024) && decide (ecc < 3)
  | .writeTransferAccepted tag _ => decide (tag < 1024)
  | .sidePortRequest _ _ page len => decide (page < 393216) && decide (1 ≤ len)
  | .sidePortGrant _ errs => decide (errs < 256)
  | .pmdTrainingComplete _ spare _ => decide (spare < 9)
  | .identReceive _ flit => wfFlit flit
  | .laneFlitReceive _ flit => wfFlit flit
  | .flitDataReceive _ flit _ => wfFlit flit
  | .flitSyncReceive _ flit _ => wfFlit flit
  | .flitUnschedReceive _ flit _ => wfFlit flit
  | .flitHaltReceive _ flit => wfFlit flit
  | .flitTagReceive _ flit => wfFlit flit
  | .flitAckReceive _ flit => wfFlit flit
  | .flitNakReceive _ flit => wfFlit flit
  | .inboundEntryComplete _ entry => decide (entry < 1024)
  | .inflowWriteTlp addr bytes _ => wfTlp addr bytes
  | .apertureRead off _ => decide (off < 0x10000000)
  | .mailboxPageWrite _ off _ => off % 4 == 0 && decide (off < 0x1000)
  | .smbusSetOffset off _ => decide (off < 65536)
  | .uartWrite frame => wfFrame frame
  | .uartRead frame => wfFrame frame
  | .uartBaud frame => wfFrame frame
  | .fwLoadFinish img => wfImage img
  | .regulatorRead rs => rs.all (fun r => decide (r.page < 256))
  | .dmaReadComplete src => wfSource src
  | .jtagSamplePreload pins preload => pins.length == preload.length
  | _ => true

end Sys2Proof
end

