-- ==== Sys2Proof/Machine/Boot.lean ====
section
/-! DEFINITION. Power-up (chapter 2, chapter 18): ROM start and reference selection (R30, R51 to R53), the locks of the loops, HIF and
the PCIe link, the firmware images (R42, R43), the domain windows (R31, R35), external memory training (R36) and READY (R37). -/

namespace Sys2Proof.Machine

open Sys2Proof

/-- The readiness state and the progress code of a step (R38). -/
def bootStep (s : State) (r : Readiness) (p : Nat) : State := { s with hi.readiness := r, hi.progress := p }

/-- The device enters FAILED (Table 2.3): the progress code of FAILED, the step that failed, event 0x0D85, and the BOOT record
(R456). FAIL_STEP stays 0 after a boot that reached READY (Table 2.9). -/
def bootFail (s : State) (code step : Nat) : State :=
  let s := if s.hi.readiness = .ready then s else { s with hi.failStep := step }
  bootRecordWrite (raise (bootStep s .failed code) 0x0D85 .critical 0)

/- ROM and the references. -/

/-- ROM judges both inputs (R51 to R53): HIVE_REF first, then LOCAL_REF; with neither, it checks again every 10 ms. -/
def refCheck (s : State) (hiveOk localOk : Bool) : State :=
  let s := checkRefs (seeRefs s hiveOk localOk)
  if hiveOk || localOk then
    let s := { s with syn.refSel := if hiveOk then .hive else .localRef, syn.refFound := true }
    onLoop s .b (fun x => { x with ld := .acquire, viol := [] })
  else { s with syn.checksFailed := s.syn.checksFailed + 1 }

/-- ROM has read the fuses and judged the references (Table 2.3, Table 2.4): CLOCKING, on the reference selected or waiting for one. -/
def romSelect (s : State) : State :=
  if s.hi.readiness = .rom ∧ s.pwr.keeper = true then
    bootStep s .clocking (if s.syn.refFound then (match s.syn.refSel with | .hive => 0x10 | .localRef => 0x11) else 0x1F)
  else s

/-- Keeper works on while no command comes (Table 2.4): ROM ends its reading of the fuses and the reference selection, an image that has been
read is verified, and initialised channels are trained. DESIGN CHOICE (log 19): this is what a step on an empty queue does. -/
def tick (s : State) : State :=
  if alive s = true ∧ s.pwr.keeper = true then
    match s.hi.readiness, s.hi.progress with
    | .rom, _ => romSelect s
    | .fwVerify, 0x20 => { s with hi.progress := 0x21 }
    | .fwVerify, 0x22 => { s with hi.progress := 0x23 }
    | .memory, 0x40 => { s with hi.progress := 0x41 }
    | _, _ => s
  else s

/-- ROM_START (Table 2.1, R45): Keeper starts, reads the fuses and judges the references; after a warm reset with PLL-B locked the
CLOCKING step passes at once. -/
def execRomStart (hiveOk localOk : Bool) (s : State) : Host.Outcome State Fault Refusal :=
  .next (
    if alive s ∧ s.pwr.keeper = false then
      let s := { s with pwr.keeper := true, pwr.hwRst := false }
      if s.syn.bLocked then bootStep s .clocking 0x12 else bootStep (refCheck s hiveOk localOk) .rom 0x01
    else s)

/-- REFERENCE_RECHECK (R51): every 10 ms while no reference is valid. -/
def execReferenceRecheck (hiveOk localOk : Bool) (s : State) : Host.Outcome State Fault Refusal :=
  .next (
    if alive s ∧ s.pwr.keeper = true ∧ (s.hi.readiness = .rom ∨ s.hi.readiness = .clocking) ∧ s.syn.refFound = false ∧
        s.syn.bLocked = false then
      romSelect (bootStep (refCheck s hiveOk localOk) .rom 0x01)
    else s)

/-- PLL-B enters LOCKED (R66): the first lock starts the safe clock, raises RAIL_EN and powers HIF (R30, R435); a later one ends a
holdover (R104). -/
def lockB (s : State) : State :=
  let s := onLoop s .b (fun x => { x with ld := .locked, viol := [] })
  if s.syn.bLocked then { s with syn.holdover := false, syn.holdBeats := 0 }
  else bootStep { s with syn.bLocked := true, syn.src := .safe, pwr.railEn := true } .clocking 0x12

/-- LOCK_ACQUIRED (R66): the loop is in ACQUIRE; PLL-B first needs the reference that ROM selects (R51). -/
def execLockAcquired (x : LoopLock) (s : State) : Host.Outcome State Fault Refusal :=
  .next (
    if alive s ∧ (loopAt s x.loop).ld = .acquire then
      match x.loop with
      | .b => if s.syn.refFound then lockB s else s
      | l => coreLocked s l x.vt
    else s)

/-- PLL_B_LOCK_TIMEOUT (Table 2.3): not locked 2 ms after the check that first finds a reference valid. The detector goes on
acquiring, since Table 3.3 gives FAILED to the core loops only. -/
def execPllBLockTimeout (s : State) : Host.Outcome State Fault Refusal :=
  .next (
    if alive s ∧ s.pwr.keeper = true ∧ (s.hi.readiness = .rom ∨ s.hi.readiness = .clocking) ∧ s.syn.refFound = true ∧
        s.syn.bLocked = false then
      bootFail (romSelect s) 0x80 (romSelect s).hi.progress
    else s)

/- HIF and the link. -/

/-- HIF_POWER_GOOD (Table 2.1, R435, R444): the boot NOR is opened; the link trains unless PERST# holds it in reset. -/
def execHifPowerGood (s : State) : Host.Outcome State Fault Refusal :=
  .next (
    if alive s ∧ s.pwr.keeper = true ∧ s.pwr.hif = false ∧ s.pwr.railEn = true ∧ s.hi.readiness = .clocking ∧ s.syn.bLocked = true then
      bootStep { s with pwr.hif := true, hi.link := !s.hi.perst } .fwVerify 0x20
    else s)

/-- PERST_DEASSERT (R444): the link trains once HIF is powered. -/
def execPerstDeassert (s : State) : Host.Outcome State Fault Refusal :=
  .next (if s.hi.perst then { s with hi.perst := false, hi.link := alive s && s.pwr.hif } else s)

/-- CONFIG_REQUEST (R32, R308, R310): answered with Configuration Request Retry Status until the function is configuration-ready.
bme is what a write of the Command register puts into Bus Master Enable; once it is set, what waits is written (R328). -/
def execConfigRequest (bme : Option Bool) (s : State) : Host.Outcome State Fault Refusal :=
  .next (
    if alive s ∧ s.pwr.hif = true ∧ s.hi.link = true ∧ s.hi.perst = false then
      let s := { s with hi.crs := !s.hi.cfgReady }
      match s.hi.cfgReady, bme with
      | true, some b => if b then hostBack { s with hi.bme := true } else { s with hi.bme := false }
      | _, _ => s
    else s)

/- Firmware images. -/

/-- Verified firmware starts (R32, R42): CRS ends. -/
def firmwareStart (s : State) (img : ImageInfo) : State :=
  let b := s.hi.tryingB
  let v := imageVersion img
  let s := if b then { s with fw.verB := v } else { s with fw.verA := v }
  let s := bootStep { s with
    fw.board := img.board
    us.periodS := if 60 ≤ img.board.scrubS ∧ img.board.scrubS ≤ 86400 then img.board.scrubS else Config.scrubPeriodDefault
    hi.fwRuns := true, hi.imageB := b, hi.fwMajor := img.major % 256, hi.fwMinor := img.minor % 256, hi.fwBuild := img.build % 65536,
    hi.cfgReady := true } .fwVerify 0x24
  if b then raise s 0x0D81 .major 0 else s

/-- Both images have failed (R43). -/
def recoveryEntry (s : State) : State :=
  let s := bootStep { s with hi.failStep := 0x23, hi.recovery := true, hi.cfgReady := true } .recovery 0x70
  bootRecordWrite (raise s 0x0D82 .critical 0)

/-- IMAGE_VERIFY_COMPLETE (R42): img is what the verification finds; an image in a slot that a load invalidated cannot verify. -/
def execImageVerifyComplete (img : ImageInfo) (s : State) : Host.Outcome State Fault Refusal :=
  .next (
    if alive s ∧ s.pwr.keeper = true ∧ s.hi.readiness = .fwVerify ∧ s.hi.fwRuns = false then
      if imageOk img && !ballsTaken s && !slotBad s (bit1 s.hi.tryingB) then firmwareStart s img
      else if s.hi.tryingB then recoveryEntry { s with hi.imageBFail := true }
      else bootStep { s with hi.imageAFail := true, hi.tryingB := true } .fwVerify 0x22
    else s)

/- The main domains. -/

/-- Every main domain is powered or disabled by BIST (Table 2.3, R37). -/
def domainsUp (s : State) : Bool :=
  s.hi.window == 9 && (List.range 4).all (fun q =>
    vget s.pwr.cb q false && !vget s.hi.bist q false && (vget s.pwr.quad q false || vget s.hi.quadOff q false))

/-- DOMAINS ends once every main domain is power-good or disabled: external memory initialisation starts (Table 2.3). -/
def domainsDone (s : State) : State := if s.hi.readiness = .domains ∧ domainsUp s = true then bootStep s .memory 0x40 else s

/-- The domain of a window powers up (Table 2.1): a quadrant runs BIST, unless a thermal trip holds it down (R427); a Comb slice is
zero-filled. -/
def domainPower (s : State) (w : Nat) : State :=
  if w < 4 then
    if s.pwr.tripped then s
    else { s with pwr.quad := vput s.pwr.quad w true, hi.bist := vput s.hi.bist w true, pwr.thermTrip := false, pwr.rebist := false }
  else if w < 8 then
    { s with pwr.cb := vput s.pwr.cb (w - 4) true
             cmb.mem := s.cmb.mem.eraseRange (combAddr (w - 4) 0 0) (combAddr (w - 3) 0 0) }
  else { s with pwr.xmi := true }

/-- DOMAIN_WINDOW (R31, Table 2.1): the windows come in order; the Heartwood scan ends before the CB0 window (R405). -/
def execDomainWindow (s : State) : Host.Outcome State Fault Refusal :=
  .next (
    let w := s.hi.window
    if alive s ∧ s.pwr.keeper = true ∧ s.hi.fwRuns = true ∧ (s.hi.readiness = .fwVerify ∨ s.hi.readiness = .domains) ∧ w < 9 ∧
        (w < 4 ∨ s.hw.scanned = true) then
      domainsDone (bootStep { domainPower s w with hi.window := w + 1 } .domains (0x30 + w))
    else s)

/-- QUADRANT_BIST_COMPLETE (R35, R47): a quadrant whose BIST fails is disabled and powered down; with all four disabled the device
enters FAILED. -/
def execQuadrantBistComplete (q : Quad) (ok : Bool) (s : State) : Host.Outcome State Fault Refusal :=
  .next (
    if alive s ∧ vget s.hi.bist q.val false = true then
      let s := { s with hi.bist := vput s.hi.bist q.val false, hi.quadOff := vput s.hi.quadOff q.val (!ok) }
      if ok then domainsDone s
      else
        let s := raise (quadDown s q.val) 0x0D83 .major 0
        if (List.range 4).all (fun k => vget s.hi.quadOff k false) then bootFail s 0x82 (0x30 + q.val) else domainsDone s
    else s)

/-- A channel that fails training is disabled, with event 0x0D86 (R36). -/
def channelEvents (s : State) (ok : BitVec 8) : State :=
  forUpto 8 (fun s i => if ok.getLsbD i then s else raise s 0x0D86 .major 0) s

/-- LPDDR_TRAINING_COMPLETE (R36, Table 2.3): the channels that trained, bit by bit; none trains by a board record outside the options
of Table 10.1 (R232). -/
def execLpddrTrainingComplete (ok : BitVec 8) (s : State) : Host.Outcome State Fault Refusal :=
  .next (
    if alive s ∧ s.pwr.keeper = true ∧ s.hi.readiness = .memory ∧ s.pwr.xmi = true then
      let ok := if wfBoard s.fw.board then ok else 0#8
      let s := channelEvents { s with xm.chanOk := ok.toNat, xm.rate := s.fw.board.rate % 4, syn.xmDiv := s.fw.board.rate % 4 } ok
      if ok = 0#8 then bootFail s 0x83 0x41
      else
        bootStep { s with xm.trained := true } .links
          (if (List.range 20).any (fun p => (portAt s p).st == .training) then 0x51 else 0x50)
    else s)

/-- A port that power-up still waits for (R37). -/
def portPending (x : Port) : Bool := x.st == .off || x.st == .listen || x.st == .training

/-- The conditions of R37. -/
def readyNow (s : State) : Bool :=
  s.hi.readiness == .links && s.hi.fwRuns && domainsUp s && s.xm.trained && s.hl.port.toList.all (fun x => !portPending x)

/-- READY_REACHED (R37, R40): at the edge that comes, in the last slot of the beat; us is the time from the anchor. -/
def execReadyReached (us : Nat) (s : State) : Host.Outcome State Fault Refusal :=
  .next (
    if edgeNear s = true ∧ readyNow s = true then
      atEdge s (fun s _ =>
        bootRecordWrite (raise (bootStep { s with hi.bootUs := min us (2 ^ 32 - 1) } .ready 0x60) 0x0D80 .info 0))
    else s)

end Sys2Proof.Machine
end

