-- ==== Sys2Proof/Machine/Resets.lean ====
section
/-! DEFINITION. The kinds of reset (R44 to R50, Table 2.7) and the supply of AON (R434 to R438, R444): cold, warm, PCIe hot,
function-level and quadrant resets, power failure and brown-out. HIVE_RESET is in Staged.lean. -/

namespace Sys2Proof.Machine

open Sys2Proof

/- Heartwood at a reset. -/

/-- A record of which only COPY 0 was programmed when Keeper stopped is read as committed (R402). -/
def hwHalf (s : State) : State :=
  match s.hw.queue with
  | r :: rest =>
    if s.hw.copy0 then
      let a := hwHeadA s
      let s := hwNor (hwWrite s r.typ r.payload) r
      { s with
        hw.queue := rest, hw.copy0 := false
        hw.log := s.hw.log.mapIdx (fun i x => if i + 1 = s.hw.log.length then { x with blks := [a] } else x) }
    else s
  | [] => s

/-- What a reset of Keeper leaves of the writer's state: nothing waits, and the NOR is scanned again (R405, R455). -/
def hwKeeperReset (s : State) (cause : Nat) : State :=
  { s with
    hw.online := false, hw.scanned := false, hw.queue := [], hw.spill := [], hw.states := [], hw.copy0 := false
    hw.erasing := none, hw.attempts := 0, hw.bootRecDue := true, hw.bootCause := cause }

/-- The queue is lost at a forced warm reset; the event records in it are counted after the restart (R455). -/
def hwQueueLost (s : State) : State :=
  let s := hwHalf s
  { s with hw.lostAtReset := s.hw.lostAtReset + hwEventsWaiting s }

/- Cold reset. -/

/-- The Heartwood NOR across a cold reset: its contents stay, one more boot is counted, and AON's part starts again (Table 2.7). -/
def hwCold (h : Hw) : Hw :=
  { h with
    online := false, scanned := false, loaded := false, queue := [], spill := [], states := [], copy0 := false, boot := h.boot + 1,
    lost := 0, erasePct := 0, retries := [], wearBeat := none, erasing := none, attempts := 0, lostAtReset := 0,
    bootRecDue := true, bootCause := 0 }

/-- COLD_RESET (R5, R48, Table 2.7, Table 18.6): every register takes its reset value. Kept: both NORs, the pins, the TAP, and what
lies outside the part: the host's memory, and the commands that wait. External memory reads as lost. -/
def coldReset (s : State) : State :=
  { State.reset with
    pending := s.pending
    freeCtr := s.freeCtr
    jtag := s.jtag
    xm := { Xm.init with epoch := s.xm.epoch + 1 }
    hi := { Hi.init with perst := s.hi.perst, hostMem := s.hi.hostMem, signals := s.hi.signals, readData := s.hi.readData }
    hw := hwCold s.hw
    fw := { s.fw with session := none, verA := 0, verB := 0, board := Fw.init.board } }

/-- AON_POWER_GOOD (R434): a rising edge of AON_PWRGD with VDD_AON in range is a cold reset, the anchor of Table 2.1. -/
def execAonPowerGood (s : State) : Host.Outcome State Fault Refusal :=
  .next (
    if s.pwr.pwrgd then s
    else if s.pwr.brown then { s with pwr.pwrgd := true }
    else coldReset s)

/-- No domain has power, and nothing runs (R436, R438). -/
def allOff (s : State) : State :=
  { s with
    pwr.quad := Vector.replicate 4 false, pwr.cb := Vector.replicate 4 false, pwr.cbRet := Vector.replicate 4 false
    pwr.lnk := false, pwr.xmi := false, pwr.hif := false, pwr.railEn := false, hi.link := false
    cmb.ctx := s.cmb.ctx.map (fun c => { c with insts := [] }) }

/-- AON is down: every domain stops at once and no commit is made (R438). -/
def aonDown (s : State) : State :=
  let s := allOff (hwHalf s)
  { s with pwr.on := false, pwr.stopped := false, pwr.keeper := false, pwr.thermTrip := false, beat.running := false }

/-- AON_POWER_GOOD_FALL (R435, R436). -/
def execAonPowerGoodFall (s : State) : Host.Outcome State Fault Refusal :=
  .next (if s.pwr.pwrgd then { aonDown s with pwr.pwrgd := false } else s)

/-- AON_BROWN_OUT (R438): VDD_AON below 0.68 V for 1 µs counts as a fall of AON_PWRGD. -/
def execAonBrownOut (s : State) : Host.Outcome State Fault Refusal :=
  .next (if s.pwr.brown then s else { aonDown s with pwr.brown := true })

/-- AON_SUPPLY_RECOVERY (R438): VDD_AON back within its range for 1 ms is a rise of AON_PWRGD if that is high. -/
def execAonSupplyRecovery (s : State) : Host.Outcome State Fault Refusal :=
  .next (
    if s.pwr.brown then
      if s.pwr.pwrgd then coldReset s else { s with pwr.brown := false }
    else s)

/-- POWER_FAIL_WARNING (R437, R406): every switched domain opens and RAIL_EN falls; Keeper commits, provided verified firmware runs;
then nothing runs further. -/
def execPowerFailWarning (s : State) : Host.Outcome State Fault Refusal :=
  .next (
    if alive s then
      let s := allOff s
      let s := if s.hi.fwRuns then hwPowerFail s else hwHalf s
      { s with pwr.stopped := true, pwr.keeper := false, beat.running := false }
    else s)

/- Warm reset. -/

/-- A loop across a warm reset: disabled, and still out of service if it was (R83, R80). -/
def loopWarm (x : LoopSt) : LoopSt :=
  { LoopSt.init with lol := x.lol, lolBeats := x.lolBeats, out := x.out, bandOk := x.bandOk, pumpOk := x.pumpOk }

/-- The synthesiser across a warm reset (R83): PLL-B stays as it is, the core runs from the safe clock. -/
def synWarm (x : Syn) : Syn :=
  { x with
    c0 := loopWarm x.c0, c1 := loopWarm x.c1, src := .safe, profNow := 0, xmDiv := 0,
    prof0 := [], prof1 := [], profDue := [], hold := .none, parkSrc := .safe, lateSwap := none, baseSwapDue := false, skip := none }

/-- The beat generator across a warm reset (R45, R48): the beat and its period, the roster's rank and the counters stay. -/
def beatWarm (x : Beat) : Beat :=
  { Beat.init with
    running := x.running, num := x.num, slot := x.slot, guard := x.guard, slotTicks := x.slotTicks, usSlots := x.usSlots,
    table := x.table, masterEn := x.masterEn, ownRank := x.ownRank, jumps := x.jumps, excluded := x.excluded,
    steerLim := x.steerLim, elections := x.elections, parentChg := x.parentChg, phaseAt := x.phaseAt,
    phaseBefore := x.phaseBefore, edges := x.edges }

/-- The Comb controller across a warm reset: contents and plans cleared; the fit mode (R118), the retired pages in Heartwood's list
(R131) and the counters stay. -/
def cmbWarm (x : Cmb) : Cmb := { Cmb.init with rotate := x.rotate, ce := x.ce, ue := x.ue, rebuilt := x.rebuilt, retired := x.retired }

/-- A quadrant across a warm reset: only the JN_, ARR_, FUS_ and RCS_ counters stay (R158, R188, R211, R228, Table 17.1). -/
def quadWarm (x : QuadSt) : QuadSt :=
  { QuadSt.init with
    jnPasses := x.jnPasses, jnBoundx := x.jnBoundx, jnFmtx := x.jnFmtx, jnSaved := x.jnSaved, jnPairs := x.jnPairs,
    arrUnder := x.arrUnder, arrSatx := x.arrSatx, arrStall := x.arrStall, arrSaves := x.arrSaves, arrRestores := x.arrRestores,
    fusTiles := x.fusTiles, fusQsatx := x.fusQsatx, fusPoisonx := x.fusPoisonx, fusFwd := x.fusFwd, fusFwdDrop := x.fusFwdDrop,
    rcsChunks := x.rcsChunks, rcsRenorm := x.rcsRenorm, rcsEarly := x.rcsEarly, rcsSkipx := x.rcsSkipx }

/-- The sync objects across a warm reset: the SO_ counters stay (R274). -/
def soWarm (x : So) : So :=
  { So.init with orderx := x.orderx, timeoutx := x.timeoutx, nownx := x.nownx, stale := x.stale, stray := x.stray }

/-- An arbiter across a warm reset: its counters stay (R274). -/
def arbWarm (x : Arb) : Arb :=
  { Arb.init with pqfull := x.pqfull, wdog := x.wdog, displace := x.displace, grants := x.grants, lastGrant := x.lastGrant }

/-- The host interface across a warm reset (Table 2.7, R48): the completion backlog and the HI_ counters lie in AON (R332). -/
def hiWarm (x : Hi) (cause : Nat) : Hi :=
  { Hi.init with
    overruns := x.overruns, lates := x.lates, accessErr := x.accessErr, drop := x.drop, badTlp := x.badTlp, flushed := x.flushed,
    admitted := x.admitted, evrLost := x.evrLost, evrLostNew := x.evrLostNew, cold := x.cold, quadRst := x.quadRst, hiveRst := x.hiveRst, flr := x.flr,
    perstRst := x.perstRst, hot := x.hot, warm := cause, perst := x.perst, lastPop := x.lastPop, evSeq := x.evSeq,
    raised := x.raised, backlog := x.backlog, backlogCnt := x.backlogCnt, hostMem := x.hostMem, signals := x.signals, readData := x.readData }

/-- Grafts, presence and seal across a warm reset: every open and staged graft is discarded, and presence, seal and the counters stay
(R380, Table 17.1). -/
def grWarm (x : Gr) : Gr := { x with opened := Vector.replicate 4 none, staged := [] }

/-- The mailboxes across a warm reset: all four return to IDLE, and Keeper's state is cleared (R354, Table 2.7); the counters stay
(Table 17.1). -/
def wgWarm (x : Wg) : Wg :=
  { Wg.init with
    skipped := x.skipped
    mb := x.mb.map (fun b => { Mbox.init with
      accepted := b.accepted, refused := b.refused, superseded := b.superseded, frameErr := b.frameErr, ringBusy := b.ringBusy }) }

/-- External memory across a warm reset: its contents are lost, and the XM_ counters stay (R249, Table 2.7). -/
def xmWarm (x : Xm) : Xm :=
  { Xm.init with epoch := x.epoch + 1, eccUe := x.eccUe, eccCe := x.eccCe, dlmissCnt := x.dlmissCnt }

/-- The power block across a warm reset (R45, R416): every switched domain is off and the device returns to Active. -/
def pwrWarm (x : Pwr) : Pwr :=
  { x with
    quad := Vector.replicate 4 false, cb := Vector.replicate 4 false, lnk := false, xmi := false, hif := false,
    cbRet := Vector.replicate 4 false, target := .active, st := .active, idle := 0, waking := none, rebist := false, cbLow := false,
    keeper := false }

/-- A chunk in progress is aborted (R229): event 0x0707. -/
def chunkAbort (s : State) (q : Nat) : State :=
  if (quadAt s q).chunk.isSome then
    raise (onQuad s q (fun x => { x with chunk := none, rcsAborted := true })) 0x0707 .major 0
  else s

/-- Every port loses its power and forgets its training; its counters and its roster neighbour stay (R45, R306). -/
def portsWarm (s : State) : State :=
  let s := lnkDown s
  { s with
    hl.port := s.hl.port.map (fun x => { x with quick := false, fence := 0, lastMs := 0, dropBeats := [] })
    hl.keeperMsgs := [], hl.haltSeen := [], hl.msgNo := 0 }

/-- WARM_RESET (R45, R48, Table 2.7) with its cause: all but AON, and Keeper restarts from ROM. -/
def warmReset (s : State) (cause : Nat) : State :=
  let s := forUpto 4 chunkAbort s
  let s := hwKeeperReset (portsWarm s) cause
  { s with
    syn := synWarm s.syn
    beat := beatWarm s.beat
    cmb := cmbWarm s.cmb
    quad := s.quad.map quadWarm
    streams := []
    xm := xmWarm s.xm
    bl := { Bl.init with dfree := s.bl.dfree, nown := s.bl.nown }
    so := soWarm s.so
    arb := s.arb.map arbWarm
    hi := hiWarm s.hi cause
    wg := wgWarm s.wg
    gr := grWarm s.gr
    us := { s.us with cal := s.us.cal.map (fun e => (e.1, { e.2 with running := false })) }
    pwr := pwrWarm s.pwr
    fw := { s.fw with session := none } }

/-- WARM_RESET that Keeper starts itself, after RESET_WARM (R50, R348) or a recovery load (R43): its round is over, and it commits
the records of its queue first (R455). -/
def execWarmReset (s : State) : Host.Outcome State Fault Refusal :=
  .next (
    match s.hi.warmDue with
    | some c => if alive s ∧ s.pwr.keeper = true ∧ keeperFree s = true then warmReset (hwFlush s) c else s
    | none => s)

/-- A warm reset that Keeper's hardware forces (R335, R455): event 0x0D84 after the restart. -/
def forcedReset (s : State) (cause : Nat) : State :=
  if alive s ∧ s.pwr.keeper = true then raise (warmReset (hwQueueLost s) cause) 0x0D84 .major 0 else s

/-- KEEPER_WATCHDOG_EXPIRY (R335). -/
def execKeeperWatchdogExpiry (s : State) : Host.Outcome State Fault Refusal := .next (forcedReset s 2)

/-- LOCKSTEP_MISMATCH (R335). -/
def execLockstepMismatch (s : State) : Host.Outcome State Fault Refusal := .next (forcedReset s 3)

/- PCIe resets. -/

/-- A mailbox of the host at a PCIe reset (R354): RUNG is cleared without acceptance, a BUSY one finishes and its response is
discarded. -/
def hostMailbox (s : State) (m : Nat) : State :=
  let x := mbAt s m
  let serving := decide (s.wg.cur = some m)
  let s := { s with wg.order := s.wg.order.filter (fun k => k != m) }
  onMb s m (fun _ =>
    if x.st = .busy ∧ serving = true then { x with discard := true }
    else { x with st := .idle, code := 0, resp := [], part := 0, nextDue := false })

/-- The HIF state that PCIe hot reset, PERST# and FLR clear (Table 2.7, R49, R332): the Inflow queue, the MSI-X table, the masks, the
aperture and the ring setup. A DMA read in progress fails (Table 5.7). -/
def hifReset (s : State) : State :=
  let s := dmaAllFail (hostMailbox (hostMailbox s 0) 1)
  { s with
    hi.queue := [], hi.packer := [], hi.discarding := false, hi.flushPend := false, hi.overflow := false, hi.underrun := false
    hi.apPoison := false, hi.aperture := 0, hi.intMask := 15, hi.msixMask := Vector.replicate 64 true
    hi.msixPend := Vector.replicate 64 false, hi.msixTable := [], hi.evr := .init, hi.cpr := .init, hi.latch := [], hi.held := []
    hi.d3hot := false, hi.bme := false
    arb := s.arb.map (fun a =>
      { a with aperture := none, jobs := a.jobs.eraseAt 13, queue := a.queue.filter (fun e => e.id != 13) }) }

/-- PERST_ASSERT (R44, R444): the link is held in reset, and HIF is reset where it is powered. -/
def execPerstAssert (s : State) : Host.Outcome State Fault Refusal :=
  .next (
    if s.hi.perst then s
    else if alive s then
      let s := if s.pwr.hif then hifReset s else s
      { s with hi.perst := true, hi.link := false, hi.perstRst := true }
    else { s with hi.perst := true })

/-- PCIE_HOT_RESET (R44, R49): received on the link, which retrains. -/
def execPcieHotReset (s : State) : Host.Outcome State Fault Refusal :=
  .next (
    if alive s ∧ s.pwr.hif = true ∧ s.hi.link = true ∧ s.hi.perst = false then { hifReset s with hi.hot := true } else s)

/-- FUNCTION_LEVEL_RESET (R44, R49): through the configuration space of a function that answers; the link stays up. -/
def execFunctionLevelReset (s : State) : Host.Outcome State Fault Refusal :=
  .next (
    if alive s ∧ s.pwr.hif = true ∧ s.hi.link = true ∧ s.hi.perst = false ∧ s.hi.cfgReady = true then
      { hifReset s with hi.flr := true }
    else s)

/- Quadrant reset. -/

/-- An instance of a batch has work on a quadrant in the beat that begins at edge e: left over, or in its slot program (R47). -/
def quadWork (s : State) (q c adm e : Nat) : Bool :=
  let x := quadAt s q
  let open' (a : AccSet) : Bool := a.opened && a.ctx == c && a.adm == adm
  x.todo.any (fun t => t.ctx == c && t.adm == adm) || x.run.any (fun r => r.ctx == c && r.adm == adm) ||
    x.chunk.any (fun r => r.ctx == c && r.adm == adm) || open' x.setA || open' x.setB ||
    (progsOf (ctxAt s c)).any (fun p => p.quad == q && p.slots.any (fun o => o.1 / 128 + adm == e && !o.2.isEmpty))

/-- The batches with work on a quadrant in the beat of its reset are invalidated, whatever their overrun policy (R47). -/
def quadInvalid (s : State) (q e : Nat) : State :=
  (batches s).foldl (fun s b =>
    if quadWork s q b.1 b.2 e && !batchDone s b.1 b.2 e then
      onCtx s b.1 (fun x => { x with insts := x.insts.map (fun i =>
        if i.admitBeat = b.2 then { i with stopped := true, faults := { i.faults with invalid := true } } else i) })
    else s) s

/-- QUADRANT_RESET at beat edge e (R47, Table 2.7): the domain's state is cleared with the flags of its blocks, its counters stay,
and it runs BIST. -/
def quadReset (s : State) (q e : Nat) : State :=
  let s := chunkAbort (quadInvalid s q e) q
  let s := onQuad (quadClear s q) q (fun x =>
    { x with
      jnPoison := false, jnBound := false, jnFmt := false, arrCtxErr := false, arrPoison := false, arrNan := false, arrInf := false,
      arrLost := false, arrSat := false, fusRecord := false, fusDrop := false, fusMix := false, fusGather := false,
      fusPoisonOut := false, resetDue := false, resetAt := some e })
  let s := { s with hi.quadRst := vput s.hi.quadRst q true }
  if s.pwr.tripped then s else { s with pwr.quad := vput s.pwr.quad q true, hi.bist := vput s.hi.bist q true }

/-- QUADRANT_RESET: at the edge that comes, in the last slot of the beat, where RESET_QUAD has asked for it, or where Keeper has found a
quadrant fault (Table 2.6). DESIGN CHOICE (log 115): the spec names no fault that does so, and Keeper's finding comes with the command;
a quadrant that BIST has disabled stays so. -/
def execQuadrantReset (x : QuadFault) (s : State) : Host.Outcome State Fault Refusal :=
  .next (
    let q := x.quad.val
    if edgeNear s ∧ ((quadAt s q).resetDue = true ∨ (x.fault = true ∧ s.pwr.keeper = true ∧ vget s.hi.quadOff q false = false)) then
      atEdge s (fun s e => quadReset s q e)
    else s)

end Sys2Proof.Machine
end

