-- ==== Sys2Proof/Machine/Edge.lean ====
section
/-! DEFINITION. The beat (chapter 1): the slot boundary (R16, R24 to R26), the slot guard with its clock swaps (R16, R76, R77, R457), and
the beat edge with all of Keeper's edge work in its order (R15, R21, R342). -/

namespace Sys2Proof.Machine

open Sys2Proof

/- Slots. -/

/-- The feeder thread that a plan's thread stands for on a quadrant (log 41). -/
def planThread (c : PlanCtx) (q i : Nat) : Nat := (c.threads.getD q []).getD i i

/-- A feed with the plan's threads replaced by those it has taken. -/
def placeFeed (c : PlanCtx) (q : Nat) (d : FeedDesc) : FeedDesc :=
  { d with thread := planThread c q d.thread, src := d.src.map (planThread c q) }

/-- An operation with the plan's threads replaced by those it has taken. -/
def placeOp (c : PlanCtx) (q : Nat) : ProgOp → ProgOp
  | .pass d => .pass { d with feed := planThread c q d.feed, resid := d.resid.map (planThread c q), out := d.out.map (planThread c q) }
  | .chunk d => .chunk { d with inThread := planThread c q d.inThread, out := d.out.map (planThread c q) }
  | .save n i => .save n (planThread c q i)
  | .restore n i => .restore n (planThread c q i)
  | .recordAdd a n i => .recordAdd a n (planThread c q i)
  | o => o

/-- The operations of a quadrant's slot program that a batch runs in the slot that begins (R24). -/
def slotOps (s : State) (q c adm : Nat) : List ProgOp :=
  let k := 128 * (s.beat.num - adm) + s.beat.slot
  (progsOf (ctxAt s c)).flatMap (fun p => if p.quad = q then
    ((opsAt p k).filter (fun o => !isFeed o)).map (placeOp (ctxAt s c) q) else [])

/-- A feed names a buffer that ALLOC gives. -/
def isVar (d : FeedDesc) : Bool :=
  match d.addr with
  | .var _ _ => true
  | _ => false

/-- The feeds of a quadrant's slot program that join their threads in the slot that begins, wherever the program names them (R235,
R241): the first feed of a thread at the admission edge, where it waits for its START slot, and a further one, or one that names a buffer
of ALLOC, at its own. -/
def slotFeeds (s : State) (q c adm : Nat) : List FeedDesc :=
  let k := 128 * (s.beat.num - adm) + s.beat.slot
  let start (d : FeedDesc) : Nat := 128 * d.startBeat + d.startSlot
  (progsOf (ctxAt s c)).flatMap (fun p => if p.quad = q then
    let all := feedsOf p
    (all.filter (fun d =>
      if all.all (fun e => e.thread != d.thread || decide (start d ≤ start e)) && !isVar d then k == 0 else k == start d)).map (placeFeed (ctxAt s c) q)
    else [])

/-- The batches of a context that still work on a quadrant (R47, R264). -/
def liveBatches (s : State) (q c : Nat) : List Nat :=
  if (quadAt s q).resetAt = some s.beat.num then []
  else ((ctxAt s c).insts.map (fun i => i.admitBeat)).eraseDups.filter (fun adm => !(quadAt s q).stopped.contains (c, adm))

/-- The feeds that a slot brings join those that wait for their threads (R235), whoever owns the slot. -/
def slotArms (s : State) (q : Nat) : State :=
  let new := (List.range 4).flatMap (fun c => (liveBatches s q c).flatMap (fun adm => (slotFeeds s q c adm).map (fun d =>
    ({ ctx := c, adm := adm, d := d,
       ahead := if (quadAt s q).todo.any (fun t => t.ctx == c && usesThread d.thread t.op) then (quadAt s q).todo.length else 0 }
      : FeedDue))))
  onQuad s q (fun x => { x with feeds := x.feeds ++ new })

/-- The planned work of a slot joins what a quadrant still has to do (R24, R25): the first operation is late where earlier work still
runs. A quadrant in the beat of its reset runs none (R47), and neither does an instance that has stopped there (R264). -/
def slotWork (s : State) (q : Nat) : State :=
  let c := descOwner (descAt s s.beat.slot) q
  if 4 ≤ c then s
  else
    let new := (liveBatches s q c).flatMap (fun adm =>
      (slotOps s q c adm).map (fun o => ({ ctx := c, adm := adm, op := o, late := false } : Todo)))
    onQuad s q (fun x =>
      { x with todo := x.todo ++ (match new with
        | t :: r => { t with late := !x.todo.isEmpty } :: r
        | [] => []) })

/-- What happens at the boundary at which a slot begins (R16; R26, with event 0x0203 for each quadrant that yields; R235, R238, R290, R69). -/
def slotBegin (s : State) : State :=
  let reserved := descGuaranteed (descAt s s.beat.slot)
  let s := forUpto 4 (fun s q =>
    let yields := reserved && !(quadAt s q).todo.isEmpty
    let s := slotWork (onQuad (slotArms s q) q (fun x => { x with yielded := yields })) q
    if yields then raise s 0x0203 .minor 0 else s) s
  let s := threadBoundary (forUpto 4 advanceAll s)
  applySteer (forUpto 20 portFlush s) s.beat.slot

/-- SLOT_BOUNDARY (R16): the next slot begins, up to slot 127. -/
def execSlotBoundary (s : State) : Host.Outcome State Fault Refusal :=
  .next (
    if alive s ∧ s.beat.running = true ∧ s.beat.guard = true ∧ s.beat.slot < 127 then
      slotBegin { s with beat.slot := s.beat.slot + 1, beat.guard := false }
    else s)

/- The table of the coming edge (R457). -/

/-- A staged change that falls due by an edge changes the slot table, or releases a clock hold. -/
def changeDue (s : State) (e : Nat) : Bool :=
  s.gr.staged.any (fun g => decide (g.nextEdge ≤ e) &&
    ((g.phases.head?.map (fun p => p.members)).getD []).any (fun m =>
      m.op == 0x102 || m.op == 0x103 || (m.op == 0x202 && leAt m.payload 0 1 == 0)))

/-- A DRAINING plan leaves the table at an edge: each instance ends there, by its beats while the beat still runs, and by its work once
the guard of slot 127 has come. -/
def drainsBy (s : State) (k e : Nat) (exact : Bool) : Bool :=
  (ctxAt s k).st == .draining && (ctxAt s k).insts.all (fun i => i.stopped ||
    (if exact then batchDone s k i.admitBeat e else decide (i.admitBeat + planBeats (ctxAt s k) ≤ e)))

/-- The slot table changes at the edge (R457). -/
def tableChange (s : State) (e : Nat) (exact : Bool) : Bool :=
  changeDue s e || (List.range 4).any (fun k => drainsBy s k e exact)

/-- The machine as the edge's changes of the table leave it. -/
def edgeView (s : State) (e : Nat) (exact : Bool) : State :=
  let v := applyDue s e
  forUpto 4 (fun v k => if drainsBy v k e exact then installTable (onCtx v k (fun c => { c with st := .standby })) else v) v

/-- The new base profile that the core swaps to in the guard of slot 127, where the coming edge changes it (R457). -/
def edgeSwap (s : State) (exact : Bool) : Option Nat :=
  if tableChange s (edgeNum s) exact then
    let v := edgeView s (edgeNum s) exact
    match v.syn.hold, baseProfile v with
    | .none, some b => if drive s = .safe ∨ s.syn.profNow ≠ b then some b else none
    | _, _ => none
  else none

/-- The idle loop is prepared for the coming edge (R457): for the new base profile, or for the first HOP of the new table. -/
def prepareEdge (s : State) : State :=
  if tableChange s (edgeNum s) false then
    match idleLoop s, edgeSwap s false with
    | none, _ => s
    | some l, some b => retarget s l b .hop (some 128)
    | some l, none =>
      let v := edgeView s (edgeNum s) false
      match v.syn.hold, nextHopAfter (hops v) 127 with
      | .none, some h => if baseProfile v = none then s else retarget s l h.2 .hop (some h.1)
      | _, _ => s
  else s

/-- The HOP of slot n meets its guard; after the last swap of the beat the coming edge is prepared (R457). -/
def hopAt (s : State) (n : Nat) : State :=
  if descHop (descAt s n) then
    let s := hopGuard s n (descProfile (descAt s n))
    if ((hops s).getLast?.map (fun h => h.1)) = some n then prepareEdge s else s
  else s

/-- The swaps of a guard (R76, R77, R457): a late hop, and then the HOP of the slot that comes or the swap at the edge. In Park, and
under a hold, no HOP is made (Table 3.7, R86). -/
def guardSwaps (s : State) : State :=
  let n := s.beat.slot + 1
  let run := s.syn.hold == .none && s.syn.src != .gated
  let s := if run then lateHopSwap s s.beat.slot else s
  if n = 128 then
    match s.syn.src, edgeSwap s true with
    | .gated, _ => clearSkip s 128
    | _, some b => hopGuard s 128 b
    | _, none => clearSkip s 128
  else if run then hopAt s n
  else clearSkip s n

/-- SLOT_GUARD_START (R16): the last 16 core cycles of a slot. -/
def execSlotGuardStart (s : State) : Host.Outcome State Fault Refusal :=
  .next (if alive s ∧ s.beat.running = true ∧ s.beat.guard = false then { guardSwaps s with beat.guard := true } else s)

/- The beat edge. -/

/-- The plans that UNLOAD release their resources (R119). -/
def unloadEdge (s : State) : State := forUpto 4 (fun s k => if (ctxAt s k).st = .unloading then releasePlan s k else s) s

/-- The idle table runs while no plan is in the table (R21). -/
def idleInstall (s : State) : State :=
  if (ctxsWhere s (fun _ c => c.st.inTable)).isEmpty && (!s.beat.table.isEmpty || s.beat.usSlots != 6) then installTable s else s

/-- Steps 1 and 2 of R342 at edge e: overruns are judged, the edge's changes apply, and what has ended completes. -/
def edgeClose (s : State) (e : Nat) : State :=
  let s := applyDue (judgeEdge s e) e
  let s := idleInstall (unloadEdge s)
  let s := forUpto 4 (fun s q => if (quadAt s q).resetDue then quadReset s q e else s) s
  let s := forUpto 4 (fun s c => completeCtx s c e) (finishStopped s e)
  forUpto 4 (fun s k => if drained s k then drainDone s k else s) s

/-- Step 3 of R342: admission, after the ledger commands accepted before the edge (R248); a new instance with work on a quadrant that is reset at this edge is invalidated (R47). -/
def edgeAdmit (s : State) (e : Nat) : State :=
  let s := admission (settleLedger s) e
  forUpto 4 (fun s q => if (quadAt s q).resetAt = some e then quadInvalid s q e else s) s

/-- The rings signal what was written since the last edge (Table 13.7, R331), and the boot queue is delivered (R41). -/
def ringEdge (s : State) : State :=
  let s := bootqDeliver s
  let s := if s.hi.evr.fresh then signal { s with hi.evr := { s.hi.evr with fresh := false } } 1 else s
  if s.hi.cpr.fresh then signal { s with hi.cpr := { s.hi.cpr with fresh := false } } 2 else s

/-- Step 4 of R342: the round starts, or the edge is counted in WG_SKIPPED. No round starts once a warm reset is due (R348), in ROM
before RECOVERY (R345), or in RECOVERY before the scan has ended (R405). -/
def roundEdge (s : State) : State :=
  if s.pwr.keeper = false ∨ romAnswers s = true ∨ s.hi.warmDue.isSome = true ∨ (s.hi.readiness = .recovery ∧ s.hw.scanned = false) then s
  else if keeperFree s then startRound s
  else { s with wg.skipped := satAdd 32 s.wg.skipped 1 }

/-- The links at a beat edge (R87, R127, R282, R287, R300, R302). -/
def linkEdge (s : State) (corrected : List (PortId × Nat × Nat)) : State :=
  let s := forUpto 20 closeGroup s
  let s := { s with hl.port := s.hl.port.map (fun x => { x with uncorrBeat := 0, bad := 0 }) }
  let s := corrected.foldl (fun s w => laneCount s w.1.val w.2.1 w.2.2) s
  rebuildRequests (markersSend s)

/-- One beat more of the scrubbers' period of 1,024 beats; what its pace called for beyond what was started stays called for (R387). -/
def scrubPeriod (s : State) : State :=
  if s.us.elapsed + 1 < 1024 then { s with us.elapsed := s.us.elapsed + 1 }
  else
    { s with
      us.elapsed := 0, us.started := Vector.replicate 4 0
      us.paced := Vector.ofFn (fun (q : Fin 4) =>
        if sliceRuns s q.val then vget s.us.paced q.val 0 + (scrubPace s - vget s.us.started q.val 0) else vget s.us.paced q.val 0) }

/-- A scrubber trails its paced position by more than 983 pages (R391). -/
def scrubLate (s : State) (q : Nat) : Bool := decide (983 < vget s.us.paced q 0 + scrubDue s - vget s.us.started q 0)

/-- A scrubber that is behind shows it, and is reported once per pass (R391). -/
def scrubBehind (s : State) (q : Nat) : State :=
  let late := scrubLate s q
  let told := vget s.us.behindEv q false
  let s := if late && !told then raise s 0x1101 .minor 0 else s
  { s with us.behind := vput s.us.behind q late, us.behindEv := vput s.us.behindEv q (told || late) }

/-- The scrubbers' pace at a beat edge (R387, R391). -/
def scrubEdge (s : State) : State := forUpto 4 (fun s q => if sliceRuns s q then scrubBehind s q else s) (scrubPeriod s)

/-- The Understory times and latencies of the beat that has ended (R386, Table 10.6), and its count in its power state (Table 17.5). -/
def countEdge (s : State) (env : EdgeEnv) : State :=
  let ns (l : List Nat) : Vector Nat 4 := Vector.ofFn (fun (q : Fin 4) => min (l.getD q.val 0) (2 ^ 32 - 1))
  { s with
    us.utime := ns env.utime, us.uused := ns env.uused, us.slack := ns env.slack
    xm.latMax := min s.xm.latTop 65535, xm.latMean := min (if s.xm.latCnt = 0 then 0 else s.xm.latSum / s.xm.latCnt) 65535
    xm.latTop := 0, xm.latSum := 0, xm.latCnt := 0
    pwr.resid := vmod s.pwr.resid s.pwr.st.code (fun n => satAdd 64 n 1)
    wg.frameEv := false }

/-- Idleness, the target of R421 and the wakes that an edge triggers (R418, R419, R421). -/
def powerEdge (s : State) : State :=
  let s := retarget421 s
  wakeEdge { s with pwr.idle := if mayEnter s && idleFor s (fitState s (tolEff s)) then s.pwr.idle + 1 else 0 }

/-- The synthesiser and the phase logic at an edge (R65, R74, R76, R91 to R99, R104). -/
def clockEdge (s : State) (env : EdgeEnv) : State :=
  let s := phaseEdge (holdoverEdge s env.hiveOk env.localOk)
  settleIdle (baseSwapAtEdge (prelockRetries (profFlush (calRamps (pumpStep s)))))

/-- BEAT_EDGE at edge e: the beat number becomes e and slot 0 begins. -/
def beatEdge (s : State) (env : EdgeEnv) (e : Nat) : State :=
  let s := countEdge s env
  let s := { s with
    beat.running := true, beat.num := e, beat.slot := 0, beat.guard := false, beat.adopt := none, beat.jumpDue := 0
    beat.edges := s.beat.edges + 1, beat.phaseBefore := s.beat.phaseAt, beat.phaseAt := s.syn.phase }
  let s := jumpEdge s
  let s := powerQuads (combEdge (edgeClose s e))
  let s := edgeAdmit s e
  let s := linkEdge (clockEdge s env) env.corrected
  let s := thermalEdge (tempEdge (scrubEdge s) env.temps)
  let s := roundEdge (ringEdge (powerEdge s))
  let s := slotBegin s
  if (hops s).isEmpty || s.syn.hold != .none || s.syn.src == .gated then prepareEdge s else s

/-- BEAT_EDGE (R15): the first edge after PLL-B locks is beat number 0; every later one ends slot 127 and its guard. -/
def execBeatEdge (env : EdgeEnv) (s : State) : Host.Outcome State Fault Refusal :=
  .next (
    if alive s = false then s
    else if s.beat.running = false then (if s.syn.bLocked then beatEdge s env 0 else s)
    else if s.beat.slot = 127 ∧ s.beat.guard = true then beatEdge s env (edgeNum s)
    else s)

end Sys2Proof.Machine
end

