-- ==== Sys2Proof/Machine/Queries.lean ====
section
/-! DEFINITION. The queries (Advisory, R10): each answers OK with register words in ascending order, little-endian, and what else its
row of the chapter names (layouts: log 40). A query reads without the effects of a host read (R7). -/

namespace Sys2Proof.Machine

open Sys2Proof

/-- The defined words among n words from a BAR0 offset. -/
def regRun (s : State) (base n : Nat) : List Byte :=
  (List.range n).flatMap (fun i => match readReg s (base + 4 * i) with
    | some w => leBytes 4 w.toNat
    | none => [])

/-- QUERY_DEVICE (R355). -/
def execQueryDevice (s : State) : Host.Outcome State Fault Refusal :=
  .next (queryCmd s 0x01 (regRun s 0 4 ++ leBytes 8 Config.serial.toNat))

/-- QUERY_BOOT (Table 2.12). -/
def execQueryBoot (s : State) : Host.Outcome State Fault Refusal :=
  .next (queryCmd s 0x02 (leBytes 4 s.hi.readiness.code ++ regRun s 0x28 3 ++ leBytes 4 s.fw.verA ++ leBytes 4 s.fw.verB))

/-- QUERY_SYN (Table 3.19). -/
def execQuerySyn (s : State) : Host.Outcome State Fault Refusal :=
  .next (queryCmd s 0x10 (regRun s 0x40000 2 ++ regRun s 0x40030 12 ++ regRun s 0x41000 64 ++ regRun s 0x41400 64))

/-- QUERY_BEAT (Table 4.8): all BEAT_ registers except BEAT_SLOT. -/
def execQueryBeat (s : State) : Host.Outcome State Fault Refusal := .next (queryCmd s 0x11 (regRun s 0x50000 32))

/-- What QUERY_PLAN shows of a context: CMB_CTX, the bank map and the phase plan. -/
def planBytes (s : State) (k : Nat) : List Byte :=
  regRun s (0x60100 + 32 * k) 4 ++ regRun s (0x61000 + 0x400 * k) 256 ++
    phasePlanBytes (ctxAt s k) ((ctxAt s k).phases.map phaseBanks)

/-- QUERY_PLAN (Table 5.11). -/
def execQueryPlan (s : State) : Host.Outcome State Fault Refusal :=
  .next (onCmd s 0x12 (fun p =>
    match ctxOf s (leAt p 0 8) with
    | none => answer s stNone []
    | some k => answer s stOk (planBytes s k)))

/-- QUERY_COMB (Table 5.11): Table 5.9 and the retired pages. -/
def execQueryComb (s : State) : Host.Outcome State Fault Refusal :=
  .next (
    let l := s.cmb.retired ++ s.cmb.retiredRun
    queryCmd s 0x13 (regRun s 0x60000 9 ++ leBytes 4 l.length ++ l.flatMap (leBytes 4)))

/-- QUERY_JOIN (Table 6.11). -/
def execQueryJoin (s : State) : Host.Outcome State Fault Refusal := .next (queryCmd s 0x14 (regRun s 0x70000 256))

/-- QUERY_ARR (Table 7.10). -/
def execQueryArr (s : State) : Host.Outcome State Fault Refusal := .next (queryCmd s 0x15 (regRun s 0x80000 256))

/-- Scale in force and down_run of every chain stream of the resident plans: context, descriptor, quadrant, down_run, scale. -/
def chainBytes (s : State) : List Byte :=
  (List.range 4).flatMap (fun c =>
    if (ctxAt s c).st.resident then
      (List.range (ctxAt s c).chains.length).flatMap (fun i => (List.range 4).flatMap (fun q =>
        let x := (quadAt s q).chains.getAt (256 * c + i) (chainInit (descOf s c i))
        leBytes 1 c ++ leBytes 1 i ++ leBytes 1 q ++ leBytes 1 x.downRun ++ leBytes 4 x.inForce))
    else [])

/-- QUERY_FUS (Table 8.10). -/
def execQueryFus (s : State) : Host.Outcome State Fault Refusal := .next (queryCmd s 0x16 (regRun s 0x90000 256 ++ chainBytes s))

/-- QUERY_RCS (Table 9.9): the registers and the stream table. -/
def execQueryRcs (s : State) : Host.Outcome State Fault Refusal :=
  .next (queryCmd s 0x17 (regRun s 0xA0000 260 ++ regRun s 0xA1000 2048))

/-- QUERY_XM (Table 10.8): the registers and XM_THR. -/
def execQueryXm (s : State) : Host.Outcome State Fault Refusal := .next (queryCmd s 0x18 (regRun s 0xB0000 24 ++ regRun s 0xB1000 512))

/-- One ledger entry in a QUERY_BUF response: BL_ENTRY, base and length. -/
def bufBytes (s : State) (i : Nat) : List Byte :=
  leBytes 4 (blWord (blAt s i)).toNat ++ leBytes 8 (blAt s i).base ++ leBytes 8 (blAt s i).len

/-- QUERY_BUF (Table 10.8): first index and count, 1 to 249, within the 4,096 entries. -/
def execQueryBuf (s : State) : Host.Outcome State Fault Refusal :=
  .next (onCmd s 0x19 (fun p =>
    let first := leAt p 0 2
    let n := leAt p 2 2
    if p.length ≠ 4 ∨ n = 0 ∨ 249 < n ∨ 4096 < first + n then answer s stBad []
    else answer s stOk ((List.range n).flatMap (fun i => bufBytes s (first + i)))))

/-- QUERY_SO (Table 11.9): the registers and all 256 objects. -/
def execQuerySo (s : State) : Host.Outcome State Fault Refusal :=
  .next (queryCmd s 0x1A (regRun s 0xC0000 16 ++ regRun s 0xC1000 1024))

/-- QUERY_ARB (Table 11.9). -/
def execQueryArb (s : State) : Host.Outcome State Fault Refusal := .next (queryCmd s 0x1B (regRun s 0xD0000 256))

/-- QUERY_HL (Table 12.14). -/
def execQueryHl (s : State) : Host.Outcome State Fault Refusal :=
  .next (queryCmd s 0x1C (regRun s 0xE0000 7 ++ regRun s 0xE0400 256 ++ regRun s 0xE1000 1280))

/-- QUERY_HI (Table 13.11): the registers of chapter 13 and US_ADMIT_DEFICIT. -/
def execQueryHi (s : State) : Host.Outcome State Fault Refusal :=
  .next (queryCmd s 0x1D (regRun s 0x10000 30 ++ regRun s 0x100004 1))

/-- QUERY_WG (Table 14.13): the global registers and WG_STATUS of the four mailboxes. -/
def execQueryWg (s : State) : Host.Outcome State Fault Refusal :=
  .next (queryCmd s 0x1F (regRun s 0x24000 24 ++ (List.range 4).flatMap (fun m => leBytes 4 (wgStatus (mbAt s m)).toNat)))

/-- The members of each open graft, as mailbox, count and opcodes. -/
def openBytes (s : State) : List Byte :=
  (List.range 4).flatMap (fun m => match vget s.gr.opened m none with
    | none => []
    | some o => leBytes 1 m ++ leBytes 1 o.members.length ++ o.members.flatMap (fun x => leBytes 2 x.op))

/-- QUERY_GRAFT (Table 15.6): the registers, the open grafts, and SEQ and phase plan of each staged graft. -/
def execQueryGraft (s : State) : Host.Outcome State Fault Refusal :=
  .next (queryCmd s 0x1E (regRun s 0xF0000 192 ++ openBytes s ++
    (committed s).flatMap (fun g => leBytes 8 g.seq ++ graftPlanBytes g.phases)))

/-- QUERY_PRESENCE (Table 15.6). -/
def execQueryPresence (s : State) : Host.Outcome State Fault Refusal :=
  .next (queryCmd s 0x23 (regRun s 0xF0020 2 ++ leBytes 4 (bit1 s.wg.open3)))

/-- Every calibration target that exists (Table 16.2). -/
def calTargets (s : State) : List CalTarget :=
  let loops := (List.range 3).flatMap (fun k => (List.range 3).flatMap (fun u => loopTargets s k u))
  let lanes := (List.range 20).flatMap (fun u => (List.range 9).map (fun i => ({ kind := 3, unit := u, index := i } : CalTarget)))
  let bytes := (List.range 8).flatMap (fun u => (List.range 4).map (fun i => ({ kind := 4, unit := u, index := i } : CalTarget)))
  (loops ++ lanes ++ bytes).filter (calExists s)

/-- QUERY_US (Table 16.8): the registers, and the due beat of each calibration target. -/
def execQueryUs (s : State) : Host.Outcome State Fault Refusal :=
  .next (queryCmd s 0x20 (regRun s 0x100000 56 ++
    (calTargets s).flatMap (fun t => leBytes 1 t.kind ++ leBytes 1 t.unit ++ leBytes 2 t.index ++ leBytes 8 (calDueBeat s t))))

/-- QUERY_HW (Table 16.8): the registers and the block map. -/
def execQueryHw (s : State) : Host.Outcome State Fault Refusal :=
  .next (queryCmd s 0x21 (regRun s 0x110000 12 ++ s.hw.map.flatMap (leBytes 2)))

/-- QUERY_PWR (Table 17.6): the registers and the last reading of every regulator page. -/
def execQueryPwr (s : State) : Host.Outcome State Fault Refusal :=
  .next (queryCmd s 0x22 (regRun s 0x120000 25 ++
    s.us.regs.flatMap (fun r => leBytes 1 r.page ++ leBytes 1 (bit1 r.fault) ++ leBytes 2 r.volts ++ leBytes 2 r.amps ++
      leBytes 2 r.deciWatts)))

end Sys2Proof.Machine
end

