-- ==== Sys2Proof/Machine/JtagTap.lean ====
section
/-! DEFINITION. The TAP (R448, IEEE 1149.1): its reset, and the six instructions it offers. -/

namespace Sys2Proof.Machine

open Sys2Proof

/-- An instruction is loaded into the TAP: TRST# is driven high, and the TAP has its supply. -/
def tapLoad (s : State) (f : Jtag → Jtag) : State := if s.pwr.on then { s with jtag := { f s.jtag with inReset := false } } else s

/-- JTAG_TAP_RESET: TRST# held low resets the TAP, which selects IDCODE (log 16). -/
def execJtagTapReset (s : State) : Host.Outcome State Fault Refusal :=
  .next { s with jtag := { s.jtag with inReset := true, instr := .idcode } }

/-- JTAG_BYPASS: the bypass register, which captures 0, is selected. -/
def execJtagBypass (s : State) : Host.Outcome State Fault Refusal :=
  .next (tapLoad s (fun j => { j with instr := .bypass, shift := 0 }))

/-- JTAG_IDCODE: the identification code is shifted out. -/
def execJtagIdcode (s : State) : Host.Outcome State Fault Refusal :=
  .next (tapLoad s (fun j => { j with instr := .idcode, shift := Config.jtagIdcode }))

/-- JTAG_SAMPLE_PRELOAD: the boundary-scan register captures the balls and takes the cells shifted in. -/
def execJtagSamplePreload (pins preload : List Bool) (s : State) : Host.Outcome State Fault Refusal :=
  .next (tapLoad s (fun j => { j with instr := .samplePreload, captured := pins, preload := preload }))

/-- JTAG_EXTEST: the chained balls are driven from the boundary-scan register. -/
def execJtagExtest (s : State) : Host.Outcome State Fault Refusal :=
  .next (tapLoad s (fun j => { j with instr := .extest }))

/-- JTAG_CLAMP: the chained outputs are held by the boundary-scan register, and bypass is selected. -/
def execJtagClamp (s : State) : Host.Outcome State Fault Refusal :=
  .next (tapLoad s (fun j => { j with instr := .clamp, shift := 0 }))

/-- JTAG_HIGHZ: the chained outputs are in high impedance, and bypass is selected. -/
def execJtagHighz (s : State) : Host.Outcome State Fault Refusal :=
  .next (tapLoad s (fun j => { j with instr := .highz, shift := 0 }))

end Sys2Proof.Machine
end

