-- ==== Sys2Proof/Machine/Dispatch.lean ====
section
/-! DEFINITION. The dispatch of the commands: one arm per row of spec/opcode_table.json, in its order. -/

namespace Sys2Proof.Machine

open Sys2Proof

def exec (i : Instr) (s : State) : Host.Outcome State Fault Refusal :=
  match i with
  | .registerWrite off v sameClock => Sys2Proof.Machine.execRegisterWrite off v sameClock s
  | .rcFieldRead off sameClock => Sys2Proof.Machine.execRcFieldRead off sameClock s
  | .lowWordRead off => Sys2Proof.Machine.execLowWordRead off s
  | .highWordWrite off v => Sys2Proof.Machine.execHighWordWrite off v s
  | .misalignedAccess write off width => Sys2Proof.Machine.execMisalignedAccess write off width s
  | .undefinedOffsetAccess write off => Sys2Proof.Machine.execUndefinedOffsetAccess write off s
  | .aonPowerGood => Sys2Proof.Machine.execAonPowerGood s
  | .aonPowerGoodFall => Sys2Proof.Machine.execAonPowerGoodFall s
  | .powerFailWarning => Sys2Proof.Machine.execPowerFailWarning s
  | .aonBrownOut => Sys2Proof.Machine.execAonBrownOut s
  | .aonSupplyRecovery => Sys2Proof.Machine.execAonSupplyRecovery s
  | .perstAssert => Sys2Proof.Machine.execPerstAssert s
  | .perstDeassert => Sys2Proof.Machine.execPerstDeassert s
  | .pcieHotReset => Sys2Proof.Machine.execPcieHotReset s
  | .functionLevelReset => Sys2Proof.Machine.execFunctionLevelReset s
  | .configRequest bme => Sys2Proof.Machine.execConfigRequest bme s
  | .romStart hiveOk localOk => Sys2Proof.Machine.execRomStart hiveOk localOk s
  | .referenceRecheck hiveOk localOk => Sys2Proof.Machine.execReferenceRecheck hiveOk localOk s
  | .lockAcquired x => Sys2Proof.Machine.execLockAcquired x s
  | .pllBLockTimeout => Sys2Proof.Machine.execPllBLockTimeout s
  | .hifPowerGood => Sys2Proof.Machine.execHifPowerGood s
  | .imageVerifyComplete img => Sys2Proof.Machine.execImageVerifyComplete img s
  | .domainWindow => Sys2Proof.Machine.execDomainWindow s
  | .quadrantBistComplete q ok => Sys2Proof.Machine.execQuadrantBistComplete q ok s
  | .lpddrTrainingComplete ok => Sys2Proof.Machine.execLpddrTrainingComplete ok s
  | .portTrainingStart p => Sys2Proof.Machine.execPortTrainingStart p s
  | .readyReached us => Sys2Proof.Machine.execReadyReached us s
  | .warmReset => Sys2Proof.Machine.execWarmReset s
  | .keeperWatchdogExpiry => Sys2Proof.Machine.execKeeperWatchdogExpiry s
  | .lockstepMismatch => Sys2Proof.Machine.execLockstepMismatch s
  | .quadrantReset x => Sys2Proof.Machine.execQuadrantReset x s
  | .queryBoot => Sys2Proof.Machine.execQueryBoot s
  | .hiveReset => Sys2Proof.Machine.execHiveReset s
  | .resetWarm => Sys2Proof.Machine.execResetWarm s
  | .resetQuad => Sys2Proof.Machine.execResetQuad s
  | .beatEdge env => Sys2Proof.Machine.execBeatEdge env s
  | .slotBoundary => Sys2Proof.Machine.execSlotBoundary s
  | .slotGuardStart => Sys2Proof.Machine.execSlotGuardStart s
  | .vtComplianceCrossing l high => Sys2Proof.Machine.execVtComplianceCrossing l high s
  | .phaseWindowViolation l cycle => Sys2Proof.Machine.execPhaseWindowViolation l cycle s
  | .lossOfLock l => Sys2Proof.Machine.execLossOfLock l s
  | .prelockTimeout l => Sys2Proof.Machine.execPrelockTimeout l s
  | .querySyn => Sys2Proof.Machine.execQuerySyn s
  | .synCalRun => Sys2Proof.Machine.execSynCalRun s
  | .synHoldRelease => Sys2Proof.Machine.execSynHoldRelease s
  | .synHoldFreeze => Sys2Proof.Machine.execSynHoldFreeze s
  | .synHoldSafeClock => Sys2Proof.Machine.execSynHoldSafeClock s
  | .calibrationStart t => Sys2Proof.Machine.execCalibrationStart t s
  | .calibrationComplete t pass value => Sys2Proof.Machine.execCalibrationComplete t pass value s
  | .beatMarkerReceive p flit eighths => Sys2Proof.Machine.execBeatMarkerReceive p flit eighths s
  | .portExclusionLimit p => Sys2Proof.Machine.execPortExclusionLimit p s
  | .seekTimeout => Sys2Proof.Machine.execSeekTimeout s
  | .coarseJump => Sys2Proof.Machine.execCoarseJump s
  | .parentLost => Sys2Proof.Machine.execParentLost s
  | .holdTimeout => Sys2Proof.Machine.execHoldTimeout s
  | .masterHoldoverTimeout => Sys2Proof.Machine.execMasterHoldoverTimeout s
  | .rateLimitExceeded => Sys2Proof.Machine.execRateLimitExceeded s
  | .queryBeat => Sys2Proof.Machine.execQueryBeat s
  | .beatMasterEn => Sys2Proof.Machine.execBeatMasterEn s
  | .refSelect => Sys2Proof.Machine.execRefSelect s
  | .planLoad src => Sys2Proof.Machine.execPlanLoad src s
  | .planFetchComplete => Sys2Proof.Machine.execPlanFetchComplete s
  | .dmaReadError => Sys2Proof.Machine.execDmaReadError s
  | .dmaCompletionTimeout => Sys2Proof.Machine.execDmaCompletionTimeout s
  | .planActivate => Sys2Proof.Machine.execPlanActivate s
  | .planDeactivate => Sys2Proof.Machine.execPlanDeactivate s
  | .planDrainComplete c => Sys2Proof.Machine.execPlanDrainComplete c s
  | .planUnload => Sys2Proof.Machine.execPlanUnload s
  | .zeroFillComplete q bank => Sys2Proof.Machine.execZeroFillComplete q bank s
  | .planReplace src => Sys2Proof.Machine.execPlanReplace src s
  | .replacePhaseReady c => Sys2Proof.Machine.execReplacePhaseReady c s
  | .planSwap => Sys2Proof.Machine.execPlanSwap s
  | .planFitmode => Sys2Proof.Machine.execPlanFitmode s
  | .queryPlan => Sys2Proof.Machine.execQueryPlan s
  | .queryComb => Sys2Proof.Machine.execQueryComb s
  | .pageRebuildComplete page clean => Sys2Proof.Machine.execPageRebuildComplete page clean s
  | .bankCopyComplete page => Sys2Proof.Machine.execBankCopyComplete page s
  | .rebuildWaitLimit page => Sys2Proof.Machine.execRebuildWaitLimit page s
  | .passStart x => Sys2Proof.Machine.execPassStart x s
  | .passComplete q => Sys2Proof.Machine.execPassComplete q s
  | .accumulatorSetSwap q stall => Sys2Proof.Machine.execAccumulatorSetSwap q stall s
  | .contextSave q => Sys2Proof.Machine.execContextSave q s
  | .contextRestore q => Sys2Proof.Machine.execContextRestore q s
  | .queryJoin => Sys2Proof.Machine.execQueryJoin s
  | .queryArr => Sys2Proof.Machine.execQueryArr s
  | .epilogueComplete q => Sys2Proof.Machine.execEpilogueComplete q s
  | .forwardTileSend q => Sys2Proof.Machine.execForwardTileSend q s
  | .forwardDrop q => Sys2Proof.Machine.execForwardDrop q s
  | .tileRecordAdd q => Sys2Proof.Machine.execTileRecordAdd q s
  | .queryFus => Sys2Proof.Machine.execQueryFus s
  | .chunkGate q => Sys2Proof.Machine.execChunkGate q s
  | .chunkLevel q => Sys2Proof.Machine.execChunkLevel q s
  | .chunkLoad q => Sys2Proof.Machine.execChunkLoad q s
  | .chunkExpand q => Sys2Proof.Machine.execChunkExpand q s
  | .chunkReadout q => Sys2Proof.Machine.execChunkReadout q s
  | .chunkStore q => Sys2Proof.Machine.execChunkStore q s
  | .chunkSkip q => Sys2Proof.Machine.execChunkSkip q s
  | .streamCtlPause => Sys2Proof.Machine.execStreamCtlPause s
  | .streamCtlResume => Sys2Proof.Machine.execStreamCtlResume s
  | .streamCtlReset => Sys2Proof.Machine.execStreamCtlReset s
  | .streamCtlEnd => Sys2Proof.Machine.execStreamCtlEnd s
  | .streamCtlApply entry => Sys2Proof.Machine.execStreamCtlApply entry s
  | .queryRcs => Sys2Proof.Machine.execQueryRcs s
  | .transferIssue x => Sys2Proof.Machine.execTransferIssue x s
  | .readTransferComplete tag ecc nowNs => Sys2Proof.Machine.execReadTransferComplete tag ecc nowNs s
  | .writeTransferAccepted tag failed => Sys2Proof.Machine.execWriteTransferAccepted tag failed s
  | .instanceComplete c => Sys2Proof.Machine.execInstanceComplete c s
  | .scheduleAlloc q => Sys2Proof.Machine.execScheduleAlloc q s
  | .scheduleFree q => Sys2Proof.Machine.execScheduleFree q s
  | .bufAlloc => Sys2Proof.Machine.execBufAlloc s
  | .bufFree => Sys2Proof.Machine.execBufFree s
  | .bufGive => Sys2Proof.Machine.execBufGive s
  | .queryXm => Sys2Proof.Machine.execQueryXm s
  | .queryBuf => Sys2Proof.Machine.execQueryBuf s
  | .xmShare => Sys2Proof.Machine.execXmShare s
  | .syncAcq q => Sys2Proof.Machine.execSyncAcq q s
  | .syncRel q => Sys2Proof.Machine.execSyncRel q s
  | .syncWait q => Sys2Proof.Machine.execSyncWait q s
  | .syncSend q => Sys2Proof.Machine.execSyncSend q s
  | .blockedOpProceed q => Sys2Proof.Machine.execBlockedOpProceed q s
  | .sidePortRequest q id page len => Sys2Proof.Machine.execSidePortRequest q id page len s
  | .sidePortGrant q errs => Sys2Proof.Machine.execSidePortGrant q errs s
  | .portWatchdogExpiry q => Sys2Proof.Machine.execPortWatchdogExpiry q s
  | .querySo => Sys2Proof.Machine.execQuerySo s
  | .queryArb => Sys2Proof.Machine.execQueryArb s
  | .lnkPowerGood wake => Sys2Proof.Machine.execLnkPowerGood wake s
  | .portNoSignalTimeout p => Sys2Proof.Machine.execPortNoSignalTimeout p s
  | .portTrainingTimeout p => Sys2Proof.Machine.execPortTrainingTimeout p s
  | .portRetryTimer p => Sys2Proof.Machine.execPortRetryTimer p s
  | .pmdTrainingComplete p spare ms => Sys2Proof.Machine.execPmdTrainingComplete p spare ms s
  | .identReceive p flit => Sys2Proof.Machine.execIdentReceive p flit s
  | .lossOfSignal p => Sys2Proof.Machine.execLossOfSignal p s
  | .laneFlitReceive p flit => Sys2Proof.Machine.execLaneFlitReceive p flit s
  | .laneSpareSwitch x => Sys2Proof.Machine.execLaneSpareSwitch x s
  | .uncorrectableCodeword p => Sys2Proof.Machine.execUncorrectableCodeword p s
  | .codewordErrorLimit p => Sys2Proof.Machine.execCodewordErrorLimit p s
  | .flitDataReceive p flit ns => Sys2Proof.Machine.execFlitDataReceive p flit ns s
  | .flitSyncReceive p flit ns => Sys2Proof.Machine.execFlitSyncReceive p flit ns s
  | .flitUnschedReceive p flit ns => Sys2Proof.Machine.execFlitUnschedReceive p flit ns s
  | .flitHaltReceive p flit => Sys2Proof.Machine.execFlitHaltReceive p flit s
  | .flitTagReceive p flit => Sys2Proof.Machine.execFlitTagReceive p flit s
  | .flitAckReceive p flit => Sys2Proof.Machine.execFlitAckReceive p flit s
  | .flitNakReceive p flit => Sys2Proof.Machine.execFlitNakReceive p flit s
  | .ackTimer p => Sys2Proof.Machine.execAckTimer p s
  | .replayTimeout p => Sys2Proof.Machine.execReplayTimeout p s
  | .sealGroupClose p => Sys2Proof.Machine.execSealGroupClose p s
  | .floodDetected p => Sys2Proof.Machine.execFloodDetected p s
  | .inboundEntryComplete c entry => Sys2Proof.Machine.execInboundEntryComplete c entry s
  | .hiveRoster => Sys2Proof.Machine.execHiveRoster s
  | .hivePortRetrain => Sys2Proof.Machine.execHivePortRetrain s
  | .hivePortUnfence => Sys2Proof.Machine.execHivePortUnfence s
  | .hivePortHold => Sys2Proof.Machine.execHivePortHold s
  | .hiveKeySwitch => Sys2Proof.Machine.execHiveKeySwitch s
  | .queryHl => Sys2Proof.Machine.execQueryHl s
  | .inflowWriteTlp addr bytes allEnabled => Sys2Proof.Machine.execInflowWriteTlp addr bytes allEnabled s
  | .flushNow => Sys2Proof.Machine.execFlushNow s
  | .flushPkt => Sys2Proof.Machine.execFlushPkt s
  | .flushPktComplete => Sys2Proof.Machine.execFlushPktComplete s
  | .completionBacklogDrain => Sys2Proof.Machine.execCompletionBacklogDrain s
  | .eventOverflowRecord => Sys2Proof.Machine.execEventOverflowRecord s
  | .ringEnable completion cfg => Sys2Proof.Machine.execRingEnable completion cfg s
  | .ringHeadWrite completion v => Sys2Proof.Machine.execRingHeadWrite completion v s
  | .ringSetupWrite completion word v => Sys2Proof.Machine.execRingSetupWrite completion word v s
  | .intmaskWrite v => Sys2Proof.Machine.execIntmaskWrite v s
  | .apertureRead off len => Sys2Proof.Machine.execApertureRead off len s
  | .apertureTimeout => Sys2Proof.Machine.execApertureTimeout s
  | .apertureWrite => Sys2Proof.Machine.execApertureWrite s
  | .combAperture => Sys2Proof.Machine.execCombAperture s
  | .queryHi => Sys2Proof.Machine.execQueryHi s
  | .pciPowerStateChange d3hot => Sys2Proof.Machine.execPciPowerStateChange d3hot s
  | .doorbellRing m => Sys2Proof.Machine.execDoorbellRing m s
  | .doorbellNext m => Sys2Proof.Machine.execDoorbellNext m s
  | .doorbellInvalid m v => Sys2Proof.Machine.execDoorbellInvalid m v s
  | .mailboxPageWrite m off v => Sys2Proof.Machine.execMailboxPageWrite m off v s
  | .smbusSetOffset off pecOk => Sys2Proof.Machine.execSmbusSetOffset off pecOk s
  | .smbusWrite bytes pecOk => Sys2Proof.Machine.execSmbusWrite bytes pecOk s
  | .smbusRead => Sys2Proof.Machine.execSmbusRead s
  | .smbusTimeout => Sys2Proof.Machine.execSmbusTimeout s
  | .uartWrite frame => Sys2Proof.Machine.execUartWrite frame s
  | .uartRead frame => Sys2Proof.Machine.execUartRead frame s
  | .uartBaud frame => Sys2Proof.Machine.execUartBaud frame s
  | .uartFrameTimeout => Sys2Proof.Machine.execUartFrameTimeout s
  | .uartBreak => Sys2Proof.Machine.execUartBreak s
  | .queryDevice => Sys2Proof.Machine.execQueryDevice s
  | .queryWg => Sys2Proof.Machine.execQueryWg s
  | .graftStage => Sys2Proof.Machine.execGraftStage s
  | .graftCommit => Sys2Proof.Machine.execGraftCommit s
  | .graftAbort => Sys2Proof.Machine.execGraftAbort s
  | .graftPhaseApply => Sys2Proof.Machine.execGraftPhaseApply s
  | .graftWaitLimit => Sys2Proof.Machine.execGraftWaitLimit s
  | .queryGraft => Sys2Proof.Machine.execQueryGraft s
  | .queryPresence => Sys2Proof.Machine.execQueryPresence s
  | .rjRead => Sys2Proof.Machine.execRjRead s
  | .rjMark => Sys2Proof.Machine.execRjMark s
  | .fwLoadBegin => Sys2Proof.Machine.execFwLoadBegin s
  | .fwLoadData => Sys2Proof.Machine.execFwLoadData s
  | .fwLoadFinish img => Sys2Proof.Machine.execFwLoadFinish img s
  | .fwLoadSessionTimeout => Sys2Proof.Machine.execFwLoadSessionTimeout s
  | .hiveKeyLoad => Sys2Proof.Machine.execHiveKeyLoad s
  | .hwErase => Sys2Proof.Machine.execHwErase s
  | .repairRead => Sys2Proof.Machine.execRepairRead s
  | .calOverrideSet => Sys2Proof.Machine.execCalOverrideSet s
  | .calOverrideRelease => Sys2Proof.Machine.execCalOverrideRelease s
  | .wg3Unseal => Sys2Proof.Machine.execWg3Unseal s
  | .wg3Seal => Sys2Proof.Machine.execWg3Seal s
  | .wg3UnsealExpiry => Sys2Proof.Machine.execWg3UnsealExpiry s
  | .reseal => Sys2Proof.Machine.execReseal s
  | .presenceSample low => Sys2Proof.Machine.execPresenceSample low s
  | .presenceQualified => Sys2Proof.Machine.execPresenceQualified s
  | .presenceWindowExpiry => Sys2Proof.Machine.execPresenceWindowExpiry s
  | .sealSample driven read => Sys2Proof.Machine.execSealSample driven read s
  | .sealBreak => Sys2Proof.Machine.execSealBreak s
  | .scrubPageStart q => Sys2Proof.Machine.execScrubPageStart q s
  | .regulatorRead rs => Sys2Proof.Machine.execRegulatorRead rs s
  | .regulatorFaultClear page => Sys2Proof.Machine.execRegulatorFaultClear page s
  | .telemetrySummary => Sys2Proof.Machine.execTelemetrySummary s
  | .heartwoodProgramComplete copy ok retries => Sys2Proof.Machine.execHeartwoodProgramComplete copy ok retries s
  | .blockReclaim => Sys2Proof.Machine.execBlockReclaim s
  | .heartwoodEraseComplete blank pct => Sys2Proof.Machine.execHeartwoodEraseComplete blank pct s
  | .heartwoodScanComplete sfdpOk => Sys2Proof.Machine.execHeartwoodScanComplete sfdpOk s
  | .heartwoodScanDeadline => Sys2Proof.Machine.execHeartwoodScanDeadline s
  | .hwRead => Sys2Proof.Machine.execHwRead s
  | .queryUs => Sys2Proof.Machine.execQueryUs s
  | .queryHw => Sys2Proof.Machine.execQueryHw s
  | .powerStateEntry => Sys2Proof.Machine.execPowerStateEntry s
  | .wakeComplete x => Sys2Proof.Machine.execWakeComplete x s
  | .thermalTrip sensor eighths => Sys2Proof.Machine.execThermalTrip sensor eighths s
  | .thermalTripRecovery => Sys2Proof.Machine.execThermalTripRecovery s
  | .pwrTolerance => Sys2Proof.Machine.execPwrTolerance s
  | .pwrLimit => Sys2Proof.Machine.execPwrLimit s
  | .queryPwr => Sys2Proof.Machine.execQueryPwr s
  | .jtagTapReset => Sys2Proof.Machine.execJtagTapReset s
  | .jtagBypass => Sys2Proof.Machine.execJtagBypass s
  | .jtagIdcode => Sys2Proof.Machine.execJtagIdcode s
  | .jtagSamplePreload pins preload => Sys2Proof.Machine.execJtagSamplePreload pins preload s
  | .jtagExtest => Sys2Proof.Machine.execJtagExtest s
  | .jtagClamp => Sys2Proof.Machine.execJtagClamp s
  | .jtagHighz => Sys2Proof.Machine.execJtagHighz s
  | .dmaReadComplete src => Sys2Proof.Machine.execDmaReadComplete src s
  | .bootNorEraseComplete => Sys2Proof.Machine.execBootNorEraseComplete s

end Sys2Proof.Machine
end

