-- ==== Sys2Proof/Safety.lean ====
section
/-! DEFINITION. What claims call safe: the addressed memories in their one canonical form, a queue of well-formed commands, and a
run in which no step stops. -/

namespace Sys2Proof.Machine

open Sys2Proof

/-- A memory whose unlisted bytes read d is in canonical form: addresses strictly rising, no entry equal to d. -/
def Memory.wf (m : SMap Byte) (d : Byte) : Bool := SMap.wf m d

/-- External memory in canonical form: what an unlisted byte reads as depends on its address and on the losses (log 4). -/
def xmWf (epoch : Nat) (m : SMap Byte) : Prop :=
  SMap.risesFrom none m = true ∧ ∀ e ∈ m, e.2 ≠ xmDefault epoch e.1

/-- The addressed memories of the block are in canonical form: the Comb (R109), external memory (R234), and the two slots of the
boot NOR (R42). -/
def MemOk (s : State) : Prop :=
  Memory.wf s.cmb.mem 0#8 = true ∧ xmWf s.xm.epoch s.xm.mem ∧ Memory.wf s.fw.slotA 0xFF#8 = true ∧
    Memory.wf s.fw.slotB 0xFF#8 = true

/-- The Ring journal holds at most 8,192 entries, and every SEQ in it, and that of the command Keeper works on, lies below the next
one (R367, R368). -/
def JournalOk (s : State) : Prop :=
  s.rj.ent.length ≤ 8192 ∧ (∀ e ∈ s.rj.ent, e.seq < s.rj.next) ∧ s.wg.curSeq < s.rj.next

/-- Every waiting command is well formed. -/
def QueueOk (s : State) : Prop := ∀ c ∈ s.pending, c.wf = true

/-- A step of the state does not stop. -/
def StepRuns (s : State) : Prop := ∃ t, step s = .next t

/-- k steps from the state, none of which stops, with the memories in canonical form throughout. -/
def SafeRun : Nat → State → Prop
  | 0, s => MemOk s
  | k + 1, s => MemOk s ∧ ∃ t, step s = .next t ∧ SafeRun k t

/- What claims say of a command: where it runs to, and what it leaves as it was. -/

/-- The command runs from the state, without a stop, to a state of which P holds. -/
def Runs (c : Instr) (s : State) (P : State → Prop) : Prop := ∃ t, exec c s = .next t ∧ P t

/-- The commands of the JTAG port (R448). -/
def isJtag : Instr → Bool
  | .jtagTapReset => true
  | .jtagBypass => true
  | .jtagIdcode => true
  | .jtagSamplePreload _ _ => true
  | .jtagExtest => true
  | .jtagClamp => true
  | .jtagHighz => true
  | _ => false

/-- The commands that move the beat: its edge, its slots and their guards, and the two that are a cold reset (R15, R16, R48). -/
def movesBeat : Instr → Bool
  | .beatEdge _ => true
  | .slotBoundary => true
  | .slotGuardStart => true
  | .aonPowerGood => true
  | .aonSupplyRecovery => true
  | _ => false

/-- The host interface differs only by what the delivery of events and vectors changes in it (R329 to R331, R41). -/
def HiEvents (a b : Hi) : Prop :=
  b = { a with
    evSeq := b.evSeq, raised := b.raised, bootq := b.bootq, bootLost := b.bootLost, evrLost := b.evrLost, evrLostNew := b.evrLostNew,
    evr := { a.evr with tail := b.evr.tail, phase := b.evr.phase, fresh := b.evr.fresh }
    hostMem := b.hostMem, signals := b.signals, msixPend := b.msixPend }

/-- Heartwood differs only by the records that wait for it and the count of those lost (R403). -/
def HwEvents (a b : Hw) : Prop :=
  b = { a with queue := b.queue, spill := b.spill, states := b.states, lost := b.lost }

/-- The state differs only in the mailboxes, the journal, the delivery of events and the wake that an accepted command starts. -/
structure Calm (s t : State) : Prop where
  pending : t.pending = s.pending
  freeCtr : t.freeCtr = s.freeCtr
  syn : t.syn = s.syn
  beat : t.beat = s.beat
  cmb : t.cmb = s.cmb
  quad : t.quad = s.quad
  streams : t.streams = s.streams
  xm : t.xm = s.xm
  bl : t.bl = s.bl
  so : t.so = s.so
  arb : t.arb = s.arb
  hl : t.hl = s.hl
  gr : t.gr = s.gr
  us : t.us = s.us
  jtag : t.jtag = s.jtag
  fw : t.fw = s.fw
  pwr : t.pwr = { s.pwr with waking := t.pwr.waking }
  hi : HiEvents s.hi t.hi
  hw : HwEvents s.hw t.hw

/-- The events of the list are those raised from s to t, in order; event 0x1206, which a full Heartwood queue adds (R403), is not
listed. -/
def Logs (s t : State) (l : List (Nat × Sev)) : Prop :=
  ∃ pre, t.hi.raised = pre ++ s.hi.raised ∧
    (pre.reverse.filter (fun x => x.code != 0x1206)).map (fun x => (x.code, x.sev)) = l

/-- t is e with the events of the list raised, in order, and nothing else changed. -/
structure Raised (e t : State) (l : List (Nat × Sev)) : Prop where
  calm : Calm e t
  wg : t.wg = e.wg
  rj : t.rj = e.rj
  pwr : t.pwr = e.pwr
  news : Logs e t l

/-- Keeper works on the command of an opcode with payload p in mailbox m, waits for nothing, and nothing disturbs the response:
the mailbox has not been reset (R354), and neither another turn of the round nor a NEXT doorbell of it waits. -/
structure AtCommand (s : State) (op m : Nat) (p : List Byte) : Prop where
  cur : s.wg.cur = some m
  mbox : m < 4
  op : mbOp s m = op
  pay : mbPayload s m = p
  wait : s.wg.wait = .none
  on : alive s = true
  keeper : s.pwr.keeper = true
  order : m ∉ s.wg.order
  kept : (mbAt s m).discard = false
  next : (mbAt s m).nextDue = false

/-- t is e but for the answer to the command in mailbox m: the mailbox is DONE with the status code and the response body (R339,
R343), and beside it only the journal, the round, events and a wake have changed. -/
structure Answered (e : State) (m code : Nat) (body : List Byte) (t : State) : Prop where
  calm : Calm e t
  done : (mbAt t m).st = .done
  code : (mbAt t m).code = code
  body : (mbAt t m).resp.drop 64 = body

/-- A graftable command that Keeper works on, alone, well formed, its target beat 0 or ahead, and nothing staged (R356, R357). -/
structure StageReady (s : State) (op m : Nat) (p : List Byte) : Prop where
  at' : AtCommand s op m p
  shape : stagedShape op p = true
  target : targetOf op p = 0 ∨ s.wg.round + (if op = 0x610 then 2 else 1) ≤ targetOf op p
  clear : s.gr.staged = []

/-- The command is answered STAGED, and stands alone in the list of staged changes with its edge: the target beat, or the edge two
after that of the round (R356). -/
def StagedAt (s : State) (op m : Nat) (p : List Byte) : State → Prop :=
  Answered { s with gr.staged := [
    { seq := s.wg.curSeq, source := m, cls := (classOf op).getD .operational, alone := true,
      target := if targetOf op p = 0 then s.wg.round + 2 else targetOf op p, waitLimit := 10000,
      phases := [{ first := 0, members := [{ op := op, payload := p, group := 0 }], waits := false, off := 0 }],
      total := 1, next := 0, shift := 0, count := 1 }] } m 1 []

/- What resets leave (Table 2.7). -/

/-- What a cold reset leaves: reset values, but for the two NORs, the TAP, the pins and what lies outside the part. -/
structure ColdLeft (s t : State) : Prop where
  pending : t.pending = s.pending
  syn : t.syn = State.reset.syn
  beat : t.beat = State.reset.beat
  cmb : t.cmb = State.reset.cmb
  quad : t.quad = State.reset.quad
  streams : t.streams = []
  xm : t.xm = { State.reset.xm with epoch := t.xm.epoch }
  bl : t.bl = State.reset.bl
  so : t.so = State.reset.so
  arb : t.arb = State.reset.arb
  hl : t.hl = State.reset.hl
  hi : t.hi = { State.reset.hi with
    perst := s.hi.perst, hostMem := s.hi.hostMem, signals := s.hi.signals, readData := s.hi.readData }
  wg : t.wg = State.reset.wg
  gr : t.gr = State.reset.gr
  rj : t.rj = State.reset.rj
  us : t.us = State.reset.us
  pwr : t.pwr = State.reset.pwr
  jtag : t.jtag = s.jtag
  slots : t.fw.slotA = s.fw.slotA ∧ t.fw.slotB = s.fw.slotB
  log : t.hw.log = s.hw.log ∧ t.hw.map = s.hw.map ∧ t.hw.erases = s.hw.erases ∧ t.hw.retired = s.hw.retired
  boot : t.hw.boot = s.hw.boot + 1
  scan : t.hw.online = false ∧ t.hw.scanned = false ∧ t.hw.queue = []

/-- Every switched domain is unpowered and RAIL_EN is low; nothing runs (R435 to R438). -/
structure SwitchesOpen (t : State) : Prop where
  quad : t.pwr.quad = Vector.replicate 4 false
  cb : t.pwr.cb = Vector.replicate 4 false
  lnk : t.pwr.lnk = false
  xmi : t.pwr.xmi = false
  hif : t.pwr.hif = false
  railEn : t.pwr.railEn = false
  link : t.hi.link = false
  beat : t.beat.running = false
  insts : ∀ c, c < 4 → (ctxAt t c).insts = []

/-- ROM has judged the two references from e (R51 to R53), and shows a readiness state and a progress code. -/
def RefJudged (e : State) (hive loc : Bool) (r : Readiness) (code : Nat) (t : State) : Prop :=
  t = { e with syn := t.syn, hi := { e.hi with readiness := r, progress := code } } ∧ t.syn.hrefOk = hive ∧ t.syn.lrefOk = loc ∧
    (if hive then t.syn.refSel = .hive ∧ t.syn.refFound = true ∧ t.syn.b.ld = .acquire
     else if loc then t.syn.refSel = .localRef ∧ t.syn.refFound = true ∧ t.syn.b.ld = .acquire
     else t.syn.refFound = e.syn.refFound ∧ t.syn.checksFailed = e.syn.checksFailed + 1)

/-- The readiness state and the progress code after a domain window (R31, R38, Table 2.3). -/
def WindowCode (s t : State) : Prop :=
  if domainsUp t then t.hi.readiness = .memory ∧ t.hi.progress = 0x40
  else t.hi.readiness = .domains ∧ t.hi.progress = 0x30 + s.hi.window

/-- What a warm reset with its cause leaves (R45, R48, Table 2.7). -/
structure WarmLeft (s : State) (cause : Nat) (t : State) : Prop where
  pending : t.pending = s.pending
  cause : t.hi.warm = cause
  bits : t.hi.cold = s.hi.cold ∧ t.hi.hiveRst = s.hi.hiveRst ∧ t.hi.flr = s.hi.flr ∧ t.hi.perstRst = s.hi.perstRst ∧
    t.hi.hot = s.hi.hot ∧ t.hi.quadRst = s.hi.quadRst
  boot : t.hi.readiness = .rom ∧ t.hi.fwRuns = false ∧ t.hi.cfgReady = false ∧ t.hi.window = 0 ∧ t.hi.quadOff = Vector.replicate 4 false
  pllB : t.syn.b = s.syn.b ∧ t.syn.bLocked = s.syn.bLocked ∧ t.syn.refSel = s.syn.refSel ∧ t.syn.src = .safe
  beat : t.beat.num = s.beat.num ∧ t.beat.running = s.beat.running ∧ t.beat.slotTicks = s.beat.slotTicks ∧
    t.beat.ownRank = s.beat.ownRank
  plans : ∀ c, c < 4 → (ctxAt t c).st = .empty
  comb : t.cmb.mem = []
  cleared : t.streams = [] ∧ t.bl.ent = [] ∧ t.so.obj = [] ∧ t.xm.threads = [] ∧ t.xm.mem = [] ∧ t.xm.epoch = s.xm.epoch + 1
  boxes : t.wg.order = [] ∧ t.wg.cur = none ∧ t.wg.held = [] ∧ t.wg.open3 = false ∧ t.wg.skipped = s.wg.skipped ∧
    ∀ m, m < 4 → mbAt t m = { Mbox.init with
      accepted := (mbAt s m).accepted, refused := (mbAt s m).refused, superseded := (mbAt s m).superseded,
      frameErr := (mbAt s m).frameErr, ringBusy := (mbAt s m).ringBusy }
  grafts : t.gr.staged = [] ∧ t.gr.opened = Vector.replicate 4 none
  presence : t.gr.window = s.gr.window ∧ t.gr.qualified = s.gr.qualified ∧ t.gr.sealOk = s.gr.sealOk ∧ t.gr.latch = s.gr.latch
  journal : t.rj.next = s.rj.next ∧ t.rj.ent.map (fun e => e.seq) = s.rj.ent.map (fun e => e.seq)
  counts : t.hi.overruns = s.hi.overruns ∧ t.hi.lates = s.hi.lates ∧ t.hi.backlog = s.hi.backlog ∧
    t.hi.backlogCnt = s.hi.backlogCnt ∧ t.hi.accessErr = s.hi.accessErr ∧ t.hi.drop = s.hi.drop ∧ t.hi.badTlp = s.hi.badTlp ∧
    t.hi.flushed = s.hi.flushed ∧ t.hi.admitted = s.hi.admitted ∧ t.gr.applied = s.gr.applied ∧ t.bl.dfree = s.bl.dfree ∧
    t.xm.eccCe = s.xm.eccCe
  quads : ∀ q, q < 4 → (quadAt t q).run = none ∧ (quadAt t q).chunk = none ∧ (quadAt t q).jnPasses = (quadAt s q).jnPasses ∧
    (quadAt t q).rcsChunks = (quadAt s q).rcsChunks ∧ (quadAt t q).arrSatx = (quadAt s q).arrSatx
  power : t.pwr.quad = Vector.replicate 4 false ∧ t.pwr.cb = Vector.replicate 4 false ∧ t.pwr.lnk = false ∧ t.pwr.xmi = false ∧
    t.pwr.hif = false ∧ t.pwr.keeper = false ∧ t.pwr.on = s.pwr.on ∧ t.pwr.tripped = s.pwr.tripped ∧ t.pwr.st = .active
  ports : ∀ p, p < 20 → (portAt t p).st = .off
  slots : t.fw.slotA = s.fw.slotA ∧ t.fw.slotB = s.fw.slotB
  jtag : t.jtag = s.jtag

/-- No plan image is being read from host memory. -/
def NoFetch (s : State) : Prop := s.cmb.fetch = none ∧ s.wg.wait ≠ .dmaLoad ∧ s.wg.wait ≠ .dmaRepl

/-- What PCIe hot reset, PERST# and a function-level reset clear in HIF, and what they leave running (R49, Table 2.7). -/
structure HifCleared (s t : State) : Prop where
  queue : t.hi.queue = [] ∧ t.hi.packer = [] ∧ t.hi.discarding = false ∧ t.hi.flushPend = false
  stat : t.hi.overflow = false ∧ t.hi.underrun = false ∧ t.hi.apPoison = false ∧ t.hi.aperture = 0
  msix : t.hi.intMask = 15 ∧ t.hi.msixMask = Vector.replicate 64 true ∧ t.hi.msixPend = Vector.replicate 64 false ∧ t.hi.msixTable = []
  rings : t.hi.evr = State.reset.hi.evr ∧ t.hi.cpr = State.reset.hi.cpr
  pairs : t.hi.latch = [] ∧ t.hi.held = []
  answers : t.hi.d3hot = false ∧ t.hi.bme = false
  runs : NoFetch s →
    t = { s with hi := t.hi, wg := t.wg, arb := t.arb } ∧
      t.arb = s.arb.map (fun a =>
        { a with aperture := none, jobs := a.jobs.eraseAt 13, queue := a.queue.filter (fun e => e.id != 13) })

/- Staged changes at their edge (R359, R364). -/

/-- One change of one graftable command is staged, its edge is the one that comes, and it waits for nothing (R356, R359). -/
structure AloneDue (s : State) (op : Nat) (p : List Byte) (g : Graft) : Prop where
  near : edgeNear s = true
  staged : s.gr.staged = [g]
  alone : g.alone = true
  phases : g.phases = [{ first := 0, members := [{ op := op, payload := p, group := 0 }], waits := false, off := 0 }]
  due : g.nextEdge ≤ edgeNum s

/-- The journal's next entry is e, with the next SEQ; the oldest gives way where 8,192 are held (R367, R368). -/
def JournalPut (s : State) (e : JEntry) (t : State) : Prop :=
  t.rj.next = s.rj.next + 1 ∧ t.rj.ent = if s.rj.ent.length < 8192 then s.rj.ent ++ [e] else (s.rj.ent ++ [e]).drop 1

/-- Keeper's entry for the first phase of a staged change with its outcome (R369). -/
def phaseEntry (s : State) (g : Graft) (outcome : Nat) : JEntry :=
  { seq := s.rj.next, source := 8, cls := g.cls, op := 0x302, outcome := outcome, mirrored := false, member := !g.alone,
    phase := g.next, beat := edgeNum s, tag := 0, digest := 0, link := g.seq, effect := edgeNum s }

/-- The one staged change has been applied with the effect e: it leaves the list, is counted, reported and journalled (R359). -/
structure ChangeApplied (s : State) (g : Graft) (e t : State) : Prop where
  state : t = { e with gr := { s.gr with staged := [], applied := satAdd 32 s.gr.applied 1 }, hi := t.hi, rj := t.rj, hw := t.hw }
  hi : HiEvents e.hi t.hi
  hw : HwEvents e.hw t.hw
  news : Logs e t [(0x0F01, .info)]
  entry : JournalPut s (phaseEntry s g 0) t

/- Plans and the Comb (chapter 5). -/

/-- What Keeper answers to a PLAN_LOAD from e once its image has been read (R115 to R119): a malformed image; an inconsistent one, with
the profiles that are not valid (R55); one whose hops the merged table cannot take (R72); one that does not fit, with its shortfalls;
or a plan in LOADING with its context in the response. -/
def LoadJudged (e : State) (m : Nat) (src : PlanSource) (t : State) : Prop :=
  let c := renumber (imageCtx src) (placeProfiles (takenProfiles e) (imageCtx src).profiles)
  if ¬ imageShape src then Answered e m 0x20 [] t
  else if ¬ planConsistent e src (imageCtx src) then Answered e m 0x31 (badProfiles (imageCtx src)) t
  else if ¬ mergedHopsOk e c then Answered e m 0x31 [] t
  else if ¬ (shortfalls e src c).isEmpty then Answered e m 0x32 (shortfallBytes (shortfalls e src c)) t
  else
    Answered (placePlan e src c).2 m 0 (leBytes 4 (placePlan e src c).1) t ∧ t.cmb.fetch = some (placePlan e src c).1 ∧
      (ctxAt t (placePlan e src c).1).st = .loading ∧ (ctxAt t (placePlan e src c).1).planId = imgPlanId src.bytes ∧
      (ctxAt t (placePlan e src c).1).src = some src

/-- What Keeper answers to a PLAN_REPLACE of context k from e once its image has been read (R123, R124). -/
def ReplaceJudged (e : State) (m k : Nat) (src : PlanSource) (t : State) : Prop :=
  if ¬ replShape src then Answered e m 0x20 [] t
  else if ¬ replConsistent (ctxAt e k) src then Answered e m 0x31 [] t
  else
    match replPlan e (ctxAt e k) (replBanks src.bytes) with
    | none => Answered e m 0x33 [] t
    | some ps =>
      Answered { e with cmb := t.cmb } m (if ps.length = 1 then 0 else 2) (phasePlanBytes (ctxAt e k) ps) t ∧
        t.cmb.mem = e.cmb.mem ∧ t.cmb.fetch = some k ∧ t.cmb.fetchRepl = true ∧
        (ctxAt t k).phases.map (fun x => (x.banks, x.ready)) = ps.map (fun l => (l.map (fun b => (b / 64, b % 64)), false)) ∧
        (ctxAt t k).replSrc = some src ∧ (ctxAt t k).bankMap = (ctxAt e k).bankMap

/-- A command that waits for a DMA read of its image (R349). -/
def AtDma (s : State) (w : CmdWait) (op m : Nat) (p : List Byte) : Prop :=
  s.wg.wait = w ∧ dmaUp s = true ∧ AtCommand { s with wg.wait := .none } op m p

/-- One byte of the Comb (R109). -/
def combByte (s : State) (a : Nat) : Byte := s.cmb.mem.getAt a 0#8

/- Slot programs (R24 to R26, R153). -/

/-- The operation in front of quadrant q has ended: the operations that wait are those that stood behind it. -/
def OpEnds (s t : State) (q : Nat) : Prop :=
  (quadAt t q).todo.map (fun x => x.op) = ((quadAt s q).todo.drop 1).map (fun x => x.op)

/-- The report of a late start (R25, Table 1.7): event 0x0202 where the first operation of a list comes to the front late. -/
def lateFront : List Todo → List (Nat × Sev)
  | [] => []
  | t :: _ => if t.late then [(0x0202, .minor)] else []

/-- What the end of the operation in front of quadrant q reports of the one behind it (R25). -/
def lateNext (s : State) (q : Nat) : List (Nat × Sev) := lateFront ((quadAt s q).todo.drop 1)

/-- No operation has ended: the list of quadrant q is as it was. -/
def OpStays (s t : State) (q : Nat) : Prop := (quadAt t q).todo.map (fun x => x.op) = (quadAt s q).todo.map (fun x => x.op)

/-- Every instance of a batch has faults with a property, and the overrun policy waits for it (R247). -/
def BatchFaulted (t : State) (c adm : Nat) (P : InstFaults → Prop) : Prop :=
  ∀ i ∈ (ctxAt t c).insts, i.admitBeat = adm → P i.faults ∧ i.policyDue = true

/-- The first event raised from s to t has this code and severity. -/
def EventRaised (s t : State) (code : Nat) (sev : Sev) : Prop :=
  ∃ e ∈ t.hi.raised, e.code = code ∧ e.sev = sev ∧ e.seq = s.hi.evSeq

/-- The completion record of an instance that ends at beat edge e (R327, Table 13.5). -/
def recordOf (s : State) (c : Nat) (i : Inst) (e : Nat) : Completion :=
  { status := instStatus i.faults, agent := i.agent, admitted := true, cause := if instStatus i.faults = 0 then 0 else i.faults.cause,
    tag := i.tag, planId := (ctxAt s c).planId, n := i.n, admitBeat := i.admitBeat, doneBeat := e }

/- Hive links (chapter 12). -/

/-- Port p has taken a state with its link layer cleared, and no other port has changed its state; beside the ports and the delivery of
events nothing has changed. -/
structure PortMoved (s t : State) (p : Nat) (st : PortSt) : Prop where
  st : (portAt t p).st = st
  others : ∀ k, k ≠ p → (portAt t k).st = (portAt s k).st
  link : (portAt t p).txSeq = 0 ∧ (portAt t p).rxSeq = 0 ∧ (portAt t p).buffer = [] ∧ (portAt t p).credit = 64
  rest : t = { s with hl := { s.hl with port := t.hl.port }, hi := t.hi, hw := t.hw }
  hi : HiEvents s.hi t.hi
  hw : HwEvents s.hw t.hw

/-- A SEQ flit of a type comes in its order at an UP port of a member with a roster, from the port's neighbour unless it is
unscheduled, and is not the 32nd without an acknowledgement (R286, R295, R303). -/
structure FlitTaken (s : State) (p : Nat) (l : List Byte) (typ : Nat) : Prop where
  up : portUp s p = true
  flit : isFlit l typ = true
  crc : hcrcOk l = true
  seq : fSeq l = (portAt s p).rxSeq
  roster : s.hl.roster = true
  nbr : typ ≠ 4 → fromNbr s p l = true
  few : (portAt s p).unacked + 1 < 32
  number : p < 20

/-- The state in which a flit has been counted and its order noted (R286). -/
def rxState (s : State) (p : Nat) : State :=
  onPort s p (fun x => { x with
    rx := satAdd 64 x.rx 1, rxSeq := (x.rxSeq + 1) % 65536, gap := false, unacked := x.unacked + 1 })

end Sys2Proof.Machine
end

