-- ==== Sys2Proof/Certificates/Slice0/Obligations.lean ====
section
/-! DEFINITION. The statements for the provers, family by family of the command table. A statement names its rules; where it rests on
a choice of the model it says so and names the log entry. -/

open Sys2Proof Sys2Proof.Machine

/-- For every state whose queue holds the command c in front of rest, step is exec of c on the state with the queue rest, whatever c
and the state are. (98_reader.md) -/
def Obligations.StepRunsFront : Prop :=
  ∀ (c : Instr) (rest : List Instr) (s : State), s.pending = c :: rest → step s = exec c { s with pending := rest }

/-- For every command and every state, exec answers a next state, not a fault or a refusal, and its queue is that of the state before:
no command takes or adds a command. A step on an empty queue never stops either: while Keeper is in ROM, in FW_VERIFY or in MEMORY it
may change the readiness state and the progress code, and nothing else, and in every other state it changes nothing. That a command
which is not enabled changes nothing instead of stopping (log 3), and the queue and what an empty one does (log 19), are the
model's choices. (R7, R9, R38) -/
def Obligations.EveryCommandCompletes : Prop :=
  (∀ (c : Instr) (s : State), ∃ t, exec c s = .next t ∧ t.pending = s.pending) ∧
  (∀ (s : State), s.pending = [] → ∃ t, step s = .next t ∧
    t = { s with hi := { s.hi with readiness := t.hi.readiness, progress := t.hi.progress } } ∧
    (s.pwr.keeper = false ∨ (s.hi.readiness ≠ .rom ∧ s.hi.readiness ≠ .fwVerify ∧ s.hi.readiness ≠ .memory) → t = s))

/-- After reset the readiness state is ROM and its progress code 0; HI_RESET_CAUSE.COLD is 1 and its other bits are 0; the beat
generator does not run; RJ_NEXT_SEQ is 1 and the journal is empty; both rings are disabled with SIZE 6; the four interrupt masks
are set; no context holds a plan; no stream, ledger entry, sync object or Comb byte is listed; every mailbox is IDLE; presence is
not in force; no main domain is powered; every port is OFF; and no command waits. (R5, R44, R48, R108, R244, R367) -/
def Obligations.ResetLeaves : Prop :=
  State.reset.hi.readiness = .rom ∧ State.reset.hi.progress = 0 ∧
  State.reset.hi.cold = true ∧ State.reset.hi.hiveRst = false ∧ State.reset.hi.flr = false ∧ State.reset.hi.perstRst = false ∧
  State.reset.hi.hot = false ∧ State.reset.hi.warm = 0 ∧ State.reset.hi.quadRst = Vector.replicate 4 false ∧
  State.reset.beat.running = false ∧ State.reset.rj.next = 1 ∧ State.reset.rj.ent = [] ∧
  State.reset.hi.evr.enable = false ∧ State.reset.hi.cpr.enable = false ∧ State.reset.hi.evr.size = 6 ∧ State.reset.hi.cpr.size = 6 ∧
  State.reset.hi.intMask = 15 ∧ (∀ k, k < 4 → (ctxAt State.reset k).st = .empty) ∧ State.reset.streams = [] ∧
  State.reset.bl.ent = [] ∧ State.reset.so.obj = [] ∧ State.reset.cmb.mem = [] ∧
  (∀ m, m < 4 → (mbAt State.reset m).st = .idle) ∧ State.reset.gr.window = false ∧ State.reset.gr.qualified = false ∧
  State.reset.pwr.quad = Vector.replicate 4 false ∧ State.reset.pwr.cb = Vector.replicate 4 false ∧ State.reset.pwr.lnk = false ∧
  State.reset.pwr.xmi = false ∧ State.reset.pwr.hif = false ∧ (∀ p, p < 20 → (portAt State.reset p).st = .off) ∧
  State.reset.pending = []

/-- In the reset state the Comb, external memory and both boot NOR slots are in canonical form (MemOk), the journal and its numbers
are sound (JournalOk), and every waiting command is well formed (none waits). (R109, R234, R42, R367) -/
def Obligations.InvariantsHoldAtReset : Prop :=
  MemOk State.reset ∧ JournalOk State.reset ∧ QueueOk State.reset

/-- For every state whose memories (the Comb, external memory, the boot NOR slots) are in canonical form, addresses strictly rising
and no entry equal to what an unlisted byte reads as, every step that answers a next state leaves them in canonical form. (R109,
R234, R42, R372) -/
def Obligations.MemoriesStayCanonical : Prop :=
  ∀ (s t : State), MemOk s → step s = .next t → MemOk t

/-- For every state whose journal holds at most 8,192 entries, each with a SEQ below RJ_NEXT_SEQ, and where the command that Keeper
works on has such a SEQ, every step that answers a next state leaves all of this so. (R367, R368) -/
def Obligations.JournalStaysSound : Prop :=
  ∀ (s t : State), JournalOk s → step s = .next t → JournalOk t

/-- The seven JTAG commands, from every state, change nothing but the TAP; every other command, from every state, leaves the TAP as it
was. TRST# resets the TAP, which selects IDCODE (log 16), whether or not AON is powered. With AON powered each other command takes
the TAP out of reset and selects its instruction: IDCODE shifts out the identification code, BYPASS, CLAMP and HIGHZ a 0, and
SAMPLE/PRELOAD captures the balls and takes the cells shifted in. (R448) -/
def Obligations.TapAlone : Prop :=
  (∀ (c : Instr) (s t : State), isJtag c = true → exec c s = .next t → t = { s with jtag := t.jtag }) ∧
  (∀ (c : Instr) (s t : State), isJtag c = false → exec c s = .next t → t.jtag = s.jtag) ∧
  (∀ s : State, exec .jtagTapReset s = .next { s with jtag := { s.jtag with inReset := true, instr := .idcode } }) ∧
  (∀ s : State, s.pwr.on = true →
    exec .jtagIdcode s = .next { s with jtag := { s.jtag with inReset := false, instr := .idcode, shift := Config.jtagIdcode } } ∧
    exec .jtagBypass s = .next { s with jtag := { s.jtag with inReset := false, instr := .bypass, shift := 0 } } ∧
    exec .jtagClamp s = .next { s with jtag := { s.jtag with inReset := false, instr := .clamp, shift := 0 } } ∧
    exec .jtagHighz s = .next { s with jtag := { s.jtag with inReset := false, instr := .highz, shift := 0 } } ∧
    exec .jtagExtest s = .next { s with jtag := { s.jtag with inReset := false, instr := .extest } } ∧
    ∀ pins cells, exec (.jtagSamplePreload pins cells) s = .next { s with jtag := { s.jtag with
      inReset := false, instr := .samplePreload, captured := pins, preload := cells } })

/-- Every register is a 32-bit word at a multiple of 4. While the function answers, a BAR0 access of a width other than 4 bytes or not
aligned to 4, and an access to an undefined offset, complete; a write changes nothing but the count HI_ACCESS_ERR, which saturates
at 32 bits; a read also returns 0x0000_0000 and changes nothing else. readData is where the model keeps what the host last read.
(R3, R9) -/
def Obligations.AccessFaultsOnlyCount : Prop :=
  ∀ (s : State), (∀ off, off % 4 ≠ 0 → readReg s off = none) ∧ (hostUp s = true →
    (∀ off width, off < 0x400000 → (width ≠ 4 ∨ off % 4 ≠ 0) →
      exec (.misalignedAccess true off width) s = .next { s with hi.accessErr := min (s.hi.accessErr + 1) (2 ^ 32 - 1) } ∧
      exec (.misalignedAccess false off width) s =
        .next { s with hi.readData := [0#32], hi.accessErr := min (s.hi.accessErr + 1) (2 ^ 32 - 1) }) ∧
    (∀ off, off < 0x400000 → off % 4 = 0 → readReg s off = none →
      exec (.undefinedOffsetAccess true off) s = .next { s with hi.accessErr := min (s.hi.accessErr + 1) (2 ^ 32 - 1) } ∧
      exec (.undefinedOffsetAccess false off) s =
        .next { s with hi.readData := [0#32], hi.accessErr := min (s.hi.accessErr + 1) (2 ^ 32 - 1) }))

/-- While the function answers, a write of HI_INFLOW_STAT and of JN_FAULT of a quadrant clears the W1C bits written 1, except those
that the Atelo sets in that clock, and changes nothing else; a read of HI_ACCESS_ERR returns the old count and leaves what the
Atelo counts in that clock, and nothing else changes; a read of HI_INFLOW_DROP, which is no RC field, changes nothing but the data
read. sameClock is what the Atelo sets or counts in that clock. (R6, R7) -/
def Obligations.W1cAndRcInOneClock : Prop :=
  ∀ (s : State), hostUp s = true → ∀ (v sc : Word),
    exec (.registerWrite 0x1000C v sc) s = .next { s with
      hi.underrun := (s.hi.underrun && !v.getLsbD 0) || sc.getLsbD 0
      hi.overflow := (s.hi.overflow && !v.getLsbD 1) || sc.getLsbD 1
      hi.apPoison := (s.hi.apPoison && !v.getLsbD 4) || sc.getLsbD 4 } ∧
    (∀ q, q < 4 → exec (.registerWrite (0x70004 + 0x100 * q) v sc) s = .next (onQuad s q (fun x => { x with
      jnFmt := (x.jnFmt && !v.getLsbD 0) || sc.getLsbD 0
      jnBound := (x.jnBound && !v.getLsbD 1) || sc.getLsbD 1
      jnPoison := (x.jnPoison && !v.getLsbD 2) || sc.getLsbD 2 }))) ∧
    exec (.rcFieldRead 0x10020 sc) s = .next { s with hi.readData := [w32 s.hi.accessErr], hi.accessErr := sc.toNat } ∧
    exec (.rcFieldRead 0x10010 sc) s = .next { s with hi.readData := [w32 s.hi.drop] }

/-- While the function answers, a host write to a defined 32-bit word of the identity page other than HI_RESET_CAUSE, of the beat and
Comb controllers, or of the external memory block from XM_DLMISS_CNT up, the ledger, the sync objects, the arbiters, the links,
grafts, the journal, Understory, Heartwood and power changes nothing. (The two words of a 64-bit register are left to the
statement on pairs.) (R6) -/
def Obligations.ReadOnlyWordsIgnoreWrites : Prop :=
  ∀ (s : State) (off : Nat) (v sc : Word), hostUp s = true → (readReg s off).isSome = true →
    is64 off = false → is64 (off - 4) = false →
    ((off < 0x10000 ∧ off ≠ 0x30) ∨ (0x50000 ≤ off ∧ off < 0x70000) ∨ 0xB0014 ≤ off) →
    exec (.registerWrite off v sc) s = .next s

/-- While the function answers: a read of the low word returns it and latches the high word of that register, and of no other; a read
of the high word while the latch is set returns the latched value, whatever the register holds now, and clears the latch; a read
of the high word without a latch returns the live value; a write to the high word is held for the low word, and clears the latch.
Nothing else changes. (R4) -/
def Obligations.SixtyFourBitPairs : Prop :=
  ∀ (s : State) (off : Nat) (v w : Word), hostUp s = true → is64 off = true → readReg s off = some v → readReg s (off + 4) = some w →
    Runs (.lowWordRead off) s (fun t => t = { s with hi.readData := [v], hi.latch := t.hi.latch } ∧
      t.hi.latch.find off = some w.toNat ∧ ∀ o, o ≠ off → t.hi.latch.find o = s.hi.latch.find o) ∧
    (∀ h u, s.hi.latch.find off = some h →
      exec (.rcFieldRead (off + 4) u) s = .next { s with hi.readData := [w32 h], hi.latch := s.hi.latch.eraseAt off }) ∧
    (∀ u, s.hi.latch.find off = none → exec (.rcFieldRead (off + 4) u) s = .next { s with hi.readData := [w] }) ∧
    (∀ x, Runs (.highWordWrite (off + 4) x) s (fun t =>
      t = { s with hi.held := t.hi.held, hi.latch := s.hi.latch.eraseAt off } ∧ t.hi.held.find off = some x.toNat))

/-- While the function answers, for either ring: a CFG write that sets ENABLE on a disabled ring with SIZE 6 to 16 puts HEAD and TAIL
to 0 and PHASE to 1 and delivers what waits; a write of BASE aligned to the ring on a disabled ring sets it, with the high word
held; a write of HEAD on the path from HEAD to TAIL is taken and what waits is delivered. A write of HI_INTMASK stores its low
four bits; afterwards no vector 0 to 3 stays pending that neither mask suppresses; a vector that the new mask suppresses keeps its
pending bit; and nothing but the pending bits and the signalled vectors changes. ringRoom is the delivery of what waits (R41,
R328). (R329, R331, R4, R41, R328) -/
def Obligations.RingAndMaskSetupByTheHost : Prop :=
  ∀ (s : State), hostUp s = true →
    (∀ c, (∀ cfg : Word, (ringAt s c).enable = false → cfg.getLsbD 31 = true → 6 ≤ cfg.toNat % 32 → cfg.toNat % 32 ≤ 16 →
        exec (.ringEnable c cfg) s = .next (ringRoom (onRing s c (fun r => { r with
          size := cfg.toNat % 32, minSev := if c then 0 else cfg.toNat / 256 % 4, enable := true, head := 0, tail := 0, phase := true })) c)) ∧
      (∀ (lo : Word) (hi : Nat), s.hi.held.find (if c then 0x10060 else 0x10040) = some hi → (ringAt s c).enable = false →
        (hi * 2 ^ 32 + lo.toNat) % (64 * (ringAt s c).count) = 0 →
        Runs (.ringSetupWrite c 0 lo) s (fun t => (ringAt t c).base = hi * 2 ^ 32 + lo.toNat ∧
          t = onRing { s with hi.held := t.hi.held, hi.latch := t.hi.latch } c (fun r => { r with base := hi * 2 ^ 32 + lo.toNat }))) ∧
      (∀ v : Word, v.toNat % 2 ^ 16 < (ringAt s c).count →
        (v.toNat % 2 ^ 16 + (ringAt s c).count - (ringAt s c).head) % (ringAt s c).count ≤
          ((ringAt s c).tail + (ringAt s c).count - (ringAt s c).head) % (ringAt s c).count →
        exec (.ringHeadWrite c v) s = .next (ringRoom (onRing s c (fun r => { r with head := v.toNat % 2 ^ 16 })) c))) ∧
    (∀ v : Word, Runs (.intmaskWrite v) s (fun t => t.hi.intMask = v.toNat % 16 ∧
      t = { s with hi.intMask := t.hi.intMask, hi.signals := t.hi.signals, hi.msixPend := t.hi.msixPend } ∧
      ∀ k, k < 4 →
        ((v.toNat / 2 ^ k % 2 = 0 ∧ vget s.hi.msixMask k true = false) → vget t.hi.msixPend k false = false) ∧
        ((v.toNat / 2 ^ k % 2 = 1 ∨ vget s.hi.msixMask k true = true) → vget t.hi.msixPend k false = vget s.hi.msixPend k false)))

/-- While the function answers, for either ring: a CFG write whose SIZE is outside 6 to 16, or differs from the SIZE of an enabled
ring, leaves SIZE (of the enabled ring when ENABLE stays 1: nothing but MIN_SEV changes, and what waits is delivered where there
is room); a write of BASE to an enabled ring, or unaligned to the ring size, leaves BASE, and nothing but the write hold and read
latch of its register changes; a write of HEAD at or above the record count, or off the path from HEAD forward to TAIL inclusive,
changes nothing, HEAD included, so that ring-full detection goes on from it. Each adds one to HI_ACCESS_ERR, which saturates.
(R333) -/
def Obligations.IgnoredRingWritesCount : Prop :=
  ∀ (s : State) (c : Bool), hostUp s = true →
    (∀ cfg : Word, (cfg.toNat % 32 < 6 ∨ 16 < cfg.toNat % 32 ∨ ((ringAt s c).enable = true ∧ cfg.toNat % 32 ≠ (ringAt s c).size)) →
      Runs (.ringSetupWrite c 2 cfg) s (fun t => (ringAt t c).size = (ringAt s c).size ∧ t.hi.accessErr = satAdd 32 s.hi.accessErr 1) ∧
      Runs (.ringEnable c cfg) s (fun t => (ringAt t c).size = (ringAt s c).size ∧ t.hi.accessErr = satAdd 32 s.hi.accessErr 1) ∧
      ((ringAt s c).enable = true → cfg.getLsbD 31 = true → exec (.ringSetupWrite c 2 cfg) s =
        .next (ringRoom (onRing (accessErr s) c (fun r => { r with minSev := if c then 0 else cfg.toNat / 256 % 4 })) c))) ∧
    (∀ (lo : Word) (hi : Nat),
      (s.hi.held.find (if c then 0x10060 else 0x10040)).getD ((ringAt s c).base / 2 ^ 32) = hi →
      ((ringAt s c).enable = true ∨ (hi * 2 ^ 32 + lo.toNat) % (64 * (ringAt s c).count) ≠ 0) →
      Runs (.ringSetupWrite c 0 lo) s (fun t => t = accessErr { s with hi.held := t.hi.held, hi.latch := t.hi.latch })) ∧
    (∀ v : Word, ((ringAt s c).count ≤ v.toNat % 2 ^ 16 ∨
        ((ringAt s c).tail + (ringAt s c).count - (ringAt s c).head) % (ringAt s c).count <
          (v.toNat % 2 ^ 16 + (ringAt s c).count - (ringAt s c).head) % (ringAt s c).count) →
      exec (.ringHeadWrite c v) s = .next (accessErr s))

/-- While the function answers, FLUSH_NOW empties the queue and the packer at once, an open packet included, and counts the packets
flushed; FLUSH_PKT waits with FLUSH_PEND set while a packet in the queue or the packer lacks its end mark, and otherwise flushes
at once; the wait ends at the point where no packet lacks its end mark. Nothing else changes. That the open packet counts as
flushed is the model's choice (log 61). (R319) -/
def Obligations.InflowFlushes : Prop :=
  ∀ (s : State), hostUp s = true →
    exec .flushNow s = .next { s with
      hi.flushed := satAdd 32 s.hi.flushed (inflowPkts s + bit1 (packetOpen s)), hi.queue := [], hi.packer := []
      hi.flushPend := false, hi.discarding := false } ∧
    (packetOpen s = true → exec .flushPkt s = .next { s with hi.flushPend := true }) ∧
    (packetOpen s = false → exec .flushPkt s = .next { s with
      hi.flushed := satAdd 32 s.hi.flushed (inflowPkts s), hi.queue := [], hi.packer := [], hi.flushPend := false
      hi.discarding := false }) ∧
    (packetOpen s = false → s.hi.flushPend = true → exec .flushPktComplete s = .next { s with
      hi.flushed := satAdd 32 s.hi.flushed (inflowPkts s), hi.queue := [], hi.packer := [], hi.flushPend := false
      hi.discarding := false }) ∧
    (packetOpen s = true → exec .flushPktComplete s = .next s)

/-- A rise of AON_PWRGD with VDD_AON in range, and the end of a brown-out with AON_PWRGD high, is a cold reset: every block takes its
reset value, HI_RESET_CAUSE shows COLD, while Heartwood's log, map and erase counts and both boot NOR slots stay, one more boot is
counted, and the TAP and PERST# stay as they are. A fall of AON_PWRGD and a brown-out leave AON off, every switched domain
unpowered, RAIL_EN low, the link down, no beat and no instance. A recovery with AON_PWRGD low only ends the brown-out. A
power-fail warning while AON runs opens every switch, drives RAIL_EN low, loses every instance and stops the device. What the
reset values are where the rules give none is the model's choice (INVENTORY.md); that external memory reads as lost after a cold
reset is log 4. (R434, R435, R436, R437, R438, R44, R5) -/
def Obligations.AonSupply : Prop :=
  (∀ s : State, ((s.pwr.pwrgd = false ∧ s.pwr.brown = false) → Runs .aonPowerGood s (ColdLeft s)) ∧
    ((s.pwr.brown = true ∧ s.pwr.pwrgd = true) → Runs .aonSupplyRecovery s (ColdLeft s)) ∧
    ((s.pwr.brown = true ∧ s.pwr.pwrgd = false) → exec .aonSupplyRecovery s = .next { s with pwr.brown := false } ∧
      exec .aonPowerGood s = .next { s with pwr.pwrgd := true }) ∧
    (s.pwr.pwrgd = true → Runs .aonPowerGoodFall s (fun t => SwitchesOpen t ∧ t.pwr.pwrgd = false ∧ t.pwr.on = false ∧ t.pwr.keeper = false)) ∧
    (s.pwr.brown = false → Runs .aonBrownOut s (fun t => SwitchesOpen t ∧ t.pwr.brown = true ∧ t.pwr.on = false ∧ t.pwr.keeper = false)) ∧
    (alive s = true → Runs .powerFailWarning s (fun t => SwitchesOpen t ∧ alive t = false ∧ t.pwr.on = true ∧ t.pwr.keeper = false)))

/-- With AON running and HIF powered, PERST# assertion, and with the link up a hot reset and (once the function is
configuration-ready) a function-level reset, empty the Inflow queue and the packer, put the masks, the MSI-X table, the aperture
and both rings to their reset values, and set their bit of HI_RESET_CAUSE; PERST# also takes the link down, the others leave it
up; plans keep running: with no plan fetch in progress, which the reset would fail, nothing changes outside HIF, the mailboxes and
the place of the aperture in the arbiters, from which the access of the host goes. PERST# with HIF unpowered only holds the link
and sets its cause bit. That Bus Master Enable is cleared is PRESUMED (log 20). (R44, R49, R332, R444, R354) -/
def Obligations.PcieResets : Prop :=
  ∀ s : State, alive s = true →
    (s.pwr.hif = true → s.hi.perst = false →
      Runs .perstAssert s (fun t => HifCleared s t ∧ t.hi.perst = true ∧ t.hi.link = false ∧ t.hi.perstRst = true ∧
        (NoFetch s → t.hi.hot = s.hi.hot ∧ t.hi.flr = s.hi.flr))) ∧
    (s.pwr.hif = false → s.hi.perst = false →
      exec .perstAssert s = .next { s with hi.perst := true, hi.link := false, hi.perstRst := true }) ∧
    (s.pwr.hif = true → s.hi.perst = false → s.hi.link = true →
      Runs .pcieHotReset s (fun t => HifCleared s t ∧ t.hi.hot = true ∧
        (NoFetch s → t.hi.perst = false ∧ t.hi.link = true ∧ t.hi.perstRst = s.hi.perstRst ∧ t.hi.flr = s.hi.flr))) ∧
    (s.pwr.hif = true → s.hi.perst = false → s.hi.link = true → s.hi.cfgReady = true →
      Runs .functionLevelReset s (fun t => HifCleared s t ∧ t.hi.flr = true ∧
        (NoFetch s → t.hi.perst = false ∧ t.hi.link = true ∧ t.hi.perstRst = s.hi.perstRst ∧ t.hi.hot = s.hi.hot)))

/-- PERST# deassertion trains the link exactly where AON runs and HIF is powered, and changes nothing else. A configuration request to
a powered, linked function is answered with Retry Status until the function is configuration-ready, and changes nothing else then;
afterwards a write that clears Bus Master Enable clears it, one that sets it lets what waits for the host be delivered. D3hot
stops the function from answering; back in D0 what waited is delivered. The link trains within one step, log 42. That Bus Master
Enable stands in the model is log 20. (R32, R308, R310, R444) -/
def Obligations.PciConfiguration : Prop :=
  ∀ s : State,
    (s.hi.perst = true → exec .perstDeassert s = .next { s with hi.perst := false, hi.link := alive s && s.pwr.hif }) ∧
    (alive s = true → s.pwr.hif = true → s.hi.link = true → s.hi.perst = false →
      (∀ b, s.hi.cfgReady = false → exec (.configRequest b) s = .next { s with hi.crs := true }) ∧
      (s.hi.cfgReady = true →
        exec (.configRequest none) s = .next { s with hi.crs := false } ∧
        exec (.configRequest (some false)) s = .next { s with hi.crs := false, hi.bme := false } ∧
        exec (.configRequest (some true)) s = .next (hostBack { s with hi.crs := false, hi.bme := true }) ∧
        exec (.pciPowerStateChange true) s = .next { s with hi.d3hot := true } ∧
        exec (.pciPowerStateChange false) s = .next (hostBack { s with hi.d3hot := false })))

/-- With AON running: ROM_START starts Keeper, which reads the fuses (0x01) and judges the references: with HIVE_REF valid it selects
HIVE_REF, else LOCAL_REF if that is valid, and PLL-B acquires; with neither it checks again. The next step with no command waiting
shows CLOCKING with the reference found, HIVE_REF 0x10 or LOCAL_REF 0x11, or with none 0x1F (that an idle step ends ROM is log 19).
After a warm reset with PLL-B locked the step passes at once (0x12). A recheck while no reference was valid judges the same way. The
lock of PLL-B with a reference found starts the safe clock, raises RAIL_EN and shows 0x12; a later one ends a holdover. PLL-B
unlocked too long enters FAILED with code 0x80, FAIL_STEP the code of the step, and event 0x0D85 Critical. HIF power-good opens
FW_VERIFY (0x20), with the link up unless PERST# holds it. Nothing else changes, Heartwood's BOOT record apart. (R30, R51, R52,
R53, R45, R66, R104, R435, R444, R38) -/
def Obligations.BootClocking : Prop :=
  ∀ s : State, alive s = true →
    (s.pwr.keeper = false → s.syn.bLocked = true → ∀ h l, exec (.romStart h l) s = .next { s with
      pwr.keeper := true, pwr.hwRst := false, hi.readiness := .clocking, hi.progress := 0x12 }) ∧
    (s.pwr.keeper = false → s.syn.bLocked = false → ∀ h l,
      Runs (.romStart h l) s (RefJudged { s with pwr.keeper := true, pwr.hwRst := false } h l .rom 0x01)) ∧
    (s.pwr.keeper = true → s.hi.readiness = .rom → s.pending = [] → step s = .next { s with
      hi.readiness := .clocking
      hi.progress := if s.syn.refFound then (if s.syn.refSel = .hive then 0x10 else 0x11) else 0x1F }) ∧
    (s.pwr.keeper = true → (s.hi.readiness = .rom ∨ s.hi.readiness = .clocking) → s.syn.refFound = false → s.syn.bLocked = false → ∀ h l,
      Runs (.referenceRecheck h l) s (RefJudged s h l .clocking (if h then 0x10 else if l then 0x11 else 0x1F))) ∧
    (∀ vt, s.syn.b.ld = .acquire → s.syn.refFound = true →
      (s.syn.bLocked = false → exec (.lockAcquired ⟨.b, vt⟩) s = .next { s with
        syn.b := { s.syn.b with ld := .locked, viol := [] }, syn.bLocked := true, syn.src := .safe, pwr.railEn := true
        hi.readiness := .clocking, hi.progress := 0x12 }) ∧
      (s.syn.bLocked = true → exec (.lockAcquired ⟨.b, vt⟩) s = .next { s with
        syn.b := { s.syn.b with ld := .locked, viol := [] }, syn.holdover := false, syn.holdBeats := 0 })) ∧
    (s.pwr.keeper = true → s.hi.readiness = .clocking → s.syn.refFound = true → s.syn.bLocked = false →
      Runs .pllBLockTimeout s (fun t => t = { s with hi := t.hi, hw := t.hw } ∧
        t.hi.readiness = .failed ∧ t.hi.progress = 0x80 ∧ t.hi.failStep = s.hi.progress ∧ Logs s t [(0x0D85, .critical)])) ∧
    (s.pwr.keeper = true → s.pwr.hif = false → s.pwr.railEn = true → s.hi.readiness = .clocking → s.syn.bLocked = true →
      exec .hifPowerGood s = .next { s with
        pwr.hif := true, hi.link := !s.hi.perst, hi.readiness := .fwVerify, hi.progress := 0x20 })

/-- While Keeper verifies an image, a step with no command waiting moves the code from 0x20 to 0x21, or from 0x22 to 0x23 (log 19). An
image with a well-formed header, of at most 768 KiB, whose signature checks, from a slot no load has invalidated, runs: the function is
configuration-ready, the version and the board record are those of the image, the code is 0x24, and event 0x0D81 Major is raised
if it is image B; an image A that does not verify is marked and image B is tried (0x22); an image B that does not verify enters
RECOVERY with code 0x70, FAIL_STEP 0x23, the function configuration-ready and event 0x0D82 Critical. A verification while the JTAG
port holds the NOR bus fails (log 46). (R42, R43, R32, R38) -/
def Obligations.BootFirmware : Prop :=
  ∀ (s : State) (img : ImageInfo), alive s = true → s.pwr.keeper = true → s.hi.readiness = .fwVerify → s.hi.fwRuns = false →
    (s.pending = [] → (s.hi.progress = 0x20 → step s = .next { s with hi.progress := 0x21 }) ∧
      (s.hi.progress = 0x22 → step s = .next { s with hi.progress := 0x23 })) ∧
    (img.header = true → img.len ≤ 786432 → img.signed = true → ballsTaken s = false → slotBad s (bit1 s.hi.tryingB) = false →
      Runs (.imageVerifyComplete img) s (fun t => t = { s with hi := t.hi, hw := t.hw, fw := t.fw, us := t.us } ∧
        t.hi.fwRuns = true ∧ t.hi.cfgReady = true ∧ t.hi.imageB = s.hi.tryingB ∧ t.hi.fwMajor = img.major % 256 ∧
        t.hi.fwMinor = img.minor % 256 ∧ t.hi.fwBuild = img.build % 65536 ∧ t.fw.board = img.board ∧
        t.fw.slotA = s.fw.slotA ∧ t.fw.slotB = s.fw.slotB ∧ t.hi.readiness = .fwVerify ∧ t.hi.progress = 0x24 ∧
        Logs s t (if s.hi.tryingB then [(0x0D81, .major)] else []))) ∧
    ((img.header = false ∨ 786432 < img.len ∨ img.signed = false ∨ ballsTaken s = true ∨ slotBad s (bit1 s.hi.tryingB) = true) →
      s.hi.tryingB = false →
      exec (.imageVerifyComplete img) s = .next { s with
        hi.imageAFail := true, hi.tryingB := true, hi.readiness := .fwVerify, hi.progress := 0x22 }) ∧
    ((img.header = false ∨ 786432 < img.len ∨ img.signed = false ∨ ballsTaken s = true ∨ slotBad s (bit1 s.hi.tryingB) = true) →
      s.hi.tryingB = true →
      Runs (.imageVerifyComplete img) s (fun t => t = { s with hi := t.hi, hw := t.hw } ∧ t.hi.readiness = .recovery ∧
        t.hi.progress = 0x70 ∧ t.hi.failStep = 0x23 ∧ t.hi.recovery = true ∧ t.hi.cfgReady = true ∧ t.hi.imageBFail = true ∧
        t.hi.fwRuns = false ∧ Logs s t [(0x0D82, .critical)]))

/-- With verified firmware, the next of the nine windows powers its domain: a quadrant, which then runs BIST (not while a thermal trip
holds it down), a Comb slice, which reads zero throughout, or external memory; the code is 0x30 plus the window, and once every
domain is up or disabled MEMORY begins (0x40). A quadrant that passes BIST is enabled; one that fails is disabled and unpowered
with event 0x0D83 Major, and with all four disabled the device enters FAILED (0x82, event 0x0D85). Memory training raises 0x0D86
Major for each channel that failed, keeps those that passed, and opens LINKS (0x50, or 0x51 with a port in training), or enters
FAILED with code 0x83 where none passed; by a board record outside the options of Table 10.1 none passes. (R31, R35, R36, R47, R109,
R232) -/
def Obligations.BootDomains : Prop :=
  ∀ s : State, alive s = true →
    (s.pwr.keeper = true → s.hi.fwRuns = true → (s.hi.readiness = .fwVerify ∨ s.hi.readiness = .domains) →
      (s.hi.window < 4 → s.pwr.tripped = false → Runs .domainWindow s (fun t =>
        t = { s with pwr := t.pwr, hi := t.hi } ∧ t.hi.window = s.hi.window + 1 ∧
        t.pwr.quad = vput s.pwr.quad s.hi.window true ∧ t.hi.bist = vput s.hi.bist s.hi.window true ∧ WindowCode s t)) ∧
      (4 ≤ s.hi.window → s.hi.window < 8 → s.hw.scanned = true → SMap.wf s.cmb.mem 0#8 = true → Runs .domainWindow s (fun t =>
        t = { s with pwr := t.pwr, hi := t.hi, cmb := t.cmb } ∧ t.hi.window = s.hi.window + 1 ∧
        t.pwr.cb = vput s.pwr.cb (s.hi.window - 4) true ∧
        (∀ o, o < 0x18000000 → t.cmb.mem.getAt (combAddr (s.hi.window - 4) 0 o) 0#8 = 0#8) ∧
        (∀ a, (a < combAddr (s.hi.window - 4) 0 0 ∨ combAddr (s.hi.window - 3) 0 0 ≤ a) →
          t.cmb.mem.getAt a 0#8 = s.cmb.mem.getAt a 0#8) ∧ WindowCode s t)) ∧
      (s.hi.window = 8 → s.hw.scanned = true → Runs .domainWindow s (fun t =>
        t = { s with pwr := { s.pwr with xmi := true }, hi := t.hi } ∧ t.hi.window = 9 ∧ WindowCode s t))) ∧
    (∀ q : Quad, vget s.hi.bist q.val false = true →
      Runs (.quadrantBistComplete q true) s (fun t => t = { s with hi := t.hi } ∧ vget t.hi.bist q.val true = false ∧
        vget t.hi.quadOff q.val true = false) ∧
      Runs (.quadrantBistComplete q false) s (fun t => vget t.hi.bist q.val true = false ∧ vget t.hi.quadOff q.val false = true ∧
        vget t.pwr.quad q.val true = false ∧ (quadAt t q.val).todo = [] ∧
        (if (List.range 4).all (fun k => vget (vput s.hi.quadOff q.val true) k false) then
          t.hi.readiness = .failed ∧ t.hi.progress = 0x82 ∧ Logs s t [(0x0D83, .major), (0x0D85, .critical)]
        else Logs s t [(0x0D83, .major)]))) ∧
    (∀ passed ok : BitVec 8, s.pwr.keeper = true → s.hi.readiness = .memory → s.pwr.xmi = true →
      ok = (if wfBoard s.fw.board then passed else 0#8) →
      Runs (.lpddrTrainingComplete passed) s (fun t => t = { s with hi := t.hi, hw := t.hw, xm := t.xm, syn := t.syn } ∧
        t.xm.chanOk = ok.toNat ∧ t.xm.mem = s.xm.mem ∧
        (ok ≠ 0#8 → t.xm.trained = true ∧ t.hi.readiness = .links ∧
          (t.hi.progress = if (List.range 20).any (fun p => (portAt s p).st == .training) then 0x51 else 0x50) ∧
          Logs s t (((List.range 8).filter (fun i => !ok.getLsbD i)).map (fun _ => (0x0D86, Sev.major)))) ∧
        (ok = 0#8 → t.hi.readiness = .failed ∧ t.hi.progress = 0x83 ∧
          Logs s t (List.replicate 8 (0x0D86, Sev.major) ++ [(0x0D85, .critical)]))))

/-- In LINKS with verified firmware, every main domain powered or disabled, external memory trained and no port still in power-up
training, READY_REACHED in the last slot of a beat puts the readiness state READY and the code 0x60, stores the time from the
anchor, saturating at 32 bits, raises event 0x0D80 Info at the number of the coming edge, and changes nothing else but the
delivery of that event and the BOOT record. That READY waits for its row is log 42. (R37, R40, R38, R456) -/
def Obligations.BootReady : Prop :=
  ∀ (s : State) (us : Nat), edgeNear s = true → readyNow s = true →
    Runs (.readyReached us) s (fun t => t = { s with hi := t.hi, hw := t.hw } ∧ t.hi.readiness = .ready ∧ t.hi.progress = 0x60 ∧
      t.hi.bootUs = min us (2 ^ 32 - 1) ∧ Logs s t [(0x0D80, .info)] ∧
      ∃ e ∈ t.hi.raised, e.code = 0x0D80 ∧ e.beat = edgeNum s ∧ e.seq = s.hi.evSeq)

/-- A well-formed graftable command that Keeper works on, with nothing staged and its target beat 0 or ahead, is answered STAGED and
stands in the list of staged changes, for its target beat or, where that is 0, for the edge two after that of its round; nothing
else changes but the answer. It is staged when: PLAN_ACTIVATE names a plan in STANDBY; PLAN_DEACTIVATE one that is INSTALLED;
PLAN_SWAP one whose next phase is ready; XM_SHARE names quotas of at most 1,024 in sum; BEAT_MASTER_EN and HIVE_RESET always;
REF_SELECT names the other reference, which is valid as Keeper judges both (log 128); HIVE_ROSTER is consistent; HIVE_KEY_SWITCH
finds the other slot filled; PWR_TOLERANCE names the device or a loaded plan. (R356, R134, R124, R252, R108, R307, R302, R46, R50, R421) -/
def Obligations.StagedAlone : Prop :=
  ∀ (s : State) (m : Nat) (p : List Byte),
    (∀ k, StageReady s 0x102 m p → ctxOf s (leAt p 0 8) = some k → (ctxAt s k).st = .standby →
      Runs .planActivate s (StagedAt s 0x102 m p)) ∧
    (∀ k, StageReady s 0x103 m p → ctxOf s (leAt p 0 8) = some k → (ctxAt s k).st = .installed →
      Runs .planDeactivate s (StagedAt s 0x103 m p)) ∧
    (∀ k ph r, StageReady s 0x106 m p → ctxOf s (leAt p 0 8) = some k → (ctxAt s k).phases = ph :: r → ph.ready = true →
      Runs .planSwap s (StagedAt s 0x106 m p)) ∧
    (StageReady s 0x510 m p → (quotasOf p).sum ≤ 1024 → Runs .xmShare s (StagedAt s 0x510 m p)) ∧
    (StageReady s 0x601 m p → Runs .beatMasterEn s (StagedAt s 0x601 m p)) ∧
    (StageReady s 0x602 m p → refValid s (refOfByte (leAt p 0 1)) = true → s.syn.refSel ≠ refOfByte (leAt p 0 1) →
      Runs .refSelect s (StagedAt (checkRefs s) 0x602 m p)) ∧
    (StageReady s 0x603 m p → rosterOk s p = true → Runs .hiveRoster s (StagedAt s 0x603 m p)) ∧
    (StageReady s 0x605 m p → keyInstalled (keyAhead s) = true → Runs .hiveKeySwitch s (StagedAt s 0x605 m p)) ∧
    (StageReady s 0x610 m p → Runs .hiveReset s (StagedAt s 0x610 m p)) ∧
    (∀ k, StageReady s 0x701 m p → (leAt p 0 8 = 0 ∨ ctxOf s (leAt p 0 8) = some k) → Runs .pwrTolerance s (StagedAt s 0x701 m p))

/-- With nothing staged and the target beat 0 or ahead: SYN_HOLD freeze and safe clock are answered STAGED, and release where a hold
is in force; STREAM_CTL pause, reset and end are answered STAGED for a stream of a loaded plan that has not ended, and resume
where it is paused; the command stands in the list of staged changes for its edge and nothing else changes but the answer. A
release without a hold, and an action on an ended stream, are answered INCONSISTENT (0x31) and stage nothing. (R356, R86, R225,
R231) -/
def Obligations.StagedHoldsAndStreams : Prop :=
  ∀ (s : State) (m : Nat) (p : List Byte),
    (StageReady s 0x202 m p →
      (leAt p 0 1 = 1 → Runs .synHoldFreeze s (StagedAt s 0x202 m p)) ∧
      (leAt p 0 1 = 2 → Runs .synHoldSafeClock s (StagedAt s 0x202 m p)) ∧
      (leAt p 0 1 = 0 → s.syn.hold ≠ .none → Runs .synHoldRelease s (StagedAt s 0x202 m p)) ∧
      (leAt p 0 1 = 0 → s.syn.hold = .none → Runs .synHoldRelease s (Answered s m 0x31 []))) ∧
    (∀ k, StageReady s 0x110 m p → ctxOf s (leAt p 0 8) = some k → leAt p 16 1 < (ctxAt s k).rcsCount →
      ((streamAt s ((ctxAt s k).rcsBase + leAt p 16 1)).st ≠ .ended →
        (leAt p 17 1 = 0 → Runs .streamCtlPause s (StagedAt s 0x110 m p)) ∧
        (leAt p 17 1 = 1 → (streamAt s ((ctxAt s k).rcsBase + leAt p 16 1)).st = .paused →
          Runs .streamCtlResume s (StagedAt s 0x110 m p)) ∧
        (leAt p 17 1 = 2 → Runs .streamCtlReset s (StagedAt s 0x110 m p)) ∧
        (leAt p 17 1 = 3 → Runs .streamCtlEnd s (StagedAt s 0x110 m p))) ∧
      ((streamAt s ((ctxAt s k).rcsBase + leAt p 16 1)).st = .ended →
        leAt p 17 1 = 3 → Runs .streamCtlEnd s (Answered s m 0x31 [])))

/-- A warm reset that Keeper starts once its round is over (RESET_WARM or a recovery load), and one that the watchdog (WARM = 2) or a
lockstep mismatch (WARM = 3) forces, write their cause into WARM and keep the W1C bits; PLL-B stays as it is and the beat number
and its period are kept; Keeper state and mailboxes, Comb contents, plans, streams, the ledger, sync objects, feeders and external
memory contents are cleared; grafts open and staged are discarded, presence and seal stay; the journal keeps its entries, the
completion backlog, the overrun and late counts, both boot NOR slots and the thermal trip stay; every switched domain loses power
and Keeper stops until ROM_START. A forced one raises event 0x0D84 Major (after 0x0707 for a chunk that it aborts). Which counts
without a rule are kept is log 43. (R45, R48, R335, R380, R229, R427) -/
def Obligations.WarmResets : Prop :=
  ∀ s : State, alive s = true → s.pwr.keeper = true →
    (∀ c, s.hi.warmDue = some c → keeperFree s = true → Runs .warmReset s (fun t => WarmLeft s c t ∧
      ((∀ q, q < 4 → (quadAt s q).chunk = none) → Logs s t []))) ∧
    Runs .keeperWatchdogExpiry s (fun t => WarmLeft s 2 t ∧
      ((∀ q, q < 4 → (quadAt s q).chunk = none) → Logs s t [(0x0D84, .major)])) ∧
    Runs .lockstepMismatch s (fun t => WarmLeft s 3 t ∧
      ((∀ q, q < 4 → (quadAt s q).chunk = none) → Logs s t [(0x0D84, .major)]))

/-- In the last slot of a beat, a quadrant with a reset due is cleared: its sticky JN, ARR and FUS fault bits read 0, it holds no
pass, chunk or queued operation, its counters stay, its bit of HI_RESET_CAUSE.QUAD is set, and, unless a thermal trip holds it
down, it is powered and runs BIST; the other quadrants, the beat, the Comb contents, the ledger, the links, the mailboxes, grafts
and the journal stay as they were. (R47, R48, R427) -/
def Obligations.QuadrantReset : Prop :=
  ∀ (s : State) (q : Quad) (fault : Bool), edgeNear s = true →
    (quadAt s q.val).resetDue = true ∨ (fault = true ∧ s.pwr.keeper = true ∧ vget s.hi.quadOff q.val false = false) →
    Runs (.quadrantReset ⟨q, fault⟩) s (fun t =>
      (quadAt t q.val).resetDue = false ∧ (quadAt t q.val).todo = [] ∧ (quadAt t q.val).run = none ∧ (quadAt t q.val).chunk = none ∧
      (quadAt t q.val).jnPoison = false ∧ (quadAt t q.val).jnBound = false ∧ (quadAt t q.val).jnFmt = false ∧
      (quadAt t q.val).arrPoison = false ∧ (quadAt t q.val).arrNan = false ∧ (quadAt t q.val).fusPoisonOut = false ∧
      (quadAt t q.val).jnPasses = (quadAt s q.val).jnPasses ∧ (quadAt t q.val).arrSatx = (quadAt s q.val).arrSatx ∧
      (quadAt t q.val).fusTiles = (quadAt s q.val).fusTiles ∧ t.hi.quadRst = vput s.hi.quadRst q.val true ∧
      (s.pwr.tripped = false → vget t.pwr.quad q.val false = true ∧ vget t.hi.bist q.val false = true) ∧
      (s.pwr.tripped = true → t.pwr = s.pwr ∧ t.hi.bist = s.hi.bist) ∧
      (∀ k, k < 4 → k ≠ q.val → quadAt t k = quadAt s k) ∧
      t.beat = s.beat ∧ t.syn = s.syn ∧ t.cmb.mem = s.cmb.mem ∧ t.bl = s.bl ∧ t.hl = s.hl ∧ t.wg = s.wg ∧ t.gr = s.gr ∧ t.rj = s.rj)

/-- RESET_WARM with an empty payload is answered OK and notes the reset that follows the round; RESET_QUAD of a quadrant that is not
disabled is answered OK and notes the reset for the next edge, of a disabled one NO_SUCH_OBJECT (0x30), of any other payload
BAD_PAYLOAD (0x20); nothing else changes but the answer. (R50, R47) -/
def Obligations.ResetCommands : Prop :=
  ∀ (s : State) (m : Nat) (p : List Byte),
    (AtCommand s 0x710 m [] → Runs .resetWarm s (Answered { s with hi.warmDue := some 1 } m 0 [])) ∧
    (∀ q, q < 4 → AtCommand s 0x711 m [BitVec.ofNat 8 q] →
      (vget s.hi.quadOff q false = false → Runs .resetQuad s (Answered (onQuad s q (fun x => { x with resetDue := true })) m 0 [])) ∧
      (vget s.hi.quadOff q false = true → Runs .resetQuad s (Answered s m 0x30 []))) ∧
    (AtCommand s 0x711 m p → (p.length ≠ 1 ∨ 3 < leAt p 0 1) → Runs .resetQuad s (Answered s m 0x20 []))

/-- For every state and every command other than BEAT_EDGE, SLOT_BOUNDARY, SLOT_GUARD_START and the two commands that are a cold
reset, a next state has the same beat number, slot number and slot guard. BEAT_EDGE, where it acts, makes the number 0 at the
first edge after PLL-B locks, and otherwise the number one greater or the one that the generator adopts from its Hive, with slot 0
and no guard. (R15, R16, R45, R48, R100) -/
def Obligations.OnlyBeatRowsMoveTheBeat : Prop :=
  (∀ (c : Instr) (s t : State), movesBeat c = false → exec c s = .next t →
    t.beat.num = s.beat.num ∧ t.beat.slot = s.beat.slot ∧ t.beat.guard = s.beat.guard) ∧
  (∀ (env : EdgeEnv) (s t : State), exec (.beatEdge env) s = .next t →
    t = s ∨ (t.beat.slot = 0 ∧ t.beat.guard = false ∧
      t.beat.num = if s.beat.running then s.beat.adopt.getD (s.beat.num + 1) else 0))

/-- With AON running: once PLL-B has locked the first beat edge starts the beat at number 0, slot 0; in slot 127 with its guard begun,
the next edge adds 1 to the number, or takes the number adopted from the Hive, and begins slot 0; with the guard begun and the
slot below 127, the boundary begins the next slot of the same beat; the guard of a slot begins once, in the same slot, and where
the core clock is gated it changes nothing else but the note that the hop of the next slot has been cancelled, which is over.
(R15, R16, R76, R100) -/
def Obligations.BeatEdgesSlotsAndGuards : Prop :=
  ∀ s : State, alive s = true →
    (∀ env, s.beat.running = false → s.syn.bLocked = true →
      Runs (.beatEdge env) s (fun t => t.beat.num = 0 ∧ t.beat.slot = 0 ∧ t.beat.guard = false)) ∧
    (∀ env, s.beat.running = true → s.beat.slot = 127 → s.beat.guard = true →
      Runs (.beatEdge env) s (fun t => t.beat.num = s.beat.adopt.getD (s.beat.num + 1) ∧ t.beat.slot = 0 ∧ t.beat.guard = false)) ∧
    (s.beat.running = true → s.beat.guard = true → s.beat.slot < 127 →
      Runs .slotBoundary s (fun t => t.beat.num = s.beat.num ∧ t.beat.slot = s.beat.slot + 1 ∧ t.beat.guard = false)) ∧
    (s.beat.running = true → s.beat.guard = false →
      Runs .slotGuardStart s (fun t => t.beat.num = s.beat.num ∧ t.beat.slot = s.beat.slot ∧ t.beat.guard = true) ∧
      (s.syn.src = .gated → exec .slotGuardStart s = .next { s with
        beat.guard := true, syn.skip := if s.syn.skip = some (s.beat.slot + 1) then none else s.syn.skip }))

/-- With AON running: a V_t crossing outward of PLL-B, or of the loop that drives the core, sets the live and the sticky bit, notes
the band step for the profile in force (core loops) and raises event 0x0101 Major; the crossing back only clears the live bit. A
phase violation of a LOCKED loop enters its 256-cycle window and counts. With four violations in the window PLL-B loses lock:
holdover begins with event 0x0105 Critical; the loop that drives the core, not at its third loss in 1,000 beats, hands over to the
other loop where that is LOCKED and in service with event 0x0103 Major, and else to the safe clock with 0x0104 Critical; a loop
that does not drive the core only acquires again; in Park, where the core clock is gated, the loop that drove it counts as the one
that drives it. A flag on an idle core loop raises 0x0107 Major, and in a pre-lock decides its band step, the lower flag first. A
core loop that locks is LOCKED, its window and its pre-lock are over, and the profile it holds shows V_t at the lock; one locked for
the base profile notes the swap at the next edge, and a fallback the late swap. Nothing beside the synthesiser and the event path
changes. (R61, R63, R64, R65, R66, R70, R74, R76, R78, R79, R84) -/
def Obligations.SynthesiserEvents : Prop :=
  ∀ s : State, alive s = true →
    (∀ high : Bool, s.syn.b.ld ≠ .off → (if high then s.syn.b.highLive else s.syn.b.lowLive) = false →
      Runs (.vtComplianceCrossing .b high) s (fun t => Raised { s with
        syn.b := if high then { s.syn.b with highLive := true, high := true } else { s.syn.b with lowLive := true, low := true } } t
          [(0x0101, .major)])) ∧
    (∀ (l : Loop) (high : Bool), activeLoop s = some l → (loopAt s l).ld ≠ .off →
      (if high then (loopAt s l).highLive else (loopAt s l).lowLive) = false →
      Runs (.vtComplianceCrossing l high) s (fun t => Raised (onLoop s l (fun x =>
        { (if high then { x with highLive := true, high := true } else { x with lowLive := true, low := true }) with
          retarget := x.retarget.putAt s.syn.profNow (if high then 1 else -1) 0 })) t [(0x0101, .major)])) ∧
    (∀ (l : Loop) (high : Bool), l ≠ .b → activeLoop s ≠ some l → (loopAt s l).ld = .acquire → (loopAt s l).pre = true →
      (if high then (loopAt s l).highLive else (loopAt s l).lowLive) = false →
      Runs (.vtComplianceCrossing l high) s (fun t => Raised (onLoop s l (fun x =>
        { (if high then { x with highLive := true, high := true } else { x with lowLive := true, low := true }) with
          preFlag := if x.preFlag = some false then some false else some high })) t [(0x0107, .major)])) ∧
    (∀ (l : Loop) (high : Bool) (prof : Nat), l ≠ .b → activeLoop s ≠ some l → (loopAt s l).ld = .locked →
      (loopAt s l).target = some prof → (if high then (loopAt s l).highLive else (loopAt s l).lowLive) = false →
      Runs (.vtComplianceCrossing l high) s (fun t => Raised (onLoop s l (fun x =>
        { (if high then { x with highLive := true, high := true } else { x with lowLive := true, low := true }) with
          retarget := x.retarget.putAt prof (if high then 1 else -1) 0 })) t [(0x0107, .major)])) ∧
    (∀ l : Loop, (loopAt s l).ld ≠ .off → (loopAt s l).highLive = true →
      exec (.vtComplianceCrossing l true) s = .next (onLoop s l (fun x => { x with highLive := false }))) ∧
    (∀ (l : Loop) (cycle : Nat), (loopAt s l).ld = .locked →
      exec (.phaseWindowViolation l cycle) s = .next { onLoop s l (fun x =>
        { x with viol := cycle :: x.viol.filter (fun c => decide (cycle < c + 256)) }) with
        syn.violCnt := satAdd 32 s.syn.violCnt 1 }) ∧
    (s.syn.b.ld = .locked → 4 ≤ s.syn.b.viol.length → Runs (.lossOfLock .b) s (fun t => Raised { s with
      syn.b := { s.syn.b with
        ld := .acquire, viol := [], lol := satAdd 8 s.syn.b.lol 1
        lolBeats := ((s.beat.num :: s.syn.b.lolBeats).filter (fun b => decide (s.beat.num < b + 1000))).take 3 }
      syn.holdover := true, syn.holdBeats := 0 } t [(0x0105, .critical)])) ∧
    (∀ l : Loop, l ≠ .b → (loopAt s l).ld = .locked → 4 ≤ (loopAt s l).viol.length →
      ((s.beat.num :: (loopAt s l).lolBeats).filter (fun b => decide (s.beat.num < b + 1000))).length < 3 →
      (activeLoop s = some l → Runs (.lossOfLock l) s (fun t => t = { s with syn := t.syn, hi := t.hi, hw := t.hw } ∧
        (loopAt t l).lol = satAdd 8 (loopAt s l).lol 1 ∧
        (if (loopAt s (if l = .c0 then .c1 else .c0)).ld = .locked ∧ (loopAt s (if l = .c0 then .c1 else .c0)).out = false then
          drive t = (if l = .c0 then .c1 else .c0) ∧ t.syn.hopCnt = satAdd 32 s.syn.hopCnt 1 ∧
          t.syn.profNow = ((loopAt s (if l = .c0 then .c1 else .c0)).target).getD 0 ∧ Logs s t [(0x0103, .major)]
        else drive t = .safe ∧ Logs s t [(0x0104, .critical)]) ∧
        (t.syn.src = .gated ↔ s.syn.src = .gated) ∧ t.syn.lateSwap = none ∧ t.syn.baseSwapDue = false)) ∧
      (activeLoop s ≠ some l → exec (.lossOfLock l) s = .next (onLoop s l (fun x => { x with
        ld := .acquire, viol := [], lol := satAdd 8 x.lol 1
        lolBeats := ((s.beat.num :: x.lolBeats).filter (fun b => decide (s.beat.num < b + 1000))).take 3 })))) ∧
    (∀ (l : Loop) (vt : Nat), l ≠ .b → (loopAt s l).ld = .acquire → Runs (.lockAcquired ⟨l, vt⟩) s (fun t =>
      t = { s with syn := t.syn } ∧
      loopAt t l = { loopAt s l with ld := .locked, viol := [], stepped := none, pre := false, preFlag := none } ∧
      (∀ k, k ≠ l → loopAt t k = loopAt s k) ∧ t.syn.src = s.syn.src ∧ t.syn.profNow = s.syn.profNow ∧
      t.syn.baseSwapDue = (s.syn.baseSwapDue || (loopAt s l).purpose == .base) ∧
      t.syn.lateSwap = (if (loopAt s l).purpose = .fallbackHop ∨ (loopAt s l).purpose = .baseFallback then (loopAt s l).target
        else s.syn.lateSwap) ∧
      (∀ i, (loopAt s l).target = some i → (profWant s l i).valid = true →
        profWant t l i = { profWant s l i with vtCal := vt % 1024 })))

/-- With AON running, an idle core loop in a pre-lock that has not locked its profile in T_pl: where a compliance flag fell in the
pre-lock, or its comparator still shows it (the lower one first), and no step has been made, the band of the profile moves one step
that way, clamped to 0 to 31, with its K_vco and pump code, and T_pl runs again. Otherwise: a HOP is cancelled with event 0x0102
Major and counted, and its guard is passed over; a standby fails, with 0x0109 Major after a band step, which is taken back; a
fallback of a cancelled HOP gives way to what the table asks for next, with 0x0109 after a band step and no event else; the base
profile gives way to its fallback, and where that is the profile itself, or the fallback fails too, 0x0102 is raised and the base is
tried again at each edge; without a purpose the loop is FAILED. Nothing beside the synthesiser and the event path changes. (R67, R74,
R76) -/
def Obligations.PrelockTimeouts : Prop :=
  ∀ (s : State) (l : Loop) (prof : Nat), alive s = true → l ≠ .b → (loopAt s l).ld = .acquire → (loopAt s l).target = some prof →
    (loopAt s l).pre = true → activeLoop s ≠ some l →
    let failed : State := onLoop s l (fun x => { x with ld := .failed, pre := false, preFlag := none })
    (∀ high : Bool, preFlagOf (loopAt s l) = some high → (loopAt s l).stepped = none →
      Runs (.prelockTimeout l) s (fun t => t = { s with syn := t.syn } ∧ loopAt t l = { loopAt s l with
          stepped := some (profWant s l prof).band, preFlag := none } ∧
        ((profWant s l prof).valid = true → profWant t l prof =
          inBand s l (if high then min 31 ((profWant s l prof).band + 1) else (profWant s l prof).band - 1) (profWant s l prof)) ∧
        t.syn.src = s.syn.src ∧ t.syn.profNow = s.syn.profNow ∧ ∀ k, k ≠ l → loopAt t k = loopAt s k)) ∧
    (preFlagOf (loopAt s l) = none → (loopAt s l).stepped = none →
      ((loopAt s l).purpose = .standby ∨ (loopAt s l).purpose = .none → exec (.prelockTimeout l) s = .next failed) ∧
      ((loopAt s l).purpose = .hop → Runs (.prelockTimeout l) s (fun t =>
        t = { s with syn := t.syn, hi := t.hi, hw := t.hw } ∧ Logs s t [(0x0102, .major)] ∧
        t.syn.cancel = satAdd 16 s.syn.cancel 1 ∧ t.syn.skip = (loopAt s l).slot ∧ t.syn.src = s.syn.src ∧
        t.syn.profNow = s.syn.profNow)) ∧
      ((loopAt s l).purpose = .base →
        ((profAt failed l prof).fallback = prof → Runs (.prelockTimeout l) s (fun t => Raised failed t [(0x0102, .major)])) ∧
        ((profAt failed l prof).fallback ≠ prof → Runs (.prelockTimeout l) s (fun t => t = { s with syn := t.syn } ∧
          (loopAt t l).ld = .acquire ∧ (loopAt t l).target = some (profAt failed l prof).fallback ∧
          (loopAt t l).purpose = .baseFallback ∧ (loopAt t l).pre = true ∧ t.syn.src = s.syn.src))) ∧
      ((loopAt s l).purpose = .baseFallback → Runs (.prelockTimeout l) s (fun t =>
        Raised (onLoop failed l (fun x => { x with purpose := .base })) t [(0x0102, .major)])) ∧
      ((loopAt s l).purpose = .fallbackHop → Runs (.prelockTimeout l) s (fun t => t = { s with syn := t.syn } ∧
        t.syn.src = s.syn.src ∧ t.syn.profNow = s.syn.profNow))) ∧
    (∀ old, (loopAt s l).stepped = some old → (loopAt s l).purpose = .standby →
      Runs (.prelockTimeout l) s (fun t => t = { s with syn := t.syn, hi := t.hi, hw := t.hw } ∧ Logs s t [(0x0109, .major)] ∧
        loopAt t l = { loopAt s l with ld := .failed, stepped := none, pre := false, preFlag := none } ∧
        ((profWant s l prof).valid = true → profWant t l prof = inBand s l old (profWant s l prof)) ∧ t.syn.src = s.syn.src ∧ t.syn.profNow = s.syn.profNow))

/-- With AON running: 64 beats of exclusions of one port raise event 0x020B Minor and change nothing else; 64 edges in SEEK make an
eligible, locked member master, with event 0x0207 Minor; in ACQUIRE with 64 samples and no instance a coarse jump adopts the
number that the markers of the parent name for the edge it comes to, clears the window and enters TRACK with event 0x0208 Minor; a lost
parent in TRACK enters
HOLD with HOPS 31 and event 0x0206 Major; 64 edges in HOLD return to SEEK; a master in holdover for 1,024 beats steps down to SEEK
with event 0x0207; and a rate above the limit for 64 edges ends IN_PHASE with event 0x020A Major. Nothing else changes but the
event path. (R92, R97, R99, R100, R102, R94, R104) -/
def Obligations.HivePhaseEvents : Prop :=
  ∀ s : State, alive s = true →
    (∀ p : PortId, vget s.beat.portxRun p.val 0 = 64 → Runs (.portExclusionLimit p) s (fun t => Raised s t [(0x020B, .minor)])) ∧
    (s.beat.pstate = .seek → 64 ≤ s.beat.waitEdges → s.beat.masterEn = true → s.syn.b.ld = .locked → s.syn.holdover = false →
      Runs .seekTimeout s (fun t => Raised { s with
        beat.pstate := .master, beat.masterRank := s.beat.ownRank, beat.hops := 0, beat.parent := none, beat.waitEdges := 0
        beat.elections := satAdd 16 s.beat.elections 1 } t [(0x0207, .minor)])) ∧
    (∀ m r, s.beat.pstate = .acquire → 64 ≤ s.beat.gathered → noInstance s = true → parentMarkers s = m :: r →
      Runs .coarseJump s (fun t => Raised { s with
        beat.pstate := .track, beat.inPhase := false, beat.jumpDue := jumpTicks s, beat.lastJ := jumpTicks s
        beat.jumps := satAdd 32 s.beat.jumps 1, beat.jumpSkip := some (jumpEdges s)
        beat.adopt := some (m.beat + (s.beat.edges + 1 - m.beatEdge) + jumpEdges s), beat.window := [], beat.fresh := []
        beat.gathered := 0 } t [(0x0208, .minor)])) ∧
    (s.beat.pstate = .track → parentLostNow s = true → Runs .parentLost s (fun t => Raised { s with
      beat.pstate := .hold, beat.prevHops := s.beat.hops, beat.hops := 31, beat.parent := none
      beat.steer := 0, beat.waitEdges := 0 } t [(0x0206, .major)])) ∧
    (s.beat.pstate = .hold → 64 ≤ s.beat.waitEdges → exec .holdTimeout s = .next { s with
      beat.pstate := .seek, beat.waitEdges := 0 }) ∧
    (s.beat.pstate = .master → s.syn.holdover = true → 1024 ≤ s.syn.holdBeats → Runs .masterHoldoverTimeout s (fun t => Raised { s with
      beat.pstate := .seek, beat.steppedDown := true, beat.hops := 31, beat.waitEdges := 0 } t
        [(0x0207, .minor)])) ∧
    (64 ≤ s.beat.rateRun → Runs .rateLimitExceeded s (fun t => Raised { s with beat.inPhase := false, beat.rateRun := 0 } t
      [(0x020A, .major)]))

/-- SYN_CAL_RUN of a kind that its loop allows is answered OK with its targets due, of another NO_SUCH_OBJECT (0x30), and of a kind or
a loop above 2 BAD_PAYLOAD. In a guaranteed Understory slot a target that exists, is free, has no run of its kind on its unit, and is
due and not held (or is a lane whose override is not in force), starts a run, and nothing else changes but a lane's move to the spare.
A run that ends with its figure of merit clears the failures in a row and leaves the new set: a band within one step, with V_t at the
lock; a pump code by way of the measured K_vco; the interpolator's steps at the next edge; a lane's equaliser; a channel's code by a
ramp. One that fails keeps the set in force and counts its failure, with event 0x0106 Minor (a loop) or 0x1102 Minor (a lane or
channel), and at the eighth in a row 0x1103 Major too. A run under an override puts the override in force, and one whose loop has come
to drive the core is deferred. CAL_OVERRIDE with presence proved sets or releases the override of its target, and is refused with the
status of the check that fails. (The encodings of a run's value are the model's: log 108.) (R62, R80, R81, R85, R379, R385, R393,
R394, R395, R396) -/
def Obligations.CalibrationRuns : Prop :=
  ∀ s : State,
    (∀ m k u, AtCommand s 0x201 m [BitVec.ofNat 8 k, BitVec.ofNat 8 u] →
      (k < 3 → u < 3 → calAllowed s k u = true → Runs .synCalRun s (Answered ((loopTargets s k u).foldl calDue s) m 0 [])) ∧
      (k < 3 → u < 3 → calAllowed s k u = false → Runs .synCalRun s (Answered s m 0x30 [])) ∧
      (k < 256 → u < 256 → 3 ≤ k ∨ 3 ≤ u → Runs .synCalRun s (Answered s m 0x20 []))) ∧
    (∀ c : CalTarget, alive s = true → s.hi.fwRuns = true → s.beat.running = true → s.beat.guard = false →
      descGuaranteed (descAt s s.beat.slot) = true → calExists s c = true → calFree s c = true → calBusy s c = false →
      (calIsDue s c = true ∧ calHeld s c = false) ∨ laneOverride s c = true →
      (¬ (c.kind = 3 ∧ c.index < 8 ∧ (portAt s c.unit).spared = none) →
        exec (.calibrationStart c) s = .next (onCal s c (fun x => { x with due := false, running := true }))) ∧
      (c.kind = 3 → c.index < 8 → (portAt s c.unit).spared = none → Runs (.calibrationStart c) s (fun t =>
        (calAt t c).running = true ∧ (calAt t c).due = false ∧
        (portAt t c.unit).laneTx = some (c.index, false) ∧ t = { s with us := t.us, hl := t.hl }))) ∧
    (∀ (c : CalTarget) (pass : Bool) (v : Nat), alive s = true → (calAt s c).running = true →
      let l := unitLoop c.unit
      (calStranded s c = true → exec (.calibrationComplete c pass v) s =
        .next (onCal s c (fun x => { x with running := false, due := true }))) ∧
      (∀ o, calStranded s c = false → (calAt s c).override = some o → Runs (.calibrationComplete c pass v) s (fun t =>
        t = { s with us := t.us, hl := t.hl } ∧ (c.kind ≠ 3 → t.hl = s.hl) ∧
        calAt t c = { calAt s c with running := false, lastBeat := s.beat.num, value := o })) ∧
      (calStranded s c = false → (calAt s c).override = none → calMeets c pass v = true → Runs (.calibrationComplete c pass v) s (fun t =>
        t = { s with us := t.us, syn := t.syn, hl := t.hl } ∧ (c.kind ≠ 3 → t.hl = s.hl) ∧
        (calAt t c).running = false ∧ (calAt t c).failRun = 0 ∧ (calAt t c).lastBeat = s.beat.num ∧
        t.syn.b = s.syn.b ∧ t.syn.src = s.syn.src ∧ t.syn.profNow = s.syn.profNow ∧
        (c.kind = 0 → c.unit = 1 ∨ c.unit = 2 → inService s l = true →
          (profWant t l c.index).band = (if v % 1024 < 300 then (profWant s l c.index).band - 1
            else if 600 < v % 1024 then min 31 ((profWant s l c.index).band + 1) else (profWant s l c.index).band) ∧
          (profWant t l c.index).vtCal = (if v % 1024 < 300 ∨ 600 < v % 1024 then v / 1024 % 1024 else v % 1024)) ∧
        (c.kind = 1 → c.unit = 0 → (calAt t c).target = some (pumpCode 128 0 (v % 1024))) ∧
        (c.kind = 1 → c.unit = 1 ∨ c.unit = 2 →
          t.syn.kvco = s.syn.kvco.putAt (32 * loopUnit l + (profAt s l ((loopAt s l).target.getD 0)).band) (v % 1024) 450) ∧
        (c.kind = 2 → t.syn.interp = s.syn.interp ∧ ∀ k, k < 256 → t.syn.interpDue.getAt k 0 = interpStep v k) ∧
        (c.kind = 3 → (calAt t c).value = v) ∧ (c.kind = 4 → (calAt t c).target = some (v % 64)))) ∧
      (c.kind ≤ 4 → calStranded s c = false → (calAt s c).override = none → calMeets c pass v = false →
        Runs (.calibrationComplete c pass v) s (fun t =>
          t = { s with us := t.us, syn := { s.syn with cal := t.syn.cal }, hl := t.hl, hi := t.hi, hw := t.hw } ∧
          (c.kind ≠ 3 → t.hl = s.hl) ∧
          calAt t c = { calAt s c with running := false, lastBeat := s.beat.num, failRun := (calAt s c).failRun + 1 } ∧
          Logs s t ((if c.kind ≤ 2 then 0x0106 else 0x1102, Sev.minor) ::
            (if (calAt s c).failRun = 7 then [(0x1103, Sev.major)] else []))))) ∧
    (∀ m p, AtCommand s 0x905 m p → presenceCheck s false = none → overrideCheck s p = 0 →
      (leAt p 3 1 = 0 → Runs .calOverrideSet s (Answered (onCal s (overrideTarget p) (fun x =>
        { x with
          override := some (leAt p 4 4), due := false
          target := if ((overrideTarget p).kind = 1 ∧ (overrideTarget p).unit = 0) ∨ (overrideTarget p).kind = 2 then
            some (leAt p 4 4) else x.target })) m 0 [])) ∧
      (leAt p 3 1 = 1 →
        Runs .calOverrideRelease s (Answered (onCal s (overrideTarget p) (fun x => { x with override := none })) m 0 []))) ∧
    (∀ m p, AtCommand s 0x905 m p → presenceCheck s false = none → overrideCheck s p ≠ 0 →
      (p.length ≠ 8 ∨ leAt p 3 1 ≠ 1 → Runs .calOverrideSet s (Answered s m (overrideCheck s p) [])) ∧
      (p.length ≠ 8 ∨ leAt p 3 1 ≠ 0 → Runs .calOverrideRelease s (Answered s m (overrideCheck s p) []))) ∧
    (∀ m p st, AtCommand s 0x905 m p → presenceCheck s false = some st →
      (p.length ≠ 8 ∨ leAt p 3 1 ≠ 1 → Runs .calOverrideSet s (Answered s m st [])) ∧
      (p.length ≠ 8 ∨ leAt p 3 1 ≠ 0 → Runs .calOverrideRelease s (Answered s m st [])))

/-- In the last slot of a beat of a running generator, with one change of one command staged and its edge reached, GRAFT_PHASE_APPLY
applies it: the list empties, GR_APPLIED counts it, event 0x0F01 is raised, and Keeper journals it under the next SEQ with a LINK
to the command's, and beside the delivery of the event nothing changes but the effect. XM_SHARE sets the policy and the quotas;
BEAT_MASTER_EN the permission, and a master that loses it seeks another (log 126); SYN_HOLD freeze the hold, and a late swap, ready
or still to be locked, is given up; PLAN_DEACTIVATE makes an installed
plan drain. A PLAN_DEACTIVATE of a plan that is no longer INSTALLED is abandoned with 0x0F02 and leaves the plan alone.
GRAFT_WAIT_LIMIT abandons the one staged graft whose next phase waits for conditions that do not hold when its wait limit is
reached: every phase left is counted in GR_ABANDONED, event 0x0F02 is raised, and Keeper journals the phase as INCONSISTENT;
before the limit it changes nothing. (R359, R364, R356, R369, R252, R108, R86, R134) -/
def Obligations.StagedChangesApply : Prop :=
  (∀ (s : State) (p : List Byte) (g : Graft),
    (AloneDue s 0x510 p g → (quotasOf p).sum ≤ 1024 → Runs .graftPhaseApply s (ChangeApplied s g
      { s with xm.fixed := leAt p 0 1 == 1, xm.quota := #v[leAt p 2 2, leAt p 4 2, leAt p 6 2, leAt p 8 2] })) ∧
    (AloneDue s 0x601 p g →
      (leAt p 0 1 = 1 ∨ s.beat.pstate ≠ .master →
        Runs .graftPhaseApply s (ChangeApplied s g { s with beat.masterEn := leAt p 0 1 == 1 })) ∧
      (leAt p 0 1 ≠ 1 → s.beat.pstate = .master → Runs .graftPhaseApply s (ChangeApplied s g { s with
        beat.masterEn := false, beat.pstate := .seek, beat.hops := 31, beat.waitEdges := 0 }))) ∧
    (AloneDue s 0x202 p g → leAt p 0 1 = 1 → Runs .graftPhaseApply s (fun t => ∃ e, ChangeApplied s g e t ∧
      e = { s with syn := e.syn } ∧ e.syn.hold = .freeze ∧ e.syn.lateSwap = none ∧ e.syn.src = s.syn.src ∧
      e.syn.profNow = s.syn.profNow ∧ e.syn.b = s.syn.b ∧
      ∀ l, l ≠ .b → (loopAt e l).ld = (loopAt s l).ld ∧ (loopAt e l).target = (loopAt s l).target ∧
        (loopAt e l).purpose = (if (loopAt s l).purpose = .fallbackHop ∨ (loopAt s l).purpose = .baseFallback then .none
          else (loopAt s l).purpose))) ∧
    (∀ k, AloneDue s 0x103 p g → ctxOf s (leAt p 0 8) = some k →
      ((ctxAt s k).st = .installed →
        Runs .graftPhaseApply s (ChangeApplied s g (onCtx s k (fun c => { c with st := .draining })))) ∧
      ((ctxAt s k).st = .standby →
        Runs .graftPhaseApply s (fun t => t.gr = { s.gr with staged := [], abandoned := satAdd 32 s.gr.abandoned 1 } ∧
          t.cmb = s.cmb ∧ Logs s t [(0x0F02, .major)] ∧ JournalPut s (phaseEntry s g 0x31) t)))) ∧
  (∀ (s : State) (g : Graft) (ph : GPhase) (r : List GPhase), edgeNear s = true → s.gr.staged = [g] → g.phases = ph :: r → ph.waits = true →
    ph.members.all (memberReady s) = false →
    (g.nextEdge + g.waitLimit ≤ edgeNum s → Runs .graftWaitLimit s (fun t =>
      t = { s with gr := { s.gr with staged := [], abandoned := satAdd 32 s.gr.abandoned (r.length + 1) },
                   hi := t.hi, rj := t.rj, hw := t.hw } ∧
      HiEvents s.hi t.hi ∧ HwEvents s.hw t.hw ∧ Logs s t [(0x0F02, .major)] ∧ JournalPut s (phaseEntry s g 0x31) t)) ∧
    (edgeNum s < g.nextEdge + g.waitLimit → exec .graftWaitLimit s = .next s))

/-- With a HIVE_RESET alone due at the edge, GRAFT_PHASE_APPLY records the cause, ends every plan instance of the four contexts, and
leaves each context's state and image, the Comb, external memory, the clocks, the beat, the links and the power states as they
were. (R46, R359) -/
def Obligations.HiveResetApplies : Prop :=
  ∀ (s : State) (p : List Byte) (g : Graft), AloneDue s 0x610 p g →
    Runs .graftPhaseApply s (fun t => t.hi.hiveRst = true ∧ t.gr.staged = [] ∧
      (∀ c, c < 4 → (ctxAt t c).insts = [] ∧ (ctxAt t c).st = (ctxAt s c).st ∧ (ctxAt t c).src = (ctxAt s c).src) ∧
      t.cmb.mem = s.cmb.mem ∧ t.xm.mem = s.xm.mem ∧ t.syn = s.syn ∧ t.beat = s.beat ∧ t.hl = s.hl ∧ t.us = s.us ∧ t.pwr = s.pwr ∧
      t.fw = s.fw ∧ t.jtag = s.jtag)

/-- With the command in a Waggle mailbox: GRAFT_STAGE whose members all pass is answered OK with their statuses and adds them to the
mailbox's open graft; where a member fails, its status is the answer and nothing is staged. GRAFT_COMMIT of an open graft whose
members pass, whose target is at least 2 beats ahead and whose phases can be formed is answered with the phase plan: with
CHECK_ONLY OK, and nothing is staged; else STAGED for one phase or PHASED for more, and the graft is staged in place of being
open. Where no phases can be formed it is NOT_ATOMIC, counted. GRAFT_ABORT discards the open graft, or takes out the staged change
of a SEQ that the mailbox, or WG2, names; any other mailbox is answered NOT_OWNER. Nothing else changes but the answer. (The
layout of the bodies is the model's: log 30.) (R361, R363, R364, R366, R381) -/
def Obligations.GraftsBuildAndCommit : Prop :=
  ∀ (s : State) (m : Nat) (p : List Byte),
    (∀ ms : List Member, AtCommand s 0x301 m p → stagedMembers p 0 = some ms → ms.length ≤ 64 → vget s.gr.opened m none = none →
      (judgeMembers s (projected s none) ms = ms.map (fun _ => 0) →
        Runs .graftStage s (Answered { s with gr.opened := vput s.gr.opened m (some
          { members := ms, waitLimit := if leAt p 4 4 = 0 then 10000 else leAt p 4 4, groups := ms.length }) } m 0
          (statusBytes 0 (ms.map (fun _ => 0))))) ∧
      (∀ st, (judgeMembers s (projected s none) ms).find? (fun x => x != 0) = some st →
        Runs .graftStage s (Answered s m st (statusBytes 0 (judgeMembers s (projected s none) ms))))) ∧
    (∀ (o : OpenGraft) (e : Nat), AtCommand s 0x302 m p → p.length = 9 → vget s.gr.opened m none = some o →
      e = (if leAt p 0 8 = 0 then s.wg.round + 2 else leAt p 0 8) → s.wg.round + 2 ≤ e →
      (∀ st ∈ judgeMembers s (projected s (some e)) o.members, st = 0) →
      (∀ ps, graftPhases s o e = some ps →
        (leAt p 8 1 = 1 → Runs .graftCommit s (Answered s m 0 (graftPlanBytes ps))) ∧
        (leAt p 8 1 = 0 → (s.gr.staged.filter (fun g => !g.alone)).length < 16 → Runs .graftCommit s (Answered
          { s with gr := { s.gr with opened := vput s.gr.opened m none, staged := s.gr.staged ++ [
            { seq := s.wg.curSeq, source := m, cls := .operational, alone := false, target := e, waitLimit := o.waitLimit,
              phases := ps, total := ps.length, next := 0, shift := 0, count := o.members.length }] } }
          m (if ps.length = 1 then 1 else 2) (graftPlanBytes ps)))) ∧
      (graftPhases s o e = none → leAt p 8 1 ≤ 1 →
        Runs .graftCommit s (Answered { s with gr.notAtomic := satAdd 32 s.gr.notAtomic 1 } m 0x33 []))) ∧
    (AtCommand s 0x303 m p → p.length = 8 →
      (∀ o, leAt p 0 8 = 0 → vget s.gr.opened m none = some o →
        Runs .graftAbort s (Answered { s with gr.opened := vput s.gr.opened m none } m 0 [])) ∧
      (∀ g, leAt p 0 8 ≠ 0 → s.gr.staged.find? (fun g => g.seq == leAt p 0 8) = some g →
        (g.source = m ∨ m = 2 →
          Runs .graftAbort s (Answered { s with gr.staged := s.gr.staged.filter (fun g => g.seq != leAt p 0 8) } m 0 [])) ∧
        (g.source ≠ m ∧ m ≠ 2 → Runs .graftAbort s (Answered s m 0x40 []))))

/-- A well-formed PLAN_LOAD whose key is not held, with the host's memory readable, is judged when its image has been read:
BAD_PAYLOAD, INCONSISTENT, DOES_NOT_FIT with the list of shortfalls, or OK with the context, whose plan is then LOADING with the
fetch under way. Where the read takes time the command waits, and DMA_READ_COMPLETE gives the same answers; a read that fails or
times out ends it with one of the statuses that its table lists (which one is free: log 33). A malformed payload is answered
BAD_PAYLOAD. Nothing else changes but the answer. (R115, R116, R117, R119, R310, R349) -/
def Obligations.PlanLoads : Prop :=
  ∀ (s : State) (m : Nat) (p : List Byte),
    (AtCommand s 0x101 m p →
      (leAt p 0 4 = 0 ∨ 249 < leAt p 0 4 ∨ leAt p 4 4 ≠ 0 ∨ scatterOk p 8 (leAt p 0 4) = false → ∀ i,
        Runs (.planLoad i) s (Answered s m 0x20 [])) ∧
      (1 ≤ leAt p 0 4 → leAt p 0 4 ≤ 249 → leAt p 4 4 = 0 → scatterOk p 8 (leAt p 0 4) = true →
        (dmaUp s = true → exec (.planLoad none) s = .next { s with wg.wait := .dmaLoad }) ∧
        (∀ src, dmaUp s = true → lostTo s [.plan (imgPlanId src.bytes)] = none →
          Runs (.planLoad (some src)) s (LoadJudged s m src)) ∧
        (∀ i, dmaUp s = false → Runs (.planLoad i) s (fun t => ∃ st ∈ [0x20, 0x31, 0x32],
          Answered { s with freeCtr := s.freeCtr + 1 } m st [] t)))) ∧
    (AtDma s .dmaLoad 0x101 m p →
      (∀ src, lostTo s [.plan (imgPlanId src.bytes)] = none → Runs (.dmaReadComplete src) s (LoadJudged s m src)) ∧
      Runs .dmaReadError s (fun t => ∃ st ∈ [0x20, 0x31, 0x32], Answered { s with freeCtr := s.freeCtr + 1 } m st [] t) ∧
      Runs .dmaCompletionTimeout s (fun t => ∃ st ∈ [0x20, 0x31, 0x32], Answered { s with freeCtr := s.freeCtr + 1 } m st [] t))

/-- With AON running and the fetch of a loading plan in progress: PLAN_FETCH_COMPLETE, once every weight page is written, of an image
that passes its checks makes the plan STANDBY with LOAD_PCT 100, ends the fetch and raises event 0x0301, and beside that nothing
changes but the delivery of the event; before that it changes nothing; an image that fails its checks, a DMA read that fails and one
that times out discard the plan, whose context is EMPTY again, and raise event 0x0302. (R119, R120, R140, R150, R152, R310) -/
def Obligations.PlanFetchEnds : Prop :=
  ∀ (s : State) (k : Nat) (src : PlanSource), alive s = true → k < 4 → s.cmb.fetch = some k → s.cmb.fetchRepl = false →
    (ctxAt s k).src = some src →
    let Gone : State → Prop := fun t => ctxAt t k = PlanCtx.init ∧ t.cmb.fetch = none ∧ Logs s t [(0x0302, .major)]
    let Ok : Bool := fetchOk (ctxsWhere s (fun _ c => c.st.resident)) (ctxAt s k) src s.beat.ownRank
    (fetchFull s = false → exec .planFetchComplete s = .next s) ∧
    (fetchFull s = true → Ok = true → Runs .planFetchComplete s (fun t =>
      t = { s with cmb := t.cmb, hi := t.hi, hw := t.hw } ∧ HiEvents s.hi t.hi ∧ HwEvents s.hw t.hw ∧ Logs s t [(0x0301, .info)] ∧
      t.cmb = { s.cmb with fetch := none, ctx := vmod s.cmb.ctx k (fun c => { c with st := .standby, loadPct := 100 }) })) ∧
    (s.cmb.poison = [] →
      (fetchFull s = true → Ok = false → Runs .planFetchComplete s Gone) ∧
      (s.wg.wait ≠ .dmaLoad ∧ s.wg.wait ≠ .dmaRepl → Runs .dmaReadError s Gone ∧ Runs .dmaCompletionTimeout s Gone))

/-- PLAN_UNLOAD of a plan that is loading or in STANDBY is answered OK, stops its fetch and makes it UNLOADING; of one that is
installed, draining or unloading it is INCONSISTENT, and of an unknown one NO_SUCH_OBJECT. PLAN_FITMODE sets the mode with no plan
resident and is INCONSISTENT otherwise. PLAN_REPLACE with an image is judged (BAD_PAYLOAD, INCONSISTENT, NOT_ATOMIC, OK for one
phase, PHASED for more), keeps the map until a swap, and with no image abandons the phases. REPLACE_PHASE_READY of a phase whose pages
are all written and whose image and tiles pass marks it ready and raises 0x0303. PLAN_DRAIN_COMPLETE, in the guard of the last slot
before the edge that comes, moves a draining plan without
instances to STANDBY and no other. (R118, R119, R123, R124, R134, R140) -/
def Obligations.PlanLifeCommands : Prop :=
  ∀ (s : State) (m : Nat) (p : List Byte),
    (AtCommand s 0x104 m p → p.length = 8 →
      (ctxOf s (leAt p 0 8) = none → Runs .planUnload s (Answered s m 0x30 [])) ∧
      (∀ k, ctxOf s (leAt p 0 8) = some k →
        ((ctxAt s k).st = .installed ∨ (ctxAt s k).st = .draining ∨ (ctxAt s k).st = .unloading →
          Runs .planUnload s (Answered s m 0x31 [])) ∧
        ((ctxAt s k).st = .loading ∨ (ctxAt s k).st = .standby → Runs .planUnload s (Answered { s with cmb := { s.cmb with
          ctx := vmod s.cmb.ctx k (fun c => { c with st := .unloading }), fetch := if s.cmb.fetch = some k then none else s.cmb.fetch,
          fetchRepl := if s.cmb.fetch = some k then false else s.cmb.fetchRepl } } m 0 [])))) ∧
    (AtCommand s 0x107 m p → p.length = 1 → leAt p 0 1 ≤ 1 →
      (residents s = [] → Runs .planFitmode s (Answered { s with cmb.rotate := leAt p 0 1 == 1 } m 0 [])) ∧
      (residents s ≠ [] → Runs .planFitmode s (Answered s m 0x31 []))) ∧
    (∀ k, AtCommand s 0x105 m p → leAt p 8 4 ≤ 249 → leAt p 12 4 = 0 → scatterOk p 16 (leAt p 8 4) = true →
      ctxOf s (leAt p 0 8) = some k →
      (leAt p 8 4 = 0 → ∀ i, Runs (.planReplace i) s (fun t => (ctxAt t k).phases = [] ∧
        Answered { s with cmb := t.cmb } m 0 (phasePlanBytes (ctxAt s k) []) t ∧ t.cmb.mem = s.cmb.mem)) ∧
      (leAt p 8 4 ≠ 0 → fetchBusy s = false → (ctxAt s k).phases = [] → (ctxAt s k).st ≠ .loading → (ctxAt s k).st ≠ .unloading →
        dmaUp s = true →
        exec (.planReplace none) s = .next { s with wg.wait := .dmaRepl } ∧
        ∀ src, Runs (.planReplace (some src)) s (ReplaceJudged s m k src))) ∧
    (∀ k src, AtDma s .dmaRepl 0x105 m p → ctxOf s (leAt p 0 8) = some k →
      Runs (.dmaReadComplete src) s (ReplaceJudged s m k src)) ∧
    (∀ (c : Ctx) ph r src, alive s = true → (ctxAt s c.val).phases = ph :: r → (ctxAt s c.val).replSrc = some src → ph.ready = false →
      ph.shadow.length = ph.banks.length → s.cmb.fetch = some c.val → s.cmb.fetchRepl = true → fetchFull s = true →
      imgDigestOk src.bytes = true → phaseTilesOk (ctxAt s c.val) src ph = true →
      Runs (.replacePhaseReady c) s (fun t => t = { s with cmb := t.cmb, hi := t.hi, hw := t.hw } ∧ HiEvents s.hi t.hi ∧
        HwEvents s.hw t.hw ∧ Logs s t [(0x0303, .info)] ∧
        t.cmb = { s.cmb with fetch := none, fetchRepl := false,
                             ctx := vmod s.cmb.ctx c.val (fun x => { x with phases := { ph with ready := true } :: r }) })) ∧
    (∀ c : Ctx, edgeNear s = true → s.beat.guard = true → (ctxAt s c.val).st = .draining → (ctxAt s c.val).insts = [] →
      Runs (.planDrainComplete c) s (fun t => t.cmb = { s.cmb with ctx := vmod s.cmb.ctx c.val (fun x => { x with st := .standby }) } ∧
        t.beat = { s.beat with table := t.beat.table, usSlots := t.beat.usSlots } ∧ t.hi = s.hi ∧ t.wg = s.wg))

/-- In a machine whose memories are in canonical form: ZERO_FILL_COMPLETE of a freed bank in a powered slice makes its bytes read
zero, but for those of retired pages, changes no other byte, and takes the bank off the list. PAGE_REBUILD_COMPLETE writes the
page that the peers' pages give: read back clean it is counted and loses its poison at the next edge; failing once it is retried;
failing again its bank is to be copied to a free bank, or with none event 0x0307 is raised. BANK_COPY_COMPLETE fills the free bank
with the copied bank and the rebuilt page, its map entry due at the edge; where a copy of the same bank waits for its edge already,
the rebuilt page is written there too, and no second copy is made. A rebuild blocked for 1,000 beats raises event 0x0306
once. No byte changes but those named. (R121, R127, R130, R131) -/
def Obligations.CombPages : Prop :=
  ∀ s : State, MemOk s → alive s = true →
    (∀ (q : Quad) (bank : Nat), bank < 64 → s.cmb.dirty.contains (64 * q.val + bank) = true → vget s.pwr.cb q.val false = true →
      vget s.pwr.cbRet q.val false = false →
      Runs (.zeroFillComplete q bank) s (fun t => t = { s with cmb := t.cmb } ∧
        t.cmb = { s.cmb with mem := t.cmb.mem, ctx := t.cmb.ctx, dirty := s.cmb.dirty.filter (fun k => k != 64 * q.val + bank),
                             fill := s.cmb.fill.filter (fun e => !(pageSlice e.1 == q.val && pageBank e.1 == bank)) } ∧
        ∀ a, combByte t a = if a / 0x600000 = q.val * 64 + bank ∧ pageRetired s (a / 0x1000) = false then 0#8 else combByte s a)) ∧
    (∀ (page : Nat) (r : Rebuild), s.cmb.rebuilds.find? (fun x => x.page == page) = some r →
      (rebuildReady r = true → r.copyTo = none → ∀ clean,
        Runs (.pageRebuildComplete page clean) s (fun t =>
          combRead t (page * 0x1000) 4096 = rebuiltPage r ∧
          (∀ pb, copyDue s page = some pb → combRead t (combAddr (pageSlice page) pb (page % 1536 * 0x1000)) 4096 = rebuiltPage r) ∧
          (∀ a, a / 0x1000 ≠ page →
            (∀ pb, copyDue s page = some pb → a / 0x1000 ≠ combAddr (pageSlice page) pb (page % 1536 * 0x1000) / 0x1000) →
            combByte t a = combByte s a) ∧
          let e := { s with cmb.mem := t.cmb.mem }
          let left := s.cmb.rebuilds.filter (fun x => x.page != page)
          if clean then t = { e with cmb.rebuilds := left, cmb.clearing := page :: s.cmb.clearing, cmb.rebuilt := satAdd 16 s.cmb.rebuilt 1 }
          else if r.failedOnce = false then t = onRebuild e page (fun x => { x with failedOnce := true })
          else
            match copyTarget s r with
            | some pb => t = onRebuild e page (fun x => { x with copyTo := some (64 * pageSlice page + pb) })
            | none => Raised { e with cmb.rebuilds := left } t [(0x0307, .critical)])) ∧
      (∀ c key pb, r.copyTo = some (64 * pageSlice page + pb) → pb < 64 →
        bankOwner s (pageSlice page) (pageBank page) = some (c, key) →
        (∀ dst, copyDue s page = some dst → Runs (.bankCopyComplete page) s (fun t =>
          t = { s with cmb := { s.cmb with
            mem := t.cmb.mem, rebuilds := s.cmb.rebuilds.filter (fun x => x.page != page),
            mapDue := s.cmb.mapDue ++ [(c, key, dst, page)], rebuilt := satAdd 16 s.cmb.rebuilt 1
            dirty := if dst = pb then s.cmb.dirty else s.cmb.dirty ++ [64 * pageSlice page + pb] } } ∧
          combRead t (combAddr (pageSlice page) dst (page % 1536 * 0x1000)) 4096 = rebuiltPage r ∧
          ∀ a, a / 0x1000 ≠ combAddr (pageSlice page) dst (page % 1536 * 0x1000) / 0x1000 → combByte t a = combByte s a)) ∧
        (copyDue s page = none → Runs (.bankCopyComplete page) s (fun t =>
          t = { s with cmb := { s.cmb with
            mem := t.cmb.mem, rebuilds := s.cmb.rebuilds.filter (fun x => x.page != page),
            mapDue := s.cmb.mapDue ++ [(c, key, pb, page)], rebuilt := satAdd 16 s.cmb.rebuilt 1 } } ∧
          combRead t (combAddr (pageSlice page) pb (page % 1536 * 0x1000)) 4096 = rebuiltPage r ∧
          (∀ o, o < 0x600000 → o / 0x1000 ≠ page % 1536 →
            pageRetired s (combAddr (pageSlice page) pb o / 0x1000) = false →
            combByte t (combAddr (pageSlice page) pb o) = combByte s (combAddr (pageSlice page) (pageBank page) o)) ∧
          ∀ a, a / 0x600000 ≠ pageSlice page * 64 + pb → combByte t a = combByte s a))) ∧
      (1000 ≤ r.waited → r.told = false → Runs (.rebuildWaitLimit page) s (fun t =>
        Raised (onRebuild s page (fun x => { x with told := true })) t [(0x0306, .major)])))

/-- In a quadrant that is up with the core clock running: PASS_START of a pass in front, outside slot 127, with its activation tile in
the buffer and no tile waiting for its swap, makes that pass run in the active set; a format, index or order fault of its tile is
counted with event 0x0401, and each block that breaks the KB bound with event 0x0402. The codewords that its read of the weight tile
corrects are counted, and a page in which one is uncorrectable is poisoned, or retired with a bank that no plan maps. PASS_COMPLETE
ends the running pass, counts it with the clocks it saved, leaves in the active set what its groups promote, and closes the tile
where the pass ends one, with events 0x0501 and 0x0502 for saturation and for NaN or infinity; an operation that comes to the front
late is reported with 0x0202. ACCUMULATOR_SET_SWAP exchanges the sets of a closed tile while the shadow set is free, with AMAX
rounded up to FP32 and the stall clocks counted. No other quadrant changes. (R25, R110, R128, R151, R153, R156, R157, R159, R160,
R161, R176, R181) -/
def Obligations.PassesAndSets : Prop :=
  ∀ (s : State) (q : Quad),
    (∀ t d tile corrected bad, headOp s q.val = some t → t.op = .pass d → (quadAt s q.val).swapDue = false → arrayMay s = true →
      (quadAt s q.val).acts.find d.feed = some tile → Runs (.passStart ⟨q, corrected, bad⟩) s (fun u =>
        (∃ r, (quadAt u q.val).run = some r ∧ r.d = d ∧ r.ctx = t.ctx ∧ r.adm = t.adm) ∧
        u.cmb.ce = satAdd 32 s.cmb.ce corrected ∧ OpStays s u q.val ∧ (∀ k, k ≠ q.val → quadAt u k = quadAt s k) ∧
        u.cmb.mem = s.cmb.mem ∧ u.beat = s.beat ∧ u.xm = s.xm ∧
        ∀ e ∈ (runPages s t.ctx d.tile (wHdr (tileView s t.ctx d.tile)).bytes).zipIdx, bad.contains e.2 = true →
          pagePoisoned u e.1 = true ∨ pageRetired u e.1 = true)) ∧
    (∀ t d tile corrected, headOp s q.val = some t → t.op = .pass d → (quadAt s q.val).swapDue = false → arrayMay s = true →
      (quadAt s q.val).acts.find d.feed = some tile → (passFind s t d tile).poisonIn = false →
      Runs (.passStart ⟨q, corrected, []⟩) s (fun u =>
        (∃ r, (quadAt u q.val).run = some r ∧ r.d = d ∧ r.ctx = t.ctx ∧ r.adm = t.adm) ∧ (activeSet (quadAt u q.val)).opened = true ∧
        OpStays s u q.val ∧ (∀ k, k ≠ q.val → quadAt u k = quadAt s k) ∧
        u = { s with
          quad := u.quad, cmb := { s.cmb with ctx := u.cmb.ctx, ce := satAdd 32 s.cmb.ce corrected }, hi := u.hi, hw := u.hw } ∧
        (quadAt u q.val).jnFmtx = (if (passFind s t d tile).codes = [] then (quadAt s q.val).jnFmtx else satAdd 32 (quadAt s q.val).jnFmtx 1) ∧
        (quadAt u q.val).jnBoundx = (if (passFind s t d tile).bound = 0 then (quadAt s q.val).jnBoundx
          else satAdd 32 (quadAt s q.val).jnBoundx (passFind s t d tile).bound) ∧
        Logs s u ((if (passFind s t d tile).codes = [] then [] else [(0x0401, .major)]) ++
          List.replicate (passFind s t d tile).bound (0x0402, .major)))) ∧
    (quadUp s q.val = true → coreRuns s = true →
      (∀ r, (quadAt s q.val).run = some r →
        let tile := ((quadAt s q.val).acts.find r.d.feed).getD (ActTile.dead Thread.idle.d)
        let a := promoteAll r tile (activeSet (quadAt s q.val))
        Runs (.passComplete q) s (fun u =>
          (quadAt u q.val).run = none ∧ OpEnds s u q.val ∧ (quadAt u q.val).jnPasses = satAdd 32 (quadAt s q.val).jnPasses 1 ∧
          (quadAt u q.val).jnSaved =
            min (2 ^ 64 - 1) (((quadAt s q.val).jnSaved : Int) + (r.planned : Int) - (r.actual : Int)).toNat ∧
          (quadAt u q.val).arrUnder = satAdd 32 (quadAt s q.val).arrUnder a.under ∧
          (quadAt u q.val).arrSatx = satAdd 32 (quadAt s q.val).arrSatx a.satx ∧
          (activeSet (quadAt u q.val)).cells = a.set.cells ∧ (quadAt u q.val).activeB = (quadAt s q.val).activeB ∧
          shadowSet (quadAt u q.val) = shadowSet (quadAt s q.val) ∧
          (quadAt u q.val).swapDue = ((quadAt s q.val).swapDue || r.d.tileEnd.isSome) ∧
          (∀ k, k ≠ q.val → quadAt u k = quadAt s k) ∧ u.cmb = s.cmb ∧ u.so = s.so ∧ u.bl = s.bl ∧ u.beat = s.beat ∧
          Logs s u (if r.d.tileEnd.isSome then (if a.set.sat then [(0x0501, .minor)] else []) ++
            (if a.set.nan || a.set.inf then [(0x0502, .minor)] else []) ++ lateNext s q.val else lateNext s q.val))) ∧
      (∀ n, (quadAt s q.val).swapDue = true → (quadAt s q.val).shadowBusy = false →
        let a := activeSet (quadAt s q.val)
        Runs (.accumulatorSetSwap q n) s (fun u =>
          u = { s with quad := u.quad } ∧ (∀ k, k ≠ q.val → quadAt u k = quadAt s k) ∧
          (quadAt u q.val).activeB = !(quadAt s q.val).activeB ∧ shadowSet (quadAt u q.val) = a ∧
          activeSet (quadAt u q.val) = shadowSet (quadAt s q.val) ∧
          (quadAt u q.val).swapDue = false ∧ (quadAt u q.val).shadowBusy = true ∧
          (quadAt u q.val).arrAmax = fp32Code (if amaxOf a = 0 then fzero false else roundUpFp32 (amaxOf a) 1 (unitExp a.mode a.anchor)) ∧
          (quadAt u q.val).arrStall = satAdd 32 (quadAt s q.val).arrStall n)))

/-- With the operation in front: SAVE outside a swap hands the record of the active set to the SAVE thread that it names, keeps its
values with the next SAVE_SEQ (1 after the wrap), and counts it. RESTORE, once its SAVE thread has brought the record, loads the
active set with the record's flags where it is the one last saved; where the values differ, or nothing was saved, the set is cleared
in the mode and anchor expected (before any SAVE: log 117) and poisoned, ARR_FLAGS.CTX_ERR is set, and event 0x0503 is raised. A
record that has come, and whose mode, anchor and columns are those of the open tile, is added to it; any other poisons the tile with
RECORD, code 5 and event 0x0606. The operation ends in each case; until the record is there it stays. (R185, R186, R187, R204,
R235) -/
def Obligations.ContextsAndRecords : Prop :=
  ∀ (s : State) (q : Quad) (t : Todo), headOp s q.val = some t → (quadAt s q.val).swapDue = false →
    (∀ cols th, t.op = .save cols th → (quadAt s q.val).shadowBusy = false →
      let a := activeSet (quadAt s q.val)
      let last : Nat := ((vget (quadAt s q.val).saved t.ctx none).map (fun k => k.seq)).getD 0
      let seq : Nat := if (last + 1) % 2 ^ 32 = 0 then 1 else (last + 1) % 2 ^ 32
      Runs (.contextSave q) s (fun u => OpEnds s u q.val ∧ activeSet (quadAt u q.val) = a ∧
        (t.ctx < 4 → vget (quadAt u q.val).saved t.ctx none =
          some { planId := (ctxAt s t.ctx).planId, mode := a.mode, anchor := a.anchor, cols := cols, seq := seq, scale := a.scale,
                 scaleMix := a.scaleMix }) ∧
        (quadAt u q.val).arrSaves = satAdd 16 (quadAt s q.val).arrSaves 1 ∧
        ((quadAt s q.val).feeds = [] →
          if (threadAt s (32 * q.val + th)).run ≠ .idle ∧ (threadAt s (32 * q.val + th)).d.write = true then
            (threadAt u (32 * q.val + th)).data = (threadAt s (32 * q.val + th)).data ++ recBytes (ctxAt s t.ctx).planId a cols seq ∧
              (quadAt u q.val).raw = (quadAt s q.val).raw
          else (quadAt u q.val).raw = (quadAt s q.val).raw.insertAt th
            ((((quadAt s q.val).raw.find th).getD ([], false)).1 ++ recBytes (ctxAt s t.ctx).planId a cols seq, false)) ∧
        u.xm.mem = s.xm.mem ∧ Logs s u (lateNext s q.val) ∧ u.cmb = s.cmb)) ∧
    (∀ cols th, t.op = .restore cols th → (quadAt s q.val).raw.find th = none → exec (.contextRestore q) s = .next s) ∧
    (∀ cols th raw, t.op = .restore cols th → (quadAt s q.val).raw.find th = some raw →
      let l := padTo (recLen cols) raw.1
      let h := readRec l
      let bad : State → Prop := fun u => OpEnds s u q.val ∧ (activeSet (quadAt u q.val)).cells = [] ∧
        (activeSet (quadAt u q.val)).mode = (expected s q.val t.ctx).1 ∧ (activeSet (quadAt u q.val)).anchor = (expected s q.val t.ctx).2 ∧
        (activeSet (quadAt u q.val)).poison = true ∧ (quadAt u q.val).arrCtxErr = true ∧
        (quadAt u q.val).arrRestores = satAdd 16 (quadAt s q.val).arrRestores 1 ∧ Logs s u ((0x0503, .major) :: lateNext s q.val)
      (vget (quadAt s q.val).saved t.ctx none = none → Runs (.contextRestore q) s bad) ∧
      (∀ k, vget (quadAt s q.val).saved t.ctx none = some k →
        (h.planId = k.planId ∧ k.planId = (ctxAt s t.ctx).planId ∧ h.mode = k.mode.code ∧ h.anchor = k.anchor ∧ h.cols = k.cols ∧
          cols = k.cols ∧ h.seq = k.seq →
          Runs (.contextRestore q) s (fun u => OpEnds s u q.val ∧
            activeSet (quadAt u q.val) = restored l h k t raw.2 ∧
            (quadAt u q.val).arrRestores = satAdd 16 (quadAt s q.val).arrRestores 1 ∧ Logs s u (lateNext s q.val))) ∧
        (h.planId ≠ k.planId ∨ k.planId ≠ (ctxAt s t.ctx).planId ∨ h.mode ≠ k.mode.code ∨ h.anchor ≠ k.anchor ∨ h.cols ≠ k.cols ∨
          cols ≠ k.cols ∨ h.seq ≠ k.seq → Runs (.contextRestore q) s bad))) ∧
    (∀ addr cols th, t.op = .recordAdd addr cols th → recordHere s t addr = false ∨ (quadAt s q.val).raw.find th = none →
      exec (.tileRecordAdd q) s = .next s) ∧
    (∀ addr cols th raw, t.op = .recordAdd addr cols th → recordHere s t addr = true → (quadAt s q.val).raw.find th = some raw →
      let l := padTo (recLen cols) raw.1
      let h := readRec l
      let set := activeSet (quadAt s q.val)
      (h.mode = set.mode.code → h.anchor = set.anchor → h.cols = cols →
        Runs (.tileRecordAdd q) s (fun u => OpEnds s u q.val ∧
          (activeSet (quadAt u q.val)).cells = (addRecord l h set).set.cells ∧
          (activeSet (quadAt u q.val)).poison = ((addRecord l h set).set.poison || raw.2) ∧
          (quadAt u q.val).arrSatx = satAdd 32 (quadAt s q.val).arrSatx (addRecord l h set).satx ∧ Logs s u (lateNext s q.val))) ∧
      (h.mode ≠ set.mode.code ∨ h.anchor ≠ set.anchor ∨ h.cols ≠ cols → Runs (.tileRecordAdd q) s (fun u => OpEnds s u q.val ∧ (activeSet (quadAt u q.val)).poison = true ∧
        (activeSet (quadAt u q.val)).cells = set.cells ∧ (quadAt u q.val).fusRecord = true ∧ (quadAt u q.val).fusCode = 5 ∧
        Logs s u ((0x0606, .major) :: lateNext s q.val))))

/-- EPILOGUE_COMPLETE of a busy shadow set, with the residual tile it needs, no poisoned vector and no earlier output that has missed its
deadline, frees the set, counts the tile,
its clamped elements and its poison, reports mixed scales with event 0x0602, poison that came in with 0x0601 and clamping with
0x0605, and hands the tile to the stream engine (FC11), unless it is meant for a chunk that has been skipped or for an instance that
has been stopped, to its link window (forwarding chains) or to its OUT thread. FORWARD_TILE_SEND sends flits of the open forward of the lowest entry while the replay buffer has room, and counts the forward
when its last flit has gone. FORWARD_DROP gives up a forward whose window has closed or whose port is not UP, with FWD_DROP, code
3 and event 0x0604, and its instance is FENCED where the port is, and POISONED otherwise. (R193, R203, R205, R207, R208, R209,
R220, R239, R290) -/
def Obligations.ChainsAndForwards : Prop :=
  ∀ (s : State) (q : Quad),
    (quadUp s q.val = true → coreRuns s = true → (quadAt s q.val).shadowBusy = true →
      let a := shadowSet (quadAt s q.val)
      let d := descOf s a.ctx a.desc
      let o := epilogue s q.val
      residReady (quadAt s q.val) d a = true → outReady s q.val a = true → o.badVec = false →
      Runs (.epilogueComplete q) s (fun u =>
        (quadAt u q.val).shadowBusy = false ∧ (quadAt u q.val).fusTiles = satAdd 32 (quadAt s q.val).fusTiles 1 ∧
        (quadAt u q.val).fusQsatx = satAdd 32 (quadAt s q.val).fusQsatx o.qsat ∧ (quadAt u q.val).fusScale = o.scale ∧
        (quadAt u q.val).fusPoisonx = satAdd 32 (quadAt s q.val).fusPoisonx (if o.poison then 1 else 0) ∧
        (quadAt u q.val).fc11 = (quadAt s q.val).fc11 ++ (if d.chain = 11 ∧ (quadAt s q.val).fc11Skip.contains (a.ctx, a.adm) = false ∧
            (quadAt s q.val).stopped.contains (a.ctx, a.adm) = false then
          [{ codes := o.codes, poison := o.poison, ctx := a.ctx, adm := a.adm }] else []) ∧
        (quadAt u q.val).fc11Skip =
          (if d.chain = 11 then (quadAt s q.val).fc11Skip.erase (a.ctx, a.adm) else (quadAt s q.val).fc11Skip) ∧
        (d.chain ≠ 11 → ((quadAt u q.val).fwds.map (fun f => f.bytes)) =
          (quadAt s q.val).fwds.map (fun f => f.bytes) ++ (if (chainRow d.chain).fwd then [o.bytes] else [])) ∧
        OpStays s u q.val ∧ (∀ k, k ≠ q.val → quadAt u k = quadAt s k) ∧
        Logs s u ((if o.mix then [(0x0602, .major)] else []) ++ (if o.inPoison then [(0x0601, .minor)] else []) ++
          if o.qsat ≠ 0 then [(0x0605, .minor)] else []))) ∧
    (∀ f e, lnkUp s = true → nextForward s q.val = some f → fwdEntry s f = some e →
      let n := (sendTile 512 s f e f.sent).1
      Runs (.forwardTileSend q) s (fun u =>
        u = { s with quad := u.quad, hl := u.hl, cmb := { s.cmb with ctx := u.cmb.ctx } } ∧
        ((portAt s f.port).syncq = [] → u.hl = (sendTile 512 s f e f.sent).2.hl ∧ u.cmb = s.cmb) ∧
        (∀ k, k ≠ q.val → quadAt u k = quadAt s k) ∧
        (quadAt u q.val).fwds = (if e.flits ≤ n then (quadAt s q.val).fwds.erase f
          else (quadAt s q.val).fwds.map (fun g => if g = f then { f with sent := n } else g)) ∧
        (quadAt u q.val).fusFwd = if e.flits ≤ n then satAdd 32 (quadAt s q.val).fusFwd 1 else (quadAt s q.val).fusFwd)) ∧
    (∀ f, alive s = true → (quadAt s q.val).fwds.find? (fwdLost s) = some f →
      Runs (.forwardDrop q) s (fun u => (quadAt u q.val).fwds = (quadAt s q.val).fwds.erase f ∧
        (quadAt u q.val).fusFwdDrop = satAdd 32 (quadAt s q.val).fusFwdDrop 1 ∧ (quadAt u q.val).fusDrop = true ∧
        (quadAt u q.val).fusCode = 3 ∧ (∀ k, k ≠ q.val → quadAt u k = quadAt s k) ∧ Logs s u [(0x0604, .major)] ∧
        BatchFaulted u f.ctx f.adm (fun g => if (portAt s f.port).st = .fenced then g.fenced = true else g.poisoned = true)))

/-- For the phase of a chunk in front of a quadrant: GATE, outside slot 127, with the chunk's input in the buffer, the scan buffer
free, no action waiting, the stream IDLE or RUNNING and on the fused path its FC11 tiles delivered, makes the stream RUNNING and
forms the gate values exp(Δ × λ) in FP32; LEVEL j combines every step with the one 2^(j−1) before it, and has no effect where the
chunk has no such step; LOAD reads h_0 from the current copy rounded to FP32, and is skipped where the chunk starts from zero;
EXPAND forms a × h_0 + u by a fused multiply-add and reports with event 0x0702 an element that becomes non-finite; READOUT follows;
STORE
frees the scan buffer, counts the chunk, makes the other copy current and adds 1 to the sequence number. Each ends the operation.
A chunk of a PAUSED or ENDED stream is skipped with event 0x0705, and its later phases do nothing. (R212, R216, R217, R218, R219,
R220, R221, R222, R225, R227) -/
def Obligations.ChunksOfAStream : Prop :=
  ∀ (s : State) (q : Quad),
    (∀ t d raw, chunkOp s q.val .gate = some (t, d) → (quadAt s q.val).raw.find d.inThread = some raw →
      let i := chunkStream s t d
      let e := streamAt s i
      arrayMay s = true → (quadAt s q.val).chunk = none → e.action = [] → e.st = .idle ∨ e.st = .running →
      (e.fused = true → (splitTiles t.ctx t.adm (chunkTiles e) (quadAt s q.val).fc11).1.length = chunkTiles e) →
      Runs (.chunkGate q) s (fun u => OpEnds s u q.val ∧ (streamAt u i).st = .running ∧
        ∃ r, (quadAt u q.val).chunk = some r ∧ r.stream = i ∧ r.phase = .gate ∧ r.zeroStart = (e.reset || d.seqStart) ∧
          r.ctx = t.ctx ∧ r.adm = t.adm ∧
          (e.fused = true → (quadAt u q.val).fc11 = (splitTiles t.ctx t.adm (chunkTiles e) (quadAt s q.val).fc11).2) ∧
          (e.fused = false → r.poison = (raw.2 || decide (leAt raw.1 1 1 / 16 % 2 = 1) || (combVec s t.ctx e.lambda e.d).2 ||
              (quadAt s q.val).lamPoison) ∧
            (quadAt u q.val).fc11 = (quadAt s q.val).fc11 ∧
            ∀ k, k < e.len * e.d → r.a.getAt k 0 = fp32Code (FNum.round fp32Fmt (actFn 5 (mul32
              (FNum.round fp32Fmt (actFn e.deltaFn (fp32Of (leAt raw.1 (32 + 4 * (k / e.d * e.g + k % e.d / e.n)) 4))))
              ((combVec s t.ctx e.lambda e.d).1 (k % e.d)))))))) ∧
    (∀ t d j r, headOp s q.val = some t → t.op = .chunk d → d.phase = .level j → chunkRunOf s q.val (chunkStream s t d) = some r →
      let e := streamAt s r.stream
      Runs (.chunkLevel q) s (fun u => OpEnds s u q.val ∧ (quadAt u q.val).chunk =
        if j = 0 ∨ e.len ≤ 2 ^ (j - 1) then some r
        else some { scanLevel e.len e.d (2 ^ (j - 1)) r with level := j, phase := .level j })) ∧
    (∀ t d r, chunkOp s q.val .load = some (t, d) → chunkRunOf s q.val (chunkStream s t d) = some r →
      let e := streamAt s r.stream
      Runs (.chunkLoad q) s (fun u => OpEnds s u q.val ∧ ∃ w, (quadAt u q.val).chunk = some w ∧ w.phase = .load ∧ w.a = r.a ∧ w.u = r.u ∧
        if r.zeroStart then w.h0 = r.h0
        else ∀ i, i < e.d → w.h0.getAt i 0 = fp32Code (FNum.round fp32Fmt (loadState s e i)))) ∧
    (∀ t d r, chunkOp s q.val .expand = some (t, d) → chunkRunOf s q.val (chunkStream s t d) = some r →
      let e := streamAt s r.stream
      Runs (.chunkExpand q) s (fun u => OpEnds s u q.val ∧ ∃ w, (quadAt u q.val).chunk = some w ∧ w.phase = .expand ∧
        (∀ k, k < e.len * e.d → w.h.getAt k 0 = fp32Code (fma32 (codeVal r.a k)
          (if r.zeroStart then fzero false else codeVal r.h0 (k % e.d)) (codeVal r.u k))) ∧
        (becomes e r w.h = true → (streamAt u r.stream).nonfin = true ∧ (quadAt u q.val).rcsNonfin = true) ∧
        Logs s u ((if becomes e r w.h then [(0x0702, .minor)] else []) ++ lateNext s q.val))) ∧
    (∀ t d r, chunkOp s q.val .readout = some (t, d) → chunkRunOf s q.val (chunkStream s t d) = some r →
      Runs (.chunkReadout q) s (fun u => OpEnds s u q.val ∧
        (quadAt u q.val).chunk = some { r with phase := .readout, level := 0 } ∧ u.streams = s.streams ∧
        u.freeCtr = s.freeCtr + 2 * chunkTiles (streamAt s r.stream))) ∧
    (∀ t d r, chunkOp s q.val .store = some (t, d) → chunkRunOf s q.val (chunkStream s t d) = some r →
      let e := streamAt s r.stream
      e.st = .running → e.action = [] →
      Runs (.chunkStore q) s (fun u => OpEnds s u q.val ∧ (quadAt u q.val).chunk = none ∧
        (streamAt u r.stream).cur = !e.cur ∧ (streamAt u r.stream).seq = (e.seq + 1) % 2 ^ 32 ∧ (streamAt u r.stream).reset = false ∧
        (streamAt u r.stream).st = .running ∧
        (quadAt u q.val).rcsChunks = satAdd 32 (quadAt s q.val).rcsChunks 1 ∧
        (e.be40 = false → u.xm.mem = (xmWrite s (e.copyAt (!e.cur)) ((List.range e.d).flatMap (fun i =>
          leBytes 4 (fp32Code (codeVal r.h ((e.len - 1) * e.d + i)))))).xm.mem ∧ u.freeCtr = s.freeCtr) ∧
        u.cmb.mem = s.cmb.mem ∧ u.beat = s.beat)) ∧
    (∀ t d, headOp s q.val = some t → t.op = .chunk d →
      let st := (streamAt s (chunkStream s t d)).st
      (d.phase = .gate → st = .paused ∨ st = .ended → Runs (.chunkSkip q) s (fun u => OpEnds s u q.val ∧
        (quadAt u q.val).rcsSkipped = true ∧ (quadAt u q.val).rcsSkipx = satAdd 32 (quadAt s q.val).rcsSkipx 1 ∧
        ((streamAt s (chunkStream s t d)).fused = false → (quadAt u q.val).fc11 = (quadAt s q.val).fc11) ∧
        u.streams = s.streams ∧ Logs s u ((0x0705, .minor) :: lateNext s q.val))) ∧
      (d.phase ≠ .gate → chunkRunOf s q.val (chunkStream s t d) = none → Runs (.chunkSkip q) s (fun u => OpEnds s u q.val ∧
        u.streams = s.streams ∧ Logs s u (lateNext s q.val))))

/-- With AON running, STREAM_CTL_APPLY of a stream that no quadrant has a chunk of applies the actions that wait, in order, and
empties their list; while a chunk is between GATE and STORE it changes nothing. Pause makes an IDLE or RUNNING stream PAUSED;
resume makes a PAUSED one RUNNING and no other; reset sets RESET and clears the sequence number and both flags and leaves the
state; end makes it ENDED for good. (R225, R226, R227) -/
def Obligations.StreamActionsApply : Prop :=
  (∀ (s : State) (i : Fin 256), alive s = true →
    (chunkOpen s i.val = true → exec (.streamCtlApply i) s = .next s) ∧
    (chunkOpen s i.val = false → exec (.streamCtlApply i) s = .next { s with
      streams := s.streams.putAt i.val { (streamAt s i.val).action.foldl streamAct (streamAt s i.val) with action := [] } .init })) ∧
  (∀ e : StreamEnt,
    (e.st = .idle ∨ e.st = .running → streamAct e 0 = { e with st := .paused }) ∧
    (streamAct e 1 = if e.st = .paused then { e with st := .running } else e) ∧
    (e.st = .idle ∨ e.st = .running ∨ e.st = .paused →
      streamAct e 2 = { e with reset := true, seq := 0, poison := false, nonfin := false } ∧ streamAct e 3 = { e with st := .ended }) ∧
    (e.st = .ended → ∀ a, streamAct e a = e))

/-- With the external memory interface up: TRANSFER_ISSUE gives the thread whose turn it is, on a channel, the lowest free tag for a
transfer up to the next 256-byte boundary, and tracks the peak; it gives Keeper's own traffic one only while 64 tags are free, and 16
at most. READ_TRANSFER_COMPLETE frees the tag, adds the latency, counts a corrected or an
uncorrectable ECC error, raises event 0x0802 for the latter, and gives the thread the bytes, poisoned where they are; a thread
that has ended takes none. WRITE_TRANSFER_ACCEPTED frees the tag and leaves the bytes in memory; a first failure only repeats the
write, and a second leaves its bytes poisoned and the memory as it was, with event 0x0802. For a thread that has ended, or whose
round has bytes left, no more changes. (R235, R236, R237, R240) -/
def Obligations.TransfersOfThreads : Prop :=
  ∀ s : State, xmUp s = true →
    (∀ (ch : Fin 8) now a tag, freeTag s = some tag → s.xm.tags.length ≤ 960 → tagsOf s keeperThread < 16 → a < xmCapacity s →
      exec (.transferIssue ⟨ch, (some a), now⟩) s = .next { s with
        xm.tags := s.xm.tags ++ [{ tag := tag, thread := keeperThread, addr := a, len := 256 - a % 256, off := 0, write := false,
                                   t0 := now, repeated := false, data := [] }]
        xm.peak := max s.xm.peak (s.xm.tags.length + 1) }) ∧
    (∀ (ch : Fin 8) now a, 960 < s.xm.tags.length ∨ 16 ≤ tagsOf s keeperThread → exec (.transferIssue ⟨ch, (some a), now⟩) s = .next s) ∧
    (∀ (ch : Fin 8) now k t tag, nextThread s ch.val = some (k, t) → freeTag s = some tag →
      let a := t.base + t.issued
      let len := min (256 - a % 256) (roundBytes t - t.issued)
      Runs (.transferIssue ⟨ch, none, now⟩) s (fun u => u = { s with xm := { s.xm with
          threads := u.xm.threads, tags := u.xm.tags, peak := max s.xm.peak (s.xm.tags.length + 1), turn := u.xm.turn } } ∧
        u.xm.tags = s.xm.tags ++ [{ tag := tag, thread := k, addr := a, len := len, off := t.issued, write := t.d.write, t0 := now,
                                    repeated := false, data := if t.d.write then bytesAt t.data t.issued len else [] }] ∧
        threadAt u k = { threadAt s k with issued := (threadAt s k).issued + len })) ∧
    (∀ tag ecc now x, s.xm.tags.find? (fun y => y.tag == tag && !y.write) = some x →
      let th := threadAt s x.thread
      let bad := ecc == 2 || xmPoisoned s x.addr x.len
      th.d.write = false → th.run = .idle ∨ (th.closing = false ∧ th.done + x.len < th.d.bytes) →
      Runs (.readTransferComplete tag ecc now) s (fun u =>
        u = { s with xm := { s.xm with
                threads := u.xm.threads, tags := s.xm.tags.filter (fun y => y.tag != tag), latSum := s.xm.latSum + (now - x.t0),
                latCnt := s.xm.latCnt + 1, latTop := max s.xm.latTop (now - x.t0),
                eccCe := satAdd 16 s.xm.eccCe (if ecc = 1 then 1 else 0), eccUe := satAdd 16 s.xm.eccUe (if ecc = 2 then 1 else 0) },
                     cmb := { s.cmb with ctx := u.cmb.ctx }, hi := u.hi, hw := u.hw } ∧
        (th.run ≠ .idle → threadAt u x.thread =
          { th with data := splice th.data x.off (xmRead s x.addr x.len), poison := th.poison || bad, done := th.done + x.len }) ∧
        (th.run = .idle → u.xm.threads = s.xm.threads) ∧ Logs s u (if ecc = 2 then [(0x0802, .major)] else []))) ∧
    (∀ tag failed x, s.xm.tags.find? (fun y => y.tag == tag && y.write) = some x →
      let th := threadAt s x.thread
      (failed = true → x.repeated = false → exec (.writeTransferAccepted tag failed) s =
        .next { s with xm.tags := s.xm.tags.map (fun y => if y.tag = tag then { y with repeated := true } else y) }) ∧
      (th.run = .idle ∨ (th.closing = false ∧ th.done + x.len < th.d.bytes) → failed = false ∨ x.repeated = true →
        Runs (.writeTransferAccepted tag failed) s (fun u =>
          u = { s with xm := { s.xm with
                  threads := u.xm.threads, tags := s.xm.tags.filter (fun y => y.tag != tag), mem := u.xm.mem, poison := u.xm.poison },
                       hi := u.hi, hw := u.hw } ∧
          (th.run ≠ .idle → threadAt u x.thread = { th with done := th.done + x.len }) ∧
          if failed then u.xm.mem = s.xm.mem ∧ u.xm.poison = (xmPoison s x.addr x.len true).xm.poison ∧ Logs s u [(0x0802, .major)]
          else u.xm.mem = (xmWrite s x.addr x.data).xm.mem ∧ u.hi = s.hi)))

/-- BUF_ALLOC of a whole number of 4 KiB from WG0 or WG1 takes the lowest FREE entry and the lowest free run that fits, and answers
with its reference and base; without either it is DOES_NOT_FIT. WG2 and WG3 are NOT_OWNER, whatever the payload. BUF_FREE of a buffer that the
mailbox holds frees it; BUF_GIVE passes it to the other host mailbox; a stale reference is counted, answered DOUBLE_FREE and
reported with event 0x0901, and one that another holds NOT_OWNER with 0x0902. A slot program's ALLOC takes a POOLED entry of its
plan and a run of its area, or faults the instance with 0x0903; its frees are judged in the same way, and a rejected one is
counted and faults the instance as well. The bodies of the responses are the model's choice. (R244, R245, R246, R247, R252) -/
def Obligations.LedgerCommands : Prop :=
  (∀ (s : State) (m : Nat) (p : List Byte),
    (2 ≤ m → (AtCommand s 0x501 m p → Runs .bufAlloc s (Answered s m 0x40 [])) ∧
      (AtCommand s 0x502 m p → Runs .bufFree s (Answered s m 0x40 [])) ∧
      (AtCommand s 0x503 m p → Runs .bufGive s (Answered s m 0x40 []))) ∧
    (AtCommand s 0x501 m p → p.length = 8 → 0 < leAt p 0 8 → leAt p 0 8 ≤ 2 ^ 32 → leAt p 0 8 % 4096 = 0 →
      (m < 2 → freeEntry s = none ∨ findRun (xmLimit s) 4096 (leAt p 0 8) (planRuns s ++ hostRuns s) = none →
        Runs .bufAlloc s (Answered s m 0x32 [])) ∧
      (∀ i base, m < 2 → freeEntry s = some i → findRun (xmLimit s) 4096 (leAt p 0 8) (planRuns s ++ hostRuns s) = some base →
        Runs .bufAlloc s (Answered
          (onBl s i (fun e => { e with owner := m + 1, holder := m + 1, st := .owned, base := base, len := leAt p 0 8 })) m 0
          (leBytes 2 ((blAt s i).gen * 4096 + i) ++ leBytes 8 base)))) ∧
    (AtCommand s 0x502 m p → p.length = 2 → m < 2 →
      (judgeFree s (leAt p 0 2) (m + 1) = .ok → Runs .bufFree s (Answered (doFree s (leAt p 0 2)) m 0 [])) ∧
      (judgeFree s (leAt p 0 2) (m + 1) = .doubleFree → Runs .bufFree s (fun t => EventRaised s t 0x0901 .minor ∧
        Answered { s with bl.dfree := satAdd 32 s.bl.dfree 1, bl.lastCode := 0x41, bl.lastRef := leAt p 0 2 } m 0x41 [] t)) ∧
      (judgeFree s (leAt p 0 2) (m + 1) = .notOwner → Runs .bufFree s (fun t => EventRaised s t 0x0902 .minor ∧
        Answered { s with bl.nown := satAdd 32 s.bl.nown 1, bl.lastCode := 0x40, bl.lastRef := leAt p 0 2 } m 0x40 [] t))) ∧
    (AtCommand s 0x503 m p → p.length = 2 → m < 2 → judgeFree s (leAt p 0 2) (m + 1) = .ok →
      Runs .bufGive s (Answered (onBl s (leAt p 0 2 % 4096) (fun e => { e with owner := 2 - m, holder := 2 - m })) m 0 []))) ∧
  (∀ (s : State) (q : Quad) (t : Todo), headOp s q.val = some t →
    (∀ v bytes, t.op = .alloc v bytes →
      let c := ctxAt s t.ctx
      let len := roundUp 4096 bytes
      let run := findRun c.xmBytes 4096 len (c.allocs.map (fun r => (r.1 - c.xmBase, r.2)))
      (∀ i off, pooledOf s t.ctx = some i → run = some off →
        Runs (.scheduleAlloc q) s (fun u => OpEnds s u q.val ∧ Logs s u (lateNext s q.val) ∧
          u.bl = (onBl s i (fun e => { e with holder := ctxOwner t.ctx, st := .owned, base := c.xmBase + off, len := len })).bl ∧
          (t.ctx < 4 → (ctxAt u t.ctx).allocs = c.allocs ++ [(c.xmBase + off, len)]) ∧
          (quadAt u q.val).vars = (quadAt s q.val).vars.putAt (varKey v t.ctx t.adm) ((blAt s i).gen * 4096 + i) 0)) ∧
      (pooledOf s t.ctx = none ∨ run = none → Runs (.scheduleAlloc q) s (fun u => OpEnds s u q.val ∧ u.bl = s.bl ∧
        Logs s u ((0x0903, .major) :: lateNext s q.val) ∧ BatchFaulted u t.ctx t.adm (fun f => f.invalid = true)))) ∧
    (∀ v ref, t.op = .free v → ref = (quadAt s q.val).vars.getAt (varKey v t.ctx t.adm) 0 →
      (judgeFree s ref (ctxOwner t.ctx) = .ok → Runs (.scheduleFree q) s (fun u => OpEnds s u q.val ∧ u.bl = (doFree s ref).bl ∧
        Logs s u (lateNext s q.val))) ∧
      (judgeFree s ref (ctxOwner t.ctx) = .doubleFree → Runs (.scheduleFree q) s (fun u => OpEnds s u q.val ∧
        u.bl = { s.bl with dfree := satAdd 32 s.bl.dfree 1, lastCode := 0x41, lastRef := ref } ∧
        Logs s u ((0x0901, .minor) :: (0x0903, .major) :: lateNext s q.val) ∧ BatchFaulted u t.ctx t.adm (fun f => f.invalid = true)))))

/-- In the last slot of a beat, with one instance running in a context whose work and drains have ended, INSTANCE_COMPLETE ends it at
the edge that comes: it leaves the context, its lent buffers return to their lenders, and its completion record, with that edge as
DONE_BEAT, goes to the completion ring, or behind the backlog where the ring cannot take it; a sync object that it still holds is
marked as left, unless it has been stopped. With an instance that still has work, nothing changes. (R242, R266, R327, R328) -/
def Obligations.InstancesComplete : Prop :=
  ∀ (s : State) (c : Ctx) (i : Inst), edgeNear s = true → (ctxAt s c.val).insts = [i] →
    (batchDone s c.val i.admitBeat (edgeNum s) = true → Runs (.instanceComplete c) s (fun u =>
      (ctxAt u c.val).insts = [] ∧ (∀ k, k ≠ c.val → ctxAt u k = ctxAt s k) ∧ u.bl = (i.lent.foldl returnLent s).bl ∧
      u.beat = s.beat ∧ u.so = (if i.stopped then s.so else (leaveHolds s c.val i.admitBeat).so) ∧ u.cmb.mem = s.cmb.mem ∧ u.xm.mem = s.xm.mem ∧
      if s.hi.backlog.isEmpty && cprOpen s then u.hi.cpr = s.hi.cpr.advance ∧ u.hi.backlog = []
      else u.hi.cpr = s.hi.cpr ∧ u.hi.backlog = s.hi.backlog ++ [recordOf s c.val i (edgeNum s)])) ∧
    (batchDone s c.val i.admitBeat (edgeNum s) = false → exec (.instanceComplete c) s = .next s)

/-- With the operation in front of a quadrant: ACQ of an object, where the quadrant holds none at or above it, takes the hold once
VALUE meets the threshold, no quadrant holds it and no lower one blocked on it may take it now, and blocks otherwise; WAIT proceeds once VALUE meets the threshold and changes
no object; an ACQ or WAIT out of ascending order performs nothing, is counted and reported with event 0x0A01, and faults its
instance. REL by the holder adds INC modulo 2^32 and clears the hold; by another it is NOT_OWNER with event 0x0A03 and changes no
object. SEND ends at once and leaves its flit waiting for the port's sync window; on a port that is not UP it is discarded. A
blocked operation proceeds when its condition holds, a lower quadrant first. (R254, R255, R257, R258, R259, R261) -/
def Obligations.SyncObjectsOfASlotProgram : Prop :=
  ∀ (s : State) (q : Quad),
    (∀ t i min, headOp s q.val = some t →
      let obj := soIndex s t.ctx i
      let thr := opThreshold s t.ctx t.adm obj min
      let fault : State → Prop := fun u => u.so = { s.so with
        orderx := satAdd 32 s.so.orderx 1, lastCode := 0x52, lastCtx := t.ctx, lastQuad := q.val, lastIdx := obj } ∧
        Logs s u ((0x0A01, .major) :: lateFront (dropTodo s (quadAt s q.val) t.ctx t.adm)) ∧
        BatchFaulted u t.ctx t.adm (fun f => f.orderFault = true) ∧
        ∀ x ∈ (quadAt u q.val).todo, x.ctx = t.ctx → x.adm = t.adm → ∃ d, x.op = .chunk d ∧ d.phase ≠ .gate
      (t.op = .acq i min →
        (holdsFrom s q.val obj = true → Runs (.syncAcq q) s fault) ∧
        (holdsFrom s q.val obj = false → soReady s true obj thr = true → lowerReady s q.val obj = false →
          Runs (.syncAcq q) s (fun u => OpEnds s u q.val ∧ u.cmb = s.cmb ∧
            u.so = (onSo s obj (fun o => { o with holder := some (t.ctx, q.val), heldBy := some t.adm, left := false })).so)) ∧
        (holdsFrom s q.val obj = false → soReady s true obj thr = false ∨ lowerReady s q.val obj = true →
          exec (.syncAcq q) s = .next (onQuad s q.val (fun x => { x with blocked := some { acq := true, obj := obj, thr := thr } })))) ∧
      (t.op = .wait i min →
        (holdsFrom s q.val obj = true → Runs (.syncWait q) s fault) ∧
        (holdsFrom s q.val obj = false → soMet (soAt s obj).value thr = true →
          Runs (.syncWait q) s (fun u => OpEnds s u q.val ∧ u.so = s.so ∧ u.cmb = s.cmb)) ∧
        (holdsFrom s q.val obj = false → soMet (soAt s obj).value thr = false →
          exec (.syncWait q) s = .next (onQuad s q.val (fun x => { x with blocked := some { acq := false, obj := obj, thr := thr } }))))) ∧
    (∀ t i inc, headOp s q.val = some t → t.op = .rel i inc →
      let obj := soIndex s t.ctx i
      ((soAt s obj).holder = some (t.ctx, q.val) → Runs (.syncRel q) s (fun u => OpEnds s u q.val ∧ u.cmb = s.cmb ∧
        u.so = (onSo s obj (fun o =>
          { o with value := (o.value + inc) % 2 ^ 32, holder := none, heldBy := none, left := false })).so)) ∧
      ((soAt s obj).holder ≠ some (t.ctx, q.val) → Runs (.syncRel q) s (fun u => u.so = { s.so with
        nownx := satAdd 32 s.so.nownx 1, lastCode := 0x40, lastCtx := t.ctx, lastQuad := q.val, lastIdx := obj } ∧
        Logs s u ((0x0A03, .major) :: lateFront (dropTodo s (quadAt s q.val) t.ctx t.adm)) ∧ BatchFaulted u t.ctx t.adm (fun f => f.notOwner = true)))) ∧
    (∀ t obj inc port, headOp s q.val = some t → t.op = .send obj inc port → (portAt s port.val).syncq = [] →
      (portUp s port.val = false → Runs (.syncSend q) s (fun u => OpEnds s u q.val ∧ u.hl = s.hl ∧ u.so = s.so)) ∧
      (portUp s port.val = true → syncEntry s t.ctx port.val = none → Runs (.syncSend q) s (fun u => OpEnds s u q.val ∧ u.so = s.so ∧
        u.hl = (onPort s port.val (fun x => { x with syncq := [{ ctx := t.ctx, inst := batchN s t.ctx t.adm, obj := obj, inc := inc }] })).hl))) ∧
    (∀ b t r, quadUp s q.val = true → coreRuns s = true → (quadAt s q.val).blocked = some b → (quadAt s q.val).todo = t :: r →
      canProceed s q.val = true → Runs (.blockedOpProceed q) s (fun u => OpEnds s u q.val ∧ (quadAt u q.val).blocked = none ∧
        u.so = if b.acq then
          (onSo s b.obj (fun o => { o with holder := some (t.ctx, q.val), heldBy := some t.adm, left := false })).so else s.so))

/-- In a slice that runs: a request that its requester may make begins its job and enters the queue of 8; with the queue full it is
counted as lost, but for one of class 0, which displaces the last entry of a lower class. A grant with no data phase open gives
the port to the entry of the highest class whose turn it is, takes it from the queue and counts it for its class; the grant that
ends a read transfer of a job that has more to do adds 1 to its progress. The watchdog closes the data phase, counts, keeps the
requester and its progress, drops its requests, and raises event 0x0B01. (R269, R270, R271, R273) -/
def Obligations.CombPortArbitration : Prop :=
  ∀ (s : State) (q : Quad), sliceRuns s q.val = true →
    (∀ (id : Fin 14) page len, page / 98304 = q.val → 0 < len → hasWork s q.val id.val page = true →
      (arbAt s q.val).queue.any (fun e => e.id == id.val) = false → fillHeld s q.val id.val page = false →
      (10 ≤ id.val ∧ id.val ≤ 12 → understoryTime s q.val = true) →
      let a := arbAt s q.val
      let e : PqEntry := { id := id.val, page := page, write := id.val == 11 || id.val == 12 || (id.val == 10 && a.writeBack) }
      Runs (.sidePortRequest q id page len) s (fun u => u = { s with arb := u.arb } ∧ (∀ k, k ≠ q.val → arbAt u k = arbAt s k) ∧
        (jobOf (arbAt u q.val) id.val).len = (if (jobOf a id.val).len = 0 then len else (jobOf a id.val).len) ∧
        if a.queue.length < 8 then (arbAt u q.val).queue = a.queue ++ [e] ∧ (arbAt u q.val).pqfull = a.pqfull
        else if portClass id.val = 0 ∧ a.queue.any (fun x => decide (0 < portClass x.id)) = true then
          (arbAt u q.val).queue = dropLastWhere (fun x => decide (0 < portClass x.id)) a.queue ++ [e] ∧
            (arbAt u q.val).displace = satAdd 32 a.displace 1
        else (arbAt u q.val).queue = a.queue ∧ (arbAt u q.val).pqfull = satAdd 32 a.pqfull 1)) ∧
    (∀ errs e, (arbAt s q.val).owner = none → nextGrant (arbAt s q.val) = some e →
      exec (.sidePortGrant q errs) s = .next (onArb s q.val (fun a => { a with
        queue := a.queue.erase e, owner := some e, grants := vmod a.grants (portClass e.id) (fun n => satAdd 32 n 1),
        lastGrant := vput a.lastGrant (portClass e.id) e.id }))) ∧
    (∀ e, (arbAt s q.val).owner = some e → (arbAt s q.val).queue = [] → e.write = false → e.id < 11 →
      let j := jobOf (arbAt s q.val) e.id
      j.done + 1 < j.len → Runs (.sidePortGrant q 0) s (fun u => (arbAt u q.val).owner = none ∧
        jobOf (arbAt u q.val) e.id = { j with done := j.done + 1 } ∧ u.cmb.mem = s.cmb.mem ∧ u.hi = s.hi)) ∧
    (∀ e, (arbAt s q.val).owner = some e → e.id < 13 →
      Runs (.portWatchdogExpiry q) s (fun u => (arbAt u q.val).owner = none ∧
        (arbAt u q.val).wdog = satAdd 32 (arbAt s q.val).wdog 1 ∧ (arbAt u q.val).wdId = e.id ∧
        (arbAt u q.val).wdProg = (jobOf (arbAt s q.val) e.id).done ∧ (∀ x ∈ (arbAt u q.val).queue, x.id ≠ e.id) ∧
        EventRaised s u 0x0B01 .major ∧ u.cmb.mem = s.cmb.mem))

/-- SCRUB_PAGE_START, in Understory time of a slice that runs, with no page under way, no rebuild write that waits and one page called for
by the pace, counts a page
started and begins its job of 64 transfers, or goes on to the next page where the page is one that it skips. While the function
answers and no aperture read is under way, a read of whole words inside one 64-byte line of the aperture waits at its slice's
port; any other read returns 0 and counts an access fault, and so does every write; 40 microseconds without a grant end the read
with zeros and an access fault. COMB_APERTURE moves the window; a window above 5 is BAD_PAYLOAD. (R3, R311, R312, R334, R387) -/
def Obligations.ScrubAndAperture : Prop :=
  ∀ s : State,
    (∀ q : Quad, sliceRuns s q.val = true → understoryTime s q.val = true → (jobOf (arbAt s q.val) 10).len = 0 →
      (arbAt s q.val).scrubAgain = false → vget s.us.catchUp q.val false = false → rebuildWaits s q.val = false → vget s.us.started q.val 0 < scrubDue s →
      let e := onArb { s with us.started := vmod s.us.started q.val (fun n => n + 1) } q.val (fun a => { a with scrubAgain := false, writeBack := false })
      (scrubSkips s (scrubPage s q.val) = false → exec (.scrubPageStart q) s =
        .next (onJob e q.val 10 (fun j => { j with len := 64, done := 0 }))) ∧
      (scrubSkips s (scrubPage s q.val) = true → vget s.us.page q.val 0 + 1 < 98304 → exec (.scrubPageStart q) s =
        .next { e with us.page := vput s.us.page q.val (vget s.us.page q.val 0 + 1) })) ∧
    (∀ off len, hostUp s = true → off < 0x10000000 → apertureIdle s = true →
      ((off % 4 ≠ 0 ∨ len % 4 ≠ 0 ∨ len < 4 ∨ 64 < len ∨ off / 64 ≠ (off + len - 1) / 64) → exec (.apertureRead off len) s =
        .next { s with hi.readData := [0#32], hi.accessErr := satAdd 32 s.hi.accessErr 1 }) ∧
      (off % 4 = 0 → len % 4 = 0 → 4 ≤ len → len ≤ 64 → off / 64 = (off + len - 1) / 64 → s.hi.aperture ≤ 5 →
        Runs (.apertureRead off len) s (fun u => u = { s with arb := u.arb } ∧
          (arbAt u ((s.hi.aperture * 0x10000000 + off) / 0x18000000)).aperture = some (s.hi.aperture * 0x10000000 + off, len)))) ∧
    (hostUp s = true → exec .apertureWrite s = .next { s with hi.accessErr := satAdd 32 s.hi.accessErr 1 }) ∧
    (∀ q a n, alive s = true → q < 4 → (∀ k, k < 4 → k ≠ q → (arbAt s k).aperture = none) → (arbAt s q).aperture = some (a, n) →
      (arbAt s q).owner = none → exec .apertureTimeout s = .next (onArb
        { s with hi.readData := bytesWords (n / 4) [], hi.accessErr := satAdd 32 s.hi.accessErr 1 } q (fun x =>
          { x with aperture := none, jobs := x.jobs.eraseAt 13, queue := x.queue.filter (fun e => e.id != 13) }))) ∧
    (∀ m p, AtCommand s 0x120 m p → p.length = 1 →
      (leAt p 0 1 ≤ 5 → Runs .combAperture s (Answered { s with hi.aperture := leAt p 0 1 } m 0 [])) ∧
      (5 < leAt p 0 1 → Runs .combAperture s (Answered s m 0x20 [])))

/-- LNK_POWER_GOOD before READY leaves every port in listen-only. A port that listens or is OFF starts training; one that meets no
signal in 20 ms is ABSENT with event 0x0C03; one whose training time passes is DOWN with 0x0C02, or, on its quick start, trains
fully, with all lanes; ABSENT and DOWN retry once the device is READY. A trained PMD sends IDENT. An IDENT that agrees makes the port UP with 0x0C01, and a solo Hive
member seeks its Hive; one that does not fences it with 0x0C04. Loss of signal drops an UP port to training with 0x0C02, and at
the third drop within 1,000 beats to HELD with 0x0C07 as well. More bad flits in a beat than a hundredth of its flits fence the
port. HIVE_PORT retrains a trained or waiting port, frees a fenced one, and holds one that no installed plan claims. A port that
changes state forgets its link layer. (That link training takes no time of its own is the model's choice: log 42.) (R34, R278,
R279, R280, R281, R296, R303, R304, R307) -/
def Obligations.PortsTrain : Prop :=
  ∀ s : State,
    (alive s = true → s.pwr.lnk = false → s.hi.readiness = .memory ∨ s.hi.readiness = .links →
      Runs (.lnkPowerGood false) s (fun t => (∀ p, p < 20 → (portAt t p).st = .listen) ∧
        t = { s with pwr.lnk := true, hl.port := t.hl.port })) ∧
    (∀ p : PortId, lnkUp s = true →
      let x := portAt s p.val
      (x.st = .listen ∨ x.st = .off → s.hi.readiness ≠ .links → Runs (.portTrainingStart p) s (fun t =>
        PortMoved s t p.val .training ∧ (portAt t p.val).attempts = satAdd 16 x.attempts 1 ∧ Logs s t [])) ∧
      (x.st = .training → x.pmdDone = false → Runs (.portNoSignalTimeout p) s (fun t =>
        PortMoved s t p.val .absent ∧ (portAt t p.val).lastMs = 20 ∧ Logs s t [(0x0C03, .minor)])) ∧
      (x.st = .training → x.quick = false → Runs (.portTrainingTimeout p) s (fun t =>
        PortMoved s t p.val .down ∧ Logs s t [(0x0C02, .major)])) ∧
      (x.st = .training → x.quick = true → exec (.portTrainingTimeout p) s =
        .next (onPort s p.val (fun x => { x with
          spared := none, txSpared := none, weak := false, quick := false, pmdDone := false, identSent := false }))) ∧
      (s.hi.readiness ≠ .ready → exec (.portRetryTimer p) s = .next s) ∧
      (x.st = .absent ∨ x.st = .down → s.hi.readiness = .ready → Runs (.portRetryTimer p) s (fun t =>
        PortMoved s t p.val .training ∧ (portAt t p.val).attempts = satAdd 16 x.attempts 1 ∧ Logs s t [])) ∧
      (∀ spare ms, x.st = .training → x.pmdDone = false → spare < 9 → x.sealed = false → Runs (.pmdTrainingComplete p spare ms) s (fun t =>
        t = { s with hl.port := t.hl.port } ∧ (portAt t p.val).pmdDone = true ∧ (portAt t p.val).lastMs = min ms 0xFFFF ∧
        (portAt t p.val).outq = mkFlit 0x13 s.beat.ownRank x.nbrRank 0 0 0 0 (leBytes 8 s.hl.hiveId ++ leBytes 4 s.hl.epoch ++
          leBytes 2 s.beat.ownRank ++ leBytes 1 p.val ++ leBytes 1 (if s.hl.sealed then 1 else 0) ++ leBytes 4 x.session) :: x.outq)) ∧
      (∀ l, isFlit l 0x13 = true → x.st = .training → x.pmdDone = true → hcrcOk l = true →
        (identOk s p.val (fPay l) = false → Runs (.identReceive p l) s (fun t =>
          PortMoved s t p.val .fenced ∧ (portAt t p.val).fence = 1 ∧ Logs s t [(0x0C04, .major)])) ∧
        (identOk s p.val (fPay l) = true →
          (hiveMember s = false ∨ s.beat.pstate ≠ .solo → Runs (.identReceive p l) s (fun t =>
            PortMoved s t p.val .up ∧ (portAt t p.val).peerSession = leAt (fPay l) 16 4 ∧ Logs s t [(0x0C01, .info)])) ∧
          (hiveMember s = true → s.beat.pstate = .solo → Runs (.identReceive p l) s (fun t =>
            (portAt t p.val).st = .up ∧ t.beat = { s.beat with pstate := .seek, waitEdges := 0, hops := 31 } ∧
            Logs s t [(0x0C01, .info)])))) ∧
      (x.st = .up →
        let near := (s.beat.num :: x.dropBeats).filter (fun b => decide (s.beat.num < b + 1000))
        (near.length < 3 → Runs (.lossOfSignal p) s (fun t => PortMoved s t p.val .training ∧
          (portAt t p.val).drops = satAdd 32 x.drops 1 ∧ Logs s t [(0x0C02, .major)])) ∧
        (3 ≤ near.length → Runs (.lossOfSignal p) s (fun t => PortMoved s t p.val .held ∧
          (portAt t p.val).drops = satAdd 32 x.drops 1 ∧ Logs s t [(0x0C02, .major), (0x0C07, .critical)])) ∧
        (125 * s.beat.slotTicks / 100 < x.bad → Runs (.floodDetected p) s (fun t => PortMoved s t p.val .fenced ∧
          (portAt t p.val).fence = 3 ∧ Logs s t [(0x0C04, .major)])))) ∧
    (∀ m p, AtCommand s 0x604 m p → p.length = 2 → leAt p 0 1 < 20 →
      let n := leAt p 0 1
      let st := (portAt s n).st
      (leAt p 1 1 = 0 →
        (st = .fenced → Runs .hivePortRetrain s (Answered s m 0x51 [])) ∧ (st = .off → Runs .hivePortRetrain s (Answered s m 0x31 [])) ∧
        (st ≠ .fenced → st ≠ .off → Runs .hivePortRetrain s (fun t => ∃ e, PortMoved s e n .training ∧ Answered e m 0 [] t))) ∧
      (leAt p 1 1 = 1 →
        (st ≠ .fenced → Runs .hivePortUnfence s (Answered s m 0x31 [])) ∧
        (st = .fenced → Runs .hivePortUnfence s (fun t => ∃ e, PortMoved s e n .training ∧ Answered e m 0 [] t))) ∧
      (leAt p 1 1 = 2 →
        (st = .off ∨ st = .fenced ∨ st = .held ∨ portClaimed s n = true → Runs .hivePortHold s (Answered s m 0x31 [])) ∧
        (st ≠ .off → st ≠ .fenced → st ≠ .held → portClaimed s n = false →
          Runs .hivePortHold s (fun t => ∃ e, PortMoved s e n .held ∧ Logs s e [(0x0C09, .info)] ∧ Answered e m 0 [] t))))

/-- On an UP port: a LANE flit schedules the move of a transmit lane, and the boundary makes it, as it makes the receiver's own, with
event 0x0C05 where its lane is weak; an
uncorrectable codeword is counted and answered with a NAK unless one is outstanding, and so is an ACK, NAK or LANE flit whose HCRC
fails; more than 32 in a beat drop the port. ACK
frees the flits it covers and returns credits up to 64; NAK resends the buffer from its SEQ with REPLAY set and is counted; the
ACK timer acknowledges what is not acknowledged; a replay timeout resends, and the eighth in a row drops the port with 0x0C02. An
idle seal group closes with its TAG and the next GROUP. Nothing changes but that port. (R277, R282, R286, R287, R292, R300) -/
def Obligations.LinkLayerOfAPort : Prop :=
  ∀ (s : State) (p : PortId), portUp s p.val = true →
    let x := portAt s p.val
    let dropped : State → Prop := fun t => PortMoved s t p.val .training ∧ (portAt t p.val).drops = satAdd 32 x.drops 1 ∧
      Logs s t [(0x0C02, .major)]
    let near := (s.beat.num :: x.dropBeats).filter (fun b => decide (s.beat.num < b + 1000))
    (∀ l, isFlit l 0x14 = true → hcrcOk l = true → leAt (fPay l) 0 1 < 8 → leAt (fPay l) 1 1 < 2 →
      exec (.laneFlitReceive p l) s = .next (onPort s p.val (fun x => { x with
        rx := satAdd 64 x.rx 1, move := some (leAt (fPay l) 0 1, leAt (fPay l) 1 1 == 1) }))) ∧
    (∀ k back, x.laneTx = some (k, back) → Runs (.laneSpareSwitch ⟨p, false⟩) s (fun t => Raised
      (onPort s p.val (fun x => { x with laneTx := none, spared := if back then none else some k })) t
      (if x.weak && !back then [(0x0C05, .minor)] else []))) ∧
    (∀ k back, x.move = some (k, back) → exec (.laneSpareSwitch ⟨p, true⟩) s =
      .next (onPort s p.val (fun x => { x with move := none, txSpared := if back then none else some k }))) ∧
    (∀ l, isFlit l 0x11 = true ∨ isFlit l 0x12 = true ∨ isFlit l 0x14 = true → hcrcOk l = false → x.gap = false →
      let asked : State := onPort s p.val (fun x => { x with
        rx := satAdd 64 x.rx 1, gap := true, tx := satAdd 64 x.tx 1
        outq := mkFlit 0x12 s.beat.ownRank x.nbrRank 0 0 0 0 (leBytes 2 x.rxSeq) :: x.outq })
      (isFlit l 0x11 = true → exec (.flitAckReceive p l) s = .next asked) ∧
      (isFlit l 0x12 = true → exec (.flitNakReceive p l) s = .next asked) ∧
      (isFlit l 0x14 = true → exec (.laneFlitReceive p l) s = .next asked)) ∧
    (x.gap = true → exec (.uncorrectableCodeword p) s = .next (onPort s p.val (fun x =>
      { x with uncorr := satAdd 32 x.uncorr 1, uncorrBeat := x.uncorrBeat + 1 }))) ∧
    (x.gap = false → exec (.uncorrectableCodeword p) s = .next (onPort s p.val (fun x =>
      { x with uncorr := satAdd 32 x.uncorr 1, uncorrBeat := x.uncorrBeat + 1, gap := true, tx := satAdd 64 x.tx 1,
               outq := mkFlit 0x12 s.beat.ownRank x.nbrRank 0 0 0 0 (leBytes 2 x.rxSeq) :: x.outq }))) ∧
    (32 < x.uncorrBeat → near.length < 3 → Runs (.codewordErrorLimit p) s dropped) ∧
    (∀ l, isFlit l 0x11 = true → hcrcOk l = true → x.txWait = [] → x.syncq = [] → x.waitq = [] →
      Runs (.flitAckReceive p l) s (fun t => t = { s with hl.port := t.hl.port } ∧
        (portAt t p.val).buffer = x.buffer.filter (fun f => !seqLe (fSeq f) (leAt (fPay l) 0 2)) ∧
        (portAt t p.val).credit = min 64 (x.credit + leAt (fPay l) 2 2) ∧ (portAt t p.val).rx = satAdd 64 x.rx 1)) ∧
    (∀ l, isFlit l 0x12 = true → hcrcOk l = true →
      let again := x.buffer.filter (fun f => seqLe (leAt (fPay l) 0 2) (fSeq f))
      Runs (.flitNakReceive p l) s (fun t => t = { s with hl.port := t.hl.port } ∧
        (portAt t p.val).outq = (again.map (fun f => withReplay f true)).reverse ++ x.outq ∧ (portAt t p.val).buffer = x.buffer ∧
        (portAt t p.val).nak = satAdd 32 x.nak 1 ∧ (portAt t p.val).replay = satAdd 32 x.replay again.length)) ∧
    (x.unacked ≠ 0 ∨ x.creditRet ≠ 0 → exec (.ackTimer p) s = .next (onPort s p.val (fun x =>
      { x with unacked := 0, creditRet := 0, tx := satAdd 64 x.tx 1,
               outq := mkFlit 0x11 s.beat.ownRank x.nbrRank 0 0 0 0 (leBytes 2 (x.rxSeq + 65535) ++ leBytes 2 x.creditRet) :: x.outq }))) ∧
    (∀ f r, x.buffer = f :: r →
      (x.timeouts + 1 < 8 → Runs (.replayTimeout p) s (fun t => t = { s with hl.port := t.hl.port } ∧
        (portAt t p.val).timeouts = x.timeouts + 1 ∧ (portAt t p.val).buffer = x.buffer ∧
        (portAt t p.val).outq =
          ((x.buffer.filter (fun g => seqLe (fSeq f) (fSeq g))).map (fun g => withReplay g true)).reverse ++ x.outq)) ∧
      (7 ≤ x.timeouts → near.length < 3 → Runs (.replayTimeout p) s dropped)) ∧
    (x.sealTx = [] → exec (.sealGroupClose p) s = .next s) ∧
    (x.sealTx ≠ [] → x.group + 1 ≠ 2 ^ 32 → Runs (.sealGroupClose p) s (fun t => t = { s with hl.port := t.hl.port } ∧
      (portAt t p.val).sealTx = [] ∧ (portAt t p.val).group = x.group + 1 ∧
      (portAt t p.val).buffer.length + (portAt t p.val).txWait.length = x.buffer.length + x.txWait.length + 1))

/-- A SEQ flit that comes in its order at an UP unsealed port, from the port's neighbour: a DATA flit that its inbound entry accepts
is written at DEST + 240 × INDEX and its index noted; a SYNC flit adds to its remote object; without an entry the flit is bad, the
first of the beat with event 0x0C08; a HALT is counted, and one not seen before stops the plan it names; an unscheduled message
for Keeper is delivered, and its credit returns; a beat marker of the neighbour is recorded with its Δ, one sent again without its
timing, and in TRACK one of the parent that numbers the beats otherwise makes the member adopt the number, stops every instance and
raises 0x0209; a TAG on an unsealed port has no effect. A flit from another rank fences the port with 0x0C04. A TAG that fails fences a sealed
port, counts, and applies nothing of its group. INBOUND_ENTRY_COMPLETE ends an entry with every index written, and adds 1 to its
object. (R87, R88, R103, R262, R263, R286, R291, R292, R294, R301, R303) -/
def Obligations.FlitsOfTheChannels : Prop :=
  (∀ (s : State) (p : PortId) (l : List Byte), (portAt s p.val).sealed = false →
    let e := rxState s p.val
    (∀ ns, FlitTaken s p.val l 1 →
      (∀ c x, schedEntry s p.val l false ns = some (c, x) → c < 4 → Runs (.flitDataReceive p l ns) s (fun t =>
        t = { e with cmb := { s.cmb with ctx := t.cmb.ctx }, xm := t.xm } ∧
        t.xm = (if xmUp s then xmWrite s ((ctxAt s c).xmBase + x.dest + 240 * fIndex l) (fPay l) else s).xm ∧
        (((ctxAt t c).links[fEntry l]?).map (fun y => (y.inst, y.got))) =
          some (fInst l, addOnce (x.forInst (fInst l)).got (fIndex l)))) ∧
      (schedEntry s p.val l false ns = none → Runs (.flitDataReceive p l ns) s (fun t =>
        Raised (onPort e p.val (fun x => { x with bad := satAdd 16 x.bad 1, badTotal := satAdd 32 x.badTotal 1 })) t
          (if (portAt s p.val).bad = 0 then [(0x0C08, .minor)] else [])))) ∧
    (∀ ns x, FlitTaken s p.val l 2 → schedEntry s p.val l true ns = some x →
      exec (.flitSyncReceive p l ns) s = .next (syncApply e l)) ∧
    (FlitTaken s p.val l 5 →
      let id := leAt (fPay l) 0 8
      let n := leAt (fPay l) 8 8
      (s.hl.haltSeen.contains (id, n) = true → exec (.flitHaltReceive p l) s = .next { e with hl.halts := satAdd 32 s.hl.halts 1 }) ∧
      (∀ c, s.hl.haltSeen.contains (id, n) = false → ctxOf s id = some c → Runs (.flitHaltReceive p l) s (fun t =>
        t.hl.halts = satAdd 32 s.hl.halts 1 ∧ t.hl.haltSeen = (id, n) :: s.hl.haltSeen ∧ (ctxAt t c).halted = true ∧
        (ctxAt t c).haltBeat = some n ∧
        (ctxAt t c).haltDue = some (min (max n s.beat.num + 1) ((ctxAt s c).haltDue.getD (max n s.beat.num + 1)))))) ∧
    (∀ ns, FlitTaken s p.val l 4 → fSrc l < s.hl.size → fDst l < s.hl.size → unschedWindow s ns = true → (portAt s p.val).rxUnsched < 64 →
      fDst l = s.beat.ownRank → leAt (fPay l) 0 1 = 3 → exec (.flitUnschedReceive p l ns) s = .next
        { onPort e p.val (fun x => { x with creditRet := x.creditRet + 1 }) with hl.keeperMsgs := fPay l :: s.hl.keeperMsgs }) ∧
    (∀ d, FlitTaken s p.val l 3 → (portAt s p.val).express = false → leAt (fPay l) 8 2 % 1024 = (portAt s p.val).nbrRank →
      (fReplay l = false → s.beat.pstate ≠ .track → Runs (.beatMarkerReceive p l d) s (fun t =>
        t = { e with beat := { s.beat with markers := t.beat.markers, fresh := t.beat.fresh } } ∧
        (vget t.beat.markers p.val .init).beat = leAt (fPay l) 0 8 ∧
        (vget t.beat.markers p.val .init).beatEdge = (arrival s d).edge ∧
        measured (vget t.beat.markers p.val .init) (arrival s d).edge = some (32 * d) ∧
        (vget t.beat.markers p.val .init).master = leAt (fPay l) 10 2 % 1024 ∧
        (vget t.beat.markers p.val .init).hops = leAt (fPay l) 12 1 % 32 ∧ (vget t.beat.markers p.val .init).valid = true)) ∧
      (fReplay l = false → s.beat.pstate = .track → s.beat.parent = some (leAt (fPay l) 8 2 % 1024) →
        numberDiffers s (leAt (fPay l) 0 8) (arrival s d) = true → Runs (.beatMarkerReceive p l d) s (fun t =>
          t.beat.adopt = some (leAt (fPay l) 0 8 + (s.beat.edges + 1 - (arrival s d).edge)) ∧
          (∀ c, c < 4 → ∀ i ∈ (ctxAt t c).insts, i.stopped = true ∧ i.faults.invalid = true) ∧
          t.syn = s.syn ∧ t.cmb.mem = s.cmb.mem ∧ t.quad = s.quad ∧ Logs s t [(0x0209, .critical)])) ∧
      (fReplay l = true → Runs (.beatMarkerReceive p l d) s (fun t =>
        t = { e with beat := { s.beat with markers := t.beat.markers } } ∧
        (vget t.beat.markers p.val .init).meas = (vget s.beat.markers p.val .init).meas ∧
        (vget t.beat.markers p.val .init).edgeSeen = (arrival s d).edge ∧
        (vget t.beat.markers p.val .init).master = leAt (fPay l) 10 2 % 1024))) ∧
    (FlitTaken s p.val l 6 → exec (.flitTagReceive p l) s = .next e)) ∧
  (∀ (s : State) (p : PortId) (l : List Byte), portUp s p.val = true → isFlit l 1 = true → hcrcOk l = true →
    fSeq l = (portAt s p.val).rxSeq → s.hl.roster = true → fromNbr s p.val l = false → ∀ ns,
    Runs (.flitDataReceive p l ns) s (fun t => PortMoved s t p.val .fenced ∧ (portAt t p.val).fence = 1 ∧ Logs s t [(0x0C04, .major)])) ∧
  (∀ (s : State) (p : PortId) (l : List Byte), FlitTaken s p.val l 6 → (portAt s p.val).sealed = true →
    tagOk s p.val (fPay l) = false → Runs (.flitTagReceive p l) s (fun t => (portAt t p.val).st = .fenced ∧ (portAt t p.val).fence = 2 ∧
      (portAt t p.val).tagFail = satAdd 32 (portAt s p.val).tagFail 1 ∧ (portAt t p.val).sealRx = [] ∧ t.so = s.so ∧ t.beat = s.beat ∧
      Logs s t [(0x0C04, .major)])) ∧
  (∀ (s : State) (c : Ctx) (i : Nat) (x : LinkEnt), alive s = true → (ctxAt s c.val).links[i]? = some x → x.inbound = true → x.kind ≠ 2 →
    x.complete = false → x.got.length = x.flits →
    (x.object = 0xFFFF → exec (.inboundEntryComplete c i) s = .next (onLink s c.val i (fun y => { y with complete := true }))) ∧
    (x.object < (ctxAt s c.val).soCount → (ctxAt s c.val).st = .installed → vget s.so.inst c.val 0 % 65536 = x.inst % 65536 →
      (soAt s ((ctxAt s c.val).soBase + x.object)).remote = true → x.object ≠ 0xFFFF →
      exec (.inboundEntryComplete c i) s = .next (onSo (onLink s c.val i (fun y => { y with complete := true }))
        ((ctxAt s c.val).soBase + x.object) (fun o => { o with value := (o.value + 1) % 2 ^ 32 }))))

/-- While the function answers: a write to the Inflow window that is not of whole aligned words, or not with every byte enabled, is
discarded and counted in HI_BADTLP. With no packet open, a request of 64 bytes that ends in the upper half of the window is one
wide word at the end of the queue, with its packet end, counts as arrived, and wakes a device in a low state; with the queue full
it is discarded whole, counted and noted as an overflow. The backlog of completions drains to the ring while it can take them, and
not otherwise; the overflow record is written when the event ring can take it, with the number of records lost, and the count
starts again. Nothing else changes. (R313, R314, R315, R316, R317, R328, R330, R419) -/
def Obligations.InflowAndRings : Prop :=
  ∀ s : State,
    (∀ addr l ok, hostUp s = true → addr + l.length ≤ 0x10000 → l ≠ [] → addr % 4 ≠ 0 ∨ l.length % 4 ≠ 0 ∨ ok = false →
      exec (.inflowWriteTlp addr l ok) s = .next { s with hi.badTlp := satAdd 32 s.hi.badTlp 1 }) ∧
    (∀ addr l, hostUp s = true → l.length = 64 → addr % 4 = 0 → 0x8000 ≤ addr + 60 → addr + 64 ≤ 0x10000 → s.hi.packer = [] →
      s.hi.discarding = false → s.hi.flushPend = false →
      (s.hi.queue.length < 4096 → Runs (.inflowWriteTlp addr l true) s (fun t =>
        t = { s with hi := { s.hi with queue := s.hi.queue ++ [{ bytes := l, vbytes := 64, eop := true }], arrived := s.hi.arrived + 1 },
                     pwr := { s.pwr with waking := t.pwr.waking } } ∧
        (s.pwr.st ≠ .active → t.pwr.waking = some .active))) ∧
      (4096 ≤ s.hi.queue.length → Runs (.inflowWriteTlp addr l true) s (fun t =>
        t = { s with hi := { s.hi with queue := dropOpen s.hi.queue, arrived := s.hi.arrived + 1, drop := satAdd 32 s.hi.drop 1,
                                       overflow := true },
                     pwr := { s.pwr with waking := t.pwr.waking } }))) ∧
    (alive s = true →
      (cprOpen s = false → exec .completionBacklogDrain s = .next s) ∧
      (∀ c, s.hi.backlog = [c] → cprOpen s = true → Runs .completionBacklogDrain s (fun t =>
        t = { s with hi := { s.hi with backlog := [], cpr := s.hi.cpr.advance, hostMem := t.hi.hostMem } } ∧
        t.hi.hostMem = s.hi.hostMem.putRun (s.hi.cpr.base + 64 * s.hi.cpr.tail) 0#8 (completionBytes c s.hi.cpr.phase))) ∧
      (s.hi.evrLostNew = 0 ∨ s.hi.evr.enable = false ∨ dmaUp s = false ∨ s.hi.evr.full = true →
        exec .eventOverflowRecord s = .next s) ∧
      (s.hi.evrLostNew ≠ 0 → s.hi.evr.enable = true → dmaUp s = true → s.hi.evr.full = false → Runs .eventOverflowRecord s (fun t =>
        t.hi.evrLostNew = 0 ∧ t.hi.evr = s.hi.evr.advance ∧ t.hi.evSeq = (s.hi.evSeq + 1) % 2 ^ 32 ∧
        t.hi.hostMem = s.hi.hostMem.putRun (s.hi.evr.base + 64 * s.hi.evr.tail) 0#8 (eventBytes
          { code := 0x0D8F, sev := .minor, seq := s.hi.evSeq, beat := s.beat.num, detail := s.hi.evrLostNew } s.hi.evr.phase))))

/-- Through its transport, a mailbox that is not locked takes page words and a RING; a locked one drops them and counts each in
RING_BUSY, as it does a doorbell value that is not valid. A NEXT with a part left is served at once where Keeper is free, and
waits otherwise. SMBus: an aligned offset sets the pointer; a write of 4 to 128 bytes in whole words, below the doorbell, enters
WG2's page and moves the pointer; a read returns up to 128 bytes; a bad PEC is not acknowledged and counts as a frame error, with
event 0x0E02 at most once in a beat. UART: a frame with its CRC and range right writes or reads WG3's page, or sets the rate, and
is answered with result 0; a bad CRC is answered 1 and counts as a frame error; a partial frame is held, and its timeout discards
it; so does a break, which is a frame error. (R337, R340, R341, R349, R351, R352) -/
def Obligations.MailboxTransports : Prop :=
  ∀ s : State,
    (∀ m : MboxId, mbReach s m.val = true →
      let busy := onMb s m.val (fun x => { x with ringBusy := satAdd 16 x.ringBusy 1 })
      (mbLocked s m.val = true → ∀ off v, exec (.doorbellRing m) s = .next busy ∧ exec (.doorbellNext m) s = .next busy ∧
        exec (.doorbellInvalid m v) s = .next busy ∧
        (off < 0xFE0 → off % 4 = 0 → exec (.mailboxPageWrite m off v) s = .next busy)) ∧
      (mbLocked s m.val = false →
        (s.hi.fwRuns = true → exec (.doorbellRing m) s = .next (onMb s m.val (fun x => { x with st := .rung, code := 0, resp := [], part := 0 }))) ∧
        (∀ v : Word, v.toNat ≠ 1 → v.toNat ≠ 2 → exec (.doorbellInvalid m v) s = .next busy) ∧
        (∀ off v, off < 0xFE0 → off % 4 = 0 → exec (.mailboxPageWrite m off v) s =
          .next (onMb s m.val (fun x => { x with page := x.page.putRun off 0#8 (leBytes 4 v.toNat) }))) ∧
        ((mbAt s m.val).st = .done → (mbAt s m.val).part + 1 < partsOf ((mbAt s m.val).resp.length - 64) →
          (keeperFree s = false → exec (.doorbellNext m) s = .next (onMb s m.val (fun x => { x with st := .busy, nextDue := true }))) ∧
          (keeperFree s = true → Runs (.doorbellNext m) s (fun t => (mbAt t m.val).st = .done ∧
            (mbAt t m.val).part = (mbAt s m.val).part + 1 ∧ (mbAt t m.val).nextDue = false))))) ∧
    (mbReach s 2 = true →
      (∀ off, off % 4 = 0 → off ≤ 0xFFC → exec (.smbusSetOffset off true) s = .next { s with wg.smbOff := off, wg.smbNak := false }) ∧
      (∀ off ok, off % 4 ≠ 0 ∨ 0xFFC < off → exec (.smbusSetOffset off ok) s = .next { s with wg.smbNak := true }) ∧
      (∀ off, off % 4 = 0 → off ≤ 0xFFC → Runs (.smbusSetOffset off false) s (fun t => t.wg.smbNak = true ∧ t.wg.smbOff = s.wg.smbOff ∧
        (mbAt t 2).frameErr = satAdd 16 (mbAt s 2).frameErr 1 ∧ t.wg.frameEv = true ∧
        Logs s t (if s.wg.frameEv then [] else [(0x0E02, .minor)]))) ∧
      (∀ l : List Byte, 4 ≤ l.length → l.length ≤ 128 → l.length % 4 = 0 → s.wg.smbOff + l.length ≤ 0xFE0 → mbLocked s 2 = false →
        exec (.smbusWrite l true) s = .next { onMb s 2 (fun x => { x with page := x.page.putRun s.wg.smbOff 0#8 l }) with
          wg.smbOff := s.wg.smbOff + l.length, wg.smbNak := false }) ∧
      exec .smbusRead s = .next { s with
        wg.smbData := pageRead s 2 s.wg.smbOff (min 128 (0x1000 - s.wg.smbOff)),
        wg.smbOff := (s.wg.smbOff + min 128 (0x1000 - s.wg.smbOff)) % 0x1000, wg.smbNak := false } ∧
      exec .smbusTimeout s = .next { s with wg.smbData := [], wg.smbNak := false }) ∧
    (mbReach s 3 = true →
      (∀ l, uartFrame s 1 l = true → uartCrcOk l = true → uartRangeOk l = true → mbLocked s 3 = false → leAt l 2 2 + leAt l 4 2 ≤ 0xFE0 →
        exec (.uartWrite l) s = .next (uartAnswer (onMb s 3 (fun x => { x with
          page := x.page.putRun (leAt l 2 2) 0#8 ((l.drop 6).take (leAt l 4 2)) })) 0 [])) ∧
      (∀ l, uartFrame s 1 l = true → uartCrcOk l = false → Runs (.uartWrite l) s (fun t =>
        t.wg.uartReply = (uartAnswer s 1 []).wg.uartReply ∧ (mbAt t 3).frameErr = satAdd 16 (mbAt s 3).frameErr 1 ∧
        (mbAt t 3).page = (mbAt s 3).page ∧ Logs s t (if s.wg.frameEv then [] else [(0x0E02, .minor)]))) ∧
      (∀ l, uartFrame s 1 l = false → leAt l 0 1 = 0xA5 → leAt l 1 1 = 1 → exec (.uartWrite l) s = .next { s with wg.uartPart := l }) ∧
      (∀ l, uartFrame s 2 l = true → uartCrcOk l = true → uartRangeOk l = true →
        exec (.uartRead l) s = .next (uartAnswer s 0 (pageRead s 3 (leAt l 2 2) (leAt l 4 2)))) ∧
      (∀ l, uartFrame s 3 l = true → uartCrcOk l = true → leAt l 2 2 = 0 → leAt l 4 2 = 4 → uartRates.contains (leAt l 6 4) = true →
        exec (.uartBaud l) s = .next { uartAnswer s 0 [] with wg.baud := leAt l 6 4 }) ∧
      exec .uartFrameTimeout s = .next { s with wg.uartPart := [] } ∧
      Runs .uartBreak s (fun t => t.wg.uartPart = [] ∧ (mbAt t 3).frameErr = satAdd 16 (mbAt s 3).frameErr 1 ∧
        Logs s t (if s.wg.frameEv then [] else [(0x0E02, .minor)])))

/-- A presence-class command is answered REFUSED_SEAL where the seal loop is not known intact, the seal latch holds or Heartwood is
offline, and PRESENCE_REQUIRED where presence is not in force. FW_LOAD BEGIN opens the session for its slot, which no longer
verifies, and is answered OK after the erase of the slot's first 1 MiB. DATA at the next offset is written and moves it on; at
another offset it is BAD_PAYLOAD and the session stays. FINISH with every byte received, 768 KiB at most, and a good image marks the slot verified
with its version and reports 0x0F06, or, in RECOVERY, starts the warm reset; otherwise it is BAD_PAYLOAD; the session ends. A
session without a step for 60 s ends, and its slot fails verification. HIVE_KEY_LOAD fills the next slot, or the current one while no
current key is installed (log 74); REPAIR_READ answers
with the fused maps; HW_ERASE erases the blocks in use, keeping every record but events and mirrors. (R42, R43, R163, R374, R375, R377,
R378) -/
def Obligations.FirmwareLoadsAndKeys : Prop :=
  ∀ (s : State) (m : Nat) (p : List Byte),
    (∀ st, presenceCheck s false = some st →
      (AtCommand s 0x901 m p → leAt p 1 1 = 0 → 8 ≤ p.length → Runs .fwLoadBegin s (Answered s m st [])) ∧
      (AtCommand s 0x902 m p → Runs .hiveKeyLoad s (Answered s m st [])) ∧
      (AtCommand s 0x903 m p → Runs .hwErase s (Answered s m st [])) ∧
      (AtCommand s 0x904 m p → Runs .repairRead s (Answered s m st []))) ∧
    (AtCommand s 0x901 m p → fwShape p = true →
      (presenceCheck s false = none → leAt p 1 1 = 0 → p.length = 8 → 0 < leAt p 4 4 → leAt p 4 4 ≤ 2 ^ 24 →
        (s.hi.fwRuns = false ∨ (if s.hi.imageB then 1 else 0) ≠ leAt p 0 1 ∨ slotBad s (1 - leAt p 0 1) = false) → s.hi.readiness ≠ .recovery →
        exec .fwLoadBegin s = .next { slotMark s (leAt p 0 1) true with
          fw.session := some (leAt p 0 1, 0, leAt p 4 4), wg.wait := .norErase }) ∧
      (∀ next total, s.fw.session = some (leAt p 0 1, next, total) → leAt p 1 1 = 1 → presenceCheck s false ≠ some 0x23 →
        0 < (p.drop 8).length → (p.drop 8).length ≤ 3992 →
        (leAt p 4 4 = next → next + (p.drop 8).length ≤ total → Runs .fwLoadData s (Answered { slotWrite s (leAt p 0 1) next (p.drop 8) with
          fw.session := some (leAt p 0 1, next + (p.drop 8).length, total) } m 0 [])) ∧
        (leAt p 4 4 ≠ next → Runs .fwLoadData s (Answered s m 0x20 []))) ∧
      (∀ next total img, s.fw.session = some (leAt p 0 1, next, total) → leAt p 1 1 = 2 → presenceCheck s false = none → p.length = 8 →
        s.hi.readiness ≠ .recovery →
        (imageOk img = true → next = total → total ≤ 786432 → Runs (.fwLoadFinish img) s (fun t => EventRaised s t 0x0F06 .major ∧ Answered
          (let e := slotMark { s with fw.session := none } (leAt p 0 1) false
           if leAt p 0 1 = 0 then { e with fw.verA := imageVersion img } else { e with fw.verB := imageVersion img }) m 0 [] t)) ∧
        (imageOk img = false ∨ next ≠ total ∨ 786432 < total → Runs (.fwLoadFinish img) s (Answered { s with fw.session := none } m 0x20 []))) ∧
      (∀ total img, s.fw.session = some (leAt p 0 1, total, total) → leAt p 1 1 = 2 → presenceCheck s false = none → p.length = 8 →
        s.hi.readiness = .recovery → imageOk img = true → total ≤ 786432 → Runs (.fwLoadFinish img) s (fun t => t.hi.warmDue = some 4 ∧ t.fw.session = none ∧
          slotBad t (leAt p 0 1) = false ∧ (mbAt t m).st = .done ∧ (mbAt t m).code = 0))) ∧
    (∀ slot next total, s.fw.session = some (slot, next, total) →
      (s.wg.wait = .norErase → AtCommand { s with wg.wait := .none } 0x901 m p →
        Runs .bootNorEraseComplete s (Answered (slotErase s slot) m 0 [])) ∧
      (s.wg.wait ≠ .norErase → alive s = true → s.hi.readiness ≠ .recovery → exec .fwLoadSessionTimeout s =
        .next { slotMark s slot true with fw.session := none })) ∧
    (AtCommand s 0x902 m p → presenceCheck s false = none → p.length = 36 → leAt p 0 1 ≤ 1 → rsvZero p 1 3 = true →
      rsvZero p 4 32 = false →
      (leAt p 0 1 = 0 → keyInstalled (keyNow s) = true → Runs .hiveKeyLoad s (Answered s m 0x31 [])) ∧
      (leAt p 0 1 = 1 ∨ keyInstalled (keyNow s) = false → Runs .hiveKeyLoad s (fun t =>
        Answered { s with hl := t.hl } m 0 [] t ∧
        if (if keyInstalled (keyNow s) then 1 - s.hl.keySlot else s.hl.keySlot) = 0 then
          t.hl = { s.hl with keyCur := some (bytesAt p 4 32) } else t.hl = { s.hl with keyNext := some (bytesAt p 4 32) }))) ∧
    (AtCommand s 0x904 m p → presenceCheck s false = none → Runs .repairRead s (Answered s m 0 repairBytes)) ∧
    (∀ b r, AtCommand s 0x903 m p → presenceCheck s false = none → hwUsedBlocks s = b :: r →
      Runs .hwErase s (Answered { s with hw := { s.hw with
        wipeFrom := hwOldest s, wipeTo := s.hw.nextRseq - 1, copy0 := false, log := s.hw.log.filter (fun x => x.typ != 1 && x.typ != 2),
        wipe := b :: r, erasing := some b, attempts := 0 } } m 0 []))

/-- The presence sampler counts consecutive low samples, and a high one ends a qualified assertion and opens its window with age 0; 50
low samples qualify, and the window closes after 30,000 samples. A seal sample that reads what was driven counts toward the intact
loop (8 of them set SEAL_OK: log 37), any other toward a break; a break sets the latch, clears SEAL_OK and the window, seals WG3,
is counted and reported with 0x0F04. WG3_UNSEAL opens WG3 for its time and action 0 seals it at once, as does the expiry; RESEAL
clears the latch with 0x0F05, and is INCONSISTENT where it is not set. RJ_READ answers with the journal's entries from a SEQ on,
of one source or all; RJ_MARK of 16 bytes is OK. (R368, R371, R372, R373, R374, R376, R449, R450) -/
def Obligations.PresenceSealAndJournal : Prop :=
  ∀ s : State,
    (alive s = true →
      Runs (.presenceSample true) s (fun t => t = { s with gr := { s.gr with presLow := true, lowRun := min 50 (s.gr.lowRun + 1), ageMs := t.gr.ageMs } }) ∧
      (s.gr.qualified = true → exec (.presenceSample false) s = .next { s with gr := { s.gr with
        presLow := false, lowRun := 0, qualified := false, window := true, ageMs := some 0 } }) ∧
      (s.gr.qualified = false → exec (.presenceSample false) s = .next { s with gr := { s.gr with
        presLow := false, lowRun := 0, ageMs := s.gr.ageMs.map (fun n => n + 1) } }) ∧
      (s.gr.qualified = false → 50 ≤ s.gr.lowRun → exec .presenceQualified s = .next { s with gr.qualified := true }) ∧
      (∀ n, s.gr.window = true → s.gr.ageMs = some n → 30000 ≤ n → exec .presenceWindowExpiry s = .next { s with gr.window := false }) ∧
      (∀ b, exec (.sealSample b !b) s = .next { s with gr := { s.gr with openRun := min 2 (s.gr.openRun + 1), okRun := 0 } }) ∧
      (∀ b, s.gr.okRun < 7 → exec (.sealSample b b) s = .next { s with gr := { s.gr with openRun := 0, okRun := s.gr.okRun + 1 } }) ∧
      (∀ b, 7 ≤ s.gr.okRun → exec (.sealSample b b) s = .next { s with gr := { s.gr with
        openRun := 0, okRun := 8, sealOk := true, broken := false } }) ∧
      (2 ≤ s.gr.openRun → s.gr.broken = false → Runs .sealBreak s (fun t =>
        t = { s with gr := { s.gr with latch := true, sealOk := false, broken := true, window := false, breakBeat := t.gr.breakBeat,
                                       breaks := satAdd 32 s.gr.breaks 1, lifeBreaks := satAdd 32 s.gr.lifeBreaks 1 },
                     wg := { s.wg with open3 := false, unsealS := 0 }, hi := t.hi, hw := t.hw } ∧
        HiEvents s.hi t.hi ∧ HwEvents s.hw t.hw ∧ Logs s t [(0x0F04, .critical)])) ∧
      (s.wg.open3 = true → s.wg.unsealS ≠ 0 → exec .wg3UnsealExpiry s = .next { s with wg.open3 := false, wg.unsealS := 0 })) ∧
    (∀ m p, AtCommand s 0x906 m p →
      (∀ st, presenceCheck s false = some st → p.length = 6 → leAt p 1 1 = 0 →
        (leAt p 0 1 = 1 → Runs .wg3Unseal s (Answered s m st [])) ∧ (leAt p 0 1 = 0 → Runs .wg3Seal s (Answered s m st []))) ∧
      (presenceCheck s false = none → p.length = 6 → leAt p 1 1 = 0 →
        (leAt p 0 1 = 1 → Runs .wg3Unseal s (fun t => Answered s m 0 [] t ∧ t.wg.open3 = true ∧ t.wg.unsealS = leAt p 2 4)) ∧
        (leAt p 0 1 = 0 → Runs .wg3Seal s (fun t => Answered s m 0 [] t ∧ t.wg.open3 = false)))) ∧
    (∀ m p, AtCommand s 0x907 m p →
      (∀ st, presenceCheck s true = some st → Runs .reseal s (Answered s m st [])) ∧
      (presenceCheck s true = none →
        (s.gr.latch = false → Runs .reseal s (Answered s m 0x31 [])) ∧
        (s.gr.latch = true → Runs .reseal s (fun t => EventRaised s t 0x0F05 .major ∧ Answered { s with gr.latch := false } m 0 [] t)))) ∧
    (∀ m p, AtCommand s 0x401 m p → p.length = 11 → 1 ≤ leAt p 8 2 → leAt p 8 2 ≤ 8192 → s.rj.ent ≠ [] →
      Runs .rjRead s (Answered s m 0 (leBytes 8 (rjOldest s) ++ leBytes 8 s.rj.next ++
        leBytes 1 (if leAt p 0 8 < rjOldest s then 1 else 0) ++
        (((s.rj.ent.filter (fun e => decide (leAt p 0 8 ≤ e.seq) && (leAt p 10 1 == 0xFF || leAt p 10 1 == e.source))).take
          (leAt p 8 2)).flatMap jBytes)))) ∧
    (∀ m p, AtCommand s 0x402 m p → p.length = 16 → Runs .rjMark s (Answered s m 0 [])) ∧
    (∀ m p, AtCommand s 0x402 m p → p.length ≠ 16 → Runs .rjMark s (Answered s m 0x20 []))

/-- With the writer running and no erase in progress: the first copy of the record in front is programmed and the record waits for its
second; the second commits it with the next RSEQ at both heads, and sets MIRRORED where it mirrors a journal entry; a copy that
fails retires its block, a spare takes its place, and event 0x1202 is raised. With fewer than two erased blocks ahead of the heads
the oldest block is erased and none of its copies is read any more. An erase that reads blank is counted for its block and gives
it back, with event 0x1204 above twice the typical time; one that does not is tried once again. The scan brings Heartwood online
with what its newest state records hold, or, where it fails or has not ended by its deadline, leaves it offline with event 0x1201,
no key and no retired page. HW_READ answers with records from an RSEQ on, and is INCONSISTENT while Heartwood is not known. (R370,
R399, R402, R404, R405, R407, R408, R411) -/
def Obligations.HeartwoodLog : Prop :=
  ∀ s : State,
    (∀ r q retries, s.hw.queue = r :: q → hwCanProgram s = true → ballsTaken s = false →
      (s.hw.copy0 = false → Runs (.heartwoodProgramComplete false true retries) s (fun t => t.hw.copy0 = true ∧ t.hw.log = s.hw.log ∧
        t.hw.queue.head? = some r ∧ t.rj = s.rj)) ∧
      (s.hw.copy0 = true → Runs (.heartwoodProgramComplete true true retries) s (fun t => t.hw.copy0 = false ∧
        t.hw.log = s.hw.log ++ [{ typ := r.typ, rseq := s.hw.nextRseq, beat := s.beat.num, boot := s.hw.boot,
                                  payload := r.payload.take 224, blks := [hwHeadA s, hwHeadB s] }] ∧
        t.hw.nextRseq = s.hw.nextRseq + 1 ∧
        ∀ n, r.kind = .mirror n → t.rj.ent = s.rj.ent.map (fun e => if e.seq = n then { e with mirrored := true } else e))) ∧
      (∀ x xs, s.hw.copy0 = false → s.hw.retries = [] → s.hw.spares = x :: xs →
        Runs (.heartwoodProgramComplete false false 0) s (fun t => t.hw.retired = s.hw.retired ++ [hwHeadA s] ∧
          (∀ k ∈ t.hw.log, hwHeadA s ∉ k.blks) ∧ t.hw.map = s.hw.map.map (fun y => if y = hwHeadA s then x else y) ∧
          Logs s t [(0x1202, .minor)]))) ∧
    (hwWriter s = true → s.hw.erasing = none → s.hw.wipe = [] → hwAhead s < 2 → Runs .blockReclaim s (fun t =>
      t.hw.erasing = some (hwTail s) ∧ ∀ k ∈ t.hw.log, hwTail s ∉ k.blks)) ∧
    (∀ b pct, s.hw.erasing = some b → hwWriter s = true → ballsTaken s = false → s.hw.wipe = [] →
      Runs (.heartwoodEraseComplete true pct) s (fun t => t.hw.erasing = none ∧ t.hw.used = s.hw.used - 1 ∧
        t.hw.erases = s.hw.erases.putAt b (s.hw.erases.getAt b 0 + 1) 0 ∧ t.hw.erasePct = min pct 0xFFFF ∧ t.hw.log = s.hw.log ∧
        Logs s t (if 200 < pct then [(0x1204, .major)] else [])) ∧
      (s.hw.attempts = 0 → Runs (.heartwoodEraseComplete false pct) s (fun t => t.hw.erasing = some b ∧ t.hw.attempts = 1 ∧
        t.hw.log = s.hw.log))) ∧
    (hwScanning s = true →
      let offline : State → Prop := fun t => t.hw.scanned = true ∧ t.hw.online = false ∧ t.hw.queue = [] ∧ t.hl.keyCur = none ∧
        t.hl.keyNext = none ∧ t.cmb.retired = [] ∧ EventRaised s t 0x1201 .critical
      (ballsTaken s = false → Runs (.heartwoodScanComplete true) s (fun t => t.hw.scanned = true ∧ t.hw.online = true ∧
        t.hw.log = s.hw.log ∧ (s.hw.loaded = false → t.hw.loaded = true ∧ t.cmb.retired = s.hw.norRetired ∧
          t.gr.latch = (s.gr.latch || s.hw.norLatch) ∧ t.hl.session = s.hw.norSession))) ∧
      Runs (.heartwoodScanComplete false) s offline ∧
      (s.hi.fwRuns = true → s.hi.readiness ≠ .recovery → Runs .heartwoodScanDeadline s offline)) ∧
    (∀ m p, AtCommand s 0x801 m p → p.length = 11 → 1 ≤ leAt p 8 2 → leAt p 8 2 ≤ 1024 →
      (hwKnown s = false → Runs .hwRead s (Answered s m 0x31 [])) ∧
      (hwKnown s = true → s.hw.log ≠ [] → Runs .hwRead s (Answered s m 0 (leBytes 8 (hwOldest s) ++ leBytes 8 s.hw.nextRseq ++
        leBytes 1 (if leAt p 0 8 < hwOldest s then 1 else 0) ++
        ((s.hw.log.filter (fun r => decide (leAt p 0 8 ≤ r.rseq) && (leAt p 10 1 == 0 || leAt p 10 1 == r.typ))).take
          (leAt p 8 2)).flatMap (fun r => hwPage r 0)))))

/-- A device that has been idle for ENTRY_BEATS edges enters the deepest state that its tolerance allows: the core clock stops, and what
drove it waits behind the gate; from Doze on the quadrants and the core loops are off; from Deep on external memory is off, with no
transfer in flight, and the slices retain; in Winter the links are off and external memory loses its contents. A wake that completes reaches its state and counts, with 0x1306 where it took longer than its latency,
and from Winter with 0x0706 and 0x0804. A reading of 115 °C or more trips: every quadrant is off, instances of plans that claim
one are invalid and stop, and 0x1304 is raised; after 1,000 cool beats the trip ends. PWR_LIMIT takes 100 W to 650 W. A regulator
reading gives US_POWER; a regulator that reports a fault is listed, counted and raises 0x1303, and is cleared after 1,000 beats
without one. The telemetry summary queues its record and starts the next period. (R249, R398, R415, R418, R420, R421, R425, R427,
R428) -/
def Obligations.PowerStatesAndLimits : Prop :=
  ∀ s : State,
    (mayEnter s = true → fitState s (tolEff s) ≠ .active → max 1 s.pwr.entryBeats ≤ s.pwr.idle → idleFor s (fitState s (tolEff s)) = true →
      Runs .powerStateEntry s (fun t =>
        let p := fitState s (tolEff s)
        t.pwr.st = p ∧ t.pwr.idle = 0 ∧ t.syn.src = .gated ∧ t.cmb.mem = s.cmb.mem ∧ t.hi = s.hi ∧
        (p = .park → t.pwr.quad = s.pwr.quad ∧ t.quad = s.quad ∧ t.syn.parkSrc = s.syn.src) ∧
        (2 ≤ p.code → t.syn.parkSrc = .safe ∧ t.pwr.quad = Vector.replicate 4 false ∧ t.syn.c0.ld = .off ∧ t.syn.c1.ld = .off) ∧
        (3 ≤ p.code → t.pwr.xmi = false ∧ t.xm.tags = [] ∧ t.pwr.cbRet = s.pwr.cb) ∧
        (p ≠ .winter → t.pwr.lnk = s.pwr.lnk ∧ t.xm.mem = s.xm.mem) ∧
        (p = .winter → t.pwr.lnk = false ∧ t.xm.mem = [] ∧ t.xm.epoch = s.xm.epoch + 1 ∧ ∀ k, k < 20 → (portAt t k).st = .off))) ∧
    (∀ us vt p, s.pwr.waking = some p → alive s = true → (s.pwr.st = .winter → s.pwr.lnk = true) → Runs (.wakeComplete ⟨us, vt⟩) s (fun t =>
      t.pwr.st = p ∧ t.pwr.waking = none ∧ t.pwr.wakes = satAdd 32 s.pwr.wakes 1 ∧ t.pwr.wakeUs = min us (2 ^ 32 - 1) ∧
      (s.pwr.st = .park → p = .active → t.syn.src = s.syn.parkSrc) ∧
      Logs s t ((if s.pwr.st = .winter then [(0x0706, .major), (0x0804, .major)] else []) ++
        if wakeUsOf s s.pwr.st < us then [(0x1306, .major)] else []))) ∧
    (∀ k eighths, alive s = true → s.pwr.tripped = false → 920 ≤ eighths → eighths ≤ 1200 → Runs (.thermalTrip k eighths) s (fun t =>
      t.pwr.tripped = true ∧ t.pwr.thermTrip = true ∧ t.pwr.cool = 0 ∧ t.pwr.quad = Vector.replicate 4 false ∧
      (∀ c q, c < 4 → q < 4 → claimsQuad (ctxAt s c).quads q = true → ∀ i ∈ (ctxAt t c).insts, i.stopped = true ∧ i.faults.invalid = true) ∧
      t.cmb.mem = s.cmb.mem ∧ Logs s t [(0x1304, .critical)])) ∧
    (alive s = true → s.pwr.tripped = true → 1000 ≤ s.pwr.cool →
      (2 ≤ s.pwr.st.code → exec .thermalTripRecovery s = .next { s with pwr.tripped := false, pwr.cool := 0 }) ∧
      (s.pwr.st.code ≤ 1 → Runs .thermalTripRecovery s (fun t => t.pwr.tripped = false ∧ t.pwr.thermTrip = false ∧
        ∀ q, q < 4 → vget s.hi.quadOff q false = false → q < s.hi.window → vget t.pwr.quad q false = true ∧ vget t.hi.bist q false = true))) ∧
    (∀ m p, AtCommand s 0x702 m p → p.length = 2 →
      (100 ≤ leAt p 0 2 → leAt p 0 2 ≤ 650 → Runs .pwrLimit s (Answered { s with pwr.limitW := leAt p 0 2 } m 0 [])) ∧
      (leAt p 0 2 < 100 ∨ 650 < leAt p 0 2 → Runs .pwrLimit s (Answered s m 0x20 []))) ∧
    (∀ rs : List RegReading, alive s = true → s.hi.fwRuns = true → s.beat.num % 64 = 0 → rs.length ≤ 16 →
      (∀ r ∈ rs, r.fault = false) → Runs (.regulatorRead rs) s (fun t =>
        t.us.regs = rs ∧ t.us.power = min (rs.map (fun r => r.deciWatts)).sum 0xFFFF ∧ t.pwr.faulty = s.pwr.faulty ∧
        t.pwr.limitAct = (powerLimit s (min (rs.map (fun r => r.deciWatts)).sum 0xFFFF)).pwr.limitAct)) ∧
    (∀ r : RegReading, alive s = true → s.hi.fwRuns = true → s.beat.num % 64 = 0 → r.fault = true →
      (∀ f ∈ s.pwr.faulty, f.1 ≠ r.page) → Runs (.regulatorRead [r]) s (fun t =>
        t.pwr.faulty = s.pwr.faulty ++ [(r.page, s.beat.num)] ∧ t.pwr.regFaults = satAdd 16 s.pwr.regFaults 1 ∧
        EventRaised s t 0x1303 .critical)) ∧
    (∀ k b, alive s = true → (k, b) ∈ s.pwr.faulty → b + 1000 ≤ s.beat.num → exec (.regulatorFaultClear k) s =
      .next { s with pwr.faulty := s.pwr.faulty.filter (fun f => f.1 != k) }) ∧
    (alive s = true → s.hi.fwRuns = true → beatsOfS s 3600 ≤ s.us.telBeats.toList.sum → hwOffline s = false → s.hw.queue.length < 7 →
      exec .telemetrySummary s = .next { s with
        hw.queue := s.hw.queue ++ [{ kind := .state, typ := 10, payload := telemetryBytes s, keys := [] }],
        us := { s.us with telCnt := 0, telSum := Vector.replicate 11 0, telBeats := Vector.replicate 5 0, telRail := [] } })

/-- A query that Keeper works on is answered OK with the words of its chapter's registers in ascending order, little-endian, and what
its row names beside them, and changes nothing but the answer: no read of a query clears an RC field. QUERY_PLAN of an unknown
plan is NO_SUCH_OBJECT, and QUERY_BUF outside the 4,096 entries, or of no entry or more than 249, is BAD_PAYLOAD. (The order of
what is not a register is the model's choice: log 40.) (R7, R10, R343, R355) -/
def Obligations.QueriesAnswer : Prop :=
  (∀ (s : State) (m : Nat) (p : List Byte),
    (AtCommand s 0x01 m p → Runs .queryDevice s (Answered s m 0 (regRun s 0 4 ++ leBytes 8 Config.serial.toNat))) ∧
    (AtCommand s 0x02 m p → Runs .queryBoot s (Answered s m 0 (leBytes 4 s.hi.readiness.code ++ regRun s 0x28 3 ++ leBytes 4 s.fw.verA ++ leBytes 4 s.fw.verB))) ∧
    (AtCommand s 0x10 m p → Runs .querySyn s (Answered s m 0 (regRun s 0x40000 2 ++ regRun s 0x40030 12 ++ regRun s 0x41000 64 ++ regRun s 0x41400 64))) ∧
    (AtCommand s 0x11 m p → Runs .queryBeat s (Answered s m 0 (regRun s 0x50000 32))) ∧
    (AtCommand s 0x13 m p → Runs .queryComb s (Answered s m 0 (regRun s 0x60000 9 ++ leBytes 4 (s.cmb.retired ++ s.cmb.retiredRun).length ++
        (s.cmb.retired ++ s.cmb.retiredRun).flatMap (leBytes 4)))) ∧
    (AtCommand s 0x14 m p → Runs .queryJoin s (Answered s m 0 (regRun s 0x70000 256))) ∧
    (AtCommand s 0x15 m p → Runs .queryArr s (Answered s m 0 (regRun s 0x80000 256))) ∧
    (AtCommand s 0x16 m p → Runs .queryFus s (Answered s m 0 (regRun s 0x90000 256 ++ chainBytes s))) ∧
    (AtCommand s 0x17 m p → Runs .queryRcs s (Answered s m 0 (regRun s 0xA0000 260 ++ regRun s 0xA1000 2048))) ∧
    (AtCommand s 0x18 m p → Runs .queryXm s (Answered s m 0 (regRun s 0xB0000 24 ++ regRun s 0xB1000 512))) ∧
    (AtCommand s 0x1A m p → Runs .querySo s (Answered s m 0 (regRun s 0xC0000 16 ++ regRun s 0xC1000 1024))) ∧
    (AtCommand s 0x1B m p → Runs .queryArb s (Answered s m 0 (regRun s 0xD0000 256))) ∧
    (AtCommand s 0x1C m p → Runs .queryHl s (Answered s m 0 (regRun s 0xE0000 7 ++ regRun s 0xE0400 256 ++ regRun s 0xE1000 1280))) ∧
    (AtCommand s 0x1D m p → Runs .queryHi s (Answered s m 0 (regRun s 0x10000 30 ++ regRun s 0x100004 1))) ∧
    (AtCommand s 0x1E m p → Runs .queryGraft s (Answered s m 0 (regRun s 0xF0000 192 ++ openBytes s ++
        (s.gr.staged.filter (fun g => !g.alone)).flatMap (fun g => leBytes 8 g.seq ++ graftPlanBytes g.phases)))) ∧
    (AtCommand s 0x1F m p → Runs .queryWg s (Answered s m 0 (regRun s 0x24000 24 ++ (List.range 4).flatMap (fun k => leBytes 4 (wgStatus (mbAt s k)).toNat)))) ∧
    (AtCommand s 0x20 m p → Runs .queryUs s (Answered s m 0 (regRun s 0x100000 56 ++ (calTargets s).flatMap (fun t =>
        leBytes 1 t.kind ++ leBytes 1 t.unit ++ leBytes 2 t.index ++ leBytes 8 (calDueBeat s t))))) ∧
    (AtCommand s 0x21 m p → Runs .queryHw s (Answered s m 0 (regRun s 0x110000 12 ++ s.hw.map.flatMap (leBytes 2)))) ∧
    (AtCommand s 0x22 m p → Runs .queryPwr s (Answered s m 0 (regRun s 0x120000 25 ++ s.us.regs.flatMap (fun r =>
        leBytes 1 r.page ++ leBytes 1 (if r.fault then 1 else 0) ++ leBytes 2 r.volts ++ leBytes 2 r.amps ++ leBytes 2 r.deciWatts)))) ∧
    (AtCommand s 0x23 m p → Runs .queryPresence s (Answered s m 0 (regRun s 0xF0020 2 ++ leBytes 4 (if s.wg.open3 then 1 else 0)))) ∧
    (AtCommand s 0x12 m p → (ctxOf s (leAt p 0 8) = none → Runs .queryPlan s (Answered s m 0x30 [])) ∧
      ∀ k, ctxOf s (leAt p 0 8) = some k → Runs .queryPlan s (Answered s m 0 (planBytes s k))) ∧
    (AtCommand s 0x19 m p → p.length = 4 →
      (leAt p 2 2 = 0 ∨ 249 < leAt p 2 2 ∨ 4096 < leAt p 0 2 + leAt p 2 2 → Runs .queryBuf s (Answered s m 0x20 [])) ∧
      (1 ≤ leAt p 2 2 → leAt p 2 2 ≤ 249 → leAt p 0 2 + leAt p 2 2 ≤ 4096 → Runs .queryBuf s (Answered s m 0
        ((List.range (leAt p 2 2)).flatMap (fun i => leBytes 4 (blWord (blAt s (leAt p 0 2 + i))).toNat ++
          leBytes 8 (blAt s (leAt p 0 2 + i)).base ++ leBytes 8 (blAt s (leAt p 0 2 + i)).len))))))
end

