-- ==== Sys2Proof/Laws/SMap.lean ====
section
/-! SUPPORT. Sparse tables: a read after a write, and every memory operation keeps the canonical form. -/

namespace Sys2Proof

variable {α : Type}

/-- Raising the bound that keys must pass is harmless when it still lies below them. -/
theorem SMap.risesFrom_weaken (m : SMap α) {i j : Nat} (h : i ≤ j) (hm : SMap.risesFrom (some j) m = true) :
    SMap.risesFrom (some i) m = true := by
  cases m with
  | nil => rfl
  | cons e r =>
    obtain ⟨k, v⟩ := e
    simp only [SMap.risesFrom, Bool.and_eq_true, decide_eq_true_eq] at hm ⊢
    exact ⟨by omega, hm.2⟩

/-- Keys above a bound rise. -/
theorem SMap.risesFrom_none (m : SMap α) {i : Nat} (hm : SMap.risesFrom (some i) m = true) : SMap.risesFrom none m = true := by
  cases m with
  | nil => rfl
  | cons e r =>
    obtain ⟨k, v⟩ := e
    simp only [SMap.risesFrom, Bool.and_eq_true] at hm ⊢
    exact hm.2

/-- Every key of a rising table lies above its bound. -/
theorem SMap.lt_of_risesFrom (m : SMap α) {i : Nat} (hm : SMap.risesFrom (some i) m = true) : ∀ e ∈ m, i < e.1 := by
  induction m generalizing i with
  | nil => intro e he; simp at he
  | cons a r ih =>
    obtain ⟨k, v⟩ := a
    simp only [SMap.risesFrom, Bool.and_eq_true, decide_eq_true_eq] at hm
    intro e he
    rcases List.mem_cons.mp he with rfl | he
    · exact hm.1
    · exact Nat.lt_trans hm.1 (ih hm.2 e he)

/-- The table reads nothing at a key below its bound. -/
theorem SMap.find_none_of_risesFrom (m : SMap α) {i k : Nat} (hm : SMap.risesFrom (some i) m = true) (h : k ≤ i) :
    SMap.find m k = none := by
  induction m generalizing i with
  | nil => rfl
  | cons a r ih =>
    obtain ⟨j, v⟩ := a
    simp only [SMap.risesFrom, Bool.and_eq_true, decide_eq_true_eq] at hm
    have hk : k ≠ j := by omega
    simp only [SMap.find, hk, if_false]
    exact ih hm.2 (by omega)

/-- Listing a value keeps the keys rising from a bound below the key. -/
theorem SMap.insertAt_risesFrom (m : SMap α) (i : Nat) (v : α) {b : Nat} (hb : b < i)
    (hm : SMap.risesFrom (some b) m = true) : SMap.risesFrom (some b) (SMap.insertAt m i v) = true := by
  induction m generalizing b with
  | nil => simp [SMap.insertAt, SMap.risesFrom, hb]
  | cons a r ih =>
    obtain ⟨k, w⟩ := a
    simp only [SMap.risesFrom, Bool.and_eq_true, decide_eq_true_eq] at hm
    simp only [SMap.insertAt]
    split
    · simp [SMap.risesFrom, *]
    · split
      · subst_vars; simp [SMap.risesFrom, hm.1, hm.2]
      · simp only [SMap.risesFrom, Bool.and_eq_true, decide_eq_true_eq]
        exact ⟨hm.1, ih (by omega) hm.2⟩

/-- Listing a value keeps the keys rising. -/
theorem SMap.insertAt_rises (m : SMap α) (i : Nat) (v : α) (hm : SMap.risesFrom none m = true) :
    SMap.risesFrom none (SMap.insertAt m i v) = true := by
  cases m with
  | nil => rfl
  | cons a r =>
    obtain ⟨k, w⟩ := a
    simp only [SMap.risesFrom] at hm
    simp only [SMap.insertAt]
    split
    · simp [SMap.risesFrom, *]
    · split
      · subst_vars; exact hm
      · exact SMap.insertAt_risesFrom r i v (by omega) hm

/-- Filtering keeps the keys rising from a bound. -/
theorem SMap.filter_risesFrom (m : SMap α) (p : Nat × α → Bool) {b : Nat} (hm : SMap.risesFrom (some b) m = true) :
    SMap.risesFrom (some b) (m.filter p) = true := by
  induction m generalizing b with
  | nil => rfl
  | cons a r ih =>
    obtain ⟨k, w⟩ := a
    simp only [SMap.risesFrom, Bool.and_eq_true, decide_eq_true_eq] at hm
    simp only [List.filter]
    split
    · simp only [SMap.risesFrom, Bool.and_eq_true, decide_eq_true_eq]
      exact ⟨hm.1, ih hm.2⟩
    · exact ih (SMap.risesFrom_weaken r (by omega) hm.2)

/-- Filtering keeps the keys rising. -/
theorem SMap.filter_rises (m : SMap α) (p : Nat × α → Bool) (hm : SMap.risesFrom none m = true) :
    SMap.risesFrom none (m.filter p) = true := by
  cases m with
  | nil => rfl
  | cons a r =>
    obtain ⟨k, w⟩ := a
    simp only [SMap.risesFrom] at hm
    simp only [List.filter]
    split
    · exact SMap.filter_risesFrom r p hm
    · exact SMap.risesFrom_none _ (SMap.filter_risesFrom r p hm)

/-- Taking a key out is a filter of a rising table. -/
theorem SMap.eraseAt_eq_filter (m : SMap α) (i : Nat) {b : Option Nat} (hm : SMap.risesFrom b m = true) :
    SMap.eraseAt m i = m.filter (fun e => e.1 != i) := by
  induction m generalizing b with
  | nil => rfl
  | cons a r ih =>
    obtain ⟨k, w⟩ := a
    have hr : SMap.risesFrom (some k) r = true := by
      cases b with
      | none => exact hm
      | some b => simp only [SMap.risesFrom, Bool.and_eq_true] at hm; exact hm.2
    simp only [SMap.eraseAt]
    split
    · subst_vars
      simp only [List.filter, bne_self_eq_false]
      symm
      refine List.filter_eq_self.mpr fun e he => ?_
      have := SMap.lt_of_risesFrom r hr e he
      simp only [bne_iff_ne, ne_eq]
      omega
    · rename_i h
      have : (k != i) = true := by simpa [bne_iff_ne] using fun hk => h hk.symm
      simp only [List.filter, this]
      rw [ih hr]

/-- Taking a key out keeps the keys rising. -/
theorem SMap.eraseAt_rises (m : SMap α) (i : Nat) (hm : SMap.risesFrom none m = true) :
    SMap.risesFrom none (SMap.eraseAt m i) = true := by
  rw [SMap.eraseAt_eq_filter m i hm]
  exact SMap.filter_rises m _ hm

/-- What a table lists after a value was listed: that value, or what it listed before. -/
theorem SMap.mem_insertAt {m : SMap α} {i : Nat} {v : α} {e : Nat × α} (he : e ∈ SMap.insertAt m i v) : e = (i, v) ∨ e ∈ m := by
  induction m with
  | nil => simpa [SMap.insertAt] using he
  | cons a r ih =>
    obtain ⟨k, w⟩ := a
    simp only [SMap.insertAt] at he
    split at he
    · simpa using he
    · split at he
      · rcases List.mem_cons.mp he with h | h
        · exact .inl h
        · exact .inr (List.mem_cons_of_mem _ h)
      · rcases List.mem_cons.mp he with h | h
        · exact .inr (List.mem_cons.mpr (.inl h))
        · rcases ih h with h | h
          · exact .inl h
          · exact .inr (List.mem_cons_of_mem _ h)

/-- A read after listing a value. -/
theorem SMap.find_insertAt (m : SMap α) (i j : Nat) (v : α) :
    SMap.find (SMap.insertAt m i v) j = if j = i then some v else SMap.find m j := by
  induction m with
  | nil => simp [SMap.insertAt, SMap.find]
  | cons a r ih =>
    obtain ⟨k, w⟩ := a
    simp only [SMap.insertAt]
    split
    · simp only [SMap.find]
    · split
      · subst_vars
        by_cases h : j = k <;> simp [SMap.find, h]
      · by_cases h : j = k
        · subst h
          have : ¬ j = i := fun h => by omega
          simp [SMap.find, this]
        · simp [SMap.find, h, ih]

/-- A read after taking a key out of a rising table. -/
theorem SMap.find_eraseAt (m : SMap α) (i j : Nat) {b : Option Nat} (hm : SMap.risesFrom b m = true) :
    SMap.find (SMap.eraseAt m i) j = if j = i then none else SMap.find m j := by
  induction m generalizing b with
  | nil => simp [SMap.eraseAt, SMap.find]
  | cons a r ih =>
    obtain ⟨k, w⟩ := a
    have hr : SMap.risesFrom (some k) r = true := by
      cases b with
      | none => exact hm
      | some b => simp only [SMap.risesFrom, Bool.and_eq_true] at hm; exact hm.2
    simp only [SMap.eraseAt]
    split
    · subst_vars
      by_cases h : j = k
      · subst h; simp [SMap.find_none_of_risesFrom r hr (Nat.le_refl _)]
      · simp [SMap.find, h]
    · by_cases h : j = k
      · subst h
        have : ¬ j = i := fun h => by omega
        simp [SMap.find, this]
      · simp [SMap.find, h, ih hr]

variable [DecidableEq α]

/-- A read after a write in a canonical table: the written value at the key, and what stood there at every other key. -/
@[simp] theorem SMap.getAt_putAt (m : SMap α) (i j : Nat) (v d : α) (hm : SMap.risesFrom none m = true) :
    SMap.getAt (SMap.putAt m i v d) j d = if j = i then v else SMap.getAt m j d := by
  by_cases hv : v = d
  · subst hv
    by_cases h : j = i
    · subst h; simp [SMap.getAt, SMap.putAt, SMap.find_eraseAt m j j hm]
    · simp [SMap.getAt, SMap.putAt, SMap.find_eraseAt m i j hm, h]
  · by_cases h : j = i <;> simp [SMap.getAt, SMap.putAt, hv, SMap.find_insertAt, h]

/-- A table is canonical when its keys rise and no entry equals the default. -/
theorem SMap.wf_iff (m : SMap α) (d : α) : SMap.wf m d = true ↔ SMap.risesFrom none m = true ∧ ∀ e ∈ m, e.2 ≠ d := by
  simp [SMap.wf, List.all_eq_true]

/-- A write keeps the canonical form. -/
@[simp] theorem SMap.putAt_wf (m : SMap α) (i : Nat) (v d : α) (hm : SMap.wf m d = true) : SMap.wf (SMap.putAt m i v d) d = true := by
  rw [SMap.wf_iff] at hm ⊢
  unfold SMap.putAt
  split
  · refine ⟨SMap.eraseAt_rises m i hm.1, fun e he => ?_⟩
    rw [SMap.eraseAt_eq_filter m i hm.1] at he
    exact hm.2 e (List.mem_filter.mp he).1
  · refine ⟨SMap.insertAt_rises m i v hm.1, fun e he => ?_⟩
    rcases SMap.mem_insertAt he with rfl | h
    · assumption
    · exact hm.2 e h

/-- A run of writes keeps the canonical form. -/
@[simp] theorem SMap.putRun_wf (m : SMap α) (i : Nat) (d : α) (l : List α) (hm : SMap.wf m d = true) :
    SMap.wf (SMap.putRun m i d l) d = true := by
  induction l generalizing m i with
  | nil => exact hm
  | cons v vs ih => exact ih _ _ (SMap.putAt_wf m i v d hm)

/-- Leaving entries out keeps the canonical form. -/
@[simp] theorem SMap.filter_wf (m : SMap α) (d : α) (p : Nat × α → Bool) (hm : SMap.wf m d = true) :
    SMap.wf (m.filter p) d = true := by
  rw [SMap.wf_iff] at hm ⊢
  exact ⟨SMap.filter_rises m p hm.1, fun e he => hm.2 e (List.mem_filter.mp he).1⟩

/-- Clearing a range keeps the canonical form. -/
@[simp] theorem SMap.eraseRange_wf (m : SMap α) (lo hi : Nat) (d : α) (hm : SMap.wf m d = true) :
    SMap.wf (SMap.eraseRange m lo hi) d = true := SMap.filter_wf m d _ hm

/-- The empty table is canonical. -/
@[simp] theorem SMap.nil_wf (d : α) : SMap.wf ([] : SMap α) d = true := rfl

/-- A read after a run of writes: the byte written there, or what stood there. -/
@[simp] theorem SMap.getAt_putRun (m : SMap α) (i j : Nat) (d : α) (l : List α) (hm : SMap.wf m d = true) :
    SMap.getAt (SMap.putRun m i d l) j d =
      if i ≤ j ∧ j < i + l.length then l.getD (j - i) d else SMap.getAt m j d := by
  induction l generalizing m i with
  | nil =>
    rw [if_neg (fun h => by have := h.1; have := h.2; simp only [List.length_nil] at *; omega)]
    rfl
  | cons v vs ih =>
    simp only [SMap.putRun]
    rw [ih _ _ (SMap.putAt_wf m i v d hm), SMap.getAt_putAt m i j v d ((SMap.wf_iff m d).mp hm).1]
    by_cases h1 : j = i
    · subst h1
      have h2 : ¬ (j + 1 ≤ j ∧ j < j + 1 + vs.length) := by omega
      rw [if_neg h2, if_pos rfl, if_pos ⟨Nat.le_refl _, by simp only [List.length_cons]; omega⟩]
      simp
    · by_cases h2 : i + 1 ≤ j ∧ j < i + 1 + vs.length
      · have h3 : i ≤ j ∧ j < i + (v :: vs).length := by simp only [List.length_cons]; omega
        have h4 : j - i = (j - (i + 1)) + 1 := by omega
        rw [if_pos h2, if_pos h3, h4, List.getD_cons_succ]
      · have h3 : ¬ (i ≤ j ∧ j < i + (v :: vs).length) := by simp only [List.length_cons]; omega
        rw [if_neg h2, if_neg h3, if_neg h1]

end Sys2Proof
end

