-- ==== Sys2Proof/Laws/Frame.lean ====
section
/-! SUPPORT. What a part of a step leaves alone, as one relation between the state before and the state after: the lemmas of the
files Keep… say it once for each operation, so that a claim about every step is a chain of them. -/

namespace Sys2Proof.Machine

set_option Elab.async false

open Sys2Proof

/-- The journal invariant of R367 and R368 on the journal and the SEQ of the command Keeper works on. -/
def jOk (r : Rj) (cur : Nat) : Prop := r.ent.length ≤ 8192 ∧ (∀ e ∈ r.ent, e.seq < r.next) ∧ cur < r.next

/-- The operation leaves the queue, the TAP, the journal and the addressed memories alone. -/
structure Keeps (s t : State) : Prop where
  pending : t.pending = s.pending
  jtag : t.jtag = s.jtag
  rj : t.rj = s.rj
  cur : t.wg.curSeq = s.wg.curSeq
  comb : t.cmb.mem = s.cmb.mem
  xm : t.xm.mem = s.xm.mem
  epoch : t.xm.epoch = s.xm.epoch
  slotA : t.fw.slotA = s.fw.slotA
  slotB : t.fw.slotB = s.fw.slotB

/-- The operation leaves the queue and the TAP alone, and keeps the invariants of the journal and of each memory. -/
structure Sound (s t : State) : Prop where
  pending : t.pending = s.pending
  jtag : t.jtag = s.jtag
  journal : jOk s.rj s.wg.curSeq → jOk t.rj t.wg.curSeq
  comb : SMap.wf s.cmb.mem 0#8 = true → SMap.wf t.cmb.mem 0#8 = true
  xm : xmWf s.xm.epoch s.xm.mem → xmWf t.xm.epoch t.xm.mem
  slotA : SMap.wf s.fw.slotA 0xFF#8 = true → SMap.wf t.fw.slotA 0xFF#8 = true
  slotB : SMap.wf s.fw.slotB 0xFF#8 = true → SMap.wf t.fw.slotB 0xFF#8 = true

theorem Keeps.same {s : State} : Keeps s s := ⟨rfl, rfl, rfl, rfl, rfl, rfl, rfl, rfl, rfl⟩

theorem Keeps.trans {s t u : State} (h : Keeps s t) (k : Keeps t u) : Keeps s u :=
  ⟨k.1.trans h.1, k.2.trans h.2, k.3.trans h.3, k.4.trans h.4, k.5.trans h.5, k.6.trans h.6, k.7.trans h.7, k.8.trans h.8,
    k.9.trans h.9⟩

theorem Keeps.sound {s t : State} (h : Keeps s t) : Sound s t :=
  ⟨h.1, h.2, by rw [h.rj, h.cur]; exact id, by rw [h.comb]; exact id, by rw [h.xm, h.epoch]; exact id, by rw [h.slotA]; exact id,
    by rw [h.slotB]; exact id⟩

theorem Sound.same {s : State} : Sound s s := Keeps.same.sound

theorem Sound.trans {s t u : State} (h : Sound s t) (k : Sound t u) : Sound s u :=
  ⟨k.1.trans h.1, k.2.trans h.2, k.3 ∘ h.3, k.4 ∘ h.4, k.5 ∘ h.5, k.6 ∘ h.6, k.7 ∘ h.7⟩

theorem Keeps.foldl {α : Type} (f : State → α → State) (l : List α) (s : State) (h : ∀ s x, Keeps s (f s x)) :
    Keeps s (l.foldl f s) := by
  induction l generalizing s with
  | nil => exact Keeps.same
  | cons a r ih => exact (h s a).trans (ih (f s a))

theorem Sound.foldl {α : Type} (f : State → α → State) (l : List α) (s : State) (h : ∀ s x, Sound s (f s x)) :
    Sound s (l.foldl f s) := by
  induction l generalizing s with
  | nil => exact Sound.same
  | cons a r ih => exact (h s a).trans (ih (f s a))

theorem Keeps.forUpto (f : State → Nat → State) (n : Nat) (s : State) (h : ∀ s x, Keeps s (f s x)) :
    Keeps s (forUpto n f s) := Keeps.foldl f _ s h

theorem Sound.forUpto (f : State → Nat → State) (n : Nat) (s : State) (h : ∀ s x, Sound s (f s x)) :
    Sound s (forUpto n f s) := Sound.foldl f _ s h

theorem Keeps.ite {s a b : State} (c : Prop) [Decidable c] (ha : Keeps s a) (hb : Keeps s b) : Keeps s (if c then a else b) := by
  split
  · exact ha
  · exact hb

theorem Sound.ite {s a b : State} (c : Prop) [Decidable c] (ha : Sound s a) (hb : Sound s b) : Sound s (if c then a else b) := by
  split
  · exact ha
  · exact hb

theorem Keeps.after {s t u : State} (k : Keeps t u) (h : Keeps s t) : Keeps s u := h.trans k

theorem Keeps.stepped {s a b : State} {c : Prop} [Decidable c] (k : Keeps a b) (h : Keeps s a) : Keeps s (if c then b else a) :=
  Keeps.ite c (h.trans k) h

theorem Sound.after {s t u : State} (k : Sound t u) (h : Sound s t) : Sound s u := h.trans k

theorem Sound.stepped {s a b : State} {c : Prop} [Decidable c] (k : Sound a b) (h : Sound s a) : Sound s (if c then b else a) :=
  Sound.ite c (h.trans k) h

theorem Keeps.elim {α : Type} {s a : State} {o : Option α} {f : α → State} (h : ∀ x, Keeps s (f x)) (ha : Keeps s a) : Keeps s (o.elim a f) := by
  cases o
  · exact ha
  · exact h _

theorem Sound.elim {α : Type} {s a : State} {o : Option α} {f : α → State} (h : ∀ x, Sound s (f x)) (ha : Sound s a) : Sound s (o.elim a f) := by
  cases o
  · exact ha
  · exact h _

/-- A step taken or not. -/
theorem Keeps.step {s a b : State} {c : Prop} [Decidable c] (h : Keeps s a) (k : Keeps a b) : Keeps s (if c then b else a) :=
  Keeps.ite c (h.trans k) h

theorem Keeps.step' {s a b : State} {c : Prop} [Decidable c] (h : Keeps s a) (k : Keeps a b) : Keeps s (if c then a else b) :=
  Keeps.ite c h (h.trans k)

theorem Keeps.foldl2 {α β : Type} (f : β × State → α → β × State) (l : List α) (p : β × State) (h : ∀ p x, Keeps p.2 (f p x).2) :
    Keeps p.2 (l.foldl f p).2 := by
  induction l generalizing p with
  | nil => exact Keeps.same
  | cons a r ih => exact (h p a).trans (ih (f p a))

theorem Keeps.foldl1 {α β : Type} (f : State × β → α → State × β) (l : List α) (p : State × β) (h : ∀ p x, Keeps p.1 (f p x).1) :
    Keeps p.1 (l.foldl f p).1 := by
  induction l generalizing p with
  | nil => exact Keeps.same
  | cons a r ih => exact (h p a).trans (ih (f p a))

theorem Sound.step {s a b : State} {c : Prop} [Decidable c] (h : Sound s a) (k : Sound a b) : Sound s (if c then b else a) :=
  Sound.ite c (h.trans k) h

theorem Sound.step' {s a b : State} {c : Prop} [Decidable c] (h : Sound s a) (k : Sound a b) : Sound s (if c then a else b) :=
  Sound.ite c h (h.trans k)

theorem Sound.foldl2 {α β : Type} (f : β × State → α → β × State) (l : List α) (p : β × State) (h : ∀ p x, Sound p.2 (f p x).2) :
    Sound p.2 (l.foldl f p).2 := by
  induction l generalizing p with
  | nil => exact Sound.same
  | cons a r ih => exact (h p a).trans (ih (f p a))

theorem Sound.foldl1 {α β : Type} (f : State × β → α → State × β) (l : List α) (p : State × β) (h : ∀ p x, Sound p.1 (f p x).1) :
    Sound p.1 (l.foldl f p).1 := by
  induction l generalizing p with
  | nil => exact Sound.same
  | cons a r ih => exact (h p a).trans (ih (f p a))

/-- A record update that leaves these fields alone. -/
theorem Keeps.upd {s t : State} {n : Nat} {syn be cm qu sm x bl so ar hl hi w gr us hw pw f} (h : Keeps s t)
    (h1 : w.curSeq = t.wg.curSeq := by with_reducible rfl) (h2 : cm.mem = t.cmb.mem := by with_reducible rfl) (h3 : x.mem = t.xm.mem := by with_reducible rfl)
    (h4 : x.epoch = t.xm.epoch := by with_reducible rfl) (h5 : f.slotA = t.fw.slotA := by with_reducible rfl) (h6 : f.slotB = t.fw.slotB := by with_reducible rfl) :
    Keeps s ⟨t.pending, n, syn, be, cm, qu, sm, x, bl, so, ar, hl, hi, w, gr, t.rj, us, hw, pw, t.jtag, f⟩ :=
  h.trans ⟨rfl, rfl, rfl, h1, h2, h3, h4, h5, h6⟩

theorem Sound.upd {s t : State} {n : Nat} {syn be cm qu sm x bl so ar hl hi w gr us hw pw f} (h : Sound s t)
    (h1 : w.curSeq = t.wg.curSeq := by with_reducible rfl) (h2 : cm.mem = t.cmb.mem := by with_reducible rfl) (h3 : x.mem = t.xm.mem := by with_reducible rfl)
    (h4 : x.epoch = t.xm.epoch := by with_reducible rfl) (h5 : f.slotA = t.fw.slotA := by with_reducible rfl) (h6 : f.slotB = t.fw.slotB := by with_reducible rfl) :
    Sound s ⟨t.pending, n, syn, be, cm, qu, sm, x, bl, so, ar, hl, hi, w, gr, t.rj, us, hw, pw, t.jtag, f⟩ :=
  h.trans (Keeps.upd Keeps.same h1 h2 h3 h4 h5 h6).sound

/-- Taking a SEQ keeps the journal invariant, and so does closing the command. -/
@[simp] theorem jOk_next {ent : List JEntry} {n cur : Nat} (h : jOk { ent := ent, next := n } cur) :
    jOk { ent := ent, next := n + 1 } cur :=
  ⟨h.1, fun e he => Nat.lt_succ_of_lt (h.2.1 e he), Nat.lt_succ_of_lt h.2.2⟩

theorem jOk_zero {r : Rj} {cur : Nat} (h : jOk r cur) : jOk r 0 := ⟨h.1, h.2.1, Nat.lt_of_le_of_lt (Nat.zero_le _) h.2.2⟩

/-- Listing a byte, or taking it out, keeps external memory in canonical form. -/
@[simp] theorem xmWf_putRunBy (ep : Nat) (m : SMap Byte) (a : Nat) (l : List Byte) (h : xmWf ep m) : xmWf ep (putRunBy (xmDefault ep) m a l) := by
  induction l generalizing m a with
  | nil => exact h
  | cons b r ih =>
    refine ih _ _ ?_
    unfold SMap.putAt
    split
    · refine ⟨SMap.eraseAt_rises m a h.1, fun e he => ?_⟩
      rw [SMap.eraseAt_eq_filter m a h.1] at he
      exact h.2 e (List.mem_filter.mp he).1
    · refine ⟨SMap.insertAt_rises m a b h.1, fun e he => ?_⟩
      rcases SMap.mem_insertAt he with rfl | he
      · assumption
      · exact h.2 e he

@[simp] theorem xmWf_nil (ep : Nat) : xmWf ep [] := ⟨rfl, fun e he => by simp at he⟩


end Sys2Proof.Machine
end

