-- ==== Sys2Proof/Laws/FrameOps.lean ====
section
/-! SUPPORT. What each operation of Ops, Synth, Phase, Comb, Quad leaves alone, or keeps. -/

namespace Sys2Proof.Machine

set_option Elab.async false

open Sys2Proof

/- Ops.lean. -/

theorem onQuad_keeps (s : State) (q : Nat) (f : QuadSt → QuadSt) : Keeps s (onQuad s q f) := by
  unfold onQuad
  exact Keeps.upd Keeps.same

theorem onCtx_keeps (s : State) (c : Nat) (f : PlanCtx → PlanCtx) : Keeps s (onCtx s c f) := by
  unfold onCtx
  exact Keeps.upd Keeps.same

theorem onPort_keeps (s : State) (p : Nat) (f : Port → Port) : Keeps s (onPort s p f) := by
  unfold onPort
  exact Keeps.upd Keeps.same

theorem onArb_keeps (s : State) (q : Nat) (f : Arb → Arb) : Keeps s (onArb s q f) := by
  unfold onArb
  exact Keeps.upd Keeps.same

theorem onMb_keeps (s : State) (m : Nat) (f : Mbox → Mbox) : Keeps s (onMb s m f) := by
  unfold onMb
  exact Keeps.upd Keeps.same

theorem onStream_keeps (s : State) (i : Nat) (f : StreamEnt → StreamEnt) : Keeps s (onStream s i f) := by
  unfold onStream
  exact Keeps.upd Keeps.same

theorem onSo_keeps (s : State) (i : Nat) (f : SoObj → SoObj) : Keeps s (onSo s i f) := by
  unfold onSo
  exact Keeps.upd Keeps.same

theorem onBl_keeps (s : State) (i : Nat) (f : BlEntry → BlEntry) : Keeps s (onBl s i f) := by
  unfold onBl
  exact Keeps.upd Keeps.same

theorem onLoop_keeps (s : State) (l : Loop) (f : LoopSt → LoopSt) : Keeps s (onLoop s l f) := by
  unfold onLoop
  with_reducible repeat' first | (refine Keeps.upd ?_; exact Keeps.same) | split

theorem combWrite_sound (s : State) (a : Nat) (l : List Byte) : Sound s (combWrite s a l) :=
  ⟨rfl, rfl, id, fun h => SMap.putRun_wf _ _ _ _ h, id, id, id⟩

theorem xmWrite_sound (s : State) (a : Nat) (l : List Byte) : Sound s (xmWrite s a l) :=
  ⟨rfl, rfl, id, id, fun h => xmWf_putRunBy _ _ _ _ h, id, id⟩

theorem xmPoison_keeps (s : State) (a n : Nat) (b : Bool) : Keeps s (xmPoison s a n b) := by
  unfold xmPoison
  with_reducible repeat' first | (refine Keeps.upd ?_; exact Keeps.same) | split

theorem takeFree_keeps (s : State) (w : Nat) : Keeps s (takeFree s w).2 := by
  unfold takeFree
  exact Keeps.upd Keeps.same

theorem signal_keeps (s : State) (v : Nat) : Keeps s (signal s v) := by
  unfold signal
  with_reducible repeat' first | (refine Keeps.upd ?_; exact Keeps.same) | split

theorem signalPending_keeps (s : State) : Keeps s (signalPending s) := by
  unfold signalPending
  with_reducible repeat' first
    | exact Keeps.same
    | (apply Keeps.after; apply signal_keeps)
    | (apply Keeps.after; apply Keeps.foldl; intro s x)
    | split

theorem hostMemWrite_keeps (s : State) (a : Nat) (l : List Byte) : Keeps s (hostMemWrite s a l) := by
  unfold hostMemWrite
  exact Keeps.upd Keeps.same

theorem evrPut_keeps (s : State) (e : Event) : Keeps s (evrPut s e) := by
  unfold evrPut
  with_reducible repeat' first
    | (apply Keeps.after; first | apply signal_keeps | apply hostMemWrite_keeps)
    | (refine Keeps.upd ?_; first | exact Keeps.same | (apply Keeps.after; first | apply signal_keeps | apply hostMemWrite_keeps))
    | split

theorem evrOverflow_keeps (s : State) : Keeps s (evrOverflow s) := by
  unfold evrOverflow
  with_reducible repeat' first
    | (apply Keeps.after; apply evrPut_keeps)
    | (refine Keeps.upd ?_; first | exact Keeps.same | (apply Keeps.after; apply evrPut_keeps))
    | split

theorem evrEmit_keeps (s : State) (e : Event) : Keeps s (evrEmit s e) := by
  unfold evrEmit
  with_reducible repeat' first
    | (apply Keeps.after; first | apply evrPut_keeps | apply evrOverflow_keeps)
    | (refine Keeps.upd ?_; first | exact Keeps.same | (apply Keeps.after; first | apply evrPut_keeps | apply evrOverflow_keeps))
    | apply Keeps.ite

theorem bootqAdd_keeps (s : State) (e : Event) : Keeps s (bootqAdd s e) := by
  unfold bootqAdd
  with_reducible repeat' first | (refine Keeps.upd ?_; exact Keeps.same) | split

theorem bootqDeliver_keeps (s : State) : Keeps s (bootqDeliver s) := by
  unfold bootqDeliver
  with_reducible repeat' first
    | (apply Keeps.after; first | apply evrOverflow_keeps | apply evrEmit_keeps)
    | (apply Keeps.after; apply Keeps.foldl; intro s x)
    | (refine Keeps.upd ?_; first | exact Keeps.same | (apply Keeps.after; apply Keeps.foldl; intro s x))
    | split

theorem toRing_keeps (s : State) (e : Event) : Keeps s (toRing s e) := by
  unfold toRing
  with_reducible repeat' first
    | exact Keeps.same
    | (apply Keeps.after; first | apply evrEmit_keeps | apply bootqAdd_keeps | apply bootqDeliver_keeps)
    | split

theorem raiseRing_keeps (s : State) (beat code : Nat) (sev : Sev) (detail : Nat) : Keeps s (raiseRing s beat code sev detail) := by
  unfold raiseRing
  with_reducible repeat' first | (apply Keeps.after; apply toRing_keeps) | (refine Keeps.upd ?_; exact Keeps.same)

theorem hwLose_keeps (s : State) (n : Nat) : Keeps s (hwLose s n) := by
  unfold hwLose
  exact Keeps.upd Keeps.same

theorem hwHoldState_keeps (s : State) (r : HwPend) : Keeps s (hwHoldState s r) := by
  unfold hwHoldState
  exact Keeps.upd Keeps.same

theorem hwState_keeps (s : State) (typ : Nat) (payload : List Byte) : Keeps s (hwState s typ payload) := by
  unfold hwState
  with_reducible repeat' first | (apply Keeps.after; apply hwHoldState_keeps) | (refine Keeps.upd ?_; exact Keeps.same) | split

theorem hwEvent_keeps (s : State) (e : Event) : Keeps s (hwEvent s e) := by
  unfold hwEvent
  with_reducible repeat' first
    | (apply Keeps.after; first | apply raiseRing_keeps | apply hwLose_keeps | apply hwHoldState_keeps)
    | (refine Keeps.upd ?_; exact Keeps.same)
    | apply Keeps.ite
    | split

theorem raiseAt_keeps (s : State) (beat code : Nat) (sev : Sev) (detail : Nat) : Keeps s (raiseAt s beat code sev detail) := by
  unfold raiseAt
  with_reducible repeat' first
    | exact Keeps.same
    | (apply Keeps.after; first | apply raiseRing_keeps | apply hwEvent_keeps)
    | split

theorem raise_keeps (s : State) (code : Nat) (sev : Sev) (detail : Nat) : Keeps s (raise s code sev detail) := by
  unfold raise
  with_reducible repeat' first | exact Keeps.same | (apply Keeps.after; apply raiseAt_keeps)

theorem hwMirrors_keeps (s : State) : Keeps s (hwMirrors s) := by
  unfold hwMirrors
  with_reducible repeat' first
    | (apply Keeps.after; apply Keeps.foldl; intro s x)
    | (refine Keeps.upd ?_; exact Keeps.same)
    | split

/-- Writing a journal entry keeps the invariant where its SEQ lies below the next one. -/
theorem jWrite_sound (s : State) (e : JEntry) (h : jOk s.rj s.wg.curSeq → e.seq < s.rj.next) : Sound s (jWrite s e) := by
  unfold jWrite
  refine Sound.after (hwMirrors_keeps _).sound ⟨rfl, rfl, fun hs => ?_, id, id, id, id⟩
  have hm : ∀ x ∈ s.rj.ent ++ [e], x.seq < s.rj.next := by
    intro x hx
    rcases List.mem_append.mp hx with hx | hx
    · exact hs.2.1 x hx
    · rw [List.mem_singleton.mp hx]; exact h hs
  refine ⟨?_, ?_, hs.2.2⟩
  · dsimp only
    split
    · assumption
    · have := hs.1
      simp only [List.length_drop, List.length_append, List.length_singleton] at *; omega
  · dsimp only
    split
    · exact hm
    · exact fun x hx => hm x (List.mem_of_mem_drop hx)

theorem jWrite_next (s : State) (e : JEntry) : (jWrite s e).rj.next = s.rj.next := by
  unfold jWrite
  rw [(hwMirrors_keeps _).rj]

theorem jWrite_cur (s : State) (e : JEntry) : (jWrite s e).wg.curSeq = s.wg.curSeq := by
  unfold jWrite
  rw [(hwMirrors_keeps _).cur]

theorem takeSeq_sound (s : State) : Sound s (takeSeq s).2 :=
  ⟨rfl, rfl, fun h => ⟨h.1, fun e he => Nat.lt_succ_of_lt (h.2.1 e he), Nat.lt_succ_of_lt h.2.2⟩, id, id, id, id⟩

theorem jKeeper_sound (s : State) (source : Nat) (cls : CmdClass) (op outcome phase beat digest link effect : Nat) :
    Sound s (jKeeper s source cls op outcome phase beat digest link effect) := by
  unfold jKeeper
  exact (takeSeq_sound s).trans (jWrite_sound _ _ (fun _ => Nat.lt_succ_self _))

theorem cprPut_keeps (s : State) (c : Completion) : Keeps s (cprPut s c) := by
  unfold cprPut
  with_reducible repeat' first
    | (apply Keeps.after; apply hostMemWrite_keeps)
    | (refine Keeps.upd ?_; first | exact Keeps.same | (apply Keeps.after; apply hostMemWrite_keeps))

theorem setBacklog_keeps (s : State) (l : List Completion) : Keeps s (setBacklog s l) := by
  unfold setBacklog
  with_reducible repeat' first
    | exact Keeps.same
    | (refine Keeps.upd ?_; first | exact Keeps.same | apply Keeps.ite | split)

theorem complete_keeps (s : State) (c : Completion) : Keeps s (complete s c) := by
  unfold complete
  with_reducible repeat' first
    | exact Keeps.same
    | (apply Keeps.after; first | apply raise_keeps | apply cprPut_keeps | apply setBacklog_keeps)
    | apply Keeps.ite
    | split

theorem drainBacklog_keeps (n : Nat) (s : State) : Keeps s (drainBacklog n s) := by
  induction n generalizing s with
  | zero => exact Keeps.same
  | succ n ih =>
    unfold drainBacklog; split
    · exact Keeps.same
    · split
      · exact Keeps.trans (Keeps.trans (Keeps.upd Keeps.same) (cprPut_keeps _ _)) (ih _)
      · exact Keeps.same

theorem atEdge_keeps (s : State) (f : State → Nat → State) (h : ∀ s n, Keeps s (f s n)) : Keeps s (atEdge s f) :=
  Keeps.upd (Keeps.trans (Keeps.upd Keeps.same) (h { s with beat.num := edgeNum s, beat.slot := 0, beat.guard := false } (edgeNum s)))

theorem atEdge_sound (s : State) (f : State → Nat → State) (h : ∀ s n, Sound s (f s n)) : Sound s (atEdge s f) :=
  Sound.upd (Sound.trans (Sound.upd Sound.same) (h { s with beat.num := edgeNum s, beat.slot := 0, beat.guard := false } (edgeNum s)))

/- Synth.lean. -/

theorem seeRefs_keeps (s : State) (hiveOk localOk : Bool) : Keeps s (seeRefs s hiveOk localOk) := by
  unfold seeRefs
  with_reducible repeat' first
    | exact Keeps.same
    | (refine Keeps.upd ?_; first | exact Keeps.same | apply Keeps.ite | split)

theorem checkRefs_keeps (s : State) : Keeps s (checkRefs s) := by
  unfold checkRefs
  with_reducible repeat' first
    | exact Keeps.same
    | (refine Keeps.upd ?_; first | exact Keeps.same | apply Keeps.ite | split)

theorem setDrive_keeps (s : State) (d : CoreSrc) : Keeps s (setDrive s d) := by
  unfold setDrive
  with_reducible repeat' first
    | exact Keeps.same
    | (refine Keeps.upd ?_; first | exact Keeps.same | apply Keeps.ite | split | (refine Keeps.upd ?_; first | exact Keeps.same))
    | apply Keeps.ite
    | split

theorem profPut_keeps (s : State) (l : Loop) (i : Nat) (p : Profile) : Keeps s (profPut s l i p) := by
  unfold profPut
  with_reducible repeat' first
    | exact Keeps.same
    | (refine Keeps.upd ?_; first | exact Keeps.same | apply Keeps.ite | split | (refine Keeps.upd ?_; first | exact Keeps.same))
    | split

theorem setProf_keeps (s : State) (l : Loop) (i : Nat) (p : Profile) : Keeps s (setProf s l i p) := by
  unfold setProf
  with_reducible repeat' first
    | exact Keeps.same
    | (apply Keeps.after; apply profPut_keeps)
    | (refine Keeps.upd ?_; first | exact Keeps.same | (apply Keeps.after; apply profPut_keeps) | apply Keeps.ite | split | (refine Keeps.upd ?_; first | exact Keeps.same | (apply Keeps.after; apply profPut_keeps)))
    | apply Keeps.ite
    | split

theorem onProf_keeps (s : State) (l : Loop) (i : Nat) (f : Profile → Profile) : Keeps s (onProf s l i f) := by
  unfold onProf
  with_reducible repeat' first | exact Keeps.same | (apply Keeps.after; apply setProf_keeps)

theorem profFlush_keeps (s : State) : Keeps s (profFlush s) := by
  unfold profFlush
  with_reducible repeat' first
    | exact Keeps.same
    | (apply Keeps.after; apply setProf_keeps)
    | (apply Keeps.after; apply Keeps.foldl; intro s x)
    | apply Keeps.ite
    | split

theorem bandTo_keeps (s : State) (l : Loop) (i band : Nat) : Keeps s (bandTo s l i band) := by
  unfold bandTo
  with_reducible repeat' first | exact Keeps.same | (apply Keeps.after; apply onProf_keeps)

theorem undoStep_keeps (s : State) (l : Loop) : Keeps s (undoStep s l) := by
  unfold undoStep
  with_reducible repeat' first
    | exact Keeps.same
    | (apply Keeps.after; first | apply onLoop_keeps | apply bandTo_keeps)
    | (refine Keeps.upd ?_; first | exact Keeps.same | (apply Keeps.after; first | apply onLoop_keeps | apply bandTo_keeps) | apply Keeps.ite | split | (refine Keeps.upd ?_; first | exact Keeps.same | (apply Keeps.after; first | apply onLoop_keeps | apply bandTo_keeps)))
    | split

theorem bandDue_keeps (s : State) (l : Loop) (prof : Nat) : Keeps s (bandDue s l prof) := by
  unfold bandDue
  with_reducible repeat' first
    | exact Keeps.same
    | (apply Keeps.after; first | apply onLoop_keeps | apply bandTo_keeps)
    | (refine Keeps.upd ?_; first | exact Keeps.same | (apply Keeps.after; first | apply onLoop_keeps | apply bandTo_keeps) | apply Keeps.ite | split | (refine Keeps.upd ?_; first | exact Keeps.same | (apply Keeps.after; first | apply onLoop_keeps | apply bandTo_keeps)))
    | split

theorem overrideDue_keeps (s : State) (l : Loop) (prof : Nat) : Keeps s (overrideDue s l prof) := by
  unfold overrideDue
  with_reducible repeat' first
    | exact Keeps.same
    | (apply Keeps.after; first | apply onProf_keeps | apply bandTo_keeps)
    | (refine Keeps.upd ?_; first | exact Keeps.same | (apply Keeps.after; first | apply onProf_keeps | apply bandTo_keeps) | apply Keeps.ite | split | (refine Keeps.upd ?_; first | exact Keeps.same | (apply Keeps.after; first | apply onProf_keeps | apply bandTo_keeps)))
    | split

theorem retarget_keeps (s : State) (l : Loop) (prof : Nat) (why : LoopPurpose) (slot : Option Nat) : Keeps s (retarget s l prof why slot) := by
  unfold retarget
  with_reducible repeat' first
    | exact Keeps.same
    | (apply Keeps.after; first | apply onLoop_keeps | apply undoStep_keeps | apply bandDue_keeps | apply overrideDue_keeps)
    | (refine Keeps.upd ?_; first | exact Keeps.same | (apply Keeps.after; first | apply onLoop_keeps | apply undoStep_keeps | apply bandDue_keeps | apply overrideDue_keeps) | apply Keeps.ite | split)

theorem prelockOn_keeps (s : State) (l : Loop) (slot : Nat) : Keeps s (prelockOn s l slot) := by
  unfold prelockOn
  with_reducible repeat' first
    | exact Keeps.same
    | (apply Keeps.after; first | apply onLoop_keeps | apply retarget_keeps)
    | (refine Keeps.upd ?_; first | exact Keeps.same | (apply Keeps.after; first | apply onLoop_keeps | apply retarget_keeps) | apply Keeps.ite | split | (refine Keeps.upd ?_; first | exact Keeps.same | (apply Keeps.after; first | apply onLoop_keeps | apply retarget_keeps)))
    | split

theorem prelockNext_keeps (s : State) (slot : Nat) : Keeps s (prelockNext s slot) := by
  unfold prelockNext
  with_reducible repeat' first
    | exact Keeps.same
    | (apply Keeps.after; apply prelockOn_keeps)
    | (refine Keeps.upd ?_; first | exact Keeps.same | (apply Keeps.after; apply prelockOn_keeps) | apply Keeps.ite | split)
    | split

theorem ensureNext_keeps (s : State) (slot : Nat) : Keeps s (ensureNext s slot) := by
  unfold ensureNext
  with_reducible repeat' first
    | exact Keeps.same
    | (apply Keeps.after; first | apply onLoop_keeps | apply retarget_keeps)
    | (refine Keeps.upd ?_; first | exact Keeps.same | (apply Keeps.after; first | apply onLoop_keeps | apply retarget_keeps) | apply Keeps.ite | split | (refine Keeps.upd ?_; first | exact Keeps.same | (apply Keeps.after; first | apply onLoop_keeps | apply retarget_keeps)))
    | apply Keeps.ite
    | split

theorem afterTable_keeps (s : State) (slot : Nat) : Keeps s (afterTable s slot) := by
  unfold afterTable
  with_reducible repeat' first
    | exact Keeps.same
    | (apply Keeps.after; apply ensureNext_keeps)
    | (refine Keeps.upd ?_; first | exact Keeps.same | (apply Keeps.after; apply ensureNext_keeps) | apply Keeps.ite | split | (refine Keeps.upd ?_; first | exact Keeps.same | (apply Keeps.after; apply ensureNext_keeps)))
    | apply Keeps.ite
    | split

theorem settleIdle_keeps (s : State) : Keeps s (settleIdle s) := by
  unfold settleIdle
  with_reducible repeat' first
    | exact Keeps.same
    | (apply Keeps.after; apply ensureNext_keeps)
    | (refine Keeps.upd ?_; first | exact Keeps.same | (apply Keeps.after; apply ensureNext_keeps) | apply Keeps.ite | split)
    | apply Keeps.ite
    | split

theorem driveLoop_keeps (s : State) (l : Loop) : Keeps s (driveLoop s l) := by
  unfold driveLoop
  with_reducible repeat' first
    | exact Keeps.same
    | (apply Keeps.after; first | apply onLoop_keeps | apply setDrive_keeps | apply profFlush_keeps)
    | (refine Keeps.upd ?_; first | exact Keeps.same | (apply Keeps.after; first | apply onLoop_keeps | apply setDrive_keeps | apply profFlush_keeps) | apply Keeps.ite | split | (refine Keeps.upd ?_; first | exact Keeps.same | (apply Keeps.after; first | apply onLoop_keeps | apply setDrive_keeps | apply profFlush_keeps)))

theorem swapTo_keeps (s : State) (l : Loop) (slot : Nat) : Keeps s (swapTo s l slot) := by
  unfold swapTo
  with_reducible repeat' first
    | exact Keeps.same
    | (apply Keeps.after; first | apply prelockNext_keeps | apply driveLoop_keeps)
    | apply Keeps.ite
    | split

theorem swapSafe_keeps (s : State) : Keeps s (swapSafe s) := by
  unfold swapSafe
  with_reducible repeat' first
    | exact Keeps.same
    | (apply Keeps.after; first | apply setDrive_keeps | apply profFlush_keeps)
    | (refine Keeps.upd ?_; first | exact Keeps.same | (apply Keeps.after; first | apply setDrive_keeps | apply profFlush_keeps) | apply Keeps.ite | split | (refine Keeps.upd ?_; first | exact Keeps.same | (apply Keeps.after; first | apply setDrive_keeps | apply profFlush_keeps)))
    | apply Keeps.ite
    | split

theorem cancelHop_keeps (s : State) (lo : Option Loop) (slot prof : Nat) : Keeps s (cancelHop s lo slot prof) := by
  unfold cancelHop
  with_reducible repeat' first
    | exact Keeps.same
    | (apply Keeps.after; first | apply raise_keeps | apply undoStep_keeps | apply retarget_keeps | apply prelockOn_keeps)
    | (refine Keeps.upd ?_; first | exact Keeps.same | (apply Keeps.after; first | apply raise_keeps | apply undoStep_keeps | apply retarget_keeps | apply prelockOn_keeps) | apply Keeps.ite | split | (refine Keeps.upd ?_; first | exact Keeps.same | (apply Keeps.after; first | apply raise_keeps | apply undoStep_keeps | apply retarget_keeps | apply prelockOn_keeps)))
    | apply Keeps.ite
    | split

theorem clearSkip_keeps (s : State) (slot : Nat) : Keeps s (clearSkip s slot) := by
  unfold clearSkip
  with_reducible repeat' first
    | exact Keeps.same
    | (refine Keeps.upd ?_; first | exact Keeps.same | apply Keeps.ite | split)
    | apply Keeps.ite
    | split

theorem hopGuard_keeps (s : State) (slot prof : Nat) : Keeps s (hopGuard s slot prof) := by
  unfold hopGuard
  with_reducible repeat' first
    | exact Keeps.same
    | (apply Keeps.after; first | apply swapTo_keeps | apply cancelHop_keeps)
    | (refine Keeps.upd ?_; first | exact Keeps.same | (apply Keeps.after; first | apply swapTo_keeps | apply cancelHop_keeps) | apply Keeps.ite | split | (refine Keeps.upd ?_; first | exact Keeps.same | (apply Keeps.after; first | apply swapTo_keeps | apply cancelHop_keeps)))
    | apply Keeps.ite
    | split

theorem lateHopSwap_keeps (s : State) (slot : Nat) : Keeps s (lateHopSwap s slot) := by
  unfold lateHopSwap
  with_reducible repeat' first
    | (apply Keeps.after; apply swapTo_keeps)
    | (refine Keeps.upd ?_; first | exact Keeps.same | (apply Keeps.after; apply swapTo_keeps))
    | split

theorem prelockStep_keeps (s : State) (l : Loop) (high : Bool) : Keeps s (prelockStep s l high) := by
  unfold prelockStep
  with_reducible repeat' first
    | exact Keeps.same
    | (apply Keeps.after; first | apply onLoop_keeps | apply bandTo_keeps)
    | (refine Keeps.upd ?_; first | exact Keeps.same | (apply Keeps.after; first | apply onLoop_keeps | apply bandTo_keeps) | apply Keeps.ite | split)

theorem baseFailed_keeps (s : State) (l : Loop) : Keeps s (baseFailed s l) := by
  unfold baseFailed
  with_reducible repeat' first
    | exact Keeps.same
    | (apply Keeps.after; first | apply onLoop_keeps | apply raise_keeps)
    | (refine Keeps.upd ?_; first | exact Keeps.same | (apply Keeps.after; first | apply onLoop_keeps | apply raise_keeps) | apply Keeps.ite | split)

theorem prelockGone_keeps (s : State) (l : Loop) : Keeps s (prelockGone s l) := by
  unfold prelockGone
  with_reducible repeat' first
    | exact Keeps.same
    | (apply Keeps.after; first | apply onLoop_keeps | apply raise_keeps | apply undoStep_keeps | apply retarget_keeps | apply prelockOn_keeps | apply cancelHop_keeps | apply baseFailed_keeps)
    | (refine Keeps.upd ?_; first | exact Keeps.same | (apply Keeps.after; first | apply onLoop_keeps | apply raise_keeps | apply undoStep_keeps | apply retarget_keeps | apply prelockOn_keeps | apply cancelHop_keeps | apply baseFailed_keeps) | apply Keeps.ite | split | (refine Keeps.upd ?_; first | exact Keeps.same | (apply Keeps.after; first | apply onLoop_keeps | apply raise_keeps | apply undoStep_keeps | apply retarget_keeps | apply prelockOn_keeps | apply cancelHop_keeps | apply baseFailed_keeps)))
    | apply Keeps.ite
    | split

theorem prelockFailed_keeps (s : State) (l : Loop) : Keeps s (prelockFailed s l) := by
  unfold prelockFailed
  with_reducible repeat' first
    | exact Keeps.same
    | (apply Keeps.after; first | apply prelockStep_keeps | apply prelockGone_keeps)
    | (refine Keeps.upd ?_; first | exact Keeps.same | (apply Keeps.after; first | apply prelockStep_keeps | apply prelockGone_keeps) | apply Keeps.ite | split)
    | split

theorem lockBase_keeps (s : State) : Keeps s (lockBase s) := by
  unfold lockBase
  with_reducible repeat' first | exact Keeps.same | (apply Keeps.after; apply retarget_keeps) | split

theorem prelockRetries_keeps (s : State) : Keeps s (prelockRetries s) := by
  unfold prelockRetries
  with_reducible repeat' first
    | exact Keeps.same
    | (apply Keeps.after; apply retarget_keeps)
    | (apply Keeps.after; apply Keeps.foldl; intro s x)
    | (refine Keeps.upd ?_; first | exact Keeps.same | (apply Keeps.after; apply retarget_keeps) | (apply Keeps.after; apply Keeps.foldl; intro s x) | apply Keeps.ite | split | (refine Keeps.upd ?_; first | exact Keeps.same | (apply Keeps.after; apply retarget_keeps)))
    | apply Keeps.ite
    | split

theorem baseSwapAtEdge_keeps (s : State) : Keeps s (baseSwapAtEdge s) := by
  unfold baseSwapAtEdge
  with_reducible repeat' first
    | exact Keeps.same
    | (apply Keeps.after; apply swapTo_keeps)
    | (refine Keeps.upd ?_; first | exact Keeps.same | (apply Keeps.after; apply swapTo_keeps) | apply Keeps.ite | split)
    | apply Keeps.ite
    | split

theorem pumpStep_keeps (s : State) : Keeps s (pumpStep s) := by
  unfold pumpStep
  with_reducible repeat' first | (refine Keeps.upd ?_; exact Keeps.same) | split

theorem loopOut_keeps (s : State) (l : Loop) : Keeps s (loopOut s l) := by
  unfold loopOut
  with_reducible repeat' first | exact Keeps.same | (apply Keeps.after; first | apply onLoop_keeps | apply raise_keeps)

theorem relockFailed_keeps (s : State) (l : Loop) : Keeps s (relockFailed s l) := by
  unfold relockFailed
  with_reducible repeat' first
    | exact Keeps.same
    | (apply Keeps.after; first | apply retarget_keeps | apply prelockOn_keeps)
    | (refine Keeps.upd ?_; first | exact Keeps.same | (apply Keeps.after; first | apply retarget_keeps | apply prelockOn_keeps) | apply Keeps.ite | split)
    | apply Keeps.ite
    | split

theorem emergencySwap_keeps (s : State) (l : Loop) : Keeps s (emergencySwap s l) := by
  unfold emergencySwap
  with_reducible repeat' first
    | exact Keeps.same
    | (apply Keeps.after; first | apply raise_keeps | apply driveLoop_keeps | apply swapSafe_keeps | apply relockFailed_keeps)
    | apply Keeps.ite
    | split

theorem lossOfLock_keeps (s : State) (l : Loop) : Keeps s (lossOfLock s l) := by
  unfold lossOfLock
  with_reducible repeat' first
    | (apply Keeps.after; first | apply onLoop_keeps | apply raise_keeps | apply loopOut_keeps | apply emergencySwap_keeps)
    | (refine Keeps.upd ?_; first | exact Keeps.same | (apply Keeps.after; first | apply onLoop_keeps | apply raise_keeps | apply loopOut_keeps | apply emergencySwap_keeps))
    | apply Keeps.ite
    | split

theorem execLossOfLock_keeps (l : Loop) (s : State) : ∃ s', execLossOfLock l s = .next s' ∧ Keeps s s' := by
  refine ⟨_, rfl, ?_⟩
  with_reducible repeat' first | exact Keeps.same | (apply Keeps.after; apply lossOfLock_keeps)

theorem phaseWindowViolation_keeps (s : State) (l : Loop) (cycle : Nat) : Keeps s (phaseWindowViolation s l cycle) := by
  unfold phaseWindowViolation
  with_reducible repeat' first
    | (apply Keeps.after; apply onLoop_keeps)
    | (refine Keeps.upd ?_; first | exact Keeps.same | (apply Keeps.after; apply onLoop_keeps))
    | split

theorem execPhaseWindowViolation_keeps (l : Loop) (cycle : Nat) (s : State) : ∃ s', execPhaseWindowViolation l cycle s = .next s' ∧ Keeps s s' := by
  refine ⟨_, rfl, ?_⟩
  with_reducible repeat' first | exact Keeps.same | (apply Keeps.after; apply phaseWindowViolation_keeps)

theorem prelockTimeout_keeps (s : State) (l : Loop) : Keeps s (prelockTimeout s l) := by
  unfold prelockTimeout
  with_reducible repeat' first
    | exact Keeps.same
    | (apply Keeps.after; apply prelockFailed_keeps)
    | apply Keeps.ite
    | split

theorem execPrelockTimeout_keeps (l : Loop) (s : State) : ∃ s', execPrelockTimeout l s = .next s' ∧ Keeps s s' := by
  refine ⟨_, rfl, ?_⟩
  with_reducible repeat' first | exact Keeps.same | (apply Keeps.after; apply prelockTimeout_keeps)

theorem noteRetarget_keeps (s : State) (l : Loop) (prof : Nat) (high : Bool) : Keeps s (noteRetarget s l prof high) := by
  unfold noteRetarget
  with_reducible repeat' first
    | exact Keeps.same
    | (apply Keeps.after; apply onLoop_keeps)
    | (refine Keeps.upd ?_; first | exact Keeps.same | (apply Keeps.after; apply onLoop_keeps) | apply Keeps.ite | split)
    | apply Keeps.ite
    | split

theorem idleFlag_keeps (s : State) (l : Loop) (high : Bool) : Keeps s (idleFlag s l high) := by
  unfold idleFlag
  with_reducible repeat' first
    | exact Keeps.same
    | (apply Keeps.after; first | apply onLoop_keeps | apply raise_keeps | apply noteRetarget_keeps)
    | (refine Keeps.upd ?_; first | exact Keeps.same | (apply Keeps.after; first | apply onLoop_keeps | apply raise_keeps | apply noteRetarget_keeps) | apply Keeps.ite | split | (refine Keeps.upd ?_; first | exact Keeps.same | (apply Keeps.after; first | apply onLoop_keeps | apply raise_keeps | apply noteRetarget_keeps)))
    | apply Keeps.ite
    | split

theorem vtCrossing_keeps (s : State) (l : Loop) (high : Bool) : Keeps s (vtCrossing s l high) := by
  unfold vtCrossing
  with_reducible repeat' first
    | exact Keeps.same
    | (apply Keeps.after; first | apply onLoop_keeps | apply raise_keeps | apply noteRetarget_keeps | apply idleFlag_keeps)
    | (refine Keeps.upd ?_; first | exact Keeps.same | (apply Keeps.after; first | apply onLoop_keeps | apply raise_keeps | apply noteRetarget_keeps | apply idleFlag_keeps) | apply Keeps.ite | split | (refine Keeps.upd ?_; first | exact Keeps.same | (apply Keeps.after; first | apply onLoop_keeps | apply raise_keeps | apply noteRetarget_keeps | apply idleFlag_keeps)))
    | apply Keeps.ite
    | split

theorem execVtComplianceCrossing_keeps (l : Loop) (high : Bool) (s : State) : ∃ s', execVtComplianceCrossing l high s = .next s' ∧ Keeps s s' := by
  refine ⟨_, rfl, ?_⟩
  with_reducible repeat' first | exact Keeps.same | (apply Keeps.after; apply vtCrossing_keeps)

theorem coreLocked_keeps (s : State) (l : Loop) (vt : Nat) : Keeps s (coreLocked s l vt) := by
  unfold coreLocked
  with_reducible repeat' first
    | exact Keeps.same
    | (apply Keeps.after; first | apply onLoop_keeps | apply onProf_keeps)
    | (refine Keeps.upd ?_; first | exact Keeps.same | (apply Keeps.after; first | apply onLoop_keeps | apply onProf_keeps) | apply Keeps.ite | split | (refine Keeps.upd ?_; first | exact Keeps.same | (apply Keeps.after; first | apply onLoop_keeps | apply onProf_keeps)))
    | apply Keeps.ite
    | split

/- Phase.lean. -/

theorem takeSamples_keeps (s : State) : Keeps s (takeSamples s) := by
  unfold takeSamples
  with_reducible repeat' first
    | exact Keeps.same
    | (refine Keeps.upd ?_; first | exact Keeps.same | apply Keeps.ite | split)
    | apply Keeps.ite
    | split

theorem clearWindow_keeps (s : State) : Keeps s (clearWindow s) := by
  unfold clearWindow
  exact Keeps.upd Keeps.same

theorem noPortx_keeps (s : State) : Keeps s (noPortx s) := by
  unfold noPortx
  with_reducible repeat' first
    | exact Keeps.same
    | (refine Keeps.upd ?_; first | exact Keeps.same | apply Keeps.ite | split)

theorem estimate_keeps (s : State) : Keeps s (estimate s) := by
  unfold estimate
  with_reducible repeat' first
    | exact Keeps.same
    | (refine Keeps.upd ?_; first | exact Keeps.same | apply Keeps.ite | split)

theorem steerEdge_keeps (s : State) : Keeps s (steerEdge s) := by
  unfold steerEdge
  with_reducible repeat' first
    | exact Keeps.same
    | (refine Keeps.upd ?_; first | exact Keeps.same | apply Keeps.ite | split | (refine Keeps.upd ?_; first | exact Keeps.same))
    | apply Keeps.ite
    | split

theorem applySteer_keeps (s : State) (k : Nat) : Keeps s (applySteer s k) := by
  unfold applySteer
  with_reducible repeat' first
    | exact Keeps.same
    | (refine Keeps.upd ?_; first | exact Keeps.same | apply Keeps.ite | split)

theorem follow_keeps (s : State) (m : MarkerSt) : Keeps s (follow s m) := by
  unfold follow
  with_reducible repeat' first
    | exact Keeps.same
    | (apply Keeps.after; apply raise_keeps)
    | (refine Keeps.upd ?_; first | exact Keeps.same | (apply Keeps.after; apply raise_keeps) | apply Keeps.ite | split | (refine Keeps.upd ?_; first | exact Keeps.same | (apply Keeps.after; apply raise_keeps)))
    | apply Keeps.ite
    | split

theorem phaseState_keeps (s : State) : Keeps s (phaseState s) := by
  unfold phaseState
  with_reducible repeat' first
    | exact Keeps.same
    | (apply Keeps.after; first | apply raise_keeps | apply clearWindow_keeps | apply follow_keeps)
    | (apply Keeps.elim (fun _ => ?_) ?_)
    | (refine Keeps.upd ?_; first | exact Keeps.same | (apply Keeps.after; first | apply raise_keeps | apply clearWindow_keeps | apply follow_keeps) | apply Keeps.ite | split | (refine Keeps.upd ?_; first | exact Keeps.same | (apply Keeps.after; first | apply raise_keeps | apply clearWindow_keeps | apply follow_keeps)))
    | apply Keeps.ite
    | split

theorem phaseCounts_keeps (s : State) : Keeps s (phaseCounts s) := by
  unfold phaseCounts
  exact Keeps.upd Keeps.same

theorem phaseEdge_keeps (s : State) : Keeps s (phaseEdge s) := by
  unfold phaseEdge
  with_reducible repeat' first
    | exact Keeps.same
    | (apply Keeps.after; first | apply takeSamples_keeps | apply noPortx_keeps | apply estimate_keeps | apply steerEdge_keeps | apply phaseState_keeps | apply phaseCounts_keeps)
    | (refine Keeps.upd ?_; first | exact Keeps.same | (apply Keeps.after; first | apply takeSamples_keeps | apply noPortx_keeps | apply estimate_keeps | apply steerEdge_keeps | apply phaseState_keeps | apply phaseCounts_keeps) | apply Keeps.ite | split)
    | apply Keeps.ite
    | split

theorem refSwitch_keeps (s : State) (r : RefIn) (beat : Nat) : Keeps s (refSwitch s r beat) := by
  unfold refSwitch
  with_reducible repeat' first | (apply Keeps.after; apply raiseAt_keeps) | (refine Keeps.upd ?_; exact Keeps.same)

theorem holdoverEdge_keeps (s : State) (hiveOk localOk : Bool) : Keeps s (holdoverEdge s hiveOk localOk) := by
  unfold holdoverEdge
  with_reducible repeat' first
    | exact Keeps.same
    | (apply Keeps.after; first | apply seeRefs_keeps | apply checkRefs_keeps | apply refSwitch_keeps)
    | apply Keeps.ite
    | split

theorem invalidateAll_keeps (s : State) (cause : Nat) : Keeps s (invalidateAll s cause) := by
  unfold invalidateAll
  exact Keeps.upd Keeps.same

theorem markerTake_keeps (s : State) (p : Nat) (pay : List Byte) (a : Arrival) : Keeps s (markerTake s p pay a) := by
  unfold markerTake
  with_reducible repeat' first
    | exact Keeps.same
    | (apply Keeps.after; first | apply raise_keeps | apply invalidateAll_keeps)
    | (refine atEdge_keeps _ _ fun s n => ?_)
    | (apply Keeps.elim (fun _ => ?_) ?_)
    | (refine Keeps.upd ?_; first | exact Keeps.same | (apply Keeps.after; first | apply raise_keeps | apply invalidateAll_keeps) | apply Keeps.ite | split | (refine Keeps.upd ?_; first | exact Keeps.same | (apply Keeps.after; first | apply raise_keeps | apply invalidateAll_keeps)))
    | apply Keeps.ite
    | split

theorem jumpEdge_keeps (s : State) : Keeps s (jumpEdge s) := by
  unfold jumpEdge
  with_reducible repeat' first
    | exact Keeps.same
    | (apply Keeps.after; apply clearWindow_keeps)
    | (refine Keeps.upd ?_; first | exact Keeps.same | (apply Keeps.after; apply clearWindow_keeps) | apply Keeps.ite | split | (refine Keeps.upd ?_; first | exact Keeps.same | (apply Keeps.after; apply clearWindow_keeps)))
    | split

theorem execPortExclusionLimit_keeps (p : PortId) (s : State) : ∃ s', execPortExclusionLimit p s = .next s' ∧ Keeps s s' := by
  refine ⟨_, rfl, ?_⟩
  with_reducible repeat' first | exact Keeps.same | (apply Keeps.after; apply raise_keeps) | split

theorem execSeekTimeout_keeps (s : State) : ∃ s', execSeekTimeout s = .next s' ∧ Keeps s s' := by
  refine ⟨_, rfl, ?_⟩
  with_reducible repeat' first | (apply Keeps.after; apply raise_keeps) | (refine Keeps.upd ?_; exact Keeps.same) | split

theorem execCoarseJump_keeps (s : State) : ∃ s', execCoarseJump s = .next s' ∧ Keeps s s' := by
  refine ⟨_, rfl, ?_⟩
  with_reducible repeat' first
    | exact Keeps.same
    | (apply Keeps.after; first | apply raise_keeps | apply clearWindow_keeps)
    | (refine atEdge_keeps _ _ fun s n => ?_)
    | (refine Keeps.upd ?_; first | exact Keeps.same | (apply Keeps.after; first | apply raise_keeps | apply clearWindow_keeps) | apply Keeps.ite | split | (refine Keeps.upd ?_; first | exact Keeps.same | (apply Keeps.after; first | apply raise_keeps | apply clearWindow_keeps)))
    | apply Keeps.ite
    | split

theorem execParentLost_keeps (s : State) : ∃ s', execParentLost s = .next s' ∧ Keeps s s' := by
  refine ⟨_, rfl, ?_⟩
  with_reducible repeat' first
    | exact Keeps.same
    | (apply Keeps.after; apply raise_keeps)
    | (refine Keeps.upd ?_; first | exact Keeps.same | (apply Keeps.after; apply raise_keeps) | apply Keeps.ite | split)
    | apply Keeps.ite
    | split

theorem execHoldTimeout_keeps (s : State) : ∃ s', execHoldTimeout s = .next s' ∧ Keeps s s' := by
  refine ⟨_, rfl, ?_⟩
  with_reducible repeat' first
    | exact Keeps.same
    | (refine Keeps.upd ?_; first | exact Keeps.same | apply Keeps.ite | split)
    | apply Keeps.ite
    | split

theorem masterLeaves_keeps (s : State) : Keeps s (masterLeaves s) := by
  unfold masterLeaves
  with_reducible repeat' first
    | exact Keeps.same
    | (refine Keeps.upd ?_; first | exact Keeps.same | apply Keeps.ite | split)

theorem masterEnable_keeps (s : State) (on : Bool) : Keeps s (masterEnable s on) := by
  unfold masterEnable
  with_reducible repeat' first
    | exact Keeps.same
    | (apply Keeps.after; apply masterLeaves_keeps)
    | (refine Keeps.upd ?_; first | exact Keeps.same | (apply Keeps.after; apply masterLeaves_keeps) | apply Keeps.ite | split)
    | apply Keeps.ite
    | split

theorem execMasterHoldoverTimeout_keeps (s : State) : ∃ s', execMasterHoldoverTimeout s = .next s' ∧ Keeps s s' := by
  refine ⟨_, rfl, ?_⟩
  with_reducible repeat' first
    | exact Keeps.same
    | (apply Keeps.after; first | apply raise_keeps | apply masterLeaves_keeps)
    | (refine Keeps.upd ?_; first | exact Keeps.same | (apply Keeps.after; first | apply raise_keeps | apply masterLeaves_keeps) | apply Keeps.ite | split)
    | apply Keeps.ite
    | split

theorem execRateLimitExceeded_keeps (s : State) : ∃ s', execRateLimitExceeded s = .next s' ∧ Keeps s s' := by
  refine ⟨_, rfl, ?_⟩
  with_reducible repeat' first | (apply Keeps.after; apply raise_keeps) | (refine Keeps.upd ?_; exact Keeps.same) | split

/- Comb.lean. -/

theorem retirePage_keeps (s : State) (p : Nat) : Keeps s (retirePage s p) := by
  unfold retirePage
  with_reducible repeat' first
    | (apply Keeps.after; first | apply hwState_keeps | apply raise_keeps)
    | (refine Keeps.upd ?_; exact Keeps.same)
    | apply Keeps.ite

theorem listRebuild_keeps (s : State) (p c key : Nat) : Keeps s (listRebuild s p c key) := by
  unfold listRebuild
  with_reducible repeat' first
    | exact Keeps.same
    | (refine Keeps.upd ?_; first | exact Keeps.same | apply Keeps.ite | split | (refine Keeps.upd ?_; first | exact Keeps.same))
    | split

theorem dropShadow_keeps (s : State) (p c : Nat) : Keeps s (dropShadow s p c) := by
  unfold dropShadow
  with_reducible repeat' first
    | exact Keeps.same
    | (apply Keeps.after; apply onCtx_keeps)
    | (refine Keeps.upd ?_; first | exact Keeps.same | (apply Keeps.after; apply onCtx_keeps) | apply Keeps.ite | split | (refine Keeps.upd ?_; first | exact Keeps.same | (apply Keeps.after; apply onCtx_keeps)))
    | apply Keeps.ite
    | split

theorem dropCopy_keeps (s : State) (p : Nat) : Keeps s (dropCopy s p) := by
  unfold dropCopy
  with_reducible repeat' first
    | exact Keeps.same
    | (apply Keeps.after; apply listRebuild_keeps)
    | (apply Keeps.after; apply Keeps.foldl; intro s x)
    | (refine Keeps.upd ?_; first | exact Keeps.same | (apply Keeps.after; apply listRebuild_keeps) | (apply Keeps.after; apply Keeps.foldl; intro s x) | apply Keeps.ite | split | (refine Keeps.upd ?_; first | exact Keeps.same | (apply Keeps.after; apply listRebuild_keeps)))
    | apply Keeps.ite
    | split

theorem poisonPage_keeps (s : State) (p : Nat) : Keeps s (poisonPage s p) := by
  unfold poisonPage
  with_reducible repeat' first
    | exact Keeps.same
    | (apply Keeps.after; first | apply raise_keeps | apply retirePage_keeps | apply listRebuild_keeps | apply dropShadow_keeps | apply dropCopy_keeps)
    | (apply Keeps.after; apply Keeps.forUpto; intro s x)
    | (refine Keeps.upd ?_; first | exact Keeps.same | (apply Keeps.after; first | apply raise_keeps | apply retirePage_keeps | apply listRebuild_keeps | apply dropShadow_keeps | apply dropCopy_keeps) | (apply Keeps.after; apply Keeps.forUpto; intro s x) | apply Keeps.ite | split | (refine Keeps.upd ?_; first | exact Keeps.same | (apply Keeps.after; first | apply raise_keeps | apply retirePage_keeps | apply listRebuild_keeps | apply dropShadow_keeps | apply dropCopy_keeps)))
    | apply Keeps.ite
    | split

theorem poisonRead_keeps (s : State) (p : Nat) : Keeps s (poisonRead s p) := by
  unfold poisonRead
  with_reducible repeat' first | (apply Keeps.after; apply raise_keeps) | (refine Keeps.upd ?_; exact Keeps.same) | split

theorem releaseBank_keeps (s : State) (q pb : Nat) : Keeps s (releaseBank s q pb) := by
  unfold releaseBank
  with_reducible repeat' first
    | exact Keeps.same
    | (apply Keeps.after; apply retirePage_keeps)
    | (apply Keeps.after; apply Keeps.foldl; intro s x)
    | (refine Keeps.upd ?_; first | exact Keeps.same | (apply Keeps.after; apply retirePage_keeps) | (apply Keeps.after; apply Keeps.foldl; intro s x) | apply Keeps.ite | split)

theorem zeroPages_sound (s : State) (q pb : Nat) (keep : Nat → Bool) : Sound s (zeroPages s q pb keep) :=
  ⟨rfl, rfl, id, fun h => SMap.filter_wf _ _ _ h, id, id, id⟩

theorem reserveShadow_keeps (s : State) (c : Nat) : Keeps s (reserveShadow s c) := by
  unfold reserveShadow
  with_reducible repeat' first
    | exact Keeps.same
    | (apply Keeps.after; apply onCtx_keeps)
    | (refine Keeps.upd ?_; first | exact Keeps.same | (apply Keeps.after; apply onCtx_keeps) | apply Keeps.ite | split | (refine Keeps.upd ?_; first | exact Keeps.same | (apply Keeps.after; apply onCtx_keeps)))
    | split

theorem reserveAll_keeps (s : State) : Keeps s (reserveAll s) := by
  unfold reserveAll
  with_reducible repeat' first
    | exact Keeps.same
    | (apply Keeps.after; apply reserveShadow_keeps)
    | (apply Keeps.after; apply Keeps.forUpto; intro s x)
    | split

theorem execZeroFillComplete_sound (q : Quad) (bank : Nat) (s : State) : ∃ s', execZeroFillComplete q bank s = .next s' ∧ Sound s s' := by
  refine ⟨_, rfl, ?_⟩
  with_reducible repeat' first
    | exact Sound.same
    | (apply Sound.after; first | apply zeroPages_sound | (apply Keeps.sound; apply reserveAll_keeps))
    | (refine Sound.upd ?_; first | exact Sound.same | (apply Sound.after; first | apply zeroPages_sound | (apply Keeps.sound; apply reserveAll_keeps)) | apply Sound.ite | split)
    | apply Sound.ite
    | split

theorem onRebuild_keeps (s : State) (p : Nat) (f : Rebuild → Rebuild) : Keeps s (onRebuild s p f) := by
  unfold onRebuild
  exact Keeps.upd Keeps.same

theorem dropRebuild_keeps (s : State) (p : Nat) : Keeps s (dropRebuild s p) := by
  unfold dropRebuild
  exact Keeps.upd Keeps.same

theorem writeBoth_sound (s : State) (page : Nat) (bytes : List Byte) : Sound s (writeBoth s page bytes) := by
  unfold writeBoth
  with_reducible repeat' first
    | exact Sound.same
    | (apply Sound.after; apply combWrite_sound)
    | (refine Sound.upd ?_; first | exact Sound.same | (apply Sound.after; apply combWrite_sound) | apply Sound.ite | split)
    | split

theorem pageRebuilt_sound (s : State) (page : Nat) (clean : Bool) (r : Rebuild) (bytes : List Byte) : Sound s (pageRebuilt s page clean r bytes) := by
  unfold pageRebuilt
  with_reducible repeat' first
    | exact Sound.same
    | (apply Sound.after; first | (apply Keeps.sound; apply raise_keeps) | (apply Keeps.sound; apply onRebuild_keeps) | (apply Keeps.sound; apply dropRebuild_keeps) | apply writeBoth_sound)
    | (refine Sound.upd ?_; first | exact Sound.same | (apply Sound.after; first | (apply Keeps.sound; apply raise_keeps) | (apply Keeps.sound; apply onRebuild_keeps) | (apply Keeps.sound; apply dropRebuild_keeps) | apply writeBoth_sound) | apply Sound.ite | split | (refine Sound.upd ?_; first | exact Sound.same | (apply Sound.after; first | (apply Keeps.sound; apply raise_keeps) | (apply Keeps.sound; apply onRebuild_keeps) | (apply Keeps.sound; apply dropRebuild_keeps) | apply writeBoth_sound)))
    | apply Sound.ite
    | split

theorem execPageRebuildComplete_sound (page : Nat) (clean : Bool) (s : State) : ∃ s', execPageRebuildComplete page clean s = .next s' ∧ Sound s s' := by
  refine ⟨_, rfl, ?_⟩
  with_reducible repeat' first | exact Sound.same | (apply Sound.after; apply pageRebuilt_sound) | split

theorem foldl_putAt_wf (l : List (Nat × Byte)) (m : SMap Byte) (h : SMap.wf m 0#8 = true) :
    SMap.wf (l.foldl (fun (m : SMap Byte) e => m.putAt e.1 e.2 0#8) m) 0#8 = true := by
  induction l generalizing m with
  | nil => exact h
  | cons e r ih => exact ih _ (SMap.putAt_wf m e.1 e.2 0#8 h)

theorem copyBank_sound (s : State) (q src dst : Nat) : Sound s (copyBank s q src dst) :=
  ⟨rfl, rfl, id, fun hc => foldl_putAt_wf _ _ (SMap.filter_wf _ _ _ hc), id, id, id⟩

theorem bankCopied_sound (s : State) (page c key pb : Nat) (bytes : List Byte) : Sound s (bankCopied s page c key pb bytes) := by
  unfold bankCopied
  with_reducible repeat' first
    | exact Sound.same
    | (apply Sound.after; first | apply combWrite_sound | (apply Keeps.sound; apply dropRebuild_keeps) | apply copyBank_sound)
    | (refine Sound.upd ?_; first | exact Sound.same | (apply Sound.after; first | apply combWrite_sound | (apply Keeps.sound; apply dropRebuild_keeps) | apply copyBank_sound) | apply Sound.ite | split)
    | apply Sound.ite
    | split

theorem execBankCopyComplete_sound (page : Nat) (s : State) : ∃ s', execBankCopyComplete page s = .next s' ∧ Sound s s' := by
  refine ⟨_, rfl, ?_⟩
  with_reducible repeat' first | exact Sound.same | (apply Sound.after; apply bankCopied_sound) | split

theorem execRebuildWaitLimit_keeps (page : Nat) (s : State) : ∃ s', execRebuildWaitLimit page s = .next s' ∧ Keeps s s' := by
  refine ⟨_, rfl, ?_⟩
  with_reducible repeat' first
    | exact Keeps.same
    | (apply Keeps.after; first | apply raise_keeps | apply onRebuild_keeps)
    | split

theorem mapSwap_keeps (s : State) (e : Nat × Nat × Nat × Nat) : Keeps s (mapSwap s e) := by
  unfold mapSwap
  with_reducible repeat' first
    | exact Keeps.same
    | (apply Keeps.after; first | apply onCtx_keeps | apply listRebuild_keeps | apply releaseBank_keeps)
    | (apply Keeps.after; apply Keeps.foldl; intro s x)
    | (refine Keeps.upd ?_; first | exact Keeps.same | (apply Keeps.after; first | apply onCtx_keeps | apply listRebuild_keeps | apply releaseBank_keeps) | (apply Keeps.after; apply Keeps.foldl; intro s x) | apply Keeps.ite | split | (refine Keeps.upd ?_; first | exact Keeps.same | (apply Keeps.after; first | apply onCtx_keeps | apply listRebuild_keeps | apply releaseBank_keeps)))
    | apply Keeps.ite
    | split

theorem combEdge_keeps (s : State) : Keeps s (combEdge s) := by
  unfold combEdge
  with_reducible repeat' first
    | exact Keeps.same
    | (apply Keeps.after; first | apply retirePage_keeps | apply mapSwap_keeps)
    | (apply Keeps.after; apply Keeps.foldl; intro s x)
    | (refine Keeps.upd ?_; first | exact Keeps.same | (apply Keeps.after; first | apply retirePage_keeps | apply mapSwap_keeps) | (apply Keeps.after; apply Keeps.foldl; intro s x) | apply Keeps.ite | split | (refine Keeps.upd ?_; first | exact Keeps.same | (apply Keeps.after; first | apply retirePage_keeps | apply mapSwap_keeps)))
    | apply Keeps.ite
    | split

theorem installTable_keeps (s : State) : Keeps s (installTable s) := by
  unfold installTable
  exact Keeps.upd Keeps.same

theorem swapPhase_keeps (s : State) (c : Nat) : Keeps s (swapPhase s c) := by
  unfold swapPhase
  with_reducible repeat' first
    | (apply Keeps.after; first | apply onCtx_keeps | apply releaseBank_keeps | apply reserveShadow_keeps)
    | (apply Keeps.after; apply Keeps.foldl; intro s x)
    | (refine Keeps.upd ?_; first | exact Keeps.same | split)

theorem abandonPhases_keeps (s : State) (c : Nat) : Keeps s (abandonPhases s c) := by
  unfold abandonPhases
  with_reducible repeat' first
    | (apply Keeps.after; apply onCtx_keeps)
    | (apply Keeps.after; apply Keeps.foldl; intro s x)
    | (refine Keeps.upd ?_; first | exact Keeps.same | (apply Keeps.after; apply onCtx_keeps))
    | split

/- Quad.lean. -/

theorem faultBatch_keeps (s : State) (c adm : Nat) (policy : Bool) (f : InstFaults → InstFaults) : Keeps s (faultBatch s c adm policy f) := by
  unfold faultBatch
  with_reducible repeat' first | exact Keeps.same | (apply Keeps.after; apply onCtx_keeps)

theorem poisonInst_keeps (s : State) (c adm cause : Nat) : Keeps s (poisonInst s c adm cause) := by
  unfold poisonInst
  with_reducible repeat' first | exact Keeps.same | (apply Keeps.after; apply faultBatch_keeps)

theorem invalidInst_keeps (s : State) (c adm cause : Nat) (policy : Bool) : Keeps s (invalidInst s c adm cause policy) := by
  unfold invalidInst
  with_reducible repeat' first | exact Keeps.same | (apply Keeps.after; apply faultBatch_keeps)

theorem stopWork_keeps (s : State) (q c adm : Nat) : Keeps s (stopWork s q c adm) := by
  unfold stopWork
  with_reducible repeat' first
    | exact Keeps.same
    | (apply Keeps.after; apply onQuad_keeps)
    | (refine Keeps.upd ?_; first | exact Keeps.same | (apply Keeps.after; apply onQuad_keeps) | apply Keeps.ite | split)
    | apply Keeps.ite
    | split

theorem onThread_keeps (s : State) (k : Nat) (f : Thread → Thread) : Keeps s (onThread s k f) := by
  unfold onThread
  exact Keeps.upd Keeps.same

theorem armThread_keeps (s : State) (q c adm : Nat) (d : FeedDesc) : Keeps s (armThread s q c adm d) := by
  unfold armThread
  with_reducible repeat' first
    | exact Keeps.same
    | (apply Keeps.after; first | apply onQuad_keeps | apply onThread_keeps)
    | (refine Keeps.upd ?_; first | exact Keeps.same | (apply Keeps.after; first | apply onQuad_keeps | apply onThread_keeps) | apply Keeps.ite | split | (refine Keeps.upd ?_; first | exact Keeps.same | (apply Keeps.after; first | apply onQuad_keeps | apply onThread_keeps)))
    | apply Keeps.ite
    | split

theorem armDue_keeps (s : State) (q : Nat) : Keeps s (armDue s q) := by
  unfold armDue
  with_reducible repeat' first
    | exact Keeps.same
    | (apply Keeps.after; first | apply onQuad_keeps | apply armThread_keeps)
    | (apply Keeps.after; apply Keeps.foldl; intro s x)
    | split

theorem advanceAll_keeps (s : State) (q : Nat) : Keeps s (advanceAll s q) := by
  unfold advanceAll
  with_reducible repeat' first
    | exact Keeps.same
    | (apply Keeps.after; first | apply onQuad_keeps | apply raise_keeps | apply armDue_keeps)
    | (refine Keeps.upd ?_; first | exact Keeps.same | (apply Keeps.after; first | apply onQuad_keeps | apply raise_keeps | apply armDue_keeps) | apply Keeps.ite | split | (refine Keeps.upd ?_; first | exact Keeps.same | (apply Keeps.after; first | apply onQuad_keeps | apply raise_keeps | apply armDue_keeps)))
    | apply Keeps.ite
    | split

theorem popOp_keeps (s : State) (q : Nat) : Keeps s (popOp s q) := by
  unfold popOp
  with_reducible repeat' first | exact Keeps.same | (apply Keeps.after; first | apply onQuad_keeps | apply advanceAll_keeps)

theorem gatherFault_keeps (s : State) (q : Nat) : Keeps s (gatherFault s q) := by
  unfold gatherFault
  with_reducible repeat' first | exact Keeps.same | (apply Keeps.after; first | apply onQuad_keeps | apply raise_keeps)

theorem tryGather_keeps (s : State) (q i : Nat) : Keeps s (tryGather s q i) := by
  unfold tryGather
  with_reducible repeat' first
    | exact Keeps.same
    | (apply Keeps.after; first | apply onQuad_keeps | apply gatherFault_keeps)
    | apply Keeps.ite
    | split

theorem deliver_keeps (s : State) (k : Nat) : Keeps s (deliver s k) := by
  unfold deliver
  with_reducible repeat' first
    | exact Keeps.same
    | (apply Keeps.after; first | apply onQuad_keeps | apply tryGather_keeps)
    | (apply Keeps.after; apply Keeps.forUpto; intro s x)
    | (refine Keeps.upd ?_; first | exact Keeps.same | (apply Keeps.after; first | apply onQuad_keeps | apply tryGather_keeps) | (apply Keeps.after; apply Keeps.forUpto; intro s x) | apply Keeps.ite | split | (refine Keeps.upd ?_; first | exact Keeps.same | (apply Keeps.after; first | apply onQuad_keeps | apply tryGather_keeps)))
    | apply Keeps.ite
    | split

theorem threadEnded_keeps (s : State) (k : Nat) : Keeps s (threadEnded s k) := by
  unfold threadEnded
  with_reducible repeat' first
    | exact Keeps.same
    | (apply Keeps.after; first | apply onThread_keeps | apply armThread_keeps | apply advanceAll_keeps)
    | (refine Keeps.upd ?_; first | exact Keeps.same | (apply Keeps.after; first | apply onThread_keeps | apply armThread_keeps | apply advanceAll_keeps) | apply Keeps.ite | split | (refine Keeps.upd ?_; first | exact Keeps.same | (apply Keeps.after; first | apply onThread_keeps | apply armThread_keeps | apply advanceAll_keeps)))
    | split

theorem handOut_keeps (s : State) (q i : Nat) (bytes : List Byte) : Keeps s (handOut s q i bytes) := by
  unfold handOut
  with_reducible repeat' first
    | exact Keeps.same
    | (apply Keeps.after; first | apply onQuad_keeps | apply onThread_keeps)
    | apply Keeps.ite

end Sys2Proof.Machine
end

