-- ==== Sys2Proof/Laws/FrameCompute.lean ====
section
/-! SUPPORT. What each operation of Join, Fused, Streams, Xmem, Wake leaves alone, or keeps. -/

namespace Sys2Proof.Machine

set_option Elab.async false

open Sys2Proof

/- Join.lean. -/

theorem onActive_keeps (s : State) (q : Nat) (f : AccSet → AccSet) : Keeps s (onActive s q f) := by
  unfold onActive
  with_reducible repeat' first | exact Keeps.same | (apply Keeps.after; apply onQuad_keeps)

theorem poisonReads_keeps (s : State) (c a bytes : Nat) : Keeps s (poisonReads s c a bytes) := by
  unfold poisonReads
  with_reducible repeat' first
    | exact Keeps.same
    | (apply Keeps.after; apply poisonRead_keeps)
    | (apply Keeps.after; apply Keeps.foldl; intro s x)
    | apply Keeps.ite
    | split

theorem weightErrors_keeps (s : State) (t : Todo) (d : PassDesc) (corrected : Nat) (bad : List Nat) : Keeps s (weightErrors s t d corrected bad) := by
  unfold weightErrors
  with_reducible repeat' first
    | exact Keeps.same
    | (apply Keeps.after; apply poisonPage_keeps)
    | (apply Keeps.after; apply Keeps.foldl; intro s x)
    | (refine Keeps.upd ?_; first | exact Keeps.same | (apply Keeps.after; apply poisonPage_keeps) | (apply Keeps.after; apply Keeps.foldl; intro s x) | apply Keeps.ite | split)

theorem passStart_keeps (s : State) (q corrected : Nat) (bad : List Nat) : Keeps s (passStart s q corrected bad) := by
  unfold passStart
  with_reducible repeat' first
    | exact Keeps.same
    | (apply Keeps.after; first | apply onQuad_keeps | apply raise_keeps | apply poisonInst_keeps | apply invalidInst_keeps | apply onActive_keeps | apply poisonReads_keeps | apply weightErrors_keeps)
    | (apply Keeps.after; apply Keeps.foldl; intro s x)
    | (apply Keeps.after; apply Keeps.forUpto; intro s x)
    | (refine Keeps.upd ?_; first | exact Keeps.same | (apply Keeps.after; first | apply onQuad_keeps | apply raise_keeps | apply poisonInst_keeps | apply invalidInst_keeps | apply onActive_keeps | apply poisonReads_keeps | apply weightErrors_keeps) | (apply Keeps.after; apply Keeps.foldl; intro s x) | (apply Keeps.after; apply Keeps.forUpto; intro s x) | apply Keeps.ite | split | (refine Keeps.upd ?_; first | exact Keeps.same | (apply Keeps.after; first | apply onQuad_keeps | apply raise_keeps | apply poisonInst_keeps | apply invalidInst_keeps | apply onActive_keeps | apply poisonReads_keeps | apply weightErrors_keeps)))
    | apply Keeps.ite
    | split

theorem execPassStart_keeps (x : PassRead) (s : State) : ∃ s', execPassStart x s = .next s' ∧ Keeps s s' := by
  refine ⟨_, rfl, ?_⟩
  with_reducible repeat' first | exact Keeps.same | (apply Keeps.after; apply passStart_keeps)

theorem closeTile_keeps (s : State) (q : Nat) (a : AccSet) : Keeps s (closeTile s q a) := by
  unfold closeTile
  with_reducible repeat' first
    | exact Keeps.same
    | (apply Keeps.after; first | apply onQuad_keeps | apply raise_keeps)
    | (refine Keeps.upd ?_; first | exact Keeps.same | (apply Keeps.after; first | apply onQuad_keeps | apply raise_keeps) | apply Keeps.ite | split)
    | apply Keeps.ite
    | split

theorem passComplete_keeps (s : State) (q : Nat) : Keeps s (passComplete s q) := by
  unfold passComplete
  with_reducible repeat' first
    | exact Keeps.same
    | (apply Keeps.after; first | apply onQuad_keeps | apply popOp_keeps | apply onActive_keeps | apply closeTile_keeps)
    | (refine Keeps.upd ?_; first | exact Keeps.same | (apply Keeps.after; first | apply onQuad_keeps | apply popOp_keeps | apply onActive_keeps | apply closeTile_keeps) | apply Keeps.ite | split | (refine Keeps.upd ?_; first | exact Keeps.same | (apply Keeps.after; first | apply onQuad_keeps | apply popOp_keeps | apply onActive_keeps | apply closeTile_keeps)))
    | apply Keeps.ite
    | split

theorem execPassComplete_keeps (q : Quad) (s : State) : ∃ s', execPassComplete q s = .next s' ∧ Keeps s s' := by
  refine ⟨_, rfl, ?_⟩
  with_reducible repeat' first | exact Keeps.same | (apply Keeps.after; apply passComplete_keeps)

theorem setSwap_keeps (s : State) (q stall : Nat) : Keeps s (setSwap s q stall) := by
  unfold setSwap
  with_reducible repeat' first | exact Keeps.same | (apply Keeps.after; apply onQuad_keeps) | apply Keeps.ite

theorem execAccumulatorSetSwap_keeps (q : Quad) (stall : Nat) (s : State) : ∃ s', execAccumulatorSetSwap q stall s = .next s' ∧ Keeps s s' := by
  refine ⟨_, rfl, ?_⟩
  with_reducible repeat' first | exact Keeps.same | (apply Keeps.after; apply setSwap_keeps)

theorem contextSave_sound (s : State) (q : Nat) : Sound s (contextSave s q) := by
  unfold contextSave
  with_reducible repeat' first
    | exact Sound.same
    | (apply Sound.after; first | (apply Keeps.sound; apply onQuad_keeps) | (apply Keeps.sound; apply popOp_keeps) | (apply Keeps.sound; apply handOut_keeps))
    | (refine Sound.upd ?_; first | exact Sound.same | (apply Sound.after; first | (apply Keeps.sound; apply onQuad_keeps) | (apply Keeps.sound; apply popOp_keeps) | (apply Keeps.sound; apply handOut_keeps)) | apply Sound.ite | split | (refine Sound.upd ?_; first | exact Sound.same | (apply Sound.after; first | (apply Keeps.sound; apply onQuad_keeps) | (apply Keeps.sound; apply popOp_keeps) | (apply Keeps.sound; apply handOut_keeps))))
    | apply Sound.ite
    | split

theorem execContextSave_sound (q : Quad) (s : State) : ∃ s', execContextSave q s = .next s' ∧ Sound s s' := by
  refine ⟨_, rfl, ?_⟩
  with_reducible repeat' first | exact Sound.same | (apply Sound.after; apply contextSave_sound)

theorem mismatch_keeps (s : State) (q : Nat) (t : Todo) : Keeps s (mismatch s q t) := by
  unfold mismatch
  with_reducible repeat' first
    | exact Keeps.same
    | (apply Keeps.after; first | apply onQuad_keeps | apply raise_keeps | apply onActive_keeps)
    | (refine Keeps.upd ?_; first | exact Keeps.same | (apply Keeps.after; first | apply onQuad_keeps | apply raise_keeps | apply onActive_keeps) | apply Keeps.ite | split | (refine Keeps.upd ?_; first | exact Keeps.same | (apply Keeps.after; first | apply onQuad_keeps | apply raise_keeps | apply onActive_keeps)))

theorem contextRestore_keeps (s : State) (q : Nat) : Keeps s (contextRestore s q) := by
  unfold contextRestore
  with_reducible repeat' first
    | exact Keeps.same
    | (apply Keeps.after; first | apply onQuad_keeps | apply popOp_keeps | apply onActive_keeps | apply mismatch_keeps)
    | (refine Keeps.upd ?_; first | exact Keeps.same | (apply Keeps.after; first | apply onQuad_keeps | apply popOp_keeps | apply onActive_keeps | apply mismatch_keeps) | apply Keeps.ite | split | (refine Keeps.upd ?_; first | exact Keeps.same | (apply Keeps.after; first | apply onQuad_keeps | apply popOp_keeps | apply onActive_keeps | apply mismatch_keeps)))
    | apply Keeps.ite
    | split

theorem execContextRestore_keeps (q : Quad) (s : State) : ∃ s', execContextRestore q s = .next s' ∧ Keeps s s' := by
  refine ⟨_, rfl, ?_⟩
  with_reducible repeat' first | exact Keeps.same | (apply Keeps.after; apply contextRestore_keeps)

theorem tileRecordAdd_keeps (s : State) (q : Nat) : Keeps s (tileRecordAdd s q) := by
  unfold tileRecordAdd
  with_reducible repeat' first
    | exact Keeps.same
    | (apply Keeps.after; first | apply onQuad_keeps | apply raise_keeps | apply popOp_keeps | apply onActive_keeps)
    | (refine Keeps.upd ?_; first | exact Keeps.same | (apply Keeps.after; first | apply onQuad_keeps | apply raise_keeps | apply popOp_keeps | apply onActive_keeps) | apply Keeps.ite | split | (refine Keeps.upd ?_; first | exact Keeps.same | (apply Keeps.after; first | apply onQuad_keeps | apply raise_keeps | apply popOp_keeps | apply onActive_keeps)))
    | apply Keeps.ite
    | split

theorem execTileRecordAdd_keeps (q : Quad) (s : State) : ∃ s', execTileRecordAdd q s = .next s' ∧ Keeps s s' := by
  refine ⟨_, rfl, ?_⟩
  with_reducible repeat' first | exact Keeps.same | (apply Keeps.after; apply tileRecordAdd_keeps)

/- Fused.lean. -/

theorem tileAway_keeps (s : State) (q : Nat) (a : AccSet) (d : StageDesc) (o : TileOut) : Keeps s (tileAway s q a d o) := by
  unfold tileAway
  with_reducible repeat' first
    | exact Keeps.same
    | (apply Keeps.after; first | apply onQuad_keeps | apply handOut_keeps)
    | (refine Keeps.upd ?_; first | exact Keeps.same | (apply Keeps.after; first | apply onQuad_keeps | apply handOut_keeps) | apply Keeps.ite | split | (refine Keeps.upd ?_; first | exact Keeps.same | (apply Keeps.after; first | apply onQuad_keeps | apply handOut_keeps)))
    | apply Keeps.ite
    | split

theorem epilogueComplete_keeps (s : State) (q : Nat) : Keeps s (epilogueComplete s q) := by
  unfold epilogueComplete
  with_reducible repeat' first
    | exact Keeps.same
    | (apply Keeps.after; first | apply onQuad_keeps | apply raise_keeps | apply poisonInst_keeps | apply poisonReads_keeps | apply tileAway_keeps)
    | (refine Keeps.upd ?_; first | exact Keeps.same | (apply Keeps.after; first | apply onQuad_keeps | apply raise_keeps | apply poisonInst_keeps | apply poisonReads_keeps | apply tileAway_keeps) | apply Keeps.ite | split)
    | apply Keeps.ite
    | split

theorem execEpilogueComplete_keeps (q : Quad) (s : State) : ∃ s', execEpilogueComplete q s = .next s' ∧ Keeps s s' := by
  refine ⟨_, rfl, ?_⟩
  with_reducible repeat' first
    | exact Keeps.same
    | (apply Keeps.after; apply epilogueComplete_keeps)
    | (apply Keeps.stepped; focus ((repeat' first | exact Keeps.same | (apply Keeps.after; apply epilogueComplete_keeps)); done))
    | apply Keeps.ite

/- Streams.lean. -/

theorem streamPoison_keeps (s : State) (q i : Nat) : Keeps s (streamPoison s q i) := by
  unfold streamPoison
  with_reducible repeat' first
    | exact Keeps.same
    | (apply Keeps.after; first | apply onQuad_keeps | apply onStream_keeps | apply raise_keeps)

theorem streamNonfin_keeps (s : State) (q i : Nat) : Keeps s (streamNonfin s q i) := by
  unfold streamNonfin
  with_reducible repeat' first
    | exact Keeps.same
    | (apply Keeps.after; first | apply onQuad_keeps | apply onStream_keeps | apply raise_keeps)
    | (refine Keeps.upd ?_; first | exact Keeps.same | (apply Keeps.after; first | apply onQuad_keeps | apply onStream_keeps | apply raise_keeps) | apply Keeps.ite | split | (refine Keeps.upd ?_; first | exact Keeps.same | (apply Keeps.after; first | apply onQuad_keeps | apply onStream_keeps | apply raise_keeps)))

theorem chunkGate_keeps (s : State) (q : Nat) : Keeps s (chunkGate s q) := by
  unfold chunkGate
  with_reducible repeat' first
    | exact Keeps.same
    | (apply Keeps.after; first | apply onQuad_keeps | apply onStream_keeps | apply popOp_keeps | apply poisonReads_keeps | apply streamPoison_keeps)
    | (refine Keeps.upd ?_; first | exact Keeps.same | (apply Keeps.after; first | apply onQuad_keeps | apply onStream_keeps | apply popOp_keeps | apply poisonReads_keeps | apply streamPoison_keeps) | apply Keeps.ite | split | (refine Keeps.upd ?_; first | exact Keeps.same | (apply Keeps.after; first | apply onQuad_keeps | apply onStream_keeps | apply popOp_keeps | apply poisonReads_keeps | apply streamPoison_keeps)))
    | apply Keeps.ite
    | split

theorem execChunkGate_keeps (q : Quad) (s : State) : ∃ s', execChunkGate q s = .next s' ∧ Keeps s s' := by
  refine ⟨_, rfl, ?_⟩
  with_reducible repeat' first | exact Keeps.same | (apply Keeps.after; apply chunkGate_keeps)

theorem chunkLevel_keeps (s : State) (q : Nat) : Keeps s (chunkLevel s q) := by
  unfold chunkLevel
  with_reducible repeat' first
    | exact Keeps.same
    | (apply Keeps.after; first | apply onQuad_keeps | apply popOp_keeps)
    | apply Keeps.ite
    | split

theorem execChunkLevel_keeps (q : Quad) (s : State) : ∃ s', execChunkLevel q s = .next s' ∧ Keeps s s' := by
  refine ⟨_, rfl, ?_⟩
  with_reducible repeat' first | exact Keeps.same | (apply Keeps.after; apply chunkLevel_keeps)

theorem chunkLoad_keeps (s : State) (q : Nat) : Keeps s (chunkLoad s q) := by
  unfold chunkLoad
  with_reducible repeat' first
    | exact Keeps.same
    | (apply Keeps.after; first | apply onQuad_keeps | apply popOp_keeps | apply streamPoison_keeps)
    | split

theorem execChunkLoad_keeps (q : Quad) (s : State) : ∃ s', execChunkLoad q s = .next s' ∧ Keeps s s' := by
  refine ⟨_, rfl, ?_⟩
  with_reducible repeat' first | exact Keeps.same | (apply Keeps.after; apply chunkLoad_keeps)

theorem chunkExpand_keeps (s : State) (q : Nat) : Keeps s (chunkExpand s q) := by
  unfold chunkExpand
  with_reducible repeat' first
    | exact Keeps.same
    | (apply Keeps.after; first | apply onQuad_keeps | apply popOp_keeps | apply streamNonfin_keeps)
    | (refine Keeps.upd ?_; first | exact Keeps.same | (apply Keeps.after; first | apply onQuad_keeps | apply popOp_keeps | apply streamNonfin_keeps) | apply Keeps.ite | split | (refine Keeps.upd ?_; first | exact Keeps.same | (apply Keeps.after; first | apply onQuad_keeps | apply popOp_keeps | apply streamNonfin_keeps)))
    | apply Keeps.ite
    | split

theorem execChunkExpand_keeps (q : Quad) (s : State) : ∃ s', execChunkExpand q s = .next s' ∧ Keeps s s' := by
  refine ⟨_, rfl, ?_⟩
  with_reducible repeat' first | exact Keeps.same | (apply Keeps.after; apply chunkExpand_keeps)

theorem yTile_keeps (s : State) (e : StreamEnt) (r : ChunkRun) (k : Nat) : Keeps s (yTile s e r k).2 := by
  unfold yTile
  with_reducible repeat' first | exact Keeps.same | (apply Keeps.after; apply takeFree_keeps)

theorem yTiles_keeps (s : State) (e : StreamEnt) (r : ChunkRun) : Keeps s (yTiles s e r).2 :=
  Keeps.foldl2 _ _ ([], s) fun p x => yTile_keeps p.2 e r x

theorem chunkReadout_sound (s : State) (q : Nat) : Sound s (chunkReadout s q) := by
  unfold chunkReadout
  with_reducible repeat' first
    | exact Sound.same
    | (apply Sound.after; first | (apply Keeps.sound; apply onQuad_keeps) | (apply Keeps.sound; apply poisonInst_keeps) | (apply Keeps.sound; apply popOp_keeps) | (apply Keeps.sound; apply handOut_keeps) | (apply Keeps.sound; apply yTiles_keeps))
    | split

theorem execChunkReadout_sound (q : Quad) (s : State) : ∃ s', execChunkReadout q s = .next s' ∧ Sound s s' := by
  refine ⟨_, rfl, ?_⟩
  with_reducible repeat' first | exact Sound.same | (apply Sound.after; apply chunkReadout_sound)

theorem freeBlock_keeps (s : State) : Keeps s (freeBlock s).2 :=
  Keeps.foldl2 _ _ ([], s) fun p _ => takeFree_keeps p.2 40

theorem blkBytes_keeps (s : State) (b : BlkOut) : Keeps s (blkBytes s b).2 := by
  unfold blkBytes
  with_reducible repeat' first | exact Keeps.same | (apply Keeps.after; apply freeBlock_keeps) | split

theorem streamApply_keeps (s : State) (i : Nat) : Keeps s (streamApply s i) := by
  unfold streamApply
  with_reducible repeat' first | exact Keeps.same | (apply Keeps.after; apply onStream_keeps) | split

theorem blksBytes_keeps (s : State) (blks : List BlkOut) : Keeps s (blksBytes s blks).2 :=
  Keeps.foldl2 _ _ ([], s) fun p x => blkBytes_keeps p.2 x

theorem chunkStore_sound (s : State) (q : Nat) : Sound s (chunkStore s q) := by
  unfold chunkStore
  with_reducible repeat' first
    | exact Sound.same
    | (apply Sound.after; first | (apply Keeps.sound; apply onQuad_keeps) | (apply Keeps.sound; apply onStream_keeps) | apply xmWrite_sound | (apply Keeps.sound; apply popOp_keeps) | (apply Keeps.sound; apply streamNonfin_keeps) | (apply Keeps.sound; apply streamApply_keeps) | (apply Keeps.sound; apply blksBytes_keeps))
    | (refine Sound.upd ?_; first | exact Sound.same | (apply Sound.after; first | (apply Keeps.sound; apply onQuad_keeps) | (apply Keeps.sound; apply onStream_keeps) | apply xmWrite_sound | (apply Keeps.sound; apply popOp_keeps) | (apply Keeps.sound; apply streamNonfin_keeps) | (apply Keeps.sound; apply streamApply_keeps) | (apply Keeps.sound; apply blksBytes_keeps)) | apply Sound.ite | split | (refine Sound.upd ?_; first | exact Sound.same | (apply Sound.after; first | (apply Keeps.sound; apply onQuad_keeps) | (apply Keeps.sound; apply onStream_keeps) | apply xmWrite_sound | (apply Keeps.sound; apply popOp_keeps) | (apply Keeps.sound; apply streamNonfin_keeps) | (apply Keeps.sound; apply streamApply_keeps) | (apply Keeps.sound; apply blksBytes_keeps))))
    | apply Sound.ite
    | split

theorem execChunkStore_sound (q : Quad) (s : State) : ∃ s', execChunkStore q s = .next s' ∧ Sound s s' := by
  refine ⟨_, rfl, ?_⟩
  with_reducible repeat' first | exact Sound.same | (apply Sound.after; apply chunkStore_sound)

theorem chunkSkip_keeps (s : State) (q : Nat) : Keeps s (chunkSkip s q) := by
  unfold chunkSkip
  with_reducible repeat' first
    | exact Keeps.same
    | (apply Keeps.after; first | apply onQuad_keeps | apply raise_keeps | apply invalidInst_keeps | apply popOp_keeps)
    | (refine Keeps.upd ?_; first | exact Keeps.same | (apply Keeps.after; first | apply onQuad_keeps | apply raise_keeps | apply invalidInst_keeps | apply popOp_keeps) | apply Keeps.ite | split | (refine Keeps.upd ?_; first | exact Keeps.same | (apply Keeps.after; first | apply onQuad_keeps | apply raise_keeps | apply invalidInst_keeps | apply popOp_keeps)))
    | apply Keeps.ite
    | split

theorem execChunkSkip_keeps (q : Quad) (s : State) : ∃ s', execChunkSkip q s = .next s' ∧ Keeps s s' := by
  refine ⟨_, rfl, ?_⟩
  with_reducible repeat' first | exact Keeps.same | (apply Keeps.after; apply chunkSkip_keeps)

theorem execStreamCtlApply_keeps (entry : Fin 256) (s : State) : ∃ s', execStreamCtlApply entry s = .next s' ∧ Keeps s s' := by
  refine ⟨_, rfl, ?_⟩
  with_reducible repeat' first | exact Keeps.same | (apply Keeps.after; apply streamApply_keeps) | split

/- Xmem.lean. -/

theorem doFree_keeps (s : State) (ref : Nat) : Keeps s (doFree s ref) := by
  unfold doFree
  with_reducible repeat' first
    | exact Keeps.same
    | (apply Keeps.after; first | apply onCtx_keeps | apply onBl_keeps)
    | apply Keeps.ite

theorem rejectFree_keeps (s : State) (ref : Nat) (j : FreeJudge) : Keeps s (rejectFree s ref j) := by
  unfold rejectFree
  with_reducible repeat' first | (apply Keeps.after; apply raise_keeps) | (refine Keeps.upd ?_; exact Keeps.same) | split

theorem ledgerFault_keeps (s : State) (c adm : Nat) : Keeps s (ledgerFault s c adm) := by
  unfold ledgerFault
  with_reducible repeat' first | exact Keeps.same | (apply Keeps.after; first | apply raise_keeps | apply invalidInst_keeps)

theorem schedFree_sound (s : State) (c adm ref : Nat) : Sound s (schedFree s c adm ref) := by
  unfold schedFree
  with_reducible repeat' first
    | exact Sound.same
    | (apply Sound.after; first | apply jKeeper_sound | (apply Keeps.sound; apply doFree_keeps) | (apply Keeps.sound; apply rejectFree_keeps) | (apply Keeps.sound; apply ledgerFault_keeps))
    | split

theorem scheduleFree_sound (s : State) (q : Nat) : Sound s (scheduleFree s q) := by
  unfold scheduleFree
  with_reducible repeat' first
    | exact Sound.same
    | (apply Sound.after; first | (apply Keeps.sound; apply popOp_keeps) | apply schedFree_sound)
    | (refine Sound.upd ?_; first | exact Sound.same | (apply Sound.after; first | (apply Keeps.sound; apply popOp_keeps) | apply schedFree_sound) | apply Sound.ite | split | (refine Sound.upd ?_; first | exact Sound.same | (apply Sound.after; first | (apply Keeps.sound; apply popOp_keeps) | apply schedFree_sound)))
    | split

theorem execScheduleFree_sound (q : Quad) (s : State) : ∃ s', execScheduleFree q s = .next s' ∧ Sound s s' := by
  refine ⟨_, rfl, ?_⟩
  with_reducible repeat' first | exact Sound.same | (apply Sound.after; apply scheduleFree_sound)

theorem scheduleAlloc_keeps (s : State) (q : Nat) : Keeps s (scheduleAlloc s q) := by
  unfold scheduleAlloc
  with_reducible repeat' first
    | (apply Keeps.after; first | apply onQuad_keeps | apply onCtx_keeps | apply onBl_keeps | apply popOp_keeps | apply ledgerFault_keeps)
    | (refine Keeps.upd ?_; first | exact Keeps.same | split)

theorem execScheduleAlloc_keeps (q : Quad) (s : State) : ∃ s', execScheduleAlloc q s = .next s' ∧ Keeps s s' := by
  refine ⟨_, rfl, ?_⟩
  with_reducible repeat' first | exact Keeps.same | (apply Keeps.after; apply scheduleAlloc_keeps)

theorem addTag_keeps (s : State) (x : Transfer) : Keeps s (addTag s x) := by
  unfold addTag
  with_reducible repeat' first
    | exact Keeps.same
    | (refine Keeps.upd ?_; first | exact Keeps.same | apply Keeps.ite | split)

theorem keeperIssue_keeps (s : State) (a now : Nat) : Keeps s (keeperIssue s a now) := by
  unfold keeperIssue
  with_reducible repeat' first
    | exact Keeps.same
    | (apply Keeps.after; apply addTag_keeps)
    | (refine Keeps.upd ?_; first | exact Keeps.same | (apply Keeps.after; apply addTag_keeps) | apply Keeps.ite | split)
    | apply Keeps.ite
    | split

theorem transferIssue_keeps (s : State) (ch now : Nat) : Keeps s (transferIssue s ch now) := by
  unfold transferIssue
  with_reducible repeat' first
    | exact Keeps.same
    | (apply Keeps.after; first | apply onThread_keeps | apply addTag_keeps)
    | (refine Keeps.upd ?_; first | exact Keeps.same | (apply Keeps.after; first | apply onThread_keeps | apply addTag_keeps) | apply Keeps.ite | split | (refine Keeps.upd ?_; first | exact Keeps.same | (apply Keeps.after; first | apply onThread_keeps | apply addTag_keeps)))
    | apply Keeps.ite
    | split

theorem execTransferIssue_keeps (x : XmIssue) (s : State) : ∃ s', execTransferIssue x s = .next s' ∧ Keeps s s' := by
  refine ⟨_, rfl, ?_⟩
  with_reducible repeat' first
    | exact Keeps.same
    | (apply Keeps.after; first | apply keeperIssue_keeps | apply transferIssue_keeps)
    | (refine Keeps.upd ?_; first | exact Keeps.same | (apply Keeps.after; first | apply keeperIssue_keeps | apply transferIssue_keeps) | apply Keeps.ite | split)
    | split

theorem deadlineMiss_keeps (s : State) (k : Nat) : Keeps s (deadlineMiss s k) := by
  unfold deadlineMiss
  with_reducible repeat' first
    | exact Keeps.same
    | (apply Keeps.after; first | apply raise_keeps | apply onThread_keeps)
    | (refine Keeps.upd ?_; first | exact Keeps.same | (apply Keeps.after; first | apply raise_keeps | apply onThread_keeps) | apply Keeps.ite | split | (refine Keeps.upd ?_; first | exact Keeps.same | (apply Keeps.after; first | apply raise_keeps | apply onThread_keeps)))
    | apply Keeps.ite
    | split

theorem moved_keeps (s : State) (k len : Nat) : Keeps s (moved s k len) := by
  unfold moved
  with_reducible repeat' first
    | exact Keeps.same
    | (apply Keeps.after; first | apply onThread_keeps | apply deliver_keeps | apply threadEnded_keeps | apply deadlineMiss_keeps)
    | (refine Keeps.upd ?_; first | exact Keeps.same | (apply Keeps.after; first | apply onThread_keeps | apply deliver_keeps | apply threadEnded_keeps | apply deadlineMiss_keeps) | apply Keeps.ite | split)
    | apply Keeps.ite
    | split

theorem readComplete_keeps (s : State) (tag ecc now : Nat) : Keeps s (readComplete s tag ecc now) := by
  unfold readComplete
  with_reducible repeat' first
    | (apply Keeps.after; first | apply raise_keeps | apply poisonInst_keeps | apply onThread_keeps | apply moved_keeps)
    | (refine Keeps.upd ?_; exact Keeps.same)
    | apply Keeps.ite
    | split

theorem execReadTransferComplete_keeps (tag ecc nowNs : Nat) (s : State) : ∃ s', execReadTransferComplete tag ecc nowNs s = .next s' ∧ Keeps s s' := by
  refine ⟨_, rfl, ?_⟩
  with_reducible repeat' first | exact Keeps.same | (apply Keeps.after; apply readComplete_keeps)

theorem writeAccepted_sound (s : State) (tag : Nat) (failed : Bool) : Sound s (writeAccepted s tag failed) := by
  unfold writeAccepted
  with_reducible repeat' first
    | (apply Sound.after; first | apply xmWrite_sound | (apply Keeps.sound; apply xmPoison_keeps) | (apply Keeps.sound; apply raise_keeps) | (apply Keeps.sound; apply moved_keeps))
    | (refine Sound.upd ?_; exact Sound.same)
    | apply Sound.ite
    | split

theorem execWriteTransferAccepted_sound (tag : Nat) (failed : Bool) (s : State) : ∃ s', execWriteTransferAccepted tag failed s = .next s' ∧ Sound s s' := by
  refine ⟨_, rfl, ?_⟩
  with_reducible repeat' first | exact Sound.same | (apply Sound.after; apply writeAccepted_sound)

theorem threadBoundary_keeps (s : State) : Keeps s (threadBoundary s) := by
  unfold threadBoundary
  with_reducible repeat' first
    | exact Keeps.same
    | (apply Keeps.after; first | apply onThread_keeps | apply deadlineMiss_keeps)
    | (apply Keeps.after; apply Keeps.foldl; intro s x)
    | apply Keeps.ite

theorem endThreads_keeps (s : State) (p : Nat → Thread → Bool) : Keeps s (endThreads s p) := by
  unfold endThreads
  exact Keeps.upd Keeps.same

/- Wake.lean. -/

theorem wakeTo_keeps (s : State) (t : PwrSt) : Keeps s (wakeTo s t) := by
  unfold wakeTo
  with_reducible repeat' first | (refine Keeps.upd ?_; exact Keeps.same) | split

theorem wakeActive_keeps (s : State) : Keeps s (wakeActive s) := by
  unfold wakeActive
  with_reducible repeat' first | exact Keeps.same | (apply Keeps.after; apply wakeTo_keeps)

theorem wakeTolerance_keeps (s : State) : Keeps s (wakeTolerance s) := by
  unfold wakeTolerance
  with_reducible repeat' first | exact Keeps.same | (apply Keeps.after; apply wakeTo_keeps) | split

theorem retarget421_keeps (s : State) : Keeps s (retarget421 s) := by
  unfold retarget421
  exact Keeps.upd Keeps.same

end Sys2Proof.Machine
end

