-- ==== Sys2Proof/Laws/FrameHive.lean ====
section
/-! SUPPORT. What each operation of Links, Sched, Sync leaves alone, or keeps. -/

namespace Sys2Proof.Machine

set_option Elab.async false

open Sys2Proof

/- Links.lean. -/

theorem creditBack_keeps (s : State) (p : Option Nat) : Keeps s (creditBack s p) := by
  unfold creditBack
  with_reducible repeat' first | exact Keeps.same | (apply Keeps.after; apply onPort_keeps) | split

theorem portTo_keeps (s : State) (p : Nat) (st : PortSt) : Keeps s (portTo s p st) := by
  unfold portTo
  with_reducible repeat' first
    | exact Keeps.same
    | (apply Keeps.after; first | apply onPort_keeps | apply creditBack_keeps)
    | (apply Keeps.after; apply Keeps.foldl; intro s x)
    | (refine Keeps.upd ?_; first | exact Keeps.same | (apply Keeps.after; first | apply onPort_keeps | apply creditBack_keeps) | (apply Keeps.after; apply Keeps.foldl; intro s x) | apply Keeps.ite | split | (refine Keeps.upd ?_; first | exact Keeps.same | (apply Keeps.after; first | apply onPort_keeps | apply creditBack_keeps)))
    | apply Keeps.ite
    | split

theorem portTrain_keeps (s : State) (p : Nat) : Keeps s (portTrain s p) := by
  unfold portTrain
  with_reducible repeat' first | exact Keeps.same | (apply Keeps.after; first | apply onPort_keeps | apply portTo_keeps)

theorem portDrop_keeps (s : State) (p code : Nat) : Keeps s (portDrop s p code) := by
  unfold portDrop
  with_reducible repeat' first
    | exact Keeps.same
    | (apply Keeps.after; first | apply onPort_keeps | apply raise_keeps | apply portTo_keeps | apply portTrain_keeps)
    | apply Keeps.ite

theorem portFence_keeps (s : State) (p cause : Nat) : Keeps s (portFence s p cause) := by
  unfold portFence
  with_reducible repeat' first
    | exact Keeps.same
    | (apply Keeps.after; first | apply onPort_keeps | apply raise_keeps | apply portTo_keeps)

theorem giveTx_keeps (s : State) (p : Nat) (l : List Byte) : Keeps s (giveTx s p l) := by
  unfold giveTx
  with_reducible repeat' first
    | exact Keeps.same
    | (apply Keeps.after; apply onPort_keeps)
    | (refine Keeps.upd ?_; first | exact Keeps.same | (apply Keeps.after; apply onPort_keeps) | apply Keeps.ite | split)

theorem txNow_keeps (s : State) (p : Nat) (l : List Byte) : Keeps s (txNow s p l) := by
  unfold txNow
  with_reducible repeat' first | exact Keeps.same | (apply Keeps.after; first | apply onPort_keeps | apply giveTx_keeps)

theorem txTry_keeps (s : State) (p : Nat) (l : List Byte) : Keeps s (txTry s p l) := by
  unfold txTry
  with_reducible repeat' first
    | exact Keeps.same
    | (apply Keeps.after; first | apply onPort_keeps | apply txNow_keeps)
    | (refine Keeps.upd ?_; first | exact Keeps.same | (apply Keeps.after; first | apply onPort_keeps | apply txNow_keeps) | apply Keeps.ite | split)
    | apply Keeps.ite
    | split

theorem closeGroup_keeps (s : State) (p : Nat) : Keeps s (closeGroup s p) := by
  unfold closeGroup
  with_reducible repeat' first
    | (apply Keeps.after; first | apply onPort_keeps | apply portTrain_keeps | apply txTry_keeps)
    | (refine Keeps.upd ?_; first | exact Keeps.same | split)

theorem txFlit_keeps (s : State) (p : Nat) (l : List Byte) : Keeps s (txFlit s p l) := by
  unfold txFlit
  with_reducible repeat' first
    | exact Keeps.same
    | (apply Keeps.after; first | apply txTry_keeps | apply closeGroup_keeps)
    | apply Keeps.ite

theorem drainWait_keeps (n : Nat) (s : State) (p : Nat) : Keeps s (drainWait n s p) := by
  induction n generalizing s with
  | zero => exact Keeps.same
  | succ n ih =>
    unfold drainWait; split
    · exact Keeps.same
    · split
      · refine Keeps.trans ?_ (ih _)
        refine Keeps.step ?_ (closeGroup_keeps _ _)
        exact (onPort_keeps _ _ _).trans (txNow_keeps _ _ _)
      · exact Keeps.same

theorem execSealGroupClose_keeps (p : PortId) (s : State) : ∃ s', execSealGroupClose p s = .next s' ∧ Keeps s s' := by
  refine ⟨_, rfl, ?_⟩
  with_reducible repeat' first | exact Keeps.same | (apply Keeps.after; apply closeGroup_keeps) | split

theorem sendAck_keeps (s : State) (p : Nat) : Keeps s (sendAck s p) := by
  unfold sendAck
  with_reducible repeat' first | exact Keeps.same | (apply Keeps.after; first | apply onPort_keeps | apply giveTx_keeps)

theorem sendNak_keeps (s : State) (p : Nat) : Keeps s (sendNak s p) := by
  unfold sendNak
  with_reducible repeat' first | exact Keeps.same | (apply Keeps.after; first | apply onPort_keeps | apply giveTx_keeps)

theorem execAckTimer_keeps (p : PortId) (s : State) : ∃ s', execAckTimer p s = .next s' ∧ Keeps s s' := by
  refine ⟨_, rfl, ?_⟩
  with_reducible repeat' first | exact Keeps.same | (apply Keeps.after; apply sendAck_keeps) | split

theorem resend_keeps (s : State) (p a2 : Nat) : Keeps s (resend s p a2) := by
  unfold resend
  with_reducible repeat' first
    | exact Keeps.same
    | (apply Keeps.after; first | apply onPort_keeps | apply giveTx_keeps)
    | (apply Keeps.after; apply Keeps.foldl; intro s x)

theorem execReplayTimeout_keeps (p : PortId) (s : State) : ∃ s', execReplayTimeout p s = .next s' ∧ Keeps s s' := by
  refine ⟨_, rfl, ?_⟩
  with_reducible repeat' first
    | exact Keeps.same
    | (apply Keeps.after; first | apply onPort_keeps | apply portDrop_keeps | apply resend_keeps)
    | apply Keeps.ite
    | split

theorem rxCount_keeps (s : State) (p : Nat) : Keeps s (rxCount s p) := by
  unfold rxCount
  with_reducible repeat' first
    | exact Keeps.same
    | (apply Keeps.after; apply onPort_keeps)
    | (refine Keeps.upd ?_; first | exact Keeps.same | (apply Keeps.after; apply onPort_keeps) | apply Keeps.ite | split)

theorem hcrcNak_keeps (s : State) (p : Nat) (l : List Byte) : Keeps s (hcrcNak s p l) := by
  unfold hcrcNak
  with_reducible repeat' first
    | exact Keeps.same
    | (apply Keeps.after; apply sendNak_keeps)
    | apply Keeps.ite
    | split

theorem rxTake_keeps (s : State) (p : Nat) (l : List Byte) : Keeps s (rxTake s p l).2 := by
  unfold rxTake
  with_reducible repeat' first
    | exact Keeps.same
    | (apply Keeps.after; first | apply onPort_keeps | apply sendAck_keeps | apply sendNak_keeps | apply rxCount_keeps)
    | dsimp only
    | split

theorem badFlit_keeps (s : State) (p : Nat) : Keeps s (badFlit s p) := by
  unfold badFlit
  with_reducible repeat' first
    | exact Keeps.same
    | (apply Keeps.after; first | apply onPort_keeps | apply raise_keeps)
    | apply Keeps.ite

theorem execFloodDetected_keeps (p : PortId) (s : State) : ∃ s', execFloodDetected p s = .next s' ∧ Keeps s s' := by
  refine ⟨_, rfl, ?_⟩
  with_reducible repeat' first | exact Keeps.same | (apply Keeps.after; apply portFence_keeps) | split

theorem sendUnsched_keeps (s : State) (p : Nat) (l : List Byte) (held : Option Nat) : Keeps s (sendUnsched s p l held) := by
  unfold sendUnsched
  with_reducible repeat' first
    | exact Keeps.same
    | (apply Keeps.after; first | apply onPort_keeps | apply creditBack_keeps | apply txFlit_keeps)
    | apply Keeps.ite

theorem flushUnsched_keeps (n : Nat) (s : State) (p : Nat) : Keeps s (flushUnsched n s p) := by
  induction n generalizing s with
  | zero => exact Keeps.same
  | succ n ih =>
    unfold flushUnsched; dsimp only; split
    · exact Keeps.same
    · split
      · refine Keeps.trans ?_ (ih _)
        exact (onPort_keeps _ _ _).trans ((txFlit_keeps _ _ _).trans (creditBack_keeps _ _))
      · exact Keeps.same

theorem unschedTo_keeps (s : State) (rank : Nat) (l : List Byte) (held : Option Nat) : Keeps s (unschedTo s rank l held) := by
  unfold unschedTo
  with_reducible repeat' first
    | exact Keeps.same
    | (apply Keeps.after; first | apply creditBack_keeps | apply sendUnsched_keeps)
    | apply Keeps.ite

theorem askPage_keeps (s : State) (rank planId stripe : Nat) : Keeps s (askPage s rank planId stripe) := by
  unfold askPage
  with_reducible repeat' first | (apply Keeps.after; apply unschedTo_keeps) | (refine Keeps.upd ?_; exact Keeps.same)

theorem sendPage_keeps (s : State) (r : PeerRead) : Keeps s (sendPage s r) := by
  unfold sendPage
  with_reducible repeat' first
    | (apply Keeps.after; apply unschedTo_keeps)
    | (apply Keeps.after; apply Keeps.forUpto; intro s x)
    | (refine Keeps.upd ?_; exact Keeps.same)

theorem rebuildRequests_keeps (s : State) : Keeps s (rebuildRequests s) := by
  unfold rebuildRequests
  with_reducible repeat' first
    | exact Keeps.same
    | (apply Keeps.after; apply askPage_keeps)
    | (apply Keeps.after; apply Keeps.foldl; intro s x)
    | split

theorem peerRequest_keeps (s : State) (rank planId stripe : Nat) : Keeps s (peerRequest s rank planId stripe) := by
  unfold peerRequest
  with_reducible repeat' first
    | (apply Keeps.after; first | apply raise_keeps | apply dropRebuild_keeps | apply wakeTo_keeps)
    | (refine Keeps.upd ?_; exact Keeps.same)
    | apply Keeps.ite
    | split

theorem takePageData_keeps (s : State) (rank planId stripe k : Nat) (body : List Byte) : Keeps s (takePageData s rank planId stripe k body) := by
  unfold takePageData
  exact Keeps.upd Keeps.same

theorem unschedDeliver_keeps (s : State) (p : Nat) (l : List Byte) : Keeps s (unschedDeliver s p l) := by
  unfold unschedDeliver
  with_reducible repeat' first
    | (apply Keeps.after; first | apply creditBack_keeps | apply unschedTo_keeps | apply peerRequest_keeps | apply takePageData_keeps)
    | (refine Keeps.upd ?_; first | exact Keeps.same | (apply Keeps.after; first | apply creditBack_keeps | apply unschedTo_keeps | apply peerRequest_keeps | apply takePageData_keeps))
    | apply Keeps.ite

theorem execFlitUnschedReceive_keeps (p : PortId) (flit : List Byte) (ns : Nat) (s : State) : ∃ s', execFlitUnschedReceive p flit ns s = .next s' ∧ Keeps s s' := by
  refine ⟨_, rfl, ?_⟩
  with_reducible repeat' first
    | exact Keeps.same
    | (apply Keeps.after; first | apply onPort_keeps | apply portFence_keeps | apply rxTake_keeps | apply badFlit_keeps | apply unschedDeliver_keeps)
    | (refine Keeps.upd ?_; first | exact Keeps.same | (apply Keeps.after; first | apply onPort_keeps | apply portFence_keeps | apply rxTake_keeps | apply badFlit_keeps | apply unschedDeliver_keeps) | apply Keeps.ite | split | (refine Keeps.upd ?_; first | exact Keeps.same | (apply Keeps.after; first | apply onPort_keeps | apply portFence_keeps | apply rxTake_keeps | apply badFlit_keeps | apply unschedDeliver_keeps)))
    | apply Keeps.ite
    | split

theorem execLnkPowerGood_keeps (wake : Bool) (s : State) : ∃ s', execLnkPowerGood wake s = .next s' ∧ Keeps s s' := by
  refine ⟨_, rfl, ?_⟩
  with_reducible repeat' first
    | (apply Keeps.after; apply portTo_keeps)
    | (apply Keeps.after; apply Keeps.forUpto; intro s x)
    | (refine Keeps.upd ?_; exact Keeps.same)
    | split

theorem execPortTrainingStart_keeps (p : PortId) (s : State) : ∃ s', execPortTrainingStart p s = .next s' ∧ Keeps s s' := by
  refine ⟨_, rfl, ?_⟩
  with_reducible repeat' first
    | (apply Keeps.after; apply portTrain_keeps)
    | (refine Keeps.upd ?_; first | exact Keeps.same | (apply Keeps.after; apply portTrain_keeps))
    | apply Keeps.ite

theorem execPortNoSignalTimeout_keeps (p : PortId) (s : State) : ∃ s', execPortNoSignalTimeout p s = .next s' ∧ Keeps s s' := by
  refine ⟨_, rfl, ?_⟩
  with_reducible repeat' first
    | exact Keeps.same
    | (apply Keeps.after; first | apply onPort_keeps | apply raise_keeps | apply portTo_keeps)
    | split

theorem execPortTrainingTimeout_keeps (p : PortId) (s : State) : ∃ s', execPortTrainingTimeout p s = .next s' ∧ Keeps s s' := by
  refine ⟨_, rfl, ?_⟩
  with_reducible repeat' first
    | exact Keeps.same
    | (apply Keeps.after; first | apply onPort_keeps | apply raise_keeps | apply portTo_keeps)
    | (refine Keeps.upd ?_; first | exact Keeps.same | (apply Keeps.after; first | apply onPort_keeps | apply raise_keeps | apply portTo_keeps) | apply Keeps.ite | split | (refine Keeps.upd ?_; first | exact Keeps.same | (apply Keeps.after; first | apply onPort_keeps | apply raise_keeps | apply portTo_keeps)))
    | apply Keeps.ite
    | split

theorem execPortRetryTimer_keeps (p : PortId) (s : State) : ∃ s', execPortRetryTimer p s = .next s' ∧ Keeps s s' := by
  refine ⟨_, rfl, ?_⟩
  with_reducible repeat' first
    | exact Keeps.same
    | (apply Keeps.after; apply portTrain_keeps)
    | apply Keeps.ite
    | split

theorem execPmdTrainingComplete_keeps (p : PortId) (spare : Nat) (ms : Nat) (s : State) : ∃ s', execPmdTrainingComplete p spare ms s = .next s' ∧ Keeps s s' := by
  refine ⟨_, rfl, ?_⟩
  with_reducible repeat' first
    | exact Keeps.same
    | (apply Keeps.after; first | apply onPort_keeps | apply hwState_keeps | apply giveTx_keeps)
    | (refine Keeps.upd ?_; first | exact Keeps.same | (apply Keeps.after; first | apply onPort_keeps | apply hwState_keeps | apply giveTx_keeps) | apply Keeps.ite | split | (refine Keeps.upd ?_; first | exact Keeps.same | (apply Keeps.after; first | apply onPort_keeps | apply hwState_keeps | apply giveTx_keeps)))
    | apply Keeps.ite
    | split

theorem execIdentReceive_keeps (p : PortId) (flit : List Byte) (s : State) : ∃ s', execIdentReceive p flit s = .next s' ∧ Keeps s s' := by
  refine ⟨_, rfl, ?_⟩
  with_reducible repeat' first
    | (apply Keeps.after; first | apply onPort_keeps | apply raise_keeps | apply portFence_keeps)
    | (refine Keeps.upd ?_; first | exact Keeps.same | (apply Keeps.after; first | apply onPort_keeps | apply raise_keeps | apply portFence_keeps))
    | apply Keeps.ite

theorem execLossOfSignal_keeps (p : PortId) (s : State) : ∃ s', execLossOfSignal p s = .next s' ∧ Keeps s s' := by
  refine ⟨_, rfl, ?_⟩
  with_reducible repeat' first | exact Keeps.same | (apply Keeps.after; apply portDrop_keeps) | split

theorem execLaneFlitReceive_keeps (p : PortId) (flit : List Byte) (s : State) : ∃ s', execLaneFlitReceive p flit s = .next s' ∧ Keeps s s' := by
  refine ⟨_, rfl, ?_⟩
  with_reducible repeat' first
    | exact Keeps.same
    | (apply Keeps.after; first | apply onPort_keeps | apply rxCount_keeps | apply hcrcNak_keeps)
    | (refine Keeps.upd ?_; first | exact Keeps.same | (apply Keeps.after; first | apply onPort_keeps | apply rxCount_keeps | apply hcrcNak_keeps) | apply Keeps.ite | split)
    | apply Keeps.ite
    | split

theorem sendLane_keeps (s : State) (p lane : Nat) (back : Bool) : Keeps s (sendLane s p lane back) := by
  unfold sendLane
  with_reducible repeat' first | exact Keeps.same | (apply Keeps.after; first | apply onPort_keeps | apply giveTx_keeps)

theorem execLaneSpareSwitch_keeps (e : SpareSwitch) (s : State) : ∃ s', execLaneSpareSwitch e s = .next s' ∧ Keeps s s' := by
  refine ⟨_, rfl, ?_⟩
  with_reducible repeat' first
    | exact Keeps.same
    | (apply Keeps.after; first | apply onPort_keeps | apply raise_keeps)
    | (apply Keeps.elim (fun _ => ?_) ?_)
    | (refine Keeps.upd ?_; first | exact Keeps.same | (apply Keeps.after; first | apply onPort_keeps | apply raise_keeps) | apply Keeps.ite | split | (refine Keeps.upd ?_; first | exact Keeps.same | (apply Keeps.after; first | apply onPort_keeps | apply raise_keeps)))
    | apply Keeps.ite
    | split

theorem weakLane_keeps (s : State) (p k : Nat) : Keeps s (weakLane s p k) := by
  unfold weakLane
  with_reducible repeat' first
    | exact Keeps.same
    | (apply Keeps.after; first | apply onPort_keeps | apply portDrop_keeps | apply raise_keeps | apply sendLane_keeps)
    | (refine Keeps.upd ?_; first | exact Keeps.same | (apply Keeps.after; first | apply onPort_keeps | apply portDrop_keeps | apply raise_keeps | apply sendLane_keeps) | apply Keeps.ite | split | (refine Keeps.upd ?_; first | exact Keeps.same | (apply Keeps.after; first | apply onPort_keeps | apply portDrop_keeps | apply raise_keeps | apply sendLane_keeps)))
    | apply Keeps.ite
    | split

theorem execUncorrectableCodeword_keeps (p : PortId) (s : State) : ∃ s', execUncorrectableCodeword p s = .next s' ∧ Keeps s s' := by
  refine ⟨_, rfl, ?_⟩
  with_reducible repeat' first
    | exact Keeps.same
    | (apply Keeps.after; first | apply onPort_keeps | apply sendNak_keeps)
    | apply Keeps.ite

theorem execCodewordErrorLimit_keeps (p : PortId) (s : State) : ∃ s', execCodewordErrorLimit p s = .next s' ∧ Keeps s s' := by
  refine ⟨_, rfl, ?_⟩
  with_reducible repeat' first | exact Keeps.same | (apply Keeps.after; apply portDrop_keeps) | split

theorem lnkDown_keeps (s : State) : Keeps s (lnkDown s) := by
  unfold lnkDown
  dsimp only
  exact Keeps.upd (((Keeps.forUpto _ _ _ fun _ _ => portTo_keeps _ _ _).trans (clearWindow_keeps _)).trans (noPortx_keeps _))

/- Sched.lean. -/

theorem remoteAdd_keeps (s : State) (c : Option Nat) (obj inc inst : Nat) : Keeps s (remoteAdd s c obj inc inst) := by
  unfold remoteAdd
  with_reducible repeat' first
    | (apply Keeps.after; first | apply onSo_keeps | apply raise_keeps)
    | (refine Keeps.upd ?_; exact Keeps.same)
    | apply Keeps.ite
    | split

theorem onLink_keeps (s : State) (c i : Nat) (f : LinkEnt → LinkEnt) : Keeps s (onLink s c i f) := by
  unfold onLink
  with_reducible repeat' first | exact Keeps.same | (apply Keeps.after; apply onCtx_keeps)

theorem dataWrite_sound (s : State) (c : Nat) (e : LinkEnt) (l : List Byte) (hold : Bool) : Sound s (dataWrite s c e l hold) := by
  unfold dataWrite
  with_reducible repeat' first
    | exact Sound.same
    | (apply Sound.after; first | apply xmWrite_sound | (apply Keeps.sound; apply onLink_keeps))
    | split

theorem holdFlit_keeps (s : State) (p : Nat) (l : List Byte) (arr : Option Arrival) (good : Bool) : Keeps s (holdFlit s p l arr good) := by
  unfold holdFlit
  with_reducible repeat' first
    | exact Keeps.same
    | (apply Keeps.after; apply onPort_keeps)
    | (refine Keeps.upd ?_; first | exact Keeps.same | (apply Keeps.after; apply onPort_keeps) | apply Keeps.ite | split)

theorem execFlitDataReceive_sound (p : PortId) (flit : List Byte) (ns : Nat) (s : State) : ∃ s', execFlitDataReceive p flit ns s = .next s' ∧ Sound s s' := by
  refine ⟨_, rfl, ?_⟩
  with_reducible repeat' first
    | exact Sound.same
    | (apply Sound.after; first | (apply Keeps.sound; apply portFence_keeps) | (apply Keeps.sound; apply rxTake_keeps) | (apply Keeps.sound; apply badFlit_keeps) | apply dataWrite_sound | (apply Keeps.sound; apply holdFlit_keeps))
    | (refine Sound.upd ?_; first | exact Sound.same | (apply Sound.after; first | (apply Keeps.sound; apply portFence_keeps) | (apply Keeps.sound; apply rxTake_keeps) | (apply Keeps.sound; apply badFlit_keeps) | apply dataWrite_sound | (apply Keeps.sound; apply holdFlit_keeps)) | apply Sound.ite | split)
    | apply Sound.ite
    | split

theorem syncApply_keeps (s : State) (l : List Byte) : Keeps s (syncApply s l) := by
  unfold syncApply
  with_reducible repeat' first | exact Keeps.same | (apply Keeps.after; apply remoteAdd_keeps)

theorem execFlitSyncReceive_keeps (p : PortId) (flit : List Byte) (ns : Nat) (s : State) : ∃ s', execFlitSyncReceive p flit ns s = .next s' ∧ Keeps s s' := by
  refine ⟨_, rfl, ?_⟩
  with_reducible repeat' first
    | exact Keeps.same
    | (apply Keeps.after; first | apply portFence_keeps | apply rxTake_keeps | apply badFlit_keeps | apply holdFlit_keeps | apply syncApply_keeps)
    | (refine Keeps.upd ?_; first | exact Keeps.same | (apply Keeps.after; first | apply portFence_keeps | apply rxTake_keeps | apply badFlit_keeps | apply holdFlit_keeps | apply syncApply_keeps) | apply Keeps.ite | split)
    | apply Keeps.ite
    | split

theorem execInboundEntryComplete_keeps (c : Ctx) (entry : Nat) (s : State) : ∃ s', execInboundEntryComplete c entry s = .next s' ∧ Keeps s s' := by
  refine ⟨_, rfl, ?_⟩
  with_reducible repeat' first
    | exact Keeps.same
    | (apply Keeps.after; first | apply remoteAdd_keeps | apply onLink_keeps)
    | split

theorem haltFlits_keeps (s : State) (but : Option Nat) (id n : Nat) : Keeps s (haltFlits s but id n) := by
  unfold haltFlits
  with_reducible repeat' first
    | exact Keeps.same
    | (apply Keeps.after; apply txFlit_keeps)
    | (apply Keeps.after; apply Keeps.forUpto; intro s x)
    | split

theorem applyHalt_keeps (s : State) (c n : Nat) : Keeps s (applyHalt s c n) := by
  unfold applyHalt
  with_reducible repeat' first
    | (apply Keeps.after; first | apply onCtx_keeps | apply haltFlits_keeps)
    | (refine Keeps.upd ?_; first | exact Keeps.same | (apply Keeps.after; first | apply onCtx_keeps | apply haltFlits_keeps))

theorem haltTake_keeps (s : State) (p : Nat) (l : List Byte) : Keeps s (haltTake s p l) := by
  unfold haltTake
  with_reducible repeat' first
    | (apply Keeps.after; first | apply onCtx_keeps | apply haltFlits_keeps)
    | dsimp only
    | (refine Keeps.upd ?_; exact Keeps.same)
    | split

theorem execFlitHaltReceive_keeps (p : PortId) (flit : List Byte) (s : State) : ∃ s', execFlitHaltReceive p flit s = .next s' ∧ Keeps s s' := by
  refine ⟨_, rfl, ?_⟩
  with_reducible repeat' first
    | exact Keeps.same
    | (apply Keeps.after; first | apply portFence_keeps | apply rxTake_keeps | apply holdFlit_keeps | apply haltTake_keeps)
    | apply Keeps.ite
    | split

theorem markersSend_keeps (s : State) : Keeps s (markersSend s) := by
  unfold markersSend
  with_reducible repeat' first
    | exact Keeps.same
    | (apply Keeps.after; apply txFlit_keeps)
    | (apply Keeps.after; apply Keeps.forUpto; intro s x)
    | apply Keeps.ite
    | split

theorem markerIn_keeps (s : State) (p : Nat) (l : List Byte) (a : Arrival) : Keeps s (markerIn s p l a) := by
  unfold markerIn
  with_reducible repeat' first
    | exact Keeps.same
    | (apply Keeps.after; apply markerTake_keeps)
    | (refine Keeps.upd ?_; first | exact Keeps.same | (apply Keeps.after; apply markerTake_keeps) | apply Keeps.ite | split)
    | apply Keeps.ite
    | split

theorem execBeatMarkerReceive_keeps (p : PortId) (flit : List Byte) (eighths : Int) (s : State) : ∃ s', execBeatMarkerReceive p flit eighths s = .next s' ∧ Keeps s s' := by
  refine ⟨_, rfl, ?_⟩
  with_reducible repeat' first
    | exact Keeps.same
    | (apply Keeps.after; first | apply portFence_keeps | apply rxTake_keeps | apply holdFlit_keeps | apply markerIn_keeps)
    | apply Keeps.ite
    | split

theorem verified_keeps (s : State) (p : Nat) (l : List Byte) (arr : Option Arrival) : Keeps s (verified s p l arr) := by
  unfold verified
  with_reducible repeat' first
    | exact Keeps.same
    | (apply Keeps.after; first | apply unschedDeliver_keeps | apply onLink_keeps | apply syncApply_keeps | apply haltTake_keeps | apply markerIn_keeps)
    | (apply Keeps.elim (fun _ => ?_) ?_)
    | (refine Keeps.upd ?_; first | exact Keeps.same | (apply Keeps.after; first | apply unschedDeliver_keeps | apply onLink_keeps | apply syncApply_keeps | apply haltTake_keeps | apply markerIn_keeps) | apply Keeps.ite | split | (refine Keeps.upd ?_; first | exact Keeps.same | (apply Keeps.after; first | apply unschedDeliver_keeps | apply onLink_keeps | apply syncApply_keeps | apply haltTake_keeps | apply markerIn_keeps)))
    | apply Keeps.ite
    | split

theorem unheld_keeps (s : State) (l : List Byte) : Keeps s (unheld s l) := by
  unfold unheld
  with_reducible repeat' first | exact Keeps.same | (apply Keeps.after; apply onLink_keeps) | split

theorem execFlitTagReceive_keeps (p : PortId) (flit : List Byte) (s : State) : ∃ s', execFlitTagReceive p flit s = .next s' ∧ Keeps s s' := by
  refine ⟨_, rfl, ?_⟩
  with_reducible repeat' first
    | exact Keeps.same
    | (apply Keeps.after; first | apply onPort_keeps | apply portFence_keeps | apply rxTake_keeps | apply verified_keeps | apply unheld_keeps)
    | (apply Keeps.after; apply Keeps.foldl; intro s x)
    | (refine Keeps.upd ?_; first | exact Keeps.same | (apply Keeps.after; first | apply onPort_keeps | apply portFence_keeps | apply rxTake_keeps | apply verified_keeps | apply unheld_keeps) | (apply Keeps.after; apply Keeps.foldl; intro s x) | apply Keeps.ite | split | (refine Keeps.upd ?_; first | exact Keeps.same | (apply Keeps.after; first | apply onPort_keeps | apply portFence_keeps | apply rxTake_keeps | apply verified_keeps | apply unheld_keeps)))
    | apply Keeps.ite
    | split

theorem flushSync_keeps (n : Nat) (s : State) (p : Nat) : Keeps s (flushSync n s p) := by
  induction n generalizing s with
  | zero => exact Keeps.same
  | succ n ih =>
    unfold flushSync; split
    · exact Keeps.same
    · split
      · exact ((onPort_keeps _ _ _).trans (onLink_keeps _ _ _ _)).trans ((txFlit_keeps _ _ _).trans (ih _))
      · exact Keeps.same

theorem portFlush_keeps (s : State) (p : Nat) : Keeps s (portFlush s p) := by
  unfold portFlush
  with_reducible repeat' first
    | exact Keeps.same
    | (apply Keeps.after; first | apply flushUnsched_keeps | apply flushSync_keeps)

theorem execFlitAckReceive_keeps (p : PortId) (flit : List Byte) (s : State) : ∃ s', execFlitAckReceive p flit s = .next s' ∧ Keeps s s' := by
  refine ⟨_, rfl, ?_⟩
  with_reducible repeat' first
    | exact Keeps.same
    | (apply Keeps.after; first | apply onPort_keeps | apply drainWait_keeps | apply rxCount_keeps | apply hcrcNak_keeps | apply portFlush_keeps)
    | (refine Keeps.upd ?_; first | exact Keeps.same | (apply Keeps.after; first | apply onPort_keeps | apply drainWait_keeps | apply rxCount_keeps | apply hcrcNak_keeps | apply portFlush_keeps) | apply Keeps.ite | split)
    | apply Keeps.ite
    | split

theorem execFlitNakReceive_keeps (p : PortId) (flit : List Byte) (s : State) : ∃ s', execFlitNakReceive p flit s = .next s' ∧ Keeps s s' := by
  refine ⟨_, rfl, ?_⟩
  with_reducible repeat' first
    | exact Keeps.same
    | (apply Keeps.after; first | apply onPort_keeps | apply resend_keeps | apply rxCount_keeps | apply hcrcNak_keeps)
    | (refine Keeps.upd ?_; first | exact Keeps.same | (apply Keeps.after; first | apply onPort_keeps | apply resend_keeps | apply rxCount_keeps | apply hcrcNak_keeps) | apply Keeps.ite | split)
    | apply Keeps.ite
    | split

theorem sendTile_keeps (n : Nat) (s : State) (f : Forward) (e : LinkEnt) (i : Nat) : Keeps s (sendTile n s f e i).2 := by
  induction n generalizing s i with
  | zero => exact Keeps.same
  | succ n ih =>
    unfold sendTile; split
    · exact (txFlit_keeps _ _ _).trans (ih _ _)
    · exact Keeps.same

theorem forwardSend_keeps (s : State) (q : Nat) : Keeps s (forwardSend s q) := by
  unfold forwardSend
  with_reducible repeat' first
    | exact Keeps.same
    | (apply Keeps.after; first | apply onQuad_keeps | apply flushSync_keeps | apply sendTile_keeps)
    | (refine Keeps.upd ?_; first | exact Keeps.same | (apply Keeps.after; first | apply onQuad_keeps | apply flushSync_keeps | apply sendTile_keeps) | apply Keeps.ite | split | (refine Keeps.upd ?_; first | exact Keeps.same | (apply Keeps.after; first | apply onQuad_keeps | apply flushSync_keeps | apply sendTile_keeps)))
    | apply Keeps.ite
    | split

theorem execForwardTileSend_keeps (q : Quad) (s : State) : ∃ s', execForwardTileSend q s = .next s' ∧ Keeps s s' := by
  refine ⟨_, rfl, ?_⟩
  with_reducible repeat' first | exact Keeps.same | (apply Keeps.after; apply forwardSend_keeps)

theorem dropForward_keeps (s : State) (q : Nat) (f : Forward) : Keeps s (dropForward s q f) := by
  unfold dropForward
  with_reducible repeat' first
    | exact Keeps.same
    | (apply Keeps.after; first | apply onQuad_keeps | apply raise_keeps | apply faultBatch_keeps)

theorem execForwardDrop_keeps (q : Quad) (s : State) : ∃ s', execForwardDrop q s = .next s' ∧ Keeps s s' := by
  refine ⟨_, rfl, ?_⟩
  with_reducible repeat' first | exact Keeps.same | (apply Keeps.after; apply dropForward_keeps) | split

/- Sync.lean. -/

theorem soLast_keeps (s : State) (code c q obj : Nat) : Keeps s (soLast s code c q obj) := by
  unfold soLast
  exact Keeps.upd Keeps.same

theorem orderFault_keeps (s : State) (q c adm obj : Nat) : Keeps s (orderFault s q c adm obj) := by
  unfold orderFault
  with_reducible repeat' first
    | (apply Keeps.after; first | apply raise_keeps | apply faultBatch_keeps | apply stopWork_keeps | apply soLast_keeps)
    | (refine Keeps.upd ?_; exact Keeps.same)

theorem relFault_keeps (s : State) (q c adm obj : Nat) : Keeps s (relFault s q c adm obj) := by
  unfold relFault
  with_reducible repeat' first
    | (apply Keeps.after; first | apply raise_keeps | apply faultBatch_keeps | apply stopWork_keeps | apply soLast_keeps)
    | (refine Keeps.upd ?_; exact Keeps.same)

theorem soPerform_keeps (s : State) (q c adm : Nat) (acq : Bool) (obj : Nat) : Keeps s (soPerform s q c adm acq obj) := by
  unfold soPerform
  with_reducible repeat' first
    | exact Keeps.same
    | (apply Keeps.after; first | apply onQuad_keeps | apply onSo_keeps | apply popOp_keeps)
    | (refine Keeps.upd ?_; first | exact Keeps.same | (apply Keeps.after; first | apply onQuad_keeps | apply onSo_keeps | apply popOp_keeps) | apply Keeps.ite | split | (refine Keeps.upd ?_; first | exact Keeps.same | (apply Keeps.after; first | apply onQuad_keeps | apply onSo_keeps | apply popOp_keeps)))
    | apply Keeps.ite
    | split

theorem soIssue_keeps (s : State) (q : Nat) (t : Todo) (acq : Bool) (i min : Nat) : Keeps s (soIssue s q t acq i min) := by
  unfold soIssue
  dsimp only
  generalize opThreshold _ _ _ _ _ = thr
  generalize soIndex _ _ _ = obj
  exact Keeps.ite _ ((orderFault_keeps _ _ _ _ _).trans (advanceAll_keeps _ _))
    (Keeps.ite _ (soPerform_keeps _ _ _ _ _ _) (onQuad_keeps _ _ _))

theorem execSyncAcq_sound (q : Quad) (s : State) : ∃ s', execSyncAcq q s = .next s' ∧ Sound s s' := by
  refine ⟨_, rfl, ?_⟩
  with_reducible repeat' first | exact Sound.same | (apply Sound.after; (apply Keeps.sound; apply soIssue_keeps)) | split

theorem execSyncWait_sound (q : Quad) (s : State) : ∃ s', execSyncWait q s = .next s' ∧ Sound s s' := by
  refine ⟨_, rfl, ?_⟩
  with_reducible repeat' first | exact Sound.same | (apply Sound.after; (apply Keeps.sound; apply soIssue_keeps)) | split

theorem soRelease_keeps (s : State) (q : Nat) (t : Todo) (i inc : Nat) : Keeps s (soRelease s q t i inc) := by
  unfold soRelease
  with_reducible repeat' first
    | exact Keeps.same
    | (apply Keeps.after; first | apply onSo_keeps | apply advanceAll_keeps | apply popOp_keeps | apply relFault_keeps)
    | (refine Keeps.upd ?_; first | exact Keeps.same | (apply Keeps.after; first | apply onSo_keeps | apply advanceAll_keeps | apply popOp_keeps | apply relFault_keeps) | apply Keeps.ite | split)
    | apply Keeps.ite
    | split

theorem execSyncRel_keeps (q : Quad) (s : State) : ∃ s', execSyncRel q s = .next s' ∧ Keeps s s' := by
  refine ⟨_, rfl, ?_⟩
  with_reducible repeat' first | exact Keeps.same | (apply Keeps.after; apply soRelease_keeps) | split

theorem execSyncSend_keeps (q : Quad) (s : State) : ∃ s', execSyncSend q s = .next s' ∧ Keeps s s' := by
  refine ⟨_, rfl, ?_⟩
  with_reducible repeat' first
    | exact Keeps.same
    | (apply Keeps.after; first | apply onPort_keeps | apply popOp_keeps | apply flushSync_keeps)
    | (refine Keeps.upd ?_; first | exact Keeps.same | (apply Keeps.after; first | apply onPort_keeps | apply popOp_keeps | apply flushSync_keeps) | apply Keeps.ite | split | (refine Keeps.upd ?_; first | exact Keeps.same | (apply Keeps.after; first | apply onPort_keeps | apply popOp_keeps | apply flushSync_keeps)))
    | apply Keeps.ite
    | split

theorem blockedProceed_keeps (s : State) (q : Nat) : Keeps s (blockedProceed s q) := by
  unfold blockedProceed
  with_reducible repeat' first
    | exact Keeps.same
    | (apply Keeps.after; apply soPerform_keeps)
    | (refine Keeps.upd ?_; first | exact Keeps.same | (apply Keeps.after; apply soPerform_keeps) | apply Keeps.ite | split)
    | apply Keeps.ite
    | split

theorem execBlockedOpProceed_keeps (q : Quad) (s : State) : ∃ s', execBlockedOpProceed q s = .next s' ∧ Keeps s s' := by
  refine ⟨_, rfl, ?_⟩
  with_reducible repeat' first | exact Keeps.same | (apply Keeps.after; apply blockedProceed_keeps) | split

theorem waitTimeout_keeps (s : State) (q : Nat) : Keeps s (waitTimeout s q) := by
  unfold waitTimeout
  with_reducible repeat' first
    | (apply Keeps.after; first | apply raise_keeps | apply faultBatch_keeps | apply stopWork_keeps | apply soLast_keeps | apply blockedProceed_keeps)
    | (refine Keeps.upd ?_; exact Keeps.same)
    | split

theorem soStray_keeps (s : State) (i : Nat) : Keeps s (soStray s i) := by
  unfold soStray
  with_reducible repeat' first
    | exact Keeps.same
    | (apply Keeps.after; first | apply onSo_keeps | apply raise_keeps)
    | (refine Keeps.upd ?_; first | exact Keeps.same | (apply Keeps.after; first | apply onSo_keeps | apply raise_keeps) | apply Keeps.ite | split | (refine Keeps.upd ?_; first | exact Keeps.same | (apply Keeps.after; first | apply onSo_keeps | apply raise_keeps)))
    | apply Keeps.ite
    | split

theorem leaveHolds_keeps (s : State) (c adm : Nat) : Keeps s (leaveHolds s c adm) := by
  unfold leaveHolds
  with_reducible repeat' first
    | exact Keeps.same
    | (refine Keeps.upd ?_; first | exact Keeps.same | apply Keeps.ite | split | (refine Keeps.upd ?_; first | exact Keeps.same))
    | apply Keeps.ite
    | split

theorem soRaiseTo_keeps (s : State) (i base : Nat) : Keeps s (soRaiseTo s i base) := by
  unfold soRaiseTo
  generalize soMet _ _ = b
  exact Keeps.ite _ Keeps.same (onSo_keeps _ _ _)

theorem soRealign_sound (n : Nat) (s : State) (i : Nat) : Sound s (soRealign n s i) := by
  unfold soRealign
  with_reducible repeat' first
    | exact Sound.same
    | (apply Sound.after; first | (apply Keeps.sound; apply soStray_keeps) | (apply Keeps.sound; apply soRaiseTo_keeps))

theorem syncRealign_sound (s : State) (c n : Nat) : Sound s (syncRealign s c n) := by
  unfold syncRealign
  with_reducible repeat' first
    | exact Sound.same
    | (apply Sound.after; apply soRealign_sound)
    | (apply Sound.after; apply Sound.foldl; intro s x)

theorem syncZero_keeps (s : State) (c : Nat) : Keeps s (syncZero s c) := by
  unfold syncZero
  with_reducible repeat' first
    | exact Keeps.same
    | (apply Keeps.after; apply onSo_keeps)
    | (apply Keeps.after; apply Keeps.foldl; intro s x)
    | (refine Keeps.upd ?_; first | exact Keeps.same | (apply Keeps.after; apply onSo_keeps) | (apply Keeps.after; apply Keeps.foldl; intro s x) | apply Keeps.ite | split | (refine Keeps.upd ?_; first | exact Keeps.same | (apply Keeps.after; apply onSo_keeps)))

theorem clearHolds_keeps (s : State) (q : Nat) : Keeps s (clearHolds s q) := by
  unfold clearHolds
  with_reducible repeat' first
    | exact Keeps.same
    | (refine Keeps.upd ?_; first | exact Keeps.same | apply Keeps.ite | split | (refine Keeps.upd ?_; first | exact Keeps.same))
    | apply Keeps.ite
    | split

end Sys2Proof.Machine
end

