-- ==== Sys2Proof/Laws/FrameKeeper.lean ====
section
/-! SUPPORT. What each operation of Mailbox, PlanLife, Instances, Staged, Grafts leaves alone, or keeps. -/

namespace Sys2Proof.Machine

set_option Elab.async false

open Sys2Proof

/- Mailbox.lean. -/

theorem pagePut_keeps (s : State) (m o : Nat) (l : List Byte) : Keeps s (pagePut s m o l) := by
  unfold pagePut
  with_reducible repeat' first | exact Keeps.same | (apply Keeps.after; apply onMb_keeps)

theorem ringBusy_keeps (s : State) (m : Nat) : Keeps s (ringBusy s m) := by
  unfold ringBusy
  with_reducible repeat' first | exact Keeps.same | (apply Keeps.after; apply onMb_keeps)

theorem notify_keeps (s : State) (m : Nat) : Keeps s (notify s m) := by
  unfold notify
  with_reducible repeat' first | exact Keeps.same | (apply Keeps.after; apply signal_keeps) | split

theorem putPart_keeps (s : State) (m k : Nat) : Keeps s (putPart s m k) := by
  unfold putPart
  with_reducible repeat' first | exact Keeps.same | (apply Keeps.after; first | apply onMb_keeps | apply pagePut_keeps)

theorem respond_keeps (s : State) (m st seq winner beat : Nat) (body : List Byte) (fin : MbSt) : Keeps s (respond s m st seq winner beat body fin) := by
  unfold respond
  with_reducible repeat' first
    | exact Keeps.same
    | (apply Keeps.after; first | apply onMb_keeps | apply notify_keeps | apply putPart_keeps)
    | split

theorem journal_sound (s : State) (m seq st link effect : Nat) (h : jOk s.rj s.wg.curSeq → seq < s.rj.next) :
    Sound s (journal s m seq st link effect) := jWrite_sound s _ h

/-- A SEQ taken for a recorded command, or none. -/
theorem seqIf_sound (s : State) (c : Prop) [Decidable c] : Sound s (if c then takeSeq s else (0, s)).2 ∧
    (jOk (if c then takeSeq s else (0, s)).2.rj (if c then takeSeq s else (0, s)).2.wg.curSeq →
      (if c then takeSeq s else (0, s)).1 < (if c then takeSeq s else (0, s)).2.rj.next) := by
  split
  · exact ⟨takeSeq_sound s, fun _ => Nat.lt_succ_self _⟩
  · exact ⟨Sound.same, fun h => Nat.lt_of_le_of_lt (Nat.zero_le _) h.2.2⟩

/-- Keeper's current command changes. -/
theorem setCur_sound (s : State) (c : Option Nat) (n : Nat) (w : CmdWait) (hn : jOk s.rj s.wg.curSeq → n < s.rj.next) :
    Sound s { s with wg.cur := c, wg.curSeq := n, wg.wait := w } :=
  ⟨rfl, rfl, fun h => ⟨h.1, h.2.1, hn h⟩, id, id, id, id⟩

theorem supersede_sound (s : State) (m winner : Nat) : Sound s (supersede s m winner) := by
  unfold supersede
  have h := takeSeq_sound s
  have k : (takeSeq s).1 < (takeSeq s).2.rj.next := Nat.lt_succ_self _
  revert h k
  generalize takeSeq s = w
  obtain ⟨n, u⟩ := w
  intro h k
  dsimp only at h k
  dsimp only
  refine Sound.trans ?_ (respond_keeps _ _ _ _ _ _ _ _).sound
  refine Sound.trans ?_ (raise_keeps _ _ _ _).sound
  refine Sound.trans ?_ (onMb_keeps _ m _).sound
  exact h.trans (journal_sound _ _ _ _ _ _ (fun _ => k))

theorem refuse_keeps (s : State) (m st : Nat) : Keeps s (refuse s m st) := by
  unfold refuse
  with_reducible repeat' first | exact Keeps.same | (apply Keeps.after; first | apply onMb_keeps | apply respond_keeps)

theorem accept_sound (s : State) (m : Nat) : Sound s (accept s m) := by
  unfold accept
  have h := seqIf_sound s (recorded (mbOp s m) = true)
  revert h
  generalize (if recorded (mbOp s m) = true then takeSeq s else (0, s)) = w
  obtain ⟨n, u⟩ := w
  intro h
  dsimp only at h
  dsimp only
  have h2 := onMb_keeps u m (fun x => { x with st := .busy, accepted := satAdd 32 x.accepted 1 })
  have h3 : Sound s { onMb u m (fun x => { x with st := .busy, accepted := satAdd 32 x.accepted 1 }) with
      wg.cur := some m, wg.curSeq := n, wg.wait := .none } := by
    refine h.1.trans (h2.sound.trans (setCur_sound _ _ _ _ ?_))
    rw [h2.rj, h2.cur]
    exact h.2
  split
  · exact h3
  · exact h3.trans (wakeActive_keeps _).sound

theorem takeTurn_sound (s : State) (m : Nat) : Sound s (takeTurn s m) := by
  unfold takeTurn
  with_reducible repeat' first
    | exact Sound.same
    | (apply Sound.after; first | (apply Keeps.sound; apply respond_keeps) | apply supersede_sound | (apply Keeps.sound; apply refuse_keeps) | apply accept_sound)
    | apply Sound.ite
    | split

theorem serveNext_keeps (s : State) : Keeps s (serveNext s) := by
  unfold serveNext
  with_reducible repeat' first
    | exact Keeps.same
    | (apply Keeps.after; first | apply onMb_keeps | apply notify_keeps | apply putPart_keeps)
    | (apply Keeps.after; apply Keeps.forUpto; intro s x)
    | split

theorem turns_sound (n : Nat) (s : State) : Sound s (turns n s) := by
  induction n generalizing s with
  | zero => exact Sound.same
  | succ n ih =>
    unfold turns; split
    · exact Sound.same
    · exact (serveNext_keeps _).sound
    · rename_i m r _ _
      exact ((Sound.upd Sound.same).trans (takeTurn_sound { s with wg.order := r } m)).trans (ih _)

theorem startRound_sound (s : State) : Sound s (startRound s) := by
  unfold startRound
  with_reducible repeat' first | (apply Sound.after; apply turns_sound) | (refine Sound.upd ?_; exact Sound.same)

theorem romRound_sound (s : State) : Sound s (romRound s) := by
  unfold romRound
  with_reducible repeat' first
    | exact Sound.same
    | (apply Sound.after; apply startRound_sound)
    | apply Sound.ite
    | split

theorem answerAt_sound (s : State) (st : Nat) (body : List Byte) (effect : Nat) : Sound s (answerAt s st body effect) := by
  unfold answerAt; split
  · exact Sound.same
  · rename_i m _
    dsimp only
    refine Sound.after (romRound_sound _) ?_
    refine Sound.after (turns_sound _ _) ?_
    refine Sound.after (setCur_sound _ _ 0 _ fun h => Nat.lt_of_le_of_lt (Nat.zero_le _) h.2.2) ?_
    refine Sound.after (respond_keeps _ m _ _ _ _ _ _).sound ?_
    have hj : Sound s (if recorded (mbOp s m) = true then journal s m s.wg.curSeq st 0 effect else s) :=
      Sound.step Sound.same (journal_sound _ _ _ _ _ _ fun h => h.2.2)
    exact Sound.ite _ (Sound.upd hj) hj

theorem answer_sound (s : State) (st : Nat) (body : List Byte) : Sound s (answer s st body) := by
  unfold answer
  with_reducible repeat' first | exact Sound.same | (apply Sound.after; apply answerAt_sound)

theorem onCmd_keeps (s : State) (op : Nat) (f : List Byte → State) (h : ∀ p, Keeps s (f p)) : Keeps s (onCmd s op f) := by
  unfold onCmd; split
  · exact Keeps.same
  · exact h _

theorem onCmd_sound (s : State) (op : Nat) (f : List Byte → State) (h : ∀ p, Sound s (f p)) : Sound s (onCmd s op f) := by
  unfold onCmd; split
  · exact Sound.same
  · exact h _

theorem queryCmd_sound (s : State) (op : Nat) (body : List Byte) : Sound s (queryCmd s op body) := by
  unfold queryCmd
  with_reducible repeat' first
    | exact Sound.same
    | (apply Sound.after; apply answer_sound)
    | refine onCmd_sound _ _ _ fun p => ?_

theorem rung_sound (s : State) (m : Nat) : Sound s (rung s m) := by
  unfold rung
  with_reducible repeat' first
    | exact Sound.same
    | (apply Sound.after; first | (apply Keeps.sound; apply respond_keeps) | apply romRound_sound)
    | apply Sound.ite
    | split

theorem doorbell_sound (s : State) (m v : Nat) : Sound s (doorbell s m v) := by
  unfold doorbell
  with_reducible repeat' first
    | exact Sound.same
    | (apply Sound.after; first | (apply Keeps.sound; apply onMb_keeps) | (apply Keeps.sound; apply ringBusy_keeps) | (apply Keeps.sound; apply serveNext_keeps) | apply rung_sound)
    | apply Sound.ite

theorem pageWrite_keeps (s : State) (m o : Nat) (l : List Byte) : Keeps s (pageWrite s m o l) := by
  unfold pageWrite
  with_reducible repeat' first
    | exact Keeps.same
    | (apply Keeps.after; first | apply pagePut_keeps | apply ringBusy_keeps)
    | split

theorem execDoorbellRing_sound (m : MboxId) (s : State) : ∃ s', execDoorbellRing m s = .next s' ∧ Sound s s' := by
  refine ⟨_, rfl, ?_⟩
  with_reducible repeat' first | exact Sound.same | (apply Sound.after; apply doorbell_sound) | split

theorem execDoorbellNext_sound (m : MboxId) (s : State) : ∃ s', execDoorbellNext m s = .next s' ∧ Sound s s' := by
  refine ⟨_, rfl, ?_⟩
  with_reducible repeat' first | exact Sound.same | (apply Sound.after; apply doorbell_sound) | split

theorem execDoorbellInvalid_sound (m : MboxId) (v : Word) (s : State) : ∃ s', execDoorbellInvalid m v s = .next s' ∧ Sound s s' := by
  refine ⟨_, rfl, ?_⟩
  with_reducible repeat' first | exact Sound.same | (apply Sound.after; apply doorbell_sound) | apply Sound.ite

theorem execMailboxPageWrite_keeps (m : MboxId) (off : Nat) (v : Word) (s : State) : ∃ s', execMailboxPageWrite m off v s = .next s' ∧ Keeps s s' := by
  refine ⟨_, rfl, ?_⟩
  with_reducible repeat' first | exact Keeps.same | (apply Keeps.after; apply pageWrite_keeps) | split

theorem frameError_keeps (s : State) (m : Nat) : Keeps s (frameError s m) := by
  unfold frameError
  with_reducible repeat' first
    | (apply Keeps.after; first | apply onMb_keeps | apply raise_keeps)
    | (refine Keeps.upd ?_; first | exact Keeps.same | (apply Keeps.after; first | apply onMb_keeps | apply raise_keeps))
    | apply Keeps.ite

theorem execSmbusSetOffset_keeps (off : Nat) (pecOk : Bool) (s : State) : ∃ s', execSmbusSetOffset off pecOk s = .next s' ∧ Keeps s s' := by
  refine ⟨_, rfl, ?_⟩
  with_reducible repeat' first | (apply Keeps.after; apply frameError_keeps) | (refine Keeps.upd ?_; exact Keeps.same) | split

theorem transportWrite_sound (s : State) (m o : Nat) (l : List Byte) : Sound s (transportWrite s m o l) := by
  unfold transportWrite
  with_reducible repeat' first
    | exact Sound.same
    | (apply Sound.after; first | (apply Keeps.sound; apply pagePut_keeps) | apply doorbell_sound)
    | split

theorem execSmbusWrite_sound (bytes : List Byte) (pecOk : Bool) (s : State) : ∃ s', execSmbusWrite bytes pecOk s = .next s' ∧ Sound s s' := by
  refine ⟨_, rfl, ?_⟩
  with_reducible repeat' first
    | (apply Sound.after; first | (apply Keeps.sound; apply pagePut_keeps) | (apply Keeps.sound; apply ringBusy_keeps) | (apply Keeps.sound; apply frameError_keeps) | apply transportWrite_sound)
    | (refine Sound.upd ?_; exact Sound.same)
    | apply Sound.ite

theorem execSmbusRead_keeps (s : State) : ∃ s', execSmbusRead s = .next s' ∧ Keeps s s' := by
  refine ⟨_, rfl, ?_⟩
  with_reducible repeat' first | (refine Keeps.upd ?_; exact Keeps.same) | split

theorem execSmbusTimeout_keeps (s : State) : ∃ s', execSmbusTimeout s = .next s' ∧ Keeps s s' := by
  refine ⟨_, rfl, ?_⟩
  with_reducible repeat' first | (refine Keeps.upd ?_; exact Keeps.same) | split

theorem uartAnswer_keeps (s : State) (result : Nat) (data : List Byte) : Keeps s (uartAnswer s result data) := by
  unfold uartAnswer
  exact Keeps.upd Keeps.same

theorem uartHold_keeps (s : State) (op : Nat) (l : List Byte) : Keeps s (uartHold s op l) := by
  unfold uartHold
  with_reducible repeat' first | (refine Keeps.upd ?_; exact Keeps.same) | split

theorem execUartWrite_sound (frame : List Byte) (s : State) : ∃ s', execUartWrite frame s = .next s' ∧ Sound s s' := by
  refine ⟨_, rfl, ?_⟩
  with_reducible repeat' first
    | exact Sound.same
    | (apply Sound.after; first | (apply Keeps.sound; apply ringBusy_keeps) | (apply Keeps.sound; apply frameError_keeps) | apply transportWrite_sound | (apply Keeps.sound; apply uartAnswer_keeps) | (apply Keeps.sound; apply uartHold_keeps))
    | split

theorem execUartRead_keeps (frame : List Byte) (s : State) : ∃ s', execUartRead frame s = .next s' ∧ Keeps s s' := by
  refine ⟨_, rfl, ?_⟩
  with_reducible repeat' first
    | exact Keeps.same
    | (apply Keeps.after; first | apply frameError_keeps | apply uartAnswer_keeps | apply uartHold_keeps)
    | split

theorem execUartBaud_keeps (frame : List Byte) (s : State) : ∃ s', execUartBaud frame s = .next s' ∧ Keeps s s' := by
  refine ⟨_, rfl, ?_⟩
  with_reducible repeat' first
    | (apply Keeps.after; first | apply frameError_keeps | apply uartAnswer_keeps | apply uartHold_keeps)
    | (refine Keeps.upd ?_; first | exact Keeps.same | (apply Keeps.after; first | apply frameError_keeps | apply uartAnswer_keeps | apply uartHold_keeps))
    | split

theorem execUartFrameTimeout_keeps (s : State) : ∃ s', execUartFrameTimeout s = .next s' ∧ Keeps s s' := by
  refine ⟨_, rfl, ?_⟩
  with_reducible repeat' first | (refine Keeps.upd ?_; exact Keeps.same) | split

theorem execUartBreak_keeps (s : State) : ∃ s', execUartBreak s = .next s' ∧ Keeps s s' := by
  refine ⟨_, rfl, ?_⟩
  with_reducible repeat' first | (apply Keeps.after; apply frameError_keeps) | (refine Keeps.upd ?_; exact Keeps.same) | split

/- PlanLife.lean. -/

theorem quadClear_keeps (s : State) (q : Nat) : Keeps s (quadClear s q) := by
  unfold quadClear
  with_reducible repeat' first
    | exact Keeps.same
    | (apply Keeps.after; first | apply onQuad_keeps | apply endThreads_keeps | apply clearHolds_keeps)
    | (refine Keeps.upd ?_; first | exact Keeps.same | (apply Keeps.after; first | apply onQuad_keeps | apply endThreads_keeps | apply clearHolds_keeps) | apply Keeps.ite | split)

theorem quadDown_keeps (s : State) (q : Nat) : Keeps s (quadDown s q) := by
  unfold quadDown
  with_reducible repeat' first
    | (apply Keeps.after; apply quadClear_keeps)
    | (refine Keeps.upd ?_; first | exact Keeps.same | (apply Keeps.after; apply quadClear_keeps))

theorem powerQuads_keeps (s : State) : Keeps s (powerQuads s) := by
  unfold powerQuads
  with_reducible repeat' first
    | (apply Keeps.after; apply quadDown_keeps)
    | (apply Keeps.after; apply Keeps.forUpto; intro s x)
    | (refine Keeps.upd ?_; exact Keeps.same)
    | apply Keeps.ite

theorem invalidOn_keeps (s : State) (q cause : Nat) : Keeps s (invalidOn s q cause) := by
  unfold invalidOn
  with_reducible repeat' first
    | exact Keeps.same
    | (apply Keeps.after; apply onCtx_keeps)
    | (apply Keeps.after; apply Keeps.forUpto; intro s x)
    | split

theorem installProfile_keeps (s : State) (i : Nat) (p : Profile) : Keeps s (installProfile s i p) := by
  unfold installProfile
  with_reducible repeat' first | exact Keeps.same | (apply Keeps.after; apply setProf_keeps)

theorem placeStreams_keeps (s : State) (k : Nat) : Keeps s (placeStreams s k) := by
  unfold placeStreams
  with_reducible repeat' first
    | exact Keeps.same
    | (apply Keeps.after; apply onStream_keeps)
    | (apply Keeps.after; apply Keeps.foldl; intro s x)

theorem placeObjects_keeps (s : State) (k : Nat) : Keeps s (placeObjects s k) := by
  unfold placeObjects
  with_reducible repeat' first
    | exact Keeps.same
    | (apply Keeps.after; apply onSo_keeps)
    | (apply Keeps.after; apply Keeps.foldl; intro s x)
    | (refine Keeps.upd ?_; first | exact Keeps.same | (apply Keeps.after; apply onSo_keeps) | (apply Keeps.after; apply Keeps.foldl; intro s x) | apply Keeps.ite | split)

theorem placeBuffers_keeps (s : State) (k n : Nat) : Keeps s (placeBuffers s k n) := by
  unfold placeBuffers
  with_reducible repeat' first
    | exact Keeps.same
    | (apply Keeps.after; apply onBl_keeps)
    | (apply Keeps.after; apply Keeps.foldl; intro s x)

theorem placePlan_keeps (s : State) (src : PlanSource) (c : PlanCtx) : Keeps s (placePlan s src c).2 := by
  unfold placePlan
  with_reducible repeat' first
    | exact Keeps.same
    | (apply Keeps.after; first | apply onCtx_keeps | apply lockBase_keeps | apply installProfile_keeps | apply placeStreams_keeps | apply placeObjects_keeps | apply placeBuffers_keeps)
    | (apply Keeps.after; apply Keeps.foldl; intro s x)
    | (refine Keeps.upd ?_; first | exact Keeps.same | (apply Keeps.after; first | apply onCtx_keeps | apply lockBase_keeps | apply installProfile_keeps | apply placeStreams_keeps | apply placeObjects_keeps | apply placeBuffers_keeps) | (apply Keeps.after; apply Keeps.foldl; intro s x) | apply Keeps.ite | split | (refine Keeps.upd ?_; first | exact Keeps.same | (apply Keeps.after; first | apply onCtx_keeps | apply lockBase_keeps | apply installProfile_keeps | apply placeStreams_keeps | apply placeObjects_keeps | apply placeBuffers_keeps)))
    | apply Keeps.ite
    | split

theorem prunProfiles_keeps (s : State) : Keeps s (prunProfiles s) := by
  unfold prunProfiles
  with_reducible repeat' first
    | exact Keeps.same
    | (apply Keeps.after; apply setProf_keeps)
    | (apply Keeps.after; apply Keeps.foldl; intro s x)

theorem stopLoops_keeps (s : State) : Keeps s (stopLoops s) := by
  unfold stopLoops
  with_reducible repeat' first
    | exact Keeps.same
    | (apply Keeps.after; apply onLoop_keeps)
    | (refine Keeps.upd ?_; first | exact Keeps.same | (apply Keeps.after; apply onLoop_keeps) | apply Keeps.ite | split | (refine Keeps.upd ?_; first | exact Keeps.same | (apply Keeps.after; apply onLoop_keeps)))

theorem endWork_keeps (s : State) (k : Nat) : Keeps s (endWork s k) := by
  unfold endWork
  with_reducible repeat' first
    | exact Keeps.same
    | (apply Keeps.after; first | apply onQuad_keeps | apply onPort_keeps | apply endThreads_keeps)
    | (apply Keeps.after; apply Keeps.forUpto; intro s x)
    | (refine Keeps.upd ?_; first | exact Keeps.same | (apply Keeps.after; first | apply onQuad_keeps | apply onPort_keeps | apply endThreads_keeps) | (apply Keeps.after; apply Keeps.forUpto; intro s x) | apply Keeps.ite | split | (refine Keeps.upd ?_; first | exact Keeps.same | (apply Keeps.after; first | apply onQuad_keeps | apply onPort_keeps | apply endThreads_keeps)))

theorem freeObjects_keeps (s : State) (k : Nat) (c : PlanCtx) : Keeps s (freeObjects s k c) := by
  unfold freeObjects
  with_reducible repeat' first
    | exact Keeps.same
    | (refine Keeps.upd ?_; first | exact Keeps.same | apply Keeps.ite | split | (refine Keeps.upd ?_; first | exact Keeps.same))
    | apply Keeps.ite
    | split

theorem releasePlan_keeps (s : State) (k : Nat) : Keeps s (releasePlan s k) := by
  unfold releasePlan
  with_reducible repeat' first
    | exact Keeps.same
    | (apply Keeps.after; first | apply onCtx_keeps | apply swapSafe_keeps | apply releaseBank_keeps | apply reserveAll_keeps | apply abandonPhases_keeps | apply prunProfiles_keeps | apply stopLoops_keeps | apply endWork_keeps | apply freeObjects_keeps)
    | (apply Keeps.after; apply Keeps.foldl; intro s x)
    | apply Keeps.ite
    | split

theorem fetchFail_keeps (s : State) : Keeps s (fetchFail s) := by
  unfold fetchFail
  with_reducible repeat' first
    | exact Keeps.same
    | (apply Keeps.after; first | apply raise_keeps | apply abandonPhases_keeps | apply releasePlan_keeps)
    | split

theorem fetchWrite_sound (s : State) (page : Nat) : Sound s (fetchWrite s page) := by
  unfold fetchWrite
  with_reducible repeat' first
    | exact Sound.same
    | (apply Sound.after; first | (apply Keeps.sound; apply onCtx_keeps) | apply combWrite_sound)
    | (refine Sound.upd ?_; first | exact Sound.same | (apply Sound.after; first | (apply Keeps.sound; apply onCtx_keeps) | apply combWrite_sound) | apply Sound.ite | split | (refine Sound.upd ?_; first | exact Sound.same | (apply Sound.after; first | (apply Keeps.sound; apply onCtx_keeps) | apply combWrite_sound)))
    | apply Sound.ite
    | split

theorem planFetched_sound (s : State) : Sound s (planFetched s) := by
  unfold planFetched
  with_reducible repeat' first
    | exact Sound.same
    | (apply Sound.after; first | (apply Keeps.sound; apply onCtx_keeps) | (apply Keeps.sound; apply raise_keeps) | (apply Keeps.sound; apply fetchFail_keeps))
    | (refine Sound.upd ?_; first | exact Sound.same | (apply Sound.after; first | (apply Keeps.sound; apply onCtx_keeps) | (apply Keeps.sound; apply raise_keeps) | (apply Keeps.sound; apply fetchFail_keeps)) | apply Sound.ite | split | (refine Sound.upd ?_; first | exact Sound.same | (apply Sound.after; first | (apply Keeps.sound; apply onCtx_keeps) | (apply Keeps.sound; apply raise_keeps) | (apply Keeps.sound; apply fetchFail_keeps))))
    | apply Sound.ite
    | split

theorem execPlanFetchComplete_sound (s : State) : ∃ s', execPlanFetchComplete s = .next s' ∧ Sound s s' := by
  refine ⟨_, rfl, ?_⟩
  with_reducible repeat' first | exact Sound.same | (apply Sound.after; apply planFetched_sound) | split

theorem answerLost_sound (s : State) (winner : Nat) : Sound s (answerLost s winner) := by
  unfold answerLost; split
  · exact Sound.same
  · rename_i m _
    dsimp only
    refine Sound.after (turns_sound _ _) ?_
    refine Sound.after (setCur_sound _ _ 0 _ fun h => Nat.lt_of_le_of_lt (Nat.zero_le _) h.2.2) ?_
    refine Sound.after (respond_keeps _ m _ _ _ _ _ _).sound ?_
    refine Sound.after (raise_keeps _ _ _ _).sound ?_
    refine Sound.after (onMb_keeps _ m _).sound ?_
    exact journal_sound _ _ _ _ _ _ fun h => h.2.2

theorem readFailed_sound (s : State) (l : List Nat) : Sound s (readFailed s l) := by
  unfold readFailed
  with_reducible repeat' first
    | exact Sound.same
    | (apply Sound.after; first | (apply Keeps.sound; apply takeFree_keeps) | apply answer_sound)

theorem planLoad_sound (s : State) (src : PlanSource) : Sound s (planLoad s src) := by
  unfold planLoad
  with_reducible repeat' first
    | exact Sound.same
    | (apply Sound.after; first | apply answer_sound | (apply Keeps.sound; apply placePlan_keeps) | apply answerLost_sound)
    | (refine Sound.upd ?_; first | exact Sound.same | (apply Sound.after; first | apply answer_sound | (apply Keeps.sound; apply placePlan_keeps) | apply answerLost_sound) | apply Sound.ite | split | (refine Sound.upd ?_; first | exact Sound.same | (apply Sound.after; first | apply answer_sound | (apply Keeps.sound; apply placePlan_keeps) | apply answerLost_sound)))
    | apply Sound.ite
    | split

theorem execPlanLoad_sound (src : Option PlanSource) (s : State) : ∃ s', execPlanLoad src s = .next s' ∧ Sound s s' := by
  refine ⟨_, rfl, ?_⟩
  with_reducible repeat' first
    | (apply Sound.after; first | apply answer_sound | apply readFailed_sound | apply planLoad_sound)
    | refine onCmd_sound _ _ _ fun p => ?_
    | (refine Sound.upd ?_; exact Sound.same)
    | apply Sound.ite
    | split

theorem planReplace_sound (s : State) (k : Nat) (src : PlanSource) : Sound s (planReplace s k src) := by
  unfold planReplace
  with_reducible repeat' first
    | exact Sound.same
    | (apply Sound.after; first | (apply Keeps.sound; apply onCtx_keeps) | (apply Keeps.sound; apply reserveShadow_keeps) | apply answer_sound)
    | (refine Sound.upd ?_; first | exact Sound.same | (apply Sound.after; first | (apply Keeps.sound; apply onCtx_keeps) | (apply Keeps.sound; apply reserveShadow_keeps) | apply answer_sound) | apply Sound.ite | split | (refine Sound.upd ?_; first | exact Sound.same | (apply Sound.after; first | (apply Keeps.sound; apply onCtx_keeps) | (apply Keeps.sound; apply reserveShadow_keeps) | apply answer_sound)))
    | apply Sound.ite
    | split

theorem execPlanReplace_sound (src : Option PlanSource) (s : State) : ∃ s', execPlanReplace src s = .next s' ∧ Sound s s' := by
  refine ⟨_, rfl, ?_⟩
  with_reducible repeat' first
    | (apply Sound.after; first | (apply Keeps.sound; apply reserveAll_keeps) | (apply Keeps.sound; apply abandonPhases_keeps) | apply answer_sound | apply readFailed_sound | apply planReplace_sound)
    | refine onCmd_sound _ _ _ fun p => ?_
    | (refine Sound.upd ?_; exact Sound.same)
    | apply Sound.ite
    | split

theorem phaseReady_sound (s : State) (k : Nat) : Sound s (phaseReady s k) := by
  unfold phaseReady
  with_reducible repeat' first
    | exact Sound.same
    | (apply Sound.after; first | (apply Keeps.sound; apply onCtx_keeps) | (apply Keeps.sound; apply raise_keeps) | (apply Keeps.sound; apply fetchFail_keeps))
    | (refine Sound.upd ?_; first | exact Sound.same | (apply Sound.after; first | (apply Keeps.sound; apply onCtx_keeps) | (apply Keeps.sound; apply raise_keeps) | (apply Keeps.sound; apply fetchFail_keeps)) | apply Sound.ite | split | (refine Sound.upd ?_; first | exact Sound.same | (apply Sound.after; first | (apply Keeps.sound; apply onCtx_keeps) | (apply Keeps.sound; apply raise_keeps) | (apply Keeps.sound; apply fetchFail_keeps))))
    | apply Sound.ite
    | split

theorem execReplacePhaseReady_sound (c : Ctx) (s : State) : ∃ s', execReplacePhaseReady c s = .next s' ∧ Sound s s' := by
  refine ⟨_, rfl, ?_⟩
  with_reducible repeat' first | exact Sound.same | (apply Sound.after; apply phaseReady_sound) | split

theorem nextPhaseFetch_keeps (s : State) (k : Nat) : Keeps s (nextPhaseFetch s k) := by
  unfold nextPhaseFetch
  with_reducible repeat' first
    | exact Keeps.same
    | (refine Keeps.upd ?_; first | exact Keeps.same | apply Keeps.ite | split | (refine Keeps.upd ?_; first | exact Keeps.same))
    | apply Keeps.ite
    | split

theorem installPlan_keeps (s : State) (k : Nat) : Keeps s (installPlan s k) := by
  unfold installPlan
  with_reducible repeat' first
    | exact Keeps.same
    | (apply Keeps.after; first | apply onQuad_keeps | apply onCtx_keeps | apply afterTable_keeps | apply installTable_keeps | apply syncZero_keeps | apply powerQuads_keeps)
    | (apply Keeps.after; apply Keeps.forUpto; intro s x)
    | (refine Keeps.upd ?_; first | exact Keeps.same | (apply Keeps.after; first | apply onQuad_keeps | apply onCtx_keeps | apply afterTable_keeps | apply installTable_keeps | apply syncZero_keeps | apply powerQuads_keeps) | (apply Keeps.after; apply Keeps.forUpto; intro s x) | apply Keeps.ite | split | (refine Keeps.upd ?_; first | exact Keeps.same | (apply Keeps.after; first | apply onQuad_keeps | apply onCtx_keeps | apply afterTable_keeps | apply installTable_keeps | apply syncZero_keeps | apply powerQuads_keeps)))

theorem drainDone_keeps (s : State) (k : Nat) : Keeps s (drainDone s k) := by
  unfold drainDone
  with_reducible repeat' first
    | exact Keeps.same
    | (apply Keeps.after; first | apply onCtx_keeps | apply afterTable_keeps | apply installTable_keeps | apply endThreads_keeps | apply powerQuads_keeps)
    | (refine Keeps.upd ?_; first | exact Keeps.same | (apply Keeps.after; first | apply onCtx_keeps | apply afterTable_keeps | apply installTable_keeps | apply endThreads_keeps | apply powerQuads_keeps) | apply Keeps.ite | split)

theorem execPlanDrainComplete_keeps (c : Ctx) (s : State) : ∃ s', execPlanDrainComplete c s = .next s' ∧ Keeps s s' := by
  refine ⟨_, rfl, ?_⟩
  with_reducible repeat' first
    | exact Keeps.same
    | (apply Keeps.after; apply drainDone_keeps)
    | (refine atEdge_keeps _ _ fun s n => ?_)
    | apply Keeps.ite
    | split

theorem execPlanUnload_sound (s : State) : ∃ s', execPlanUnload s = .next s' ∧ Sound s s' := by
  refine ⟨_, rfl, ?_⟩
  with_reducible repeat' first
    | (apply Sound.after; first | (apply Keeps.sound; apply onCtx_keeps) | apply answer_sound)
    | refine onCmd_sound _ _ _ fun p => ?_
    | (refine Sound.upd ?_; exact Sound.same)
    | split

theorem execPlanFitmode_sound (s : State) : ∃ s', execPlanFitmode s = .next s' ∧ Sound s s' := by
  refine ⟨_, rfl, ?_⟩
  with_reducible repeat' first
    | (apply Sound.after; apply answer_sound)
    | refine onCmd_sound _ _ _ fun p => ?_
    | (refine Sound.upd ?_; exact Sound.same)
    | split

theorem dmaDone_sound (s : State) (src : PlanSource) : Sound s (dmaDone s src) := by
  unfold dmaDone
  with_reducible repeat' first
    | (apply Sound.after; first | apply answer_sound | apply planLoad_sound | apply planReplace_sound)
    | (refine Sound.upd ?_; exact Sound.same)
    | split

theorem execDmaReadComplete_sound (src : PlanSource) (s : State) : ∃ s', execDmaReadComplete src s = .next s' ∧ Sound s s' := by
  refine ⟨_, rfl, ?_⟩
  with_reducible repeat' first | exact Sound.same | (apply Sound.after; apply dmaDone_sound) | split

theorem dmaAllFail_sound (s : State) : Sound s (dmaAllFail s) := by
  unfold dmaAllFail
  with_reducible repeat' first
    | exact Sound.same
    | (apply Sound.after; first | (apply Keeps.sound; apply fetchFail_keeps) | apply readFailed_sound)
    | (refine Sound.upd ?_; first | exact Sound.same | (apply Sound.after; first | (apply Keeps.sound; apply fetchFail_keeps) | apply readFailed_sound) | apply Sound.ite | split)
    | split

theorem dmaFail_sound (s : State) : Sound s (dmaFail s) := by
  unfold dmaFail
  with_reducible repeat' first
    | exact Sound.same
    | (apply Sound.after; first | (apply Keeps.sound; apply fetchFail_keeps) | apply readFailed_sound)
    | split

theorem execDmaReadError_sound (s : State) : ∃ s', execDmaReadError s = .next s' ∧ Sound s s' := by
  refine ⟨_, rfl, ?_⟩
  with_reducible repeat' first | exact Sound.same | (apply Sound.after; apply dmaFail_sound) | split

theorem execDmaCompletionTimeout_sound (s : State) : ∃ s', execDmaCompletionTimeout s = .next s' ∧ Sound s s' := by
  refine ⟨_, rfl, ?_⟩
  with_reducible repeat' first | exact Sound.same | (apply Sound.after; apply dmaFail_sound) | split

/- Instances.lean. -/

theorem endBatch_keeps (s : State) (c adm : Nat) : Keeps s (endBatch s c adm) := by
  unfold endBatch
  with_reducible repeat' first
    | exact Keeps.same
    | (apply Keeps.after; first | apply onQuad_keeps | apply onThread_keeps | apply endThreads_keeps)
    | (apply Keeps.after; apply Keeps.foldl; intro s x)
    | (apply Keeps.after; apply Keeps.forUpto; intro s x)
    | (refine Keeps.upd ?_; first | exact Keeps.same | (apply Keeps.after; first | apply onQuad_keeps | apply onThread_keeps | apply endThreads_keeps) | (apply Keeps.after; apply Keeps.foldl; intro s x) | (apply Keeps.after; apply Keeps.forUpto; intro s x) | apply Keeps.ite | split | (refine Keeps.upd ?_; first | exact Keeps.same | (apply Keeps.after; first | apply onQuad_keeps | apply onThread_keeps | apply endThreads_keeps)))
    | apply Keeps.ite
    | split

theorem returnLent_keeps (s : State) (i : Nat) : Keeps s (returnLent s i) := by
  unfold returnLent
  with_reducible repeat' first | exact Keeps.same | (apply Keeps.after; apply onBl_keeps) | split

theorem finishInst_keeps (s : State) (c : Nat) (i : Inst) (e : Nat) : Keeps s (finishInst s c i e) := by
  unfold finishInst
  with_reducible repeat' first
    | exact Keeps.same
    | (apply Keeps.after; first | apply onCtx_keeps | apply complete_keeps | apply returnLent_keeps)
    | (apply Keeps.after; apply Keeps.foldl; intro s x)

theorem finishBatch_keeps (s : State) (c adm e : Nat) : Keeps s (finishBatch s c adm e) := by
  unfold finishBatch
  with_reducible repeat' first
    | exact Keeps.same
    | (apply Keeps.after; first | apply leaveHolds_keeps | apply endBatch_keeps | apply finishInst_keeps)
    | (apply Keeps.after; apply Keeps.foldl; intro s x)
    | apply Keeps.ite
    | split

theorem finishStopped_keeps (s : State) (e : Nat) : Keeps s (finishStopped s e) := by
  unfold finishStopped
  with_reducible repeat' first
    | exact Keeps.same
    | (apply Keeps.after; apply finishBatch_keeps)
    | (apply Keeps.after; apply Keeps.foldl; intro s x)
    | split

theorem completeCtx_keeps (s : State) (c e : Nat) : Keeps s (completeCtx s c e) := by
  unfold completeCtx
  with_reducible repeat' first
    | exact Keeps.same
    | (apply Keeps.after; apply finishBatch_keeps)
    | (apply Keeps.after; apply Keeps.foldl; intro s x)
    | split

theorem execInstanceComplete_keeps (c : Ctx) (s : State) : ∃ s', execInstanceComplete c s = .next s' ∧ Keeps s s' := by
  refine ⟨_, rfl, ?_⟩
  with_reducible repeat' first
    | exact Keeps.same
    | (apply Keeps.after; apply completeCtx_keeps)
    | refine atEdge_keeps _ _ fun s n => ?_
    | split

theorem stopCtx_keeps (s : State) (c cause : Nat) : Keeps s (stopCtx s c cause) := by
  unfold stopCtx
  with_reducible repeat' first | exact Keeps.same | (apply Keeps.after; apply onCtx_keeps)

theorem overrun_keeps (s : State) (c adm : Nat) : Keeps s (overrun s c adm) := by
  unfold overrun
  with_reducible repeat' first
    | exact Keeps.same
    | (apply Keeps.after; first | apply raise_keeps | apply faultBatch_keeps)
    | (refine Keeps.upd ?_; first | exact Keeps.same | (apply Keeps.after; first | apply raise_keeps | apply faultBatch_keeps) | apply Keeps.ite | split | (refine Keeps.upd ?_; first | exact Keeps.same | (apply Keeps.after; first | apply raise_keeps | apply faultBatch_keeps)))

theorem policyCtx_keeps (s : State) (c e : Nat) : Keeps s (policyCtx s c e) := by
  unfold policyCtx
  with_reducible repeat' first
    | exact Keeps.same
    | (apply Keeps.after; first | apply onCtx_keeps | apply applyHalt_keeps)
    | apply Keeps.ite

theorem haltStop_keeps (s : State) (c e : Nat) : Keeps s (haltStop s c e) := by
  unfold haltStop
  with_reducible repeat' first | exact Keeps.same | (apply Keeps.after; first | apply onCtx_keeps | apply stopCtx_keeps) | split

theorem judgeEdge_keeps (s : State) (e : Nat) : Keeps s (judgeEdge s e) := by
  unfold judgeEdge
  with_reducible repeat' first
    | exact Keeps.same
    | (apply Keeps.after; first | apply raise_keeps | apply blockedProceed_keeps | apply waitTimeout_keeps | apply overrun_keeps | apply policyCtx_keeps | apply haltStop_keeps)
    | (apply Keeps.after; apply Keeps.foldl; intro s x)
    | (apply Keeps.after; apply Keeps.forUpto; intro s x)
    | apply Keeps.ite
    | split

/- Staged.lean. -/

theorem cancelLate_keeps (s : State) : Keeps s (cancelLate s) := by
  unfold cancelLate
  with_reducible repeat' first
    | exact Keeps.same
    | (apply Keeps.after; apply onLoop_keeps)
    | (refine Keeps.upd ?_; first | exact Keeps.same | (apply Keeps.after; apply onLoop_keeps) | apply Keeps.ite | split | (refine Keeps.upd ?_; first | exact Keeps.same | (apply Keeps.after; apply onLoop_keeps)))
    | apply Keeps.ite
    | split

theorem holdApply_keeps (s : State) (mode : Nat) : Keeps s (holdApply s mode) := by
  unfold holdApply
  with_reducible repeat' first
    | exact Keeps.same
    | (apply Keeps.after; first | apply afterTable_keeps | apply swapSafe_keeps | apply cancelLate_keeps)
    | (refine Keeps.upd ?_; first | exact Keeps.same | (apply Keeps.after; first | apply afterTable_keeps | apply swapSafe_keeps | apply cancelLate_keeps) | apply Keeps.ite | split | (refine Keeps.upd ?_; first | exact Keeps.same | (apply Keeps.after; first | apply afterTable_keeps | apply swapSafe_keeps | apply cancelLate_keeps)))
    | apply Keeps.ite
    | split

theorem rosterApply_keeps (s : State) (p : List Byte) : Keeps s (rosterApply s p) := by
  unfold rosterApply
  with_reducible repeat' first
    | exact Keeps.same
    | (apply Keeps.after; first | apply onPort_keeps | apply clearWindow_keeps | apply noPortx_keeps | apply portTrain_keeps)
    | (apply Keeps.after; apply Keeps.foldl; intro s x)
    | (apply Keeps.after; apply Keeps.forUpto; intro s x)
    | (refine Keeps.upd ?_; first | exact Keeps.same | (apply Keeps.after; first | apply onPort_keeps | apply clearWindow_keeps | apply noPortx_keeps | apply portTrain_keeps) | (apply Keeps.after; apply Keeps.foldl; intro s x) | (apply Keeps.after; apply Keeps.forUpto; intro s x) | apply Keeps.ite | split | (refine Keeps.upd ?_; first | exact Keeps.same | (apply Keeps.after; first | apply onPort_keeps | apply clearWindow_keeps | apply noPortx_keeps | apply portTrain_keeps)))
    | apply Keeps.ite
    | split

theorem keySwitch_keeps (s : State) : Keeps s (keySwitch s) := by
  unfold keySwitch
  with_reducible repeat' first
    | (apply Keeps.after; first | apply hwState_keeps | apply closeGroup_keeps)
    | (apply Keeps.after; apply Keeps.forUpto; intro s x)
    | (refine Keeps.upd ?_; first | exact Keeps.same | (apply Keeps.after; apply Keeps.forUpto; intro s x))

theorem ledgerClear_keeps (s : State) : Keeps s (ledgerClear s) := by
  unfold ledgerClear
  with_reducible repeat' first
    | (apply Keeps.after; apply onCtx_keeps)
    | (apply Keeps.after; apply Keeps.forUpto; intro s x)
    | (refine Keeps.upd ?_; exact Keeps.same)

theorem hiveReset_keeps (s : State) (e : Nat) : Keeps s (hiveReset s e) := by
  unfold hiveReset
  with_reducible repeat' first
    | (apply Keeps.after; first | apply onQuad_keeps | apply onCtx_keeps | apply endThreads_keeps | apply syncZero_keeps | apply placeStreams_keeps | apply finishStopped_keeps | apply stopCtx_keeps | apply ledgerClear_keeps)
    | (apply Keeps.after; apply Keeps.forUpto; intro s x)
    | (refine Keeps.upd ?_; exact Keeps.same)
    | split

theorem toleranceApply_keeps (s : State) (id tol : Nat) : Keeps s (toleranceApply s id tol) := by
  unfold toleranceApply
  with_reducible repeat' first
    | (apply Keeps.after; first | apply onCtx_keeps | apply wakeTolerance_keeps | apply retarget421_keeps)
    | (refine Keeps.upd ?_; exact Keeps.same)
    | split

theorem applyMember_keeps (s : State) (op : Nat) (p : List Byte) (e : Nat) : Keeps s (applyMember s op p e) := by
  unfold applyMember
  with_reducible repeat' first
    | exact Keeps.same
    | (apply Keeps.after; first | apply onCtx_keeps | apply onStream_keeps | apply refSwitch_keeps | apply masterEnable_keeps | apply swapPhase_keeps | apply streamApply_keeps | apply nextPhaseFetch_keeps | apply installPlan_keeps | apply holdApply_keeps | apply rosterApply_keeps | apply keySwitch_keeps | apply hiveReset_keeps | apply toleranceApply_keeps)
    | (apply Keeps.elim (fun _ => ?_) ?_)
    | (refine Keeps.upd ?_; first | exact Keeps.same | (apply Keeps.after; first | apply onCtx_keeps | apply onStream_keeps | apply refSwitch_keeps | apply masterEnable_keeps | apply swapPhase_keeps | apply streamApply_keeps | apply nextPhaseFetch_keeps | apply installPlan_keeps | apply holdApply_keeps | apply rosterApply_keeps | apply keySwitch_keeps | apply hiveReset_keeps | apply toleranceApply_keeps) | apply Keeps.ite | split | (refine Keeps.upd ?_; first | exact Keeps.same | (apply Keeps.after; first | apply onCtx_keeps | apply onStream_keeps | apply refSwitch_keeps | apply masterEnable_keeps | apply swapPhase_keeps | apply streamApply_keeps | apply nextPhaseFetch_keeps | apply installPlan_keeps | apply holdApply_keeps | apply rosterApply_keeps | apply keySwitch_keeps | apply hiveReset_keeps | apply toleranceApply_keeps)))
    | apply Keeps.ite
    | split

/- Grafts.lean. -/

theorem projected_keeps (s : State) (upto : Option Nat) : Keeps s (projected s upto) := by
  unfold projected
  with_reducible repeat' first
    | exact Keeps.same
    | (apply Keeps.after; apply applyMember_keeps)
    | (apply Keeps.after; apply Keeps.foldl; intro s x)
    | split

theorem stageOne_keeps (s : State) (op : Nat) (p : List Byte) (edge : Nat) : Keeps s (stageOne s op p edge) := by
  unfold stageOne
  exact Keeps.upd Keeps.same

theorem stageCmd_sound (s : State) (op : Nat) (p : List Byte) : Sound s (stageCmd s op p) := by
  unfold stageCmd
  with_reducible repeat' first
    | exact Sound.same
    | (apply Sound.after; first | apply answerAt_sound | apply answer_sound | (apply Keeps.sound; apply stageOne_keeps))
    | apply Sound.ite

theorem execPlanActivate_sound (s : State) : ∃ s', execPlanActivate s = .next s' ∧ Sound s s' := by
  refine ⟨_, rfl, ?_⟩
  with_reducible repeat' first
    | exact Sound.same
    | (apply Sound.after; apply stageCmd_sound)
    | refine onCmd_sound _ _ _ fun p => ?_

theorem execPlanDeactivate_sound (s : State) : ∃ s', execPlanDeactivate s = .next s' ∧ Sound s s' := by
  refine ⟨_, rfl, ?_⟩
  with_reducible repeat' first
    | exact Sound.same
    | (apply Sound.after; apply stageCmd_sound)
    | refine onCmd_sound _ _ _ fun p => ?_

theorem execPlanSwap_sound (s : State) : ∃ s', execPlanSwap s = .next s' ∧ Sound s s' := by
  refine ⟨_, rfl, ?_⟩
  with_reducible repeat' first
    | exact Sound.same
    | (apply Sound.after; apply stageCmd_sound)
    | refine onCmd_sound _ _ _ fun p => ?_

theorem execXmShare_sound (s : State) : ∃ s', execXmShare s = .next s' ∧ Sound s s' := by
  refine ⟨_, rfl, ?_⟩
  with_reducible repeat' first
    | exact Sound.same
    | (apply Sound.after; apply stageCmd_sound)
    | refine onCmd_sound _ _ _ fun p => ?_

theorem execBeatMasterEn_sound (s : State) : ∃ s', execBeatMasterEn s = .next s' ∧ Sound s s' := by
  refine ⟨_, rfl, ?_⟩
  with_reducible repeat' first
    | exact Sound.same
    | (apply Sound.after; apply stageCmd_sound)
    | refine onCmd_sound _ _ _ fun p => ?_

theorem execRefSelect_sound (s : State) : ∃ s', execRefSelect s = .next s' ∧ Sound s s' := by
  refine ⟨_, rfl, ?_⟩
  with_reducible repeat' first
    | exact Sound.same
    | (apply Sound.after; first | (apply Keeps.sound; apply checkRefs_keeps) | apply stageCmd_sound)
    | refine onCmd_sound _ _ _ fun p => ?_

theorem execHiveRoster_sound (s : State) : ∃ s', execHiveRoster s = .next s' ∧ Sound s s' := by
  refine ⟨_, rfl, ?_⟩
  with_reducible repeat' first
    | exact Sound.same
    | (apply Sound.after; apply stageCmd_sound)
    | refine onCmd_sound _ _ _ fun p => ?_

theorem execHiveKeySwitch_sound (s : State) : ∃ s', execHiveKeySwitch s = .next s' ∧ Sound s s' := by
  refine ⟨_, rfl, ?_⟩
  with_reducible repeat' first
    | exact Sound.same
    | (apply Sound.after; apply stageCmd_sound)
    | refine onCmd_sound _ _ _ fun p => ?_

theorem execHiveReset_sound (s : State) : ∃ s', execHiveReset s = .next s' ∧ Sound s s' := by
  refine ⟨_, rfl, ?_⟩
  with_reducible repeat' first
    | exact Sound.same
    | (apply Sound.after; apply stageCmd_sound)
    | refine onCmd_sound _ _ _ fun p => ?_

theorem execPwrTolerance_sound (s : State) : ∃ s', execPwrTolerance s = .next s' ∧ Sound s s' := by
  refine ⟨_, rfl, ?_⟩
  with_reducible repeat' first
    | exact Sound.same
    | (apply Sound.after; apply stageCmd_sound)
    | refine onCmd_sound _ _ _ fun p => ?_

theorem onAction_keeps (s : State) (op at' act max : Nat) (f : List Byte → State) (h : ∀ p, Keeps s (f p)) :
    Keeps s (onAction s op at' act max f) :=
  onCmd_keeps _ _ _ fun p => Keeps.ite _ (h p) Keeps.same

theorem onAction_sound (s : State) (op at' act max : Nat) (f : List Byte → State) (h : ∀ p, Sound s (f p)) :
    Sound s (onAction s op at' act max f) :=
  onCmd_sound _ _ _ fun p => Sound.ite _ (h p) Sound.same

theorem execSynHoldRelease_sound (s : State) : ∃ s', execSynHoldRelease s = .next s' ∧ Sound s s' := by
  refine ⟨_, rfl, ?_⟩
  with_reducible repeat' first
    | exact Sound.same
    | (apply Sound.after; apply stageCmd_sound)
    | refine onAction_sound _ _ _ _ _ _ fun p => ?_

theorem execSynHoldFreeze_sound (s : State) : ∃ s', execSynHoldFreeze s = .next s' ∧ Sound s s' := by
  refine ⟨_, rfl, ?_⟩
  with_reducible repeat' first
    | exact Sound.same
    | (apply Sound.after; apply stageCmd_sound)
    | refine onAction_sound _ _ _ _ _ _ fun p => ?_

theorem execSynHoldSafeClock_sound (s : State) : ∃ s', execSynHoldSafeClock s = .next s' ∧ Sound s s' := by
  refine ⟨_, rfl, ?_⟩
  with_reducible repeat' first
    | exact Sound.same
    | (apply Sound.after; apply stageCmd_sound)
    | refine onAction_sound _ _ _ _ _ _ fun p => ?_

theorem execStreamCtlPause_sound (s : State) : ∃ s', execStreamCtlPause s = .next s' ∧ Sound s s' := by
  refine ⟨_, rfl, ?_⟩
  with_reducible repeat' first
    | exact Sound.same
    | (apply Sound.after; apply stageCmd_sound)
    | refine onAction_sound _ _ _ _ _ _ fun p => ?_

theorem execStreamCtlResume_sound (s : State) : ∃ s', execStreamCtlResume s = .next s' ∧ Sound s s' := by
  refine ⟨_, rfl, ?_⟩
  with_reducible repeat' first
    | exact Sound.same
    | (apply Sound.after; apply stageCmd_sound)
    | refine onAction_sound _ _ _ _ _ _ fun p => ?_

theorem execStreamCtlReset_sound (s : State) : ∃ s', execStreamCtlReset s = .next s' ∧ Sound s s' := by
  refine ⟨_, rfl, ?_⟩
  with_reducible repeat' first
    | exact Sound.same
    | (apply Sound.after; apply stageCmd_sound)
    | refine onAction_sound _ _ _ _ _ _ fun p => ?_

theorem execStreamCtlEnd_sound (s : State) : ∃ s', execStreamCtlEnd s = .next s' ∧ Sound s s' := by
  refine ⟨_, rfl, ?_⟩
  with_reducible repeat' first
    | exact Sound.same
    | (apply Sound.after; apply stageCmd_sound)
    | refine onAction_sound _ _ _ _ _ _ fun p => ?_

theorem afterMembers_keeps (view : State) (ms : List Member) (e : Nat) : Keeps view (afterMembers view ms e) := by
  unfold afterMembers
  with_reducible repeat' first
    | exact Keeps.same
    | (apply Keeps.after; apply applyMember_keeps)
    | (apply Keeps.after; apply Keeps.foldl; intro s x)

theorem graftStage_sound (s : State) (p : List Byte) : Sound s (graftStage s p) := by
  unfold graftStage
  with_reducible repeat' first
    | (apply Sound.after; apply answer_sound)
    | (refine Sound.upd ?_; first | exact Sound.same | split)

theorem execGraftStage_sound (s : State) : ∃ s', execGraftStage s = .next s' ∧ Sound s s' := by
  refine ⟨_, rfl, ?_⟩
  with_reducible repeat' first
    | exact Sound.same
    | (apply Sound.after; apply graftStage_sound)
    | refine onCmd_sound _ _ _ fun p => ?_

theorem graftCommit_sound (s : State) (p : List Byte) : Sound s (graftCommit s p) := by
  unfold graftCommit
  with_reducible repeat' first
    | (apply Sound.after; first | apply answerAt_sound | apply answer_sound)
    | (refine Sound.upd ?_; first | exact Sound.same | split)

theorem execGraftCommit_sound (s : State) : ∃ s', execGraftCommit s = .next s' ∧ Sound s s' := by
  refine ⟨_, rfl, ?_⟩
  with_reducible repeat' first
    | exact Sound.same
    | (apply Sound.after; apply graftCommit_sound)
    | refine onCmd_sound _ _ _ fun p => ?_

theorem graftAbort_sound (s : State) (p : List Byte) : Sound s (graftAbort s p) := by
  unfold graftAbort
  with_reducible repeat' first
    | (apply Sound.after; apply answer_sound)
    | (refine Sound.upd ?_; exact Sound.same)
    | apply Sound.ite
    | split

theorem execGraftAbort_sound (s : State) : ∃ s', execGraftAbort s = .next s' ∧ Sound s s' := by
  refine ⟨_, rfl, ?_⟩
  with_reducible repeat' first
    | exact Sound.same
    | (apply Sound.after; apply graftAbort_sound)
    | refine onCmd_sound _ _ _ fun p => ?_

theorem putGraft_keeps (s : State) (seq : Nat) (g : Option Graft) : Keeps s (putGraft s seq g) := by
  unfold putGraft
  exact Keeps.upd Keeps.same

theorem journalPhase_sound (s : State) (g : Graft) (st e : Nat) : Sound s (journalPhase s g st e) := by
  unfold journalPhase
  exact (takeSeq_sound s).trans (jWrite_sound _ _ (fun _ => Nat.lt_succ_self _))

theorem abandonPhase_sound (s : State) (g : Graft) (st e : Nat) : Sound s (abandonPhase s g st e) := by
  unfold abandonPhase
  with_reducible repeat' first
    | exact Sound.same
    | (apply Sound.after; first | (apply Keeps.sound; apply raiseAt_keeps) | (apply Keeps.sound; apply putGraft_keeps) | apply journalPhase_sound)
    | (apply Sound.after; apply Sound.forUpto; intro s x)
    | (refine Sound.upd ?_; first | exact Sound.same | (apply Sound.after; first | (apply Keeps.sound; apply raiseAt_keeps) | (apply Keeps.sound; apply putGraft_keeps) | apply journalPhase_sound) | (apply Sound.after; apply Sound.forUpto; intro s x) | apply Sound.ite | split | (refine Sound.upd ?_; first | exact Sound.same | (apply Sound.after; first | (apply Keeps.sound; apply raiseAt_keeps) | (apply Keeps.sound; apply putGraft_keeps) | apply journalPhase_sound)))

theorem applyPhase_keeps (e : Nat) (s : State) (l : List Member) : Keeps s (applyPhase e s l).2 := by
  induction l generalizing s with
  | nil => exact Keeps.same
  | cons m r ih =>
    unfold applyPhase; dsimp only
    generalize checkState _ _ _ _ = st
    have h := (applyMember_keeps s m.op m.payload e).trans (ih _)
    repeat' split
    all_goals first | exact h | exact Keeps.same

theorem dueChange_sound (s : State) (g : Graft) (e : Nat) : Sound s (dueChange s g e) := by
  unfold dueChange
  with_reducible repeat' first
    | (apply Sound.after; first | (apply Keeps.sound; apply raiseAt_keeps) | (apply Keeps.sound; apply putGraft_keeps) | apply journalPhase_sound | apply abandonPhase_sound | (apply Keeps.sound; apply applyPhase_keeps))
    | (refine Sound.upd ?_; first | exact Sound.same | (apply Sound.after; first | (apply Keeps.sound; apply raiseAt_keeps) | (apply Keeps.sound; apply putGraft_keeps) | apply journalPhase_sound | apply abandonPhase_sound | (apply Keeps.sound; apply applyPhase_keeps)))
    | apply Sound.ite
    | split

theorem applyDue_sound (s : State) (e : Nat) : Sound s (applyDue s e) := by
  unfold applyDue
  with_reducible repeat' first
    | exact Sound.same
    | (apply Sound.after; apply dueChange_sound)
    | (apply Sound.after; apply Sound.foldl; intro s x)
    | split

theorem execGraftPhaseApply_sound (s : State) : ∃ s', execGraftPhaseApply s = .next s' ∧ Sound s s' := by
  refine ⟨_, rfl, ?_⟩
  with_reducible repeat' first
    | exact Sound.same
    | (apply Sound.after; apply applyDue_sound)
    | refine atEdge_sound _ _ fun s n => ?_
    | split

theorem execGraftWaitLimit_sound (s : State) : ∃ s', execGraftWaitLimit s = .next s' ∧ Sound s s' := by
  refine ⟨_, rfl, ?_⟩
  with_reducible repeat' first
    | exact Sound.same
    | (apply Sound.after; apply abandonPhase_sound)
    | refine atEdge_sound _ _ fun s n => ?_
    | (apply Sound.after; apply Sound.foldl; intro s x)
    | split

end Sys2Proof.Machine
end

