-- ==== Sys2Proof/Laws/FrameHost.lean ====
section
/-! SUPPORT. What each operation of Regs, Ports, Inflow, HostCmds leaves alone, or keeps. -/

namespace Sys2Proof.Machine

set_option Elab.async false

open Sys2Proof

/- Regs.lean. -/

theorem accessErr_keeps (s : State) : Keeps s (accessErr s) := by
  unfold accessErr
  exact Keeps.upd Keeps.same

theorem rcQuad_keeps (s : State) (off u : Nat) : Keeps s (rcQuad s off u) := by
  unfold rcQuad
  with_reducible repeat' first | exact Keeps.same | (apply Keeps.after; apply onQuad_keeps) | apply Keeps.ite

theorem rcLinks_keeps (s : State) (o u : Nat) : Keeps s (rcLinks s o u) := by
  unfold rcLinks
  with_reducible repeat' first | (apply Keeps.after; apply onPort_keeps) | (refine Keeps.upd ?_; exact Keeps.same) | split

theorem rcArb_keeps (s : State) (o u : Nat) : Keeps s (rcArb s o u) := by
  unfold rcArb
  with_reducible repeat' first | exact Keeps.same | (apply Keeps.after; apply onArb_keeps)

theorem rcSensors_keeps (s : State) (o : Nat) (u : Word) : Keeps s (rcSensors s o u) := by
  unfold rcSensors
  with_reducible repeat' first
    | exact Keeps.same
    | (refine Keeps.upd ?_; first | exact Keeps.same | apply Keeps.ite | split | (refine Keeps.upd ?_; first | exact Keeps.same))
    | apply Keeps.ite
    | split

theorem rcPut_keeps (s : State) (off : Nat) (u : Word) : Keeps s (rcPut s off u) := by
  unfold rcPut
  with_reducible repeat' first
    | exact Keeps.same
    | (apply Keeps.after; first | apply onMb_keeps | apply rcQuad_keeps | apply rcLinks_keeps | apply rcArb_keeps | apply rcSensors_keeps)
    | (refine Keeps.upd ?_; first | exact Keeps.same | (apply Keeps.after; first | apply onMb_keeps | apply rcQuad_keeps | apply rcLinks_keeps | apply rcArb_keeps | apply rcSensors_keeps) | apply Keeps.ite | split | (refine Keeps.upd ?_; first | exact Keeps.same | (apply Keeps.after; first | apply onMb_keeps | apply rcQuad_keeps | apply rcLinks_keeps | apply rcArb_keeps | apply rcSensors_keeps)))
    | apply Keeps.ite
    | split

theorem dropLatch_keeps (s : State) (off : Nat) : Keeps s (dropLatch s off) := by
  unfold dropLatch
  exact Keeps.upd Keeps.same

theorem hostRead32_keeps (s : State) (off : Nat) (u : Word) : Keeps s (hostRead32 s off u) := by
  unfold hostRead32
  with_reducible repeat' first
    | (apply Keeps.after; first | apply accessErr_keeps | apply rcPut_keeps | apply dropLatch_keeps)
    | (refine Keeps.upd ?_; exact Keeps.same)
    | split

theorem onRing_keeps (s : State) (c : Bool) (f : Ring → Ring) : Keeps s (onRing s c f) := by
  unfold onRing
  with_reducible repeat' first | (refine Keeps.upd ?_; exact Keeps.same) | split

theorem ringRoom_keeps (s : State) (c : Bool) : Keeps s (ringRoom s c) := by
  unfold ringRoom
  with_reducible repeat' first
    | exact Keeps.same
    | (apply Keeps.after; first | apply evrOverflow_keeps | apply bootqDeliver_keeps | apply drainBacklog_keeps)
    | split

theorem ringCfgWrite_keeps (s : State) (c : Bool) (v : Word) : Keeps s (ringCfgWrite s c v) := by
  unfold ringCfgWrite
  with_reducible repeat' first
    | exact Keeps.same
    | (apply Keeps.after; first | apply accessErr_keeps | apply onRing_keeps | apply ringRoom_keeps)
    | split

theorem ringHeadWrite_keeps (s : State) (c : Bool) (v : Nat) : Keeps s (ringHeadWrite s c v) := by
  unfold ringHeadWrite
  with_reducible repeat' first
    | exact Keeps.same
    | (apply Keeps.after; first | apply accessErr_keeps | apply onRing_keeps | apply ringRoom_keeps)
    | apply Keeps.ite

theorem ringBaseWrite_keeps (s : State) (c : Bool) (lo : Nat) : Keeps s (ringBaseWrite s c lo) := by
  unfold ringBaseWrite
  with_reducible repeat' first
    | (apply Keeps.after; first | apply accessErr_keeps | apply dropLatch_keeps | apply onRing_keeps)
    | (refine Keeps.upd ?_; exact Keeps.same)
    | apply Keeps.ite

theorem flushQueue_keeps (s : State) : Keeps s (flushQueue s) := by
  unfold flushQueue
  exact Keeps.upd Keeps.same

theorem flushDue_keeps (s : State) : Keeps s (flushDue s) := by
  unfold flushDue
  with_reducible repeat' first | exact Keeps.same | (apply Keeps.after; apply flushQueue_keeps) | split

theorem inflowCtl_keeps (s : State) (v : Word) : Keeps s (inflowCtl s v) := by
  unfold inflowCtl
  with_reducible repeat' first
    | (apply Keeps.after; first | apply flushQueue_keeps | apply flushDue_keeps)
    | (refine Keeps.upd ?_; first | exact Keeps.same | split)

theorem intmaskWrite_keeps (s : State) (v : Word) : Keeps s (intmaskWrite s v) := by
  unfold intmaskWrite
  with_reducible repeat' first | (apply Keeps.after; apply signalPending_keeps) | (refine Keeps.upd ?_; exact Keeps.same)

theorem w1cQuad_keeps (s : State) (off : Nat) (v sc : Word) : Keeps s (w1cQuad s off v sc) := by
  unfold w1cQuad
  with_reducible repeat' first | exact Keeps.same | (apply Keeps.after; apply onQuad_keeps) | split

theorem w1cCause_keeps (s : State) (v sc : Word) : Keeps s (w1cCause s v sc) := by
  unfold w1cCause
  exact Keeps.upd Keeps.same

theorem w1cCpstat_keeps (s : State) (v sc : Word) : Keeps s (w1cCpstat s v sc) := by
  unfold w1cCpstat
  exact Keeps.upd Keeps.same

theorem msixWrite_keeps (s : State) (o : Nat) (v : Word) : Keeps s (msixWrite s o v) := by
  unfold msixWrite
  with_reducible repeat' first
    | (apply Keeps.after; apply signalPending_keeps)
    | (refine Keeps.upd ?_; exact Keeps.same)
    | split

theorem writeReg_sound (s : State) (off : Nat) (v sc : Word) : Sound s (writeReg s off v sc) := by
  unfold writeReg
  with_reducible repeat' first
    | (apply Sound.after; first | apply doorbell_sound | (apply Keeps.sound; apply pageWrite_keeps) | (apply Keeps.sound; apply ringCfgWrite_keeps) | (apply Keeps.sound; apply ringHeadWrite_keeps) | (apply Keeps.sound; apply ringBaseWrite_keeps) | (apply Keeps.sound; apply inflowCtl_keeps) | (apply Keeps.sound; apply intmaskWrite_keeps) | (apply Keeps.sound; apply w1cQuad_keeps) | (apply Keeps.sound; apply w1cCause_keeps) | (apply Keeps.sound; apply w1cCpstat_keeps) | (apply Keeps.sound; apply msixWrite_keeps))
    | (refine Sound.upd ?_; first | exact Sound.same | apply Sound.ite)

theorem hostWrite32_sound (s : State) (off : Nat) (v sc : Word) : Sound s (hostWrite32 s off v sc) := by
  unfold hostWrite32
  with_reducible repeat' first
    | (apply Sound.after; first | (apply Keeps.sound; apply accessErr_keeps) | (apply Keeps.sound; apply dropLatch_keeps) | apply writeReg_sound)
    | (refine Sound.upd ?_; exact Sound.same)
    | split

theorem execRegisterWrite_sound (off : Nat) (v sameClock : Word) (s : State) : ∃ s', execRegisterWrite off v sameClock s = .next s' ∧ Sound s s' := by
  refine ⟨_, rfl, ?_⟩
  with_reducible repeat' first | exact Sound.same | (apply Sound.after; apply hostWrite32_sound) | split

theorem execRcFieldRead_keeps (off : Nat) (sameClock : Word) (s : State) : ∃ s', execRcFieldRead off sameClock s = .next s' ∧ Keeps s s' := by
  refine ⟨_, rfl, ?_⟩
  with_reducible repeat' first | exact Keeps.same | (apply Keeps.after; apply hostRead32_keeps) | split

theorem execLowWordRead_keeps (off : Nat) (s : State) : ∃ s', execLowWordRead off s = .next s' ∧ Keeps s s' := by
  refine ⟨_, rfl, ?_⟩
  with_reducible repeat' first | exact Keeps.same | (apply Keeps.after; apply hostRead32_keeps) | split

theorem execHighWordWrite_sound (off : Nat) (v : Word) (s : State) : ∃ s', execHighWordWrite off v s = .next s' ∧ Sound s s' := by
  refine ⟨_, rfl, ?_⟩
  with_reducible repeat' first | exact Sound.same | (apply Sound.after; apply hostWrite32_sound) | split

theorem execMisalignedAccess_keeps (write : Bool) (off width : Nat) (s : State) : ∃ s', execMisalignedAccess write off width s = .next s' ∧ Keeps s s' := by
  refine ⟨_, rfl, ?_⟩
  with_reducible repeat' first | (apply Keeps.after; apply accessErr_keeps) | (refine Keeps.upd ?_; exact Keeps.same) | split

theorem execUndefinedOffsetAccess_sound (write : Bool) (off : Nat) (s : State) : ∃ s', execUndefinedOffsetAccess write off s = .next s' ∧ Sound s s' := by
  refine ⟨_, rfl, ?_⟩
  with_reducible repeat' first
    | exact Sound.same
    | (apply Sound.after; first | (apply Keeps.sound; apply hostRead32_keeps) | apply hostWrite32_sound)
    | split

theorem execRingEnable_keeps (completion : Bool) (cfg : Word) (s : State) : ∃ s', execRingEnable completion cfg s = .next s' ∧ Keeps s s' := by
  refine ⟨_, rfl, ?_⟩
  with_reducible repeat' first | exact Keeps.same | (apply Keeps.after; apply ringCfgWrite_keeps) | split

theorem execRingHeadWrite_keeps (completion : Bool) (v : Word) (s : State) : ∃ s', execRingHeadWrite completion v s = .next s' ∧ Keeps s s' := by
  refine ⟨_, rfl, ?_⟩
  with_reducible repeat' first | exact Keeps.same | (apply Keeps.after; apply ringHeadWrite_keeps) | split

theorem execRingSetupWrite_sound (completion : Bool) (word : Fin 3) (v : Word) (s : State) : ∃ s', execRingSetupWrite completion word v s = .next s' ∧ Sound s s' := by
  refine ⟨_, rfl, ?_⟩
  with_reducible repeat' first | exact Sound.same | (apply Sound.after; apply hostWrite32_sound) | split

theorem execIntmaskWrite_keeps (v : Word) (s : State) : ∃ s', execIntmaskWrite v s = .next s' ∧ Keeps s s' := by
  refine ⟨_, rfl, ?_⟩
  with_reducible repeat' first | exact Keeps.same | (apply Keeps.after; apply intmaskWrite_keeps) | split

theorem execFlushNow_keeps (s : State) : ∃ s', execFlushNow s = .next s' ∧ Keeps s s' := by
  refine ⟨_, rfl, ?_⟩
  with_reducible repeat' first | exact Keeps.same | (apply Keeps.after; apply inflowCtl_keeps) | split

theorem execFlushPkt_keeps (s : State) : ∃ s', execFlushPkt s = .next s' ∧ Keeps s s' := by
  refine ⟨_, rfl, ?_⟩
  with_reducible repeat' first | exact Keeps.same | (apply Keeps.after; apply inflowCtl_keeps) | split

theorem execFlushPktComplete_keeps (s : State) : ∃ s', execFlushPktComplete s = .next s' ∧ Keeps s s' := by
  refine ⟨_, rfl, ?_⟩
  with_reducible repeat' first | exact Keeps.same | (apply Keeps.after; apply flushDue_keeps) | split

/- Ports.lean. -/

theorem onJob_keeps (s : State) (q id : Nat) (f : PortJob → PortJob) : Keeps s (onJob s q id f) := by
  unfold onJob
  with_reducible repeat' first | exact Keeps.same | (apply Keeps.after; apply onArb_keeps)

theorem presentReq_keeps (s : State) (q : Nat) (e : PqEntry) : Keeps s (presentReq s q e) := by
  unfold presentReq
  with_reducible repeat' first | exact Keeps.same | (apply Keeps.after; apply onArb_keeps) | apply Keeps.ite

theorem portRequest_keeps (s : State) (q id page len : Nat) : Keeps s (portRequest s q id page len) := by
  unfold portRequest
  with_reducible repeat' first
    | exact Keeps.same
    | (apply Keeps.after; first | apply onJob_keeps | apply presentReq_keeps)
    | (refine Keeps.upd ?_; first | exact Keeps.same | (apply Keeps.after; first | apply onJob_keeps | apply presentReq_keeps) | apply Keeps.ite | split)
    | apply Keeps.ite
    | split

theorem execSidePortRequest_keeps (q : Quad) (id : Fin 14) (page : Nat) (len : Nat) (s : State) : ∃ s', execSidePortRequest q id page len s = .next s' ∧ Keeps s s' := by
  refine ⟨_, rfl, ?_⟩
  with_reducible repeat' first
    | exact Keeps.same
    | (apply Keeps.after; apply portRequest_keeps)
    | apply Keeps.ite
    | split

theorem scrubAdvance_keeps (s : State) (q : Nat) : Keeps s (scrubAdvance s q) := by
  unfold scrubAdvance
  with_reducible repeat' first
    | exact Keeps.same
    | (refine Keeps.upd ?_; first | exact Keeps.same | apply Keeps.ite | split | (refine Keeps.upd ?_; first | exact Keeps.same))
    | apply Keeps.ite
    | split

theorem execScrubPageStart_keeps (q : Quad) (s : State) : ∃ s', execScrubPageStart q s = .next s' ∧ Keeps s s' := by
  refine ⟨_, rfl, ?_⟩
  with_reducible repeat' first
    | exact Keeps.same
    | (apply Keeps.after; first | apply onArb_keeps | apply onJob_keeps | apply scrubAdvance_keeps)
    | (refine Keeps.upd ?_; first | exact Keeps.same | (apply Keeps.after; first | apply onArb_keeps | apply onJob_keeps | apply scrubAdvance_keeps) | apply Keeps.ite | split | (refine Keeps.upd ?_; first | exact Keeps.same | (apply Keeps.after; first | apply onArb_keeps | apply onJob_keeps | apply scrubAdvance_keeps)))
    | apply Keeps.ite
    | split

theorem scrubAbandon_keeps (s : State) (q : Nat) : Keeps s (scrubAbandon s q) := by
  unfold scrubAbandon
  with_reducible repeat' first
    | exact Keeps.same
    | (apply Keeps.after; apply onArb_keeps)
    | (refine Keeps.upd ?_; first | exact Keeps.same | (apply Keeps.after; apply onArb_keeps) | apply Keeps.ite | split)

theorem apertureDone_keeps (s : State) (q : Nat) : Keeps s (apertureDone s q) := by
  unfold apertureDone
  with_reducible repeat' first
    | (apply Keeps.after; apply onArb_keeps)
    | (refine Keeps.upd ?_; first | exact Keeps.same | (apply Keeps.after; apply onArb_keeps))
    | apply Keeps.ite
    | split

theorem apertureFails_keeps (s : State) (q : Nat) : Keeps s (apertureFails s q) := by
  unfold apertureFails
  with_reducible repeat' first
    | (apply Keeps.after; first | apply onArb_keeps | apply accessErr_keeps)
    | (refine Keeps.upd ?_; exact Keeps.same)
    | split

theorem execApertureRead_keeps (off len : Nat) (s : State) : ∃ s', execApertureRead off len s = .next s' ∧ Keeps s s' := by
  refine ⟨_, rfl, ?_⟩
  with_reducible repeat' first
    | (apply Keeps.after; first | apply onArb_keeps | apply accessErr_keeps | apply portRequest_keeps)
    | (refine Keeps.upd ?_; exact Keeps.same)
    | split

theorem execApertureTimeout_keeps (s : State) : ∃ s', execApertureTimeout s = .next s' ∧ Keeps s s' := by
  refine ⟨_, rfl, ?_⟩
  with_reducible repeat' first
    | exact Keeps.same
    | (apply Keeps.after; apply apertureFails_keeps)
    | (apply Keeps.after; apply Keeps.forUpto; intro s x)
    | split

theorem execApertureWrite_keeps (s : State) : ∃ s', execApertureWrite s = .next s' ∧ Keeps s s' := by
  refine ⟨_, rfl, ?_⟩
  with_reducible repeat' first | exact Keeps.same | (apply Keeps.after; apply accessErr_keeps) | split

theorem jobDone_keeps (s : State) (q : Nat) (e : PqEntry) : Keeps s (jobDone s q e) := by
  unfold jobDone
  with_reducible repeat' first
    | (apply Keeps.after; first | apply onArb_keeps | apply sendPage_keeps | apply scrubAdvance_keeps | apply apertureDone_keeps)
    | (refine Keeps.upd ?_; first | exact Keeps.same | (apply Keeps.after; first | apply onArb_keeps | apply sendPage_keeps | apply scrubAdvance_keeps | apply apertureDone_keeps))
    | apply Keeps.ite
    | split

theorem readErrors_keeps (s : State) (e : PqEntry) (corrected bad : Nat) : Keeps s (readErrors s e corrected bad) := by
  unfold readErrors
  with_reducible repeat' first
    | (apply Keeps.after; apply poisonPage_keeps)
    | dsimp only
    | (refine Keeps.upd ?_; exact Keeps.same)
    | split

theorem scrubBack_keeps (s : State) (q : Nat) (e : PqEntry) (corrected : Nat) : Keeps s (scrubBack s q e corrected) := by
  unfold scrubBack
  with_reducible repeat' first
    | exact Keeps.same
    | (apply Keeps.after; first | apply onArb_keeps | apply onJob_keeps)
    | (refine Keeps.upd ?_; first | exact Keeps.same | (apply Keeps.after; first | apply onArb_keeps | apply onJob_keeps) | apply Keeps.ite | split | (refine Keeps.upd ?_; first | exact Keeps.same | (apply Keeps.after; first | apply onArb_keeps | apply onJob_keeps)))
    | apply Keeps.ite
    | split

theorem transferDone_sound (s : State) (q : Nat) (errs : Nat) : Sound s (transferDone s q errs) := by
  unfold transferDone
  with_reducible repeat' first
    | exact Sound.same
    | (apply Sound.after; first | (apply Keeps.sound; apply onArb_keeps) | apply fetchWrite_sound | (apply Keeps.sound; apply onJob_keeps) | (apply Keeps.sound; apply scrubAbandon_keeps) | (apply Keeps.sound; apply jobDone_keeps) | (apply Keeps.sound; apply readErrors_keeps) | (apply Keeps.sound; apply scrubBack_keeps))
    | (refine Sound.upd ?_; first | exact Sound.same | (apply Sound.after; first | (apply Keeps.sound; apply onArb_keeps) | apply fetchWrite_sound | (apply Keeps.sound; apply onJob_keeps) | (apply Keeps.sound; apply scrubAbandon_keeps) | (apply Keeps.sound; apply jobDone_keeps) | (apply Keeps.sound; apply readErrors_keeps) | (apply Keeps.sound; apply scrubBack_keeps)) | apply Sound.ite | split | (refine Sound.upd ?_; first | exact Sound.same | (apply Sound.after; first | (apply Keeps.sound; apply onArb_keeps) | apply fetchWrite_sound | (apply Keeps.sound; apply onJob_keeps) | (apply Keeps.sound; apply scrubAbandon_keeps) | (apply Keeps.sound; apply jobDone_keeps) | (apply Keeps.sound; apply readErrors_keeps) | (apply Keeps.sound; apply scrubBack_keeps))))
    | apply Sound.ite
    | split

theorem portGrant_sound (s : State) (q errs : Nat) : Sound s (portGrant s q errs) := by
  unfold portGrant
  with_reducible repeat' first
    | exact Sound.same
    | (apply Sound.after; first | (apply Keeps.sound; apply onArb_keeps) | apply transferDone_sound)
    | (refine Sound.upd ?_; first | exact Sound.same | (apply Sound.after; first | (apply Keeps.sound; apply onArb_keeps) | apply transferDone_sound) | apply Sound.ite | split | (refine Sound.upd ?_; first | exact Sound.same | (apply Sound.after; first | (apply Keeps.sound; apply onArb_keeps) | apply transferDone_sound)))
    | apply Sound.ite
    | split

theorem execSidePortGrant_sound (q : Quad) (errs : Nat) (s : State) : ∃ s', execSidePortGrant q errs s = .next s' ∧ Sound s s' := by
  refine ⟨_, rfl, ?_⟩
  with_reducible repeat' first
    | exact Sound.same
    | (apply Sound.after; apply portGrant_sound)
    | apply Sound.ite
    | split

theorem watchdogOutcome_keeps (s : State) (q : Nat) (e : PqEntry) (n : Nat) : Keeps s (watchdogOutcome s q e n) := by
  unfold watchdogOutcome
  with_reducible repeat' first
    | exact Keeps.same
    | (apply Keeps.after; first | apply onQuad_keeps | apply streamPoison_keeps | apply fetchFail_keeps | apply scrubAbandon_keeps | apply apertureFails_keeps)
    | (refine Keeps.upd ?_; first | exact Keeps.same | (apply Keeps.after; first | apply onQuad_keeps | apply streamPoison_keeps | apply fetchFail_keeps | apply scrubAbandon_keeps | apply apertureFails_keeps) | apply Keeps.ite | split | (refine Keeps.upd ?_; first | exact Keeps.same | (apply Keeps.after; first | apply onQuad_keeps | apply streamPoison_keeps | apply fetchFail_keeps | apply scrubAbandon_keeps | apply apertureFails_keeps)))
    | apply Keeps.ite
    | split

theorem portWatchdog_keeps (s : State) (q : Nat) : Keeps s (portWatchdog s q) := by
  unfold portWatchdog
  with_reducible repeat' first
    | exact Keeps.same
    | (apply Keeps.after; first | apply onArb_keeps | apply raise_keeps | apply watchdogOutcome_keeps)
    | split

theorem execPortWatchdogExpiry_keeps (q : Quad) (s : State) : ∃ s', execPortWatchdogExpiry q s = .next s' ∧ Keeps s s' := by
  refine ⟨_, rfl, ?_⟩
  with_reducible repeat' first | exact Keeps.same | (apply Keeps.after; apply portWatchdog_keeps) | split

/- Inflow.lean. -/

theorem discardPacket_keeps (s : State) (last : Bool) : Keeps s (discardPacket s last) := by
  unfold discardPacket
  exact Keeps.upd Keeps.same

theorem packWord_keeps (s : State) (w : List Byte) (last : Bool) : Keeps s (packWord s w last) := by
  unfold packWord
  with_reducible repeat' first
    | (apply Keeps.after; apply discardPacket_keeps)
    | (refine Keeps.upd ?_; first | exact Keeps.same | apply Keeps.ite)

theorem packWords_keeps (n : Nat) (s : State) (l : List Byte) (e : Bool) : Keeps s (packWords n s l e) := by
  induction n generalizing s l with
  | zero => exact Keeps.same
  | succ n ih => exact (packWord_keeps _ _ _).trans (ih _ _)

theorem execInflowWriteTlp_sound (addr : Nat) (bytes : List Byte) (allEnabled : Bool) (s : State) : ∃ s', execInflowWriteTlp addr bytes allEnabled s = .next s' ∧ Sound s s' := by
  refine ⟨_, rfl, ?_⟩
  with_reducible repeat' first
    | (apply Sound.after; first | (apply Keeps.sound; apply wakeActive_keeps) | (apply Keeps.sound; apply flushDue_keeps) | (apply Keeps.sound; apply packWords_keeps))
    | (refine Sound.upd ?_; exact Sound.same)
    | apply Sound.ite

theorem completeAtOnce_keeps (s : State) (b : List Byte) (st e : Nat) : Keeps s (completeAtOnce s b st e) := by
  unfold completeAtOnce
  with_reducible repeat' first | exact Keeps.same | (apply Keeps.after; apply complete_keeps)

theorem admitReq_sound (s : State) (c e : Nat) (b : List Byte) : Sound s (admitReq s c e b) := by
  unfold admitReq
  with_reducible repeat' first
    | (apply Sound.after; first | (apply Keeps.sound; apply onCtx_keeps) | (apply Keeps.sound; apply onBl_keeps) | apply syncRealign_sound)
    | (apply Sound.after; apply Sound.foldl; intro s x)
    | (refine Sound.upd ?_; first | exact Sound.same | (apply Sound.after; first | (apply Keeps.sound; apply onCtx_keeps) | (apply Keeps.sound; apply onBl_keeps) | apply syncRealign_sound))

theorem admitLoop_sound (n : Nat) (s : State) (adm : List Nat) (e k : Nat) : Sound s (admitLoop n s adm e k).1 := by
  induction n generalizing s adm k with
  | zero => exact Sound.same
  | succ n ih =>
    unfold admitLoop
    split
    · exact Sound.same
    · dsimp only
      split
      · exact Sound.same
      · exact Sound.trans (Sound.after (completeAtOnce_keeps _ _ _ _).sound (Sound.upd Sound.same)) (ih _ _ _)
      · exact Sound.trans (Sound.after (admitReq_sound _ _ _ _) (Sound.upd Sound.same)) (ih _ _ _)

theorem requestBoundary_keeps (s : State) (c e : Nat) : Keeps s (requestBoundary s c e) := by
  unfold requestBoundary
  with_reducible repeat' first
    | exact Keeps.same
    | (apply Keeps.after; first | apply onQuad_keeps | apply armThread_keeps)
    | (apply Keeps.after; apply Keeps.foldl; intro s x)
    | (apply Keeps.after; apply Keeps.forUpto; intro s x)

theorem admission_sound (s : State) (e : Nat) : Sound s (admission s e) := by
  unfold admission
  with_reducible repeat' first
    | (apply Sound.after; first | (apply Keeps.sound; apply flushDue_keeps) | apply admitLoop_sound | (apply Keeps.sound; apply requestBoundary_keeps))
    | (apply Sound.after; apply Sound.forUpto; intro s x)
    | (refine Sound.upd ?_; first | exact Sound.same | split)

theorem execCompletionBacklogDrain_keeps (s : State) : ∃ s', execCompletionBacklogDrain s = .next s' ∧ Keeps s s' := by
  refine ⟨_, rfl, ?_⟩
  with_reducible repeat' first | exact Keeps.same | (apply Keeps.after; apply drainBacklog_keeps) | split

theorem execEventOverflowRecord_keeps (s : State) : ∃ s', execEventOverflowRecord s = .next s' ∧ Keeps s s' := by
  refine ⟨_, rfl, ?_⟩
  with_reducible repeat' first | exact Keeps.same | (apply Keeps.after; apply evrOverflow_keeps) | split

theorem hostBack_keeps (s : State) : Keeps s (hostBack s) := by
  unfold hostBack
  with_reducible repeat' first
    | exact Keeps.same
    | (apply Keeps.after; first | apply signalPending_keeps | apply ringRoom_keeps)

theorem execPciPowerStateChange_keeps (d3hot : Bool) (s : State) : ∃ s', execPciPowerStateChange d3hot s = .next s' ∧ Keeps s s' := by
  refine ⟨_, rfl, ?_⟩
  with_reducible repeat' first | (apply Keeps.after; apply hostBack_keeps) | (refine Keeps.upd ?_; exact Keeps.same) | split

/- HostCmds.lean. -/

theorem bufAlloc_sound (s : State) (p : List Byte) : Sound s (bufAlloc s p) := by
  unfold bufAlloc
  with_reducible repeat' first
    | exact Sound.same
    | (apply Sound.after; first | (apply Keeps.sound; apply onBl_keeps) | apply answer_sound)
    | (refine Sound.upd ?_; first | exact Sound.same | (apply Sound.after; first | (apply Keeps.sound; apply onBl_keeps) | apply answer_sound) | apply Sound.ite | split | (refine Sound.upd ?_; first | exact Sound.same | (apply Sound.after; first | (apply Keeps.sound; apply onBl_keeps) | apply answer_sound)))
    | apply Sound.ite
    | split

theorem execBufAlloc_sound (s : State) : ∃ s', execBufAlloc s = .next s' ∧ Sound s s' := by
  refine ⟨_, rfl, ?_⟩
  with_reducible repeat' first
    | exact Sound.same
    | (apply Sound.after; apply bufAlloc_sound)
    | refine onCmd_sound _ _ _ fun p => ?_

theorem bufOnRef_sound (s : State) (p : List Byte) (f : State → Nat → State) (h : ∀ s r, Sound s (f s r)) :
    Sound s (bufOnRef s p f) := by
  unfold bufOnRef
  dsimp only
  refine Sound.ite _ (answer_sound _ _ _) (Sound.ite _ (answer_sound _ _ _) ?_)
  split
  · exact (h _ _).trans (answer_sound _ _ _)
  · exact (rejectFree_keeps _ _ _).sound.trans (answer_sound _ _ _)

theorem execBufFree_sound (s : State) : ∃ s', execBufFree s = .next s' ∧ Sound s s' := by
  refine ⟨_, rfl, ?_⟩
  with_reducible repeat' first
    | exact Sound.same
    | (apply Sound.after; (apply Keeps.sound; apply doFree_keeps))
    | refine onCmd_sound _ _ _ fun p => ?_
    | refine bufOnRef_sound _ _ _ fun s r => ?_

theorem giveBuf_keeps (s : State) (ref : Nat) : Keeps s (giveBuf s ref) := by
  unfold giveBuf
  with_reducible repeat' first | exact Keeps.same | (apply Keeps.after; apply onBl_keeps)

theorem execBufGive_sound (s : State) : ∃ s', execBufGive s = .next s' ∧ Sound s s' := by
  refine ⟨_, rfl, ?_⟩
  with_reducible repeat' first
    | exact Sound.same
    | (apply Sound.after; (apply Keeps.sound; apply giveBuf_keeps))
    | refine onCmd_sound _ _ _ fun p => ?_
    | refine bufOnRef_sound _ _ _ fun s r => ?_

theorem settleLedger_sound (s : State) : Sound s (settleLedger s) := by
  unfold settleLedger
  with_reducible repeat' first
    | exact Sound.same
    | (apply Sound.after; first | (apply Keeps.sound; apply doFree_keeps) | apply bufAlloc_sound | (apply Keeps.sound; apply giveBuf_keeps))
    | refine onCmd_sound _ _ _ fun p => ?_
    | refine bufOnRef_sound _ _ _ fun s r => ?_
    | (refine Sound.upd ?_; first | exact Sound.same | (apply Sound.after; first | (apply Keeps.sound; apply doFree_keeps) | apply bufAlloc_sound | (apply Keeps.sound; apply giveBuf_keeps)) | apply Sound.ite | split)
    | split

theorem execCombAperture_sound (s : State) : ∃ s', execCombAperture s = .next s' ∧ Sound s s' := by
  refine ⟨_, rfl, ?_⟩
  with_reducible repeat' first
    | (apply Sound.after; apply answer_sound)
    | refine onCmd_sound _ _ _ fun p => ?_
    | (refine Sound.upd ?_; exact Sound.same)
    | split

theorem onCal_keeps (s : State) (t : CalTarget) (f : CalSt → CalSt) : Keeps s (onCal s t f) := by
  unfold onCal
  exact Keeps.upd Keeps.same

theorem calDue_keeps (s : State) (t : CalTarget) : Keeps s (calDue s t) := by
  unfold calDue
  with_reducible repeat' first | exact Keeps.same | (apply Keeps.after; apply onCal_keeps) | split

theorem execSynCalRun_sound (s : State) : ∃ s', execSynCalRun s = .next s' ∧ Sound s s' := by
  refine ⟨_, rfl, ?_⟩
  with_reducible repeat' first
    | exact Sound.same
    | (apply Sound.after; first | apply answer_sound | (apply Keeps.sound; apply calDue_keeps))
    | refine onCmd_sound _ _ _ fun p => ?_
    | (apply Sound.after; apply Sound.foldl; intro s x)
    | split

theorem hivePort_sound (s : State) (act : Nat) (f : Nat → State) (h : ∀ p, Sound s (f p)) : Sound s (hivePort s act f) :=
  onCmd_sound _ _ _ fun _ => Sound.ite _ (answer_sound _ _ _) (Sound.ite _ Sound.same (Sound.ite _ (answer_sound _ _ _) (h _)))

theorem execHivePortRetrain_sound (s : State) : ∃ s', execHivePortRetrain s = .next s' ∧ Sound s s' := by
  refine ⟨_, rfl, ?_⟩
  with_reducible repeat' first
    | exact Sound.same
    | (apply Sound.after; first | (apply Keeps.sound; apply portTrain_keeps) | apply answer_sound)
    | refine hivePort_sound _ _ _ fun p => ?_
    | split

theorem execHivePortUnfence_sound (s : State) : ∃ s', execHivePortUnfence s = .next s' ∧ Sound s s' := by
  refine ⟨_, rfl, ?_⟩
  with_reducible repeat' first
    | exact Sound.same
    | (apply Sound.after; first | (apply Keeps.sound; apply portTrain_keeps) | apply answer_sound)
    | refine hivePort_sound _ _ _ fun p => ?_
    | split

theorem execHivePortHold_sound (s : State) : ∃ s', execHivePortHold s = .next s' ∧ Sound s s' := by
  refine ⟨_, rfl, ?_⟩
  with_reducible repeat' first
    | exact Sound.same
    | (apply Sound.after; first | (apply Keeps.sound; apply raise_keeps) | (apply Keeps.sound; apply portTo_keeps) | apply answer_sound)
    | refine hivePort_sound _ _ _ fun p => ?_
    | apply Sound.ite

theorem execPwrLimit_sound (s : State) : ∃ s', execPwrLimit s = .next s' ∧ Sound s s' := by
  refine ⟨_, rfl, ?_⟩
  with_reducible repeat' first
    | (apply Sound.after; apply answer_sound)
    | refine onCmd_sound _ _ _ fun p => ?_
    | (refine Sound.upd ?_; exact Sound.same)
    | apply Sound.ite

theorem execResetQuad_sound (s : State) : ∃ s', execResetQuad s = .next s' ∧ Sound s s' := by
  refine ⟨_, rfl, ?_⟩
  with_reducible repeat' first
    | exact Sound.same
    | (apply Sound.after; first | (apply Keeps.sound; apply onQuad_keeps) | apply answer_sound)
    | refine onCmd_sound _ _ _ fun p => ?_
    | apply Sound.ite

theorem execResetWarm_sound (s : State) : ∃ s', execResetWarm s = .next s' ∧ Sound s s' := by
  refine ⟨_, rfl, ?_⟩
  with_reducible repeat' first
    | (apply Sound.after; apply answer_sound)
    | refine onCmd_sound _ _ _ fun p => ?_
    | (refine Sound.upd ?_; exact Sound.same)
    | split

end Sys2Proof.Machine
end

