-- ==== Sys2Proof/Laws/FrameSystem.lean ====
section
/-! SUPPORT. What each operation of Heartwood, Calib, Presence, Power, Boot, Resets leaves alone, or keeps. -/

namespace Sys2Proof.Machine

set_option Elab.async false

open Sys2Proof

/- Heartwood.lean. -/

theorem hwOpen_keeps (s : State) : Keeps s (hwOpen s) := by
  unfold hwOpen
  with_reducible repeat' first | (refine Keeps.upd ?_; exact Keeps.same) | split

theorem hwWrite_keeps (s : State) (typ : Nat) (payload : List Byte) : Keeps s (hwWrite s typ payload) := by
  unfold hwWrite
  with_reducible repeat' first
    | (apply Keeps.after; apply hwOpen_keeps)
    | dsimp only
    | (refine Keeps.upd ?_; first | exact Keeps.same | (apply Keeps.after; apply hwOpen_keeps))
    | split

theorem hwNor_keeps (s : State) (r : HwPend) : Keeps s (hwNor s r) := by
  unfold hwNor
  with_reducible repeat' first | (refine Keeps.upd ?_; exact Keeps.same) | split

theorem hwCommit_sound (s : State) (r : HwPend) : Sound s (hwCommit s r) := by
  unfold hwCommit
  refine Sound.trans ((hwWrite_keeps s r.typ r.payload).trans (hwNor_keeps _ r)).sound ?_
  generalize hwNor _ _ = u
  dsimp only
  split
  · refine ⟨rfl, rfl, fun h => ⟨?_, ?_, h.2.2⟩, id, id, id, id⟩
    · simpa using h.1
    · intro e he
      obtain ⟨x, hx, rfl⟩ := List.mem_map.mp he
      dsimp only
      split
      · exact h.2.1 x hx
      · exact h.2.1 x hx
  · exact Sound.same

theorem hwRefill_keeps (s : State) : Keeps s (hwRefill s) := by
  unfold hwRefill
  with_reducible repeat' first
    | (apply Keeps.after; apply hwMirrors_keeps)
    | dsimp only
    | (refine Keeps.upd ?_; exact Keeps.same)

theorem hwGoOffline_keeps (s : State) : Keeps s (hwGoOffline s) := by
  unfold hwGoOffline
  with_reducible repeat' first
    | (apply Keeps.after; first | apply raiseRing_keeps | apply hwLose_keeps)
    | (refine Keeps.upd ?_; first | exact Keeps.same | (apply Keeps.after; first | apply raiseRing_keeps | apply hwLose_keeps))

theorem hwSnapshot_sound (s : State) : Sound s (hwSnapshot s) := by
  unfold hwSnapshot
  with_reducible repeat' first
    | (apply Sound.after; first | (apply Keeps.sound; apply hwWrite_keeps) | apply hwCommit_sound)
    | (apply Sound.after; apply Sound.foldl; intro s x)
    | (refine Sound.upd ?_; first | exact Sound.same | (apply Sound.after; first | (apply Keeps.sound; apply hwWrite_keeps) | apply hwCommit_sound))

theorem hwForget_keeps (s : State) (b : Nat) : Keeps s (hwForget s b) := by
  unfold hwForget
  exact Keeps.upd Keeps.same

theorem mapRewrite_keeps (s : State) : Keeps s (mapRewrite s) := by
  unfold mapRewrite
  with_reducible repeat' first | dsimp only | (refine Keeps.upd ?_; exact Keeps.same) | split

theorem hwRing_keeps (s : State) (b k : Nat) : Keeps s (hwRing s b k) := by
  unfold hwRing
  exact Keeps.upd Keeps.same

theorem blockFailure_keeps (s : State) (b : Nat) : Keeps s (blockFailure s b) := by
  unfold blockFailure
  with_reducible repeat' first
    | (apply Keeps.after; first | apply hwState_keeps | apply raise_keeps | apply hwGoOffline_keeps | apply hwForget_keeps | apply mapRewrite_keeps | apply hwRing_keeps)
    | (refine Keeps.upd ?_; first | exact Keeps.same | (apply Keeps.after; first | apply hwState_keeps | apply raise_keeps | apply hwGoOffline_keeps | apply hwForget_keeps | apply mapRewrite_keeps | apply hwRing_keeps) | split)

theorem hwRetries_keeps (s : State) (n : Nat) : Keeps s (hwRetries s n) := by
  unfold hwRetries
  with_reducible repeat' first
    | (apply Keeps.after; apply raise_keeps)
    | dsimp only
    | (refine Keeps.upd ?_; exact Keeps.same)
    | split

theorem execHeartwoodProgramComplete_sound (copy ok : Bool) (retries : Nat) (s : State) : ∃ s', execHeartwoodProgramComplete copy ok retries s = .next s' ∧ Sound s s' := by
  refine ⟨_, rfl, ?_⟩
  with_reducible repeat' first
    | (apply Sound.after; first | (apply Keeps.sound; apply hwOpen_keeps) | apply hwCommit_sound | (apply Keeps.sound; apply hwRefill_keeps) | (apply Keeps.sound; apply blockFailure_keeps) | (apply Keeps.sound; apply hwRetries_keeps))
    | (refine Sound.upd ?_; first | exact Sound.same | (apply Sound.after; first | (apply Keeps.sound; apply hwOpen_keeps) | apply hwCommit_sound | (apply Keeps.sound; apply hwRefill_keeps) | (apply Keeps.sound; apply blockFailure_keeps) | (apply Keeps.sound; apply hwRetries_keeps)))
    | apply Sound.ite
    | split

theorem eraseStart_keeps (s : State) (b : Nat) : Keeps s (eraseStart s b) := by
  unfold eraseStart
  with_reducible repeat' first
    | (apply Keeps.after; apply hwForget_keeps)
    | (refine Keeps.upd ?_; first | exact Keeps.same | (apply Keeps.after; apply hwForget_keeps))

theorem execBlockReclaim_sound (s : State) : ∃ s', execBlockReclaim s = .next s' ∧ Sound s s' := by
  refine ⟨_, rfl, ?_⟩
  with_reducible repeat' first
    | exact Sound.same
    | (apply Sound.after; first | apply hwSnapshot_sound | (apply Keeps.sound; apply eraseStart_keeps))
    | split

theorem wipeDone_keeps (s : State) : Keeps s (wipeDone s) := by
  unfold wipeDone
  with_reducible repeat' first | (apply Keeps.after; apply hwWrite_keeps) | (refine Keeps.upd ?_; exact Keeps.same)

theorem wipeNext_keeps (s : State) : Keeps s (wipeNext s) := by
  unfold wipeNext
  with_reducible repeat' first | (apply Keeps.after; apply wipeDone_keeps) | (refine Keeps.upd ?_; exact Keeps.same) | split

theorem eraseDone_keeps (s : State) (b : Nat) : Keeps s (eraseDone s b) := by
  unfold eraseDone
  with_reducible repeat' first | (apply Keeps.after; apply hwState_keeps) | (refine Keeps.upd ?_; exact Keeps.same)

theorem execHeartwoodEraseComplete_keeps (blank : Bool) (pct : Nat) (s : State) : ∃ s', execHeartwoodEraseComplete blank pct s = .next s' ∧ Keeps s s' := by
  refine ⟨_, rfl, ?_⟩
  with_reducible repeat' first
    | (apply Keeps.after; first | apply raise_keeps | apply blockFailure_keeps | apply wipeNext_keeps | apply eraseDone_keeps)
    | (refine Keeps.upd ?_; first | exact Keeps.same | apply Keeps.ite | split)

theorem presenceCmd_sound (s : State) (op : Nat) (f : List Byte → State) (h : ∀ p, Sound s (f p)) : Sound s (presenceCmd s op f) := by
  refine onCmd_sound _ _ _ fun p => ?_
  split
  · exact answer_sound _ _ _
  · exact h p

theorem execHwErase_sound (s : State) : ∃ s', execHwErase s = .next s' ∧ Sound s s' := by
  refine ⟨_, rfl, ?_⟩
  with_reducible repeat' first
    | (apply Sound.after; first | apply answer_sound | (apply Keeps.sound; apply wipeNext_keeps))
    | refine presenceCmd_sound _ _ _ fun p => ?_
    | (refine Sound.upd ?_; exact Sound.same)

theorem bootRecordWrite_keeps (s : State) : Keeps s (bootRecordWrite s) := by
  unfold bootRecordWrite
  with_reducible repeat' first
    | (apply Keeps.after; apply hwState_keeps)
    | (refine Keeps.upd ?_; first | exact Keeps.same | (apply Keeps.after; apply hwState_keeps))
    | split

theorem hwRewrite_keeps (s : State) : Keeps s (hwRewrite s) := by
  unfold hwRewrite
  with_reducible repeat' first
    | exact Keeps.same
    | (apply Keeps.after; apply hwState_keeps)
    | (apply Keeps.after; apply Keeps.foldl; intro s x)
    | apply Keeps.ite

theorem hwLoad_keeps (s : State) : Keeps s (hwLoad s) := by
  unfold hwLoad
  with_reducible repeat' first | (refine Keeps.upd ?_; exact Keeps.same) | split

theorem hwScanEnd_sound (s : State) (ok : Bool) : Sound s (hwScanEnd s ok) := by
  unfold hwScanEnd
  with_reducible repeat' first
    | exact Sound.same
    | (apply Sound.after; first | (apply Keeps.sound; apply hwLose_keeps) | (apply Keeps.sound; apply raise_keeps) | (apply Keeps.sound; apply hwMirrors_keeps) | apply romRound_sound | (apply Keeps.sound; apply hwGoOffline_keeps) | (apply Keeps.sound; apply bootRecordWrite_keeps) | (apply Keeps.sound; apply hwRewrite_keeps) | (apply Keeps.sound; apply hwLoad_keeps))
    | (refine Sound.upd ?_; first | exact Sound.same | (apply Sound.after; first | (apply Keeps.sound; apply hwLose_keeps) | (apply Keeps.sound; apply raise_keeps) | (apply Keeps.sound; apply hwMirrors_keeps) | apply romRound_sound | (apply Keeps.sound; apply hwGoOffline_keeps) | (apply Keeps.sound; apply bootRecordWrite_keeps) | (apply Keeps.sound; apply hwRewrite_keeps) | (apply Keeps.sound; apply hwLoad_keeps)) | apply Sound.ite | split | (refine Sound.upd ?_; first | exact Sound.same | (apply Sound.after; first | (apply Keeps.sound; apply hwLose_keeps) | (apply Keeps.sound; apply raise_keeps) | (apply Keeps.sound; apply hwMirrors_keeps) | apply romRound_sound | (apply Keeps.sound; apply hwGoOffline_keeps) | (apply Keeps.sound; apply bootRecordWrite_keeps) | (apply Keeps.sound; apply hwRewrite_keeps) | (apply Keeps.sound; apply hwLoad_keeps))))
    | apply Sound.ite
    | split

theorem execHeartwoodScanComplete_sound (sfdpOk : Bool) (s : State) : ∃ s', execHeartwoodScanComplete sfdpOk s = .next s' ∧ Sound s s' := by
  refine ⟨_, rfl, ?_⟩
  with_reducible repeat' first | exact Sound.same | (apply Sound.after; apply hwScanEnd_sound) | split

theorem execHeartwoodScanDeadline_sound (s : State) : ∃ s', execHeartwoodScanDeadline s = .next s' ∧ Sound s s' := by
  refine ⟨_, rfl, ?_⟩
  with_reducible repeat' first | exact Sound.same | (apply Sound.after; apply hwScanEnd_sound) | split

theorem hwPowerFail_sound (s : State) : Sound s (hwPowerFail s) := by
  unfold hwPowerFail
  with_reducible repeat' first
    | exact Sound.same
    | (apply Sound.after; first | (apply Keeps.sound; apply hwWrite_keeps) | apply hwCommit_sound)
    | (apply Sound.after; apply Sound.foldl; intro s x)
    | (refine Sound.upd ?_; first | exact Sound.same | (apply Sound.after; first | (apply Keeps.sound; apply hwWrite_keeps) | apply hwCommit_sound) | (apply Sound.after; apply Sound.foldl; intro s x) | apply Sound.ite | split | (refine Sound.upd ?_; first | exact Sound.same | (apply Sound.after; first | (apply Keeps.sound; apply hwWrite_keeps) | apply hwCommit_sound)))
    | apply Sound.ite
    | split

theorem hwFlush_sound (s : State) : Sound s (hwFlush s) := by
  unfold hwFlush
  with_reducible repeat' first
    | (apply Sound.after; apply hwCommit_sound)
    | (apply Sound.after; apply Sound.foldl; intro s x)
    | (refine Sound.upd ?_; first | exact Sound.same | (apply Sound.after; apply Sound.foldl; intro s x))
    | split

theorem execHwRead_sound (s : State) : ∃ s', execHwRead s = .next s' ∧ Sound s s' := by
  refine ⟨_, rfl, ?_⟩
  with_reducible repeat' first
    | exact Sound.same
    | (apply Sound.after; apply answer_sound)
    | refine onCmd_sound _ _ _ fun p => ?_
    | apply Sound.ite

/- Calib.lean. -/

theorem execCalibrationStart_keeps (t : CalTarget) (s : State) : ∃ s', execCalibrationStart t s = .next s' ∧ Keeps s s' := by
  refine ⟨_, rfl, ?_⟩
  with_reducible repeat' first
    | exact Keeps.same
    | (apply Keeps.after; first | apply sendLane_keeps | apply onCal_keeps)
    | (refine Keeps.upd ?_; first | exact Keeps.same | (apply Keeps.after; first | apply sendLane_keeps | apply onCal_keeps) | apply Keeps.ite | split)
    | apply Keeps.ite
    | split

theorem calPump_keeps (s : State) (l : Loop) (k : Nat) : Keeps s (calPump s l k) := by
  unfold calPump
  with_reducible repeat' first
    | exact Keeps.same
    | (apply Keeps.after; apply onProf_keeps)
    | (apply Keeps.after; apply Keeps.foldl; intro s x)
    | (refine Keeps.upd ?_; first | exact Keeps.same | (apply Keeps.after; apply onProf_keeps) | (apply Keeps.after; apply Keeps.foldl; intro s x) | apply Keeps.ite | split)
    | apply Keeps.ite
    | split

theorem calApply_keeps (s : State) (t : CalTarget) (v : Nat) : Keeps s (calApply s t v) := by
  unfold calApply
  with_reducible repeat' first
    | exact Keeps.same
    | (apply Keeps.after; first | apply onProf_keeps | apply onCal_keeps | apply calPump_keeps)
    | (apply Keeps.after; apply Keeps.foldl; intro s x)
    | (refine Keeps.upd ?_; first | exact Keeps.same | (apply Keeps.after; first | apply onProf_keeps | apply onCal_keeps | apply calPump_keeps) | (apply Keeps.after; apply Keeps.foldl; intro s x) | apply Keeps.ite | split | (refine Keeps.upd ?_; first | exact Keeps.same | (apply Keeps.after; first | apply onProf_keeps | apply onCal_keeps | apply calPump_keeps)))
    | apply Keeps.ite
    | split

theorem calService_keeps (s : State) (t : CalTarget) : Keeps s (calService s t) := by
  unfold calService
  with_reducible repeat' first
    | exact Keeps.same
    | (apply Keeps.after; first | apply onLoop_keeps | apply prelockOn_keeps)
    | (refine Keeps.upd ?_; first | exact Keeps.same | (apply Keeps.after; first | apply onLoop_keeps | apply prelockOn_keeps) | apply Keeps.ite | split | (refine Keeps.upd ?_; first | exact Keeps.same | (apply Keeps.after; first | apply onLoop_keeps | apply prelockOn_keeps)))
    | apply Keeps.ite
    | split

theorem laneEnd_keeps (s : State) (t : CalTarget) (meets : Bool) : Keeps s (laneEnd s t meets) := by
  unfold laneEnd
  with_reducible repeat' first
    | exact Keeps.same
    | (apply Keeps.after; first | apply onPort_keeps | apply sendLane_keeps)
    | (refine Keeps.upd ?_; first | exact Keeps.same | (apply Keeps.after; first | apply onPort_keeps | apply sendLane_keeps) | apply Keeps.ite | split | (refine Keeps.upd ?_; first | exact Keeps.same | (apply Keeps.after; first | apply onPort_keeps | apply sendLane_keeps)))
    | apply Keeps.ite
    | split

theorem calCount_keeps (s : State) (kind : Nat) (pass : Bool) : Keeps s (calCount s kind pass) := by
  unfold calCount
  exact Keeps.upd Keeps.same

theorem execCalibrationComplete_keeps (t : CalTarget) (pass : Bool) (value : Nat) (s : State) : ∃ s', execCalibrationComplete t pass value s = .next s' ∧ Keeps s s' := by
  refine ⟨_, rfl, ?_⟩
  with_reducible repeat' first
    | exact Keeps.same
    | (apply Keeps.after; first | apply raise_keeps | apply onCal_keeps | apply calApply_keeps | apply calService_keeps | apply laneEnd_keeps | apply calCount_keeps)
    | (refine Keeps.upd ?_; first | exact Keeps.same | (apply Keeps.after; first | apply raise_keeps | apply onCal_keeps | apply calApply_keeps | apply calService_keeps | apply laneEnd_keeps | apply calCount_keeps) | apply Keeps.ite | split | (refine Keeps.upd ?_; first | exact Keeps.same | (apply Keeps.after; first | apply raise_keeps | apply onCal_keeps | apply calApply_keeps | apply calService_keeps | apply laneEnd_keeps | apply calCount_keeps)))
    | apply Keeps.ite
    | split

theorem interpEdge_keeps (s : State) : Keeps s (interpEdge s) := by
  unfold interpEdge
  with_reducible repeat' first
    | exact Keeps.same
    | (apply Keeps.after; apply Keeps.foldl; intro s x)
    | (refine Keeps.upd ?_; first | exact Keeps.same | (apply Keeps.after; apply Keeps.foldl; intro s x) | apply Keeps.ite | split | (refine Keeps.upd ?_; first | exact Keeps.same))

theorem rampTo_keeps (s : State) (t : CalTarget) (v : Nat) : Keeps s (rampTo s t v) := by
  unfold rampTo
  with_reducible repeat' first
    | exact Keeps.same
    | (refine Keeps.upd ?_; first | exact Keeps.same | apply Keeps.ite | split | (refine Keeps.upd ?_; first | exact Keeps.same))
    | apply Keeps.ite
    | split

theorem calRamps_keeps (s : State) : Keeps s (calRamps s) := by
  unfold calRamps
  with_reducible repeat' first
    | exact Keeps.same
    | (apply Keeps.after; first | apply onCal_keeps | apply interpEdge_keeps | apply rampTo_keeps)
    | (apply Keeps.after; apply Keeps.foldl; intro s x)
    | (refine Keeps.upd ?_; first | exact Keeps.same | (apply Keeps.after; first | apply onCal_keeps | apply interpEdge_keeps | apply rampTo_keeps) | (apply Keeps.after; apply Keeps.foldl; intro s x) | apply Keeps.ite | split | (refine Keeps.upd ?_; first | exact Keeps.same | (apply Keeps.after; first | apply onCal_keeps | apply interpEdge_keeps | apply rampTo_keeps)))
    | apply Keeps.ite
    | split

theorem laneCount_keeps (s : State) (p k n : Nat) : Keeps s (laneCount s p k n) := by
  unfold laneCount
  with_reducible repeat' first
    | exact Keeps.same
    | (apply Keeps.after; first | apply onPort_keeps | apply weakLane_keeps | apply calDue_keeps)
    | (refine Keeps.upd ?_; first | exact Keeps.same | (apply Keeps.after; first | apply onPort_keeps | apply weakLane_keeps | apply calDue_keeps) | apply Keeps.ite | split)
    | apply Keeps.ite
    | split

theorem overrideCmd_sound (s : State) (act : Nat) (f : CalSt → CalSt) : Sound s (overrideCmd s act f) := by
  unfold overrideCmd
  with_reducible repeat' first
    | exact Sound.same
    | (apply Sound.after; first | apply answer_sound | (apply Keeps.sound; apply onCal_keeps))
    | refine onCmd_sound _ _ _ fun p => ?_
    | split

theorem execCalOverrideSet_sound (s : State) : ∃ s', execCalOverrideSet s = .next s' ∧ Sound s s' := by
  refine ⟨_, rfl, ?_⟩
  with_reducible repeat' first
    | exact Sound.same
    | (apply Sound.after; apply overrideCmd_sound)
    | (refine Sound.upd ?_; first | exact Sound.same | (apply Sound.after; apply overrideCmd_sound) | apply Sound.ite | split)
    | apply Sound.ite
    | split

theorem execCalOverrideRelease_sound (s : State) : ∃ s', execCalOverrideRelease s = .next s' ∧ Sound s s' := by
  refine ⟨_, rfl, ?_⟩
  with_reducible repeat' first | exact Sound.same | (apply Sound.after; apply overrideCmd_sound)

/- Presence.lean. -/

theorem execPresenceSample_keeps (low : Bool) (s : State) : ∃ s', execPresenceSample low s = .next s' ∧ Keeps s s' := by
  refine ⟨_, rfl, ?_⟩
  with_reducible repeat' first | (refine Keeps.upd ?_; exact Keeps.same) | split

theorem execPresenceQualified_keeps (s : State) : ∃ s', execPresenceQualified s = .next s' ∧ Keeps s s' := by
  refine ⟨_, rfl, ?_⟩
  with_reducible repeat' first | (refine Keeps.upd ?_; exact Keeps.same) | split

theorem execPresenceWindowExpiry_keeps (s : State) : ∃ s', execPresenceWindowExpiry s = .next s' ∧ Keeps s s' := by
  refine ⟨_, rfl, ?_⟩
  with_reducible repeat' first | (refine Keeps.upd ?_; exact Keeps.same) | split

theorem execSealSample_keeps (driven read : Bool) (s : State) : ∃ s', execSealSample driven read s = .next s' ∧ Keeps s s' := by
  refine ⟨_, rfl, ?_⟩
  with_reducible repeat' first | (refine Keeps.upd ?_; exact Keeps.same) | split

theorem wg3Close_keeps (s : State) : Keeps s (wg3Close s) := by
  unfold wg3Close
  exact Keeps.upd Keeps.same

theorem execSealBreak_keeps (s : State) : ∃ s', execSealBreak s = .next s' ∧ Keeps s s' := by
  refine ⟨_, rfl, ?_⟩
  with_reducible repeat' first
    | (apply Keeps.after; first | apply hwState_keeps | apply raise_keeps | apply wg3Close_keeps)
    | (refine Keeps.upd ?_; exact Keeps.same)
    | apply Keeps.ite

theorem slotMark_keeps (s : State) (slot : Nat) (bad : Bool) : Keeps s (slotMark s slot bad) := by
  unfold slotMark
  with_reducible repeat' first | (refine Keeps.upd ?_; exact Keeps.same) | split

theorem fwStep_sound (s : State) (step : Nat) (presence : Bool) (f : List Byte → State) (h : ∀ p, Sound s (f p)) :
    Sound s (fwStep s step presence f) := by
  refine onCmd_sound _ _ _ fun p => Sound.ite _ Sound.same ?_
  split
  · exact Sound.ite _ (h p) (answer_sound _ _ _)
  · exact h p

theorem loadProgress_keeps (s : State) : Keeps s (loadProgress s) := by
  unfold loadProgress
  with_reducible repeat' first | (refine Keeps.upd ?_; exact Keeps.same) | split

theorem execFwLoadBegin_sound (s : State) : ∃ s', execFwLoadBegin s = .next s' ∧ Sound s s' := by
  refine ⟨_, rfl, ?_⟩
  with_reducible repeat' first
    | (apply Sound.after; first | apply answer_sound | (apply Keeps.sound; apply slotMark_keeps) | (apply Keeps.sound; apply loadProgress_keeps))
    | refine fwStep_sound _ _ _ _ fun p => ?_
    | (refine Sound.upd ?_; first | exact Sound.same | (apply Sound.after; first | apply answer_sound | (apply Keeps.sound; apply slotMark_keeps) | (apply Keeps.sound; apply loadProgress_keeps)))
    | apply Sound.ite

theorem slotErase_sound (s : State) (slot : Nat) : Sound s (slotErase s slot) :=
  Sound.ite _ ⟨rfl, rfl, id, id, id, fun h => SMap.eraseRange_wf _ _ _ _ h, id⟩
    ⟨rfl, rfl, id, id, id, id, fun h => SMap.eraseRange_wf _ _ _ _ h⟩

theorem execBootNorEraseComplete_sound (s : State) : ∃ s', execBootNorEraseComplete s = .next s' ∧ Sound s s' := by
  refine ⟨_, rfl, ?_⟩
  with_reducible repeat' first
    | (apply Sound.after; first | apply answer_sound | apply slotErase_sound)
    | (refine Sound.upd ?_; first | exact Sound.same | (apply Sound.after; first | apply answer_sound | apply slotErase_sound))
    | split

theorem slotWrite_sound (s : State) (slot off : Nat) (data : List Byte) : Sound s (slotWrite s slot off data) :=
  Sound.ite _ ⟨rfl, rfl, id, id, id, fun h => SMap.putRun_wf _ _ _ _ h, id⟩
    ⟨rfl, rfl, id, id, id, id, fun h => SMap.putRun_wf _ _ _ _ h⟩

theorem execFwLoadData_sound (s : State) : ∃ s', execFwLoadData s = .next s' ∧ Sound s s' := by
  refine ⟨_, rfl, ?_⟩
  with_reducible repeat' first
    | (apply Sound.after; first | apply answer_sound | apply slotWrite_sound)
    | refine fwStep_sound _ _ _ _ fun p => ?_
    | (refine Sound.upd ?_; first | exact Sound.same | (apply Sound.after; first | apply answer_sound | apply slotWrite_sound))
    | apply Sound.ite
    | split

theorem execFwLoadFinish_sound (img : ImageInfo) (s : State) : ∃ s', execFwLoadFinish img s = .next s' ∧ Sound s s' := by
  refine ⟨_, rfl, ?_⟩
  with_reducible repeat' first
    | exact Sound.same
    | (apply Sound.after; first | (apply Keeps.sound; apply raise_keeps) | apply answer_sound | (apply Keeps.sound; apply slotMark_keeps) | (apply Keeps.sound; apply loadProgress_keeps))
    | refine fwStep_sound _ _ _ _ fun p => ?_
    | (refine Sound.upd ?_; first | exact Sound.same | (apply Sound.after; first | (apply Keeps.sound; apply raise_keeps) | apply answer_sound | (apply Keeps.sound; apply slotMark_keeps) | (apply Keeps.sound; apply loadProgress_keeps)) | apply Sound.ite | split | (refine Sound.upd ?_; first | exact Sound.same | (apply Sound.after; first | (apply Keeps.sound; apply raise_keeps) | apply answer_sound | (apply Keeps.sound; apply slotMark_keeps) | (apply Keeps.sound; apply loadProgress_keeps))))
    | apply Sound.ite
    | split

theorem execFwLoadSessionTimeout_keeps (s : State) : ∃ s', execFwLoadSessionTimeout s = .next s' ∧ Keeps s s' := by
  refine ⟨_, rfl, ?_⟩
  with_reducible repeat' first
    | (apply Keeps.after; first | apply slotMark_keeps | apply loadProgress_keeps)
    | (refine Keeps.upd ?_; first | exact Keeps.same | (apply Keeps.after; first | apply slotMark_keeps | apply loadProgress_keeps))
    | split

theorem execHiveKeyLoad_sound (s : State) : ∃ s', execHiveKeyLoad s = .next s' ∧ Sound s s' := by
  refine ⟨_, rfl, ?_⟩
  with_reducible repeat' first
    | (apply Sound.after; first | (apply Keeps.sound; apply hwState_keeps) | apply answer_sound)
    | refine presenceCmd_sound _ _ _ fun p => ?_
    | (refine Sound.upd ?_; exact Sound.same)
    | split

theorem execRepairRead_sound (s : State) : ∃ s', execRepairRead s = .next s' ∧ Sound s s' := by
  refine ⟨_, rfl, ?_⟩
  with_reducible repeat' first
    | exact Sound.same
    | (apply Sound.after; apply answer_sound)
    | refine presenceCmd_sound _ _ _ fun p => ?_

theorem unsealCmd_sound (s : State) (act : Nat) (f : List Byte → State) (h : ∀ p, Sound s (f p)) : Sound s (unsealCmd s act f) := by
  refine onCmd_sound _ _ _ fun p => ?_
  dsimp only
  refine Sound.ite _ Sound.same ?_
  split
  · exact answer_sound _ _ _
  · exact Sound.ite _ ((h p).trans (answer_sound _ _ _)) (answer_sound _ _ _)

theorem execWg3Unseal_sound (s : State) : ∃ s', execWg3Unseal s = .next s' ∧ Sound s s' := by
  refine ⟨_, rfl, ?_⟩
  with_reducible repeat' first | refine unsealCmd_sound _ _ _ fun p => ?_ | (refine Sound.upd ?_; exact Sound.same)

theorem execWg3Seal_sound (s : State) : ∃ s', execWg3Seal s = .next s' ∧ Sound s s' := by
  refine ⟨_, rfl, ?_⟩
  with_reducible repeat' first
    | exact Sound.same
    | (apply Sound.after; (apply Keeps.sound; apply wg3Close_keeps))
    | refine unsealCmd_sound _ _ _ fun p => ?_

theorem execWg3UnsealExpiry_keeps (s : State) : ∃ s', execWg3UnsealExpiry s = .next s' ∧ Keeps s s' := by
  refine ⟨_, rfl, ?_⟩
  with_reducible repeat' first | exact Keeps.same | (apply Keeps.after; apply wg3Close_keeps) | split

theorem execReseal_sound (s : State) : ∃ s', execReseal s = .next s' ∧ Sound s s' := by
  refine ⟨_, rfl, ?_⟩
  with_reducible repeat' first
    | (apply Sound.after; first | (apply Keeps.sound; apply hwState_keeps) | (apply Keeps.sound; apply raise_keeps) | apply answer_sound)
    | refine presenceCmd_sound _ _ _ fun p => ?_
    | (refine Sound.upd ?_; exact Sound.same)
    | split

theorem execRjRead_sound (s : State) : ∃ s', execRjRead s = .next s' ∧ Sound s s' := by
  refine ⟨_, rfl, ?_⟩
  with_reducible repeat' first
    | exact Sound.same
    | (apply Sound.after; apply answer_sound)
    | refine onCmd_sound _ _ _ fun p => ?_
    | apply Sound.ite

theorem execRjMark_sound (s : State) : ∃ s', execRjMark s = .next s' ∧ Sound s s' := by
  refine ⟨_, rfl, ?_⟩
  with_reducible repeat' first
    | exact Sound.same
    | (apply Sound.after; apply answer_sound)
    | refine onCmd_sound _ _ _ fun p => ?_
    | split

/- Power.lean. -/

theorem loopsOff_keeps (s : State) : Keeps s (loopsOff s) := by
  unfold loopsOff
  with_reducible repeat' first
    | exact Keeps.same
    | (apply Keeps.after; first | apply onLoop_keeps | apply profFlush_keeps | apply undoStep_keeps)
    | (refine Keeps.upd ?_; first | exact Keeps.same | (apply Keeps.after; first | apply onLoop_keeps | apply profFlush_keeps | apply undoStep_keeps) | apply Keeps.ite | split | (refine Keeps.upd ?_; first | exact Keeps.same | (apply Keeps.after; first | apply onLoop_keeps | apply profFlush_keeps | apply undoStep_keeps)))

theorem xmLose_sound (s : State) : Sound s (xmLose s) :=
  ⟨rfl, rfl, id, id, fun _ => xmWf_nil _, id, id⟩

theorem quadsOff_keeps (s : State) : Keeps s (quadsOff s) := by
  unfold quadsOff
  with_reducible repeat' first
    | exact Keeps.same
    | (apply Keeps.after; apply quadDown_keeps)
    | (apply Keeps.after; apply Keeps.forUpto; intro s x)

theorem enterState_sound (s : State) (p : PwrSt) : Sound s (enterState s p) := by
  unfold enterState
  with_reducible repeat' first
    | exact Sound.same
    | (apply Sound.after; first | (apply Keeps.sound; apply lnkDown_keeps) | (apply Keeps.sound; apply loopsOff_keeps) | apply xmLose_sound | (apply Keeps.sound; apply quadsOff_keeps))
    | (refine Sound.upd ?_; first | exact Sound.same | (apply Sound.after; first | (apply Keeps.sound; apply lnkDown_keeps) | (apply Keeps.sound; apply loopsOff_keeps) | apply xmLose_sound | (apply Keeps.sound; apply quadsOff_keeps)) | apply Sound.ite | split | (refine Sound.upd ?_; first | exact Sound.same | (apply Sound.after; first | (apply Keeps.sound; apply lnkDown_keeps) | (apply Keeps.sound; apply loopsOff_keeps) | apply xmLose_sound | (apply Keeps.sound; apply quadsOff_keeps))))
    | apply Sound.ite
    | split

theorem execPowerStateEntry_sound (s : State) : ∃ s', execPowerStateEntry s = .next s' ∧ Sound s s' := by
  refine ⟨_, rfl, ?_⟩
  with_reducible repeat' first | exact Sound.same | (apply Sound.after; apply enterState_sound) | apply Sound.ite

theorem bistQuads_keeps (s : State) : Keeps s (bistQuads s) := by
  unfold bistQuads
  with_reducible repeat' first
    | (apply Keeps.after; apply Keeps.forUpto; intro s x)
    | (refine Keeps.upd ?_; exact Keeps.same)
    | split

theorem relockBase_keeps (s : State) (vt : Nat) : Keeps s (relockBase s vt) := by
  unfold relockBase
  with_reducible repeat' first
    | exact Keeps.same
    | (apply Keeps.after; first | apply retarget_keeps | apply prelockNext_keeps | apply coreLocked_keeps)
    | (refine Keeps.upd ?_; first | exact Keeps.same | (apply Keeps.after; first | apply retarget_keeps | apply prelockNext_keeps | apply coreLocked_keeps) | apply Keeps.ite | split | (refine Keeps.upd ?_; first | exact Keeps.same | (apply Keeps.after; first | apply retarget_keeps | apply prelockNext_keeps | apply coreLocked_keeps)))
    | apply Keeps.ite
    | split

theorem combWake_keeps (s : State) : Keeps s (combWake s) := by
  unfold combWake
  with_reducible repeat' first
    | (apply Keeps.after; apply onArb_keeps)
    | (apply Keeps.after; apply Keeps.forUpto; intro s x)
    | (refine Keeps.upd ?_; first | exact Keeps.same | (apply Keeps.after; apply onArb_keeps))
    | split

theorem contentsLost_keeps (s : State) : Keeps s (contentsLost s) := by
  unfold contentsLost
  with_reducible repeat' first | (apply Keeps.after; apply raise_keeps) | (refine Keeps.upd ?_; exact Keeps.same)

theorem wakeReach_keeps (s : State) (t : PwrSt) (vt : Nat) : Keeps s (wakeReach s t vt) := by
  unfold wakeReach
  with_reducible repeat' first
    | exact Keeps.same
    | (apply Keeps.after; first | apply afterTable_keeps | apply powerQuads_keeps | apply bistQuads_keeps | apply relockBase_keeps | apply combWake_keeps | apply contentsLost_keeps)
    | (refine Keeps.upd ?_; first | exact Keeps.same | (apply Keeps.after; first | apply afterTable_keeps | apply powerQuads_keeps | apply bistQuads_keeps | apply relockBase_keeps | apply combWake_keeps | apply contentsLost_keeps) | apply Keeps.ite | split | (refine Keeps.upd ?_; first | exact Keeps.same | (apply Keeps.after; first | apply afterTable_keeps | apply powerQuads_keeps | apply bistQuads_keeps | apply relockBase_keeps | apply combWake_keeps | apply contentsLost_keeps)))
    | apply Keeps.ite
    | split

theorem execWakeComplete_keeps (x : WakeEnd) (s : State) : ∃ s', execWakeComplete x s = .next s' ∧ Keeps s s' := by
  refine ⟨_, rfl, ?_⟩
  with_reducible repeat' first
    | exact Keeps.same
    | (apply Keeps.after; first | apply raise_keeps | apply wakeReach_keeps)
    | (refine Keeps.upd ?_; first | exact Keeps.same | (apply Keeps.after; first | apply raise_keeps | apply wakeReach_keeps) | apply Keeps.ite | split | (refine Keeps.upd ?_; first | exact Keeps.same | (apply Keeps.after; first | apply raise_keeps | apply wakeReach_keeps)))
    | apply Keeps.ite
    | split

theorem wakeEdge_keeps (s : State) : Keeps s (wakeEdge s) := by
  unfold wakeEdge
  with_reducible repeat' first
    | exact Keeps.same
    | (apply Keeps.after; first | apply wakeActive_keeps | apply wakeTolerance_keeps)
    | apply Keeps.ite

theorem execThermalTrip_keeps (sensor : Fin 11) (eighths : Int) (s : State) : ∃ s', execThermalTrip sensor eighths s = .next s' ∧ Keeps s s' := by
  refine ⟨_, rfl, ?_⟩
  with_reducible repeat' first
    | (apply Keeps.after; first | apply raise_keeps | apply invalidOn_keeps | apply quadsOff_keeps)
    | (apply Keeps.after; apply Keeps.forUpto; intro s x)
    | (refine Keeps.upd ?_; first | exact Keeps.same | (apply Keeps.after; first | apply raise_keeps | apply invalidOn_keeps | apply quadsOff_keeps))
    | split

theorem execThermalTripRecovery_keeps (s : State) : ∃ s', execThermalTripRecovery s = .next s' ∧ Keeps s s' := by
  refine ⟨_, rfl, ?_⟩
  with_reducible repeat' first
    | (apply Keeps.after; apply bistQuads_keeps)
    | (refine Keeps.upd ?_; exact Keeps.same)
    | apply Keeps.ite

theorem tempSample_keeps (s : State) (k : Nat) (r : Option Int) : Keeps s (tempSample s k r) := by
  unfold tempSample
  with_reducible repeat' first
    | (apply Keeps.after; apply raise_keeps)
    | (refine Keeps.upd ?_; exact Keeps.same)
    | apply Keeps.ite
    | split

theorem thermalEdge_keeps (s : State) : Keeps s (thermalEdge s) := by
  unfold thermalEdge
  with_reducible repeat' first
    | (apply Keeps.after; apply raise_keeps)
    | (refine Keeps.upd ?_; first | exact Keeps.same | apply Keeps.ite | split)

theorem tempEdge_keeps (s : State) (temps : List (Option Int)) : Keeps s (tempEdge s temps) := by
  unfold tempEdge
  with_reducible repeat' first
    | (apply Keeps.after; apply tempSample_keeps)
    | (apply Keeps.after; apply Keeps.forUpto; intro s x)
    | (refine Keeps.upd ?_; first | exact Keeps.same | (apply Keeps.after; apply Keeps.forUpto; intro s x))

theorem powerLimit_keeps (s : State) (w : Nat) : Keeps s (powerLimit s w) := by
  unfold powerLimit
  with_reducible repeat' first
    | (apply Keeps.after; apply raise_keeps)
    | (refine Keeps.upd ?_; exact Keeps.same)
    | apply Keeps.ite

theorem regulatorFault_keeps (s : State) (page : Nat) : Keeps s (regulatorFault s page) := by
  unfold regulatorFault
  with_reducible repeat' first | (apply Keeps.after; apply raise_keeps) | (refine Keeps.upd ?_; exact Keeps.same) | split

theorem railSample_keeps (s : State) (r : RegReading) : Keeps s (railSample s r) := by
  unfold railSample
  exact Keeps.upd Keeps.same

theorem execRegulatorRead_keeps (rs : List RegReading) (s : State) : ∃ s', execRegulatorRead rs s = .next s' ∧ Keeps s s' := by
  refine ⟨_, rfl, ?_⟩
  with_reducible repeat' first
    | (apply Keeps.after; first | apply powerLimit_keeps | apply regulatorFault_keeps | apply railSample_keeps)
    | (apply Keeps.after; apply Keeps.foldl; intro s x)
    | (refine Keeps.upd ?_; exact Keeps.same)
    | split

theorem execRegulatorFaultClear_keeps (page : Nat) (s : State) : ∃ s', execRegulatorFaultClear page s = .next s' ∧ Keeps s s' := by
  refine ⟨_, rfl, ?_⟩
  with_reducible repeat' first | (refine Keeps.upd ?_; exact Keeps.same) | split

theorem execTelemetrySummary_keeps (s : State) : ∃ s', execTelemetrySummary s = .next s' ∧ Keeps s s' := by
  refine ⟨_, rfl, ?_⟩
  with_reducible repeat' first
    | (apply Keeps.after; apply hwState_keeps)
    | (refine Keeps.upd ?_; first | exact Keeps.same | (apply Keeps.after; apply hwState_keeps))
    | split

/- Boot.lean. -/

theorem bootStep_keeps (s : State) (r : Readiness) (p : Nat) : Keeps s (bootStep s r p) := by
  unfold bootStep
  exact Keeps.upd Keeps.same

theorem bootFail_keeps (s : State) (code step : Nat) : Keeps s (bootFail s code step) := by
  unfold bootFail
  with_reducible repeat' first
    | (apply Keeps.after; first | apply raise_keeps | apply bootRecordWrite_keeps | apply bootStep_keeps)
    | (refine Keeps.upd ?_; exact Keeps.same)
    | split

theorem refCheck_keeps (s : State) (hiveOk localOk : Bool) : Keeps s (refCheck s hiveOk localOk) := by
  unfold refCheck
  with_reducible repeat' first
    | exact Keeps.same
    | (apply Keeps.after; first | apply onLoop_keeps | apply seeRefs_keeps | apply checkRefs_keeps)
    | (refine Keeps.upd ?_; first | exact Keeps.same | (apply Keeps.after; first | apply onLoop_keeps | apply seeRefs_keeps | apply checkRefs_keeps) | apply Keeps.ite | split | (refine Keeps.upd ?_; first | exact Keeps.same | (apply Keeps.after; first | apply onLoop_keeps | apply seeRefs_keeps | apply checkRefs_keeps)))
    | apply Keeps.ite
    | split

theorem romSelect_keeps (s : State) : Keeps s (romSelect s) := by
  unfold romSelect
  with_reducible repeat' first
    | exact Keeps.same
    | (apply Keeps.after; apply bootStep_keeps)
    | (refine Keeps.upd ?_; first | exact Keeps.same | (apply Keeps.after; apply bootStep_keeps) | apply Keeps.ite | split)
    | apply Keeps.ite
    | split

theorem tick_keeps (s : State) : Keeps s (tick s) := by
  unfold tick
  with_reducible repeat' first
    | exact Keeps.same
    | (apply Keeps.after; apply romSelect_keeps)
    | (refine Keeps.upd ?_; first | exact Keeps.same | (apply Keeps.after; apply romSelect_keeps) | apply Keeps.ite | split | (refine Keeps.upd ?_; first | exact Keeps.same | (apply Keeps.after; apply romSelect_keeps)))
    | apply Keeps.ite
    | split

theorem execRomStart_keeps (hiveOk localOk : Bool) (s : State) : ∃ s', execRomStart hiveOk localOk s = .next s' ∧ Keeps s s' := by
  refine ⟨_, rfl, ?_⟩
  with_reducible repeat' first
    | exact Keeps.same
    | (apply Keeps.after; first | apply bootStep_keeps | apply refCheck_keeps)
    | (refine Keeps.upd ?_; first | exact Keeps.same | (apply Keeps.after; first | apply bootStep_keeps | apply refCheck_keeps) | apply Keeps.ite | split)
    | apply Keeps.ite
    | split

theorem execReferenceRecheck_keeps (hiveOk localOk : Bool) (s : State) : ∃ s', execReferenceRecheck hiveOk localOk s = .next s' ∧ Keeps s s' := by
  refine ⟨_, rfl, ?_⟩
  with_reducible repeat' first
    | exact Keeps.same
    | (apply Keeps.after; first | apply bootStep_keeps | apply refCheck_keeps | apply romSelect_keeps)
    | apply Keeps.ite
    | split

theorem lockB_keeps (s : State) : Keeps s (lockB s) := by
  unfold lockB
  with_reducible repeat' first
    | (apply Keeps.after; first | apply onLoop_keeps | apply bootStep_keeps)
    | (refine Keeps.upd ?_; first | exact Keeps.same | (apply Keeps.after; first | apply onLoop_keeps | apply bootStep_keeps))
    | apply Keeps.ite

theorem execLockAcquired_keeps (x : LoopLock) (s : State) : ∃ s', execLockAcquired x s = .next s' ∧ Keeps s s' := by
  refine ⟨_, rfl, ?_⟩
  with_reducible repeat' first
    | exact Keeps.same
    | (apply Keeps.after; first | apply coreLocked_keeps | apply lockB_keeps)
    | (refine Keeps.upd ?_; first | exact Keeps.same | (apply Keeps.after; first | apply coreLocked_keeps | apply lockB_keeps) | apply Keeps.ite | split)
    | apply Keeps.ite
    | split

theorem execPllBLockTimeout_keeps (s : State) : ∃ s', execPllBLockTimeout s = .next s' ∧ Keeps s s' := by
  refine ⟨_, rfl, ?_⟩
  with_reducible repeat' first
    | exact Keeps.same
    | (apply Keeps.after; first | apply bootFail_keeps | apply romSelect_keeps)
    | apply Keeps.ite
    | split

theorem execHifPowerGood_keeps (s : State) : ∃ s', execHifPowerGood s = .next s' ∧ Keeps s s' := by
  refine ⟨_, rfl, ?_⟩
  with_reducible repeat' first | (apply Keeps.after; apply bootStep_keeps) | (refine Keeps.upd ?_; exact Keeps.same) | split

theorem execPerstDeassert_keeps (s : State) : ∃ s', execPerstDeassert s = .next s' ∧ Keeps s s' := by
  refine ⟨_, rfl, ?_⟩
  with_reducible repeat' first | (refine Keeps.upd ?_; exact Keeps.same) | split

theorem execConfigRequest_keeps (bme : Option Bool) (s : State) : ∃ s', execConfigRequest bme s = .next s' ∧ Keeps s s' := by
  refine ⟨_, rfl, ?_⟩
  with_reducible repeat' first
    | (apply Keeps.after; apply hostBack_keeps)
    | dsimp only
    | (refine Keeps.upd ?_; exact Keeps.same)
    | split

theorem firmwareStart_keeps (s : State) (img : ImageInfo) : Keeps s (firmwareStart s img) := by
  unfold firmwareStart
  with_reducible repeat' first
    | (apply Keeps.after; first | apply raise_keeps | apply bootStep_keeps)
    | (refine Keeps.upd ?_; first | exact Keeps.same | apply Keeps.ite)

theorem recoveryEntry_keeps (s : State) : Keeps s (recoveryEntry s) := by
  unfold recoveryEntry
  with_reducible repeat' first
    | (apply Keeps.after; first | apply raise_keeps | apply bootRecordWrite_keeps | apply bootStep_keeps)
    | (refine Keeps.upd ?_; exact Keeps.same)

theorem execImageVerifyComplete_keeps (img : ImageInfo) (s : State) : ∃ s', execImageVerifyComplete img s = .next s' ∧ Keeps s s' := by
  refine ⟨_, rfl, ?_⟩
  with_reducible repeat' first
    | exact Keeps.same
    | (apply Keeps.after; first | apply bootStep_keeps | apply firmwareStart_keeps | apply recoveryEntry_keeps)
    | (refine Keeps.upd ?_; first | exact Keeps.same | (apply Keeps.after; first | apply bootStep_keeps | apply firmwareStart_keeps | apply recoveryEntry_keeps) | apply Keeps.ite | split | (refine Keeps.upd ?_; first | exact Keeps.same | (apply Keeps.after; first | apply bootStep_keeps | apply firmwareStart_keeps | apply recoveryEntry_keeps)))
    | apply Keeps.ite
    | split

theorem domainsDone_keeps (s : State) : Keeps s (domainsDone s) := by
  unfold domainsDone
  with_reducible repeat' first | exact Keeps.same | (apply Keeps.after; apply bootStep_keeps) | split

theorem domainPower_sound (s : State) (w : Nat) : Sound s (domainPower s w) := by
  unfold domainPower
  have h : ∀ (lo hi : Nat) (v : Vector Bool 4), Sound s { s with pwr.cb := v, cmb.mem := s.cmb.mem.eraseRange lo hi } :=
    fun lo hi v => ⟨rfl, rfl, id, fun h => SMap.eraseRange_wf _ _ _ _ h, id, id, id⟩
  exact Sound.ite _ (Sound.ite _ Sound.same (Sound.upd Sound.same)) (Sound.ite _ (h _ _ _) (Sound.upd Sound.same))

theorem execDomainWindow_sound (s : State) : ∃ s', execDomainWindow s = .next s' ∧ Sound s s' := by
  refine ⟨_, rfl, ?_⟩
  with_reducible repeat' first
    | (apply Sound.after; first | (apply Keeps.sound; apply bootStep_keeps) | (apply Keeps.sound; apply domainsDone_keeps) | apply domainPower_sound)
    | (refine Sound.upd ?_; first | exact Sound.same | (apply Sound.after; first | (apply Keeps.sound; apply bootStep_keeps) | (apply Keeps.sound; apply domainsDone_keeps) | apply domainPower_sound))
    | apply Sound.ite

theorem execQuadrantBistComplete_keeps (q : Quad) (ok : Bool) (s : State) : ∃ s', execQuadrantBistComplete q ok s = .next s' ∧ Keeps s s' := by
  refine ⟨_, rfl, ?_⟩
  with_reducible repeat' first
    | (apply Keeps.after; first | apply raise_keeps | apply quadDown_keeps | apply bootFail_keeps | apply domainsDone_keeps)
    | (refine Keeps.upd ?_; exact Keeps.same)
    | apply Keeps.ite

theorem channelEvents_keeps (s : State) (ok : BitVec 8) : Keeps s (channelEvents s ok) := by
  unfold channelEvents
  with_reducible repeat' first
    | exact Keeps.same
    | (apply Keeps.after; apply raise_keeps)
    | (apply Keeps.after; apply Keeps.forUpto; intro s x)
    | split

theorem execLpddrTrainingComplete_keeps (ok : BitVec 8) (s : State) : ∃ s', execLpddrTrainingComplete ok s = .next s' ∧ Keeps s s' := by
  refine ⟨_, rfl, ?_⟩
  with_reducible repeat' first
    | exact Keeps.same
    | (apply Keeps.after; first | apply bootStep_keeps | apply bootFail_keeps | apply channelEvents_keeps)
    | (refine Keeps.upd ?_; first | exact Keeps.same | (apply Keeps.after; first | apply bootStep_keeps | apply bootFail_keeps | apply channelEvents_keeps) | apply Keeps.ite | split | (refine Keeps.upd ?_; first | exact Keeps.same | (apply Keeps.after; first | apply bootStep_keeps | apply bootFail_keeps | apply channelEvents_keeps)))
    | apply Keeps.ite
    | split

theorem execReadyReached_keeps (us : Nat) (s : State) : ∃ s', execReadyReached us s = .next s' ∧ Keeps s s' := by
  refine ⟨_, rfl, ?_⟩
  with_reducible repeat' first
    | (apply Keeps.after; first | apply raise_keeps | apply bootRecordWrite_keeps | apply bootStep_keeps)
    | refine atEdge_keeps _ _ fun s n => ?_
    | (refine Keeps.upd ?_; exact Keeps.same)
    | split

/- Resets.lean. -/

theorem hwHalf_keeps (s : State) : Keeps s (hwHalf s) := by
  unfold hwHalf
  with_reducible repeat' first
    | (apply Keeps.after; first | apply hwWrite_keeps | apply hwNor_keeps)
    | (refine Keeps.upd ?_; first | exact Keeps.same | (apply Keeps.after; first | apply hwWrite_keeps | apply hwNor_keeps))
    | split

theorem hwKeeperReset_keeps (s : State) (cause : Nat) : Keeps s (hwKeeperReset s cause) := by
  unfold hwKeeperReset
  exact Keeps.upd Keeps.same

theorem hwQueueLost_keeps (s : State) : Keeps s (hwQueueLost s) := by
  unfold hwQueueLost
  with_reducible repeat' first
    | (apply Keeps.after; apply hwHalf_keeps)
    | (refine Keeps.upd ?_; first | exact Keeps.same | (apply Keeps.after; apply hwHalf_keeps))

theorem coldReset_sound (s : State) : Sound s (coldReset s) :=
  ⟨rfl, rfl, fun _ => ⟨Nat.zero_le _, fun _ he => (List.not_mem_nil he).elim, Nat.zero_lt_one⟩, fun _ => rfl, fun _ => xmWf_nil _, id, id⟩

theorem execAonPowerGood_sound (s : State) : ∃ s', execAonPowerGood s = .next s' ∧ Sound s s' := by
  refine ⟨_, rfl, ?_⟩
  with_reducible repeat' first | (apply Sound.after; apply coldReset_sound) | (refine Sound.upd ?_; exact Sound.same) | split

theorem allOff_keeps (s : State) : Keeps s (allOff s) := by
  unfold allOff
  exact Keeps.upd Keeps.same

theorem aonDown_keeps (s : State) : Keeps s (aonDown s) := by
  unfold aonDown
  with_reducible repeat' first
    | (apply Keeps.after; first | apply hwHalf_keeps | apply allOff_keeps)
    | (refine Keeps.upd ?_; first | exact Keeps.same | (apply Keeps.after; first | apply hwHalf_keeps | apply allOff_keeps))

theorem execAonPowerGoodFall_keeps (s : State) : ∃ s', execAonPowerGoodFall s = .next s' ∧ Keeps s s' := by
  refine ⟨_, rfl, ?_⟩
  with_reducible repeat' first
    | (apply Keeps.after; apply aonDown_keeps)
    | (refine Keeps.upd ?_; first | exact Keeps.same | (apply Keeps.after; apply aonDown_keeps))
    | split

theorem execAonBrownOut_keeps (s : State) : ∃ s', execAonBrownOut s = .next s' ∧ Keeps s s' := by
  refine ⟨_, rfl, ?_⟩
  with_reducible repeat' first
    | (apply Keeps.after; apply aonDown_keeps)
    | (refine Keeps.upd ?_; first | exact Keeps.same | (apply Keeps.after; apply aonDown_keeps))
    | split

theorem execAonSupplyRecovery_sound (s : State) : ∃ s', execAonSupplyRecovery s = .next s' ∧ Sound s s' := by
  refine ⟨_, rfl, ?_⟩
  with_reducible repeat' first | (apply Sound.after; apply coldReset_sound) | (refine Sound.upd ?_; exact Sound.same) | split

theorem execPowerFailWarning_sound (s : State) : ∃ s', execPowerFailWarning s = .next s' ∧ Sound s s' := by
  refine ⟨_, rfl, ?_⟩
  with_reducible repeat' first
    | (apply Sound.after; first | apply hwPowerFail_sound | (apply Keeps.sound; apply hwHalf_keeps) | (apply Keeps.sound; apply allOff_keeps))
    | (refine Sound.upd ?_; first | exact Sound.same | split)

theorem chunkAbort_keeps (s : State) (q : Nat) : Keeps s (chunkAbort s q) := by
  unfold chunkAbort
  with_reducible repeat' first | exact Keeps.same | (apply Keeps.after; first | apply onQuad_keeps | apply raise_keeps) | split

theorem portsWarm_keeps (s : State) : Keeps s (portsWarm s) := by
  unfold portsWarm
  with_reducible repeat' first
    | (apply Keeps.after; apply lnkDown_keeps)
    | (refine Keeps.upd ?_; first | exact Keeps.same | (apply Keeps.after; apply lnkDown_keeps))

theorem warmReset_sound (s : State) (cause : Nat) : Sound s (warmReset s cause) := by
  unfold warmReset
  dsimp only
  have h := ((Keeps.forUpto chunkAbort 4 s fun s q => chunkAbort_keeps s q).trans (portsWarm_keeps _)).trans (hwKeeperReset_keeps _ cause)
  revert h
  generalize hwKeeperReset (portsWarm (forUpto 4 chunkAbort s)) cause = u
  intro h
  have k := h.sound
  constructor
  · exact k.pending
  · exact k.jtag
  · exact fun j => ⟨(k.journal j).1, (k.journal j).2.1, Nat.lt_of_le_of_lt (Nat.zero_le _) (k.journal j).2.2⟩
  · exact fun _ => rfl
  · exact fun _ => xmWf_nil _
  · exact k.slotA
  · exact k.slotB

theorem execWarmReset_sound (s : State) : ∃ s', execWarmReset s = .next s' ∧ Sound s s' := by
  refine ⟨_, rfl, ?_⟩
  with_reducible repeat' first
    | exact Sound.same
    | (apply Sound.after; first | apply hwFlush_sound | apply warmReset_sound)
    | split

theorem forcedReset_sound (s : State) (cause : Nat) : Sound s (forcedReset s cause) := by
  unfold forcedReset
  with_reducible repeat' first
    | exact Sound.same
    | (apply Sound.after; first | (apply Keeps.sound; apply raise_keeps) | (apply Keeps.sound; apply hwQueueLost_keeps) | apply warmReset_sound)
    | split

theorem execKeeperWatchdogExpiry_sound (s : State) : ∃ s', execKeeperWatchdogExpiry s = .next s' ∧ Sound s s' := by
  refine ⟨_, rfl, ?_⟩
  with_reducible repeat' first | exact Sound.same | (apply Sound.after; apply forcedReset_sound)

theorem execLockstepMismatch_sound (s : State) : ∃ s', execLockstepMismatch s = .next s' ∧ Sound s s' := by
  refine ⟨_, rfl, ?_⟩
  with_reducible repeat' first | exact Sound.same | (apply Sound.after; apply forcedReset_sound)

theorem hostMailbox_keeps (s : State) (m : Nat) : Keeps s (hostMailbox s m) := by
  unfold hostMailbox
  with_reducible repeat' first | (apply Keeps.after; apply onMb_keeps) | (refine Keeps.upd ?_; exact Keeps.same)

theorem hifReset_sound (s : State) : Sound s (hifReset s) := by
  unfold hifReset
  with_reducible repeat' first
    | exact Sound.same
    | (apply Sound.after; first | apply dmaAllFail_sound | (apply Keeps.sound; apply hostMailbox_keeps))
    | (refine Sound.upd ?_; first | exact Sound.same | (apply Sound.after; first | apply dmaAllFail_sound | (apply Keeps.sound; apply hostMailbox_keeps)) | apply Sound.ite | split | (refine Sound.upd ?_; first | exact Sound.same | (apply Sound.after; first | apply dmaAllFail_sound | (apply Keeps.sound; apply hostMailbox_keeps))))

theorem execPerstAssert_sound (s : State) : ∃ s', execPerstAssert s = .next s' ∧ Sound s s' := by
  refine ⟨_, rfl, ?_⟩
  with_reducible repeat' first
    | (apply Sound.after; apply hifReset_sound)
    | (refine Sound.upd ?_; first | exact Sound.same | split)

theorem execPcieHotReset_sound (s : State) : ∃ s', execPcieHotReset s = .next s' ∧ Sound s s' := by
  refine ⟨_, rfl, ?_⟩
  with_reducible repeat' first
    | (apply Sound.after; apply hifReset_sound)
    | (refine Sound.upd ?_; first | exact Sound.same | (apply Sound.after; apply hifReset_sound))
    | split

theorem execFunctionLevelReset_sound (s : State) : ∃ s', execFunctionLevelReset s = .next s' ∧ Sound s s' := by
  refine ⟨_, rfl, ?_⟩
  with_reducible repeat' first
    | (apply Sound.after; apply hifReset_sound)
    | (refine Sound.upd ?_; first | exact Sound.same | (apply Sound.after; apply hifReset_sound))
    | split

theorem quadInvalid_keeps (s : State) (q e : Nat) : Keeps s (quadInvalid s q e) := by
  unfold quadInvalid
  with_reducible repeat' first
    | exact Keeps.same
    | (apply Keeps.after; apply onCtx_keeps)
    | (apply Keeps.after; apply Keeps.foldl; intro s x)
    | split

theorem quadReset_keeps (s : State) (q e : Nat) : Keeps s (quadReset s q e) := by
  unfold quadReset
  with_reducible repeat' first
    | (apply Keeps.after; first | apply onQuad_keeps | apply quadClear_keeps | apply chunkAbort_keeps | apply quadInvalid_keeps)
    | dsimp only
    | (refine Keeps.upd ?_; first | exact Keeps.same | (apply Keeps.after; first | apply onQuad_keeps | apply quadClear_keeps | apply chunkAbort_keeps | apply quadInvalid_keeps))
    | split

theorem execQuadrantReset_keeps (x : QuadFault) (s : State) : ∃ s', execQuadrantReset x s = .next s' ∧ Keeps s s' := by
  refine ⟨_, rfl, ?_⟩
  with_reducible repeat' first
    | exact Keeps.same
    | (apply Keeps.after; apply quadReset_keeps)
    | (refine atEdge_keeps _ _ fun s n => ?_)
    | apply Keeps.ite
    | split

end Sys2Proof.Machine
end

