-- ==== Sys2Proof/Laws/FrameEdge.lean ====
section
/-! SUPPORT. What each operation of Edge, Queries leaves alone, or keeps. -/

namespace Sys2Proof.Machine

set_option Elab.async false

open Sys2Proof

/- Edge.lean. -/

theorem slotArms_keeps (s : State) (q : Nat) : Keeps s (slotArms s q) := by
  unfold slotArms
  with_reducible repeat' first | exact Keeps.same | (apply Keeps.after; apply onQuad_keeps)

theorem slotWork_keeps (s : State) (q : Nat) : Keeps s (slotWork s q) := by
  unfold slotWork
  with_reducible repeat' first | exact Keeps.same | (apply Keeps.after; apply onQuad_keeps) | apply Keeps.ite

theorem slotBegin_keeps (s : State) : Keeps s (slotBegin s) := by
  unfold slotBegin
  with_reducible repeat' first
    | exact Keeps.same
    | (apply Keeps.after; first | apply onQuad_keeps | apply raise_keeps | apply applySteer_keeps | apply advanceAll_keeps | apply threadBoundary_keeps | apply portFlush_keeps | apply slotArms_keeps | apply slotWork_keeps)
    | (apply Keeps.after; apply Keeps.forUpto; intro s x)
    | (refine Keeps.upd ?_; first | exact Keeps.same | (apply Keeps.after; first | apply onQuad_keeps | apply raise_keeps | apply applySteer_keeps | apply advanceAll_keeps | apply threadBoundary_keeps | apply portFlush_keeps | apply slotArms_keeps | apply slotWork_keeps) | (apply Keeps.after; apply Keeps.forUpto; intro s x) | apply Keeps.ite | split)
    | apply Keeps.ite
    | split

theorem execSlotBoundary_keeps (s : State) : ∃ s', execSlotBoundary s = .next s' ∧ Keeps s s' := by
  refine ⟨_, rfl, ?_⟩
  with_reducible repeat' first | (apply Keeps.after; apply slotBegin_keeps) | (refine Keeps.upd ?_; exact Keeps.same) | split

theorem prepareEdge_keeps (s : State) : Keeps s (prepareEdge s) := by
  unfold prepareEdge
  with_reducible repeat' first
    | exact Keeps.same
    | (apply Keeps.after; apply retarget_keeps)
    | (refine Keeps.upd ?_; first | exact Keeps.same | (apply Keeps.after; apply retarget_keeps) | apply Keeps.ite | split | (refine Keeps.upd ?_; first | exact Keeps.same | (apply Keeps.after; apply retarget_keeps)))
    | apply Keeps.ite
    | split

theorem hopAt_keeps (s : State) (n : Nat) : Keeps s (hopAt s n) := by
  unfold hopAt
  with_reducible repeat' first
    | exact Keeps.same
    | (apply Keeps.after; first | apply hopGuard_keeps | apply prepareEdge_keeps)
    | apply Keeps.ite
    | split

theorem guardSwaps_keeps (s : State) : Keeps s (guardSwaps s) := by
  unfold guardSwaps
  with_reducible repeat' first
    | exact Keeps.same
    | (apply Keeps.after; first | apply clearSkip_keeps | apply hopGuard_keeps | apply lateHopSwap_keeps | apply hopAt_keeps)
    | (refine Keeps.upd ?_; first | exact Keeps.same | (apply Keeps.after; first | apply clearSkip_keeps | apply hopGuard_keeps | apply lateHopSwap_keeps | apply hopAt_keeps) | apply Keeps.ite | split)
    | apply Keeps.ite
    | split

theorem execSlotGuardStart_keeps (s : State) : ∃ s', execSlotGuardStart s = .next s' ∧ Keeps s s' := by
  refine ⟨_, rfl, ?_⟩
  with_reducible repeat' first
    | (apply Keeps.after; apply guardSwaps_keeps)
    | (refine Keeps.upd ?_; first | exact Keeps.same | (apply Keeps.after; apply guardSwaps_keeps))
    | split

theorem unloadEdge_keeps (s : State) : Keeps s (unloadEdge s) := by
  unfold unloadEdge
  with_reducible repeat' first
    | exact Keeps.same
    | (apply Keeps.after; apply releasePlan_keeps)
    | (apply Keeps.after; apply Keeps.forUpto; intro s x)
    | split

theorem idleInstall_keeps (s : State) : Keeps s (idleInstall s) := by
  unfold idleInstall
  with_reducible repeat' first | exact Keeps.same | (apply Keeps.after; apply installTable_keeps) | split

theorem edgeClose_sound (s : State) (e : Nat) : Sound s (edgeClose s e) := by
  unfold edgeClose
  with_reducible repeat' first
    | exact Sound.same
    | (apply Sound.after; first | (apply Keeps.sound; apply drainDone_keeps) | (apply Keeps.sound; apply finishStopped_keeps) | (apply Keeps.sound; apply completeCtx_keeps) | (apply Keeps.sound; apply judgeEdge_keeps) | apply applyDue_sound | (apply Keeps.sound; apply quadReset_keeps) | (apply Keeps.sound; apply unloadEdge_keeps) | (apply Keeps.sound; apply idleInstall_keeps))
    | (apply Sound.after; apply Sound.forUpto; intro s x)
    | split

theorem edgeAdmit_sound (s : State) (e : Nat) : Sound s (edgeAdmit s e) := by
  unfold edgeAdmit
  with_reducible repeat' first
    | exact Sound.same
    | (apply Sound.after; first | apply admission_sound | apply settleLedger_sound | (apply Keeps.sound; apply quadInvalid_keeps))
    | (apply Sound.after; apply Sound.forUpto; intro s x)
    | apply Sound.ite
    | split

theorem ringEdge_keeps (s : State) : Keeps s (ringEdge s) := by
  unfold ringEdge
  with_reducible repeat' first
    | (apply Keeps.after; first | apply signal_keeps | apply bootqDeliver_keeps)
    | (refine Keeps.upd ?_; first | exact Keeps.same | (apply Keeps.after; first | apply signal_keeps | apply bootqDeliver_keeps))
    | apply Keeps.ite
    | split

theorem roundEdge_sound (s : State) : Sound s (roundEdge s) := by
  unfold roundEdge
  with_reducible repeat' first | (apply Sound.after; apply startRound_sound) | (refine Sound.upd ?_; exact Sound.same) | split

theorem linkEdge_keeps (s : State) (corrected : List (PortId × Nat × Nat)) : Keeps s (linkEdge s corrected) := by
  unfold linkEdge
  with_reducible repeat' first
    | exact Keeps.same
    | (apply Keeps.after; first | apply closeGroup_keeps | apply rebuildRequests_keeps | apply markersSend_keeps | apply laneCount_keeps)
    | (apply Keeps.after; apply Keeps.foldl; intro s x)
    | (apply Keeps.after; apply Keeps.forUpto; intro s x)
    | (refine Keeps.upd ?_; first | exact Keeps.same | (apply Keeps.after; first | apply closeGroup_keeps | apply rebuildRequests_keeps | apply markersSend_keeps | apply laneCount_keeps) | (apply Keeps.after; apply Keeps.foldl; intro s x) | (apply Keeps.after; apply Keeps.forUpto; intro s x) | apply Keeps.ite | split | (refine Keeps.upd ?_; first | exact Keeps.same | (apply Keeps.after; first | apply closeGroup_keeps | apply rebuildRequests_keeps | apply markersSend_keeps | apply laneCount_keeps)))

theorem scrubPeriod_keeps (s : State) : Keeps s (scrubPeriod s) := by
  unfold scrubPeriod
  with_reducible repeat' first
    | exact Keeps.same
    | (refine Keeps.upd ?_; first | exact Keeps.same | apply Keeps.ite | split | (refine Keeps.upd ?_; first | exact Keeps.same))
    | apply Keeps.ite
    | split

theorem scrubBehind_keeps (s : State) (q : Nat) : Keeps s (scrubBehind s q) := by
  unfold scrubBehind
  with_reducible repeat' first
    | exact Keeps.same
    | (apply Keeps.after; apply raise_keeps)
    | (refine Keeps.upd ?_; first | exact Keeps.same | (apply Keeps.after; apply raise_keeps) | apply Keeps.ite | split)
    | apply Keeps.ite
    | split

theorem scrubEdge_keeps (s : State) : Keeps s (scrubEdge s) := by
  unfold scrubEdge
  with_reducible repeat' first
    | exact Keeps.same
    | (apply Keeps.after; first | apply scrubPeriod_keeps | apply scrubBehind_keeps)
    | (apply Keeps.after; apply Keeps.forUpto; intro s x)
    | apply Keeps.ite
    | split

theorem countEdge_keeps (s : State) (env : EdgeEnv) : Keeps s (countEdge s env) := by
  unfold countEdge
  with_reducible repeat' first
    | exact Keeps.same
    | (refine Keeps.upd ?_; first | exact Keeps.same | apply Keeps.ite | split)
    | apply Keeps.ite
    | split

theorem powerEdge_keeps (s : State) : Keeps s (powerEdge s) := by
  unfold powerEdge
  with_reducible repeat' first
    | (apply Keeps.after; first | apply retarget421_keeps | apply wakeEdge_keeps)
    | (refine Keeps.upd ?_; first | exact Keeps.same | (apply Keeps.after; first | apply retarget421_keeps | apply wakeEdge_keeps))

theorem clockEdge_keeps (s : State) (env : EdgeEnv) : Keeps s (clockEdge s env) := by
  unfold clockEdge
  with_reducible repeat' first
    | exact Keeps.same
    | (apply Keeps.after; first | apply profFlush_keeps | apply settleIdle_keeps | apply prelockRetries_keeps | apply baseSwapAtEdge_keeps | apply pumpStep_keeps | apply phaseEdge_keeps | apply holdoverEdge_keeps | apply calRamps_keeps)

theorem beatEdge_sound (s : State) (env : EdgeEnv) (e : Nat) : Sound s (beatEdge s env e) := by
  unfold beatEdge
  with_reducible repeat' first
    | exact Sound.same
    | (apply Sound.after; first | (apply Keeps.sound; apply jumpEdge_keeps) | (apply Keeps.sound; apply combEdge_keeps) | (apply Keeps.sound; apply powerQuads_keeps) | (apply Keeps.sound; apply thermalEdge_keeps) | (apply Keeps.sound; apply tempEdge_keeps) | (apply Keeps.sound; apply slotBegin_keeps) | (apply Keeps.sound; apply prepareEdge_keeps) | apply edgeClose_sound | apply edgeAdmit_sound | (apply Keeps.sound; apply ringEdge_keeps) | apply roundEdge_sound | (apply Keeps.sound; apply linkEdge_keeps) | (apply Keeps.sound; apply scrubEdge_keeps) | (apply Keeps.sound; apply countEdge_keeps) | (apply Keeps.sound; apply powerEdge_keeps) | (apply Keeps.sound; apply clockEdge_keeps))
    | (refine Sound.upd ?_; first | exact Sound.same | (apply Sound.after; first | (apply Keeps.sound; apply jumpEdge_keeps) | (apply Keeps.sound; apply combEdge_keeps) | (apply Keeps.sound; apply powerQuads_keeps) | (apply Keeps.sound; apply thermalEdge_keeps) | (apply Keeps.sound; apply tempEdge_keeps) | (apply Keeps.sound; apply slotBegin_keeps) | (apply Keeps.sound; apply prepareEdge_keeps) | apply edgeClose_sound | apply edgeAdmit_sound | (apply Keeps.sound; apply ringEdge_keeps) | apply roundEdge_sound | (apply Keeps.sound; apply linkEdge_keeps) | (apply Keeps.sound; apply scrubEdge_keeps) | (apply Keeps.sound; apply countEdge_keeps) | (apply Keeps.sound; apply powerEdge_keeps) | (apply Keeps.sound; apply clockEdge_keeps)) | apply Sound.ite | split)
    | apply Sound.ite
    | split

theorem execBeatEdge_sound (env : EdgeEnv) (s : State) : ∃ s', execBeatEdge env s = .next s' ∧ Sound s s' := by
  refine ⟨_, rfl, ?_⟩
  with_reducible repeat' first | exact Sound.same | (apply Sound.after; apply beatEdge_sound) | split

/- Queries.lean. -/

theorem execQueryDevice_sound (s : State) : ∃ s', execQueryDevice s = .next s' ∧ Sound s s' := by
  refine ⟨_, rfl, ?_⟩
  with_reducible repeat' first | exact Sound.same | (apply Sound.after; apply queryCmd_sound)

theorem execQueryBoot_sound (s : State) : ∃ s', execQueryBoot s = .next s' ∧ Sound s s' := by
  refine ⟨_, rfl, ?_⟩
  with_reducible repeat' first | exact Sound.same | (apply Sound.after; apply queryCmd_sound)

theorem execQuerySyn_sound (s : State) : ∃ s', execQuerySyn s = .next s' ∧ Sound s s' := by
  refine ⟨_, rfl, ?_⟩
  with_reducible repeat' first | exact Sound.same | (apply Sound.after; apply queryCmd_sound)

theorem execQueryBeat_sound (s : State) : ∃ s', execQueryBeat s = .next s' ∧ Sound s s' := by
  refine ⟨_, rfl, ?_⟩
  with_reducible repeat' first | exact Sound.same | (apply Sound.after; apply queryCmd_sound)

theorem execQueryPlan_sound (s : State) : ∃ s', execQueryPlan s = .next s' ∧ Sound s s' := by
  refine ⟨_, rfl, ?_⟩
  with_reducible repeat' first
    | exact Sound.same
    | (apply Sound.after; apply answer_sound)
    | refine onCmd_sound _ _ _ fun p => ?_
    | split

theorem execQueryComb_sound (s : State) : ∃ s', execQueryComb s = .next s' ∧ Sound s s' := by
  refine ⟨_, rfl, ?_⟩
  with_reducible repeat' first | exact Sound.same | (apply Sound.after; apply queryCmd_sound)

theorem execQueryJoin_sound (s : State) : ∃ s', execQueryJoin s = .next s' ∧ Sound s s' := by
  refine ⟨_, rfl, ?_⟩
  with_reducible repeat' first | exact Sound.same | (apply Sound.after; apply queryCmd_sound)

theorem execQueryArr_sound (s : State) : ∃ s', execQueryArr s = .next s' ∧ Sound s s' := by
  refine ⟨_, rfl, ?_⟩
  with_reducible repeat' first | exact Sound.same | (apply Sound.after; apply queryCmd_sound)

theorem execQueryFus_sound (s : State) : ∃ s', execQueryFus s = .next s' ∧ Sound s s' := by
  refine ⟨_, rfl, ?_⟩
  with_reducible repeat' first | exact Sound.same | (apply Sound.after; apply queryCmd_sound)

theorem execQueryRcs_sound (s : State) : ∃ s', execQueryRcs s = .next s' ∧ Sound s s' := by
  refine ⟨_, rfl, ?_⟩
  with_reducible repeat' first | exact Sound.same | (apply Sound.after; apply queryCmd_sound)

theorem execQueryXm_sound (s : State) : ∃ s', execQueryXm s = .next s' ∧ Sound s s' := by
  refine ⟨_, rfl, ?_⟩
  with_reducible repeat' first | exact Sound.same | (apply Sound.after; apply queryCmd_sound)

theorem execQueryBuf_sound (s : State) : ∃ s', execQueryBuf s = .next s' ∧ Sound s s' := by
  refine ⟨_, rfl, ?_⟩
  with_reducible repeat' first
    | exact Sound.same
    | (apply Sound.after; apply answer_sound)
    | refine onCmd_sound _ _ _ fun p => ?_
    | apply Sound.ite

theorem execQuerySo_sound (s : State) : ∃ s', execQuerySo s = .next s' ∧ Sound s s' := by
  refine ⟨_, rfl, ?_⟩
  with_reducible repeat' first | exact Sound.same | (apply Sound.after; apply queryCmd_sound)

theorem execQueryArb_sound (s : State) : ∃ s', execQueryArb s = .next s' ∧ Sound s s' := by
  refine ⟨_, rfl, ?_⟩
  with_reducible repeat' first | exact Sound.same | (apply Sound.after; apply queryCmd_sound)

theorem execQueryHl_sound (s : State) : ∃ s', execQueryHl s = .next s' ∧ Sound s s' := by
  refine ⟨_, rfl, ?_⟩
  with_reducible repeat' first | exact Sound.same | (apply Sound.after; apply queryCmd_sound)

theorem execQueryHi_sound (s : State) : ∃ s', execQueryHi s = .next s' ∧ Sound s s' := by
  refine ⟨_, rfl, ?_⟩
  with_reducible repeat' first | exact Sound.same | (apply Sound.after; apply queryCmd_sound)

theorem execQueryWg_sound (s : State) : ∃ s', execQueryWg s = .next s' ∧ Sound s s' := by
  refine ⟨_, rfl, ?_⟩
  with_reducible repeat' first | exact Sound.same | (apply Sound.after; apply queryCmd_sound)

theorem execQueryGraft_sound (s : State) : ∃ s', execQueryGraft s = .next s' ∧ Sound s s' := by
  refine ⟨_, rfl, ?_⟩
  with_reducible repeat' first | exact Sound.same | (apply Sound.after; apply queryCmd_sound)

theorem execQueryPresence_sound (s : State) : ∃ s', execQueryPresence s = .next s' ∧ Sound s s' := by
  refine ⟨_, rfl, ?_⟩
  with_reducible repeat' first | exact Sound.same | (apply Sound.after; apply queryCmd_sound)

theorem execQueryUs_sound (s : State) : ∃ s', execQueryUs s = .next s' ∧ Sound s s' := by
  refine ⟨_, rfl, ?_⟩
  with_reducible repeat' first | exact Sound.same | (apply Sound.after; apply queryCmd_sound)

theorem execQueryHw_sound (s : State) : ∃ s', execQueryHw s = .next s' ∧ Sound s s' := by
  refine ⟨_, rfl, ?_⟩
  with_reducible repeat' first | exact Sound.same | (apply Sound.after; apply queryCmd_sound)

theorem execQueryPwr_sound (s : State) : ∃ s', execQueryPwr s = .next s' ∧ Sound s s' := by
  refine ⟨_, rfl, ?_⟩
  with_reducible repeat' first | exact Sound.same | (apply Sound.after; apply queryCmd_sound)

end Sys2Proof.Machine
end

