-- ==== Sys2Proof/Laws/State.lean ====
section
/-! SUPPORT. Reading one field of the state after an update of one entry: no later proof unfolds a record update. -/

namespace Sys2Proof.Machine

open Sys2Proof

theorem vget_vmod {α : Type} {n : Nat} (v : Vector α n) (i j : Nat) (f : α → α) (d : α) :
    vget (vmod v i f) j d = if i = j ∧ i < n then f (vget v i d) else vget v j d := by
  unfold vget vmod
  by_cases hi : i < n
  · by_cases hij : i = j
    · subst hij; simp [hi]
    · by_cases hj : j < n
      · simp [hi, hij, hj]
      · simp [hi, hij, hj]
  · simp [hi]

@[simp] theorem vget_vmod_same {α : Type} {n : Nat} (v : Vector α n) (i : Nat) (f : α → α) (d : α) (h : i < n) :
    vget (vmod v i f) i d = f (vget v i d) := by simp [vget_vmod, h]

@[simp] theorem vget_vmod_other {α : Type} {n : Nat} (v : Vector α n) (i j : Nat) (f : α → α) (d : α) (h : i ≠ j) :
    vget (vmod v i f) j d = vget v j d := by simp [vget_vmod, h]

@[simp] theorem onQuad_pending (s : State) (q : Nat) (f : QuadSt → QuadSt) : (onQuad s q f).pending = s.pending := rfl
@[simp] theorem onQuad_freeCtr (s : State) (q : Nat) (f : QuadSt → QuadSt) : (onQuad s q f).freeCtr = s.freeCtr := rfl
@[simp] theorem onQuad_syn (s : State) (q : Nat) (f : QuadSt → QuadSt) : (onQuad s q f).syn = s.syn := rfl
@[simp] theorem onQuad_beat (s : State) (q : Nat) (f : QuadSt → QuadSt) : (onQuad s q f).beat = s.beat := rfl
@[simp] theorem onQuad_cmb (s : State) (q : Nat) (f : QuadSt → QuadSt) : (onQuad s q f).cmb = s.cmb := rfl
@[simp] theorem onQuad_streams (s : State) (q : Nat) (f : QuadSt → QuadSt) : (onQuad s q f).streams = s.streams := rfl
@[simp] theorem onQuad_xm (s : State) (q : Nat) (f : QuadSt → QuadSt) : (onQuad s q f).xm = s.xm := rfl
@[simp] theorem onQuad_bl (s : State) (q : Nat) (f : QuadSt → QuadSt) : (onQuad s q f).bl = s.bl := rfl
@[simp] theorem onQuad_so (s : State) (q : Nat) (f : QuadSt → QuadSt) : (onQuad s q f).so = s.so := rfl
@[simp] theorem onQuad_arb (s : State) (q : Nat) (f : QuadSt → QuadSt) : (onQuad s q f).arb = s.arb := rfl
@[simp] theorem onQuad_hl (s : State) (q : Nat) (f : QuadSt → QuadSt) : (onQuad s q f).hl = s.hl := rfl
@[simp] theorem onQuad_hi (s : State) (q : Nat) (f : QuadSt → QuadSt) : (onQuad s q f).hi = s.hi := rfl
@[simp] theorem onQuad_wg (s : State) (q : Nat) (f : QuadSt → QuadSt) : (onQuad s q f).wg = s.wg := rfl
@[simp] theorem onQuad_gr (s : State) (q : Nat) (f : QuadSt → QuadSt) : (onQuad s q f).gr = s.gr := rfl
@[simp] theorem onQuad_rj (s : State) (q : Nat) (f : QuadSt → QuadSt) : (onQuad s q f).rj = s.rj := rfl
@[simp] theorem onQuad_us (s : State) (q : Nat) (f : QuadSt → QuadSt) : (onQuad s q f).us = s.us := rfl
@[simp] theorem onQuad_hw (s : State) (q : Nat) (f : QuadSt → QuadSt) : (onQuad s q f).hw = s.hw := rfl
@[simp] theorem onQuad_pwr (s : State) (q : Nat) (f : QuadSt → QuadSt) : (onQuad s q f).pwr = s.pwr := rfl
@[simp] theorem onQuad_jtag (s : State) (q : Nat) (f : QuadSt → QuadSt) : (onQuad s q f).jtag = s.jtag := rfl
@[simp] theorem onQuad_fw (s : State) (q : Nat) (f : QuadSt → QuadSt) : (onQuad s q f).fw = s.fw := rfl

@[simp] theorem onCtx_pending (s : State) (c : Nat) (f : PlanCtx → PlanCtx) : (onCtx s c f).pending = s.pending := rfl
@[simp] theorem onCtx_freeCtr (s : State) (c : Nat) (f : PlanCtx → PlanCtx) : (onCtx s c f).freeCtr = s.freeCtr := rfl
@[simp] theorem onCtx_syn (s : State) (c : Nat) (f : PlanCtx → PlanCtx) : (onCtx s c f).syn = s.syn := rfl
@[simp] theorem onCtx_beat (s : State) (c : Nat) (f : PlanCtx → PlanCtx) : (onCtx s c f).beat = s.beat := rfl
@[simp] theorem onCtx_quad (s : State) (c : Nat) (f : PlanCtx → PlanCtx) : (onCtx s c f).quad = s.quad := rfl
@[simp] theorem onCtx_streams (s : State) (c : Nat) (f : PlanCtx → PlanCtx) : (onCtx s c f).streams = s.streams := rfl
@[simp] theorem onCtx_xm (s : State) (c : Nat) (f : PlanCtx → PlanCtx) : (onCtx s c f).xm = s.xm := rfl
@[simp] theorem onCtx_bl (s : State) (c : Nat) (f : PlanCtx → PlanCtx) : (onCtx s c f).bl = s.bl := rfl
@[simp] theorem onCtx_so (s : State) (c : Nat) (f : PlanCtx → PlanCtx) : (onCtx s c f).so = s.so := rfl
@[simp] theorem onCtx_arb (s : State) (c : Nat) (f : PlanCtx → PlanCtx) : (onCtx s c f).arb = s.arb := rfl
@[simp] theorem onCtx_hl (s : State) (c : Nat) (f : PlanCtx → PlanCtx) : (onCtx s c f).hl = s.hl := rfl
@[simp] theorem onCtx_hi (s : State) (c : Nat) (f : PlanCtx → PlanCtx) : (onCtx s c f).hi = s.hi := rfl
@[simp] theorem onCtx_wg (s : State) (c : Nat) (f : PlanCtx → PlanCtx) : (onCtx s c f).wg = s.wg := rfl
@[simp] theorem onCtx_gr (s : State) (c : Nat) (f : PlanCtx → PlanCtx) : (onCtx s c f).gr = s.gr := rfl
@[simp] theorem onCtx_rj (s : State) (c : Nat) (f : PlanCtx → PlanCtx) : (onCtx s c f).rj = s.rj := rfl
@[simp] theorem onCtx_us (s : State) (c : Nat) (f : PlanCtx → PlanCtx) : (onCtx s c f).us = s.us := rfl
@[simp] theorem onCtx_hw (s : State) (c : Nat) (f : PlanCtx → PlanCtx) : (onCtx s c f).hw = s.hw := rfl
@[simp] theorem onCtx_pwr (s : State) (c : Nat) (f : PlanCtx → PlanCtx) : (onCtx s c f).pwr = s.pwr := rfl
@[simp] theorem onCtx_jtag (s : State) (c : Nat) (f : PlanCtx → PlanCtx) : (onCtx s c f).jtag = s.jtag := rfl
@[simp] theorem onCtx_fw (s : State) (c : Nat) (f : PlanCtx → PlanCtx) : (onCtx s c f).fw = s.fw := rfl

@[simp] theorem onPort_pending (s : State) (p : Nat) (f : Port → Port) : (onPort s p f).pending = s.pending := rfl
@[simp] theorem onPort_freeCtr (s : State) (p : Nat) (f : Port → Port) : (onPort s p f).freeCtr = s.freeCtr := rfl
@[simp] theorem onPort_syn (s : State) (p : Nat) (f : Port → Port) : (onPort s p f).syn = s.syn := rfl
@[simp] theorem onPort_beat (s : State) (p : Nat) (f : Port → Port) : (onPort s p f).beat = s.beat := rfl
@[simp] theorem onPort_cmb (s : State) (p : Nat) (f : Port → Port) : (onPort s p f).cmb = s.cmb := rfl
@[simp] theorem onPort_quad (s : State) (p : Nat) (f : Port → Port) : (onPort s p f).quad = s.quad := rfl
@[simp] theorem onPort_streams (s : State) (p : Nat) (f : Port → Port) : (onPort s p f).streams = s.streams := rfl
@[simp] theorem onPort_xm (s : State) (p : Nat) (f : Port → Port) : (onPort s p f).xm = s.xm := rfl
@[simp] theorem onPort_bl (s : State) (p : Nat) (f : Port → Port) : (onPort s p f).bl = s.bl := rfl
@[simp] theorem onPort_so (s : State) (p : Nat) (f : Port → Port) : (onPort s p f).so = s.so := rfl
@[simp] theorem onPort_arb (s : State) (p : Nat) (f : Port → Port) : (onPort s p f).arb = s.arb := rfl
@[simp] theorem onPort_hi (s : State) (p : Nat) (f : Port → Port) : (onPort s p f).hi = s.hi := rfl
@[simp] theorem onPort_wg (s : State) (p : Nat) (f : Port → Port) : (onPort s p f).wg = s.wg := rfl
@[simp] theorem onPort_gr (s : State) (p : Nat) (f : Port → Port) : (onPort s p f).gr = s.gr := rfl
@[simp] theorem onPort_rj (s : State) (p : Nat) (f : Port → Port) : (onPort s p f).rj = s.rj := rfl
@[simp] theorem onPort_us (s : State) (p : Nat) (f : Port → Port) : (onPort s p f).us = s.us := rfl
@[simp] theorem onPort_hw (s : State) (p : Nat) (f : Port → Port) : (onPort s p f).hw = s.hw := rfl
@[simp] theorem onPort_pwr (s : State) (p : Nat) (f : Port → Port) : (onPort s p f).pwr = s.pwr := rfl
@[simp] theorem onPort_jtag (s : State) (p : Nat) (f : Port → Port) : (onPort s p f).jtag = s.jtag := rfl
@[simp] theorem onPort_fw (s : State) (p : Nat) (f : Port → Port) : (onPort s p f).fw = s.fw := rfl

@[simp] theorem onArb_pending (s : State) (q : Nat) (f : Arb → Arb) : (onArb s q f).pending = s.pending := rfl
@[simp] theorem onArb_freeCtr (s : State) (q : Nat) (f : Arb → Arb) : (onArb s q f).freeCtr = s.freeCtr := rfl
@[simp] theorem onArb_syn (s : State) (q : Nat) (f : Arb → Arb) : (onArb s q f).syn = s.syn := rfl
@[simp] theorem onArb_beat (s : State) (q : Nat) (f : Arb → Arb) : (onArb s q f).beat = s.beat := rfl
@[simp] theorem onArb_cmb (s : State) (q : Nat) (f : Arb → Arb) : (onArb s q f).cmb = s.cmb := rfl
@[simp] theorem onArb_quad (s : State) (q : Nat) (f : Arb → Arb) : (onArb s q f).quad = s.quad := rfl
@[simp] theorem onArb_streams (s : State) (q : Nat) (f : Arb → Arb) : (onArb s q f).streams = s.streams := rfl
@[simp] theorem onArb_xm (s : State) (q : Nat) (f : Arb → Arb) : (onArb s q f).xm = s.xm := rfl
@[simp] theorem onArb_bl (s : State) (q : Nat) (f : Arb → Arb) : (onArb s q f).bl = s.bl := rfl
@[simp] theorem onArb_so (s : State) (q : Nat) (f : Arb → Arb) : (onArb s q f).so = s.so := rfl
@[simp] theorem onArb_hl (s : State) (q : Nat) (f : Arb → Arb) : (onArb s q f).hl = s.hl := rfl
@[simp] theorem onArb_hi (s : State) (q : Nat) (f : Arb → Arb) : (onArb s q f).hi = s.hi := rfl
@[simp] theorem onArb_wg (s : State) (q : Nat) (f : Arb → Arb) : (onArb s q f).wg = s.wg := rfl
@[simp] theorem onArb_gr (s : State) (q : Nat) (f : Arb → Arb) : (onArb s q f).gr = s.gr := rfl
@[simp] theorem onArb_rj (s : State) (q : Nat) (f : Arb → Arb) : (onArb s q f).rj = s.rj := rfl
@[simp] theorem onArb_us (s : State) (q : Nat) (f : Arb → Arb) : (onArb s q f).us = s.us := rfl
@[simp] theorem onArb_hw (s : State) (q : Nat) (f : Arb → Arb) : (onArb s q f).hw = s.hw := rfl
@[simp] theorem onArb_pwr (s : State) (q : Nat) (f : Arb → Arb) : (onArb s q f).pwr = s.pwr := rfl
@[simp] theorem onArb_jtag (s : State) (q : Nat) (f : Arb → Arb) : (onArb s q f).jtag = s.jtag := rfl
@[simp] theorem onArb_fw (s : State) (q : Nat) (f : Arb → Arb) : (onArb s q f).fw = s.fw := rfl

@[simp] theorem onMb_pending (s : State) (m : Nat) (f : Mbox → Mbox) : (onMb s m f).pending = s.pending := rfl
@[simp] theorem onMb_freeCtr (s : State) (m : Nat) (f : Mbox → Mbox) : (onMb s m f).freeCtr = s.freeCtr := rfl
@[simp] theorem onMb_syn (s : State) (m : Nat) (f : Mbox → Mbox) : (onMb s m f).syn = s.syn := rfl
@[simp] theorem onMb_beat (s : State) (m : Nat) (f : Mbox → Mbox) : (onMb s m f).beat = s.beat := rfl
@[simp] theorem onMb_cmb (s : State) (m : Nat) (f : Mbox → Mbox) : (onMb s m f).cmb = s.cmb := rfl
@[simp] theorem onMb_quad (s : State) (m : Nat) (f : Mbox → Mbox) : (onMb s m f).quad = s.quad := rfl
@[simp] theorem onMb_streams (s : State) (m : Nat) (f : Mbox → Mbox) : (onMb s m f).streams = s.streams := rfl
@[simp] theorem onMb_xm (s : State) (m : Nat) (f : Mbox → Mbox) : (onMb s m f).xm = s.xm := rfl
@[simp] theorem onMb_bl (s : State) (m : Nat) (f : Mbox → Mbox) : (onMb s m f).bl = s.bl := rfl
@[simp] theorem onMb_so (s : State) (m : Nat) (f : Mbox → Mbox) : (onMb s m f).so = s.so := rfl
@[simp] theorem onMb_arb (s : State) (m : Nat) (f : Mbox → Mbox) : (onMb s m f).arb = s.arb := rfl
@[simp] theorem onMb_hl (s : State) (m : Nat) (f : Mbox → Mbox) : (onMb s m f).hl = s.hl := rfl
@[simp] theorem onMb_hi (s : State) (m : Nat) (f : Mbox → Mbox) : (onMb s m f).hi = s.hi := rfl
@[simp] theorem onMb_gr (s : State) (m : Nat) (f : Mbox → Mbox) : (onMb s m f).gr = s.gr := rfl
@[simp] theorem onMb_rj (s : State) (m : Nat) (f : Mbox → Mbox) : (onMb s m f).rj = s.rj := rfl
@[simp] theorem onMb_us (s : State) (m : Nat) (f : Mbox → Mbox) : (onMb s m f).us = s.us := rfl
@[simp] theorem onMb_hw (s : State) (m : Nat) (f : Mbox → Mbox) : (onMb s m f).hw = s.hw := rfl
@[simp] theorem onMb_pwr (s : State) (m : Nat) (f : Mbox → Mbox) : (onMb s m f).pwr = s.pwr := rfl
@[simp] theorem onMb_jtag (s : State) (m : Nat) (f : Mbox → Mbox) : (onMb s m f).jtag = s.jtag := rfl
@[simp] theorem onMb_fw (s : State) (m : Nat) (f : Mbox → Mbox) : (onMb s m f).fw = s.fw := rfl

@[simp] theorem onStream_pending (s : State) (i : Nat) (f : StreamEnt → StreamEnt) : (onStream s i f).pending = s.pending := rfl
@[simp] theorem onStream_freeCtr (s : State) (i : Nat) (f : StreamEnt → StreamEnt) : (onStream s i f).freeCtr = s.freeCtr := rfl
@[simp] theorem onStream_syn (s : State) (i : Nat) (f : StreamEnt → StreamEnt) : (onStream s i f).syn = s.syn := rfl
@[simp] theorem onStream_beat (s : State) (i : Nat) (f : StreamEnt → StreamEnt) : (onStream s i f).beat = s.beat := rfl
@[simp] theorem onStream_cmb (s : State) (i : Nat) (f : StreamEnt → StreamEnt) : (onStream s i f).cmb = s.cmb := rfl
@[simp] theorem onStream_quad (s : State) (i : Nat) (f : StreamEnt → StreamEnt) : (onStream s i f).quad = s.quad := rfl
@[simp] theorem onStream_xm (s : State) (i : Nat) (f : StreamEnt → StreamEnt) : (onStream s i f).xm = s.xm := rfl
@[simp] theorem onStream_bl (s : State) (i : Nat) (f : StreamEnt → StreamEnt) : (onStream s i f).bl = s.bl := rfl
@[simp] theorem onStream_so (s : State) (i : Nat) (f : StreamEnt → StreamEnt) : (onStream s i f).so = s.so := rfl
@[simp] theorem onStream_arb (s : State) (i : Nat) (f : StreamEnt → StreamEnt) : (onStream s i f).arb = s.arb := rfl
@[simp] theorem onStream_hl (s : State) (i : Nat) (f : StreamEnt → StreamEnt) : (onStream s i f).hl = s.hl := rfl
@[simp] theorem onStream_hi (s : State) (i : Nat) (f : StreamEnt → StreamEnt) : (onStream s i f).hi = s.hi := rfl
@[simp] theorem onStream_wg (s : State) (i : Nat) (f : StreamEnt → StreamEnt) : (onStream s i f).wg = s.wg := rfl
@[simp] theorem onStream_gr (s : State) (i : Nat) (f : StreamEnt → StreamEnt) : (onStream s i f).gr = s.gr := rfl
@[simp] theorem onStream_rj (s : State) (i : Nat) (f : StreamEnt → StreamEnt) : (onStream s i f).rj = s.rj := rfl
@[simp] theorem onStream_us (s : State) (i : Nat) (f : StreamEnt → StreamEnt) : (onStream s i f).us = s.us := rfl
@[simp] theorem onStream_hw (s : State) (i : Nat) (f : StreamEnt → StreamEnt) : (onStream s i f).hw = s.hw := rfl
@[simp] theorem onStream_pwr (s : State) (i : Nat) (f : StreamEnt → StreamEnt) : (onStream s i f).pwr = s.pwr := rfl
@[simp] theorem onStream_jtag (s : State) (i : Nat) (f : StreamEnt → StreamEnt) : (onStream s i f).jtag = s.jtag := rfl
@[simp] theorem onStream_fw (s : State) (i : Nat) (f : StreamEnt → StreamEnt) : (onStream s i f).fw = s.fw := rfl

@[simp] theorem onSo_pending (s : State) (i : Nat) (f : SoObj → SoObj) : (onSo s i f).pending = s.pending := rfl
@[simp] theorem onSo_freeCtr (s : State) (i : Nat) (f : SoObj → SoObj) : (onSo s i f).freeCtr = s.freeCtr := rfl
@[simp] theorem onSo_syn (s : State) (i : Nat) (f : SoObj → SoObj) : (onSo s i f).syn = s.syn := rfl
@[simp] theorem onSo_beat (s : State) (i : Nat) (f : SoObj → SoObj) : (onSo s i f).beat = s.beat := rfl
@[simp] theorem onSo_cmb (s : State) (i : Nat) (f : SoObj → SoObj) : (onSo s i f).cmb = s.cmb := rfl
@[simp] theorem onSo_quad (s : State) (i : Nat) (f : SoObj → SoObj) : (onSo s i f).quad = s.quad := rfl
@[simp] theorem onSo_streams (s : State) (i : Nat) (f : SoObj → SoObj) : (onSo s i f).streams = s.streams := rfl
@[simp] theorem onSo_xm (s : State) (i : Nat) (f : SoObj → SoObj) : (onSo s i f).xm = s.xm := rfl
@[simp] theorem onSo_bl (s : State) (i : Nat) (f : SoObj → SoObj) : (onSo s i f).bl = s.bl := rfl
@[simp] theorem onSo_arb (s : State) (i : Nat) (f : SoObj → SoObj) : (onSo s i f).arb = s.arb := rfl
@[simp] theorem onSo_hl (s : State) (i : Nat) (f : SoObj → SoObj) : (onSo s i f).hl = s.hl := rfl
@[simp] theorem onSo_hi (s : State) (i : Nat) (f : SoObj → SoObj) : (onSo s i f).hi = s.hi := rfl
@[simp] theorem onSo_wg (s : State) (i : Nat) (f : SoObj → SoObj) : (onSo s i f).wg = s.wg := rfl
@[simp] theorem onSo_gr (s : State) (i : Nat) (f : SoObj → SoObj) : (onSo s i f).gr = s.gr := rfl
@[simp] theorem onSo_rj (s : State) (i : Nat) (f : SoObj → SoObj) : (onSo s i f).rj = s.rj := rfl
@[simp] theorem onSo_us (s : State) (i : Nat) (f : SoObj → SoObj) : (onSo s i f).us = s.us := rfl
@[simp] theorem onSo_hw (s : State) (i : Nat) (f : SoObj → SoObj) : (onSo s i f).hw = s.hw := rfl
@[simp] theorem onSo_pwr (s : State) (i : Nat) (f : SoObj → SoObj) : (onSo s i f).pwr = s.pwr := rfl
@[simp] theorem onSo_jtag (s : State) (i : Nat) (f : SoObj → SoObj) : (onSo s i f).jtag = s.jtag := rfl
@[simp] theorem onSo_fw (s : State) (i : Nat) (f : SoObj → SoObj) : (onSo s i f).fw = s.fw := rfl

@[simp] theorem onBl_pending (s : State) (i : Nat) (f : BlEntry → BlEntry) : (onBl s i f).pending = s.pending := rfl
@[simp] theorem onBl_freeCtr (s : State) (i : Nat) (f : BlEntry → BlEntry) : (onBl s i f).freeCtr = s.freeCtr := rfl
@[simp] theorem onBl_syn (s : State) (i : Nat) (f : BlEntry → BlEntry) : (onBl s i f).syn = s.syn := rfl
@[simp] theorem onBl_beat (s : State) (i : Nat) (f : BlEntry → BlEntry) : (onBl s i f).beat = s.beat := rfl
@[simp] theorem onBl_cmb (s : State) (i : Nat) (f : BlEntry → BlEntry) : (onBl s i f).cmb = s.cmb := rfl
@[simp] theorem onBl_quad (s : State) (i : Nat) (f : BlEntry → BlEntry) : (onBl s i f).quad = s.quad := rfl
@[simp] theorem onBl_streams (s : State) (i : Nat) (f : BlEntry → BlEntry) : (onBl s i f).streams = s.streams := rfl
@[simp] theorem onBl_xm (s : State) (i : Nat) (f : BlEntry → BlEntry) : (onBl s i f).xm = s.xm := rfl
@[simp] theorem onBl_so (s : State) (i : Nat) (f : BlEntry → BlEntry) : (onBl s i f).so = s.so := rfl
@[simp] theorem onBl_arb (s : State) (i : Nat) (f : BlEntry → BlEntry) : (onBl s i f).arb = s.arb := rfl
@[simp] theorem onBl_hl (s : State) (i : Nat) (f : BlEntry → BlEntry) : (onBl s i f).hl = s.hl := rfl
@[simp] theorem onBl_hi (s : State) (i : Nat) (f : BlEntry → BlEntry) : (onBl s i f).hi = s.hi := rfl
@[simp] theorem onBl_wg (s : State) (i : Nat) (f : BlEntry → BlEntry) : (onBl s i f).wg = s.wg := rfl
@[simp] theorem onBl_gr (s : State) (i : Nat) (f : BlEntry → BlEntry) : (onBl s i f).gr = s.gr := rfl
@[simp] theorem onBl_rj (s : State) (i : Nat) (f : BlEntry → BlEntry) : (onBl s i f).rj = s.rj := rfl
@[simp] theorem onBl_us (s : State) (i : Nat) (f : BlEntry → BlEntry) : (onBl s i f).us = s.us := rfl
@[simp] theorem onBl_hw (s : State) (i : Nat) (f : BlEntry → BlEntry) : (onBl s i f).hw = s.hw := rfl
@[simp] theorem onBl_pwr (s : State) (i : Nat) (f : BlEntry → BlEntry) : (onBl s i f).pwr = s.pwr := rfl
@[simp] theorem onBl_jtag (s : State) (i : Nat) (f : BlEntry → BlEntry) : (onBl s i f).jtag = s.jtag := rfl
@[simp] theorem onBl_fw (s : State) (i : Nat) (f : BlEntry → BlEntry) : (onBl s i f).fw = s.fw := rfl

@[simp] theorem onLoop_pending (s : State) (l : Loop) (f : LoopSt → LoopSt) : (onLoop s l f).pending = s.pending := by cases l <;> rfl
@[simp] theorem onLoop_freeCtr (s : State) (l : Loop) (f : LoopSt → LoopSt) : (onLoop s l f).freeCtr = s.freeCtr := by cases l <;> rfl
@[simp] theorem onLoop_beat (s : State) (l : Loop) (f : LoopSt → LoopSt) : (onLoop s l f).beat = s.beat := by cases l <;> rfl
@[simp] theorem onLoop_cmb (s : State) (l : Loop) (f : LoopSt → LoopSt) : (onLoop s l f).cmb = s.cmb := by cases l <;> rfl
@[simp] theorem onLoop_quad (s : State) (l : Loop) (f : LoopSt → LoopSt) : (onLoop s l f).quad = s.quad := by cases l <;> rfl
@[simp] theorem onLoop_streams (s : State) (l : Loop) (f : LoopSt → LoopSt) : (onLoop s l f).streams = s.streams := by cases l <;> rfl
@[simp] theorem onLoop_xm (s : State) (l : Loop) (f : LoopSt → LoopSt) : (onLoop s l f).xm = s.xm := by cases l <;> rfl
@[simp] theorem onLoop_bl (s : State) (l : Loop) (f : LoopSt → LoopSt) : (onLoop s l f).bl = s.bl := by cases l <;> rfl
@[simp] theorem onLoop_so (s : State) (l : Loop) (f : LoopSt → LoopSt) : (onLoop s l f).so = s.so := by cases l <;> rfl
@[simp] theorem onLoop_arb (s : State) (l : Loop) (f : LoopSt → LoopSt) : (onLoop s l f).arb = s.arb := by cases l <;> rfl
@[simp] theorem onLoop_hl (s : State) (l : Loop) (f : LoopSt → LoopSt) : (onLoop s l f).hl = s.hl := by cases l <;> rfl
@[simp] theorem onLoop_hi (s : State) (l : Loop) (f : LoopSt → LoopSt) : (onLoop s l f).hi = s.hi := by cases l <;> rfl
@[simp] theorem onLoop_wg (s : State) (l : Loop) (f : LoopSt → LoopSt) : (onLoop s l f).wg = s.wg := by cases l <;> rfl
@[simp] theorem onLoop_gr (s : State) (l : Loop) (f : LoopSt → LoopSt) : (onLoop s l f).gr = s.gr := by cases l <;> rfl
@[simp] theorem onLoop_rj (s : State) (l : Loop) (f : LoopSt → LoopSt) : (onLoop s l f).rj = s.rj := by cases l <;> rfl
@[simp] theorem onLoop_us (s : State) (l : Loop) (f : LoopSt → LoopSt) : (onLoop s l f).us = s.us := by cases l <;> rfl
@[simp] theorem onLoop_hw (s : State) (l : Loop) (f : LoopSt → LoopSt) : (onLoop s l f).hw = s.hw := by cases l <;> rfl
@[simp] theorem onLoop_pwr (s : State) (l : Loop) (f : LoopSt → LoopSt) : (onLoop s l f).pwr = s.pwr := by cases l <;> rfl
@[simp] theorem onLoop_jtag (s : State) (l : Loop) (f : LoopSt → LoopSt) : (onLoop s l f).jtag = s.jtag := by cases l <;> rfl
@[simp] theorem onLoop_fw (s : State) (l : Loop) (f : LoopSt → LoopSt) : (onLoop s l f).fw = s.fw := by cases l <;> rfl

@[simp] theorem onCtx_cmb_mem (s : State) (c : Nat) (f : PlanCtx → PlanCtx) : (onCtx s c f).cmb.mem = s.cmb.mem := rfl
@[simp] theorem onCtx_cmb_rotate (s : State) (c : Nat) (f : PlanCtx → PlanCtx) : (onCtx s c f).cmb.rotate = s.cmb.rotate := rfl
@[simp] theorem onCtx_cmb_dirty (s : State) (c : Nat) (f : PlanCtx → PlanCtx) : (onCtx s c f).cmb.dirty = s.cmb.dirty := rfl
@[simp] theorem onCtx_cmb_ce (s : State) (c : Nat) (f : PlanCtx → PlanCtx) : (onCtx s c f).cmb.ce = s.cmb.ce := rfl
@[simp] theorem onCtx_cmb_ue (s : State) (c : Nat) (f : PlanCtx → PlanCtx) : (onCtx s c f).cmb.ue = s.cmb.ue := rfl
@[simp] theorem onCtx_cmb_poison (s : State) (c : Nat) (f : PlanCtx → PlanCtx) : (onCtx s c f).cmb.poison = s.cmb.poison := rfl
@[simp] theorem onCtx_cmb_clearing (s : State) (c : Nat) (f : PlanCtx → PlanCtx) : (onCtx s c f).cmb.clearing = s.cmb.clearing := rfl
@[simp] theorem onCtx_cmb_retired (s : State) (c : Nat) (f : PlanCtx → PlanCtx) : (onCtx s c f).cmb.retired = s.cmb.retired := rfl
@[simp] theorem onCtx_cmb_retiredRun (s : State) (c : Nat) (f : PlanCtx → PlanCtx) : (onCtx s c f).cmb.retiredRun = s.cmb.retiredRun := rfl
@[simp] theorem onCtx_cmb_rebuilt (s : State) (c : Nat) (f : PlanCtx → PlanCtx) : (onCtx s c f).cmb.rebuilt = s.cmb.rebuilt := rfl
@[simp] theorem onCtx_cmb_rebuilds (s : State) (c : Nat) (f : PlanCtx → PlanCtx) : (onCtx s c f).cmb.rebuilds = s.cmb.rebuilds := rfl
@[simp] theorem onCtx_cmb_lastErrValid (s : State) (c : Nat) (f : PlanCtx → PlanCtx) : (onCtx s c f).cmb.lastErrValid = s.cmb.lastErrValid := rfl
@[simp] theorem onCtx_cmb_lastErrPage (s : State) (c : Nat) (f : PlanCtx → PlanCtx) : (onCtx s c f).cmb.lastErrPage = s.cmb.lastErrPage := rfl
@[simp] theorem onCtx_cmb_fetch (s : State) (c : Nat) (f : PlanCtx → PlanCtx) : (onCtx s c f).cmb.fetch = s.cmb.fetch := rfl
@[simp] theorem onCtx_cmb_fetchRepl (s : State) (c : Nat) (f : PlanCtx → PlanCtx) : (onCtx s c f).cmb.fetchRepl = s.cmb.fetchRepl := rfl
@[simp] theorem onCtx_cmb_readThisBeat (s : State) (c : Nat) (f : PlanCtx → PlanCtx) : (onCtx s c f).cmb.readThisBeat = s.cmb.readThisBeat := rfl
@[simp] theorem onCtx_cmb_mapDue (s : State) (c : Nat) (f : PlanCtx → PlanCtx) : (onCtx s c f).cmb.mapDue = s.cmb.mapDue := rfl
@[simp] theorem onCtx_cmb_fetchDone (s : State) (c : Nat) (f : PlanCtx → PlanCtx) : (onCtx s c f).cmb.fetchDone = s.cmb.fetchDone := rfl

@[simp] theorem onPort_hl_roster (s : State) (p : Nat) (f : Port → Port) : (onPort s p f).hl.roster = s.hl.roster := rfl
@[simp] theorem onPort_hl_size (s : State) (p : Nat) (f : Port → Port) : (onPort s p f).hl.size = s.hl.size := rfl
@[simp] theorem onPort_hl_hiveId (s : State) (p : Nat) (f : Port → Port) : (onPort s p f).hl.hiveId = s.hl.hiveId := rfl
@[simp] theorem onPort_hl_epoch (s : State) (p : Nat) (f : Port → Port) : (onPort s p f).hl.epoch = s.hl.epoch := rfl
@[simp] theorem onPort_hl_sealed (s : State) (p : Nat) (f : Port → Port) : (onPort s p f).hl.sealed = s.hl.sealed := rfl
@[simp] theorem onPort_hl_route (s : State) (p : Nat) (f : Port → Port) : (onPort s p f).hl.route = s.hl.route := rfl
@[simp] theorem onPort_hl_keyCur (s : State) (p : Nat) (f : Port → Port) : (onPort s p f).hl.keyCur = s.hl.keyCur := rfl
@[simp] theorem onPort_hl_keyNext (s : State) (p : Nat) (f : Port → Port) : (onPort s p f).hl.keyNext = s.hl.keyNext := rfl
@[simp] theorem onPort_hl_keySlot (s : State) (p : Nat) (f : Port → Port) : (onPort s p f).hl.keySlot = s.hl.keySlot := rfl
@[simp] theorem onPort_hl_session (s : State) (p : Nat) (f : Port → Port) : (onPort s p f).hl.session = s.hl.session := rfl
@[simp] theorem onPort_hl_halts (s : State) (p : Nat) (f : Port → Port) : (onPort s p f).hl.halts = s.hl.halts := rfl
@[simp] theorem onPort_hl_keeperMsgs (s : State) (p : Nat) (f : Port → Port) : (onPort s p f).hl.keeperMsgs = s.hl.keeperMsgs := rfl
@[simp] theorem onPort_hl_haltSeen (s : State) (p : Nat) (f : Port → Port) : (onPort s p f).hl.haltSeen = s.hl.haltSeen := rfl
@[simp] theorem onPort_hl_peerReads (s : State) (p : Nat) (f : Port → Port) : (onPort s p f).hl.peerReads = s.hl.peerReads := rfl
@[simp] theorem onPort_hl_msgNo (s : State) (p : Nat) (f : Port → Port) : (onPort s p f).hl.msgNo = s.hl.msgNo := rfl

@[simp] theorem onMb_wg_order (s : State) (m : Nat) (f : Mbox → Mbox) : (onMb s m f).wg.order = s.wg.order := rfl
@[simp] theorem onMb_wg_cur (s : State) (m : Nat) (f : Mbox → Mbox) : (onMb s m f).wg.cur = s.wg.cur := rfl
@[simp] theorem onMb_wg_wait (s : State) (m : Nat) (f : Mbox → Mbox) : (onMb s m f).wg.wait = s.wg.wait := rfl
@[simp] theorem onMb_wg_curSeq (s : State) (m : Nat) (f : Mbox → Mbox) : (onMb s m f).wg.curSeq = s.wg.curSeq := rfl
@[simp] theorem onMb_wg_held (s : State) (m : Nat) (f : Mbox → Mbox) : (onMb s m f).wg.held = s.wg.held := rfl
@[simp] theorem onMb_wg_round (s : State) (m : Nat) (f : Mbox → Mbox) : (onMb s m f).wg.round = s.wg.round := rfl
@[simp] theorem onMb_wg_skipped (s : State) (m : Nat) (f : Mbox → Mbox) : (onMb s m f).wg.skipped = s.wg.skipped := rfl
@[simp] theorem onMb_wg_open3 (s : State) (m : Nat) (f : Mbox → Mbox) : (onMb s m f).wg.open3 = s.wg.open3 := rfl
@[simp] theorem onMb_wg_unsealS (s : State) (m : Nat) (f : Mbox → Mbox) : (onMb s m f).wg.unsealS = s.wg.unsealS := rfl
@[simp] theorem onMb_wg_smbOff (s : State) (m : Nat) (f : Mbox → Mbox) : (onMb s m f).wg.smbOff = s.wg.smbOff := rfl
@[simp] theorem onMb_wg_smbData (s : State) (m : Nat) (f : Mbox → Mbox) : (onMb s m f).wg.smbData = s.wg.smbData := rfl
@[simp] theorem onMb_wg_uartReply (s : State) (m : Nat) (f : Mbox → Mbox) : (onMb s m f).wg.uartReply = s.wg.uartReply := rfl
@[simp] theorem onMb_wg_baud (s : State) (m : Nat) (f : Mbox → Mbox) : (onMb s m f).wg.baud = s.wg.baud := rfl
@[simp] theorem onMb_wg_uartPart (s : State) (m : Nat) (f : Mbox → Mbox) : (onMb s m f).wg.uartPart = s.wg.uartPart := rfl
@[simp] theorem onMb_wg_frameEv (s : State) (m : Nat) (f : Mbox → Mbox) : (onMb s m f).wg.frameEv = s.wg.frameEv := rfl
@[simp] theorem onMb_wg_smbNak (s : State) (m : Nat) (f : Mbox → Mbox) : (onMb s m f).wg.smbNak = s.wg.smbNak := rfl

@[simp] theorem onSo_so_inst (s : State) (i : Nat) (f : SoObj → SoObj) : (onSo s i f).so.inst = s.so.inst := rfl
@[simp] theorem onSo_so_orderx (s : State) (i : Nat) (f : SoObj → SoObj) : (onSo s i f).so.orderx = s.so.orderx := rfl
@[simp] theorem onSo_so_timeoutx (s : State) (i : Nat) (f : SoObj → SoObj) : (onSo s i f).so.timeoutx = s.so.timeoutx := rfl
@[simp] theorem onSo_so_nownx (s : State) (i : Nat) (f : SoObj → SoObj) : (onSo s i f).so.nownx = s.so.nownx := rfl
@[simp] theorem onSo_so_stale (s : State) (i : Nat) (f : SoObj → SoObj) : (onSo s i f).so.stale = s.so.stale := rfl
@[simp] theorem onSo_so_stray (s : State) (i : Nat) (f : SoObj → SoObj) : (onSo s i f).so.stray = s.so.stray := rfl
@[simp] theorem onSo_so_lastCode (s : State) (i : Nat) (f : SoObj → SoObj) : (onSo s i f).so.lastCode = s.so.lastCode := rfl
@[simp] theorem onSo_so_lastCtx (s : State) (i : Nat) (f : SoObj → SoObj) : (onSo s i f).so.lastCtx = s.so.lastCtx := rfl
@[simp] theorem onSo_so_lastQuad (s : State) (i : Nat) (f : SoObj → SoObj) : (onSo s i f).so.lastQuad = s.so.lastQuad := rfl
@[simp] theorem onSo_so_lastIdx (s : State) (i : Nat) (f : SoObj → SoObj) : (onSo s i f).so.lastIdx = s.so.lastIdx := rfl

@[simp] theorem onBl_bl_dfree (s : State) (i : Nat) (f : BlEntry → BlEntry) : (onBl s i f).bl.dfree = s.bl.dfree := rfl
@[simp] theorem onBl_bl_nown (s : State) (i : Nat) (f : BlEntry → BlEntry) : (onBl s i f).bl.nown = s.bl.nown := rfl
@[simp] theorem onBl_bl_lastCode (s : State) (i : Nat) (f : BlEntry → BlEntry) : (onBl s i f).bl.lastCode = s.bl.lastCode := rfl
@[simp] theorem onBl_bl_lastRef (s : State) (i : Nat) (f : BlEntry → BlEntry) : (onBl s i f).bl.lastRef = s.bl.lastRef := rfl

@[simp] theorem quadAt_onQuad_same (s : State) (i : Nat) (f : QuadSt → QuadSt) (h : i < 4) : quadAt (onQuad s i f) i = f (quadAt s i) :=
  vget_vmod_same _ _ _ _ h

@[simp] theorem quadAt_onQuad_other (s : State) (i j : Nat) (f : QuadSt → QuadSt) (h : i ≠ j) : quadAt (onQuad s i f) j = quadAt s j :=
  vget_vmod_other _ _ _ _ _ h

@[simp] theorem ctxAt_onCtx_same (s : State) (i : Nat) (f : PlanCtx → PlanCtx) (h : i < 4) : ctxAt (onCtx s i f) i = f (ctxAt s i) :=
  vget_vmod_same _ _ _ _ h

@[simp] theorem ctxAt_onCtx_other (s : State) (i j : Nat) (f : PlanCtx → PlanCtx) (h : i ≠ j) : ctxAt (onCtx s i f) j = ctxAt s j :=
  vget_vmod_other _ _ _ _ _ h

@[simp] theorem portAt_onPort_same (s : State) (i : Nat) (f : Port → Port) (h : i < 20) : portAt (onPort s i f) i = f (portAt s i) :=
  vget_vmod_same _ _ _ _ h

@[simp] theorem portAt_onPort_other (s : State) (i j : Nat) (f : Port → Port) (h : i ≠ j) : portAt (onPort s i f) j = portAt s j :=
  vget_vmod_other _ _ _ _ _ h

@[simp] theorem arbAt_onArb_same (s : State) (i : Nat) (f : Arb → Arb) (h : i < 4) : arbAt (onArb s i f) i = f (arbAt s i) :=
  vget_vmod_same _ _ _ _ h

@[simp] theorem arbAt_onArb_other (s : State) (i j : Nat) (f : Arb → Arb) (h : i ≠ j) : arbAt (onArb s i f) j = arbAt s j :=
  vget_vmod_other _ _ _ _ _ h

@[simp] theorem mbAt_onMb_same (s : State) (i : Nat) (f : Mbox → Mbox) (h : i < 4) : mbAt (onMb s i f) i = f (mbAt s i) :=
  vget_vmod_same _ _ _ _ h

@[simp] theorem mbAt_onMb_other (s : State) (i j : Nat) (f : Mbox → Mbox) (h : i ≠ j) : mbAt (onMb s i f) j = mbAt s j :=
  vget_vmod_other _ _ _ _ _ h

@[simp] theorem quadAt_onCtx (s : State) (c j : Nat) (f : PlanCtx → PlanCtx) : quadAt (onCtx s c f) j = quadAt s j := rfl
@[simp] theorem quadAt_onPort (s : State) (p j : Nat) (f : Port → Port) : quadAt (onPort s p f) j = quadAt s j := rfl
@[simp] theorem quadAt_onArb (s : State) (q j : Nat) (f : Arb → Arb) : quadAt (onArb s q f) j = quadAt s j := rfl
@[simp] theorem quadAt_onMb (s : State) (m j : Nat) (f : Mbox → Mbox) : quadAt (onMb s m f) j = quadAt s j := rfl
@[simp] theorem quadAt_onStream (s : State) (i j : Nat) (f : StreamEnt → StreamEnt) : quadAt (onStream s i f) j = quadAt s j := rfl
@[simp] theorem quadAt_onSo (s : State) (i j : Nat) (f : SoObj → SoObj) : quadAt (onSo s i f) j = quadAt s j := rfl
@[simp] theorem quadAt_onBl (s : State) (i j : Nat) (f : BlEntry → BlEntry) : quadAt (onBl s i f) j = quadAt s j := rfl

@[simp] theorem ctxAt_onQuad (s : State) (q j : Nat) (f : QuadSt → QuadSt) : ctxAt (onQuad s q f) j = ctxAt s j := rfl
@[simp] theorem ctxAt_onPort (s : State) (p j : Nat) (f : Port → Port) : ctxAt (onPort s p f) j = ctxAt s j := rfl
@[simp] theorem ctxAt_onArb (s : State) (q j : Nat) (f : Arb → Arb) : ctxAt (onArb s q f) j = ctxAt s j := rfl
@[simp] theorem ctxAt_onMb (s : State) (m j : Nat) (f : Mbox → Mbox) : ctxAt (onMb s m f) j = ctxAt s j := rfl
@[simp] theorem ctxAt_onStream (s : State) (i j : Nat) (f : StreamEnt → StreamEnt) : ctxAt (onStream s i f) j = ctxAt s j := rfl
@[simp] theorem ctxAt_onSo (s : State) (i j : Nat) (f : SoObj → SoObj) : ctxAt (onSo s i f) j = ctxAt s j := rfl
@[simp] theorem ctxAt_onBl (s : State) (i j : Nat) (f : BlEntry → BlEntry) : ctxAt (onBl s i f) j = ctxAt s j := rfl

@[simp] theorem portAt_onQuad (s : State) (q j : Nat) (f : QuadSt → QuadSt) : portAt (onQuad s q f) j = portAt s j := rfl
@[simp] theorem portAt_onCtx (s : State) (c j : Nat) (f : PlanCtx → PlanCtx) : portAt (onCtx s c f) j = portAt s j := rfl
@[simp] theorem portAt_onArb (s : State) (q j : Nat) (f : Arb → Arb) : portAt (onArb s q f) j = portAt s j := rfl
@[simp] theorem portAt_onMb (s : State) (m j : Nat) (f : Mbox → Mbox) : portAt (onMb s m f) j = portAt s j := rfl
@[simp] theorem portAt_onStream (s : State) (i j : Nat) (f : StreamEnt → StreamEnt) : portAt (onStream s i f) j = portAt s j := rfl
@[simp] theorem portAt_onSo (s : State) (i j : Nat) (f : SoObj → SoObj) : portAt (onSo s i f) j = portAt s j := rfl
@[simp] theorem portAt_onBl (s : State) (i j : Nat) (f : BlEntry → BlEntry) : portAt (onBl s i f) j = portAt s j := rfl

@[simp] theorem arbAt_onQuad (s : State) (q j : Nat) (f : QuadSt → QuadSt) : arbAt (onQuad s q f) j = arbAt s j := rfl
@[simp] theorem arbAt_onCtx (s : State) (c j : Nat) (f : PlanCtx → PlanCtx) : arbAt (onCtx s c f) j = arbAt s j := rfl
@[simp] theorem arbAt_onPort (s : State) (p j : Nat) (f : Port → Port) : arbAt (onPort s p f) j = arbAt s j := rfl
@[simp] theorem arbAt_onMb (s : State) (m j : Nat) (f : Mbox → Mbox) : arbAt (onMb s m f) j = arbAt s j := rfl
@[simp] theorem arbAt_onStream (s : State) (i j : Nat) (f : StreamEnt → StreamEnt) : arbAt (onStream s i f) j = arbAt s j := rfl
@[simp] theorem arbAt_onSo (s : State) (i j : Nat) (f : SoObj → SoObj) : arbAt (onSo s i f) j = arbAt s j := rfl
@[simp] theorem arbAt_onBl (s : State) (i j : Nat) (f : BlEntry → BlEntry) : arbAt (onBl s i f) j = arbAt s j := rfl

@[simp] theorem mbAt_onQuad (s : State) (q j : Nat) (f : QuadSt → QuadSt) : mbAt (onQuad s q f) j = mbAt s j := rfl
@[simp] theorem mbAt_onCtx (s : State) (c j : Nat) (f : PlanCtx → PlanCtx) : mbAt (onCtx s c f) j = mbAt s j := rfl
@[simp] theorem mbAt_onPort (s : State) (p j : Nat) (f : Port → Port) : mbAt (onPort s p f) j = mbAt s j := rfl
@[simp] theorem mbAt_onArb (s : State) (q j : Nat) (f : Arb → Arb) : mbAt (onArb s q f) j = mbAt s j := rfl
@[simp] theorem mbAt_onStream (s : State) (i j : Nat) (f : StreamEnt → StreamEnt) : mbAt (onStream s i f) j = mbAt s j := rfl
@[simp] theorem mbAt_onSo (s : State) (i j : Nat) (f : SoObj → SoObj) : mbAt (onSo s i f) j = mbAt s j := rfl
@[simp] theorem mbAt_onBl (s : State) (i j : Nat) (f : BlEntry → BlEntry) : mbAt (onBl s i f) j = mbAt s j := rfl

@[simp] theorem streamAt_onQuad (s : State) (q j : Nat) (f : QuadSt → QuadSt) : streamAt (onQuad s q f) j = streamAt s j := rfl
@[simp] theorem streamAt_onCtx (s : State) (c j : Nat) (f : PlanCtx → PlanCtx) : streamAt (onCtx s c f) j = streamAt s j := rfl
@[simp] theorem streamAt_onPort (s : State) (p j : Nat) (f : Port → Port) : streamAt (onPort s p f) j = streamAt s j := rfl
@[simp] theorem streamAt_onArb (s : State) (q j : Nat) (f : Arb → Arb) : streamAt (onArb s q f) j = streamAt s j := rfl
@[simp] theorem streamAt_onMb (s : State) (m j : Nat) (f : Mbox → Mbox) : streamAt (onMb s m f) j = streamAt s j := rfl
@[simp] theorem streamAt_onSo (s : State) (i j : Nat) (f : SoObj → SoObj) : streamAt (onSo s i f) j = streamAt s j := rfl
@[simp] theorem streamAt_onBl (s : State) (i j : Nat) (f : BlEntry → BlEntry) : streamAt (onBl s i f) j = streamAt s j := rfl

@[simp] theorem soAt_onQuad (s : State) (q j : Nat) (f : QuadSt → QuadSt) : soAt (onQuad s q f) j = soAt s j := rfl
@[simp] theorem soAt_onCtx (s : State) (c j : Nat) (f : PlanCtx → PlanCtx) : soAt (onCtx s c f) j = soAt s j := rfl
@[simp] theorem soAt_onPort (s : State) (p j : Nat) (f : Port → Port) : soAt (onPort s p f) j = soAt s j := rfl
@[simp] theorem soAt_onArb (s : State) (q j : Nat) (f : Arb → Arb) : soAt (onArb s q f) j = soAt s j := rfl
@[simp] theorem soAt_onMb (s : State) (m j : Nat) (f : Mbox → Mbox) : soAt (onMb s m f) j = soAt s j := rfl
@[simp] theorem soAt_onStream (s : State) (i j : Nat) (f : StreamEnt → StreamEnt) : soAt (onStream s i f) j = soAt s j := rfl
@[simp] theorem soAt_onBl (s : State) (i j : Nat) (f : BlEntry → BlEntry) : soAt (onBl s i f) j = soAt s j := rfl

@[simp] theorem blAt_onQuad (s : State) (q j : Nat) (f : QuadSt → QuadSt) : blAt (onQuad s q f) j = blAt s j := rfl
@[simp] theorem blAt_onCtx (s : State) (c j : Nat) (f : PlanCtx → PlanCtx) : blAt (onCtx s c f) j = blAt s j := rfl
@[simp] theorem blAt_onPort (s : State) (p j : Nat) (f : Port → Port) : blAt (onPort s p f) j = blAt s j := rfl
@[simp] theorem blAt_onArb (s : State) (q j : Nat) (f : Arb → Arb) : blAt (onArb s q f) j = blAt s j := rfl
@[simp] theorem blAt_onMb (s : State) (m j : Nat) (f : Mbox → Mbox) : blAt (onMb s m f) j = blAt s j := rfl
@[simp] theorem blAt_onStream (s : State) (i j : Nat) (f : StreamEnt → StreamEnt) : blAt (onStream s i f) j = blAt s j := rfl
@[simp] theorem blAt_onSo (s : State) (i j : Nat) (f : SoObj → SoObj) : blAt (onSo s i f) j = blAt s j := rfl

@[simp] theorem loopAt_onLoop_same (s : State) (l : Loop) (f : LoopSt → LoopSt) : loopAt (onLoop s l f) l = f (loopAt s l) := by
  cases l <;> rfl

theorem loopAt_onLoop_other (s : State) (l k : Loop) (f : LoopSt → LoopSt) (h : l ≠ k) : loopAt (onLoop s l f) k = loopAt s k := by
  cases l <;> cases k <;> first | rfl | exact (h rfl).elim

end Sys2Proof.Machine
end

