-- ==== Sys2Proof/Laws/Answer.lean ====
section
/-! SUPPORT. What answering a mailbox command leaves alone, and what it leaves in the mailbox (R343, R350). -/

namespace Sys2Proof.Machine

set_option Elab.async false

open Sys2Proof

/-- The operation leaves the mailboxes and the round alone. -/
structure WgSame (s t : State) : Prop where
  wg : t.wg = s.wg

theorem WgSame.same {s : State} : WgSame s s := by constructor <;> rfl

theorem WgSame.trans {s t u : State} (h : WgSame s t) (k : WgSame t u) : WgSame s u := by
  constructor
  · exact k.wg.trans h.wg

theorem WgSame.after {s t u : State} (k : WgSame t u) (h : WgSame s t) : WgSame s u := h.trans k

theorem WgSame.ite {s a b : State} (c : Prop) [Decidable c] (ha : WgSame s a) (hb : WgSame s b) : WgSame s (if c then a else b) := by
  split
  · exact ha
  · exact hb

theorem WgSame.stepped {s a b : State} {c : Prop} [Decidable c] (k : WgSame a b) (h : WgSame s a) : WgSame s (if c then b else a) :=
  WgSame.ite c (h.trans k) h

theorem WgSame.foldl {α : Type} (f : State → α → State) (l : List α) (s : State) (h : ∀ s x, WgSame s (f s x)) : WgSame s (l.foldl f s) := by
  induction l generalizing s with
  | nil => exact WgSame.same
  | cons a r ih => exact (h s a).trans (ih (f s a))

theorem WgSame.forUpto (f : State → Nat → State) (n : Nat) (s : State) (h : ∀ s x, WgSame s (f s x)) : WgSame s (forUpto n f s) :=
  WgSame.foldl f _ s h

theorem WgSame.upd {s t : State} {p n syn be cm qu sm x bl so ar hl hi gr rj us hw pw jt f} (h : WgSame s t) :
    WgSame s ⟨p, n, syn, be, cm, qu, sm, x, bl, so, ar, hl, hi, t.wg, gr, rj, us, hw, pw, jt, f⟩ := ⟨h.wg⟩

theorem signal_wgSame (s : State) (v : Nat) : WgSame s (signal s v) := by
  unfold signal
  with_reducible repeat' first | (refine WgSame.upd ?_; exact WgSame.same) | split

theorem signalPending_wgSame (s : State) : WgSame s (signalPending s) := by
  unfold signalPending
  with_reducible repeat' first
    | exact WgSame.same
    | (apply WgSame.after; apply signal_wgSame)
    | (apply WgSame.after; apply WgSame.foldl; intro s x)
    | split

theorem hostMemWrite_wgSame (s : State) (a : Nat) (l : List Byte) : WgSame s (hostMemWrite s a l) := by
  unfold hostMemWrite
  exact WgSame.upd WgSame.same

theorem evrPut_wgSame (s : State) (e : Event) : WgSame s (evrPut s e) := by
  unfold evrPut
  with_reducible repeat' first
    | (apply WgSame.after; first | apply signal_wgSame | apply hostMemWrite_wgSame)
    | (refine WgSame.upd ?_; first | exact WgSame.same | (apply WgSame.after; first | apply signal_wgSame | apply hostMemWrite_wgSame))
    | split

theorem evrOverflow_wgSame (s : State) : WgSame s (evrOverflow s) := by
  unfold evrOverflow
  with_reducible repeat' first
    | (apply WgSame.after; apply evrPut_wgSame)
    | (refine WgSame.upd ?_; first | exact WgSame.same | (apply WgSame.after; apply evrPut_wgSame))
    | split

theorem evrEmit_wgSame (s : State) (e : Event) : WgSame s (evrEmit s e) := by
  unfold evrEmit
  with_reducible repeat' first
    | (apply WgSame.after; first | apply evrPut_wgSame | apply evrOverflow_wgSame)
    | (refine WgSame.upd ?_; first | exact WgSame.same | (apply WgSame.after; first | apply evrPut_wgSame | apply evrOverflow_wgSame))
    | apply WgSame.ite

theorem bootqAdd_wgSame (s : State) (e : Event) : WgSame s (bootqAdd s e) := by
  unfold bootqAdd
  with_reducible repeat' first | (refine WgSame.upd ?_; exact WgSame.same) | split

theorem bootqDeliver_wgSame (s : State) : WgSame s (bootqDeliver s) := by
  unfold bootqDeliver
  with_reducible repeat' first
    | (apply WgSame.after; first | apply evrOverflow_wgSame | apply evrEmit_wgSame)
    | (apply WgSame.after; apply WgSame.foldl; intro s x)
    | (refine WgSame.upd ?_; first | exact WgSame.same | (apply WgSame.after; apply WgSame.foldl; intro s x))
    | split

theorem toRing_wgSame (s : State) (e : Event) : WgSame s (toRing s e) := by
  unfold toRing
  with_reducible repeat' first
    | exact WgSame.same
    | (apply WgSame.after; first | apply evrEmit_wgSame | apply bootqAdd_wgSame | apply bootqDeliver_wgSame)
    | split

theorem raiseRing_wgSame (s : State) (beat code : Nat) (sev : Sev) (detail : Nat) : WgSame s (raiseRing s beat code sev detail) := by
  unfold raiseRing
  with_reducible repeat' first | (apply WgSame.after; apply toRing_wgSame) | (refine WgSame.upd ?_; exact WgSame.same)

theorem hwLose_wgSame (s : State) (n : Nat) : WgSame s (hwLose s n) := by
  unfold hwLose
  exact WgSame.upd WgSame.same

theorem hwHoldState_wgSame (s : State) (r : HwPend) : WgSame s (hwHoldState s r) := by
  unfold hwHoldState
  exact WgSame.upd WgSame.same

theorem hwState_wgSame (s : State) (typ : Nat) (payload : List Byte) : WgSame s (hwState s typ payload) := by
  unfold hwState
  with_reducible repeat' first
    | (apply WgSame.after; apply hwHoldState_wgSame)
    | (refine WgSame.upd ?_; exact WgSame.same)
    | split

theorem hwEvent_wgSame (s : State) (e : Event) : WgSame s (hwEvent s e) := by
  unfold hwEvent
  with_reducible repeat' first
    | (apply WgSame.after; first | apply raiseRing_wgSame | apply hwLose_wgSame | apply hwHoldState_wgSame)
    | (refine WgSame.upd ?_; exact WgSame.same)
    | apply WgSame.ite
    | split

theorem raiseAt_wgSame (s : State) (beat code : Nat) (sev : Sev) (detail : Nat) : WgSame s (raiseAt s beat code sev detail) := by
  unfold raiseAt
  with_reducible repeat' first
    | exact WgSame.same
    | (apply WgSame.after; first | apply raiseRing_wgSame | apply hwEvent_wgSame)
    | split

theorem raise_wgSame (s : State) (code : Nat) (sev : Sev) (detail : Nat) : WgSame s (raise s code sev detail) := by
  unfold raise
  with_reducible repeat' first | exact WgSame.same | (apply WgSame.after; apply raiseAt_wgSame)

theorem hwMirrors_wgSame (s : State) : WgSame s (hwMirrors s) := by
  unfold hwMirrors
  with_reducible repeat' first
    | (apply WgSame.after; apply WgSame.foldl; intro s x)
    | (refine WgSame.upd ?_; exact WgSame.same)
    | split

theorem takeSeq_wgSame (s : State) : WgSame s (takeSeq s).2 := ⟨rfl⟩

theorem jWrite_wgSame (s : State) (e : JEntry) : WgSame s (jWrite s e) := by
  unfold jWrite
  with_reducible repeat' first | (apply WgSame.after; apply hwMirrors_wgSame) | (refine WgSame.upd ?_; exact WgSame.same)

theorem jKeeper_wgSame (s : State) (source : Nat) (cls : CmdClass) (op outcome phase beat digest link effect : Nat) : WgSame s (jKeeper s source cls op outcome phase beat digest link effect) := by
  unfold jKeeper
  with_reducible repeat' first | exact WgSame.same | (apply WgSame.after; first | apply jWrite_wgSame | apply takeSeq_wgSame)

theorem wakeTo_wgSame (s : State) (t : PwrSt) : WgSame s (wakeTo s t) := by
  unfold wakeTo
  with_reducible repeat' first | (refine WgSame.upd ?_; exact WgSame.same) | split

theorem wakeActive_wgSame (s : State) : WgSame s (wakeActive s) := by
  unfold wakeActive
  with_reducible repeat' first | exact WgSame.same | (apply WgSame.after; apply wakeTo_wgSame)

theorem notify_wgSame (s : State) (m : Nat) : WgSame s (notify s m) := by
  unfold notify
  with_reducible repeat' first | exact WgSame.same | (apply WgSame.after; apply signal_wgSame) | split

theorem HiEvents.trans {a b c : Hi} (h : HiEvents a b) (k : HiEvents b c) : HiEvents a c := by
  unfold HiEvents at *
  rw [k, h]

theorem HwEvents.trans {a b c : Hw} (h : HwEvents a b) (k : HwEvents b c) : HwEvents a c := by
  unfold HwEvents at *
  rw [k, h]

theorem Calm.same {s : State} : Calm s s := by constructor <;> rfl

theorem Calm.trans {s t u : State} (h : Calm s t) (k : Calm t u) : Calm s u := by
  constructor
  · exact k.pending.trans h.pending
  · exact k.freeCtr.trans h.freeCtr
  · exact k.syn.trans h.syn
  · exact k.beat.trans h.beat
  · exact k.cmb.trans h.cmb
  · exact k.quad.trans h.quad
  · exact k.streams.trans h.streams
  · exact k.xm.trans h.xm
  · exact k.bl.trans h.bl
  · exact k.so.trans h.so
  · exact k.arb.trans h.arb
  · exact k.hl.trans h.hl
  · exact k.gr.trans h.gr
  · exact k.us.trans h.us
  · exact k.jtag.trans h.jtag
  · exact k.fw.trans h.fw
  · rw [k.pwr, h.pwr]
  · exact h.hi.trans k.hi
  · exact h.hw.trans k.hw

theorem Calm.after {s t u : State} (k : Calm t u) (h : Calm s t) : Calm s u := h.trans k

theorem Calm.ite {s a b : State} (c : Prop) [Decidable c] (ha : Calm s a) (hb : Calm s b) : Calm s (if c then a else b) := by
  split
  · exact ha
  · exact hb

theorem Calm.stepped {s a b : State} {c : Prop} [Decidable c] (k : Calm a b) (h : Calm s a) : Calm s (if c then b else a) :=
  Calm.ite c (h.trans k) h

theorem Calm.foldl {α : Type} (f : State → α → State) (l : List α) (s : State) (h : ∀ s x, Calm s (f s x)) : Calm s (l.foldl f s) := by
  induction l generalizing s with
  | nil => exact Calm.same
  | cons a r ih => exact (h s a).trans (ih (f s a))

theorem Calm.forUpto (f : State → Nat → State) (n : Nat) (s : State) (h : ∀ s x, Calm s (f s x)) : Calm s (forUpto n f s) :=
  Calm.foldl f _ s h

theorem Calm.upd {s t : State} {hi w rj hw pw} (h : Calm s t) (h1 : pw = { t.pwr with waking := pw.waking } := by with_reducible rfl)
    (h2 : HiEvents t.hi hi := by unfold HiEvents; with_reducible rfl) (h3 : HwEvents t.hw hw := by unfold HwEvents; with_reducible rfl) :
    Calm s ⟨t.pending, t.freeCtr, t.syn, t.beat, t.cmb, t.quad, t.streams, t.xm, t.bl, t.so, t.arb, t.hl, hi, w, t.gr, rj, t.us, hw,
      pw, t.jtag, t.fw⟩ :=
  h.trans ⟨rfl, rfl, rfl, rfl, rfl, rfl, rfl, rfl, rfl, rfl, rfl, rfl, rfl, rfl, rfl, rfl, h1, h2, h3⟩

theorem signal_calm (s : State) (v : Nat) : Calm s (signal s v) := by
  unfold signal
  with_reducible repeat' first | (refine Calm.upd ?_; exact Calm.same) | split

theorem signalPending_calm (s : State) : Calm s (signalPending s) := by
  unfold signalPending
  with_reducible repeat' first
    | exact Calm.same
    | (apply Calm.after; apply signal_calm)
    | (apply Calm.after; apply Calm.foldl; intro s x)
    | split

theorem hostMemWrite_calm (s : State) (a : Nat) (l : List Byte) : Calm s (hostMemWrite s a l) := by
  unfold hostMemWrite
  exact Calm.upd Calm.same

theorem evrPut_calm (s : State) (e : Event) : Calm s (evrPut s e) := by
  have h : Calm s { hostMemWrite s (s.hi.evr.base + 64 * s.hi.evr.tail) (eventBytes e s.hi.evr.phase) with
      hi.evr := s.hi.evr.advance } := Calm.upd (hostMemWrite_calm _ _ _) rfl rfl rfl
  unfold evrPut
  dsimp only
  split
  · exact h.trans (signal_calm _ _)
  · exact h.trans (signal_calm _ _)
  · exact h

theorem evrOverflow_calm (s : State) : Calm s (evrOverflow s) := by
  unfold evrOverflow
  with_reducible repeat' first
    | (apply Calm.after; apply evrPut_calm)
    | (refine Calm.upd ?_; first | exact Calm.same | (apply Calm.after; apply evrPut_calm))
    | split

theorem evrEmit_calm (s : State) (e : Event) : Calm s (evrEmit s e) := by
  unfold evrEmit
  with_reducible repeat' first
    | (apply Calm.after; first | apply evrPut_calm | apply evrOverflow_calm)
    | (refine Calm.upd ?_; first | exact Calm.same | (apply Calm.after; first | apply evrPut_calm | apply evrOverflow_calm))
    | apply Calm.ite

theorem bootqAdd_calm (s : State) (e : Event) : Calm s (bootqAdd s e) := by
  unfold bootqAdd
  with_reducible repeat' first | (refine Calm.upd ?_; exact Calm.same) | split

theorem bootqDeliver_calm (s : State) : Calm s (bootqDeliver s) := by
  unfold bootqDeliver
  with_reducible repeat' first
    | (apply Calm.after; first | apply evrOverflow_calm | apply evrEmit_calm)
    | (apply Calm.after; apply Calm.foldl; intro s x)
    | (refine Calm.upd ?_; first | exact Calm.same | (apply Calm.after; apply Calm.foldl; intro s x))
    | split

theorem toRing_calm (s : State) (e : Event) : Calm s (toRing s e) := by
  unfold toRing
  with_reducible repeat' first
    | exact Calm.same
    | (apply Calm.after; first | apply evrEmit_calm | apply bootqAdd_calm | apply bootqDeliver_calm)
    | split

theorem raiseRing_calm (s : State) (beat code : Nat) (sev : Sev) (detail : Nat) : Calm s (raiseRing s beat code sev detail) := by
  unfold raiseRing
  with_reducible repeat' first | (apply Calm.after; apply toRing_calm) | (refine Calm.upd ?_; exact Calm.same)

theorem hwLose_calm (s : State) (n : Nat) : Calm s (hwLose s n) := by
  unfold hwLose
  exact Calm.upd Calm.same

theorem hwHoldState_calm (s : State) (r : HwPend) : Calm s (hwHoldState s r) := by
  unfold hwHoldState
  exact Calm.upd Calm.same

theorem hwState_calm (s : State) (typ : Nat) (payload : List Byte) : Calm s (hwState s typ payload) := by
  unfold hwState
  with_reducible repeat' first | (apply Calm.after; apply hwHoldState_calm) | (refine Calm.upd ?_; exact Calm.same) | split

theorem hwEvent_calm (s : State) (e : Event) : Calm s (hwEvent s e) := by
  unfold hwEvent
  with_reducible repeat' first
    | (apply Calm.after; first | apply raiseRing_calm | apply hwLose_calm | apply hwHoldState_calm)
    | (refine Calm.upd ?_; exact Calm.same)
    | apply Calm.ite
    | split

theorem raiseAt_calm (s : State) (beat code : Nat) (sev : Sev) (detail : Nat) : Calm s (raiseAt s beat code sev detail) := by
  unfold raiseAt
  with_reducible repeat' first | exact Calm.same | (apply Calm.after; first | apply raiseRing_calm | apply hwEvent_calm) | split

theorem raise_calm (s : State) (code : Nat) (sev : Sev) (detail : Nat) : Calm s (raise s code sev detail) := by
  unfold raise
  with_reducible repeat' first | exact Calm.same | (apply Calm.after; apply raiseAt_calm)

theorem hwMirrors_calm (s : State) : Calm s (hwMirrors s) := by
  unfold hwMirrors
  with_reducible repeat' first | (apply Calm.after; apply Calm.foldl; intro s x) | (refine Calm.upd ?_; exact Calm.same) | split

theorem takeSeq_calm (s : State) : Calm s (takeSeq s).2 := Calm.upd Calm.same

theorem jWrite_calm (s : State) (e : JEntry) : Calm s (jWrite s e) := by
  unfold jWrite
  with_reducible repeat' first | (apply Calm.after; apply hwMirrors_calm) | (refine Calm.upd ?_; exact Calm.same)

theorem jKeeper_calm (s : State) (source : Nat) (cls : CmdClass) (op outcome phase beat digest link effect : Nat) : Calm s (jKeeper s source cls op outcome phase beat digest link effect) := by
  unfold jKeeper
  with_reducible repeat' first | exact Calm.same | (apply Calm.after; first | apply jWrite_calm | apply takeSeq_calm)

theorem wakeTo_calm (s : State) (t : PwrSt) : Calm s (wakeTo s t) := by
  unfold wakeTo
  with_reducible repeat' first | (refine Calm.upd ?_; exact Calm.same) | split

theorem wakeActive_calm (s : State) : Calm s (wakeActive s) := by
  unfold wakeActive
  with_reducible repeat' first | exact Calm.same | (apply Calm.after; apply wakeTo_calm)

theorem onMb_calm (s : State) (m : Nat) (f : Mbox → Mbox) : Calm s (onMb s m f) := by
  unfold onMb
  exact Calm.upd Calm.same

theorem pagePut_calm (s : State) (m o : Nat) (l : List Byte) : Calm s (pagePut s m o l) := by
  unfold pagePut
  with_reducible repeat' first | exact Calm.same | (apply Calm.after; apply onMb_calm)

theorem ringBusy_calm (s : State) (m : Nat) : Calm s (ringBusy s m) := by
  unfold ringBusy
  with_reducible repeat' first | exact Calm.same | (apply Calm.after; apply onMb_calm)

theorem putPart_calm (s : State) (m k : Nat) : Calm s (putPart s m k) := by
  unfold putPart
  with_reducible repeat' first | exact Calm.same | (apply Calm.after; first | apply onMb_calm | apply pagePut_calm)

theorem notify_calm (s : State) (m : Nat) : Calm s (notify s m) := by
  unfold notify
  with_reducible repeat' first | exact Calm.same | (apply Calm.after; apply signal_calm) | split

theorem respond_calm (s : State) (m st seq winner beat : Nat) (body : List Byte) (fin : MbSt) : Calm s (respond s m st seq winner beat body fin) := by
  unfold respond
  with_reducible repeat' first
    | exact Calm.same
    | (apply Calm.after; first | apply onMb_calm | apply notify_calm | apply putPart_calm)
    | split

theorem journal_calm (s : State) (m seq st link effect : Nat) : Calm s (journal s m seq st link effect) := by
  unfold journal
  with_reducible repeat' first | exact Calm.same | (apply Calm.after; apply jWrite_calm)

theorem supersede_calm (s : State) (m winner : Nat) : Calm s (supersede s m winner) := by
  have h := takeSeq_calm s
  unfold supersede
  revert h
  generalize takeSeq s = w
  obtain ⟨n, u⟩ := w
  intro h
  dsimp only at h ⊢
  exact (((h.trans (journal_calm _ _ _ _ _ _)).trans (onMb_calm _ m _)).trans (raise_calm _ _ _ _)).trans
    (respond_calm _ _ _ _ _ _ _ _)

theorem refuse_calm (s : State) (m st : Nat) : Calm s (refuse s m st) := by
  unfold refuse
  with_reducible repeat' first | exact Calm.same | (apply Calm.after; first | apply onMb_calm | apply respond_calm)

theorem accept_calm (s : State) (m : Nat) : Calm s (accept s m) := by
  have h : Calm s (if recorded (mbOp s m) then takeSeq s else (0, s)).2 := by
    split
    · exact takeSeq_calm s
    · exact Calm.same
  unfold accept
  revert h
  generalize (if recorded (mbOp s m) = true then takeSeq s else (0, s)) = w
  obtain ⟨n, u⟩ := w
  intro h
  dsimp only at h ⊢
  have h3 : Calm s { onMb u m (fun x => { x with st := .busy, accepted := satAdd 32 x.accepted 1 }) with
      wg.cur := some m, wg.curSeq := n, wg.wait := .none } := Calm.upd (h.trans (onMb_calm u m _))
  exact Calm.ite _ h3 (h3.trans (wakeActive_calm _))

theorem takeTurn_calm (s : State) (m : Nat) : Calm s (takeTurn s m) := by
  unfold takeTurn
  with_reducible repeat' first
    | exact Calm.same
    | (apply Calm.after; first | apply respond_calm | apply supersede_calm | apply refuse_calm | apply accept_calm)
    | apply Calm.ite
    | split

theorem serveNext_calm (s : State) : Calm s (serveNext s) := by
  unfold serveNext
  with_reducible repeat' first
    | exact Calm.same
    | (apply Calm.after; first | apply onMb_calm | apply notify_calm | apply putPart_calm)
    | (apply Calm.after; apply Calm.forUpto; intro s x)
    | split

theorem turns_calm (n : Nat) (s : State) : Calm s (turns n s) := by
  induction n generalizing s with
  | zero => exact Calm.same
  | succ n ih =>
    unfold turns; split
    · exact Calm.same
    · exact serveNext_calm _
    · rename_i m r _ _
      exact ((Calm.upd Calm.same).trans (takeTurn_calm { s with wg.order := r } m)).trans (ih _)

theorem startRound_calm (s : State) : Calm s (startRound s) := by
  unfold startRound
  with_reducible repeat' first
    | (apply Calm.after; apply turns_calm)
    | (refine Calm.upd ?_; exact Calm.same)

theorem romRound_calm (s : State) : Calm s (romRound s) := Calm.ite _ (startRound_calm s) Calm.same

theorem answerAt_calm (s : State) (st : Nat) (body : List Byte) (effect : Nat) : Calm s (answerAt s st body effect) := by
  unfold answerAt
  with_reducible repeat' first
    | (apply Calm.after; first | apply respond_calm | apply journal_calm | apply turns_calm | apply romRound_calm)
    | (refine Calm.upd ?_; first | exact Calm.same | split)

theorem answer_calm (s : State) (st : Nat) (body : List Byte) : Calm s (answer s st body) := by
  unfold answer
  with_reducible repeat' first | exact Calm.same | (apply Calm.after; apply answerAt_calm)

/-- The command that Keeper works on, answered by its meaning. -/
theorem onCmd_at (s : State) (op : Nat) (f : List Byte → State) (p : List Byte) (h : curPay s op = some p) : onCmd s op f = f p := by
  unfold onCmd; rw [h]

@[simp] theorem leBytes_length (n v : Nat) : (leBytes n v).length = n := by
  induction n generalizing v with
  | zero => rfl
  | succ n ih => simp [leBytes, ih]

/-- The operation changes no mailbox but m, and not the order of the round. -/
structure Others (m : Nat) (s t : State) : Prop where
  mb : ∀ k, k ≠ m → mbAt t k = mbAt s k
  order : t.wg.order = s.wg.order

theorem Others.trans {m : Nat} {s t u : State} (h : Others m s t) (k : Others m t u) : Others m s u :=
  ⟨fun j hj => (k.mb j hj).trans (h.mb j hj), k.order.trans h.order⟩

theorem WgSame.mbAt {s t : State} (h : WgSame s t) (k : Nat) : mbAt t k = mbAt s k := by
  unfold Machine.mbAt; rw [h.wg]

theorem WgSame.others {s t : State} (h : WgSame s t) (m : Nat) : Others m s t := ⟨fun k _ => h.mbAt k, by rw [h.wg]⟩

theorem onMb_others (s : State) (m : Nat) (f : Mbox → Mbox) : Others m s (onMb s m f) :=
  ⟨fun _ hk => mbAt_onMb_other _ _ _ _ (Ne.symm hk), rfl⟩

theorem putPart_others (s : State) (m k : Nat) : Others m s (putPart s m k) :=
  (onMb_others _ _ _).trans (onMb_others _ _ _)

theorem respond_others (s : State) (m st seq winner beat : Nat) (body : List Byte) (fin : MbSt) :
    Others m s (respond s m st seq winner beat body fin) := by
  unfold respond
  split
  · exact onMb_others _ _ _
  · exact (((onMb_others s m _).trans (putPart_others _ m 0)).trans (onMb_others _ m _)).trans ((notify_wgSame _ m).others m)

theorem journal_wgSame (s : State) (m seq st link effect : Nat) : WgSame s (journal s m seq st link effect) := jWrite_wgSame _ _

theorem seqIf_wgSame (s : State) (c : Prop) [Decidable c] : WgSame s (if c then takeSeq s else (0, s)).2 := by
  split
  · exact takeSeq_wgSame s
  · exact WgSame.same

theorem supersede_others (s : State) (m winner : Nat) : Others m s (supersede s m winner) := by
  have h := takeSeq_wgSame s
  unfold supersede
  revert h
  generalize takeSeq s = w
  obtain ⟨n, u⟩ := w
  intro h
  dsimp only at h ⊢
  exact ((((h.trans (journal_wgSame _ _ _ _ _ _)).others m).trans (onMb_others _ m _)).trans
    ((raise_wgSame _ _ _ _).others m)).trans (respond_others _ _ _ _ _ _ _ _)

theorem refuse_others (s : State) (m st : Nat) : Others m s (refuse s m st) :=
  (onMb_others _ _ _).trans (respond_others _ _ _ _ _ _ _ _)

theorem accept_others (s : State) (m : Nat) : Others m s (accept s m) := by
  have h := seqIf_wgSame s (recorded (mbOp s m) = true)
  unfold accept
  revert h
  generalize (if recorded (mbOp s m) = true then takeSeq s else (0, s)) = w
  obtain ⟨n, u⟩ := w
  intro h
  dsimp only at h ⊢
  have h3 : Others m s { onMb u m (fun x => { x with st := .busy, accepted := satAdd 32 x.accepted 1 }) with
      wg.cur := some m, wg.curSeq := n, wg.wait := .none } := by
    have o := (h.others m).trans (onMb_others u m (fun x => { x with st := .busy, accepted := satAdd 32 x.accepted 1 }))
    exact ⟨o.mb, o.order⟩
  split
  · exact h3
  · exact h3.trans ((wakeActive_wgSame _).others m)

theorem takeTurn_others (s : State) (m : Nat) : Others m s (takeTurn s m) := by
  unfold takeTurn
  dsimp only
  split
  · exact refuse_others _ _ _
  · split
    · exact refuse_others _ _ _
    · split
      · exact respond_others _ _ _ _ _ _ _ _
      · split
        · exact refuse_others _ _ _
        · split
          · exact supersede_others _ _ _
          · exact accept_others _ _

/-- NEXT doorbells of other mailboxes leave a mailbox without one alone. -/
theorem serveNext_mb (s : State) (m : Nat) (h : (mbAt s m).nextDue = false) : mbAt (serveNext s) m = mbAt s m := by
  unfold serveNext forUpto
  suffices H : ∀ (l : List Nat) (u : State), (mbAt u m).nextDue = false →
      mbAt (l.foldl (fun s m =>
        if (mbAt s m).nextDue then
          notify (onMb (putPart s m ((mbAt s m).part + 1)) m (fun x => { x with st := .done, nextDue := false })) m
        else s) u) m = mbAt u m from H _ s h
  intro l
  induction l with
  | nil => exact fun _ _ => rfl
  | cons a r ih =>
    intro u hu
    rw [List.foldl_cons]
    by_cases ha : (mbAt u a).nextDue = true
    · have hne : m ≠ a := fun e => by subst e; rw [hu] at ha; cases ha
      rw [if_pos ha]
      have hm := (((putPart_others u a ((mbAt u a).part + 1)).trans (onMb_others _ a (fun x => { x with st := .done, nextDue := false }))).trans
        ((notify_wgSame _ a).others a)).mb m hne
      rw [ih _ (by rw [hm]; exact hu), hm]
    · rw [if_neg ha]
      exact ih u hu

/-- The turns of a round leave alone a mailbox that has no turn in it and no NEXT to serve. -/
theorem turns_mb (n : Nat) (s : State) (m : Nat) (ho : m ∉ s.wg.order) (h : (mbAt s m).nextDue = false) :
    mbAt (turns n s) m = mbAt s m := by
  induction n generalizing s with
  | zero => rfl
  | succ n ih =>
    unfold turns; split
    · rfl
    · exact serveNext_mb s m h
    · rename_i k r _ hr
      rw [hr] at ho
      have hne : m ≠ k := fun e => ho (e ▸ List.mem_cons_self ..)
      have hk := takeTurn_others { s with wg.order := r } k
      have hm : mbAt (takeTurn { s with wg.order := r } k) m = mbAt s m := hk.mb m hne
      rw [ih _ (by rw [hk.order]; exact fun x => ho (List.mem_cons_of_mem _ x)) (by rw [hm]; exact h), hm]

/-- A round that ROM starts leaves alone a mailbox that is not RUNG and has no NEXT to serve (R345). -/
theorem romRound_mb (s : State) (m : Nat) (hr : (mbAt s m).st ≠ .rung) (h : (mbAt s m).nextDue = false) :
    mbAt (romRound s) m = mbAt s m := by
  unfold romRound
  split
  · refine turns_mb 5 _ m ?_ h
    simp [byAuthority, hr]
  · rfl

/-- A response put in a mailbox (R339, R350). -/
theorem respond_mb (s : State) (m st seq winner beat : Nat) (body : List Byte) (fin : MbSt) (hm : m < 4)
    (hd : (mbAt s m).discard = false) :
    (mbAt (respond s m st seq winner beat body fin) m).st = fin ∧ (mbAt (respond s m st seq winner beat body fin) m).code = st ∧
      (mbAt (respond s m st seq winner beat body fin) m).resp.drop 64 = body ∧
      (mbAt (respond s m st seq winner beat body fin) m).nextDue = (mbAt s m).nextDue ∧
      (mbAt (respond s m st seq winner beat body fin) m).part = 0 := by
  unfold respond
  rw [hd, if_neg (by decide)]
  dsimp only
  rw [(notify_wgSame _ m).mbAt, mbAt_onMb_same _ _ _ hm]
  unfold putPart pagePut
  rw [mbAt_onMb_same _ _ _ hm, mbAt_onMb_same _ _ _ hm, mbAt_onMb_same _ _ _ hm]
  refine ⟨rfl, rfl, ?_, rfl, rfl⟩
  dsimp only
  refine List.drop_left' ?_
  simp [respHeader, leBytes_length]

/-- The answered command: its mailbox is DONE with the code and the body (R343, R350). -/
theorem answerAt_mb (s : State) (st : Nat) (body : List Byte) (effect m : Nat) (hc : s.wg.cur = some m) (hm : m < 4)
    (ho : m ∉ s.wg.order) (hd : (mbAt s m).discard = false) (hn : (mbAt s m).nextDue = false) :
    (mbAt (answerAt s st body effect) m).st = .done ∧ (mbAt (answerAt s st body effect) m).code = st ∧
      (mbAt (answerAt s st body effect) m).resp.drop 64 = body := by
  unfold answerAt
  rw [hc]
  dsimp only
  have h1 : WgSame s (if recorded (mbOp s m) = true then journal s m s.wg.curSeq st 0 effect else s) :=
    WgSame.stepped (journal_wgSame _ _ _ _ _ _) WgSame.same
  revert h1
  generalize (if recorded (mbOp s m) = true then journal s m s.wg.curSeq st 0 effect else s) = u
  intro h1
  have h2 : ∀ v : State, mbAt v m = mbAt s m → v.wg.order = s.wg.order →
      ∀ w : State, Others m v w → (mbAt w m).nextDue = false →
      mbAt (turns 5 { w with wg.cur := none, wg.curSeq := 0, wg.wait := .none }) m = mbAt w m := by
    intro v _ hv2 w hw hn2
    exact turns_mb 5 _ m (by show m ∉ w.wg.order; rw [hw.order, hv2]; exact ho) hn2
  have h3 : ∀ v : State, mbAt v m = mbAt s m → v.wg.order = s.wg.order → ∀ seq beat, ∀ z : State,
      z = turns 5 { respond v m st seq 0 beat body .done with wg.cur := none, wg.curSeq := 0, wg.wait := .none } →
      (mbAt (romRound z) m).st = .done ∧ (mbAt (romRound z) m).code = st ∧ (mbAt (romRound z) m).resp.drop 64 = body := by
    intro v hv1 hv2 seq beat z hz
    have hr := respond_mb v m st seq 0 beat body .done hm (by rw [hv1]; exact hd)
    have hn2 : (mbAt (respond v m st seq 0 beat body .done) m).nextDue = false := by rw [hr.2.2.2.1, hv1]; exact hn
    have hq := h2 v hv1 hv2 _ (respond_others v m st seq 0 beat body .done) hn2
    rw [← hz] at hq
    rw [romRound_mb z m (by rw [hq, hr.1]; decide) (by rw [hq]; exact hn2), hq]
    exact ⟨hr.1, hr.2.1, hr.2.2.1⟩
  have h4 : mbAt (if st ≤ 2 then
      { u with wg.held := u.wg.held ++ (allKeys (mbOp s m) (mbPayload u m)).map (fun k => (k, s.wg.curSeq)) } else u) m = mbAt s m := by
    split
    · exact h1.mbAt m
    · exact h1.mbAt m
  have h5 : (if st ≤ 2 then
      { u with wg.held := u.wg.held ++ (allKeys (mbOp s m) (mbPayload u m)).map (fun k => (k, s.wg.curSeq)) } else u).wg.order = s.wg.order := by
    split
    · show u.wg.order = s.wg.order
      rw [h1.wg]
    · rw [h1.wg]
  revert h4 h5
  generalize (if st ≤ 2 then
      { u with wg.held := u.wg.held ++ (allKeys (mbOp s m) (mbPayload u m)).map (fun k => (k, s.wg.curSeq)) } else u) = v
  exact fun h4 h5 => h3 v h4 h5 _ _ _ rfl

/-- The payload that the meaning of a command gets (R343). -/
theorem AtCommand.curPay {s : State} {op m : Nat} {p : List Byte} (h : AtCommand s op m p) : Machine.curPay s op = some p := by
  unfold Machine.curPay curOp
  rw [h.cur]
  dsimp only
  rw [if_pos ⟨h.op, h.wait, h.on, h.keeper⟩, Option.map_some, h.pay]

/-- A command that Keeper works on runs its meaning. -/
theorem AtCommand.runs {s : State} {op m : Nat} {p : List Byte} (h : AtCommand s op m p) (f : List Byte → State) : onCmd s op f = f p :=
  onCmd_at s op f p h.curPay

/-- An answer leaves the state that the meaning has made but for what Answered names. -/
theorem answerAt_answered {e : State} {m : Nat} (st : Nat) (body : List Byte) (effect : Nat) (hc : e.wg.cur = some m) (hm : m < 4)
    (ho : m ∉ e.wg.order) (hd : (mbAt e m).discard = false) (hn : (mbAt e m).nextDue = false) :
    Answered e m st body (answerAt e st body effect) := by
  obtain ⟨h1, h2, h3⟩ := answerAt_mb e st body effect m hc hm ho hd hn
  exact ⟨answerAt_calm e st body effect, h1, h2, h3⟩

/-- An answer to the command that Keeper works on, where the meaning has left the mailboxes alone. -/
theorem AtCommand.answered {s e : State} {op m : Nat} {p : List Byte} (h : AtCommand s op m p) (w : e.wg = s.wg) (st : Nat)
    (body : List Byte) (effect : Nat) : Answered e m st body (answerAt e st body effect) := by
  have hb : mbAt e m = mbAt s m := by unfold mbAt; rw [w]
  exact answerAt_answered st body effect (by rw [w]; exact h.cur) h.mbox (by rw [w]; exact h.order) (by rw [hb]; exact h.kept)
    (by rw [hb]; exact h.next)

end Sys2Proof.Machine
end

