-- ==== Sys2Proof/Laws/Events.lean ====
section
/-! SUPPORT. What raising an event does: the record it leaves (R330), and all that it leaves alone. -/

namespace Sys2Proof.Machine

set_option Elab.async false

open Sys2Proof

/-- The operation raises no event, and leaves the mailboxes, the journal and the power block alone. -/
structure Quiet (s t : State) : Prop where
  wg : t.wg = s.wg
  rj : t.rj = s.rj
  pwr : t.pwr = s.pwr
  raised : t.hi.raised = s.hi.raised

theorem Quiet.same {s : State} : Quiet s s := by constructor <;> rfl

theorem Quiet.trans {s t u : State} (h : Quiet s t) (k : Quiet t u) : Quiet s u :=
  ⟨k.wg.trans h.wg, k.rj.trans h.rj, k.pwr.trans h.pwr, k.raised.trans h.raised⟩

theorem Quiet.ite {s a b : State} (c : Prop) [Decidable c] (ha : Quiet s a) (hb : Quiet s b) : Quiet s (if c then a else b) := by
  split
  · exact ha
  · exact hb

theorem Quiet.foldl {α : Type} (f : State → α → State) (l : List α) (s : State) (h : ∀ s x, Quiet s (f s x)) : Quiet s (l.foldl f s) := by
  induction l generalizing s with
  | nil => exact Quiet.same
  | cons a r ih => exact (h s a).trans (ih (f s a))

theorem signal_quiet (s : State) (v : Nat) : Quiet s (signal s v) := by
  unfold signal
  exact Quiet.ite _ ⟨rfl, rfl, rfl, rfl⟩ ⟨rfl, rfl, rfl, rfl⟩

theorem evrPut_quiet (s : State) (e : Event) : Quiet s (evrPut s e) := by
  have h : Quiet s { hostMemWrite s (s.hi.evr.base + 64 * s.hi.evr.tail) (eventBytes e s.hi.evr.phase) with
      hi.evr := s.hi.evr.advance } := ⟨rfl, rfl, rfl, rfl⟩
  unfold evrPut
  dsimp only
  split
  · exact h.trans (signal_quiet _ _)
  · exact h.trans (signal_quiet _ _)
  · exact h

theorem evrOverflow_quiet (s : State) : Quiet s (evrOverflow s) := by
  unfold evrOverflow
  refine Quiet.ite _ ?_ Quiet.same
  exact (evrPut_quiet s _).trans ⟨rfl, rfl, rfl, rfl⟩

theorem evrEmit_quiet (s : State) (e : Event) : Quiet s (evrEmit s e) := by
  unfold evrEmit
  have h := evrOverflow_quiet s
  dsimp only
  exact Quiet.ite _ h (Quiet.ite _ (h.trans ⟨rfl, rfl, rfl, rfl⟩) (h.trans (evrPut_quiet _ _)))

theorem bootqAdd_quiet (s : State) (e : Event) : Quiet s (bootqAdd s e) := by
  unfold bootqAdd
  exact Quiet.ite _ ⟨rfl, rfl, rfl, rfl⟩ (Quiet.ite _ ⟨rfl, rfl, rfl, rfl⟩ ⟨rfl, rfl, rfl, rfl⟩)

theorem bootqDeliver_quiet (s : State) : Quiet s (bootqDeliver s) := by
  unfold bootqDeliver
  refine Quiet.ite _ ?_ Quiet.same
  have h : Quiet s { s with hi.bootq := [], hi.bootLost := 0 } := ⟨rfl, rfl, rfl, rfl⟩
  have k := h.trans (Quiet.foldl evrEmit s.hi.bootq _ evrEmit_quiet)
  revert k
  dsimp only
  generalize s.hi.bootq.foldl evrEmit { s with hi.bootq := [], hi.bootLost := 0 } = u
  intro k
  have k2 : Quiet u { u with hi.evrLostNew := u.hi.evrLostNew + s.hi.bootLost } := ⟨rfl, rfl, rfl, rfl⟩
  exact (k.trans k2).trans (evrOverflow_quiet _)

theorem toRing_quiet (s : State) (e : Event) : Quiet s (toRing s e) := by
  unfold toRing
  exact Quiet.ite _ ((bootqDeliver_quiet _).trans (evrEmit_quiet _ _)) (bootqAdd_quiet _ _)

/-- Raising an event to the ring puts it on the record of events (R330). -/
theorem raiseRing_raised (s : State) (beat code : Nat) (sev : Sev) (detail : Nat) :
    (raiseRing s beat code sev detail).hi.raised =
      { code := code, sev := sev, seq := s.hi.evSeq, beat := beat, detail := detail } :: s.hi.raised := by
  unfold raiseRing
  exact (toRing_quiet _ _).raised

/-- Raising an event to the ring leaves the mailboxes, the journal and the power block alone. -/
theorem raiseRing_blocks (s : State) (beat code : Nat) (sev : Sev) (detail : Nat) :
    (raiseRing s beat code sev detail).wg = s.wg ∧ (raiseRing s beat code sev detail).rj = s.rj ∧
      (raiseRing s beat code sev detail).pwr = s.pwr := by
  unfold raiseRing
  have h := toRing_quiet
    { s with
      hi.evSeq := (s.hi.evSeq + 1) % 2 ^ 32
      hi.raised := { code := code, sev := sev, seq := s.hi.evSeq, beat := beat, detail := detail } :: s.hi.raised }
    { code := code, sev := sev, seq := s.hi.evSeq, beat := beat, detail := detail }
  exact ⟨h.wg, h.rj, h.pwr⟩

/-- Nothing raised, nothing changed. -/
theorem Raised.same (s : State) : Raised s s [] := ⟨Calm.same, rfl, rfl, rfl, [], rfl, rfl⟩

/-- A state equal but for what Quiet and Calm allow. -/
theorem Raised.ofQuiet {s t : State} (c : Calm s t) (q : Quiet s t) : Raised s t [] := ⟨c, q.wg, q.rj, q.pwr, [], q.raised, rfl⟩

/-- Events raised one after the other. -/
theorem Raised.trans {s t u : State} {l m : List (Nat × Sev)} (h : Raised s t l) (k : Raised t u m) : Raised s u (l ++ m) := by
  obtain ⟨p, hp, hl⟩ := h.news
  obtain ⟨q, hq, hm⟩ := k.news
  refine ⟨h.calm.trans k.calm, k.wg.trans h.wg, k.rj.trans h.rj, k.pwr.trans h.pwr, q ++ p, ?_, ?_⟩
  · rw [hq, hp, List.append_assoc]
  · rw [List.reverse_append, List.filter_append, List.map_append, hl, hm]

/-- An event to the ring alone. -/
theorem raiseRing_news (s : State) (beat code : Nat) (sev : Sev) (detail : Nat) :
    Raised s (raiseRing s beat code sev detail) (if code = 0x1206 then [] else [(code, sev)]) := by
  have b := raiseRing_blocks s beat code sev detail
  refine ⟨raiseRing_calm _ _ _ _ _, b.1, b.2.1, b.2.2, [_], raiseRing_raised _ _ _ _ _, ?_⟩
  by_cases h : code = 0x1206
  · simp [h]
  · simp [h]

/-- Heartwood's part of an event raises at most 0x1206 (R403). -/
theorem hwEvent_news (s : State) (e : Event) : Raised s (hwEvent s e) [] := by
  have q : ∀ (t : State), Calm s t → Quiet s t → Raised s t [] := fun t c k => Raised.ofQuiet c k
  have full : Raised s (raiseRing (hwLose s 1) e.beat 0x1206 .major 0) [] := by
    have h1 : Raised s (hwLose s 1) [] := q _ (hwLose_calm _ _) ⟨rfl, rfl, rfl, rfl⟩
    exact h1.trans (raiseRing_news (hwLose s 1) e.beat 0x1206 .major 0)
  unfold hwEvent
  dsimp only
  split
  · exact q _ (hwLose_calm _ _) ⟨rfl, rfl, rfl, rfl⟩
  · split
    · exact q _ (Calm.upd Calm.same) ⟨rfl, rfl, rfl, rfl⟩
    · split
      · split
        · exact q _ ((Calm.upd Calm.same).trans (hwLose_calm _ _)) ⟨rfl, rfl, rfl, rfl⟩
        · split
          · exact q _ (Calm.upd Calm.same) ⟨rfl, rfl, rfl, rfl⟩
          · split
            · exact q _ ((Calm.upd Calm.same).trans (hwHoldState_calm _ _)) ⟨rfl, rfl, rfl, rfl⟩
            · split
              · exact q _ (Calm.upd Calm.same) ⟨rfl, rfl, rfl, rfl⟩
              · exact full
      · exact full

/-- An event raised (R330, R403): it is on the record, and only the event path has changed. -/
theorem raise_news (s : State) (code : Nat) (sev : Sev) (detail : Nat) (h : code ≠ 0x1206) :
    Raised s (raise s code sev detail) [(code, sev)] := by
  have r := raiseRing_news s s.beat.num code sev detail
  rw [if_neg h] at r
  unfold raise raiseAt
  dsimp only
  split
  · exact r.trans (hwEvent_news _ _)
  · exact r.trans (hwEvent_news _ _)
  · exact r

end Sys2Proof.Machine
end

