-- ==== Sys2Proof/Laws/FrameTap.lean ====
section
/-! SUPPORT. The TAP commands change nothing but the TAP (R448). -/

namespace Sys2Proof.Machine

set_option Elab.async false

open Sys2Proof

theorem tapLoad_only (s : State) (f : Jtag → Jtag) : ∃ j, tapLoad s f = { s with jtag := j } := by
  unfold tapLoad
  split
  · exact ⟨_, rfl⟩
  · exact ⟨s.jtag, rfl⟩

end Sys2Proof.Machine
end

