-- ==== Sys2Proof/Laws/FrameAll.lean ====
section
/-! SUPPORT. What any command leaves alone: one lemma over all constructors, from those of the families. -/

namespace Sys2Proof.Machine

set_option Elab.async false

open Sys2Proof

/-- Every command but those of the JTAG port answers a next state, with the queue and the TAP as they were and the invariants of the
journal and the memories kept. -/
theorem exec_sound (c : Instr) (s : State) (h : isJtag c = false) : ∃ t, exec c s = .next t ∧ Sound s t := by
  cases c with
  | registerWrite _ _ _ => exact execRegisterWrite_sound _ _ _ s
  | rcFieldRead _ _ => exact (execRcFieldRead_keeps _ _ s).imp fun _ x => ⟨x.1, x.2.sound⟩
  | lowWordRead _ => exact (execLowWordRead_keeps _ s).imp fun _ x => ⟨x.1, x.2.sound⟩
  | highWordWrite _ _ => exact execHighWordWrite_sound _ _ s
  | misalignedAccess _ _ _ => exact (execMisalignedAccess_keeps _ _ _ s).imp fun _ x => ⟨x.1, x.2.sound⟩
  | undefinedOffsetAccess _ _ => exact execUndefinedOffsetAccess_sound _ _ s
  | aonPowerGood => exact execAonPowerGood_sound s
  | aonPowerGoodFall => exact (execAonPowerGoodFall_keeps s).imp fun _ x => ⟨x.1, x.2.sound⟩
  | powerFailWarning => exact execPowerFailWarning_sound s
  | aonBrownOut => exact (execAonBrownOut_keeps s).imp fun _ x => ⟨x.1, x.2.sound⟩
  | aonSupplyRecovery => exact execAonSupplyRecovery_sound s
  | perstAssert => exact execPerstAssert_sound s
  | perstDeassert => exact (execPerstDeassert_keeps s).imp fun _ x => ⟨x.1, x.2.sound⟩
  | pcieHotReset => exact execPcieHotReset_sound s
  | functionLevelReset => exact execFunctionLevelReset_sound s
  | configRequest _ => exact (execConfigRequest_keeps _ s).imp fun _ x => ⟨x.1, x.2.sound⟩
  | romStart _ _ => exact (execRomStart_keeps _ _ s).imp fun _ x => ⟨x.1, x.2.sound⟩
  | referenceRecheck _ _ => exact (execReferenceRecheck_keeps _ _ s).imp fun _ x => ⟨x.1, x.2.sound⟩
  | lockAcquired _ => exact (execLockAcquired_keeps _ s).imp fun _ x => ⟨x.1, x.2.sound⟩
  | pllBLockTimeout => exact (execPllBLockTimeout_keeps s).imp fun _ x => ⟨x.1, x.2.sound⟩
  | hifPowerGood => exact (execHifPowerGood_keeps s).imp fun _ x => ⟨x.1, x.2.sound⟩
  | imageVerifyComplete _ => exact (execImageVerifyComplete_keeps _ s).imp fun _ x => ⟨x.1, x.2.sound⟩
  | domainWindow => exact execDomainWindow_sound s
  | quadrantBistComplete _ _ => exact (execQuadrantBistComplete_keeps _ _ s).imp fun _ x => ⟨x.1, x.2.sound⟩
  | lpddrTrainingComplete _ => exact (execLpddrTrainingComplete_keeps _ s).imp fun _ x => ⟨x.1, x.2.sound⟩
  | portTrainingStart _ => exact (execPortTrainingStart_keeps _ s).imp fun _ x => ⟨x.1, x.2.sound⟩
  | readyReached _ => exact (execReadyReached_keeps _ s).imp fun _ x => ⟨x.1, x.2.sound⟩
  | warmReset => exact execWarmReset_sound s
  | keeperWatchdogExpiry => exact execKeeperWatchdogExpiry_sound s
  | lockstepMismatch => exact execLockstepMismatch_sound s
  | quadrantReset _ => exact (execQuadrantReset_keeps _ s).imp fun _ x => ⟨x.1, x.2.sound⟩
  | queryBoot => exact execQueryBoot_sound s
  | hiveReset => exact execHiveReset_sound s
  | resetWarm => exact execResetWarm_sound s
  | resetQuad => exact execResetQuad_sound s
  | beatEdge _ => exact execBeatEdge_sound _ s
  | slotBoundary => exact (execSlotBoundary_keeps s).imp fun _ x => ⟨x.1, x.2.sound⟩
  | slotGuardStart => exact (execSlotGuardStart_keeps s).imp fun _ x => ⟨x.1, x.2.sound⟩
  | vtComplianceCrossing _ _ => exact (execVtComplianceCrossing_keeps _ _ s).imp fun _ x => ⟨x.1, x.2.sound⟩
  | phaseWindowViolation _ _ => exact (execPhaseWindowViolation_keeps _ _ s).imp fun _ x => ⟨x.1, x.2.sound⟩
  | lossOfLock _ => exact (execLossOfLock_keeps _ s).imp fun _ x => ⟨x.1, x.2.sound⟩
  | prelockTimeout _ => exact (execPrelockTimeout_keeps _ s).imp fun _ x => ⟨x.1, x.2.sound⟩
  | querySyn => exact execQuerySyn_sound s
  | synCalRun => exact execSynCalRun_sound s
  | synHoldRelease => exact execSynHoldRelease_sound s
  | synHoldFreeze => exact execSynHoldFreeze_sound s
  | synHoldSafeClock => exact execSynHoldSafeClock_sound s
  | calibrationStart _ => exact (execCalibrationStart_keeps _ s).imp fun _ x => ⟨x.1, x.2.sound⟩
  | calibrationComplete _ _ _ => exact (execCalibrationComplete_keeps _ _ _ s).imp fun _ x => ⟨x.1, x.2.sound⟩
  | beatMarkerReceive _ _ _ => exact (execBeatMarkerReceive_keeps _ _ _ s).imp fun _ x => ⟨x.1, x.2.sound⟩
  | portExclusionLimit _ => exact (execPortExclusionLimit_keeps _ s).imp fun _ x => ⟨x.1, x.2.sound⟩
  | seekTimeout => exact (execSeekTimeout_keeps s).imp fun _ x => ⟨x.1, x.2.sound⟩
  | coarseJump => exact (execCoarseJump_keeps s).imp fun _ x => ⟨x.1, x.2.sound⟩
  | parentLost => exact (execParentLost_keeps s).imp fun _ x => ⟨x.1, x.2.sound⟩
  | holdTimeout => exact (execHoldTimeout_keeps s).imp fun _ x => ⟨x.1, x.2.sound⟩
  | masterHoldoverTimeout => exact (execMasterHoldoverTimeout_keeps s).imp fun _ x => ⟨x.1, x.2.sound⟩
  | rateLimitExceeded => exact (execRateLimitExceeded_keeps s).imp fun _ x => ⟨x.1, x.2.sound⟩
  | queryBeat => exact execQueryBeat_sound s
  | beatMasterEn => exact execBeatMasterEn_sound s
  | refSelect => exact execRefSelect_sound s
  | planLoad _ => exact execPlanLoad_sound _ s
  | planFetchComplete => exact execPlanFetchComplete_sound s
  | dmaReadError => exact execDmaReadError_sound s
  | dmaCompletionTimeout => exact execDmaCompletionTimeout_sound s
  | planActivate => exact execPlanActivate_sound s
  | planDeactivate => exact execPlanDeactivate_sound s
  | planDrainComplete _ => exact (execPlanDrainComplete_keeps _ s).imp fun _ x => ⟨x.1, x.2.sound⟩
  | planUnload => exact execPlanUnload_sound s
  | zeroFillComplete _ _ => exact execZeroFillComplete_sound _ _ s
  | planReplace _ => exact execPlanReplace_sound _ s
  | replacePhaseReady _ => exact execReplacePhaseReady_sound _ s
  | planSwap => exact execPlanSwap_sound s
  | planFitmode => exact execPlanFitmode_sound s
  | queryPlan => exact execQueryPlan_sound s
  | queryComb => exact execQueryComb_sound s
  | pageRebuildComplete _ _ => exact execPageRebuildComplete_sound _ _ s
  | bankCopyComplete _ => exact execBankCopyComplete_sound _ s
  | rebuildWaitLimit _ => exact (execRebuildWaitLimit_keeps _ s).imp fun _ x => ⟨x.1, x.2.sound⟩
  | passStart _ => exact (execPassStart_keeps _ s).imp fun _ x => ⟨x.1, x.2.sound⟩
  | passComplete _ => exact (execPassComplete_keeps _ s).imp fun _ x => ⟨x.1, x.2.sound⟩
  | accumulatorSetSwap _ _ => exact (execAccumulatorSetSwap_keeps _ _ s).imp fun _ x => ⟨x.1, x.2.sound⟩
  | contextSave _ => exact execContextSave_sound _ s
  | contextRestore _ => exact (execContextRestore_keeps _ s).imp fun _ x => ⟨x.1, x.2.sound⟩
  | queryJoin => exact execQueryJoin_sound s
  | queryArr => exact execQueryArr_sound s
  | epilogueComplete _ => exact (execEpilogueComplete_keeps _ s).imp fun _ x => ⟨x.1, x.2.sound⟩
  | forwardTileSend _ => exact (execForwardTileSend_keeps _ s).imp fun _ x => ⟨x.1, x.2.sound⟩
  | forwardDrop _ => exact (execForwardDrop_keeps _ s).imp fun _ x => ⟨x.1, x.2.sound⟩
  | tileRecordAdd _ => exact (execTileRecordAdd_keeps _ s).imp fun _ x => ⟨x.1, x.2.sound⟩
  | queryFus => exact execQueryFus_sound s
  | chunkGate _ => exact (execChunkGate_keeps _ s).imp fun _ x => ⟨x.1, x.2.sound⟩
  | chunkLevel _ => exact (execChunkLevel_keeps _ s).imp fun _ x => ⟨x.1, x.2.sound⟩
  | chunkLoad _ => exact (execChunkLoad_keeps _ s).imp fun _ x => ⟨x.1, x.2.sound⟩
  | chunkExpand _ => exact (execChunkExpand_keeps _ s).imp fun _ x => ⟨x.1, x.2.sound⟩
  | chunkReadout _ => exact execChunkReadout_sound _ s
  | chunkStore _ => exact execChunkStore_sound _ s
  | chunkSkip _ => exact (execChunkSkip_keeps _ s).imp fun _ x => ⟨x.1, x.2.sound⟩
  | streamCtlPause => exact execStreamCtlPause_sound s
  | streamCtlResume => exact execStreamCtlResume_sound s
  | streamCtlReset => exact execStreamCtlReset_sound s
  | streamCtlEnd => exact execStreamCtlEnd_sound s
  | streamCtlApply _ => exact (execStreamCtlApply_keeps _ s).imp fun _ x => ⟨x.1, x.2.sound⟩
  | queryRcs => exact execQueryRcs_sound s
  | transferIssue _ => exact (execTransferIssue_keeps _ s).imp fun _ x => ⟨x.1, x.2.sound⟩
  | readTransferComplete _ _ _ => exact (execReadTransferComplete_keeps _ _ _ s).imp fun _ x => ⟨x.1, x.2.sound⟩
  | writeTransferAccepted _ _ => exact execWriteTransferAccepted_sound _ _ s
  | instanceComplete _ => exact (execInstanceComplete_keeps _ s).imp fun _ x => ⟨x.1, x.2.sound⟩
  | scheduleAlloc _ => exact (execScheduleAlloc_keeps _ s).imp fun _ x => ⟨x.1, x.2.sound⟩
  | scheduleFree _ => exact execScheduleFree_sound _ s
  | bufAlloc => exact execBufAlloc_sound s
  | bufFree => exact execBufFree_sound s
  | bufGive => exact execBufGive_sound s
  | queryXm => exact execQueryXm_sound s
  | queryBuf => exact execQueryBuf_sound s
  | xmShare => exact execXmShare_sound s
  | syncAcq _ => exact execSyncAcq_sound _ s
  | syncRel _ => exact (execSyncRel_keeps _ s).imp fun _ x => ⟨x.1, x.2.sound⟩
  | syncWait _ => exact execSyncWait_sound _ s
  | syncSend _ => exact (execSyncSend_keeps _ s).imp fun _ x => ⟨x.1, x.2.sound⟩
  | blockedOpProceed _ => exact (execBlockedOpProceed_keeps _ s).imp fun _ x => ⟨x.1, x.2.sound⟩
  | sidePortRequest _ _ _ _ => exact (execSidePortRequest_keeps _ _ _ _ s).imp fun _ x => ⟨x.1, x.2.sound⟩
  | sidePortGrant _ _ => exact execSidePortGrant_sound _ _ s
  | portWatchdogExpiry _ => exact (execPortWatchdogExpiry_keeps _ s).imp fun _ x => ⟨x.1, x.2.sound⟩
  | querySo => exact execQuerySo_sound s
  | queryArb => exact execQueryArb_sound s
  | lnkPowerGood _ => exact (execLnkPowerGood_keeps _ s).imp fun _ x => ⟨x.1, x.2.sound⟩
  | portNoSignalTimeout _ => exact (execPortNoSignalTimeout_keeps _ s).imp fun _ x => ⟨x.1, x.2.sound⟩
  | portTrainingTimeout _ => exact (execPortTrainingTimeout_keeps _ s).imp fun _ x => ⟨x.1, x.2.sound⟩
  | portRetryTimer _ => exact (execPortRetryTimer_keeps _ s).imp fun _ x => ⟨x.1, x.2.sound⟩
  | pmdTrainingComplete _ _ _ => exact (execPmdTrainingComplete_keeps _ _ _ s).imp fun _ x => ⟨x.1, x.2.sound⟩
  | identReceive _ _ => exact (execIdentReceive_keeps _ _ s).imp fun _ x => ⟨x.1, x.2.sound⟩
  | lossOfSignal _ => exact (execLossOfSignal_keeps _ s).imp fun _ x => ⟨x.1, x.2.sound⟩
  | laneFlitReceive _ _ => exact (execLaneFlitReceive_keeps _ _ s).imp fun _ x => ⟨x.1, x.2.sound⟩
  | laneSpareSwitch _ => exact (execLaneSpareSwitch_keeps _ s).imp fun _ x => ⟨x.1, x.2.sound⟩
  | uncorrectableCodeword _ => exact (execUncorrectableCodeword_keeps _ s).imp fun _ x => ⟨x.1, x.2.sound⟩
  | codewordErrorLimit _ => exact (execCodewordErrorLimit_keeps _ s).imp fun _ x => ⟨x.1, x.2.sound⟩
  | flitDataReceive _ _ _ => exact execFlitDataReceive_sound _ _ _ s
  | flitSyncReceive _ _ _ => exact (execFlitSyncReceive_keeps _ _ _ s).imp fun _ x => ⟨x.1, x.2.sound⟩
  | flitUnschedReceive _ _ _ => exact (execFlitUnschedReceive_keeps _ _ _ s).imp fun _ x => ⟨x.1, x.2.sound⟩
  | flitHaltReceive _ _ => exact (execFlitHaltReceive_keeps _ _ s).imp fun _ x => ⟨x.1, x.2.sound⟩
  | flitTagReceive _ _ => exact (execFlitTagReceive_keeps _ _ s).imp fun _ x => ⟨x.1, x.2.sound⟩
  | flitAckReceive _ _ => exact (execFlitAckReceive_keeps _ _ s).imp fun _ x => ⟨x.1, x.2.sound⟩
  | flitNakReceive _ _ => exact (execFlitNakReceive_keeps _ _ s).imp fun _ x => ⟨x.1, x.2.sound⟩
  | ackTimer _ => exact (execAckTimer_keeps _ s).imp fun _ x => ⟨x.1, x.2.sound⟩
  | replayTimeout _ => exact (execReplayTimeout_keeps _ s).imp fun _ x => ⟨x.1, x.2.sound⟩
  | sealGroupClose _ => exact (execSealGroupClose_keeps _ s).imp fun _ x => ⟨x.1, x.2.sound⟩
  | floodDetected _ => exact (execFloodDetected_keeps _ s).imp fun _ x => ⟨x.1, x.2.sound⟩
  | inboundEntryComplete _ _ => exact (execInboundEntryComplete_keeps _ _ s).imp fun _ x => ⟨x.1, x.2.sound⟩
  | hiveRoster => exact execHiveRoster_sound s
  | hivePortRetrain => exact execHivePortRetrain_sound s
  | hivePortUnfence => exact execHivePortUnfence_sound s
  | hivePortHold => exact execHivePortHold_sound s
  | hiveKeySwitch => exact execHiveKeySwitch_sound s
  | queryHl => exact execQueryHl_sound s
  | inflowWriteTlp _ _ _ => exact execInflowWriteTlp_sound _ _ _ s
  | flushNow => exact (execFlushNow_keeps s).imp fun _ x => ⟨x.1, x.2.sound⟩
  | flushPkt => exact (execFlushPkt_keeps s).imp fun _ x => ⟨x.1, x.2.sound⟩
  | flushPktComplete => exact (execFlushPktComplete_keeps s).imp fun _ x => ⟨x.1, x.2.sound⟩
  | completionBacklogDrain => exact (execCompletionBacklogDrain_keeps s).imp fun _ x => ⟨x.1, x.2.sound⟩
  | eventOverflowRecord => exact (execEventOverflowRecord_keeps s).imp fun _ x => ⟨x.1, x.2.sound⟩
  | ringEnable _ _ => exact (execRingEnable_keeps _ _ s).imp fun _ x => ⟨x.1, x.2.sound⟩
  | ringHeadWrite _ _ => exact (execRingHeadWrite_keeps _ _ s).imp fun _ x => ⟨x.1, x.2.sound⟩
  | ringSetupWrite _ _ _ => exact execRingSetupWrite_sound _ _ _ s
  | intmaskWrite _ => exact (execIntmaskWrite_keeps _ s).imp fun _ x => ⟨x.1, x.2.sound⟩
  | apertureRead _ _ => exact (execApertureRead_keeps _ _ s).imp fun _ x => ⟨x.1, x.2.sound⟩
  | apertureTimeout => exact (execApertureTimeout_keeps s).imp fun _ x => ⟨x.1, x.2.sound⟩
  | apertureWrite => exact (execApertureWrite_keeps s).imp fun _ x => ⟨x.1, x.2.sound⟩
  | combAperture => exact execCombAperture_sound s
  | queryHi => exact execQueryHi_sound s
  | pciPowerStateChange _ => exact (execPciPowerStateChange_keeps _ s).imp fun _ x => ⟨x.1, x.2.sound⟩
  | doorbellRing _ => exact execDoorbellRing_sound _ s
  | doorbellNext _ => exact execDoorbellNext_sound _ s
  | doorbellInvalid _ _ => exact execDoorbellInvalid_sound _ _ s
  | mailboxPageWrite _ _ _ => exact (execMailboxPageWrite_keeps _ _ _ s).imp fun _ x => ⟨x.1, x.2.sound⟩
  | smbusSetOffset _ _ => exact (execSmbusSetOffset_keeps _ _ s).imp fun _ x => ⟨x.1, x.2.sound⟩
  | smbusWrite _ _ => exact execSmbusWrite_sound _ _ s
  | smbusRead => exact (execSmbusRead_keeps s).imp fun _ x => ⟨x.1, x.2.sound⟩
  | smbusTimeout => exact (execSmbusTimeout_keeps s).imp fun _ x => ⟨x.1, x.2.sound⟩
  | uartWrite _ => exact execUartWrite_sound _ s
  | uartRead _ => exact (execUartRead_keeps _ s).imp fun _ x => ⟨x.1, x.2.sound⟩
  | uartBaud _ => exact (execUartBaud_keeps _ s).imp fun _ x => ⟨x.1, x.2.sound⟩
  | uartFrameTimeout => exact (execUartFrameTimeout_keeps s).imp fun _ x => ⟨x.1, x.2.sound⟩
  | uartBreak => exact (execUartBreak_keeps s).imp fun _ x => ⟨x.1, x.2.sound⟩
  | queryDevice => exact execQueryDevice_sound s
  | queryWg => exact execQueryWg_sound s
  | graftStage => exact execGraftStage_sound s
  | graftCommit => exact execGraftCommit_sound s
  | graftAbort => exact execGraftAbort_sound s
  | graftPhaseApply => exact execGraftPhaseApply_sound s
  | graftWaitLimit => exact execGraftWaitLimit_sound s
  | queryGraft => exact execQueryGraft_sound s
  | queryPresence => exact execQueryPresence_sound s
  | rjRead => exact execRjRead_sound s
  | rjMark => exact execRjMark_sound s
  | fwLoadBegin => exact execFwLoadBegin_sound s
  | fwLoadData => exact execFwLoadData_sound s
  | fwLoadFinish _ => exact execFwLoadFinish_sound _ s
  | fwLoadSessionTimeout => exact (execFwLoadSessionTimeout_keeps s).imp fun _ x => ⟨x.1, x.2.sound⟩
  | hiveKeyLoad => exact execHiveKeyLoad_sound s
  | hwErase => exact execHwErase_sound s
  | repairRead => exact execRepairRead_sound s
  | calOverrideSet => exact execCalOverrideSet_sound s
  | calOverrideRelease => exact execCalOverrideRelease_sound s
  | wg3Unseal => exact execWg3Unseal_sound s
  | wg3Seal => exact execWg3Seal_sound s
  | wg3UnsealExpiry => exact (execWg3UnsealExpiry_keeps s).imp fun _ x => ⟨x.1, x.2.sound⟩
  | reseal => exact execReseal_sound s
  | presenceSample _ => exact (execPresenceSample_keeps _ s).imp fun _ x => ⟨x.1, x.2.sound⟩
  | presenceQualified => exact (execPresenceQualified_keeps s).imp fun _ x => ⟨x.1, x.2.sound⟩
  | presenceWindowExpiry => exact (execPresenceWindowExpiry_keeps s).imp fun _ x => ⟨x.1, x.2.sound⟩
  | sealSample _ _ => exact (execSealSample_keeps _ _ s).imp fun _ x => ⟨x.1, x.2.sound⟩
  | sealBreak => exact (execSealBreak_keeps s).imp fun _ x => ⟨x.1, x.2.sound⟩
  | scrubPageStart _ => exact (execScrubPageStart_keeps _ s).imp fun _ x => ⟨x.1, x.2.sound⟩
  | regulatorRead _ => exact (execRegulatorRead_keeps _ s).imp fun _ x => ⟨x.1, x.2.sound⟩
  | regulatorFaultClear _ => exact (execRegulatorFaultClear_keeps _ s).imp fun _ x => ⟨x.1, x.2.sound⟩
  | telemetrySummary => exact (execTelemetrySummary_keeps s).imp fun _ x => ⟨x.1, x.2.sound⟩
  | heartwoodProgramComplete _ _ _ => exact execHeartwoodProgramComplete_sound _ _ _ s
  | blockReclaim => exact execBlockReclaim_sound s
  | heartwoodEraseComplete _ _ => exact (execHeartwoodEraseComplete_keeps _ _ s).imp fun _ x => ⟨x.1, x.2.sound⟩
  | heartwoodScanComplete _ => exact execHeartwoodScanComplete_sound _ s
  | heartwoodScanDeadline => exact execHeartwoodScanDeadline_sound s
  | hwRead => exact execHwRead_sound s
  | queryUs => exact execQueryUs_sound s
  | queryHw => exact execQueryHw_sound s
  | powerStateEntry => exact execPowerStateEntry_sound s
  | wakeComplete _ => exact (execWakeComplete_keeps _ s).imp fun _ x => ⟨x.1, x.2.sound⟩
  | thermalTrip _ _ => exact (execThermalTrip_keeps _ _ s).imp fun _ x => ⟨x.1, x.2.sound⟩
  | thermalTripRecovery => exact (execThermalTripRecovery_keeps s).imp fun _ x => ⟨x.1, x.2.sound⟩
  | pwrTolerance => exact execPwrTolerance_sound s
  | pwrLimit => exact execPwrLimit_sound s
  | queryPwr => exact execQueryPwr_sound s
  | jtagTapReset => cases h
  | jtagBypass => cases h
  | jtagIdcode => cases h
  | jtagSamplePreload _ _ => cases h
  | jtagExtest => cases h
  | jtagClamp => cases h
  | jtagHighz => cases h
  | dmaReadComplete _ => exact execDmaReadComplete_sound _ s
  | bootNorEraseComplete => exact execBootNorEraseComplete_sound s

end Sys2Proof.Machine
end

