-- ==== Sys2Proof/Laws/Ticks.lean ====
section
/-! SUPPORT. What leaves the beat number, the slot and the slot guard alone, as one relation, with the rules that chain it; the files
Ticks… say it once for each operation. -/

namespace Sys2Proof.Machine

set_option Elab.async false

open Sys2Proof

/-- The operation leaves the beat number, the slot and the slot guard alone. -/
structure Ticks (s t : State) : Prop where
  num : t.beat.num = s.beat.num
  slot : t.beat.slot = s.beat.slot
  guard : t.beat.guard = s.beat.guard

theorem Ticks.same {s : State} : Ticks s s := ⟨rfl, rfl, rfl⟩

theorem Ticks.trans {s t u : State} (h : Ticks s t) (k : Ticks t u) : Ticks s u := ⟨k.1.trans h.1, k.2.trans h.2, k.3.trans h.3⟩

theorem Ticks.sound {s t : State} (h : Ticks s t) : Ticks s t := h

theorem Ticks.foldl {α : Type} (f : State → α → State) (l : List α) (s : State) (h : ∀ s x, Ticks s (f s x)) :
    Ticks s (l.foldl f s) := by
  induction l generalizing s with
  | nil => exact Ticks.same
  | cons a r ih => exact (h s a).trans (ih (f s a))

theorem Ticks.forUpto (f : State → Nat → State) (n : Nat) (s : State) (h : ∀ s x, Ticks s (f s x)) :
    Ticks s (forUpto n f s) := Ticks.foldl f _ s h

theorem Ticks.ite {s a b : State} (c : Prop) [Decidable c] (ha : Ticks s a) (hb : Ticks s b) : Ticks s (if c then a else b) := by
  split
  · exact ha
  · exact hb

theorem Ticks.after {s t u : State} (k : Ticks t u) (h : Ticks s t) : Ticks s u := h.trans k

theorem Ticks.stepped {s a b : State} {c : Prop} [Decidable c] (k : Ticks a b) (h : Ticks s a) : Ticks s (if c then b else a) :=
  Ticks.ite c (h.trans k) h

theorem Ticks.elim {α : Type} {s a : State} {o : Option α} {f : α → State} (h : ∀ x, Ticks s (f x)) (ha : Ticks s a) : Ticks s (o.elim a f) := by
  cases o
  · exact ha
  · exact h _

theorem Ticks.step {s a b : State} {c : Prop} [Decidable c] (h : Ticks s a) (k : Ticks a b) : Ticks s (if c then b else a) :=
  Ticks.ite c (h.trans k) h

theorem Ticks.step' {s a b : State} {c : Prop} [Decidable c] (h : Ticks s a) (k : Ticks a b) : Ticks s (if c then a else b) :=
  Ticks.ite c h (h.trans k)

theorem Ticks.foldl2 {α β : Type} (f : β × State → α → β × State) (l : List α) (p : β × State) (h : ∀ p x, Ticks p.2 (f p x).2) :
    Ticks p.2 (l.foldl f p).2 := by
  induction l generalizing p with
  | nil => exact Ticks.same
  | cons a r ih => exact (h p a).trans (ih (f p a))

theorem Ticks.foldl1 {α β : Type} (f : State × β → α → State × β) (l : List α) (p : State × β) (h : ∀ p x, Ticks p.1 (f p x).1) :
    Ticks p.1 (l.foldl f p).1 := by
  induction l generalizing p with
  | nil => exact Ticks.same
  | cons a r ih => exact (h p a).trans (ih (f p a))

/-- A record update that leaves these fields alone. -/
theorem Ticks.upd {s t : State} {p n syn be cm qu sm x bl so ar hl hi w gr rj us hw pw jt f} (h : Ticks s t)
    (h1 : be.num = t.beat.num := by with_reducible rfl) (h2 : be.slot = t.beat.slot := by with_reducible rfl)
    (h3 : be.guard = t.beat.guard := by with_reducible rfl) :
    Ticks s ⟨p, n, syn, be, cm, qu, sm, x, bl, so, ar, hl, hi, w, gr, rj, us, hw, pw, jt, f⟩ :=
  h.trans ⟨h1, h2, h3⟩

end Sys2Proof.Machine
end

