-- ==== Sys2Proof/Laws/TicksOps.lean ====
section
/-! SUPPORT. What each operation of Ops, Synth, Phase, Comb, Quad does to the beat number, the slot and the guard: nothing. -/

namespace Sys2Proof.Machine

set_option Elab.async false

open Sys2Proof

/- Ops.lean. -/

theorem onQuad_ticks (s : State) (q : Nat) (f : QuadSt → QuadSt) : Ticks s (onQuad s q f) := by
  unfold onQuad
  exact Ticks.upd Ticks.same

theorem onCtx_ticks (s : State) (c : Nat) (f : PlanCtx → PlanCtx) : Ticks s (onCtx s c f) := by
  unfold onCtx
  exact Ticks.upd Ticks.same

theorem onPort_ticks (s : State) (p : Nat) (f : Port → Port) : Ticks s (onPort s p f) := by
  unfold onPort
  exact Ticks.upd Ticks.same

theorem onArb_ticks (s : State) (q : Nat) (f : Arb → Arb) : Ticks s (onArb s q f) := by
  unfold onArb
  exact Ticks.upd Ticks.same

theorem onMb_ticks (s : State) (m : Nat) (f : Mbox → Mbox) : Ticks s (onMb s m f) := by
  unfold onMb
  exact Ticks.upd Ticks.same

theorem onStream_ticks (s : State) (i : Nat) (f : StreamEnt → StreamEnt) : Ticks s (onStream s i f) := by
  unfold onStream
  exact Ticks.upd Ticks.same

theorem onSo_ticks (s : State) (i : Nat) (f : SoObj → SoObj) : Ticks s (onSo s i f) := by
  unfold onSo
  exact Ticks.upd Ticks.same

theorem onBl_ticks (s : State) (i : Nat) (f : BlEntry → BlEntry) : Ticks s (onBl s i f) := by
  unfold onBl
  exact Ticks.upd Ticks.same

theorem onLoop_ticks (s : State) (l : Loop) (f : LoopSt → LoopSt) : Ticks s (onLoop s l f) := by
  unfold onLoop
  with_reducible repeat' first | (refine Ticks.upd ?_; exact Ticks.same) | split

theorem combWrite_ticks (s : State) (a : Nat) (l : List Byte) : Ticks s (combWrite s a l) :=
  ⟨rfl, rfl, rfl⟩

theorem xmWrite_ticks (s : State) (a : Nat) (l : List Byte) : Ticks s (xmWrite s a l) :=
  ⟨rfl, rfl, rfl⟩

theorem xmPoison_ticks (s : State) (a n : Nat) (b : Bool) : Ticks s (xmPoison s a n b) := by
  unfold xmPoison
  with_reducible repeat' first | (refine Ticks.upd ?_; exact Ticks.same) | split

theorem takeFree_ticks (s : State) (w : Nat) : Ticks s (takeFree s w).2 := by
  unfold takeFree
  exact Ticks.upd Ticks.same

theorem signal_ticks (s : State) (v : Nat) : Ticks s (signal s v) := by
  unfold signal
  with_reducible repeat' first | (refine Ticks.upd ?_; exact Ticks.same) | split

theorem signalPending_ticks (s : State) : Ticks s (signalPending s) := by
  unfold signalPending
  with_reducible repeat' first
    | exact Ticks.same
    | (apply Ticks.after; apply signal_ticks)
    | (apply Ticks.after; apply Ticks.foldl; intro s x)
    | split

theorem hostMemWrite_ticks (s : State) (a : Nat) (l : List Byte) : Ticks s (hostMemWrite s a l) := by
  unfold hostMemWrite
  exact Ticks.upd Ticks.same

theorem evrPut_ticks (s : State) (e : Event) : Ticks s (evrPut s e) := by
  unfold evrPut
  with_reducible repeat' first
    | (apply Ticks.after; first | apply signal_ticks | apply hostMemWrite_ticks)
    | (refine Ticks.upd ?_; first | exact Ticks.same | (apply Ticks.after; first | apply signal_ticks | apply hostMemWrite_ticks))
    | split

theorem evrOverflow_ticks (s : State) : Ticks s (evrOverflow s) := by
  unfold evrOverflow
  with_reducible repeat' first
    | (apply Ticks.after; apply evrPut_ticks)
    | (refine Ticks.upd ?_; first | exact Ticks.same | (apply Ticks.after; apply evrPut_ticks))
    | split

theorem evrEmit_ticks (s : State) (e : Event) : Ticks s (evrEmit s e) := by
  unfold evrEmit
  with_reducible repeat' first
    | (apply Ticks.after; first | apply evrPut_ticks | apply evrOverflow_ticks)
    | (refine Ticks.upd ?_; first | exact Ticks.same | (apply Ticks.after; first | apply evrPut_ticks | apply evrOverflow_ticks))
    | apply Ticks.ite

theorem bootqAdd_ticks (s : State) (e : Event) : Ticks s (bootqAdd s e) := by
  unfold bootqAdd
  with_reducible repeat' first | (refine Ticks.upd ?_; exact Ticks.same) | split

theorem bootqDeliver_ticks (s : State) : Ticks s (bootqDeliver s) := by
  unfold bootqDeliver
  with_reducible repeat' first
    | (apply Ticks.after; first | apply evrOverflow_ticks | apply evrEmit_ticks)
    | (apply Ticks.after; apply Ticks.foldl; intro s x)
    | (refine Ticks.upd ?_; first | exact Ticks.same | (apply Ticks.after; apply Ticks.foldl; intro s x))
    | split

theorem toRing_ticks (s : State) (e : Event) : Ticks s (toRing s e) := by
  unfold toRing
  with_reducible repeat' first
    | exact Ticks.same
    | (apply Ticks.after; first | apply evrEmit_ticks | apply bootqAdd_ticks | apply bootqDeliver_ticks)
    | split

theorem raiseRing_ticks (s : State) (beat code : Nat) (sev : Sev) (detail : Nat) : Ticks s (raiseRing s beat code sev detail) := by
  unfold raiseRing
  with_reducible repeat' first | (apply Ticks.after; apply toRing_ticks) | (refine Ticks.upd ?_; exact Ticks.same)

theorem hwLose_ticks (s : State) (n : Nat) : Ticks s (hwLose s n) := by
  unfold hwLose
  exact Ticks.upd Ticks.same

theorem hwHoldState_ticks (s : State) (r : HwPend) : Ticks s (hwHoldState s r) := by
  unfold hwHoldState
  exact Ticks.upd Ticks.same

theorem hwState_ticks (s : State) (typ : Nat) (payload : List Byte) : Ticks s (hwState s typ payload) := by
  unfold hwState
  with_reducible repeat' first | (apply Ticks.after; apply hwHoldState_ticks) | (refine Ticks.upd ?_; exact Ticks.same) | split

theorem hwEvent_ticks (s : State) (e : Event) : Ticks s (hwEvent s e) := by
  unfold hwEvent
  with_reducible repeat' first
    | (apply Ticks.after; first | apply raiseRing_ticks | apply hwLose_ticks | apply hwHoldState_ticks)
    | (refine Ticks.upd ?_; exact Ticks.same)
    | apply Ticks.ite
    | split

theorem raiseAt_ticks (s : State) (beat code : Nat) (sev : Sev) (detail : Nat) : Ticks s (raiseAt s beat code sev detail) := by
  unfold raiseAt
  with_reducible repeat' first
    | exact Ticks.same
    | (apply Ticks.after; first | apply raiseRing_ticks | apply hwEvent_ticks)
    | split

theorem raise_ticks (s : State) (code : Nat) (sev : Sev) (detail : Nat) : Ticks s (raise s code sev detail) := by
  unfold raise
  with_reducible repeat' first | exact Ticks.same | (apply Ticks.after; apply raiseAt_ticks)

theorem hwMirrors_ticks (s : State) : Ticks s (hwMirrors s) := by
  unfold hwMirrors
  with_reducible repeat' first
    | (apply Ticks.after; apply Ticks.foldl; intro s x)
    | (refine Ticks.upd ?_; exact Ticks.same)
    | split

/-- Writing a journal entry keeps the invariant where its SEQ lies below the next one. -/
theorem jWrite_ticks (s : State) (e : JEntry) : Ticks s (jWrite s e) := by
  unfold jWrite
  exact Ticks.after (hwMirrors_ticks _) ⟨rfl, rfl, rfl⟩

theorem takeSeq_ticks (s : State) : Ticks s (takeSeq s).2 :=
  ⟨rfl, rfl, rfl⟩

theorem jKeeper_ticks (s : State) (source : Nat) (cls : CmdClass) (op outcome phase beat digest link effect : Nat) :
    Ticks s (jKeeper s source cls op outcome phase beat digest link effect) := by
  unfold jKeeper
  exact (takeSeq_ticks s).trans (jWrite_ticks _ _)

theorem cprPut_ticks (s : State) (c : Completion) : Ticks s (cprPut s c) := by
  unfold cprPut
  with_reducible repeat' first
    | (apply Ticks.after; apply hostMemWrite_ticks)
    | (refine Ticks.upd ?_; first | exact Ticks.same | (apply Ticks.after; apply hostMemWrite_ticks))

theorem setBacklog_ticks (s : State) (l : List Completion) : Ticks s (setBacklog s l) := by
  unfold setBacklog
  with_reducible repeat' first
    | exact Ticks.same
    | (refine Ticks.upd ?_; first | exact Ticks.same | apply Ticks.ite | split)

theorem complete_ticks (s : State) (c : Completion) : Ticks s (complete s c) := by
  unfold complete
  with_reducible repeat' first
    | exact Ticks.same
    | (apply Ticks.after; first | apply raise_ticks | apply cprPut_ticks | apply setBacklog_ticks)
    | apply Ticks.ite
    | split

theorem drainBacklog_ticks (n : Nat) (s : State) : Ticks s (drainBacklog n s) := by
  induction n generalizing s with
  | zero => exact Ticks.same
  | succ n ih =>
    unfold drainBacklog; split
    · exact Ticks.same
    · split
      · exact Ticks.trans (Ticks.trans (Ticks.upd Ticks.same) (cprPut_ticks _ _)) (ih _)
      · exact Ticks.same

theorem atEdge_ticks (s : State) (f : State → Nat → State) : Ticks s (atEdge s f) := ⟨rfl, rfl, rfl⟩

/- Synth.lean. -/

theorem seeRefs_ticks (s : State) (hiveOk localOk : Bool) : Ticks s (seeRefs s hiveOk localOk) := by
  unfold seeRefs
  with_reducible repeat' first
    | exact Ticks.same
    | (refine Ticks.upd ?_; first | exact Ticks.same | apply Ticks.ite | split)

theorem checkRefs_ticks (s : State) : Ticks s (checkRefs s) := by
  unfold checkRefs
  with_reducible repeat' first
    | exact Ticks.same
    | (refine Ticks.upd ?_; first | exact Ticks.same | apply Ticks.ite | split)

theorem setDrive_ticks (s : State) (d : CoreSrc) : Ticks s (setDrive s d) := by
  unfold setDrive
  with_reducible repeat' first
    | exact Ticks.same
    | (refine Ticks.upd ?_; first | exact Ticks.same | apply Ticks.ite | split | (refine Ticks.upd ?_; first | exact Ticks.same))
    | apply Ticks.ite
    | split

theorem profPut_ticks (s : State) (l : Loop) (i : Nat) (p : Profile) : Ticks s (profPut s l i p) := by
  unfold profPut
  with_reducible repeat' first
    | exact Ticks.same
    | (refine Ticks.upd ?_; first | exact Ticks.same | apply Ticks.ite | split | (refine Ticks.upd ?_; first | exact Ticks.same))
    | split

theorem setProf_ticks (s : State) (l : Loop) (i : Nat) (p : Profile) : Ticks s (setProf s l i p) := by
  unfold setProf
  with_reducible repeat' first
    | exact Ticks.same
    | (apply Ticks.after; apply profPut_ticks)
    | (refine Ticks.upd ?_; first | exact Ticks.same | (apply Ticks.after; apply profPut_ticks) | apply Ticks.ite | split | (refine Ticks.upd ?_; first | exact Ticks.same | (apply Ticks.after; apply profPut_ticks)))
    | apply Ticks.ite
    | split

theorem onProf_ticks (s : State) (l : Loop) (i : Nat) (f : Profile → Profile) : Ticks s (onProf s l i f) := by
  unfold onProf
  with_reducible repeat' first | exact Ticks.same | (apply Ticks.after; apply setProf_ticks)

theorem profFlush_ticks (s : State) : Ticks s (profFlush s) := by
  unfold profFlush
  with_reducible repeat' first
    | exact Ticks.same
    | (apply Ticks.after; apply setProf_ticks)
    | (apply Ticks.after; apply Ticks.foldl; intro s x)
    | apply Ticks.ite
    | split

theorem bandTo_ticks (s : State) (l : Loop) (i band : Nat) : Ticks s (bandTo s l i band) := by
  unfold bandTo
  with_reducible repeat' first | exact Ticks.same | (apply Ticks.after; apply onProf_ticks)

theorem undoStep_ticks (s : State) (l : Loop) : Ticks s (undoStep s l) := by
  unfold undoStep
  with_reducible repeat' first
    | exact Ticks.same
    | (apply Ticks.after; first | apply onLoop_ticks | apply bandTo_ticks)
    | (refine Ticks.upd ?_; first | exact Ticks.same | (apply Ticks.after; first | apply onLoop_ticks | apply bandTo_ticks) | apply Ticks.ite | split | (refine Ticks.upd ?_; first | exact Ticks.same | (apply Ticks.after; first | apply onLoop_ticks | apply bandTo_ticks)))
    | split

theorem bandDue_ticks (s : State) (l : Loop) (prof : Nat) : Ticks s (bandDue s l prof) := by
  unfold bandDue
  with_reducible repeat' first
    | exact Ticks.same
    | (apply Ticks.after; first | apply onLoop_ticks | apply bandTo_ticks)
    | (refine Ticks.upd ?_; first | exact Ticks.same | (apply Ticks.after; first | apply onLoop_ticks | apply bandTo_ticks) | apply Ticks.ite | split | (refine Ticks.upd ?_; first | exact Ticks.same | (apply Ticks.after; first | apply onLoop_ticks | apply bandTo_ticks)))
    | split

theorem overrideDue_ticks (s : State) (l : Loop) (prof : Nat) : Ticks s (overrideDue s l prof) := by
  unfold overrideDue
  with_reducible repeat' first
    | exact Ticks.same
    | (apply Ticks.after; first | apply onProf_ticks | apply bandTo_ticks)
    | (refine Ticks.upd ?_; first | exact Ticks.same | (apply Ticks.after; first | apply onProf_ticks | apply bandTo_ticks) | apply Ticks.ite | split | (refine Ticks.upd ?_; first | exact Ticks.same | (apply Ticks.after; first | apply onProf_ticks | apply bandTo_ticks)))
    | split

theorem retarget_ticks (s : State) (l : Loop) (prof : Nat) (why : LoopPurpose) (slot : Option Nat) : Ticks s (retarget s l prof why slot) := by
  unfold retarget
  with_reducible repeat' first
    | exact Ticks.same
    | (apply Ticks.after; first | apply onLoop_ticks | apply undoStep_ticks | apply bandDue_ticks | apply overrideDue_ticks)
    | (refine Ticks.upd ?_; first | exact Ticks.same | (apply Ticks.after; first | apply onLoop_ticks | apply undoStep_ticks | apply bandDue_ticks | apply overrideDue_ticks) | apply Ticks.ite | split)

theorem prelockOn_ticks (s : State) (l : Loop) (slot : Nat) : Ticks s (prelockOn s l slot) := by
  unfold prelockOn
  with_reducible repeat' first
    | exact Ticks.same
    | (apply Ticks.after; first | apply onLoop_ticks | apply retarget_ticks)
    | (refine Ticks.upd ?_; first | exact Ticks.same | (apply Ticks.after; first | apply onLoop_ticks | apply retarget_ticks) | apply Ticks.ite | split | (refine Ticks.upd ?_; first | exact Ticks.same | (apply Ticks.after; first | apply onLoop_ticks | apply retarget_ticks)))
    | split

theorem prelockNext_ticks (s : State) (slot : Nat) : Ticks s (prelockNext s slot) := by
  unfold prelockNext
  with_reducible repeat' first
    | exact Ticks.same
    | (apply Ticks.after; apply prelockOn_ticks)
    | (refine Ticks.upd ?_; first | exact Ticks.same | (apply Ticks.after; apply prelockOn_ticks) | apply Ticks.ite | split)
    | split

theorem ensureNext_ticks (s : State) (slot : Nat) : Ticks s (ensureNext s slot) := by
  unfold ensureNext
  with_reducible repeat' first
    | exact Ticks.same
    | (apply Ticks.after; first | apply onLoop_ticks | apply retarget_ticks)
    | (refine Ticks.upd ?_; first | exact Ticks.same | (apply Ticks.after; first | apply onLoop_ticks | apply retarget_ticks) | apply Ticks.ite | split | (refine Ticks.upd ?_; first | exact Ticks.same | (apply Ticks.after; first | apply onLoop_ticks | apply retarget_ticks)))
    | apply Ticks.ite
    | split

theorem afterTable_ticks (s : State) (slot : Nat) : Ticks s (afterTable s slot) := by
  unfold afterTable
  with_reducible repeat' first
    | exact Ticks.same
    | (apply Ticks.after; apply ensureNext_ticks)
    | (refine Ticks.upd ?_; first | exact Ticks.same | (apply Ticks.after; apply ensureNext_ticks) | apply Ticks.ite | split | (refine Ticks.upd ?_; first | exact Ticks.same | (apply Ticks.after; apply ensureNext_ticks)))
    | apply Ticks.ite
    | split

theorem settleIdle_ticks (s : State) : Ticks s (settleIdle s) := by
  unfold settleIdle
  with_reducible repeat' first
    | exact Ticks.same
    | (apply Ticks.after; apply ensureNext_ticks)
    | (refine Ticks.upd ?_; first | exact Ticks.same | (apply Ticks.after; apply ensureNext_ticks) | apply Ticks.ite | split)
    | apply Ticks.ite
    | split

theorem driveLoop_ticks (s : State) (l : Loop) : Ticks s (driveLoop s l) := by
  unfold driveLoop
  with_reducible repeat' first
    | exact Ticks.same
    | (apply Ticks.after; first | apply onLoop_ticks | apply setDrive_ticks | apply profFlush_ticks)
    | (refine Ticks.upd ?_; first | exact Ticks.same | (apply Ticks.after; first | apply onLoop_ticks | apply setDrive_ticks | apply profFlush_ticks) | apply Ticks.ite | split | (refine Ticks.upd ?_; first | exact Ticks.same | (apply Ticks.after; first | apply onLoop_ticks | apply setDrive_ticks | apply profFlush_ticks)))

theorem swapTo_ticks (s : State) (l : Loop) (slot : Nat) : Ticks s (swapTo s l slot) := by
  unfold swapTo
  with_reducible repeat' first
    | exact Ticks.same
    | (apply Ticks.after; first | apply prelockNext_ticks | apply driveLoop_ticks)
    | apply Ticks.ite
    | split

theorem swapSafe_ticks (s : State) : Ticks s (swapSafe s) := by
  unfold swapSafe
  with_reducible repeat' first
    | exact Ticks.same
    | (apply Ticks.after; first | apply setDrive_ticks | apply profFlush_ticks)
    | (refine Ticks.upd ?_; first | exact Ticks.same | (apply Ticks.after; first | apply setDrive_ticks | apply profFlush_ticks) | apply Ticks.ite | split | (refine Ticks.upd ?_; first | exact Ticks.same | (apply Ticks.after; first | apply setDrive_ticks | apply profFlush_ticks)))
    | apply Ticks.ite
    | split

theorem cancelHop_ticks (s : State) (lo : Option Loop) (slot prof : Nat) : Ticks s (cancelHop s lo slot prof) := by
  unfold cancelHop
  with_reducible repeat' first
    | exact Ticks.same
    | (apply Ticks.after; first | apply raise_ticks | apply undoStep_ticks | apply retarget_ticks | apply prelockOn_ticks)
    | (refine Ticks.upd ?_; first | exact Ticks.same | (apply Ticks.after; first | apply raise_ticks | apply undoStep_ticks | apply retarget_ticks | apply prelockOn_ticks) | apply Ticks.ite | split | (refine Ticks.upd ?_; first | exact Ticks.same | (apply Ticks.after; first | apply raise_ticks | apply undoStep_ticks | apply retarget_ticks | apply prelockOn_ticks)))
    | apply Ticks.ite
    | split

theorem clearSkip_ticks (s : State) (slot : Nat) : Ticks s (clearSkip s slot) := by
  unfold clearSkip
  with_reducible repeat' first
    | exact Ticks.same
    | (refine Ticks.upd ?_; first | exact Ticks.same | apply Ticks.ite | split)
    | apply Ticks.ite
    | split

theorem hopGuard_ticks (s : State) (slot prof : Nat) : Ticks s (hopGuard s slot prof) := by
  unfold hopGuard
  with_reducible repeat' first
    | exact Ticks.same
    | (apply Ticks.after; first | apply swapTo_ticks | apply cancelHop_ticks)
    | (refine Ticks.upd ?_; first | exact Ticks.same | (apply Ticks.after; first | apply swapTo_ticks | apply cancelHop_ticks) | apply Ticks.ite | split | (refine Ticks.upd ?_; first | exact Ticks.same | (apply Ticks.after; first | apply swapTo_ticks | apply cancelHop_ticks)))
    | apply Ticks.ite
    | split

theorem lateHopSwap_ticks (s : State) (slot : Nat) : Ticks s (lateHopSwap s slot) := by
  unfold lateHopSwap
  with_reducible repeat' first
    | (apply Ticks.after; apply swapTo_ticks)
    | (refine Ticks.upd ?_; first | exact Ticks.same | (apply Ticks.after; apply swapTo_ticks))
    | split

theorem prelockStep_ticks (s : State) (l : Loop) (high : Bool) : Ticks s (prelockStep s l high) := by
  unfold prelockStep
  with_reducible repeat' first
    | exact Ticks.same
    | (apply Ticks.after; first | apply onLoop_ticks | apply bandTo_ticks)
    | (refine Ticks.upd ?_; first | exact Ticks.same | (apply Ticks.after; first | apply onLoop_ticks | apply bandTo_ticks) | apply Ticks.ite | split)

theorem baseFailed_ticks (s : State) (l : Loop) : Ticks s (baseFailed s l) := by
  unfold baseFailed
  with_reducible repeat' first
    | exact Ticks.same
    | (apply Ticks.after; first | apply onLoop_ticks | apply raise_ticks)
    | (refine Ticks.upd ?_; first | exact Ticks.same | (apply Ticks.after; first | apply onLoop_ticks | apply raise_ticks) | apply Ticks.ite | split)

theorem prelockGone_ticks (s : State) (l : Loop) : Ticks s (prelockGone s l) := by
  unfold prelockGone
  with_reducible repeat' first
    | exact Ticks.same
    | (apply Ticks.after; first | apply onLoop_ticks | apply raise_ticks | apply undoStep_ticks | apply retarget_ticks | apply prelockOn_ticks | apply cancelHop_ticks | apply baseFailed_ticks)
    | (refine Ticks.upd ?_; first | exact Ticks.same | (apply Ticks.after; first | apply onLoop_ticks | apply raise_ticks | apply undoStep_ticks | apply retarget_ticks | apply prelockOn_ticks | apply cancelHop_ticks | apply baseFailed_ticks) | apply Ticks.ite | split | (refine Ticks.upd ?_; first | exact Ticks.same | (apply Ticks.after; first | apply onLoop_ticks | apply raise_ticks | apply undoStep_ticks | apply retarget_ticks | apply prelockOn_ticks | apply cancelHop_ticks | apply baseFailed_ticks)))
    | apply Ticks.ite
    | split

theorem prelockFailed_ticks (s : State) (l : Loop) : Ticks s (prelockFailed s l) := by
  unfold prelockFailed
  with_reducible repeat' first
    | exact Ticks.same
    | (apply Ticks.after; first | apply prelockStep_ticks | apply prelockGone_ticks)
    | (refine Ticks.upd ?_; first | exact Ticks.same | (apply Ticks.after; first | apply prelockStep_ticks | apply prelockGone_ticks) | apply Ticks.ite | split)
    | split

theorem lockBase_ticks (s : State) : Ticks s (lockBase s) := by
  unfold lockBase
  with_reducible repeat' first | exact Ticks.same | (apply Ticks.after; apply retarget_ticks) | split

theorem prelockRetries_ticks (s : State) : Ticks s (prelockRetries s) := by
  unfold prelockRetries
  with_reducible repeat' first
    | exact Ticks.same
    | (apply Ticks.after; apply retarget_ticks)
    | (apply Ticks.after; apply Ticks.foldl; intro s x)
    | (refine Ticks.upd ?_; first | exact Ticks.same | (apply Ticks.after; apply retarget_ticks) | (apply Ticks.after; apply Ticks.foldl; intro s x) | apply Ticks.ite | split | (refine Ticks.upd ?_; first | exact Ticks.same | (apply Ticks.after; apply retarget_ticks)))
    | apply Ticks.ite
    | split

theorem baseSwapAtEdge_ticks (s : State) : Ticks s (baseSwapAtEdge s) := by
  unfold baseSwapAtEdge
  with_reducible repeat' first
    | exact Ticks.same
    | (apply Ticks.after; apply swapTo_ticks)
    | (refine Ticks.upd ?_; first | exact Ticks.same | (apply Ticks.after; apply swapTo_ticks) | apply Ticks.ite | split)
    | apply Ticks.ite
    | split

theorem pumpStep_ticks (s : State) : Ticks s (pumpStep s) := by
  unfold pumpStep
  with_reducible repeat' first | (refine Ticks.upd ?_; exact Ticks.same) | split

theorem loopOut_ticks (s : State) (l : Loop) : Ticks s (loopOut s l) := by
  unfold loopOut
  with_reducible repeat' first | exact Ticks.same | (apply Ticks.after; first | apply onLoop_ticks | apply raise_ticks)

theorem relockFailed_ticks (s : State) (l : Loop) : Ticks s (relockFailed s l) := by
  unfold relockFailed
  with_reducible repeat' first
    | exact Ticks.same
    | (apply Ticks.after; first | apply retarget_ticks | apply prelockOn_ticks)
    | (refine Ticks.upd ?_; first | exact Ticks.same | (apply Ticks.after; first | apply retarget_ticks | apply prelockOn_ticks) | apply Ticks.ite | split)
    | apply Ticks.ite
    | split

theorem emergencySwap_ticks (s : State) (l : Loop) : Ticks s (emergencySwap s l) := by
  unfold emergencySwap
  with_reducible repeat' first
    | exact Ticks.same
    | (apply Ticks.after; first | apply raise_ticks | apply driveLoop_ticks | apply swapSafe_ticks | apply relockFailed_ticks)
    | apply Ticks.ite
    | split

theorem lossOfLock_ticks (s : State) (l : Loop) : Ticks s (lossOfLock s l) := by
  unfold lossOfLock
  with_reducible repeat' first
    | (apply Ticks.after; first | apply onLoop_ticks | apply raise_ticks | apply loopOut_ticks | apply emergencySwap_ticks)
    | (refine Ticks.upd ?_; first | exact Ticks.same | (apply Ticks.after; first | apply onLoop_ticks | apply raise_ticks | apply loopOut_ticks | apply emergencySwap_ticks))
    | apply Ticks.ite
    | split

theorem execLossOfLock_ticks (l : Loop) (s : State) : ∃ s', execLossOfLock l s = .next s' ∧ Ticks s s' := by
  refine ⟨_, rfl, ?_⟩
  with_reducible repeat' first | exact Ticks.same | (apply Ticks.after; apply lossOfLock_ticks)

theorem phaseWindowViolation_ticks (s : State) (l : Loop) (cycle : Nat) : Ticks s (phaseWindowViolation s l cycle) := by
  unfold phaseWindowViolation
  with_reducible repeat' first
    | (apply Ticks.after; apply onLoop_ticks)
    | (refine Ticks.upd ?_; first | exact Ticks.same | (apply Ticks.after; apply onLoop_ticks))
    | split

theorem execPhaseWindowViolation_ticks (l : Loop) (cycle : Nat) (s : State) : ∃ s', execPhaseWindowViolation l cycle s = .next s' ∧ Ticks s s' := by
  refine ⟨_, rfl, ?_⟩
  with_reducible repeat' first | exact Ticks.same | (apply Ticks.after; apply phaseWindowViolation_ticks)

theorem prelockTimeout_ticks (s : State) (l : Loop) : Ticks s (prelockTimeout s l) := by
  unfold prelockTimeout
  with_reducible repeat' first
    | exact Ticks.same
    | (apply Ticks.after; apply prelockFailed_ticks)
    | apply Ticks.ite
    | split

theorem execPrelockTimeout_ticks (l : Loop) (s : State) : ∃ s', execPrelockTimeout l s = .next s' ∧ Ticks s s' := by
  refine ⟨_, rfl, ?_⟩
  with_reducible repeat' first | exact Ticks.same | (apply Ticks.after; apply prelockTimeout_ticks)

theorem noteRetarget_ticks (s : State) (l : Loop) (prof : Nat) (high : Bool) : Ticks s (noteRetarget s l prof high) := by
  unfold noteRetarget
  with_reducible repeat' first
    | exact Ticks.same
    | (apply Ticks.after; apply onLoop_ticks)
    | (refine Ticks.upd ?_; first | exact Ticks.same | (apply Ticks.after; apply onLoop_ticks) | apply Ticks.ite | split)
    | apply Ticks.ite
    | split

theorem idleFlag_ticks (s : State) (l : Loop) (high : Bool) : Ticks s (idleFlag s l high) := by
  unfold idleFlag
  with_reducible repeat' first
    | exact Ticks.same
    | (apply Ticks.after; first | apply onLoop_ticks | apply raise_ticks | apply noteRetarget_ticks)
    | (refine Ticks.upd ?_; first | exact Ticks.same | (apply Ticks.after; first | apply onLoop_ticks | apply raise_ticks | apply noteRetarget_ticks) | apply Ticks.ite | split | (refine Ticks.upd ?_; first | exact Ticks.same | (apply Ticks.after; first | apply onLoop_ticks | apply raise_ticks | apply noteRetarget_ticks)))
    | apply Ticks.ite
    | split

theorem vtCrossing_ticks (s : State) (l : Loop) (high : Bool) : Ticks s (vtCrossing s l high) := by
  unfold vtCrossing
  with_reducible repeat' first
    | exact Ticks.same
    | (apply Ticks.after; first | apply onLoop_ticks | apply raise_ticks | apply noteRetarget_ticks | apply idleFlag_ticks)
    | (refine Ticks.upd ?_; first | exact Ticks.same | (apply Ticks.after; first | apply onLoop_ticks | apply raise_ticks | apply noteRetarget_ticks | apply idleFlag_ticks) | apply Ticks.ite | split | (refine Ticks.upd ?_; first | exact Ticks.same | (apply Ticks.after; first | apply onLoop_ticks | apply raise_ticks | apply noteRetarget_ticks | apply idleFlag_ticks)))
    | apply Ticks.ite
    | split

theorem execVtComplianceCrossing_ticks (l : Loop) (high : Bool) (s : State) : ∃ s', execVtComplianceCrossing l high s = .next s' ∧ Ticks s s' := by
  refine ⟨_, rfl, ?_⟩
  with_reducible repeat' first | exact Ticks.same | (apply Ticks.after; apply vtCrossing_ticks)

theorem coreLocked_ticks (s : State) (l : Loop) (vt : Nat) : Ticks s (coreLocked s l vt) := by
  unfold coreLocked
  with_reducible repeat' first
    | exact Ticks.same
    | (apply Ticks.after; first | apply onLoop_ticks | apply onProf_ticks)
    | (refine Ticks.upd ?_; first | exact Ticks.same | (apply Ticks.after; first | apply onLoop_ticks | apply onProf_ticks) | apply Ticks.ite | split | (refine Ticks.upd ?_; first | exact Ticks.same | (apply Ticks.after; first | apply onLoop_ticks | apply onProf_ticks)))
    | apply Ticks.ite
    | split

/- Phase.lean. -/

theorem takeSamples_ticks (s : State) : Ticks s (takeSamples s) := by
  unfold takeSamples
  with_reducible repeat' first
    | exact Ticks.same
    | (refine Ticks.upd ?_; first | exact Ticks.same | apply Ticks.ite | split)
    | apply Ticks.ite
    | split

theorem clearWindow_ticks (s : State) : Ticks s (clearWindow s) := by
  unfold clearWindow
  exact Ticks.upd Ticks.same

theorem noPortx_ticks (s : State) : Ticks s (noPortx s) := by
  unfold noPortx
  with_reducible repeat' first
    | exact Ticks.same
    | (refine Ticks.upd ?_; first | exact Ticks.same | apply Ticks.ite | split)

theorem estimate_ticks (s : State) : Ticks s (estimate s) := by
  unfold estimate
  with_reducible repeat' first
    | exact Ticks.same
    | (refine Ticks.upd ?_; first | exact Ticks.same | apply Ticks.ite | split)

theorem steerEdge_ticks (s : State) : Ticks s (steerEdge s) := by
  unfold steerEdge
  with_reducible repeat' first
    | exact Ticks.same
    | (refine Ticks.upd ?_; first | exact Ticks.same | apply Ticks.ite | split | (refine Ticks.upd ?_; first | exact Ticks.same))
    | apply Ticks.ite
    | split

theorem applySteer_ticks (s : State) (k : Nat) : Ticks s (applySteer s k) := by
  unfold applySteer
  with_reducible repeat' first
    | exact Ticks.same
    | (refine Ticks.upd ?_; first | exact Ticks.same | apply Ticks.ite | split)

theorem follow_ticks (s : State) (m : MarkerSt) : Ticks s (follow s m) := by
  unfold follow
  with_reducible repeat' first
    | exact Ticks.same
    | (apply Ticks.after; apply raise_ticks)
    | (refine Ticks.upd ?_; first | exact Ticks.same | (apply Ticks.after; apply raise_ticks) | apply Ticks.ite | split | (refine Ticks.upd ?_; first | exact Ticks.same | (apply Ticks.after; apply raise_ticks)))
    | apply Ticks.ite
    | split

theorem phaseState_ticks (s : State) : Ticks s (phaseState s) := by
  unfold phaseState
  with_reducible repeat' first
    | exact Ticks.same
    | (apply Ticks.after; first | apply raise_ticks | apply clearWindow_ticks | apply follow_ticks)
    | (apply Ticks.elim (fun _ => ?_) ?_)
    | (refine Ticks.upd ?_; first | exact Ticks.same | (apply Ticks.after; first | apply raise_ticks | apply clearWindow_ticks | apply follow_ticks) | apply Ticks.ite | split | (refine Ticks.upd ?_; first | exact Ticks.same | (apply Ticks.after; first | apply raise_ticks | apply clearWindow_ticks | apply follow_ticks)))
    | apply Ticks.ite
    | split

theorem phaseCounts_ticks (s : State) : Ticks s (phaseCounts s) := by
  unfold phaseCounts
  exact Ticks.upd Ticks.same

theorem phaseEdge_ticks (s : State) : Ticks s (phaseEdge s) := by
  unfold phaseEdge
  with_reducible repeat' first
    | exact Ticks.same
    | (apply Ticks.after; first | apply takeSamples_ticks | apply noPortx_ticks | apply estimate_ticks | apply steerEdge_ticks | apply phaseState_ticks | apply phaseCounts_ticks)
    | (refine Ticks.upd ?_; first | exact Ticks.same | (apply Ticks.after; first | apply takeSamples_ticks | apply noPortx_ticks | apply estimate_ticks | apply steerEdge_ticks | apply phaseState_ticks | apply phaseCounts_ticks) | apply Ticks.ite | split)
    | apply Ticks.ite
    | split

theorem refSwitch_ticks (s : State) (r : RefIn) (beat : Nat) : Ticks s (refSwitch s r beat) := by
  unfold refSwitch
  with_reducible repeat' first | (apply Ticks.after; apply raiseAt_ticks) | (refine Ticks.upd ?_; exact Ticks.same)

theorem holdoverEdge_ticks (s : State) (hiveOk localOk : Bool) : Ticks s (holdoverEdge s hiveOk localOk) := by
  unfold holdoverEdge
  with_reducible repeat' first
    | exact Ticks.same
    | (apply Ticks.after; first | apply seeRefs_ticks | apply checkRefs_ticks | apply refSwitch_ticks)
    | apply Ticks.ite
    | split

theorem invalidateAll_ticks (s : State) (cause : Nat) : Ticks s (invalidateAll s cause) := by
  unfold invalidateAll
  exact Ticks.upd Ticks.same

theorem markerTake_ticks (s : State) (p : Nat) (pay : List Byte) (a : Arrival) : Ticks s (markerTake s p pay a) := by
  unfold markerTake
  with_reducible repeat' first
    | exact Ticks.same
    | (apply Ticks.after; first | apply raise_ticks | apply invalidateAll_ticks)
    | (refine atEdge_ticks _ _ )
    | (apply Ticks.elim (fun _ => ?_) ?_)
    | (refine Ticks.upd ?_; first | exact Ticks.same | (apply Ticks.after; first | apply raise_ticks | apply invalidateAll_ticks) | apply Ticks.ite | split | (refine Ticks.upd ?_; first | exact Ticks.same | (apply Ticks.after; first | apply raise_ticks | apply invalidateAll_ticks)))
    | apply Ticks.ite
    | split

theorem jumpEdge_ticks (s : State) : Ticks s (jumpEdge s) := by
  unfold jumpEdge
  with_reducible repeat' first
    | exact Ticks.same
    | (apply Ticks.after; apply clearWindow_ticks)
    | (refine Ticks.upd ?_; first | exact Ticks.same | (apply Ticks.after; apply clearWindow_ticks) | apply Ticks.ite | split | (refine Ticks.upd ?_; first | exact Ticks.same | (apply Ticks.after; apply clearWindow_ticks)))
    | split

theorem execPortExclusionLimit_ticks (p : PortId) (s : State) : ∃ s', execPortExclusionLimit p s = .next s' ∧ Ticks s s' := by
  refine ⟨_, rfl, ?_⟩
  with_reducible repeat' first | exact Ticks.same | (apply Ticks.after; apply raise_ticks) | split

theorem execSeekTimeout_ticks (s : State) : ∃ s', execSeekTimeout s = .next s' ∧ Ticks s s' := by
  refine ⟨_, rfl, ?_⟩
  with_reducible repeat' first | (apply Ticks.after; apply raise_ticks) | (refine Ticks.upd ?_; exact Ticks.same) | split

theorem execCoarseJump_ticks (s : State) : ∃ s', execCoarseJump s = .next s' ∧ Ticks s s' := by
  refine ⟨_, rfl, ?_⟩
  with_reducible repeat' first
    | exact Ticks.same
    | (apply Ticks.after; first | apply raise_ticks | apply clearWindow_ticks)
    | (refine atEdge_ticks _ _ )
    | (refine Ticks.upd ?_; first | exact Ticks.same | (apply Ticks.after; first | apply raise_ticks | apply clearWindow_ticks) | apply Ticks.ite | split | (refine Ticks.upd ?_; first | exact Ticks.same | (apply Ticks.after; first | apply raise_ticks | apply clearWindow_ticks)))
    | apply Ticks.ite
    | split

theorem execParentLost_ticks (s : State) : ∃ s', execParentLost s = .next s' ∧ Ticks s s' := by
  refine ⟨_, rfl, ?_⟩
  with_reducible repeat' first
    | exact Ticks.same
    | (apply Ticks.after; apply raise_ticks)
    | (refine Ticks.upd ?_; first | exact Ticks.same | (apply Ticks.after; apply raise_ticks) | apply Ticks.ite | split)
    | apply Ticks.ite
    | split

theorem execHoldTimeout_ticks (s : State) : ∃ s', execHoldTimeout s = .next s' ∧ Ticks s s' := by
  refine ⟨_, rfl, ?_⟩
  with_reducible repeat' first
    | exact Ticks.same
    | (refine Ticks.upd ?_; first | exact Ticks.same | apply Ticks.ite | split)
    | apply Ticks.ite
    | split

theorem masterLeaves_ticks (s : State) : Ticks s (masterLeaves s) := by
  unfold masterLeaves
  with_reducible repeat' first
    | exact Ticks.same
    | (refine Ticks.upd ?_; first | exact Ticks.same | apply Ticks.ite | split)

theorem masterEnable_ticks (s : State) (on : Bool) : Ticks s (masterEnable s on) := by
  unfold masterEnable
  with_reducible repeat' first
    | exact Ticks.same
    | (apply Ticks.after; apply masterLeaves_ticks)
    | (refine Ticks.upd ?_; first | exact Ticks.same | (apply Ticks.after; apply masterLeaves_ticks) | apply Ticks.ite | split)
    | apply Ticks.ite
    | split

theorem execMasterHoldoverTimeout_ticks (s : State) : ∃ s', execMasterHoldoverTimeout s = .next s' ∧ Ticks s s' := by
  refine ⟨_, rfl, ?_⟩
  with_reducible repeat' first
    | exact Ticks.same
    | (apply Ticks.after; first | apply raise_ticks | apply masterLeaves_ticks)
    | (refine Ticks.upd ?_; first | exact Ticks.same | (apply Ticks.after; first | apply raise_ticks | apply masterLeaves_ticks) | apply Ticks.ite | split)
    | apply Ticks.ite
    | split

theorem execRateLimitExceeded_ticks (s : State) : ∃ s', execRateLimitExceeded s = .next s' ∧ Ticks s s' := by
  refine ⟨_, rfl, ?_⟩
  with_reducible repeat' first | (apply Ticks.after; apply raise_ticks) | (refine Ticks.upd ?_; exact Ticks.same) | split

/- Comb.lean. -/

theorem retirePage_ticks (s : State) (p : Nat) : Ticks s (retirePage s p) := by
  unfold retirePage
  with_reducible repeat' first
    | (apply Ticks.after; first | apply hwState_ticks | apply raise_ticks)
    | (refine Ticks.upd ?_; exact Ticks.same)
    | apply Ticks.ite

theorem listRebuild_ticks (s : State) (p c key : Nat) : Ticks s (listRebuild s p c key) := by
  unfold listRebuild
  with_reducible repeat' first
    | exact Ticks.same
    | (refine Ticks.upd ?_; first | exact Ticks.same | apply Ticks.ite | split | (refine Ticks.upd ?_; first | exact Ticks.same))
    | split

theorem dropShadow_ticks (s : State) (p c : Nat) : Ticks s (dropShadow s p c) := by
  unfold dropShadow
  with_reducible repeat' first
    | exact Ticks.same
    | (apply Ticks.after; apply onCtx_ticks)
    | (refine Ticks.upd ?_; first | exact Ticks.same | (apply Ticks.after; apply onCtx_ticks) | apply Ticks.ite | split | (refine Ticks.upd ?_; first | exact Ticks.same | (apply Ticks.after; apply onCtx_ticks)))
    | apply Ticks.ite
    | split

theorem dropCopy_ticks (s : State) (p : Nat) : Ticks s (dropCopy s p) := by
  unfold dropCopy
  with_reducible repeat' first
    | exact Ticks.same
    | (apply Ticks.after; apply listRebuild_ticks)
    | (apply Ticks.after; apply Ticks.foldl; intro s x)
    | (refine Ticks.upd ?_; first | exact Ticks.same | (apply Ticks.after; apply listRebuild_ticks) | (apply Ticks.after; apply Ticks.foldl; intro s x) | apply Ticks.ite | split | (refine Ticks.upd ?_; first | exact Ticks.same | (apply Ticks.after; apply listRebuild_ticks)))
    | apply Ticks.ite
    | split

theorem poisonPage_ticks (s : State) (p : Nat) : Ticks s (poisonPage s p) := by
  unfold poisonPage
  with_reducible repeat' first
    | exact Ticks.same
    | (apply Ticks.after; first | apply raise_ticks | apply retirePage_ticks | apply listRebuild_ticks | apply dropShadow_ticks | apply dropCopy_ticks)
    | (apply Ticks.after; apply Ticks.forUpto; intro s x)
    | (refine Ticks.upd ?_; first | exact Ticks.same | (apply Ticks.after; first | apply raise_ticks | apply retirePage_ticks | apply listRebuild_ticks | apply dropShadow_ticks | apply dropCopy_ticks) | (apply Ticks.after; apply Ticks.forUpto; intro s x) | apply Ticks.ite | split | (refine Ticks.upd ?_; first | exact Ticks.same | (apply Ticks.after; first | apply raise_ticks | apply retirePage_ticks | apply listRebuild_ticks | apply dropShadow_ticks | apply dropCopy_ticks)))
    | apply Ticks.ite
    | split

theorem poisonRead_ticks (s : State) (p : Nat) : Ticks s (poisonRead s p) := by
  unfold poisonRead
  with_reducible repeat' first | (apply Ticks.after; apply raise_ticks) | (refine Ticks.upd ?_; exact Ticks.same) | split

theorem releaseBank_ticks (s : State) (q pb : Nat) : Ticks s (releaseBank s q pb) := by
  unfold releaseBank
  with_reducible repeat' first
    | exact Ticks.same
    | (apply Ticks.after; apply retirePage_ticks)
    | (apply Ticks.after; apply Ticks.foldl; intro s x)
    | (refine Ticks.upd ?_; first | exact Ticks.same | (apply Ticks.after; apply retirePage_ticks) | (apply Ticks.after; apply Ticks.foldl; intro s x) | apply Ticks.ite | split)

theorem zeroPages_ticks (s : State) (q pb : Nat) (keep : Nat → Bool) : Ticks s (zeroPages s q pb keep) :=
  ⟨rfl, rfl, rfl⟩

theorem reserveShadow_ticks (s : State) (c : Nat) : Ticks s (reserveShadow s c) := by
  unfold reserveShadow
  with_reducible repeat' first
    | exact Ticks.same
    | (apply Ticks.after; apply onCtx_ticks)
    | (refine Ticks.upd ?_; first | exact Ticks.same | (apply Ticks.after; apply onCtx_ticks) | apply Ticks.ite | split | (refine Ticks.upd ?_; first | exact Ticks.same | (apply Ticks.after; apply onCtx_ticks)))
    | split

theorem reserveAll_ticks (s : State) : Ticks s (reserveAll s) := by
  unfold reserveAll
  with_reducible repeat' first
    | exact Ticks.same
    | (apply Ticks.after; apply reserveShadow_ticks)
    | (apply Ticks.after; apply Ticks.forUpto; intro s x)
    | split

theorem execZeroFillComplete_ticks (q : Quad) (bank : Nat) (s : State) : ∃ s', execZeroFillComplete q bank s = .next s' ∧ Ticks s s' := by
  refine ⟨_, rfl, ?_⟩
  with_reducible repeat' first
    | exact Ticks.same
    | (apply Ticks.after; first | apply zeroPages_ticks | apply reserveAll_ticks)
    | (refine Ticks.upd ?_; first | exact Ticks.same | (apply Ticks.after; first | apply zeroPages_ticks | apply reserveAll_ticks) | apply Ticks.ite | split)
    | apply Ticks.ite
    | split

theorem onRebuild_ticks (s : State) (p : Nat) (f : Rebuild → Rebuild) : Ticks s (onRebuild s p f) := by
  unfold onRebuild
  exact Ticks.upd Ticks.same

theorem dropRebuild_ticks (s : State) (p : Nat) : Ticks s (dropRebuild s p) := by
  unfold dropRebuild
  exact Ticks.upd Ticks.same

theorem writeBoth_ticks (s : State) (page : Nat) (bytes : List Byte) : Ticks s (writeBoth s page bytes) := by
  unfold writeBoth
  with_reducible repeat' first
    | exact Ticks.same
    | (apply Ticks.after; apply combWrite_ticks)
    | (refine Ticks.upd ?_; first | exact Ticks.same | (apply Ticks.after; apply combWrite_ticks) | apply Ticks.ite | split)
    | split

theorem pageRebuilt_ticks (s : State) (page : Nat) (clean : Bool) (r : Rebuild) (bytes : List Byte) : Ticks s (pageRebuilt s page clean r bytes) := by
  unfold pageRebuilt
  with_reducible repeat' first
    | exact Ticks.same
    | (apply Ticks.after; first | apply raise_ticks | apply onRebuild_ticks | apply dropRebuild_ticks | apply writeBoth_ticks)
    | (refine Ticks.upd ?_; first | exact Ticks.same | (apply Ticks.after; first | apply raise_ticks | apply onRebuild_ticks | apply dropRebuild_ticks | apply writeBoth_ticks) | apply Ticks.ite | split | (refine Ticks.upd ?_; first | exact Ticks.same | (apply Ticks.after; first | apply raise_ticks | apply onRebuild_ticks | apply dropRebuild_ticks | apply writeBoth_ticks)))
    | apply Ticks.ite
    | split

theorem execPageRebuildComplete_ticks (page : Nat) (clean : Bool) (s : State) : ∃ s', execPageRebuildComplete page clean s = .next s' ∧ Ticks s s' := by
  refine ⟨_, rfl, ?_⟩
  with_reducible repeat' first | exact Ticks.same | (apply Ticks.after; apply pageRebuilt_ticks) | split

theorem copyBank_ticks (s : State) (q src dst : Nat) : Ticks s (copyBank s q src dst) :=
  ⟨rfl, rfl, rfl⟩

theorem bankCopied_ticks (s : State) (page c key pb : Nat) (bytes : List Byte) : Ticks s (bankCopied s page c key pb bytes) := by
  unfold bankCopied
  with_reducible repeat' first
    | exact Ticks.same
    | (apply Ticks.after; first | apply combWrite_ticks | apply dropRebuild_ticks | apply copyBank_ticks)
    | (refine Ticks.upd ?_; first | exact Ticks.same | (apply Ticks.after; first | apply combWrite_ticks | apply dropRebuild_ticks | apply copyBank_ticks) | apply Ticks.ite | split)
    | apply Ticks.ite
    | split

theorem execBankCopyComplete_ticks (page : Nat) (s : State) : ∃ s', execBankCopyComplete page s = .next s' ∧ Ticks s s' := by
  refine ⟨_, rfl, ?_⟩
  with_reducible repeat' first | exact Ticks.same | (apply Ticks.after; apply bankCopied_ticks) | split

theorem execRebuildWaitLimit_ticks (page : Nat) (s : State) : ∃ s', execRebuildWaitLimit page s = .next s' ∧ Ticks s s' := by
  refine ⟨_, rfl, ?_⟩
  with_reducible repeat' first
    | exact Ticks.same
    | (apply Ticks.after; first | apply raise_ticks | apply onRebuild_ticks)
    | split

theorem mapSwap_ticks (s : State) (e : Nat × Nat × Nat × Nat) : Ticks s (mapSwap s e) := by
  unfold mapSwap
  with_reducible repeat' first
    | exact Ticks.same
    | (apply Ticks.after; first | apply onCtx_ticks | apply listRebuild_ticks | apply releaseBank_ticks)
    | (apply Ticks.after; apply Ticks.foldl; intro s x)
    | (refine Ticks.upd ?_; first | exact Ticks.same | (apply Ticks.after; first | apply onCtx_ticks | apply listRebuild_ticks | apply releaseBank_ticks) | (apply Ticks.after; apply Ticks.foldl; intro s x) | apply Ticks.ite | split | (refine Ticks.upd ?_; first | exact Ticks.same | (apply Ticks.after; first | apply onCtx_ticks | apply listRebuild_ticks | apply releaseBank_ticks)))
    | apply Ticks.ite
    | split

theorem combEdge_ticks (s : State) : Ticks s (combEdge s) := by
  unfold combEdge
  with_reducible repeat' first
    | exact Ticks.same
    | (apply Ticks.after; first | apply retirePage_ticks | apply mapSwap_ticks)
    | (apply Ticks.after; apply Ticks.foldl; intro s x)
    | (refine Ticks.upd ?_; first | exact Ticks.same | (apply Ticks.after; first | apply retirePage_ticks | apply mapSwap_ticks) | (apply Ticks.after; apply Ticks.foldl; intro s x) | apply Ticks.ite | split | (refine Ticks.upd ?_; first | exact Ticks.same | (apply Ticks.after; first | apply retirePage_ticks | apply mapSwap_ticks)))
    | apply Ticks.ite
    | split

theorem installTable_ticks (s : State) : Ticks s (installTable s) := by
  unfold installTable
  exact Ticks.upd Ticks.same

theorem swapPhase_ticks (s : State) (c : Nat) : Ticks s (swapPhase s c) := by
  unfold swapPhase
  with_reducible repeat' first
    | (apply Ticks.after; first | apply onCtx_ticks | apply releaseBank_ticks | apply reserveShadow_ticks)
    | (apply Ticks.after; apply Ticks.foldl; intro s x)
    | (refine Ticks.upd ?_; first | exact Ticks.same | split)

theorem abandonPhases_ticks (s : State) (c : Nat) : Ticks s (abandonPhases s c) := by
  unfold abandonPhases
  with_reducible repeat' first
    | (apply Ticks.after; apply onCtx_ticks)
    | (apply Ticks.after; apply Ticks.foldl; intro s x)
    | (refine Ticks.upd ?_; first | exact Ticks.same | (apply Ticks.after; apply onCtx_ticks))
    | split

/- Quad.lean. -/

theorem faultBatch_ticks (s : State) (c adm : Nat) (policy : Bool) (f : InstFaults → InstFaults) : Ticks s (faultBatch s c adm policy f) := by
  unfold faultBatch
  with_reducible repeat' first | exact Ticks.same | (apply Ticks.after; apply onCtx_ticks)

theorem poisonInst_ticks (s : State) (c adm cause : Nat) : Ticks s (poisonInst s c adm cause) := by
  unfold poisonInst
  with_reducible repeat' first | exact Ticks.same | (apply Ticks.after; apply faultBatch_ticks)

theorem invalidInst_ticks (s : State) (c adm cause : Nat) (policy : Bool) : Ticks s (invalidInst s c adm cause policy) := by
  unfold invalidInst
  with_reducible repeat' first | exact Ticks.same | (apply Ticks.after; apply faultBatch_ticks)

theorem stopWork_ticks (s : State) (q c adm : Nat) : Ticks s (stopWork s q c adm) := by
  unfold stopWork
  with_reducible repeat' first
    | exact Ticks.same
    | (apply Ticks.after; apply onQuad_ticks)
    | (refine Ticks.upd ?_; first | exact Ticks.same | (apply Ticks.after; apply onQuad_ticks) | apply Ticks.ite | split)
    | apply Ticks.ite
    | split

theorem onThread_ticks (s : State) (k : Nat) (f : Thread → Thread) : Ticks s (onThread s k f) := by
  unfold onThread
  exact Ticks.upd Ticks.same

theorem armThread_ticks (s : State) (q c adm : Nat) (d : FeedDesc) : Ticks s (armThread s q c adm d) := by
  unfold armThread
  with_reducible repeat' first
    | exact Ticks.same
    | (apply Ticks.after; first | apply onQuad_ticks | apply onThread_ticks)
    | (refine Ticks.upd ?_; first | exact Ticks.same | (apply Ticks.after; first | apply onQuad_ticks | apply onThread_ticks) | apply Ticks.ite | split | (refine Ticks.upd ?_; first | exact Ticks.same | (apply Ticks.after; first | apply onQuad_ticks | apply onThread_ticks)))
    | apply Ticks.ite
    | split

theorem armDue_ticks (s : State) (q : Nat) : Ticks s (armDue s q) := by
  unfold armDue
  with_reducible repeat' first
    | exact Ticks.same
    | (apply Ticks.after; first | apply onQuad_ticks | apply armThread_ticks)
    | (apply Ticks.after; apply Ticks.foldl; intro s x)
    | split

theorem advanceAll_ticks (s : State) (q : Nat) : Ticks s (advanceAll s q) := by
  unfold advanceAll
  with_reducible repeat' first
    | exact Ticks.same
    | (apply Ticks.after; first | apply onQuad_ticks | apply raise_ticks | apply armDue_ticks)
    | (refine Ticks.upd ?_; first | exact Ticks.same | (apply Ticks.after; first | apply onQuad_ticks | apply raise_ticks | apply armDue_ticks) | apply Ticks.ite | split | (refine Ticks.upd ?_; first | exact Ticks.same | (apply Ticks.after; first | apply onQuad_ticks | apply raise_ticks | apply armDue_ticks)))
    | apply Ticks.ite
    | split

theorem popOp_ticks (s : State) (q : Nat) : Ticks s (popOp s q) := by
  unfold popOp
  with_reducible repeat' first | exact Ticks.same | (apply Ticks.after; first | apply onQuad_ticks | apply advanceAll_ticks)

theorem gatherFault_ticks (s : State) (q : Nat) : Ticks s (gatherFault s q) := by
  unfold gatherFault
  with_reducible repeat' first | exact Ticks.same | (apply Ticks.after; first | apply onQuad_ticks | apply raise_ticks)

theorem tryGather_ticks (s : State) (q i : Nat) : Ticks s (tryGather s q i) := by
  unfold tryGather
  with_reducible repeat' first
    | exact Ticks.same
    | (apply Ticks.after; first | apply onQuad_ticks | apply gatherFault_ticks)
    | apply Ticks.ite
    | split

theorem deliver_ticks (s : State) (k : Nat) : Ticks s (deliver s k) := by
  unfold deliver
  with_reducible repeat' first
    | exact Ticks.same
    | (apply Ticks.after; first | apply onQuad_ticks | apply tryGather_ticks)
    | (apply Ticks.after; apply Ticks.forUpto; intro s x)
    | (refine Ticks.upd ?_; first | exact Ticks.same | (apply Ticks.after; first | apply onQuad_ticks | apply tryGather_ticks) | (apply Ticks.after; apply Ticks.forUpto; intro s x) | apply Ticks.ite | split | (refine Ticks.upd ?_; first | exact Ticks.same | (apply Ticks.after; first | apply onQuad_ticks | apply tryGather_ticks)))
    | apply Ticks.ite
    | split

theorem threadEnded_ticks (s : State) (k : Nat) : Ticks s (threadEnded s k) := by
  unfold threadEnded
  with_reducible repeat' first
    | exact Ticks.same
    | (apply Ticks.after; first | apply onThread_ticks | apply armThread_ticks | apply advanceAll_ticks)
    | (refine Ticks.upd ?_; first | exact Ticks.same | (apply Ticks.after; first | apply onThread_ticks | apply armThread_ticks | apply advanceAll_ticks) | apply Ticks.ite | split | (refine Ticks.upd ?_; first | exact Ticks.same | (apply Ticks.after; first | apply onThread_ticks | apply armThread_ticks | apply advanceAll_ticks)))
    | split

theorem handOut_ticks (s : State) (q i : Nat) (bytes : List Byte) : Ticks s (handOut s q i bytes) := by
  unfold handOut
  with_reducible repeat' first
    | exact Ticks.same
    | (apply Ticks.after; first | apply onQuad_ticks | apply onThread_ticks)
    | apply Ticks.ite

end Sys2Proof.Machine
end

