-- ==== Sys2Proof/Laws/TicksCompute.lean ====
section
/-! SUPPORT. What each operation of Join, Fused, Streams, Xmem, Wake does to the beat number, the slot and the guard: nothing. -/

namespace Sys2Proof.Machine

set_option Elab.async false

open Sys2Proof

/- Join.lean. -/

theorem onActive_ticks (s : State) (q : Nat) (f : AccSet → AccSet) : Ticks s (onActive s q f) := by
  unfold onActive
  with_reducible repeat' first | exact Ticks.same | (apply Ticks.after; apply onQuad_ticks)

theorem poisonReads_ticks (s : State) (c a bytes : Nat) : Ticks s (poisonReads s c a bytes) := by
  unfold poisonReads
  with_reducible repeat' first
    | exact Ticks.same
    | (apply Ticks.after; apply poisonRead_ticks)
    | (apply Ticks.after; apply Ticks.foldl; intro s x)
    | apply Ticks.ite
    | split

theorem weightErrors_ticks (s : State) (t : Todo) (d : PassDesc) (corrected : Nat) (bad : List Nat) : Ticks s (weightErrors s t d corrected bad) := by
  unfold weightErrors
  with_reducible repeat' first
    | exact Ticks.same
    | (apply Ticks.after; apply poisonPage_ticks)
    | (apply Ticks.after; apply Ticks.foldl; intro s x)
    | (refine Ticks.upd ?_; first | exact Ticks.same | (apply Ticks.after; apply poisonPage_ticks) | (apply Ticks.after; apply Ticks.foldl; intro s x) | apply Ticks.ite | split)

theorem passStart_ticks (s : State) (q corrected : Nat) (bad : List Nat) : Ticks s (passStart s q corrected bad) := by
  unfold passStart
  with_reducible repeat' first
    | exact Ticks.same
    | (apply Ticks.after; first | apply onQuad_ticks | apply raise_ticks | apply poisonInst_ticks | apply invalidInst_ticks | apply onActive_ticks | apply poisonReads_ticks | apply weightErrors_ticks)
    | (apply Ticks.after; apply Ticks.foldl; intro s x)
    | (apply Ticks.after; apply Ticks.forUpto; intro s x)
    | (refine Ticks.upd ?_; first | exact Ticks.same | (apply Ticks.after; first | apply onQuad_ticks | apply raise_ticks | apply poisonInst_ticks | apply invalidInst_ticks | apply onActive_ticks | apply poisonReads_ticks | apply weightErrors_ticks) | (apply Ticks.after; apply Ticks.foldl; intro s x) | (apply Ticks.after; apply Ticks.forUpto; intro s x) | apply Ticks.ite | split | (refine Ticks.upd ?_; first | exact Ticks.same | (apply Ticks.after; first | apply onQuad_ticks | apply raise_ticks | apply poisonInst_ticks | apply invalidInst_ticks | apply onActive_ticks | apply poisonReads_ticks | apply weightErrors_ticks)))
    | apply Ticks.ite
    | split

theorem execPassStart_ticks (x : PassRead) (s : State) : ∃ s', execPassStart x s = .next s' ∧ Ticks s s' := by
  refine ⟨_, rfl, ?_⟩
  with_reducible repeat' first | exact Ticks.same | (apply Ticks.after; apply passStart_ticks)

theorem closeTile_ticks (s : State) (q : Nat) (a : AccSet) : Ticks s (closeTile s q a) := by
  unfold closeTile
  with_reducible repeat' first
    | exact Ticks.same
    | (apply Ticks.after; first | apply onQuad_ticks | apply raise_ticks)
    | (refine Ticks.upd ?_; first | exact Ticks.same | (apply Ticks.after; first | apply onQuad_ticks | apply raise_ticks) | apply Ticks.ite | split)
    | apply Ticks.ite
    | split

theorem passComplete_ticks (s : State) (q : Nat) : Ticks s (passComplete s q) := by
  unfold passComplete
  with_reducible repeat' first
    | exact Ticks.same
    | (apply Ticks.after; first | apply onQuad_ticks | apply popOp_ticks | apply onActive_ticks | apply closeTile_ticks)
    | (refine Ticks.upd ?_; first | exact Ticks.same | (apply Ticks.after; first | apply onQuad_ticks | apply popOp_ticks | apply onActive_ticks | apply closeTile_ticks) | apply Ticks.ite | split | (refine Ticks.upd ?_; first | exact Ticks.same | (apply Ticks.after; first | apply onQuad_ticks | apply popOp_ticks | apply onActive_ticks | apply closeTile_ticks)))
    | apply Ticks.ite
    | split

theorem execPassComplete_ticks (q : Quad) (s : State) : ∃ s', execPassComplete q s = .next s' ∧ Ticks s s' := by
  refine ⟨_, rfl, ?_⟩
  with_reducible repeat' first | exact Ticks.same | (apply Ticks.after; apply passComplete_ticks)

theorem setSwap_ticks (s : State) (q stall : Nat) : Ticks s (setSwap s q stall) := by
  unfold setSwap
  with_reducible repeat' first | exact Ticks.same | (apply Ticks.after; apply onQuad_ticks) | apply Ticks.ite

theorem execAccumulatorSetSwap_ticks (q : Quad) (stall : Nat) (s : State) : ∃ s', execAccumulatorSetSwap q stall s = .next s' ∧ Ticks s s' := by
  refine ⟨_, rfl, ?_⟩
  with_reducible repeat' first | exact Ticks.same | (apply Ticks.after; apply setSwap_ticks)

theorem contextSave_ticks (s : State) (q : Nat) : Ticks s (contextSave s q) := by
  unfold contextSave
  with_reducible repeat' first
    | exact Ticks.same
    | (apply Ticks.after; first | apply onQuad_ticks | apply popOp_ticks | apply handOut_ticks)
    | (refine Ticks.upd ?_; first | exact Ticks.same | (apply Ticks.after; first | apply onQuad_ticks | apply popOp_ticks | apply handOut_ticks) | apply Ticks.ite | split | (refine Ticks.upd ?_; first | exact Ticks.same | (apply Ticks.after; first | apply onQuad_ticks | apply popOp_ticks | apply handOut_ticks)))
    | apply Ticks.ite
    | split

theorem execContextSave_ticks (q : Quad) (s : State) : ∃ s', execContextSave q s = .next s' ∧ Ticks s s' := by
  refine ⟨_, rfl, ?_⟩
  with_reducible repeat' first | exact Ticks.same | (apply Ticks.after; apply contextSave_ticks)

theorem mismatch_ticks (s : State) (q : Nat) (t : Todo) : Ticks s (mismatch s q t) := by
  unfold mismatch
  with_reducible repeat' first
    | exact Ticks.same
    | (apply Ticks.after; first | apply onQuad_ticks | apply raise_ticks | apply onActive_ticks)
    | (refine Ticks.upd ?_; first | exact Ticks.same | (apply Ticks.after; first | apply onQuad_ticks | apply raise_ticks | apply onActive_ticks) | apply Ticks.ite | split | (refine Ticks.upd ?_; first | exact Ticks.same | (apply Ticks.after; first | apply onQuad_ticks | apply raise_ticks | apply onActive_ticks)))

theorem contextRestore_ticks (s : State) (q : Nat) : Ticks s (contextRestore s q) := by
  unfold contextRestore
  with_reducible repeat' first
    | exact Ticks.same
    | (apply Ticks.after; first | apply onQuad_ticks | apply popOp_ticks | apply onActive_ticks | apply mismatch_ticks)
    | (refine Ticks.upd ?_; first | exact Ticks.same | (apply Ticks.after; first | apply onQuad_ticks | apply popOp_ticks | apply onActive_ticks | apply mismatch_ticks) | apply Ticks.ite | split | (refine Ticks.upd ?_; first | exact Ticks.same | (apply Ticks.after; first | apply onQuad_ticks | apply popOp_ticks | apply onActive_ticks | apply mismatch_ticks)))
    | apply Ticks.ite
    | split

theorem execContextRestore_ticks (q : Quad) (s : State) : ∃ s', execContextRestore q s = .next s' ∧ Ticks s s' := by
  refine ⟨_, rfl, ?_⟩
  with_reducible repeat' first | exact Ticks.same | (apply Ticks.after; apply contextRestore_ticks)

theorem tileRecordAdd_ticks (s : State) (q : Nat) : Ticks s (tileRecordAdd s q) := by
  unfold tileRecordAdd
  with_reducible repeat' first
    | exact Ticks.same
    | (apply Ticks.after; first | apply onQuad_ticks | apply raise_ticks | apply popOp_ticks | apply onActive_ticks)
    | (refine Ticks.upd ?_; first | exact Ticks.same | (apply Ticks.after; first | apply onQuad_ticks | apply raise_ticks | apply popOp_ticks | apply onActive_ticks) | apply Ticks.ite | split | (refine Ticks.upd ?_; first | exact Ticks.same | (apply Ticks.after; first | apply onQuad_ticks | apply raise_ticks | apply popOp_ticks | apply onActive_ticks)))
    | apply Ticks.ite
    | split

theorem execTileRecordAdd_ticks (q : Quad) (s : State) : ∃ s', execTileRecordAdd q s = .next s' ∧ Ticks s s' := by
  refine ⟨_, rfl, ?_⟩
  with_reducible repeat' first | exact Ticks.same | (apply Ticks.after; apply tileRecordAdd_ticks)

/- Fused.lean. -/

theorem tileAway_ticks (s : State) (q : Nat) (a : AccSet) (d : StageDesc) (o : TileOut) : Ticks s (tileAway s q a d o) := by
  unfold tileAway
  with_reducible repeat' first
    | exact Ticks.same
    | (apply Ticks.after; first | apply onQuad_ticks | apply handOut_ticks)
    | (refine Ticks.upd ?_; first | exact Ticks.same | (apply Ticks.after; first | apply onQuad_ticks | apply handOut_ticks) | apply Ticks.ite | split | (refine Ticks.upd ?_; first | exact Ticks.same | (apply Ticks.after; first | apply onQuad_ticks | apply handOut_ticks)))
    | apply Ticks.ite
    | split

theorem epilogueComplete_ticks (s : State) (q : Nat) : Ticks s (epilogueComplete s q) := by
  unfold epilogueComplete
  with_reducible repeat' first
    | exact Ticks.same
    | (apply Ticks.after; first | apply onQuad_ticks | apply raise_ticks | apply poisonInst_ticks | apply poisonReads_ticks | apply tileAway_ticks)
    | (refine Ticks.upd ?_; first | exact Ticks.same | (apply Ticks.after; first | apply onQuad_ticks | apply raise_ticks | apply poisonInst_ticks | apply poisonReads_ticks | apply tileAway_ticks) | apply Ticks.ite | split)
    | apply Ticks.ite
    | split

theorem execEpilogueComplete_ticks (q : Quad) (s : State) : ∃ s', execEpilogueComplete q s = .next s' ∧ Ticks s s' := by
  refine ⟨_, rfl, ?_⟩
  with_reducible repeat' first
    | exact Ticks.same
    | (apply Ticks.after; apply epilogueComplete_ticks)
    | (apply Ticks.stepped; focus ((repeat' first | exact Ticks.same | (apply Ticks.after; apply epilogueComplete_ticks)); done))
    | apply Ticks.ite

/- Streams.lean. -/

theorem streamPoison_ticks (s : State) (q i : Nat) : Ticks s (streamPoison s q i) := by
  unfold streamPoison
  with_reducible repeat' first
    | exact Ticks.same
    | (apply Ticks.after; first | apply onQuad_ticks | apply onStream_ticks | apply raise_ticks)

theorem streamNonfin_ticks (s : State) (q i : Nat) : Ticks s (streamNonfin s q i) := by
  unfold streamNonfin
  with_reducible repeat' first
    | exact Ticks.same
    | (apply Ticks.after; first | apply onQuad_ticks | apply onStream_ticks | apply raise_ticks)
    | (refine Ticks.upd ?_; first | exact Ticks.same | (apply Ticks.after; first | apply onQuad_ticks | apply onStream_ticks | apply raise_ticks) | apply Ticks.ite | split | (refine Ticks.upd ?_; first | exact Ticks.same | (apply Ticks.after; first | apply onQuad_ticks | apply onStream_ticks | apply raise_ticks)))

theorem chunkGate_ticks (s : State) (q : Nat) : Ticks s (chunkGate s q) := by
  unfold chunkGate
  with_reducible repeat' first
    | exact Ticks.same
    | (apply Ticks.after; first | apply onQuad_ticks | apply onStream_ticks | apply popOp_ticks | apply poisonReads_ticks | apply streamPoison_ticks)
    | (refine Ticks.upd ?_; first | exact Ticks.same | (apply Ticks.after; first | apply onQuad_ticks | apply onStream_ticks | apply popOp_ticks | apply poisonReads_ticks | apply streamPoison_ticks) | apply Ticks.ite | split | (refine Ticks.upd ?_; first | exact Ticks.same | (apply Ticks.after; first | apply onQuad_ticks | apply onStream_ticks | apply popOp_ticks | apply poisonReads_ticks | apply streamPoison_ticks)))
    | apply Ticks.ite
    | split

theorem execChunkGate_ticks (q : Quad) (s : State) : ∃ s', execChunkGate q s = .next s' ∧ Ticks s s' := by
  refine ⟨_, rfl, ?_⟩
  with_reducible repeat' first | exact Ticks.same | (apply Ticks.after; apply chunkGate_ticks)

theorem chunkLevel_ticks (s : State) (q : Nat) : Ticks s (chunkLevel s q) := by
  unfold chunkLevel
  with_reducible repeat' first
    | exact Ticks.same
    | (apply Ticks.after; first | apply onQuad_ticks | apply popOp_ticks)
    | apply Ticks.ite
    | split

theorem execChunkLevel_ticks (q : Quad) (s : State) : ∃ s', execChunkLevel q s = .next s' ∧ Ticks s s' := by
  refine ⟨_, rfl, ?_⟩
  with_reducible repeat' first | exact Ticks.same | (apply Ticks.after; apply chunkLevel_ticks)

theorem chunkLoad_ticks (s : State) (q : Nat) : Ticks s (chunkLoad s q) := by
  unfold chunkLoad
  with_reducible repeat' first
    | exact Ticks.same
    | (apply Ticks.after; first | apply onQuad_ticks | apply popOp_ticks | apply streamPoison_ticks)
    | split

theorem execChunkLoad_ticks (q : Quad) (s : State) : ∃ s', execChunkLoad q s = .next s' ∧ Ticks s s' := by
  refine ⟨_, rfl, ?_⟩
  with_reducible repeat' first | exact Ticks.same | (apply Ticks.after; apply chunkLoad_ticks)

theorem chunkExpand_ticks (s : State) (q : Nat) : Ticks s (chunkExpand s q) := by
  unfold chunkExpand
  with_reducible repeat' first
    | exact Ticks.same
    | (apply Ticks.after; first | apply onQuad_ticks | apply popOp_ticks | apply streamNonfin_ticks)
    | (refine Ticks.upd ?_; first | exact Ticks.same | (apply Ticks.after; first | apply onQuad_ticks | apply popOp_ticks | apply streamNonfin_ticks) | apply Ticks.ite | split | (refine Ticks.upd ?_; first | exact Ticks.same | (apply Ticks.after; first | apply onQuad_ticks | apply popOp_ticks | apply streamNonfin_ticks)))
    | apply Ticks.ite
    | split

theorem execChunkExpand_ticks (q : Quad) (s : State) : ∃ s', execChunkExpand q s = .next s' ∧ Ticks s s' := by
  refine ⟨_, rfl, ?_⟩
  with_reducible repeat' first | exact Ticks.same | (apply Ticks.after; apply chunkExpand_ticks)

theorem yTile_ticks (s : State) (e : StreamEnt) (r : ChunkRun) (k : Nat) : Ticks s (yTile s e r k).2 := by
  unfold yTile
  with_reducible repeat' first | exact Ticks.same | (apply Ticks.after; apply takeFree_ticks)

theorem yTiles_ticks (s : State) (e : StreamEnt) (r : ChunkRun) : Ticks s (yTiles s e r).2 :=
  Ticks.foldl2 _ _ ([], s) fun p x => yTile_ticks p.2 e r x

theorem chunkReadout_ticks (s : State) (q : Nat) : Ticks s (chunkReadout s q) := by
  unfold chunkReadout
  with_reducible repeat' first
    | exact Ticks.same
    | (apply Ticks.after; first | (apply Ticks.sound; apply onQuad_ticks) | (apply Ticks.sound; apply poisonInst_ticks) | (apply Ticks.sound; apply popOp_ticks) | (apply Ticks.sound; apply handOut_ticks) | (apply Ticks.sound; apply yTiles_ticks))
    | split

theorem execChunkReadout_ticks (q : Quad) (s : State) : ∃ s', execChunkReadout q s = .next s' ∧ Ticks s s' := by
  refine ⟨_, rfl, ?_⟩
  with_reducible repeat' first | exact Ticks.same | (apply Ticks.after; apply chunkReadout_ticks)

theorem freeBlock_ticks (s : State) : Ticks s (freeBlock s).2 :=
  Ticks.foldl2 _ _ ([], s) fun p _ => takeFree_ticks p.2 40

theorem blkBytes_ticks (s : State) (b : BlkOut) : Ticks s (blkBytes s b).2 := by
  unfold blkBytes
  with_reducible repeat' first | exact Ticks.same | (apply Ticks.after; apply freeBlock_ticks) | split

theorem streamApply_ticks (s : State) (i : Nat) : Ticks s (streamApply s i) := by
  unfold streamApply
  with_reducible repeat' first | exact Ticks.same | (apply Ticks.after; apply onStream_ticks) | split

theorem blksBytes_ticks (s : State) (blks : List BlkOut) : Ticks s (blksBytes s blks).2 :=
  Ticks.foldl2 _ _ ([], s) fun p x => blkBytes_ticks p.2 x

theorem chunkStore_ticks (s : State) (q : Nat) : Ticks s (chunkStore s q) := by
  unfold chunkStore
  with_reducible repeat' first
    | exact Ticks.same
    | (apply Ticks.after; first | apply onQuad_ticks | apply onStream_ticks | apply xmWrite_ticks | apply popOp_ticks | apply streamNonfin_ticks | apply streamApply_ticks | apply blksBytes_ticks)
    | (refine Ticks.upd ?_; first | exact Ticks.same | (apply Ticks.after; first | apply onQuad_ticks | apply onStream_ticks | apply xmWrite_ticks | apply popOp_ticks | apply streamNonfin_ticks | apply streamApply_ticks | apply blksBytes_ticks) | apply Ticks.ite | split | (refine Ticks.upd ?_; first | exact Ticks.same | (apply Ticks.after; first | apply onQuad_ticks | apply onStream_ticks | apply xmWrite_ticks | apply popOp_ticks | apply streamNonfin_ticks | apply streamApply_ticks | apply blksBytes_ticks)))
    | apply Ticks.ite
    | split

theorem execChunkStore_ticks (q : Quad) (s : State) : ∃ s', execChunkStore q s = .next s' ∧ Ticks s s' := by
  refine ⟨_, rfl, ?_⟩
  with_reducible repeat' first | exact Ticks.same | (apply Ticks.after; apply chunkStore_ticks)

theorem chunkSkip_ticks (s : State) (q : Nat) : Ticks s (chunkSkip s q) := by
  unfold chunkSkip
  with_reducible repeat' first
    | exact Ticks.same
    | (apply Ticks.after; first | apply onQuad_ticks | apply raise_ticks | apply invalidInst_ticks | apply popOp_ticks)
    | (refine Ticks.upd ?_; first | exact Ticks.same | (apply Ticks.after; first | apply onQuad_ticks | apply raise_ticks | apply invalidInst_ticks | apply popOp_ticks) | apply Ticks.ite | split | (refine Ticks.upd ?_; first | exact Ticks.same | (apply Ticks.after; first | apply onQuad_ticks | apply raise_ticks | apply invalidInst_ticks | apply popOp_ticks)))
    | apply Ticks.ite
    | split

theorem execChunkSkip_ticks (q : Quad) (s : State) : ∃ s', execChunkSkip q s = .next s' ∧ Ticks s s' := by
  refine ⟨_, rfl, ?_⟩
  with_reducible repeat' first | exact Ticks.same | (apply Ticks.after; apply chunkSkip_ticks)

theorem execStreamCtlApply_ticks (entry : Fin 256) (s : State) : ∃ s', execStreamCtlApply entry s = .next s' ∧ Ticks s s' := by
  refine ⟨_, rfl, ?_⟩
  with_reducible repeat' first | exact Ticks.same | (apply Ticks.after; apply streamApply_ticks) | split

/- Xmem.lean. -/

theorem doFree_ticks (s : State) (ref : Nat) : Ticks s (doFree s ref) := by
  unfold doFree
  with_reducible repeat' first
    | exact Ticks.same
    | (apply Ticks.after; first | apply onCtx_ticks | apply onBl_ticks)
    | apply Ticks.ite

theorem rejectFree_ticks (s : State) (ref : Nat) (j : FreeJudge) : Ticks s (rejectFree s ref j) := by
  unfold rejectFree
  with_reducible repeat' first | (apply Ticks.after; apply raise_ticks) | (refine Ticks.upd ?_; exact Ticks.same) | split

theorem ledgerFault_ticks (s : State) (c adm : Nat) : Ticks s (ledgerFault s c adm) := by
  unfold ledgerFault
  with_reducible repeat' first | exact Ticks.same | (apply Ticks.after; first | apply raise_ticks | apply invalidInst_ticks)

theorem schedFree_ticks (s : State) (c adm ref : Nat) : Ticks s (schedFree s c adm ref) := by
  unfold schedFree
  with_reducible repeat' first
    | exact Ticks.same
    | (apply Ticks.after; first | apply jKeeper_ticks | (apply Ticks.sound; apply doFree_ticks) | (apply Ticks.sound; apply rejectFree_ticks) | (apply Ticks.sound; apply ledgerFault_ticks))
    | split

theorem scheduleFree_ticks (s : State) (q : Nat) : Ticks s (scheduleFree s q) := by
  unfold scheduleFree
  with_reducible repeat' first
    | exact Ticks.same
    | (apply Ticks.after; first | apply popOp_ticks | apply schedFree_ticks)
    | (refine Ticks.upd ?_; first | exact Ticks.same | (apply Ticks.after; first | apply popOp_ticks | apply schedFree_ticks) | apply Ticks.ite | split | (refine Ticks.upd ?_; first | exact Ticks.same | (apply Ticks.after; first | apply popOp_ticks | apply schedFree_ticks)))
    | split

theorem execScheduleFree_ticks (q : Quad) (s : State) : ∃ s', execScheduleFree q s = .next s' ∧ Ticks s s' := by
  refine ⟨_, rfl, ?_⟩
  with_reducible repeat' first | exact Ticks.same | (apply Ticks.after; apply scheduleFree_ticks)

theorem scheduleAlloc_ticks (s : State) (q : Nat) : Ticks s (scheduleAlloc s q) := by
  unfold scheduleAlloc
  with_reducible repeat' first
    | (apply Ticks.after; first | apply onQuad_ticks | apply onCtx_ticks | apply onBl_ticks | apply popOp_ticks | apply ledgerFault_ticks)
    | (refine Ticks.upd ?_; first | exact Ticks.same | split)

theorem execScheduleAlloc_ticks (q : Quad) (s : State) : ∃ s', execScheduleAlloc q s = .next s' ∧ Ticks s s' := by
  refine ⟨_, rfl, ?_⟩
  with_reducible repeat' first | exact Ticks.same | (apply Ticks.after; apply scheduleAlloc_ticks)

theorem addTag_ticks (s : State) (x : Transfer) : Ticks s (addTag s x) := by
  unfold addTag
  with_reducible repeat' first
    | exact Ticks.same
    | (refine Ticks.upd ?_; first | exact Ticks.same | apply Ticks.ite | split)

theorem keeperIssue_ticks (s : State) (a now : Nat) : Ticks s (keeperIssue s a now) := by
  unfold keeperIssue
  with_reducible repeat' first
    | exact Ticks.same
    | (apply Ticks.after; apply addTag_ticks)
    | (refine Ticks.upd ?_; first | exact Ticks.same | (apply Ticks.after; apply addTag_ticks) | apply Ticks.ite | split)
    | apply Ticks.ite
    | split

theorem transferIssue_ticks (s : State) (ch now : Nat) : Ticks s (transferIssue s ch now) := by
  unfold transferIssue
  with_reducible repeat' first
    | exact Ticks.same
    | (apply Ticks.after; first | apply onThread_ticks | apply addTag_ticks)
    | (refine Ticks.upd ?_; first | exact Ticks.same | (apply Ticks.after; first | apply onThread_ticks | apply addTag_ticks) | apply Ticks.ite | split | (refine Ticks.upd ?_; first | exact Ticks.same | (apply Ticks.after; first | apply onThread_ticks | apply addTag_ticks)))
    | apply Ticks.ite
    | split

theorem execTransferIssue_ticks (x : XmIssue) (s : State) : ∃ s', execTransferIssue x s = .next s' ∧ Ticks s s' := by
  refine ⟨_, rfl, ?_⟩
  with_reducible repeat' first
    | exact Ticks.same
    | (apply Ticks.after; first | apply keeperIssue_ticks | apply transferIssue_ticks)
    | (refine Ticks.upd ?_; first | exact Ticks.same | (apply Ticks.after; first | apply keeperIssue_ticks | apply transferIssue_ticks) | apply Ticks.ite | split)
    | split

theorem deadlineMiss_ticks (s : State) (k : Nat) : Ticks s (deadlineMiss s k) := by
  unfold deadlineMiss
  with_reducible repeat' first
    | exact Ticks.same
    | (apply Ticks.after; first | apply raise_ticks | apply onThread_ticks)
    | (refine Ticks.upd ?_; first | exact Ticks.same | (apply Ticks.after; first | apply raise_ticks | apply onThread_ticks) | apply Ticks.ite | split | (refine Ticks.upd ?_; first | exact Ticks.same | (apply Ticks.after; first | apply raise_ticks | apply onThread_ticks)))
    | apply Ticks.ite
    | split

theorem moved_ticks (s : State) (k len : Nat) : Ticks s (moved s k len) := by
  unfold moved
  with_reducible repeat' first
    | exact Ticks.same
    | (apply Ticks.after; first | apply onThread_ticks | apply deliver_ticks | apply threadEnded_ticks | apply deadlineMiss_ticks)
    | (refine Ticks.upd ?_; first | exact Ticks.same | (apply Ticks.after; first | apply onThread_ticks | apply deliver_ticks | apply threadEnded_ticks | apply deadlineMiss_ticks) | apply Ticks.ite | split)
    | apply Ticks.ite
    | split

theorem readComplete_ticks (s : State) (tag ecc now : Nat) : Ticks s (readComplete s tag ecc now) := by
  unfold readComplete
  with_reducible repeat' first
    | (apply Ticks.after; first | apply raise_ticks | apply poisonInst_ticks | apply onThread_ticks | apply moved_ticks)
    | (refine Ticks.upd ?_; exact Ticks.same)
    | apply Ticks.ite
    | split

theorem execReadTransferComplete_ticks (tag ecc nowNs : Nat) (s : State) : ∃ s', execReadTransferComplete tag ecc nowNs s = .next s' ∧ Ticks s s' := by
  refine ⟨_, rfl, ?_⟩
  with_reducible repeat' first | exact Ticks.same | (apply Ticks.after; apply readComplete_ticks)

theorem writeAccepted_ticks (s : State) (tag : Nat) (failed : Bool) : Ticks s (writeAccepted s tag failed) := by
  unfold writeAccepted
  with_reducible repeat' first
    | (apply Ticks.after; first | apply xmWrite_ticks | (apply Ticks.sound; apply xmPoison_ticks) | (apply Ticks.sound; apply raise_ticks) | (apply Ticks.sound; apply moved_ticks))
    | (refine Ticks.upd ?_; exact Ticks.same)
    | apply Ticks.ite
    | split

theorem execWriteTransferAccepted_ticks (tag : Nat) (failed : Bool) (s : State) : ∃ s', execWriteTransferAccepted tag failed s = .next s' ∧ Ticks s s' := by
  refine ⟨_, rfl, ?_⟩
  with_reducible repeat' first | exact Ticks.same | (apply Ticks.after; apply writeAccepted_ticks)

theorem threadBoundary_ticks (s : State) : Ticks s (threadBoundary s) := by
  unfold threadBoundary
  with_reducible repeat' first
    | exact Ticks.same
    | (apply Ticks.after; first | apply onThread_ticks | apply deadlineMiss_ticks)
    | (apply Ticks.after; apply Ticks.foldl; intro s x)
    | apply Ticks.ite

theorem endThreads_ticks (s : State) (p : Nat → Thread → Bool) : Ticks s (endThreads s p) := by
  unfold endThreads
  exact Ticks.upd Ticks.same

/- Wake.lean. -/

theorem wakeTo_ticks (s : State) (t : PwrSt) : Ticks s (wakeTo s t) := by
  unfold wakeTo
  with_reducible repeat' first | (refine Ticks.upd ?_; exact Ticks.same) | split

theorem wakeActive_ticks (s : State) : Ticks s (wakeActive s) := by
  unfold wakeActive
  with_reducible repeat' first | exact Ticks.same | (apply Ticks.after; apply wakeTo_ticks)

theorem wakeTolerance_ticks (s : State) : Ticks s (wakeTolerance s) := by
  unfold wakeTolerance
  with_reducible repeat' first | exact Ticks.same | (apply Ticks.after; apply wakeTo_ticks) | split

theorem retarget421_ticks (s : State) : Ticks s (retarget421 s) := by
  unfold retarget421
  exact Ticks.upd Ticks.same

end Sys2Proof.Machine
end

