-- ==== Sys2Proof/Laws/TicksHive.lean ====
section
/-! SUPPORT. What each operation of Links, Sched, Sync does to the beat number, the slot and the guard: nothing. -/

namespace Sys2Proof.Machine

set_option Elab.async false

open Sys2Proof

/- Links.lean. -/

theorem creditBack_ticks (s : State) (p : Option Nat) : Ticks s (creditBack s p) := by
  unfold creditBack
  with_reducible repeat' first | exact Ticks.same | (apply Ticks.after; apply onPort_ticks) | split

theorem portTo_ticks (s : State) (p : Nat) (st : PortSt) : Ticks s (portTo s p st) := by
  unfold portTo
  with_reducible repeat' first
    | exact Ticks.same
    | (apply Ticks.after; first | apply onPort_ticks | apply creditBack_ticks)
    | (apply Ticks.after; apply Ticks.foldl; intro s x)
    | (refine Ticks.upd ?_; first | exact Ticks.same | (apply Ticks.after; first | apply onPort_ticks | apply creditBack_ticks) | (apply Ticks.after; apply Ticks.foldl; intro s x) | apply Ticks.ite | split | (refine Ticks.upd ?_; first | exact Ticks.same | (apply Ticks.after; first | apply onPort_ticks | apply creditBack_ticks)))
    | apply Ticks.ite
    | split

theorem portTrain_ticks (s : State) (p : Nat) : Ticks s (portTrain s p) := by
  unfold portTrain
  with_reducible repeat' first | exact Ticks.same | (apply Ticks.after; first | apply onPort_ticks | apply portTo_ticks)

theorem portDrop_ticks (s : State) (p code : Nat) : Ticks s (portDrop s p code) := by
  unfold portDrop
  with_reducible repeat' first
    | exact Ticks.same
    | (apply Ticks.after; first | apply onPort_ticks | apply raise_ticks | apply portTo_ticks | apply portTrain_ticks)
    | apply Ticks.ite

theorem portFence_ticks (s : State) (p cause : Nat) : Ticks s (portFence s p cause) := by
  unfold portFence
  with_reducible repeat' first
    | exact Ticks.same
    | (apply Ticks.after; first | apply onPort_ticks | apply raise_ticks | apply portTo_ticks)

theorem giveTx_ticks (s : State) (p : Nat) (l : List Byte) : Ticks s (giveTx s p l) := by
  unfold giveTx
  with_reducible repeat' first
    | exact Ticks.same
    | (apply Ticks.after; apply onPort_ticks)
    | (refine Ticks.upd ?_; first | exact Ticks.same | (apply Ticks.after; apply onPort_ticks) | apply Ticks.ite | split)

theorem txNow_ticks (s : State) (p : Nat) (l : List Byte) : Ticks s (txNow s p l) := by
  unfold txNow
  with_reducible repeat' first | exact Ticks.same | (apply Ticks.after; first | apply onPort_ticks | apply giveTx_ticks)

theorem txTry_ticks (s : State) (p : Nat) (l : List Byte) : Ticks s (txTry s p l) := by
  unfold txTry
  with_reducible repeat' first
    | exact Ticks.same
    | (apply Ticks.after; first | apply onPort_ticks | apply txNow_ticks)
    | (refine Ticks.upd ?_; first | exact Ticks.same | (apply Ticks.after; first | apply onPort_ticks | apply txNow_ticks) | apply Ticks.ite | split)
    | apply Ticks.ite
    | split

theorem closeGroup_ticks (s : State) (p : Nat) : Ticks s (closeGroup s p) := by
  unfold closeGroup
  with_reducible repeat' first
    | (apply Ticks.after; first | apply onPort_ticks | apply portTrain_ticks | apply txTry_ticks)
    | (refine Ticks.upd ?_; first | exact Ticks.same | split)

theorem txFlit_ticks (s : State) (p : Nat) (l : List Byte) : Ticks s (txFlit s p l) := by
  unfold txFlit
  with_reducible repeat' first
    | exact Ticks.same
    | (apply Ticks.after; first | apply txTry_ticks | apply closeGroup_ticks)
    | apply Ticks.ite

theorem drainWait_ticks (n : Nat) (s : State) (p : Nat) : Ticks s (drainWait n s p) := by
  induction n generalizing s with
  | zero => exact Ticks.same
  | succ n ih =>
    unfold drainWait; split
    · exact Ticks.same
    · split
      · refine Ticks.trans ?_ (ih _)
        refine Ticks.step ?_ (closeGroup_ticks _ _)
        exact (onPort_ticks _ _ _).trans (txNow_ticks _ _ _)
      · exact Ticks.same

theorem execSealGroupClose_ticks (p : PortId) (s : State) : ∃ s', execSealGroupClose p s = .next s' ∧ Ticks s s' := by
  refine ⟨_, rfl, ?_⟩
  with_reducible repeat' first | exact Ticks.same | (apply Ticks.after; apply closeGroup_ticks) | split

theorem sendAck_ticks (s : State) (p : Nat) : Ticks s (sendAck s p) := by
  unfold sendAck
  with_reducible repeat' first | exact Ticks.same | (apply Ticks.after; first | apply onPort_ticks | apply giveTx_ticks)

theorem sendNak_ticks (s : State) (p : Nat) : Ticks s (sendNak s p) := by
  unfold sendNak
  with_reducible repeat' first | exact Ticks.same | (apply Ticks.after; first | apply onPort_ticks | apply giveTx_ticks)

theorem execAckTimer_ticks (p : PortId) (s : State) : ∃ s', execAckTimer p s = .next s' ∧ Ticks s s' := by
  refine ⟨_, rfl, ?_⟩
  with_reducible repeat' first | exact Ticks.same | (apply Ticks.after; apply sendAck_ticks) | split

theorem resend_ticks (s : State) (p a2 : Nat) : Ticks s (resend s p a2) := by
  unfold resend
  with_reducible repeat' first
    | exact Ticks.same
    | (apply Ticks.after; first | apply onPort_ticks | apply giveTx_ticks)
    | (apply Ticks.after; apply Ticks.foldl; intro s x)

theorem execReplayTimeout_ticks (p : PortId) (s : State) : ∃ s', execReplayTimeout p s = .next s' ∧ Ticks s s' := by
  refine ⟨_, rfl, ?_⟩
  with_reducible repeat' first
    | exact Ticks.same
    | (apply Ticks.after; first | apply onPort_ticks | apply portDrop_ticks | apply resend_ticks)
    | apply Ticks.ite
    | split

theorem rxCount_ticks (s : State) (p : Nat) : Ticks s (rxCount s p) := by
  unfold rxCount
  with_reducible repeat' first
    | exact Ticks.same
    | (apply Ticks.after; apply onPort_ticks)
    | (refine Ticks.upd ?_; first | exact Ticks.same | (apply Ticks.after; apply onPort_ticks) | apply Ticks.ite | split)

theorem hcrcNak_ticks (s : State) (p : Nat) (l : List Byte) : Ticks s (hcrcNak s p l) := by
  unfold hcrcNak
  with_reducible repeat' first
    | exact Ticks.same
    | (apply Ticks.after; apply sendNak_ticks)
    | apply Ticks.ite
    | split

theorem rxTake_ticks (s : State) (p : Nat) (l : List Byte) : Ticks s (rxTake s p l).2 := by
  unfold rxTake
  with_reducible repeat' first
    | exact Ticks.same
    | (apply Ticks.after; first | apply onPort_ticks | apply sendAck_ticks | apply sendNak_ticks | apply rxCount_ticks)
    | dsimp only
    | split

theorem badFlit_ticks (s : State) (p : Nat) : Ticks s (badFlit s p) := by
  unfold badFlit
  with_reducible repeat' first
    | exact Ticks.same
    | (apply Ticks.after; first | apply onPort_ticks | apply raise_ticks)
    | apply Ticks.ite

theorem execFloodDetected_ticks (p : PortId) (s : State) : ∃ s', execFloodDetected p s = .next s' ∧ Ticks s s' := by
  refine ⟨_, rfl, ?_⟩
  with_reducible repeat' first | exact Ticks.same | (apply Ticks.after; apply portFence_ticks) | split

theorem sendUnsched_ticks (s : State) (p : Nat) (l : List Byte) (held : Option Nat) : Ticks s (sendUnsched s p l held) := by
  unfold sendUnsched
  with_reducible repeat' first
    | exact Ticks.same
    | (apply Ticks.after; first | apply onPort_ticks | apply creditBack_ticks | apply txFlit_ticks)
    | apply Ticks.ite

theorem flushUnsched_ticks (n : Nat) (s : State) (p : Nat) : Ticks s (flushUnsched n s p) := by
  induction n generalizing s with
  | zero => exact Ticks.same
  | succ n ih =>
    unfold flushUnsched; dsimp only; split
    · exact Ticks.same
    · split
      · refine Ticks.trans ?_ (ih _)
        exact (onPort_ticks _ _ _).trans ((txFlit_ticks _ _ _).trans (creditBack_ticks _ _))
      · exact Ticks.same

theorem unschedTo_ticks (s : State) (rank : Nat) (l : List Byte) (held : Option Nat) : Ticks s (unschedTo s rank l held) := by
  unfold unschedTo
  with_reducible repeat' first
    | exact Ticks.same
    | (apply Ticks.after; first | apply creditBack_ticks | apply sendUnsched_ticks)
    | apply Ticks.ite

theorem askPage_ticks (s : State) (rank planId stripe : Nat) : Ticks s (askPage s rank planId stripe) := by
  unfold askPage
  with_reducible repeat' first | (apply Ticks.after; apply unschedTo_ticks) | (refine Ticks.upd ?_; exact Ticks.same)

theorem sendPage_ticks (s : State) (r : PeerRead) : Ticks s (sendPage s r) := by
  unfold sendPage
  with_reducible repeat' first
    | (apply Ticks.after; apply unschedTo_ticks)
    | (apply Ticks.after; apply Ticks.forUpto; intro s x)
    | (refine Ticks.upd ?_; exact Ticks.same)

theorem rebuildRequests_ticks (s : State) : Ticks s (rebuildRequests s) := by
  unfold rebuildRequests
  with_reducible repeat' first
    | exact Ticks.same
    | (apply Ticks.after; apply askPage_ticks)
    | (apply Ticks.after; apply Ticks.foldl; intro s x)
    | split

theorem peerRequest_ticks (s : State) (rank planId stripe : Nat) : Ticks s (peerRequest s rank planId stripe) := by
  unfold peerRequest
  with_reducible repeat' first
    | (apply Ticks.after; first | apply raise_ticks | apply dropRebuild_ticks | apply wakeTo_ticks)
    | (refine Ticks.upd ?_; exact Ticks.same)
    | apply Ticks.ite
    | split

theorem takePageData_ticks (s : State) (rank planId stripe k : Nat) (body : List Byte) : Ticks s (takePageData s rank planId stripe k body) := by
  unfold takePageData
  exact Ticks.upd Ticks.same

theorem unschedDeliver_ticks (s : State) (p : Nat) (l : List Byte) : Ticks s (unschedDeliver s p l) := by
  unfold unschedDeliver
  with_reducible repeat' first
    | (apply Ticks.after; first | apply creditBack_ticks | apply unschedTo_ticks | apply peerRequest_ticks | apply takePageData_ticks)
    | (refine Ticks.upd ?_; first | exact Ticks.same | (apply Ticks.after; first | apply creditBack_ticks | apply unschedTo_ticks | apply peerRequest_ticks | apply takePageData_ticks))
    | apply Ticks.ite

theorem execFlitUnschedReceive_ticks (p : PortId) (flit : List Byte) (ns : Nat) (s : State) : ∃ s', execFlitUnschedReceive p flit ns s = .next s' ∧ Ticks s s' := by
  refine ⟨_, rfl, ?_⟩
  with_reducible repeat' first
    | exact Ticks.same
    | (apply Ticks.after; first | apply onPort_ticks | apply portFence_ticks | apply rxTake_ticks | apply badFlit_ticks | apply unschedDeliver_ticks)
    | (refine Ticks.upd ?_; first | exact Ticks.same | (apply Ticks.after; first | apply onPort_ticks | apply portFence_ticks | apply rxTake_ticks | apply badFlit_ticks | apply unschedDeliver_ticks) | apply Ticks.ite | split | (refine Ticks.upd ?_; first | exact Ticks.same | (apply Ticks.after; first | apply onPort_ticks | apply portFence_ticks | apply rxTake_ticks | apply badFlit_ticks | apply unschedDeliver_ticks)))
    | apply Ticks.ite
    | split

theorem execLnkPowerGood_ticks (wake : Bool) (s : State) : ∃ s', execLnkPowerGood wake s = .next s' ∧ Ticks s s' := by
  refine ⟨_, rfl, ?_⟩
  with_reducible repeat' first
    | (apply Ticks.after; apply portTo_ticks)
    | (apply Ticks.after; apply Ticks.forUpto; intro s x)
    | (refine Ticks.upd ?_; exact Ticks.same)
    | split

theorem execPortTrainingStart_ticks (p : PortId) (s : State) : ∃ s', execPortTrainingStart p s = .next s' ∧ Ticks s s' := by
  refine ⟨_, rfl, ?_⟩
  with_reducible repeat' first
    | (apply Ticks.after; apply portTrain_ticks)
    | (refine Ticks.upd ?_; first | exact Ticks.same | (apply Ticks.after; apply portTrain_ticks))
    | apply Ticks.ite

theorem execPortNoSignalTimeout_ticks (p : PortId) (s : State) : ∃ s', execPortNoSignalTimeout p s = .next s' ∧ Ticks s s' := by
  refine ⟨_, rfl, ?_⟩
  with_reducible repeat' first
    | exact Ticks.same
    | (apply Ticks.after; first | apply onPort_ticks | apply raise_ticks | apply portTo_ticks)
    | split

theorem execPortTrainingTimeout_ticks (p : PortId) (s : State) : ∃ s', execPortTrainingTimeout p s = .next s' ∧ Ticks s s' := by
  refine ⟨_, rfl, ?_⟩
  with_reducible repeat' first
    | exact Ticks.same
    | (apply Ticks.after; first | apply onPort_ticks | apply raise_ticks | apply portTo_ticks)
    | (refine Ticks.upd ?_; first | exact Ticks.same | (apply Ticks.after; first | apply onPort_ticks | apply raise_ticks | apply portTo_ticks) | apply Ticks.ite | split | (refine Ticks.upd ?_; first | exact Ticks.same | (apply Ticks.after; first | apply onPort_ticks | apply raise_ticks | apply portTo_ticks)))
    | apply Ticks.ite
    | split

theorem execPortRetryTimer_ticks (p : PortId) (s : State) : ∃ s', execPortRetryTimer p s = .next s' ∧ Ticks s s' := by
  refine ⟨_, rfl, ?_⟩
  with_reducible repeat' first
    | exact Ticks.same
    | (apply Ticks.after; apply portTrain_ticks)
    | apply Ticks.ite
    | split

theorem execPmdTrainingComplete_ticks (p : PortId) (spare : Nat) (ms : Nat) (s : State) : ∃ s', execPmdTrainingComplete p spare ms s = .next s' ∧ Ticks s s' := by
  refine ⟨_, rfl, ?_⟩
  with_reducible repeat' first
    | exact Ticks.same
    | (apply Ticks.after; first | apply onPort_ticks | apply hwState_ticks | apply giveTx_ticks)
    | (refine Ticks.upd ?_; first | exact Ticks.same | (apply Ticks.after; first | apply onPort_ticks | apply hwState_ticks | apply giveTx_ticks) | apply Ticks.ite | split | (refine Ticks.upd ?_; first | exact Ticks.same | (apply Ticks.after; first | apply onPort_ticks | apply hwState_ticks | apply giveTx_ticks)))
    | apply Ticks.ite
    | split

theorem execIdentReceive_ticks (p : PortId) (flit : List Byte) (s : State) : ∃ s', execIdentReceive p flit s = .next s' ∧ Ticks s s' := by
  refine ⟨_, rfl, ?_⟩
  with_reducible repeat' first
    | (apply Ticks.after; first | apply onPort_ticks | apply raise_ticks | apply portFence_ticks)
    | (refine Ticks.upd ?_; first | exact Ticks.same | (apply Ticks.after; first | apply onPort_ticks | apply raise_ticks | apply portFence_ticks))
    | apply Ticks.ite

theorem execLossOfSignal_ticks (p : PortId) (s : State) : ∃ s', execLossOfSignal p s = .next s' ∧ Ticks s s' := by
  refine ⟨_, rfl, ?_⟩
  with_reducible repeat' first | exact Ticks.same | (apply Ticks.after; apply portDrop_ticks) | split

theorem execLaneFlitReceive_ticks (p : PortId) (flit : List Byte) (s : State) : ∃ s', execLaneFlitReceive p flit s = .next s' ∧ Ticks s s' := by
  refine ⟨_, rfl, ?_⟩
  with_reducible repeat' first
    | exact Ticks.same
    | (apply Ticks.after; first | apply onPort_ticks | apply rxCount_ticks | apply hcrcNak_ticks)
    | (refine Ticks.upd ?_; first | exact Ticks.same | (apply Ticks.after; first | apply onPort_ticks | apply rxCount_ticks | apply hcrcNak_ticks) | apply Ticks.ite | split)
    | apply Ticks.ite
    | split

theorem sendLane_ticks (s : State) (p lane : Nat) (back : Bool) : Ticks s (sendLane s p lane back) := by
  unfold sendLane
  with_reducible repeat' first | exact Ticks.same | (apply Ticks.after; first | apply onPort_ticks | apply giveTx_ticks)

theorem execLaneSpareSwitch_ticks (e : SpareSwitch) (s : State) : ∃ s', execLaneSpareSwitch e s = .next s' ∧ Ticks s s' := by
  refine ⟨_, rfl, ?_⟩
  with_reducible repeat' first
    | exact Ticks.same
    | (apply Ticks.after; first | apply onPort_ticks | apply raise_ticks)
    | (apply Ticks.elim (fun _ => ?_) ?_)
    | (refine Ticks.upd ?_; first | exact Ticks.same | (apply Ticks.after; first | apply onPort_ticks | apply raise_ticks) | apply Ticks.ite | split | (refine Ticks.upd ?_; first | exact Ticks.same | (apply Ticks.after; first | apply onPort_ticks | apply raise_ticks)))
    | apply Ticks.ite
    | split

theorem weakLane_ticks (s : State) (p k : Nat) : Ticks s (weakLane s p k) := by
  unfold weakLane
  with_reducible repeat' first
    | exact Ticks.same
    | (apply Ticks.after; first | apply onPort_ticks | apply portDrop_ticks | apply raise_ticks | apply sendLane_ticks)
    | (refine Ticks.upd ?_; first | exact Ticks.same | (apply Ticks.after; first | apply onPort_ticks | apply portDrop_ticks | apply raise_ticks | apply sendLane_ticks) | apply Ticks.ite | split | (refine Ticks.upd ?_; first | exact Ticks.same | (apply Ticks.after; first | apply onPort_ticks | apply portDrop_ticks | apply raise_ticks | apply sendLane_ticks)))
    | apply Ticks.ite
    | split

theorem execUncorrectableCodeword_ticks (p : PortId) (s : State) : ∃ s', execUncorrectableCodeword p s = .next s' ∧ Ticks s s' := by
  refine ⟨_, rfl, ?_⟩
  with_reducible repeat' first
    | exact Ticks.same
    | (apply Ticks.after; first | apply onPort_ticks | apply sendNak_ticks)
    | apply Ticks.ite

theorem execCodewordErrorLimit_ticks (p : PortId) (s : State) : ∃ s', execCodewordErrorLimit p s = .next s' ∧ Ticks s s' := by
  refine ⟨_, rfl, ?_⟩
  with_reducible repeat' first | exact Ticks.same | (apply Ticks.after; apply portDrop_ticks) | split

theorem lnkDown_ticks (s : State) : Ticks s (lnkDown s) := by
  unfold lnkDown
  dsimp only
  exact Ticks.upd (((Ticks.forUpto _ _ _ fun _ _ => portTo_ticks _ _ _).trans (clearWindow_ticks _)).trans (noPortx_ticks _))

/- Sched.lean. -/

theorem remoteAdd_ticks (s : State) (c : Option Nat) (obj inc inst : Nat) : Ticks s (remoteAdd s c obj inc inst) := by
  unfold remoteAdd
  with_reducible repeat' first
    | (apply Ticks.after; first | apply onSo_ticks | apply raise_ticks)
    | (refine Ticks.upd ?_; exact Ticks.same)
    | apply Ticks.ite
    | split

theorem onLink_ticks (s : State) (c i : Nat) (f : LinkEnt → LinkEnt) : Ticks s (onLink s c i f) := by
  unfold onLink
  with_reducible repeat' first | exact Ticks.same | (apply Ticks.after; apply onCtx_ticks)

theorem dataWrite_ticks (s : State) (c : Nat) (e : LinkEnt) (l : List Byte) (hold : Bool) : Ticks s (dataWrite s c e l hold) := by
  unfold dataWrite
  with_reducible repeat' first
    | exact Ticks.same
    | (apply Ticks.after; first | apply xmWrite_ticks | (apply Ticks.sound; apply onLink_ticks))
    | split

theorem holdFlit_ticks (s : State) (p : Nat) (l : List Byte) (arr : Option Arrival) (good : Bool) : Ticks s (holdFlit s p l arr good) := by
  unfold holdFlit
  with_reducible repeat' first
    | exact Ticks.same
    | (apply Ticks.after; apply onPort_ticks)
    | (refine Ticks.upd ?_; first | exact Ticks.same | (apply Ticks.after; apply onPort_ticks) | apply Ticks.ite | split)

theorem execFlitDataReceive_ticks (p : PortId) (flit : List Byte) (ns : Nat) (s : State) : ∃ s', execFlitDataReceive p flit ns s = .next s' ∧ Ticks s s' := by
  refine ⟨_, rfl, ?_⟩
  with_reducible repeat' first
    | exact Ticks.same
    | (apply Ticks.after; first | apply portFence_ticks | apply rxTake_ticks | apply badFlit_ticks | apply dataWrite_ticks | apply holdFlit_ticks)
    | (refine Ticks.upd ?_; first | exact Ticks.same | (apply Ticks.after; first | apply portFence_ticks | apply rxTake_ticks | apply badFlit_ticks | apply dataWrite_ticks | apply holdFlit_ticks) | apply Ticks.ite | split)
    | apply Ticks.ite
    | split

theorem syncApply_ticks (s : State) (l : List Byte) : Ticks s (syncApply s l) := by
  unfold syncApply
  with_reducible repeat' first | exact Ticks.same | (apply Ticks.after; apply remoteAdd_ticks)

theorem execFlitSyncReceive_ticks (p : PortId) (flit : List Byte) (ns : Nat) (s : State) : ∃ s', execFlitSyncReceive p flit ns s = .next s' ∧ Ticks s s' := by
  refine ⟨_, rfl, ?_⟩
  with_reducible repeat' first
    | exact Ticks.same
    | (apply Ticks.after; first | apply portFence_ticks | apply rxTake_ticks | apply badFlit_ticks | apply holdFlit_ticks | apply syncApply_ticks)
    | (refine Ticks.upd ?_; first | exact Ticks.same | (apply Ticks.after; first | apply portFence_ticks | apply rxTake_ticks | apply badFlit_ticks | apply holdFlit_ticks | apply syncApply_ticks) | apply Ticks.ite | split)
    | apply Ticks.ite
    | split

theorem execInboundEntryComplete_ticks (c : Ctx) (entry : Nat) (s : State) : ∃ s', execInboundEntryComplete c entry s = .next s' ∧ Ticks s s' := by
  refine ⟨_, rfl, ?_⟩
  with_reducible repeat' first
    | exact Ticks.same
    | (apply Ticks.after; first | apply remoteAdd_ticks | apply onLink_ticks)
    | split

theorem haltFlits_ticks (s : State) (but : Option Nat) (id n : Nat) : Ticks s (haltFlits s but id n) := by
  unfold haltFlits
  with_reducible repeat' first
    | exact Ticks.same
    | (apply Ticks.after; apply txFlit_ticks)
    | (apply Ticks.after; apply Ticks.forUpto; intro s x)
    | split

theorem applyHalt_ticks (s : State) (c n : Nat) : Ticks s (applyHalt s c n) := by
  unfold applyHalt
  with_reducible repeat' first
    | (apply Ticks.after; first | apply onCtx_ticks | apply haltFlits_ticks)
    | (refine Ticks.upd ?_; first | exact Ticks.same | (apply Ticks.after; first | apply onCtx_ticks | apply haltFlits_ticks))

theorem haltTake_ticks (s : State) (p : Nat) (l : List Byte) : Ticks s (haltTake s p l) := by
  unfold haltTake
  with_reducible repeat' first
    | (apply Ticks.after; first | apply onCtx_ticks | apply haltFlits_ticks)
    | dsimp only
    | (refine Ticks.upd ?_; exact Ticks.same)
    | split

theorem execFlitHaltReceive_ticks (p : PortId) (flit : List Byte) (s : State) : ∃ s', execFlitHaltReceive p flit s = .next s' ∧ Ticks s s' := by
  refine ⟨_, rfl, ?_⟩
  with_reducible repeat' first
    | exact Ticks.same
    | (apply Ticks.after; first | apply portFence_ticks | apply rxTake_ticks | apply holdFlit_ticks | apply haltTake_ticks)
    | apply Ticks.ite
    | split

theorem markersSend_ticks (s : State) : Ticks s (markersSend s) := by
  unfold markersSend
  with_reducible repeat' first
    | exact Ticks.same
    | (apply Ticks.after; apply txFlit_ticks)
    | (apply Ticks.after; apply Ticks.forUpto; intro s x)
    | apply Ticks.ite
    | split

theorem markerIn_ticks (s : State) (p : Nat) (l : List Byte) (a : Arrival) : Ticks s (markerIn s p l a) := by
  unfold markerIn
  with_reducible repeat' first
    | exact Ticks.same
    | (apply Ticks.after; apply markerTake_ticks)
    | (refine Ticks.upd ?_; first | exact Ticks.same | (apply Ticks.after; apply markerTake_ticks) | apply Ticks.ite | split)
    | apply Ticks.ite
    | split

theorem execBeatMarkerReceive_ticks (p : PortId) (flit : List Byte) (eighths : Int) (s : State) : ∃ s', execBeatMarkerReceive p flit eighths s = .next s' ∧ Ticks s s' := by
  refine ⟨_, rfl, ?_⟩
  with_reducible repeat' first
    | exact Ticks.same
    | (apply Ticks.after; first | apply portFence_ticks | apply rxTake_ticks | apply holdFlit_ticks | apply markerIn_ticks)
    | apply Ticks.ite
    | split

theorem verified_ticks (s : State) (p : Nat) (l : List Byte) (arr : Option Arrival) : Ticks s (verified s p l arr) := by
  unfold verified
  with_reducible repeat' first
    | exact Ticks.same
    | (apply Ticks.after; first | apply unschedDeliver_ticks | apply onLink_ticks | apply syncApply_ticks | apply haltTake_ticks | apply markerIn_ticks)
    | (apply Ticks.elim (fun _ => ?_) ?_)
    | (refine Ticks.upd ?_; first | exact Ticks.same | (apply Ticks.after; first | apply unschedDeliver_ticks | apply onLink_ticks | apply syncApply_ticks | apply haltTake_ticks | apply markerIn_ticks) | apply Ticks.ite | split | (refine Ticks.upd ?_; first | exact Ticks.same | (apply Ticks.after; first | apply unschedDeliver_ticks | apply onLink_ticks | apply syncApply_ticks | apply haltTake_ticks | apply markerIn_ticks)))
    | apply Ticks.ite
    | split

theorem unheld_ticks (s : State) (l : List Byte) : Ticks s (unheld s l) := by
  unfold unheld
  with_reducible repeat' first | exact Ticks.same | (apply Ticks.after; apply onLink_ticks) | split

theorem execFlitTagReceive_ticks (p : PortId) (flit : List Byte) (s : State) : ∃ s', execFlitTagReceive p flit s = .next s' ∧ Ticks s s' := by
  refine ⟨_, rfl, ?_⟩
  with_reducible repeat' first
    | exact Ticks.same
    | (apply Ticks.after; first | apply onPort_ticks | apply portFence_ticks | apply rxTake_ticks | apply verified_ticks | apply unheld_ticks)
    | (apply Ticks.after; apply Ticks.foldl; intro s x)
    | (refine Ticks.upd ?_; first | exact Ticks.same | (apply Ticks.after; first | apply onPort_ticks | apply portFence_ticks | apply rxTake_ticks | apply verified_ticks | apply unheld_ticks) | (apply Ticks.after; apply Ticks.foldl; intro s x) | apply Ticks.ite | split | (refine Ticks.upd ?_; first | exact Ticks.same | (apply Ticks.after; first | apply onPort_ticks | apply portFence_ticks | apply rxTake_ticks | apply verified_ticks | apply unheld_ticks)))
    | apply Ticks.ite
    | split

theorem flushSync_ticks (n : Nat) (s : State) (p : Nat) : Ticks s (flushSync n s p) := by
  induction n generalizing s with
  | zero => exact Ticks.same
  | succ n ih =>
    unfold flushSync; split
    · exact Ticks.same
    · split
      · exact ((onPort_ticks _ _ _).trans (onLink_ticks _ _ _ _)).trans ((txFlit_ticks _ _ _).trans (ih _))
      · exact Ticks.same

theorem portFlush_ticks (s : State) (p : Nat) : Ticks s (portFlush s p) := by
  unfold portFlush
  with_reducible repeat' first
    | exact Ticks.same
    | (apply Ticks.after; first | apply flushUnsched_ticks | apply flushSync_ticks)

theorem execFlitAckReceive_ticks (p : PortId) (flit : List Byte) (s : State) : ∃ s', execFlitAckReceive p flit s = .next s' ∧ Ticks s s' := by
  refine ⟨_, rfl, ?_⟩
  with_reducible repeat' first
    | exact Ticks.same
    | (apply Ticks.after; first | apply onPort_ticks | apply drainWait_ticks | apply rxCount_ticks | apply hcrcNak_ticks | apply portFlush_ticks)
    | (refine Ticks.upd ?_; first | exact Ticks.same | (apply Ticks.after; first | apply onPort_ticks | apply drainWait_ticks | apply rxCount_ticks | apply hcrcNak_ticks | apply portFlush_ticks) | apply Ticks.ite | split)
    | apply Ticks.ite
    | split

theorem execFlitNakReceive_ticks (p : PortId) (flit : List Byte) (s : State) : ∃ s', execFlitNakReceive p flit s = .next s' ∧ Ticks s s' := by
  refine ⟨_, rfl, ?_⟩
  with_reducible repeat' first
    | exact Ticks.same
    | (apply Ticks.after; first | apply onPort_ticks | apply resend_ticks | apply rxCount_ticks | apply hcrcNak_ticks)
    | (refine Ticks.upd ?_; first | exact Ticks.same | (apply Ticks.after; first | apply onPort_ticks | apply resend_ticks | apply rxCount_ticks | apply hcrcNak_ticks) | apply Ticks.ite | split)
    | apply Ticks.ite
    | split

theorem sendTile_ticks (n : Nat) (s : State) (f : Forward) (e : LinkEnt) (i : Nat) : Ticks s (sendTile n s f e i).2 := by
  induction n generalizing s i with
  | zero => exact Ticks.same
  | succ n ih =>
    unfold sendTile; split
    · exact (txFlit_ticks _ _ _).trans (ih _ _)
    · exact Ticks.same

theorem forwardSend_ticks (s : State) (q : Nat) : Ticks s (forwardSend s q) := by
  unfold forwardSend
  with_reducible repeat' first
    | exact Ticks.same
    | (apply Ticks.after; first | apply onQuad_ticks | apply flushSync_ticks | apply sendTile_ticks)
    | (refine Ticks.upd ?_; first | exact Ticks.same | (apply Ticks.after; first | apply onQuad_ticks | apply flushSync_ticks | apply sendTile_ticks) | apply Ticks.ite | split | (refine Ticks.upd ?_; first | exact Ticks.same | (apply Ticks.after; first | apply onQuad_ticks | apply flushSync_ticks | apply sendTile_ticks)))
    | apply Ticks.ite
    | split

theorem execForwardTileSend_ticks (q : Quad) (s : State) : ∃ s', execForwardTileSend q s = .next s' ∧ Ticks s s' := by
  refine ⟨_, rfl, ?_⟩
  with_reducible repeat' first | exact Ticks.same | (apply Ticks.after; apply forwardSend_ticks)

theorem dropForward_ticks (s : State) (q : Nat) (f : Forward) : Ticks s (dropForward s q f) := by
  unfold dropForward
  with_reducible repeat' first
    | exact Ticks.same
    | (apply Ticks.after; first | apply onQuad_ticks | apply raise_ticks | apply faultBatch_ticks)

theorem execForwardDrop_ticks (q : Quad) (s : State) : ∃ s', execForwardDrop q s = .next s' ∧ Ticks s s' := by
  refine ⟨_, rfl, ?_⟩
  with_reducible repeat' first | exact Ticks.same | (apply Ticks.after; apply dropForward_ticks) | split

/- Sync.lean. -/

theorem soLast_ticks (s : State) (code c q obj : Nat) : Ticks s (soLast s code c q obj) := by
  unfold soLast
  exact Ticks.upd Ticks.same

theorem orderFault_ticks (s : State) (q c adm obj : Nat) : Ticks s (orderFault s q c adm obj) := by
  unfold orderFault
  with_reducible repeat' first
    | (apply Ticks.after; first | apply raise_ticks | apply faultBatch_ticks | apply stopWork_ticks | apply soLast_ticks)
    | (refine Ticks.upd ?_; exact Ticks.same)

theorem relFault_ticks (s : State) (q c adm obj : Nat) : Ticks s (relFault s q c adm obj) := by
  unfold relFault
  with_reducible repeat' first
    | (apply Ticks.after; first | apply raise_ticks | apply faultBatch_ticks | apply stopWork_ticks | apply soLast_ticks)
    | (refine Ticks.upd ?_; exact Ticks.same)

theorem soPerform_ticks (s : State) (q c adm : Nat) (acq : Bool) (obj : Nat) : Ticks s (soPerform s q c adm acq obj) := by
  unfold soPerform
  with_reducible repeat' first
    | exact Ticks.same
    | (apply Ticks.after; first | apply onQuad_ticks | apply onSo_ticks | apply popOp_ticks)
    | (refine Ticks.upd ?_; first | exact Ticks.same | (apply Ticks.after; first | apply onQuad_ticks | apply onSo_ticks | apply popOp_ticks) | apply Ticks.ite | split | (refine Ticks.upd ?_; first | exact Ticks.same | (apply Ticks.after; first | apply onQuad_ticks | apply onSo_ticks | apply popOp_ticks)))
    | apply Ticks.ite
    | split

theorem soIssue_ticks (s : State) (q : Nat) (t : Todo) (acq : Bool) (i min : Nat) : Ticks s (soIssue s q t acq i min) := by
  unfold soIssue
  dsimp only
  generalize opThreshold _ _ _ _ _ = thr
  generalize soIndex _ _ _ = obj
  exact Ticks.ite _ ((orderFault_ticks _ _ _ _ _).trans (advanceAll_ticks _ _))
    (Ticks.ite _ (soPerform_ticks _ _ _ _ _ _) (onQuad_ticks _ _ _))

theorem execSyncAcq_ticks (q : Quad) (s : State) : ∃ s', execSyncAcq q s = .next s' ∧ Ticks s s' := by
  refine ⟨_, rfl, ?_⟩
  with_reducible repeat' first | exact Ticks.same | (apply Ticks.after; (apply Ticks.sound; apply soIssue_ticks)) | split

theorem execSyncWait_ticks (q : Quad) (s : State) : ∃ s', execSyncWait q s = .next s' ∧ Ticks s s' := by
  refine ⟨_, rfl, ?_⟩
  with_reducible repeat' first | exact Ticks.same | (apply Ticks.after; (apply Ticks.sound; apply soIssue_ticks)) | split

theorem soRelease_ticks (s : State) (q : Nat) (t : Todo) (i inc : Nat) : Ticks s (soRelease s q t i inc) := by
  unfold soRelease
  with_reducible repeat' first
    | exact Ticks.same
    | (apply Ticks.after; first | apply onSo_ticks | apply advanceAll_ticks | apply popOp_ticks | apply relFault_ticks)
    | (refine Ticks.upd ?_; first | exact Ticks.same | (apply Ticks.after; first | apply onSo_ticks | apply advanceAll_ticks | apply popOp_ticks | apply relFault_ticks) | apply Ticks.ite | split)
    | apply Ticks.ite
    | split

theorem execSyncRel_ticks (q : Quad) (s : State) : ∃ s', execSyncRel q s = .next s' ∧ Ticks s s' := by
  refine ⟨_, rfl, ?_⟩
  with_reducible repeat' first | exact Ticks.same | (apply Ticks.after; apply soRelease_ticks) | split

theorem execSyncSend_ticks (q : Quad) (s : State) : ∃ s', execSyncSend q s = .next s' ∧ Ticks s s' := by
  refine ⟨_, rfl, ?_⟩
  with_reducible repeat' first
    | exact Ticks.same
    | (apply Ticks.after; first | apply onPort_ticks | apply popOp_ticks | apply flushSync_ticks)
    | (refine Ticks.upd ?_; first | exact Ticks.same | (apply Ticks.after; first | apply onPort_ticks | apply popOp_ticks | apply flushSync_ticks) | apply Ticks.ite | split | (refine Ticks.upd ?_; first | exact Ticks.same | (apply Ticks.after; first | apply onPort_ticks | apply popOp_ticks | apply flushSync_ticks)))
    | apply Ticks.ite
    | split

theorem blockedProceed_ticks (s : State) (q : Nat) : Ticks s (blockedProceed s q) := by
  unfold blockedProceed
  with_reducible repeat' first
    | exact Ticks.same
    | (apply Ticks.after; apply soPerform_ticks)
    | (refine Ticks.upd ?_; first | exact Ticks.same | (apply Ticks.after; apply soPerform_ticks) | apply Ticks.ite | split)
    | apply Ticks.ite
    | split

theorem execBlockedOpProceed_ticks (q : Quad) (s : State) : ∃ s', execBlockedOpProceed q s = .next s' ∧ Ticks s s' := by
  refine ⟨_, rfl, ?_⟩
  with_reducible repeat' first | exact Ticks.same | (apply Ticks.after; apply blockedProceed_ticks) | split

theorem waitTimeout_ticks (s : State) (q : Nat) : Ticks s (waitTimeout s q) := by
  unfold waitTimeout
  with_reducible repeat' first
    | (apply Ticks.after; first | apply raise_ticks | apply faultBatch_ticks | apply stopWork_ticks | apply soLast_ticks | apply blockedProceed_ticks)
    | (refine Ticks.upd ?_; exact Ticks.same)
    | split

theorem soStray_ticks (s : State) (i : Nat) : Ticks s (soStray s i) := by
  unfold soStray
  with_reducible repeat' first
    | exact Ticks.same
    | (apply Ticks.after; first | apply onSo_ticks | apply raise_ticks)
    | (refine Ticks.upd ?_; first | exact Ticks.same | (apply Ticks.after; first | apply onSo_ticks | apply raise_ticks) | apply Ticks.ite | split | (refine Ticks.upd ?_; first | exact Ticks.same | (apply Ticks.after; first | apply onSo_ticks | apply raise_ticks)))
    | apply Ticks.ite
    | split

theorem leaveHolds_ticks (s : State) (c adm : Nat) : Ticks s (leaveHolds s c adm) := by
  unfold leaveHolds
  with_reducible repeat' first
    | exact Ticks.same
    | (refine Ticks.upd ?_; first | exact Ticks.same | apply Ticks.ite | split | (refine Ticks.upd ?_; first | exact Ticks.same))
    | apply Ticks.ite
    | split

theorem soRaiseTo_ticks (s : State) (i base : Nat) : Ticks s (soRaiseTo s i base) := by
  unfold soRaiseTo
  generalize soMet _ _ = b
  exact Ticks.ite _ Ticks.same (onSo_ticks _ _ _)

theorem soRealign_ticks (n : Nat) (s : State) (i : Nat) : Ticks s (soRealign n s i) := by
  unfold soRealign
  with_reducible repeat' first
    | exact Ticks.same
    | (apply Ticks.after; first | (apply Ticks.sound; apply soStray_ticks) | (apply Ticks.sound; apply soRaiseTo_ticks))

theorem syncRealign_ticks (s : State) (c n : Nat) : Ticks s (syncRealign s c n) := by
  unfold syncRealign
  with_reducible repeat' first
    | exact Ticks.same
    | (apply Ticks.after; apply soRealign_ticks)
    | (apply Ticks.after; apply Ticks.foldl; intro s x)

theorem syncZero_ticks (s : State) (c : Nat) : Ticks s (syncZero s c) := by
  unfold syncZero
  with_reducible repeat' first
    | exact Ticks.same
    | (apply Ticks.after; apply onSo_ticks)
    | (apply Ticks.after; apply Ticks.foldl; intro s x)
    | (refine Ticks.upd ?_; first | exact Ticks.same | (apply Ticks.after; apply onSo_ticks) | (apply Ticks.after; apply Ticks.foldl; intro s x) | apply Ticks.ite | split | (refine Ticks.upd ?_; first | exact Ticks.same | (apply Ticks.after; apply onSo_ticks)))

theorem clearHolds_ticks (s : State) (q : Nat) : Ticks s (clearHolds s q) := by
  unfold clearHolds
  with_reducible repeat' first
    | exact Ticks.same
    | (refine Ticks.upd ?_; first | exact Ticks.same | apply Ticks.ite | split | (refine Ticks.upd ?_; first | exact Ticks.same))
    | apply Ticks.ite
    | split

end Sys2Proof.Machine
end

