-- ==== Sys2Proof/Laws/TicksKeeper.lean ====
section
/-! SUPPORT. What each operation of Mailbox, PlanLife, Instances, Staged, Grafts does to the beat number, the slot and the guard: nothing. -/

namespace Sys2Proof.Machine

set_option Elab.async false

open Sys2Proof

/- Mailbox.lean. -/

theorem pagePut_ticks (s : State) (m o : Nat) (l : List Byte) : Ticks s (pagePut s m o l) := by
  unfold pagePut
  with_reducible repeat' first | exact Ticks.same | (apply Ticks.after; apply onMb_ticks)

theorem ringBusy_ticks (s : State) (m : Nat) : Ticks s (ringBusy s m) := by
  unfold ringBusy
  with_reducible repeat' first | exact Ticks.same | (apply Ticks.after; apply onMb_ticks)

theorem notify_ticks (s : State) (m : Nat) : Ticks s (notify s m) := by
  unfold notify
  with_reducible repeat' first | exact Ticks.same | (apply Ticks.after; apply signal_ticks) | split

theorem putPart_ticks (s : State) (m k : Nat) : Ticks s (putPart s m k) := by
  unfold putPart
  with_reducible repeat' first | exact Ticks.same | (apply Ticks.after; first | apply onMb_ticks | apply pagePut_ticks)

theorem respond_ticks (s : State) (m st seq winner beat : Nat) (body : List Byte) (fin : MbSt) : Ticks s (respond s m st seq winner beat body fin) := by
  unfold respond
  with_reducible repeat' first
    | exact Ticks.same
    | (apply Ticks.after; first | apply onMb_ticks | apply notify_ticks | apply putPart_ticks)
    | split

theorem journal_ticks (s : State) (m seq st link effect : Nat) :
    Ticks s (journal s m seq st link effect) := jWrite_ticks s _

/-- A SEQ taken for a recorded command, or none. -/
theorem seqIf_ticks (s : State) (c : Prop) [Decidable c] : Ticks s (if c then takeSeq s else (0, s)).2 := by
  split
  · exact takeSeq_ticks s
  · exact Ticks.same

/-- Keeper's current command changes. -/
theorem setCur_ticks (s : State) (c : Option Nat) (n : Nat) (w : CmdWait) :
    Ticks s { s with wg.cur := c, wg.curSeq := n, wg.wait := w } :=
  ⟨rfl, rfl, rfl⟩

theorem supersede_ticks (s : State) (m winner : Nat) : Ticks s (supersede s m winner) := by
  unfold supersede
  with_reducible repeat' first
    | exact Ticks.same
    | (apply Ticks.after; first | apply onMb_ticks | apply raise_ticks | apply takeSeq_ticks | apply respond_ticks | apply journal_ticks)
    | (refine Ticks.upd ?_; first | exact Ticks.same | (apply Ticks.after; first | apply onMb_ticks | apply raise_ticks | apply takeSeq_ticks | apply respond_ticks | apply journal_ticks) | apply Ticks.ite | split)

theorem refuse_ticks (s : State) (m st : Nat) : Ticks s (refuse s m st) := by
  unfold refuse
  with_reducible repeat' first | exact Ticks.same | (apply Ticks.after; first | apply onMb_ticks | apply respond_ticks)

theorem accept_ticks (s : State) (m : Nat) : Ticks s (accept s m) := by
  unfold accept
  have h := seqIf_ticks s (recorded (mbOp s m) = true)
  revert h
  generalize (if recorded (mbOp s m) = true then takeSeq s else (0, s)) = w
  obtain ⟨n, u⟩ := w
  intro h
  dsimp only at h
  dsimp only
  have h2 := onMb_ticks u m (fun x => { x with st := .busy, accepted := satAdd 32 x.accepted 1 })
  have h3 : Ticks s { onMb u m (fun x => { x with st := .busy, accepted := satAdd 32 x.accepted 1 }) with
      wg.cur := some m, wg.curSeq := n, wg.wait := .none } := by
    exact h.trans (h2.trans (setCur_ticks _ _ _ _))
  split
  · exact h3
  · exact h3.trans (wakeActive_ticks _).sound

theorem takeTurn_ticks (s : State) (m : Nat) : Ticks s (takeTurn s m) := by
  unfold takeTurn
  with_reducible repeat' first
    | exact Ticks.same
    | (apply Ticks.after; first | (apply Ticks.sound; apply respond_ticks) | apply supersede_ticks | (apply Ticks.sound; apply refuse_ticks) | apply accept_ticks)
    | apply Ticks.ite
    | split

theorem serveNext_ticks (s : State) : Ticks s (serveNext s) := by
  unfold serveNext
  with_reducible repeat' first
    | exact Ticks.same
    | (apply Ticks.after; first | apply onMb_ticks | apply notify_ticks | apply putPart_ticks)
    | (apply Ticks.after; apply Ticks.forUpto; intro s x)
    | split

theorem turns_ticks (n : Nat) (s : State) : Ticks s (turns n s) := by
  induction n generalizing s with
  | zero => exact Ticks.same
  | succ n ih =>
    unfold turns; split
    · exact Ticks.same
    · exact (serveNext_ticks _).sound
    · rename_i m r _ _
      exact ((Ticks.upd Ticks.same).trans (takeTurn_ticks { s with wg.order := r } m)).trans (ih _)

theorem startRound_ticks (s : State) : Ticks s (startRound s) := by
  unfold startRound
  with_reducible repeat' first | (apply Ticks.after; apply turns_ticks) | (refine Ticks.upd ?_; exact Ticks.same)

theorem romRound_ticks (s : State) : Ticks s (romRound s) := by
  unfold romRound
  with_reducible repeat' first
    | exact Ticks.same
    | (apply Ticks.after; apply startRound_ticks)
    | apply Ticks.ite
    | split

theorem answerAt_ticks (s : State) (st : Nat) (body : List Byte) (effect : Nat) : Ticks s (answerAt s st body effect) := by
  unfold answerAt; split
  · exact Ticks.same
  · rename_i m _
    dsimp only
    refine Ticks.after (romRound_ticks _) ?_
    refine Ticks.after (turns_ticks _ _) ?_
    refine Ticks.after (setCur_ticks _ _ 0 _) ?_
    refine Ticks.after (respond_ticks _ m _ _ _ _ _ _).sound ?_
    have hj : Ticks s (if recorded (mbOp s m) = true then journal s m s.wg.curSeq st 0 effect else s) :=
      Ticks.step Ticks.same (journal_ticks _ _ _ _ _ _)
    exact Ticks.ite _ (Ticks.upd hj) hj

theorem answer_ticks (s : State) (st : Nat) (body : List Byte) : Ticks s (answer s st body) := by
  unfold answer
  with_reducible repeat' first | exact Ticks.same | (apply Ticks.after; apply answerAt_ticks)

theorem onCmd_ticks (s : State) (op : Nat) (f : List Byte → State) (h : ∀ p, Ticks s (f p)) : Ticks s (onCmd s op f) := by
  unfold onCmd; split
  · exact Ticks.same
  · exact h _

theorem queryCmd_ticks (s : State) (op : Nat) (body : List Byte) : Ticks s (queryCmd s op body) := by
  unfold queryCmd
  with_reducible repeat' first
    | exact Ticks.same
    | (apply Ticks.after; apply answer_ticks)
    | refine onCmd_ticks _ _ _ fun p => ?_

theorem rung_ticks (s : State) (m : Nat) : Ticks s (rung s m) := by
  unfold rung
  with_reducible repeat' first
    | exact Ticks.same
    | (apply Ticks.after; first | apply respond_ticks | apply romRound_ticks)
    | apply Ticks.ite
    | split

theorem doorbell_ticks (s : State) (m v : Nat) : Ticks s (doorbell s m v) := by
  unfold doorbell
  with_reducible repeat' first
    | exact Ticks.same
    | (apply Ticks.after; first | (apply Ticks.sound; apply onMb_ticks) | (apply Ticks.sound; apply ringBusy_ticks) | (apply Ticks.sound; apply serveNext_ticks) | apply rung_ticks)
    | apply Ticks.ite

theorem pageWrite_ticks (s : State) (m o : Nat) (l : List Byte) : Ticks s (pageWrite s m o l) := by
  unfold pageWrite
  with_reducible repeat' first
    | exact Ticks.same
    | (apply Ticks.after; first | apply pagePut_ticks | apply ringBusy_ticks)
    | split

theorem execDoorbellRing_ticks (m : MboxId) (s : State) : ∃ s', execDoorbellRing m s = .next s' ∧ Ticks s s' := by
  refine ⟨_, rfl, ?_⟩
  with_reducible repeat' first | exact Ticks.same | (apply Ticks.after; apply doorbell_ticks) | split

theorem execDoorbellNext_ticks (m : MboxId) (s : State) : ∃ s', execDoorbellNext m s = .next s' ∧ Ticks s s' := by
  refine ⟨_, rfl, ?_⟩
  with_reducible repeat' first | exact Ticks.same | (apply Ticks.after; apply doorbell_ticks) | split

theorem execDoorbellInvalid_ticks (m : MboxId) (v : Word) (s : State) : ∃ s', execDoorbellInvalid m v s = .next s' ∧ Ticks s s' := by
  refine ⟨_, rfl, ?_⟩
  with_reducible repeat' first | exact Ticks.same | (apply Ticks.after; apply doorbell_ticks) | apply Ticks.ite

theorem execMailboxPageWrite_ticks (m : MboxId) (off : Nat) (v : Word) (s : State) : ∃ s', execMailboxPageWrite m off v s = .next s' ∧ Ticks s s' := by
  refine ⟨_, rfl, ?_⟩
  with_reducible repeat' first | exact Ticks.same | (apply Ticks.after; apply pageWrite_ticks) | split

theorem frameError_ticks (s : State) (m : Nat) : Ticks s (frameError s m) := by
  unfold frameError
  with_reducible repeat' first
    | (apply Ticks.after; first | apply onMb_ticks | apply raise_ticks)
    | (refine Ticks.upd ?_; first | exact Ticks.same | (apply Ticks.after; first | apply onMb_ticks | apply raise_ticks))
    | apply Ticks.ite

theorem execSmbusSetOffset_ticks (off : Nat) (pecOk : Bool) (s : State) : ∃ s', execSmbusSetOffset off pecOk s = .next s' ∧ Ticks s s' := by
  refine ⟨_, rfl, ?_⟩
  with_reducible repeat' first | (apply Ticks.after; apply frameError_ticks) | (refine Ticks.upd ?_; exact Ticks.same) | split

theorem transportWrite_ticks (s : State) (m o : Nat) (l : List Byte) : Ticks s (transportWrite s m o l) := by
  unfold transportWrite
  with_reducible repeat' first
    | exact Ticks.same
    | (apply Ticks.after; first | (apply Ticks.sound; apply pagePut_ticks) | apply doorbell_ticks)
    | split

theorem execSmbusWrite_ticks (bytes : List Byte) (pecOk : Bool) (s : State) : ∃ s', execSmbusWrite bytes pecOk s = .next s' ∧ Ticks s s' := by
  refine ⟨_, rfl, ?_⟩
  with_reducible repeat' first
    | (apply Ticks.after; first | (apply Ticks.sound; apply pagePut_ticks) | (apply Ticks.sound; apply ringBusy_ticks) | (apply Ticks.sound; apply frameError_ticks) | apply transportWrite_ticks)
    | (refine Ticks.upd ?_; exact Ticks.same)
    | apply Ticks.ite

theorem execSmbusRead_ticks (s : State) : ∃ s', execSmbusRead s = .next s' ∧ Ticks s s' := by
  refine ⟨_, rfl, ?_⟩
  with_reducible repeat' first | (refine Ticks.upd ?_; exact Ticks.same) | split

theorem execSmbusTimeout_ticks (s : State) : ∃ s', execSmbusTimeout s = .next s' ∧ Ticks s s' := by
  refine ⟨_, rfl, ?_⟩
  with_reducible repeat' first | (refine Ticks.upd ?_; exact Ticks.same) | split

theorem uartAnswer_ticks (s : State) (result : Nat) (data : List Byte) : Ticks s (uartAnswer s result data) := by
  unfold uartAnswer
  exact Ticks.upd Ticks.same

theorem uartHold_ticks (s : State) (op : Nat) (l : List Byte) : Ticks s (uartHold s op l) := by
  unfold uartHold
  with_reducible repeat' first | (refine Ticks.upd ?_; exact Ticks.same) | split

theorem execUartWrite_ticks (frame : List Byte) (s : State) : ∃ s', execUartWrite frame s = .next s' ∧ Ticks s s' := by
  refine ⟨_, rfl, ?_⟩
  with_reducible repeat' first
    | exact Ticks.same
    | (apply Ticks.after; first | (apply Ticks.sound; apply ringBusy_ticks) | (apply Ticks.sound; apply frameError_ticks) | apply transportWrite_ticks | (apply Ticks.sound; apply uartAnswer_ticks) | (apply Ticks.sound; apply uartHold_ticks))
    | split

theorem execUartRead_ticks (frame : List Byte) (s : State) : ∃ s', execUartRead frame s = .next s' ∧ Ticks s s' := by
  refine ⟨_, rfl, ?_⟩
  with_reducible repeat' first
    | exact Ticks.same
    | (apply Ticks.after; first | apply frameError_ticks | apply uartAnswer_ticks | apply uartHold_ticks)
    | split

theorem execUartBaud_ticks (frame : List Byte) (s : State) : ∃ s', execUartBaud frame s = .next s' ∧ Ticks s s' := by
  refine ⟨_, rfl, ?_⟩
  with_reducible repeat' first
    | (apply Ticks.after; first | apply frameError_ticks | apply uartAnswer_ticks | apply uartHold_ticks)
    | (refine Ticks.upd ?_; first | exact Ticks.same | (apply Ticks.after; first | apply frameError_ticks | apply uartAnswer_ticks | apply uartHold_ticks))
    | split

theorem execUartFrameTimeout_ticks (s : State) : ∃ s', execUartFrameTimeout s = .next s' ∧ Ticks s s' := by
  refine ⟨_, rfl, ?_⟩
  with_reducible repeat' first | (refine Ticks.upd ?_; exact Ticks.same) | split

theorem execUartBreak_ticks (s : State) : ∃ s', execUartBreak s = .next s' ∧ Ticks s s' := by
  refine ⟨_, rfl, ?_⟩
  with_reducible repeat' first | (apply Ticks.after; apply frameError_ticks) | (refine Ticks.upd ?_; exact Ticks.same) | split

/- PlanLife.lean. -/

theorem quadClear_ticks (s : State) (q : Nat) : Ticks s (quadClear s q) := by
  unfold quadClear
  with_reducible repeat' first
    | exact Ticks.same
    | (apply Ticks.after; first | apply onQuad_ticks | apply endThreads_ticks | apply clearHolds_ticks)
    | (refine Ticks.upd ?_; first | exact Ticks.same | (apply Ticks.after; first | apply onQuad_ticks | apply endThreads_ticks | apply clearHolds_ticks) | apply Ticks.ite | split)

theorem quadDown_ticks (s : State) (q : Nat) : Ticks s (quadDown s q) := by
  unfold quadDown
  with_reducible repeat' first
    | (apply Ticks.after; apply quadClear_ticks)
    | (refine Ticks.upd ?_; first | exact Ticks.same | (apply Ticks.after; apply quadClear_ticks))

theorem powerQuads_ticks (s : State) : Ticks s (powerQuads s) := by
  unfold powerQuads
  with_reducible repeat' first
    | (apply Ticks.after; apply quadDown_ticks)
    | (apply Ticks.after; apply Ticks.forUpto; intro s x)
    | (refine Ticks.upd ?_; exact Ticks.same)
    | apply Ticks.ite

theorem invalidOn_ticks (s : State) (q cause : Nat) : Ticks s (invalidOn s q cause) := by
  unfold invalidOn
  with_reducible repeat' first
    | exact Ticks.same
    | (apply Ticks.after; apply onCtx_ticks)
    | (apply Ticks.after; apply Ticks.forUpto; intro s x)
    | split

theorem installProfile_ticks (s : State) (i : Nat) (p : Profile) : Ticks s (installProfile s i p) := by
  unfold installProfile
  with_reducible repeat' first | exact Ticks.same | (apply Ticks.after; apply setProf_ticks)

theorem placeStreams_ticks (s : State) (k : Nat) : Ticks s (placeStreams s k) := by
  unfold placeStreams
  with_reducible repeat' first
    | exact Ticks.same
    | (apply Ticks.after; apply onStream_ticks)
    | (apply Ticks.after; apply Ticks.foldl; intro s x)

theorem placeObjects_ticks (s : State) (k : Nat) : Ticks s (placeObjects s k) := by
  unfold placeObjects
  with_reducible repeat' first
    | exact Ticks.same
    | (apply Ticks.after; apply onSo_ticks)
    | (apply Ticks.after; apply Ticks.foldl; intro s x)
    | (refine Ticks.upd ?_; first | exact Ticks.same | (apply Ticks.after; apply onSo_ticks) | (apply Ticks.after; apply Ticks.foldl; intro s x) | apply Ticks.ite | split)

theorem placeBuffers_ticks (s : State) (k n : Nat) : Ticks s (placeBuffers s k n) := by
  unfold placeBuffers
  with_reducible repeat' first
    | exact Ticks.same
    | (apply Ticks.after; apply onBl_ticks)
    | (apply Ticks.after; apply Ticks.foldl; intro s x)

theorem placePlan_ticks (s : State) (src : PlanSource) (c : PlanCtx) : Ticks s (placePlan s src c).2 := by
  unfold placePlan
  with_reducible repeat' first
    | exact Ticks.same
    | (apply Ticks.after; first | apply onCtx_ticks | apply lockBase_ticks | apply installProfile_ticks | apply placeStreams_ticks | apply placeObjects_ticks | apply placeBuffers_ticks)
    | (apply Ticks.after; apply Ticks.foldl; intro s x)
    | (refine Ticks.upd ?_; first | exact Ticks.same | (apply Ticks.after; first | apply onCtx_ticks | apply lockBase_ticks | apply installProfile_ticks | apply placeStreams_ticks | apply placeObjects_ticks | apply placeBuffers_ticks) | (apply Ticks.after; apply Ticks.foldl; intro s x) | apply Ticks.ite | split | (refine Ticks.upd ?_; first | exact Ticks.same | (apply Ticks.after; first | apply onCtx_ticks | apply lockBase_ticks | apply installProfile_ticks | apply placeStreams_ticks | apply placeObjects_ticks | apply placeBuffers_ticks)))
    | apply Ticks.ite
    | split

theorem prunProfiles_ticks (s : State) : Ticks s (prunProfiles s) := by
  unfold prunProfiles
  with_reducible repeat' first
    | exact Ticks.same
    | (apply Ticks.after; apply setProf_ticks)
    | (apply Ticks.after; apply Ticks.foldl; intro s x)

theorem stopLoops_ticks (s : State) : Ticks s (stopLoops s) := by
  unfold stopLoops
  with_reducible repeat' first
    | exact Ticks.same
    | (apply Ticks.after; apply onLoop_ticks)
    | (refine Ticks.upd ?_; first | exact Ticks.same | (apply Ticks.after; apply onLoop_ticks) | apply Ticks.ite | split | (refine Ticks.upd ?_; first | exact Ticks.same | (apply Ticks.after; apply onLoop_ticks)))

theorem endWork_ticks (s : State) (k : Nat) : Ticks s (endWork s k) := by
  unfold endWork
  with_reducible repeat' first
    | exact Ticks.same
    | (apply Ticks.after; first | apply onQuad_ticks | apply onPort_ticks | apply endThreads_ticks)
    | (apply Ticks.after; apply Ticks.forUpto; intro s x)
    | (refine Ticks.upd ?_; first | exact Ticks.same | (apply Ticks.after; first | apply onQuad_ticks | apply onPort_ticks | apply endThreads_ticks) | (apply Ticks.after; apply Ticks.forUpto; intro s x) | apply Ticks.ite | split | (refine Ticks.upd ?_; first | exact Ticks.same | (apply Ticks.after; first | apply onQuad_ticks | apply onPort_ticks | apply endThreads_ticks)))

theorem freeObjects_ticks (s : State) (k : Nat) (c : PlanCtx) : Ticks s (freeObjects s k c) := by
  unfold freeObjects
  with_reducible repeat' first
    | exact Ticks.same
    | (refine Ticks.upd ?_; first | exact Ticks.same | apply Ticks.ite | split | (refine Ticks.upd ?_; first | exact Ticks.same))
    | apply Ticks.ite
    | split

theorem releasePlan_ticks (s : State) (k : Nat) : Ticks s (releasePlan s k) := by
  unfold releasePlan
  with_reducible repeat' first
    | exact Ticks.same
    | (apply Ticks.after; first | apply onCtx_ticks | apply swapSafe_ticks | apply releaseBank_ticks | apply reserveAll_ticks | apply abandonPhases_ticks | apply prunProfiles_ticks | apply stopLoops_ticks | apply endWork_ticks | apply freeObjects_ticks)
    | (apply Ticks.after; apply Ticks.foldl; intro s x)
    | apply Ticks.ite
    | split

theorem fetchFail_ticks (s : State) : Ticks s (fetchFail s) := by
  unfold fetchFail
  with_reducible repeat' first
    | exact Ticks.same
    | (apply Ticks.after; first | apply raise_ticks | apply abandonPhases_ticks | apply releasePlan_ticks)
    | split

theorem fetchWrite_ticks (s : State) (page : Nat) : Ticks s (fetchWrite s page) := by
  unfold fetchWrite
  with_reducible repeat' first
    | exact Ticks.same
    | (apply Ticks.after; first | apply onCtx_ticks | apply combWrite_ticks)
    | (refine Ticks.upd ?_; first | exact Ticks.same | (apply Ticks.after; first | apply onCtx_ticks | apply combWrite_ticks) | apply Ticks.ite | split | (refine Ticks.upd ?_; first | exact Ticks.same | (apply Ticks.after; first | apply onCtx_ticks | apply combWrite_ticks)))
    | apply Ticks.ite
    | split

theorem planFetched_ticks (s : State) : Ticks s (planFetched s) := by
  unfold planFetched
  with_reducible repeat' first
    | exact Ticks.same
    | (apply Ticks.after; first | apply onCtx_ticks | apply raise_ticks | apply fetchFail_ticks)
    | (refine Ticks.upd ?_; first | exact Ticks.same | (apply Ticks.after; first | apply onCtx_ticks | apply raise_ticks | apply fetchFail_ticks) | apply Ticks.ite | split | (refine Ticks.upd ?_; first | exact Ticks.same | (apply Ticks.after; first | apply onCtx_ticks | apply raise_ticks | apply fetchFail_ticks)))
    | apply Ticks.ite
    | split

theorem execPlanFetchComplete_ticks (s : State) : ∃ s', execPlanFetchComplete s = .next s' ∧ Ticks s s' := by
  refine ⟨_, rfl, ?_⟩
  with_reducible repeat' first | exact Ticks.same | (apply Ticks.after; apply planFetched_ticks) | split

theorem answerLost_ticks (s : State) (winner : Nat) : Ticks s (answerLost s winner) := by
  unfold answerLost; split
  · exact Ticks.same
  · rename_i m _
    dsimp only
    refine Ticks.after (turns_ticks _ _) ?_
    refine Ticks.after (setCur_ticks _ _ 0 _) ?_
    refine Ticks.after (respond_ticks _ m _ _ _ _ _ _).sound ?_
    refine Ticks.after (raise_ticks _ _ _ _).sound ?_
    refine Ticks.after (onMb_ticks _ m _).sound ?_
    exact journal_ticks _ _ _ _ _ _

theorem readFailed_ticks (s : State) (l : List Nat) : Ticks s (readFailed s l) := by
  unfold readFailed
  with_reducible repeat' first
    | exact Ticks.same
    | (apply Ticks.after; first | (apply Ticks.sound; apply takeFree_ticks) | apply answer_ticks)

theorem planLoad_ticks (s : State) (src : PlanSource) : Ticks s (planLoad s src) := by
  unfold planLoad
  with_reducible repeat' first
    | exact Ticks.same
    | (apply Ticks.after; first | apply answer_ticks | apply placePlan_ticks | apply answerLost_ticks)
    | (refine Ticks.upd ?_; first | exact Ticks.same | (apply Ticks.after; first | apply answer_ticks | apply placePlan_ticks | apply answerLost_ticks) | apply Ticks.ite | split | (refine Ticks.upd ?_; first | exact Ticks.same | (apply Ticks.after; first | apply answer_ticks | apply placePlan_ticks | apply answerLost_ticks)))
    | apply Ticks.ite
    | split

theorem execPlanLoad_ticks (src : Option PlanSource) (s : State) : ∃ s', execPlanLoad src s = .next s' ∧ Ticks s s' := by
  refine ⟨_, rfl, ?_⟩
  with_reducible repeat' first
    | (apply Ticks.after; first | apply answer_ticks | apply readFailed_ticks | apply planLoad_ticks)
    | refine onCmd_ticks _ _ _ fun p => ?_
    | (refine Ticks.upd ?_; exact Ticks.same)
    | apply Ticks.ite
    | split

theorem planReplace_ticks (s : State) (k : Nat) (src : PlanSource) : Ticks s (planReplace s k src) := by
  unfold planReplace
  with_reducible repeat' first
    | exact Ticks.same
    | (apply Ticks.after; first | apply onCtx_ticks | apply reserveShadow_ticks | apply answer_ticks)
    | (refine Ticks.upd ?_; first | exact Ticks.same | (apply Ticks.after; first | apply onCtx_ticks | apply reserveShadow_ticks | apply answer_ticks) | apply Ticks.ite | split | (refine Ticks.upd ?_; first | exact Ticks.same | (apply Ticks.after; first | apply onCtx_ticks | apply reserveShadow_ticks | apply answer_ticks)))
    | apply Ticks.ite
    | split

theorem execPlanReplace_ticks (src : Option PlanSource) (s : State) : ∃ s', execPlanReplace src s = .next s' ∧ Ticks s s' := by
  refine ⟨_, rfl, ?_⟩
  with_reducible repeat' first
    | (apply Ticks.after; first | (apply Ticks.sound; apply reserveAll_ticks) | (apply Ticks.sound; apply abandonPhases_ticks) | apply answer_ticks | apply readFailed_ticks | apply planReplace_ticks)
    | refine onCmd_ticks _ _ _ fun p => ?_
    | (refine Ticks.upd ?_; exact Ticks.same)
    | apply Ticks.ite
    | split

theorem phaseReady_ticks (s : State) (k : Nat) : Ticks s (phaseReady s k) := by
  unfold phaseReady
  with_reducible repeat' first
    | exact Ticks.same
    | (apply Ticks.after; first | apply onCtx_ticks | apply raise_ticks | apply fetchFail_ticks)
    | (refine Ticks.upd ?_; first | exact Ticks.same | (apply Ticks.after; first | apply onCtx_ticks | apply raise_ticks | apply fetchFail_ticks) | apply Ticks.ite | split | (refine Ticks.upd ?_; first | exact Ticks.same | (apply Ticks.after; first | apply onCtx_ticks | apply raise_ticks | apply fetchFail_ticks)))
    | apply Ticks.ite
    | split

theorem execReplacePhaseReady_ticks (c : Ctx) (s : State) : ∃ s', execReplacePhaseReady c s = .next s' ∧ Ticks s s' := by
  refine ⟨_, rfl, ?_⟩
  with_reducible repeat' first | exact Ticks.same | (apply Ticks.after; apply phaseReady_ticks) | split

theorem nextPhaseFetch_ticks (s : State) (k : Nat) : Ticks s (nextPhaseFetch s k) := by
  unfold nextPhaseFetch
  with_reducible repeat' first
    | exact Ticks.same
    | (refine Ticks.upd ?_; first | exact Ticks.same | apply Ticks.ite | split | (refine Ticks.upd ?_; first | exact Ticks.same))
    | apply Ticks.ite
    | split

theorem installPlan_ticks (s : State) (k : Nat) : Ticks s (installPlan s k) := by
  unfold installPlan
  with_reducible repeat' first
    | exact Ticks.same
    | (apply Ticks.after; first | apply onQuad_ticks | apply onCtx_ticks | apply afterTable_ticks | apply installTable_ticks | apply syncZero_ticks | apply powerQuads_ticks)
    | (apply Ticks.after; apply Ticks.forUpto; intro s x)
    | (refine Ticks.upd ?_; first | exact Ticks.same | (apply Ticks.after; first | apply onQuad_ticks | apply onCtx_ticks | apply afterTable_ticks | apply installTable_ticks | apply syncZero_ticks | apply powerQuads_ticks) | (apply Ticks.after; apply Ticks.forUpto; intro s x) | apply Ticks.ite | split | (refine Ticks.upd ?_; first | exact Ticks.same | (apply Ticks.after; first | apply onQuad_ticks | apply onCtx_ticks | apply afterTable_ticks | apply installTable_ticks | apply syncZero_ticks | apply powerQuads_ticks)))

theorem drainDone_ticks (s : State) (k : Nat) : Ticks s (drainDone s k) := by
  unfold drainDone
  with_reducible repeat' first
    | exact Ticks.same
    | (apply Ticks.after; first | apply onCtx_ticks | apply afterTable_ticks | apply installTable_ticks | apply endThreads_ticks | apply powerQuads_ticks)
    | (refine Ticks.upd ?_; first | exact Ticks.same | (apply Ticks.after; first | apply onCtx_ticks | apply afterTable_ticks | apply installTable_ticks | apply endThreads_ticks | apply powerQuads_ticks) | apply Ticks.ite | split)

theorem execPlanDrainComplete_ticks (c : Ctx) (s : State) : ∃ s', execPlanDrainComplete c s = .next s' ∧ Ticks s s' := by
  refine ⟨_, rfl, ?_⟩
  with_reducible repeat' first
    | exact Ticks.same
    | (apply Ticks.after; apply drainDone_ticks)
    | (refine atEdge_ticks _ _ )
    | apply Ticks.ite
    | split

theorem execPlanUnload_ticks (s : State) : ∃ s', execPlanUnload s = .next s' ∧ Ticks s s' := by
  refine ⟨_, rfl, ?_⟩
  with_reducible repeat' first
    | (apply Ticks.after; first | (apply Ticks.sound; apply onCtx_ticks) | apply answer_ticks)
    | refine onCmd_ticks _ _ _ fun p => ?_
    | (refine Ticks.upd ?_; exact Ticks.same)
    | split

theorem execPlanFitmode_ticks (s : State) : ∃ s', execPlanFitmode s = .next s' ∧ Ticks s s' := by
  refine ⟨_, rfl, ?_⟩
  with_reducible repeat' first
    | (apply Ticks.after; apply answer_ticks)
    | refine onCmd_ticks _ _ _ fun p => ?_
    | (refine Ticks.upd ?_; exact Ticks.same)
    | split

theorem dmaDone_ticks (s : State) (src : PlanSource) : Ticks s (dmaDone s src) := by
  unfold dmaDone
  with_reducible repeat' first
    | (apply Ticks.after; first | apply answer_ticks | apply planLoad_ticks | apply planReplace_ticks)
    | (refine Ticks.upd ?_; exact Ticks.same)
    | split

theorem execDmaReadComplete_ticks (src : PlanSource) (s : State) : ∃ s', execDmaReadComplete src s = .next s' ∧ Ticks s s' := by
  refine ⟨_, rfl, ?_⟩
  with_reducible repeat' first | exact Ticks.same | (apply Ticks.after; apply dmaDone_ticks) | split

theorem dmaAllFail_ticks (s : State) : Ticks s (dmaAllFail s) := by
  unfold dmaAllFail
  with_reducible repeat' first
    | exact Ticks.same
    | (apply Ticks.after; first | apply fetchFail_ticks | apply readFailed_ticks)
    | (refine Ticks.upd ?_; first | exact Ticks.same | (apply Ticks.after; first | apply fetchFail_ticks | apply readFailed_ticks) | apply Ticks.ite | split)
    | split

theorem dmaFail_ticks (s : State) : Ticks s (dmaFail s) := by
  unfold dmaFail
  with_reducible repeat' first
    | exact Ticks.same
    | (apply Ticks.after; first | (apply Ticks.sound; apply fetchFail_ticks) | apply readFailed_ticks)
    | split

theorem execDmaReadError_ticks (s : State) : ∃ s', execDmaReadError s = .next s' ∧ Ticks s s' := by
  refine ⟨_, rfl, ?_⟩
  with_reducible repeat' first | exact Ticks.same | (apply Ticks.after; apply dmaFail_ticks) | split

theorem execDmaCompletionTimeout_ticks (s : State) : ∃ s', execDmaCompletionTimeout s = .next s' ∧ Ticks s s' := by
  refine ⟨_, rfl, ?_⟩
  with_reducible repeat' first | exact Ticks.same | (apply Ticks.after; apply dmaFail_ticks) | split

/- Instances.lean. -/

theorem endBatch_ticks (s : State) (c adm : Nat) : Ticks s (endBatch s c adm) := by
  unfold endBatch
  with_reducible repeat' first
    | exact Ticks.same
    | (apply Ticks.after; first | apply onQuad_ticks | apply onThread_ticks | apply endThreads_ticks)
    | (apply Ticks.after; apply Ticks.foldl; intro s x)
    | (apply Ticks.after; apply Ticks.forUpto; intro s x)
    | (refine Ticks.upd ?_; first | exact Ticks.same | (apply Ticks.after; first | apply onQuad_ticks | apply onThread_ticks | apply endThreads_ticks) | (apply Ticks.after; apply Ticks.foldl; intro s x) | (apply Ticks.after; apply Ticks.forUpto; intro s x) | apply Ticks.ite | split | (refine Ticks.upd ?_; first | exact Ticks.same | (apply Ticks.after; first | apply onQuad_ticks | apply onThread_ticks | apply endThreads_ticks)))
    | apply Ticks.ite
    | split

theorem returnLent_ticks (s : State) (i : Nat) : Ticks s (returnLent s i) := by
  unfold returnLent
  with_reducible repeat' first | exact Ticks.same | (apply Ticks.after; apply onBl_ticks) | split

theorem finishInst_ticks (s : State) (c : Nat) (i : Inst) (e : Nat) : Ticks s (finishInst s c i e) := by
  unfold finishInst
  with_reducible repeat' first
    | exact Ticks.same
    | (apply Ticks.after; first | apply onCtx_ticks | apply complete_ticks | apply returnLent_ticks)
    | (apply Ticks.after; apply Ticks.foldl; intro s x)

theorem finishBatch_ticks (s : State) (c adm e : Nat) : Ticks s (finishBatch s c adm e) := by
  unfold finishBatch
  with_reducible repeat' first
    | exact Ticks.same
    | (apply Ticks.after; first | apply leaveHolds_ticks | apply endBatch_ticks | apply finishInst_ticks)
    | (apply Ticks.after; apply Ticks.foldl; intro s x)
    | apply Ticks.ite
    | split

theorem finishStopped_ticks (s : State) (e : Nat) : Ticks s (finishStopped s e) := by
  unfold finishStopped
  with_reducible repeat' first
    | exact Ticks.same
    | (apply Ticks.after; apply finishBatch_ticks)
    | (apply Ticks.after; apply Ticks.foldl; intro s x)
    | split

theorem completeCtx_ticks (s : State) (c e : Nat) : Ticks s (completeCtx s c e) := by
  unfold completeCtx
  with_reducible repeat' first
    | exact Ticks.same
    | (apply Ticks.after; apply finishBatch_ticks)
    | (apply Ticks.after; apply Ticks.foldl; intro s x)
    | split

theorem execInstanceComplete_ticks (c : Ctx) (s : State) : ∃ s', execInstanceComplete c s = .next s' ∧ Ticks s s' := by
  refine ⟨_, rfl, ?_⟩
  with_reducible repeat' first
    | exact Ticks.same
    | (apply Ticks.after; apply completeCtx_ticks)
    | exact atEdge_ticks _ _
    | split

theorem stopCtx_ticks (s : State) (c cause : Nat) : Ticks s (stopCtx s c cause) := by
  unfold stopCtx
  with_reducible repeat' first | exact Ticks.same | (apply Ticks.after; apply onCtx_ticks)

theorem overrun_ticks (s : State) (c adm : Nat) : Ticks s (overrun s c adm) := by
  unfold overrun
  with_reducible repeat' first
    | exact Ticks.same
    | (apply Ticks.after; first | apply raise_ticks | apply faultBatch_ticks)
    | (refine Ticks.upd ?_; first | exact Ticks.same | (apply Ticks.after; first | apply raise_ticks | apply faultBatch_ticks) | apply Ticks.ite | split | (refine Ticks.upd ?_; first | exact Ticks.same | (apply Ticks.after; first | apply raise_ticks | apply faultBatch_ticks)))

theorem policyCtx_ticks (s : State) (c e : Nat) : Ticks s (policyCtx s c e) := by
  unfold policyCtx
  with_reducible repeat' first
    | exact Ticks.same
    | (apply Ticks.after; first | apply onCtx_ticks | apply applyHalt_ticks)
    | apply Ticks.ite

theorem haltStop_ticks (s : State) (c e : Nat) : Ticks s (haltStop s c e) := by
  unfold haltStop
  with_reducible repeat' first | exact Ticks.same | (apply Ticks.after; first | apply onCtx_ticks | apply stopCtx_ticks) | split

theorem judgeEdge_ticks (s : State) (e : Nat) : Ticks s (judgeEdge s e) := by
  unfold judgeEdge
  with_reducible repeat' first
    | exact Ticks.same
    | (apply Ticks.after; first | apply raise_ticks | apply blockedProceed_ticks | apply waitTimeout_ticks | apply overrun_ticks | apply policyCtx_ticks | apply haltStop_ticks)
    | (apply Ticks.after; apply Ticks.foldl; intro s x)
    | (apply Ticks.after; apply Ticks.forUpto; intro s x)
    | apply Ticks.ite
    | split

/- Staged.lean. -/

theorem cancelLate_ticks (s : State) : Ticks s (cancelLate s) := by
  unfold cancelLate
  with_reducible repeat' first
    | exact Ticks.same
    | (apply Ticks.after; apply onLoop_ticks)
    | (refine Ticks.upd ?_; first | exact Ticks.same | (apply Ticks.after; apply onLoop_ticks) | apply Ticks.ite | split | (refine Ticks.upd ?_; first | exact Ticks.same | (apply Ticks.after; apply onLoop_ticks)))
    | apply Ticks.ite
    | split

theorem holdApply_ticks (s : State) (mode : Nat) : Ticks s (holdApply s mode) := by
  unfold holdApply
  with_reducible repeat' first
    | exact Ticks.same
    | (apply Ticks.after; first | apply afterTable_ticks | apply swapSafe_ticks | apply cancelLate_ticks)
    | (refine Ticks.upd ?_; first | exact Ticks.same | (apply Ticks.after; first | apply afterTable_ticks | apply swapSafe_ticks | apply cancelLate_ticks) | apply Ticks.ite | split | (refine Ticks.upd ?_; first | exact Ticks.same | (apply Ticks.after; first | apply afterTable_ticks | apply swapSafe_ticks | apply cancelLate_ticks)))
    | apply Ticks.ite
    | split

theorem rosterApply_ticks (s : State) (p : List Byte) : Ticks s (rosterApply s p) := by
  unfold rosterApply
  with_reducible repeat' first
    | exact Ticks.same
    | (apply Ticks.after; first | apply onPort_ticks | apply clearWindow_ticks | apply noPortx_ticks | apply portTrain_ticks)
    | (apply Ticks.after; apply Ticks.foldl; intro s x)
    | (apply Ticks.after; apply Ticks.forUpto; intro s x)
    | (refine Ticks.upd ?_; first | exact Ticks.same | (apply Ticks.after; first | apply onPort_ticks | apply clearWindow_ticks | apply noPortx_ticks | apply portTrain_ticks) | (apply Ticks.after; apply Ticks.foldl; intro s x) | (apply Ticks.after; apply Ticks.forUpto; intro s x) | apply Ticks.ite | split | (refine Ticks.upd ?_; first | exact Ticks.same | (apply Ticks.after; first | apply onPort_ticks | apply clearWindow_ticks | apply noPortx_ticks | apply portTrain_ticks)))
    | apply Ticks.ite
    | split

theorem keySwitch_ticks (s : State) : Ticks s (keySwitch s) := by
  unfold keySwitch
  with_reducible repeat' first
    | (apply Ticks.after; first | apply hwState_ticks | apply closeGroup_ticks)
    | (apply Ticks.after; apply Ticks.forUpto; intro s x)
    | (refine Ticks.upd ?_; first | exact Ticks.same | (apply Ticks.after; apply Ticks.forUpto; intro s x))

theorem ledgerClear_ticks (s : State) : Ticks s (ledgerClear s) := by
  unfold ledgerClear
  with_reducible repeat' first
    | (apply Ticks.after; apply onCtx_ticks)
    | (apply Ticks.after; apply Ticks.forUpto; intro s x)
    | (refine Ticks.upd ?_; exact Ticks.same)

theorem hiveReset_ticks (s : State) (e : Nat) : Ticks s (hiveReset s e) := by
  unfold hiveReset
  with_reducible repeat' first
    | (apply Ticks.after; first | apply onQuad_ticks | apply onCtx_ticks | apply endThreads_ticks | apply syncZero_ticks | apply placeStreams_ticks | apply finishStopped_ticks | apply stopCtx_ticks | apply ledgerClear_ticks)
    | (apply Ticks.after; apply Ticks.forUpto; intro s x)
    | (refine Ticks.upd ?_; exact Ticks.same)
    | split

theorem toleranceApply_ticks (s : State) (id tol : Nat) : Ticks s (toleranceApply s id tol) := by
  unfold toleranceApply
  with_reducible repeat' first
    | (apply Ticks.after; first | apply onCtx_ticks | apply wakeTolerance_ticks | apply retarget421_ticks)
    | (refine Ticks.upd ?_; exact Ticks.same)
    | split

theorem applyMember_ticks (s : State) (op : Nat) (p : List Byte) (e : Nat) : Ticks s (applyMember s op p e) := by
  unfold applyMember
  with_reducible repeat' first
    | exact Ticks.same
    | (apply Ticks.after; first | apply onCtx_ticks | apply onStream_ticks | apply refSwitch_ticks | apply masterEnable_ticks | apply swapPhase_ticks | apply streamApply_ticks | apply nextPhaseFetch_ticks | apply installPlan_ticks | apply holdApply_ticks | apply rosterApply_ticks | apply keySwitch_ticks | apply hiveReset_ticks | apply toleranceApply_ticks)
    | (apply Ticks.elim (fun _ => ?_) ?_)
    | (refine Ticks.upd ?_; first | exact Ticks.same | (apply Ticks.after; first | apply onCtx_ticks | apply onStream_ticks | apply refSwitch_ticks | apply masterEnable_ticks | apply swapPhase_ticks | apply streamApply_ticks | apply nextPhaseFetch_ticks | apply installPlan_ticks | apply holdApply_ticks | apply rosterApply_ticks | apply keySwitch_ticks | apply hiveReset_ticks | apply toleranceApply_ticks) | apply Ticks.ite | split | (refine Ticks.upd ?_; first | exact Ticks.same | (apply Ticks.after; first | apply onCtx_ticks | apply onStream_ticks | apply refSwitch_ticks | apply masterEnable_ticks | apply swapPhase_ticks | apply streamApply_ticks | apply nextPhaseFetch_ticks | apply installPlan_ticks | apply holdApply_ticks | apply rosterApply_ticks | apply keySwitch_ticks | apply hiveReset_ticks | apply toleranceApply_ticks)))
    | apply Ticks.ite
    | split

/- Grafts.lean. -/

theorem projected_ticks (s : State) (upto : Option Nat) : Ticks s (projected s upto) := by
  unfold projected
  with_reducible repeat' first
    | exact Ticks.same
    | (apply Ticks.after; apply applyMember_ticks)
    | (apply Ticks.after; apply Ticks.foldl; intro s x)
    | split

theorem stageOne_ticks (s : State) (op : Nat) (p : List Byte) (edge : Nat) : Ticks s (stageOne s op p edge) := by
  unfold stageOne
  exact Ticks.upd Ticks.same

theorem stageCmd_ticks (s : State) (op : Nat) (p : List Byte) : Ticks s (stageCmd s op p) := by
  unfold stageCmd
  with_reducible repeat' first
    | exact Ticks.same
    | (apply Ticks.after; first | apply answerAt_ticks | apply answer_ticks | (apply Ticks.sound; apply stageOne_ticks))
    | apply Ticks.ite

theorem execPlanActivate_ticks (s : State) : ∃ s', execPlanActivate s = .next s' ∧ Ticks s s' := by
  refine ⟨_, rfl, ?_⟩
  with_reducible repeat' first
    | exact Ticks.same
    | (apply Ticks.after; apply stageCmd_ticks)
    | refine onCmd_ticks _ _ _ fun p => ?_

theorem execPlanDeactivate_ticks (s : State) : ∃ s', execPlanDeactivate s = .next s' ∧ Ticks s s' := by
  refine ⟨_, rfl, ?_⟩
  with_reducible repeat' first
    | exact Ticks.same
    | (apply Ticks.after; apply stageCmd_ticks)
    | refine onCmd_ticks _ _ _ fun p => ?_

theorem execPlanSwap_ticks (s : State) : ∃ s', execPlanSwap s = .next s' ∧ Ticks s s' := by
  refine ⟨_, rfl, ?_⟩
  with_reducible repeat' first
    | exact Ticks.same
    | (apply Ticks.after; apply stageCmd_ticks)
    | refine onCmd_ticks _ _ _ fun p => ?_

theorem execXmShare_ticks (s : State) : ∃ s', execXmShare s = .next s' ∧ Ticks s s' := by
  refine ⟨_, rfl, ?_⟩
  with_reducible repeat' first
    | exact Ticks.same
    | (apply Ticks.after; apply stageCmd_ticks)
    | refine onCmd_ticks _ _ _ fun p => ?_

theorem execBeatMasterEn_ticks (s : State) : ∃ s', execBeatMasterEn s = .next s' ∧ Ticks s s' := by
  refine ⟨_, rfl, ?_⟩
  with_reducible repeat' first
    | exact Ticks.same
    | (apply Ticks.after; apply stageCmd_ticks)
    | refine onCmd_ticks _ _ _ fun p => ?_

theorem execRefSelect_ticks (s : State) : ∃ s', execRefSelect s = .next s' ∧ Ticks s s' := by
  refine ⟨_, rfl, ?_⟩
  with_reducible repeat' first
    | exact Ticks.same
    | (apply Ticks.after; first | apply checkRefs_ticks | apply stageCmd_ticks)
    | refine onCmd_ticks _ _ _ fun p => ?_

theorem execHiveRoster_ticks (s : State) : ∃ s', execHiveRoster s = .next s' ∧ Ticks s s' := by
  refine ⟨_, rfl, ?_⟩
  with_reducible repeat' first
    | exact Ticks.same
    | (apply Ticks.after; apply stageCmd_ticks)
    | refine onCmd_ticks _ _ _ fun p => ?_

theorem execHiveKeySwitch_ticks (s : State) : ∃ s', execHiveKeySwitch s = .next s' ∧ Ticks s s' := by
  refine ⟨_, rfl, ?_⟩
  with_reducible repeat' first
    | exact Ticks.same
    | (apply Ticks.after; apply stageCmd_ticks)
    | refine onCmd_ticks _ _ _ fun p => ?_

theorem execHiveReset_ticks (s : State) : ∃ s', execHiveReset s = .next s' ∧ Ticks s s' := by
  refine ⟨_, rfl, ?_⟩
  with_reducible repeat' first
    | exact Ticks.same
    | (apply Ticks.after; apply stageCmd_ticks)
    | refine onCmd_ticks _ _ _ fun p => ?_

theorem execPwrTolerance_ticks (s : State) : ∃ s', execPwrTolerance s = .next s' ∧ Ticks s s' := by
  refine ⟨_, rfl, ?_⟩
  with_reducible repeat' first
    | exact Ticks.same
    | (apply Ticks.after; apply stageCmd_ticks)
    | refine onCmd_ticks _ _ _ fun p => ?_

theorem onAction_ticks (s : State) (op at' act max : Nat) (f : List Byte → State) (h : ∀ p, Ticks s (f p)) :
    Ticks s (onAction s op at' act max f) :=
  onCmd_ticks _ _ _ fun p => Ticks.ite _ (h p) Ticks.same

theorem execSynHoldRelease_ticks (s : State) : ∃ s', execSynHoldRelease s = .next s' ∧ Ticks s s' := by
  refine ⟨_, rfl, ?_⟩
  with_reducible repeat' first
    | exact Ticks.same
    | (apply Ticks.after; apply stageCmd_ticks)
    | refine onAction_ticks _ _ _ _ _ _ fun p => ?_

theorem execSynHoldFreeze_ticks (s : State) : ∃ s', execSynHoldFreeze s = .next s' ∧ Ticks s s' := by
  refine ⟨_, rfl, ?_⟩
  with_reducible repeat' first
    | exact Ticks.same
    | (apply Ticks.after; apply stageCmd_ticks)
    | refine onAction_ticks _ _ _ _ _ _ fun p => ?_

theorem execSynHoldSafeClock_ticks (s : State) : ∃ s', execSynHoldSafeClock s = .next s' ∧ Ticks s s' := by
  refine ⟨_, rfl, ?_⟩
  with_reducible repeat' first
    | exact Ticks.same
    | (apply Ticks.after; apply stageCmd_ticks)
    | refine onAction_ticks _ _ _ _ _ _ fun p => ?_

theorem execStreamCtlPause_ticks (s : State) : ∃ s', execStreamCtlPause s = .next s' ∧ Ticks s s' := by
  refine ⟨_, rfl, ?_⟩
  with_reducible repeat' first
    | exact Ticks.same
    | (apply Ticks.after; apply stageCmd_ticks)
    | refine onAction_ticks _ _ _ _ _ _ fun p => ?_

theorem execStreamCtlResume_ticks (s : State) : ∃ s', execStreamCtlResume s = .next s' ∧ Ticks s s' := by
  refine ⟨_, rfl, ?_⟩
  with_reducible repeat' first
    | exact Ticks.same
    | (apply Ticks.after; apply stageCmd_ticks)
    | refine onAction_ticks _ _ _ _ _ _ fun p => ?_

theorem execStreamCtlReset_ticks (s : State) : ∃ s', execStreamCtlReset s = .next s' ∧ Ticks s s' := by
  refine ⟨_, rfl, ?_⟩
  with_reducible repeat' first
    | exact Ticks.same
    | (apply Ticks.after; apply stageCmd_ticks)
    | refine onAction_ticks _ _ _ _ _ _ fun p => ?_

theorem execStreamCtlEnd_ticks (s : State) : ∃ s', execStreamCtlEnd s = .next s' ∧ Ticks s s' := by
  refine ⟨_, rfl, ?_⟩
  with_reducible repeat' first
    | exact Ticks.same
    | (apply Ticks.after; apply stageCmd_ticks)
    | refine onAction_ticks _ _ _ _ _ _ fun p => ?_

theorem afterMembers_ticks (view : State) (ms : List Member) (e : Nat) : Ticks view (afterMembers view ms e) := by
  unfold afterMembers
  with_reducible repeat' first
    | exact Ticks.same
    | (apply Ticks.after; apply applyMember_ticks)
    | (apply Ticks.after; apply Ticks.foldl; intro s x)

theorem graftStage_ticks (s : State) (p : List Byte) : Ticks s (graftStage s p) := by
  unfold graftStage
  with_reducible repeat' first
    | (apply Ticks.after; apply answer_ticks)
    | (refine Ticks.upd ?_; first | exact Ticks.same | split)

theorem execGraftStage_ticks (s : State) : ∃ s', execGraftStage s = .next s' ∧ Ticks s s' := by
  refine ⟨_, rfl, ?_⟩
  with_reducible repeat' first
    | exact Ticks.same
    | (apply Ticks.after; apply graftStage_ticks)
    | refine onCmd_ticks _ _ _ fun p => ?_

theorem graftCommit_ticks (s : State) (p : List Byte) : Ticks s (graftCommit s p) := by
  unfold graftCommit
  with_reducible repeat' first
    | (apply Ticks.after; first | apply answerAt_ticks | apply answer_ticks)
    | (refine Ticks.upd ?_; first | exact Ticks.same | split)

theorem execGraftCommit_ticks (s : State) : ∃ s', execGraftCommit s = .next s' ∧ Ticks s s' := by
  refine ⟨_, rfl, ?_⟩
  with_reducible repeat' first
    | exact Ticks.same
    | (apply Ticks.after; apply graftCommit_ticks)
    | refine onCmd_ticks _ _ _ fun p => ?_

theorem graftAbort_ticks (s : State) (p : List Byte) : Ticks s (graftAbort s p) := by
  unfold graftAbort
  with_reducible repeat' first
    | (apply Ticks.after; apply answer_ticks)
    | (refine Ticks.upd ?_; exact Ticks.same)
    | apply Ticks.ite
    | split

theorem execGraftAbort_ticks (s : State) : ∃ s', execGraftAbort s = .next s' ∧ Ticks s s' := by
  refine ⟨_, rfl, ?_⟩
  with_reducible repeat' first
    | exact Ticks.same
    | (apply Ticks.after; apply graftAbort_ticks)
    | refine onCmd_ticks _ _ _ fun p => ?_

theorem putGraft_ticks (s : State) (seq : Nat) (g : Option Graft) : Ticks s (putGraft s seq g) := by
  unfold putGraft
  exact Ticks.upd Ticks.same

theorem journalPhase_ticks (s : State) (g : Graft) (st e : Nat) : Ticks s (journalPhase s g st e) := by
  unfold journalPhase
  exact (takeSeq_ticks s).trans (jWrite_ticks _ _)

theorem abandonPhase_ticks (s : State) (g : Graft) (st e : Nat) : Ticks s (abandonPhase s g st e) := by
  unfold abandonPhase
  with_reducible repeat' first
    | exact Ticks.same
    | (apply Ticks.after; first | apply raiseAt_ticks | apply putGraft_ticks | apply journalPhase_ticks)
    | (apply Ticks.after; apply Ticks.forUpto; intro s x)
    | (refine Ticks.upd ?_; first | exact Ticks.same | (apply Ticks.after; first | apply raiseAt_ticks | apply putGraft_ticks | apply journalPhase_ticks) | (apply Ticks.after; apply Ticks.forUpto; intro s x) | apply Ticks.ite | split | (refine Ticks.upd ?_; first | exact Ticks.same | (apply Ticks.after; first | apply raiseAt_ticks | apply putGraft_ticks | apply journalPhase_ticks)))

theorem applyPhase_ticks (e : Nat) (s : State) (l : List Member) : Ticks s (applyPhase e s l).2 := by
  induction l generalizing s with
  | nil => exact Ticks.same
  | cons m r ih =>
    unfold applyPhase; dsimp only
    generalize checkState _ _ _ _ = st
    have h := (applyMember_ticks s m.op m.payload e).trans (ih _)
    repeat' split
    all_goals first | exact h | exact Ticks.same

theorem dueChange_ticks (s : State) (g : Graft) (e : Nat) : Ticks s (dueChange s g e) := by
  unfold dueChange
  with_reducible repeat' first
    | (apply Ticks.after; first | (apply Ticks.sound; apply raiseAt_ticks) | (apply Ticks.sound; apply putGraft_ticks) | apply journalPhase_ticks | apply abandonPhase_ticks | (apply Ticks.sound; apply applyPhase_ticks))
    | (refine Ticks.upd ?_; first | exact Ticks.same | (apply Ticks.after; first | (apply Ticks.sound; apply raiseAt_ticks) | (apply Ticks.sound; apply putGraft_ticks) | apply journalPhase_ticks | apply abandonPhase_ticks | (apply Ticks.sound; apply applyPhase_ticks)))
    | apply Ticks.ite
    | split

theorem applyDue_ticks (s : State) (e : Nat) : Ticks s (applyDue s e) := by
  unfold applyDue
  with_reducible repeat' first
    | exact Ticks.same
    | (apply Ticks.after; apply dueChange_ticks)
    | (apply Ticks.after; apply Ticks.foldl; intro s x)
    | split

theorem execGraftPhaseApply_ticks (s : State) : ∃ s', execGraftPhaseApply s = .next s' ∧ Ticks s s' := by
  refine ⟨_, rfl, ?_⟩
  with_reducible repeat' first
    | exact Ticks.same
    | (apply Ticks.after; apply applyDue_ticks)
    | exact atEdge_ticks _ _
    | split

theorem execGraftWaitLimit_ticks (s : State) : ∃ s', execGraftWaitLimit s = .next s' ∧ Ticks s s' := by
  refine ⟨_, rfl, ?_⟩
  with_reducible repeat' first
    | exact Ticks.same
    | (apply Ticks.after; apply abandonPhase_ticks)
    | exact atEdge_ticks _ _
    | (apply Ticks.after; apply Ticks.foldl; intro s x)
    | split

end Sys2Proof.Machine
end

