-- ==== Sys2Proof/Laws/TicksHost.lean ====
section
/-! SUPPORT. What each operation of Regs, Ports, Inflow, HostCmds does to the beat number, the slot and the guard: nothing. -/

namespace Sys2Proof.Machine

set_option Elab.async false

open Sys2Proof

/- Regs.lean. -/

theorem accessErr_ticks (s : State) : Ticks s (accessErr s) := by
  unfold accessErr
  exact Ticks.upd Ticks.same

theorem rcQuad_ticks (s : State) (off u : Nat) : Ticks s (rcQuad s off u) := by
  unfold rcQuad
  with_reducible repeat' first | exact Ticks.same | (apply Ticks.after; apply onQuad_ticks) | apply Ticks.ite

theorem rcLinks_ticks (s : State) (o u : Nat) : Ticks s (rcLinks s o u) := by
  unfold rcLinks
  with_reducible repeat' first | (apply Ticks.after; apply onPort_ticks) | (refine Ticks.upd ?_; exact Ticks.same) | split

theorem rcArb_ticks (s : State) (o u : Nat) : Ticks s (rcArb s o u) := by
  unfold rcArb
  with_reducible repeat' first | exact Ticks.same | (apply Ticks.after; apply onArb_ticks)

theorem rcSensors_ticks (s : State) (o : Nat) (u : Word) : Ticks s (rcSensors s o u) := by
  unfold rcSensors
  with_reducible repeat' first
    | exact Ticks.same
    | (refine Ticks.upd ?_; first | exact Ticks.same | apply Ticks.ite | split | (refine Ticks.upd ?_; first | exact Ticks.same))
    | apply Ticks.ite
    | split

theorem rcPut_ticks (s : State) (off : Nat) (u : Word) : Ticks s (rcPut s off u) := by
  unfold rcPut
  with_reducible repeat' first
    | exact Ticks.same
    | (apply Ticks.after; first | apply onMb_ticks | apply rcQuad_ticks | apply rcLinks_ticks | apply rcArb_ticks | apply rcSensors_ticks)
    | (refine Ticks.upd ?_; first | exact Ticks.same | (apply Ticks.after; first | apply onMb_ticks | apply rcQuad_ticks | apply rcLinks_ticks | apply rcArb_ticks | apply rcSensors_ticks) | apply Ticks.ite | split | (refine Ticks.upd ?_; first | exact Ticks.same | (apply Ticks.after; first | apply onMb_ticks | apply rcQuad_ticks | apply rcLinks_ticks | apply rcArb_ticks | apply rcSensors_ticks)))
    | apply Ticks.ite
    | split

theorem dropLatch_ticks (s : State) (off : Nat) : Ticks s (dropLatch s off) := by
  unfold dropLatch
  exact Ticks.upd Ticks.same

theorem hostRead32_ticks (s : State) (off : Nat) (u : Word) : Ticks s (hostRead32 s off u) := by
  unfold hostRead32
  with_reducible repeat' first
    | (apply Ticks.after; first | apply accessErr_ticks | apply rcPut_ticks | apply dropLatch_ticks)
    | (refine Ticks.upd ?_; exact Ticks.same)
    | split

theorem onRing_ticks (s : State) (c : Bool) (f : Ring → Ring) : Ticks s (onRing s c f) := by
  unfold onRing
  with_reducible repeat' first | (refine Ticks.upd ?_; exact Ticks.same) | split

theorem ringRoom_ticks (s : State) (c : Bool) : Ticks s (ringRoom s c) := by
  unfold ringRoom
  with_reducible repeat' first
    | exact Ticks.same
    | (apply Ticks.after; first | apply evrOverflow_ticks | apply bootqDeliver_ticks | apply drainBacklog_ticks)
    | split

theorem ringCfgWrite_ticks (s : State) (c : Bool) (v : Word) : Ticks s (ringCfgWrite s c v) := by
  unfold ringCfgWrite
  with_reducible repeat' first
    | exact Ticks.same
    | (apply Ticks.after; first | apply accessErr_ticks | apply onRing_ticks | apply ringRoom_ticks)
    | split

theorem ringHeadWrite_ticks (s : State) (c : Bool) (v : Nat) : Ticks s (ringHeadWrite s c v) := by
  unfold ringHeadWrite
  with_reducible repeat' first
    | exact Ticks.same
    | (apply Ticks.after; first | apply accessErr_ticks | apply onRing_ticks | apply ringRoom_ticks)
    | apply Ticks.ite

theorem ringBaseWrite_ticks (s : State) (c : Bool) (lo : Nat) : Ticks s (ringBaseWrite s c lo) := by
  unfold ringBaseWrite
  with_reducible repeat' first
    | (apply Ticks.after; first | apply accessErr_ticks | apply dropLatch_ticks | apply onRing_ticks)
    | (refine Ticks.upd ?_; exact Ticks.same)
    | apply Ticks.ite

theorem flushQueue_ticks (s : State) : Ticks s (flushQueue s) := by
  unfold flushQueue
  exact Ticks.upd Ticks.same

theorem flushDue_ticks (s : State) : Ticks s (flushDue s) := by
  unfold flushDue
  with_reducible repeat' first | exact Ticks.same | (apply Ticks.after; apply flushQueue_ticks) | split

theorem inflowCtl_ticks (s : State) (v : Word) : Ticks s (inflowCtl s v) := by
  unfold inflowCtl
  with_reducible repeat' first
    | (apply Ticks.after; first | apply flushQueue_ticks | apply flushDue_ticks)
    | (refine Ticks.upd ?_; first | exact Ticks.same | split)

theorem intmaskWrite_ticks (s : State) (v : Word) : Ticks s (intmaskWrite s v) := by
  unfold intmaskWrite
  with_reducible repeat' first | (apply Ticks.after; apply signalPending_ticks) | (refine Ticks.upd ?_; exact Ticks.same)

theorem w1cQuad_ticks (s : State) (off : Nat) (v sc : Word) : Ticks s (w1cQuad s off v sc) := by
  unfold w1cQuad
  with_reducible repeat' first | exact Ticks.same | (apply Ticks.after; apply onQuad_ticks) | split

theorem w1cCause_ticks (s : State) (v sc : Word) : Ticks s (w1cCause s v sc) := by
  unfold w1cCause
  exact Ticks.upd Ticks.same

theorem w1cCpstat_ticks (s : State) (v sc : Word) : Ticks s (w1cCpstat s v sc) := by
  unfold w1cCpstat
  exact Ticks.upd Ticks.same

theorem msixWrite_ticks (s : State) (o : Nat) (v : Word) : Ticks s (msixWrite s o v) := by
  unfold msixWrite
  with_reducible repeat' first
    | (apply Ticks.after; apply signalPending_ticks)
    | (refine Ticks.upd ?_; exact Ticks.same)
    | split

theorem writeReg_ticks (s : State) (off : Nat) (v sc : Word) : Ticks s (writeReg s off v sc) := by
  unfold writeReg
  with_reducible repeat' first
    | (apply Ticks.after; first | apply doorbell_ticks | (apply Ticks.sound; apply pageWrite_ticks) | (apply Ticks.sound; apply ringCfgWrite_ticks) | (apply Ticks.sound; apply ringHeadWrite_ticks) | (apply Ticks.sound; apply ringBaseWrite_ticks) | (apply Ticks.sound; apply inflowCtl_ticks) | (apply Ticks.sound; apply intmaskWrite_ticks) | (apply Ticks.sound; apply w1cQuad_ticks) | (apply Ticks.sound; apply w1cCause_ticks) | (apply Ticks.sound; apply w1cCpstat_ticks) | (apply Ticks.sound; apply msixWrite_ticks))
    | (refine Ticks.upd ?_; first | exact Ticks.same | apply Ticks.ite)

theorem hostWrite32_ticks (s : State) (off : Nat) (v sc : Word) : Ticks s (hostWrite32 s off v sc) := by
  unfold hostWrite32
  with_reducible repeat' first
    | (apply Ticks.after; first | (apply Ticks.sound; apply accessErr_ticks) | (apply Ticks.sound; apply dropLatch_ticks) | apply writeReg_ticks)
    | (refine Ticks.upd ?_; exact Ticks.same)
    | split

theorem execRegisterWrite_ticks (off : Nat) (v sameClock : Word) (s : State) : ∃ s', execRegisterWrite off v sameClock s = .next s' ∧ Ticks s s' := by
  refine ⟨_, rfl, ?_⟩
  with_reducible repeat' first | exact Ticks.same | (apply Ticks.after; apply hostWrite32_ticks) | split

theorem execRcFieldRead_ticks (off : Nat) (sameClock : Word) (s : State) : ∃ s', execRcFieldRead off sameClock s = .next s' ∧ Ticks s s' := by
  refine ⟨_, rfl, ?_⟩
  with_reducible repeat' first | exact Ticks.same | (apply Ticks.after; apply hostRead32_ticks) | split

theorem execLowWordRead_ticks (off : Nat) (s : State) : ∃ s', execLowWordRead off s = .next s' ∧ Ticks s s' := by
  refine ⟨_, rfl, ?_⟩
  with_reducible repeat' first | exact Ticks.same | (apply Ticks.after; apply hostRead32_ticks) | split

theorem execHighWordWrite_ticks (off : Nat) (v : Word) (s : State) : ∃ s', execHighWordWrite off v s = .next s' ∧ Ticks s s' := by
  refine ⟨_, rfl, ?_⟩
  with_reducible repeat' first | exact Ticks.same | (apply Ticks.after; apply hostWrite32_ticks) | split

theorem execMisalignedAccess_ticks (write : Bool) (off width : Nat) (s : State) : ∃ s', execMisalignedAccess write off width s = .next s' ∧ Ticks s s' := by
  refine ⟨_, rfl, ?_⟩
  with_reducible repeat' first | (apply Ticks.after; apply accessErr_ticks) | (refine Ticks.upd ?_; exact Ticks.same) | split

theorem execUndefinedOffsetAccess_ticks (write : Bool) (off : Nat) (s : State) : ∃ s', execUndefinedOffsetAccess write off s = .next s' ∧ Ticks s s' := by
  refine ⟨_, rfl, ?_⟩
  with_reducible repeat' first
    | exact Ticks.same
    | (apply Ticks.after; first | (apply Ticks.sound; apply hostRead32_ticks) | apply hostWrite32_ticks)
    | split

theorem execRingEnable_ticks (completion : Bool) (cfg : Word) (s : State) : ∃ s', execRingEnable completion cfg s = .next s' ∧ Ticks s s' := by
  refine ⟨_, rfl, ?_⟩
  with_reducible repeat' first | exact Ticks.same | (apply Ticks.after; apply ringCfgWrite_ticks) | split

theorem execRingHeadWrite_ticks (completion : Bool) (v : Word) (s : State) : ∃ s', execRingHeadWrite completion v s = .next s' ∧ Ticks s s' := by
  refine ⟨_, rfl, ?_⟩
  with_reducible repeat' first | exact Ticks.same | (apply Ticks.after; apply ringHeadWrite_ticks) | split

theorem execRingSetupWrite_ticks (completion : Bool) (word : Fin 3) (v : Word) (s : State) : ∃ s', execRingSetupWrite completion word v s = .next s' ∧ Ticks s s' := by
  refine ⟨_, rfl, ?_⟩
  with_reducible repeat' first | exact Ticks.same | (apply Ticks.after; apply hostWrite32_ticks) | split

theorem execIntmaskWrite_ticks (v : Word) (s : State) : ∃ s', execIntmaskWrite v s = .next s' ∧ Ticks s s' := by
  refine ⟨_, rfl, ?_⟩
  with_reducible repeat' first | exact Ticks.same | (apply Ticks.after; apply intmaskWrite_ticks) | split

theorem execFlushNow_ticks (s : State) : ∃ s', execFlushNow s = .next s' ∧ Ticks s s' := by
  refine ⟨_, rfl, ?_⟩
  with_reducible repeat' first | exact Ticks.same | (apply Ticks.after; apply inflowCtl_ticks) | split

theorem execFlushPkt_ticks (s : State) : ∃ s', execFlushPkt s = .next s' ∧ Ticks s s' := by
  refine ⟨_, rfl, ?_⟩
  with_reducible repeat' first | exact Ticks.same | (apply Ticks.after; apply inflowCtl_ticks) | split

theorem execFlushPktComplete_ticks (s : State) : ∃ s', execFlushPktComplete s = .next s' ∧ Ticks s s' := by
  refine ⟨_, rfl, ?_⟩
  with_reducible repeat' first | exact Ticks.same | (apply Ticks.after; apply flushDue_ticks) | split

/- Ports.lean. -/

theorem onJob_ticks (s : State) (q id : Nat) (f : PortJob → PortJob) : Ticks s (onJob s q id f) := by
  unfold onJob
  with_reducible repeat' first | exact Ticks.same | (apply Ticks.after; apply onArb_ticks)

theorem presentReq_ticks (s : State) (q : Nat) (e : PqEntry) : Ticks s (presentReq s q e) := by
  unfold presentReq
  with_reducible repeat' first | exact Ticks.same | (apply Ticks.after; apply onArb_ticks) | apply Ticks.ite

theorem portRequest_ticks (s : State) (q id page len : Nat) : Ticks s (portRequest s q id page len) := by
  unfold portRequest
  with_reducible repeat' first
    | exact Ticks.same
    | (apply Ticks.after; first | apply onJob_ticks | apply presentReq_ticks)
    | (refine Ticks.upd ?_; first | exact Ticks.same | (apply Ticks.after; first | apply onJob_ticks | apply presentReq_ticks) | apply Ticks.ite | split)
    | apply Ticks.ite
    | split

theorem execSidePortRequest_ticks (q : Quad) (id : Fin 14) (page : Nat) (len : Nat) (s : State) : ∃ s', execSidePortRequest q id page len s = .next s' ∧ Ticks s s' := by
  refine ⟨_, rfl, ?_⟩
  with_reducible repeat' first
    | exact Ticks.same
    | (apply Ticks.after; apply portRequest_ticks)
    | apply Ticks.ite
    | split

theorem scrubAdvance_ticks (s : State) (q : Nat) : Ticks s (scrubAdvance s q) := by
  unfold scrubAdvance
  with_reducible repeat' first
    | exact Ticks.same
    | (refine Ticks.upd ?_; first | exact Ticks.same | apply Ticks.ite | split | (refine Ticks.upd ?_; first | exact Ticks.same))
    | apply Ticks.ite
    | split

theorem execScrubPageStart_ticks (q : Quad) (s : State) : ∃ s', execScrubPageStart q s = .next s' ∧ Ticks s s' := by
  refine ⟨_, rfl, ?_⟩
  with_reducible repeat' first
    | exact Ticks.same
    | (apply Ticks.after; first | apply onArb_ticks | apply onJob_ticks | apply scrubAdvance_ticks)
    | (refine Ticks.upd ?_; first | exact Ticks.same | (apply Ticks.after; first | apply onArb_ticks | apply onJob_ticks | apply scrubAdvance_ticks) | apply Ticks.ite | split | (refine Ticks.upd ?_; first | exact Ticks.same | (apply Ticks.after; first | apply onArb_ticks | apply onJob_ticks | apply scrubAdvance_ticks)))
    | apply Ticks.ite
    | split

theorem scrubAbandon_ticks (s : State) (q : Nat) : Ticks s (scrubAbandon s q) := by
  unfold scrubAbandon
  with_reducible repeat' first
    | exact Ticks.same
    | (apply Ticks.after; apply onArb_ticks)
    | (refine Ticks.upd ?_; first | exact Ticks.same | (apply Ticks.after; apply onArb_ticks) | apply Ticks.ite | split)

theorem apertureDone_ticks (s : State) (q : Nat) : Ticks s (apertureDone s q) := by
  unfold apertureDone
  with_reducible repeat' first
    | (apply Ticks.after; apply onArb_ticks)
    | (refine Ticks.upd ?_; first | exact Ticks.same | (apply Ticks.after; apply onArb_ticks))
    | apply Ticks.ite
    | split

theorem apertureFails_ticks (s : State) (q : Nat) : Ticks s (apertureFails s q) := by
  unfold apertureFails
  with_reducible repeat' first
    | (apply Ticks.after; first | apply onArb_ticks | apply accessErr_ticks)
    | (refine Ticks.upd ?_; exact Ticks.same)
    | split

theorem execApertureRead_ticks (off len : Nat) (s : State) : ∃ s', execApertureRead off len s = .next s' ∧ Ticks s s' := by
  refine ⟨_, rfl, ?_⟩
  with_reducible repeat' first
    | (apply Ticks.after; first | apply onArb_ticks | apply accessErr_ticks | apply portRequest_ticks)
    | (refine Ticks.upd ?_; exact Ticks.same)
    | split

theorem execApertureTimeout_ticks (s : State) : ∃ s', execApertureTimeout s = .next s' ∧ Ticks s s' := by
  refine ⟨_, rfl, ?_⟩
  with_reducible repeat' first
    | exact Ticks.same
    | (apply Ticks.after; apply apertureFails_ticks)
    | (apply Ticks.after; apply Ticks.forUpto; intro s x)
    | split

theorem execApertureWrite_ticks (s : State) : ∃ s', execApertureWrite s = .next s' ∧ Ticks s s' := by
  refine ⟨_, rfl, ?_⟩
  with_reducible repeat' first | exact Ticks.same | (apply Ticks.after; apply accessErr_ticks) | split

theorem jobDone_ticks (s : State) (q : Nat) (e : PqEntry) : Ticks s (jobDone s q e) := by
  unfold jobDone
  with_reducible repeat' first
    | (apply Ticks.after; first | apply onArb_ticks | apply sendPage_ticks | apply scrubAdvance_ticks | apply apertureDone_ticks)
    | (refine Ticks.upd ?_; first | exact Ticks.same | (apply Ticks.after; first | apply onArb_ticks | apply sendPage_ticks | apply scrubAdvance_ticks | apply apertureDone_ticks))
    | apply Ticks.ite
    | split

theorem readErrors_ticks (s : State) (e : PqEntry) (corrected bad : Nat) : Ticks s (readErrors s e corrected bad) := by
  unfold readErrors
  with_reducible repeat' first
    | (apply Ticks.after; apply poisonPage_ticks)
    | dsimp only
    | (refine Ticks.upd ?_; exact Ticks.same)
    | split

theorem scrubBack_ticks (s : State) (q : Nat) (e : PqEntry) (corrected : Nat) : Ticks s (scrubBack s q e corrected) := by
  unfold scrubBack
  with_reducible repeat' first
    | exact Ticks.same
    | (apply Ticks.after; first | apply onArb_ticks | apply onJob_ticks)
    | (refine Ticks.upd ?_; first | exact Ticks.same | (apply Ticks.after; first | apply onArb_ticks | apply onJob_ticks) | apply Ticks.ite | split | (refine Ticks.upd ?_; first | exact Ticks.same | (apply Ticks.after; first | apply onArb_ticks | apply onJob_ticks)))
    | apply Ticks.ite
    | split

theorem transferDone_ticks (s : State) (q : Nat) (errs : Nat) : Ticks s (transferDone s q errs) := by
  unfold transferDone
  with_reducible repeat' first
    | exact Ticks.same
    | (apply Ticks.after; first | apply onArb_ticks | apply fetchWrite_ticks | apply onJob_ticks | apply scrubAbandon_ticks | apply jobDone_ticks | apply readErrors_ticks | apply scrubBack_ticks)
    | (refine Ticks.upd ?_; first | exact Ticks.same | (apply Ticks.after; first | apply onArb_ticks | apply fetchWrite_ticks | apply onJob_ticks | apply scrubAbandon_ticks | apply jobDone_ticks | apply readErrors_ticks | apply scrubBack_ticks) | apply Ticks.ite | split | (refine Ticks.upd ?_; first | exact Ticks.same | (apply Ticks.after; first | apply onArb_ticks | apply fetchWrite_ticks | apply onJob_ticks | apply scrubAbandon_ticks | apply jobDone_ticks | apply readErrors_ticks | apply scrubBack_ticks)))
    | apply Ticks.ite
    | split

theorem portGrant_ticks (s : State) (q errs : Nat) : Ticks s (portGrant s q errs) := by
  unfold portGrant
  with_reducible repeat' first
    | (apply Ticks.after; first | apply onArb_ticks | apply transferDone_ticks)
    | (refine Ticks.upd ?_; first | exact Ticks.same | split)

theorem execSidePortGrant_ticks (q : Quad) (errs : Nat) (s : State) : ∃ s', execSidePortGrant q errs s = .next s' ∧ Ticks s s' := by
  refine ⟨_, rfl, ?_⟩
  with_reducible repeat' first | exact Ticks.same | (apply Ticks.after; apply portGrant_ticks) | split

theorem watchdogOutcome_ticks (s : State) (q : Nat) (e : PqEntry) (n : Nat) : Ticks s (watchdogOutcome s q e n) := by
  unfold watchdogOutcome
  with_reducible repeat' first
    | exact Ticks.same
    | (apply Ticks.after; first | apply onQuad_ticks | apply streamPoison_ticks | apply fetchFail_ticks | apply scrubAbandon_ticks | apply apertureFails_ticks)
    | (refine Ticks.upd ?_; first | exact Ticks.same | (apply Ticks.after; first | apply onQuad_ticks | apply streamPoison_ticks | apply fetchFail_ticks | apply scrubAbandon_ticks | apply apertureFails_ticks) | apply Ticks.ite | split | (refine Ticks.upd ?_; first | exact Ticks.same | (apply Ticks.after; first | apply onQuad_ticks | apply streamPoison_ticks | apply fetchFail_ticks | apply scrubAbandon_ticks | apply apertureFails_ticks)))
    | apply Ticks.ite
    | split

theorem portWatchdog_ticks (s : State) (q : Nat) : Ticks s (portWatchdog s q) := by
  unfold portWatchdog
  with_reducible repeat' first
    | exact Ticks.same
    | (apply Ticks.after; first | apply onArb_ticks | apply raise_ticks | apply watchdogOutcome_ticks)
    | split

theorem execPortWatchdogExpiry_ticks (q : Quad) (s : State) : ∃ s', execPortWatchdogExpiry q s = .next s' ∧ Ticks s s' := by
  refine ⟨_, rfl, ?_⟩
  with_reducible repeat' first | exact Ticks.same | (apply Ticks.after; apply portWatchdog_ticks) | split

/- Inflow.lean. -/

theorem discardPacket_ticks (s : State) (last : Bool) : Ticks s (discardPacket s last) := by
  unfold discardPacket
  exact Ticks.upd Ticks.same

theorem packWord_ticks (s : State) (w : List Byte) (last : Bool) : Ticks s (packWord s w last) := by
  unfold packWord
  with_reducible repeat' first
    | (apply Ticks.after; apply discardPacket_ticks)
    | (refine Ticks.upd ?_; first | exact Ticks.same | apply Ticks.ite)

theorem packWords_ticks (n : Nat) (s : State) (l : List Byte) (e : Bool) : Ticks s (packWords n s l e) := by
  induction n generalizing s l with
  | zero => exact Ticks.same
  | succ n ih => exact (packWord_ticks _ _ _).trans (ih _ _)

theorem execInflowWriteTlp_ticks (addr : Nat) (bytes : List Byte) (allEnabled : Bool) (s : State) : ∃ s', execInflowWriteTlp addr bytes allEnabled s = .next s' ∧ Ticks s s' := by
  refine ⟨_, rfl, ?_⟩
  with_reducible repeat' first
    | (apply Ticks.after; first | (apply Ticks.sound; apply wakeActive_ticks) | (apply Ticks.sound; apply flushDue_ticks) | (apply Ticks.sound; apply packWords_ticks))
    | (refine Ticks.upd ?_; exact Ticks.same)
    | apply Ticks.ite

theorem completeAtOnce_ticks (s : State) (b : List Byte) (st e : Nat) : Ticks s (completeAtOnce s b st e) := by
  unfold completeAtOnce
  with_reducible repeat' first | exact Ticks.same | (apply Ticks.after; apply complete_ticks)

theorem admitReq_ticks (s : State) (c e : Nat) (b : List Byte) : Ticks s (admitReq s c e b) := by
  unfold admitReq
  with_reducible repeat' first
    | (apply Ticks.after; first | (apply Ticks.sound; apply onCtx_ticks) | (apply Ticks.sound; apply onBl_ticks) | apply syncRealign_ticks)
    | (apply Ticks.after; apply Ticks.foldl; intro s x)
    | (refine Ticks.upd ?_; first | exact Ticks.same | (apply Ticks.after; first | (apply Ticks.sound; apply onCtx_ticks) | (apply Ticks.sound; apply onBl_ticks) | apply syncRealign_ticks))

theorem admitLoop_ticks (n : Nat) (s : State) (adm : List Nat) (e k : Nat) : Ticks s (admitLoop n s adm e k).1 := by
  induction n generalizing s adm k with
  | zero => exact Ticks.same
  | succ n ih =>
    unfold admitLoop
    split
    · exact Ticks.same
    · dsimp only
      split
      · exact Ticks.same
      · exact Ticks.trans (Ticks.after (completeAtOnce_ticks _ _ _ _).sound (Ticks.upd Ticks.same)) (ih _ _ _)
      · exact Ticks.trans (Ticks.after (admitReq_ticks _ _ _ _) (Ticks.upd Ticks.same)) (ih _ _ _)

theorem requestBoundary_ticks (s : State) (c e : Nat) : Ticks s (requestBoundary s c e) := by
  unfold requestBoundary
  with_reducible repeat' first
    | exact Ticks.same
    | (apply Ticks.after; first | apply onQuad_ticks | apply armThread_ticks)
    | (apply Ticks.after; apply Ticks.foldl; intro s x)
    | (apply Ticks.after; apply Ticks.forUpto; intro s x)

theorem admission_ticks (s : State) (e : Nat) : Ticks s (admission s e) := by
  unfold admission
  with_reducible repeat' first
    | (apply Ticks.after; first | (apply Ticks.sound; apply flushDue_ticks) | apply admitLoop_ticks | (apply Ticks.sound; apply requestBoundary_ticks))
    | (apply Ticks.after; apply Ticks.forUpto; intro s x)
    | (refine Ticks.upd ?_; first | exact Ticks.same | split)

theorem execCompletionBacklogDrain_ticks (s : State) : ∃ s', execCompletionBacklogDrain s = .next s' ∧ Ticks s s' := by
  refine ⟨_, rfl, ?_⟩
  with_reducible repeat' first | exact Ticks.same | (apply Ticks.after; apply drainBacklog_ticks) | split

theorem execEventOverflowRecord_ticks (s : State) : ∃ s', execEventOverflowRecord s = .next s' ∧ Ticks s s' := by
  refine ⟨_, rfl, ?_⟩
  with_reducible repeat' first | exact Ticks.same | (apply Ticks.after; apply evrOverflow_ticks) | split

theorem hostBack_ticks (s : State) : Ticks s (hostBack s) := by
  unfold hostBack
  with_reducible repeat' first
    | exact Ticks.same
    | (apply Ticks.after; first | apply signalPending_ticks | apply ringRoom_ticks)

theorem execPciPowerStateChange_ticks (d3hot : Bool) (s : State) : ∃ s', execPciPowerStateChange d3hot s = .next s' ∧ Ticks s s' := by
  refine ⟨_, rfl, ?_⟩
  with_reducible repeat' first | (apply Ticks.after; apply hostBack_ticks) | (refine Ticks.upd ?_; exact Ticks.same) | split

/- HostCmds.lean. -/

theorem bufAlloc_ticks (s : State) (p : List Byte) : Ticks s (bufAlloc s p) := by
  unfold bufAlloc
  with_reducible repeat' first
    | exact Ticks.same
    | (apply Ticks.after; first | apply onBl_ticks | apply answer_ticks)
    | (refine Ticks.upd ?_; first | exact Ticks.same | (apply Ticks.after; first | apply onBl_ticks | apply answer_ticks) | apply Ticks.ite | split | (refine Ticks.upd ?_; first | exact Ticks.same | (apply Ticks.after; first | apply onBl_ticks | apply answer_ticks)))
    | apply Ticks.ite
    | split

theorem execBufAlloc_ticks (s : State) : ∃ s', execBufAlloc s = .next s' ∧ Ticks s s' := by
  refine ⟨_, rfl, ?_⟩
  with_reducible repeat' first
    | exact Ticks.same
    | (apply Ticks.after; apply bufAlloc_ticks)
    | refine onCmd_ticks _ _ _ fun p => ?_

theorem bufOnRef_ticks (s : State) (p : List Byte) (f : State → Nat → State) (h : ∀ s r, Ticks s (f s r)) :
    Ticks s (bufOnRef s p f) := by
  unfold bufOnRef
  dsimp only
  refine Ticks.ite _ (answer_ticks _ _ _) (Ticks.ite _ (answer_ticks _ _ _) ?_)
  split
  · exact (h _ _).trans (answer_ticks _ _ _)
  · exact (rejectFree_ticks _ _ _).sound.trans (answer_ticks _ _ _)

theorem execBufFree_ticks (s : State) : ∃ s', execBufFree s = .next s' ∧ Ticks s s' := by
  refine ⟨_, rfl, ?_⟩
  with_reducible repeat' first
    | exact Ticks.same
    | (apply Ticks.after; (apply Ticks.sound; apply doFree_ticks))
    | refine onCmd_ticks _ _ _ fun p => ?_
    | refine bufOnRef_ticks _ _ _ fun s r => ?_

theorem giveBuf_ticks (s : State) (ref : Nat) : Ticks s (giveBuf s ref) := by
  unfold giveBuf
  with_reducible repeat' first | exact Ticks.same | (apply Ticks.after; apply onBl_ticks)

theorem execBufGive_ticks (s : State) : ∃ s', execBufGive s = .next s' ∧ Ticks s s' := by
  refine ⟨_, rfl, ?_⟩
  with_reducible repeat' first
    | exact Ticks.same
    | (apply Ticks.after; (apply Ticks.sound; apply giveBuf_ticks))
    | refine onCmd_ticks _ _ _ fun p => ?_
    | refine bufOnRef_ticks _ _ _ fun s r => ?_

theorem settleLedger_ticks (s : State) : Ticks s (settleLedger s) := by
  unfold settleLedger
  with_reducible repeat' first
    | exact Ticks.same
    | (apply Ticks.after; first | apply doFree_ticks | apply bufAlloc_ticks | apply giveBuf_ticks)
    | refine onCmd_ticks _ _ _ fun p => ?_
    | refine bufOnRef_ticks _ _ _ fun s r => ?_
    | (refine Ticks.upd ?_; first | exact Ticks.same | (apply Ticks.after; first | apply doFree_ticks | apply bufAlloc_ticks | apply giveBuf_ticks) | apply Ticks.ite | split)
    | split

theorem execCombAperture_ticks (s : State) : ∃ s', execCombAperture s = .next s' ∧ Ticks s s' := by
  refine ⟨_, rfl, ?_⟩
  with_reducible repeat' first
    | (apply Ticks.after; apply answer_ticks)
    | refine onCmd_ticks _ _ _ fun p => ?_
    | (refine Ticks.upd ?_; exact Ticks.same)
    | split

theorem onCal_ticks (s : State) (t : CalTarget) (f : CalSt → CalSt) : Ticks s (onCal s t f) := by
  unfold onCal
  exact Ticks.upd Ticks.same

theorem calDue_ticks (s : State) (t : CalTarget) : Ticks s (calDue s t) := by
  unfold calDue
  with_reducible repeat' first | exact Ticks.same | (apply Ticks.after; apply onCal_ticks) | split

theorem execSynCalRun_ticks (s : State) : ∃ s', execSynCalRun s = .next s' ∧ Ticks s s' := by
  refine ⟨_, rfl, ?_⟩
  with_reducible repeat' first
    | exact Ticks.same
    | (apply Ticks.after; first | apply answer_ticks | (apply Ticks.sound; apply calDue_ticks))
    | refine onCmd_ticks _ _ _ fun p => ?_
    | (apply Ticks.after; apply Ticks.foldl; intro s x)
    | split

theorem hivePort_ticks (s : State) (act : Nat) (f : Nat → State) (h : ∀ p, Ticks s (f p)) : Ticks s (hivePort s act f) :=
  onCmd_ticks _ _ _ fun _ => Ticks.ite _ (answer_ticks _ _ _) (Ticks.ite _ Ticks.same (Ticks.ite _ (answer_ticks _ _ _) (h _)))

theorem execHivePortRetrain_ticks (s : State) : ∃ s', execHivePortRetrain s = .next s' ∧ Ticks s s' := by
  refine ⟨_, rfl, ?_⟩
  with_reducible repeat' first
    | exact Ticks.same
    | (apply Ticks.after; first | (apply Ticks.sound; apply portTrain_ticks) | apply answer_ticks)
    | refine hivePort_ticks _ _ _ fun p => ?_
    | split

theorem execHivePortUnfence_ticks (s : State) : ∃ s', execHivePortUnfence s = .next s' ∧ Ticks s s' := by
  refine ⟨_, rfl, ?_⟩
  with_reducible repeat' first
    | exact Ticks.same
    | (apply Ticks.after; first | (apply Ticks.sound; apply portTrain_ticks) | apply answer_ticks)
    | refine hivePort_ticks _ _ _ fun p => ?_
    | split

theorem execHivePortHold_ticks (s : State) : ∃ s', execHivePortHold s = .next s' ∧ Ticks s s' := by
  refine ⟨_, rfl, ?_⟩
  with_reducible repeat' first
    | exact Ticks.same
    | (apply Ticks.after; first | (apply Ticks.sound; apply raise_ticks) | (apply Ticks.sound; apply portTo_ticks) | apply answer_ticks)
    | refine hivePort_ticks _ _ _ fun p => ?_
    | apply Ticks.ite

theorem execPwrLimit_ticks (s : State) : ∃ s', execPwrLimit s = .next s' ∧ Ticks s s' := by
  refine ⟨_, rfl, ?_⟩
  with_reducible repeat' first
    | (apply Ticks.after; apply answer_ticks)
    | refine onCmd_ticks _ _ _ fun p => ?_
    | (refine Ticks.upd ?_; exact Ticks.same)
    | apply Ticks.ite

theorem execResetQuad_ticks (s : State) : ∃ s', execResetQuad s = .next s' ∧ Ticks s s' := by
  refine ⟨_, rfl, ?_⟩
  with_reducible repeat' first
    | exact Ticks.same
    | (apply Ticks.after; first | (apply Ticks.sound; apply onQuad_ticks) | apply answer_ticks)
    | refine onCmd_ticks _ _ _ fun p => ?_
    | apply Ticks.ite

theorem execResetWarm_ticks (s : State) : ∃ s', execResetWarm s = .next s' ∧ Ticks s s' := by
  refine ⟨_, rfl, ?_⟩
  with_reducible repeat' first
    | (apply Ticks.after; apply answer_ticks)
    | refine onCmd_ticks _ _ _ fun p => ?_
    | (refine Ticks.upd ?_; exact Ticks.same)
    | split

end Sys2Proof.Machine
end

