-- ==== Sys2Proof/Laws/TicksSystem.lean ====
section
/-! SUPPORT. What each operation of Heartwood, Calib, Presence, Power, Boot, Resets does to the beat number, the slot and the guard: nothing. -/

namespace Sys2Proof.Machine

set_option Elab.async false

open Sys2Proof

/- Heartwood.lean. -/

theorem hwOpen_ticks (s : State) : Ticks s (hwOpen s) := by
  unfold hwOpen
  with_reducible repeat' first | (refine Ticks.upd ?_; exact Ticks.same) | split

theorem hwWrite_ticks (s : State) (typ : Nat) (payload : List Byte) : Ticks s (hwWrite s typ payload) := by
  unfold hwWrite
  with_reducible repeat' first
    | (apply Ticks.after; apply hwOpen_ticks)
    | dsimp only
    | (refine Ticks.upd ?_; first | exact Ticks.same | (apply Ticks.after; apply hwOpen_ticks))
    | split

theorem hwNor_ticks (s : State) (r : HwPend) : Ticks s (hwNor s r) := by
  unfold hwNor
  with_reducible repeat' first | (refine Ticks.upd ?_; exact Ticks.same) | split

theorem hwCommit_ticks (s : State) (r : HwPend) : Ticks s (hwCommit s r) := by
  unfold hwCommit
  refine Ticks.trans ((hwWrite_ticks s r.typ r.payload).trans (hwNor_ticks _ r)) ?_
  generalize hwNor _ _ = u
  dsimp only
  split
  · exact ⟨rfl, rfl, rfl⟩
  · exact Ticks.same

theorem hwRefill_ticks (s : State) : Ticks s (hwRefill s) := by
  unfold hwRefill
  with_reducible repeat' first
    | (apply Ticks.after; apply hwMirrors_ticks)
    | dsimp only
    | (refine Ticks.upd ?_; exact Ticks.same)

theorem hwGoOffline_ticks (s : State) : Ticks s (hwGoOffline s) := by
  unfold hwGoOffline
  with_reducible repeat' first
    | (apply Ticks.after; first | apply raiseRing_ticks | apply hwLose_ticks)
    | (refine Ticks.upd ?_; first | exact Ticks.same | (apply Ticks.after; first | apply raiseRing_ticks | apply hwLose_ticks))

theorem hwSnapshot_ticks (s : State) : Ticks s (hwSnapshot s) := by
  unfold hwSnapshot
  with_reducible repeat' first
    | (apply Ticks.after; first | (apply Ticks.sound; apply hwWrite_ticks) | apply hwCommit_ticks)
    | (apply Ticks.after; apply Ticks.foldl; intro s x)
    | (refine Ticks.upd ?_; first | exact Ticks.same | (apply Ticks.after; first | (apply Ticks.sound; apply hwWrite_ticks) | apply hwCommit_ticks))

theorem hwForget_ticks (s : State) (b : Nat) : Ticks s (hwForget s b) := by
  unfold hwForget
  exact Ticks.upd Ticks.same

theorem mapRewrite_ticks (s : State) : Ticks s (mapRewrite s) := by
  unfold mapRewrite
  with_reducible repeat' first | dsimp only | (refine Ticks.upd ?_; exact Ticks.same) | split

theorem hwRing_ticks (s : State) (b k : Nat) : Ticks s (hwRing s b k) := by
  unfold hwRing
  exact Ticks.upd Ticks.same

theorem blockFailure_ticks (s : State) (b : Nat) : Ticks s (blockFailure s b) := by
  unfold blockFailure
  with_reducible repeat' first
    | (apply Ticks.after; first | apply hwState_ticks | apply raise_ticks | apply hwGoOffline_ticks | apply hwForget_ticks | apply mapRewrite_ticks | apply hwRing_ticks)
    | (refine Ticks.upd ?_; first | exact Ticks.same | (apply Ticks.after; first | apply hwState_ticks | apply raise_ticks | apply hwGoOffline_ticks | apply hwForget_ticks | apply mapRewrite_ticks | apply hwRing_ticks) | split)

theorem hwRetries_ticks (s : State) (n : Nat) : Ticks s (hwRetries s n) := by
  unfold hwRetries
  with_reducible repeat' first
    | (apply Ticks.after; apply raise_ticks)
    | dsimp only
    | (refine Ticks.upd ?_; exact Ticks.same)
    | split

theorem execHeartwoodProgramComplete_ticks (copy ok : Bool) (retries : Nat) (s : State) : ∃ s', execHeartwoodProgramComplete copy ok retries s = .next s' ∧ Ticks s s' := by
  refine ⟨_, rfl, ?_⟩
  with_reducible repeat' first
    | (apply Ticks.after; first | (apply Ticks.sound; apply hwOpen_ticks) | apply hwCommit_ticks | (apply Ticks.sound; apply hwRefill_ticks) | (apply Ticks.sound; apply blockFailure_ticks) | (apply Ticks.sound; apply hwRetries_ticks))
    | (refine Ticks.upd ?_; first | exact Ticks.same | (apply Ticks.after; first | (apply Ticks.sound; apply hwOpen_ticks) | apply hwCommit_ticks | (apply Ticks.sound; apply hwRefill_ticks) | (apply Ticks.sound; apply blockFailure_ticks) | (apply Ticks.sound; apply hwRetries_ticks)))
    | apply Ticks.ite
    | split

theorem eraseStart_ticks (s : State) (b : Nat) : Ticks s (eraseStart s b) := by
  unfold eraseStart
  with_reducible repeat' first
    | (apply Ticks.after; apply hwForget_ticks)
    | (refine Ticks.upd ?_; first | exact Ticks.same | (apply Ticks.after; apply hwForget_ticks))

theorem execBlockReclaim_ticks (s : State) : ∃ s', execBlockReclaim s = .next s' ∧ Ticks s s' := by
  refine ⟨_, rfl, ?_⟩
  with_reducible repeat' first
    | exact Ticks.same
    | (apply Ticks.after; first | apply hwSnapshot_ticks | (apply Ticks.sound; apply eraseStart_ticks))
    | split

theorem wipeDone_ticks (s : State) : Ticks s (wipeDone s) := by
  unfold wipeDone
  with_reducible repeat' first | (apply Ticks.after; apply hwWrite_ticks) | (refine Ticks.upd ?_; exact Ticks.same)

theorem wipeNext_ticks (s : State) : Ticks s (wipeNext s) := by
  unfold wipeNext
  with_reducible repeat' first | (apply Ticks.after; apply wipeDone_ticks) | (refine Ticks.upd ?_; exact Ticks.same) | split

theorem eraseDone_ticks (s : State) (b : Nat) : Ticks s (eraseDone s b) := by
  unfold eraseDone
  with_reducible repeat' first | (apply Ticks.after; apply hwState_ticks) | (refine Ticks.upd ?_; exact Ticks.same)

theorem execHeartwoodEraseComplete_ticks (blank : Bool) (pct : Nat) (s : State) : ∃ s', execHeartwoodEraseComplete blank pct s = .next s' ∧ Ticks s s' := by
  refine ⟨_, rfl, ?_⟩
  with_reducible repeat' first
    | (apply Ticks.after; first | apply raise_ticks | apply blockFailure_ticks | apply wipeNext_ticks | apply eraseDone_ticks)
    | (refine Ticks.upd ?_; first | exact Ticks.same | apply Ticks.ite | split)

theorem presenceCmd_ticks (s : State) (op : Nat) (f : List Byte → State) (h : ∀ p, Ticks s (f p)) : Ticks s (presenceCmd s op f) := by
  refine onCmd_ticks _ _ _ fun p => ?_
  split
  · exact answer_ticks _ _ _
  · exact h p

theorem execHwErase_ticks (s : State) : ∃ s', execHwErase s = .next s' ∧ Ticks s s' := by
  refine ⟨_, rfl, ?_⟩
  with_reducible repeat' first
    | (apply Ticks.after; first | apply answer_ticks | (apply Ticks.sound; apply wipeNext_ticks))
    | refine presenceCmd_ticks _ _ _ fun p => ?_
    | (refine Ticks.upd ?_; exact Ticks.same)

theorem bootRecordWrite_ticks (s : State) : Ticks s (bootRecordWrite s) := by
  unfold bootRecordWrite
  with_reducible repeat' first
    | (apply Ticks.after; apply hwState_ticks)
    | (refine Ticks.upd ?_; first | exact Ticks.same | (apply Ticks.after; apply hwState_ticks))
    | split

theorem hwRewrite_ticks (s : State) : Ticks s (hwRewrite s) := by
  unfold hwRewrite
  with_reducible repeat' first
    | exact Ticks.same
    | (apply Ticks.after; apply hwState_ticks)
    | (apply Ticks.after; apply Ticks.foldl; intro s x)
    | apply Ticks.ite

theorem hwLoad_ticks (s : State) : Ticks s (hwLoad s) := by
  unfold hwLoad
  with_reducible repeat' first | (refine Ticks.upd ?_; exact Ticks.same) | split

theorem hwScanEnd_ticks (s : State) (ok : Bool) : Ticks s (hwScanEnd s ok) := by
  unfold hwScanEnd
  with_reducible repeat' first
    | exact Ticks.same
    | (apply Ticks.after; first | apply hwLose_ticks | apply raise_ticks | apply hwMirrors_ticks | apply romRound_ticks | apply hwGoOffline_ticks | apply bootRecordWrite_ticks | apply hwRewrite_ticks | apply hwLoad_ticks)
    | (refine Ticks.upd ?_; first | exact Ticks.same | (apply Ticks.after; first | apply hwLose_ticks | apply raise_ticks | apply hwMirrors_ticks | apply romRound_ticks | apply hwGoOffline_ticks | apply bootRecordWrite_ticks | apply hwRewrite_ticks | apply hwLoad_ticks) | apply Ticks.ite | split | (refine Ticks.upd ?_; first | exact Ticks.same | (apply Ticks.after; first | apply hwLose_ticks | apply raise_ticks | apply hwMirrors_ticks | apply romRound_ticks | apply hwGoOffline_ticks | apply bootRecordWrite_ticks | apply hwRewrite_ticks | apply hwLoad_ticks)))
    | apply Ticks.ite
    | split

theorem execHeartwoodScanComplete_ticks (sfdpOk : Bool) (s : State) : ∃ s', execHeartwoodScanComplete sfdpOk s = .next s' ∧ Ticks s s' := by
  refine ⟨_, rfl, ?_⟩
  with_reducible repeat' first | exact Ticks.same | (apply Ticks.after; apply hwScanEnd_ticks) | split

theorem execHeartwoodScanDeadline_ticks (s : State) : ∃ s', execHeartwoodScanDeadline s = .next s' ∧ Ticks s s' := by
  refine ⟨_, rfl, ?_⟩
  with_reducible repeat' first | exact Ticks.same | (apply Ticks.after; apply hwScanEnd_ticks) | split

theorem hwPowerFail_ticks (s : State) : Ticks s (hwPowerFail s) := by
  unfold hwPowerFail
  with_reducible repeat' first
    | exact Ticks.same
    | (apply Ticks.after; first | apply hwWrite_ticks | apply hwCommit_ticks)
    | (apply Ticks.after; apply Ticks.foldl; intro s x)
    | (refine Ticks.upd ?_; first | exact Ticks.same | (apply Ticks.after; first | apply hwWrite_ticks | apply hwCommit_ticks) | (apply Ticks.after; apply Ticks.foldl; intro s x) | apply Ticks.ite | split | (refine Ticks.upd ?_; first | exact Ticks.same | (apply Ticks.after; first | apply hwWrite_ticks | apply hwCommit_ticks)))
    | apply Ticks.ite
    | split

theorem hwFlush_ticks (s : State) : Ticks s (hwFlush s) := by
  unfold hwFlush
  with_reducible repeat' first
    | (apply Ticks.after; apply hwCommit_ticks)
    | (apply Ticks.after; apply Ticks.foldl; intro s x)
    | (refine Ticks.upd ?_; first | exact Ticks.same | (apply Ticks.after; apply Ticks.foldl; intro s x))
    | split

theorem execHwRead_ticks (s : State) : ∃ s', execHwRead s = .next s' ∧ Ticks s s' := by
  refine ⟨_, rfl, ?_⟩
  with_reducible repeat' first
    | exact Ticks.same
    | (apply Ticks.after; apply answer_ticks)
    | refine onCmd_ticks _ _ _ fun p => ?_
    | apply Ticks.ite

/- Calib.lean. -/

theorem execCalibrationStart_ticks (t : CalTarget) (s : State) : ∃ s', execCalibrationStart t s = .next s' ∧ Ticks s s' := by
  refine ⟨_, rfl, ?_⟩
  with_reducible repeat' first
    | exact Ticks.same
    | (apply Ticks.after; first | apply sendLane_ticks | apply onCal_ticks)
    | (refine Ticks.upd ?_; first | exact Ticks.same | (apply Ticks.after; first | apply sendLane_ticks | apply onCal_ticks) | apply Ticks.ite | split)
    | apply Ticks.ite
    | split

theorem calPump_ticks (s : State) (l : Loop) (k : Nat) : Ticks s (calPump s l k) := by
  unfold calPump
  with_reducible repeat' first
    | exact Ticks.same
    | (apply Ticks.after; apply onProf_ticks)
    | (apply Ticks.after; apply Ticks.foldl; intro s x)
    | (refine Ticks.upd ?_; first | exact Ticks.same | (apply Ticks.after; apply onProf_ticks) | (apply Ticks.after; apply Ticks.foldl; intro s x) | apply Ticks.ite | split)
    | apply Ticks.ite
    | split

theorem calApply_ticks (s : State) (t : CalTarget) (v : Nat) : Ticks s (calApply s t v) := by
  unfold calApply
  with_reducible repeat' first
    | exact Ticks.same
    | (apply Ticks.after; first | apply onProf_ticks | apply onCal_ticks | apply calPump_ticks)
    | (apply Ticks.after; apply Ticks.foldl; intro s x)
    | (refine Ticks.upd ?_; first | exact Ticks.same | (apply Ticks.after; first | apply onProf_ticks | apply onCal_ticks | apply calPump_ticks) | (apply Ticks.after; apply Ticks.foldl; intro s x) | apply Ticks.ite | split | (refine Ticks.upd ?_; first | exact Ticks.same | (apply Ticks.after; first | apply onProf_ticks | apply onCal_ticks | apply calPump_ticks)))
    | apply Ticks.ite
    | split

theorem calService_ticks (s : State) (t : CalTarget) : Ticks s (calService s t) := by
  unfold calService
  with_reducible repeat' first
    | exact Ticks.same
    | (apply Ticks.after; first | apply onLoop_ticks | apply prelockOn_ticks)
    | (refine Ticks.upd ?_; first | exact Ticks.same | (apply Ticks.after; first | apply onLoop_ticks | apply prelockOn_ticks) | apply Ticks.ite | split | (refine Ticks.upd ?_; first | exact Ticks.same | (apply Ticks.after; first | apply onLoop_ticks | apply prelockOn_ticks)))
    | apply Ticks.ite
    | split

theorem laneEnd_ticks (s : State) (t : CalTarget) (meets : Bool) : Ticks s (laneEnd s t meets) := by
  unfold laneEnd
  with_reducible repeat' first
    | exact Ticks.same
    | (apply Ticks.after; first | apply onPort_ticks | apply sendLane_ticks)
    | (refine Ticks.upd ?_; first | exact Ticks.same | (apply Ticks.after; first | apply onPort_ticks | apply sendLane_ticks) | apply Ticks.ite | split | (refine Ticks.upd ?_; first | exact Ticks.same | (apply Ticks.after; first | apply onPort_ticks | apply sendLane_ticks)))
    | apply Ticks.ite
    | split

theorem calCount_ticks (s : State) (kind : Nat) (pass : Bool) : Ticks s (calCount s kind pass) := by
  unfold calCount
  exact Ticks.upd Ticks.same

theorem execCalibrationComplete_ticks (t : CalTarget) (pass : Bool) (value : Nat) (s : State) : ∃ s', execCalibrationComplete t pass value s = .next s' ∧ Ticks s s' := by
  refine ⟨_, rfl, ?_⟩
  with_reducible repeat' first
    | exact Ticks.same
    | (apply Ticks.after; first | apply raise_ticks | apply onCal_ticks | apply calApply_ticks | apply calService_ticks | apply laneEnd_ticks | apply calCount_ticks)
    | (refine Ticks.upd ?_; first | exact Ticks.same | (apply Ticks.after; first | apply raise_ticks | apply onCal_ticks | apply calApply_ticks | apply calService_ticks | apply laneEnd_ticks | apply calCount_ticks) | apply Ticks.ite | split | (refine Ticks.upd ?_; first | exact Ticks.same | (apply Ticks.after; first | apply raise_ticks | apply onCal_ticks | apply calApply_ticks | apply calService_ticks | apply laneEnd_ticks | apply calCount_ticks)))
    | apply Ticks.ite
    | split

theorem interpEdge_ticks (s : State) : Ticks s (interpEdge s) := by
  unfold interpEdge
  with_reducible repeat' first
    | exact Ticks.same
    | (apply Ticks.after; apply Ticks.foldl; intro s x)
    | (refine Ticks.upd ?_; first | exact Ticks.same | (apply Ticks.after; apply Ticks.foldl; intro s x) | apply Ticks.ite | split | (refine Ticks.upd ?_; first | exact Ticks.same))

theorem rampTo_ticks (s : State) (t : CalTarget) (v : Nat) : Ticks s (rampTo s t v) := by
  unfold rampTo
  with_reducible repeat' first
    | exact Ticks.same
    | (refine Ticks.upd ?_; first | exact Ticks.same | apply Ticks.ite | split | (refine Ticks.upd ?_; first | exact Ticks.same))
    | apply Ticks.ite
    | split

theorem calRamps_ticks (s : State) : Ticks s (calRamps s) := by
  unfold calRamps
  with_reducible repeat' first
    | exact Ticks.same
    | (apply Ticks.after; first | apply onCal_ticks | apply interpEdge_ticks | apply rampTo_ticks)
    | (apply Ticks.after; apply Ticks.foldl; intro s x)
    | (refine Ticks.upd ?_; first | exact Ticks.same | (apply Ticks.after; first | apply onCal_ticks | apply interpEdge_ticks | apply rampTo_ticks) | (apply Ticks.after; apply Ticks.foldl; intro s x) | apply Ticks.ite | split | (refine Ticks.upd ?_; first | exact Ticks.same | (apply Ticks.after; first | apply onCal_ticks | apply interpEdge_ticks | apply rampTo_ticks)))
    | apply Ticks.ite
    | split

theorem laneCount_ticks (s : State) (p k n : Nat) : Ticks s (laneCount s p k n) := by
  unfold laneCount
  with_reducible repeat' first
    | exact Ticks.same
    | (apply Ticks.after; first | apply onPort_ticks | apply weakLane_ticks | apply calDue_ticks)
    | (refine Ticks.upd ?_; first | exact Ticks.same | (apply Ticks.after; first | apply onPort_ticks | apply weakLane_ticks | apply calDue_ticks) | apply Ticks.ite | split)
    | apply Ticks.ite
    | split

theorem overrideCmd_ticks (s : State) (act : Nat) (f : CalSt → CalSt) : Ticks s (overrideCmd s act f) := by
  unfold overrideCmd
  with_reducible repeat' first
    | exact Ticks.same
    | (apply Ticks.after; first | apply answer_ticks | (apply Ticks.sound; apply onCal_ticks))
    | refine onCmd_ticks _ _ _ fun p => ?_
    | split

theorem execCalOverrideSet_ticks (s : State) : ∃ s', execCalOverrideSet s = .next s' ∧ Ticks s s' := by
  refine ⟨_, rfl, ?_⟩
  with_reducible repeat' first
    | exact Ticks.same
    | (apply Ticks.after; apply overrideCmd_ticks)
    | (refine Ticks.upd ?_; first | exact Ticks.same | (apply Ticks.after; apply overrideCmd_ticks) | apply Ticks.ite | split)
    | apply Ticks.ite
    | split

theorem execCalOverrideRelease_ticks (s : State) : ∃ s', execCalOverrideRelease s = .next s' ∧ Ticks s s' := by
  refine ⟨_, rfl, ?_⟩
  with_reducible repeat' first | exact Ticks.same | (apply Ticks.after; apply overrideCmd_ticks)

/- Presence.lean. -/

theorem execPresenceSample_ticks (low : Bool) (s : State) : ∃ s', execPresenceSample low s = .next s' ∧ Ticks s s' := by
  refine ⟨_, rfl, ?_⟩
  with_reducible repeat' first | (refine Ticks.upd ?_; exact Ticks.same) | split

theorem execPresenceQualified_ticks (s : State) : ∃ s', execPresenceQualified s = .next s' ∧ Ticks s s' := by
  refine ⟨_, rfl, ?_⟩
  with_reducible repeat' first | (refine Ticks.upd ?_; exact Ticks.same) | split

theorem execPresenceWindowExpiry_ticks (s : State) : ∃ s', execPresenceWindowExpiry s = .next s' ∧ Ticks s s' := by
  refine ⟨_, rfl, ?_⟩
  with_reducible repeat' first | (refine Ticks.upd ?_; exact Ticks.same) | split

theorem execSealSample_ticks (driven read : Bool) (s : State) : ∃ s', execSealSample driven read s = .next s' ∧ Ticks s s' := by
  refine ⟨_, rfl, ?_⟩
  with_reducible repeat' first | (refine Ticks.upd ?_; exact Ticks.same) | split

theorem wg3Close_ticks (s : State) : Ticks s (wg3Close s) := by
  unfold wg3Close
  exact Ticks.upd Ticks.same

theorem execSealBreak_ticks (s : State) : ∃ s', execSealBreak s = .next s' ∧ Ticks s s' := by
  refine ⟨_, rfl, ?_⟩
  with_reducible repeat' first
    | (apply Ticks.after; first | apply hwState_ticks | apply raise_ticks | apply wg3Close_ticks)
    | (refine Ticks.upd ?_; exact Ticks.same)
    | apply Ticks.ite

theorem slotMark_ticks (s : State) (slot : Nat) (bad : Bool) : Ticks s (slotMark s slot bad) := by
  unfold slotMark
  with_reducible repeat' first | (refine Ticks.upd ?_; exact Ticks.same) | split

theorem fwStep_ticks (s : State) (step : Nat) (presence : Bool) (f : List Byte → State) (h : ∀ p, Ticks s (f p)) :
    Ticks s (fwStep s step presence f) := by
  refine onCmd_ticks _ _ _ fun p => Ticks.ite _ Ticks.same ?_
  split
  · exact Ticks.ite _ (h p) (answer_ticks _ _ _)
  · exact h p

theorem loadProgress_ticks (s : State) : Ticks s (loadProgress s) := by
  unfold loadProgress
  with_reducible repeat' first | (refine Ticks.upd ?_; exact Ticks.same) | split

theorem execFwLoadBegin_ticks (s : State) : ∃ s', execFwLoadBegin s = .next s' ∧ Ticks s s' := by
  refine ⟨_, rfl, ?_⟩
  with_reducible repeat' first
    | (apply Ticks.after; first | apply answer_ticks | (apply Ticks.sound; apply slotMark_ticks) | (apply Ticks.sound; apply loadProgress_ticks))
    | refine fwStep_ticks _ _ _ _ fun p => ?_
    | (refine Ticks.upd ?_; first | exact Ticks.same | (apply Ticks.after; first | apply answer_ticks | (apply Ticks.sound; apply slotMark_ticks) | (apply Ticks.sound; apply loadProgress_ticks)))
    | apply Ticks.ite

theorem slotErase_ticks (s : State) (slot : Nat) : Ticks s (slotErase s slot) :=
  Ticks.ite _ ⟨rfl, rfl, rfl⟩
    ⟨rfl, rfl, rfl⟩

theorem execBootNorEraseComplete_ticks (s : State) : ∃ s', execBootNorEraseComplete s = .next s' ∧ Ticks s s' := by
  refine ⟨_, rfl, ?_⟩
  with_reducible repeat' first
    | (apply Ticks.after; first | apply answer_ticks | apply slotErase_ticks)
    | (refine Ticks.upd ?_; first | exact Ticks.same | (apply Ticks.after; first | apply answer_ticks | apply slotErase_ticks))
    | split

theorem slotWrite_ticks (s : State) (slot off : Nat) (data : List Byte) : Ticks s (slotWrite s slot off data) :=
  Ticks.ite _ ⟨rfl, rfl, rfl⟩
    ⟨rfl, rfl, rfl⟩

theorem execFwLoadData_ticks (s : State) : ∃ s', execFwLoadData s = .next s' ∧ Ticks s s' := by
  refine ⟨_, rfl, ?_⟩
  with_reducible repeat' first
    | (apply Ticks.after; first | apply answer_ticks | apply slotWrite_ticks)
    | refine fwStep_ticks _ _ _ _ fun p => ?_
    | (refine Ticks.upd ?_; first | exact Ticks.same | (apply Ticks.after; first | apply answer_ticks | apply slotWrite_ticks))
    | apply Ticks.ite
    | split

theorem execFwLoadFinish_ticks (img : ImageInfo) (s : State) : ∃ s', execFwLoadFinish img s = .next s' ∧ Ticks s s' := by
  refine ⟨_, rfl, ?_⟩
  with_reducible repeat' first
    | exact Ticks.same
    | (apply Ticks.after; first | apply raise_ticks | apply answer_ticks | apply slotMark_ticks | apply loadProgress_ticks)
    | refine fwStep_ticks _ _ _ _ fun p => ?_
    | (refine Ticks.upd ?_; first | exact Ticks.same | (apply Ticks.after; first | apply raise_ticks | apply answer_ticks | apply slotMark_ticks | apply loadProgress_ticks) | apply Ticks.ite | split | (refine Ticks.upd ?_; first | exact Ticks.same | (apply Ticks.after; first | apply raise_ticks | apply answer_ticks | apply slotMark_ticks | apply loadProgress_ticks)))
    | apply Ticks.ite
    | split

theorem execFwLoadSessionTimeout_ticks (s : State) : ∃ s', execFwLoadSessionTimeout s = .next s' ∧ Ticks s s' := by
  refine ⟨_, rfl, ?_⟩
  with_reducible repeat' first
    | (apply Ticks.after; first | apply slotMark_ticks | apply loadProgress_ticks)
    | (refine Ticks.upd ?_; first | exact Ticks.same | (apply Ticks.after; first | apply slotMark_ticks | apply loadProgress_ticks))
    | split

theorem execHiveKeyLoad_ticks (s : State) : ∃ s', execHiveKeyLoad s = .next s' ∧ Ticks s s' := by
  refine ⟨_, rfl, ?_⟩
  with_reducible repeat' first
    | (apply Ticks.after; first | (apply Ticks.sound; apply hwState_ticks) | apply answer_ticks)
    | refine presenceCmd_ticks _ _ _ fun p => ?_
    | (refine Ticks.upd ?_; exact Ticks.same)
    | split

theorem execRepairRead_ticks (s : State) : ∃ s', execRepairRead s = .next s' ∧ Ticks s s' := by
  refine ⟨_, rfl, ?_⟩
  with_reducible repeat' first
    | exact Ticks.same
    | (apply Ticks.after; apply answer_ticks)
    | refine presenceCmd_ticks _ _ _ fun p => ?_

theorem unsealCmd_ticks (s : State) (act : Nat) (f : List Byte → State) (h : ∀ p, Ticks s (f p)) : Ticks s (unsealCmd s act f) := by
  refine onCmd_ticks _ _ _ fun p => ?_
  dsimp only
  refine Ticks.ite _ Ticks.same ?_
  split
  · exact answer_ticks _ _ _
  · exact Ticks.ite _ ((h p).trans (answer_ticks _ _ _)) (answer_ticks _ _ _)

theorem execWg3Unseal_ticks (s : State) : ∃ s', execWg3Unseal s = .next s' ∧ Ticks s s' := by
  refine ⟨_, rfl, ?_⟩
  with_reducible repeat' first | refine unsealCmd_ticks _ _ _ fun p => ?_ | (refine Ticks.upd ?_; exact Ticks.same)

theorem execWg3Seal_ticks (s : State) : ∃ s', execWg3Seal s = .next s' ∧ Ticks s s' := by
  refine ⟨_, rfl, ?_⟩
  with_reducible repeat' first
    | exact Ticks.same
    | (apply Ticks.after; (apply Ticks.sound; apply wg3Close_ticks))
    | refine unsealCmd_ticks _ _ _ fun p => ?_

theorem execWg3UnsealExpiry_ticks (s : State) : ∃ s', execWg3UnsealExpiry s = .next s' ∧ Ticks s s' := by
  refine ⟨_, rfl, ?_⟩
  with_reducible repeat' first | exact Ticks.same | (apply Ticks.after; apply wg3Close_ticks) | split

theorem execReseal_ticks (s : State) : ∃ s', execReseal s = .next s' ∧ Ticks s s' := by
  refine ⟨_, rfl, ?_⟩
  with_reducible repeat' first
    | (apply Ticks.after; first | (apply Ticks.sound; apply hwState_ticks) | (apply Ticks.sound; apply raise_ticks) | apply answer_ticks)
    | refine presenceCmd_ticks _ _ _ fun p => ?_
    | (refine Ticks.upd ?_; exact Ticks.same)
    | split

theorem execRjRead_ticks (s : State) : ∃ s', execRjRead s = .next s' ∧ Ticks s s' := by
  refine ⟨_, rfl, ?_⟩
  with_reducible repeat' first
    | exact Ticks.same
    | (apply Ticks.after; apply answer_ticks)
    | refine onCmd_ticks _ _ _ fun p => ?_
    | apply Ticks.ite

theorem execRjMark_ticks (s : State) : ∃ s', execRjMark s = .next s' ∧ Ticks s s' := by
  refine ⟨_, rfl, ?_⟩
  with_reducible repeat' first
    | exact Ticks.same
    | (apply Ticks.after; apply answer_ticks)
    | refine onCmd_ticks _ _ _ fun p => ?_
    | split

/- Power.lean. -/

theorem loopsOff_ticks (s : State) : Ticks s (loopsOff s) := by
  unfold loopsOff
  with_reducible repeat' first
    | exact Ticks.same
    | (apply Ticks.after; first | apply onLoop_ticks | apply profFlush_ticks | apply undoStep_ticks)
    | (refine Ticks.upd ?_; first | exact Ticks.same | (apply Ticks.after; first | apply onLoop_ticks | apply profFlush_ticks | apply undoStep_ticks) | apply Ticks.ite | split | (refine Ticks.upd ?_; first | exact Ticks.same | (apply Ticks.after; first | apply onLoop_ticks | apply profFlush_ticks | apply undoStep_ticks)))

theorem xmLose_ticks (s : State) : Ticks s (xmLose s) :=
  ⟨rfl, rfl, rfl⟩

theorem quadsOff_ticks (s : State) : Ticks s (quadsOff s) := by
  unfold quadsOff
  with_reducible repeat' first
    | exact Ticks.same
    | (apply Ticks.after; apply quadDown_ticks)
    | (apply Ticks.after; apply Ticks.forUpto; intro s x)

theorem enterState_ticks (s : State) (p : PwrSt) : Ticks s (enterState s p) := by
  unfold enterState
  with_reducible repeat' first
    | exact Ticks.same
    | (apply Ticks.after; first | apply lnkDown_ticks | apply loopsOff_ticks | apply xmLose_ticks | apply quadsOff_ticks)
    | (refine Ticks.upd ?_; first | exact Ticks.same | (apply Ticks.after; first | apply lnkDown_ticks | apply loopsOff_ticks | apply xmLose_ticks | apply quadsOff_ticks) | apply Ticks.ite | split | (refine Ticks.upd ?_; first | exact Ticks.same | (apply Ticks.after; first | apply lnkDown_ticks | apply loopsOff_ticks | apply xmLose_ticks | apply quadsOff_ticks)))
    | apply Ticks.ite
    | split

theorem execPowerStateEntry_ticks (s : State) : ∃ s', execPowerStateEntry s = .next s' ∧ Ticks s s' := by
  refine ⟨_, rfl, ?_⟩
  with_reducible repeat' first | exact Ticks.same | (apply Ticks.after; apply enterState_ticks) | apply Ticks.ite

theorem bistQuads_ticks (s : State) : Ticks s (bistQuads s) := by
  unfold bistQuads
  with_reducible repeat' first
    | (apply Ticks.after; apply Ticks.forUpto; intro s x)
    | (refine Ticks.upd ?_; exact Ticks.same)
    | split

theorem relockBase_ticks (s : State) (vt : Nat) : Ticks s (relockBase s vt) := by
  unfold relockBase
  with_reducible repeat' first
    | exact Ticks.same
    | (apply Ticks.after; first | apply retarget_ticks | apply prelockNext_ticks | apply coreLocked_ticks)
    | (refine Ticks.upd ?_; first | exact Ticks.same | (apply Ticks.after; first | apply retarget_ticks | apply prelockNext_ticks | apply coreLocked_ticks) | apply Ticks.ite | split | (refine Ticks.upd ?_; first | exact Ticks.same | (apply Ticks.after; first | apply retarget_ticks | apply prelockNext_ticks | apply coreLocked_ticks)))
    | apply Ticks.ite
    | split

theorem combWake_ticks (s : State) : Ticks s (combWake s) := by
  unfold combWake
  with_reducible repeat' first
    | (apply Ticks.after; apply onArb_ticks)
    | (apply Ticks.after; apply Ticks.forUpto; intro s x)
    | (refine Ticks.upd ?_; first | exact Ticks.same | (apply Ticks.after; apply onArb_ticks))
    | split

theorem contentsLost_ticks (s : State) : Ticks s (contentsLost s) := by
  unfold contentsLost
  with_reducible repeat' first | (apply Ticks.after; apply raise_ticks) | (refine Ticks.upd ?_; exact Ticks.same)

theorem wakeReach_ticks (s : State) (t : PwrSt) (vt : Nat) : Ticks s (wakeReach s t vt) := by
  unfold wakeReach
  with_reducible repeat' first
    | exact Ticks.same
    | (apply Ticks.after; first | apply afterTable_ticks | apply powerQuads_ticks | apply bistQuads_ticks | apply relockBase_ticks | apply combWake_ticks | apply contentsLost_ticks)
    | (refine Ticks.upd ?_; first | exact Ticks.same | (apply Ticks.after; first | apply afterTable_ticks | apply powerQuads_ticks | apply bistQuads_ticks | apply relockBase_ticks | apply combWake_ticks | apply contentsLost_ticks) | apply Ticks.ite | split | (refine Ticks.upd ?_; first | exact Ticks.same | (apply Ticks.after; first | apply afterTable_ticks | apply powerQuads_ticks | apply bistQuads_ticks | apply relockBase_ticks | apply combWake_ticks | apply contentsLost_ticks)))
    | apply Ticks.ite
    | split

theorem execWakeComplete_ticks (x : WakeEnd) (s : State) : ∃ s', execWakeComplete x s = .next s' ∧ Ticks s s' := by
  refine ⟨_, rfl, ?_⟩
  with_reducible repeat' first
    | exact Ticks.same
    | (apply Ticks.after; first | apply raise_ticks | apply wakeReach_ticks)
    | (refine Ticks.upd ?_; first | exact Ticks.same | (apply Ticks.after; first | apply raise_ticks | apply wakeReach_ticks) | apply Ticks.ite | split | (refine Ticks.upd ?_; first | exact Ticks.same | (apply Ticks.after; first | apply raise_ticks | apply wakeReach_ticks)))
    | apply Ticks.ite
    | split

theorem wakeEdge_ticks (s : State) : Ticks s (wakeEdge s) := by
  unfold wakeEdge
  with_reducible repeat' first
    | exact Ticks.same
    | (apply Ticks.after; first | apply wakeActive_ticks | apply wakeTolerance_ticks)
    | apply Ticks.ite

theorem execThermalTrip_ticks (sensor : Fin 11) (eighths : Int) (s : State) : ∃ s', execThermalTrip sensor eighths s = .next s' ∧ Ticks s s' := by
  refine ⟨_, rfl, ?_⟩
  with_reducible repeat' first
    | (apply Ticks.after; first | apply raise_ticks | apply invalidOn_ticks | apply quadsOff_ticks)
    | (apply Ticks.after; apply Ticks.forUpto; intro s x)
    | (refine Ticks.upd ?_; first | exact Ticks.same | (apply Ticks.after; first | apply raise_ticks | apply invalidOn_ticks | apply quadsOff_ticks))
    | split

theorem execThermalTripRecovery_ticks (s : State) : ∃ s', execThermalTripRecovery s = .next s' ∧ Ticks s s' := by
  refine ⟨_, rfl, ?_⟩
  with_reducible repeat' first
    | (apply Ticks.after; apply bistQuads_ticks)
    | (refine Ticks.upd ?_; exact Ticks.same)
    | apply Ticks.ite

theorem tempSample_ticks (s : State) (k : Nat) (r : Option Int) : Ticks s (tempSample s k r) := by
  unfold tempSample
  with_reducible repeat' first
    | (apply Ticks.after; apply raise_ticks)
    | (refine Ticks.upd ?_; exact Ticks.same)
    | apply Ticks.ite
    | split

theorem thermalEdge_ticks (s : State) : Ticks s (thermalEdge s) := by
  unfold thermalEdge
  with_reducible repeat' first
    | (apply Ticks.after; apply raise_ticks)
    | (refine Ticks.upd ?_; first | exact Ticks.same | apply Ticks.ite | split)

theorem tempEdge_ticks (s : State) (temps : List (Option Int)) : Ticks s (tempEdge s temps) := by
  unfold tempEdge
  with_reducible repeat' first
    | (apply Ticks.after; apply tempSample_ticks)
    | (apply Ticks.after; apply Ticks.forUpto; intro s x)
    | (refine Ticks.upd ?_; first | exact Ticks.same | (apply Ticks.after; apply Ticks.forUpto; intro s x))

theorem powerLimit_ticks (s : State) (w : Nat) : Ticks s (powerLimit s w) := by
  unfold powerLimit
  with_reducible repeat' first
    | (apply Ticks.after; apply raise_ticks)
    | (refine Ticks.upd ?_; exact Ticks.same)
    | apply Ticks.ite

theorem regulatorFault_ticks (s : State) (page : Nat) : Ticks s (regulatorFault s page) := by
  unfold regulatorFault
  with_reducible repeat' first | (apply Ticks.after; apply raise_ticks) | (refine Ticks.upd ?_; exact Ticks.same) | split

theorem railSample_ticks (s : State) (r : RegReading) : Ticks s (railSample s r) := by
  unfold railSample
  exact Ticks.upd Ticks.same

theorem execRegulatorRead_ticks (rs : List RegReading) (s : State) : ∃ s', execRegulatorRead rs s = .next s' ∧ Ticks s s' := by
  refine ⟨_, rfl, ?_⟩
  with_reducible repeat' first
    | (apply Ticks.after; first | apply powerLimit_ticks | apply regulatorFault_ticks | apply railSample_ticks)
    | (apply Ticks.after; apply Ticks.foldl; intro s x)
    | (refine Ticks.upd ?_; exact Ticks.same)
    | split

theorem execRegulatorFaultClear_ticks (page : Nat) (s : State) : ∃ s', execRegulatorFaultClear page s = .next s' ∧ Ticks s s' := by
  refine ⟨_, rfl, ?_⟩
  with_reducible repeat' first | (refine Ticks.upd ?_; exact Ticks.same) | split

theorem execTelemetrySummary_ticks (s : State) : ∃ s', execTelemetrySummary s = .next s' ∧ Ticks s s' := by
  refine ⟨_, rfl, ?_⟩
  with_reducible repeat' first
    | (apply Ticks.after; apply hwState_ticks)
    | (refine Ticks.upd ?_; first | exact Ticks.same | (apply Ticks.after; apply hwState_ticks))
    | split

/- Boot.lean. -/

theorem bootStep_ticks (s : State) (r : Readiness) (p : Nat) : Ticks s (bootStep s r p) := by
  unfold bootStep
  exact Ticks.upd Ticks.same

theorem bootFail_ticks (s : State) (code step : Nat) : Ticks s (bootFail s code step) := by
  unfold bootFail
  with_reducible repeat' first
    | (apply Ticks.after; first | apply raise_ticks | apply bootRecordWrite_ticks | apply bootStep_ticks)
    | (refine Ticks.upd ?_; exact Ticks.same)
    | split

theorem refCheck_ticks (s : State) (hiveOk localOk : Bool) : Ticks s (refCheck s hiveOk localOk) := by
  unfold refCheck
  with_reducible repeat' first
    | exact Ticks.same
    | (apply Ticks.after; first | apply onLoop_ticks | apply seeRefs_ticks | apply checkRefs_ticks)
    | (refine Ticks.upd ?_; first | exact Ticks.same | (apply Ticks.after; first | apply onLoop_ticks | apply seeRefs_ticks | apply checkRefs_ticks) | apply Ticks.ite | split | (refine Ticks.upd ?_; first | exact Ticks.same | (apply Ticks.after; first | apply onLoop_ticks | apply seeRefs_ticks | apply checkRefs_ticks)))
    | apply Ticks.ite
    | split

theorem romSelect_ticks (s : State) : Ticks s (romSelect s) := by
  unfold romSelect
  with_reducible repeat' first
    | exact Ticks.same
    | (apply Ticks.after; apply bootStep_ticks)
    | (refine Ticks.upd ?_; first | exact Ticks.same | (apply Ticks.after; apply bootStep_ticks) | apply Ticks.ite | split)
    | apply Ticks.ite
    | split

theorem tick_ticks (s : State) : Ticks s (tick s) := by
  unfold tick
  with_reducible repeat' first
    | exact Ticks.same
    | (apply Ticks.after; apply romSelect_ticks)
    | (refine Ticks.upd ?_; first | exact Ticks.same | (apply Ticks.after; apply romSelect_ticks) | apply Ticks.ite | split | (refine Ticks.upd ?_; first | exact Ticks.same | (apply Ticks.after; apply romSelect_ticks)))
    | apply Ticks.ite
    | split

theorem execRomStart_ticks (hiveOk localOk : Bool) (s : State) : ∃ s', execRomStart hiveOk localOk s = .next s' ∧ Ticks s s' := by
  refine ⟨_, rfl, ?_⟩
  with_reducible repeat' first
    | exact Ticks.same
    | (apply Ticks.after; first | apply bootStep_ticks | apply refCheck_ticks)
    | (refine Ticks.upd ?_; first | exact Ticks.same | (apply Ticks.after; first | apply bootStep_ticks | apply refCheck_ticks) | apply Ticks.ite | split)
    | apply Ticks.ite
    | split

theorem execReferenceRecheck_ticks (hiveOk localOk : Bool) (s : State) : ∃ s', execReferenceRecheck hiveOk localOk s = .next s' ∧ Ticks s s' := by
  refine ⟨_, rfl, ?_⟩
  with_reducible repeat' first
    | exact Ticks.same
    | (apply Ticks.after; first | apply bootStep_ticks | apply refCheck_ticks | apply romSelect_ticks)
    | apply Ticks.ite
    | split

theorem lockB_ticks (s : State) : Ticks s (lockB s) := by
  unfold lockB
  with_reducible repeat' first
    | (apply Ticks.after; first | apply onLoop_ticks | apply bootStep_ticks)
    | (refine Ticks.upd ?_; first | exact Ticks.same | (apply Ticks.after; first | apply onLoop_ticks | apply bootStep_ticks))
    | apply Ticks.ite

theorem execLockAcquired_ticks (x : LoopLock) (s : State) : ∃ s', execLockAcquired x s = .next s' ∧ Ticks s s' := by
  refine ⟨_, rfl, ?_⟩
  with_reducible repeat' first
    | exact Ticks.same
    | (apply Ticks.after; first | apply coreLocked_ticks | apply lockB_ticks)
    | (refine Ticks.upd ?_; first | exact Ticks.same | (apply Ticks.after; first | apply coreLocked_ticks | apply lockB_ticks) | apply Ticks.ite | split)
    | apply Ticks.ite
    | split

theorem execPllBLockTimeout_ticks (s : State) : ∃ s', execPllBLockTimeout s = .next s' ∧ Ticks s s' := by
  refine ⟨_, rfl, ?_⟩
  with_reducible repeat' first
    | exact Ticks.same
    | (apply Ticks.after; first | apply bootFail_ticks | apply romSelect_ticks)
    | apply Ticks.ite
    | split

theorem execHifPowerGood_ticks (s : State) : ∃ s', execHifPowerGood s = .next s' ∧ Ticks s s' := by
  refine ⟨_, rfl, ?_⟩
  with_reducible repeat' first | (apply Ticks.after; apply bootStep_ticks) | (refine Ticks.upd ?_; exact Ticks.same) | split

theorem execPerstDeassert_ticks (s : State) : ∃ s', execPerstDeassert s = .next s' ∧ Ticks s s' := by
  refine ⟨_, rfl, ?_⟩
  with_reducible repeat' first | (refine Ticks.upd ?_; exact Ticks.same) | split

theorem execConfigRequest_ticks (bme : Option Bool) (s : State) : ∃ s', execConfigRequest bme s = .next s' ∧ Ticks s s' := by
  refine ⟨_, rfl, ?_⟩
  with_reducible repeat' first
    | (apply Ticks.after; apply hostBack_ticks)
    | dsimp only
    | (refine Ticks.upd ?_; exact Ticks.same)
    | split

theorem firmwareStart_ticks (s : State) (img : ImageInfo) : Ticks s (firmwareStart s img) := by
  unfold firmwareStart
  with_reducible repeat' first
    | (apply Ticks.after; first | apply raise_ticks | apply bootStep_ticks)
    | (refine Ticks.upd ?_; first | exact Ticks.same | apply Ticks.ite)

theorem recoveryEntry_ticks (s : State) : Ticks s (recoveryEntry s) := by
  unfold recoveryEntry
  with_reducible repeat' first
    | (apply Ticks.after; first | apply raise_ticks | apply bootRecordWrite_ticks | apply bootStep_ticks)
    | (refine Ticks.upd ?_; exact Ticks.same)

theorem execImageVerifyComplete_ticks (img : ImageInfo) (s : State) : ∃ s', execImageVerifyComplete img s = .next s' ∧ Ticks s s' := by
  refine ⟨_, rfl, ?_⟩
  with_reducible repeat' first
    | exact Ticks.same
    | (apply Ticks.after; first | apply bootStep_ticks | apply firmwareStart_ticks | apply recoveryEntry_ticks)
    | (refine Ticks.upd ?_; first | exact Ticks.same | (apply Ticks.after; first | apply bootStep_ticks | apply firmwareStart_ticks | apply recoveryEntry_ticks) | apply Ticks.ite | split | (refine Ticks.upd ?_; first | exact Ticks.same | (apply Ticks.after; first | apply bootStep_ticks | apply firmwareStart_ticks | apply recoveryEntry_ticks)))
    | apply Ticks.ite
    | split

theorem domainsDone_ticks (s : State) : Ticks s (domainsDone s) := by
  unfold domainsDone
  with_reducible repeat' first | exact Ticks.same | (apply Ticks.after; apply bootStep_ticks) | split

theorem domainPower_ticks (s : State) (w : Nat) : Ticks s (domainPower s w) := by
  unfold domainPower
  have h : ∀ (lo hi : Nat) (v : Vector Bool 4), Ticks s { s with pwr.cb := v, cmb.mem := s.cmb.mem.eraseRange lo hi } :=
    fun lo hi v => ⟨rfl, rfl, rfl⟩
  exact Ticks.ite _ (Ticks.ite _ Ticks.same (Ticks.upd Ticks.same)) (Ticks.ite _ (h _ _ _) (Ticks.upd Ticks.same))

theorem execDomainWindow_ticks (s : State) : ∃ s', execDomainWindow s = .next s' ∧ Ticks s s' := by
  refine ⟨_, rfl, ?_⟩
  with_reducible repeat' first
    | (apply Ticks.after; first | (apply Ticks.sound; apply bootStep_ticks) | (apply Ticks.sound; apply domainsDone_ticks) | apply domainPower_ticks)
    | (refine Ticks.upd ?_; first | exact Ticks.same | (apply Ticks.after; first | (apply Ticks.sound; apply bootStep_ticks) | (apply Ticks.sound; apply domainsDone_ticks) | apply domainPower_ticks))
    | apply Ticks.ite

theorem execQuadrantBistComplete_ticks (q : Quad) (ok : Bool) (s : State) : ∃ s', execQuadrantBistComplete q ok s = .next s' ∧ Ticks s s' := by
  refine ⟨_, rfl, ?_⟩
  with_reducible repeat' first
    | (apply Ticks.after; first | apply raise_ticks | apply quadDown_ticks | apply bootFail_ticks | apply domainsDone_ticks)
    | (refine Ticks.upd ?_; exact Ticks.same)
    | apply Ticks.ite

theorem channelEvents_ticks (s : State) (ok : BitVec 8) : Ticks s (channelEvents s ok) := by
  unfold channelEvents
  with_reducible repeat' first
    | exact Ticks.same
    | (apply Ticks.after; apply raise_ticks)
    | (apply Ticks.after; apply Ticks.forUpto; intro s x)
    | split

theorem execLpddrTrainingComplete_ticks (ok : BitVec 8) (s : State) : ∃ s', execLpddrTrainingComplete ok s = .next s' ∧ Ticks s s' := by
  refine ⟨_, rfl, ?_⟩
  with_reducible repeat' first
    | exact Ticks.same
    | (apply Ticks.after; first | apply bootStep_ticks | apply bootFail_ticks | apply channelEvents_ticks)
    | (refine Ticks.upd ?_; first | exact Ticks.same | (apply Ticks.after; first | apply bootStep_ticks | apply bootFail_ticks | apply channelEvents_ticks) | apply Ticks.ite | split | (refine Ticks.upd ?_; first | exact Ticks.same | (apply Ticks.after; first | apply bootStep_ticks | apply bootFail_ticks | apply channelEvents_ticks)))
    | apply Ticks.ite
    | split

theorem execReadyReached_ticks (us : Nat) (s : State) : ∃ s', execReadyReached us s = .next s' ∧ Ticks s s' := by
  refine ⟨_, rfl, ?_⟩
  with_reducible repeat' first
    | (apply Ticks.after; first | apply raise_ticks | apply bootRecordWrite_ticks | apply bootStep_ticks)
    | exact atEdge_ticks _ _
    | (refine Ticks.upd ?_; exact Ticks.same)
    | split

/- Resets.lean. -/

theorem hwHalf_ticks (s : State) : Ticks s (hwHalf s) := by
  unfold hwHalf
  with_reducible repeat' first
    | (apply Ticks.after; first | apply hwWrite_ticks | apply hwNor_ticks)
    | (refine Ticks.upd ?_; first | exact Ticks.same | (apply Ticks.after; first | apply hwWrite_ticks | apply hwNor_ticks))
    | split

theorem hwKeeperReset_ticks (s : State) (cause : Nat) : Ticks s (hwKeeperReset s cause) := by
  unfold hwKeeperReset
  exact Ticks.upd Ticks.same

theorem hwQueueLost_ticks (s : State) : Ticks s (hwQueueLost s) := by
  unfold hwQueueLost
  with_reducible repeat' first
    | (apply Ticks.after; apply hwHalf_ticks)
    | (refine Ticks.upd ?_; first | exact Ticks.same | (apply Ticks.after; apply hwHalf_ticks))

theorem allOff_ticks (s : State) : Ticks s (allOff s) := by
  unfold allOff
  exact Ticks.upd Ticks.same

theorem aonDown_ticks (s : State) : Ticks s (aonDown s) := by
  unfold aonDown
  with_reducible repeat' first
    | (apply Ticks.after; first | apply hwHalf_ticks | apply allOff_ticks)
    | (refine Ticks.upd ?_; first | exact Ticks.same | (apply Ticks.after; first | apply hwHalf_ticks | apply allOff_ticks))

theorem execAonPowerGoodFall_ticks (s : State) : ∃ s', execAonPowerGoodFall s = .next s' ∧ Ticks s s' := by
  refine ⟨_, rfl, ?_⟩
  with_reducible repeat' first
    | (apply Ticks.after; apply aonDown_ticks)
    | (refine Ticks.upd ?_; first | exact Ticks.same | (apply Ticks.after; apply aonDown_ticks))
    | split

theorem execAonBrownOut_ticks (s : State) : ∃ s', execAonBrownOut s = .next s' ∧ Ticks s s' := by
  refine ⟨_, rfl, ?_⟩
  with_reducible repeat' first
    | (apply Ticks.after; apply aonDown_ticks)
    | (refine Ticks.upd ?_; first | exact Ticks.same | (apply Ticks.after; apply aonDown_ticks))
    | split

theorem execPowerFailWarning_ticks (s : State) : ∃ s', execPowerFailWarning s = .next s' ∧ Ticks s s' := by
  refine ⟨_, rfl, ?_⟩
  with_reducible repeat' first
    | (apply Ticks.after; first | apply hwPowerFail_ticks | (apply Ticks.sound; apply hwHalf_ticks) | (apply Ticks.sound; apply allOff_ticks))
    | (refine Ticks.upd ?_; first | exact Ticks.same | split)

theorem chunkAbort_ticks (s : State) (q : Nat) : Ticks s (chunkAbort s q) := by
  unfold chunkAbort
  with_reducible repeat' first | exact Ticks.same | (apply Ticks.after; first | apply onQuad_ticks | apply raise_ticks) | split

theorem portsWarm_ticks (s : State) : Ticks s (portsWarm s) := by
  unfold portsWarm
  with_reducible repeat' first
    | (apply Ticks.after; apply lnkDown_ticks)
    | (refine Ticks.upd ?_; first | exact Ticks.same | (apply Ticks.after; apply lnkDown_ticks))

theorem warmReset_ticks (s : State) (cause : Nat) : Ticks s (warmReset s cause) := by
  unfold warmReset
  dsimp only
  have h := ((Ticks.forUpto chunkAbort 4 s fun s q => chunkAbort_ticks s q).trans (portsWarm_ticks _)).trans (hwKeeperReset_ticks _ cause)
  revert h
  generalize hwKeeperReset (portsWarm (forUpto 4 chunkAbort s)) cause = u
  intro h
  exact h.trans ⟨rfl, rfl, rfl⟩

theorem execWarmReset_ticks (s : State) : ∃ s', execWarmReset s = .next s' ∧ Ticks s s' := by
  refine ⟨_, rfl, ?_⟩
  with_reducible repeat' first
    | exact Ticks.same
    | (apply Ticks.after; first | apply hwFlush_ticks | apply warmReset_ticks)
    | split

theorem forcedReset_ticks (s : State) (cause : Nat) : Ticks s (forcedReset s cause) := by
  unfold forcedReset
  with_reducible repeat' first
    | exact Ticks.same
    | (apply Ticks.after; first | (apply Ticks.sound; apply raise_ticks) | (apply Ticks.sound; apply hwQueueLost_ticks) | apply warmReset_ticks)
    | split

theorem execKeeperWatchdogExpiry_ticks (s : State) : ∃ s', execKeeperWatchdogExpiry s = .next s' ∧ Ticks s s' := by
  refine ⟨_, rfl, ?_⟩
  with_reducible repeat' first | exact Ticks.same | (apply Ticks.after; apply forcedReset_ticks)

theorem execLockstepMismatch_ticks (s : State) : ∃ s', execLockstepMismatch s = .next s' ∧ Ticks s s' := by
  refine ⟨_, rfl, ?_⟩
  with_reducible repeat' first | exact Ticks.same | (apply Ticks.after; apply forcedReset_ticks)

theorem hostMailbox_ticks (s : State) (m : Nat) : Ticks s (hostMailbox s m) := by
  unfold hostMailbox
  with_reducible repeat' first | (apply Ticks.after; apply onMb_ticks) | (refine Ticks.upd ?_; exact Ticks.same)

theorem hifReset_ticks (s : State) : Ticks s (hifReset s) := by
  unfold hifReset
  with_reducible repeat' first
    | exact Ticks.same
    | (apply Ticks.after; first | apply dmaAllFail_ticks | apply hostMailbox_ticks)
    | (refine Ticks.upd ?_; first | exact Ticks.same | (apply Ticks.after; first | apply dmaAllFail_ticks | apply hostMailbox_ticks) | apply Ticks.ite | split | (refine Ticks.upd ?_; first | exact Ticks.same | (apply Ticks.after; first | apply dmaAllFail_ticks | apply hostMailbox_ticks)))

theorem execPerstAssert_ticks (s : State) : ∃ s', execPerstAssert s = .next s' ∧ Ticks s s' := by
  refine ⟨_, rfl, ?_⟩
  with_reducible repeat' first
    | (apply Ticks.after; apply hifReset_ticks)
    | (refine Ticks.upd ?_; first | exact Ticks.same | split)

theorem execPcieHotReset_ticks (s : State) : ∃ s', execPcieHotReset s = .next s' ∧ Ticks s s' := by
  refine ⟨_, rfl, ?_⟩
  with_reducible repeat' first
    | (apply Ticks.after; apply hifReset_ticks)
    | (refine Ticks.upd ?_; first | exact Ticks.same | (apply Ticks.after; apply hifReset_ticks))
    | split

theorem execFunctionLevelReset_ticks (s : State) : ∃ s', execFunctionLevelReset s = .next s' ∧ Ticks s s' := by
  refine ⟨_, rfl, ?_⟩
  with_reducible repeat' first
    | (apply Ticks.after; apply hifReset_ticks)
    | (refine Ticks.upd ?_; first | exact Ticks.same | (apply Ticks.after; apply hifReset_ticks))
    | split

theorem quadInvalid_ticks (s : State) (q e : Nat) : Ticks s (quadInvalid s q e) := by
  unfold quadInvalid
  with_reducible repeat' first
    | exact Ticks.same
    | (apply Ticks.after; apply onCtx_ticks)
    | (apply Ticks.after; apply Ticks.foldl; intro s x)
    | split

theorem quadReset_ticks (s : State) (q e : Nat) : Ticks s (quadReset s q e) := by
  unfold quadReset
  with_reducible repeat' first
    | (apply Ticks.after; first | apply onQuad_ticks | apply quadClear_ticks | apply chunkAbort_ticks | apply quadInvalid_ticks)
    | dsimp only
    | (refine Ticks.upd ?_; first | exact Ticks.same | (apply Ticks.after; first | apply onQuad_ticks | apply quadClear_ticks | apply chunkAbort_ticks | apply quadInvalid_ticks))
    | split

theorem execQuadrantReset_ticks (x : QuadFault) (s : State) : ∃ s', execQuadrantReset x s = .next s' ∧ Ticks s s' := by
  refine ⟨_, rfl, ?_⟩
  with_reducible repeat' first
    | exact Ticks.same
    | (apply Ticks.after; apply quadReset_ticks)
    | (refine atEdge_ticks _ _ )
    | apply Ticks.ite
    | split

end Sys2Proof.Machine
end

