-- ==== Sys2Proof/Laws/TicksEdge.lean ====
section
/-! SUPPORT. What each operation of Edge, Queries does to the beat number, the slot and the guard: nothing. -/

namespace Sys2Proof.Machine

set_option Elab.async false

open Sys2Proof

/- Edge.lean. -/

theorem slotArms_ticks (s : State) (q : Nat) : Ticks s (slotArms s q) := by
  unfold slotArms
  with_reducible repeat' first | exact Ticks.same | (apply Ticks.after; apply onQuad_ticks)

theorem slotWork_ticks (s : State) (q : Nat) : Ticks s (slotWork s q) := by
  unfold slotWork
  with_reducible repeat' first | exact Ticks.same | (apply Ticks.after; apply onQuad_ticks) | apply Ticks.ite

theorem slotBegin_ticks (s : State) : Ticks s (slotBegin s) := by
  unfold slotBegin
  with_reducible repeat' first
    | exact Ticks.same
    | (apply Ticks.after; first | apply onQuad_ticks | apply raise_ticks | apply applySteer_ticks | apply advanceAll_ticks | apply threadBoundary_ticks | apply portFlush_ticks | apply slotArms_ticks | apply slotWork_ticks)
    | (apply Ticks.after; apply Ticks.forUpto; intro s x)
    | (refine Ticks.upd ?_; first | exact Ticks.same | (apply Ticks.after; first | apply onQuad_ticks | apply raise_ticks | apply applySteer_ticks | apply advanceAll_ticks | apply threadBoundary_ticks | apply portFlush_ticks | apply slotArms_ticks | apply slotWork_ticks) | (apply Ticks.after; apply Ticks.forUpto; intro s x) | apply Ticks.ite | split)
    | apply Ticks.ite
    | split

theorem prepareEdge_ticks (s : State) : Ticks s (prepareEdge s) := by
  unfold prepareEdge
  with_reducible repeat' first
    | exact Ticks.same
    | (apply Ticks.after; apply retarget_ticks)
    | (refine Ticks.upd ?_; first | exact Ticks.same | (apply Ticks.after; apply retarget_ticks) | apply Ticks.ite | split | (refine Ticks.upd ?_; first | exact Ticks.same | (apply Ticks.after; apply retarget_ticks)))
    | apply Ticks.ite
    | split

theorem hopAt_ticks (s : State) (n : Nat) : Ticks s (hopAt s n) := by
  unfold hopAt
  with_reducible repeat' first
    | exact Ticks.same
    | (apply Ticks.after; first | apply hopGuard_ticks | apply prepareEdge_ticks)
    | apply Ticks.ite
    | split

theorem guardSwaps_ticks (s : State) : Ticks s (guardSwaps s) := by
  unfold guardSwaps
  with_reducible repeat' first
    | exact Ticks.same
    | (apply Ticks.after; first | apply clearSkip_ticks | apply hopGuard_ticks | apply lateHopSwap_ticks | apply hopAt_ticks)
    | (refine Ticks.upd ?_; first | exact Ticks.same | (apply Ticks.after; first | apply clearSkip_ticks | apply hopGuard_ticks | apply lateHopSwap_ticks | apply hopAt_ticks) | apply Ticks.ite | split)
    | apply Ticks.ite
    | split

theorem unloadEdge_ticks (s : State) : Ticks s (unloadEdge s) := by
  unfold unloadEdge
  with_reducible repeat' first
    | exact Ticks.same
    | (apply Ticks.after; apply releasePlan_ticks)
    | (apply Ticks.after; apply Ticks.forUpto; intro s x)
    | split

theorem idleInstall_ticks (s : State) : Ticks s (idleInstall s) := by
  unfold idleInstall
  with_reducible repeat' first | exact Ticks.same | (apply Ticks.after; apply installTable_ticks) | split

theorem edgeClose_ticks (s : State) (e : Nat) : Ticks s (edgeClose s e) := by
  unfold edgeClose
  with_reducible repeat' first
    | exact Ticks.same
    | (apply Ticks.after; first | (apply Ticks.sound; apply drainDone_ticks) | (apply Ticks.sound; apply finishStopped_ticks) | (apply Ticks.sound; apply completeCtx_ticks) | (apply Ticks.sound; apply judgeEdge_ticks) | apply applyDue_ticks | (apply Ticks.sound; apply quadReset_ticks) | (apply Ticks.sound; apply unloadEdge_ticks) | (apply Ticks.sound; apply idleInstall_ticks))
    | (apply Ticks.after; apply Ticks.forUpto; intro s x)
    | split

theorem edgeAdmit_ticks (s : State) (e : Nat) : Ticks s (edgeAdmit s e) := by
  unfold edgeAdmit
  with_reducible repeat' first
    | exact Ticks.same
    | (apply Ticks.after; first | apply admission_ticks | apply settleLedger_ticks | apply quadInvalid_ticks)
    | (apply Ticks.after; apply Ticks.forUpto; intro s x)
    | apply Ticks.ite
    | split

theorem ringEdge_ticks (s : State) : Ticks s (ringEdge s) := by
  unfold ringEdge
  with_reducible repeat' first
    | (apply Ticks.after; first | apply signal_ticks | apply bootqDeliver_ticks)
    | (refine Ticks.upd ?_; first | exact Ticks.same | (apply Ticks.after; first | apply signal_ticks | apply bootqDeliver_ticks))
    | apply Ticks.ite
    | split

theorem roundEdge_ticks (s : State) : Ticks s (roundEdge s) := by
  unfold roundEdge
  with_reducible repeat' first | (apply Ticks.after; apply startRound_ticks) | (refine Ticks.upd ?_; exact Ticks.same) | split

theorem linkEdge_ticks (s : State) (corrected : List (PortId × Nat × Nat)) : Ticks s (linkEdge s corrected) := by
  unfold linkEdge
  with_reducible repeat' first
    | exact Ticks.same
    | (apply Ticks.after; first | apply closeGroup_ticks | apply rebuildRequests_ticks | apply markersSend_ticks | apply laneCount_ticks)
    | (apply Ticks.after; apply Ticks.foldl; intro s x)
    | (apply Ticks.after; apply Ticks.forUpto; intro s x)
    | (refine Ticks.upd ?_; first | exact Ticks.same | (apply Ticks.after; first | apply closeGroup_ticks | apply rebuildRequests_ticks | apply markersSend_ticks | apply laneCount_ticks) | (apply Ticks.after; apply Ticks.foldl; intro s x) | (apply Ticks.after; apply Ticks.forUpto; intro s x) | apply Ticks.ite | split | (refine Ticks.upd ?_; first | exact Ticks.same | (apply Ticks.after; first | apply closeGroup_ticks | apply rebuildRequests_ticks | apply markersSend_ticks | apply laneCount_ticks)))

theorem scrubPeriod_ticks (s : State) : Ticks s (scrubPeriod s) := by
  unfold scrubPeriod
  with_reducible repeat' first
    | exact Ticks.same
    | (refine Ticks.upd ?_; first | exact Ticks.same | apply Ticks.ite | split | (refine Ticks.upd ?_; first | exact Ticks.same))
    | apply Ticks.ite
    | split

theorem scrubBehind_ticks (s : State) (q : Nat) : Ticks s (scrubBehind s q) := by
  unfold scrubBehind
  with_reducible repeat' first
    | exact Ticks.same
    | (apply Ticks.after; apply raise_ticks)
    | (refine Ticks.upd ?_; first | exact Ticks.same | (apply Ticks.after; apply raise_ticks) | apply Ticks.ite | split)
    | apply Ticks.ite
    | split

theorem scrubEdge_ticks (s : State) : Ticks s (scrubEdge s) := by
  unfold scrubEdge
  with_reducible repeat' first
    | exact Ticks.same
    | (apply Ticks.after; first | apply scrubPeriod_ticks | apply scrubBehind_ticks)
    | (apply Ticks.after; apply Ticks.forUpto; intro s x)
    | apply Ticks.ite
    | split

theorem countEdge_ticks (s : State) (env : EdgeEnv) : Ticks s (countEdge s env) := by
  unfold countEdge
  with_reducible repeat' first
    | exact Ticks.same
    | (refine Ticks.upd ?_; first | exact Ticks.same | apply Ticks.ite | split)
    | apply Ticks.ite
    | split

theorem powerEdge_ticks (s : State) : Ticks s (powerEdge s) := by
  unfold powerEdge
  with_reducible repeat' first
    | (apply Ticks.after; first | apply retarget421_ticks | apply wakeEdge_ticks)
    | (refine Ticks.upd ?_; first | exact Ticks.same | (apply Ticks.after; first | apply retarget421_ticks | apply wakeEdge_ticks))

theorem clockEdge_ticks (s : State) (env : EdgeEnv) : Ticks s (clockEdge s env) := by
  unfold clockEdge
  with_reducible repeat' first
    | exact Ticks.same
    | (apply Ticks.after; first | apply profFlush_ticks | apply settleIdle_ticks | apply prelockRetries_ticks | apply baseSwapAtEdge_ticks | apply pumpStep_ticks | apply phaseEdge_ticks | apply holdoverEdge_ticks | apply calRamps_ticks)

/-- The beat edge as the work that follows the new beat number (R15). -/
theorem beatEdge_ticks (s : State) (env : EdgeEnv) (e : Nat) : ∃ u, u.beat.num = e ∧ u.beat.slot = 0 ∧ u.beat.guard = false ∧
    Ticks u (beatEdge s env e) := by
  unfold beatEdge
  generalize countEdge s env = v
  dsimp only
  have h : ∀ u w : State, Ticks u w →
      Ticks u (if ((hops w).isEmpty || w.syn.hold != .none || w.syn.src == .gated) = true then prepareEdge w else w) :=
    fun u w k => Ticks.ite _ (k.trans (prepareEdge_ticks _)) k
  refine ⟨_, ?_, ?_, ?_, h { v with
    beat.running := true, beat.num := e, beat.slot := 0, beat.guard := false, beat.adopt := none, beat.jumpDue := 0
    beat.edges := v.beat.edges + 1, beat.phaseBefore := v.beat.phaseAt, beat.phaseAt := v.syn.phase } _
    ((jumpEdge_ticks _).trans ((edgeClose_ticks _ e).trans ((combEdge_ticks _).trans ((powerQuads_ticks _).trans
      ((edgeAdmit_ticks _ e).trans ((clockEdge_ticks _ env).trans ((linkEdge_ticks _ _).trans ((scrubEdge_ticks _).trans
        ((tempEdge_ticks _ _).trans ((thermalEdge_ticks _).trans ((powerEdge_ticks _).trans ((ringEdge_ticks _).trans
          ((roundEdge_ticks _).trans (slotBegin_ticks _))))))))))))))⟩
  all_goals rfl

/- Queries.lean. -/

theorem execQueryDevice_ticks (s : State) : ∃ s', execQueryDevice s = .next s' ∧ Ticks s s' := by
  refine ⟨_, rfl, ?_⟩
  with_reducible repeat' first | exact Ticks.same | (apply Ticks.after; apply queryCmd_ticks)

theorem execQueryBoot_ticks (s : State) : ∃ s', execQueryBoot s = .next s' ∧ Ticks s s' := by
  refine ⟨_, rfl, ?_⟩
  with_reducible repeat' first | exact Ticks.same | (apply Ticks.after; apply queryCmd_ticks)

theorem execQuerySyn_ticks (s : State) : ∃ s', execQuerySyn s = .next s' ∧ Ticks s s' := by
  refine ⟨_, rfl, ?_⟩
  with_reducible repeat' first | exact Ticks.same | (apply Ticks.after; apply queryCmd_ticks)

theorem execQueryBeat_ticks (s : State) : ∃ s', execQueryBeat s = .next s' ∧ Ticks s s' := by
  refine ⟨_, rfl, ?_⟩
  with_reducible repeat' first | exact Ticks.same | (apply Ticks.after; apply queryCmd_ticks)

theorem execQueryPlan_ticks (s : State) : ∃ s', execQueryPlan s = .next s' ∧ Ticks s s' := by
  refine ⟨_, rfl, ?_⟩
  with_reducible repeat' first
    | exact Ticks.same
    | (apply Ticks.after; apply answer_ticks)
    | refine onCmd_ticks _ _ _ fun p => ?_
    | split

theorem execQueryComb_ticks (s : State) : ∃ s', execQueryComb s = .next s' ∧ Ticks s s' := by
  refine ⟨_, rfl, ?_⟩
  with_reducible repeat' first | exact Ticks.same | (apply Ticks.after; apply queryCmd_ticks)

theorem execQueryJoin_ticks (s : State) : ∃ s', execQueryJoin s = .next s' ∧ Ticks s s' := by
  refine ⟨_, rfl, ?_⟩
  with_reducible repeat' first | exact Ticks.same | (apply Ticks.after; apply queryCmd_ticks)

theorem execQueryArr_ticks (s : State) : ∃ s', execQueryArr s = .next s' ∧ Ticks s s' := by
  refine ⟨_, rfl, ?_⟩
  with_reducible repeat' first | exact Ticks.same | (apply Ticks.after; apply queryCmd_ticks)

theorem execQueryFus_ticks (s : State) : ∃ s', execQueryFus s = .next s' ∧ Ticks s s' := by
  refine ⟨_, rfl, ?_⟩
  with_reducible repeat' first | exact Ticks.same | (apply Ticks.after; apply queryCmd_ticks)

theorem execQueryRcs_ticks (s : State) : ∃ s', execQueryRcs s = .next s' ∧ Ticks s s' := by
  refine ⟨_, rfl, ?_⟩
  with_reducible repeat' first | exact Ticks.same | (apply Ticks.after; apply queryCmd_ticks)

theorem execQueryXm_ticks (s : State) : ∃ s', execQueryXm s = .next s' ∧ Ticks s s' := by
  refine ⟨_, rfl, ?_⟩
  with_reducible repeat' first | exact Ticks.same | (apply Ticks.after; apply queryCmd_ticks)

theorem execQueryBuf_ticks (s : State) : ∃ s', execQueryBuf s = .next s' ∧ Ticks s s' := by
  refine ⟨_, rfl, ?_⟩
  with_reducible repeat' first
    | exact Ticks.same
    | (apply Ticks.after; apply answer_ticks)
    | refine onCmd_ticks _ _ _ fun p => ?_
    | apply Ticks.ite

theorem execQuerySo_ticks (s : State) : ∃ s', execQuerySo s = .next s' ∧ Ticks s s' := by
  refine ⟨_, rfl, ?_⟩
  with_reducible repeat' first | exact Ticks.same | (apply Ticks.after; apply queryCmd_ticks)

theorem execQueryArb_ticks (s : State) : ∃ s', execQueryArb s = .next s' ∧ Ticks s s' := by
  refine ⟨_, rfl, ?_⟩
  with_reducible repeat' first | exact Ticks.same | (apply Ticks.after; apply queryCmd_ticks)

theorem execQueryHl_ticks (s : State) : ∃ s', execQueryHl s = .next s' ∧ Ticks s s' := by
  refine ⟨_, rfl, ?_⟩
  with_reducible repeat' first | exact Ticks.same | (apply Ticks.after; apply queryCmd_ticks)

theorem execQueryHi_ticks (s : State) : ∃ s', execQueryHi s = .next s' ∧ Ticks s s' := by
  refine ⟨_, rfl, ?_⟩
  with_reducible repeat' first | exact Ticks.same | (apply Ticks.after; apply queryCmd_ticks)

theorem execQueryWg_ticks (s : State) : ∃ s', execQueryWg s = .next s' ∧ Ticks s s' := by
  refine ⟨_, rfl, ?_⟩
  with_reducible repeat' first | exact Ticks.same | (apply Ticks.after; apply queryCmd_ticks)

theorem execQueryGraft_ticks (s : State) : ∃ s', execQueryGraft s = .next s' ∧ Ticks s s' := by
  refine ⟨_, rfl, ?_⟩
  with_reducible repeat' first | exact Ticks.same | (apply Ticks.after; apply queryCmd_ticks)

theorem execQueryPresence_ticks (s : State) : ∃ s', execQueryPresence s = .next s' ∧ Ticks s s' := by
  refine ⟨_, rfl, ?_⟩
  with_reducible repeat' first | exact Ticks.same | (apply Ticks.after; apply queryCmd_ticks)

theorem execQueryUs_ticks (s : State) : ∃ s', execQueryUs s = .next s' ∧ Ticks s s' := by
  refine ⟨_, rfl, ?_⟩
  with_reducible repeat' first | exact Ticks.same | (apply Ticks.after; apply queryCmd_ticks)

theorem execQueryHw_ticks (s : State) : ∃ s', execQueryHw s = .next s' ∧ Ticks s s' := by
  refine ⟨_, rfl, ?_⟩
  with_reducible repeat' first | exact Ticks.same | (apply Ticks.after; apply queryCmd_ticks)

theorem execQueryPwr_ticks (s : State) : ∃ s', execQueryPwr s = .next s' ∧ Ticks s s' := by
  refine ⟨_, rfl, ?_⟩
  with_reducible repeat' first | exact Ticks.same | (apply Ticks.after; apply queryCmd_ticks)

end Sys2Proof.Machine
end

