-- ==== Sys2Proof/Laws/TicksAll.lean ====
section
/-! SUPPORT. Which commands move the beat: one lemma over all constructors, from those of the families. -/

namespace Sys2Proof.Machine

set_option Elab.async false

open Sys2Proof

/-- An instruction loaded into the TAP leaves the beat alone. -/
theorem tapLoad_ticks (s : State) (f : Jtag → Jtag) : Ticks s (tapLoad s f) := by
  obtain ⟨j, h⟩ := tapLoad_only s f
  rw [h]
  exact ⟨rfl, rfl, rfl⟩

/-- Every command but those that move the beat leaves its number, the slot and the guard alone. -/
theorem exec_ticks (c : Instr) (s : State) (h : movesBeat c = false) : ∃ t, exec c s = .next t ∧ Ticks s t := by
  cases c with
  | registerWrite _ _ _ => exact execRegisterWrite_ticks _ _ _ s
  | rcFieldRead _ _ => exact execRcFieldRead_ticks _ _ s
  | lowWordRead _ => exact execLowWordRead_ticks _ s
  | highWordWrite _ _ => exact execHighWordWrite_ticks _ _ s
  | misalignedAccess _ _ _ => exact execMisalignedAccess_ticks _ _ _ s
  | undefinedOffsetAccess _ _ => exact execUndefinedOffsetAccess_ticks _ _ s
  | aonPowerGood => cases h
  | aonPowerGoodFall => exact execAonPowerGoodFall_ticks s
  | powerFailWarning => exact execPowerFailWarning_ticks s
  | aonBrownOut => exact execAonBrownOut_ticks s
  | aonSupplyRecovery => cases h
  | perstAssert => exact execPerstAssert_ticks s
  | perstDeassert => exact execPerstDeassert_ticks s
  | pcieHotReset => exact execPcieHotReset_ticks s
  | functionLevelReset => exact execFunctionLevelReset_ticks s
  | configRequest _ => exact execConfigRequest_ticks _ s
  | romStart _ _ => exact execRomStart_ticks _ _ s
  | referenceRecheck _ _ => exact execReferenceRecheck_ticks _ _ s
  | lockAcquired _ => exact execLockAcquired_ticks _ s
  | pllBLockTimeout => exact execPllBLockTimeout_ticks s
  | hifPowerGood => exact execHifPowerGood_ticks s
  | imageVerifyComplete _ => exact execImageVerifyComplete_ticks _ s
  | domainWindow => exact execDomainWindow_ticks s
  | quadrantBistComplete _ _ => exact execQuadrantBistComplete_ticks _ _ s
  | lpddrTrainingComplete _ => exact execLpddrTrainingComplete_ticks _ s
  | portTrainingStart _ => exact execPortTrainingStart_ticks _ s
  | readyReached _ => exact execReadyReached_ticks _ s
  | warmReset => exact execWarmReset_ticks s
  | keeperWatchdogExpiry => exact execKeeperWatchdogExpiry_ticks s
  | lockstepMismatch => exact execLockstepMismatch_ticks s
  | quadrantReset _ => exact execQuadrantReset_ticks _ s
  | queryBoot => exact execQueryBoot_ticks s
  | hiveReset => exact execHiveReset_ticks s
  | resetWarm => exact execResetWarm_ticks s
  | resetQuad => exact execResetQuad_ticks s
  | beatEdge _ => cases h
  | slotBoundary => cases h
  | slotGuardStart => cases h
  | vtComplianceCrossing _ _ => exact execVtComplianceCrossing_ticks _ _ s
  | phaseWindowViolation _ _ => exact execPhaseWindowViolation_ticks _ _ s
  | lossOfLock _ => exact execLossOfLock_ticks _ s
  | prelockTimeout _ => exact execPrelockTimeout_ticks _ s
  | querySyn => exact execQuerySyn_ticks s
  | synCalRun => exact execSynCalRun_ticks s
  | synHoldRelease => exact execSynHoldRelease_ticks s
  | synHoldFreeze => exact execSynHoldFreeze_ticks s
  | synHoldSafeClock => exact execSynHoldSafeClock_ticks s
  | calibrationStart _ => exact execCalibrationStart_ticks _ s
  | calibrationComplete _ _ _ => exact execCalibrationComplete_ticks _ _ _ s
  | beatMarkerReceive _ _ _ => exact execBeatMarkerReceive_ticks _ _ _ s
  | portExclusionLimit _ => exact execPortExclusionLimit_ticks _ s
  | seekTimeout => exact execSeekTimeout_ticks s
  | coarseJump => exact execCoarseJump_ticks s
  | parentLost => exact execParentLost_ticks s
  | holdTimeout => exact execHoldTimeout_ticks s
  | masterHoldoverTimeout => exact execMasterHoldoverTimeout_ticks s
  | rateLimitExceeded => exact execRateLimitExceeded_ticks s
  | queryBeat => exact execQueryBeat_ticks s
  | beatMasterEn => exact execBeatMasterEn_ticks s
  | refSelect => exact execRefSelect_ticks s
  | planLoad _ => exact execPlanLoad_ticks _ s
  | planFetchComplete => exact execPlanFetchComplete_ticks s
  | dmaReadError => exact execDmaReadError_ticks s
  | dmaCompletionTimeout => exact execDmaCompletionTimeout_ticks s
  | planActivate => exact execPlanActivate_ticks s
  | planDeactivate => exact execPlanDeactivate_ticks s
  | planDrainComplete _ => exact execPlanDrainComplete_ticks _ s
  | planUnload => exact execPlanUnload_ticks s
  | zeroFillComplete _ _ => exact execZeroFillComplete_ticks _ _ s
  | planReplace _ => exact execPlanReplace_ticks _ s
  | replacePhaseReady _ => exact execReplacePhaseReady_ticks _ s
  | planSwap => exact execPlanSwap_ticks s
  | planFitmode => exact execPlanFitmode_ticks s
  | queryPlan => exact execQueryPlan_ticks s
  | queryComb => exact execQueryComb_ticks s
  | pageRebuildComplete _ _ => exact execPageRebuildComplete_ticks _ _ s
  | bankCopyComplete _ => exact execBankCopyComplete_ticks _ s
  | rebuildWaitLimit _ => exact execRebuildWaitLimit_ticks _ s
  | passStart _ => exact execPassStart_ticks _ s
  | passComplete _ => exact execPassComplete_ticks _ s
  | accumulatorSetSwap _ _ => exact execAccumulatorSetSwap_ticks _ _ s
  | contextSave _ => exact execContextSave_ticks _ s
  | contextRestore _ => exact execContextRestore_ticks _ s
  | queryJoin => exact execQueryJoin_ticks s
  | queryArr => exact execQueryArr_ticks s
  | epilogueComplete _ => exact execEpilogueComplete_ticks _ s
  | forwardTileSend _ => exact execForwardTileSend_ticks _ s
  | forwardDrop _ => exact execForwardDrop_ticks _ s
  | tileRecordAdd _ => exact execTileRecordAdd_ticks _ s
  | queryFus => exact execQueryFus_ticks s
  | chunkGate _ => exact execChunkGate_ticks _ s
  | chunkLevel _ => exact execChunkLevel_ticks _ s
  | chunkLoad _ => exact execChunkLoad_ticks _ s
  | chunkExpand _ => exact execChunkExpand_ticks _ s
  | chunkReadout _ => exact execChunkReadout_ticks _ s
  | chunkStore _ => exact execChunkStore_ticks _ s
  | chunkSkip _ => exact execChunkSkip_ticks _ s
  | streamCtlPause => exact execStreamCtlPause_ticks s
  | streamCtlResume => exact execStreamCtlResume_ticks s
  | streamCtlReset => exact execStreamCtlReset_ticks s
  | streamCtlEnd => exact execStreamCtlEnd_ticks s
  | streamCtlApply _ => exact execStreamCtlApply_ticks _ s
  | queryRcs => exact execQueryRcs_ticks s
  | transferIssue _ => exact execTransferIssue_ticks _ s
  | readTransferComplete _ _ _ => exact execReadTransferComplete_ticks _ _ _ s
  | writeTransferAccepted _ _ => exact execWriteTransferAccepted_ticks _ _ s
  | instanceComplete _ => exact execInstanceComplete_ticks _ s
  | scheduleAlloc _ => exact execScheduleAlloc_ticks _ s
  | scheduleFree _ => exact execScheduleFree_ticks _ s
  | bufAlloc => exact execBufAlloc_ticks s
  | bufFree => exact execBufFree_ticks s
  | bufGive => exact execBufGive_ticks s
  | queryXm => exact execQueryXm_ticks s
  | queryBuf => exact execQueryBuf_ticks s
  | xmShare => exact execXmShare_ticks s
  | syncAcq _ => exact execSyncAcq_ticks _ s
  | syncRel _ => exact execSyncRel_ticks _ s
  | syncWait _ => exact execSyncWait_ticks _ s
  | syncSend _ => exact execSyncSend_ticks _ s
  | blockedOpProceed _ => exact execBlockedOpProceed_ticks _ s
  | sidePortRequest _ _ _ _ => exact execSidePortRequest_ticks _ _ _ _ s
  | sidePortGrant _ _ => exact execSidePortGrant_ticks _ _ s
  | portWatchdogExpiry _ => exact execPortWatchdogExpiry_ticks _ s
  | querySo => exact execQuerySo_ticks s
  | queryArb => exact execQueryArb_ticks s
  | lnkPowerGood _ => exact execLnkPowerGood_ticks _ s
  | portNoSignalTimeout _ => exact execPortNoSignalTimeout_ticks _ s
  | portTrainingTimeout _ => exact execPortTrainingTimeout_ticks _ s
  | portRetryTimer _ => exact execPortRetryTimer_ticks _ s
  | pmdTrainingComplete _ _ _ => exact execPmdTrainingComplete_ticks _ _ _ s
  | identReceive _ _ => exact execIdentReceive_ticks _ _ s
  | lossOfSignal _ => exact execLossOfSignal_ticks _ s
  | laneFlitReceive _ _ => exact execLaneFlitReceive_ticks _ _ s
  | laneSpareSwitch _ => exact execLaneSpareSwitch_ticks _ s
  | uncorrectableCodeword _ => exact execUncorrectableCodeword_ticks _ s
  | codewordErrorLimit _ => exact execCodewordErrorLimit_ticks _ s
  | flitDataReceive _ _ _ => exact execFlitDataReceive_ticks _ _ _ s
  | flitSyncReceive _ _ _ => exact execFlitSyncReceive_ticks _ _ _ s
  | flitUnschedReceive _ _ _ => exact execFlitUnschedReceive_ticks _ _ _ s
  | flitHaltReceive _ _ => exact execFlitHaltReceive_ticks _ _ s
  | flitTagReceive _ _ => exact execFlitTagReceive_ticks _ _ s
  | flitAckReceive _ _ => exact execFlitAckReceive_ticks _ _ s
  | flitNakReceive _ _ => exact execFlitNakReceive_ticks _ _ s
  | ackTimer _ => exact execAckTimer_ticks _ s
  | replayTimeout _ => exact execReplayTimeout_ticks _ s
  | sealGroupClose _ => exact execSealGroupClose_ticks _ s
  | floodDetected _ => exact execFloodDetected_ticks _ s
  | inboundEntryComplete _ _ => exact execInboundEntryComplete_ticks _ _ s
  | hiveRoster => exact execHiveRoster_ticks s
  | hivePortRetrain => exact execHivePortRetrain_ticks s
  | hivePortUnfence => exact execHivePortUnfence_ticks s
  | hivePortHold => exact execHivePortHold_ticks s
  | hiveKeySwitch => exact execHiveKeySwitch_ticks s
  | queryHl => exact execQueryHl_ticks s
  | inflowWriteTlp _ _ _ => exact execInflowWriteTlp_ticks _ _ _ s
  | flushNow => exact execFlushNow_ticks s
  | flushPkt => exact execFlushPkt_ticks s
  | flushPktComplete => exact execFlushPktComplete_ticks s
  | completionBacklogDrain => exact execCompletionBacklogDrain_ticks s
  | eventOverflowRecord => exact execEventOverflowRecord_ticks s
  | ringEnable _ _ => exact execRingEnable_ticks _ _ s
  | ringHeadWrite _ _ => exact execRingHeadWrite_ticks _ _ s
  | ringSetupWrite _ _ _ => exact execRingSetupWrite_ticks _ _ _ s
  | intmaskWrite _ => exact execIntmaskWrite_ticks _ s
  | apertureRead _ _ => exact execApertureRead_ticks _ _ s
  | apertureTimeout => exact execApertureTimeout_ticks s
  | apertureWrite => exact execApertureWrite_ticks s
  | combAperture => exact execCombAperture_ticks s
  | queryHi => exact execQueryHi_ticks s
  | pciPowerStateChange _ => exact execPciPowerStateChange_ticks _ s
  | doorbellRing _ => exact execDoorbellRing_ticks _ s
  | doorbellNext _ => exact execDoorbellNext_ticks _ s
  | doorbellInvalid _ _ => exact execDoorbellInvalid_ticks _ _ s
  | mailboxPageWrite _ _ _ => exact execMailboxPageWrite_ticks _ _ _ s
  | smbusSetOffset _ _ => exact execSmbusSetOffset_ticks _ _ s
  | smbusWrite _ _ => exact execSmbusWrite_ticks _ _ s
  | smbusRead => exact execSmbusRead_ticks s
  | smbusTimeout => exact execSmbusTimeout_ticks s
  | uartWrite _ => exact execUartWrite_ticks _ s
  | uartRead _ => exact execUartRead_ticks _ s
  | uartBaud _ => exact execUartBaud_ticks _ s
  | uartFrameTimeout => exact execUartFrameTimeout_ticks s
  | uartBreak => exact execUartBreak_ticks s
  | queryDevice => exact execQueryDevice_ticks s
  | queryWg => exact execQueryWg_ticks s
  | graftStage => exact execGraftStage_ticks s
  | graftCommit => exact execGraftCommit_ticks s
  | graftAbort => exact execGraftAbort_ticks s
  | graftPhaseApply => exact execGraftPhaseApply_ticks s
  | graftWaitLimit => exact execGraftWaitLimit_ticks s
  | queryGraft => exact execQueryGraft_ticks s
  | queryPresence => exact execQueryPresence_ticks s
  | rjRead => exact execRjRead_ticks s
  | rjMark => exact execRjMark_ticks s
  | fwLoadBegin => exact execFwLoadBegin_ticks s
  | fwLoadData => exact execFwLoadData_ticks s
  | fwLoadFinish _ => exact execFwLoadFinish_ticks _ s
  | fwLoadSessionTimeout => exact execFwLoadSessionTimeout_ticks s
  | hiveKeyLoad => exact execHiveKeyLoad_ticks s
  | hwErase => exact execHwErase_ticks s
  | repairRead => exact execRepairRead_ticks s
  | calOverrideSet => exact execCalOverrideSet_ticks s
  | calOverrideRelease => exact execCalOverrideRelease_ticks s
  | wg3Unseal => exact execWg3Unseal_ticks s
  | wg3Seal => exact execWg3Seal_ticks s
  | wg3UnsealExpiry => exact execWg3UnsealExpiry_ticks s
  | reseal => exact execReseal_ticks s
  | presenceSample _ => exact execPresenceSample_ticks _ s
  | presenceQualified => exact execPresenceQualified_ticks s
  | presenceWindowExpiry => exact execPresenceWindowExpiry_ticks s
  | sealSample _ _ => exact execSealSample_ticks _ _ s
  | sealBreak => exact execSealBreak_ticks s
  | scrubPageStart _ => exact execScrubPageStart_ticks _ s
  | regulatorRead _ => exact execRegulatorRead_ticks _ s
  | regulatorFaultClear _ => exact execRegulatorFaultClear_ticks _ s
  | telemetrySummary => exact execTelemetrySummary_ticks s
  | heartwoodProgramComplete _ _ _ => exact execHeartwoodProgramComplete_ticks _ _ _ s
  | blockReclaim => exact execBlockReclaim_ticks s
  | heartwoodEraseComplete _ _ => exact execHeartwoodEraseComplete_ticks _ _ s
  | heartwoodScanComplete _ => exact execHeartwoodScanComplete_ticks _ s
  | heartwoodScanDeadline => exact execHeartwoodScanDeadline_ticks s
  | hwRead => exact execHwRead_ticks s
  | queryUs => exact execQueryUs_ticks s
  | queryHw => exact execQueryHw_ticks s
  | powerStateEntry => exact execPowerStateEntry_ticks s
  | wakeComplete _ => exact execWakeComplete_ticks _ s
  | thermalTrip _ _ => exact execThermalTrip_ticks _ _ s
  | thermalTripRecovery => exact execThermalTripRecovery_ticks s
  | pwrTolerance => exact execPwrTolerance_ticks s
  | pwrLimit => exact execPwrLimit_ticks s
  | queryPwr => exact execQueryPwr_ticks s
  | jtagTapReset => exact ⟨_, rfl, rfl, rfl, rfl⟩
  | jtagBypass => exact ⟨_, rfl, tapLoad_ticks _ _⟩
  | jtagIdcode => exact ⟨_, rfl, tapLoad_ticks _ _⟩
  | jtagSamplePreload _ _ => exact ⟨_, rfl, tapLoad_ticks _ _⟩
  | jtagExtest => exact ⟨_, rfl, tapLoad_ticks _ _⟩
  | jtagClamp => exact ⟨_, rfl, tapLoad_ticks _ _⟩
  | jtagHighz => exact ⟨_, rfl, tapLoad_ticks _ _⟩
  | dmaReadComplete _ => exact execDmaReadComplete_ticks _ s
  | bootNorEraseComplete => exact execBootNorEraseComplete_ticks s

end Sys2Proof.Machine
end

