-- ==== Sys2Proof/Tests/Slice0.lean ====
section
/-! SUPPORT. Tests: an ill-formed command for each check of WellFormed; and for each statement, states and operands that meet its
hypotheses, clause by clause, with what one step from there leaves. The expected values are those of the rules, worked out by
hand. -/

set_option Elab.async false

namespace Sys2Proof.Tests

open Sys2Proof Sys2Proof.Machine

/- Small states. -/

/-- The command runs, and P holds of the next state. -/
def runs (c : Instr) (s : State) (P : State → Bool) : Bool :=
  match exec c s with
  | .next t => P t
  | _ => false

/-- The events raised from s to t, oldest first. -/
def newsOf (s t : State) : List (Nat × Sev) :=
  (t.hi.raised.take (t.hi.raised.length - s.hi.raised.length)).reverse.map (fun e => (e.code, e.sev))

/-- Every domain is up, Keeper and its firmware run, and the host may read, write and be written to. -/
def on : State :=
  { State.reset with
    pwr := { Pwr.init with
      pwrgd := true, on := true, keeper := true, hif := true, lnk := true, xmi := true, railEn := true, hwRst := false
      quad := Vector.replicate 4 true, cb := Vector.replicate 4 true }
    hi := { Hi.init with readiness := .ready, fwRuns := true, cfgReady := true, link := true, bme := true, window := 9 }
    xm := { Xm.init with trained := true, chanOk := 255 }
    hw := { Hw.init with boot := 1, online := true, scanned := true, loaded := true, map := [2, 3, 4, 5, 6, 7], spares := [992] }
    beat := { Beat.init with running := true, num := 5000, edges := 5000 }
    syn := { Syn.init with bLocked := true, refFound := true, hrefOk := true, hrefIn := true, lrefIn := true, b := { LoopSt.init with ld := .locked } } }

/-- The last slot of a beat has begun. -/
def near (s : State) : State := { s with beat.slot := 127 }

/-- Keeper works on a command of that opcode with payload p in mailbox m. -/
def cmd (s : State) (op m : Nat) (p : List Byte) : State :=
  { s with wg := { Wg.init with
      cur := some m
      mb := vmod Wg.init.mb m (fun x => { x with
        st := .busy, page := (SMap.putRun [] 0 0#8 (leBytes 2 op ++ leBytes 2 p.length)).putRun 0x40 0#8 p }) } }

/-- A plan of identifier 7 stands in context 0, in that state, with the quadrants of that mask. -/
def plan (s : State) (st : PlanSt) (quads : Nat) : State :=
  { s with cmb := { s.cmb with ctx := vput s.cmb.ctx 0 { PlanCtx.init with planId := 7, st := st, quads := quads } } }

/-- One instance, number 3, admitted at beat 4999. -/
def inst : Inst :=
  { n := 3, tag := 9, agent := 0, admitBeat := 4999, refs := [], lent := [], faults := .none, policyDue := false, stopped := false }

/-- The plan has that instance. -/
def busy (s : State) : State := { s with cmb := { s.cmb with ctx := vmod s.cmb.ctx 0 (fun c => { c with insts := [inst] }) } }

/-- An operation stands in front of quadrant 0. -/
def head (s : State) (op : ProgOp) : State :=
  { s with quad := vmod s.quad 0 (fun x => { x with todo := [{ ctx := 0, adm := 4999, op := op, late := false }] }) }

/-- A flit of a type from neighbour 2 to rank 0, with SEQ 0, that entry, instance, index and payload. -/
def flit (typ entry ins index : Nat) (pay : List Byte) : List Byte := mkFlit typ 2 0 entry index ins 0 pay

/-- Port 3 is UP, its neighbour is rank 2, and the member has a roster. -/
def wired (s : State) : State :=
  { s with hl := { s.hl with
      roster := true, size := 8, port := vput s.hl.port 3 { Port.init with st := .up, nbrRank := 2, nbrPort := 4 } } }

/-- The hypotheses of AtCommand, as a check. -/
def atB (s : State) (op m : Nat) (p : List Byte) : Bool :=
  s.wg.cur == some m && decide (m < 4) && mbOp s m == op && mbPayload s m == p && s.wg.wait == .none && alive s && s.pwr.keeper &&
    !s.wg.order.contains m && !(mbAt s m).discard && !(mbAt s m).nextDue

theorem at_of {s : State} {op m : Nat} {p : List Byte} (h : atB s op m p = true) : AtCommand s op m p := by
  simp only [atB, Bool.and_eq_true, beq_iff_eq, decide_eq_true_eq, Bool.not_eq_true', List.contains_eq_mem, decide_eq_false_iff_not] at h
  obtain ⟨⟨⟨⟨⟨⟨⟨⟨⟨h1, h2⟩, h3⟩, h4⟩, h5⟩, h6⟩, h7⟩, h8⟩, h9⟩, h10⟩ := h
  exact ⟨h1, h2, h3, h4, h5, h6, h7, h8, h9, h10⟩

/-- The answer in mailbox m: DONE, its status code, and the body. -/
def answered (t : State) (m code : Nat) (body : List Byte) : Bool :=
  (mbAt t m).st == .done && (mbAt t m).code == code && (mbAt t m).resp.drop 64 == body

/- WellFormed: one ill-formed command for each check, and its neighbour that is well formed. -/

/-- A flit of zeros of that length. -/
def zeros (n : Nat) : List Byte := List.replicate n 0#8
/-- What a quiet beat edge shows. -/
def env : EdgeEnv :=
  { hiveOk := true, localOk := true, temps := List.replicate 11 none, utime := [0, 0, 0, 0], uused := [0, 0, 0, 0],
    slack := [0, 0, 0, 0], corrected := [] }
/-- An image of version 1.2.3. -/
def image : ImageInfo := { header := true, len := 4096, signed := true, major := 1, minor := 2, build := 3, board := ⟨0, 1, 2, 0⟩ }
/-- A program of one beat with an operation in slot 0. -/
def prog : QuadProg := { quad := 0, objects := [], slots := [(0, [.free 1])], beats := 1 }

theorem test_wf_offsets : (Instr.registerWrite 0x10002 0 0).wf = false ∧ (Instr.registerWrite 0x400000 0 0).wf = false ∧
    (Instr.registerWrite 0x3FFFFC 0 0).wf = true ∧ (Instr.rcFieldRead 0x400000 0).wf = false ∧ (Instr.lowWordRead 4).wf = false ∧
    (Instr.lowWordRead 0).wf = true ∧ (Instr.highWordWrite 0 0).wf = false ∧ (Instr.highWordWrite 4 0).wf = true ∧
    (Instr.misalignedAccess true 0 4).wf = false ∧ (Instr.misalignedAccess true 0 2).wf = true ∧
    (Instr.misalignedAccess true 1 0).wf = false ∧ (Instr.undefinedOffsetAccess false 2).wf = false := by decide +kernel
theorem test_wf_images : (Instr.imageVerifyComplete image).wf = true ∧ (Instr.imageVerifyComplete { image with major := 256 }).wf = false ∧
    (Instr.imageVerifyComplete { image with minor := 256 }).wf = false ∧ (Instr.fwLoadFinish { image with build := 65536 }).wf = false ∧
    (Instr.fwLoadFinish { image with board := ⟨3, 1, 2, 0⟩ }).wf = false ∧ (Instr.fwLoadFinish { image with board := ⟨0, 3, 2, 0⟩ }).wf = false ∧
    (Instr.fwLoadFinish { image with board := ⟨0, 1, 1, 0⟩ }).wf = false ∧ (Instr.fwLoadFinish { image with board := ⟨0, 1, 33, 0⟩ }).wf = false ∧
    (Instr.fwLoadFinish { image with board := ⟨0, 1, 2, 59⟩ }).wf = false ∧
    (Instr.fwLoadFinish { image with board := ⟨0, 1, 2, 86401⟩ }).wf = false := by decide +kernel
theorem test_wf_edges : (Instr.beatEdge env).wf = true ∧ (Instr.beatEdge { env with temps := [] }).wf = false ∧
    (Instr.beatEdge { env with utime := [] }).wf = false ∧ (Instr.beatEdge { env with uused := [] }).wf = false ∧
    (Instr.beatEdge { env with slack := [] }).wf = false ∧ (Instr.beatEdge { env with corrected := [(0, 9, 1)] }).wf = false := by decide +kernel
theorem test_wf_programs : (Instr.planLoad (some { bytes := [], progs := [prog] })).wf = true ∧ (Instr.planLoad none).wf = true ∧
    (Instr.planLoad (some { bytes := [], progs := [prog, prog] })).wf = false ∧
    (Instr.planReplace (some { bytes := [], progs := [{ prog with beats := 0 }] })).wf = false ∧
    (Instr.dmaReadComplete { bytes := [], progs := [{ prog with slots := [(128, [])] }] }).wf = false ∧
    (Instr.dmaReadComplete { bytes := [], progs := [{ prog with slots := [(1, []), (1, [])] }] }).wf = false := by decide +kernel
theorem test_wf_calibrations : (Instr.calibrationStart ⟨0, 0, 0⟩).wf = false ∧ (Instr.calibrationStart ⟨0, 1, 16⟩).wf = false ∧
    (Instr.calibrationStart ⟨1, 3, 0⟩).wf = false ∧ (Instr.calibrationStart ⟨2, 0, 1⟩).wf = false ∧
    (Instr.calibrationComplete ⟨3, 20, 0⟩ true 0).wf = false ∧ (Instr.calibrationComplete ⟨3, 0, 9⟩ true 0).wf = false ∧
    (Instr.calibrationComplete ⟨4, 8, 0⟩ true 0).wf = false ∧ (Instr.calibrationComplete ⟨5, 0, 0⟩ true 0).wf = false ∧
    (Instr.calibrationComplete ⟨4, 7, 3⟩ true 0).wf = true := by decide +kernel
theorem test_wf_flits : (Instr.beatMarkerReceive 0 (zeros 255) 0).wf = false ∧ (Instr.identReceive 0 (zeros 255)).wf = false ∧
    (Instr.laneFlitReceive 0 (zeros 257)).wf = false ∧ (Instr.flitDataReceive 0 [] 0).wf = false ∧ (Instr.flitSyncReceive 0 [] 0).wf = false ∧
    (Instr.flitUnschedReceive 0 [] 0).wf = false ∧ (Instr.flitHaltReceive 0 []).wf = false ∧ (Instr.flitTagReceive 0 []).wf = false ∧
    (Instr.flitAckReceive 0 []).wf = false ∧ (Instr.flitNakReceive 0 []).wf = false ∧ (Instr.flitNakReceive 0 (zeros 256)).wf = true := by
  decide +kernel
theorem test_wf_comb : (Instr.pageRebuildComplete 393216 true).wf = false ∧ (Instr.bankCopyComplete 393216).wf = false ∧
    (Instr.rebuildWaitLimit 393216).wf = false ∧ (Instr.rebuildWaitLimit 393215).wf = true ∧ (Instr.zeroFillComplete 0 64).wf = false ∧
    (Instr.sidePortRequest 0 0 393216 1).wf = false ∧ (Instr.sidePortRequest 0 0 0 0).wf = false ∧
    (Instr.sidePortGrant 0 256).wf = false ∧ (Instr.apertureRead 0x10000000 4).wf = false := by decide +kernel
theorem test_wf_transfers : (Instr.readTransferComplete 1024 0 0).wf = false ∧ (Instr.readTransferComplete 0 3 0).wf = false ∧
    (Instr.writeTransferAccepted 1024 true).wf = false ∧ (Instr.pmdTrainingComplete 0 9 0).wf = false ∧
    (Instr.inboundEntryComplete 0 1024).wf = false ∧ (Instr.inflowWriteTlp 0 [] true).wf = false ∧
    (Instr.inflowWriteTlp 0xFFFD (zeros 4) true).wf = false ∧ (Instr.inflowWriteTlp 0xFFFC (zeros 4) true).wf = true := by decide +kernel
theorem test_wf_mailboxes : (Instr.mailboxPageWrite 0 2 0).wf = false ∧ (Instr.mailboxPageWrite 0 0x1000 0).wf = false ∧
    (Instr.smbusSetOffset 65536 true).wf = false ∧ (Instr.uartWrite []).wf = false ∧ (Instr.uartRead []).wf = false ∧
    (Instr.uartBaud []).wf = false ∧ (Instr.regulatorRead [⟨256, false, 0, 0, 0⟩]).wf = false ∧
    (Instr.jtagSamplePreload [true] []).wf = false ∧ (Instr.jtagSamplePreload [true] [false]).wf = true := by decide +kernel

/- The step, invariants and the TAP. -/

/-- A front command and one behind it. -/
def queued : State := { on with pending := [.jtagIdcode, .flushNow] }

theorem witness_StepRunsFront : queued.pending = .jtagIdcode :: [.flushNow] ∧
    (match step queued with
      | .next t => t.jtag.instr == .idcode && t.pending == [.flushNow]
      | _ => false) = true := by decide +kernel
/-- Keeper is in ROM and has judged its references. -/
def inRom : State := { on with hi := { on.hi with readiness := .rom, progress := 1, fwRuns := false, cfgReady := false, window := 0 } }
theorem witness_EveryCommandCompletes : inRom.pending = [] ∧ on.pending = [] ∧ on.hi.readiness = .ready ∧
    (match step inRom with
      | .next t => t.hi.readiness == .clocking && t.hi.progress == 0x10
      | _ => false) = true ∧
    (match step on with
      | .next t => t.hi.readiness == .ready && t.hi.progress == on.hi.progress
      | _ => false) = true := by decide +kernel
/-- Each memory lists a byte, and a command waits. -/
def stored : State :=
  { queued with cmb := { on.cmb with mem := [(5, 1#8), (9, 2#8)] }, xm := { on.xm with mem := [(4, 7#8)] },
                fw := { on.fw with slotA := [(0, 0x11#8)] } }
theorem witness_MemoriesStayCanonical : MemOk stored ∧ ∃ t, step stored = .next t :=
  ⟨⟨by decide +kernel, ⟨by decide +kernel, by decide +kernel⟩, by decide +kernel, by decide +kernel⟩, _, rfl⟩
theorem test_memories_not_canonical : Memory.wf [(9, 2#8), (5, 1#8)] 0#8 = false ∧ Memory.wf [(5, 0#8)] 0#8 = false ∧
    Memory.wf [(5, 1#8), (5, 2#8)] 0#8 = false := by decide +kernel
/-- A journal with one entry. -/
def entry (n : Nat) : JEntry :=
  { seq := n, source := 0, cls := .operational, op := 0x101, outcome := 0, mirrored := false, member := false, phase := 0, beat := 1,
    tag := 0, digest := 0, link := 0, effect := 1 }
def journal : State := { queued with rj := { ent := [entry 1, entry 2], next := 3 }, wg := { Wg.init with curSeq := 2 } }
theorem witness_JournalStaysSound : JournalOk journal ∧ ∃ t, step journal = .next t :=
  ⟨⟨by decide +kernel, by decide +kernel, by decide +kernel⟩, _, rfl⟩
theorem witness_TapAlone : isJtag .jtagExtest = true ∧ isJtag .flushNow = false ∧ on.pwr.on = true ∧
    runs .jtagExtest on (fun t => t.jtag.instr == .extest && !t.jtag.inReset) = true ∧
    runs .flushNow on (fun t => t.jtag == on.jtag) = true ∧
    runs (.jtagSamplePreload [true, false] [false, true]) on (fun t => t.jtag.captured == [true, false] && t.jtag.preload == [false, true]) = true := by
  decide +kernel

/- Registers, rings and the Inflow queue as the host sees them. -/

theorem witness_AccessFaultsOnlyCount : hostUp on = true ∧ (4 ≠ 4 ∨ 0x3FFFFE % 4 ≠ 0) ∧ 0x3FFFFE < 0x400000 ∧
    readReg on 0x3FFFFC = none ∧ readReg on 1 = none ∧
    runs (.misalignedAccess false 0x3FFFFE 4) on (fun t => t.hi.accessErr == 1 && t.hi.readData == [0#32]) = true ∧
    runs (.misalignedAccess true 0 2) { on with hi.accessErr := 2 ^ 32 - 1 } (fun t => t.hi.accessErr == 2 ^ 32 - 1) = true ∧
    runs (.undefinedOffsetAccess true 0x3FFFFC) on (fun t => t.hi.accessErr == 1) = true ∧
    runs (.undefinedOffsetAccess false 0x3FFFFC) on (fun t => t.hi.accessErr == 1 && t.hi.readData == [0#32]) = true := by decide +kernel
/-- Sticky bits and counts that the host clears. -/
def sticky : State :=
  { on with hi := { on.hi with underrun := true, overflow := true, accessErr := 5, drop := 6 },
            quad := vmod on.quad 3 (fun x => { x with jnFmt := true, jnBound := true }) }
theorem witness_W1cAndRcInOneClock : hostUp sticky = true ∧
    runs (.registerWrite 0x1000C 3#32 2#32) sticky (fun t => !t.hi.underrun && t.hi.overflow) = true ∧
    runs (.registerWrite 0x70304 1#32 4#32) sticky (fun t => !(quadAt t 3).jnFmt && (quadAt t 3).jnBound && (quadAt t 3).jnPoison) = true ∧
    runs (.rcFieldRead 0x10020 1#32) sticky (fun t => t.hi.readData == [5#32] && t.hi.accessErr == 1) = true ∧
    runs (.rcFieldRead 0x10010 1#32) sticky (fun t => t.hi.readData == [6#32] && t.hi.drop == 6) = true := by decide +kernel
theorem witness_ReadOnlyWordsIgnoreWrites : hostUp on = true ∧ (readReg on 0x60000).isSome = true ∧ (readReg on 0).isSome = true ∧
    (readReg on 0x120000).isSome = true ∧ is64 0x60000 = false ∧ is64 (0x60000 - 4) = false ∧ is64 0 = false ∧ is64 (0 - 4) = false ∧
    is64 0x120000 = false ∧ is64 (0x120000 - 4) = false ∧ (0x50000 ≤ 0x60000 ∧ 0x60000 < 0x70000) ∧ (0 < 0x10000 ∧ 0 ≠ 0x30) ∧
    0xB0014 ≤ 0x120000 ∧ runs (.registerWrite 0x60000 7#32 0#32) on (fun t => t.cmb == on.cmb && t.hi.accessErr == 0) = true := by decide +kernel
/-- The latch of the beat number is set, and its register has moved on. -/
def latched : State := { on with hi := { on.hi with latch := [(0x10, 0)] }, beat := { on.beat with num := 2 ^ 32 + 5 } }
theorem witness_SixtyFourBitPairs : hostUp latched = true ∧ is64 0x10 = true ∧ readReg latched 0x10 = some 5#32 ∧
    readReg latched 0x14 = some 1#32 ∧ latched.hi.latch.find 0x10 = some 0 ∧ ({ latched with hi.latch := [] }).hi.latch.find 0x10 = none ∧
    runs (.lowWordRead 0x10) latched (fun t => t.hi.readData == [5#32] && t.hi.latch.find 0x10 == some 1) = true ∧
    runs (.rcFieldRead 0x14 0#32) latched (fun t => t.hi.readData == [0#32] && t.hi.latch == []) = true ∧
    runs (.highWordWrite 0x10044 9#32) latched (fun t => t.hi.held.find 0x10040 == some 9) = true := by decide +kernel
/-- An enabled event ring of 64 records with one free on the way, and a disabled completion ring. -/
def ringed : State :=
  { on with hi := { on.hi with evr := { Ring.init with base := 0x10000, enable := true, head := 3, tail := 9 }, held := [(0x10060, 1)] } }
theorem witness_RingAndMaskSetupByTheHost : hostUp ringed = true ∧ (ringAt ringed true).enable = false ∧
    (0x80000006#32).getLsbD 31 = true ∧ 6 ≤ (0x80000006#32).toNat % 32 ∧ (0x80000010#32).toNat % 32 ≤ 16 ∧
    ringed.hi.held.find 0x10060 = some 1 ∧ (1 * 2 ^ 32 + 0x1000) % (64 * (ringAt ringed true).count) = 0 ∧
    9 < (ringAt ringed false).count ∧ (9 + 64 - 3) % 64 ≤ (9 + 64 - 3) % 64 ∧
    runs (.ringEnable true 0x80000010#32) ringed (fun t => t.hi.cpr.enable && t.hi.cpr.size == 16 && t.hi.cpr.phase) = true ∧
    runs (.ringSetupWrite true 0 0x1000#32) ringed (fun t => t.hi.cpr.base == 0x100001000) = true ∧
    runs (.ringHeadWrite false 9#32) ringed (fun t => t.hi.evr.head == 9) = true ∧
    runs (.intmaskWrite 0x35#32) ringed (fun t => t.hi.intMask == 5) = true := by decide +kernel
theorem witness_IgnoredRingWritesCount : hostUp ringed = true ∧ (5#32).toNat % 32 < 6 ∧ 16 < (17#32).toNat % 32 ∧
    (ringAt ringed false).enable = true ∧ (0x80000007#32).toNat % 32 ≠ (ringAt ringed false).size ∧ (0x80000007#32).getLsbD 31 = true ∧
    (1 * 2 ^ 32 + 4) % (64 * (ringAt ringed true).count) ≠ 0 ∧ (ringAt ringed false).count ≤ (64#32).toNat % 2 ^ 16 ∧
    (9 + 64 - 3) % 64 < (2 + 64 - 3) % 64 ∧
    runs (.ringEnable false 0x80000007#32) ringed (fun t => t.hi.evr.size == 6 && t.hi.evr.enable && t.hi.accessErr == 1) = true ∧
    runs (.ringSetupWrite true 2 17#32) ringed (fun t => t.hi.cpr.size == 6 && t.hi.accessErr == 1) = true ∧
    runs (.ringSetupWrite true 0 4#32) ringed (fun t => t.hi.cpr.base == 0 && t.hi.accessErr == 1) = true ∧
    runs (.ringSetupWrite false 0 0x2000#32) ringed (fun t => t.hi.evr.base == 0x10000 && t.hi.accessErr == 1) = true ∧
    runs (.ringHeadWrite false 64#32) ringed (fun t => t.hi.evr.head == 3 && t.hi.accessErr == 1) = true ∧
    runs (.ringHeadWrite false 2#32) ringed (fun t => t.hi.evr.head == 3 && t.hi.accessErr == 1) = true := by
  decide +kernel
/-- One packet in the queue, and an open one in the packer. -/
def opened : State :=
  { on with hi := { on.hi with queue := [{ bytes := zeros 4, vbytes := 4, eop := true }], packer := zeros 8, flushPend := true } }
theorem witness_InflowFlushes : hostUp opened = true ∧ packetOpen opened = true ∧ packetOpen { opened with hi.packer := [] } = false ∧
    opened.hi.flushPend = true ∧
    runs .flushNow opened (fun t => t.hi.flushed == 2 && t.hi.queue == [] && t.hi.packer == [] && !t.hi.flushPend) = true ∧
    runs .flushPkt { opened with hi.flushPend := false } (fun t => t.hi.flushPend && t.hi.queue.length == 1) = true ∧
    runs .flushPktComplete { opened with hi.packer := [] } (fun t => t.hi.flushed == 1 && t.hi.queue == [] && !t.hi.flushPend) = true ∧
    runs .flushPktComplete opened (fun t => t.hi.flushPend && t.hi.packer.length == 8) = true := by decide +kernel
/-- A wide word's worth of zeros. -/
def wide : Instr := .inflowWriteTlp 0x8000 (zeros 64) true
theorem witness_InflowAndRings : hostUp on = true ∧ 0xFFFE + (zeros 2).length ≤ 0x10000 ∧ zeros 2 ≠ [] ∧ (zeros 2).length % 4 ≠ 0 ∧
    (zeros 64).length = 64 ∧ 0x8000 ≤ 0x7FC4 + 60 ∧ on.hi.packer = [] ∧ on.hi.queue.length < 4096 ∧ alive on = true ∧
    cprOpen on = false ∧ on.hi.evrLostNew = 0 ∧
    runs (.inflowWriteTlp 0xFFFE (zeros 2) true) on (fun t => t.hi.badTlp == 1 && t.hi.queue == []) = true ∧
    runs (.inflowWriteTlp 0x7FC4 (zeros 64) true) on (fun t => t.hi.queue.length == 1 && t.hi.arrived == 1) = true ∧
    runs wide { on with pwr.st := .deep } (fun t => t.pwr.waking == some .active) = true ∧
    runs .completionBacklogDrain on (fun t => t.hi.cpr.tail == 0) = true ∧ runs .eventOverflowRecord on (fun t => t.hi.evSeq == 0) = true := by decide +kernel
/-- Both rings take records; one completion waits, and two event records have been lost. -/
def draining : State :=
  { on with hi := { on.hi with
      evr := { Ring.init with base := 0x10000, enable := true }, cpr := { Ring.init with base := 0x20000, enable := true }
      backlog := [recordOf on 0 inst 5000], evrLostNew := 2 } }
theorem witness_InflowAndRings_delivery : cprOpen draining = true ∧ draining.hi.backlog.length = 1 ∧ draining.hi.evrLostNew ≠ 0 ∧
    draining.hi.evr.enable = true ∧ dmaUp draining = true ∧ draining.hi.evr.full = false ∧
    runs .completionBacklogDrain draining (fun t => t.hi.backlog == [] && t.hi.cpr.tail == 1) = true ∧
    runs .eventOverflowRecord draining (fun t => t.hi.evrLostNew == 0 && t.hi.evr.tail == 1 && t.hi.evSeq == 1 &&
      t.hi.hostMem.getAt (0x10000 + 0) 0#8 == 0x8F#8) = true := by decide +kernel
/-- The queue holds 4,096 wide words. -/
def crowded : State := { on with hi := { on.hi with queue := List.replicate 4096 { bytes := [], vbytes := 64, eop := true } } }
theorem witness_InflowAndRings_full : 4096 ≤ crowded.hi.queue.length ∧
    runs wide crowded (fun t => t.hi.queue.length == 4096 && t.hi.drop == 1 && t.hi.overflow) = true := by decide +kernel

/- Resets and boot. -/

/-- AON is off, its power not good. -/
def dark : State := { State.reset with pwr := { Pwr.init with pwrgd := false } }
theorem witness_AonSupply : (dark.pwr.pwrgd = false ∧ dark.pwr.brown = false) ∧ on.pwr.pwrgd = true ∧ on.pwr.brown = false ∧
    alive on = true ∧
    runs .aonPowerGood dark (fun t => t.hw.boot == 2 && t.hi.cold && t.pwr.on && t.beat.num == 0) = true ∧
    runs .aonSupplyRecovery { on with pwr.brown := true } (fun t => t.beat.num == 0 && t.hi.readiness == .rom && t.pwr.hif == false) = true ∧
    runs .aonSupplyRecovery { dark with pwr.brown := true } (fun t => !t.pwr.brown && !t.pwr.on) = true ∧
    runs .aonPowerGoodFall on (fun t => !t.pwr.on && !t.pwr.hif && !t.pwr.railEn && !t.hi.link) = true ∧
    runs .aonBrownOut on (fun t => t.pwr.brown && !t.pwr.on && !t.pwr.xmi) = true ∧
    runs .powerFailWarning (busy (plan on .installed 1)) (fun t => t.pwr.stopped && !t.pwr.hif && (ctxAt t 0).insts == []) = true := by
  decide +kernel
/-- A word waits in the Inflow queue. -/
def filled : State := { opened with hi := { opened.hi with bme := true, hot := false } }
theorem witness_PcieResets : alive filled = true ∧ filled.pwr.hif = true ∧ filled.hi.perst = false ∧ filled.hi.link = true ∧
    filled.hi.cfgReady = true ∧ filled.cmb.fetch = none ∧ filled.wg.wait = .none ∧
    runs .perstAssert filled (fun t => t.hi.queue == [] && t.hi.perst && !t.hi.link && t.hi.perstRst && !t.hi.bme) = true ∧
    runs .perstAssert { filled with pwr.hif := false } (fun t => t.hi.queue.length == 1 && t.hi.perst && t.hi.perstRst) = true ∧
    runs .pcieHotReset filled (fun t => t.hi.queue == [] && t.hi.hot && t.hi.link && !t.hi.perstRst) = true ∧
    runs .functionLevelReset filled (fun t => t.hi.packer == [] && t.hi.flr && t.hi.link && !t.hi.hot) = true := by decide +kernel
theorem witness_PciConfiguration : on.pwr.hif = true ∧ on.hi.link = true ∧ on.hi.perst = false ∧ on.hi.cfgReady = true ∧
    runs .perstDeassert { on with hi.perst := true, hi.link := false } (fun t => !t.hi.perst && t.hi.link) = true ∧
    runs (.configRequest (some true)) { on with hi.cfgReady := false, hi.bme := false } (fun t => t.hi.crs && !t.hi.bme) = true ∧
    runs (.configRequest (some false)) on (fun t => !t.hi.bme) = true ∧
    runs (.configRequest (some true)) { on with hi.bme := false } (fun t => t.hi.bme) = true ∧
    runs (.pciPowerStateChange true) on (fun t => t.hi.d3hot && !hostUp t) = true ∧
    runs (.pciPowerStateChange false) { on with hi.d3hot := true } (fun t => hostUp t) = true := by decide +kernel
/-- Keeper runs in CLOCKING, with a reference found and PLL-B acquiring. -/
def clocking : State :=
  { State.reset with
    pwr := { State.reset.pwr with keeper := true }, hi := { Hi.init with readiness := .clocking, progress := 0x10 }
    syn := { Syn.init with refFound := true, b := { LoopSt.init with ld := .acquire } } }
theorem witness_BootClocking : alive State.reset = true ∧ State.reset.pwr.keeper = false ∧ State.reset.syn.bLocked = false ∧
    clocking.pwr.keeper = true ∧ clocking.hi.readiness = .clocking ∧ clocking.syn.b.ld = .acquire ∧ clocking.syn.refFound = true ∧
    runs (.romStart false true) State.reset (fun t => t.pwr.keeper && t.hi.progress == 1 && t.syn.refSel == .localRef && t.syn.b.ld == .acquire) = true ∧
    runs (.romStart false false) { State.reset with syn.bLocked := true } (fun t => t.hi.progress == 0x12 && t.hi.readiness == .clocking) = true ∧
    runs (.referenceRecheck false false) { clocking with syn.refFound := false } (fun t => t.hi.progress == 0x1F && t.syn.checksFailed == 1) = true ∧
    runs (.referenceRecheck true true) { clocking with syn.refFound := false } (fun t => t.hi.progress == 0x10 && t.syn.refSel == .hive) = true ∧
    runs (.lockAcquired ⟨.b, 450⟩) clocking (fun t => t.hi.progress == 0x12 && t.pwr.railEn && t.syn.bLocked && t.syn.src == .safe) = true ∧
    runs .pllBLockTimeout clocking (fun t => t.hi.readiness == .failed && t.hi.progress == 0x80 && t.hi.failStep == 0x10 &&
      newsOf clocking t == [(0x0D85, .critical)]) = true := by decide +kernel
/-- The safe clock runs, and HIF waits for its power. -/
def clocked : State := { clocking with syn := { clocking.syn with bLocked := true }, pwr := { clocking.pwr with railEn := true } }
theorem witness_BootClocking_later : clocked.pwr.hif = false ∧ clocked.pwr.railEn = true ∧ clocked.syn.bLocked = true ∧
    runs .hifPowerGood clocked (fun t => t.pwr.hif && t.hi.link && t.hi.progress == 0x20 && t.hi.readiness == .fwVerify) = true ∧
    runs (.lockAcquired ⟨.b, 450⟩) { clocked with syn.holdover := true } (fun t => !t.syn.holdover && t.hi.progress == 0x10) = true := by
  decide +kernel
/-- Keeper verifies image A, or B. -/
def verify (b : Bool) : State :=
  { clocked with hi := { clocked.hi with readiness := .fwVerify, progress := if b then 0x22 else 0x20, tryingB := b } }
theorem witness_BootFirmware : alive (verify false) = true ∧ (verify false).pwr.keeper = true ∧ (verify false).hi.readiness = .fwVerify ∧
    (verify false).hi.fwRuns = false ∧ (verify false).pending = [] ∧ image.len ≤ 786432 ∧ ballsTaken (verify false) = false ∧
    slotBad (verify false) 0 = false ∧ 786432 < ({ image with len := 786433 } : ImageInfo).len ∧
    (match step (verify true) with
      | .next t => t.hi.progress == 0x23
      | _ => false) = true ∧
    runs (.imageVerifyComplete { image with len := 786432 }) (verify true)
      (fun t => t.hi.fwRuns && t.hi.imageB && t.hi.fwMajor == 1 && newsOf (verify true) t == [(0x0D81, .major)]) = true ∧
    runs (.imageVerifyComplete { image with len := 786433 }) (verify false) (fun t => !t.hi.fwRuns && t.hi.imageAFail && t.hi.progress == 0x22) = true ∧
    runs (.imageVerifyComplete { image with header := false }) (verify true) (fun t => t.hi.readiness == .recovery && t.hi.failStep == 0x23) = true := by
  decide +kernel
/-- Verified firmware runs, and so many windows have opened; the Heartwood scan has ended. -/
def windows (n : Nat) : State :=
  { verify false with
    hi := { clocked.hi with readiness := .domains, fwRuns := true, window := n }, hw := { Hw.init with scanned := true, online := true } }
theorem witness_BootDomains : (windows 3).hi.window < 4 ∧ (windows 3).pwr.tripped = false ∧ 4 ≤ (windows 4).hi.window ∧
    (windows 7).hi.window < 8 ∧ (windows 7).hw.scanned = true ∧ SMap.wf (windows 7).cmb.mem 0#8 = true ∧ (windows 8).hi.window = 8 ∧
    runs .domainWindow (windows 3) (fun t => vget t.pwr.quad 3 false && vget t.hi.bist 3 false && t.hi.progress == 0x33) = true ∧
    runs .domainWindow (windows 7) (fun t => vget t.pwr.cb 3 false && t.hi.window == 8 && t.hi.progress == 0x37) = true ∧
    runs .domainWindow (windows 8) (fun t => t.pwr.xmi && t.hi.window == 9 && t.hi.progress == 0x38) = true := by decide +kernel
/-- Quadrant 2 runs its BIST; with or without the three others disabled. -/
def testing (off : Bool) : State :=
  { on with hi := { on.hi with bist := vput on.hi.bist 2 true, quadOff := Vector.replicate 4 off } }
/-- External memory is powered and trains. -/
def training : State := { on with hi := { on.hi with readiness := .memory }, xm := Xm.init }
theorem witness_BootDomains_ends : vget (testing false).hi.bist 2 false = true ∧ training.hi.readiness = .memory ∧ training.pwr.xmi = true ∧
    wfBoard training.fw.board = true ∧
    runs (.quadrantBistComplete 2 true) (testing true) (fun t => !vget t.hi.bist 2 true && !vget t.hi.quadOff 2 true) = true ∧
    runs (.quadrantBistComplete 2 false) (testing false) (fun t => vget t.hi.quadOff 2 false && !vget t.pwr.quad 2 true &&
      newsOf on t == [(0x0D83, .major)]) = true ∧
    runs (.quadrantBistComplete 2 false) (testing true) (fun t => t.hi.readiness == .failed && t.hi.progress == 0x82) = true ∧
    runs (.lpddrTrainingComplete 0xFD#8) training (fun t => t.xm.chanOk == 0xFD && t.xm.trained && t.hi.progress == 0x50 &&
      newsOf on t == [(0x0D86, .major)]) = true ∧
    runs (.lpddrTrainingComplete 0#8) training (fun t => t.hi.readiness == .failed && t.hi.progress == 0x83) = true ∧
    runs (.lpddrTrainingComplete 0xFF#8) { training with fw.board := ⟨3, 1, 2, 0⟩ } (fun t => t.hi.progress == 0x83 && t.xm.chanOk == 0) = true := by
  decide +kernel
/-- LINKS, with every port past its training, in the last slot. -/
def linked : State :=
  near { on with hi := { on.hi with readiness := .links },
                 hl := { on.hl with port := Vector.replicate 20 { Port.init with st := .absent } } }
theorem witness_BootReady : edgeNear linked = true ∧ readyNow linked = true ∧
    runs (.readyReached (2 ^ 33)) linked (fun t => t.hi.readiness == .ready && t.hi.progress == 0x60 && t.hi.bootUs == 2 ^ 32 - 1 &&
      (t.hi.raised.map (fun e => (e.code, e.beat))).contains (0x0D80, 5001)) = true := by decide +kernel
/-- A warm reset waits for the end of the round; there is a plan, a byte in the Comb and one in external memory. -/
def toReset : State :=
  { plan on .installed 1 with
    hi := { on.hi with warmDue := some 1, accessErr := 4 }, rj := journal.rj
    xm := { on.xm with mem := [(4, 7#8)] } }
theorem witness_WarmResets : alive toReset = true ∧ toReset.pwr.keeper = true ∧ toReset.hi.warmDue = some 1 ∧ keeperFree toReset = true ∧
    (∀ q, q < 4 → (quadAt toReset q).chunk = none) ∧
    runs .warmReset toReset (fun t => t.hi.warm == 1 && t.hi.readiness == .rom && (ctxAt t 0).st == .empty && t.xm.mem == [] &&
      t.rj.next == 3 && t.hi.accessErr == 4 && t.beat.num == 5000 && !t.pwr.keeper) = true ∧
    runs .keeperWatchdogExpiry toReset (fun t => t.hi.warm == 2 && newsOf toReset t == [(0x0D84, .major)]) = true ∧
    runs .lockstepMismatch toReset (fun t => t.hi.warm == 3 && newsOf toReset t == [(0x0D84, .major)]) = true := by decide +kernel
/-- Quadrant 1 has a reset due, a fault bit and an operation. -/
def faulty : State :=
  near { on with quad := vmod on.quad 1 (fun x =>
    { x with resetDue := true, jnFmt := true, jnPasses := 8, todo := [{ ctx := 0, adm := 0, op := .free 0, late := false }] }) }
theorem witness_QuadrantReset : edgeNear faulty = true ∧ (quadAt faulty 1).resetDue = true ∧ vget faulty.hi.quadOff 2 false = false ∧
    runs (.quadrantReset ⟨1, false⟩) faulty (fun t => (quadAt t 1).todo == [] && !(quadAt t 1).jnFmt && (quadAt t 1).jnPasses == 8 &&
      vget t.hi.quadRst 1 false && vget t.hi.bist 1 false) = true ∧
    runs (.quadrantReset ⟨2, true⟩) faulty (fun t => vget t.hi.quadRst 2 false && (quadAt t 1).todo.length == 1) = true ∧
    runs (.quadrantReset ⟨1, false⟩) { faulty with pwr.tripped := true } (fun t => !vget t.hi.bist 1 false && (quadAt t 1).todo == []) = true := by
  decide +kernel
theorem witness_ResetCommands : AtCommand (cmd on 0x710 0 []) 0x710 0 [] ∧ AtCommand (cmd on 0x711 1 [3#8]) 0x711 1 [3#8] ∧
    AtCommand (cmd on 0x711 1 [4#8]) 0x711 1 [4#8] ∧ 3 < leAt [4#8] 0 1 ∧ vget on.hi.quadOff 3 false = false ∧
    runs .resetWarm (cmd on 0x710 0 []) (fun t => answered t 0 0 [] && t.hi.warmDue == some 1) = true ∧
    runs .resetQuad (cmd on 0x711 1 [3#8]) (fun t => answered t 1 0 [] && (quadAt t 3).resetDue) = true ∧
    runs .resetQuad (cmd (testing true) 0x711 1 [3#8]) (fun t => answered t 1 0x30 []) = true ∧
    runs .resetQuad (cmd on 0x711 1 [4#8]) (fun t => answered t 1 0x20 []) = true :=
  ⟨at_of (by decide +kernel), at_of (by decide +kernel), at_of (by decide +kernel), by decide +kernel⟩
theorem witness_OnlyBeatRowsMoveTheBeat : movesBeat .flushNow = false ∧ (∃ t, exec .flushNow on = .next t) ∧
    ∃ t, exec (.beatEdge env) on = .next t := ⟨by decide, ⟨_, rfl⟩, ⟨_, rfl⟩⟩
theorem witness_BeatEdgesSlotsAndGuards : alive on = true ∧ on.beat.running = true ∧ (near on).beat.slot = 127 ∧ on.syn.bLocked = true ∧
    runs (.beatEdge env) { on with beat.running := false, beat.num := 9 } (fun t => t.beat.num == 0 && t.beat.running) = true ∧
    runs (.beatEdge env) { near on with beat.guard := true } (fun t => t.beat.num == 5001 && t.beat.slot == 0 && !t.beat.guard) = true ∧
    runs (.beatEdge env) { near on with beat.guard := true, beat.adopt := some 77 } (fun t => t.beat.num == 77) = true ∧
    runs .slotBoundary { on with beat.guard := true, beat.slot := 126 } (fun t => t.beat.slot == 127 && t.beat.num == 5000 && !t.beat.guard) = true ∧
    runs .slotGuardStart on (fun t => t.beat.guard && t.beat.slot == 0) = true ∧
    runs .slotGuardStart { on with syn.src := .gated, syn.skip := some 1 } (fun t => t.beat.guard && t.syn.skip == none) = true := by
  decide +kernel

/- Staged commands. -/

/-- The hypotheses of StageReady, as a check. -/
def stB (s : State) (op m : Nat) (p : List Byte) : Bool :=
  atB s op m p && stagedShape op p && (targetOf op p == 0 || decide (s.wg.round + (if op = 0x610 then 2 else 1) ≤ targetOf op p)) &&
    s.gr.staged == []

theorem stage_of {s : State} {op m : Nat} {p : List Byte} (h : stB s op m p = true) : StageReady s op m p := by
  simp only [stB, Bool.and_eq_true, Bool.or_eq_true, beq_iff_eq, decide_eq_true_eq] at h
  obtain ⟨⟨⟨h1, h2⟩, h3⟩, h4⟩ := h
  exact ⟨at_of h1, h2, h3, h4⟩

/-- The payload of a command on plan 7 with the target beat t. -/
def onPlan (t : Nat) : List Byte := leBytes 8 7 ++ leBytes 8 t
/-- The staged change stands alone, for that edge. -/
def stagedFor (t : State) (m op e : Nat) : Bool :=
  answered t m 1 [] && t.gr.staged.map (fun g => (g.alone, g.target, g.source)) == [(true, e, m)] &&
    t.gr.staged.map (fun g => g.phases.map (fun ph => ph.members.map (fun x => x.op))) == [[[op]]]
/-- A replacement phase, ready or not. -/
def phase (r : Bool) : ReplPhase := { banks := [(0, 1)], shadow := [(0, 1, 9)], ready := r }
/-- The plan's next phase is ready. -/
def phased (s : State) (r : Bool) : State := { s with cmb := { s.cmb with ctx := vmod s.cmb.ctx 0 (fun c => { c with phases := [phase r] }) } }
/-- An HIVE_ROSTER payload of a Hive of 8, in which every port names rank 0. -/
def members : List Byte := leBytes 12 0 ++ leBytes 2 8 ++ List.replicate 1122 0#8

theorem witness_StagedAlone_plans : StageReady (cmd (plan on .standby 1) 0x102 0 (onPlan 0)) 0x102 0 (onPlan 0) ∧
    StageReady (cmd (plan on .installed 1) 0x103 0 (onPlan 1)) 0x103 0 (onPlan 1) ∧
    StageReady (cmd (phased (plan on .installed 1) true) 0x106 1 (onPlan 0)) 0x106 1 (onPlan 0) ∧
    ctxOf (plan on .standby 1) (leAt (onPlan 0) 0 8) = some 0 ∧
    runs .planActivate (cmd (plan on .standby 1) 0x102 0 (onPlan 0)) (fun t => stagedFor t 0 0x102 2) = true ∧
    runs .planDeactivate (cmd (plan on .installed 1) 0x103 0 (onPlan 1)) (fun t => stagedFor t 0 0x103 1) = true ∧
    runs .planSwap (cmd (phased (plan on .installed 1) true) 0x106 1 (onPlan 0)) (fun t => stagedFor t 1 0x106 2) = true :=
  ⟨stage_of (by decide +kernel), stage_of (by decide +kernel), stage_of (by decide +kernel), by decide +kernel⟩
/-- Payloads of XM_SHARE with quotas of 1,024 in sum, of a flag, and of a power tolerance of the device. -/
def share : List Byte := [1#8, 0#8] ++ leBytes 2 1000 ++ leBytes 2 24 ++ leBytes 12 0
def flag (b : Nat) : List Byte := leBytes 16 b
theorem witness_StagedAlone_device : StageReady (cmd on 0x510 0 share) 0x510 0 share ∧ (quotasOf share).sum ≤ 1024 ∧
    StageReady (cmd on 0x601 0 (flag 0)) 0x601 0 (flag 0) ∧ StageReady (cmd on 0x602 0 (flag 1)) 0x602 0 (flag 1) ∧
    refValid on (refOfByte (leAt (flag 1) 0 1)) = true ∧ on.syn.refSel ≠ refOfByte (leAt (flag 1) 0 1) ∧ StageReady (cmd on 0x701 0 (leBytes 24 0)) 0x701 0 (leBytes 24 0) ∧
    StageReady (cmd on 0x610 2 (leBytes 8 2)) 0x610 2 (leBytes 8 2) ∧
    runs .xmShare (cmd on 0x510 0 share) (fun t => stagedFor t 0 0x510 2) = true ∧
    runs .beatMasterEn (cmd on 0x601 0 (flag 0)) (fun t => stagedFor t 0 0x601 2) = true ∧
    runs .refSelect (cmd on 0x602 0 (flag 1)) (fun t => stagedFor t 0 0x602 2 && t.syn.lrefOk && t.syn.hrefOk) = true ∧
    runs .pwrTolerance (cmd on 0x701 0 (leBytes 24 0)) (fun t => stagedFor t 0 0x701 2) = true ∧
    runs .hiveReset (cmd on 0x610 2 (leBytes 8 2)) (fun t => stagedFor t 2 0x610 2) = true :=
  ⟨stage_of (by decide +kernel), by decide +kernel, stage_of (by decide +kernel), stage_of (by decide +kernel), by decide +kernel,
    by decide +kernel, stage_of (by decide +kernel), stage_of (by decide +kernel), by decide +kernel⟩
/-- Both key slots are filled. -/
def keyed : State := { on with hl := { on.hl with keyCur := some (leBytes 32 1), keyNext := some (leBytes 32 2) } }
theorem witness_StagedAlone_hive : StageReady (cmd on 0x603 0 members) 0x603 0 members ∧ rosterOk (cmd on 0x603 0 members) members = true ∧
    StageReady (cmd keyed 0x605 0 (leBytes 8 0)) 0x605 0 (leBytes 8 0) ∧ keyInstalled (keyAhead keyed) = true ∧
    runs .hiveRoster (cmd on 0x603 0 members) (fun t => stagedFor t 0 0x603 2) = true ∧
    runs .hiveKeySwitch (cmd keyed 0x605 0 (leBytes 8 0)) (fun t => stagedFor t 0 0x605 2) = true :=
  ⟨stage_of (by decide +kernel), by decide +kernel, stage_of (by decide +kernel), by decide +kernel⟩
/-- The plan owns one stream table entry, in that state. -/
def streamed (s : State) (st : StreamSt) : State :=
  { s with cmb := { s.cmb with ctx := vmod s.cmb.ctx 0 (fun c => { c with rcsCount := 1, rcsBase := 5 }) }
           streams := [(5, { StreamEnt.init with st := st, g := 1, len := 2 })] }
/-- STREAM_CTL of stream 0 of plan 7 with an action. -/
def act (a : Nat) : List Byte := onPlan 0 ++ leBytes 1 0 ++ leBytes 1 a
/-- STREAM_CTL with an action on a stream in a state. -/
def ctl (a : Nat) (st : StreamSt) : State := cmd (streamed (plan on .installed 1) st) 0x110 0 (act a)
theorem witness_StagedHoldsAndStreams : StageReady (cmd on 0x202 0 (flag 1)) 0x202 0 (flag 1) ∧
    StageReady (cmd on 0x202 0 (flag 2)) 0x202 0 (flag 2) ∧ StageReady (cmd on 0x202 0 (flag 0)) 0x202 0 (flag 0) ∧
    StageReady (ctl 0 .running) 0x110 0 (act 0) ∧ leAt (act 0) 16 1 < (ctxAt (ctl 0 .running) 0).rcsCount ∧
    (streamAt (ctl 1 .paused) 5).st = .paused ∧ (streamAt (ctl 3 .ended) 5).st = .ended ∧ leAt (act 3) 17 1 = 3 ∧
    runs .synHoldFreeze (cmd on 0x202 0 (flag 1)) (fun t => stagedFor t 0 0x202 2) = true ∧
    runs .synHoldSafeClock (cmd on 0x202 0 (flag 2)) (fun t => stagedFor t 0 0x202 2) = true ∧
    runs .synHoldRelease (cmd { on with syn.hold := .freeze } 0x202 0 (flag 0)) (fun t => stagedFor t 0 0x202 2) = true ∧
    runs .synHoldRelease (cmd on 0x202 0 (flag 0)) (fun t => answered t 0 0x31 [] && t.gr.staged == []) = true ∧
    runs .streamCtlPause (ctl 0 .running) (fun t => stagedFor t 0 0x110 2) = true ∧
    runs .streamCtlResume (ctl 1 .paused) (fun t => stagedFor t 0 0x110 2) = true ∧
    runs .streamCtlReset (ctl 2 .idle) (fun t => stagedFor t 0 0x110 2) = true ∧
    runs .streamCtlEnd (ctl 3 .idle) (fun t => stagedFor t 0 0x110 2) = true ∧
    runs .streamCtlEnd (ctl 3 .ended) (fun t => answered t 0 0x31 [] && t.gr.staged == []) = true :=
  ⟨stage_of (by decide +kernel), stage_of (by decide +kernel), stage_of (by decide +kernel), stage_of (by decide +kernel), by decide +kernel⟩
theorem witness_StagedHoldsAndStreams_others : StageReady (ctl 1 .paused) 0x110 0 (act 1) ∧ StageReady (ctl 2 .idle) 0x110 0 (act 2) ∧
    StageReady (ctl 3 .ended) 0x110 0 (act 3) :=
  ⟨stage_of (by decide +kernel), stage_of (by decide +kernel), stage_of (by decide +kernel)⟩

/- The synthesiser. -/

/-- Profile 0 runs on PLL-C0 at 2.5 GHz; PLL-C1 is idle and does what is given. -/
def prof (fb : Nat) : Profile := { fallback := fb, icp := 10, band := 16, valid := true, d := 4, p := 1, n := 120, f := 0, kvco := 450, vtCal := 450 }
def clocks (x : LoopSt) : State :=
  { on with syn := { on.syn with
      src := .c0, profNow := 0, prof0 := [(0, prof 1), (1, prof 1)], prof1 := [(0, prof 1), (1, prof 1)]
      c0 := { LoopSt.init with ld := .locked, target := some 0 }, c1 := x } }
/-- A loop in the pre-lock of profile 1 for a purpose. -/
def prelock (why : LoopPurpose) : LoopSt := { LoopSt.init with ld := .acquire, target := some 1, purpose := why, slot := some 64, pre := true }
/-- A locked idle loop. -/
def idle : LoopSt := { LoopSt.init with ld := .locked, target := some 1, purpose := .standby }
theorem witness_SynthesiserEvents_flags : alive (clocks idle) = true ∧ (clocks idle).syn.b.ld ≠ .off ∧ activeLoop (clocks idle) = some .c0 ∧
    activeLoop (clocks (prelock .standby)) ≠ some .c1 ∧ (loopAt (clocks (prelock .standby)) .c1).ld = .acquire ∧
    (loopAt (clocks (prelock .standby)) .c1).pre = true ∧ (loopAt (clocks idle) .c1).ld = .locked ∧
    (loopAt (clocks idle) .c1).target = some 1 ∧ (loopAt (clocks { idle with highLive := true }) .c1).highLive = true ∧
    runs (.vtComplianceCrossing .b true) (clocks idle) (fun t => t.syn.b.highLive && t.syn.b.high && newsOf on t == [(0x0101, .major)]) = true ∧
    runs (.vtComplianceCrossing .c0 false) (clocks idle) (fun t => t.syn.c0.low && t.syn.c0.retarget == [(0, -1)] &&
      newsOf on t == [(0x0101, .major)]) = true ∧
    runs (.vtComplianceCrossing .c1 true) (clocks (prelock .standby)) (fun t => t.syn.c1.preFlag == some true &&
      newsOf on t == [(0x0107, .major)]) = true ∧
    runs (.vtComplianceCrossing .c1 true) (clocks idle) (fun t => t.syn.c1.retarget == [(1, 1)] && newsOf on t == [(0x0107, .major)]) = true ∧
    runs (.vtComplianceCrossing .c1 true) (clocks { idle with highLive := true }) (fun t => !t.syn.c1.highLive && newsOf on t == []) = true := by
  decide +kernel
/-- Four violations stand in the window of the active loop, and two losses within 1,000 beats are behind it or not. -/
def shaky (x : LoopSt) (past : List Nat) : State :=
  let s := clocks x
  { s with syn := { s.syn with
      c0 := { s.syn.c0 with viol := [1, 2, 3, 4], lolBeats := past }, b := { s.syn.b with viol := [9, 8, 7, 6] } } }
theorem witness_SynthesiserEvents_lock : (loopAt (shaky idle []) .c0).ld = .locked ∧ 4 ≤ (loopAt (shaky idle []) .c0).viol.length ∧
    ((shaky idle [4000]).beat.num :: [4000]).filter (fun b => decide (5000 < b + 1000)) = [5000] ∧
    activeLoop (shaky idle []) = some .c0 ∧ (loopAt (clocks (prelock .base)) .c1).ld = .acquire ∧
    (profWant (clocks (prelock .base)) .c1 1).valid = true ∧
    runs (.phaseWindowViolation .c0 300) (shaky idle []) (fun t => t.syn.c0.viol == [300] && t.syn.violCnt == 1) = true ∧
    runs (.lossOfLock .b) (shaky idle []) (fun t => t.syn.holdover && t.syn.b.ld == .acquire && newsOf on t == [(0x0105, .critical)]) = true ∧
    runs (.lossOfLock .c0) (shaky idle [4000]) (fun t => t.syn.src == .c1 && t.syn.profNow == 1 && t.syn.hopCnt == 1 &&
      newsOf on t == [(0x0103, .major)]) = true ∧
    runs (.lossOfLock .c0) (shaky (prelock .standby) []) (fun t => t.syn.src == .safe && newsOf on t == [(0x0104, .critical)]) = true ∧
    runs (.lossOfLock .c0) { shaky idle [] with syn.src := .gated, syn.parkSrc := .c0 } (fun t => t.syn.src == .gated && t.syn.parkSrc == .c1) = true ∧
    runs (.lockAcquired ⟨.c1, 500⟩) (clocks (prelock .base)) (fun t => t.syn.c1.ld == .locked && t.syn.baseSwapDue &&
      (profWant t .c1 1).vtCal == 500) = true ∧
    runs (.lockAcquired ⟨.c1, 500⟩) (clocks (prelock .fallbackHop)) (fun t => t.syn.lateSwap == some 1) = true := by decide +kernel
/-- A third loss in 1,000 beats takes the loop out of service. -/
theorem test_third_loss : runs (.lossOfLock .c0) (shaky idle [4999, 4001]) (fun t => t.syn.c0.out &&
    newsOf on t == [(0x0108, .critical), (0x0103, .major)]) = true := by decide +kernel
/-- The two loops of the next statement, with its pre-lock over time. -/
def late (x : LoopSt) : State := clocks x
theorem witness_PrelockTimeouts : alive (late (prelock .hop)) = true ∧ Loop.c1 ≠ .b ∧ (loopAt (late (prelock .hop)) .c1).ld = .acquire ∧
    (loopAt (late (prelock .hop)) .c1).target = some 1 ∧ (loopAt (late (prelock .hop)) .c1).pre = true ∧
    activeLoop (late (prelock .hop)) ≠ some .c1 ∧ preFlagOf (loopAt (late (prelock .hop)) .c1) = none ∧
    (loopAt (late (prelock .hop)) .c1).stepped = none ∧ preFlagOf { prelock .hop with lowLive := true, highLive := true } = some false ∧
    (profWant (late (prelock .hop)) .c1 1).valid = true ∧
    runs (.prelockTimeout .c1) (late { prelock .hop with highLive := true }) (fun t => t.syn.c1.stepped == some 16 &&
      (profWant t .c1 1).band == 17 && t.syn.c1.pre && newsOf on t == []) = true ∧
    runs (.prelockTimeout .c1) (late { prelock .hop with lowLive := true, highLive := true }) (fun t => (profWant t .c1 1).band == 15) = true ∧
    runs (.prelockTimeout .c1) (late (prelock .standby)) (fun t => t.syn.c1.ld == .failed && newsOf on t == []) = true ∧
    runs (.prelockTimeout .c1) (late (prelock .hop)) (fun t => t.syn.cancel == 1 && t.syn.skip == some 64 && t.syn.src == .c0 &&
      newsOf on t == [(0x0102, .major)]) = true ∧
    runs (.prelockTimeout .c1) (late (prelock .base)) (fun t => t.syn.c1.ld == .failed && t.syn.c1.purpose == .base &&
      newsOf on t == [(0x0102, .major)]) = true ∧
    runs (.prelockTimeout .c1) (late { prelock .base with target := some 0 }) (fun t => t.syn.c1.ld == .acquire &&
      t.syn.c1.target == some 1 && t.syn.c1.purpose == .baseFallback && newsOf on t == []) = true ∧
    runs (.prelockTimeout .c1) (late (prelock .baseFallback)) (fun t => t.syn.c1.purpose == .base && newsOf on t == [(0x0102, .major)]) = true ∧
    runs (.prelockTimeout .c1) (late (prelock .fallbackHop)) (fun t => t.syn.src == .c0 && newsOf on t == []) = true ∧
    runs (.prelockTimeout .c1) (late { prelock .standby with stepped := some 20 }) (fun t => (profWant t .c1 1).band == 20 &&
      t.syn.c1.ld == .failed && t.syn.c1.stepped == none && newsOf on t == [(0x0109, .major)]) = true := by decide +kernel

/- The phase of the Hive, and calibrations. -/

/-- The beat generator of a member in a phase state. -/
def hive (st : PState) (f : Beat → Beat) : State := let s := wired on; { s with beat := f { s.beat with pstate := st } }
/-- The last marker of the parent, rank 2, on port 3: number 700 at the present edge. -/
def marker : MarkerSt := { MarkerSt.init with beat := 700, beatEdge := 5000, sender := 2, master := 1, hops := 0, edgeSeen := 5000, valid := true }
/-- A member in ACQUIRE or TRACK of master 1 behind rank 2. -/
def behind (st : PState) (m : MarkerSt) (mine : Nat) : State :=
  hive st (fun b => { b with parent := some 2, masterRank := 1, hops := mine, gathered := 64, markers := vput b.markers 3 m })
theorem witness_HivePhaseEvents : alive (behind .acquire marker 1) = true ∧ (behind .acquire marker 1).beat.pstate = .acquire ∧
    noInstance (behind .acquire marker 1) = true ∧ parentMarkers (behind .acquire marker 1) = [marker] ∧
    parentLostNow (behind .track marker 0) = true ∧ parentLostNow (behind .track marker 1) = false ∧
    runs (.portExclusionLimit 3) (hive .track (fun b => { b with portxRun := vput b.portxRun 3 64 })) (fun t =>
      newsOf on t == [(0x020B, .minor)]) = true ∧
    runs .seekTimeout (hive .seek (fun b => { b with waitEdges := 64, ownRank := 5 })) (fun t => t.beat.pstate == .master &&
      t.beat.masterRank == 5 && t.beat.hops == 0 && newsOf on t == [(0x0207, .minor)]) = true ∧
    runs .coarseJump (behind .acquire marker 1) (fun t => t.beat.pstate == .track && t.beat.adopt == some 701 &&
      t.beat.jumps == 1 && newsOf on t == [(0x0208, .minor)]) = true ∧
    runs .parentLost (behind .track marker 0) (fun t => t.beat.pstate == .hold && t.beat.hops == 31 && t.beat.prevHops == 0 &&
      newsOf on t == [(0x0206, .major)]) = true ∧
    runs .holdTimeout (hive .hold (fun b => { b with waitEdges := 64 })) (fun t => t.beat.pstate == .seek && t.beat.waitEdges == 0) = true ∧
    runs .rateLimitExceeded (hive .track (fun b => { b with rateRun := 64, inPhase := true })) (fun t => !t.beat.inPhase &&
      newsOf on t == [(0x020A, .major)]) = true := by decide +kernel
/-- A master in holdover for 1,024 beats. -/
def master : State := let s := hive .master (fun b => b); { s with syn := { s.syn with holdover := true, holdBeats := 1024 } }
theorem witness_HivePhaseEvents_master : master.beat.pstate = .master ∧ master.syn.holdover = true ∧ 1024 ≤ master.syn.holdBeats ∧
    runs .masterHoldoverTimeout master (fun t => t.beat.pstate == .seek && t.beat.steppedDown && newsOf on t == [(0x0207, .minor)]) = true := by
  decide +kernel
/-- Slot 1 is a guaranteed Understory slot of the idle table; port 3 is up and channel 7 works. -/
def quiet (x : LoopSt) : State := let s := wired (clocks x); { s with beat := { s.beat with slot := 1 } }
/-- A target in a state of its own. -/
def target (s : State) (c : CalTarget) (f : CalSt → CalSt) : State := { s with us := { s.us with cal := [(c, f CalSt.init)] } }
/-- Its run is in progress, after some failures. -/
def running (s : State) (c : CalTarget) (n : Nat) : State := target s c (fun x => { x with running := true, failRun := n })
theorem witness_CalibrationRuns_run : AtCommand (cmd (quiet idle) 0x201 0 [0#8, 2#8]) 0x201 0 [0#8, 2#8] ∧
    AtCommand (cmd (quiet idle) 0x201 0 [2#8, 1#8]) 0x201 0 [2#8, 1#8] ∧ AtCommand (cmd (quiet idle) 0x201 0 [3#8, 0#8]) 0x201 0 [3#8, 0#8] ∧
    calAllowed (quiet idle) 0 2 = true ∧ calAllowed (quiet idle) 2 1 = false ∧ 3 < 256 ∧
    runs .synCalRun (cmd (quiet idle) 0x201 0 [0#8, 2#8]) (fun t => answered t 0 0 [] && (calAt t ⟨0, 2, 0⟩).due && (calAt t ⟨0, 2, 1⟩).due) = true ∧
    runs .synCalRun (cmd (quiet idle) 0x201 0 [2#8, 1#8]) (fun t => answered t 0 0x30 []) = true ∧
    runs .synCalRun (cmd (quiet idle) 0x201 0 [3#8, 0#8]) (fun t => answered t 0 0x20 []) = true :=
  ⟨at_of (by decide +kernel), at_of (by decide +kernel), at_of (by decide +kernel), by decide +kernel⟩
/-- A lane of port 3, a profile of PLL-C1, and a byte lane of channel 7. -/
def lane : CalTarget := ⟨3, 3, 4⟩
def band : CalTarget := ⟨0, 2, 1⟩
def byteLane : CalTarget := ⟨4, 7, 3⟩
theorem witness_CalibrationRuns_start : alive (quiet idle) = true ∧ (quiet idle).hi.fwRuns = true ∧ (quiet idle).beat.running = true ∧
    (quiet idle).beat.guard = false ∧ descGuaranteed (descAt (quiet idle) 1) = true ∧
    (∀ c ∈ [lane, band, byteLane], calExists (quiet idle) c = true ∧ calFree (quiet idle) c = true ∧ calBusy (quiet idle) c = false ∧
      calHeld (quiet idle) c = false ∧ calIsDue (target (quiet idle) c (fun x => { x with due := true })) c = true) ∧
    laneOverride (target (quiet idle) lane (fun x => { x with override := some 9 })) lane = true ∧
    (portAt (quiet idle) 3).spared = none ∧
    runs (.calibrationStart band) (target (quiet idle) band (fun x => { x with due := true })) (fun t =>
      (calAt t band).running && !(calAt t band).due && t.hl.port == (quiet idle).hl.port) = true ∧
    runs (.calibrationStart lane) (target (quiet idle) lane (fun x => { x with due := true })) (fun t =>
      (calAt t lane).running && (portAt t 3).laneTx == some (4, false)) = true := by decide +kernel
theorem witness_CalibrationRuns_pass : (calAt (running (quiet idle) band 3) band).running = true ∧
    calStranded (running (quiet idle) band 3) band = false ∧ calStranded (running (quiet idle) ⟨0, 1, 0⟩ 0) ⟨0, 1, 0⟩ = true ∧
    calMeets band true (299 + 1024 * 400) = true ∧ calMeets band true 600 = true ∧ calMeets band true (299 + 1024 * 249) = false ∧
    inService (quiet idle) .c1 = true ∧
    runs (.calibrationComplete band true (299 + 1024 * 400)) (running (quiet idle) band 3) (fun t => (profWant t .c1 1).band == 15 &&
      (profWant t .c1 1).vtCal == 400 && (calAt t band).failRun == 0 && !(calAt t band).running) = true ∧
    runs (.calibrationComplete band true 600) (running (quiet idle) band 3) (fun t => (profWant t .c1 1).band == 16 &&
      (profWant t .c1 1).vtCal == 600) = true ∧
    runs (.calibrationComplete ⟨0, 1, 0⟩ true 600) (running (quiet idle) ⟨0, 1, 0⟩ 0) (fun t => (calAt t ⟨0, 1, 0⟩).due &&
      !(calAt t ⟨0, 1, 0⟩).running) = true ∧
    runs (.calibrationComplete ⟨1, 2, 0⟩ true 500) (running (quiet idle) ⟨1, 2, 0⟩ 0) (fun t => kvcoOf t .c1 16 == 500 &&
      (profWant t .c1 1).kvco == 500) = true ∧
    runs (.calibrationComplete ⟨2, 0, 0⟩ true 9) (running (quiet idle) ⟨2, 0, 0⟩ 0) (fun t => t.syn.interpDue == [(0, 1), (1, -1)]) = true ∧
    runs (.calibrationComplete lane true 77) (running (quiet idle) lane 0) (fun t => (calAt t lane).value == 77) = true ∧
    runs (.calibrationComplete byteLane true 70) (running (quiet idle) byteLane 0) (fun t => (calAt t byteLane).target == some 6) = true ∧
    runs (.calibrationComplete lane false 0) (target (quiet idle) lane (fun x => { x with running := true, override := some 9 })) (fun t =>
      (calAt t lane).value == 9 && newsOf on t == []) = true := by decide +kernel
theorem witness_CalibrationRuns_fail : calMeets band false 0 = false ∧ (calAt (running (quiet idle) band 7) band).failRun = 7 ∧
    (calAt (running (quiet idle) band 7) band).override = none ∧
    runs (.calibrationComplete band false 0) (running (quiet idle) band 7) (fun t => (calAt t band).failRun == 8 &&
      (profWant t .c1 1).band == 16 && newsOf on t == [(0x0106, .minor), (0x1103, .major)]) = true ∧
    runs (.calibrationComplete lane false 0) (running (quiet idle) lane 0) (fun t => newsOf on t == [(0x1102, .minor)]) = true := by
  decide +kernel
/-- Presence is proved and the seal is intact. -/
def proved (s : State) : State := { s with gr := { s.gr with sealOk := true, qualified := true, okRun := 8 } }
/-- CAL_OVERRIDE of profile 1 of PLL-C1's band with a value, and its release. -/
def override (kind release v : Nat) : List Byte := [BitVec.ofNat 8 kind, 2#8, 1#8, BitVec.ofNat 8 release] ++ leBytes 4 v
theorem witness_CalibrationRuns_override : AtCommand (cmd (proved (quiet idle)) 0x905 0 (override 0 0 31)) 0x905 0 (override 0 0 31) ∧
    AtCommand (cmd (proved (quiet idle)) 0x905 0 (override 0 1 31)) 0x905 0 (override 0 1 31) ∧
    AtCommand (cmd (proved (quiet idle)) 0x905 0 (override 0 0 32)) 0x905 0 (override 0 0 32) ∧
    AtCommand (cmd (quiet idle) 0x905 0 (override 0 0 31)) 0x905 0 (override 0 0 31) ∧
    presenceCheck (proved (quiet idle)) false = none ∧ presenceCheck (quiet idle) false = some 0x23 ∧
    overrideCheck (quiet idle) (override 0 0 31) = 0 ∧ overrideCheck (quiet idle) (override 0 1 31) = 0 ∧
    overrideCheck (quiet idle) (override 0 0 32) = 0x20 ∧
    runs .calOverrideSet (cmd (proved (quiet idle)) 0x905 0 (override 0 0 31)) (fun t => answered t 0 0 [] &&
      (calAt t band).override == some 31) = true ∧
    runs .calOverrideRelease (cmd (proved (target (quiet idle) band (fun x => { x with override := some 31 }))) 0x905 0 (override 0 1 31))
      (fun t => answered t 0 0 [] && (calAt t band).override == none) = true ∧
    runs .calOverrideSet (cmd (proved (quiet idle)) 0x905 0 (override 0 0 32)) (fun t => answered t 0 0x20 []) = true ∧
    runs .calOverrideSet (cmd (quiet idle) 0x905 0 (override 0 0 31)) (fun t => answered t 0 0x23 []) = true :=
  ⟨at_of (by decide +kernel), at_of (by decide +kernel), at_of (by decide +kernel), at_of (by decide +kernel), by decide +kernel⟩

/- Staged changes at their edge, and grafts. -/

/-- A change of one graftable command is staged for edge 5001. -/
def change (op : Nat) (p : List Byte) : Graft :=
  { seq := 1, source := 0, cls := .operational, alone := true, target := 5001, waitLimit := 10000,
    phases := [{ first := 0, members := [{ op := op, payload := p, group := 0 }], waits := false, off := 0 }], total := 1, next := 0,
    shift := 0, count := 1 }
/-- It is due in the last slot. -/
def due (s : State) (op : Nat) (p : List Byte) : State := near { s with gr := { s.gr with staged := [change op p] } }
theorem due_alone (s : State) (op : Nat) (p : List Byte) (h : edgeNear (near s) = true) (k : edgeNum (near s) = 5001) :
    AloneDue (due s op p) op p (change op p) := ⟨h, rfl, rfl, rfl, by
      show Graft.nextEdge (change op p) ≤ edgeNum (near s)
      rw [k]; exact Nat.le_refl _⟩
/-- The change has been applied: the list is empty, GR_APPLIED counts it, and so says the event and the journal. -/
def applied (t : State) : Bool :=
  t.gr.staged == [] && t.gr.applied == 1 && (newsOf on t).contains (0x0F01, .info) &&
    t.rj.ent.map (fun e => (e.source, e.op, e.outcome, e.link, e.effect)) == [(8, 0x302, 0, 1, 5001)]
theorem witness_StagedChangesApply : AloneDue (due on 0x510 share) 0x510 share (change 0x510 share) ∧
    AloneDue (due on 0x601 (flag 0)) 0x601 (flag 0) (change 0x601 (flag 0)) ∧
    AloneDue (due (clocks (prelock .fallbackHop)) 0x202 (flag 1)) 0x202 (flag 1) (change 0x202 (flag 1)) ∧
    AloneDue (due (plan on .installed 1) 0x103 (onPlan 0)) 0x103 (onPlan 0) (change 0x103 (onPlan 0)) ∧
    ctxOf (due (plan on .installed 1) 0x103 (onPlan 0)) 7 = some 0 ∧
    runs .graftPhaseApply (due on 0x510 share) (fun t => applied t && t.xm.quota == #v[1000, 24, 0, 0] && t.xm.fixed) = true ∧
    runs .graftPhaseApply (due on 0x601 (flag 0)) (fun t => applied t && !t.beat.masterEn && t.beat.pstate == .solo) = true ∧
    runs .graftPhaseApply (due master 0x601 (flag 0)) (fun t => applied t && !t.beat.masterEn && t.beat.pstate == .seek) = true ∧
    runs .graftPhaseApply (due (clocks (prelock .fallbackHop)) 0x202 (flag 1)) (fun t => applied t && t.syn.hold == .freeze &&
      t.syn.c1.purpose == .none && t.syn.c1.ld == .acquire) = true ∧
    runs .graftPhaseApply (due (plan on .installed 1) 0x103 (onPlan 0)) (fun t => applied t && (ctxAt t 0).st == .draining) = true ∧
    runs .graftPhaseApply (due (plan on .standby 1) 0x103 (onPlan 0)) (fun t => t.gr.abandoned == 1 && (ctxAt t 0).st == .standby &&
      newsOf on t == [(0x0F02, .major)] && t.rj.ent.map (fun e => e.outcome) == [0x31]) = true :=
  ⟨due_alone _ _ _ rfl rfl, due_alone _ _ _ rfl rfl, due_alone _ _ _ rfl rfl, due_alone _ _ _ rfl rfl, by decide +kernel⟩
/-- A graft whose phase waits for a plan that drains, with that wait limit. -/
def waiting (n : Nat) : State :=
  near { plan on .draining 1 with gr := { on.gr with staged := [{ change 0x102 (onPlan 0) with
    target := 4000, waitLimit := n
    phases := [{ first := 0, members := [{ op := 0x102, payload := onPlan 0, group := 0 }], waits := true, off := 0 }] }] } }
theorem witness_StagedChangesApply_wait : edgeNear (waiting 1001) = true ∧
    [{ op := 0x102, payload := onPlan 0, group := 0 }].all (memberReady (waiting 1001)) = false ∧
    4000 + 1001 ≤ edgeNum (waiting 1001) ∧ edgeNum (waiting 1002) < 4000 + 1002 ∧
    runs .graftWaitLimit (waiting 1001) (fun t => t.gr.staged == [] && t.gr.abandoned == 1 && newsOf on t == [(0x0F02, .major)] &&
      t.rj.ent.map (fun e => e.outcome) == [0x31]) = true ∧
    runs .graftWaitLimit (waiting 1002) (fun t => t.gr.staged.length == 1 && t.gr.abandoned == 0) = true := by decide +kernel
theorem witness_HiveResetApplies :
    AloneDue (due (busy (plan on .installed 1)) 0x610 (leBytes 8 0)) 0x610 (leBytes 8 0) (change 0x610 (leBytes 8 0)) ∧
    runs .graftPhaseApply (due (busy (plan on .installed 1)) 0x610 (leBytes 8 0)) (fun t => t.hi.hiveRst && (ctxAt t 0).insts == [] &&
      (ctxAt t 0).st == .installed && t.gr.staged == []) = true := ⟨due_alone _ _ _ rfl rfl, by decide +kernel⟩

/-- One XM_SHARE member, and one that fails: an activation of an unknown plan. -/
def stage1 : List Byte := leBytes 2 0 ++ leBytes 2 1 ++ leBytes 4 0 ++ leBytes 2 0x510 ++ leBytes 2 18 ++ share
def stage2 : List Byte := leBytes 2 0 ++ leBytes 2 1 ++ leBytes 4 0 ++ leBytes 2 0x102 ++ leBytes 2 16 ++ onPlan 0
def shareMember : Member := { op := 0x510, payload := share, group := 0 }
/-- Mailbox 0 has an open graft of that member. -/
def building : State :=
  { on with gr := { on.gr with opened := vput on.gr.opened 0 (some { members := [shareMember], waitLimit := 10000, groups := 1 }) } }
/-- GRAFT_COMMIT for a target edge. -/
def commit (e check : Nat) : List Byte := leBytes 8 e ++ leBytes 1 check
theorem witness_GraftsBuildAndCommit : AtCommand (cmd on 0x301 0 stage1) 0x301 0 stage1 ∧ AtCommand (cmd on 0x301 0 stage2) 0x301 0 stage2 ∧
    AtCommand (cmd building 0x302 0 (commit 2 0)) 0x302 0 (commit 2 0) ∧ stagedMembers stage1 0 = some [shareMember] ∧
    vget on.gr.opened 0 none = none ∧ judgeMembers on (projected on none) [shareMember] = [0] ∧
    judgeMembers on (projected on none) [{ op := 0x102, payload := onPlan 0, group := 0 }] = [0x30] ∧
    on.wg.round + 2 ≤ 2 ∧ (graftPhases building { members := [shareMember], waitLimit := 10000, groups := 1 } 2).isSome = true ∧
    runs .graftStage (cmd on 0x301 0 stage1) (fun t => answered t 0 0 (statusBytes 0 [0]) &&
      (vget t.gr.opened 0 none).map (fun o => o.members) == some [shareMember]) = true ∧
    runs .graftStage (cmd on 0x301 0 stage2) (fun t => answered t 0 0x30 (statusBytes 0 [0x30]) && vget t.gr.opened 0 none == none) = true ∧
    runs .graftCommit (cmd building 0x302 0 (commit 2 0)) (fun t => (mbAt t 0).code == 1 && vget t.gr.opened 0 none == none &&
      t.gr.staged.map (fun g => (g.target, g.total, g.alone)) == [(2, 1, false)]) = true ∧
    runs .graftCommit (cmd building 0x302 0 (commit 2 1)) (fun t => (mbAt t 0).code == 0 && t.gr.staged == []) = true :=
  ⟨at_of (by decide +kernel), at_of (by decide +kernel), at_of (by decide +kernel), by decide +kernel⟩
theorem witness_GraftsBuildAndCommit_abort : AtCommand (cmd building 0x303 0 (leBytes 8 0)) 0x303 0 (leBytes 8 0) ∧
    AtCommand (cmd (due on 0x510 share) 0x303 1 (leBytes 8 1)) 0x303 1 (leBytes 8 1) ∧
    (due on 0x510 share).gr.staged.find? (fun g => g.seq == leAt (leBytes 8 1) 0 8) = some (change 0x510 share) ∧
    runs .graftAbort (cmd building 0x303 0 (leBytes 8 0)) (fun t => answered t 0 0 [] && vget t.gr.opened 0 none == none) = true ∧
    runs .graftAbort (cmd (due on 0x510 share) 0x303 1 (leBytes 8 1)) (fun t => answered t 1 0x40 [] && t.gr.staged.length == 1) = true ∧
    runs .graftAbort (cmd (due on 0x510 share) 0x303 2 (leBytes 8 1)) (fun t => answered t 2 0 [] && t.gr.staged == []) = true :=
  ⟨at_of (by decide +kernel), at_of (by decide +kernel), by decide +kernel⟩
/-- The open graft holds TOGETHER an activation and a deactivation of one plan, which no phase can hold. -/
def torn : OpenGraft := { members := [{ op := 0x103, payload := onPlan 0, group := 0 }, { op := 0x102, payload := onPlan 0, group := 0 }],
                          waitLimit := 10000, groups := 1 }
theorem witness_GraftsBuildAndCommit_torn : graftPhases (plan on .installed 1) torn 2 = none ∧
    judgeMembers (plan on .installed 1) (projected (plan on .installed 1) (some 2)) torn.members = [0, 0] ∧
    runs .graftCommit (cmd { plan on .installed 1 with gr := { on.gr with opened := vput on.gr.opened 0 (some torn) } } 0x302 0 (commit 2 0))
      (fun t => answered t 0 0x33 [] && t.gr.notAtomic == 1) = true := by decide +kernel

/- Plans. -/

/-- A PLAN_LOAD payload: one page of 4 KiB at 64 KiB. -/
def load : List Byte := leBytes 4 1 ++ leBytes 4 0 ++ leBytes 8 0x10000 ++ leBytes 8 0x1000
/-- An image of no sections whose digest is that of no bytes, and one whose digest is wrong. -/
def digest0 : Nat := 0x55b852781b9995a44c939b64e441ae2724b96f99c8f4fb9a141cfc9842c4b0e3
def bare : PlanSource := { bytes := List.replicate 64 0#8 ++ leBytes 32 digest0 ++ List.replicate 32 0#8, progs := [] }
def wrong : PlanSource := { bytes := List.replicate 128 0#8, progs := [] }
/-- Keeper waits for the read of an image. -/
def dma (s : State) (w : CmdWait) : State := { s with wg := { s.wg with wait := w } }
theorem witness_PlanLoads : AtCommand (cmd on 0x101 0 load) 0x101 0 load ∧ AtCommand (cmd on 0x101 0 (leBytes 8 0)) 0x101 0 (leBytes 8 0) ∧
    AtDma (dma (cmd on 0x101 0 load) .dmaLoad) .dmaLoad 0x101 0 load ∧ scatterOk load 8 (leAt load 0 4) = true ∧ dmaUp on = true ∧
    lostTo (cmd on 0x101 0 load) [.plan (imgPlanId bare.bytes)] = none ∧ dmaUp { on with hi.bme := false } = false ∧
    runs (.planLoad none) (cmd on 0x101 0 (leBytes 8 0)) (fun t => answered t 0 0x20 []) = true ∧
    runs (.planLoad none) (cmd on 0x101 0 load) (fun t => t.wg.wait == .dmaLoad && (mbAt t 0).st == .busy) = true ∧
    runs (.planLoad (some bare)) (cmd on 0x101 0 load) (fun t => answered t 0 0x20 []) = true ∧
    runs (.dmaReadComplete bare) (dma (cmd on 0x101 0 load) .dmaLoad) (fun t => answered t 0 0x20 [] && t.wg.wait == .none) = true :=
  ⟨at_of (by decide +kernel), at_of (by decide +kernel), ⟨rfl, rfl, at_of (by decide +kernel)⟩, by decide +kernel⟩
/-- A plan of that image is loading in context 0. -/
def fetching (src : PlanSource) : State :=
  { on with cmb := { on.cmb with fetch := some 0, ctx := vput on.cmb.ctx 0 { PlanCtx.init with planId := 7, st := .loading, src := some src } } }
/-- It brings one page of weights, the first of plan bank 0, which stands in bank 9; so many of its 64 transfers have been made. -/
def weights (n : Nat) : State :=
  let l : List Byte := leBytes 6 0 ++ leBytes 2 1 ++ leBytes 56 0 ++ leBytes 32 0 ++ leBytes 32 0 ++
    leBytes 2 4 ++ leBytes 2 0 ++ leBytes 4 4100 ++ leBytes 8 144 ++ leBytes 4 0
  let s := fetching { bytes := l, progs := [] }
  { s with cmb := { s.cmb with fill := [(9 * 1536, n)], ctx := vmod s.cmb.ctx 0 (fun c => { c with bankMap := [(0, 9)] }) } }
theorem witness_PlanFetchEnds_early : (ctxAt (weights 63) 0).src.isSome = true ∧ fetchFull (weights 63) = false ∧
    fetchFull (weights 64) = true := by decide +kernel
theorem witness_PlanFetchEnds : alive (fetching bare) = true ∧ (fetching bare).cmb.fetch = some 0 ∧ (fetching bare).cmb.fetchRepl = false ∧
    (ctxAt (fetching bare) 0).src = some bare ∧ fetchFull (fetching bare) = true ∧ (fetching bare).cmb.poison = [] ∧
    fetchOk (ctxsWhere (fetching bare) (fun _ c => c.st.resident)) (ctxAt (fetching bare) 0) bare 0 = true ∧
    fetchOk (ctxsWhere (fetching wrong) (fun _ c => c.st.resident)) (ctxAt (fetching wrong) 0) wrong 0 = false ∧
    runs .planFetchComplete (fetching bare) (fun t => (ctxAt t 0).st == .standby && (ctxAt t 0).loadPct == 100 && t.cmb.fetch == none &&
      newsOf on t == [(0x0301, .info)]) = true ∧
    runs .planFetchComplete (fetching wrong) (fun t => ctxAt t 0 == .init && t.cmb.fetch == none && newsOf on t == [(0x0302, .major)]) = true ∧
    runs .dmaReadError (fetching bare) (fun t => ctxAt t 0 == .init && newsOf on t == [(0x0302, .major)]) = true ∧
    runs .dmaCompletionTimeout (fetching bare) (fun t => ctxAt t 0 == .init && newsOf on t == [(0x0302, .major)]) = true := by decide +kernel
theorem witness_PlanLifeCommands : AtCommand (cmd (plan on .standby 1) 0x104 0 (leBytes 8 7)) 0x104 0 (leBytes 8 7) ∧
    AtCommand (cmd on 0x104 0 (leBytes 8 8)) 0x104 0 (leBytes 8 8) ∧ ctxOf on 8 = none ∧ ctxOf (plan on .standby 1) 7 = some 0 ∧
    AtCommand (cmd on 0x107 0 [1#8]) 0x107 0 [1#8] ∧ residents on = [] ∧ residents (plan on .standby 1) ≠ [] ∧
    runs .planUnload (cmd (fetching bare) 0x104 0 (leBytes 8 7)) (fun t => answered t 0 0 [] && (ctxAt t 0).st == .unloading && t.cmb.fetch == none) = true ∧
    runs .planUnload (cmd (plan on .installed 1) 0x104 0 (leBytes 8 7)) (fun t => answered t 0 0x31 [] && (ctxAt t 0).st == .installed) = true ∧
    runs .planUnload (cmd (plan on .unloading 1) 0x104 0 (leBytes 8 7)) (fun t => answered t 0 0x31 []) = true ∧
    runs .planUnload (cmd on 0x104 0 (leBytes 8 8)) (fun t => answered t 0 0x30 []) = true ∧
    runs .planFitmode (cmd on 0x107 0 [1#8]) (fun t => answered t 0 0 [] && t.cmb.rotate) = true ∧
    runs .planFitmode (cmd (plan on .standby 1) 0x107 0 [1#8]) (fun t => answered t 0 0x31 [] && !t.cmb.rotate) = true :=
  ⟨at_of (by decide +kernel), at_of (by decide +kernel), by decide +kernel, by decide +kernel, at_of (by decide +kernel), by decide +kernel⟩
/-- PLAN_REPLACE of plan 7 with so many scatter entries. -/
def replace (n : Nat) : List Byte := leBytes 8 7 ++ leBytes 4 n ++ leBytes 4 0 ++ (List.replicate n (leBytes 8 0x10000 ++ leBytes 8 0x1000)).flatten
/-- A phase whose shadow bank is reserved is being fetched from an image of no sections. -/
def replacing : State :=
  let s := phased (plan on .installed 1) false
  { s with cmb := { s.cmb with
      fetch := some 0, fetchRepl := true, ctx := vmod s.cmb.ctx 0 (fun c => { c with replSrc := some bare }) } }
theorem witness_PlanLifeCommands_replace : AtCommand (cmd (phased (plan on .installed 1) true) 0x105 0 (replace 0)) 0x105 0 (replace 0) ∧
    AtCommand (cmd (plan on .installed 1) 0x105 0 (replace 1)) 0x105 0 (replace 1) ∧ scatterOk (replace 1) 16 1 = true ∧
    AtDma (dma (cmd (plan on .installed 1) 0x105 0 (replace 1)) .dmaRepl) .dmaRepl 0x105 0 (replace 1) ∧
    fetchBusy (plan on .installed 1) = false ∧ (ctxAt replacing 0).phases = [phase false] ∧ (phase false).shadow.length = (phase false).banks.length ∧
    fetchFull replacing = true ∧ imgDigestOk bare.bytes = true ∧ phaseTilesOk (ctxAt replacing 0) bare (phase false) = true ∧
    edgeNear (near { plan on .draining 1 with beat.guard := true }) = true ∧
    runs (.planReplace none) (cmd (phased (plan on .installed 1) true) 0x105 0 (replace 0)) (fun t => (mbAt t 0).code == 0 && (ctxAt t 0).phases == []) = true ∧
    runs (.planReplace none) (cmd (plan on .installed 1) 0x105 0 (replace 1)) (fun t => t.wg.wait == .dmaRepl) = true ∧
    runs (.planReplace (some bare)) (cmd (plan on .installed 1) 0x105 0 (replace 1)) (fun t => answered t 0 0x20 []) = true ∧
    runs (.dmaReadComplete bare) (dma (cmd (plan on .installed 1) 0x105 0 (replace 1)) .dmaRepl) (fun t => answered t 0 0x20 []) = true ∧
    runs (.replacePhaseReady 0) replacing (fun t => (ctxAt t 0).phases == [phase true] && t.cmb.fetch == none &&
      newsOf on t == [(0x0303, .info)]) = true ∧
    runs (.planDrainComplete 0) (near { plan on .draining 1 with beat := { on.beat with slot := 127, guard := true } })
      (fun t => (ctxAt t 0).st == .standby) = true :=
  ⟨at_of (by decide +kernel), at_of (by decide +kernel), by decide +kernel, ⟨rfl, rfl, at_of (by decide +kernel)⟩, by decide +kernel⟩
/-- Bank 9 of slice 0 waits for its zero-fill. -/
def dirty : State := { on with cmb := { on.cmb with mem := [(9 * 0x600000 + 3, 5#8), (10 * 0x600000, 6#8)], dirty := [9] } }
/-- Page 1 is on the rebuild list; its data have come, and its bank 0 is plan 7's. -/
def rebuild (f : Bool) (dst : Option Nat) (w : Nat) : Rebuild :=
  { page := 1, ctx := 0, stripe := 0, waited := w, data := [(2, 7#8)], got := (List.range 133).map (fun i => (i, 0)), failedOnce := f,
    told := false, copyTo := dst }
def rebuilding (f : Bool) (dst : Option Nat) (w : Nat) : State :=
  let s := plan on .installed 1
  { s with cmb := { s.cmb with
      mem := [(0x1000, 1#8)], rebuilds := [rebuild f dst w], poison := [(1, true)], ctx := vmod s.cmb.ctx 0 (fun c => { c with bankMap := [(3, 0)] }) } }
theorem witness_CombPages_copy : bankOwner (rebuilding true (some 1) 0) 0 0 = some (0, 3) ∧ copyDue (rebuilding true (some 1) 0) 1 = none ∧
    pageSlice 1 = 0 ∧ pageBank 1 = 0 := by decide +kernel
theorem witness_CombPages : Memory.wf dirty.cmb.mem 0#8 = true ∧ dirty.cmb.dirty.contains 9 = true ∧ vget dirty.pwr.cb 0 false = true ∧
    (rebuilding false none 0).cmb.rebuilds.find? (fun x => x.page == 1) = some (rebuild false none 0) ∧ rebuildReady (rebuild false none 0) = true ∧
    copyDue (rebuilding false none 0) 1 = none ∧ bankOwner (rebuilding true (some 1) 0) 0 0 = some (0, 3) ∧ 1000 ≤ (rebuild false none 1000).waited ∧
    runs (.zeroFillComplete 0 9) dirty (fun t => t.cmb.mem == [(10 * 0x600000, 6#8)] && t.cmb.dirty == []) = true ∧
    runs (.pageRebuildComplete 1 true) (rebuilding false none 0) (fun t => t.cmb.rebuilds == [] && t.cmb.clearing == [1] && t.cmb.rebuilt == 1) = true ∧
    runs (.pageRebuildComplete 1 false) (rebuilding false none 0) (fun t => t.cmb.rebuilds.map (fun r => r.failedOnce) == [true]) = true ∧
    runs (.pageRebuildComplete 1 false) (rebuilding true none 0) (fun t => t.cmb.rebuilds.map (fun r => r.copyTo) == [some 1]) = true ∧
    runs (.rebuildWaitLimit 1) (rebuilding false none 1000) (fun t => newsOf on t == [(0x0306, .major)]) = true := by decide +kernel
/- Quadrants: passes, sets, records, chains. -/

/-- A dense INT8 weight tile of 16 rows by 16, whose row 0 holds 3 and -2. -/
def weightTile : List (Nat × Byte) := [(1, 2#8), (4, 16#8), (6, 16#8), (8, 16#8), (12, 0x40#8), (13, 1#8), (32, 3#8), (33, 0xFE#8)]
/-- A pass over it that ends its tile. -/
def pass : PassDesc :=
  { tile := 0, fmt := .int8, actScaled := false, p := 8, kb := 0, anchor := 0, overwrite := true, tileEnd := some 0, tileSeq := 1, feed := 2,
    resid := none, out := none, outCols := 16, link := 0, cost := 100 }
/-- The activation tile of thread 2, whose row 0 holds 5 and 7. -/
def acts (f : ValFmt) : ActTile :=
  { kT := 16, fmt := f, scaled := false, codes := [(0, 5), (1, 7)], scales := [], scale := 0x3F800000, flags := 0, poison := false }
/-- Quadrant 0 has a pass in front and its tiles at hand. -/
def ready (d : PassDesc) : State :=
  let s := head (busy (plan on .installed 1)) (.pass d)
  { s with cmb := { s.cmb with mem := weightTile, ctx := vmod s.cmb.ctx 0 (fun c => { c with bankMap := [(0, 0)] }) }
           quad := vmod s.quad 0 (fun x => { x with acts := [(2, acts .int8)] }) }
/-- That pass. -/
def front : Todo := { ctx := 0, adm := 4999, op := .pass pass, late := false }
theorem witness_PassesAndSets_start : headOp (ready pass) 0 = some front ∧ (quadAt (ready pass) 0).swapDue = false ∧
    arrayMay (ready pass) = true ∧ (quadAt (ready pass) 0).acts.find 2 = some (acts .int8) ∧ (passFind (ready pass) front pass (acts .int8)).poisonIn = false ∧
    (passFind (ready pass) front pass (acts .int8)).codes = [] ∧ runPages (ready pass) 0 0 320 = [0] := by decide +kernel
/-- The pass runs. -/
def passing : State :=
  let s := ready pass
  { s with quad := vmod s.quad 0 (fun x => { x with run := some (passFind s front pass (acts .int8)).run }) }
theorem witness_PassesAndSets : (passFind { ready pass with quad := vmod (ready pass).quad 0 (fun x => { x with acts := [(2, acts .e4m3)] }) }
      front { pass with fmt := .e4m3 } (acts .e4m3)).codes = [1] ∧
    quadUp passing 0 = true ∧ coreRuns passing = true ∧ (quadAt passing 0).run.isSome = true ∧
    runs (.passStart ⟨0, 2, []⟩) (ready pass) (fun t => (quadAt t 0).run.isSome && (activeSet (quadAt t 0)).opened && t.cmb.ce == 2 &&
      newsOf (ready pass) t == []) = true ∧
    runs (.passStart ⟨0, 0, [0]⟩) (ready pass) (fun t => t.cmb.poison == [(0, true)] && (quadAt t 0).jnPoison) = true ∧
    runs (.passComplete 0) passing (fun t => (activeSet (quadAt t 0)).cells == [(0, { AccCell.zero with val := 1 })] && (quadAt t 0).swapDue &&
      (quadAt t 0).todo == [] && (quadAt t 0).jnPasses == 1 && newsOf passing t == []) = true := by decide +kernel
theorem test_pass_format_fault :
    runs (.passStart ⟨0, 0, []⟩) (ready { pass with fmt := .e4m3 }) (fun t => (quadAt t 0).jnCode == 1 && newsOf on t == [(0x0401, .major)]) = true := by
  decide +kernel
theorem test_pass_bound_broken :
    runs (.passStart ⟨0, 0, []⟩) (ready { pass with kb := 1 }) (fun t => (quadAt t 0).jnBoundx == 1 && newsOf on t == [(0x0402, .major)]) = true := by
  decide +kernel
/-- A closed tile waits for the swap, with an accumulator of -9. -/
def closed : State :=
  { on with quad := vmod on.quad 0 (fun x => { x with
      swapDue := true, setA := { AccSet.init with cells := [(0, { AccCell.zero with val := -9 })], opened := false } }) }
theorem witness_PassesAndSets_swap : (quadAt closed 0).swapDue = true ∧ (quadAt closed 0).shadowBusy = false ∧
    runs (.accumulatorSetSwap 0 5) closed (fun t => (quadAt t 0).activeB && !(quadAt t 0).swapDue && (quadAt t 0).shadowBusy &&
      (quadAt t 0).arrAmax == 0x41100000 && (quadAt t 0).arrStall == 5) = true := by decide +kernel
/-- An open tile of one column, mode INT. -/
def openTile (s : State) : State :=
  { s with quad := vmod s.quad 0 (fun x => { x with
      setA := { AccSet.init with cells := [(0, { AccCell.zero with val := 4 })], opened := true, rows := 1 } }) }
/-- Its context has saved it with SEQ 6. -/
def savedOne (s : State) : State :=
  { s with quad := vmod s.quad 0 (fun x => { x with saved := vput x.saved 0 (some
      { planId := 7, mode := .int, anchor := 0, cols := 1, seq := 6, scale := none, scaleMix := false }) }) }
/-- A record with SEQ n has come by thread 3. -/
def brought (s : State) (n : Nat) : State :=
  { s with quad := vmod s.quad 0 (fun x => { x with
      raw := [(3, (leBytes 8 7 ++ leBytes 2 0 ++ leBytes 2 0 ++ leBytes 2 1 ++ leBytes 2 0 ++ leBytes 16 0 ++ leBytes 4 n ++ leBytes 28 0 ++
        leBytes 16 11, false))] }) }
/-- An operation of plan 7's instance in front of quadrant 0. -/
def waits (op : ProgOp) : State := head (busy (plan on .installed 1)) op
theorem witness_ContextsAndRecords : headOp (openTile (waits (.save 1 3))) 0 = some { ctx := 0, adm := 4999, op := .save 1 3, late := false } ∧
    (quadAt (openTile (waits (.save 1 3))) 0).shadowBusy = false ∧ (quadAt (waits (.save 1 3)) 0).feeds = [] ∧
    (quadAt (waits (.restore 1 3)) 0).raw.find 3 = none ∧ recordHere (waits (.recordAdd 0 1 3)) front 0 = true ∧
    runs (.contextSave 0) (savedOne (openTile (waits (.save 1 3)))) (fun t => (quadAt t 0).todo == [] && (quadAt t 0).arrSaves == 1 &&
      (vget (quadAt t 0).saved 0 none).map (fun k => k.seq) == some 7 &&
      ((quadAt t 0).raw.find 3).map (fun r => (leAt r.1 32 4, leAt r.1 64 16)) == some (7, 4)) = true ∧
    runs (.contextRestore 0) (waits (.restore 1 3)) (fun t => (quadAt t 0).todo.length == 1) = true := by decide +kernel
theorem witness_ContextsAndRecords_restore : (quadAt (brought (waits (.restore 1 3)) 6) 0).raw.find 3 ≠ none ∧
    ((quadAt (brought (waits (.restore 1 3)) 6) 0).raw.find 3).map (fun r => readRec r.1) =
      some { planId := 7, mode := AccMode.int.code, anchor := 0, cols := 1, flags := 0, seq := 6 } ∧
    runs (.contextRestore 0) (savedOne (brought (waits (.restore 1 3)) 5)) (fun t => (activeSet (quadAt t 0)).cells == [] &&
      (activeSet (quadAt t 0)).poison && (quadAt t 0).arrCtxErr && newsOf on t == [(0x0503, .major)]) = true ∧
    runs (.contextRestore 0) (brought (waits (.restore 1 3)) 6) (fun t => (quadAt t 0).arrCtxErr && newsOf on t == [(0x0503, .major)]) = true := by
  decide +kernel
theorem witness_ContextsAndRecords_add : runs (.tileRecordAdd 0) (brought (openTile (waits (.recordAdd 0 1 3))) 6) (fun t =>
      (activeSet (quadAt t 0)).cells == [(0, { AccCell.zero with val := 15 })] && (quadAt t 0).todo == []) = true ∧
    runs (.tileRecordAdd 0) (openTile (waits (.recordAdd 0 1 3))) (fun t => (quadAt t 0).todo.length == 1) = true ∧
    runs (.tileRecordAdd 0) (brought (openTile (waits (.recordAdd 0 2 3))) 6) (fun t => (activeSet (quadAt t 0)).poison &&
      (quadAt t 0).fusCode == 5 && newsOf on t == [(0x0606, .major)]) = true := by decide +kernel
/-- A chain of one stage descriptor: FC chain c, INT8 out, scale 1. -/
def desc (c : Nat) : StageDesc :=
  { chain := c, prologue := 0, perStage := false, ifmt := 0, ofmt := 6, act := 0, keepK := 0, qmode := 0, hyst := 0, scaleSrc := 0, biasSrc := 0,
    fwdPayload := 0, amaxGain := 0x3F800000, scalar := 0, scaleVec := 0, biasVec := 0, initScale := 0x3F800000, fwdRank := 2, fwdPort := 3,
    gatherRows := 0, rsv := 0 }
/-- A swapped tile of one row by one column stands in the shadow set for chain c. -/
def drained (c : Nat) (out : Option Nat) : State :=
  let s := busy (plan on .installed 1)
  { s with cmb := { s.cmb with ctx := vmod s.cmb.ctx 0 (fun x => { x with chains := [desc c] }) }
           quad := vmod s.quad 0 (fun x => { x with shadowBusy := true, setB :=
             { AccSet.init with cells := [(0, { AccCell.zero with val := 3 })], rows := 1, outCols := 0, adm := 4999, out := out } }) }
theorem witness_ChainsAndForwards : quadUp (drained 1 (some 4)) 0 = true ∧ coreRuns (drained 1 (some 4)) = true ∧
    residReady (quadAt (drained 1 (some 4)) 0) (desc 1) (shadowSet (quadAt (drained 1 (some 4)) 0)) = true ∧
    outReady (drained 1 (some 4)) 0 (shadowSet (quadAt (drained 1 (some 4)) 0)) = true ∧ (epilogue (drained 1 (some 4)) 0).badVec = false ∧
    runs (.epilogueComplete 0) (drained 1 (some 4)) (fun t => !(quadAt t 0).shadowBusy && (quadAt t 0).fusTiles == 1 &&
      ((quadAt t 0).raw.find 4).isSome && newsOf on t == []) = true ∧
    runs (.epilogueComplete 0) (drained 11 none) (fun t => (quadAt t 0).fc11.length == 1) = true ∧
    runs (.epilogueComplete 0) (drained 9 none) (fun t => (quadAt t 0).fusPoisonx == 1 && (quadAt t 0).fwds.length == 1 &&
      newsOf on t == [(0x0601, .minor)]) = true := by decide +kernel
/-- A link entry that takes two flits to rank 2 through port 3 in slots 0 to n. -/
def link (n : Nat) : LinkEnt :=
  { port := 3, inbound := false, kind := 0, first := 0, last := n, peer := 2, flits := 2, object := 0xFFFF, peerEntry := 1, dest := 0, rsv := 0,
    got := [], held := [], inst := 0, complete := false, sent := 0 }
/-- A forward of 300 bytes waits in quadrant 0. -/
def forward : Forward := { ctx := 0, adm := 4999, entry := 0, port := 3, bytes := zeros 300, sent := 0, inst := 3, born := 128 * 5000 }
def forwarding (n slot : Nat) (st : PortSt) : State :=
  let s := wired (busy (plan on .installed 1))
  { s with cmb := { s.cmb with ctx := vmod s.cmb.ctx 0 (fun x => { x with links := [link n] }) }
           beat := { s.beat with slot := slot }
           hl := { s.hl with port := vmod s.hl.port 3 (fun x => { x with st := st }) }
           quad := vmod s.quad 0 (fun x => { x with fwds := [forward] }) }
theorem witness_ChainsAndForwards_forward : lnkUp (forwarding 9 2 .up) = true ∧ nextForward (forwarding 9 2 .up) 0 = some forward ∧
    fwdEntry (forwarding 9 2 .up) forward = some (link 9) ∧ (portAt (forwarding 9 2 .up) 3).syncq = [] ∧
    (quadAt (forwarding 9 10 .up) 0).fwds.find? (fwdLost (forwarding 9 10 .up)) = some forward ∧
    (quadAt (forwarding 9 2 .fenced) 0).fwds.find? (fwdLost (forwarding 9 2 .fenced)) = some forward ∧
    runs (.forwardDrop 0) (forwarding 9 10 .up) (fun t => (quadAt t 0).fwds == [] && (quadAt t 0).fusCode == 3 &&
      ((ctxAt t 0).insts.map (fun i => i.faults.poisoned)) == [true] && newsOf on t == [(0x0604, .major)]) = true ∧
    runs (.forwardDrop 0) (forwarding 9 2 .fenced) (fun t => ((ctxAt t 0).insts.map (fun i => i.faults.fenced)) == [true]) = true := by decide +kernel
theorem test_forward_sends : runs (.forwardTileSend 0) (forwarding 9 2 .up) (fun t => (quadAt t 0).fwds == [] && (quadAt t 0).fusFwd == 1 &&
    (portAt t 3).buffer.length == 2) = true := by decide +kernel
/- Streams, external memory, the ledger, sync objects and the Comb ports. -/

/-- A stream of one group, one state and one step in FP32, in that state. -/
def stream (st : StreamSt) : StreamEnt := { StreamEnt.init with g := 1, len := 1, renorm := 1, st := st, ptr := 0x1000 }
/-- Its chunk holds the scan buffer of quadrant 0: h0 = 2, a = 0.5, u = 3. -/
def chunk (z : Bool) : ChunkRun :=
  { stream := 0, level := 0, phase := .gate, a := [(0, 0x3F000000)], u := [(0, 0x40400000)], h := [(0, 0x40800000)], h0 := [(0, 0x40000000)], exact := [],
    zeroStart := z, poison := false, input := [], out := none, ctx := 0, adm := 4999 }
/-- A phase of it in front of quadrant 0. -/
def phaseOp (p : ChunkPhase) : ChunkDesc := { stream := 0, phase := p, seqStart := false, inThread := 2, out := none }
def streaming (p : ChunkPhase) (st : StreamSt) (r : Option ChunkRun) : State :=
  let s := head (busy (plan on .installed 1)) (.chunk (phaseOp p))
  { s with streams := [(0, stream st)], quad := vmod s.quad 0 (fun x => { x with chunk := r, raw := [(2, (zeros 48, false))] }) }
/-- What stands in front. -/
def op (p : ChunkPhase) : Todo := { ctx := 0, adm := 4999, op := .chunk (phaseOp p), late := false }
theorem witness_ChunksOfAStream : chunkOp (streaming .gate .idle none) 0 .gate = some (op .gate, phaseOp .gate) ∧
    (quadAt (streaming .gate .idle none) 0).raw.find 2 = some (zeros 48, false) ∧ arrayMay (streaming .gate .idle none) = true ∧
    (streamAt (streaming .gate .idle none) 0).fused = false ∧
    headOp (streaming (.level 1) .running (some (chunk false))) 0 = some (op (.level 1)) ∧
    chunkRunOf (streaming (.level 1) .running (some (chunk false))) 0 0 = some (chunk false) ∧
    chunkOp (streaming .load .running (some (chunk false))) 0 .load = some (op .load, phaseOp .load) ∧
    chunkOp (streaming .expand .running (some (chunk false))) 0 .expand = some (op .expand, phaseOp .expand) ∧
    chunkOp (streaming .readout .running (some (chunk false))) 0 .readout = some (op .readout, phaseOp .readout) ∧
    chunkOp (streaming .store .running (some (chunk false))) 0 .store = some (op .store, phaseOp .store) ∧
    runs (.chunkGate 0) (streaming .gate .idle none) (fun t => (streamAt t 0).st == .running && (quadAt t 0).todo == [] &&
      (quadAt t 0).chunk.map (fun r => (r.stream, r.phase, r.zeroStart, r.poison)) == some (0, .gate, false, false)) = true ∧
    runs (.chunkLevel 0) (streaming (.level 1) .running (some (chunk false))) (fun t => (quadAt t 0).chunk == some (chunk false) &&
      (quadAt t 0).todo == []) = true ∧
    runs (.chunkReadout 0) (streaming .readout .running (some (chunk false))) (fun t => t.freeCtr == 2) = true ∧
    runs (.chunkSkip 0) (streaming .gate .paused none) (fun t => (quadAt t 0).rcsSkipx == 1 && newsOf on t == [(0x0705, .minor)] &&
      (ctxAt t 0).insts.map (fun i => i.faults.invalid) == [true]) = true ∧
    runs (.chunkSkip 0) (streaming .load .running none) (fun t => (quadAt t 0).todo == [] && newsOf on t == []) = true := by decide +kernel
theorem test_chunk_values :
    runs (.chunkLoad 0) (streaming .load .running (some (chunk false))) (fun t => (quadAt t 0).chunk.map (fun r => r.h0.getAt 0 0) == some 0) = true ∧
    runs (.chunkExpand 0) (streaming .expand .running (some (chunk false))) (fun t => (quadAt t 0).chunk.map (fun r => r.h.getAt 0 0) == some 0x40800000) = true ∧
    runs (.chunkStore 0) (streaming .store .running (some (chunk false))) (fun t => (streamAt t 0).cur && (streamAt t 0).seq == 1 &&
      (quadAt t 0).chunk == none && t.xm.mem == [(0x1006, 0x80#8), (0x1007, 0x40#8)]) = true := by decide +kernel
theorem test_chunk_nonfinite :
    runs (.chunkExpand 0) (streaming .expand .running (some { chunk true with u := [(0, 0x7F800000)] })) (fun t =>
      (streamAt t 0).nonfin && newsOf on t == [(0x0702, .minor)]) = true := by decide +kernel
/-- Stream 3 is running and a pause and a reset wait. -/
def pausing : State := { on with streams := [(3, { stream .running with action := [0, 2], seq := 9 })] }
theorem witness_StreamActionsApply : chunkOpen (streaming .load .running (some (chunk false))) 0 = true ∧ chunkOpen pausing 3 = false ∧
    runs (.streamCtlApply 3) pausing (fun t => t.streams == [(3, { stream .paused with reset := true })]) = true ∧
    (stream .running).st = .running ∧ (stream .ended).st = .ended := by decide +kernel

/-- Thread 2 of quadrant 0 reads or writes 1,000 bytes from 0x10F0. -/
def thread (w : Bool) (r : ThreadRun) : Thread :=
  { Thread.idle with d := { Thread.idle.d with thread := 2, bytes := 1000, write := w }, run := r, base := 0x10F0, admitBeat := 4999
                     data := if w then zeros 20 else [] }
/-- Its first transfer is in flight. -/
def transfer (w rep : Bool) : Transfer :=
  { tag := 0, thread := 2, addr := 0x10F0, len := 16, off := 0, write := w, t0 := 100, repeated := rep, data := if w then [7#8] ++ zeros 15 else [] }
def reading (w : Bool) (r : ThreadRun) (tags : List Transfer) : State :=
  { on with xm := { on.xm with threads := [(2, thread w r)], tags := tags } }
theorem witness_TransfersOfThreads : xmUp on = true ∧ freeTag on = some 0 ∧ on.xm.tags.length ≤ 960 ∧ tagsOf on keeperThread < 16 ∧
    0x1234 < xmCapacity on ∧ nextThread (reading false .issuing []) 0 = some (2, thread false .issuing) ∧
    nextThread (reading true .issuing []) 0 = some (2, thread true .issuing) ∧
    (reading false .issuing [transfer false false]).xm.tags.find? (fun y => y.tag == 0 && !y.write) = some (transfer false false) ∧
    (thread false .issuing).done + 16 < 1000 ∧
    (reading true .issuing [transfer true true]).xm.tags.find? (fun y => y.tag == 0 && y.write) = some (transfer true true) ∧
    runs (.transferIssue ⟨0, (some 0x1234), 5⟩) on (fun t => t.xm.tags.map (fun x => (x.thread, x.addr, x.len)) == [(256, 0x1234, 0xCC)]) = true ∧
    runs (.transferIssue ⟨0, none, 100⟩) (reading false .issuing []) (fun t => t.xm.tags == [transfer false false] &&
      (threadAt t 2).issued == 16 && t.xm.peak == 1) = true ∧
    runs (.readTransferComplete 0 2 130) (reading false .issuing [transfer false false]) (fun t => t.xm.tags == [] && (threadAt t 2).done == 16 &&
      (threadAt t 2).poison && t.xm.latSum == 30 && t.xm.eccUe == 1 && newsOf on t == [(0x0802, .major)]) = true ∧
    runs (.readTransferComplete 0 0 130) (reading false .idle [transfer false false]) (fun t => t.xm.tags == [] && (threadAt t 2).done == 0) = true ∧
    runs (.writeTransferAccepted 0 true) (reading true .issuing [transfer true false]) (fun t => t.xm.tags == [transfer true true]) = true ∧
    runs (.writeTransferAccepted 0 false) (reading true .issuing [transfer true true]) (fun t => t.xm.mem == [(0x10F0, 7#8)] &&
      (threadAt t 2).done == 16) = true ∧
    runs (.writeTransferAccepted 0 true) (reading true .issuing [transfer true true]) (fun t => t.xm.mem == [] && t.xm.poison.length == 16 &&
      newsOf on t == [(0x0802, .major)]) = true := by decide +kernel
/-- Keeper holds its 16 tags. -/
def keeping : State :=
  { on with xm := { on.xm with tags := (List.range 16).map (fun i => { transfer false false with tag := i, thread := keeperThread }) } }
theorem witness_TransfersOfThreads_keeper : xmUp keeping = true ∧ 16 ≤ tagsOf keeping keeperThread ∧ ¬ 960 < keeping.xm.tags.length ∧
    runs (.transferIssue ⟨0, (some 0), 5⟩) keeping (fun t => t.xm.tags == keeping.xm.tags) = true := by decide +kernel

/-- A buffer of 4 KiB at 0, entry 0, of that owner and holder. -/
def buffer (owner holder : Nat) (st : BlSt) : BlEntry := { gen := 2, holder := holder, owner := owner, st := st, base := 0, len := 4096 }
def held (s : State) (e : BlEntry) : State := { s with bl := { s.bl with ent := [(0, e)] } }
theorem witness_LedgerCommands : AtCommand (cmd (held on (buffer 1 1 .owned)) 0x501 0 (leBytes 8 8192)) 0x501 0 (leBytes 8 8192) ∧
    AtCommand (cmd on 0x501 2 []) 0x501 2 [] ∧ AtCommand (cmd on 0x502 3 []) 0x502 3 [] ∧ AtCommand (cmd on 0x503 2 []) 0x503 2 [] ∧
    AtCommand (cmd on 0x502 0 (leBytes 2 0x2000)) 0x502 0 (leBytes 2 0x2000) ∧ AtCommand (cmd on 0x503 1 (leBytes 2 0x2000)) 0x503 1 (leBytes 2 0x2000) ∧
    freeEntry (held on (buffer 1 1 .owned)) = some 1 ∧
    findRun (xmLimit on) 4096 8192 (planRuns on ++ hostRuns (held on (buffer 1 1 .owned))) = some 4096 ∧
    findRun (xmLimit { on with xm := { on.xm with chanOk := 0 } }) 4096 8192 [] = none ∧
    judgeFree (held on (buffer 1 1 .owned)) 0x2000 1 = .ok ∧ judgeFree (held on (buffer 1 1 .owned)) 0x1000 1 = .doubleFree ∧
    judgeFree (held on (buffer 1 1 .owned)) 0x2000 2 = .notOwner ∧
    runs .bufAlloc (cmd (held on (buffer 1 1 .owned)) 0x501 0 (leBytes 8 8192)) (fun t => answered t 0 0 (leBytes 2 1 ++ leBytes 8 4096) &&
      (blAt t 1).st == .owned && (blAt t 1).holder == 1) = true ∧
    runs .bufAlloc (cmd { on with xm := { on.xm with chanOk := 0 } } 0x501 0 (leBytes 8 8192)) (fun t => answered t 0 0x32 []) = true ∧
    runs .bufAlloc (cmd on 0x501 2 []) (fun t => answered t 2 0x40 []) = true ∧
    runs .bufFree (cmd (held on (buffer 1 1 .owned)) 0x502 0 (leBytes 2 0x2000)) (fun t => answered t 0 0 [] && (blAt t 0).st == .free &&
      (blAt t 0).gen == 3) = true ∧
    runs .bufFree (cmd (held on (buffer 1 1 .owned)) 0x502 0 (leBytes 2 0x1000)) (fun t => answered t 0 0x41 [] && t.bl.dfree == 1 &&
      newsOf on t == [(0x0901, .minor)]) = true ∧
    runs .bufFree (cmd (held on (buffer 1 1 .owned)) 0x502 1 (leBytes 2 0x2000)) (fun t => answered t 1 0x40 [] && t.bl.nown == 1) = true ∧
    runs .bufGive (cmd (held on (buffer 2 2 .owned)) 0x503 1 (leBytes 2 0x2000)) (fun t => answered t 1 0 [] && (blAt t 0).holder == 1) = true :=
  ⟨at_of (by decide +kernel), at_of (by decide +kernel), at_of (by decide +kernel), at_of (by decide +kernel), at_of (by decide +kernel),
    at_of (by decide +kernel), by decide +kernel⟩
/-- Plan 7 has an area of 8 KiB and a buffer of its own. -/
def area (s : State) : State := { s with cmb := { s.cmb with ctx := vmod s.cmb.ctx 0 (fun c => { c with xmBytes := 8192, xmBase := 0x10000 }) } }
theorem witness_LedgerCommands_program : headOp (held (area (waits (.alloc 1 5000))) (buffer 4 0 .pooled)) 0 =
      some { ctx := 0, adm := 4999, op := .alloc 1 5000, late := false } ∧
    pooledOf (held (area (waits (.alloc 1 5000))) (buffer 4 0 .pooled)) 0 = some 0 ∧ findRun 8192 4096 8192 [] = some 0 ∧
    pooledOf (waits (.alloc 1 5000)) 0 = none ∧ judgeFree (held on (buffer 4 4 .owned)) 0x2000 (ctxOwner 0) = .ok ∧
    runs (.scheduleAlloc 0) (held (area (waits (.alloc 1 5000))) (buffer 4 0 .pooled)) (fun t => (blAt t 0).st == .owned &&
      (blAt t 0).base == 0x10000 && (blAt t 0).len == 8192 && (quadAt t 0).vars == [(varKey 1 0 4999, 0x2000)] && (quadAt t 0).todo == []) = true ∧
    runs (.scheduleAlloc 0) (area (waits (.alloc 1 5000))) (fun t => newsOf on t == [(0x0903, .major)] &&
      (ctxAt t 0).insts.map (fun i => i.faults.invalid) == [true]) = true ∧
    runs (.scheduleFree 0) (held (waits (.free 1)) { buffer 4 4 .owned with gen := 0 }) (fun t => (blAt t 0).st == .pooled && (quadAt t 0).todo == []) = true ∧
    runs (.scheduleFree 0) (held (waits (.free 1)) (buffer 4 4 .owned)) (fun t => t.bl.dfree == 1 &&
      newsOf on t == [(0x0901, .minor), (0x0903, .major)]) = true := by decide +kernel
/-- The last slot of the beat, with instance 3 running and its work ended. -/
def ending : State := near (busy (plan on .installed 1))
theorem witness_InstancesComplete : edgeNear ending = true ∧ (ctxAt ending 0).insts = [inst] ∧ batchDone ending 0 4999 (edgeNum ending) = true ∧
    batchDone (near (waits (.rel 0 1))) 0 4999 (edgeNum ending) = false ∧ edgeNear (near (waits (.rel 0 1))) = true ∧
    runs (.instanceComplete 0) ending (fun t => (ctxAt t 0).insts == [] && t.hi.backlog.map (fun r => (r.n, r.status, r.doneBeat)) == [(3, 0, 5001)]) = true ∧
    runs (.instanceComplete 0) (near (waits (.rel 0 1))) (fun t => (ctxAt t 0).insts == [inst]) = true := by decide +kernel

/-- Plan 7 has two objects from 10 on; object 10 has that value and holder. -/
def objects (s : State) (v : Nat) (h : Option (Nat × Nat)) : State :=
  { s with so := { s.so with obj := [(10, { SoObj.init with value := v, holder := h, heldBy := h.map (fun _ => 4999), step := 2 })] }
           cmb := { s.cmb with ctx := vmod s.cmb.ctx 0 (fun c => { c with soBase := 10, soCount := 2 }) } }
theorem witness_SyncObjectsOfASlotProgram :
    (opThreshold (objects (waits (.acq 0 1)) 7 none) 0 4999 10 1 = 7 ∧ holdsFrom (objects (waits (.acq 0 1)) 7 none) 0 10 = false ∧
      soReady (objects (waits (.acq 0 1)) 7 none) true 10 7 = true ∧ soReady (objects (waits (.acq 0 1)) 6 none) true 10 7 = false ∧
      lowerReady (objects (waits (.acq 0 1)) 7 none) 0 10 = false ∧ holdsFrom (objects (waits (.acq 0 1)) 7 (some (1, 0))) 0 10 = true) ∧
    runs (.syncAcq 0) (objects (waits (.acq 0 1)) 7 none) (fun t => (soAt t 10).holder == some (0, 0) && (quadAt t 0).todo == []) = true ∧
    runs (.syncAcq 0) (objects (waits (.acq 0 1)) 6 none) (fun t => (quadAt t 0).blocked == some { acq := true, obj := 10, thr := 7 }) = true ∧
    runs (.syncAcq 0) (objects (waits (.acq 0 1)) 7 (some (1, 0))) (fun t => t.so.orderx == 1 && (quadAt t 0).todo == [] &&
      newsOf on t == [(0x0A01, .major)] && (ctxAt t 0).insts.map (fun i => i.faults.orderFault) == [true]) = true ∧
    runs (.syncWait 0) (objects (waits (.wait 0 1)) 7 none) (fun t => (soAt t 10).holder == none && (quadAt t 0).todo == []) = true ∧
    runs (.syncWait 0) (objects (waits (.wait 0 1)) 6 none) (fun t => (quadAt t 0).blocked.isSome) = true ∧
    runs (.syncWait 0) (objects (waits (.wait 0 1)) 7 (some (0, 0))) (fun t => t.so.orderx == 1) = true ∧
    runs (.syncRel 0) (objects (waits (.rel 0 5)) (2 ^ 32 - 2) (some (0, 0))) (fun t => (soAt t 10).value == 3 && (soAt t 10).holder == none) = true ∧
    runs (.syncRel 0) (objects (waits (.rel 0 5)) 4 (some (0, 1))) (fun t => (soAt t 10).value == 4 && t.so.nownx == 1 &&
      newsOf on t == [(0x0A03, .major)]) = true := by decide +kernel
/-- Quadrant 0 is blocked in an ACQ of object 10. -/
def blocked (v : Nat) : State :=
  let s := objects (waits (.acq 0 1)) v none
  { s with quad := vmod s.quad 0 (fun x => { x with blocked := some { acq := true, obj := 10, thr := 7 } }) }
theorem witness_SyncObjectsOfASlotProgram_more : portUp (waits (.send 0 1 3)) 3 = false ∧ portUp (wired (waits (.send 0 1 3))) 3 = true ∧
    syncEntry (wired (waits (.send 0 1 3))) 0 3 = none ∧ (portAt (wired (waits (.send 0 1 3))) 3).syncq = [] ∧
    quadUp (blocked 7) 0 = true ∧ canProceed (blocked 7) 0 = true ∧ lowerReady (blocked 7) 1 10 = true ∧
    runs (.syncSend 0) (waits (.send 0 1 3)) (fun t => (quadAt t 0).todo == [] && (portAt t 3).syncq == []) = true ∧
    runs (.syncSend 0) (wired (waits (.send 0 1 3))) (fun t => (quadAt t 0).todo == [] &&
      (portAt t 3).syncq == [{ ctx := 0, inst := 3, obj := 0, inc := 1 }]) = true ∧
    runs (.blockedOpProceed 0) (blocked 7) (fun t => (soAt t 10).holder == some (0, 0) && (quadAt t 0).blocked == none && (quadAt t 0).todo == []) = true ∧
    runs (.blockedOpProceed 0) (blocked 6) (fun t => (quadAt t 0).blocked.isSome) = true := by decide +kernel

/-- An entry of the pending queue of slice 0. -/
def request (id : Nat) : PqEntry := { id := id, page := 0, write := id == 11 || id == 12 }
def queue (l : List Nat) (owner : Option Nat) : State :=
  { on with arb := vmod on.arb 0 (fun a => { a with
      queue := l.map request, owner := owner.map request, jobs := [(8, { len := 3, done := 0, resets := 0 })] }) }
theorem witness_CombPortArbitration : sliceRuns (queue [] none) 0 = true ∧ 0 / 98304 = 0 ∧ hasWork (queue [] none) 0 0 0 = true ∧
    hasWork (queue [] none) 0 8 0 = true ∧ portClass 0 = 0 ∧ nextGrant (arbAt (queue [8, 0] none) 0) = some (request 0) ∧
    (request 8).write = false ∧ (jobOf (arbAt (queue [] (some 8)) 0) 8).done + 1 < (jobOf (arbAt (queue [] (some 8)) 0) 8).len ∧
    runs (.sidePortRequest 0 8 0 5) (queue [4] none) (fun t => (arbAt t 0).queue == [request 4, request 8] && (jobOf (arbAt t 0) 8).len == 3) = true ∧
    runs (.sidePortRequest 0 0 0 70000) (queue [4, 5, 6, 7, 8, 1, 2, 3] none) (fun t => (arbAt t 0).queue == [4, 5, 6, 7, 1, 2, 3, 0].map request &&
      (arbAt t 0).displace == 1 && (jobOf (arbAt t 0) 0).len == 70000) = true ∧
    runs (.sidePortRequest 0 8 0 5) (queue [4, 5, 6, 7, 0, 1, 2, 3] none) (fun t => (arbAt t 0).pqfull == 1 && (arbAt t 0).queue.length == 8) = true ∧
    runs (.sidePortGrant 0 0) (queue [8, 0] none) (fun t => (arbAt t 0).owner == some (request 0) && (arbAt t 0).queue == [request 8]) = true ∧
    runs (.sidePortGrant 0 0) (queue [] (some 8)) (fun t => (arbAt t 0).owner == none && (jobOf (arbAt t 0) 8).done == 1) = true ∧
    runs (.portWatchdogExpiry 0) (queue [8, 0] (some 8)) (fun t => (arbAt t 0).owner == none && (arbAt t 0).queue == [request 0] &&
      (arbAt t 0).wdId == 8 && newsOf on t == [(0x0B01, .major)]) = true := by decide +kernel
/-- Half a period has passed and no page has been started; page is the next one of slice 0. -/
def pacing (page : Nat) (retired : List Nat) : State :=
  { on with us := { on.us with elapsed := 512, page := vput on.us.page 0 page }, cmb := { on.cmb with retired := retired } }
/-- An aperture read of the words at 0x40 waits at slice 0. -/
def peeking : State := { on with arb := vmod on.arb 0 (fun a => { a with aperture := some (0x40, 8), queue := [request 13] }) }
theorem witness_ScrubAndAperture : sliceRuns (pacing 5 []) 0 = true ∧ understoryTime (pacing 5 []) 0 = true ∧
    vget (pacing 5 []).us.started 0 0 < scrubDue (pacing 5 []) ∧ scrubSkips (pacing 5 []) 5 = false ∧ scrubSkips (pacing 5 [5]) 5 = true ∧
    hostUp on = true ∧ apertureIdle on = true ∧ 0x3C / 64 ≠ (0x3C + 8 - 1) / 64 ∧ 0xFFFFFC0 / 64 = (0xFFFFFC0 + 64 - 1) / 64 ∧
    (arbAt peeking 0).aperture = some (0x40, 8) ∧ (arbAt peeking 0).owner = none ∧
    runs (.scrubPageStart 0) (pacing 5 []) (fun t => jobOf (arbAt t 0) 10 == { len := 64, done := 0, resets := 0 } && vget t.us.started 0 0 == 1) = true ∧
    runs (.scrubPageStart 0) (pacing 5 [5]) (fun t => vget t.us.page 0 0 == 6 && (jobOf (arbAt t 0) 10).len == 0) = true ∧
    runs (.apertureRead 0x3C 8) on (fun t => t.hi.readData == [0#32] && t.hi.accessErr == 1) = true ∧
    runs (.apertureRead 0xFFFFFC0 64) on (fun t => (arbAt t 0).aperture == some (0xFFFFFC0, 64)) = true ∧
    runs .apertureWrite on (fun t => t.hi.accessErr == 1) = true ∧
    runs .apertureTimeout peeking (fun t => (arbAt t 0).aperture == none && (arbAt t 0).queue == [] && t.hi.readData == [0#32, 0#32] &&
      t.hi.accessErr == 1) = true := by decide +kernel
theorem witness_ScrubAndAperture_window : AtCommand (cmd on 0x120 0 [5#8]) 0x120 0 [5#8] ∧ AtCommand (cmd on 0x120 0 [6#8]) 0x120 0 [6#8] ∧
    runs .combAperture (cmd on 0x120 0 [5#8]) (fun t => answered t 0 0 [] && t.hi.aperture == 5) = true ∧
    runs .combAperture (cmd on 0x120 0 [6#8]) (fun t => answered t 0 0x20 [] && t.hi.aperture == 0) = true :=
  ⟨at_of (by decide +kernel), at_of (by decide +kernel), by decide +kernel⟩
/- Hive links. -/

/-- Port 3 in that state, changed. -/
def port (f : Port → Port) : State := let s := wired on; { s with hl := { s.hl with port := vmod s.hl.port 3 f } }
def portIn (st : PortSt) : State := port (fun x => { x with st := st })
/-- An IDENT flit of the neighbour for that hive. -/
def ident (id : Nat) : List Byte :=
  mkFlit 0x13 2 0 0 0 0 0 (leBytes 8 id ++ leBytes 4 0 ++ leBytes 2 2 ++ leBytes 1 4 ++ leBytes 1 0 ++ leBytes 4 77)
/-- Ports of a device whose links come up. -/
def linksOff : State := { on with pwr := { on.pwr with lnk := false }, hi := { on.hi with readiness := .links } }
theorem witness_PortsTrain : alive linksOff = true ∧ linksOff.hi.readiness = .links ∧ lnkUp on = true ∧ (portAt (portIn .listen) 3).st = .listen ∧
    (portAt (portIn .training) 3).pmdDone = false ∧ (portAt (portIn .training) 3).quick = false ∧ (portAt (portIn .absent) 3).st = .absent ∧
    (portAt (portIn .training) 3).sealed = false ∧ linksOff.hi.readiness ≠ .ready ∧
    runs (.lnkPowerGood false) linksOff (fun t => t.pwr.lnk && (portAt t 0).st == .listen && (portAt t 19).st == .listen) = true ∧
    runs (.portTrainingStart 3) (portIn .listen) (fun t => (portAt t 3).st == .training && (portAt t 3).attempts == 1) = true ∧
    runs (.portNoSignalTimeout 3) (portIn .training) (fun t => (portAt t 3).st == .absent && newsOf on t == [(0x0C03, .minor)]) = true ∧
    runs (.portTrainingTimeout 3) (portIn .training) (fun t => (portAt t 3).st == .down && newsOf on t == [(0x0C02, .major)]) = true ∧
    runs (.portTrainingTimeout 3) (port (fun x => { x with st := .training, quick := true, spared := some 2 })) (fun t =>
      (portAt t 3).st == .training && !(portAt t 3).quick && (portAt t 3).spared == none) = true ∧
    runs (.portRetryTimer 3) (portIn .absent) (fun t => (portAt t 3).st == .training) = true ∧
    runs (.portRetryTimer 3) { portIn .absent with hi := { on.hi with readiness := .memory } } (fun t => (portAt t 3).st == .absent) = true ∧
    runs (.pmdTrainingComplete 3 8 12) (portIn .training) (fun t => (portAt t 3).pmdDone && (portAt t 3).lastMs == 12 &&
      (portAt t 3).outq.length == 1) = true ∧
    runs (.lossOfSignal 3) (wired on) (fun t => (portAt t 3).st == .training && (portAt t 3).drops == 1 && newsOf on t == [(0x0C02, .major)]) = true ∧
    runs (.lossOfSignal 3) (port (fun x => { x with dropBeats := [4001, 4001] })) (fun t => (portAt t 3).st == .held &&
      newsOf on t == [(0x0C02, .major), (0x0C07, .critical)]) = true ∧
    runs (.lossOfSignal 3) (port (fun x => { x with dropBeats := [4001, 4000] })) (fun t => (portAt t 3).st == .training) = true ∧
    runs (.floodDetected 3) (port (fun x => { x with bad := 782 })) (fun t => (portAt t 3).st == .fenced && (portAt t 3).fence == 3 &&
      newsOf on t == [(0x0C04, .major)]) = true ∧
    runs (.floodDetected 3) (port (fun x => { x with bad := 781 })) (fun t => (portAt t 3).st == .up) = true := by decide +kernel
/-- A trained port whose IDENT is awaited. -/
def awaiting (st : PState) : State :=
  let s := port (fun x => { x with st := .training, pmdDone := true, identSent := true })
  { s with beat := { s.beat with pstate := st } }
theorem witness_PortsTrain_ident : isFlit (ident 0) 0x13 = true ∧ hcrcOk (ident 0) = true ∧ hiveMember (awaiting .solo) = true ∧
    (awaiting .solo).beat.pstate = .solo ∧ identOk (awaiting .solo) 3 (fPay (ident 0)) = true ∧ identOk (awaiting .solo) 3 (fPay (ident 9)) = false ∧
    runs (.identReceive 3 (ident 9)) (awaiting .solo) (fun t => (portAt t 3).st == .fenced && (portAt t 3).fence == 1) = true ∧
    runs (.identReceive 3 (ident 0)) (awaiting .solo) (fun t => (portAt t 3).st == .up && t.beat.pstate == .seek &&
      newsOf on t == [(0x0C01, .info)]) = true ∧
    runs (.identReceive 3 (ident 0)) (awaiting .track) (fun t => (portAt t 3).st == .up && (portAt t 3).peerSession == 77) = true := by
  decide +kernel
theorem witness_PortsTrain_commands : AtCommand (cmd (wired on) 0x604 0 [3#8, 0#8]) 0x604 0 [3#8, 0#8] ∧
    AtCommand (cmd (portIn .fenced) 0x604 0 [3#8, 1#8]) 0x604 0 [3#8, 1#8] ∧ AtCommand (cmd (wired on) 0x604 0 [19#8, 2#8]) 0x604 0 [19#8, 2#8] ∧
    portClaimed (wired on) 3 = false ∧
    runs .hivePortRetrain (cmd (wired on) 0x604 0 [3#8, 0#8]) (fun t => answered t 0 0 [] && (portAt t 3).st == .training) = true ∧
    runs .hivePortRetrain (cmd (portIn .fenced) 0x604 0 [3#8, 0#8]) (fun t => answered t 0 0x51 []) = true ∧
    runs .hivePortRetrain (cmd (wired on) 0x604 0 [4#8, 0#8]) (fun t => answered t 0 0x31 []) = true ∧
    runs .hivePortUnfence (cmd (portIn .fenced) 0x604 0 [3#8, 1#8]) (fun t => answered t 0 0 [] && (portAt t 3).st == .training) = true ∧
    runs .hivePortUnfence (cmd (wired on) 0x604 0 [3#8, 1#8]) (fun t => answered t 0 0x31 []) = true ∧
    runs .hivePortHold (cmd (wired on) 0x604 0 [3#8, 2#8]) (fun t => answered t 0 0 [] && (portAt t 3).st == .held &&
      newsOf on t == [(0x0C09, .info)]) = true ∧
    runs .hivePortHold (cmd (wired on) 0x604 0 [19#8, 2#8]) (fun t => answered t 0 0x31 []) = true :=
  ⟨at_of (by decide +kernel), at_of (by decide +kernel), at_of (by decide +kernel), by decide +kernel⟩

/-- Two SEQ flits, 5 and 6, wait for their acknowledgement. -/
def buffered (n : Nat) : State :=
  port (fun x => { x with txSeq := 7, buffer := [withSeq (flit 1 0 0 0 []) 5, withSeq (flit 1 0 0 0 []) 6], timeouts := n, unacked := 2, creditRet := 3, credit := 60 })
/-- ACK or NAK of SEQ n, with credits. -/
def ack (typ n c : Nat) : List Byte := flit typ 0 0 0 (leBytes 2 n ++ leBytes 2 c)
theorem witness_LinkLayerOfAPort : portUp (buffered 0) 3 = true ∧ isFlit (ack 0x11 5 9) 0x11 = true ∧ hcrcOk (ack 0x11 5 9) = true ∧
    isFlit (ack 0x12 6 0) 0x12 = true ∧ hcrcOk (ack 0x12 6 0) = true ∧ isFlit (flit 0x14 0 0 0 [7#8, 1#8]) 0x14 = true ∧
    hcrcOk ((ack 0x11 5 9).set 5 1#8) = false ∧ isFlit ((ack 0x11 5 9).set 5 1#8) 0x11 = true ∧ (portAt (buffered 0) 3).gap = false ∧
    (portAt (buffered 0) 3).sealTx = [] ∧ (portAt (buffered 0) 3).txWait = [] ∧ (portAt (buffered 0) 3).waitq = [] ∧
    runs (.laneFlitReceive 3 (flit 0x14 0 0 0 [7#8, 1#8])) (wired on) (fun t => (portAt t 3).move == some (7, true) && (portAt t 3).rx == 1) = true ∧
    runs (.laneSpareSwitch ⟨3, false⟩) (port (fun x => { x with laneTx := some (4, false), weak := true })) (fun t => (portAt t 3).spared == some 4 &&
      (portAt t 3).txSpared == none && newsOf on t == [(0x0C05, .minor)]) = true ∧
    runs (.laneSpareSwitch ⟨3, true⟩) (port (fun x => { x with move := some (4, false), spared := some 1 })) (fun t => (portAt t 3).txSpared == some 4 &&
      (portAt t 3).spared == some 1) = true ∧
    runs (.flitAckReceive 3 ((ack 0x11 5 9).set 5 1#8)) (buffered 0) (fun t => (portAt t 3).gap && (portAt t 3).outq.length == 1 &&
      (portAt t 3).buffer.length == 2) = true ∧
    runs (.flitAckReceive 3 (ack 0x11 5 9)) (buffered 0) (fun t => (portAt t 3).buffer.map fSeq == [6] && (portAt t 3).credit == 64) = true ∧
    runs (.flitNakReceive 3 (ack 0x12 6 0)) (buffered 0) (fun t => (portAt t 3).outq.map (fun f => (fSeq f, leAt f 1 1)) == [(6, 1)] &&
      (portAt t 3).nak == 1 && (portAt t 3).replay == 1) = true := by decide +kernel
theorem witness_LinkLayerOfAPort_timers : (portAt (buffered 7) 3).unacked ≠ 0 ∧ 7 ≤ (portAt (buffered 7) 3).timeouts ∧
    (portAt (buffered 6) 3).timeouts + 1 < 8 ∧ 32 < (portAt (port (fun x => { x with uncorrBeat := 33 })) 3).uncorrBeat ∧
    runs (.uncorrectableCodeword 3) (wired on) (fun t => (portAt t 3).uncorr == 1 && (portAt t 3).gap && (portAt t 3).outq.length == 1) = true ∧
    runs (.uncorrectableCodeword 3) (port (fun x => { x with gap := true })) (fun t => (portAt t 3).uncorr == 1 && (portAt t 3).outq == []) = true ∧
    runs (.codewordErrorLimit 3) (port (fun x => { x with uncorrBeat := 33 })) (fun t => (portAt t 3).st == .training) = true ∧
    runs (.codewordErrorLimit 3) (port (fun x => { x with uncorrBeat := 32 })) (fun t => (portAt t 3).st == .up) = true ∧
    runs (.ackTimer 3) (buffered 0) (fun t => (portAt t 3).unacked == 0 && (portAt t 3).creditRet == 0 &&
      (portAt t 3).outq.map (fun f => (leAt f 16 2, leAt f 18 2)) == [(65535, 3)]) = true ∧
    runs (.replayTimeout 3) (buffered 6) (fun t => (portAt t 3).timeouts == 7 && (portAt t 3).outq.map fSeq == [6, 5]) = true ∧
    runs (.replayTimeout 3) (buffered 7) (fun t => (portAt t 3).st == .training && newsOf on t == [(0x0C02, .major)]) = true ∧
    runs (.sealGroupClose 3) (wired on) (fun t => (portAt t 3).group == 0 && (portAt t 3).buffer == []) = true := by decide +kernel
/-- An open seal group of one flit. -/
def grouped : State := port (fun x => { x with sealed := true, sealTx := [flit 1 0 0 0 []] })
theorem witness_LinkLayerOfAPort_seal : portUp grouped 3 = true ∧ (portAt grouped 3).sealTx ≠ [] ∧ (portAt grouped 3).group + 1 ≠ 2 ^ 32 := by
  decide +kernel

/-- Plan 7 takes tiles of two flits, or a sync flit, from rank 2 through port 3. -/
def inbound (kind obj : Nat) (got : List Nat) : State :=
  let s := wired (busy (plan on .installed 1))
  let e : LinkEnt := { link 9 with inbound := true, kind := kind, dest := 0x100, object := obj, inst := 3, got := got }
  { s with cmb := { s.cmb with ctx := vmod s.cmb.ctx 0 (fun x => { x with xmBase := 0x10000, soBase := 10, soCount := 2, links := [e] }) }
           so := { s.so with obj := [(11, { SoObj.init with remote := true, value := 2 })], inst := vput s.so.inst 0 3 } }
/-- A flit of plan 7 for entry 0, instance 3, flit i. -/
def dataFlit (typ i : Nat) (pay : List Byte) : List Byte := mkFlit typ 2 0 0 i 3 7 pay
/-- A SYNC flit that adds 4 to object 1. -/
def syncFlit : List Byte := dataFlit 2 0 (leBytes 8 7 ++ leBytes 2 1 ++ leBytes 2 4 ++ leBytes 2 3)
theorem taken {s : State} {p : Nat} {l : List Byte} {typ : Nat}
    (h : (portUp s p && isFlit l typ && hcrcOk l && fSeq l == (portAt s p).rxSeq && s.hl.roster && (typ == 4 || fromNbr s p l) &&
      decide ((portAt s p).unacked + 1 < 32) && decide (p < 20)) = true) : FlitTaken s p l typ := by
  simp only [Bool.and_eq_true, beq_iff_eq, decide_eq_true_eq, Bool.or_eq_true] at h
  obtain ⟨⟨⟨⟨⟨⟨⟨h1, h2⟩, h3⟩, h4⟩, h5⟩, h6⟩, h7⟩, h8⟩ := h
  exact ⟨h1, h2, h3, h4, h5, fun n => h6.resolve_left n, h7, h8⟩
theorem witness_FlitsOfTheChannels : (portAt (inbound 0 0xFFFF []) 3).sealed = false ∧ FlitTaken (inbound 0 0xFFFF []) 3 (dataFlit 1 1 [9#8]) 1 ∧
    FlitTaken (inbound 2 0xFFFF []) 3 syncFlit 2 ∧
    (schedEntry (inbound 0 0xFFFF []) 3 (dataFlit 1 1 [9#8]) false 0).isSome = true ∧ (schedEntry (inbound 2 0xFFFF []) 3 syncFlit true 0).isSome = true ∧
    schedEntry (inbound 0 0xFFFF []) 3 (dataFlit 1 2 [9#8]) false 0 = none ∧
    runs (.flitDataReceive 3 (dataFlit 1 1 [9#8]) 0) (inbound 0 0xFFFF []) (fun t => t.xm.mem == [(0x101F0, 9#8)] &&
      (ctxAt t 0).links.map (fun e => e.got) == [[1]] && (portAt t 3).rxSeq == 1) = true ∧
    runs (.flitDataReceive 3 (dataFlit 1 2 [9#8]) 0) (inbound 0 0xFFFF []) (fun t => (portAt t 3).bad == 1 && newsOf on t == [(0x0C08, .minor)]) = true ∧
    runs (.flitSyncReceive 3 syncFlit 0) (inbound 2 0xFFFF []) (fun t => (soAt t 11).value == 6) = true ∧
    runs (.inboundEntryComplete 0 0) (inbound 0 1 [1, 0]) (fun t => (ctxAt t 0).links.map (fun e => e.complete) == [true] && (soAt t 11).value == 3) = true ∧
    runs (.inboundEntryComplete 0 0) (inbound 0 0xFFFF [1, 0]) (fun t => (ctxAt t 0).links.map (fun e => e.complete) == [true] &&
      (soAt t 11).value == 2) = true ∧
    runs (.inboundEntryComplete 0 0) (inbound 0 0xFFFF [1]) (fun t => (ctxAt t 0).links.map (fun e => e.complete) == [false]) = true :=
  ⟨by decide +kernel, taken (by decide +kernel), taken (by decide +kernel), by decide +kernel⟩
/-- A HALT of plan 7 at beat 5000, a message for Keeper, and a TAG. -/
def haltFlit : List Byte := flit 5 0 0 0 (leBytes 8 7 ++ leBytes 8 5000)
def messageFlit : List Byte := flit 4 0 0 0 [3#8, 8#8]
theorem witness_FlitsOfTheChannels_halt : FlitTaken (inbound 0 0xFFFF []) 3 haltFlit 5 ∧ FlitTaken (wired on) 3 messageFlit 4 ∧
    FlitTaken (wired on) 3 (flit 6 0 0 0 []) 6 ∧ ctxOf (inbound 0 0xFFFF []) 7 = some 0 ∧ (inbound 0 0xFFFF []).hl.haltSeen = [] ∧
    unschedWindow (wired on) 0 = true ∧ fDst messageFlit = (wired on).beat.ownRank ∧ leAt (fPay messageFlit) 0 1 = 3 ∧
    portUp (wired on) 3 = true ∧ isFlit (mkFlit 1 5 0 0 0 0 0 []) 1 = true ∧ hcrcOk (mkFlit 1 5 0 0 0 0 0 []) = true ∧
    fromNbr (wired on) 3 (mkFlit 1 5 0 0 0 0 0 []) = false ∧
    runs (.flitHaltReceive 3 haltFlit) (inbound 0 0xFFFF []) (fun t => t.hl.halts == 1 && (ctxAt t 0).halted && (ctxAt t 0).haltDue == some 5001) = true ∧
    runs (.flitUnschedReceive 3 messageFlit 0) (wired on) (fun t => t.hl.keeperMsgs.length == 1 && (portAt t 3).creditRet == 1) = true ∧
    runs (.flitTagReceive 3 (flit 6 0 0 0 [])) (wired on) (fun t => (portAt t 3).st == .up && (portAt t 3).rxSeq == 1) = true ∧
    runs (.flitDataReceive 3 (mkFlit 1 5 0 0 0 0 0 []) 0) (wired on) (fun t => (portAt t 3).st == .fenced && (portAt t 3).fence == 1) = true :=
  ⟨taken (by decide +kernel), taken (by decide +kernel), taken (by decide +kernel), by decide +kernel⟩
/-- A TAG for the group that a sealed port holds, with a tag that is wrong in its first field. -/
def tagged : State := port (fun x => { x with sealed := true, sealRx := [{ flit := flit 1 0 0 0 [], arr := none, good := true }] })
theorem witness_FlitsOfTheChannels_tag : FlitTaken tagged 3 (flit 6 0 0 0 (leBytes 2 1)) 6 ∧ (portAt tagged 3).sealed = true ∧
    tagOk tagged 3 (fPay (flit 6 0 0 0 (leBytes 2 1))) = false ∧
    runs (.flitTagReceive 3 (flit 6 0 0 0 (leBytes 2 1))) tagged (fun t => (portAt t 3).st == .fenced && (portAt t 3).fence == 2 &&
      (portAt t 3).tagFail == 1 && newsOf on t == [(0x0C04, .major)]) = true :=
  ⟨taken (by decide +kernel), by decide +kernel⟩
/-- The marker of beat n that rank 2 sends: master 1, one hop. -/
def markerFlit (n : Nat) : List Byte := flit 3 0 0 0 (leBytes 8 n ++ leBytes 2 2 ++ leBytes 2 1 ++ leBytes 1 1)
theorem witness_FlitsOfTheChannels_marker : FlitTaken (hive .seek id) 3 (markerFlit 5000) 3 ∧ FlitTaken (behind .track marker 1) 3 (markerFlit 4990) 3 ∧
    FlitTaken (hive .seek id) 3 (withReplay (markerFlit 5000) true) 3 ∧
    (portAt (hive .seek id) 3).express = false ∧ leAt (fPay (markerFlit 5000)) 8 2 % 1024 = 2 ∧ (portAt (hive .seek id) 3).nbrRank = 2 ∧
    fReplay (markerFlit 5000) = false ∧ fReplay (withReplay (markerFlit 5000) true) = true ∧
    numberDiffers (behind .track marker 1) 4990 (arrival (behind .track marker 1) 3) = true ∧
    numberDiffers (behind .track marker 1) 5000 (arrival (behind .track marker 1) 3) = false ∧
    numberDiffers (behind .track marker 1) 5001 (arrival (behind .track marker 1) (-3)) = false ∧
    runs (.beatMarkerReceive 3 (markerFlit 5000) 3) (hive .seek id) (fun t => (vget t.beat.markers 3 .init).meas == [(5000, 96)] &&
      (vget t.beat.markers 3 .init).master == 1) = true ∧
    runs (.beatMarkerReceive 3 (markerFlit 5001) (-3)) (hive .seek id) (fun t => (vget t.beat.markers 3 .init).meas == [(5001, -96)]) = true ∧
    runs (.beatMarkerReceive 3 (withReplay (markerFlit 5000) true) 3) (hive .seek id) (fun t => (vget t.beat.markers 3 .init).meas == [] &&
      (vget t.beat.markers 3 .init).valid) = true ∧
    runs (.beatMarkerReceive 3 (markerFlit 4990) 3) (behind .track marker 1) (fun t => t.beat.adopt == some 4991 &&
      newsOf on t == [(0x0209, .critical)]) = true :=
  ⟨taken (by decide +kernel), taken (by decide +kernel), taken (by decide +kernel), by decide +kernel⟩
/- Mailboxes, firmware, presence, Heartwood and power. -/

/-- Mailbox m changed. -/
def mbox (m : Nat) (f : Mbox → Mbox) : State := { on with wg := { on.wg with mb := vmod on.wg.mb m f } }
/-- Mailbox 0 is DONE with a response of two parts. -/
def parted : State := mbox 0 (fun x => { x with st := .done, resp := zeros 4097 })
/-- A UART frame of that OP, OFFSET and data, with its CRC. -/
def frame (op o n : Nat) (d : List Byte) : List Byte :=
  let l := leBytes 1 op ++ leBytes 2 o ++ leBytes 2 n ++ d
  0xA5#8 :: l ++ leBytes 2 (crc16 l)
theorem witness_MailboxTransports : mbReach on 0 = true ∧ mbReach on 2 = true ∧ mbReach on 3 = true ∧ mbLocked on 0 = false ∧
    mbLocked (mbox 0 (fun x => { x with st := .busy })) 0 = true ∧ on.hi.fwRuns = true ∧ (mbAt parted 0).st = .done ∧
    (mbAt parted 0).part + 1 < partsOf ((mbAt parted 0).resp.length - 64) ∧ keeperFree parted = true ∧
    runs (.doorbellRing 0) (mbox 0 (fun x => { x with st := .busy })) (fun t => (mbAt t 0).ringBusy == 1 && (mbAt t 0).st == .busy) = true ∧
    runs (.doorbellRing 0) on (fun t => (mbAt t 0).st == .rung) = true ∧
    runs (.doorbellInvalid 0 3#32) on (fun t => (mbAt t 0).ringBusy == 1) = true ∧
    runs (.mailboxPageWrite 0 0xFDC 0x01020304#32) on (fun t => (mbAt t 0).page == [(0xFDC, 4#8), (0xFDD, 3#8), (0xFDE, 2#8), (0xFDF, 1#8)]) = true ∧
    runs (.doorbellNext 0) parted (fun t => (mbAt t 0).part == 1 && (mbAt t 0).st == .done) = true ∧
    runs (.smbusSetOffset 0xFFC true) on (fun t => t.wg.smbOff == 0xFFC && !t.wg.smbNak) = true ∧
    runs (.smbusSetOffset 6 true) on (fun t => t.wg.smbOff == 0 && t.wg.smbNak) = true ∧
    runs (.smbusSetOffset 8 false) on (fun t => t.wg.smbOff == 0 && (mbAt t 2).frameErr == 1 && newsOf on t == [(0x0E02, .minor)]) = true ∧
    runs (.smbusWrite [1#8, 2#8, 3#8, 4#8] true) { on with wg := { on.wg with smbOff := 0xFDC } } (fun t => t.wg.smbOff == 0xFE0 &&
      (mbAt t 2).page == [(0xFDC, 1#8), (0xFDD, 2#8), (0xFDE, 3#8), (0xFDF, 4#8)]) = true ∧
    runs .smbusRead { on with wg := { on.wg with smbOff := 0xFF8 } } (fun t => t.wg.smbData == zeros 8 && t.wg.smbOff == 0) = true := by
  decide +kernel
theorem witness_MailboxTransports_uart : uartFrame on 1 (frame 1 8 4 [1#8, 2#8, 3#8, 4#8]) = true ∧ uartCrcOk (frame 1 8 4 [1#8, 2#8, 3#8, 4#8]) = true ∧
    uartRangeOk (frame 1 8 4 [1#8, 2#8, 3#8, 4#8]) = true ∧ uartFrame on 1 ((frame 1 8 4 [1#8, 2#8, 3#8, 4#8]).set 6 9#8) = true ∧
    uartCrcOk ((frame 1 8 4 [1#8, 2#8, 3#8, 4#8]).set 6 9#8) = false ∧ uartFrame on 1 [0xA5#8, 1#8, 8#8] = false ∧
    uartFrame on 2 (frame 2 8 4 []) = true ∧ uartFrame on 3 (frame 3 0 4 (leBytes 4 921600)) = true ∧ uartRates.contains 921600 = true ∧
    runs (.uartWrite (frame 1 8 4 [1#8, 2#8, 3#8, 4#8])) on (fun t => (mbAt t 3).page == [(8, 1#8), (9, 2#8), (10, 3#8), (11, 4#8)] &&
      (t.wg.uartReply.take 4) == [0x5A#8, 0#8, 0#8, 0#8]) = true ∧
    runs (.uartWrite ((frame 1 8 4 [1#8, 2#8, 3#8, 4#8]).set 6 9#8)) on (fun t => (mbAt t 3).page == [] && (mbAt t 3).frameErr == 1 &&
      (t.wg.uartReply.take 2) == [0x5A#8, 1#8]) = true ∧
    runs (.uartWrite [0xA5#8, 1#8, 8#8]) on (fun t => t.wg.uartPart == [0xA5#8, 1#8, 8#8]) = true ∧
    runs (.uartRead (frame 2 8 4 [])) on (fun t => (t.wg.uartReply.take 8) == [0x5A#8, 0#8, 4#8, 0#8, 0#8, 0#8, 0#8, 0#8]) = true ∧
    runs (.uartBaud (frame 3 0 4 (leBytes 4 921600))) on (fun t => t.wg.baud == 921600) = true ∧
    runs .uartBreak on (fun t => (mbAt t 3).frameErr == 1) = true := by decide +kernel

/-- A load of n bytes into slot B is open. -/
def session (s : State) (next total : Nat) : State := { s with fw := { s.fw with session := some (1, next, total) } }
/-- FW_LOAD BEGIN, DATA or FINISH of slot B. -/
def fwLoad (step n : Nat) (data : List Byte) : List Byte := [1#8, BitVec.ofNat 8 step, 0#8, 0#8] ++ leBytes 4 n ++ data
/-- The device in RECOVERY. -/
def rescue (s : State) : State := { s with hi := { s.hi with readiness := .recovery, fwRuns := false } }
theorem witness_FirmwareLoadsAndKeys : presenceCheck on false = some 0x23 ∧
    presenceCheck { proved on with gr := { (proved on).gr with qualified := false } } false = some 0x22 ∧ presenceCheck (proved on) false = none ∧
    AtCommand (cmd on 0x901 0 (fwLoad 0 786432 [])) 0x901 0 (fwLoad 0 786432 []) ∧ AtCommand (cmd on 0x902 0 []) 0x902 0 [] ∧
    AtCommand (cmd on 0x903 0 []) 0x903 0 [] ∧ AtCommand (cmd on 0x904 0 []) 0x904 0 [] ∧ fwShape (fwLoad 0 786432 []) = true ∧
    slotBad on 0 = false ∧ AtCommand { session (cmd on 0x901 0 (fwLoad 0 4 [])) 0 4 with wg := (cmd on 0x901 0 (fwLoad 0 4 [])).wg } 0x901 0 (fwLoad 0 4 []) ∧
    runs .fwLoadBegin (cmd on 0x901 0 (fwLoad 0 786432 [])) (fun t => answered t 0 0x23 []) = true ∧
    runs .hiveKeyLoad (cmd on 0x902 0 []) (fun t => answered t 0 0x23 []) = true ∧
    runs .fwLoadBegin (cmd (proved on) 0x901 0 (fwLoad 0 786432 [])) (fun t => t.fw.session == some (1, 0, 786432) && t.fw.badB &&
      t.wg.wait == .norErase) = true ∧
    runs .fwLoadData (session (cmd (proved on) 0x901 0 (fwLoad 1 4 [7#8])) 4 8) (fun t => answered t 0 0 [] && t.fw.session == some (1, 5, 8) &&
      t.fw.slotB == [(4, 7#8)]) = true ∧
    runs .fwLoadData (session (cmd (proved on) 0x901 0 (fwLoad 1 3 [7#8])) 4 8) (fun t => answered t 0 0x20 [] && t.fw.session == some (1, 4, 8)) = true :=
  ⟨by decide +kernel, by decide +kernel, by decide +kernel, at_of (by decide +kernel), at_of (by decide +kernel), at_of (by decide +kernel),
    at_of (by decide +kernel), by decide +kernel, by decide +kernel, at_of (by decide +kernel), by decide +kernel⟩
theorem witness_FirmwareLoadsAndKeys_finish : imageOk image = true ∧ (786432 : Nat) ≤ 786432 ∧ imageOk { image with len := 786433 } = false ∧
    runs (.fwLoadFinish image) (session (cmd (proved on) 0x901 0 (fwLoad 2 0 [])) 786432 786432) (fun t => answered t 0 0 [] && !t.fw.badB &&
      t.fw.session == none && newsOf on t == [(0x0F06, .major)]) = true ∧
    runs (.fwLoadFinish image) (session (cmd (proved on) 0x901 0 (fwLoad 2 0 [])) 786433 786433) (fun t => answered t 0 0x20 [] &&
      t.fw.session == none) = true ∧
    runs (.fwLoadFinish image) (session (cmd (proved (rescue on)) 0x901 0 (fwLoad 2 0 [])) 9 9) (fun t => t.hi.warmDue == some 4 && (mbAt t 0).code == 0) = true ∧
    runs .fwLoadSessionTimeout (session on 4 8) (fun t => t.fw.session == none && t.fw.badB) = true := by decide +kernel
/-- A BEGIN that waits for its erase, over a slot with a byte in its first MiB and one after it. -/
def erasing : State :=
  let s := session (cmd on 0x901 0 (fwLoad 0 4 [])) 0 4
  { s with wg := { s.wg with wait := .norErase }, fw := { s.fw with slotB := [(5, 1#8), (0x100000, 2#8)] } }
theorem witness_FirmwareLoadsAndKeys_erase : erasing.fw.session = some (1, 0, 4) ∧ erasing.wg.wait = .norErase ∧
    AtCommand { erasing with wg := { erasing.wg with wait := .none } } 0x901 0 (fwLoad 0 4 []) ∧
    runs .bootNorEraseComplete erasing (fun t => answered t 0 0 [] && t.fw.slotB == [(0x100000, 2#8)]) = true :=
  ⟨rfl, rfl, at_of (by decide +kernel), by decide +kernel⟩
/-- HIVE_KEY_LOAD of a key for that slot. -/
def keyLoad (slot : Nat) : List Byte := leBytes 4 slot ++ 1#8 :: zeros 31
theorem witness_FirmwareLoadsAndKeys_keys : AtCommand (cmd (proved on) 0x902 0 (keyLoad 0)) 0x902 0 (keyLoad 0) ∧ rsvZero (keyLoad 0) 1 3 = true ∧
    rsvZero (keyLoad 0) 4 32 = false ∧ keyInstalled (keyNow on) = false ∧ keyInstalled (keyNow keyed) = true ∧
    hwUsedBlocks { on with hw := { on.hw with used := 2 } } = [6, 7] ∧
    runs .hiveKeyLoad (cmd (proved on) 0x902 0 (keyLoad 0)) (fun t => answered t 0 0 [] && t.hl.keyCur == some (1#8 :: zeros 31)) = true ∧
    runs .hiveKeyLoad (cmd (proved keyed) 0x902 0 (keyLoad 0)) (fun t => answered t 0 0x31 []) = true ∧
    runs .hiveKeyLoad (cmd (proved keyed) 0x902 0 (keyLoad 1)) (fun t => answered t 0 0 [] && t.hl.keyNext == some (1#8 :: zeros 31)) = true ∧
    runs .hwErase (cmd (proved { on with hw := { on.hw with used := 2 } }) 0x903 0 []) (fun t => answered t 0 0 [] && t.hw.erasing == some 6 &&
      t.hw.wipe == [6, 7]) = true :=
  ⟨at_of (by decide +kernel), by decide +kernel⟩

/-- The presence and seal state, changed. -/
def gr (f : Gr → Gr) : State := { on with gr := f on.gr }
theorem witness_PresenceSealAndJournal : alive on = true ∧ (gr (fun g => { g with qualified := true })).gr.qualified = true ∧
    runs (.presenceSample true) (gr (fun g => { g with lowRun := 50 })) (fun t => t.gr.lowRun == 50 && t.gr.presLow) = true ∧
    runs (.presenceSample false) (gr (fun g => { g with qualified := true })) (fun t => !t.gr.qualified && t.gr.window && t.gr.ageMs == some 0) = true ∧
    runs .presenceQualified (gr (fun g => { g with lowRun := 50 })) (fun t => t.gr.qualified) = true ∧
    runs .presenceQualified (gr (fun g => { g with lowRun := 49 })) (fun t => !t.gr.qualified) = true ∧
    runs .presenceWindowExpiry (gr (fun g => { g with window := true, ageMs := some 30000 })) (fun t => !t.gr.window) = true ∧
    runs (.sealSample true false) (gr (fun g => { g with openRun := 1, okRun := 7 })) (fun t => t.gr.openRun == 2 && t.gr.okRun == 0) = true ∧
    runs (.sealSample true true) (gr (fun g => { g with okRun := 6 })) (fun t => t.gr.okRun == 7 && !t.gr.sealOk) = true ∧
    runs (.sealSample true true) (gr (fun g => { g with okRun := 7 })) (fun t => t.gr.okRun == 8 && t.gr.sealOk) = true ∧
    runs .sealBreak (gr (fun g => { g with openRun := 2, sealOk := true, window := true })) (fun t => t.gr.latch && !t.gr.sealOk && !t.gr.window &&
      t.gr.breaks == 1 && newsOf on t == [(0x0F04, .critical)]) = true ∧
    runs .wg3UnsealExpiry { on with wg := { on.wg with open3 := true, unsealS := 9 } } (fun t => !t.wg.open3) = true := by decide +kernel
/-- WG3_UNSEAL with an action, for 60 s. -/
def unsealPay (a : Nat) : List Byte := [BitVec.ofNat 8 a, 0#8] ++ leBytes 4 60
theorem witness_PresenceSealAndJournal_commands : AtCommand (cmd (proved on) 0x906 0 (unsealPay 1)) 0x906 0 (unsealPay 1) ∧
    AtCommand (cmd (proved on) 0x907 0 []) 0x907 0 [] ∧ AtCommand (cmd journal 0x401 0 (leBytes 8 2 ++ leBytes 2 5 ++ [0xFF#8])) 0x401 0 (leBytes 8 2 ++ leBytes 2 5 ++ [0xFF#8]) ∧
    AtCommand (cmd on 0x402 0 (zeros 16)) 0x402 0 (zeros 16) ∧ presenceCheck on true = some 0x23 ∧ presenceCheck (proved on) true = none ∧
    runs .wg3Unseal (cmd (proved on) 0x906 0 (unsealPay 1)) (fun t => answered t 0 0 [] && t.wg.open3 && t.wg.unsealS == 60) = true ∧
    runs .wg3Seal (cmd (proved { on with wg := { on.wg with open3 := true } }) 0x906 0 (unsealPay 0)) (fun t => answered t 0 0 [] && !t.wg.open3) = true ∧
    runs .wg3Unseal (cmd on 0x906 0 (unsealPay 1)) (fun t => answered t 0 0x23 [] && !t.wg.open3) = true ∧
    runs .reseal (cmd (proved on) 0x907 0 []) (fun t => answered t 0 0x31 []) = true ∧
    runs .reseal (cmd (proved (gr (fun g => { g with latch := true }))) 0x907 0 []) (fun t => answered t 0 0 [] && !t.gr.latch &&
      newsOf on t == [(0x0F05, .major)]) = true ∧
    runs .rjRead (cmd journal 0x401 0 (leBytes 8 2 ++ leBytes 2 5 ++ [0xFF#8])) (fun t =>
      answered t 0 0 (leBytes 8 1 ++ leBytes 8 3 ++ [0#8] ++ jBytes (entry 2))) = true ∧
    runs .rjMark (cmd on 0x402 0 (zeros 16)) (fun t => answered t 0 0 []) = true ∧
    runs .rjMark (cmd on 0x402 0 (zeros 15)) (fun t => answered t 0 0x20 []) = true :=
  ⟨at_of (by decide +kernel), at_of (by decide +kernel), at_of (by decide +kernel), at_of (by decide +kernel), by decide +kernel⟩

/-- A record of a type that waits, and one that has been committed to blocks 2 and 3. -/
def pend : HwPend := { kind := .state, typ := 6, payload := leBytes 4 9 }
def record : HwRec := { typ := 1, rseq := 1, beat := 4, boot := 1, payload := [1#8], blks := [2, 3] }
/-- Heartwood changed. -/
def wood (f : Hw → Hw) : State := { on with hw := f on.hw }
theorem witness_HeartwoodLog : hwCanProgram (wood (fun h => { h with queue := [pend] })) = true ∧ ballsTaken on = false ∧ hwWriter on = true ∧
    hwAhead (wood (fun h => { h with used := 6 })) < 2 ∧ hwScanning (wood (fun h => { h with scanned := false, online := false })) = true ∧
    hwKnown on = true ∧ hwKnown (wood (fun h => { h with online := false })) = false ∧
    runs (.heartwoodProgramComplete false true 0) (wood (fun h => { h with queue := [pend] })) (fun t => t.hw.copy0 && t.hw.log == []) = true ∧
    runs (.heartwoodProgramComplete true true 0) (wood (fun h => { h with queue := [pend], copy0 := true })) (fun t => !t.hw.copy0 &&
      t.hw.log.map (fun r => (r.typ, r.rseq, r.blks)) == [(6, 1, [2, 3])] && t.hw.norSession == 9 && t.hw.queue == []) = true ∧
    runs (.heartwoodProgramComplete false false 0) (wood (fun h => { h with queue := [pend], log := [record] })) (fun t => t.hw.retired == [2] &&
      t.hw.map == [992, 3, 4, 5, 6, 7] && t.hw.log.map (fun r => r.blks) == [[3]] && newsOf on t == [(0x1202, .minor)]) = true ∧
    runs (.heartwoodEraseComplete true 201) (wood (fun h => { h with erasing := some 4, used := 4 })) (fun t => t.hw.erasing == none && t.hw.used == 3 &&
      t.hw.erases == [(4, 1)] && newsOf on t == [(0x1204, .major)]) = true ∧
    runs (.heartwoodEraseComplete false 90) (wood (fun h => { h with erasing := some 4, used := 4 })) (fun t => t.hw.erasing == some 4 && t.hw.attempts == 1) = true ∧
    runs (.heartwoodScanComplete true) (wood (fun h => { h with scanned := false, online := false, loaded := false, norSession := 5, norRetired := [77] }))
      (fun t => t.hw.online && t.hl.session == 5 && t.cmb.retired == [77]) = true ∧
    runs (.heartwoodScanComplete false) (wood (fun h => { h with scanned := false, online := false })) (fun t => !t.hw.online && t.hw.scanned &&
      newsOf on t == [(0x1201, .critical)]) = true ∧
    runs .heartwoodScanDeadline (wood (fun h => { h with scanned := false, online := false })) (fun t => !t.hw.online && t.hw.scanned) = true := by
  decide +kernel
/-- HW_READ of five records from 1 on. -/
def hwPay : List Byte := leBytes 8 1 ++ leBytes 2 5 ++ [0#8]
theorem witness_HeartwoodLog_read : AtCommand (cmd (wood (fun h => { h with log := [record] })) 0x801 0 hwPay) 0x801 0 hwPay ∧ 1 ≤ leAt hwPay 8 2 ∧
    runs .hwRead (cmd (wood (fun h => { h with online := false })) 0x801 0 hwPay) (fun t => answered t 0 0x31 []) = true :=
  ⟨at_of (by decide +kernel), by decide +kernel⟩

/-- Idle long enough, with that tolerance in µs. -/
def tolerant (us : Nat) : State := { on with pwr := { on.pwr with idle := 16, tolDev := us }, syn := { on.syn with src := .safe } }
/-- On the way from a low state to Active. -/
def rising (st : PwrSt) : State :=
  { on with pwr := { on.pwr with st := st, waking := some .active }, syn := { on.syn with src := .gated, parkSrc := .c1 } }
theorem witness_PowerStatesAndLimits : mayEnter (tolerant 2) = true ∧ fitState (tolerant 2) (tolEff (tolerant 2)) = .park ∧
    fitState (tolerant 1199) (tolEff (tolerant 1199)) = .doze ∧ fitState (tolerant 40000) (tolEff (tolerant 40000)) = .winter ∧
    idleFor (tolerant 40000) .winter = true ∧ (rising .park).pwr.waking = some .active ∧
    runs .powerStateEntry (tolerant 2) (fun t => t.pwr.st == .park && t.syn.src == .gated && t.syn.parkSrc == .safe && t.pwr.quad == on.pwr.quad) = true ∧
    runs .powerStateEntry (tolerant 1199) (fun t => t.pwr.st == .doze && t.pwr.quad == Vector.replicate 4 false && t.pwr.xmi) = true ∧
    runs .powerStateEntry (tolerant 40000) (fun t => t.pwr.st == .winter && !t.pwr.xmi && !t.pwr.lnk && t.xm.epoch == 1 &&
      t.pwr.cbRet == Vector.replicate 4 true) = true ∧
    runs (.wakeComplete ⟨2, 400⟩) (rising .park) (fun t => t.pwr.st == .active && t.syn.src == .c1 && t.pwr.wakes == 1 && newsOf on t == []) = true ∧
    runs (.wakeComplete ⟨40001, 400⟩) (rising .winter) (fun t => t.pwr.st == .active &&
      newsOf on t == [(0x0706, .major), (0x0804, .major), (0x1306, .major)]) = true ∧
    runs (.thermalTrip 4 920) (busy (plan on .installed 1)) (fun t => t.pwr.tripped && t.pwr.quad == Vector.replicate 4 false &&
      (ctxAt t 0).insts.map (fun i => i.faults.invalid) == [true] && newsOf on t == [(0x1304, .critical)]) = true := by decide +kernel
/-- A thermal trip that has been cool for 1,000 beats, in that power state. -/
def cooled (st : PwrSt) : State := { on with pwr := { on.pwr with tripped := true, cool := 1000, st := st, quad := Vector.replicate 4 false } }
/-- A reading of page 2. -/
def regulator (f : Bool) : RegReading := { page := 2, fault := f, volts := 800, amps := 10, deciWatts := 6501 }
/-- A beat at which the regulators are read. -/
def read64 : State := { on with beat := { on.beat with num := 6400 } }
theorem witness_PowerStatesAndLimits_more : 1000 ≤ (cooled .doze).pwr.cool ∧ read64.beat.num % 64 = 0 ∧ (regulator true).fault = true ∧
    AtCommand (cmd on 0x702 0 (leBytes 2 650)) 0x702 0 (leBytes 2 650) ∧ AtCommand (cmd on 0x702 0 (leBytes 2 651)) 0x702 0 (leBytes 2 651) ∧
    runs .thermalTripRecovery (cooled .doze) (fun t => !t.pwr.tripped && t.pwr.quad == Vector.replicate 4 false) = true ∧
    runs .thermalTripRecovery (cooled .active) (fun t => t.pwr.quad == Vector.replicate 4 true && t.hi.bist == Vector.replicate 4 true) = true ∧
    runs .pwrLimit (cmd on 0x702 0 (leBytes 2 650)) (fun t => answered t 0 0 [] && t.pwr.limitW == 650) = true ∧
    runs .pwrLimit (cmd on 0x702 0 (leBytes 2 99)) (fun t => answered t 0 0x20 [] && t.pwr.limitW == 650) = true ∧
    runs (.regulatorRead [regulator false]) read64 (fun t => t.us.power == 6501 && t.pwr.above == 1 && t.pwr.faulty == []) = true ∧
    runs (.regulatorRead [regulator true]) read64 (fun t => t.pwr.faulty == [(2, 6400)] && t.pwr.regFaults == 1) = true ∧
    runs (.regulatorFaultClear 2) { read64 with pwr := { on.pwr with faulty := [(2, 5400)] } } (fun t => t.pwr.faulty == []) = true ∧
    runs (.regulatorFaultClear 2) { read64 with pwr := { on.pwr with faulty := [(2, 5401)] } } (fun t => t.pwr.faulty == [(2, 5401)]) = true ∧
    runs .telemetrySummary { on with us := { on.us with telBeats := #v[36000000, 0, 0, 0, 0] } } (fun t => t.hw.queue.map (fun r => r.typ) == [10] &&
      t.us.telBeats == #v[0, 0, 0, 0, 0]) = true :=
  ⟨by decide +kernel, by decide +kernel, by decide +kernel, at_of (by decide +kernel), at_of (by decide +kernel), by decide +kernel⟩

/-- Keeper works on a query with no payload. -/
theorem asked (op : Nat) (h : op < 0x24) : AtCommand (cmd on op 0 []) op 0 [] := by
  have hall : ∀ k < 0x24, atB (cmd on k 0 []) k 0 [] = true := by decide +kernel
  exact at_of (hall op h)
theorem witness_QueriesAnswer : AtCommand (cmd on 0x01 0 []) 0x01 0 [] ∧ AtCommand (cmd on 0x23 0 []) 0x23 0 [] ∧
    AtCommand (cmd (plan on .standby 1) 0x12 0 (leBytes 8 7)) 0x12 0 (leBytes 8 7) ∧ ctxOf (plan on .standby 1) 7 = some 0 ∧ ctxOf on 7 = none ∧
    AtCommand (cmd on 0x19 0 (leBytes 2 4095 ++ leBytes 2 1)) 0x19 0 (leBytes 2 4095 ++ leBytes 2 1) ∧
    runs .queryBoot (cmd on 0x02 0 []) (fun t => (mbAt t 0).code == 0 && leAt ((mbAt t 0).resp.drop 64) 0 4 == 6) = true ∧
    runs .queryPlan (cmd on 0x12 0 (leBytes 8 7)) (fun t => answered t 0 0x30 []) = true ∧
    runs .queryBuf (cmd on 0x19 0 (leBytes 2 4095 ++ leBytes 2 1)) (fun t => answered t 0 0 (zeros 20)) = true ∧
    runs .queryBuf (cmd on 0x19 0 (leBytes 2 4095 ++ leBytes 2 2)) (fun t => answered t 0 0x20 []) = true :=
  ⟨asked 0x01 (by decide), asked 0x23 (by decide), at_of (by decide +kernel), by decide +kernel, by decide +kernel, at_of (by decide +kernel),
    by decide +kernel⟩

end Sys2Proof.Tests
end

section
/-! PROOFS. Every command completes (log 3, log 19), and the state right after a cold reset (R5, R44, R48, R108, R244, R367). -/

namespace Sys2Proof.Machine

open Sys2Proof

/-- A TAP command answers the state before with another TAP (R448). -/
theorem exec_jtag (c : Instr) (s : State) (h : isJtag c = true) : ∃ j, exec c s = .next { s with jtag := j } := by
  have load (f : Jtag → Jtag) : ∃ j, Host.Outcome.next (tapLoad s f) = (.next { s with jtag := j } : Host.Outcome State Fault Refusal) :=
    (tapLoad_only s f).imp fun _ => congrArg _
  cases c with
  | jtagTapReset => exact ⟨_, rfl⟩
  | jtagBypass => exact load _
  | jtagIdcode => exact load _
  | jtagSamplePreload pins preload => exact load _
  | jtagExtest => exact load _
  | jtagClamp => exact load _
  | jtagHighz => exact load _
  | _ => cases h

theorem exec_completes (c : Instr) (s : State) : ∃ t, exec c s = .next t ∧ t.pending = s.pending := by
  cases h : isJtag c with
  | false => exact (exec_sound c s h).imp fun _ ⟨ht, hs⟩ => ⟨ht, hs.pending⟩
  | true =>
    obtain ⟨j, hj⟩ := exec_jtag c s h
    exact ⟨_, hj, rfl⟩

theorem step_idle (s : State) (h : s.pending = []) : step s = .next (tick s) := by
  unfold step
  rw [h]

theorem romSelect_bootStep (s : State) : ∃ r n, romSelect s = bootStep s r n := by
  unfold romSelect
  split
  · exact ⟨_, _, rfl⟩
  · exact ⟨s.hi.readiness, s.hi.progress, rfl⟩

/-- What Keeper does by itself moves the readiness state and the progress code only (R38). -/
theorem tick_bootStep (s : State) : ∃ r n, tick s = bootStep s r n := by
  unfold tick
  split
  · split
    · exact romSelect_bootStep s
    · exact ⟨s.hi.readiness, _, rfl⟩
    · exact ⟨s.hi.readiness, _, rfl⟩
    · exact ⟨s.hi.readiness, _, rfl⟩
    · exact ⟨s.hi.readiness, s.hi.progress, rfl⟩
  · exact ⟨s.hi.readiness, s.hi.progress, rfl⟩

theorem tick_keeperOff (s : State) (h : s.pwr.keeper = false) : tick s = s := by
  unfold tick
  rw [if_neg (by simp [h])]

/-- Outside ROM, FW_VERIFY and MEMORY Keeper does nothing by itself. -/
theorem tick_elsewhere (s : State) (h1 : s.hi.readiness ≠ .rom) (h2 : s.hi.readiness ≠ .fwVerify) (h3 : s.hi.readiness ≠ .memory) :
    tick s = s := by
  unfold tick
  split
  · split
    · exact absurd ‹_› h1
    · exact absurd ‹_› h2
    · exact absurd ‹_› h2
    · exact absurd ‹_› h3
    · rfl
  · rfl

/-- Settles O2: every command answers a next state with its queue (exec_sound, exec_jtag), and an idle step is a bootStep. -/
theorem everyCommandCompletes : Obligations.EveryCommandCompletes := by
  refine ⟨exec_completes, fun s hs => ⟨tick s, step_idle s hs, ?_, ?_⟩⟩
  · obtain ⟨r, n, h⟩ := tick_bootStep s
    rw [h]
    rfl
  · rintro (h | ⟨h1, h2, h3⟩)
    · exact tick_keeperOff s h
    · exact tick_elsewhere s h1 h2 h3

@[simp] theorem vget_replicate {α : Type} (n i : Nat) (x : α) : vget (Vector.replicate n x) i x = x := by
  unfold vget
  split
  · simp
  · rfl

theorem ctxAt_reset (k : Nat) : ctxAt State.reset k = .init := vget_replicate 4 k _
theorem mbAt_reset (m : Nat) : mbAt State.reset m = .init := vget_replicate 4 m _
theorem portAt_reset (p : Nat) : portAt State.reset p = .init := vget_replicate 20 p _

/-- Settles O3: the fields of the reset state one by one; ctxAt_reset, mbAt_reset and portAt_reset give the indexed ones. -/
theorem resetLeaves : Obligations.ResetLeaves := by
  have hctx : ∀ k, k < 4 → (ctxAt State.reset k).st = .empty := fun k _ => by rw [ctxAt_reset]; rfl
  have hmb : ∀ m, m < 4 → (mbAt State.reset m).st = .idle := fun m _ => by rw [mbAt_reset]; rfl
  have hport : ∀ p, p < 20 → (portAt State.reset p).st = .off := fun p _ => by rw [portAt_reset]; rfl
  exact ⟨rfl, rfl, rfl, rfl, rfl, rfl, rfl, rfl, rfl, rfl, rfl, rfl, rfl, rfl, rfl, rfl, rfl, hctx, rfl, rfl, rfl, rfl, hmb, rfl, rfl, rfl,
    rfl, rfl, rfl, rfl, hport, rfl⟩

end Sys2Proof.Machine
end

section
/-! PROOFS. Host access to BAR0 (R3, R4, R6, R7, R9): what each kind of access runs to while the function answers, and what it leaves. -/

namespace Sys2Proof.Machine

open Sys2Proof

/- The accesses that the host makes while the function answers. -/

theorem exec_registerWrite {s : State} {off : Nat} (v sc : Word) (h : hostUp s = true) (hr : (readReg s off).isSome = true) :
    exec (.registerWrite off v sc) s = .next (hostWrite32 s off v sc) :=
  congrArg _ (if_pos (by simp [h, hr]))

theorem exec_rcFieldRead {s : State} {off : Nat} (u : Word) (h : hostUp s = true) (hr : (readReg s off).isSome = true) :
    exec (.rcFieldRead off u) s = .next (hostRead32 s off u) :=
  congrArg _ (if_pos (by simp [h, hr]))

theorem exec_lowWordRead {s : State} {off : Nat} (h : hostUp s = true) (h64 : is64 off = true) :
    exec (.lowWordRead off) s = .next (hostRead32 s off 0#32) :=
  congrArg _ (if_pos (by simp [h, h64]))

theorem exec_highWordWrite {s : State} {off : Nat} (v : Word) (h : hostUp s = true) (h64 : is64 off = true) :
    exec (.highWordWrite (off + 4) v) s = .next (hostWrite32 s (off + 4) v 0#32) :=
  congrArg _ (if_pos (by simp [h, h64]))

theorem exec_misalignedAccess {s : State} {off width : Nat} (write : Bool) (h : hostUp s = true) (hb : off < 0x400000)
    (hw : width ≠ 4 ∨ off % 4 ≠ 0) :
    exec (.misalignedAccess write off width) s = .next (accessErr (if write then s else { s with hi.readData := [0#32] })) :=
  congrArg _ (if_pos (by simp [h, hb, hw]))

theorem exec_undefinedOffsetAccess {s : State} {off : Nat} (write : Bool) (h : hostUp s = true) (hb : off < 0x400000)
    (ha : off % 4 = 0) (hr : readReg s off = none) :
    exec (.undefinedOffsetAccess write off) s =
      .next (if write then hostWrite32 s off 0#32 0#32 else hostRead32 s off 0#32) :=
  congrArg _ (if_pos (by simp [h, hb, ha, hr]))

/- One word read or written. -/

theorem readReg_unaligned (s : State) {off : Nat} (h : off % 4 ≠ 0) : readReg s off = none := by
  unfold readReg
  exact if_pos h

theorem hostWrite32_undefined {s : State} {off : Nat} (v sc : Word) (hr : readReg s off = none) :
    hostWrite32 s off v sc = accessErr s := by
  unfold hostWrite32
  rw [hr]

theorem hostRead32_undefined {s : State} {off : Nat} (u : Word) (hr : readReg s off = none) :
    hostRead32 s off u = accessErr { s with hi.readData := [0#32] } := by
  unfold hostRead32
  rw [hr]

/-- A write of a word outside the 64-bit registers. -/
theorem hostWrite32_single {s : State} {off : Nat} (v sc : Word) (hr : (readReg s off).isSome = true) (hl : is64 off = false)
    (hh : is64 (off - 4) = false) : hostWrite32 s off v sc = writeReg s off v sc := by
  obtain ⟨w, hw⟩ := Option.isSome_iff_exists.mp hr
  unfold hostWrite32
  simp [hw, hl, hh]

/-- A write of the high word of a 64-bit register is held (R4). -/
theorem hostWrite32_high {s : State} {off : Nat} {w : Word} (v sc : Word) (hr : readReg s (off + 4) = some w) (h64 : is64 off = true) :
    hostWrite32 s (off + 4) v sc = dropLatch { s with hi.held := s.hi.held.insertAt off v.toNat } off := by
  unfold hostWrite32
  simp [hr, h64]

/-- A read of a word outside the 64-bit registers. -/
theorem hostRead32_single {s : State} {off : Nat} {w : Word} (u : Word) (hr : readReg s off = some w) (hl : is64 off = false)
    (hh : is64 (off - 4) = false) : hostRead32 s off u = rcPut { s with hi.readData := [w] } off u := by
  unfold hostRead32
  simp [hr, hl, hh]

/-- A read of the low word of a 64-bit register latches the high word (R4). -/
theorem hostRead32_low {s : State} {off : Nat} {v w : Word} (u : Word) (h64 : is64 off = true) (hv : readReg s off = some v)
    (hw : readReg s (off + 4) = some w) :
    hostRead32 s off u = { s with hi.readData := [v], hi.latch := s.hi.latch.insertAt off w.toNat } := by
  unfold hostRead32
  simp [hv, hw, h64]

/-- The high word of a 64-bit register is the low word of none. -/
theorem is64_high {off : Nat} (h : is64 off = true) : is64 (off + 4) = false := by
  simp only [is64, List.contains_cons, List.contains_nil, Bool.or_false, Bool.or_eq_true, Bool.and_eq_true, beq_iff_eq, decide_eq_true_eq] at h
  simp only [is64, List.contains_cons, List.contains_nil, Bool.or_false, Bool.or_eq_false_iff, Bool.and_eq_false_iff, beq_eq_false_iff_ne, decide_eq_false_iff_not]
  omega

/-- A read of the high word of a 64-bit register while its latch is set (R4). -/
theorem hostRead32_latched {s : State} {off h : Nat} {w : Word} (u : Word) (h64 : is64 off = true) (hw : readReg s (off + 4) = some w)
    (hl : s.hi.latch.find off = some h) :
    hostRead32 s (off + 4) u = { s with hi.readData := [w32 h], hi.latch := s.hi.latch.eraseAt off } := by
  unfold hostRead32 dropLatch
  simp [hw, h64, is64_high h64, hl]

/-- A read of the high word of a 64-bit register without a latch (R4). -/
theorem hostRead32_live {s : State} {off : Nat} {w : Word} (u : Word) (h64 : is64 off = true) (hw : readReg s (off + 4) = some w)
    (hl : s.hi.latch.find off = none) : hostRead32 s (off + 4) u = { s with hi.readData := [w] } := by
  unfold hostRead32
  simp [hw, h64, is64_high h64, hl]

/-- The words that hold RO, RC and KW fields only: the identity page but for HI_RESET_CAUSE, the beat and Comb controllers, and the
blocks from XM_DLMISS_CNT up (R6). -/
theorem writeReg_readOnly (s : State) {off : Nat} (v sc : Word)
    (h : (off < 0x10000 ∧ off ≠ 0x30) ∨ (0x50000 ≤ off ∧ off < 0x70000) ∨ 0xB0014 ≤ off) : writeReg s off v sc = s := by
  unfold writeReg
  repeat rw [if_neg (by omega)]

/-- A write of JN_FAULT of quadrant q (Table 6.9). -/
theorem writeReg_jnFault (s : State) {q : Nat} (v sc : Word) (hq : q < 4) :
    writeReg s (0x70004 + 0x100 * q) v sc = onQuad s q (fun x => { x with
      jnFmt := w1c x.jnFmt v sc 0, jnBound := w1c x.jnBound v sc 1, jnPoison := w1c x.jnPoison v sc 2 }) := by
  have hbank : (0x70004 + 0x100 * q) % 0x10000 / 0x100 = q := by omega
  unfold writeReg
  iterate 10 rw [if_neg (by omega)]
  rw [if_pos (by omega)]
  unfold w1cQuad
  rw [if_neg (by omega), hbank]
  simp only [if_pos (show 0x70004 + 0x100 * q < 0x80000 by omega)]

/-- JN_FAULT of a quadrant is a defined word outside the 64-bit registers (Table 6.9). -/
theorem jnFault_single (s : State) {q : Nat} (hq : q < 4) :
    (readReg s (0x70004 + 0x100 * q)).isSome = true ∧ is64 (0x70004 + 0x100 * q) = false ∧ is64 (0x70004 + 0x100 * q - 4) = false :=
  match q, hq with
  | 0, _ => ⟨rfl, rfl, rfl⟩
  | 1, _ => ⟨rfl, rfl, rfl⟩
  | 2, _ => ⟨rfl, rfl, rfl⟩
  | 3, _ => ⟨rfl, rfl, rfl⟩

/-- Settles O8: an access fault is accessErr, whatever the access was (R3, R9). -/
theorem accessFaultsOnlyCount : Obligations.AccessFaultsOnlyCount := by
  refine fun s => ⟨fun off => readReg_unaligned s, fun h => ⟨fun off width hb hw => ⟨?_, ?_⟩, fun off hb ha hr => ⟨?_, ?_⟩⟩⟩
  · exact exec_misalignedAccess true h hb hw
  · exact exec_misalignedAccess false h hb hw
  · rw [exec_undefinedOffsetAccess true h hb ha hr, if_pos rfl, hostWrite32_undefined _ _ hr]
    rfl
  · rw [exec_undefinedOffsetAccess false h hb ha hr, if_neg (by decide), hostRead32_undefined _ hr]
    rfl

/-- Settles O9: the four words are defined and stand outside the 64-bit registers, so each access is writeReg or rcPut on its word. -/
theorem w1cAndRcInOneClock : Obligations.W1cAndRcInOneClock := by
  refine fun s h v sc => ⟨?_, fun q hq => ?_, ?_, ?_⟩
  · rw [exec_registerWrite v sc h rfl, hostWrite32_single v sc rfl (by decide) (by decide)]
    rfl
  · obtain ⟨hr, hl, hh⟩ := jnFault_single s hq
    rw [exec_registerWrite v sc h hr, hostWrite32_single v sc hr hl hh, writeReg_jnFault s v sc hq]
    rfl
  · rw [exec_rcFieldRead sc h rfl, hostRead32_single sc rfl (by decide) (by decide)]
    rfl
  · rw [exec_rcFieldRead sc h rfl, hostRead32_single sc rfl (by decide) (by decide)]
    rfl

/-- Settles O10: such a write is a writeReg outside its fields that a host may change (writeReg_readOnly). -/
theorem readOnlyWordsIgnoreWrites : Obligations.ReadOnlyWordsIgnoreWrites := by
  intro s off v sc h hr hl hh hro
  rw [exec_registerWrite v sc h hr, hostWrite32_single v sc hr hl hh, writeReg_readOnly s v sc hro]

/-- Settles O11: the five accesses of a 64-bit register, each by its own lemma. -/
theorem sixtyFourBitPairs : Obligations.SixtyFourBitPairs := by
  intro s off v w h h64 hv hw
  have hsome : (readReg s (off + 4)).isSome = true := by rw [hw]; rfl
  refine ⟨⟨_, exec_lowWordRead h h64, ?_⟩, fun x u hl => ?_, fun u hl => ?_, fun x => ⟨_, exec_highWordWrite x h h64, ?_⟩⟩
  · rw [hostRead32_low _ h64 hv hw]
    refine ⟨rfl, ?_, fun o ho => ?_⟩
    · exact (SMap.find_insertAt _ _ _ _).trans (if_pos rfl)
    · exact (SMap.find_insertAt _ _ _ _).trans (if_neg ho)
  · rw [exec_rcFieldRead u h hsome, hostRead32_latched u h64 hw hl]
  · rw [exec_rcFieldRead u h hsome, hostRead32_live u h64 hw hl]
  · rw [hostWrite32_high x _ hw h64]
    exact ⟨rfl, (SMap.find_insertAt _ _ _ _).trans (if_pos rfl)⟩

end Sys2Proof.Machine
end

section
/-! PROOFS. Scrubbing and the debug aperture (R3, R311, R312, R334, R387). -/

namespace Sys2Proof.Machine

open Sys2Proof

/- The scrubber. -/

/-- The state in which a page called for by the pace counts as started (R387). -/
def scrubStarted (s : State) (q : Nat) : State :=
  onArb { s with us.started := vmod s.us.started q (fun n => n + 1) } q (fun a => { a with scrubAgain := false, writeBack := false })

/-- A page that the pace calls for, in its turn: it counts as started, and is skipped or begun (R387). -/
theorem exec_scrubPageStart {s : State} {q : Quad} (hr : sliceRuns s q.val = true) (hu : understoryTime s q.val = true)
    (hj : (jobOf (arbAt s q.val) 10).len = 0) (ha : (arbAt s q.val).scrubAgain = false) (hc : vget s.us.catchUp q.val false = false)
    (hw : rebuildWaits s q.val = false) (hd : vget s.us.started q.val 0 < scrubDue s) :
    exec (.scrubPageStart q) s = .next (
      if scrubSkips s (scrubPage s q.val) then scrubAdvance (scrubStarted s q.val) q.val
      else onJob (scrubStarted s q.val) q.val 10 (fun j => { j with len := 64, done := 0 })) := by
  have hcalled : scrubCalled s q.val = true := by simp [scrubCalled, hj, hd]
  refine congrArg _ ((if_pos (by simp [hr, hu, hcalled, hw])).trans ?_)
  simp only [ha, hc, Bool.or_self, Bool.false_eq_true, if_false]
  rfl

theorem scrubAdvance_inPass (s : State) (q : Nat) (h : vget s.us.page q 0 + 1 < 98304) :
    scrubAdvance s q = { s with us.page := vput s.us.page q (vget s.us.page q 0 + 1) } := if_pos h

/- The aperture read. -/

/-- Only the arbiters differ, and no aperture read has begun or ended. -/
structure ApertureKept (s t : State) : Prop where
  arb : t = { s with arb := t.arb }
  kept : ∀ k, (arbAt t k).aperture = (arbAt s k).aperture

theorem ApertureKept.trans {s t u : State} (h : ApertureKept s t) (k : ApertureKept t u) : ApertureKept s u :=
  ⟨by rw [k.arb, h.arb], fun j => (k.kept j).trans (h.kept j)⟩

theorem onArb_apertureKept (s : State) (q : Nat) {f : Arb → Arb} (h : ∀ a, (f a).aperture = a.aperture) :
    ApertureKept s (onArb s q f) := by
  refine ⟨rfl, fun k => ?_⟩
  unfold arbAt onArb
  rw [vget_vmod]
  split
  · rename_i hk
    obtain ⟨rfl, -⟩ := hk
    exact h _
  · rfl

theorem presentReq_apertureKept (s : State) (q : Nat) (e : PqEntry) : ApertureKept s (presentReq s q e) := by
  unfold presentReq
  dsimp only
  split
  · exact onArb_apertureKept s q fun _ => rfl
  · split
    · exact onArb_apertureKept s q fun _ => rfl
    · exact onArb_apertureKept s q fun _ => rfl

theorem onJob_apertureKept (s : State) (q id : Nat) (f : PortJob → PortJob) : ApertureKept s (onJob s q id f) :=
  onArb_apertureKept s q fun _ => rfl

theorem portRequest_apertureKept (s : State) (q id page len : Nat) : ApertureKept s (portRequest s q id page len) :=
  (onJob_apertureKept s q id _).trans (presentReq_apertureKept _ q _)

theorem exec_apertureRead_otherShape {s : State} {off len : Nat} (h : hostUp s = true) (hb : off < 0x10000000) (hi : apertureIdle s = true)
    (hx : off % 4 ≠ 0 ∨ len % 4 ≠ 0 ∨ len < 4 ∨ 64 < len ∨ off / 64 ≠ (off + len - 1) / 64) :
    exec (.apertureRead off len) s = .next (accessErr { s with hi.readData := [0#32] }) :=
  congrArg _ ((if_pos (by simp [h, hb, hi])).trans (if_pos hx))

/-- A read of whole words inside one line is presented at the arbiter of the slice of its address a. -/
theorem exec_apertureRead_words {s : State} {off len a : Nat} (h : hostUp s = true) (hb : off < 0x10000000) (hi : apertureIdle s = true)
    (hx : ¬ (off % 4 ≠ 0 ∨ len % 4 ≠ 0 ∨ len < 4 ∨ 64 < len ∨ off / 64 ≠ (off + len - 1) / 64))
    (ha : s.hi.aperture * 0x10000000 + off = a) :
    exec (.apertureRead off len) s = .next (
      portRequest (onArb s (a / 0x18000000) (fun x => { x with aperture := some (a, len) })) (a / 0x18000000) 13 (a / 4096) 1) := by
  subst ha
  exact congrArg _ ((if_pos (by simp [h, hb, hi])).trans (if_neg hx))

theorem portRequest_waits (s : State) {q : Nat} (a len page : Nat) (hq : q < 4) {u : State}
    (hu : u = portRequest (onArb s q (fun x => { x with aperture := some (a, len) })) q 13 page 1) :
    u = { s with arb := u.arb } ∧ (arbAt u q).aperture = some (a, len) := by
  obtain ⟨harb, hkept⟩ := portRequest_apertureKept (onArb s q (fun x => { x with aperture := some (a, len) })) q 13 page 1
  rw [← hu] at harb hkept
  refine ⟨harb, ?_⟩
  rw [hkept, arbAt_onArb_same _ _ _ hq]

theorem apertureRead_waits {s : State} {off len a : Nat} (h : hostUp s = true) (hb : off < 0x10000000) (hi : apertureIdle s = true)
    (hx : ¬ (off % 4 ≠ 0 ∨ len % 4 ≠ 0 ∨ len < 4 ∨ 64 < len ∨ off / 64 ≠ (off + len - 1) / 64)) (hw : s.hi.aperture ≤ 5)
    (ha : s.hi.aperture * 0x10000000 + off = a) :
    Runs (.apertureRead off len) s (fun u => u = { s with arb := u.arb } ∧ (arbAt u (a / 0x18000000)).aperture = some (a, len)) := by
  have hq : a / 0x18000000 < 4 := by omega
  exact ⟨_, exec_apertureRead_words h hb hi hx ha, portRequest_waits s a len (a / 4096) hq rfl⟩

/- The time limit of an aperture read (R312). -/

theorem forUpto_succ {σ : Type} (n : Nat) (f : σ → Nat → σ) (s : σ) : forUpto (n + 1) f s = f (forUpto n f s) n := by
  simp [forUpto, List.range_succ]

/-- A fold over the numbers below n leaves a state that each of its steps leaves alone. -/
theorem forUpto_fixed {σ : Type} {n : Nat} {f : σ → Nat → σ} {s : σ} (h : ∀ k, k < n → f s k = s) : forUpto n f s = s := by
  induction n with
  | zero => rfl
  | succ n ih =>
    have hn : forUpto n f s = s := ih fun k hk => h k (Nat.lt_succ_of_lt hk)
    rw [forUpto_succ, hn, h n (Nat.lt_succ_self n)]

/-- A fold over the numbers below n of which one step alone does something is that step. -/
theorem forUpto_one {σ : Type} {n q : Nat} {f : σ → Nat → σ} {s : σ} (hq : q < n) (before : ∀ k, k < n → k ≠ q → f s k = s)
    (after : ∀ k, k < n → k ≠ q → f (f s q) k = f s q) : forUpto n f s = f s q := by
  induction n with
  | zero => cases hq
  | succ n ih =>
    rw [forUpto_succ]
    by_cases hn : q = n
    · subst hn
      rw [forUpto_fixed fun k hk => before k (Nat.lt_succ_of_lt hk) (Nat.ne_of_lt hk)]
    · rw [ih (by omega) (fun k hk => before k (by omega)) (fun k hk => after k (by omega)), after n (by omega) (Ne.symm hn)]

theorem apertureFails_waiting {s : State} {q a n : Nat} (h : (arbAt s q).aperture = some (a, n)) :
    apertureFails s q = onArb { s with hi.readData := bytesWords (n / 4) [], hi.accessErr := satAdd 32 s.hi.accessErr 1 } q (fun x =>
      { x with aperture := none, jobs := x.jobs.eraseAt 13, queue := x.queue.filter (fun e => e.id != 13) }) := by
  unfold apertureFails
  rw [h]
  rfl

/-- Where one slice alone has an aperture read that waits for a grant, the time limit ends that read. -/
theorem exec_apertureTimeout {s : State} {q a n : Nat} (hs : alive s = true) (hq : q < 4)
    (ho : ∀ k, k < 4 → k ≠ q → (arbAt s k).aperture = none) (ha : (arbAt s q).aperture = some (a, n)) (hn : (arbAt s q).owner = none) :
    exec .apertureTimeout s = .next (apertureFails s q) := by
  have hother (k : Nat) (hk : k < 4) (hne : k ≠ q) : (arbAt (apertureFails s q) k).aperture = none := by
    rw [apertureFails_waiting ha, arbAt_onArb_other _ _ _ _ (Ne.symm hne)]
    exact ho k hk hne
  refine congrArg _ ((if_pos hs).trans ((forUpto_one hq (fun k hk hne => ?_) (fun k hk hne => ?_)).trans ?_))
  · simp [ho k hk hne]
  · simp [ha, hn, hother k hk hne]
  · simp [ha, hn]

/- The window (R334). -/

theorem exec_combAperture_inRange {s : State} {m : Nat} {p : List Byte} (h : AtCommand s 0x120 m p) (hl : p.length = 1)
    (hr : leAt p 0 1 ≤ 5) : exec .combAperture s = .next (answer { s with hi.aperture := leAt p 0 1 } 0 []) :=
  congrArg _ ((h.runs _).trans (if_neg (by omega)))

theorem exec_combAperture_outside {s : State} {m : Nat} {p : List Byte} (h : AtCommand s 0x120 m p) (hr : 5 < leAt p 0 1) :
    exec .combAperture s = .next (answer s 0x20 []) :=
  congrArg _ ((h.runs _).trans (if_pos (.inr hr)))

theorem combAperture_answers (s : State) {m : Nat} {p : List Byte} (h : AtCommand s 0x120 m p) (hl : p.length = 1) :
    (leAt p 0 1 ≤ 5 → Runs .combAperture s (Answered { s with hi.aperture := leAt p 0 1 } m 0 [])) ∧
      (5 < leAt p 0 1 → Runs .combAperture s (Answered s m 0x20 [])) :=
  ⟨fun hr => ⟨_, exec_combAperture_inRange h hl hr, h.answered (e := { s with hi.aperture := leAt p 0 1 }) rfl _ _ _⟩,
    fun hr => ⟨_, exec_combAperture_outside h hr, h.answered rfl _ _ _⟩⟩
/-- Settles O50: each command by the lemma on it. -/
theorem scrubAndAperture : Obligations.ScrubAndAperture := by
  intro s
  refine ⟨fun q hr hu hj ha hc hw hd => ?scrub, fun off len h hb hi => ⟨exec_apertureRead_otherShape h hb hi, ?_⟩,
    fun h => congrArg _ (if_pos h), fun q a n hs hq ho ha hn => ?_, fun m p h hl => combAperture_answers s h hl⟩
  case scrub =>
    have h := exec_scrubPageStart hr hu hj ha hc hw hd
    refine ⟨fun hs => ?_, fun hs hp => ?_⟩
    · exact h.trans (congrArg _ (if_neg (by rw [hs]; decide)))
    · exact h.trans (congrArg _ ((if_pos hs).trans (scrubAdvance_inPass (scrubStarted s q.val) q.val hp)))
  · intro h1 h2 h3 h4 h5 hw
    exact apertureRead_waits h hb hi (by omega) hw rfl
  · rw [exec_apertureTimeout hs hq ho ha hn, apertureFails_waiting ha]

end Sys2Proof.Machine
end

section
/-! PROOFS. The queries (R7, R10, R343, R355): one lemma on the answer to a query, and each query by it. -/

namespace Sys2Proof.Machine

open Sys2Proof

/-- A query that Keeper works on is answered OK with its body, and nothing else changes (R10, R343). -/
theorem AtCommand.query {s : State} {op m : Nat} {p body : List Byte} {c : Instr} (h : AtCommand s op m p)
    (hc : exec c s = .next (queryCmd s op body)) : Runs c s (Answered s m 0 body) :=
  ⟨_, hc, by unfold queryCmd; rw [h.runs]; exact h.answered rfl _ _ _⟩

theorem exec_queryPlan_unknown {s : State} {m : Nat} {p : List Byte} (h : AtCommand s 0x12 m p) (hk : ctxOf s (leAt p 0 8) = none) :
    exec .queryPlan s = .next (answer s 0x30 []) :=
  congrArg _ ((h.runs _).trans (by rw [hk]; rfl))

theorem exec_queryPlan_known {s : State} {m k : Nat} {p : List Byte} (h : AtCommand s 0x12 m p) (hk : ctxOf s (leAt p 0 8) = some k) :
    exec .queryPlan s = .next (answer s 0 (planBytes s k)) :=
  congrArg _ ((h.runs _).trans (by rw [hk]; rfl))

theorem exec_queryBuf_outside {s : State} {m : Nat} {p : List Byte} (h : AtCommand s 0x19 m p)
    (hx : leAt p 2 2 = 0 ∨ 249 < leAt p 2 2 ∨ 4096 < leAt p 0 2 + leAt p 2 2) : exec .queryBuf s = .next (answer s 0x20 []) :=
  congrArg _ ((h.runs _).trans (if_pos (.inr hx)))

theorem exec_queryBuf_inside {s : State} {m : Nat} {p : List Byte} (h : AtCommand s 0x19 m p) (hl : p.length = 4)
    (h1 : 1 ≤ leAt p 2 2) (h2 : leAt p 2 2 ≤ 249) (h3 : leAt p 0 2 + leAt p 2 2 ≤ 4096) :
    exec .queryBuf s = .next (answer s 0 ((List.range (leAt p 2 2)).flatMap (fun i => bufBytes s (leAt p 0 2 + i)))) :=
  congrArg _ ((h.runs _).trans (if_neg (by omega)))

/-- Settles O60: the queries without a payload by AtCommand.query, QUERY_PLAN and QUERY_BUF by the lemmas on their cases. -/
theorem queriesAnswer : Obligations.QueriesAnswer := by
  intro s m p
  refine ⟨fun h => h.query rfl, fun h => h.query rfl, fun h => h.query rfl, fun h => h.query rfl, fun h => h.query rfl,
    fun h => h.query rfl, fun h => h.query rfl, fun h => h.query rfl, fun h => h.query rfl, fun h => h.query rfl,
    fun h => h.query rfl, fun h => h.query rfl, fun h => h.query rfl, fun h => h.query rfl, fun h => h.query rfl,
    fun h => h.query rfl, fun h => h.query rfl, fun h => h.query rfl, fun h => h.query rfl, fun h => h.query rfl,
    fun h => ⟨fun hk => ⟨_, exec_queryPlan_unknown h hk, ?_⟩, fun k hk => ⟨_, exec_queryPlan_known h hk, ?_⟩⟩,
    fun h hl => ⟨fun hx => ⟨_, exec_queryBuf_outside h hx, ?_⟩, fun h1 h2 h3 => ⟨_, exec_queryBuf_inside h hl h1 h2 h3, ?_⟩⟩⟩
  all_goals exact h.answered rfl _ _ _

end Sys2Proof.Machine
end

section
/-! PROOFS. The beat (R15, R16, R45, R48, R76, R100): what its three rows leave, and that no other row moves it. -/

namespace Sys2Proof.Machine

open Sys2Proof

/- The beat edge. -/

/-- After a beat edge the beat has the number of the edge, slot 0 has begun and its guard has not. -/
theorem beatEdge_leaves (s : State) (env : EdgeEnv) (e : Nat) :
    (beatEdge s env e).beat.num = e ∧ (beatEdge s env e).beat.slot = 0 ∧ (beatEdge s env e).beat.guard = false := by
  obtain ⟨u, hnum, hslot, hguard, h⟩ := beatEdge_ticks s env e
  exact ⟨h.num.trans hnum, h.slot.trans hslot, h.guard.trans hguard⟩

theorem exec_beatEdge_first {s : State} (env : EdgeEnv) (ha : alive s = true) (hr : s.beat.running = false) (hl : s.syn.bLocked = true) :
    exec (.beatEdge env) s = .next (beatEdge s env 0) :=
  congrArg _ ((if_neg (by simp [ha])).trans ((if_pos hr).trans (if_pos hl)))

theorem exec_beatEdge_next {s : State} (env : EdgeEnv) (ha : alive s = true) (hr : s.beat.running = true) (hs : s.beat.slot = 127)
    (hg : s.beat.guard = true) : exec (.beatEdge env) s = .next (beatEdge s env (edgeNum s)) :=
  congrArg _ ((if_neg (by simp [ha])).trans ((if_neg (by simp [hr])).trans (if_pos ⟨hs, hg⟩)))

/-- A beat edge that does not act changes nothing (log 3); one that acts has number 0 or that of the coming edge (R15, R100). -/
theorem exec_beatEdge_cases (env : EdgeEnv) (s : State) : exec (.beatEdge env) s = .next s ∨
    ∃ e, (e = if s.beat.running then edgeNum s else 0) ∧ exec (.beatEdge env) s = .next (beatEdge s env e) := by
  have h : exec (.beatEdge env) s = execBeatEdge env s := rfl
  rw [h]
  unfold execBeatEdge
  split
  · exact .inl rfl
  · split
    · next hr =>
      split
      · exact .inr ⟨0, by simp [hr], rfl⟩
      · exact .inl rfl
    · next hr =>
      split
      · exact .inr ⟨edgeNum s, by simp [hr], rfl⟩
      · exact .inl rfl

/- The slot boundary and the guard. -/

theorem exec_slotBoundary {s : State} (ha : alive s = true) (hr : s.beat.running = true) (hg : s.beat.guard = true)
    (hs : s.beat.slot < 127) : exec .slotBoundary s = .next (slotBegin { s with beat.slot := s.beat.slot + 1, beat.guard := false }) :=
  congrArg Host.Outcome.next (if_pos ⟨ha, hr, hg, hs⟩)

theorem exec_slotGuardStart {s : State} (ha : alive s = true) (hr : s.beat.running = true) (hg : s.beat.guard = false) :
    exec .slotGuardStart s = .next { guardSwaps s with beat.guard := true } :=
  congrArg _ (if_pos ⟨ha, hr, hg⟩)

/-- Under a gated core clock a guard makes no swap: it only ends the note on the hop of the slot that comes (Table 3.7). -/
theorem guardSwaps_gated {s : State} (h : s.syn.src = .gated) : guardSwaps s = clearSkip s (s.beat.slot + 1) := by
  have hrun : (s.syn.hold == .none && s.syn.src != .gated) = false := by simp [h]
  unfold guardSwaps
  simp only [hrun, Bool.false_eq_true, if_false]
  split
  · next hn => rw [h, hn]
  · rfl

theorem clearSkip_eq (s : State) (n : Nat) :
    clearSkip s n = { s with syn.skip := if s.syn.skip = some n then none else s.syn.skip } := by
  unfold clearSkip
  split <;> rfl

/-- Settles O27: exec_ticks for the rows that leave the beat alone, and the two cases of BEAT_EDGE. -/
theorem onlyBeatRowsMoveTheBeat : Obligations.OnlyBeatRowsMoveTheBeat := by
  refine ⟨fun c s t hc ht => ?other, fun env s t ht => ?edge⟩
  case other =>
    obtain ⟨u, hu, h⟩ := exec_ticks c s hc
    obtain rfl := Host.Outcome.next.inj (hu.symm.trans ht)
    exact ⟨h.num, h.slot, h.guard⟩
  case edge =>
    rcases exec_beatEdge_cases env s with h | ⟨e, he, h⟩
    · exact .inl (Host.Outcome.next.inj (ht.symm.trans h))
    · obtain rfl := Host.Outcome.next.inj (h.symm.trans ht)
      obtain ⟨hnum, hslot, hguard⟩ := beatEdge_leaves s env e
      exact .inr ⟨hslot, hguard, hnum.trans he⟩

/-- Settles O28: each row by the lemma on its case, and what follows the new number and slot by its Ticks lemma. -/
theorem beatEdgesSlotsAndGuards : Obligations.BeatEdgesSlotsAndGuards := by
  intro s ha
  refine ⟨fun env hr hl => ⟨_, exec_beatEdge_first env ha hr hl, beatEdge_leaves s env 0⟩,
    fun env hr hs hg => ?edge, fun hr hg hs => ?boundary, fun hr hg => ⟨?guard, fun hgated => ?gated⟩⟩
  case edge =>
    obtain ⟨hnum, hslot, hguard⟩ := beatEdge_leaves s env (edgeNum s)
    exact ⟨_, exec_beatEdge_next env ha hr hs hg, hnum, hslot, hguard⟩
  case boundary =>
    exact ⟨_, exec_slotBoundary ha hr hg hs, (slotBegin_ticks _).num, (slotBegin_ticks _).slot, (slotBegin_ticks _).guard⟩
  case guard =>
    exact ⟨_, exec_slotGuardStart ha hr hg, (guardSwaps_ticks s).num, (guardSwaps_ticks s).slot, rfl⟩
  case gated => rw [exec_slotGuardStart ha hr hg, guardSwaps_gated hgated, clearSkip_eq]

end Sys2Proof.Machine
end

section
/-! PROOFS. Rules for what steps do to one quadrant: its state changed in parts, the events of a step in their order, and the next
operation in front with the feeds that arm (R25, R235, R330). -/

namespace Sys2Proof.Machine

open Sys2Proof

/- One quadrant changed more than once. -/

theorem vmod_vmod {α : Type} {n : Nat} (v : Vector α n) (i : Nat) (f g : α → α) : vmod (vmod v i f) i g = vmod v i (fun x => g (f x)) := by
  unfold vmod
  split
  · simp
  · rfl

theorem vmod_id {α : Type} {n : Nat} (v : Vector α n) (i : Nat) : vmod v i (fun x => x) = v := by
  unfold vmod
  split
  · simp
  · rfl

theorem onQuad_onQuad (s : State) (q : Nat) (f g : QuadSt → QuadSt) : onQuad (onQuad s q f) q g = onQuad s q (fun x => g (f x)) :=
  congrArg (fun v => { s with quad := v }) (vmod_vmod s.quad q f g)

theorem onQuad_id (s : State) (q : Nat) : onQuad s q (fun x => x) = s :=
  congrArg (fun v => { s with quad := v }) (vmod_id s.quad q)

/-- The active set of a quadrant's state, changed. -/
def withActive (f : AccSet → AccSet) (x : QuadSt) : QuadSt :=
  if x.activeB then { x with setB := f x.setB } else { x with setA := f x.setA }

theorem onActive_eq (s : State) (q : Nat) (f : AccSet → AccSet) : onActive s q f = onQuad s q (withActive f) := rfl

theorem activeSet_withActive (f : AccSet → AccSet) (x : QuadSt) : activeSet (withActive f x) = f (activeSet x) := by
  unfold activeSet withActive
  cases x.activeB <;> rfl

theorem shadowSet_withActive (f : AccSet → AccSet) (x : QuadSt) : shadowSet (withActive f x) = shadowSet x := by
  unfold shadowSet withActive
  cases x.activeB <;> rfl

/-- A change of the active set changes nothing else of the quadrant. -/
theorem withActive_sets (f : AccSet → AccSet) (x : QuadSt) : ∃ a b, withActive f x = { x with setA := a, setB := b } := by
  unfold withActive
  cases x.activeB
  · exact ⟨_, _, rfl⟩
  · exact ⟨_, _, rfl⟩

/- Lists of events. -/

theorem Logs.same (s : State) : Logs s s [] := ⟨[], rfl, rfl⟩

theorem Logs.trans {s t u : State} {l m : List (Nat × Sev)} (h : Logs s t l) (k : Logs t u m) : Logs s u (l ++ m) := by
  obtain ⟨p, hp, rfl⟩ := h
  obtain ⟨r, hr, rfl⟩ := k
  exact ⟨r ++ p, by rw [hr, hp, List.append_assoc], by rw [List.reverse_append, List.filter_append, List.map_append]⟩

/-- The state e with the events of the list raised, in order, and faults noted at instances of plans; nothing else has changed. -/
structure Told (e t : State) (l : List (Nat × Sev)) : Prop where
  frame : t = { e with cmb.ctx := t.cmb.ctx, hi := t.hi, hw := t.hw }
  news : Logs e t l

theorem Told.same (s : State) : Told s s [] := ⟨rfl, .same s⟩

theorem Told.trans {s t u : State} {l m : List (Nat × Sev)} (h : Told s t l) (k : Told t u m) : Told s u (l ++ m) :=
  ⟨by rw [k.frame, h.frame], h.news.trans k.news⟩

/-- Events raised change the host interface and Heartwood only. -/
theorem Raised.frame {e t : State} {l : List (Nat × Sev)} (h : Raised e t l) : t = { e with hi := t.hi, hw := t.hw } := by
  obtain ⟨calm, hwg, hrj, hpwr, -⟩ := h
  cases t
  cases calm
  simp_all

theorem Raised.told {e t : State} {l : List (Nat × Sev)} (h : Raised e t l) : Told e t l :=
  ⟨by rw [h.frame], h.news⟩

theorem Raised.onQuad {e t : State} {l : List (Nat × Sev)} (h : Raised e t l) (q : Nat) (g : QuadSt → QuadSt) :
    Raised (onQuad e q g) (onQuad t q g) l := by
  obtain ⟨calm, hwg, hrj, hpwr, hnews⟩ := h
  exact ⟨{ calm with quad := congrArg (fun v => vmod v q g) calm.quad }, hwg, hrj, hpwr, hnews⟩

theorem Calm.quadAt {s t : State} (h : Calm s t) (k : Nat) : quadAt t k = quadAt s k :=
  congrArg (fun v => vget v k QuadSt.init) h.quad

theorem onCtx_told (s : State) (c : Nat) (f : PlanCtx → PlanCtx) : Told s (onCtx s c f) [] := ⟨rfl, [], rfl, rfl⟩

theorem Told.onQuad {s t : State} {l : List (Nat × Sev)} (h : Told s t l) (q : Nat) (g : QuadSt → QuadSt) :
    Told (onQuad s q g) (onQuad t q g) l := by
  obtain ⟨hframe, hnews⟩ := h
  have hquad : t.quad = s.quad := by rw [hframe]
  refine ⟨?_, hnews⟩
  unfold Machine.onQuad
  rw [hquad]
  exact congrArg (fun x : State => { x with quad := vmod s.quad q g }) hframe

/- The end of an operation (R25, R235, R243). -/

/-- Feeds of quadrant q have armed their threads: nothing beside the threads has changed but the quadrant's feeds and its buffers. -/
structure Armed (q : Nat) (s t : State) : Prop where
  frame : t = { s with quad := t.quad, xm.threads := t.xm.threads }
  own : ∃ feeds acts raw, quadAt t q = { quadAt s q with feeds := feeds, acts := acts, raw := raw }
  others : ∀ k, k ≠ q → quadAt t k = quadAt s k

theorem Armed.same (q : Nat) (s : State) : Armed q s s := ⟨rfl, ⟨_, _, _, rfl⟩, fun _ _ => rfl⟩

theorem Armed.trans {q : Nat} {s t u : State} (h : Armed q s t) (k : Armed q t u) : Armed q s u := by
  obtain ⟨hframe, ⟨_, _, _, hown⟩, hothers⟩ := h
  obtain ⟨kframe, ⟨_, _, _, kown⟩, kothers⟩ := k
  exact ⟨by rw [kframe, hframe], ⟨_, _, _, by rw [kown, hown]⟩, fun j hj => (kothers j hj).trans (hothers j hj)⟩

theorem Armed.foldl {α : Type} {q : Nat} {f : State → α → State} (h : ∀ s x, Armed q s (f s x)) (l : List α) (s : State) :
    Armed q s (l.foldl f s) := by
  induction l generalizing s with
  | nil => exact .same q s
  | cons a r ih => exact (h s a).trans (ih (f s a))

theorem onQuad_armed {q : Nat} (hq : q < 4) (s : State) {f : QuadSt → QuadSt}
    (h : ∀ x, ∃ feeds acts raw, f x = { x with feeds := feeds, acts := acts, raw := raw }) : Armed q s (onQuad s q f) :=
  ⟨rfl, by rw [quadAt_onQuad_same _ _ _ hq]; exact h _, fun _ hk => quadAt_onQuad_other _ _ _ _ (Ne.symm hk)⟩

theorem onThread_armed (q : Nat) (s : State) (k : Nat) (f : Thread → Thread) : Armed q s (onThread s k f) :=
  ⟨rfl, ⟨(quadAt s q).feeds, (quadAt s q).acts, (quadAt s q).raw, rfl⟩, fun _ _ => rfl⟩

theorem armThread_armed {q : Nat} (hq : q < 4) (s : State) (c adm : Nat) (d : FeedDesc) : Armed q s (armThread s q c adm d) := by
  unfold armThread
  dsimp only
  split
  · exact onQuad_armed hq s fun x => ⟨_, _, _, rfl⟩
  · exact (onQuad_armed hq s fun x => ⟨_, _, _, rfl⟩).trans (onThread_armed q _ _ _)

theorem armDue_armed {q : Nat} (hq : q < 4) (s : State) : Armed q s (armDue s q) := by
  unfold armDue
  refine .trans (onQuad_armed hq s fun x => ⟨_, _, _, rfl⟩) (Armed.foldl (fun s f => ?_) _ _)
  split
  · exact .same q s
  · split
    · exact armThread_armed hq _ _ _ _
    · exact onQuad_armed hq s fun x => ⟨_, _, _, rfl⟩

/-- Nothing waits to be done before the operation in front of quadrant q: the feeds that are due have armed their threads, and a late
start has been reported (R25, R235). -/
structure Advanced (q : Nat) (s t : State) : Prop where
  frame : t = { s with quad := t.quad, xm.threads := t.xm.threads, hi := t.hi, hw := t.hw }
  own : ∃ todo feeds acts raw, quadAt t q = { quadAt s q with todo := todo, feeds := feeds, acts := acts, raw := raw }
  others : ∀ k, k ≠ q → quadAt t k = quadAt s k
  stays : OpStays s t q
  news : Logs s t (lateFront (quadAt s q).todo)

theorem Armed.advanced {q : Nat} {s t : State} (h : Armed q s t) (hlate : lateFront (quadAt s q).todo = []) : Advanced q s t := by
  obtain ⟨hframe, ⟨feeds, acts, raw, hown⟩, hothers⟩ := h
  refine ⟨by rw [hframe], ⟨_, feeds, acts, raw, hown⟩, hothers, ?_, ?_⟩
  · unfold OpStays
    rw [hown]
  · rw [hlate]
    exact ⟨[], by rw [hframe]; rfl, rfl⟩

/-- The state in which the late start of the operation t in front of quadrant q has been counted (R25). -/
def lateCounted (s : State) (q : Nat) (t : Todo) (rest : List Todo) : State :=
  { onQuad s q (fun x => { x with todo := { t with late := false } :: rest }) with hi.lates := satAdd 32 s.hi.lates 1 }

theorem Armed.late {q : Nat} {s w : State} {t : Todo} {rest : List Todo} (hq : q < 4) (h : Armed q s w)
    (htodo : (quadAt w q).todo = t :: rest) (hlate : t.late = true) :
    Advanced q s (raise (lateCounted w q t rest) 0x0202 .minor 0) := by
  obtain ⟨hframe, ⟨feeds, acts, raw, hown⟩, hothers⟩ := h
  have hsame : (quadAt s q).todo = t :: rest := by rw [← htodo, hown]
  have hraise := raise_news (lateCounted w q t rest) 0x0202 .minor 0 (by decide)
  generalize raise (lateCounted w q t rest) 0x0202 .minor 0 = u at *
  have hu : quadAt u q = { quadAt w q with todo := { t with late := false } :: rest } :=
    (hraise.calm.quadAt q).trans (quadAt_onQuad_same w q _ hq)
  refine ⟨?frame, ⟨_, feeds, acts, raw, by rw [hu, hown]⟩, fun k hk => ?others, ?stays, ?news⟩
  case frame =>
    rw [hraise.frame, hframe]
    rfl
  case others => exact (hraise.calm.quadAt k).trans ((quadAt_onQuad_other w q k _ (Ne.symm hk)).trans (hothers k hk))
  case stays =>
    unfold OpStays
    rw [hu, hsame]
    rfl
  case news =>
    rw [hsame, show lateFront (t :: rest) = [(0x0202, .minor)] from if_pos hlate]
    have hraised : (lateCounted w q t rest).hi.raised = s.hi.raised := by
      rw [hframe]
      rfl
    obtain ⟨pre, hpre, hl⟩ := hraise.news
    exact ⟨pre, by rw [hpre, hraised], hl⟩

theorem advanceAll_advanced {q : Nat} (hq : q < 4) (s : State) : Advanced q s (advanceAll s q) := by
  have harm := armDue_armed hq s
  have htodo : (quadAt (armDue s q) q).todo = (quadAt s q).todo := by
    obtain ⟨-, ⟨feeds, acts, raw, hown⟩, -⟩ := harm
    rw [hown]
  unfold advanceAll
  dsimp only
  split
  · next hnil => exact harm.advanced (by rw [← htodo, hnil]; rfl)
  · next t rest hcons =>
    split
    · next hlate => exact harm.late hq hcons hlate
    · next hlate => exact harm.advanced (by rw [← htodo, hcons]; exact if_neg hlate)

/-- A quadrant whose operation in front has ended. -/
def frontDropped (x : QuadSt) : QuadSt :=
  { x with todo := x.todo.drop 1, feeds := x.feeds.map (fun f => { f with ahead := f.ahead - 1 }) }

theorem popOp_advanced {q : Nat} (hq : q < 4) (s : State) : Advanced q (onQuad s q frontDropped) (popOp s q) :=
  advanceAll_advanced hq _

end Sys2Proof.Machine
end

section
/-! PROOFS. A pass starts and completes, and the accumulator sets swap (R25, R110, R128, R151, R153, R156, R157, R159 to R161, R176,
R181). -/

namespace Sys2Proof.Machine

open Sys2Proof

/- Errors of pages that a pass reads (R110, R128, R129). -/

/-- What the errors of read pages and their reports leave alone: the quadrants, the beat, external memory and the count of corrected
codewords; a poisoned page stays poisoned. -/
structure PageErrors (s t : State) : Prop where
  quad : t.quad = s.quad
  beat : t.beat = s.beat
  xm : t.xm = s.xm
  ce : t.cmb.ce = s.cmb.ce
  poisoned : ∀ p, pagePoisoned s p = true → pagePoisoned t p = true

theorem PageErrors.same (s : State) : PageErrors s s := ⟨rfl, rfl, rfl, rfl, fun _ => id⟩

theorem PageErrors.trans {s t u : State} (h : PageErrors s t) (k : PageErrors t u) : PageErrors s u :=
  ⟨k.quad.trans h.quad, k.beat.trans h.beat, k.xm.trans h.xm, k.ce.trans h.ce, fun p hp => k.poisoned p (h.poisoned p hp)⟩

theorem PageErrors.foldl {α : Type} {f : State → α → State} (h : ∀ s x, PageErrors s (f s x)) (l : List α) (s : State) :
    PageErrors s (l.foldl f s) := by
  induction l generalizing s with
  | nil => exact .same s
  | cons a r ih => exact (h s a).trans (ih (f s a))

theorem PageErrors.quadAt {s t : State} (h : PageErrors s t) (k : Nat) : quadAt t k = quadAt s k :=
  congrArg (fun v => vget v k QuadSt.init) h.quad

theorem PageErrors.onQuad {s t : State} (h : PageErrors s t) (q : Nat) (g : QuadSt → QuadSt) :
    PageErrors (onQuad s q g) (onQuad t q g) :=
  ⟨congrArg (fun v => vmod v q g) h.quad, h.beat, h.xm, h.ce, h.poisoned⟩

theorem PageErrors.ofCmb {s t : State} (hquad : t.quad = s.quad) (hbeat : t.beat = s.beat) (hxm : t.xm = s.xm) (hce : t.cmb.ce = s.cmb.ce)
    (hpoison : t.cmb.poison = s.cmb.poison) : PageErrors s t :=
  ⟨hquad, hbeat, hxm, hce, fun p hp => by unfold pagePoisoned; rw [hpoison]; exact hp⟩

theorem Calm.pageErrors {s t : State} (h : Calm s t) : PageErrors s t :=
  .ofCmb h.quad h.beat h.xm (by rw [h.cmb]) (by rw [h.cmb])

theorem Told.pageErrors {s t : State} {l : List (Nat × Sev)} (h : Told s t l) : PageErrors s t := by
  obtain ⟨hframe, -⟩ := h
  exact .ofCmb (by rw [hframe]) (by rw [hframe]) (by rw [hframe]) (by rw [hframe]) (by rw [hframe])

theorem raise_pageErrors (s : State) (code : Nat) (sev : Sev) (detail : Nat) : PageErrors s (raise s code sev detail) :=
  (raise_calm s code sev detail).pageErrors

theorem retirePage_pageErrors (s : State) (p : Nat) : PageErrors s (retirePage s p) := by
  unfold retirePage
  split
  · exact .same s
  · split
    · exact .trans (t := { s with cmb.retired := s.cmb.retired ++ [p] }) (.ofCmb rfl rfl rfl rfl rfl) (hwState_calm _ _ _).pageErrors
    · have h : PageErrors s { s with cmb.retiredRun := s.cmb.retiredRun ++ [p] } := .ofCmb rfl rfl rfl rfl rfl
      dsimp only
      split
      · exact h
      · exact h.trans (raise_pageErrors _ _ _ _)

theorem listRebuild_pageErrors (s : State) (p c key : Nat) : PageErrors s (listRebuild s p c key) := by
  unfold listRebuild
  split
  · exact .ofCmb rfl rfl rfl rfl rfl
  · exact .same s

theorem dropShadow_pageErrors (s : State) (p c : Nat) : PageErrors s (dropShadow s p c) := by
  unfold dropShadow
  split
  · exact .same s
  · dsimp only
    split
    · exact .same s
    · exact .ofCmb rfl rfl rfl rfl rfl

theorem dropCopy_pageErrors (s : State) (p : Nat) : PageErrors s (dropCopy s p) := by
  unfold dropCopy
  refine .trans ?_ (PageErrors.foldl (fun s _ => listRebuild_pageErrors s _ _ _) _ _)
  exact .ofCmb rfl rfl rfl rfl rfl

/-- The state in which a page's new error stands in the poison map and the counters (R128). -/
def poisonNoted (s : State) (p : Nat) : State :=
  { s with
    cmb.ue := satAdd 32 s.cmb.ue 1, cmb.lastErrValid := true, cmb.lastErrPage := p
    cmb.poison := s.cmb.poison.putAt p true false, cmb.clearing := s.cmb.clearing.filter (fun x => x != p) }

theorem poisonNoted_poisoned (s : State) (p k : Nat) :
    pagePoisoned (poisonNoted s p) k = if k = p then true else pagePoisoned s k := by
  unfold pagePoisoned poisonNoted SMap.putAt SMap.getAt
  rw [if_neg (by decide), SMap.find_insertAt]
  split
  · rfl
  · rfl

theorem poisonNoted_pageErrors (s : State) (p : Nat) : PageErrors s (poisonNoted s p) := by
  refine ⟨rfl, rfl, rfl, rfl, fun k hk => ?_⟩
  rw [poisonNoted_poisoned]
  split
  · rfl
  · exact hk

/-- A page that is found in error is poisoned, whether it was before or not (R128). -/
theorem poisonPage_poisons (s : State) (p : Nat) : PageErrors s (poisonPage s p) ∧ pagePoisoned (poisonPage s p) p = true := by
  have hraise := raise_pageErrors (poisonNoted s p) 0x0305 .major 0
  have rest {u : State} (hu : PageErrors (raise (poisonNoted s p) 0x0305 .major 0) u) : PageErrors s u ∧ pagePoisoned u p = true :=
    ⟨((poisonNoted_pageErrors s p).trans hraise).trans hu,
      hu.poisoned p (hraise.poisoned p ((poisonNoted_poisoned s p p).trans (if_pos rfl)))⟩
  unfold poisonPage
  dsimp only
  split
  · next h =>
    rw [Bool.and_eq_true] at h
    exact ⟨.ofCmb rfl rfl rfl rfl rfl, h.1⟩
  · split
    · refine rest (.trans (.trans (retirePage_pageErrors _ p) ?_) (dropCopy_pageErrors _ p))
      exact PageErrors.foldl (fun s c => dropShadow_pageErrors s p c) _ _
    · exact rest (listRebuild_pageErrors _ _ _ _)

theorem poisonReads_pageErrors (s : State) (c a bytes : Nat) : PageErrors s (poisonReads s c a bytes) := by
  refine PageErrors.foldl (fun s p => ?_) _ _
  split
  · unfold poisonRead
    split
    · exact .same s
    · exact .trans (t := { s with cmb.readThisBeat := p :: s.cmb.readThisBeat }) (.ofCmb rfl rfl rfl rfl rfl) (raise_pageErrors _ _ _ _)
  · exact .same s

/-- Poisoning the pages of a list leaves each of them poisoned. -/
theorem poisonPages_poison (l : List (Nat × Nat)) (s : State) {e : Nat × Nat} (he : e ∈ l) :
    pagePoisoned (l.foldl (fun s e => poisonPage s e.1) s) e.1 = true := by
  induction l generalizing s with
  | nil => cases he
  | cons a r ih =>
    rcases List.mem_cons.mp he with rfl | he
    · obtain ⟨-, hpage⟩ := poisonPage_poisons s e.1
      have hrest := PageErrors.foldl (fun s (e : Nat × Nat) => (poisonPage_poisons s e.1).1) r (poisonPage s e.1)
      exact hrest.poisoned _ hpage
    · exact ih _ he

/-- The read of the weight tile counts the corrected codewords (R110). -/
theorem weightErrors_pageErrors (s : State) (t : Todo) (d : PassDesc) (corrected : Nat) (bad : List Nat) :
    PageErrors { s with cmb.ce := satAdd 32 s.cmb.ce corrected } (weightErrors s t d corrected bad) :=
  PageErrors.foldl (fun s (e : Nat × Nat) => (poisonPage_poisons s e.1).1) _ _

theorem weightErrors_poison (s : State) (t : Todo) (d : PassDesc) (corrected : Nat) (bad : List Nat) {e : Nat × Nat}
    (he : e ∈ (runPages s t.ctx d.tile (wHdr (tileView s t.ctx d.tile)).bytes).zipIdx) (hbad : bad.contains e.2 = true) :
    pagePoisoned (weightErrors s t d corrected bad) e.1 = true :=
  poisonPages_poison _ _ (List.mem_filter.mpr ⟨he, hbad⟩)

theorem weightErrors_none (s : State) (t : Todo) (d : PassDesc) (corrected : Nat) :
    weightErrors s t d corrected [] = { s with cmb.ce := satAdd 32 s.cmb.ce corrected } := by
  have hnone (l : List (Nat × Nat)) : l.filter (fun e => ([] : List Nat).contains e.2) = [] :=
    List.filter_eq_nil_iff.mpr fun _ _ => Bool.false_ne_true
  unfold weightErrors
  dsimp only
  rw [hnone, List.foldl_nil]

/- The start of a pass. -/

/-- A quadrant whose pass starts: the pass runs, and the active set has taken it up (R180, R182, R183). -/
def passTaken (d : PassDesc) (tile : ActTile) (f : PassFind) (x : QuadSt) : QuadSt :=
  let x := withActive (takeUp f tile (!f.codes.isEmpty || f.poisonIn || tile.poison)) x
  { x with
    run := some f.run, curP := d.p, curKb := d.kb, curFmt := f.hdr.format, curVal := f.hdr.valfmt, jnPoison := x.jnPoison || f.poisonIn }

/-- A quadrant with a format, index or order fault of its tile counted (R159 to R161). -/
def formatNoted (d : PassDesc) (f : PassFind) (x : QuadSt) : QuadSt :=
  if f.codes = [] then x
  else { x with jnFmt := true, jnFmtx := satAdd 32 x.jnFmtx 1, jnAddr := d.tile, jnCode := f.codes.foldl min (f.codes.headD 0) }

/-- A quadrant with the blocks counted that break the KB bound (R156). -/
def boundNoted (f : PassFind) (x : QuadSt) : QuadSt :=
  if f.bound = 0 then x else { x with jnBound := true, jnBoundx := satAdd 32 x.jnBoundx f.bound }

/-- All that the start of a pass changes in its quadrant. -/
def passNoted (d : PassDesc) (tile : ActTile) (f : PassFind) (x : QuadSt) : QuadSt :=
  boundNoted f (formatNoted d f (passTaken d tile f x))

/-- A pass that is taken up leaves the list of operations and the counts of faults alone. -/
theorem passTaken_kept (d : PassDesc) (tile : ActTile) (f : PassFind) (x : QuadSt) :
    (passTaken d tile f x).todo = x.todo ∧ (passTaken d tile f x).jnFmtx = x.jnFmtx ∧ (passTaken d tile f x).jnBoundx = x.jnBoundx := by
  obtain ⟨setA, setB, h⟩ := withActive_sets (takeUp f tile (!f.codes.isEmpty || f.poisonIn || tile.poison)) x
  unfold passTaken
  rw [h]
  exact ⟨rfl, rfl, rfl⟩

/-- The faults of a pass change only the fault flags and counts of its quadrant (R156, R159 to R161). -/
theorem faultsNoted_kept (d : PassDesc) (f : PassFind) (x : QuadSt) :
    (boundNoted f (formatNoted d f x)).run = x.run ∧ (boundNoted f (formatNoted d f x)).todo = x.todo ∧
      activeSet (boundNoted f (formatNoted d f x)) = activeSet x := by
  unfold boundNoted formatNoted
  split <;> split <;> exact ⟨rfl, rfl, rfl⟩

theorem faultsNoted_counts (d : PassDesc) (f : PassFind) (x : QuadSt) :
    (boundNoted f (formatNoted d f x)).jnFmtx = (if f.codes = [] then x.jnFmtx else satAdd 32 x.jnFmtx 1) ∧
      (boundNoted f (formatNoted d f x)).jnBoundx = if f.bound = 0 then x.jnBoundx else satAdd 32 x.jnBoundx f.bound := by
  unfold boundNoted formatNoted
  split <;> split <;> exact ⟨rfl, rfl⟩

theorem passNoted_run (d : PassDesc) (tile : ActTile) (f : PassFind) (x : QuadSt) : (passNoted d tile f x).run = some f.run :=
  (faultsNoted_kept d f _).1

theorem passNoted_todo (d : PassDesc) (tile : ActTile) (f : PassFind) (x : QuadSt) : (passNoted d tile f x).todo = x.todo := by
  obtain ⟨-, htodo, -⟩ := faultsNoted_kept d f (passTaken d tile f x)
  exact htodo.trans (passTaken_kept d tile f x).1

theorem passNoted_opened (d : PassDesc) (tile : ActTile) (f : PassFind) (x : QuadSt) :
    (activeSet (passNoted d tile f x)).opened = true := by
  obtain ⟨-, -, hactive⟩ := faultsNoted_kept d f (passTaken d tile f x)
  have htaken : activeSet (passTaken d tile f x) = takeUp f tile (!f.codes.isEmpty || f.poisonIn || tile.poison) (activeSet x) :=
    activeSet_withActive _ x
  exact congrArg AccSet.opened (hactive.trans htaken)

theorem passNoted_counts (d : PassDesc) (tile : ActTile) (f : PassFind) (x : QuadSt) :
    (passNoted d tile f x).jnFmtx = (if f.codes = [] then x.jnFmtx else satAdd 32 x.jnFmtx 1) ∧
      (passNoted d tile f x).jnBoundx = if f.bound = 0 then x.jnBoundx else satAdd 32 x.jnBoundx f.bound := by
  obtain ⟨-, hfmt, hbound⟩ := passTaken_kept d tile f x
  rw [← hfmt, ← hbound]
  exact faultsNoted_counts d f _

/-- The format faults of a pass, counted and reported (R159 to R161). -/
def passFormat (s : State) (q : Nat) (d : PassDesc) (f : PassFind) : State :=
  if f.codes.isEmpty then s else
    raise (onQuad s q (fun x =>
      { x with jnFmt := true, jnFmtx := satAdd 32 x.jnFmtx 1, jnAddr := d.tile,
               jnCode := f.codes.foldl min (f.codes.headD 0) })) 0x0401 .major 0

/-- The bound violations of a pass, counted, reported and noted at its batch (R156). -/
def passBound (s : State) (q : Nat) (t : Todo) (f : PassFind) : State :=
  if f.bound = 0 then s else
    invalidInst (forUpto f.bound (fun s _ => raise s 0x0402 .major 0)
      (onQuad s q (fun x => { x with jnBound := true, jnBoundx := satAdd 32 x.jnBoundx f.bound }))) t.ctx t.adm 0x0402 true

/-- The batch of a pass that reads faulty or poisoned weights is poisoned (R129, R183). -/
def passPoison (s : State) (t : Todo) (f : PassFind) : State :=
  if ¬ f.codes.isEmpty then poisonInst s t.ctx t.adm 0x0401
  else if f.poisonIn then poisonInst s t.ctx t.adm 0x0304 else s

/-- The planned reads of the poisoned pages of a pass's tile (R129). -/
def passPages (s : State) (t : Todo) (d : PassDesc) (f : PassFind) : State :=
  if f.poisonIn then poisonReads s t.ctx d.tile f.hdr.bytes else s

/-- What a pass that has started leaves, once its read of the weight tile has met its errors. -/
def passBegun (s : State) (q : Nat) (t : Todo) (d : PassDesc) (tile : ActTile) : State :=
  let f := passFind s t d tile
  passPoison (passBound (passFormat (passPages (onQuad s q (passTaken d tile f)) t d f) q d f) q t f) t f

/-- A pass stands in front of a quadrant and may start: the slot is not 127, no tile waits for its swap, and its activation tile is in
the buffer (R153, R182). -/
structure PassReady (s : State) (q : Quad) (t : Todo) (d : PassDesc) (tile : ActTile) : Prop where
  front : headOp s q.val = some t
  op : t.op = .pass d
  noSwap : (quadAt s q.val).swapDue = false
  slot : arrayMay s = true
  tile : (quadAt s q.val).acts.find d.feed = some tile

theorem exec_passStart {s : State} {q : Quad} {t : Todo} {d : PassDesc} {tile : ActTile} (ready : PassReady s q t d tile)
    (corrected : Nat) (bad : List Nat) :
    exec (.passStart ⟨q, corrected, bad⟩) s = .next (passBegun (weightErrors s t d corrected bad) q.val t d tile) := by
  have h : exec (.passStart ⟨q, corrected, bad⟩) s = .next (passStart s q.val corrected bad) := rfl
  rw [h]
  unfold passStart
  simp only [ready.front, ready.op, ready.noSwap, ready.slot, ready.tile, if_true]
  generalize weightErrors s t d corrected bad = v
  unfold passBegun
  generalize passFind v t d tile = f
  rw [onActive_eq, onQuad_onQuad]
  rfl

theorem passFormat_told (s : State) (q : Nat) (d : PassDesc) (f : PassFind) :
    Told (onQuad s q (formatNoted d f)) (passFormat s q d f) (if f.codes = [] then [] else [(0x0401, .major)]) := by
  unfold passFormat formatNoted
  cases f.codes with
  | nil =>
    rw [if_pos rfl]
    simp only [if_true, onQuad_id]
    exact .same s
  | cons c l =>
    simp only [List.isEmpty_cons, Bool.false_eq_true, if_false, reduceCtorEq]
    exact (raise_news _ _ _ _ (by decide)).told

/-- One event raised n times. -/
theorem raises_news (s : State) {code : Nat} (sev : Sev) (detail n : Nat) (h : code ≠ 0x1206) :
    Raised s (forUpto n (fun s _ => raise s code sev detail) s) (List.replicate n (code, sev)) := by
  induction n with
  | zero => exact .same s
  | succ n ih =>
    rw [forUpto_succ, List.replicate_succ']
    exact ih.trans (raise_news _ _ _ _ h)

theorem passBound_told (s : State) (q : Nat) (t : Todo) (f : PassFind) :
    Told (onQuad s q (boundNoted f)) (passBound s q t f) (List.replicate f.bound (0x0402, .major)) := by
  unfold passBound boundNoted
  by_cases h : f.bound = 0
  · simp only [h, if_true, onQuad_id]
    exact .same s
  · simp only [h, if_false]
    have hnews := raises_news (onQuad s q (fun x => { x with jnBound := true, jnBoundx := satAdd 32 x.jnBoundx f.bound })) .major 0 f.bound
      (show 0x0402 ≠ 0x1206 by decide)
    rw [← List.append_nil (List.replicate _ _)]
    exact hnews.told.trans (onCtx_told _ _ _)

theorem passPoison_told (s : State) (t : Todo) (f : PassFind) : Told s (passPoison s t f) [] := by
  unfold passPoison
  split
  · exact onCtx_told _ _ _
  · split
    · exact onCtx_told _ _ _
    · exact .same s

theorem passPages_pageErrors (s : State) (t : Todo) (d : PassDesc) (f : PassFind) : PageErrors s (passPages s t d f) := by
  unfold passPages
  split
  · exact poisonReads_pageErrors _ _ _ _
  · exact .same s

/-- What follows the read of poisoned pages: the faults of the pass in its quadrant, reported in order. -/
theorem passFaults_told (s : State) (q : Nat) (t : Todo) (d : PassDesc) (f : PassFind) :
    Told (onQuad s q (fun x => boundNoted f (formatNoted d f x))) (passPoison (passBound (passFormat s q d f) q t f) t f)
      ((if f.codes = [] then [] else [(0x0401, .major)]) ++ List.replicate f.bound (0x0402, .major)) := by
  have h := ((passFormat_told s q d f).onQuad q (boundNoted f)).trans ((passBound_told _ q t f).trans (passPoison_told _ t f))
  rw [onQuad_onQuad, List.append_nil] at h
  exact h

theorem passBegun_pageErrors (s : State) (q : Nat) (t : Todo) (d : PassDesc) (tile : ActTile) :
    PageErrors (onQuad s q (passNoted d tile (passFind s t d tile))) (passBegun s q t d tile) := by
  have h := (passPages_pageErrors (onQuad s q (passTaken d tile (passFind s t d tile))) t d (passFind s t d tile)).onQuad q
    (fun x => boundNoted (passFind s t d tile) (formatNoted d (passFind s t d tile) x))
  rw [onQuad_onQuad] at h
  exact h.trans (passFaults_told _ q t d _).pageErrors

/-- A pass that meets no poison changes its quadrant, reports its faults, and notes them at its batch. -/
theorem passBegun_told {s : State} {q : Nat} {t : Todo} {d : PassDesc} {tile : ActTile} (h : (passFind s t d tile).poisonIn = false) :
    Told (onQuad s q (passNoted d tile (passFind s t d tile))) (passBegun s q t d tile)
      ((if (passFind s t d tile).codes = [] then [] else [(0x0401, .major)]) ++
        List.replicate (passFind s t d tile).bound (0x0402, .major)) := by
  have htold := passFaults_told (onQuad s q (passTaken d tile (passFind s t d tile))) q t d (passFind s t d tile)
  rw [onQuad_onQuad] at htold
  unfold passBegun passPages
  simp only [h, Bool.false_eq_true, if_false]
  exact htold

/-- What a pass finds does not depend on the count of corrected codewords. -/
theorem passFind_ce (s : State) (n : Nat) (t : Todo) (d : PassDesc) (tile : ActTile) :
    passFind { s with cmb.ce := n } t d tile = passFind s t d tile := rfl

theorem OpStays.ofNoted {s u : State} {q : Nat} {d : PassDesc} {tile : ActTile} {f : PassFind}
    (h : quadAt u q = passNoted d tile f (quadAt s q)) : OpStays s u q := by
  unfold OpStays
  rw [h, passNoted_todo]

/-- What the quadrants hold once a pass has started: in its own one what passNoted says, and what they held in the others. -/
theorem passBegun_quadAt {s v : State} {q : Quad} {t : Todo} {d : PassDesc} {tile : ActTile} (hv : v.quad = s.quad) :
    quadAt (passBegun v q.val t d tile) q.val = passNoted d tile (passFind v t d tile) (quadAt s q.val) ∧
      ∀ k, k ≠ q.val → quadAt (passBegun v q.val t d tile) k = quadAt s k := by
  have hsv (k : Nat) : quadAt v k = quadAt s k := congrArg (fun x => vget x k QuadSt.init) hv
  have h := passBegun_pageErrors v q.val t d tile
  refine ⟨?_, fun k hk => ?_⟩
  · rw [h.quadAt, quadAt_onQuad_same _ _ _ q.isLt, hsv]
  · rw [h.quadAt, quadAt_onQuad_other _ _ _ _ (Ne.symm hk), hsv]

/-- The pass that runs is the one in front. -/
theorem passNoted_runs {u : State} {q : Nat} {x : QuadSt} (v : State) (t : Todo) (d : PassDesc) (tile : ActTile)
    (h : quadAt u q = passNoted d tile (passFind v t d tile) x) :
    ∃ r, (quadAt u q).run = some r ∧ r.d = d ∧ r.ctx = t.ctx ∧ r.adm = t.adm :=
  ⟨(passFind v t d tile).run, by rw [h, passNoted_run], rfl, rfl, rfl⟩

/-- A pass in front starts, whatever its read of the weight tile meets (R110, R128, R153). -/
theorem passStart_runs {s : State} {q : Quad} {t : Todo} {d : PassDesc} {tile : ActTile} (ready : PassReady s q t d tile)
    (corrected : Nat) (bad : List Nat) :
    Runs (.passStart ⟨q, corrected, bad⟩) s (fun u =>
      (∃ r, (quadAt u q.val).run = some r ∧ r.d = d ∧ r.ctx = t.ctx ∧ r.adm = t.adm) ∧
      u.cmb.ce = satAdd 32 s.cmb.ce corrected ∧ OpStays s u q.val ∧ (∀ k, k ≠ q.val → quadAt u k = quadAt s k) ∧
      u.cmb.mem = s.cmb.mem ∧ u.beat = s.beat ∧ u.xm = s.xm ∧
      ∀ e ∈ (runPages s t.ctx d.tile (wHdr (tileView s t.ctx d.tile)).bytes).zipIdx, bad.contains e.2 = true →
        pagePoisoned u e.1 = true ∨ pageRetired u e.1 = true) := by
  have hexec := exec_passStart ready corrected bad
  have hread := weightErrors_pageErrors s t d corrected bad
  have hbegun := passBegun_pageErrors (weightErrors s t d corrected bad) q.val t d tile
  obtain ⟨hown, hothers⟩ := passBegun_quadAt (q := q) (t := t) (d := d) (tile := tile) hread.quad
  have hmem := (passStart_keeps s q.val corrected bad).comb
  rw [show passStart s q.val corrected bad = _ from Host.Outcome.next.inj hexec] at hmem
  exact ⟨_, hexec, passNoted_runs _ t d tile hown, hbegun.ce.trans hread.ce, .ofNoted hown, hothers, hmem, hbegun.beat.trans hread.beat,
    hbegun.xm.trans hread.xm, fun e he hbad => .inl (hbegun.poisoned _ (weightErrors_poison s t d corrected bad he hbad))⟩

/-- A pass in front starts whose weights are whole: its faults are counted and reported, and nothing else changes (R156, R159 to R161). -/
theorem passStart_reports {s : State} {q : Quad} {t : Todo} {d : PassDesc} {tile : ActTile} (ready : PassReady s q t d tile)
    (corrected : Nat) (hwhole : (passFind s t d tile).poisonIn = false) :
    Runs (.passStart ⟨q, corrected, []⟩) s (fun u =>
      (∃ r, (quadAt u q.val).run = some r ∧ r.d = d ∧ r.ctx = t.ctx ∧ r.adm = t.adm) ∧ (activeSet (quadAt u q.val)).opened = true ∧
      OpStays s u q.val ∧ (∀ k, k ≠ q.val → quadAt u k = quadAt s k) ∧
      u = { s with
        quad := u.quad, cmb := { s.cmb with ctx := u.cmb.ctx, ce := satAdd 32 s.cmb.ce corrected }, hi := u.hi, hw := u.hw } ∧
      (quadAt u q.val).jnFmtx = (if (passFind s t d tile).codes = [] then (quadAt s q.val).jnFmtx else satAdd 32 (quadAt s q.val).jnFmtx 1) ∧
      (quadAt u q.val).jnBoundx = (if (passFind s t d tile).bound = 0 then (quadAt s q.val).jnBoundx
        else satAdd 32 (quadAt s q.val).jnBoundx (passFind s t d tile).bound) ∧
      Logs s u ((if (passFind s t d tile).codes = [] then [] else [(0x0401, .major)]) ++
        List.replicate (passFind s t d tile).bound (0x0402, .major))) := by
  have hexec := exec_passStart ready corrected []
  rw [weightErrors_none] at hexec
  obtain ⟨hown, hothers⟩ := passBegun_quadAt (s := s) (v := { s with cmb.ce := satAdd 32 s.cmb.ce corrected }) (q := q) (t := t)
    (d := d) (tile := tile) rfl
  obtain ⟨hframe, hnews⟩ := passBegun_told (s := { s with cmb.ce := satAdd 32 s.cmb.ce corrected }) (q := q.val) (t := t) (d := d)
    (tile := tile) hwhole
  rw [passFind_ce] at hown
  generalize passBegun _ q.val t d tile = u at *
  obtain ⟨hfmt, hbound⟩ := passNoted_counts d tile (passFind s t d tile) (quadAt s q.val)
  rw [← hown] at hfmt hbound
  refine ⟨u, hexec, passNoted_runs s t d tile hown, ?_, .ofNoted hown, hothers, ?_, hfmt, hbound, hnews⟩
  · rw [hown, passNoted_opened]
  · have hquad : u.quad = vmod s.quad q.val (passNoted d tile (passFind s t d tile)) := by
      rw [hframe]
      rfl
    rw [hquad]
    exact hframe

/- The end of a pass. -/

/-- The accumulators of a pass that ends (R172, R176). -/
def passSums (x : QuadSt) (r : RunPass) : AccRun :=
  promoteAll r ((x.acts.find r.d.feed).getD (ActTile.dead Thread.idle.d)) (activeSet x)

/-- The active set that a pass leaves: what its groups promote, closed where it ends the tile. -/
def passSet (r : RunPass) (set : AccSet) : AccSet :=
  match r.d.tileEnd with
  | none => set
  | some i => { set with opened := false, desc := i, tileSeq := r.d.tileSeq, resid := r.d.resid, out := r.d.out,
                         outCols := r.d.outCols, link := r.d.link }

theorem passSet_cells (r : RunPass) (set : AccSet) : (passSet r set).cells = set.cells := by
  unfold passSet
  split <;> rfl

/-- A quadrant whose pass has ended and been counted (R151, R157, R176, R177). -/
def passCounted (r : RunPass) (a : AccRun) (x : QuadSt) : QuadSt :=
  let x := withActive (fun _ => passSet r a.set) x
  { x with run := none, jnPasses := satAdd 32 x.jnPasses 1, jnSaved := savedClocks x.jnSaved r,
           jnPairs := satAdd 64 x.jnPairs ((r.lanes.map (fun l => (l.2.map List.length).sum)).sum),
           arrUnder := satAdd 32 x.arrUnder a.under, arrSatx := satAdd 32 x.arrSatx a.satx,
           arrSat := x.arrSat || decide (a.satx ≠ 0), arrLost := x.arrLost || a.lost,
           swapDue := x.swapDue || r.d.tileEnd.isSome }

/-- A quadrant with the flags of the accumulators of a tile that closes (Table 7.8). -/
def tileFlagged (a : AccSet) (x : QuadSt) : QuadSt :=
  { x with arrNan := x.arrNan || a.cells.any (fun e => e.2.cls == .nan),
           arrInf := x.arrInf || a.cells.any (fun e => e.2.cls == .pinf || e.2.cls == .ninf),
           arrPoison := x.arrPoison || a.poison }

/-- The events of a tile that closes (Table 7.6, R189). -/
def tileEvents (a : AccSet) : List (Nat × Sev) :=
  (if a.sat then [(0x0501, .minor)] else []) ++ (if a.nan || a.inf then [(0x0502, .minor)] else [])

theorem raise_if (s : State) (b : Bool) {code : Nat} (sev : Sev) (detail : Nat) (h : code ≠ 0x1206) :
    Raised s (if b then raise s code sev detail else s) (if b then [(code, sev)] else []) := by
  cases b with
  | true => exact raise_news _ _ _ _ h
  | false => exact .same s

theorem closeTile_raised (s : State) (q : Nat) (a : AccSet) : Raised (onQuad s q (tileFlagged a)) (closeTile s q a) (tileEvents a) :=
  (raise_if _ a.sat .minor 0 (by decide)).trans (raise_if _ (a.nan || a.inf) .minor 0 (by decide))

theorem exec_passComplete {s : State} {q : Quad} {r : RunPass} (hup : quadUp s q.val = true) (hcore : coreRuns s = true)
    (hrun : (quadAt s q.val).run = some r) :
    exec (.passComplete q) s = .next (popOp (
      if r.d.tileEnd.isSome then
        closeTile (onQuad s q.val (passCounted r (passSums (quadAt s q.val) r))) q.val (passSet r (passSums (quadAt s q.val) r).set)
      else onQuad s q.val (passCounted r (passSums (quadAt s q.val) r))) q.val) := by
  have h : exec (.passComplete q) s = .next (passComplete s q.val) := rfl
  rw [h]
  unfold passComplete
  rw [hrun]
  dsimp only
  rw [if_neg (not_not_intro ⟨hup, hcore⟩), onActive_eq, onQuad_onQuad]
  rfl

/-- A quadrant whose pass has ended, with its tile closed where the pass ends one, and the operation gone from the front. -/
def passEnded (r : RunPass) (a : AccRun) (x : QuadSt) : QuadSt :=
  frontDropped (if r.d.tileEnd.isSome then tileFlagged (passSet r a.set) (passCounted r a x) else passCounted r a x)

/-- The events of a pass that ends: those of the tile that it closes. -/
def passEvents (r : RunPass) (a : AccRun) : List (Nat × Sev) := if r.d.tileEnd.isSome then tileEvents a.set else []

theorem tileEvents_passSet (r : RunPass) (set : AccSet) : tileEvents (passSet r set) = tileEvents set := by
  unfold passSet
  split <;> rfl

/-- What the end of a pass leaves in its quadrant (R151, R157, R172, R176, R181). -/
structure PassEnds (r : RunPass) (a : AccRun) (x y : QuadSt) : Prop where
  run : y.run = none
  passes : y.jnPasses = satAdd 32 x.jnPasses 1
  saved : y.jnSaved = savedClocks x.jnSaved r
  under : y.arrUnder = satAdd 32 x.arrUnder a.under
  satx : y.arrSatx = satAdd 32 x.arrSatx a.satx
  active : activeSet y = passSet r a.set
  activeB : y.activeB = x.activeB
  shadow : shadowSet y = shadowSet x
  swapDue : y.swapDue = (x.swapDue || r.d.tileEnd.isSome)

theorem passEnded_ends (r : RunPass) (a : AccRun) (x : QuadSt) : PassEnds r a x (passEnded r a x) := by
  unfold passEnded
  have h : PassEnds r a x (frontDropped (passCounted r a x)) := by
    obtain ⟨setA, setB, hx⟩ := withActive_sets (fun _ => passSet r a.set) x
    have hactive := activeSet_withActive (fun _ => passSet r a.set) x
    have hshadow := shadowSet_withActive (fun _ => passSet r a.set) x
    unfold frontDropped passCounted
    rw [hx] at hactive hshadow ⊢
    exact ⟨rfl, rfl, rfl, rfl, rfl, hactive, rfl, hshadow, rfl⟩
  split
  · exact { h with }
  · exact h

theorem passEnded_todo (r : RunPass) (a : AccRun) (x : QuadSt) : (passEnded r a x).todo = x.todo.drop 1 := by
  obtain ⟨setA, setB, h⟩ := withActive_sets (fun _ => passSet r a.set) x
  unfold passEnded passCounted
  rw [h]
  split <;> rfl

/-- A pass that ends changes its quadrant, raises the events of the tile that it closes, and lets the next operation come to the front. -/
theorem passComplete_ends {s : State} {q : Quad} {r : RunPass} (hup : quadUp s q.val = true) (hcore : coreRuns s = true)
    (hrun : (quadAt s q.val).run = some r) : ∃ w u, exec (.passComplete q) s = .next u ∧
      Raised (onQuad s q.val (passEnded r (passSums (quadAt s q.val) r))) w (passEvents r (passSums (quadAt s q.val) r)) ∧
      Advanced q.val w u := by
  refine ⟨_, _, exec_passComplete hup hcore hrun, ?_, popOp_advanced q.isLt _⟩
  generalize passSums (quadAt s q.val) r = a
  unfold passEnded passEvents
  split
  · have h := (closeTile_raised (onQuad s q.val (passCounted r a)) q.val (passSet r a.set)).onQuad q.val frontDropped
    rw [onQuad_onQuad, onQuad_onQuad, tileEvents_passSet] at h
    exact h
  · rw [onQuad_onQuad]
    exact .same _

theorem passComplete_runs {s : State} {q : Quad} {r : RunPass} {a : AccRun} (hup : quadUp s q.val = true) (hcore : coreRuns s = true)
    (hrun : (quadAt s q.val).run = some r) (ha : a = passSums (quadAt s q.val) r) :
    Runs (.passComplete q) s (fun u =>
      (quadAt u q.val).run = none ∧ OpEnds s u q.val ∧ (quadAt u q.val).jnPasses = satAdd 32 (quadAt s q.val).jnPasses 1 ∧
      (quadAt u q.val).jnSaved =
        min (2 ^ 64 - 1) (((quadAt s q.val).jnSaved : Int) + (r.planned : Int) - (r.actual : Int)).toNat ∧
      (quadAt u q.val).arrUnder = satAdd 32 (quadAt s q.val).arrUnder a.under ∧
      (quadAt u q.val).arrSatx = satAdd 32 (quadAt s q.val).arrSatx a.satx ∧
      (activeSet (quadAt u q.val)).cells = a.set.cells ∧ (quadAt u q.val).activeB = (quadAt s q.val).activeB ∧
      shadowSet (quadAt u q.val) = shadowSet (quadAt s q.val) ∧
      (quadAt u q.val).swapDue = ((quadAt s q.val).swapDue || r.d.tileEnd.isSome) ∧
      (∀ k, k ≠ q.val → quadAt u k = quadAt s k) ∧ u.cmb = s.cmb ∧ u.so = s.so ∧ u.bl = s.bl ∧ u.beat = s.beat ∧
      Logs s u (if r.d.tileEnd.isSome then (if a.set.sat then [(0x0501, .minor)] else []) ++
        (if a.set.nan || a.set.inf then [(0x0502, .minor)] else []) ++ lateNext s q.val else lateNext s q.val)) := by
  obtain ⟨w, u, hexec, hraised, hadvanced⟩ := passComplete_ends hup hcore hrun
  rw [← ha] at hraised
  obtain ⟨hframe, ⟨todo, feeds, acts, raw, hown⟩, hothers, hstays, hnews⟩ := hadvanced
  have hw : quadAt w q.val = passEnded r a (quadAt s q.val) := by
    rw [hraised.calm.quadAt, quadAt_onQuad_same _ _ _ q.isLt]
  have hwk (k : Nat) (hk : k ≠ q.val) : quadAt w k = quadAt s k := by
    rw [hraised.calm.quadAt, quadAt_onQuad_other _ _ _ _ (Ne.symm hk)]
  have htodo : (quadAt w q.val).todo = (quadAt s q.val).todo.drop 1 := by rw [hw, passEnded_todo]
  have hends : PassEnds r a (quadAt s q.val) (quadAt u q.val) := by
    rw [hown, hw]
    exact { passEnded_ends r a (quadAt s q.val) with }
  have hevents : Logs s u (passEvents r a ++ lateNext s q.val) := by
    rw [htodo] at hnews
    exact Logs.trans (s := s) hraised.news hnews
  have calm := hraised.calm
  refine ⟨u, hexec, hends.run, hstays.trans (by rw [htodo]), hends.passes, hends.saved, hends.under, hends.satx,
    (congrArg AccSet.cells hends.active).trans (passSet_cells r a.set), hends.activeB, hends.shadow, hends.swapDue,
    fun k hk => (hothers k hk).trans (hwk k hk), ?cmb, ?so, ?bl, ?beat, ?events⟩
  case cmb => rw [hframe]; exact calm.cmb
  case so => rw [hframe]; exact calm.so
  case bl => rw [hframe]; exact calm.bl
  case beat => rw [hframe]; exact calm.beat
  case events =>
    unfold passEvents tileEvents at hevents
    split
    · next h =>
      rw [if_pos h] at hevents
      exact hevents
    · next h =>
      rw [if_neg h] at hevents
      exact hevents

/- The swap of the sets. -/

/-- A quadrant whose accumulator sets have been exchanged, with the stall clocks n (R181, R182, R207). -/
def setsSwapped (s : State) (n : Nat) (x : QuadSt) : QuadSt :=
  let a := activeSet x
  { x with activeB := !x.activeB, swapDue := false, shadowBusy := true, amaxM := amaxOf a, amaxE := unitExp a.mode a.anchor,
           arrAmax := fp32Code (if amaxOf a = 0 then fzero false else roundUpFp32 (amaxOf a) 1 (unitExp a.mode a.anchor)),
           arrStall := satAdd 32 x.arrStall n, fusBusy := true, fusDesc := a.desc, fusChain := (descOf s a.ctx a.desc).chain }

theorem setsSwapped_shadow (s : State) (n : Nat) (x : QuadSt) : shadowSet (setsSwapped s n x) = activeSet x := by
  unfold shadowSet setsSwapped activeSet
  cases x.activeB <;> rfl

theorem setsSwapped_active (s : State) (n : Nat) (x : QuadSt) : activeSet (setsSwapped s n x) = shadowSet x := by
  unfold activeSet setsSwapped shadowSet
  cases x.activeB <;> rfl

theorem exec_accumulatorSetSwap {s : State} {q : Quad} (n : Nat) (hup : quadUp s q.val = true) (hcore : coreRuns s = true)
    (hswap : (quadAt s q.val).swapDue = true) (hfree : (quadAt s q.val).shadowBusy = false) :
    ∃ u, exec (.accumulatorSetSwap q n) s = .next u ∧ u = { s with quad := u.quad } ∧
      quadAt u q.val = setsSwapped s n (quadAt s q.val) ∧ ∀ k, k ≠ q.val → quadAt u k = quadAt s k :=
  ⟨_, congrArg Host.Outcome.next (if_pos ⟨hup, hcore, hswap, hfree⟩), rfl, quadAt_onQuad_same _ _ _ q.isLt,
    fun _ hk => quadAt_onQuad_other _ _ _ _ (Ne.symm hk)⟩

/-- Settles O40: the start of a pass by passStart_runs and passStart_reports, its end by passComplete_runs, and the swap by setsSwapped. -/
theorem passesAndSets : Obligations.PassesAndSets := by
  intro s q
  refine ⟨fun t d tile corrected bad ht hop hswap hmay htile => passStart_runs ⟨ht, hop, hswap, hmay, htile⟩ corrected bad,
    fun t d tile corrected ht hop hswap hmay htile hwhole => passStart_reports ⟨ht, hop, hswap, hmay, htile⟩ corrected hwhole,
    fun hup hcore => ⟨fun r hrun => passComplete_runs hup hcore hrun rfl, fun n hswap hfree => ?swap⟩⟩
  case swap =>
    obtain ⟨u, hexec, hframe, hown, hothers⟩ := exec_accumulatorSetSwap n hup hcore hswap hfree
    refine ⟨u, hexec, hframe, hothers, ?_⟩
    rw [hown]
    exact ⟨rfl, setsSwapped_shadow s n _, setsSwapped_active s n _, rfl, rfl, rfl, rfl⟩

end Sys2Proof.Machine
end

section
/-! PROOFS. The transitions of the Hive phase state (R92, R94, R97, R99, R100, R102, R104): each row runs to the state that it raises its
event from. -/

namespace Sys2Proof.Machine

open Sys2Proof

/-- A row that ends by raising an event runs to the state with that event raised. -/
theorem Runs.raised {c : Instr} {s e : State} {code detail : Nat} {sev : Sev} (h : exec c s = .next (raise e code sev detail))
    (hcode : code ≠ 0x1206) : Runs c s (fun t => Raised e t [(code, sev)]) :=
  ⟨_, h, raise_news e code sev detail hcode⟩

theorem exec_portExclusionLimit {s : State} {p : PortId} (ha : alive s = true) (hrun : vget s.beat.portxRun p.val 0 = 64) :
    exec (.portExclusionLimit p) s = .next (raise s 0x020B .minor 0) :=
  congrArg Host.Outcome.next (if_pos ⟨ha, hrun⟩)

/-- A member in SEEK that has become master (R97). -/
def masterBegun (s : State) : State :=
  { s with beat.pstate := .master, beat.masterRank := s.beat.ownRank, beat.hops := 0, beat.parent := none, beat.waitEdges := 0,
           beat.elections := satAdd 16 s.beat.elections 1 }

theorem exec_seekTimeout {s : State} (ha : alive s = true) (hst : s.beat.pstate = .seek) (hwait : 64 ≤ s.beat.waitEdges)
    (hen : s.beat.masterEn = true) (hlock : s.syn.b.ld = .locked) (hhold : s.syn.holdover = false) :
    exec .seekTimeout s = .next (raise (masterBegun s) 0x0207 .minor 0) :=
  congrArg Host.Outcome.next (if_pos ⟨ha, hst, hwait, hen, hlock, hhold⟩)

/-- A member in ACQUIRE that has jumped to the phase and the number that a marker of its parent names (R100). -/
def jumpedTo (s : State) (m : MarkerSt) : State :=
  clearWindow { s with
    beat.pstate := .track, beat.inPhase := false, beat.jumpDue := jumpTicks s, beat.lastJ := jumpTicks s,
    beat.jumps := satAdd 32 s.beat.jumps 1, beat.jumpSkip := some (jumpEdges s),
    beat.adopt := some (m.beat + (s.beat.edges + 1 - m.beatEdge) + jumpEdges s) }

theorem exec_coarseJump {s : State} {m : MarkerSt} {r : List MarkerSt} (ha : alive s = true) (hst : s.beat.pstate = .acquire)
    (hgot : 64 ≤ s.beat.gathered) (hidle : noInstance s = true) (hpar : parentMarkers s = m :: r) :
    exec .coarseJump s = .next (raise (jumpedTo s m) 0x0208 .minor 0) := by
  refine congrArg Host.Outcome.next ((if_pos ⟨ha, hst, hgot, hidle⟩).trans ?_)
  rw [hpar]
  rfl

theorem exec_parentLost {s : State} (ha : alive s = true) (hst : s.beat.pstate = .track) (hlost : parentLostNow s = true) :
    exec .parentLost s = .next (raise { s with
      beat.pstate := .hold, beat.prevHops := s.beat.hops, beat.hops := 31, beat.parent := none, beat.steer := 0,
      beat.waitEdges := 0 } 0x0206 .major 0) :=
  congrArg Host.Outcome.next (if_pos ⟨ha, hst, hlost⟩)

theorem exec_holdTimeout {s : State} (ha : alive s = true) (hst : s.beat.pstate = .hold) (hwait : 64 ≤ s.beat.waitEdges) :
    exec .holdTimeout s = .next { s with beat.pstate := .seek, beat.waitEdges := 0 } :=
  congrArg Host.Outcome.next (if_pos ⟨ha, hst, hwait⟩)

theorem exec_masterHoldoverTimeout {s : State} (ha : alive s = true) (hst : s.beat.pstate = .master) (hhold : s.syn.holdover = true)
    (hlong : 1024 ≤ s.syn.holdBeats) :
    exec .masterHoldoverTimeout s = .next (raise { masterLeaves s with beat.steppedDown := true } 0x0207 .minor 0) :=
  congrArg Host.Outcome.next (if_pos ⟨ha, hst, hhold, hlong⟩)

theorem exec_rateLimitExceeded {s : State} (ha : alive s = true) (hrun : 64 ≤ s.beat.rateRun) :
    exec .rateLimitExceeded s = .next (raise { s with beat.inPhase := false, beat.rateRun := 0 } 0x020A .major 0) :=
  congrArg Host.Outcome.next (if_pos ⟨ha, hrun⟩)

/-- Settles O31: each row by the equation for its case, and Runs.raised for the event of those that report one. -/
theorem hivePhaseEvents : Obligations.HivePhaseEvents := fun _ ha =>
  ⟨fun _ hrun => .raised (exec_portExclusionLimit ha hrun) (by decide),
    fun hst hwait hen hlock hhold => .raised (exec_seekTimeout ha hst hwait hen hlock hhold) (by decide),
    fun _ _ hst hgot hidle hpar => .raised (exec_coarseJump ha hst hgot hidle hpar) (by decide),
    fun hst hlost => .raised (exec_parentLost ha hst hlost) (by decide),
    fun hst hwait => exec_holdTimeout ha hst hwait,
    fun hst hhold hlong => .raised (exec_masterHoldoverTimeout ha hst hhold hlong) (by decide),
    fun hrun => .raised (exec_rateLimitExceeded ha hrun) (by decide)⟩

end Sys2Proof.Machine
end

section
/-! PROOFS. Rules for the hive ports: what leaves all but the ports alone, how a port takes a state (R281, R305), the fence (R304), and the
order in which a SEQ flit is taken (R286, R295, R303). -/

namespace Sys2Proof.Machine

open Sys2Proof

theorem onPort_onPort (s : State) (p : Nat) (f g : Port → Port) : onPort (onPort s p f) p g = onPort s p (fun x => g (f x)) :=
  congrArg (fun v => { s with hl.port := v }) (vmod_vmod s.hl.port p f g)

theorem Calm.portAt {s t : State} (h : Calm s t) (k : Nat) : portAt t k = portAt s k := by
  unfold Machine.portAt
  rw [h.hl]

/- Nothing but ports changed. -/

/-- Nothing but the ports has changed. -/
structure OnlyPorts (s t : State) : Prop where
  frame : t = { s with hl.port := t.hl.port }

theorem OnlyPorts.same (s : State) : OnlyPorts s s := ⟨rfl⟩

theorem OnlyPorts.trans {s t u : State} (h : OnlyPorts s t) (k : OnlyPorts t u) : OnlyPorts s u :=
  ⟨by rw [k.frame, h.frame]⟩

theorem OnlyPorts.ite {s a b : State} (c : Prop) [Decidable c] (ha : OnlyPorts s a) (hb : OnlyPorts s b) :
    OnlyPorts s (if c then a else b) := by
  split
  · exact ha
  · exact hb

theorem OnlyPorts.foldl {α : Type} {f : State → α → State} (h : ∀ s x, OnlyPorts s (f s x)) (l : List α) (s : State) :
    OnlyPorts s (l.foldl f s) := by
  induction l generalizing s with
  | nil => exact .same s
  | cons a r ih => exact (h s a).trans (ih (f s a))

theorem OnlyPorts.hi {s t : State} (h : OnlyPorts s t) : t.hi = s.hi := by rw [h.frame]
theorem OnlyPorts.hw {s t : State} (h : OnlyPorts s t) : t.hw = s.hw := by rw [h.frame]
theorem OnlyPorts.cmb {s t : State} (h : OnlyPorts s t) : t.cmb = s.cmb := by rw [h.frame]
theorem OnlyPorts.beat {s t : State} (h : OnlyPorts s t) : t.beat = s.beat := by rw [h.frame]

theorem onPort_onlyPorts (s : State) (p : Nat) (f : Port → Port) : OnlyPorts s (onPort s p f) := ⟨rfl⟩

theorem creditBack_onlyPorts (s : State) (o : Option Nat) : OnlyPorts s (creditBack s o) := by
  cases o with
  | none => exact .same s
  | some p => exact onPort_onlyPorts s p _

theorem portTo_onlyPorts (s : State) (p : Nat) (st : PortSt) : OnlyPorts s (portTo s p st) :=
  (OnlyPorts.foldl creditBack_onlyPorts _ s).trans (onPort_onlyPorts _ p _)

theorem portTrain_onlyPorts (s : State) (p : Nat) : OnlyPorts s (portTrain s p) :=
  (portTo_onlyPorts s p .training).trans (onPort_onlyPorts _ p _)

theorem giveTx_onlyPorts (s : State) (p : Nat) (l : List Byte) : OnlyPorts s (giveTx s p l) := onPort_onlyPorts s p _

theorem txNow_onlyPorts (s : State) (p : Nat) (l : List Byte) : OnlyPorts s (txNow s p l) :=
  (giveTx_onlyPorts s p _).trans (onPort_onlyPorts _ p _)

theorem txTry_onlyPorts (s : State) (p : Nat) (l : List Byte) : OnlyPorts s (txTry s p l) :=
  .ite _ (.same s) (.ite _ (txNow_onlyPorts s p l) (onPort_onlyPorts s p _))

theorem closeGroup_onlyPorts (s : State) (p : Nat) : OnlyPorts s (closeGroup s p) := by
  unfold closeGroup
  dsimp only
  split
  · exact .same s
  · refine .trans ((onPort_onlyPorts s p _).trans (txTry_onlyPorts _ p _)) (.ite _ (portTrain_onlyPorts _ p) (.same _))

theorem txFlit_onlyPorts (s : State) (p : Nat) (l : List Byte) : OnlyPorts s (txFlit s p l) :=
  .ite _ ((txTry_onlyPorts s p l).trans (closeGroup_onlyPorts _ p)) (txTry_onlyPorts s p l)

theorem haltFlits_onlyPorts (s : State) (but : Option Nat) (id n : Nat) : OnlyPorts s (haltFlits s but id n) :=
  .ite _ (.foldl (fun s p => .ite _ (txFlit_onlyPorts s p _) (.same s)) _ s) (.same s)

/- A port takes a state (R281, R305). -/

/-- What a port that takes a state becomes. -/
def portTaken (st : PortSt) (x : Port) : Port :=
  let y := { x.linkClear with st := st }
  if st = .off ∧ x.st = .up then { y with quick := true }
  else if st = .training ∧ x.st = .off ∧ x.quick = true then y
  else y.lanesClear

/-- A port that takes a state has that state, its link layer cleared, and a lane assignment; nothing else of it has changed. -/
theorem portTaken_eq (st : PortSt) (x : Port) :
    ∃ a b c d, portTaken st x = { x.linkClear with st := st, spared := a, txSpared := b, weak := c, quick := d } := by
  unfold portTaken
  dsimp only
  split
  · exact ⟨_, _, _, _, rfl⟩
  · split
    · exact ⟨_, _, _, _, rfl⟩
    · exact ⟨_, _, _, _, rfl⟩

/-- Credits given back change only the unscheduled counts of a port. -/
theorem creditBacks_port (l : List (Option Nat)) (s : State) (k : Nat) :
    ∃ a b, portAt (l.foldl creditBack s) k = { portAt s k with rxUnsched := a, creditRet := b } := by
  induction l generalizing s with
  | nil => exact ⟨_, _, rfl⟩
  | cons o r ih =>
    obtain ⟨a, b, hrest⟩ := ih (creditBack s o)
    have hfirst : ∃ c d, portAt (creditBack s o) k = { portAt s k with rxUnsched := c, creditRet := d } := by
      cases o with
      | none => exact ⟨_, _, rfl⟩
      | some p =>
        by_cases hk : p = k ∧ p < 20
        · obtain ⟨rfl, hp⟩ := hk
          exact ⟨_, _, portAt_onPort_same s p _ hp⟩
        · exact ⟨_, _, (vget_vmod _ p k _ _).trans (if_neg hk)⟩
    obtain ⟨c, d, hfirst⟩ := hfirst
    exact ⟨a, b, by rw [List.foldl_cons, hrest, hfirst]⟩

/-- What waited on the port gives back its credits before the port's own link layer is cleared, so they do not show in it. -/
theorem portTo_port_same (s : State) {p : Nat} (st : PortSt) (hp : p < 20) : portAt (portTo s p st) p = portTaken st (portAt s p) := by
  obtain ⟨a, b, h⟩ := creditBacks_port ((portAt s p).waitq.map (fun w => w.2)) s p
  refine (portAt_onPort_same _ p (portTaken st) hp).trans ?_
  rw [h]
  rfl

theorem portTo_port_other (s : State) {p k : Nat} (st : PortSt) (hk : k ≠ p) : (portAt (portTo s p st) k).st = (portAt s k).st := by
  obtain ⟨a, b, h⟩ := creditBacks_port ((portAt s p).waitq.map (fun w => w.2)) s k
  refine (congrArg Port.st (portAt_onPort_other _ p k (portTaken st) (Ne.symm hk))).trans ?_
  rw [h]

/- A port moves (Table 12.2). -/

/-- Nothing but the ports has changed, and no port has changed its state. -/
structure PortsKept (s t : State) : Prop where
  only : OnlyPorts s t
  st : ∀ k, (portAt t k).st = (portAt s k).st

theorem PortsKept.trans {s t u : State} (h : PortsKept s t) (k : PortsKept t u) : PortsKept s u :=
  ⟨h.only.trans k.only, fun j => (k.st j).trans (h.st j)⟩

theorem onPort_portsKept (s : State) (p : Nat) {f : Port → Port} (hf : ∀ x, (f x).st = x.st) : PortsKept s (onPort s p f) := by
  refine ⟨onPort_onlyPorts s p f, fun k => ?_⟩
  refine (congrArg Port.st (vget_vmod s.hl.port p k f .init)).trans ?_
  split
  · next h => exact (hf _).trans (by rw [h.1]; rfl)
  · rfl

theorem giveTx_portsKept (s : State) (p : Nat) (l : List Byte) : PortsKept s (giveTx s p l) := onPort_portsKept s p fun _ => rfl

theorem sendAck_portsKept (s : State) (p : Nat) : PortsKept s (sendAck s p) :=
  (onPort_portsKept s p (f := fun x => { x with unacked := 0, creditRet := 0 }) fun _ => rfl).trans (giveTx_portsKept _ p _)

theorem rxState_portsKept (s : State) (p : Nat) : PortsKept s (rxState s p) := onPort_portsKept s p fun _ => rfl

theorem Logs.from {s u t : State} {l : List (Nat × Sev)} (h : Logs u t l) (hi : u.hi = s.hi) : Logs s t l := by
  unfold Logs at *
  rwa [← hi]

theorem PortMoved.after {s u t : State} {p : Nat} {st : PortSt} (h : PortMoved u t p st) (k : PortsKept s u) : PortMoved s t p st := by
  obtain ⟨hst, hothers, hlink, hrest, hhi, hhw⟩ := h
  refine ⟨hst, fun j hj => (hothers j hj).trans (k.st j), hlink, ?_, k.only.hi ▸ hhi, k.only.hw ▸ hhw⟩
  rw [hrest, k.only.frame]

/- The fence (R304). -/

/-- A port that is fenced for a cause. -/
def portFenced (cause : Nat) (x : Port) : Port := { portTaken .fenced x with fence := cause }

theorem portFence_raised (s : State) (p cause : Nat) :
    Raised (onPort (portTo s p .fenced) p (fun x => { x with fence := cause })) (portFence s p cause) [(0x0C04, .major)] :=
  raise_news _ 0x0C04 .major 0 (by decide)

theorem portFence_onlyPorts (s : State) (p cause : Nat) :
    OnlyPorts s (onPort (portTo s p .fenced) p (fun x => { x with fence := cause })) :=
  (portTo_onlyPorts s p .fenced).trans (onPort_onlyPorts _ p _)

theorem portFence_port (s : State) {p : Nat} (cause : Nat) (hp : p < 20) :
    portAt (portFence s p cause) p = portFenced cause (portAt s p) := by
  rw [(portFence_raised s p cause).calm.portAt, portAt_onPort_same _ _ _ hp, portTo_port_same s .fenced hp]
  rfl

theorem portFence_logs (s : State) (p cause : Nat) : Logs s (portFence s p cause) [(0x0C04, .major)] :=
  (portFence_raised s p cause).news.from (portFence_onlyPorts s p cause).hi

theorem portFence_rest (s : State) (p cause : Nat) :
    portFence s p cause =
      { s with hl.port := (portFence s p cause).hl.port, hi := (portFence s p cause).hi, hw := (portFence s p cause).hw } := by
  have hraised := portFence_raised s p cause
  have hhl := hraised.calm.hl
  have hframe := hraised.frame
  have honly := portFence_onlyPorts s p cause
  generalize portFence s p cause = t at *
  rw [hframe]
  generalize onPort (portTo s p .fenced) p (fun x => { x with fence := cause }) = u at *
  rw [honly.frame]

theorem portFence_so (s : State) (p cause : Nat) : (portFence s p cause).so = s.so := by
  rw [portFence_rest]

theorem portFence_beat (s : State) (p cause : Nat) : (portFence s p cause).beat = s.beat := by
  rw [portFence_rest]

/-- A fenced port has its link layer cleared and a lane assignment; nothing else of it has changed. -/
theorem portFenced_eq (cause : Nat) (x : Port) : ∃ a b c d, portFenced cause x =
    { x.linkClear with st := .fenced, spared := a, txSpared := b, weak := c, quick := d, fence := cause } := by
  obtain ⟨a, b, c, d, h⟩ := portTaken_eq .fenced x
  exact ⟨a, b, c, d, by rw [portFenced, h]⟩

theorem portFence_moved (s : State) {p : Nat} (cause : Nat) (hp : p < 20) : PortMoved s (portFence s p cause) p .fenced := by
  have hraised := portFence_raised s p cause
  have honly := portFence_onlyPorts s p cause
  obtain ⟨a, b, c, d, hfenced⟩ := portFenced_eq cause (portAt s p)
  rw [← portFence_port s cause hp] at hfenced
  refine ⟨by rw [hfenced], fun k hk => ?_, by rw [hfenced]; exact ⟨rfl, rfl, rfl, rfl⟩, portFence_rest s p cause,
    honly.hi ▸ hraised.calm.hi, honly.hw ▸ hraised.calm.hw⟩
  rw [hraised.calm.portAt, portAt_onPort_other _ _ _ _ (Ne.symm hk), portTo_port_other s .fenced hk]

/- A SEQ flit meets its order (R286). -/

/-- A port whose flit has been counted and its order noted. -/
theorem rxState_port (s : State) {p : Nat} (hp : p < 20) : portAt (rxState s p) p = { portAt s p with
    rx := satAdd 64 (portAt s p).rx 1, rxSeq := ((portAt s p).rxSeq + 1) % 65536, gap := false, unacked := (portAt s p).unacked + 1 } :=
  portAt_onPort_same s p _ hp

theorem rxState_unsealed {s : State} {p : PortId} (h : (portAt s p.val).sealed = false) :
    (portAt (rxState s p.val) p.val).sealed = false := by
  rw [rxState_port s p.isLt]
  exact h

/-- A SEQ flit in its order at an UP port is counted, acknowledged if it is the 32nd, and taken if there is a roster (R286, R295). -/
theorem rxTake_inOrder {s : State} {p : Nat} {l : List Byte} (hp : p < 20) (hup : portUp s p = true) (hcrc : hcrcOk l = true)
    (hseq : fSeq l = (portAt s p).rxSeq) :
    rxTake s p l = (s.hl.roster, if 32 ≤ (portAt s p).unacked + 1 then sendAck (rxState s p) p else rxState s p) := by
  have hcount : portAt (rxCount s p) p = { portAt s p with rx := satAdd 64 (portAt s p).rx 1 } := portAt_onPort_same s p _ hp
  unfold rxTake
  dsimp only
  rw [if_neg (not_not_intro hup), if_neg (not_not_intro hcrc), hcount, if_pos hseq]
  unfold rxCount
  rw [onPort_onPort]
  rfl

theorem FlitTaken.rxTake {s : State} {p typ : Nat} {l : List Byte} (h : FlitTaken s p l typ) : rxTake s p l = (true, rxState s p) := by
  rw [rxTake_inOrder h.number h.up h.crc h.seq, h.roster, if_neg (Nat.not_le.mpr h.few)]

/-- What becomes of a SEQ flit that only the port's neighbour may send: it is discarded, or it fences the port, or rest is its effect
(R286, R303). -/
def afterTake (s : State) (p : Nat) (l : List Byte) (rest : State → State) : State :=
  if ¬ (rxTake s p l).1 then (rxTake s p l).2
  else if ¬ fromNbr (rxTake s p l).2 p l then portFence (rxTake s p l).2 p 1
  else rest (rxTake s p l).2

theorem fromNbr_rxState (s : State) {p : Nat} (l : List Byte) (hp : p < 20) : fromNbr (rxState s p) p l = fromNbr s p l := by
  unfold fromNbr
  rw [rxState_port s hp]

theorem FlitTaken.afterTake {s : State} {p typ : Nat} {l : List Byte} (h : FlitTaken s p l typ) (htyp : typ ≠ 4) (rest : State → State) :
    afterTake s p l rest = rest (rxState s p) := by
  unfold Machine.afterTake
  rw [h.rxTake, if_neg (not_not_intro rfl), fromNbr_rxState s l h.number, if_neg (not_not_intro (h.nbr htyp))]

theorem fromNbr_sendAck (s : State) {p : Nat} (l : List Byte) (hp : p < 20) : fromNbr (sendAck s p) p l = fromNbr s p l := by
  unfold fromNbr sendAck giveTx
  rw [portAt_onPort_same _ _ _ hp, portAt_onPort_same _ _ _ hp]

/-- A flit in its order that another rank sent fences the port (R303). -/
theorem afterTake_stranger {s : State} {p : Nat} {l : List Byte} (hp : p < 20) (hup : portUp s p = true) (hcrc : hcrcOk l = true)
    (hseq : fSeq l = (portAt s p).rxSeq) (hroster : s.hl.roster = true) (hnbr : fromNbr s p l = false) (rest : State → State) :
    ∃ u, PortsKept s u ∧ afterTake s p l rest = portFence u p 1 := by
  have htaken := rxState_portsKept s p
  have hfrom := (fromNbr_rxState s l hp).trans hnbr
  unfold afterTake
  rw [rxTake_inOrder hp hup hcrc hseq, hroster, if_neg (not_not_intro rfl)]
  dsimp only
  split
  · exact ⟨_, htaken.trans (sendAck_portsKept _ p), if_pos (by rw [fromNbr_sendAck _ l hp, hfrom]; decide)⟩
  · exact ⟨_, htaken, if_pos (by rw [hfrom]; decide)⟩

end Sys2Proof.Machine
end

section
/-! PROOFS. Flits that a port takes in their order (R87, R88, R103, R262, R263, R286, R291, R292, R294, R301, R303): the equation of each
row, and what its effect leaves. -/

namespace Sys2Proof.Machine

open Sys2Proof

/- Links of a plan, and DATA flits (R291). -/

theorem onLink_links (s : State) {c : Nat} (i : Nat) (f : LinkEnt → LinkEnt) (hc : c < 4) :
    (ctxAt (onLink s c i f) c).links[i]? = ((ctxAt s c).links[i]?).map f := by
  unfold onLink
  rw [ctxAt_onCtx_same _ _ _ hc]
  simp

/-- The entry that a flit names is an entry of its context. -/
theorem schedEntry_links {s : State} {p c ns : Nat} {l : List Byte} {sync : Bool} {x : LinkEnt}
    (h : schedEntry s p l sync ns = some (c, x)) : (ctxAt s c).links[fEntry l]? = some x := by
  unfold schedEntry at h
  split at h
  · cases h
  · split at h
    · cases h
    · next hx =>
      split at h
      · cases h
        exact hx
      · cases h

theorem forInst_inst (x : LinkEnt) (n : Nat) : (x.forInst n).inst = n := by
  unfold LinkEnt.forInst
  split
  · assumption
  · rfl

/-- An entry in which a DATA flit has been noted (R291). -/
def dataNoted (l : List Byte) (x : LinkEnt) : LinkEnt :=
  { x.forInst (fInst l) with got := addOnce (x.forInst (fInst l)).got (fIndex l) }

/-- The state in which a DATA flit's payload has been written where external memory runs. -/
def dataStored (s : State) (c : Nat) (x : LinkEnt) (l : List Byte) : State :=
  if xmUp s then xmWrite s ((ctxAt s c).xmBase + x.dest + 240 * fIndex l) (fPay l) else s

theorem dataWrite_unsealed (s : State) (c : Nat) (x : LinkEnt) (l : List Byte) :
    dataWrite s c x l false = onLink (dataStored s c x l) c (fEntry l) (dataNoted l) := rfl

theorem dataStored_frame (s : State) (c : Nat) (x : LinkEnt) (l : List Byte) :
    dataStored s c x l = { s with xm := (dataStored s c x l).xm } := by
  unfold dataStored
  split
  · rfl
  · rfl

/-- An accepted DATA flit changes external memory and its plan's links only. -/
theorem dataWrite_frame (s : State) (c : Nat) (x : LinkEnt) (l : List Byte) :
    dataWrite s c x l false =
      { s with cmb.ctx := (dataWrite s c x l false).cmb.ctx, xm := (dataWrite s c x l false).xm } := by
  rw [dataWrite_unsealed, dataStored_frame]
  rfl

/-- An accepted DATA flit is noted in its entry. -/
theorem dataWrite_link {s : State} {c : Nat} {x : LinkEnt} {l : List Byte} (hc : c < 4) (hx : (ctxAt s c).links[fEntry l]? = some x) :
    (ctxAt (dataWrite s c x l false) c).links[fEntry l]? = some (dataNoted l x) := by
  rw [dataWrite_unsealed, onLink_links _ _ _ hc, dataStored_frame]
  exact congrArg (Option.map (dataNoted l)) hx

theorem dataStored_rxState (s : State) (p c : Nat) (x : LinkEnt) (l : List Byte) :
    (dataStored (rxState s p) c x l).xm = (dataStored s c x l).xm := by
  have hup : xmUp (rxState s p) = xmUp s := rfl
  unfold dataStored
  rw [hup]
  split
  · rfl
  · rfl

/-- What a DATA flit from the port's neighbour does to a state in which it has been taken. -/
def dataTake (p : Nat) (l : List Byte) (ns : Nat) (e : State) : State :=
  match schedEntry e p l false ns with
  | none => badFlit (if (portAt e p).sealed then holdFlit e p l none false else e) p
  | some (c, x) => dataWrite (if (portAt e p).sealed then holdFlit e p l none true else e) c x l (portAt e p).sealed

theorem exec_flitDataReceive (s : State) (p : PortId) {l : List Byte} (ns : Nat) (h : isFlit l 1 = true) :
    exec (.flitDataReceive p l ns) s = .next (afterTake s p.val l (dataTake p.val l ns)) :=
  congrArg Host.Outcome.next (if_pos h)

theorem exec_flitDataReceive_taken {s : State} {p : PortId} {l : List Byte} (h : FlitTaken s p.val l 1) (ns : Nat) :
    exec (.flitDataReceive p l ns) s = .next (dataTake p.val l ns (rxState s p.val)) :=
  (exec_flitDataReceive s p ns h.flit).trans (congrArg _ (h.afterTake (by decide) _))

theorem dataTake_accepted {e : State} {p c ns : Nat} {l : List Byte} {x : LinkEnt} (hplain : (portAt e p).sealed = false)
    (hx : schedEntry e p l false ns = some (c, x)) : dataTake p l ns e = dataWrite e c x l false := by
  unfold dataTake
  rw [hx, hplain]
  rfl

theorem dataTake_refused {e : State} {p ns : Nat} {l : List Byte} (hplain : (portAt e p).sealed = false)
    (hx : schedEntry e p l false ns = none) : dataTake p l ns e = badFlit e p := by
  unfold dataTake
  rw [hx, hplain]
  rfl

/-- A bad flit counts, and the first of the beat is reported (R303). -/
theorem badFlit_raised (s : State) (p : Nat) :
    Raised (onPort s p (fun x => { x with bad := satAdd 16 x.bad 1, badTotal := satAdd 32 x.badTotal 1 })) (badFlit s p)
      (if (portAt s p).bad = 0 then [(0x0C08, .minor)] else []) := by
  unfold badFlit
  dsimp only
  split
  · exact raise_news _ 0x0C08 .minor 0 (by decide)
  · exact .same _

/- SYNC flits (R262, R263, R291). -/

/-- What a SYNC flit from the port's neighbour does to a state in which it has been taken. -/
def syncTake (p : Nat) (l : List Byte) (ns : Nat) (e : State) : State :=
  match schedEntry e p l true ns with
  | none => badFlit (if (portAt e p).sealed then holdFlit e p l none false else e) p
  | some _ => if (portAt e p).sealed then holdFlit e p l none true else syncApply e l

theorem exec_flitSyncReceive_taken {s : State} {p : PortId} {l : List Byte} (h : FlitTaken s p.val l 2) (ns : Nat) :
    exec (.flitSyncReceive p l ns) s = .next (syncTake p.val l ns (rxState s p.val)) :=
  congrArg Host.Outcome.next ((if_pos h.flit).trans (h.afterTake (by decide) (syncTake p.val l ns)))

theorem syncTake_accepted {e : State} {p ns : Nat} {l : List Byte} {x : Nat × LinkEnt} (hplain : (portAt e p).sealed = false)
    (hx : schedEntry e p l true ns = some x) : syncTake p l ns e = syncApply e l := by
  unfold syncTake
  rw [hx, hplain]
  rfl

/-- An increment that is neither stale nor misaddressed reaches its REMOTE object (R263). -/
theorem remoteAdd_reaches {s : State} {c obj inst : Nat} (inc : Nat) (hobj : obj < (ctxAt s c).soCount)
    (hst : (ctxAt s c).st = .installed) (hinst : vget s.so.inst c 0 % 65536 = inst % 65536)
    (hremote : (soAt s ((ctxAt s c).soBase + obj)).remote = true) :
    remoteAdd s (some c) obj inc inst =
      onSo s ((ctxAt s c).soBase + obj) (fun o => { o with value := (o.value + inc) % 2 ^ 32 }) := by
  have hsame : (vget s.so.inst c 0 + 65536 - inst % 65536) % 65536 = 0 := by omega
  unfold remoteAdd
  dsimp only
  rw [if_pos ⟨hst, hobj, hremote⟩, if_pos (.inl hsame)]

/- HALT (R294). -/

/-- What a HALT from the port's neighbour does to a state in which it has been taken. -/
def haltCome (p : Nat) (l : List Byte) (e : State) : State :=
  if (portAt e p).sealed then holdFlit e p l none true else haltTake e p l

theorem exec_flitHaltReceive_unsealed {s : State} {p : PortId} {l : List Byte} (h : FlitTaken s p.val l 5)
    (hplain : (portAt s p.val).sealed = false) : exec (.flitHaltReceive p l) s = .next (haltTake (rxState s p.val) p.val l) :=
  congrArg Host.Outcome.next ((if_pos h.flit).trans ((h.afterTake (by decide) (haltCome p.val l)).trans
    (if_neg (Bool.eq_false_iff.mp (rxState_unsealed hplain)))))

/-- The state in which a HALT has been counted. -/
def haltCounted (s : State) : State := { s with hl.halts := satAdd 32 s.hl.halts 1 }

/-- The state in which a HALT of plan id at edge n that came through port p has been counted, noted and relayed. -/
def haltRelayed (s : State) (p id n : Nat) : State :=
  haltFlits { haltCounted s with hl.haltSeen := (id, n) :: s.hl.haltSeen } (some p) id n

/-- A plan that has received HALT at edge n, in beat b: a stop that is due sooner stays. -/
def haltNoted (b n : Nat) (x : PlanCtx) : PlanCtx :=
  { x with halted := true, haltBeat := some n, haltDue := some (min (max n b + 1) (x.haltDue.getD (max n b + 1))) }

theorem haltTake_seen {s : State} (p : Nat) {l : List Byte} (h : s.hl.haltSeen.contains (leAt (fPay l) 0 8, leAt (fPay l) 8 8) = true) :
    haltTake s p l = haltCounted s := if_pos h

theorem ctxOf_lt {s : State} {id c : Nat} (h : ctxOf s id = some c) : c < 4 :=
  List.mem_range.mp (List.mem_of_find?_eq_some h)

theorem ctxAt_congr {s t : State} (h : t.cmb = s.cmb) (c : Nat) : ctxAt t c = ctxAt s c := by
  unfold ctxAt
  rw [h]

theorem ctxOf_congr {s t : State} (h : t.cmb = s.cmb) (id : Nat) : ctxOf t id = ctxOf s id := by
  unfold ctxOf
  simp only [ctxAt_congr h]

/-- Relaying a HALT changes the ports only. -/
theorem haltRelayed_only (s : State) (p id n : Nat) :
    OnlyPorts { haltCounted s with hl.haltSeen := (id, n) :: s.hl.haltSeen } (haltRelayed s p id n) := haltFlits_onlyPorts _ _ _ _

theorem haltRelayed_noted (s : State) (p id n : Nat) : (haltRelayed s p id n).hl.halts = satAdd 32 s.hl.halts 1 ∧
    (haltRelayed s p id n).hl.haltSeen = (id, n) :: s.hl.haltSeen ∧ ∀ c, ctxAt (haltRelayed s p id n) c = ctxAt s c := by
  rw [(haltRelayed_only s p id n).frame]
  exact ⟨rfl, rfl, fun _ => rfl⟩

/-- The plan that a HALT names stops where it is resident. -/
def haltPlan (s : State) (id n : Nat) : State :=
  match ctxOf s id with
  | none => s
  | some c => onCtx s c (haltNoted s.beat.num n)

theorem haltTake_new {s : State} (p : Nat) {l : List Byte} (h : s.hl.haltSeen.contains (leAt (fPay l) 0 8, leAt (fPay l) 8 8) = false) :
    haltTake s p l = haltPlan (haltRelayed s p (leAt (fPay l) 0 8) (leAt (fPay l) 8 8)) (leAt (fPay l) 0 8) (leAt (fPay l) 8 8) :=
  if_neg (Bool.eq_false_iff.mp h)

theorem haltPlan_relayed {s : State} {id c : Nat} (p n : Nat) (hc : ctxOf s id = some c) :
    haltPlan (haltRelayed s p id n) id n = onCtx (haltRelayed s p id n) c (haltNoted s.beat.num n) := by
  have honly := haltRelayed_only s p id n
  unfold haltPlan
  rw [(ctxOf_congr honly.cmb id).trans hc, honly.beat]
  rfl

/-- A HALT not seen before is counted, noted and relayed, and the resident plan that it names stops (R294). -/
theorem haltTake_resident (s : State) (p : Nat) (l : List Byte) {c : Nat}
    (hnew : s.hl.haltSeen.contains (leAt (fPay l) 0 8, leAt (fPay l) 8 8) = false) (hc : ctxOf s (leAt (fPay l) 0 8) = some c) :
    (haltTake s p l).hl.halts = satAdd 32 s.hl.halts 1 ∧
      (haltTake s p l).hl.haltSeen = (leAt (fPay l) 0 8, leAt (fPay l) 8 8) :: s.hl.haltSeen ∧
      ctxAt (haltTake s p l) c = haltNoted s.beat.num (leAt (fPay l) 8 8) (ctxAt s c) := by
  obtain ⟨hhalts, hnoted, hctx⟩ := haltRelayed_noted s p (leAt (fPay l) 0 8) (leAt (fPay l) 8 8)
  rw [haltTake_new p hnew, haltPlan_relayed p _ hc]
  exact ⟨hhalts, hnoted, by rw [ctxAt_onCtx_same _ _ _ (ctxOf_lt hc), hctx]⟩

/- Unscheduled flits (R292, R293). -/

theorem unschedDeliver_message {s : State} {l : List Byte} (p : Nat) (hown : fDst l = s.beat.ownRank) (hkind : leAt (fPay l) 0 1 = 3) :
    unschedDeliver s p l = { creditBack s (some p) with hl.keeperMsgs := fPay l :: s.hl.keeperMsgs } := by
  unfold unschedDeliver
  dsimp only
  rw [if_neg (not_not_intro hown), hkind, if_neg (by decide), if_neg (by decide), if_pos rfl]
  rfl

/-- A flit that leaves its buffer at once leaves a credit to return. -/
theorem creditBack_buffered (s : State) (p : Nat) :
    creditBack (onPort s p (fun x => { x with rxUnsched := x.rxUnsched + 1 })) (some p) =
      onPort s p (fun x => { x with creditRet := x.creditRet + 1 }) := onPort_onPort s p _ _

theorem exec_flitUnschedReceive_message {s : State} {p : PortId} {l : List Byte} {ns : Nat} (h : FlitTaken s p.val l 4)
    (hplain : (portAt s p.val).sealed = false) (hsrc : fSrc l < s.hl.size) (hdst : fDst l < s.hl.size)
    (hopen : unschedWindow s ns = true) (hroom : (portAt s p.val).rxUnsched < 64) (hown : fDst l = s.beat.ownRank)
    (hkind : leAt (fPay l) 0 1 = 3) :
    exec (.flitUnschedReceive p l ns) s = .next { onPort (rxState s p.val) p.val (fun x => { x with creditRet := x.creditRet + 1 }) with
      hl.keeperMsgs := fPay l :: s.hl.keeperMsgs } := by
  have hport := rxState_port s h.number
  have hranks : ¬ ((rxState s p.val).hl.size ≤ fSrc l ∨ (rxState s p.val).hl.size ≤ fDst l) :=
    not_or.mpr ⟨Nat.not_le.mpr hsrc, Nat.not_le.mpr hdst⟩
  have htakes : ¬ (¬ unschedWindow (rxState s p.val) ns ∨ 64 ≤ (portAt (rxState s p.val) p.val).rxUnsched) := by
    rw [hport]
    exact not_or.mpr ⟨not_not_intro hopen, Nat.not_le.mpr hroom⟩
  refine congrArg Host.Outcome.next ((if_pos h.flit).trans ?_)
  rw [h.rxTake]
  dsimp only
  rw [if_neg (not_not_intro rfl), if_neg hranks, if_neg htakes, if_neg (by rw [portAt_onPort_same _ _ _ h.number, hport, hplain]; decide),
    unschedDeliver_message (s := onPort (rxState s p.val) p.val _) p.val hown hkind, creditBack_buffered]
  rfl

/- Beat markers (R87, R88, R103). -/

/-- What a marker from the port's neighbour does to a state in which it has been taken. -/
def markerCome (p : Nat) (l : List Byte) (d : Int) (e : State) : State :=
  if (portAt e p).sealed then holdFlit e p l (some (arrival e d)) true else markerIn e p l (arrival e d)

theorem exec_beatMarkerReceive_unsealed {s : State} {p : PortId} {l : List Byte} (h : FlitTaken s p.val l 3) (d : Int)
    (hplain : (portAt s p.val).sealed = false) :
    exec (.beatMarkerReceive p l d) s = .next (markerIn (rxState s p.val) p.val l (arrival s d)) :=
  congrArg Host.Outcome.next ((if_pos h.flit).trans ((h.afterTake (by decide) (markerCome p.val l d)).trans
    (if_neg (Bool.eq_false_iff.mp (rxState_unsealed hplain)))))

/-- A marker that its neighbour sends comes on a port that is no express port (R87, R298). -/
structure MarkerOf (s : State) (p : Nat) (l : List Byte) : Prop where
  plain : (portAt s p).express = false
  sender : leAt (fPay l) 8 2 % 1024 = (portAt s p).nbrRank

theorem MarkerOf.rxState {s : State} {p : Nat} {l : List Byte} (h : MarkerOf s p l) (hp : p < 20) : MarkerOf (rxState s p) p l :=
  ⟨by rw [rxState_port s hp]; exact h.plain, by rw [rxState_port s hp]; exact h.sender⟩

theorem markerIn_first {s : State} {p : Nat} {l : List Byte} (h : MarkerOf s p l) (a : Arrival) (hfirst : fReplay l = false) :
    markerIn s p l a = markerTake s p (fPay l) a := by
  unfold markerIn
  dsimp only
  rw [if_neg (by simp [h.plain, h.sender]), if_neg (by simp [hfirst])]

theorem markerIn_again {s : State} {p : Nat} {l : List Byte} (h : MarkerOf s p l) (a : Arrival) (hagain : fReplay l = true) :
    markerIn s p l a = { s with beat.markers := vmod s.beat.markers p (fun m => m.advert (fPay l) a.edge) } := by
  unfold markerIn
  dsimp only
  rw [if_neg (by simp [h.plain, h.sender]), if_pos hagain]

/-- What a port has heard once a marker has come with its timing (R88, R89). -/
def markerHeard (old : MarkerSt) (pay : List Byte) (a : Arrival) : MarkerSt :=
  { old.advert pay a.edge with
    beat := leAt pay 0 8, beatEdge := a.edge
    meas := (a.edge, a.delta) :: (old.meas.filter (fun x => x.1 != a.edge)).take 1
    dlyValid := old.dlyValid || (measured old (a.edge - 1)).isSome
    dly := (measured old (a.edge - 1)).elim old.dly (linkDelay (twosInt 32 (leAt pay 16 4))) }

/-- The state in which a marker has been recorded, with the sample that it completes. -/
def markerNoted (s : State) (p : Nat) (pay : List Byte) (a : Arrival) : State :=
  { s with
    beat.markers := vput s.beat.markers p (markerHeard (vget s.beat.markers p .init) pay a)
    beat.fresh := s.beat.fresh ++ (sampleOf s p (vget s.beat.markers p .init) pay a).toList }

theorem markerTake_noted {s : State} (p : Nat) (pay : List Byte) (a : Arrival) (h : s.beat.pstate ≠ .track) :
    markerTake s p pay a = markerNoted s p pay a := if_neg fun hall => h hall.1

/-- The state in which a member has adopted the number that a marker of its parent names, and stopped the instances of every plan (R103). -/
def renumbered (s : State) (p : Nat) (pay : List Byte) (a : Arrival) : State :=
  invalidateAll { markerNoted s p pay a with beat.adopt := some (leAt pay 0 8 + (s.beat.edges + 1 - a.edge)) } 0x0209

/-- A marker of the parent that numbers the beats otherwise (R103). -/
theorem markerTake_differs {s : State} (p : Nat) {pay : List Byte} {a : Arrival} (htrack : s.beat.pstate = .track)
    (hparent : s.beat.parent = some (leAt pay 8 2 % 1024)) (hnum : numberDiffers s (leAt pay 0 8) a = true) :
    markerTake s p pay a = raise (renumbered s p pay a) 0x0209 .critical 0 :=
  if_pos ⟨htrack, hparent.symm, hnum⟩

theorem vget_vput_same {α : Type} {n : Nat} (v : Vector α n) {i : Nat} (x d : α) (h : i < n) : vget (vput v i x) i d = x :=
  vget_vmod_same v i _ d h

theorem markerNoted_marker (s : State) {p : Nat} (pay : List Byte) (a : Arrival) (hp : p < 20) :
    vget (markerNoted s p pay a).beat.markers p .init = markerHeard (vget s.beat.markers p .init) pay a := vget_vput_same _ _ _ hp

theorem markerHeard_measured (old : MarkerSt) (pay : List Byte) (a : Arrival) : measured (markerHeard old pay a) a.edge = some a.delta := by
  unfold measured markerHeard
  rw [List.find?_cons_of_pos (by simp)]
  rfl

theorem arrival_delta (s : State) (d : Int) : (arrival s d).delta = 32 * d := by
  unfold arrival
  split
  · rfl
  · rfl

/-- The instances of every plan stop as invalid (R47, R103). -/
theorem invalidateAll_stops (s : State) (cause : Nat) {c : Nat} (hc : c < 4) :
    ∀ i ∈ (ctxAt (invalidateAll s cause) c).insts, i.stopped = true ∧ i.faults.invalid = true := by
  intro i hi
  unfold invalidateAll ctxAt vget at hi
  simp only [hc, dif_pos, Vector.getElem_map, List.mem_map] at hi
  obtain ⟨j, -, rfl⟩ := hi
  exact ⟨rfl, rfl⟩

/-- A renumbered member has adopted the number, stopped all instances, and reports it; the clocks, the Comb and the quadrants stay as
they were (R103). -/
theorem renumbered_raised (s : State) (p : Nat) (pay : List Byte) (a : Arrival) :
    let t := raise (renumbered s p pay a) 0x0209 .critical 0
    t.beat.adopt = some (leAt pay 0 8 + (s.beat.edges + 1 - a.edge)) ∧
      (∀ c, c < 4 → ∀ i ∈ (ctxAt t c).insts, i.stopped = true ∧ i.faults.invalid = true) ∧
      t.syn = s.syn ∧ t.cmb.mem = s.cmb.mem ∧ t.quad = s.quad ∧ Logs s t [(0x0209, .critical)] := by
  obtain ⟨calm, -, -, -, hnews⟩ := raise_news (renumbered s p pay a) 0x0209 .critical 0 (by decide)
  intro t
  have hcmb : t.cmb = (renumbered s p pay a).cmb := calm.cmb
  have hbeat : t.beat = (renumbered s p pay a).beat := calm.beat
  refine ⟨by rw [hbeat]; rfl, fun c hc => ?_, calm.syn, by rw [hcmb]; rfl, calm.quad, hnews.from rfl⟩
  rw [ctxAt_congr hcmb]
  exact invalidateAll_stops _ _ hc

/- TAG flits (R301, R303). -/

/-- What a TAG from the port's neighbour does to a state in which it has been taken. -/
def tagTake (p : Nat) (l : List Byte) (e : State) : State :=
  if ¬ (portAt e p).sealed then e
  else
    let u := onPort e p (fun x => { x with sealRx := [] })
    if tagOk e p (fPay l) then (portAt e p).sealRx.foldl (fun s f => if f.good then verified s p f.flit f.arr else s) u
    else portFence (onPort ((portAt e p).sealRx.foldl (fun s f => unheld s f.flit) u) p (fun x =>
      { x with tagFail := satAdd 32 x.tagFail 1 })) p 2

theorem exec_flitTagReceive_taken {s : State} {p : PortId} {l : List Byte} (h : FlitTaken s p.val l 6) :
    exec (.flitTagReceive p l) s = .next (tagTake p.val l (rxState s p.val)) :=
  congrArg Host.Outcome.next ((if_pos h.flit).trans (h.afterTake (by decide) (tagTake p.val l)))

theorem tagTake_unsealed {e : State} {p : Nat} (l : List Byte) (hplain : (portAt e p).sealed = false) : tagTake p l e = e :=
  if_pos (Bool.eq_false_iff.mp hplain)

theorem Told.foldl {α : Type} {f : State → α → State} (h : ∀ s x, Told s (f s x) []) (l : List α) (s : State) :
    Told s (l.foldl f s) [] := by
  induction l generalizing s with
  | nil => exact .same s
  | cons a r ih => exact (h s a).trans (ih (f s a))

theorem unheld_told (s : State) (l : List Byte) : Told s (unheld s l) [] := by
  unfold unheld
  split
  · exact .same s
  · split
    · exact onCtx_told s _ _
    · exact .same s

/-- The TAG of a group does not judge the order in which its own flit has come. -/
theorem tagOk_rxState (s : State) {p : Nat} (pay : List Byte) (hp : p < 20) : tagOk (rxState s p) p pay = tagOk s p pay := by
  unfold tagOk
  rw [rxState_port s hp]
  rfl

/-- The state in which a group has ended with none of its flits held. -/
def groupDropped (e : State) (p : Nat) : State :=
  (portAt e p).sealRx.foldl (fun s f => unheld s f.flit) (onPort e p (fun x => { x with sealRx := [] }))

/-- The state in which a group has failed, and the failure has been counted. -/
def tagFailed (e : State) (p : Nat) : State := onPort (groupDropped e p) p (fun x => { x with tagFail := satAdd 32 x.tagFail 1 })

theorem tagTake_fails {e : State} {p : Nat} {l : List Byte} (hsealed : (portAt e p).sealed = true) (hbad : tagOk e p (fPay l) = false) :
    tagTake p l e = portFence (tagFailed e p) p 2 := by
  unfold tagTake
  dsimp only
  rw [if_neg (not_not_intro hsealed), if_neg (by rw [hbad]; decide)]
  rfl

/-- A group that fails takes its flits from those held, and applies nothing of them (R301). -/
theorem groupDropped_told (e : State) (p : Nat) : Told (onPort e p (fun x => { x with sealRx := [] })) (groupDropped e p) [] :=
  Told.foldl (f := fun s (f : SealedFlit) => unheld s f.flit) (fun s f => unheld_told s f.flit) _ _

theorem tagFailed_kept (e : State) (p : Nat) : (tagFailed e p).so = e.so ∧ (tagFailed e p).beat = e.beat ∧ Logs e (tagFailed e p) [] := by
  obtain ⟨hframe, hnews⟩ := groupDropped_told e p
  have hso : (groupDropped e p).so = e.so := by rw [hframe]; rfl
  have hbeat : (groupDropped e p).beat = e.beat := by rw [hframe]; rfl
  exact ⟨hso, hbeat, hnews⟩

theorem tagFailed_count (e : State) {p : Nat} (hp : p < 20) :
    (portAt (tagFailed e p) p).tagFail = satAdd 32 (portAt e p).tagFail 1 := by
  have hhl : (groupDropped e p).hl = (onPort e p (fun x => { x with sealRx := [] })).hl := by
    rw [(groupDropped_told e p).frame]
  have hport : portAt (groupDropped e p) p = portAt (onPort e p (fun x => { x with sealRx := [] })) p := by
    unfold portAt
    rw [hhl]
  rw [tagFailed, portAt_onPort_same _ _ _ hp, hport, portAt_onPort_same _ _ _ hp]

/-- A failed group leaves its port fenced and the failure counted; the sync objects and the beat stay as they were (R301, R303). -/
theorem tagFailed_fenced (e : State) {p : Nat} (hp : p < 20) :
    let t := portFence (tagFailed e p) p 2
    (portAt t p).st = .fenced ∧ (portAt t p).fence = 2 ∧ (portAt t p).tagFail = satAdd 32 (portAt e p).tagFail 1 ∧
      (portAt t p).sealRx = [] ∧ t.so = e.so ∧ t.beat = e.beat ∧ Logs e t [(0x0C04, .major)] := by
  obtain ⟨hso, hbeat, hnews⟩ := tagFailed_kept e p
  obtain ⟨a, b, c, d, hfenced⟩ := portFenced_eq 2 (portAt (tagFailed e p) p)
  intro t
  have hport : portAt t p = _ := (portFence_port (tagFailed e p) 2 hp).trans hfenced
  rw [hport]
  exact ⟨rfl, rfl, tagFailed_count e hp, rfl, (portFence_so _ p 2).trans hso, (portFence_beat _ p 2).trans hbeat,
    hnews.trans (portFence_logs _ p 2)⟩

/- The end of an inbound entry (R263, R291). -/

theorem exec_inboundEntryComplete {s : State} {c : Ctx} {i : Nat} {x : LinkEnt} (ha : alive s = true)
    (hx : (ctxAt s c.val).links[i]? = some x) (hin : x.inbound = true) (hkind : x.kind ≠ 2) (hopen : x.complete = false)
    (hall : x.got.length = x.flits) :
    let e := onLink s c.val i (fun y => { y with complete := true })
    exec (.inboundEntryComplete c i) s = .next (if x.object = 0xFFFF then e else remoteAdd e (some c.val) x.object 1 x.inst) := by
  refine congrArg Host.Outcome.next ?_
  rw [hx]
  exact if_pos ⟨ha, hin, hkind, hopen, hall⟩

theorem onLink_ctx (s : State) {c : Nat} (i : Nat) (f : LinkEnt → LinkEnt) (hc : c < 4) :
    ctxAt (onLink s c i f) c = { ctxAt s c with links := (ctxAt s c).links.mapIdx (fun j e => if j = i then f e else e) } :=
  ctxAt_onCtx_same s c _ hc

/-- Settles O53: the order of a flit by FlitTaken.afterTake, and the effect of each kind of flit by the lemmas on its row. -/
theorem flitsOfTheChannels : Obligations.FlitsOfTheChannels := by
  refine ⟨fun s p l hplain => ⟨fun ns h => ⟨fun c x hx hc => ?accepted, fun hx => ?refused⟩, fun ns x h hx => ?sync,
      fun h => ⟨fun hseen => ?seen, fun c hnew hc => ?halt⟩, fun ns h hsrc hdst hopen hroom hown hkind => ?message,
      fun d h hexpress hsender => ⟨fun hfirst hst => ?marker, fun hfirst hst hparent hnum => ?renumber, fun hagain => ?again⟩,
      fun h => ?tag⟩,
    fun s p l hup hflit hcrc hseq hroster hnbr ns => ?stranger, fun s p l h hsealed hbad => ?fails,
    fun s c i x ha hx hin hkind hopen hall => ⟨fun hnone => ?ends, fun hobj hst hinst hremote hsome => ?adds⟩⟩
  case accepted =>
    refine ⟨_, (exec_flitDataReceive_taken h ns).trans (congrArg _ (dataTake_accepted (rxState_unsealed hplain) hx)),
      dataWrite_frame _ c x l, dataStored_rxState s p.val c x l, ?_⟩
    rw [dataWrite_link (s := rxState s p.val) hc (schedEntry_links hx)]
    exact congrArg some (Prod.ext (forInst_inst x _) rfl)
  case refused =>
    have hbad := badFlit_raised (rxState s p.val) p.val
    rw [show (portAt (rxState s p.val) p.val).bad = (portAt s p.val).bad by rw [rxState_port s p.isLt]] at hbad
    exact ⟨_, (exec_flitDataReceive_taken h ns).trans (congrArg _ (dataTake_refused (rxState_unsealed hplain) hx)), hbad⟩
  case sync => exact (exec_flitSyncReceive_taken h ns).trans (congrArg _ (syncTake_accepted (rxState_unsealed hplain) hx))
  case seen => exact (exec_flitHaltReceive_unsealed h hplain).trans (congrArg _ (haltTake_seen p.val hseen))
  case halt =>
    obtain ⟨hhalts, hnoted, hctx⟩ := haltTake_resident (rxState s p.val) p.val l hnew hc
    refine ⟨_, exec_flitHaltReceive_unsealed h hplain, hhalts, hnoted, ?_⟩
    rw [hctx]
    exact ⟨rfl, rfl, rfl⟩
  case message => exact exec_flitUnschedReceive_message h hplain hsrc hdst hopen hroom hown hkind
  case marker =>
    have hmarker : MarkerOf (rxState s p.val) p.val l := .rxState ⟨hexpress, hsender⟩ p.isLt
    refine ⟨_, (exec_beatMarkerReceive_unsealed h d hplain).trans
      (congrArg _ ((markerIn_first hmarker _ hfirst).trans (markerTake_noted _ _ _ hst))), rfl, ?_⟩
    rw [markerNoted_marker _ _ _ p.isLt]
    exact ⟨rfl, rfl, (markerHeard_measured _ _ _).trans (congrArg some (arrival_delta s d)), rfl, rfl, rfl⟩
  case renumber =>
    have hmarker : MarkerOf (rxState s p.val) p.val l := .rxState ⟨hexpress, hsender⟩ p.isLt
    exact ⟨_, (exec_beatMarkerReceive_unsealed h d hplain).trans
      (congrArg _ ((markerIn_first hmarker _ hfirst).trans (markerTake_differs _ hst hparent hnum))),
      renumbered_raised (rxState s p.val) p.val (fPay l) (arrival s d)⟩
  case again =>
    have hmarker : MarkerOf (rxState s p.val) p.val l := .rxState ⟨hexpress, hsender⟩ p.isLt
    refine ⟨_, (exec_beatMarkerReceive_unsealed h d hplain).trans (congrArg _ (markerIn_again hmarker _ hagain)), rfl, ?_⟩
    rw [vget_vmod_same _ _ _ _ p.isLt]
    exact ⟨rfl, rfl, rfl⟩
  case tag => exact (exec_flitTagReceive_taken h).trans (congrArg _ (tagTake_unsealed l (rxState_unsealed hplain)))
  case stranger =>
    obtain ⟨u, hkept, hu⟩ := afterTake_stranger p.isLt hup hcrc hseq hroster hnbr (dataTake p.val l ns)
    refine ⟨_, (exec_flitDataReceive s p ns hflit).trans (congrArg _ hu), (portFence_moved u 1 p.isLt).after hkept, ?_,
      (portFence_logs u p.val 1).from hkept.only.hi⟩
    rw [portFence_port u 1 p.isLt]
    rfl
  case fails =>
    have hport := rxState_port s p.isLt
    have hfenced := tagFailed_fenced (rxState s p.val) p.isLt
    rw [hport] at hfenced
    exact ⟨_, (exec_flitTagReceive_taken h).trans (congrArg _ (tagTake_fails (by rw [hport]; exact hsealed)
      ((tagOk_rxState s _ p.isLt).trans hbad))), hfenced⟩
  case ends => rw [exec_inboundEntryComplete ha hx hin hkind hopen hall, if_pos hnone]
  case adds =>
    have hctx := onLink_ctx s i (fun y => { y with complete := true }) c.isLt
    rw [exec_inboundEntryComplete ha hx hin hkind hopen hall, if_neg hsome, remoteAdd_reaches (s := onLink s c.val i _) 1
      (by rw [hctx]; exact hobj) (by rw [hctx]; exact hst) hinst (by rw [hctx]; exact hremote), hctx]

end Sys2Proof.Machine
end

section
/-! PROOFS. Contexts and tile records (R185 to R187, R204, R235): what the end of an operation leaves in its quadrant, and from it what
SAVE, RESTORE and the addition of a record leave. -/

namespace Sys2Proof.Machine

open Sys2Proof

/- The end of an operation that has changed its quadrant. -/

/-- The operation in front of quadrant q has ended in u, with the quadrant changed by g and the events of the list raised; beside them
only the feeds that arm and the report of a late start have done anything. -/
structure Ended (s : State) (q : Nat) (g : QuadSt → QuadSt) (l : List (Nat × Sev)) (u : State) : Prop where
  ends : OpEnds s u q
  own : ∃ todo feeds acts raw, quadAt u q = { g (quadAt s q) with todo := todo, feeds := feeds, acts := acts, raw := raw }
  news : Logs s u (l ++ lateNext s q)
  cmb : u.cmb = s.cmb
  mem : u.xm.mem = s.xm.mem

theorem popOp_ended {s w : State} {q : Quad} {g : QuadSt → QuadSt} {l : List (Nat × Sev)} (h : Raised (onQuad s q.val g) w l)
    (htodo : (g (quadAt s q.val)).todo = (quadAt s q.val).todo) : Ended s q.val g l (popOp w q.val) := by
  obtain ⟨hframe, ⟨todo, feeds, acts, raw, hown⟩, -, hstays, hnews⟩ := popOp_advanced q.isLt w
  have hw : quadAt w q.val = g (quadAt s q.val) := by rw [h.calm.quadAt, quadAt_onQuad_same _ _ _ q.isLt]
  have hdropped : quadAt (onQuad w q.val frontDropped) q.val = frontDropped (g (quadAt s q.val)) := by
    rw [quadAt_onQuad_same _ _ _ q.isLt, hw]
  have hrest : (quadAt (onQuad w q.val frontDropped) q.val).todo = (quadAt s q.val).todo.drop 1 := by
    rw [hdropped, ← htodo]
    rfl
  refine ⟨hstays.trans (by rw [hrest]), ⟨todo, feeds, acts, raw, by rw [hown, hdropped]; rfl⟩, ?_, ?_, ?_⟩
  · rw [hrest] at hnews
    exact Logs.trans (s := s) h.news hnews
  · rw [hframe]
    exact h.calm.cmb
  · rw [hframe]
    exact (congrArg Xm.mem h.calm.xm :)

/-- Feeds and the list of operations are no part of the active set. -/
theorem Ended.active {s u : State} {q : Nat} {g : QuadSt → QuadSt} {l : List (Nat × Sev)} (h : Ended s q g l u) :
    activeSet (quadAt u q) = activeSet (g (quadAt s q)) := by
  obtain ⟨-, ⟨_, _, _, _, hown⟩, -⟩ := h
  rw [hown]
  rfl

theorem armDue_noFeeds {s : State} {q : Nat} (h : (quadAt s q).feeds = []) :
    armDue s q = onQuad s q (fun x => { x with feeds := [] }) := by
  unfold armDue
  rw [h]
  rfl

/-- The report of a late start leaves the threads and the buffers as the feeds that armed have left them (R25). -/
theorem advanceAll_buffers {q : Nat} (hq : q < 4) (s : State) :
    (advanceAll s q).xm = (armDue s q).xm ∧ (quadAt (advanceAll s q) q).raw = (quadAt (armDue s q) q).raw := by
  unfold advanceAll
  dsimp only
  split
  · exact ⟨rfl, rfl⟩
  · next t rest _ =>
    split
    · have hcalm := raise_calm (lateCounted (armDue s q) q t rest) 0x0202 .minor 0
      have hquad := (hcalm.quadAt q).trans (quadAt_onQuad_same (armDue s q) q _ hq)
      exact ⟨hcalm.xm, (congrArg QuadSt.raw hquad :)⟩
    · exact ⟨rfl, rfl⟩

/-- With no feed left to arm, the end of an operation leaves the threads and the buffers alone (R235). -/
theorem popOp_noFeeds {w : State} {q : Nat} (hq : q < 4) (h : (quadAt w q).feeds = []) :
    (popOp w q).xm = w.xm ∧ (quadAt (popOp w q) q).raw = (quadAt w q).raw := by
  have hdropped : quadAt (onQuad w q frontDropped) q = frontDropped (quadAt w q) := quadAt_onQuad_same _ _ _ hq
  have hfeeds : (quadAt (onQuad w q frontDropped) q).feeds = [] := by
    rw [hdropped]
    exact congrArg (List.map _) h
  obtain ⟨hxm, hraw⟩ := advanceAll_buffers hq (onQuad w q frontDropped)
  rw [armDue_noFeeds hfeeds] at hxm hraw
  rw [quadAt_onQuad_same _ _ _ hq, hdropped] at hraw
  exact ⟨hxm, hraw⟩

/-- A change of the active set leaves the operations, the counts and the flags of the quadrant alone. -/
theorem withActive_kept (f : AccSet → AccSet) (x : QuadSt) :
    (withActive f x).todo = x.todo ∧ (withActive f x).arrRestores = x.arrRestores ∧ (withActive f x).arrSatx = x.arrSatx := by
  obtain ⟨setA, setB, h⟩ := withActive_sets f x
  rw [h]
  exact ⟨rfl, rfl, rfl⟩

/- SAVE (R185, R186). -/

/-- The SAVE_SEQ that the next SAVE of context c takes: 1 after the wrap (R186). -/
def saveSeq (x : QuadSt) (c : Nat) : Nat :=
  let last : Nat := ((vget x.saved c none).map (fun k => k.seq)).getD 0
  if (last + 1) % 2 ^ 32 = 0 then 1 else (last + 1) % 2 ^ 32

/-- What the record of a saved set must hold for a RESTORE to take it (R186, R187), with its SCALE values (log 118). -/
def savedValues (planId : Nat) (a : AccSet) (cols seq : Nat) : SavedCtx :=
  { planId := planId, mode := a.mode, anchor := a.anchor, cols := cols, seq := seq, scale := a.scale, scaleMix := a.scaleMix }

/-- A quadrant with the values of a SAVE of context c kept and counted (R186). -/
def saveNoted (c : Nat) (k : SavedCtx) (x : QuadSt) : QuadSt :=
  { x with saved := vput x.saved c (some k), arrSaves := satAdd 16 x.arrSaves 1 }

/-- The record that a SAVE of quadrant q for operation t hands out (R185, R186). -/
def saveRecord (s : State) (q : Nat) (t : Todo) (cols : Nat) : List Byte :=
  recBytes (ctxAt s t.ctx).planId (activeSet (quadAt s q)) cols (saveSeq (quadAt s q) t.ctx)

/-- All that a SAVE notes in its quadrant. -/
def saveKept (s : State) (q : Nat) (t : Todo) (cols : Nat) : QuadSt → QuadSt :=
  saveNoted t.ctx (savedValues (ctxAt s t.ctx).planId (activeSet (quadAt s q)) cols (saveSeq (quadAt s q) t.ctx))

theorem exec_contextSave {s : State} {q : Quad} {t : Todo} {cols th : Nat} (hfront : headOp s q.val = some t)
    (hop : t.op = .save cols th) (hswap : (quadAt s q.val).swapDue = false) (hfree : (quadAt s q.val).shadowBusy = false) :
    exec (.contextSave q) s =
      .next (popOp (onQuad (handOut s q.val th (saveRecord s q.val t cols)) q.val (saveKept s q.val t cols)) q.val) := by
  have h : exec (.contextSave q) s = .next (contextSave s q.val) := rfl
  rw [h]
  unfold contextSave saveKept saveRecord saveSeq
  simp only [hfront, hop, hswap, hfree, Bool.false_eq_true, or_self, if_false]
  cases vget (quadAt s q.val).saved t.ctx none <;> rfl

/-- Thread i of quadrant q is armed and carries what is handed out (R239, R242). -/
abbrev ArmedOut (s : State) (q i : Nat) : Prop := (threadAt s (32 * q + i)).run ≠ .idle ∧ (threadAt s (32 * q + i)).d.write = true

/-- A thread with bytes added to those that it carries. -/
def carries (bytes : List Byte) (t : Thread) : Thread := { t with data := t.data ++ bytes }

/-- Bytes that wait for thread i in the buffer of a quadrant (R242). -/
def bytesWait (i : Nat) (bytes : List Byte) (x : QuadSt) : QuadSt :=
  { x with raw := x.raw.insertAt i (((x.raw.find i).getD ([], false)).1 ++ bytes, false) }

theorem handOut_armed {s : State} {q i : Nat} (bytes : List Byte) (h : ArmedOut s q i) :
    handOut s q i bytes = onThread s (32 * q + i) (carries bytes) := if_pos h

theorem handOut_waits {s : State} {q i : Nat} (bytes : List Byte) (h : ¬ ArmedOut s q i) :
    handOut s q i bytes = onQuad s q (bytesWait i bytes) := if_neg h

/-- A thread that runs after a change holds what the change gives. -/
theorem threadAt_onThread_running {s : State} {k : Nat} {f : Thread → Thread} (h : (f (threadAt s k)).run ≠ .idle) :
    threadAt (onThread s k f) k = f (threadAt s k) := by
  have hne : f (threadAt s k) ≠ .idle := fun he => h (congrArg Thread.run he)
  have hput : (s.xm.threads.putAt k (f (threadAt s k)) .idle).getAt k .idle = f (threadAt s k) := by
    unfold SMap.putAt SMap.getAt
    rw [if_neg hne, SMap.find_insertAt, if_pos rfl]
    rfl
  exact hput

theorem saveNoted_ended (s : State) (q : Quad) (i c : Nat) (bytes : List Byte) (k : SavedCtx) :
    Ended s q.val (saveNoted c k) [] (popOp (onQuad (handOut s q.val i bytes) q.val (saveNoted c k)) q.val) := by
  by_cases h : ArmedOut s q.val i
  · rw [handOut_armed bytes h]
    exact { popOp_ended (.same (onQuad (onThread s _ (carries bytes)) q.val (saveNoted c k))) rfl with }
  · rw [handOut_waits bytes h, onQuad_onQuad]
    exact { popOp_ended (.same (onQuad s q.val (fun x => saveNoted c k (bytesWait i bytes x)))) rfl with }

/-- With no feed left to arm, the thread carries the record of a SAVE where it is armed, and the record waits for it where not. -/
theorem saveNoted_handedOut {s : State} {q : Quad} (i c : Nat) (bytes : List Byte) (k : SavedCtx) (hfeeds : (quadAt s q.val).feeds = []) :
    let u := popOp (onQuad (handOut s q.val i bytes) q.val (saveNoted c k)) q.val
    if ArmedOut s q.val i then
      (threadAt u (32 * q.val + i)).data = (threadAt s (32 * q.val + i)).data ++ bytes ∧ (quadAt u q.val).raw = (quadAt s q.val).raw
    else (quadAt u q.val).raw = (bytesWait i bytes (quadAt s q.val)).raw := by
  split
  · next h =>
    rw [handOut_armed bytes h]
    have hquad := quadAt_onQuad_same (onThread s (32 * q.val + i) (carries bytes)) q.val (saveNoted c k) q.isLt
    obtain ⟨hxm, hraw⟩ := popOp_noFeeds q.isLt ((congrArg QuadSt.feeds hquad).trans hfeeds)
    have hthread : threadAt (onThread s (32 * q.val + i) (carries bytes)) (32 * q.val + i) = _ := threadAt_onThread_running h.1
    exact ⟨congrArg Thread.data ((congrArg (fun x : Xm => x.threads.getAt (32 * q.val + i) .idle) hxm).trans hthread),
      hraw.trans (by rw [hquad]; rfl)⟩
  · next h =>
    rw [handOut_waits bytes h, onQuad_onQuad]
    have hquad := quadAt_onQuad_same s q.val (fun x => saveNoted c k (bytesWait i bytes x)) q.isLt
    obtain ⟨-, hraw⟩ := popOp_noFeeds q.isLt ((congrArg QuadSt.feeds hquad).trans hfeeds)
    exact hraw.trans (by rw [hquad]; rfl)

theorem contextSave_runs {s : State} {q : Quad} {t : Todo} {cols th : Nat} (hfront : headOp s q.val = some t)
    (hop : t.op = .save cols th) (hswap : (quadAt s q.val).swapDue = false) (hfree : (quadAt s q.val).shadowBusy = false) :
    Runs (.contextSave q) s (fun u =>
      Ended s q.val (saveKept s q.val t cols) [] u ∧ ((quadAt s q.val).feeds = [] →
        if ArmedOut s q.val th then
          (threadAt u (32 * q.val + th)).data = (threadAt s (32 * q.val + th)).data ++ saveRecord s q.val t cols ∧
            (quadAt u q.val).raw = (quadAt s q.val).raw
        else (quadAt u q.val).raw = (bytesWait th (saveRecord s q.val t cols) (quadAt s q.val)).raw)) :=
  ⟨_, exec_contextSave hfront hop hswap hfree, saveNoted_ended s q th _ _ _, saveNoted_handedOut th _ _ _⟩

/- RESTORE (R187). -/

/-- A quadrant whose RESTORE has taken the record that thread th brought, and is counted. -/
def recordTaken (th : Nat) (x : QuadSt) : QuadSt := { x with raw := x.raw.eraseAt th, arrRestores := satAdd 16 x.arrRestores 1 }

/-- A quadrant whose RESTORE has loaded a set. -/
def restoreLoaded (th : Nat) (a : AccSet) (x : QuadSt) : QuadSt := withActive (fun _ => a) (recordTaken th x)

/-- A quadrant whose RESTORE has found no match: the set that it is left with is a poisoned one. -/
def restoreMissed (th : Nat) (a : AccSet) (x : QuadSt) : QuadSt := { restoreLoaded th a x with arrCtxErr := true }

/-- The set of a RESTORE without a match (R187). -/
def missedSet (e : AccMode × Int) (t : Todo) : AccSet :=
  { AccSet.init with mode := e.1, anchor := e.2, poison := true, opened := true, ctx := t.ctx, adm := t.adm }

theorem restoreLoaded_kept (th : Nat) (a : AccSet) (x : QuadSt) :
    (restoreLoaded th a x).todo = x.todo ∧ (restoreLoaded th a x).arrRestores = satAdd 16 x.arrRestores 1 ∧
      activeSet (restoreLoaded th a x) = a := by
  obtain ⟨htodo, hrestores, -⟩ := withActive_kept (fun _ => a) (recordTaken th x)
  exact ⟨htodo, hrestores, activeSet_withActive _ _⟩

/-- The values of a record, as its header and the RESTORE give them, are those last saved (R187). -/
abbrev RecordMatches (h : RecHdr) (k : SavedCtx) (planId cols : Nat) : Prop :=
  h.planId = k.planId ∧ k.planId = planId ∧ h.mode = k.mode.code ∧ h.anchor = k.anchor ∧ h.cols = k.cols ∧ cols = k.cols ∧ h.seq = k.seq

theorem RecordMatches.not_of_differs {h : RecHdr} {k : SavedCtx} {planId cols : Nat}
    (hdiffers : h.planId ≠ k.planId ∨ k.planId ≠ planId ∨ h.mode ≠ k.mode.code ∨ h.anchor ≠ k.anchor ∨ h.cols ≠ k.cols ∨
      cols ≠ k.cols ∨ h.seq ≠ k.seq) : ¬ RecordMatches h k planId cols := by
  intro ⟨hplan, hresident, hmode, hanchor, hcols, hdeclared, hseq⟩
  rcases hdiffers with hne | hne | hne | hne | hne | hne | hne
  · exact hne hplan
  · exact hne hresident
  · exact hne hmode
  · exact hne hanchor
  · exact hne hcols
  · exact hne hdeclared
  · exact hne hseq

/-- A RESTORE stands in front of a quadrant, and its SAVE thread has brought the record (R187, R238). -/
structure RestoreReady (s : State) (q : Quad) (t : Todo) (cols th : Nat) (raw : List Byte × Bool) : Prop where
  front : headOp s q.val = some t
  op : t.op = .restore cols th
  noSwap : (quadAt s q.val).swapDue = false
  raw : (quadAt s q.val).raw.find th = some raw

theorem exec_contextRestore_waits {s : State} {q : Quad} {t : Todo} {cols th : Nat} (hfront : headOp s q.val = some t)
    (hop : t.op = .restore cols th) (hswap : (quadAt s q.val).swapDue = false) (hraw : (quadAt s q.val).raw.find th = none) :
    exec (.contextRestore q) s = .next s := by
  have h : exec (.contextRestore q) s = .next (contextRestore s q.val) := rfl
  rw [h]
  unfold contextRestore
  simp only [hfront, hop, hswap, hraw]

theorem exec_contextRestore_loads {s : State} {q : Quad} {t : Todo} {cols th : Nat} {raw : List Byte × Bool} {k : SavedCtx}
    (ready : RestoreReady s q t cols th raw) (hsaved : vget (quadAt s q.val).saved t.ctx none = some k)
    (hmatch : RecordMatches (readRec (padTo (recLen cols) raw.1)) k (ctxAt s t.ctx).planId cols) :
    exec (.contextRestore q) s = .next (popOp (onQuad s q.val (restoreLoaded th
      (restored (padTo (recLen cols) raw.1) (readRec (padTo (recLen cols) raw.1)) k t raw.2))) q.val) := by
  have h : exec (.contextRestore q) s = .next (contextRestore s q.val) := rfl
  rw [h]
  unfold contextRestore
  simp only [ready.front, ready.op, ready.noSwap, ready.raw, hsaved]
  rw [if_pos hmatch, onActive_eq, onQuad_onQuad]
  rfl

theorem exec_contextRestore_misses {s : State} {q : Quad} {t : Todo} {cols th : Nat} {raw : List Byte × Bool}
    (ready : RestoreReady s q t cols th raw)
    (hmiss : ∀ k, vget (quadAt s q.val).saved t.ctx none = some k →
      ¬ RecordMatches (readRec (padTo (recLen cols) raw.1)) k (ctxAt s t.ctx).planId cols) :
    exec (.contextRestore q) s = .next (popOp (mismatch (onQuad s q.val (recordTaken th)) q.val t) q.val) := by
  have h : exec (.contextRestore q) s = .next (contextRestore s q.val) := rfl
  rw [h]
  unfold contextRestore
  simp only [ready.front, ready.op, ready.noSwap, ready.raw]
  cases hsaved : vget (quadAt s q.val).saved t.ctx none with
  | none => rfl
  | some k =>
    dsimp only
    rw [if_neg (hmiss k hsaved)]
    rfl

/-- What a RESTORE expects does not depend on the record that it takes. -/
theorem expected_recordTaken (s : State) (q : Quad) (th c : Nat) :
    expected (onQuad s q.val (recordTaken th)) q.val c = expected s q.val c := by
  unfold expected nextPass
  rw [quadAt_onQuad_same _ _ _ q.isLt]
  rfl

theorem mismatch_raised (s : State) (q : Quad) (th : Nat) (t : Todo) :
    Raised (onQuad s q.val (restoreMissed th (missedSet (expected s q.val t.ctx) t)))
      (mismatch (onQuad s q.val (recordTaken th)) q.val t) [(0x0503, .major)] := by
  unfold mismatch
  dsimp only
  rw [expected_recordTaken, onActive_eq, onQuad_onQuad, onQuad_onQuad]
  exact raise_news _ _ _ _ (by decide)

/-- A RESTORE whose record matches what was last saved loads it with its flags (R187). -/
theorem contextRestore_loads {s : State} {q : Quad} {t : Todo} {cols th : Nat} {raw : List Byte × Bool} {k : SavedCtx}
    (ready : RestoreReady s q t cols th raw) (hsaved : vget (quadAt s q.val).saved t.ctx none = some k)
    (hmatch : RecordMatches (readRec (padTo (recLen cols) raw.1)) k (ctxAt s t.ctx).planId cols) :
    Runs (.contextRestore q) s (fun u => OpEnds s u q.val ∧
      activeSet (quadAt u q.val) = restored (padTo (recLen cols) raw.1) (readRec (padTo (recLen cols) raw.1)) k t raw.2 ∧
      (quadAt u q.val).arrRestores = satAdd 16 (quadAt s q.val).arrRestores 1 ∧ Logs s u (lateNext s q.val)) := by
  refine ⟨_, exec_contextRestore_loads ready hsaved hmatch, ?_⟩
  generalize restored _ _ k t raw.2 = a
  obtain ⟨htodo, hrestores, hactive⟩ := restoreLoaded_kept th a (quadAt s q.val)
  have hended := popOp_ended (.same (onQuad s q.val (restoreLoaded th a))) htodo
  obtain ⟨_, _, _, _, hown⟩ := hended.own
  exact ⟨hended.ends, hended.active.trans hactive, by rw [hown]; exact hrestores, hended.news⟩

/-- A RESTORE without a match leaves a cleared and poisoned set in the mode and anchor that it expected (R187). -/
theorem contextRestore_misses {s : State} {q : Quad} {t : Todo} {cols th : Nat} {raw : List Byte × Bool}
    (ready : RestoreReady s q t cols th raw)
    (hmiss : ∀ k, vget (quadAt s q.val).saved t.ctx none = some k →
      ¬ RecordMatches (readRec (padTo (recLen cols) raw.1)) k (ctxAt s t.ctx).planId cols) :
    Runs (.contextRestore q) s (fun u => OpEnds s u q.val ∧ (activeSet (quadAt u q.val)).cells = [] ∧
      (activeSet (quadAt u q.val)).mode = (expected s q.val t.ctx).1 ∧ (activeSet (quadAt u q.val)).anchor = (expected s q.val t.ctx).2 ∧
      (activeSet (quadAt u q.val)).poison = true ∧ (quadAt u q.val).arrCtxErr = true ∧
      (quadAt u q.val).arrRestores = satAdd 16 (quadAt s q.val).arrRestores 1 ∧ Logs s u ((0x0503, .major) :: lateNext s q.val)) := by
  refine ⟨_, exec_contextRestore_misses ready hmiss, ?_⟩
  obtain ⟨htodo, hrestores, hset⟩ := restoreLoaded_kept th (missedSet (expected s q.val t.ctx) t) (quadAt s q.val)
  have hended := popOp_ended (mismatch_raised s q th t) htodo
  obtain ⟨_, _, _, _, hown⟩ := hended.own
  have hactive : activeSet _ = missedSet _ t := hended.active.trans hset
  exact ⟨hended.ends, by rw [hactive]; rfl, by rw [hactive]; rfl, by rw [hactive]; rfl, by rw [hactive]; rfl, by rw [hown]; rfl,
    by rw [hown]; exact hrestores, hended.news⟩

/- The addition of a record (R186, R204). -/

/-- A quadrant with a record added to its open tile, as r sums it, and the poison of the read. -/
def recordAdded (r : AccRun) (poison : Bool) (x : QuadSt) : QuadSt :=
  let x := withActive (fun _ => { r.set with poison := r.set.poison || poison }) x
  { x with arrUnder := satAdd 32 x.arrUnder r.under, arrSatx := satAdd 32 x.arrSatx r.satx,
           arrSat := x.arrSat || decide (r.satx ≠ 0), arrLost := x.arrLost || r.lost }

/-- A quadrant whose open tile is poisoned by a record that does not fit it (R204, Table 8.6). -/
def recordRefused (x : QuadSt) : QuadSt := { withActive (fun y => { y with poison := true }) x with fusRecord := true, fusCode := 5 }

/-- A quadrant whose operation has used up the record that thread th brought. -/
def rawUsed (th : Nat) (x : QuadSt) : QuadSt := { x with raw := x.raw.eraseAt th }

theorem recordAdded_kept (r : AccRun) (poison : Bool) (x : QuadSt) :
    (recordAdded r poison x).todo = x.todo ∧ (recordAdded r poison x).arrSatx = satAdd 32 x.arrSatx r.satx ∧
      activeSet (recordAdded r poison x) = { r.set with poison := r.set.poison || poison } := by
  obtain ⟨htodo, -, hsatx⟩ := withActive_kept (fun _ => { r.set with poison := r.set.poison || poison }) x
  exact ⟨htodo, congrArg (fun n => satAdd 32 n r.satx) hsatx, activeSet_withActive _ x⟩

/-- The record's mode, anchor and columns are those of the open tile (R204). -/
abbrev RecordFits (h : RecHdr) (a : AccSet) (cols : Nat) : Prop := h.mode = a.mode.code ∧ h.anchor = a.anchor ∧ h.cols = cols

theorem RecordFits.not_of_differs {h : RecHdr} {a : AccSet} {cols : Nat}
    (hdiffers : h.mode ≠ a.mode.code ∨ h.anchor ≠ a.anchor ∨ h.cols ≠ cols) : ¬ RecordFits h a cols := by
  intro ⟨hmode, hanchor, hcols⟩
  rcases hdiffers with hne | hne | hne
  · exact hne hmode
  · exact hne hanchor
  · exact hne hcols

/-- The addition of a record that has come stands in front of a quadrant (R186, R204, R238). -/
structure AddReady (s : State) (q : Quad) (t : Todo) (addr cols th : Nat) (raw : List Byte × Bool) : Prop where
  front : headOp s q.val = some t
  op : t.op = .recordAdd addr cols th
  noSwap : (quadAt s q.val).swapDue = false
  here : recordHere s t addr = true
  raw : (quadAt s q.val).raw.find th = some raw

theorem exec_tileRecordAdd_waits {s : State} {q : Quad} {t : Todo} {addr cols th : Nat} (hfront : headOp s q.val = some t)
    (hop : t.op = .recordAdd addr cols th) (hswap : (quadAt s q.val).swapDue = false)
    (hmissing : recordHere s t addr = false ∨ (quadAt s q.val).raw.find th = none) : exec (.tileRecordAdd q) s = .next s := by
  have h : exec (.tileRecordAdd q) s = .next (tileRecordAdd s q.val) := rfl
  rw [h]
  unfold tileRecordAdd
  simp only [hfront, hop, hswap]
  rcases hmissing with hhere | hraw
  · simp only [hhere, Bool.not_false, Bool.or_true]
  · simp only [hraw]
    cases recordHere s t addr <;> rfl

theorem exec_tileRecordAdd_adds {s : State} {q : Quad} {t : Todo} {addr cols th : Nat} {raw : List Byte × Bool}
    (ready : AddReady s q t addr cols th raw)
    (hfits : RecordFits (readRec (padTo (recLen cols) raw.1)) (activeSet (quadAt s q.val)) cols) :
    exec (.tileRecordAdd q) s = .next (popOp (onQuad s q.val (fun x => rawUsed th (recordAdded
      (addRecord (padTo (recLen cols) raw.1) (readRec (padTo (recLen cols) raw.1)) (activeSet (quadAt s q.val))) raw.2 x))) q.val) := by
  have h : exec (.tileRecordAdd q) s = .next (tileRecordAdd s q.val) := rfl
  rw [h]
  unfold tileRecordAdd
  simp only [ready.front, ready.op, ready.noSwap, ready.here, ready.raw, Bool.not_true, Bool.or_false]
  rw [if_pos hfits, onActive_eq, onQuad_onQuad, onQuad_onQuad]
  rfl

theorem exec_tileRecordAdd_refuses {s : State} {q : Quad} {t : Todo} {addr cols th : Nat} {raw : List Byte × Bool}
    (ready : AddReady s q t addr cols th raw)
    (hmisfit : ¬ RecordFits (readRec (padTo (recLen cols) raw.1)) (activeSet (quadAt s q.val)) cols) :
    exec (.tileRecordAdd q) s =
      .next (popOp (onQuad (raise (onQuad s q.val recordRefused) 0x0606 .major 0) q.val (rawUsed th)) q.val) := by
  have h : exec (.tileRecordAdd q) s = .next (tileRecordAdd s q.val) := rfl
  rw [h]
  unfold tileRecordAdd
  simp only [ready.front, ready.op, ready.noSwap, ready.here, ready.raw, Bool.not_true, Bool.or_false]
  rw [if_neg hmisfit, onActive_eq, onQuad_onQuad]
  rfl

/-- A record that fits the open tile is added to it (R204). -/
theorem tileRecordAdd_adds {s : State} {q : Quad} {t : Todo} {addr cols th : Nat} {raw : List Byte × Bool} {r : AccRun}
    (ready : AddReady s q t addr cols th raw)
    (hfits : RecordFits (readRec (padTo (recLen cols) raw.1)) (activeSet (quadAt s q.val)) cols)
    (hr : r = addRecord (padTo (recLen cols) raw.1) (readRec (padTo (recLen cols) raw.1)) (activeSet (quadAt s q.val))) :
    Runs (.tileRecordAdd q) s (fun u => OpEnds s u q.val ∧ (activeSet (quadAt u q.val)).cells = r.set.cells ∧
      (activeSet (quadAt u q.val)).poison = (r.set.poison || raw.2) ∧
      (quadAt u q.val).arrSatx = satAdd 32 (quadAt s q.val).arrSatx r.satx ∧ Logs s u (lateNext s q.val)) := by
  refine ⟨_, exec_tileRecordAdd_adds ready hfits, ?_⟩
  rw [← hr]
  obtain ⟨htodo, hsatx, hset⟩ := recordAdded_kept r raw.2 (quadAt s q.val)
  have hended := popOp_ended (.same (onQuad s q.val (fun x => rawUsed th (recordAdded r raw.2 x)))) htodo
  obtain ⟨_, _, _, _, hown⟩ := hended.own
  have hactive := hended.active.trans hset
  exact ⟨hended.ends, by rw [hactive], by rw [hactive], by rw [hown]; exact hsatx, hended.news⟩

/-- A record that does not fit the open tile poisons it (R204, Table 8.6). -/
theorem tileRecordAdd_refuses {s : State} {q : Quad} {t : Todo} {addr cols th : Nat} {raw : List Byte × Bool}
    (ready : AddReady s q t addr cols th raw)
    (hmisfit : ¬ RecordFits (readRec (padTo (recLen cols) raw.1)) (activeSet (quadAt s q.val)) cols) :
    Runs (.tileRecordAdd q) s (fun u => OpEnds s u q.val ∧ (activeSet (quadAt u q.val)).poison = true ∧
      (activeSet (quadAt u q.val)).cells = (activeSet (quadAt s q.val)).cells ∧ (quadAt u q.val).fusRecord = true ∧
      (quadAt u q.val).fusCode = 5 ∧ Logs s u ((0x0606, .major) :: lateNext s q.val)) := by
  refine ⟨_, exec_tileRecordAdd_refuses ready hmisfit, ?_⟩
  have hraised := (raise_news (onQuad s q.val recordRefused) 0x0606 .major 0 (by decide)).onQuad q.val (rawUsed th)
  rw [onQuad_onQuad] at hraised
  obtain ⟨htodo, -⟩ := withActive_kept (fun y => { y with poison := true }) (quadAt s q.val)
  have hended := popOp_ended hraised htodo
  obtain ⟨_, _, _, _, hown⟩ := hended.own
  have hactive := hended.active.trans (activeSet_withActive (fun y => { y with poison := true }) (quadAt s q.val))
  exact ⟨hended.ends, by rw [hactive], by rw [hactive], by rw [hown]; rfl, by rw [hown]; rfl, hended.news⟩

/-- Settles O41: SAVE by contextSave_runs, RESTORE and the addition of a record by the lemmas on a record that matches and on one that
does not. -/
theorem contextsAndRecords : Obligations.ContextsAndRecords := by
  intro s q t hfront hswap
  refine ⟨fun cols th hop hfree => ?save, fun cols th hop hraw => exec_contextRestore_waits hfront hop hswap hraw,
    fun cols th raw hop hraw => ?restore, fun addr cols th hop hmissing => exec_tileRecordAdd_waits hfront hop hswap hmissing,
    fun addr cols th raw hop hhere hraw => ?add⟩
  case save =>
    obtain ⟨u, hexec, hended, hhanded⟩ := contextSave_runs hfront hop hswap hfree
    obtain ⟨_, _, _, _, hown⟩ := hended.own
    exact ⟨u, hexec, hended.ends, hended.active, fun hctx => by rw [hown]; exact vget_vput_same _ _ _ hctx, by rw [hown]; rfl, hhanded,
      hended.mem, hended.news, hended.cmb⟩
  case restore =>
    have ready : RestoreReady s q t cols th raw := ⟨hfront, hop, hswap, hraw⟩
    refine ⟨fun hnone => contextRestore_misses ready fun k hk => ?_, fun k hk => ⟨contextRestore_loads ready hk,
      fun hdiffers => contextRestore_misses ready fun k' hk' => ?_⟩⟩
    · cases hnone.symm.trans hk
    · cases hk.symm.trans hk'
      exact RecordMatches.not_of_differs hdiffers
  case add =>
    have ready : AddReady s q t addr cols th raw := ⟨hfront, hop, hswap, hhere, hraw⟩
    exact ⟨fun hmode hanchor hcols => tileRecordAdd_adds ready ⟨hmode, hanchor, hcols⟩ rfl,
      fun hdiffers => tileRecordAdd_refuses ready (RecordFits.not_of_differs hdiffers)⟩

end Sys2Proof.Machine
end

section
/-! PROOFS. The end of a chain and its forward (R193, R203, R205, R207 to R209, R220, R239, R290): the vectors that a chain reads, what it
reports, where its tile goes, how a forward is sent, and how one is given up. -/

namespace Sys2Proof.Machine

open Sys2Proof

/- The vectors of a chain (R122, R129). -/

theorem combAddr_page (slice bank : Nat) {o k : Nat} (h : o / 0x1000 = k / 0x1000) :
    combAddr slice bank o / 0x1000 = combAddr slice bank k / 0x1000 := by
  unfold combAddr
  omega

/-- Plan addresses of one page lie in one physical page (R122). -/
theorem planPhys_page (c : PlanCtx) {a b : Nat} (h : a / 0x1000 = b / 0x1000) :
    (planPhys c a).map (fun p => p / 0x1000) = (planPhys c b).map (fun p => p / 0x1000) := by
  have hslice : a / 0x18000000 = b / 0x18000000 := by omega
  have hbank : a % 0x18000000 / 0x600000 = b % 0x18000000 / 0x600000 := by omega
  have hpage : a % 0x600000 / 0x1000 = b % 0x600000 / 0x1000 := by omega
  unfold planPhys
  dsimp only
  rw [hslice, hbank]
  cases c.bankMap.find (64 * (b / 0x18000000) + b % 0x18000000 / 0x600000) with
  | none => rfl
  | some bank => simp only [Option.map_some, combAddr_page _ _ hpage]

/-- Every page of a run of bytes is that of some byte of the run. -/
theorem runPages_byte {s : State} {c a n p : Nat} (hp : p ∈ runPages s c a n) :
    ∃ i, i < n ∧ (planPhys (ctxAt s c) (a + i)).map (fun x => x / 0x1000) = some p := by
  obtain ⟨k, -, hk⟩ := List.mem_filterMap.mp hp
  dsimp only at hk
  split at hk
  · cases hk
  · next hin =>
    refine ⟨a / 0x1000 * 0x1000 + k * 0x1000 - a, by omega, ?_⟩
    rw [← hk]
    exact planPhys_page _ (by omega)

/-- A run of values that no poisoned page holds has no poisoned page. -/
theorem runPages_clean {s : State} {c a n p : Nat} (h : (combVec s c a n).2 = false) (hp : p ∈ runPages s c a (4 * n)) :
    pagePoisoned s p = false := by
  obtain ⟨i, hi, hpage⟩ := runPages_byte hp
  obtain ⟨x, hx, rfl⟩ := Option.map_eq_some_iff.mp hpage
  have hbad := List.any_eq_false.mp h i (List.mem_range.mpr hi)
  rw [Nat.zero_add] at hbad
  dsimp only [tileView] at hbad
  rw [hx] at hbad
  exact Bool.eq_false_iff.mpr hbad

/-- The planned read of a run of values that no poisoned page holds does nothing (R129). -/
theorem poisonReads_clean {s : State} {c a n : Nat} (h : (combVec s c a n).2 = false) : poisonReads s c a (4 * n) = s := by
  have hnone (l : List Nat) (hl : ∀ p ∈ l, pagePoisoned s p = false) :
      l.foldl (fun s p => if pagePoisoned s p then poisonRead s p else s) s = s := by
    induction l with
    | nil => rfl
    | cons p r ih =>
      rw [List.foldl_cons, hl p (List.mem_cons_self ..), if_neg Bool.false_ne_true]
      exact ih fun k hk => hl k (List.mem_cons_of_mem _ hk)
  exact hnone _ fun p hp => runPages_clean h hp

/-- The planned reads of the poisoned pages of a chain's SCALE and BIAS vectors (R129, R194). -/
def chainReads (s : State) (a : AccSet) (d : StageDesc) : State :=
  let s := if (chainRow d.chain).scaleBias ∧ d.scaleSrc = 1 then poisonReads s a.ctx d.scaleVec (4 * a.outCols) else s
  if (chainRow d.chain).scaleBias ∧ d.biasSrc = 1 then poisonReads s a.ctx d.biasVec (4 * a.outCols) else s

/-- A vector that a chain reads lies in a poisoned page (R208). -/
def badVectors (s : State) (a : AccSet) (d : StageDesc) : Bool :=
  (chainRow d.chain).scaleBias && ((d.scaleSrc == 1 && (combVec s a.ctx d.scaleVec a.outCols).2) ||
    (d.biasSrc == 1 && (combVec s a.ctx d.biasVec a.outCols).2))

theorem epilogue_badVec (s : State) (q : Nat) : (epilogue s q).badVec =
    badVectors s (shadowSet (quadAt s q)) (descOf s (shadowSet (quadAt s q)).ctx (shadowSet (quadAt s q)).desc) := rfl

/-- A chain whose vectors lie in whole pages reads them without a report. -/
theorem chainReads_clean {s : State} {a : AccSet} {d : StageDesc} (h : badVectors s a d = false) : chainReads s a d = s := by
  have hread (src vec : Nat) (hclean : (chainRow d.chain).scaleBias = true → src = 1 → (combVec s a.ctx vec a.outCols).2 = false) :
      (if (chainRow d.chain).scaleBias ∧ src = 1 then poisonReads s a.ctx vec (4 * a.outCols) else s) = s := by
    split
    · next hsrc => exact poisonReads_clean (hclean hsrc.1 hsrc.2)
    · rfl
  unfold badVectors at h
  unfold chainReads
  rw [hread d.scaleSrc d.scaleVec fun hrow hsrc => ?scale, hread d.biasSrc d.biasVec fun hrow hsrc => ?bias]
  case scale =>
    simp only [hrow, hsrc, beq_self_eq_true, Bool.true_and, Bool.or_eq_false_iff] at h
    exact h.1
  case bias =>
    simp only [hrow, hsrc, beq_self_eq_true, Bool.true_and, Bool.or_eq_false_iff] at h
    exact h.2

/- The end of a chain (R207 to R209). -/

/-- A quadrant whose shadow set has passed its chain and been counted (R202, R207 to R209). -/
def tileCounted (a : AccSet) (d : StageDesc) (o : TileOut) (x : QuadSt) : QuadSt :=
  { x with
    shadowBusy := false, fusBusy := false, fusTiles := satAdd 32 x.fusTiles 1, fusQsatx := satAdd 32 x.fusQsatx o.qsat
    fusScale := o.scale, fusPoisonx := satAdd 32 x.fusPoisonx (bit1 o.poison), fusPoisonOut := x.fusPoisonOut || o.poison
    fusMix := x.fusMix || o.mix, fusCode := if o.badVec then 4 else if o.mix then 1 else x.fusCode
    chains := if (chainRow d.chain).quant then x.chains.insertAt (256 * a.ctx + a.desc) o.chain else x.chains
    fusHystDesc := if (chainRow d.chain).quant then a.desc else x.fusHystDesc
    fusDownRun := if (chainRow d.chain).quant then o.chain.downRun else x.fusDownRun }

/-- The events of a finished tile (Table 8.5, Table 8.6). -/
def tileReports (o : TileOut) : List (Nat × Sev) :=
  (if o.mix then [(0x0602, .major)] else []) ++ (if o.inPoison then [(0x0601, .minor)] else []) ++
    if o.qsat ≠ 0 then [(0x0605, .minor)] else []

/-- The state in which a finished tile has been reported, and its poison noted at its batch (R208, R209). -/
def tileReported (s : State) (a : AccSet) (o : TileOut) : State :=
  let s := if o.mix then raise s 0x0602 .major 0 else s
  let s := if o.inPoison then raise s 0x0601 .minor 0 else s
  let s := if o.poison then poisonInst s a.ctx a.adm (if o.inPoison then 0x0601 else 0x0602) else s
  if o.qsat ≠ 0 then raise s 0x0605 .minor 0 else s

theorem tileReported_told (s : State) (a : AccSet) (o : TileOut) : Told s (tileReported s a o) (tileReports o) := by
  have hpoison (t : State) : Told t (if o.poison then poisonInst t a.ctx a.adm (if o.inPoison then 0x0601 else 0x0602) else t) [] := by
    split
    · exact onCtx_told t _ _
    · exact .same t
  have hclamp (t : State) :
      Told t (if o.qsat ≠ 0 then raise t 0x0605 .minor 0 else t) (if o.qsat ≠ 0 then [(0x0605, .minor)] else []) := by
    split
    · exact (raise_news t 0x0605 .minor 0 (by decide)).told
    · exact .same t
  have hevents := (raise_if s o.mix (code := 0x0602) .major 0 (by decide)).told.trans
    (raise_if _ o.inPoison (code := 0x0601) .minor 0 (by decide)).told
  have h := (hevents.trans (hpoison _)).trans (hclamp _)
  rw [List.append_nil] at h
  exact h

/-- The chain of a quadrant may finish, and has met no poisoned vector (R194, R207, R208, R239). -/
structure ChainReady (s : State) (q : Quad) : Prop where
  up : quadUp s q.val = true
  core : coreRuns s = true
  busy : (quadAt s q.val).shadowBusy = true
  resid : residReady (quadAt s q.val) (descOf s (shadowSet (quadAt s q.val)).ctx (shadowSet (quadAt s q.val)).desc)
    (shadowSet (quadAt s q.val)) = true
  out : outReady s q.val (shadowSet (quadAt s q.val)) = true
  vectors : (epilogue s q.val).badVec = false

theorem exec_epilogueComplete {s : State} {q : Quad} {a : AccSet} {d : StageDesc} (ready : ChainReady s q)
    (ha : a = shadowSet (quadAt s q.val)) (hd : d = descOf s a.ctx a.desc) :
    exec (.epilogueComplete q) s = .next (tileAway (tileReported (onQuad s q.val (tileCounted a d (epilogue s q.val))) a
      (epilogue s q.val)) q.val a d (epilogue s q.val)) := by
  have h : exec (.epilogueComplete q) s = .next (epilogueComplete s q.val) := rfl
  have hbad : badVectors (onQuad s q.val (tileCounted a d (epilogue s q.val))) a d = false := by
    rw [← ready.vectors, epilogue_badVec, ← ha, ← hd]
    rfl
  rw [h, ← chainReads_clean hbad]
  subst ha hd
  exact congrArg Host.Outcome.next (if_pos ⟨ready.up, ready.core, ready.busy, ready.resid, ready.out⟩)

/- Where a finished tile goes (R193, R203, R220, R239). -/

/-- A quadrant that has taken up a finished tile: for the stream engine, unless its chunk is skipped or its batch stopped, or for the link
window, as the forward f (R193, R220). -/
def tileTaken (a : AccSet) (d : StageDesc) (o : TileOut) (f : Forward) (x : QuadSt) : QuadSt :=
  { x with
    fc11 := x.fc11 ++ (if d.chain = 11 ∧ x.fc11Skip.contains (a.ctx, a.adm) = false ∧ x.stopped.contains (a.ctx, a.adm) = false then
      [{ codes := o.codes, poison := o.poison, ctx := a.ctx, adm := a.adm }] else [])
    fc11Skip := if d.chain = 11 then x.fc11Skip.erase (a.ctx, a.adm) else x.fc11Skip
    fwds := x.fwds ++ (if d.chain ≠ 11 ∧ (chainRow d.chain).fwd = true then [f] else []) }

theorem tileTaken_forwards {a : AccSet} {d : StageDesc} (o : TileOut) (f : Forward) (x : QuadSt) (hchain : d.chain ≠ 11) :
    (tileTaken a d o f x).fwds.map (fun g => g.bytes) =
      x.fwds.map (fun g => g.bytes) ++ if (chainRow d.chain).fwd then [f.bytes] else [] := by
  refine List.map_append.trans (congrArg _ ?_)
  by_cases hfwd : (chainRow d.chain).fwd = true
  · rw [if_pos ⟨hchain, hfwd⟩, if_pos hfwd]
    rfl
  · rw [if_neg (fun h => hfwd h.2), if_neg hfwd]
    rfl

/-- The forward that a finished tile becomes (R203, R205). -/
def tileForward (s : State) (a : AccSet) (d : StageDesc) (o : TileOut) : Forward :=
  { ctx := a.ctx, adm := a.adm, entry := fwdLink (ctxAt s a.ctx) a.link d, port := d.fwdPort, bytes := o.bytes, sent := 0
    inst := batchN s a.ctx a.adm, born := 128 * s.beat.num + s.beat.slot }

/-- Quadrant q has changed by g, and may have bytes that wait for an OUT thread; no other quadrant has changed, and no event is raised. -/
structure Handed (q : Nat) (g : QuadSt → QuadSt) (s t : State) : Prop where
  own : ∃ raw, quadAt t q = { g (quadAt s q) with raw := raw }
  others : ∀ k, k ≠ q → quadAt t k = quadAt s k
  hi : t.hi = s.hi

theorem onQuad_handed {q : Nat} (hq : q < 4) (s : State) (g : QuadSt → QuadSt) : Handed q g s (onQuad s q g) :=
  ⟨⟨_, quadAt_onQuad_same s q g hq⟩, fun k hk => quadAt_onQuad_other s q k g (Ne.symm hk), rfl⟩

theorem handOut_handed {q : Nat} (hq : q < 4) (s : State) (i : Nat) (bytes : List Byte) : Handed q id s (handOut s q i bytes) := by
  by_cases h : ArmedOut s q i
  · rw [handOut_armed bytes h]
    exact ⟨⟨_, rfl⟩, fun _ _ => rfl, rfl⟩
  · rw [handOut_waits bytes h]
    obtain ⟨⟨_, hown⟩, hothers, hhi⟩ := onQuad_handed hq s (bytesWait i bytes)
    exact ⟨⟨_, hown⟩, hothers, hhi⟩

/-- A change of the quadrant before its output is handed out. -/
theorem Handed.after {q : Nat} {g : QuadSt → QuadSt} {s t : State} (hq : q < 4) (h : Handed q id (onQuad s q g) t) : Handed q g s t := by
  obtain ⟨⟨raw, hown⟩, hothers, hhi⟩ := h
  rw [quadAt_onQuad_same s q g hq] at hown
  exact ⟨⟨raw, hown⟩, fun k hk => (hothers k hk).trans (quadAt_onQuad_other s q k g (Ne.symm hk)), hhi⟩

theorem outThread_handed {q : Nat} (hq : q < 4) (s : State) (out : Option Nat) (bytes : List Byte) :
    Handed q id s (match out with
      | some i => handOut s q i bytes
      | none => s) := by
  cases out with
  | none => exact ⟨⟨_, rfl⟩, fun _ _ => rfl, rfl⟩
  | some i => exact handOut_handed hq s i bytes

/-- The tile of a chain that ends in the stream engine goes nowhere else (R220). -/
theorem tileAway_stream {s : State} {q : Nat} {a : AccSet} {d : StageDesc} {o : TileOut} (h : d.chain = 11) (f : Forward) :
    tileAway s q a d o = onQuad s q (tileTaken a d o f) := by
  unfold tileAway
  dsimp only
  rw [if_pos h]
  congr 1
  funext x
  unfold tileTaken
  by_cases hskip : (a.ctx, a.adm) ∈ x.fc11Skip
  · simp [h, hskip]
  · by_cases hstop : (a.ctx, a.adm) ∈ x.stopped <;> simp [h, hskip, hstop, List.erase_of_not_mem]

/-- A finished tile goes to the stream engine, to its link window, or to its OUT thread (R193, R203, R239). -/
theorem tileAway_handed {q : Nat} (hq : q < 4) (s : State) (a : AccSet) (d : StageDesc) (o : TileOut) :
    Handed q (tileTaken a d o (tileForward s a d o)) s (tileAway s q a d o) := by
  by_cases hchain : d.chain = 11
  · rw [tileAway_stream hchain (tileForward s a d o)]
    exact onQuad_handed hq s _
  · unfold tileAway
    dsimp only
    rw [if_neg hchain]
    split
    · next hfwd =>
      have htaken (x : QuadSt) :
          tileTaken a d o (tileForward s a d o) x = { x with fwds := x.fwds ++ [tileForward s a d o] } := by
        simp [tileTaken, hchain, hfwd]
      rw [funext htaken]
      split
      · exact .after hq (outThread_handed hq _ a.out o.bytes)
      · exact onQuad_handed hq s _
    · next hfwd =>
      have htaken (x : QuadSt) : tileTaken a d o (tileForward s a d o) x = x := by
        simp [tileTaken, hchain, hfwd]
      rw [funext htaken]
      exact outThread_handed hq s a.out o.bytes

/-- The chain of a quadrant finishes: the tile is counted and reported, and goes where its chain sends it. -/
theorem epilogueComplete_ends {s : State} {q : Quad} {a : AccSet} {d : StageDesc} (ready : ChainReady s q)
    (ha : a = shadowSet (quadAt s q.val)) (hd : d = descOf s a.ctx a.desc) :
    ∃ u f, exec (.epilogueComplete q) s = .next u ∧ f.bytes = (epilogue s q.val).bytes ∧
      (∃ raw, quadAt u q.val =
        { tileTaken a d (epilogue s q.val) f (tileCounted a d (epilogue s q.val) (quadAt s q.val)) with raw := raw }) ∧
      (∀ k, k ≠ q.val → quadAt u k = quadAt s k) ∧ Logs s u (tileReports (epilogue s q.val)) := by
  have hexec := exec_epilogueComplete ready ha hd
  generalize epilogue s q.val = o at *
  have htold := tileReported_told (onQuad s q.val (tileCounted a d o)) a o
  obtain ⟨hown, hothers, hhi⟩ := tileAway_handed q.isLt (tileReported (onQuad s q.val (tileCounted a d o)) a o) a d o
  have hquad := htold.pageErrors.quadAt
  rw [hquad, quadAt_onQuad_same _ _ _ q.isLt] at hown
  refine ⟨_, _, hexec, rfl, hown, fun k hk => ?_, ?_⟩
  · rw [hothers k hk, hquad, quadAt_onQuad_other _ _ _ _ (Ne.symm hk)]
  · have hnews : Logs s _ (tileReports o) := htold.news
    unfold Logs at *
    rwa [hhi]

/- A forward is sent (R203, R290). -/

theorem OnlyPorts.quadAt {s t : State} (h : OnlyPorts s t) (k : Nat) : quadAt t k = quadAt s k := by
  rw [h.frame]
  rfl

/-- What holds of every flit that is sent, one after the other, holds of the flits of a forward. -/
theorem sendTile_flits {R : State → State → Prop} (same : ∀ s, R s s) (flit : ∀ s t p l, R (txFlit s p l) t → R s t)
    (n : Nat) (s : State) (f : Forward) (e : LinkEnt) (i : Nat) : R s (sendTile n s f e i).2 := by
  induction n generalizing s i with
  | zero => exact same s
  | succ n ih =>
    unfold sendTile
    split
    · exact flit _ _ _ _ (ih _ _)
    · exact same s

theorem sendTile_onlyPorts (n : Nat) (s : State) (f : Forward) (e : LinkEnt) (i : Nat) : OnlyPorts s (sendTile n s f e i).2 :=
  sendTile_flits .same (fun s _ p l => (txFlit_onlyPorts s p l).trans) n s f e i

/-- No port has come to hold a SEND that it did not hold. -/
def NoNewSync (s t : State) : Prop := ∀ k, (portAt t k).syncq ⊆ (portAt s k).syncq

theorem NoNewSync.same (s : State) : NoNewSync s s := fun _ _ h => h

theorem NoNewSync.trans {s t u : State} (h : NoNewSync s t) (k : NoNewSync t u) : NoNewSync s u := fun p => List.Subset.trans (k p) (h p)

theorem onPort_noNewSync (s : State) (p : Nat) {f : Port → Port} (h : ∀ x, (f x).syncq ⊆ x.syncq) : NoNewSync s (onPort s p f) := by
  intro k
  rw [show portAt (onPort s p f) k = _ from vget_vmod s.hl.port p k f .init]
  split
  · next hk =>
    rw [← hk.1]
    exact h _
  · exact List.Subset.refl _

theorem portTo_noNewSync (s : State) (p : Nat) (st : PortSt) : NoNewSync s (portTo s p st) := by
  refine .trans (fun k => ?_) (onPort_noNewSync _ p (f := portTaken st) fun x => ?_)
  · obtain ⟨a, b, h⟩ := creditBacks_port ((portAt s p).waitq.map (fun w => w.2)) s k
    rw [h]
    exact List.Subset.refl _
  · obtain ⟨a, b, c, d, h⟩ := portTaken_eq st x
    rw [h]
    exact List.nil_subset _

theorem txNow_noNewSync (s : State) (p : Nat) (l : List Byte) : NoNewSync s (txNow s p l) :=
  .trans (t := giveTx s p (withSeq l (portAt s p).txSeq)) (onPort_noNewSync s p fun _ => List.Subset.refl _)
    (onPort_noNewSync _ p fun _ => List.Subset.refl _)

theorem txTry_noNewSync (s : State) (p : Nat) (l : List Byte) : NoNewSync s (txTry s p l) := by
  unfold txTry
  dsimp only
  split
  · exact .same s
  · split
    · exact txNow_noNewSync s p l
    · exact onPort_noNewSync s p fun _ => List.Subset.refl _

theorem portTrain_noNewSync (s : State) (p : Nat) : NoNewSync s (portTrain s p) :=
  (portTo_noNewSync s p .training).trans (onPort_noNewSync _ p fun _ => List.Subset.refl _)

theorem closeGroup_noNewSync (s : State) (p : Nat) : NoNewSync s (closeGroup s p) := by
  unfold closeGroup
  dsimp only
  split
  · exact .same s
  · have hopened : NoNewSync s (onPort s p (fun x => { x with sealTx := [], group := x.group + 1 })) :=
      onPort_noNewSync s p fun _ => List.Subset.refl _
    split
    · exact (hopened.trans (txTry_noNewSync _ p _)).trans (portTrain_noNewSync _ p)
    · exact hopened.trans (txTry_noNewSync _ p _)

theorem txFlit_noNewSync (s : State) (p : Nat) (l : List Byte) : NoNewSync s (txFlit s p l) := by
  refine (txTry_noNewSync s p l).trans ?_
  dsimp only [txFlit]
  split
  · exact closeGroup_noNewSync _ p
  · exact .same _

theorem sendTile_noNewSync (n : Nat) (s : State) (f : Forward) (e : LinkEnt) (i : Nat) : NoNewSync s (sendTile n s f e i).2 :=
  sendTile_flits .same (fun s _ p l => (txFlit_noNewSync s p l).trans) n s f e i

/-- Nothing but the ports and the link tables of plans has changed. -/
def OnlyLinks (s t : State) : Prop := t = { s with hl.port := t.hl.port, cmb.ctx := t.cmb.ctx }

theorem OnlyLinks.trans {s t u : State} (h : OnlyLinks s t) (k : OnlyLinks t u) : OnlyLinks s u := by
  unfold OnlyLinks at *
  rw [k, h]

theorem OnlyPorts.onlyLinks {s t : State} (h : OnlyPorts s t) : OnlyLinks s t := by
  unfold OnlyLinks
  rw [h.frame]

theorem OnlyLinks.quadAt {s t : State} (h : OnlyLinks s t) (k : Nat) : quadAt t k = quadAt s k := by
  unfold OnlyLinks at h
  rw [h]
  rfl

theorem flushSync_onlyLinks (n : Nat) (s : State) (p : Nat) : OnlyLinks s (flushSync n s p) := by
  induction n generalizing s with
  | zero => rfl
  | succ n ih =>
    unfold flushSync
    split
    · rfl
    · next w i e _ =>
      split
      · have hlink : OnlyLinks s
            (onLink (onPort s p (fun x => { x with syncq := x.syncq.erase w })) w.ctx i (fun _ => { e with sent := e.sent + 1 })) := rfl
        exact (hlink.trans (txFlit_onlyPorts _ p _).onlyLinks).trans (ih _)
      · rfl

/-- A quadrant whose forward f has sent n of its flits: the last one ends the forward (R203). -/
def forwardNoted (f : Forward) (flits n : Nat) (x : QuadSt) : QuadSt :=
  if flits ≤ n then { x with fwds := x.fwds.erase f, fusFwd := satAdd 32 x.fusFwd 1 }
  else { x with fwds := x.fwds.map (fun g => if g = f then { f with sent := n } else g) }

theorem forwardNoted_counts (f : Forward) (flits n : Nat) (x : QuadSt) :
    (forwardNoted f flits n x).fwds =
        (if flits ≤ n then x.fwds.erase f else x.fwds.map (fun g => if g = f then { f with sent := n } else g)) ∧
      (forwardNoted f flits n x).fusFwd = if flits ≤ n then satAdd 32 x.fusFwd 1 else x.fusFwd := by
  unfold forwardNoted
  split <;> exact ⟨rfl, rfl⟩

/-- The state in which a forward has been sent as far as there is room. -/
def tileSent (s : State) (q : Nat) (f : Forward) (e : LinkEnt) : State :=
  onQuad (sendTile 512 s f e f.sent).2 q (forwardNoted f e.flits (sendTile 512 s f e f.sent).1)

theorem tileSent_frame (s : State) (q : Nat) (f : Forward) (e : LinkEnt) :
    tileSent s q f e = { s with quad := (tileSent s q f e).quad, hl := (sendTile 512 s f e f.sent).2.hl } := by
  have hports := sendTile_onlyPorts 512 s f e f.sent
  unfold tileSent
  generalize sendTile 512 s f e f.sent = r at *
  rw [hports.frame]
  rfl

theorem tileSent_quadAt (s : State) (q : Quad) (f : Forward) (e : LinkEnt) :
    quadAt (tileSent s q.val f e) q.val = forwardNoted f e.flits (sendTile 512 s f e f.sent).1 (quadAt s q.val) ∧
      ∀ k, k ≠ q.val → quadAt (tileSent s q.val f e) k = quadAt s k := by
  have hports := sendTile_onlyPorts 512 s f e f.sent
  refine ⟨?_, fun k hk => ?_⟩
  · rw [tileSent, quadAt_onQuad_same _ _ _ q.isLt, hports.quadAt]
  · rw [tileSent, quadAt_onQuad_other _ _ _ _ (Ne.symm hk), hports.quadAt]

theorem exec_forwardTileSend {s : State} {q : Quad} {f : Forward} {e : LinkEnt} (hup : lnkUp s = true)
    (hnext : nextForward s q.val = some f) (hentry : fwdEntry s f = some e) :
    exec (.forwardTileSend q) s = .next
      (flushSync (portAt (tileSent s q.val f e) f.port).syncq.length (tileSent s q.val f e) f.port) := by
  have h : exec (.forwardTileSend q) s = .next (forwardSend s q.val) := rfl
  have hsent : tileSent s q.val f e =
      if e.flits ≤ (sendTile 512 s f e f.sent).1 then
        onQuad (sendTile 512 s f e f.sent).2 q.val (fun x => { x with fwds := x.fwds.erase f, fusFwd := satAdd 32 x.fusFwd 1 })
      else onQuad (sendTile 512 s f e f.sent).2 q.val
        (fun x => { x with fwds := x.fwds.map (fun g => if g = f then { f with sent := (sendTile 512 s f e f.sent).1 } else g) }) := by
    unfold tileSent forwardNoted
    split <;> rfl
  rw [h, hsent]
  unfold forwardSend
  rw [if_neg (not_not_intro hup), hnext]
  dsimp only
  rw [hentry]

/-- The flits of a forward go out, and then what waited behind it on its port (R203, R290). -/
theorem forwardTileSend_runs {s : State} {q : Quad} {f : Forward} {e : LinkEnt} (hup : lnkUp s = true)
    (hnext : nextForward s q.val = some f) (hentry : fwdEntry s f = some e) :
    Runs (.forwardTileSend q) s (fun u =>
      u = { s with quad := u.quad, hl := u.hl, cmb := { s.cmb with ctx := u.cmb.ctx } } ∧
      ((portAt s f.port).syncq = [] → u.hl = (sendTile 512 s f e f.sent).2.hl ∧ u.cmb = s.cmb) ∧
      (∀ k, k ≠ q.val → quadAt u k = quadAt s k) ∧
      quadAt u q.val = forwardNoted f e.flits (sendTile 512 s f e f.sent).1 (quadAt s q.val)) := by
  have hsync := sendTile_noNewSync 512 s f e f.sent f.port
  have hsent := tileSent_frame s q.val f e
  obtain ⟨hown, hothers⟩ := tileSent_quadAt s q f e
  have hexec := exec_forwardTileSend hup hnext hentry
  have hflush := flushSync_onlyLinks (portAt (tileSent s q.val f e) f.port).syncq.length (tileSent s q.val f e) f.port
  refine ⟨_, hexec, ?frame, fun hnone => ?idle, fun k hk => (hflush.quadAt k).trans (hothers k hk), (hflush.quadAt _).trans hown⟩
  case frame =>
    generalize flushSync _ _ f.port = u at *
    rw [hflush, hsent]
  case idle =>
    rw [hnone, List.subset_nil] at hsync
    have hstill : (portAt (tileSent s q.val f e) f.port).syncq = [] := hsync
    rw [hstill, List.length_nil, flushSync, hsent]
    exact ⟨rfl, rfl⟩

/- A forward is given up (R205). -/

/-- A quadrant that has given up a forward. -/
def forwardLost (f : Forward) (x : QuadSt) : QuadSt :=
  { x with fwds := x.fwds.erase f, fusDrop := true, fusCode := 3, fusFwdDrop := satAdd 32 x.fusFwdDrop 1 }

/-- The faults of a batch whose forward is given up, on a port that is fenced or on one that is not (R205, R247). -/
def lostFaults (fenced : Bool) (g : InstFaults) : InstFaults :=
  if fenced then { g.because 0x0604 with fenced := true } else { g.because 0x0604 with poisoned := true }

theorem dropForward_eq (s : State) (q : Nat) (f : Forward) : dropForward s q f =
    faultBatch (raise (onQuad s q (forwardLost f)) 0x0604 .major 0) f.ctx f.adm true (lostFaults ((portAt s f.port).st == .fenced)) := rfl

theorem lostFaults_told (st : PortSt) (g : InstFaults) :
    if st = .fenced then (lostFaults (st == .fenced) g).fenced = true else (lostFaults (st == .fenced) g).poisoned = true := by
  unfold lostFaults
  by_cases h : st = .fenced
  · rw [if_pos h, if_pos (beq_iff_eq.mpr h)]
  · rw [if_neg h, if_neg (mt beq_iff_eq.mp h)]

/-- Faults given to a batch, with the overrun policy asked for, stand at each of its instances. -/
theorem faultBatch_faulted (s : State) {c adm : Nat} {f : InstFaults → InstFaults} {P : InstFaults → Prop} (h : ∀ g, P (f g)) :
    BatchFaulted (faultBatch s c adm true f) c adm P := by
  intro i hi hadm
  by_cases hc : c < 4
  · rw [faultBatch, ctxAt_onCtx_same _ _ _ hc] at hi
    obtain ⟨j, -, rfl⟩ := List.mem_map.mp hi
    split at hadm
    · next hj =>
      rw [if_pos hj]
      exact ⟨h j.faults, Bool.or_true _⟩
    · next hj => exact absurd hadm hj
  · have hinit : ctxAt (faultBatch s c adm true f) c = .init := dif_neg hc
    rw [hinit] at hi
    cases hi

theorem dropForward_told (s : State) (q : Nat) (f : Forward) :
    Told (onQuad s q (forwardLost f)) (dropForward s q f) [(0x0604, .major)] :=
  (raise_news _ 0x0604 .major 0 (by decide)).told.trans (onCtx_told _ _ _)

/-- A forward whose window has closed, or whose port is not UP, is given up and reported (R205). -/
theorem forwardDrop_runs {s : State} {q : Quad} {f : Forward} (hon : alive s = true)
    (hlost : (quadAt s q.val).fwds.find? (fwdLost s) = some f) :
    Runs (.forwardDrop q) s (fun u => quadAt u q.val = forwardLost f (quadAt s q.val) ∧
      (∀ k, k ≠ q.val → quadAt u k = quadAt s k) ∧ Logs s u [(0x0604, .major)] ∧
      BatchFaulted u f.ctx f.adm (fun g => if (portAt s f.port).st = .fenced then g.fenced = true else g.poisoned = true)) := by
  have hexec : exec (.forwardDrop q) s = .next (dropForward s q.val f) := by
    have h : exec (.forwardDrop q) s = execForwardDrop q s := rfl
    rw [h, execForwardDrop, if_pos hon, hlost]
  have htold := dropForward_told s q.val f
  refine ⟨_, hexec, ?_, fun k hk => ?_, htold.news, ?_⟩
  · rw [htold.pageErrors.quadAt, quadAt_onQuad_same _ _ _ q.isLt]
  · rw [htold.pageErrors.quadAt, quadAt_onQuad_other _ _ _ _ (Ne.symm hk)]
  · rw [dropForward_eq]
    exact faultBatch_faulted _ (lostFaults_told _)

/-- Settles O42: the end of a chain by epilogueComplete_ends, a forward that is sent by forwardTileSend_runs, and one that is given up
by forwardDrop_runs. -/
theorem chainsAndForwards : Obligations.ChainsAndForwards := by
  intro s q
  refine ⟨fun hup hcore hbusy => ?chain, fun f e hup hnext hentry => ?send, fun f hon hlost => ?drop⟩
  case chain =>
    intro a d o hresid hout hvectors
    obtain ⟨u, f, hexec, hbytes, ⟨raw, hown⟩, hothers, hnews⟩ :=
      epilogueComplete_ends (a := a) (d := d) ⟨hup, hcore, hbusy, hresid, hout, hvectors⟩ rfl rfl
    refine ⟨u, hexec, ?_⟩
    dsimp only
    rw [hown]
    refine ⟨rfl, rfl, rfl, rfl, rfl, rfl, rfl, fun hchain => ?fwds, ?stays, hothers, hnews⟩
    case fwds =>
      refine (tileTaken_forwards (a := a) o f _ hchain).trans ?_
      rw [hbytes]
      rfl
    case stays =>
      unfold OpStays
      rw [hown]
      rfl
  case send =>
    obtain ⟨u, hexec, hframe, hidle, hothers, hown⟩ := forwardTileSend_runs hup hnext hentry
    obtain ⟨hfwds, hcount⟩ := forwardNoted_counts f e.flits (sendTile 512 s f e f.sent).1 (quadAt s q.val)
    rw [← hown] at hfwds hcount
    exact ⟨u, hexec, hframe, hidle, hothers, hfwds, hcount⟩
  case drop =>
    obtain ⟨u, hexec, hown, hothers, hnews, hfaulted⟩ := forwardDrop_runs hon hlost
    refine ⟨u, hexec, ?_⟩
    dsimp only
    rw [hown]
    exact ⟨rfl, rfl, rfl, rfl, hothers, hnews, hfaulted⟩

end Sys2Proof.Machine
end

section
/-! PROOFS. Entries of the stream table (R225 to R227): what a write of an entry leaves, how a fault of a stream is noted, and the actions
that take effect at a chunk boundary. -/

namespace Sys2Proof.Machine

open Sys2Proof

/- One entry changed. -/

/-- An entry that is not a free one after a change holds what the change gives. -/
theorem streamAt_onStream_same {s : State} {i : Nat} {f : StreamEnt → StreamEnt} (h : f (streamAt s i) ≠ .init) :
    streamAt (onStream s i f) i = f (streamAt s i) := by
  have hput : (s.streams.putAt i (f (streamAt s i)) .init).getAt i .init = f (streamAt s i) := by
    unfold SMap.putAt SMap.getAt
    rw [if_neg h, SMap.find_insertAt, if_pos rfl]
    rfl
  exact hput

/-- An entry that a chunk runs is not a free one. -/
theorem StreamEnt.ne_init_of_running {e : StreamEnt} (h : e.st = .running) : e ≠ .init := by
  rintro rfl
  cases h

/-- A step has changed an entry by f and quadrant q by g, and raised the events of the list; nothing else has changed. -/
structure StreamNoted (q i : Nat) (f : StreamEnt → StreamEnt) (g : QuadSt → QuadSt) (l : List (Nat × Sev)) (s t : State) : Prop where
  entry : f (streamAt s i) ≠ .init → streamAt t i = f (streamAt s i)
  own : quadAt t q = g (quadAt s q)
  frame : t = { s with streams := t.streams, quad := t.quad, hi := t.hi, hw := t.hw }
  news : Logs s t l

/-- A change of an entry and of a quadrant that an event reports. -/
theorem raise_streamNoted {q : Nat} (hq : q < 4) (s : State) (i : Nat) (f : StreamEnt → StreamEnt) (g : QuadSt → QuadSt) {code : Nat}
    (sev : Sev) (hcode : code ≠ 0x1206) :
    StreamNoted q i f g [(code, sev)] s (raise (onQuad (onStream s i f) q g) code sev 0) := by
  have hraise := raise_news (onQuad (onStream s i f) q g) code sev 0 hcode
  refine ⟨fun hne => ?entry, ?own, ?frame, hraise.news⟩
  case entry =>
    refine Eq.trans ?_ (streamAt_onStream_same hne)
    exact congrArg (fun m => SMap.getAt m i .init) hraise.calm.streams
  case own => exact (hraise.calm.quadAt q).trans (quadAt_onQuad_same _ _ _ hq)
  case frame =>
    generalize raise _ code sev 0 = t at *
    rw [hraise.frame]
    rfl

/-- The same where p holds, and nothing where it does not: f and g take whether p holds. -/
theorem raise_streamNoted_if {q : Nat} (hq : q < 4) (s : State) (i : Nat) (p : Prop) [Decidable p] {f : Bool → StreamEnt → StreamEnt}
    {g : Bool → QuadSt → QuadSt} {code : Nat} (sev : Sev) (hcode : code ≠ 0x1206) (hf : ∀ e, f false e = e) (hg : ∀ x, g false x = x) :
    StreamNoted q i (f (decide p)) (g (decide p)) (if p then [(code, sev)] else []) s
      (if p then raise (onQuad (onStream s i (f true)) q (g true)) code sev 0 else s) := by
  by_cases hp : p
  · rw [decide_eq_true hp, if_pos hp, if_pos hp]
    exact raise_streamNoted hq s i _ _ sev hcode
  · rw [decide_eq_false hp, if_neg hp, if_neg hp]
    exact ⟨fun _ => (hf _).symm, (hg _).symm, rfl, .same s⟩

/-- An entry that takes POISON where p holds, and its quadrant (R226). -/
def entryPoisoned (p : Bool) (e : StreamEnt) : StreamEnt := { e with poison := p || e.poison }
def quadPoisoned (p : Bool) (x : QuadSt) : QuadSt := { x with rcsPoison := p || x.rcsPoison }

/-- An entry that takes NONFIN where p holds, and its quadrant (R227). -/
def entryNonfin (p : Bool) (e : StreamEnt) : StreamEnt := { e with nonfin := p || e.nonfin }
def quadNonfin (p : Bool) (x : QuadSt) : QuadSt := { x with rcsNonfin := p || x.rcsNonfin }

theorem streamPoison_noted {q : Nat} (hq : q < 4) (s : State) (i : Nat) (p : Prop) [Decidable p] :
    StreamNoted q i (entryPoisoned (decide p)) (quadPoisoned (decide p)) (if p then [(0x0704, .minor)] else []) s
      (if p then streamPoison s q i else s) :=
  raise_streamNoted_if hq s i p .minor (by decide) (fun _ => rfl) (fun _ => rfl)

theorem streamNonfin_noted {q : Nat} (hq : q < 4) (s : State) (i : Nat) (p : Prop) [Decidable p] :
    StreamNoted q i (entryNonfin (decide p)) (quadNonfin (decide p)) (if p then [(0x0702, .minor)] else []) s
      (if p then streamNonfin s q i else s) :=
  raise_streamNoted_if hq s i p .minor (by decide) (fun _ => rfl) (fun _ => rfl)

/- The actions of a stream (R225, Table 9.4). -/

theorem exec_streamCtlApply {s : State} (i : Fin 256) (hon : alive s = true) :
    exec (.streamCtlApply i) s = .next (streamApply s i.val) := congrArg Host.Outcome.next (if_pos hon)

theorem streamApply_open {s : State} {i : Nat} (h : chunkOpen s i = true) : streamApply s i = s := if_pos h

/-- At a chunk boundary the actions that wait take effect, in order (R225). -/
theorem streamApply_boundary {s : State} {i : Nat} (h : chunkOpen s i = false) :
    streamApply s i = { s with
      streams := s.streams.putAt i { (streamAt s i).action.foldl streamAct (streamAt s i) with action := [] } .init } :=
  if_neg (ne_true_of_eq_false h)

/-- With no action waiting, the entry of a stream in use stays as it is (R225). -/
theorem streamApply_none {s : State} {i : Nat} (hwait : (streamAt s i).action = []) (hused : streamAt s i ≠ .init) :
    streamAt (streamApply s i) i = streamAt s i ∧ streamApply s i = { s with streams := (streamApply s i).streams } := by
  have hcleared : { streamAt s i with action := [] } = streamAt s i := by rw [← hwait]
  cases hopen : chunkOpen s i with
  | true =>
    rw [streamApply_open hopen]
    exact ⟨rfl, rfl⟩
  | false =>
    rw [streamApply_boundary hopen, hwait, List.foldl_nil, hcleared]
    exact ⟨streamAt_onStream_same (f := fun e => e) hused, rfl⟩

theorem streamAct_pause {e : StreamEnt} (h : e.st = .idle ∨ e.st = .running) : streamAct e 0 = { e with st := .paused } := if_pos h

theorem streamAct_resume (e : StreamEnt) : streamAct e 1 = if e.st = .paused then { e with st := .running } else e := rfl

/-- Reset and end act on a stream that is IDLE, RUNNING or PAUSED. -/
theorem streamAct_live {e : StreamEnt} (h : e.st = .idle ∨ e.st = .running ∨ e.st = .paused) :
    streamAct e 2 = { e with reset := true, seq := 0, poison := false, nonfin := false } ∧ streamAct e 3 = { e with st := .ended } := by
  have hlive : (e.st == .idle || e.st == .running || e.st == .paused) = true := by
    rcases h with h | h | h <;> rw [h] <;> rfl
  exact ⟨if_pos hlive, if_pos hlive⟩

/-- No action changes a stream that has ended (Table 9.4). -/
theorem streamAct_ended {e : StreamEnt} (h : e.st = .ended) (a : Nat) : streamAct e a = e := by
  unfold streamAct
  simp [h]

/-- Settles O44: streamApply_open and streamApply_boundary for the command, and each action by the lemma on it. -/
theorem streamActionsApply : Obligations.StreamActionsApply := by
  refine ⟨fun s i hon => ⟨fun hopen => ?_, fun hopen => ?_⟩,
    fun e => ⟨streamAct_pause, streamAct_resume e, streamAct_live, streamAct_ended⟩⟩
  · rw [exec_streamCtlApply i hon, streamApply_open hopen]
  · rw [exec_streamCtlApply i hon, streamApply_boundary hopen]

end Sys2Proof.Machine
end

section
/-! PROOFS. The phases of a chunk (R212, R216 to R222, R225, R227): what the end of an operation leaves of the state before it, and from it
what each phase and the skip of a chunk leave. -/

namespace Sys2Proof.Machine

open Sys2Proof

/- The end of an operation that has left any state. -/

/-- The operation in front of quadrant q in s, which has left w with the quadrant as x, has ended in u: beside the quadrants, the threads
and the report of a late start u is w. -/
structure Popped (s w : State) (q : Nat) (x : QuadSt) (u : State) : Prop where
  ends : OpEnds s u q
  own : ∃ todo feeds acts raw, quadAt u q = { x with todo := todo, feeds := feeds, acts := acts, raw := raw }
  frame : u = { w with quad := u.quad, xm.threads := u.xm.threads, hi := u.hi, hw := u.hw }
  news : Logs w u (lateNext s q)

theorem popOp_popped {s w : State} {q : Quad} {x : QuadSt} (hx : quadAt w q.val = x) (htodo : x.todo = (quadAt s q.val).todo) :
    Popped s w q.val x (popOp w q.val) := by
  obtain ⟨hframe, ⟨todo, feeds, acts, raw, hown⟩, -, hstays, hnews⟩ := popOp_advanced q.isLt w
  have hdropped : quadAt (onQuad w q.val frontDropped) q.val = frontDropped x := by rw [quadAt_onQuad_same _ _ _ q.isLt, hx]
  have hrest : (quadAt (onQuad w q.val frontDropped) q.val).todo = (quadAt s q.val).todo.drop 1 := by
    rw [hdropped, ← htodo]
    rfl
  refine ⟨hstays.trans (by rw [hrest]), ⟨todo, feeds, acts, raw, by rw [hown, hdropped]; rfl⟩, ?frame, ?news⟩
  case frame =>
    generalize popOp w q.val = u at *
    rw [hframe]
    rfl
  case news =>
    rw [hrest] at hnews
    exact hnews

/-- The chunk, the FC11 tiles and the counts of the stream engine are as the operation has left them. -/
theorem Popped.engine {s w u : State} {q : Nat} {x : QuadSt} (h : Popped s w q x u) :
    (quadAt u q).chunk = x.chunk ∧ (quadAt u q).fc11 = x.fc11 ∧ (quadAt u q).rcsNonfin = x.rcsNonfin ∧
      (quadAt u q).rcsChunks = x.rcsChunks ∧ (quadAt u q).rcsSkipped = x.rcsSkipped ∧ (quadAt u q).rcsSkipx = x.rcsSkipx := by
  obtain ⟨-, ⟨_, _, _, _, hown⟩, -, -⟩ := h
  rw [hown]
  exact ⟨rfl, rfl, rfl, rfl, rfl, rfl⟩

theorem Popped.streams {s w u : State} {q : Nat} {x : QuadSt} (h : Popped s w q x u) : u.streams = w.streams := by rw [h.frame]

theorem Popped.streamAt {s w u : State} {q : Nat} {x : QuadSt} (h : Popped s w q x u) (i : Nat) : streamAt u i = streamAt w i :=
  congrArg (fun m => SMap.getAt m i StreamEnt.init) h.streams

/-- A quadrant whose scan buffer holds r, or is free. -/
def chunkHeld (r : Option ChunkRun) (x : QuadSt) : QuadSt := { x with chunk := r }

/-- An operation that has only put a chunk into the scan buffer ends. -/
theorem popOp_held (s : State) (q : Quad) (r : ChunkRun) :
    OpEnds s (popOp (onQuad s q.val (chunkHeld (some r))) q.val) q.val ∧
      (quadAt (popOp (onQuad s q.val (chunkHeld (some r))) q.val) q.val).chunk = some r := by
  have hpop := popOp_popped (s := s) (quadAt_onQuad_same s q.val (chunkHeld (some r)) q.isLt) rfl
  exact ⟨hpop.ends, hpop.engine.1⟩

/- Tables of FP32 codes, and free values. -/

theorem find_filterMap_nonzero (f : Nat → Nat) (k : Nat) (l : List Nat) :
    SMap.find (l.filterMap (fun i => if f i = 0 then none else some (i, f i))) k = if k ∈ l ∧ f k ≠ 0 then some (f k) else none := by
  induction l with
  | nil => simp [SMap.find]
  | cons i r ih =>
    by_cases hi : f i = 0
    · simp only [List.filterMap_cons, hi, if_true, ih]
      by_cases hk : k = i
      · simp [hk, hi]
      · simp [hk]
    · simp only [List.filterMap_cons, hi, if_false, SMap.find, ih]
      by_cases hk : k = i
      · simp [hk, hi]
      · simp [hk]

/-- A table holds the code of each of its elements. -/
theorem getAt_tabulate {n k : Nat} (f : Nat → Nat) (h : k < n) : (tabulate n f).getAt k 0 = f k := by
  unfold tabulate SMap.getAt
  rw [find_filterMap_nonzero]
  by_cases hk : f k = 0
  · simp [hk]
  · simp [h, hk]

/-- n free values have been drawn, and nothing else has changed (log 10). -/
def Drawn (n : Nat) (s t : State) : Prop := t = { s with freeCtr := s.freeCtr + n }

theorem Drawn.trans {m n : Nat} {s t u : State} (h : Drawn m s t) (k : Drawn n t u) : Drawn (m + n) s u := by
  unfold Drawn at *
  rw [k, h, ← Nat.add_assoc]

/-- Bytes that are made one after the other draw what each draws. -/
theorem Drawn.foldl {α : Type} {f : List Byte × State → α → List Byte × State} {c : α → Nat} (h : ∀ p x, Drawn (c x) p.2 (f p x).2)
    (l : List α) (p : List Byte × State) : Drawn (l.map c).sum p.2 (l.foldl f p).2 := by
  induction l generalizing p with
  | nil => rfl
  | cons x r ih =>
    rw [List.map_cons, List.sum_cons]
    exact (h p x).trans (ih (f p x))

/-- The y tiles of a chunk draw two free values each (log 32). -/
theorem yTiles_drawn (s : State) (e : StreamEnt) (r : ChunkRun) : Drawn (2 * chunkTiles e) s (yTiles s e r).2 := by
  have h := Drawn.foldl (c := fun _ => 2) (f := fun p k => (p.1 ++ (yTile p.2 e r k).1, (yTile p.2 e r k).2))
    (fun _ _ => rfl) (List.range (chunkTiles e)) ([], s)
  rw [List.map_const', List.sum_replicate_nat, List.length_range, Nat.mul_comm] at h
  exact h

/-- A block draws its significands where it is non-finite (R227). -/
theorem blkBytes_drawn (s : State) (b : BlkOut) : Drawn (if b.nonfin then 64 else 0) s (blkBytes s b).2 := by
  unfold blkBytes
  cases b.nonfin with
  | false => rfl
  | true =>
    exact Drawn.foldl (c := fun _ => 1) (f := fun p _ => (p.1 ++ leBytes 5 (takeFree p.2 40).1.toNat, (takeFree p.2 40).2))
      (fun _ _ => rfl) (List.range 64) ([], s)

theorem blksBytes_drawn (s : State) (blks : List BlkOut) :
    Drawn (blks.map (fun b => if b.nonfin then 64 else 0)).sum s (blksBytes s blks).2 :=
  Drawn.foldl (f := fun p b => (p.1 ++ (blkBytes p.2 b).1, (blkBytes p.2 b).2)) (fun p b => blkBytes_drawn p.2 b) blks ([], s)

/- GATE (R218 to R221). -/

theorem poisonReads_streams (s : State) (c a bytes : Nat) : (poisonReads s c a bytes).streams = s.streams := by
  have hpages (l : List Nat) (s : State) :
      (l.foldl (fun s p => if pagePoisoned s p then poisonRead s p else s) s).streams = s.streams := by
    induction l generalizing s with
    | nil => rfl
    | cons p r ih =>
      refine (ih _).trans ?_
      dsimp only
      split
      · unfold poisonRead
        split
        · rfl
        · exact (raise_calm _ _ _ _).streams
      · rfl
  exact hpages _ _

theorem splitTiles_none (c adm : Nat) (l : List FcTile) : splitTiles c adm 0 l = ([], l) := by
  cases l <;> rfl

/-- z where the gates are not fused, x, B and C of a chunk, as FP32 codes (R212, R218). -/
def gateInput (e : StreamEnt) (raw : List Byte) : List Nat :=
  (List.range ((if e.fused then 0 else e.len * e.g) + e.len * e.g + 2 * e.len * e.n)).map (fun k => leAt raw (32 + 4 * k) 4)

/-- Value k of the input of a chunk. -/
def inputAt (input : List Nat) (k : Nat) : FNum := fp32Of (input.getD k 0)

/-- The FC11 tiles that a chunk takes, and those that stay (R220). -/
def gateTiles (e : StreamEnt) (t : Todo) (x : QuadSt) : List FcTile × List FcTile :=
  splitTiles t.ctx t.adm (if e.fused then chunkTiles e else 0) x.fc11

/-- Gate value k, exp(Δ × λ), from the tiles and the input (R221). -/
def gateValue (e : StreamEnt) (lam : Nat → FNum) (fc : List FcTile) (input : List Nat) (k : Nat) : Nat :=
  fp32Code (FNum.round fp32Fmt (actFn 5 (mul32 (chunkDelta e (inputAt input) fc (k / e.d) (k % e.d / e.n)) (lam (k % e.d)))))

/-- Input value k, B × x or Δ × B × x (R221). -/
def driveValue (e : StreamEnt) (fc : List FcTile) (input : List Nat) (k : Nat) : Nat :=
  let zl := if e.fused then 0 else e.len * e.g
  let b := inputAt input (zl + e.len * e.g + k / e.d * e.n + k % e.n)
  fp32Code (mul32 (if e.bMode then b else mul32 (chunkDelta e (inputAt input) fc (k / e.d) (k % e.d / e.n)) b)
    (inputAt input (zl + k / e.d * e.g + k % e.d / e.n)))

/-- The chunk that GATE puts into the scan buffer of quadrant q (R218 to R221, R226). -/
def gatedChunk (s : State) (q : Nat) (t : Todo) (d : ChunkDesc) (raw : List Byte × Bool) : ChunkRun :=
  let e := streamAt s (chunkStream s t d)
  let fc := (gateTiles e t (quadAt s q)).1
  let lam := combVec s t.ctx e.lambda e.d
  { stream := chunkStream s t d, level := 0, phase := .gate
    a := tabulate (e.len * e.d) (gateValue e lam.1 fc (gateInput e raw.1)), u := tabulate (e.len * e.d) (driveValue e fc (gateInput e raw.1))
    h := [], h0 := [], exact := [], zeroStart := e.reset || d.seqStart
    poison := raw.2 || decide (leAt raw.1 1 1 / 16 % 2 = 1) || fc.any (fun f => f.poison) || lam.2 || (quadAt s q).lamPoison
    input := gateInput e raw.1, out := d.out, ctx := t.ctx, adm := t.adm }

/-- A quadrant whose stream engine has taken a chunk, its tiles and its input, with the tiles fs left. -/
def chunkTaken (r : ChunkRun) (fs : List FcTile) (th : Nat) (x : QuadSt) : QuadSt :=
  { x with chunk := some r, fc11 := fs, lamPoison := false, raw := x.raw.eraseAt th }

/-- The state in which GATE has taken a chunk and read λ (R129, R221). -/
def gateOpened (s : State) (q : Nat) (t : Todo) (d : ChunkDesc) (raw : List Byte × Bool) : State :=
  let e := streamAt s (chunkStream s t d)
  let w := onQuad (onStream s (chunkStream s t d) (fun e => { e with st := .running })) q
    (chunkTaken (gatedChunk s q t d raw) (gateTiles e t (quadAt s q)).2 d.inThread)
  if (combVec s t.ctx e.lambda e.d).2 then poisonReads w t.ctx e.lambda (4 * e.d) else w

/-- GATE of a chunk may run (R219, R220, R225). -/
structure GateReady (s : State) (q : Quad) (t : Todo) (d : ChunkDesc) (raw : List Byte × Bool) : Prop where
  front : chunkOp s q.val .gate = some (t, d)
  raw : (quadAt s q.val).raw.find d.inThread = some raw
  slot : arrayMay s = true
  buffer : (quadAt s q.val).chunk = none
  noAction : (streamAt s (chunkStream s t d)).action = []
  st : (streamAt s (chunkStream s t d)).st = .idle ∨ (streamAt s (chunkStream s t d)).st = .running
  tiles : (streamAt s (chunkStream s t d)).fused = true →
    (splitTiles t.ctx t.adm (chunkTiles (streamAt s (chunkStream s t d))) (quadAt s q.val).fc11).1.length =
      chunkTiles (streamAt s (chunkStream s t d))

theorem exec_chunkGate {s : State} {q : Quad} {t : Todo} {d : ChunkDesc} {raw : List Byte × Bool} (ready : GateReady s q t d raw) :
    exec (.chunkGate q) s = .next (popOp (if (gatedChunk s q.val t d raw).poison then
      streamPoison (gateOpened s q.val t d raw) q.val (chunkStream s t d) else gateOpened s q.val t d raw) q.val) := by
  have h : exec (.chunkGate q) s = .next (chunkGate s q.val) := rfl
  rw [h]
  unfold chunkGate
  simp only [ready.front, ready.raw]
  rw [if_neg]
  · rfl
  · rintro (hslot | hbuffer | hwait | hst | ⟨hfused, hfew⟩)
    · rw [ready.slot] at hslot
      cases hslot
    · rw [ready.buffer] at hbuffer
      cases hbuffer
    · rw [ready.noAction] at hwait
      cases hwait
    · exact hst ready.st
    · exact absurd (ready.tiles hfused) (Nat.ne_of_lt hfew)

theorem gateOpened_leaves (s : State) (q : Quad) (t : Todo) (d : ChunkDesc) (raw : List Byte × Bool) :
    streamAt (gateOpened s q.val t d raw) (chunkStream s t d) = { streamAt s (chunkStream s t d) with st := .running } ∧
      quadAt (gateOpened s q.val t d raw) q.val = chunkTaken (gatedChunk s q.val t d raw)
        (gateTiles (streamAt s (chunkStream s t d)) t (quadAt s q.val)).2 d.inThread (quadAt s q.val) := by
  have hentry : streamAt (onStream s (chunkStream s t d) (fun e => { e with st := .running })) (chunkStream s t d) = _ :=
    streamAt_onStream_same (StreamEnt.ne_init_of_running rfl)
  have hquad (g : QuadSt → QuadSt) := quadAt_onQuad_same (onStream s (chunkStream s t d) (fun e => { e with st := .running })) q.val g q.isLt
  unfold gateOpened
  dsimp only
  split
  · refine ⟨Eq.trans ?_ hentry, ((poisonReads_pageErrors _ _ _ _).quadAt _).trans (hquad _)⟩
    exact congrArg (fun m => SMap.getAt m (chunkStream s t d) .init) (poisonReads_streams _ _ _ _)
  · exact ⟨hentry, hquad _⟩

theorem chunkGate_runs {s : State} {q : Quad} {t : Todo} {d : ChunkDesc} {raw : List Byte × Bool} (ready : GateReady s q t d raw) :
    Runs (.chunkGate q) s (fun u => OpEnds s u q.val ∧ (streamAt u (chunkStream s t d)).st = .running ∧
      (quadAt u q.val).chunk = some (gatedChunk s q.val t d raw) ∧
      (quadAt u q.val).fc11 = (gateTiles (streamAt s (chunkStream s t d)) t (quadAt s q.val)).2) := by
  obtain ⟨hentry, hquad⟩ := gateOpened_leaves s q t d raw
  have hnoted := streamPoison_noted q.isLt (gateOpened s q.val t d raw) (chunkStream s t d) ((gatedChunk s q.val t d raw).poison = true)
  have hstream := hnoted.entry (by rw [hentry]; exact StreamEnt.ne_init_of_running rfl)
  have hown := hnoted.own
  rw [hquad] at hown
  have hpop := popOp_popped (s := s) hown rfl
  obtain ⟨hchunk, hfc11, -⟩ := hpop.engine
  refine ⟨_, exec_chunkGate ready, hpop.ends, ?_, hchunk, hfc11⟩
  rw [hpop.streamAt, hstream, hentry]
  rfl

/-- A gate value of a stream whose gates are not fused is that of its z and λ (R212, R221). -/
theorem gateValue_plain {e : StreamEnt} {k : Nat} (lam : Nat → FNum) (fc : List FcTile) (raw : List Byte) (hplain : e.fused = false)
    (hk : k < e.len * e.d) :
    gateValue e lam fc (gateInput e raw) k = fp32Code (FNum.round fp32Fmt (actFn 5 (mul32
      (FNum.round fp32Fmt (actFn e.deltaFn (fp32Of (leAt raw (32 + 4 * (k / e.d * e.g + k % e.d / e.n)) 4)))) (lam (k % e.d))))) := by
  have hd : 0 < e.d := Nat.pos_of_ne_zero fun h => by simp [h] at hk
  have hstep : k / e.d < e.len := Nat.div_lt_of_lt_mul (by rwa [Nat.mul_comm] at hk)
  have hgroup : k % e.d / e.n < e.g := Nat.div_lt_of_lt_mul (by rw [Nat.mul_comm]; exact Nat.mod_lt k hd)
  have hrow : (k / e.d + 1) * e.g ≤ e.len * e.g := Nat.mul_le_mul_right _ hstep
  rw [Nat.add_mul, Nat.one_mul] at hrow
  have hindex : k / e.d * e.g + k % e.d / e.n < e.len * e.g + e.len * e.g + 2 * e.len * e.n := by omega
  have hz : inputAt (gateInput e raw) (k / e.d * e.g + k % e.d / e.n) =
      fp32Of (leAt raw (32 + 4 * (k / e.d * e.g + k % e.d / e.n)) 4) := by
    unfold inputAt gateInput
    simp only [hplain, Bool.false_eq_true, if_false]
    rw [List.getD_eq_getElem?_getD, List.getElem?_map, List.getElem?_range hindex, Option.map_some, Option.getD_some]
  unfold gateValue chunkDelta
  rw [if_neg (by simp [hplain]), hz]

/- LEVEL, LOAD and EXPAND (R221, R227). -/

theorem chunkRunOf_some {s : State} {q i : Nat} {r : ChunkRun} (h : chunkRunOf s q i = some r) : (quadAt s q).chunk = some r := by
  unfold chunkRunOf at h
  split at h
  · next hr =>
    split at h
    · rw [hr, h]
    · cases h
  · cases h

/-- A phase of a chunk stands in front of a quadrant, and the chunk holds its scan buffer. -/
structure PhaseReady (s : State) (q : Quad) (ph : ChunkPhase) (t : Todo) (d : ChunkDesc) (r : ChunkRun) : Prop where
  front : chunkOp s q.val ph = some (t, d)
  held : chunkRunOf s q.val (chunkStream s t d) = some r

/-- The chunk after level j of the scan: unchanged where it has no step that far from another (R221). -/
def levelDone (e : StreamEnt) (j : Nat) (r : ChunkRun) : ChunkRun :=
  if j = 0 ∨ e.len ≤ 2 ^ (j - 1) then r else { scanLevel e.len e.d (2 ^ (j - 1)) r with level := j, phase := .level j }

theorem chunkLevel_runs {s : State} {q : Quad} {t : Todo} {d : ChunkDesc} {j : Nat} {r : ChunkRun} (hfront : headOp s q.val = some t)
    (hop : t.op = .chunk d) (hphase : d.phase = .level j) (hheld : chunkRunOf s q.val (chunkStream s t d) = some r) :
    Runs (.chunkLevel q) s (fun u => OpEnds s u q.val ∧ (quadAt u q.val).chunk = some (levelDone (streamAt s r.stream) j r)) := by
  have h : exec (.chunkLevel q) s = .next (chunkLevel s q.val) := rfl
  refine ⟨_, h, ?_⟩
  unfold chunkLevel levelDone
  simp only [hfront, hop, hphase, hheld]
  split
  · have hpop := popOp_popped (s := s) (w := s) (q := q) rfl rfl
    exact ⟨hpop.ends, hpop.engine.1.trans (chunkRunOf_some hheld)⟩
  · exact popOp_held s q _

/-- The chunk once its state is loaded, unless it starts from zero (R216, R221). -/
def loadedChunk (s : State) (r : ChunkRun) : ChunkRun :=
  let e := streamAt s r.stream
  { r with phase := .load, level := 0
           h0 := if r.zeroStart then r.h0 else tabulate e.d (fun i => fp32Code (FNum.round fp32Fmt (loadState s e i))) }

theorem loadedChunk_skipped (s : State) {r : ChunkRun} (h : r.zeroStart = true) :
    loadedChunk s r = { r with phase := .load, level := 0 } :=
  congrArg (fun h0 => { r with phase := .load, level := 0, h0 := h0 }) (if_pos h)

theorem loadedChunk_read (s : State) {r : ChunkRun} (h : ¬ r.zeroStart = true) :
    loadedChunk s r = { r with phase := .load, level := 0, h0 := tabulate (streamAt s r.stream).d (fun i =>
      fp32Code (FNum.round fp32Fmt (loadState s (streamAt s r.stream) i))) } :=
  congrArg (fun h0 => { r with phase := .load, level := 0, h0 := h0 }) (if_neg h)

/-- The load of a chunk that does not start from zero meets a poisoned byte (R216, R226). -/
def loadPoisoned (s : State) (r : ChunkRun) : Bool :=
  !r.zeroStart && xmPoisoned s ((streamAt s r.stream).copyAt (streamAt s r.stream).cur) (streamAt s r.stream).copyLen

theorem exec_chunkLoad {s : State} {q : Quad} {t : Todo} {d : ChunkDesc} {r : ChunkRun} (ready : PhaseReady s q .load t d r) :
    exec (.chunkLoad q) s = .next (popOp (if loadPoisoned s r then
      streamPoison (onQuad s q.val (chunkHeld (some (loadedChunk s r)))) q.val r.stream
      else onQuad s q.val (chunkHeld (some (loadedChunk s r)))) q.val) := by
  have h : exec (.chunkLoad q) s = .next (chunkLoad s q.val) := rfl
  rw [h]
  unfold chunkLoad
  simp only [ready.front, ready.held]
  split
  · next hzero =>
    rw [loadedChunk_skipped s hzero, loadPoisoned, hzero]
    rfl
  · next hzero =>
    rw [loadedChunk_read s hzero, loadPoisoned, eq_false_of_ne_true hzero]
    rfl

theorem chunkLoad_runs {s : State} {q : Quad} {t : Todo} {d : ChunkDesc} {r : ChunkRun} (ready : PhaseReady s q .load t d r) :
    Runs (.chunkLoad q) s (fun u => OpEnds s u q.val ∧ (quadAt u q.val).chunk = some (loadedChunk s r)) := by
  have hown := (streamPoison_noted q.isLt (onQuad s q.val (chunkHeld (some (loadedChunk s r)))) r.stream (loadPoisoned s r = true)).own
  rw [quadAt_onQuad_same _ _ _ q.isLt] at hown
  have hpop := popOp_popped (s := s) hown rfl
  exact ⟨_, exec_chunkLoad ready, hpop.ends, hpop.engine.1⟩

/-- The h values of a chunk, a × h_0 + u by a fused multiply-add (R221). -/
def expandedValues (e : StreamEnt) (r : ChunkRun) : SMap Nat :=
  tabulate (e.len * e.d) (fun k =>
    fp32Code (fma32 (codeVal r.a k) (if r.zeroStart then fzero false else codeVal r.h0 (k % e.d)) (codeVal r.u k)))

theorem exec_chunkExpand {s : State} {q : Quad} {t : Todo} {d : ChunkDesc} {r : ChunkRun} {w : ChunkRun}
    (ready : PhaseReady s q .expand t d r)
    (hw : w = { r with phase := .expand, level := 0, h := expandedValues (streamAt s r.stream) r }) :
    exec (.chunkExpand q) s = .next (popOp (if becomes (streamAt s r.stream) r w.h then
      streamNonfin (onQuad s q.val (chunkHeld (some w))) q.val r.stream else onQuad s q.val (chunkHeld (some w))) q.val) := by
  have h : exec (.chunkExpand q) s = .next (chunkExpand s q.val) := rfl
  rw [h]
  unfold chunkExpand
  simp only [ready.front, ready.held]
  rw [hw]
  rfl

theorem chunkExpand_runs {s : State} {q : Quad} {t : Todo} {d : ChunkDesc} {r w : ChunkRun} (ready : PhaseReady s q .expand t d r)
    (hw : w = { r with phase := .expand, level := 0, h := expandedValues (streamAt s r.stream) r }) :
    Runs (.chunkExpand q) s (fun u => OpEnds s u q.val ∧ (quadAt u q.val).chunk = some w ∧
      (becomes (streamAt s r.stream) r w.h = true → (streamAt u r.stream).nonfin = true ∧ (quadAt u q.val).rcsNonfin = true) ∧
      Logs s u ((if becomes (streamAt s r.stream) r w.h then [(0x0702, .minor)] else []) ++ lateNext s q.val)) := by
  have hnoted := streamNonfin_noted q.isLt (onQuad s q.val (chunkHeld (some w))) r.stream (becomes (streamAt s r.stream) r w.h = true)
  have hown := hnoted.own
  rw [quadAt_onQuad_same _ _ _ q.isLt] at hown
  have hpop := popOp_popped (s := s) hown rfl
  obtain ⟨hchunk, -, hflag, -⟩ := hpop.engine
  refine ⟨_, exec_chunkExpand ready hw, hpop.ends, hchunk, fun hbecomes => ⟨?entry, ?flag⟩,
    Logs.trans (s := s) hnoted.news hpop.news⟩
  case entry =>
    have hne : entryNonfin (decide (becomes (streamAt s r.stream) r w.h = true))
        (streamAt (onQuad s q.val (chunkHeld (some w))) r.stream) ≠ .init := fun he => by
      simpa [entryNonfin, hbecomes, StreamEnt.init] using congrArg StreamEnt.nonfin he
    rw [hpop.streamAt, hnoted.entry hne]
    simp [entryNonfin, hbecomes]
  case flag =>
    rw [hflag]
    simp [quadNonfin, hbecomes]

/- READOUT (R222). -/

/-- Bytes that are handed out change the threads and the quadrant's buffers only (R239, R242). -/
theorem handOut_frame (s : State) (q i : Nat) (bytes : List Byte) :
    handOut s q i bytes = { s with quad := (handOut s q i bytes).quad, xm.threads := (handOut s q i bytes).xm.threads } := by
  unfold handOut
  dsimp only
  split <;> rfl

/-- The bytes of a chunk go to its OUT thread, where it has one. -/
def chunkOut (s : State) (q : Nat) (r : ChunkRun) (bytes : List Byte) : State :=
  match r.out with
  | some o => handOut s q o bytes
  | none => s

theorem chunkOut_frame (s : State) (q : Nat) (r : ChunkRun) (bytes : List Byte) :
    chunkOut s q r bytes = { s with quad := (chunkOut s q r bytes).quad, xm.threads := (chunkOut s q r bytes).xm.threads } := by
  unfold chunkOut
  split
  · exact handOut_frame _ _ _ _
  · rfl

/-- The chunk once it has been read out. -/
def readChunk (r : ChunkRun) : ChunkRun := { r with phase := .readout, level := 0 }

/-- The state in which READOUT has handed out the y tiles of a chunk (R222). -/
def tilesOut (s : State) (q : Nat) (r : ChunkRun) : State :=
  let y := yTiles s (streamAt s r.stream) r
  chunkOut (onQuad y.2 q (chunkHeld (some (readChunk r)))) q r y.1

theorem tilesOut_leaves (s : State) (q : Quad) (r : ChunkRun) :
    (∃ raw, quadAt (tilesOut s q.val r) q.val = { chunkHeld (some (readChunk r)) (quadAt s q.val) with raw := raw }) ∧
      (tilesOut s q.val r).streams = s.streams ∧
      (tilesOut s q.val r).freeCtr = s.freeCtr + 2 * chunkTiles (streamAt s r.stream) := by
  have hdrawn := yTiles_drawn s (streamAt s r.stream) r
  unfold Drawn at hdrawn
  unfold tilesOut
  dsimp only
  generalize yTiles s (streamAt s r.stream) r = y at *
  have hhanded := outThread_handed q.isLt (onQuad y.2 q.val (chunkHeld (some (readChunk r)))) r.out y.1
  have hframe := chunkOut_frame (onQuad y.2 q.val (chunkHeld (some (readChunk r)))) q.val r y.1
  obtain ⟨raw, hown⟩ := (Handed.after q.isLt hhanded).own
  refine ⟨⟨raw, hown.trans ?_⟩, ?_, ?_⟩
  · rw [hdrawn]
    rfl
  · rw [hframe, hdrawn]
    rfl
  · rw [hframe, hdrawn]
    rfl

/-- The state in which a poisoned stream has been noted at the batch of its chunk as well (R226). -/
def chunkRead (s : State) (q : Nat) (t : Todo) (r : ChunkRun) : State :=
  if (streamAt s r.stream).poison then poisonInst (tilesOut s q r) t.ctx t.adm 0x0704 else tilesOut s q r

theorem chunkRead_told (s : State) (q : Nat) (t : Todo) (r : ChunkRun) : Told (tilesOut s q r) (chunkRead s q t r) [] := by
  unfold chunkRead
  split
  · exact onCtx_told _ _ _
  · exact .same _

theorem exec_chunkReadout {s : State} {q : Quad} {t : Todo} {d : ChunkDesc} {r : ChunkRun} (ready : PhaseReady s q .readout t d r) :
    exec (.chunkReadout q) s = .next (popOp (chunkRead s q.val t r) q.val) := by
  have h : exec (.chunkReadout q) s = .next (chunkReadout s q.val) := rfl
  rw [h]
  unfold chunkReadout
  simp only [ready.front, ready.held]
  rfl

theorem chunkReadout_runs {s : State} {q : Quad} {t : Todo} {d : ChunkDesc} {r : ChunkRun} (ready : PhaseReady s q .readout t d r) :
    Runs (.chunkReadout q) s (fun u => OpEnds s u q.val ∧ (quadAt u q.val).chunk = some (readChunk r) ∧
      u.streams = s.streams ∧ u.freeCtr = s.freeCtr + 2 * chunkTiles (streamAt s r.stream)) := by
  obtain ⟨⟨raw, hown⟩, hstreams, hfree⟩ := tilesOut_leaves s q r
  have htold := chunkRead_told s q.val t r
  have hpop := popOp_popped (s := s) ((htold.pageErrors.quadAt q.val).trans hown) rfl
  refine ⟨_, exec_chunkReadout ready, hpop.ends, hpop.engine.1, hpop.streams.trans ?_, ?_⟩
  · rw [htold.frame, hstreams]
  · rw [hpop.frame, htold.frame, hfree]

/- STORE (R217, R221, R223 to R225, R227). -/

/-- The BE40 blocks that STORE writes (R221, R223, R224). -/
def storeBlocks (s : State) (r : ChunkRun) : List BlkOut :=
  let e := streamAt s r.stream
  if e.be40 then (List.range (e.d / 64)).map (fun b =>
    storeBlock (be40At (xmRead s (e.copyAt e.cur) e.copyLen) (64 * b)).1 (decide (e.seq % e.renorm + 1 = e.renorm))
      ((List.range 64).map (fun i => carry e r (loadState s e) (64 * b + i)))) else []

/-- The bytes that STORE writes, and the state once its free values are drawn. -/
def storeBytes (s : State) (r : ChunkRun) : List Byte × State :=
  let e := streamAt s r.stream
  if e.be40 then blksBytes s (storeBlocks s r) else
    ((List.range e.d).flatMap (fun i => leBytes 4 (fp32Code (carry e r (loadState s e) i))), s)

/-- STORE finds a non-finite element (R227). -/
def storeNonfin (s : State) (r : ChunkRun) : Bool :=
  let e := streamAt s r.stream
  if e.be40 then (storeBlocks s r).any (fun b => b.nonfin) else
    (List.range e.d).any (fun i => (carry e r (loadState s e) i).isNan || (carry e r (loadState s e) i).isInf)

/-- An entry whose other copy has become the current one (R217). -/
def entryStored (e : StreamEnt) : StreamEnt := { e with cur := !e.cur, seq := (e.seq + 1) % 2 ^ 32, reset := false }

/-- A quadrant whose chunk has been stored and counted, with the renormalised blocks of it (R217, R223, R224). -/
def chunkCounted (blks : List BlkOut) (x : QuadSt) : QuadSt :=
  { x with chunk := none, rcsChunks := satAdd 32 x.rcsChunks 1,
           rcsRenorm := satAdd 32 x.rcsRenorm (blks.filter (fun b => b.renorm)).length,
           rcsEarly := satAdd 32 x.rcsEarly (blks.filter (fun b => b.early)).length }

/-- The state in which the copy has been written, and the entry and the quadrant follow it. -/
def chunkStored (s : State) (q : Nat) (r : ChunkRun) : State :=
  let e := streamAt s r.stream
  onQuad (onStream (xmWrite (storeBytes s r).2 (e.copyAt (!e.cur)) (storeBytes s r).1) r.stream entryStored) q
    (chunkCounted (storeBlocks s r))

/-- The state in which a non-finite element that is new to the entry has been noted (R227). -/
def storeReported (s : State) (q : Nat) (r : ChunkRun) : State :=
  if storeNonfin s r = true ∧ (streamAt (chunkStored s q r) r.stream).nonfin = false then streamNonfin (chunkStored s q r) q r.stream
  else chunkStored s q r

theorem exec_chunkStore {s : State} {q : Quad} {t : Todo} {d : ChunkDesc} {r : ChunkRun} (ready : PhaseReady s q .store t d r) :
    exec (.chunkStore q) s = .next (popOp (streamApply (storeReported s q.val r) r.stream) q.val) := by
  have h : exec (.chunkStore q) s = .next (chunkStore s q.val) := rfl
  rw [h]
  unfold chunkStore
  simp only [ready.front, ready.held]
  rfl

/-- The free values of a store are the only change before the copy is written. -/
theorem storeBytes_drawn (s : State) (r : ChunkRun) : ∃ n, Drawn n s (storeBytes s r).2 := by
  unfold storeBytes
  dsimp only
  split
  · exact ⟨_, blksBytes_drawn s _⟩
  · exact ⟨0, rfl⟩

/-- In FP32 mode the carry of an element is its last h value, and no free value is drawn (R221). -/
theorem storeBytes_plain {s : State} {r : ChunkRun} (h : (streamAt s r.stream).be40 = false) :
    storeBytes s r = ((List.range (streamAt s r.stream).d).flatMap (fun i =>
      leBytes 4 (fp32Code (codeVal r.h (((streamAt s r.stream).len - 1) * (streamAt s r.stream).d + i)))), s) := by
  unfold storeBytes carry
  simp only [h, Bool.false_eq_true, if_false]

theorem chunkStored_leaves {s : State} (q : Quad) {r : ChunkRun} (hst : (streamAt s r.stream).st = .running) :
    streamAt (chunkStored s q.val r) r.stream = entryStored (streamAt s r.stream) ∧
      quadAt (chunkStored s q.val r) q.val = chunkCounted (storeBlocks s r) (quadAt s q.val) ∧
      (chunkStored s q.val r).cmb = s.cmb ∧ (chunkStored s q.val r).beat = s.beat := by
  obtain ⟨n, hdrawn⟩ := storeBytes_drawn s r
  unfold Drawn at hdrawn
  unfold chunkStored
  rw [hdrawn]
  exact ⟨streamAt_onStream_same (s := s) (f := entryStored) (StreamEnt.ne_init_of_running hst), quadAt_onQuad_same _ _ _ q.isLt, rfl, rfl⟩

theorem storeReported_noted (s : State) (q : Quad) (r : ChunkRun) :
    ∃ p l, StreamNoted q.val r.stream (entryNonfin p) (quadNonfin p) l (chunkStored s q.val r) (storeReported s q.val r) :=
  ⟨_, _, streamNonfin_noted q.isLt _ _ _⟩

theorem chunkStore_runs {s : State} {q : Quad} {t : Todo} {d : ChunkDesc} {r : ChunkRun} (ready : PhaseReady s q .store t d r)
    (hst : (streamAt s r.stream).st = .running) (hwait : (streamAt s r.stream).action = []) :
    Runs (.chunkStore q) s (fun u => OpEnds s u q.val ∧
      (∃ p, streamAt u r.stream = entryNonfin p (entryStored (streamAt s r.stream))) ∧
      (quadAt u q.val).chunk = none ∧ (quadAt u q.val).rcsChunks = satAdd 32 (quadAt s q.val).rcsChunks 1 ∧
      u.xm.mem = (chunkStored s q.val r).xm.mem ∧ u.freeCtr = (chunkStored s q.val r).freeCtr ∧ u.cmb = s.cmb ∧ u.beat = s.beat) := by
  obtain ⟨hentry, hquad, hcmb, hbeat⟩ := chunkStored_leaves q hst
  obtain ⟨p, l, hnoted⟩ := storeReported_noted s q r
  have hused : entryNonfin p (streamAt (chunkStored s q.val r) r.stream) ≠ .init := by
    rw [hentry]
    exact StreamEnt.ne_init_of_running hst
  have hreported := hnoted.entry hused
  rw [← hreported] at hused
  rw [hentry] at hreported
  obtain ⟨happlied, hframe⟩ := streamApply_none (s := storeReported s q.val r) (by rw [hreported]; exact hwait) hused
  have hown : quadAt (streamApply (storeReported s q.val r) r.stream) q.val =
      quadNonfin p (chunkCounted (storeBlocks s r) (quadAt s q.val)) := by
    rw [← hquad, ← hnoted.own, hframe]
    rfl
  have hpop := popOp_popped (s := s) hown rfl
  obtain ⟨hchunk, -, -, hcount, -⟩ := hpop.engine
  refine ⟨_, exec_chunkStore ready, hpop.ends, ⟨p, ?_⟩, hchunk, hcount, ?_, ?_, ?_, ?_⟩
  · rw [hpop.streamAt, happlied, hreported]
  · rw [hpop.frame, hframe, hnoted.frame]
  · rw [hpop.frame, hframe, hnoted.frame]
  · rw [hpop.frame, hframe, hnoted.frame, hcmb]
  · rw [hpop.frame, hframe, hnoted.frame, hbeat]

/- A chunk that is skipped (R220, R225). -/

/-- A quadrant that has skipped a chunk, with n tiles meant for it dropped or yet to be dropped (R220, R225). -/
def chunkSkipped (t : Todo) (n : Nat) (x : QuadSt) : QuadSt :=
  { x with rcsSkipped := true, rcsSkipx := satAdd 32 x.rcsSkipx 1, fc11 := (splitTiles t.ctx t.adm n x.fc11).2,
           fc11Skip := x.fc11Skip ++ List.replicate (n - (splitTiles t.ctx t.adm n x.fc11).1.length) (t.ctx, t.adm) }

/-- FC11 tiles that a chunk of an entry waits for (R220). -/
def tilesWanted (e : StreamEnt) : Nat := if e.fused then chunkTiles e else 0

theorem exec_chunkSkip_gate {s : State} {q : Quad} {t : Todo} {d : ChunkDesc} (hfront : headOp s q.val = some t) (hop : t.op = .chunk d)
    (hphase : d.phase = .gate)
    (hst : (streamAt s (chunkStream s t d)).st = .paused ∨ (streamAt s (chunkStream s t d)).st = .ended) :
    exec (.chunkSkip q) s = .next (popOp (invalidInst (raise (onQuad s q.val
      (chunkSkipped t (tilesWanted (streamAt s (chunkStream s t d))))) 0x0705 .minor 0) t.ctx t.adm 0x0705 false) q.val) := by
  have h : exec (.chunkSkip q) s = .next (chunkSkip s q.val) := rfl
  rw [h]
  unfold chunkSkip
  simp only [hfront, hop]
  rw [if_pos ⟨hphase, hst⟩]
  rfl

theorem exec_chunkSkip_later {s : State} {q : Quad} {t : Todo} {d : ChunkDesc} (hfront : headOp s q.val = some t) (hop : t.op = .chunk d)
    (hphase : d.phase ≠ .gate) (hnone : chunkRunOf s q.val (chunkStream s t d) = none) :
    exec (.chunkSkip q) s = .next (popOp s q.val) := by
  have h : exec (.chunkSkip q) s = .next (chunkSkip s q.val) := rfl
  rw [h]
  unfold chunkSkip
  simp only [hfront, hop]
  rw [if_neg fun hgate => hphase hgate.1, if_pos ⟨hphase, by rw [hnone]; rfl⟩]

theorem skipReported_told (s : State) (t : Todo) :
    Told s (invalidInst (raise s 0x0705 .minor 0) t.ctx t.adm 0x0705 false) [(0x0705, .minor)] :=
  (raise_news s 0x0705 .minor 0 (by decide)).told.trans (onCtx_told _ _ _)

theorem chunkSkip_gate_runs {s : State} {q : Quad} {t : Todo} {d : ChunkDesc} (hfront : headOp s q.val = some t) (hop : t.op = .chunk d)
    (hphase : d.phase = .gate)
    (hst : (streamAt s (chunkStream s t d)).st = .paused ∨ (streamAt s (chunkStream s t d)).st = .ended) :
    Runs (.chunkSkip q) s (fun u => OpEnds s u q.val ∧ (quadAt u q.val).rcsSkipped = true ∧
      (quadAt u q.val).rcsSkipx = satAdd 32 (quadAt s q.val).rcsSkipx 1 ∧
      ((streamAt s (chunkStream s t d)).fused = false → (quadAt u q.val).fc11 = (quadAt s q.val).fc11) ∧
      u.streams = s.streams ∧ Logs s u ((0x0705, .minor) :: lateNext s q.val)) := by
  have hexec := exec_chunkSkip_gate hfront hop hphase hst
  generalize hn : tilesWanted (streamAt s (chunkStream s t d)) = n at hexec
  have htold := skipReported_told (onQuad s q.val (chunkSkipped t n)) t
  have hown := htold.pageErrors.quadAt q.val
  rw [quadAt_onQuad_same _ _ _ q.isLt] at hown
  have hpop := popOp_popped (s := s) hown rfl
  obtain ⟨-, hfc11, -, -, hskipped, hcount⟩ := hpop.engine
  refine ⟨_, hexec, hpop.ends, hskipped, hcount, fun hplain => ?tiles, ?streams,
    Logs.trans (s := s) htold.news hpop.news⟩
  case tiles =>
    have hzero : n = 0 := by rw [← hn, tilesWanted, hplain]; rfl
    rw [hfc11, hzero, chunkSkipped, splitTiles_none]
  case streams =>
    refine hpop.streams.trans ?_
    rw [htold.frame]
    rfl

/-- Settles O43: one lemma on what each phase and the skip run to; the values of the tables by getAt_tabulate. -/
theorem chunksOfAStream : Obligations.ChunksOfAStream := by
  intro s q
  refine ⟨fun t d raw hfront hraw => ?gate, fun t d j r hfront hop hphase hheld => ?level, fun t d r hfront hheld => ?load,
    fun t d r hfront hheld => ?expand, fun t d r hfront hheld => chunkReadout_runs ⟨hfront, hheld⟩, fun t d r hfront hheld => ?store,
    fun t d hfront hop => ⟨chunkSkip_gate_runs hfront hop, fun hphase hnone => ?later⟩⟩
  case gate =>
    intro i e hslot hbuffer hwait hst htiles
    obtain ⟨u, hexec, hends, hrunning, hchunk, hfc11⟩ := chunkGate_runs ⟨hfront, hraw, hslot, hbuffer, hwait, hst, htiles⟩
    refine ⟨u, hexec, hends, hrunning, _, hchunk, rfl, rfl, rfl, rfl, rfl, fun hfused => ?_, fun hplain => ?_⟩
    · rw [hfc11, gateTiles, if_pos hfused]
    · have hnone : gateTiles e t (quadAt s q.val) = ([], (quadAt s q.val).fc11) := by
        rw [gateTiles, if_neg (ne_true_of_eq_false hplain), splitTiles_none]
      refine ⟨?_, by rw [hfc11, hnone], fun k hk => (getAt_tabulate _ hk).trans (gateValue_plain _ _ _ hplain hk)⟩
      unfold gatedChunk
      dsimp only
      rw [hnone, List.any_nil, Bool.or_false]
  case level =>
    obtain ⟨u, hexec, hends, hchunk⟩ := chunkLevel_runs hfront hop hphase hheld
    refine ⟨u, hexec, hends, hchunk.trans ?_⟩
    unfold levelDone
    split <;> rfl
  case load =>
    obtain ⟨u, hexec, hends, hchunk⟩ := chunkLoad_runs ⟨hfront, hheld⟩
    refine ⟨u, hexec, hends, _, hchunk, rfl, rfl, rfl, ?_⟩
    split
    · next hzero => rw [loadedChunk_skipped s hzero]
    · next hzero =>
      rw [loadedChunk_read s hzero]
      exact fun i hi => getAt_tabulate _ hi
  case expand =>
    obtain ⟨u, hexec, hends, hchunk, hnonfin, hnews⟩ := chunkExpand_runs ⟨hfront, hheld⟩ rfl
    exact ⟨u, hexec, hends, _, hchunk, rfl, fun k hk => getAt_tabulate _ hk, hnonfin, hnews⟩
  case store =>
    intro e hst hwait
    obtain ⟨u, hexec, hends, ⟨p, hentry⟩, hchunk, hcount, hmem, hfree, hcmb, hbeat⟩ := chunkStore_runs ⟨hfront, hheld⟩ hst hwait
    refine ⟨u, hexec, hends, hchunk, by rw [hentry]; rfl, by rw [hentry]; rfl, by rw [hentry]; rfl, by rw [hentry]; exact hst, hcount,
      fun hplain => ?_, by rw [hcmb], hbeat⟩
    unfold chunkStored at hmem hfree
    rw [storeBytes_plain hplain] at hmem hfree
    exact ⟨hmem, hfree⟩
  case later =>
    have hpop := popOp_popped (s := s) (w := s) (q := q) rfl rfl
    exact ⟨_, exec_chunkSkip_later hfront hop hphase hnone, hpop.ends, hpop.streams, hpop.news⟩

end Sys2Proof.Machine
end

section
/-! PROOFS. Sync objects in a slot program (R254, R255, R257 to R259, R261): what stopping the work of a batch leaves of its quadrant, and
from it what a fault leaves; the operations that are performed end by popOp_popped. -/

namespace Sys2Proof.Machine

open Sys2Proof

/- The operations that stay in a quadrant (R25, R225). -/

/-- A list of operations with the late start of the first one reported (R25). -/
def lateReported : List Todo → List Todo
  | [] => []
  | t :: r => { t with late := false } :: r

theorem mem_lateReported {x : Todo} {l : List Todo} (h : x ∈ lateReported l) : ∃ y ∈ l, y.ctx = x.ctx ∧ y.adm = x.adm ∧ y.op = x.op := by
  cases l with
  | nil => cases h
  | cons t r =>
    rcases List.mem_cons.mp h with rfl | h
    · exact ⟨t, List.mem_cons_self, rfl, rfl, rfl⟩
    · exact ⟨x, List.mem_cons_of_mem t h, rfl, rfl, rfl⟩

theorem armDue_todo {q : Nat} (hq : q < 4) (s : State) : (quadAt (armDue s q) q).todo = (quadAt s q).todo := by
  obtain ⟨-, ⟨_, _, _, hown⟩, -⟩ := armDue_armed hq s
  rw [hown]

theorem advanceAll_todo {q : Nat} (hq : q < 4) (s : State) : (quadAt (advanceAll s q) q).todo = lateReported (quadAt s q).todo := by
  rw [← armDue_todo hq s]
  unfold advanceAll
  dsimp only
  split
  · next hnil => rw [hnil]; rfl
  · next t rest hcons =>
    rw [hcons]
    split
    · have hraise := (raise_calm (lateCounted (armDue s q) q t rest) 0x0202 .minor 0).quadAt q
      exact (congrArg QuadSt.todo (hraise.trans (quadAt_onQuad_same (armDue s q) q _ hq)) :)
    · next hlate =>
      obtain ⟨ctx, adm, op, late⟩ := t
      obtain rfl : late = false := eq_false_of_ne_true hlate
      exact hcons

/-- What is left of an open chunk starts no new chunk: its GATE has run (R225, Table 9.3). -/
theorem chunkRest_pastGate {s : State} {r : ChunkRun} {y : Todo} (h : y ∈ chunkRest s r) : ∃ d, y.op = .chunk d ∧ d.phase ≠ .gate := by
  unfold chunkRest at h
  obtain ⟨p, hp, rfl⟩ := List.mem_map.mp h
  refine ⟨_, rfl, fun (hgate : p = .gate) => ?_⟩
  subst hgate
  cases hphase : r.phase <;> simp [hphase] at hp

/-- Of a batch whose operations leave a quadrant only the phases of an open chunk stay (R225, R258, log 133). -/
theorem dropTodo_batch {s : State} {x : QuadSt} {c adm : Nat} {y : Todo} (h : y ∈ dropTodo s x c adm) (hctx : y.ctx = c) (hadm : y.adm = adm) :
    ∃ d, y.op = .chunk d ∧ d.phase ≠ .gate := by
  rcases List.mem_append.mp h with hchunk | hkept
  · obtain ⟨r, -, hr⟩ := List.mem_flatMap.mp hchunk
    split at hr
    · exact chunkRest_pastGate hr
    · cases hr
  · simp [hctx, hadm] at hkept

theorem dropTodo_congr {s t : State} (hstreams : t.streams = s.streams) (hbase : ∀ c, (ctxAt t c).rcsBase = (ctxAt s c).rcsBase) (x : QuadSt)
    (c adm : Nat) : dropTodo t x c adm = dropTodo s x c adm := by
  have hstream (i : Nat) : streamAt t i = streamAt s i := congrArg (fun m => SMap.getAt m i StreamEnt.init) hstreams
  unfold dropTodo chunkRest
  simp only [hstream, hbase]

/- A batch that is faulted and stopped in its quadrant (R258, R259). -/

/-- A Major event is raised, a batch faulted, and its work in quadrant q stopped. -/
def workFaulted (e : State) (q c adm code : Nat) (f : InstFaults → InstFaults) : State :=
  stopWork (faultBatch (raise e code .major 0) c adm true f) q c adm

theorem faultBatch_rcsBase (s : State) (c adm : Nat) (policy : Bool) (f : InstFaults → InstFaults) (k : Nat) :
    (ctxAt (faultBatch s c adm policy f) k).rcsBase = (ctxAt s k).rcsBase := by
  unfold faultBatch ctxAt onCtx
  dsimp only
  rw [vget_vmod]
  split
  · next hk =>
    obtain ⟨rfl, -⟩ := hk
    rfl
  · rfl

theorem stopWork_todo {q : Nat} (hq : q < 4) (s : State) (c adm : Nat) :
    (quadAt (stopWork s q c adm) q).todo = dropTodo s (quadAt s q) c adm := by
  unfold stopWork
  rw [quadAt_onQuad_same _ _ _ hq]

/-- In u the batch of context c and admission beat adm has been faulted, with an event of that code, and stopped in quadrant q of s. -/
structure BatchStopped (s : State) (q c adm code : Nat) (P : InstFaults → Prop) (u : State) : Prop where
  news : Logs s u ((code, .major) :: lateFront (dropTodo s (quadAt s q) c adm))
  faulted : BatchFaulted u c adm P
  stopped : ∀ x ∈ (quadAt u q).todo, x.ctx = c → x.adm = adm → ∃ d, x.op = .chunk d ∧ d.phase ≠ .gate

theorem workFaulted_stops {s e : State} {q : Quad} {c adm code : Nat} {f : InstFaults → InstFaults} {P : InstFaults → Prop}
    (he : e = { s with so := e.so }) (hcode : code ≠ 0x1206) (hf : ∀ g, P (f g)) :
    (advanceAll (workFaulted e q.val c adm code f) q.val).so = e.so ∧
      BatchStopped s q.val c adm code P (advanceAll (workFaulted e q.val c adm code f) q.val) := by
  have hraise := raise_news e code .major 0 hcode
  have htold : Told e (faultBatch (raise e code .major 0) c adm true f) [(code, .major)] := hraise.told.trans (onCtx_told _ _ _)
  have hbase (k : Nat) : (ctxAt (faultBatch (raise e code .major 0) c adm true f) k).rcsBase = (ctxAt s k).rcsBase := by
    rw [faultBatch_rcsBase]
    unfold ctxAt
    rw [hraise.calm.cmb, he]
  have hfaulted := faultBatch_faulted (raise e code .major 0) (c := c) (adm := adm) hf
  unfold workFaulted
  generalize faultBatch (raise e code .major 0) c adm true f = w at *
  have hquad : quadAt w q.val = quadAt s q.val := by
    rw [htold.pageErrors.quadAt, he]
    rfl
  have htodo : (quadAt (stopWork w q.val c adm) q.val).todo = dropTodo s (quadAt s q.val) c adm := by
    rw [stopWork_todo q.isLt, hquad]
    exact dropTodo_congr (by rw [htold.frame, he]) hbase _ c adm
  have hadvanced := advanceAll_advanced q.isLt (stopWork w q.val c adm)
  have hreported := advanceAll_todo q.isLt (stopWork w q.val c adm)
  rw [htodo] at hreported
  obtain ⟨hframe, -, -, -, hnews⟩ := hadvanced
  rw [htodo] at hnews
  generalize advanceAll (stopWork w q.val c adm) q.val = u at *
  refine ⟨?so, ?news, ?faulted, fun x hx hctx hadm => ?stopped⟩
  case so =>
    rw [hframe]
    exact (by rw [htold.frame] : w.so = e.so)
  case news => exact (Logs.trans (s := e) htold.news hnews).from (by rw [he])
  case faulted =>
    have hcmb : u.cmb = w.cmb := by
      rw [hframe]
      rfl
    unfold BatchFaulted ctxAt at *
    rwa [hcmb]
  case stopped =>
    rw [hreported] at hx
    obtain ⟨y, hy, yctx, yadm, yop⟩ := mem_lateReported hx
    rw [← yop]
    exact dropTodo_batch hy (yctx.trans hctx) (yadm.trans hadm)

/-- An operation out of ascending order is counted, reported and faults its batch (R258). -/
theorem orderFault_stops (s : State) (q : Quad) (c adm obj : Nat) :
    (advanceAll (orderFault s q.val c adm obj) q.val).so =
        { s.so with orderx := satAdd 32 s.so.orderx 1, lastCode := 0x52, lastCtx := c, lastQuad := q.val, lastIdx := obj } ∧
      BatchStopped s q.val c adm 0x0A01 (fun f => f.orderFault = true) (advanceAll (orderFault s q.val c adm obj) q.val) :=
  workFaulted_stops (e := soLast { s with so.orderx := satAdd 32 s.so.orderx 1 } 0x52 c q.val obj) rfl (by decide) fun _ => rfl

/-- A REL by another than the holder is counted, reported and faults its batch (R259). -/
theorem relFault_stops (s : State) (q : Quad) (c adm obj : Nat) :
    (advanceAll (relFault s q.val c adm obj) q.val).so =
        { s.so with nownx := satAdd 32 s.so.nownx 1, lastCode := 0x40, lastCtx := c, lastQuad := q.val, lastIdx := obj } ∧
      BatchStopped s q.val c adm 0x0A03 (fun f => f.notOwner = true) (advanceAll (relFault s q.val c adm obj) q.val) :=
  workFaulted_stops (e := soLast { s with so.nownx := satAdd 32 s.so.nownx 1 } 0x40 c q.val obj) rfl (by decide) fun _ => rfl

/- ACQ and WAIT (R254, R257, R258). -/

/-- The object that a quadrant has been granted: an ACQ takes its hold, a WAIT changes nothing (R254). -/
def soGranted (s : State) (q c adm : Nat) (acq : Bool) (obj : Nat) : State :=
  if acq then onSo s obj (fun o => { o with holder := some (c, q), heldBy := some adm, left := false }) else s

/-- A quadrant that is not blocked. -/
def unblocked (x : QuadSt) : QuadSt := { x with blocked := none }

theorem soGranted_only (s : State) (q c adm : Nat) (acq : Bool) (obj : Nat) :
    soGranted s q c adm acq obj = { s with so := (soGranted s q c adm acq obj).so } := by
  cases acq
  · rfl
  · rfl

/-- An ACQ or WAIT that is performed ends, and its quadrant is not blocked. -/
theorem soPerform_ends (s : State) (q : Quad) (c adm : Nat) (acq : Bool) (obj : Nat) {u : State} (hu : u = soPerform s q.val c adm acq obj) :
    OpEnds s u q.val ∧ (quadAt u q.val).blocked = none ∧ u.so = (soGranted s q.val c adm acq obj).so ∧ u.cmb = s.cmb := by
  have hquad : quadAt (onQuad (soGranted s q.val c adm acq obj) q.val unblocked) q.val = unblocked (quadAt s q.val) := by
    rw [quadAt_onQuad_same _ _ _ q.isLt, soGranted_only]
    rfl
  obtain ⟨hends, ⟨_, _, _, _, hown⟩, hframe, -⟩ := popOp_popped (s := s) hquad rfl
  have hpop : u = popOp (onQuad (soGranted s q.val c adm acq obj) q.val unblocked) q.val := hu
  rw [← hpop] at hends hown hframe
  refine ⟨hends, by rw [hown]; rfl, by rw [hframe]; rfl, ?_⟩
  rw [hframe]
  exact (by rw [soGranted_only] : (soGranted s q.val c adm acq obj).cmb = s.cmb)

/-- A WAIT asks for the threshold only (R254, R255). -/
theorem soReady_wait (s : State) (obj thr : Nat) : soReady s false obj thr = soMet (soAt s obj).value thr := Bool.and_true _

section
variable {s : State} {q : Nat} {t : Todo} {acq : Bool} {i min obj thr : Nat} (hobj : soIndex s t.ctx i = obj)
  (hthr : opThreshold s t.ctx t.adm obj min = thr)
include hobj hthr

theorem soIssue_outOfOrder (h : holdsFrom s q obj = true) : soIssue s q t acq i min = advanceAll (orderFault s q t.ctx t.adm obj) q := by
  subst hobj hthr
  exact if_pos h

theorem soIssue_performs (h : holdsFrom s q obj = false) (hready : soReady s acq obj thr = true)
    (hlower : acq = true → lowerReady s q obj = false) : soIssue s q t acq i min = soPerform s q t.ctx t.adm acq obj := by
  subst hobj hthr
  refine (if_neg (ne_true_of_eq_false h)).trans (if_pos ?_)
  cases acq
  · simp [hready]
  · simp [hready, hlower rfl]

theorem soIssue_blocks (h : holdsFrom s q obj = false) (hwait : soReady s acq obj thr = false ∨ acq = true ∧ lowerReady s q obj = true) :
    soIssue s q t acq i min = onQuad s q (fun x => { x with blocked := some { acq := acq, obj := obj, thr := thr } }) := by
  subst hobj hthr
  refine (if_neg (ne_true_of_eq_false h)).trans (if_neg ?_)
  rcases hwait with hready | ⟨rfl, hlower⟩
  · simp [hready]
  · simp [hlower]

end

theorem exec_syncAcq {s : State} {q : Quad} {t : Todo} {i min : Nat} (hfront : headOp s q.val = some t) (hop : t.op = .acq i min) :
    exec (.syncAcq q) s = .next (soIssue s q.val t true i min) := by
  have h : exec (.syncAcq q) s = execSyncAcq q s := rfl
  rw [h, execSyncAcq, hfront]
  simp only [hop]

theorem exec_syncWait {s : State} {q : Quad} {t : Todo} {i min : Nat} (hfront : headOp s q.val = some t) (hop : t.op = .wait i min) :
    exec (.syncWait q) s = .next (soIssue s q.val t false i min) := by
  have h : exec (.syncWait q) s = execSyncWait q s := rfl
  rw [h, execSyncWait, hfront]
  simp only [hop]

/-- A blocked operation whose condition holds is performed (R257). -/
theorem exec_blockedOpProceed {s : State} {q : Quad} {b : Blocked} {t : Todo} {r : List Todo} (hup : quadUp s q.val = true)
    (hcore : coreRuns s = true) (hblocked : (quadAt s q.val).blocked = some b) (htodo : (quadAt s q.val).todo = t :: r)
    (hproceed : canProceed s q.val = true) : exec (.blockedOpProceed q) s = .next (soPerform s q.val t.ctx t.adm b.acq b.obj) := by
  have h : exec (.blockedOpProceed q) s = execBlockedOpProceed q s := rfl
  rw [h, execBlockedOpProceed, hup, hcore, blockedProceed, hblocked, htodo]
  simp only [Bool.and_self, if_true, hproceed]

/- REL (R254, R259). -/

/-- An object that its holder has released. -/
def soReleased (inc : Nat) (o : SoObj) : SoObj := { o with value := (o.value + inc) % 2 ^ 32, holder := none, heldBy := none, left := false }

theorem exec_syncRel {s : State} {q : Quad} {t : Todo} {i inc obj : Nat} (hfront : headOp s q.val = some t) (hop : t.op = .rel i inc)
    (hobj : soIndex s t.ctx i = obj) :
    exec (.syncRel q) s = .next (
      if (soAt s obj).holder = some (t.ctx, q.val) then popOp (onSo s obj (soReleased inc)) q.val
      else advanceAll (relFault s q.val t.ctx t.adm obj) q.val) := by
  have h : exec (.syncRel q) s = execSyncRel q s := rfl
  rw [h, execSyncRel, hfront, ← hobj]
  simp only [hop]
  rfl

/- SEND (R254, R261). -/

theorem vmod_congr {α : Type} {n : Nat} {v : Vector α n} {i : Nat} (d : α) {f g : α → α} (h : f (vget v i d) = g (vget v i d)) :
    vmod v i f = vmod v i g := by
  unfold vget at h
  unfold vmod
  split
  · next hi =>
    rw [dif_pos hi] at h
    rw [h]
  · rfl

theorem onPort_congr {s : State} {p : Nat} {f : Port → Port} (g : Port → Port) (h : f (portAt s p) = g (portAt s p)) :
    onPort s p f = onPort s p g :=
  congrArg (fun v => { s with hl.port := v }) (vmod_congr Port.init h)

/-- A port on which every waiting sync flit has no sync entry of its plan sends none. -/
theorem nextSync_none {s : State} {p : Nat} (h : ∀ w ∈ (portAt s p).syncq, syncEntry s w.ctx p = none) : nextSync s p = none := by
  have hnone : (portAt s p).syncq.filterMap (fun w => (syncEntry s w.ctx p).bind (fun x =>
      let e := x.2.forInst (w.inst % 65536)
      if windowOpen s e && decide (e.sent < e.flits) then some (w, x.1, e) else none)) = [] :=
    List.filterMap_eq_nil_iff.mpr fun w hw => by rw [h w hw]; rfl
  unfold nextSync
  rw [hnone]
  rfl

theorem flushSync_none {s : State} {p : Nat} (h : ∀ w ∈ (portAt s p).syncq, syncEntry s w.ctx p = none) (n : Nat) : flushSync n s p = s := by
  cases n with
  | zero => rfl
  | succ n =>
    unfold flushSync
    rw [nextSync_none h]

/-- A port with one more flit that waits for its sync window (R261). -/
def syncWaits (w : SendWait) (x : Port) : Port := { x with syncq := x.syncq ++ [w] }

theorem syncWaits_first {x : Port} (h : x.syncq = []) (w : SendWait) : syncWaits w x = { x with syncq := [w] } := by
  unfold syncWaits
  rw [h]
  rfl

/-- The state in which the flit of a SEND of t waits on its port, where that port is UP (R261). -/
def sendQueued (s : State) (t : Todo) (obj inc : Nat) (port : PortId) : State :=
  if portUp s port.val then onPort s port.val (syncWaits { ctx := t.ctx, inst := batchN s t.ctx t.adm, obj := obj, inc := inc }) else s

theorem exec_syncSend {s : State} {q : Quad} {t : Todo} {obj inc : Nat} {port : PortId} (hfront : headOp s q.val = some t)
    (hop : t.op = .send obj inc port) {w : State} (hw : sendQueued s t obj inc port = w) :
    exec (.syncSend q) s = .next (popOp (flushSync (portAt w port.val).syncq.length w port.val) q.val) := by
  have h : exec (.syncSend q) s = execSyncSend q s := rfl
  rw [h, execSyncSend, hfront, ← hw]
  simp only [hop]
  rfl

/-- A SEND that leaves nothing to flush ends, and its port is as the SEND has left it. -/
theorem syncSend_ends {s : State} {q : Quad} {t : Todo} {obj inc : Nat} {port : PortId} (hfront : headOp s q.val = some t)
    (hop : t.op = .send obj inc port) {w : State} (hw : sendQueued s t obj inc port = w)
    (hquad : quadAt w q.val = quadAt s q.val) (hnone : ∀ x ∈ (portAt w port.val).syncq, syncEntry w x.ctx port.val = none) :
    Runs (.syncSend q) s (fun u => OpEnds s u q.val ∧ u.hl = w.hl ∧ u.so = w.so) := by
  have hexec := exec_syncSend hfront hop hw
  rw [flushSync_none hnone] at hexec
  obtain ⟨hends, -, hframe, -⟩ := popOp_popped (s := s) hquad rfl
  exact ⟨_, hexec, hends, by rw [hframe], by rw [hframe]⟩

/-- Settles O48: an ACQ or WAIT is one case of soIssue, a fault is a batch that is stopped, and what is performed ends by soPerform_ends. -/
theorem syncObjectsOfASlotProgram : Obligations.SyncObjectsOfASlotProgram := by
  intro s q
  refine ⟨fun t i min hfront => ?issue, fun t i inc hfront hop => ?rel, fun t obj inc port hfront hop hempty => ?send,
    fun b t r hup hcore hblocked htodo hproceed => ?proceed⟩
  case issue =>
    intro obj thr fault
    obtain ⟨hso, hnews, hfaulted, hstopped⟩ := orderFault_stops s q t.ctx t.adm obj
    refine ⟨fun hop => ?acq, fun hop => ?wait⟩
    case acq =>
      have hexec := exec_syncAcq hfront hop
      refine ⟨fun hheld => ?_, fun hfree hready hlower => ?_, fun hfree hwait => ?_⟩
      · rw [soIssue_outOfOrder rfl rfl hheld] at hexec
        exact ⟨_, hexec, hso, hnews, hfaulted, hstopped⟩
      · rw [soIssue_performs rfl rfl hfree hready fun _ => hlower] at hexec
        obtain ⟨hends, -, hobject, hcmb⟩ := soPerform_ends s q t.ctx t.adm true obj rfl
        exact ⟨_, hexec, hends, hcmb, hobject⟩
      · rw [hexec, soIssue_blocks rfl rfl hfree (hwait.imp_right fun hlower => ⟨rfl, hlower⟩)]
    case wait =>
      have hexec := exec_syncWait hfront hop
      refine ⟨fun hheld => ?_, fun hfree hmet => ?_, fun hfree hunmet => ?_⟩
      · rw [soIssue_outOfOrder rfl rfl hheld] at hexec
        exact ⟨_, hexec, hso, hnews, hfaulted, hstopped⟩
      · rw [soIssue_performs rfl rfl hfree ((soReady_wait s obj thr).trans hmet) nofun] at hexec
        obtain ⟨hends, -, hobject, hcmb⟩ := soPerform_ends s q t.ctx t.adm false obj rfl
        exact ⟨_, hexec, hends, hobject, hcmb⟩
      · rw [hexec, soIssue_blocks rfl rfl hfree (.inl ((soReady_wait s obj thr).trans hunmet))]
  case rel =>
    intro obj
    have hexec := exec_syncRel hfront hop (obj := obj) rfl
    refine ⟨fun hholder => ?_, fun hother => ?_⟩
    · rw [if_pos hholder] at hexec
      obtain ⟨hends, -, hframe, -⟩ := popOp_popped (s := s) (w := onSo s obj (soReleased inc)) (q := q) rfl rfl
      exact ⟨_, hexec, hends, by rw [hframe]; rfl, by rw [hframe]; rfl⟩
    · rw [if_neg hother] at hexec
      obtain ⟨hso, hnews, hfaulted, -⟩ := relFault_stops s q t.ctx t.adm obj
      exact ⟨_, hexec, hso, hnews, hfaulted⟩
  case send =>
    refine ⟨fun hdown => ?_, fun hport hentry => ?_⟩
    · have hw : sendQueued s t obj inc port = s := if_neg (ne_true_of_eq_false hdown)
      exact syncSend_ends hfront hop hw rfl (by simp [hempty])
    · have hw : sendQueued s t obj inc port = onPort s port.val (syncWaits _) := if_pos hport
      obtain ⟨u, hexec, hends, hhl, hso⟩ := syncSend_ends hfront hop hw rfl (by
        rw [portAt_onPort_same _ _ _ port.isLt, syncWaits_first hempty]
        intro x hx
        rw [List.mem_singleton.mp hx]
        exact hentry)
      exact ⟨u, hexec, hends, hso, hhl.trans (congrArg State.hl (onPort_congr _ (syncWaits_first hempty _)))⟩
  case proceed =>
    have hexec := exec_blockedOpProceed hup hcore hblocked htodo hproceed
    obtain ⟨hends, hfree, hobject, -⟩ := soPerform_ends s q t.ctx t.adm b.acq b.obj rfl
    refine ⟨_, hexec, hends, hfree, hobject.trans ?_⟩
    cases b.acq
    · rfl
    · rfl

end Sys2Proof.Machine
end

section
/-! PROOFS. What a failed fetch and a poisoned stream, with the release of a plan (R119, R124, R226), leave alone: the Comb port arbiters
and the events already raised. -/

namespace Sys2Proof.Machine

open Sys2Proof

/-- Raising an event puts it on the record with the next sequence number (R330). -/
theorem raise_eventRaised (s : State) (code : Nat) (sev : Sev) (detail : Nat) : EventRaised s (raise s code sev detail) code sev := by
  have hring : (⟨code, sev, s.hi.evSeq, s.beat.num, detail⟩ : Event) ∈ (raiseRing s s.beat.num code sev detail).hi.raised := by
    rw [raiseRing_raised]
    exact List.mem_cons_self
  have hwood (w : State) (e x : Event) (h : x ∈ w.hi.raised) : x ∈ (hwEvent w e).hi.raised := by
    obtain ⟨-, -, -, -, pre, hraised, -⟩ := hwEvent_news w e
    rw [hraised]
    exact List.mem_append_right pre h
  unfold raise raiseAt
  dsimp only
  split
  · exact ⟨_, hwood _ _ _ hring, rfl, rfl, rfl⟩
  · exact ⟨_, hwood _ _ _ hring, rfl, rfl, rfl⟩
  · exact ⟨_, hring, rfl, rfl, rfl⟩

/-- The arbiters are as they were, and every event that had been raised is still on the record. -/
structure ArbsKept (s t : State) : Prop where
  arb : t.arb = s.arb
  raised : s.hi.raised <:+ t.hi.raised

theorem ArbsKept.same (s : State) : ArbsKept s s := ⟨rfl, List.suffix_rfl⟩

theorem ArbsKept.trans {s t u : State} (h : ArbsKept s t) (k : ArbsKept t u) : ArbsKept s u :=
  ⟨k.arb.trans h.arb, h.raised.trans k.raised⟩

theorem ArbsKept.foldl {α : Type} {f : State → α → State} (h : ∀ s x, ArbsKept s (f s x)) (l : List α) (s : State) :
    ArbsKept s (l.foldl f s) := by
  induction l generalizing s with
  | nil => exact .same s
  | cons a r ih => exact (h s a).trans (ih (f s a))

/-- A change of the state outside the arbiters and the host interface. -/
theorem ArbsKept.of {s t : State} (harb : t.arb = s.arb) (hhi : t.hi = s.hi) : ArbsKept s t :=
  ⟨harb, hhi ▸ List.suffix_rfl⟩

theorem raise_arbsKept (s : State) {code : Nat} (sev : Sev) (detail : Nat) (h : code ≠ 0x1206) : ArbsKept s (raise s code sev detail) := by
  obtain ⟨hcalm, -, -, -, pre, hraised, -⟩ := raise_news s code sev detail h
  exact ⟨hcalm.arb, pre, hraised.symm⟩

theorem hwState_arbsKept (s : State) (typ : Nat) (payload : List Byte) : ArbsKept s (hwState s typ payload) := by
  refine .of (hwState_calm s typ payload).arb ?_
  unfold hwState hwHoldState
  dsimp only
  split
  · rfl
  · split
    · rfl
    · rfl

theorem retirePage_arbsKept (s : State) (p : Nat) : ArbsKept s (retirePage s p) := by
  unfold retirePage
  split
  · exact .same s
  · split
    · exact .trans (t := { s with cmb.retired := s.cmb.retired ++ [p] }) (.of rfl rfl) (hwState_arbsKept _ _ _)
    · have h : ArbsKept s { s with cmb.retiredRun := s.cmb.retiredRun ++ [p] } := .of rfl rfl
      dsimp only
      split
      · exact h
      · exact h.trans (raise_arbsKept _ _ _ (by decide))

theorem releaseBank_arbsKept (s : State) (q pb : Nat) : ArbsKept s (releaseBank s q pb) := by
  unfold releaseBank
  dsimp only
  refine .trans ?_ (ArbsKept.foldl retirePage_arbsKept _ _)
  exact .of rfl rfl

theorem abandonPhases_arbsKept (s : State) (c : Nat) : ArbsKept s (abandonPhases s c) := by
  unfold abandonPhases
  dsimp only
  refine .trans ?dropped (ArbsKept.foldl (fun s x => ?freed) _ _)
  case freed => exact .of rfl rfl
  case dropped =>
    split
    · exact .of rfl rfl
    · exact .of rfl rfl

theorem endWork_arbsKept (s : State) (k : Nat) : ArbsKept s (endWork s k) := by
  unfold endWork forUpto
  dsimp only
  refine .trans (.trans ?threads (ArbsKept.foldl (fun s q => ?quads) _ _)) (ArbsKept.foldl (fun s p => ?ports) _ _)
  case threads => exact .of rfl rfl
  case quads => exact .of rfl rfl
  case ports => exact .of rfl rfl

theorem freeObjects_arbsKept (s : State) (k : Nat) (c : PlanCtx) : ArbsKept s (freeObjects s k c) := .of rfl rfl

theorem onCtx_arbsKept (s : State) (c : Nat) (f : PlanCtx → PlanCtx) : ArbsKept s (onCtx s c f) := .of rfl rfl

theorem stopLoops_arbsKept (s : State) : ArbsKept s (stopLoops s) := .of rfl rfl

theorem reserveShadow_arbsKept (s : State) (c : Nat) : ArbsKept s (reserveShadow s c) := by
  unfold reserveShadow
  split
  · exact .same s
  · exact .of rfl rfl

theorem reserveAll_arbsKept (s : State) : ArbsKept s (reserveAll s) := by
  refine ArbsKept.foldl (fun s c => ?_) _ _
  split
  · exact reserveShadow_arbsKept s c
  · exact .same s

theorem setProf_arbsKept (s : State) (l : Loop) (i : Nat) (p : Profile) : ArbsKept s (setProf s l i p) := by
  unfold setProf
  dsimp only
  split
  · exact .of rfl rfl
  · cases l
    · exact .of rfl rfl
    · exact .of rfl rfl
    · exact .of rfl rfl

theorem prunProfiles_arbsKept (s : State) : ArbsKept s (prunProfiles s) :=
  ArbsKept.foldl (fun s _ => (setProf_arbsKept s _ _ _).trans (setProf_arbsKept _ _ _ _)) _ _

theorem profFlush_arbsKept (s : State) : ArbsKept s (profFlush s) := by
  refine ArbsKept.foldl (fun s e => ?_) _ _
  split
  · exact .same s
  · exact setProf_arbsKept s _ _ _

theorem setDrive_arbsKept (s : State) (d : CoreSrc) : ArbsKept s (setDrive s d) := by
  unfold setDrive
  split
  · exact .of rfl rfl
  · exact .of rfl rfl

theorem swapSafe_arbsKept (s : State) : ArbsKept s (swapSafe s) := by
  unfold swapSafe
  dsimp only
  split
  · exact .of rfl rfl
  · refine .trans (.trans ?_ (setDrive_arbsKept _ _)) (profFlush_arbsKept _)
    exact .of rfl rfl

theorem releasePlan_arbsKept (s : State) (k : Nat) : ArbsKept s (releasePlan s k) := by
  have hbanks : ArbsKept s ((ctxAt s k).bankMap.foldl (fun s e => releaseBank s (e.1 / 64) e.2) (abandonPhases s k)) :=
    (abandonPhases_arbsKept s k).trans (ArbsKept.foldl (fun s _ => releaseBank_arbsKept s _ _) _ _)
  have hfreed := hbanks.trans ((endWork_arbsKept _ k).trans ((freeObjects_arbsKept _ k (ctxAt s k)).trans (onCtx_arbsKept _ k fun _ => .init)))
  unfold releasePlan
  refine .trans (.trans ?_ (prunProfiles_arbsKept _)) (reserveAll_arbsKept _)
  split
  · exact (hfreed.trans (swapSafe_arbsKept _)).trans (stopLoops_arbsKept _)
  · exact hfreed

theorem fetchFail_arbsKept (s : State) : ArbsKept s (fetchFail s) := by
  unfold fetchFail
  split
  · exact .same s
  · refine .trans ?_ (raise_arbsKept _ _ _ (by decide))
    split
    · exact abandonPhases_arbsKept s _
    · exact releasePlan_arbsKept s _

theorem streamPoison_arbsKept (s : State) (q i : Nat) : ArbsKept s (streamPoison s q i) := by
  unfold streamPoison
  refine .trans ?_ (raise_arbsKept _ _ _ (by decide))
  exact .of rfl rfl

end Sys2Proof.Machine
end

section
/-! PROOFS. The Comb port arbiter (R269 to R271, R273): what a request, a grant and a watchdog reset leave of their slice's
arbiter, and what the outcome of the reset for the job (Table 11.4) leaves alone. -/

namespace Sys2Proof.Machine

open Sys2Proof

theorem onArb_congr {s : State} {q : Nat} {f : Arb → Arb} (g : Arb → Arb) (h : f (arbAt s q) = g (arbAt s q)) : onArb s q f = onArb s q g :=
  congrArg (fun v => { s with arb := v }) (vmod_congr Arb.init h)

theorem onArb_onArb (s : State) (q : Nat) (f g : Arb → Arb) : onArb (onArb s q f) q g = onArb s q (fun a => g (f a)) :=
  congrArg (fun v => { s with arb := v }) (vmod_vmod s.arb q f g)

/-- An entry that a table lists, whatever the table, reads as it was put. -/
theorem getAt_putAt_listed {α : Type} [DecidableEq α] (m : SMap α) (i : Nat) {v d : α} (h : v ≠ d) : (m.putAt i v d).getAt i d = v := by
  unfold SMap.putAt SMap.getAt
  rw [if_neg h, SMap.find_insertAt, if_pos rfl]
  rfl

/-- The job of a requester, changed. -/
def withJob (id : Nat) (f : PortJob → PortJob) (a : Arb) : Arb := { a with jobs := a.jobs.putAt id (f (jobOf a id)) ⟨0, 0, 0⟩ }

theorem jobOf_withJob {id : Nat} {f : PortJob → PortJob} {a : Arb} (h : (f (jobOf a id)).len ≠ 0) : jobOf (withJob id f a) id = f (jobOf a id) :=
  getAt_putAt_listed _ _ fun (hzero : f (jobOf a id) = _) => h (by rw [hzero])

/- Requests (R269, R270, R271). -/

/-- A job of len transfers begins, or goes on where it is (R271). -/
def jobBegun (len : Nat) (j : PortJob) : PortJob := if j.len = 0 then { j with len := len, done := 0 } else j

theorem jobBegun_len (len : Nat) (j : PortJob) : (jobBegun len j).len = if j.len = 0 then len else j.len := by
  unfold jobBegun
  split
  · rfl
  · rfl

/-- The pending queue meets a request: it enters, displaces the last entry of a lower class, or is lost (R269, R270). -/
def requestMet (e : PqEntry) (a : Arb) : Arb :=
  if a.queue.length < 8 then { a with queue := a.queue ++ [e] }
  else if portClass e.id = 0 ∧ a.queue.any (fun x => decide (0 < portClass x.id)) = true then
    { a with queue := dropLastWhere (fun x => decide (0 < portClass x.id)) a.queue ++ [e], displace := satAdd 32 a.displace 1 }
  else { a with pqfull := satAdd 32 a.pqfull 1 }

theorem requestMet_jobOf (e : PqEntry) (a : Arb) (id : Nat) : jobOf (requestMet e a) id = jobOf a id := by
  unfold requestMet
  split
  · rfl
  · split
    · rfl
    · rfl

theorem requestMet_queue (e : PqEntry) (a : Arb) :
    if a.queue.length < 8 then (requestMet e a).queue = a.queue ++ [e] ∧ (requestMet e a).pqfull = a.pqfull
    else if portClass e.id = 0 ∧ a.queue.any (fun x => decide (0 < portClass x.id)) = true then
      (requestMet e a).queue = dropLastWhere (fun x => decide (0 < portClass x.id)) a.queue ++ [e] ∧
        (requestMet e a).displace = satAdd 32 a.displace 1
    else (requestMet e a).queue = a.queue ∧ (requestMet e a).pqfull = satAdd 32 a.pqfull 1 := by
  unfold requestMet
  split
  · exact ⟨rfl, rfl⟩
  · split
    · exact ⟨rfl, rfl⟩
    · exact ⟨rfl, rfl⟩

theorem presentReq_eq (s : State) (q : Nat) (e : PqEntry) : presentReq s q e = onArb s q (requestMet e) := by
  unfold presentReq
  dsimp only
  split
  · next hroom => exact onArb_congr _ (if_pos hroom).symm
  · next hfull =>
    split
    · next hlower => exact onArb_congr _ ((if_neg hfull).trans (if_pos hlower)).symm
    · next hlower => exact onArb_congr _ ((if_neg hfull).trans (if_neg hlower)).symm

/-- The entry of a requester for a page (R267, R388). -/
def requestOf (a : Arb) (id page : Nat) : PqEntry :=
  { id := id, page := page, write := id == 11 || id == 12 || (id == 10 && a.writeBack) }

theorem portRequest_eq (s : State) (q id page len : Nat) :
    portRequest s q id page len = onArb s q (fun a => requestMet (requestOf (arbAt s q) id page) (withJob id (jobBegun len) a)) :=
  (presentReq_eq _ q _).trans (onArb_onArb s q _ _)

theorem exec_sidePortRequest {s : State} {q : Quad} {id : Fin 14} {page len : Nat} (hruns : sliceRuns s q.val = true)
    (hpage : page / 98304 = q.val) (hlen : 0 < len) (hwork : hasWork s q.val id.val page = true)
    (hnone : (arbAt s q.val).queue.any (fun e => e.id == id.val) = false) (hfill : fillHeld s q.val id.val page = false)
    (htime : 10 ≤ id.val ∧ id.val ≤ 12 → understoryTime s q.val = true) :
    exec (.sidePortRequest q id page len) s = .next (portRequest s q.val id.val page len) :=
  congrArg _ (if_pos ⟨hruns, hpage, hlen, hwork, hnone, hfill, Decidable.not_or_of_imp htime⟩)

/- Grants (R269, R271). -/

theorem exec_sidePortGrant {s : State} {q : Quad} (hruns : sliceRuns s q.val = true) (errs : Nat) :
    exec (.sidePortGrant q errs) s = .next (portGrant s q.val errs) := congrArg _ (if_pos hruns)

theorem nextGrant_mem {a : Arb} {e : PqEntry} (h : nextGrant a = some e) : e ∈ a.queue := by
  unfold nextGrant at h
  split at h
  · cases h
  · obtain ⟨_, -, hfind⟩ := List.exists_of_findSome?_eq_some h
    exact List.mem_of_find?_eq_some hfind

theorem transferDone_idle {s : State} {q : Nat} (h : (arbAt s q).owner = none) (errs : Nat) : transferDone s q errs = s := by
  unfold transferDone
  rw [h]

/-- The port is given to an entry of its queue (R269). -/
def granted (e : PqEntry) (a : Arb) : Arb :=
  { a with queue := a.queue.erase e, owner := some e, grants := vmod a.grants (portClass e.id) (fun n => satAdd 32 n 1),
           lastGrant := vput a.lastGrant (portClass e.id) e.id }

theorem portGrant_idle {s : State} {q : Nat} {e : PqEntry} (hidle : (arbAt s q).owner = none) (hnext : nextGrant (arbAt s q) = some e)
    (errs : Nat) : portGrant s q errs = onArb s q (granted e) := by
  unfold portGrant
  rw [hnext, transferDone_idle hidle]
  exact if_pos (List.contains_iff_mem.mpr (nextGrant_mem hnext))

theorem nextGrant_none {a : Arb} (h : a.queue = []) : nextGrant a = none := by
  have hnone : (List.range 5).find? (fun c => a.queue.any (fun e => portClass e.id == c)) = none :=
    List.find?_eq_none.mpr fun c _ => by simp [h]
  unfold nextGrant
  rw [hnone]

/-- One more transfer of a job is done (R271). -/
def jobStepped (j : PortJob) : PortJob := if j.len = 0 then j else { j with done := j.done + 1 }

/-- An arbiter whose data phase has ended. -/
def phaseEnded (a : Arb) : Arb := { a with owner := none }

/-- An arbiter after a transfer of e without errors: a scrub has nothing to write back (R388). -/
def writtenBack (e : PqEntry) (a : Arb) : Arb := { a with writeBack := if e.id = 10 then false else a.writeBack }

/-- The data phase of a read transfer without errors has ended, and counts for its job (R271). -/
def readEnded (e : PqEntry) (a : Arb) : Arb := withJob e.id jobStepped (writtenBack e (phaseEnded a))

theorem readEnded_job {e : PqEntry} {a : Arb} (h : (jobOf a e.id).len ≠ 0) :
    jobOf (readEnded e a) e.id = { jobOf a e.id with done := (jobOf a e.id).done + 1 } := by
  have hstep : jobStepped (jobOf a e.id) = { jobOf a e.id with done := (jobOf a e.id).done + 1 } := if_neg h
  refine (jobOf_withJob (a := writtenBack e (phaseEnded a)) ?_).trans hstep
  rw [show jobStepped (jobOf (writtenBack e (phaseEnded a)) e.id) = _ from hstep]
  exact h

/-- The state in which a transfer has added no codeword to the count of corrected ones (R110). -/
def noneCorrected (s : State) : State := { s with cmb.ce := satAdd 32 s.cmb.ce 0 }

theorem readErrors_none (s : State) {e : PqEntry} (h : e.write = false) : readErrors s e 0 0 = noneCorrected s := by
  unfold readErrors
  rw [if_neg (ne_true_of_eq_false h), if_pos rfl]
  rfl

theorem scrubBack_clean (s : State) (q : Nat) (e : PqEntry) : scrubBack s q e 0 = onArb s q (writtenBack e) := by
  unfold scrubBack writtenBack
  by_cases h : e.id = 10
  · simp only [h, ne_eq, not_true_eq_false, if_false, or_true, if_true]
  · simp only [h, ne_eq, not_false_eq_true, if_true, if_false]
    exact (congrArg (fun v => { s with arb := v }) (vmod_id s.arb q)).symm

/-- A job that has made all its transfers is done, and any other goes on (R271). -/
def jobClosed (s : State) (q : Nat) (e : PqEntry) : State :=
  if (jobOf (arbAt s q) e.id).len ≠ 0 ∧ (jobOf (arbAt s q) e.id).len ≤ (jobOf (arbAt s q) e.id).done then jobDone s q e else s

theorem transferDone_reads {s : State} {q : Nat} {e : PqEntry} (howner : (arbAt s q).owner = some e) (hread : e.write = false)
    (hfetch : e.id ≠ 11) : transferDone s q 0 =
      jobClosed (onJob (scrubBack (readErrors (onArb s q phaseEnded) e 0 0) q e 0) q e.id jobStepped) q e := by
  unfold transferDone
  rw [howner]
  dsimp only [Nat.reduceMod, Nat.reduceDiv]
  rw [if_neg hfetch, hread, Bool.false_and, Bool.false_and, Bool.false_and, if_neg Bool.false_ne_true]
  rfl

/-- A read transfer without errors ends, with more of its job to do: nothing but the arbiter and the count of errors has been touched. -/
theorem transferDone_read {s : State} {q : Nat} {e : PqEntry} (hq : q < 4) (howner : (arbAt s q).owner = some e) (hread : e.write = false)
    (hid : e.id < 11) (hmore : (jobOf (arbAt s q) e.id).done + 1 < (jobOf (arbAt s q) e.id).len) :
    transferDone s q 0 = onArb (noneCorrected s) q (readEnded e) := by
  have hopen : (jobOf (arbAt s q) e.id).len ≠ 0 := by omega
  have hphase : scrubBack (readErrors (onArb s q phaseEnded) e 0 0) q e 0 =
      onArb (noneCorrected s) q (fun a => writtenBack e (phaseEnded a)) := by
    rw [readErrors_none _ hread, scrubBack_clean]
    exact onArb_onArb (noneCorrected s) q phaseEnded (writtenBack e)
  have hjob : onJob (onArb (noneCorrected s) q (fun a => writtenBack e (phaseEnded a))) q e.id jobStepped =
      onArb (noneCorrected s) q (readEnded e) := onArb_onArb _ q _ _
  have hafter : jobOf (arbAt (onArb (noneCorrected s) q (readEnded e)) q) e.id =
      { jobOf (arbAt s q) e.id with done := (jobOf (arbAt s q) e.id).done + 1 } := by
    rw [arbAt_onArb_same _ _ _ hq]
    exact readEnded_job hopen
  rw [transferDone_reads howner hread (Nat.ne_of_lt hid), hphase, hjob]
  refine if_neg fun hdone => absurd hdone.2 (Nat.not_le.mpr ?_)
  rw [hafter]
  exact hmore

/-- The grant that ends such a transfer with nothing in the queue (R271). -/
theorem portGrant_read {s : State} {q : Nat} {e : PqEntry} (hq : q < 4) (howner : (arbAt s q).owner = some e)
    (hempty : (arbAt s q).queue = []) (hread : e.write = false) (hid : e.id < 11)
    (hmore : (jobOf (arbAt s q) e.id).done + 1 < (jobOf (arbAt s q) e.id).len) :
    portGrant s q 0 = onArb (noneCorrected s) q (readEnded e) := by
  unfold portGrant
  rw [nextGrant_none hempty]
  exact transferDone_read hq howner hread hid hmore

/- The watchdog (R273, Table 11.4). -/

/-- What the outcome of a watchdog reset leaves of an arbiter: no data phase opens, no request enters, and the record of the reset
stands (R273). -/
structure ResetStands (a b : Arb) : Prop where
  owner : b.owner = a.owner
  queue : b.queue ⊆ a.queue
  wdog : b.wdog = a.wdog
  wdId : b.wdId = a.wdId
  wdProg : b.wdProg = a.wdProg

theorem ResetStands.same (a : Arb) : ResetStands a a := ⟨rfl, List.Subset.refl _, rfl, rfl, rfl⟩

theorem exec_portWatchdogExpiry {s : State} {q : Quad} (hruns : sliceRuns s q.val = true) :
    exec (.portWatchdogExpiry q) s = .next (portWatchdog s q.val) := congrArg _ (if_pos hruns)

theorem scrubAbandon_stands {q : Nat} (hq : q < 4) (s : State) : ResetStands (arbAt s q) (arbAt (scrubAbandon s q) q) := by
  unfold scrubAbandon
  rw [arbAt_onArb_same _ _ _ hq]
  exact ⟨rfl, List.filter_sublist.subset, rfl, rfl, rfl⟩

theorem ArbsKept.stands {s t : State} (h : ArbsKept s t) (q : Nat) :
    ResetStands (arbAt s q) (arbAt t q) ∧ s.hi.raised <:+ t.hi.raised := by
  obtain ⟨harb, hraised⟩ := h
  refine ⟨?_, hraised⟩
  unfold arbAt
  rw [harb]
  exact .same _

theorem watchdogOutcome_stands {q : Nat} (hq : q < 4) (s : State) {e : PqEntry} (he : e.id < 13) (n : Nat) :
    ResetStands (arbAt s q) (arbAt (watchdogOutcome s q e n) q) ∧ s.hi.raised <:+ (watchdogOutcome s q e n).hi.raised := by
  unfold watchdogOutcome
  split
  case isTrue hweights => exact (ArbsKept.of rfl rfl).stands q
  split
  case isTrue hstream =>
    split
    · exact (streamPoison_arbsKept s _ _).stands q
    · exact (ArbsKept.of rfl rfl).stands q
  split
  case isTrue hkeeper =>
    split
    · exact (fetchFail_arbsKept s).stands q
    · exact (ArbsKept.same s).stands q
  split
  case isTrue hpeer => exact (ArbsKept.of rfl rfl).stands q
  split
  case isTrue hscrub => exact ⟨scrubAbandon_stands hq s, List.suffix_rfl⟩
  split
  case isTrue hfill =>
    split
    · exact (ArbsKept.same s).stands q
    · split
      · exact (fetchFail_arbsKept s).stands q
      · exact (ArbsKept.of rfl rfl).stands q
  rw [if_neg (Nat.ne_of_lt he)]
  exact (ArbsKept.same s).stands q

/-- The watchdog has closed the data phase of e: the reset is counted and recorded, and the requests and the job of its requester are
gone (R273). -/
def phaseReset (e : PqEntry) (a : Arb) : Arb :=
  let n := (jobOf a e.id).resets + 1
  { a with
    owner := none, queue := a.queue.filter (fun x => x.id != e.id)
    jobs := a.jobs.putAt e.id ⟨0, 0, if 2 ≤ n then 0 else n⟩ ⟨0, 0, 0⟩
    wdog := satAdd 32 a.wdog 1, wdProg := (jobOf a e.id).done, wdId := e.id }

theorem portWatchdog_eq {s : State} {q : Nat} {e : PqEntry} (howner : (arbAt s q).owner = some e) :
    portWatchdog s q =
      watchdogOutcome (raise (onArb s q (phaseReset e)) 0x0B01 .major 0) q e ((jobOf (arbAt s q) e.id).resets + 1) := by
  unfold portWatchdog
  rw [howner]
  exact congrArg (fun w => watchdogOutcome (raise w 0x0B01 .major 0) q e ((jobOf (arbAt s q) e.id).resets + 1)) (onArb_congr (phaseReset e) rfl)

theorem portWatchdog_runs {s : State} {q : Quad} {e : PqEntry} (hruns : sliceRuns s q.val = true) (howner : (arbAt s q.val).owner = some e)
    (he : e.id < 13) :
    Runs (.portWatchdogExpiry q) s (fun u => (arbAt u q.val).owner = none ∧
      (arbAt u q.val).wdog = satAdd 32 (arbAt s q.val).wdog 1 ∧ (arbAt u q.val).wdId = e.id ∧
      (arbAt u q.val).wdProg = (jobOf (arbAt s q.val) e.id).done ∧ (∀ x ∈ (arbAt u q.val).queue, x.id ≠ e.id) ∧
      EventRaised s u 0x0B01 .major ∧ u.cmb.mem = s.cmb.mem) := by
  have hexec := exec_portWatchdogExpiry hruns
  have hmem := (portWatchdog_keeps s q.val).comb
  rw [portWatchdog_eq howner] at hexec hmem
  refine ⟨_, hexec, ?_⟩
  obtain ⟨event, hevent, hfields⟩ := raise_eventRaised (onArb s q.val (phaseReset e)) 0x0B01 .major 0
  have hcalm := raise_calm (onArb s q.val (phaseReset e)) 0x0B01 .major 0
  generalize raise (onArb s q.val (phaseReset e)) 0x0B01 .major 0 = w at *
  have hreset : arbAt w q.val = phaseReset e (arbAt s q.val) := by
    rw [← arbAt_onArb_same s _ (phaseReset e) q.isLt]
    unfold arbAt
    rw [hcalm.arb]
  obtain ⟨⟨howned, hqueue, hcount, hid, hprog⟩, hraised⟩ := watchdogOutcome_stands q.isLt w he ((jobOf (arbAt s q.val) e.id).resets + 1)
  rw [hreset] at howned hqueue hcount hid hprog
  refine ⟨howned, hcount, hid, hprog, fun x hx => ?queue, ⟨event, hraised.subset hevent, hfields⟩, hmem⟩
  case queue =>
    obtain ⟨-, hleft⟩ := List.mem_filter.mp (hqueue hx)
    exact bne_iff_ne.mp hleft

/-- Settles O49: a request by portRequest_eq, the grants by portGrant_idle and portGrant_read, and the watchdog by portWatchdog_runs. -/
theorem combPortArbitration : Obligations.CombPortArbitration := by
  intro s q hruns
  refine ⟨fun id page len hpage hlen hwork hnone hfill htime => ?request, fun errs e hidle hnext => ?grant,
    fun e howner hempty hread hid => ?read, fun e howner he => portWatchdog_runs hruns howner he⟩
  case request =>
    intro a e
    refine ⟨_, exec_sidePortRequest hruns hpage hlen hwork hnone hfill htime, ?_⟩
    rw [portRequest_eq]
    have hopen : (jobBegun len (jobOf a id.val)).len ≠ 0 := by
      rw [jobBegun_len]
      split
      · omega
      · assumption
    refine ⟨rfl, fun k hk => arbAt_onArb_other _ _ _ _ (Ne.symm hk), ?_, ?_⟩
    · rw [arbAt_onArb_same _ _ _ q.isLt, requestMet_jobOf, jobOf_withJob hopen, jobBegun_len]
    · rw [arbAt_onArb_same _ _ _ q.isLt]
      exact requestMet_queue e (withJob id.val (jobBegun len) a)
  case grant => rw [exec_sidePortGrant hruns, portGrant_idle hidle hnext]; rfl
  case read =>
    intro j hmore
    have hexec := exec_sidePortGrant hruns 0
    rw [portGrant_read q.isLt howner hempty hread hid hmore] at hexec
    refine ⟨_, hexec, ?_, ?_, rfl, rfl⟩
    · rw [arbAt_onArb_same _ _ _ q.isLt]
      rfl
    · rw [arbAt_onArb_same _ _ _ q.isLt]
      exact readEnded_job (Nat.ne_of_gt (Nat.lt_of_le_of_lt (Nat.zero_le _) hmore))

end Sys2Proof.Machine
end

section
/-! PROOFS. What every step keeps: a command of the queue runs by exec, the journal stays sound (R367, R368), and the TAP belongs to the
JTAG commands (R448). -/

namespace Sys2Proof.Machine

open Sys2Proof

theorem step_front {c : Instr} {rest : List Instr} {s : State} (h : s.pending = c :: rest) : step s = exec c { s with pending := rest } := by
  unfold step
  rw [h]

/-- Settles O1: step is exec of the command in front on the state with the rest of the queue. -/
theorem stepRunsFront : Obligations.StepRunsFront := fun _ _ _ => step_front

/- The journal. -/

theorem exec_journalOk {c : Instr} {s t : State} (hs : JournalOk s) (h : exec c s = .next t) : JournalOk t := by
  cases hc : isJtag c with
  | false =>
    obtain ⟨u, hu, hsound⟩ := exec_sound c s hc
    obtain rfl : u = t := Host.Outcome.next.inj (hu.symm.trans h)
    exact hsound.journal hs
  | true =>
    obtain ⟨j, hj⟩ := exec_jtag c s hc
    obtain rfl := Host.Outcome.next.inj (hj.symm.trans h)
    exact hs

theorem tick_journalOk {s : State} (hs : JournalOk s) : JournalOk (tick s) := by
  obtain ⟨r, n, h⟩ := tick_bootStep s
  rw [h]
  exact hs

/-- Settles O6: an idle step moves the readiness state only, and exec keeps the journal sound (exec_sound, exec_jtag). -/
theorem journalStaysSound : Obligations.JournalStaysSound := by
  intro s t hs h
  cases hq : s.pending with
  | nil =>
    obtain rfl := Host.Outcome.next.inj ((step_idle s hq).symm.trans h)
    exact tick_journalOk hs
  | cons c rest => exact exec_journalOk (s := { s with pending := rest }) hs ((step_front hq).symm.trans h)

/- The TAP. -/

theorem tapLoad_powered {s : State} (f : Jtag → Jtag) (h : s.pwr.on = true) :
    tapLoad s f = { s with jtag := { f s.jtag with inReset := false } } :=
  if_pos h

/-- Settles O7: exec_jtag gives what a JTAG command changes, exec_sound that no other one changes the TAP, tapLoad_powered the rows. -/
theorem tapAlone : Obligations.TapAlone := by
  refine ⟨fun c s t hc h => ?jtag, fun c s t hc h => ?others, fun s => rfl, fun s hon => ?rows⟩
  case jtag =>
    obtain ⟨j, hj⟩ := exec_jtag c s hc
    obtain rfl := Host.Outcome.next.inj (hj.symm.trans h)
    rfl
  case others =>
    obtain ⟨u, hu, hsound⟩ := exec_sound c s hc
    obtain rfl : u = t := Host.Outcome.next.inj (hu.symm.trans h)
    exact hsound.jtag
  case rows =>
    have load (f : Jtag → Jtag) : Host.Outcome.next (tapLoad s f) =
        (.next { s with jtag := { f s.jtag with inReset := false } } : Host.Outcome State Fault Refusal) :=
      congrArg _ (tapLoad_powered f hon)
    exact ⟨load _, load _, load _, load _, load _, fun _ _ => load _⟩

end Sys2Proof.Machine
end

section
/-! PROOFS. The rings and the vectors as the host sets them up (R4, R41, R328, R329, R331, R333), and the flushes of the Inflow queue
(R319). -/

namespace Sys2Proof.Machine

open Sys2Proof

/- What the delivery of records leaves of the rings. -/

/-- Records of the backlog have been written to the completion ring; nothing else has changed. -/
structure Drained (s t : State) : Prop where
  frame : t = { s with hi := { s.hi with
    backlog := t.hi.backlog, backlogCnt := t.hi.backlogCnt, hostMem := t.hi.hostMem
    cpr := { s.hi.cpr with tail := t.hi.cpr.tail, phase := t.hi.cpr.phase, fresh := t.hi.cpr.fresh } } }

theorem Drained.trans {s t u : State} (h : Drained s t) (k : Drained t u) : Drained s u := ⟨by rw [k.frame, h.frame]⟩

theorem cprPut_drained (s : State) (c : Completion) : Drained s (cprPut s c) := by
  unfold cprPut hostMemWrite
  generalize s.hi.hostMem.putRun _ _ _ = m
  unfold Ring.advance
  exact ⟨rfl⟩

theorem drainBacklog_drained (n : Nat) (s : State) : Drained s (drainBacklog n s) := by
  induction n generalizing s with
  | zero => exact ⟨rfl⟩
  | succ n ih =>
    unfold drainBacklog
    split
    · exact ⟨rfl⟩
    · next c r _ =>
      have hless : Drained s (setBacklog s r) := ⟨rfl⟩
      split
      · exact (hless.trans (cprPut_drained _ c)).trans (ih _)
      · exact ⟨rfl⟩

/-- The delivery of what waits keeps SIZE and the count of access faults. -/
theorem ringRoom_kept (s : State) (c : Bool) :
    (ringAt (ringRoom s c) c).size = (ringAt s c).size ∧ (ringRoom s c).hi.accessErr = s.hi.accessErr := by
  cases c with
  | true =>
    have h : Drained s (ringRoom s true) := drainBacklog_drained _ s
    rw [h.frame]
    exact ⟨rfl, rfl⟩
  | false =>
    have h : HiEvents s.hi (ringRoom s false).hi := ((bootqDeliver_calm s).trans (evrOverflow_calm _)).hi
    unfold HiEvents at h
    rw [show ringAt (ringRoom s false) false = (ringRoom s false).hi.evr from rfl, h]
    exact ⟨rfl, rfl⟩

@[simp] theorem ringAt_onRing (s : State) (c : Bool) (f : Ring → Ring) : ringAt (onRing s c f) c = f (ringAt s c) := by
  cases c with
  | true => rfl
  | false => rfl

@[simp] theorem ringAt_accessErr (s : State) (c : Bool) : ringAt (accessErr s) c = ringAt s c := by
  cases c with
  | true => rfl
  | false => rfl

@[simp] theorem onRing_accessErr (s : State) (c : Bool) (f : Ring → Ring) : (onRing s c f).hi.accessErr = s.hi.accessErr := by
  cases c with
  | true => rfl
  | false => rfl

/-- A change of a ring is the change of the ring that stands there. -/
theorem onRing_congr {s : State} {c : Bool} {f g : Ring → Ring} (h : f (ringAt s c) = g (ringAt s c)) : onRing s c f = onRing s c g := by
  cases c with
  | true => exact congrArg (fun r => { s with hi.cpr := r }) h
  | false => exact congrArg (fun r => { s with hi.evr := r }) h

/- CFG (R329, R333). -/

/-- The SIZE of a CFG word is one that the ring does not take. -/
abbrev SizeIgnored (r : Ring) (cfg : Word) : Prop :=
  cfg.toNat % 32 < 6 ∨ 16 < cfg.toNat % 32 ∨ (r.enable = true ∧ cfg.toNat % 32 ≠ r.size)

/-- A ring after a CFG word has been written to it: bad where its SIZE is not taken. -/
def configured (c bad : Bool) (cfg : Word) (r : Ring) : Ring :=
  let x := { r with size := if bad then r.size else cfg.toNat % 32, minSev := if c then 0 else cfg.toNat / 256 % 4, enable := cfg.getLsbD 31 }
  if cfg.getLsbD 31 && !r.enable then { x with head := 0, tail := 0, phase := true } else x

theorem configured_size_ignored (c : Bool) (cfg : Word) (r : Ring) : (configured c true cfg r).size = r.size := by
  unfold configured
  dsimp only
  split
  · rfl
  · rfl

theorem ringCfgWrite_eq (s : State) (c : Bool) (cfg : Word) : ringCfgWrite s c cfg =
    ringRoom (onRing (if SizeIgnored (ringAt s c) cfg then accessErr s else s) c
      (configured c (decide (SizeIgnored (ringAt s c) cfg)) cfg)) c := by
  have hsize : fieldOf cfg 0 5 = cfg.toNat % 32 := by simp [fieldOf]
  have hsev : fieldOf cfg 8 2 = cfg.toNat / 256 % 4 := rfl
  have hbad : (decide (fieldOf cfg 0 5 < 6) || decide (16 < fieldOf cfg 0 5) || ((ringAt s c).enable && fieldOf cfg 0 5 != (ringAt s c).size)) =
      decide (SizeIgnored (ringAt s c) cfg) := by
    rw [hsize, Bool.eq_iff_iff]
    simp [or_assoc]
  unfold ringCfgWrite
  dsimp only
  rw [hbad]
  simp only [decide_eq_true_eq]
  congr 1
  refine onRing_congr ?_
  have hring : ringAt (if SizeIgnored (ringAt s c) cfg then accessErr s else s) c = ringAt s c := by
    split
    · exact ringAt_accessErr s c
    · rfl
  rw [hring, hsize, hsev]
  unfold configured bitOf
  simp only [decide_eq_true_eq]

/-- A CFG write that enables a ring starts it empty (R329). -/
theorem ringCfgWrite_enables {s : State} {c : Bool} {cfg : Word} (hoff : (ringAt s c).enable = false) (hen : cfg.getLsbD 31 = true)
    (hlow : 6 ≤ cfg.toNat % 32) (hhigh : cfg.toNat % 32 ≤ 16) :
    ringCfgWrite s c cfg = ringRoom (onRing s c (fun r => { r with
      size := cfg.toNat % 32, minSev := if c then 0 else cfg.toNat / 256 % 4, enable := true, head := 0, tail := 0, phase := true })) c := by
  have htaken : ¬ SizeIgnored (ringAt s c) cfg := by
    rw [SizeIgnored, hoff]
    simp [hlow, hhigh]
  rw [ringCfgWrite_eq, if_neg htaken, decide_eq_false htaken]
  refine congrArg (ringRoom · c) (onRing_congr ?_)
  simp [configured, hoff, hen]

/-- A CFG write whose SIZE is ignored keeps SIZE and is counted (R333). -/
theorem ringCfgWrite_ignored {s : State} {c : Bool} {cfg : Word} (h : SizeIgnored (ringAt s c) cfg) :
    (ringAt (ringCfgWrite s c cfg) c).size = (ringAt s c).size ∧ (ringCfgWrite s c cfg).hi.accessErr = satAdd 32 s.hi.accessErr 1 := by
  rw [ringCfgWrite_eq, if_pos h, decide_eq_true h]
  obtain ⟨hsize, hcount⟩ := ringRoom_kept (onRing (accessErr s) c (configured c true cfg)) c
  rw [hsize, hcount, ringAt_onRing, configured_size_ignored, ringAt_accessErr, onRing_accessErr]
  exact ⟨rfl, rfl⟩

/-- An ignored SIZE for a ring that stays enabled leaves MIN_SEV of the write in force (R333, log 60). -/
theorem ringCfgWrite_ignored_enabled {s : State} {c : Bool} {cfg : Word} (h : SizeIgnored (ringAt s c) cfg)
    (hon : (ringAt s c).enable = true) (hen : cfg.getLsbD 31 = true) :
    ringCfgWrite s c cfg = ringRoom (onRing (accessErr s) c (fun r => { r with minSev := if c then 0 else cfg.toNat / 256 % 4 })) c := by
  rw [ringCfgWrite_eq, if_pos h, decide_eq_true h]
  refine congrArg (ringRoom · c) (onRing_congr ?_)
  rw [ringAt_accessErr]
  simp [configured, hon, hen]

/- BASE and HEAD (R333). -/

theorem exec_ringSetupWrite_base {s : State} (c : Bool) (lo : Word) (h : hostUp s = true) :
    exec (.ringSetupWrite c 0 lo) s = .next (ringBaseWrite s c lo.toNat) := by
  cases c with
  | true => exact congrArg _ ((if_pos h).trans rfl)
  | false => exact congrArg _ ((if_pos h).trans rfl)

theorem exec_ringSetupWrite_cfg {s : State} (c : Bool) (cfg : Word) (h : hostUp s = true) :
    exec (.ringSetupWrite c 2 cfg) s = .next (ringCfgWrite s c cfg) := by
  cases c with
  | true => exact congrArg _ ((if_pos h).trans (hostWrite32_single cfg 0#32 rfl (by decide) (by decide)))
  | false => exact congrArg _ ((if_pos h).trans (hostWrite32_single cfg 0#32 rfl (by decide) (by decide)))

theorem exec_ringEnable {s : State} (c : Bool) (cfg : Word) (h : hostUp s = true) :
    exec (.ringEnable c cfg) s = .next (ringCfgWrite s c cfg) :=
  congrArg _ (if_pos h)

theorem exec_ringHeadWrite {s : State} (c : Bool) (v : Word) (h : hostUp s = true) :
    exec (.ringHeadWrite c v) s = .next (ringHeadWrite s c v.toNat) :=
  congrArg _ (if_pos h)

/-- The register of a ring's BASE. -/
abbrev baseOff (c : Bool) : Nat := if c then 0x10060 else 0x10040

/-- A state in which the hold and the latch of a BASE register have been taken. -/
def baseTaken (s : State) (c : Bool) : State := dropLatch { s with hi.held := s.hi.held.eraseAt (baseOff c) } (baseOff c)

theorem ringBaseWrite_taken {s : State} {c : Bool} {lo hi : Nat} (hheld : s.hi.held.find (baseOff c) = some hi)
    (hoff : (ringAt s c).enable = false) (halign : (hi * 2 ^ 32 + lo) % (64 * (ringAt s c).count) = 0) :
    ringBaseWrite s c lo = onRing (baseTaken s c) c (fun r => { r with base := hi * 2 ^ 32 + lo }) := by
  unfold ringBaseWrite
  dsimp only
  rw [hheld, Option.getD_some, if_neg (not_or.mpr ⟨by rw [hoff]; decide, not_not_intro halign⟩)]
  rfl

theorem ringBaseWrite_ignored {s : State} {c : Bool} {lo hi : Nat} (hhigh : (s.hi.held.find (baseOff c)).getD ((ringAt s c).base / 2 ^ 32) = hi)
    (h : (ringAt s c).enable = true ∨ (hi * 2 ^ 32 + lo) % (64 * (ringAt s c).count) ≠ 0) :
    ringBaseWrite s c lo = accessErr (baseTaken s c) := by
  unfold ringBaseWrite
  dsimp only
  rw [hhigh, if_pos h]
  rfl

theorem onRing_held_latch (s : State) (c : Bool) (f : Ring → Ring) :
    (onRing s c f).hi.held = s.hi.held ∧ (onRing s c f).hi.latch = s.hi.latch := by
  cases c with
  | true => exact ⟨rfl, rfl⟩
  | false => exact ⟨rfl, rfl⟩

theorem ringAt_baseTaken (s : State) (c : Bool) : ringAt (baseTaken s c) c = ringAt s c := by
  cases c with
  | true => rfl
  | false => rfl

/- The masks of the vectors (R331). -/

/-- A vector is suppressed while the function answers: by HI_INTMASK, or by its mask in the MSI-X table. -/
def suppressed (s : State) (v : Nat) : Bool := decide (s.hi.intMask / 2 ^ v % 2 = 1) || vget s.hi.msixMask v true

/-- The pending vectors, and those signalled, have changed alone. -/
structure OnlyVectors (s t : State) : Prop where
  frame : t = { s with hi.signals := t.hi.signals, hi.msixPend := t.hi.msixPend }

theorem OnlyVectors.trans {s t u : State} (h : OnlyVectors s t) (k : OnlyVectors t u) : OnlyVectors s u :=
  ⟨by rw [k.frame, h.frame]⟩

theorem OnlyVectors.suppressed {s t : State} (h : OnlyVectors s t) (v : Nat) : suppressed t v = suppressed s v := by
  rw [h.frame]
  rfl

theorem OnlyVectors.hostUp {s t : State} (h : OnlyVectors s t) : hostUp t = hostUp s := by
  rw [h.frame]
  rfl

/-- A pending vector is signalled unless it is suppressed. -/
def signalDue (s : State) (v : Nat) : State := if vget s.hi.msixPend v false = true then signal s v else s

theorem signalPending_eq (s : State) : signalPending s = [0, 1, 2, 3].foldl signalDue s := rfl

theorem vget_vput {α : Type} {n : Nat} (v : Vector α n) {i k : Nat} (x d : α) (hi : i < n) :
    vget (vput v i x) k d = if k = i then x else vget v k d := by
  by_cases h : i = k
  · rw [if_pos h.symm, ← h]
    exact vget_vput_same v x d hi
  · rw [if_neg (Ne.symm h)]
    exact vget_vmod_other v i k _ d h

theorem signalDue_vectors {s : State} (hup : hostUp s = true) {v : Nat} (hv : v < 64) (k : Nat) :
    OnlyVectors s (signalDue s v) ∧ vget (signalDue s v).hi.msixPend k false =
      if k = v then vget s.hi.msixPend v false && suppressed s v else vget s.hi.msixPend k false := by
  unfold signalDue
  by_cases hp : vget s.hi.msixPend v false = true
  · have hmask : (s.hi.intMask / 2 ^ v % 2 = 1 ∨ vget s.hi.msixMask v true = true ∨ hostUp s = false) ↔ suppressed s v = true := by
      simp [suppressed, hup]
    rw [if_pos hp, signal]
    by_cases hm : suppressed s v = true
    · rw [if_pos (hmask.mpr hm)]
      exact ⟨⟨rfl⟩, by simp only [vget_vput _ _ _ hv, hp, hm, Bool.and_self]⟩
    · rw [if_neg (fun h => hm (hmask.mp h))]
      exact ⟨⟨rfl⟩, by simp only [vget_vput _ _ _ hv, hp, hm, Bool.true_and]⟩
  · rw [if_neg hp]
    refine ⟨⟨rfl⟩, ?_⟩
    split
    · next h => rw [h]; simp [hp]
    · rfl

/-- After each vector of a list has been looked at, one of the list is pending where it was and is suppressed. -/
theorem signalDues_vectors (l : List Nat) (hl : ∀ v ∈ l, v < 64) {s : State} (hup : hostUp s = true) (k : Nat) :
    OnlyVectors s (l.foldl signalDue s) ∧ vget (l.foldl signalDue s).hi.msixPend k false =
      (vget s.hi.msixPend k false && (!l.contains k || suppressed s k)) := by
  induction l generalizing s with
  | nil => exact ⟨⟨rfl⟩, by simp⟩
  | cons v r ih =>
    obtain ⟨hfirst, hpend⟩ := signalDue_vectors hup (hl v (List.mem_cons_self ..)) k
    obtain ⟨hrest, hlast⟩ := ih (fun w hw => hl w (List.mem_cons_of_mem _ hw)) (hfirst.hostUp.trans hup)
    refine ⟨hfirst.trans hrest, ?_⟩
    rw [List.foldl_cons, hlast, hpend, hfirst.suppressed]
    by_cases hk : k = v
    · subst hk
      cases vget s.hi.msixPend k false <;> cases suppressed s k <;> simp
    · simp [hk]

theorem intmaskWrite_vectors {s : State} (v : Word) (hup : hostUp s = true) (k : Nat) :
    OnlyVectors { s with hi.intMask := v.toNat % 16 } (intmaskWrite s v) ∧ (k < 4 →
      vget (intmaskWrite s v).hi.msixPend k false =
        (vget s.hi.msixPend k false && (decide (v.toNat / 2 ^ k % 2 = 1) || vget s.hi.msixMask k true))) := by
  have hfield : fieldOf v 0 4 = v.toNat % 16 := by simp [fieldOf]
  have h := signalDues_vectors [0, 1, 2, 3] (by decide) (s := { s with hi.intMask := v.toNat % 16 }) hup k
  rw [intmaskWrite, signalPending_eq, hfield]
  refine ⟨h.1, fun hk => ?_⟩
  have hin : [0, 1, 2, 3].contains k = true := by
    simp only [List.contains_eq_mem, decide_eq_true_eq, List.mem_cons, List.not_mem_nil, or_false]
    omega
  have hbit : v.toNat % 16 / 2 ^ k % 2 = v.toNat / 2 ^ k % 2 := by
    rcases (show k = 0 ∨ k = 1 ∨ k = 2 ∨ k = 3 by omega) with rfl | rfl | rfl | rfl <;> omega
  rw [h.2, hin, suppressed, hbit]
  rfl

/-- Settles O12: a CFG, a BASE, a HEAD and a mask that are taken, each by its own lemma. -/
theorem ringAndMaskSetupByTheHost : Obligations.RingAndMaskSetupByTheHost := by
  refine fun s hup => ⟨fun c => ⟨fun cfg hoff hen hlow hhigh => ?cfg, fun lo hi hheld hoff halign => ?base, fun v hin hpath => ?head⟩,
    fun v => ?mask⟩
  case cfg => rw [exec_ringEnable c cfg hup, ringCfgWrite_enables hoff hen hlow hhigh]
  case base =>
    refine ⟨_, (exec_ringSetupWrite_base c lo hup).trans (congrArg _ (ringBaseWrite_taken hheld hoff halign)), ?_, ?_⟩
    · rw [ringAt_onRing]
    · obtain ⟨hh, hl⟩ := onRing_held_latch (baseTaken s c) c (fun r => { r with base := hi * 2 ^ 32 + lo.toNat })
      rw [hh, hl]
      rfl
  case head =>
    rw [exec_ringHeadWrite c v hup, ringHeadWrite, if_neg (not_or.mpr ⟨Nat.not_le.mpr hin, Nat.not_lt.mpr hpath⟩)]
  case mask =>
    refine ⟨intmaskWrite s v, congrArg _ (if_pos hup), ?_, ?_, fun k hk => ?_⟩
    · rw [(intmaskWrite_vectors v hup 0).1.frame]
    · rw [(intmaskWrite_vectors v hup 0).1.frame]
    · rw [(intmaskWrite_vectors v hup k).2 hk]
      exact ⟨fun ⟨hbit, hmask⟩ => by simp [hbit, hmask], fun h => by simp [h]⟩

/-- Settles O13: a CFG, a BASE and a HEAD that are ignored, each by its own lemma. -/
theorem ignoredRingWritesCount : Obligations.IgnoredRingWritesCount := by
  refine fun s c hup => ⟨fun cfg hbad => ⟨⟨_, exec_ringSetupWrite_cfg c cfg hup, ringCfgWrite_ignored hbad⟩,
    ⟨_, exec_ringEnable c cfg hup, ringCfgWrite_ignored hbad⟩, fun hon hen => ?enabled⟩, fun lo hi hhigh hbad => ?base, fun v hbad => ?head⟩
  case enabled => rw [exec_ringSetupWrite_cfg c cfg hup, ringCfgWrite_ignored_enabled hbad hon hen]
  case base => exact ⟨_, (exec_ringSetupWrite_base c lo hup).trans (congrArg _ (ringBaseWrite_ignored hhigh hbad)), rfl⟩
  case head => rw [exec_ringHeadWrite c v hup, ringHeadWrite, if_pos hbad]

/- The flushes of the Inflow queue (R319). -/

theorem exec_flushNow {s : State} (h : hostUp s = true) : exec .flushNow s = .next (flushQueue s) := congrArg _ (if_pos h)

theorem exec_flushPkt {s : State} (h : hostUp s = true) : exec .flushPkt s = .next (flushDue { s with hi.flushPend := true }) :=
  congrArg _ (if_pos h)

theorem exec_flushPktComplete {s : State} (h : alive s = true) : exec .flushPktComplete s = .next (flushDue s) := congrArg _ (if_pos h)

theorem hostUp_alive {s : State} (h : hostUp s = true) : alive s = true := by
  simp only [hostUp, Bool.and_eq_true] at h
  exact h.1.1.1.1.1

/-- A flush where no packet is open counts the packets that end in the queue. -/
theorem flushQueue_whole {s : State} (h : packetOpen s = false) : flushQueue s = { s with
    hi.flushed := satAdd 32 s.hi.flushed (inflowPkts s), hi.queue := [], hi.packer := [], hi.flushPend := false, hi.discarding := false } := by
  unfold flushQueue
  rw [h]
  rfl

theorem flushDue_waits {s : State} (h : packetOpen s = true) : flushDue s = s := if_neg (by simp [h])

theorem flushDue_flushes {s : State} (h : packetOpen s = false) (hp : s.hi.flushPend = true) : flushDue s = flushQueue s :=
  if_pos (by simp [h, hp])

/-- Settles O14: each flush is flushQueue or a wait (flushDue). -/
theorem inflowFlushes : Obligations.InflowFlushes := by
  refine fun s hup => ⟨exec_flushNow hup, fun hopen => ?waits, fun hwhole => ?flushes, fun hwhole hpend => ?ends, fun hopen => ?stays⟩
  case waits => rw [exec_flushPkt hup, flushDue_waits (s := { s with hi.flushPend := true }) hopen]
  case flushes =>
    rw [exec_flushPkt hup, flushDue_flushes (s := { s with hi.flushPend := true }) hwhole rfl,
      flushQueue_whole (s := { s with hi.flushPend := true }) hwhole]
    rfl
  case ends => rw [exec_flushPktComplete (hostUp_alive hup), flushDue_flushes hwhole hpend, flushQueue_whole hwhole]
  case stays => rw [exec_flushPktComplete (hostUp_alive hup), flushDue_waits hopen]

end Sys2Proof.Machine
end

section
/-! PROOFS. The backlog of completions and its count (R328, Table 13.10): a record that leaves the backlog changes HI_CPR_BACKLOG too. -/

namespace Sys2Proof.Machine

open Sys2Proof

theorem exec_completionBacklogDrain_one {s : State} {c : Completion} (ha : alive s = true) (hone : s.hi.backlog = [c])
    (hopen : cprOpen s = true) : exec .completionBacklogDrain s = .next (cprPut (setBacklog s []) c) := by
  refine congrArg _ ((if_pos ha).trans ?_)
  simp [drainBacklog, hone, hopen]

/-- A completion that waits. -/
def waitingCompletion : Completion :=
  { status := 0, agent := 1, admitted := true, cause := 0, tag := 0, planId := 0, n := 0, admitBeat := 0, doneBeat := 0 }

/-- The function answers with Bus Master Enable set, the completion ring is enabled and empty, and one completion waits, which
HI_CPR_BACKLOG counts. -/
def backlogOfOne : State :=
  { State.reset with
    pwr := { State.reset.pwr with on := true, stopped := false, hif := true }
    hi := { State.reset.hi with
      link := true, perst := false, cfgReady := true, d3hot := false, bme := true
      cpr := { State.reset.hi.cpr with enable := true }
      backlog := [waitingCompletion], backlogCnt := 1 } }

/-- Refutes O54: from backlogOfOne the drain empties the backlog and takes HI_CPR_BACKLOG from 1 to 0 (setBacklog), where the
statement's frame keeps that count. -/
theorem not_inflowAndRings : ¬ Obligations.InflowAndRings := by
  intro h
  have hdrains := (h backlogOfOne).2.2 rfl
  obtain ⟨t, ht, hframe, -⟩ := hdrains.2.1 waitingCompletion rfl rfl
  obtain rfl := Host.Outcome.next.inj ((exec_completionBacklogDrain_one rfl rfl rfl).symm.trans ht)
  have hcount : (0 : Nat) = 1 := congrArg (fun u : State => u.hi.backlogCnt) hframe
  exact absurd hcount (by decide)

end Sys2Proof.Machine
end

section
/-! PROOFS. Graftable commands sent alone (R356 to R358): with nothing staged the projected state is the state itself, so what a
command checks there decides its answer. -/

namespace Sys2Proof.Machine

open Sys2Proof

/- Nothing staged. -/

theorem pendingDues_none {s : State} (h : s.gr.staged = []) : pendingDues s = [] := by
  unfold pendingDues
  rw [h]
  rfl

theorem projected_none {s : State} (h : s.gr.staged = []) (upto : Option Nat) : projected s upto = s := by
  unfold projected
  rw [pendingDues_none h]
  rfl

theorem pendingKeys_none {s : State} (h : s.gr.staged = []) : pendingKeys s = [] := by
  unfold pendingKeys
  rw [pendingDues_none h]
  rfl

/- The judgement and the answer (R356). -/

/-- The edge of a graftable command: its target beat, or the edge two after that of its round. -/
abbrev edgeOf (s : State) (op : Nat) (p : List Byte) : Nat := if targetOf op p = 0 then s.wg.round + 2 else targetOf op p

theorem StageReady.judgeAlone {s : State} {op m : Nat} {p : List Byte} (h : StageReady s op m p) : judgeAlone s op p =
    if checkState s op p false = stOk then (stStaged, edgeOf s op p) else (checkState s op p false, 0) := by
  have hahead : targetAhead s op (targetOf op p) = true := by
    rcases h.target with ht | ht
    · simp [targetAhead, ht]
    · by_cases hop : op = 0x610 <;> simp_all [targetAhead]
  have hfree : (cmdKeys op p).any (fun k => (pendingKeys s).contains k) = false := by
    rw [pendingKeys_none h.clear]
    simp
  unfold Machine.judgeAlone
  dsimp only
  rw [if_neg (not_not_intro h.shape), hahead, hfree, if_neg (by decide), projected_none h.clear]

/-- What a graftable command leaves staged (R356). -/
theorem StageReady.stageOne {s : State} {op m : Nat} {p : List Byte} (h : StageReady s op m p) (edge : Nat) : stageOne s op p edge =
    { s with gr.staged := [
      { seq := s.wg.curSeq, source := m, cls := (classOf op).getD .operational, alone := true, target := edge, waitLimit := 10000,
        phases := [{ first := 0, members := [{ op := op, payload := p, group := 0 }], waits := false, off := 0 }],
        total := 1, next := 0, shift := 0, count := 1 }] } := by
  unfold Machine.stageOne
  rw [h.clear, h.at'.cur]
  rfl

theorem StageReady.stagedAt {s : State} {op m : Nat} {p : List Byte} (h : StageReady s op m p) (hok : checkState s op p false = stOk) :
    StagedAt s op m p (stageCmd s op p) := by
  unfold stageCmd
  dsimp only
  rw [h.judgeAlone, if_pos hok, if_pos rfl, h.stageOne]
  exact h.at'.answered (by rfl) _ _ _

/-- A graftable command whose check passes is staged. -/
theorem StageReady.staged {s : State} {op m : Nat} {p : List Byte} {c : Instr} (h : StageReady s op m p)
    (hok : checkState s op p false = stOk) (hexec : exec c s = .next (stageCmd s op p)) : Runs c s (StagedAt s op m p) :=
  ⟨_, hexec, h.stagedAt hok⟩

/-- A graftable command whose check fails with a status is answered with it, and stages nothing. -/
theorem StageReady.refused {s : State} {op m st : Nat} {p : List Byte} {c : Instr} (h : StageReady s op m p)
    (hst : checkState s op p false = st) (hbad : st ≠ stOk) (hnot : st ≠ stStaged) (hexec : exec c s = .next (stageCmd s op p)) :
    Runs c s (Answered s m st []) := by
  refine ⟨_, hexec, ?_⟩
  unfold stageCmd
  dsimp only
  rw [h.judgeAlone, hst, if_neg hbad, if_neg hnot]
  exact h.at'.answered rfl _ _ _

/-- The row of an action byte takes its own action. -/
theorem AtCommand.action {s : State} {op m at' act : Nat} {p : List Byte} (h : AtCommand s op m p) (hact : leAt p at' 1 = act)
    (max : Nat) (f : List Byte → State) : onAction s op at' act max f = f p :=
  (h.runs _).trans (if_pos (.inl hact))

/- What each command checks. -/

theorem checkState_planActivate {s : State} {p : List Byte} {k : Nat} (hk : ctxOf s (leAt p 0 8) = some k)
    (hst : (ctxAt s k).st = .standby) : checkState s 0x102 p false = stOk := by
  simp [checkState, hk, hst]

theorem checkState_planDeactivate {s : State} {p : List Byte} {k : Nat} (hk : ctxOf s (leAt p 0 8) = some k)
    (hst : (ctxAt s k).st = .installed) : checkState s 0x103 p false = stOk := by
  simp [checkState, hk, hst]

theorem checkState_planSwap {s : State} {p : List Byte} {k : Nat} {ph : ReplPhase} {r : List ReplPhase}
    (hk : ctxOf s (leAt p 0 8) = some k) (hph : (ctxAt s k).phases = ph :: r) (hready : ph.ready = true) :
    checkState s 0x106 p false = stOk := by
  simp [checkState, hk, hph, hready]

theorem checkState_xmShare {s : State} {p : List Byte} (h : (quotasOf p).sum ≤ 1024) : checkState s 0x510 p false = stOk := by
  simp [checkState, h]

theorem checkState_refSelect {s : State} {p : List Byte} (hvalid : refValid s (refOfByte (leAt p 0 1)) = true)
    (hother : s.syn.refSel ≠ refOfByte (leAt p 0 1)) : checkState s 0x602 p false = stOk := by
  simp [checkState, hvalid, hother]

theorem checkState_hiveRoster {s : State} {p : List Byte} (h : rosterOk s p = true) : checkState s 0x603 p false = stOk := by
  simp [checkState, h]

theorem checkState_hiveKeySwitch {s : State} {p : List Byte} (h : keyInstalled (keyAhead s) = true) : checkState s 0x605 p false = stOk := by
  simp [checkState, h]

theorem checkState_pwrTolerance {s : State} {p : List Byte} {k : Nat} (h : leAt p 0 8 = 0 ∨ ctxOf s (leAt p 0 8) = some k) :
    checkState s 0x701 p false = stOk := by
  rcases h with h | h
  · simp [checkState, h]
  · simp [checkState, h]

/-- SYN_HOLD checks only that a release finds a hold (R86). -/
theorem checkState_synHold (s : State) (p : List Byte) :
    checkState s 0x202 p false = if leAt p 0 1 = 0 ∧ s.syn.hold = .none then stIncons else stOk := by
  simp [checkState]

/-- STREAM_CTL on a stream of a loaded plan checks that it has not ended, and that a resume finds it paused (R225, R231). -/
theorem checkState_streamCtl {s : State} {p : List Byte} {k : Nat} (hk : ctxOf s (leAt p 0 8) = some k)
    (hi : leAt p 16 1 < (ctxAt s k).rcsCount) : checkState s 0x110 p false =
      if (streamAt s ((ctxAt s k).rcsBase + leAt p 16 1)).st = .ended ∨
          (leAt p 17 1 = 1 ∧ (streamAt s ((ctxAt s k).rcsBase + leAt p 16 1)).st ≠ .paused) then stIncons else stOk := by
  simp [checkState, hk, Nat.not_le.mpr hi]

/-- Keeper's judgement of the references leaves a command ready to be staged (log 128). -/
theorem StageReady.checkRefs {s : State} {op m : Nat} {p : List Byte} (h : StageReady s op m p) : StageReady (checkRefs s) op m p :=
  ⟨⟨h.at'.cur, h.at'.mbox, h.at'.op, h.at'.pay, h.at'.wait, h.at'.on, h.at'.keeper, h.at'.order, h.at'.kept, h.at'.next⟩, h.shape,
    h.target, h.clear⟩

/-- Settles O22: each command's check passes on the state, so it is staged (StageReady.staged). -/
theorem stagedAlone : Obligations.StagedAlone := by
  have runs {s : State} {op m : Nat} {p : List Byte} (h : StageReady s op m p) :
      (Host.Outcome.next (onCmd s op (stageCmd s op)) : Host.Outcome State Fault Refusal) = .next (stageCmd s op p) :=
    congrArg _ (h.at'.runs _)
  refine fun s m p => ⟨fun k h hk hst => ?activate, fun k h hk hst => ?deactivate, fun k ph r h hk hph hready => ?swap,
    fun h hsum => ?share, fun h => ?master, fun h hvalid hother => ?ref, fun h hok => ?roster, fun h hkey => ?key, fun h => ?reset,
    fun k h hk => ?tolerance⟩
  case activate => exact h.staged (checkState_planActivate hk hst) (runs h)
  case deactivate => exact h.staged (checkState_planDeactivate hk hst) (runs h)
  case swap => exact h.staged (checkState_planSwap hk hph hready) (runs h)
  case share => exact h.staged (checkState_xmShare hsum) (runs h)
  case master => exact h.staged rfl (runs h)
  case ref =>
    have hexec : exec .refSelect s = .next (stageCmd (checkRefs s) 0x602 p) :=
      congrArg Host.Outcome.next (h.at'.runs (stageCmd (checkRefs s) 0x602))
    exact ⟨_, hexec, h.checkRefs.stagedAt (checkState_refSelect (s := checkRefs s) hvalid hother)⟩
  case roster => exact h.staged (checkState_hiveRoster hok) (runs h)
  case key => exact h.staged (checkState_hiveKeySwitch hkey) (runs h)
  case reset => exact h.staged rfl (runs h)
  case tolerance => exact h.staged (checkState_pwrTolerance hk) (runs h)

/-- Settles O23: the checks of SYN_HOLD and STREAM_CTL decide between StageReady.staged and StageReady.refused. -/
theorem stagedHoldsAndStreams : Obligations.StagedHoldsAndStreams := by
  have acts {s : State} {op m at' act max : Nat} {p : List Byte} (h : StageReady s op m p) (hact : leAt p at' 1 = act) :
      (Host.Outcome.next (onAction s op at' act max (stageCmd s op)) : Host.Outcome State Fault Refusal) = .next (stageCmd s op p) :=
    congrArg _ (h.at'.action hact max _)
  refine fun s m p => ⟨fun h => ⟨fun hact => ?freeze, fun hact => ?safe, fun hact hheld => ?release, fun hact hfree => ?free⟩,
    fun k h hk hi => ⟨fun hlive => ⟨fun hact => ?pause, fun hact hpaused => ?resume, fun hact => ?reset, fun hact => ?ends⟩,
      fun hended hact => ?ended⟩⟩
  case freeze => exact h.staged ((checkState_synHold s p).trans (if_neg (by simp [hact]))) (acts h hact)
  case safe => exact h.staged ((checkState_synHold s p).trans (if_neg (by simp [hact]))) (acts h hact)
  case release => exact h.staged ((checkState_synHold s p).trans (if_neg (by simp [hheld]))) (acts h hact)
  case free =>
    exact h.refused ((checkState_synHold s p).trans (if_pos ⟨hact, hfree⟩)) (by decide) (by decide) (acts h hact)
  case pause => exact h.staged ((checkState_streamCtl hk hi).trans (if_neg (by simp [hlive, hact]))) (acts h hact)
  case resume => exact h.staged ((checkState_streamCtl hk hi).trans (if_neg (by simp [hpaused]))) (acts h hact)
  case reset => exact h.staged ((checkState_streamCtl hk hi).trans (if_neg (by simp [hlive, hact]))) (acts h hact)
  case ends => exact h.staged ((checkState_streamCtl hk hi).trans (if_neg (by simp [hlive, hact]))) (acts h hact)
  case ended => exact h.refused ((checkState_streamCtl hk hi).trans (if_pos (.inl hended))) (by decide) (by decide) (acts h hact)

end Sys2Proof.Machine
end

section
/-! PROOFS. Building, committing and aborting a graft (R361 to R366): which branch of Keeper's work each command takes. -/

namespace Sys2Proof.Machine

open Sys2Proof

/-- The command's row runs its meaning on the payload: what holds of the state that the meaning leaves. -/
theorem AtCommand.ran {s : State} {op m : Nat} {p : List Byte} {c : Instr} {f : List Byte → State} {Q : State → Prop}
    (h : AtCommand s op m p) (hexec : exec c s = .next (onCmd s op f)) (hq : Q (f p)) : Runs c s Q :=
  ⟨_, hexec, by rw [h.runs]; exact hq⟩

/-- Among statuses that are all OK none is found that fails. -/
theorem find?_failing_map_ok {α : Type} (l : List α) : (l.map (fun _ => 0)).find? (fun x => x != stOk) = none := by
  simp [stOk]

theorem findIdx?_failing_of_ok {l : List Nat} (h : ∀ st ∈ l, st = 0) : l.findIdx? (fun x => x != stOk) = none := by
  rw [List.findIdx?_eq_none_iff]
  intro st hst
  simp [h st hst, stOk]

/-- The open graft that the first GRAFT_STAGE of a mailbox begins (R361). -/
def freshGraft (p : List Byte) : OpenGraft :=
  { members := [], waitLimit := if leAt p 4 4 = 0 then 10000 else leAt p 4 4, groups := 0 }

/-- The first GRAFT_STAGE of a mailbox: the statuses of its members decide (R361). -/
theorem graftStage_first {s : State} {m : Nat} {p : List Byte} {ms : List Member} (hcur : s.wg.cur = some m)
    (hnone : vget s.gr.opened m none = none) (hms : stagedMembers p 0 = some ms) (hlen : ms.length ≤ 64) :
    graftStage s p = match (judgeMembers s (projected s none) ms).find? (fun x => x != stOk) with
      | some st => answer s st (statusBytes 0 (judgeMembers s (projected s none) ms))
      | none => answer { s with gr.opened := vput s.gr.opened m (some { freshGraft p with members := ms, groups := ms.length }) } stOk
          (statusBytes 0 (judgeMembers s (projected s none) ms)) := by
  have hfit : ¬ 64 < ([] : List Member).length + ms.length := by simpa using hlen
  unfold graftStage
  rw [hcur, Option.getD_some]
  dsimp only
  rw [hnone, Option.getD_none]
  dsimp only
  rw [hms]
  dsimp only
  rw [if_neg hfit, List.nil_append, Nat.zero_add] <;> rfl

/-- GRAFT_COMMIT of an open graft whose members pass and whose target is far enough ahead: its phases decide (R363). -/
theorem graftCommit_passing {s : State} {m e : Nat} {p : List Byte} {o : OpenGraft} (hcur : s.wg.cur = some m)
    (hshape : ¬ (p.length ≠ 9 ∨ 1 < leAt p 8 1)) (ho : vget s.gr.opened m none = some o)
    (he : e = (if leAt p 0 8 = 0 then s.wg.round + 2 else leAt p 0 8)) (hahead : s.wg.round + 2 ≤ e)
    (hpass : ∀ st ∈ judgeMembers s (projected s (some e)) o.members, st = 0) :
    graftCommit s p = match graftPhases s o e with
      | none => answer { s with gr.notAtomic := satAdd 32 s.gr.notAtomic 1 } stNotAtomic []
      | some ps =>
        if leAt p 8 1 = 1 then answer s stOk (graftPlanBytes ps)
        else if 16 ≤ (committed s).length then answer s stNoFit []
        else
          answerAt { s with
            gr.staged := s.gr.staged ++ [
              { seq := s.wg.curSeq, source := m, cls := .operational, alone := false, target := e, waitLimit := o.waitLimit,
                phases := ps, total := ps.length, next := 0, shift := 0, count := o.members.length }]
            gr.opened := vput s.gr.opened m none } (if ps.length = 1 then stStaged else stPhased) (graftPlanBytes ps) e := by
  unfold graftCommit
  rw [hcur, Option.getD_some]
  dsimp only
  rw [← he, if_neg hshape, ho]
  dsimp only
  rw [findIdx?_failing_of_ok hpass]
  dsimp only
  rw [if_neg (Nat.not_lt.mpr hahead)] <;> rfl

/-- GRAFT_ABORT of the mailbox's own open graft (R366). -/
theorem graftAbort_open {s : State} {m : Nat} {p : List Byte} {o : OpenGraft} (hcur : s.wg.cur = some m) (hlen : p.length = 8)
    (hzero : leAt p 0 8 = 0) (ho : vget s.gr.opened m none = some o) :
    graftAbort s p = answer { s with gr.opened := vput s.gr.opened m none } stOk [] := by
  unfold graftAbort
  rw [hcur, Option.getD_some]
  dsimp only
  rw [if_neg (not_not_intro hlen), if_pos hzero, ho]

/-- GRAFT_ABORT of a staged change: its mailbox and WG2 may take it out (R366). -/
theorem graftAbort_staged {s : State} {m : Nat} {p : List Byte} {g : Graft} (hcur : s.wg.cur = some m) (hlen : p.length = 8)
    (hseq : leAt p 0 8 ≠ 0) (hg : s.gr.staged.find? (fun g => g.seq == leAt p 0 8) = some g) :
    graftAbort s p = if g.source ≠ m ∧ m ≠ 2 then answer s stNotOwner []
      else answer { s with gr.staged := s.gr.staged.filter (fun g => g.seq != leAt p 0 8) } stOk [] := by
  unfold graftAbort
  rw [hcur, Option.getD_some]
  dsimp only
  rw [if_neg (not_not_intro hlen), if_neg hseq, hg]

/-- Settles O35: the equations above name the branch, and AtCommand.answered what its answer leaves. -/
theorem graftsBuildAndCommit : Obligations.GraftsBuildAndCommit := by
  refine fun s m p => ⟨fun ms h hms hlen hnone => ⟨fun hok => ?staged, fun st hst => ?failing⟩,
    fun o e h hlen ho he hahead hpass => ⟨fun ps hps => ⟨fun hcheck => ?checkOnly, fun hcommit hroom => ?commits⟩,
      fun htorn hflag => ?notAtomic⟩,
    fun h hlen => ⟨fun o hzero ho => ?discards, fun g hseq hg => ⟨fun hmay => ?takesOut, fun hnot => ?notOwner⟩⟩⟩
  case staged =>
    refine h.ran (c := .graftStage) rfl ?_
    rw [graftStage_first h.cur hnone hms hlen, hok, find?_failing_map_ok]
    exact h.answered (by rfl) _ _ _
  case failing =>
    refine h.ran (c := .graftStage) rfl ?_
    have hfound : (judgeMembers s (projected s none) ms).find? (fun x => x != stOk) = some st := hst
    rw [graftStage_first h.cur hnone hms hlen, hfound]
    exact h.answered (by rfl) _ _ _
  case checkOnly =>
    refine h.ran (c := .graftCommit) rfl ?_
    rw [graftCommit_passing h.cur (by omega) ho he hahead hpass, hps]
    dsimp only
    rw [if_pos hcheck]
    exact h.answered (by rfl) _ _ _
  case commits =>
    refine h.ran (c := .graftCommit) rfl ?_
    have hnoCheck : leAt p 8 1 ≠ 1 := by omega
    have hfree : ¬ 16 ≤ (committed s).length := Nat.not_le.mpr hroom
    rw [graftCommit_passing h.cur (by omega) ho he hahead hpass, hps]
    dsimp only
    rw [if_neg hnoCheck, if_neg hfree]
    exact h.answered (by rfl) _ _ _
  case notAtomic =>
    refine h.ran (c := .graftCommit) rfl ?_
    rw [graftCommit_passing h.cur (by omega) ho he hahead hpass, htorn]
    exact h.answered (by rfl) _ _ _
  case discards =>
    refine h.ran (c := .graftAbort) rfl ?_
    rw [graftAbort_open h.cur hlen hzero ho]
    exact h.answered (by rfl) _ _ _
  case takesOut =>
    refine h.ran (c := .graftAbort) rfl ?_
    rw [graftAbort_staged h.cur hlen hseq hg, if_neg (by omega)]
    exact h.answered (by rfl) _ _ _
  case notOwner =>
    refine h.ran (c := .graftAbort) rfl ?_
    rw [graftAbort_staged h.cur hlen hseq hg, if_pos hnot]
    exact h.answered (by rfl) _ _ _

end Sys2Proof.Machine
end

section
/-! PROOFS. What committing Heartwood's records changes: Heartwood alone, and MIRRORED in the journal; and the supply of AON (R434 to
R438). -/

namespace Sys2Proof.Machine

open Sys2Proof

/- Heartwood alone. -/

/-- t is s with Heartwood changed alone. -/
def InHw (s t : State) : Prop := ∃ h, t = { s with hw := h }

theorem InHw.same (s : State) : InHw s s := ⟨s.hw, rfl⟩

theorem InHw.trans {s t u : State} (h : InHw s t) (k : InHw t u) : InHw s u := by
  obtain ⟨a, rfl⟩ := h
  obtain ⟨b, rfl⟩ := k
  exact ⟨b, rfl⟩

theorem hwOpen_inHw (s : State) : InHw s (hwOpen s) := by
  unfold hwOpen
  split
  · exact ⟨_, rfl⟩
  · exact .same s

theorem hwWrite_inHw (s : State) (typ : Nat) (payload : List Byte) : InHw s (hwWrite s typ payload) := by
  unfold hwWrite
  refine (hwOpen_inHw s).trans ?_
  dsimp only
  split
  · exact ⟨_, rfl⟩
  · exact ⟨_, rfl⟩

theorem hwNor_inHw (s : State) (r : HwPend) : InHw s (hwNor s r) := by
  unfold hwNor
  dsimp only
  split
  · exact ⟨_, rfl⟩
  split
  · exact ⟨_, rfl⟩
  split
  · exact ⟨_, rfl⟩
  split
  · exact ⟨_, rfl⟩
  · exact .same s

theorem hwHalf_inHw (s : State) : InHw s (hwHalf s) := by
  unfold hwHalf
  split
  next r rest hq =>
    split
    · exact ((hwWrite_inHw s r.typ r.payload).trans (hwNor_inHw _ r)).trans ⟨_, rfl⟩
    · exact .same s
  next => exact .same s

/- Heartwood and the journal. -/

/-- t is s with Heartwood and the journal changed alone. -/
def InHwRj (s t : State) : Prop := ∃ h j, t = { s with hw := h, rj := j }

theorem InHwRj.trans {s t u : State} (h : InHwRj s t) (k : InHwRj t u) : InHwRj s u := by
  obtain ⟨a, i, rfl⟩ := h
  obtain ⟨b, j, rfl⟩ := k
  exact ⟨b, j, rfl⟩

theorem InHw.rj {s t : State} (h : InHw s t) : InHwRj s t := by
  obtain ⟨a, rfl⟩ := h
  exact ⟨a, s.rj, rfl⟩

theorem hwCommit_inHwRj (s : State) (r : HwPend) : InHwRj s (hwCommit s r) := by
  unfold hwCommit
  refine ((hwWrite_inHw s r.typ r.payload).trans (hwNor_inHw _ r)).rj.trans ?_
  dsimp only
  split
  next n hk => exact ⟨_, _, rfl⟩
  next => exact (InHw.same _).rj

theorem hwCommits_inHwRj (l : List HwPend) (s : State) : InHwRj s (l.foldl hwCommit s) := by
  induction l generalizing s with
  | nil => exact (InHw.same s).rj
  | cons r l ih => exact (hwCommit_inHwRj s r).trans (ih _)

theorem hwPowerFail_inHwRj (s : State) : InHwRj s (hwPowerFail s) := by
  unfold hwPowerFail
  split
  next =>
    have herase : InHwRj s { s with hw.erasing := none, hw.attempts := 0 } := ⟨_, s.rj, rfl⟩
    have hlast (u : State) (typ : Nat) (p : List Byte) (d : Nat) :
        InHwRj u { hwWrite u typ p with hw.queue := [], hw.copy0 := false, hw.powerFail := some d } :=
      ((hwWrite_inHw u typ p).trans ⟨_, rfl⟩).rj
    exact (herase.trans (hwCommits_inHwRj s.hw.queue _)).trans (hlast _ _ _ _)
  next => exact (InHw.same s).rj

/- The supply. -/

/-- A cold reset leaves reset values, but for what Table 2.7 keeps. -/
theorem coldReset_coldLeft (s : State) : ColdLeft s (coldReset s) where
  pending := rfl
  syn := rfl
  beat := rfl
  cmb := rfl
  quad := rfl
  streams := rfl
  xm := rfl
  bl := rfl
  so := rfl
  arb := rfl
  hl := rfl
  hi := rfl
  wg := rfl
  gr := rfl
  rj := rfl
  us := rfl
  pwr := rfl
  jtag := rfl
  slots := ⟨rfl, rfl⟩
  log := ⟨rfl, rfl, rfl, rfl⟩
  boot := rfl
  scan := ⟨rfl, rfl, rfl⟩

/-- Once every one has been ended, none of the instances of a context is left. -/
theorem insts_ended (ctx : Vector PlanCtx 4) {c : Nat} (h : c < 4) :
    (vget (ctx.map (fun c => { c with insts := [] })) c PlanCtx.init).insts = [] := by
  simp [vget, h]

/-- With no domain powered and the beat stopped, every switch is open. -/
theorem allOff_switchesOpen (s : State) : SwitchesOpen { allOff s with beat.running := false } :=
  ⟨rfl, rfl, rfl, rfl, rfl, rfl, rfl, rfl, fun _ hc => insts_ended s.cmb.ctx hc⟩

/-- The switches stay open whatever becomes of Heartwood, the journal and the rest of the power state. -/
theorem SwitchesOpen.of_kept {s t : State} (h : SwitchesOpen s)
    (hpwr : (t.pwr.quad, t.pwr.cb, t.pwr.lnk, t.pwr.xmi, t.pwr.hif, t.pwr.railEn) =
      (s.pwr.quad, s.pwr.cb, s.pwr.lnk, s.pwr.xmi, s.pwr.hif, s.pwr.railEn))
    (hlink : t.hi.link = s.hi.link) (hbeat : t.beat = s.beat) (hctx : t.cmb.ctx = s.cmb.ctx) : SwitchesOpen t := by
  simp only [Prod.mk.injEq] at hpwr
  obtain ⟨hquad, hcb, hlnk, hxmi, hhif, hrail⟩ := hpwr
  refine ⟨hquad.trans h.quad, hcb.trans h.cb, hlnk.trans h.lnk, hxmi.trans h.xmi, hhif.trans h.hif, hrail.trans h.railEn,
    hlink.trans h.link, by rw [hbeat]; exact h.beat, fun c hc => ?_⟩
  have hend := h.insts c hc
  unfold ctxAt at hend ⊢
  rw [hctx]
  exact hend

theorem aonDown_switchesOpen (s : State) : SwitchesOpen (aonDown s) :=
  (allOff_switchesOpen (hwHalf s)).of_kept rfl rfl rfl rfl

/-- What Keeper leaves of Heartwood at a power-fail warning: the commit, where verified firmware runs (R406). -/
def lastCommit (s : State) : State := if s.hi.fwRuns then hwPowerFail s else hwHalf s

theorem lastCommit_inHwRj (s : State) : InHwRj s (lastCommit s) := by
  unfold lastCommit
  split
  · exact hwPowerFail_inHwRj s
  · exact (hwHalf_inHw s).rj

/-- Nothing runs further (R437). -/
def stopped (s : State) : State := { s with pwr.stopped := true, pwr.keeper := false, beat.running := false }

theorem exec_powerFailWarning {s : State} (h : alive s = true) : exec .powerFailWarning s = .next (stopped (lastCommit (allOff s))) :=
  congrArg Host.Outcome.next (if_pos h)

/-- Keeper's last work before it stops touches Heartwood and the journal alone, so the switches stay open. -/
theorem stopped_switchesOpen {s t : State} (h : InHwRj (allOff s) t) : SwitchesOpen (stopped t) := by
  obtain ⟨w, j, rfl⟩ := h
  exact (allOff_switchesOpen s).of_kept rfl rfl rfl rfl

theorem stopped_not_alive (s : State) : alive (stopped s) = false := by
  simp [alive, stopped]

theorem InHwRj.on {s t : State} (h : InHwRj s t) : t.pwr.on = s.pwr.on := by
  obtain ⟨w, j, rfl⟩ := h
  rfl

/-- Settles O15: a cold reset by its definition; a fall, a brown-out and a warning by what allOff opens, which Heartwood's last commits
leave alone. -/
theorem aonSupply : Obligations.AonSupply := by
  refine fun s => ⟨fun ⟨hlow, hfine⟩ => ?rise, fun ⟨hbrown, hgood⟩ => ?recovers, fun ⟨hbrown, hlow⟩ => ?ends, fun hgood => ?falls,
    fun hfine => ?browns, fun halive => ?warns⟩
  case rise => exact ⟨coldReset s, congrArg _ ((if_neg (by simp [hlow])).trans (if_neg (by simp [hfine]))), coldReset_coldLeft s⟩
  case recovers => exact ⟨coldReset s, congrArg _ ((if_pos hbrown).trans (if_pos hgood)), coldReset_coldLeft s⟩
  case ends =>
    exact ⟨congrArg _ ((if_pos hbrown).trans (if_neg (by simp [hlow]))), congrArg _ ((if_neg (by simp [hlow])).trans (if_pos hbrown))⟩
  case falls =>
    exact ⟨{ aonDown s with pwr.pwrgd := false }, congrArg _ (if_pos hgood), (aonDown_switchesOpen s).of_kept rfl rfl rfl rfl, rfl, rfl, rfl⟩
  case browns =>
    exact ⟨{ aonDown s with pwr.brown := true }, congrArg _ (if_neg (by simp [hfine])),
      (aonDown_switchesOpen s).of_kept rfl rfl rfl rfl, rfl, rfl, rfl⟩
  case warns =>
    have hlast := lastCommit_inHwRj (allOff s)
    have hon : s.pwr.on = true := by
      simp only [alive, Bool.and_eq_true] at halive
      exact halive.1
    exact ⟨_, exec_powerFailWarning halive, stopped_switchesOpen hlast, stopped_not_alive _, hlast.on.trans hon, rfl⟩

end Sys2Proof.Machine
end

section
/-! PROOFS. The transports of the mailboxes (R337 to R352): pages, doorbells, SMBus and UART. -/

namespace Sys2Proof.Machine

open Sys2Proof

/- Doorbells. -/

theorem doorbell_locked {s : State} {m : Nat} (h : mbLocked s m = true) (v : Nat) : doorbell s m v = ringBusy s m := if_pos h

theorem doorbell_ring {s : State} {m : Nat} (hfree : mbLocked s m = false) (hfw : s.hi.fwRuns = true) :
    doorbell s m 1 = onMb s m (fun x => { x with st := .rung, code := 0, resp := [], part := 0 }) := by
  unfold doorbell rung romAnswers romRound romTakes
  simp [hfree, hfw]

theorem doorbell_invalid {s : State} {m v : Nat} (hfree : mbLocked s m = false) (hring : v ≠ 1) (hnext : v ≠ 2) :
    doorbell s m v = ringBusy s m := by
  unfold doorbell
  simp [hfree, hring, hnext]

theorem doorbell_next {s : State} {m : Nat} (hfree : mbLocked s m = false) (hdone : (mbAt s m).st = .done)
    (hleft : (mbAt s m).part + 1 < partsOf ((mbAt s m).resp.length - 64)) :
    doorbell s m 2 =
      if keeperFree s then serveNext (onMb s m (fun x => { x with st := .busy, nextDue := true }))
      else onMb s m (fun x => { x with st := .busy, nextDue := true }) := by
  unfold doorbell
  simp only [hfree, hdone, hleft]
  rfl

/-- The next part of a response, where a NEXT waits for it (R349). -/
def serveOne (s : State) (m : Nat) : State :=
  if (mbAt s m).nextDue then
    notify (onMb (putPart s m ((mbAt s m).part + 1)) m (fun x => { x with st := .done, nextDue := false })) m
  else s

theorem serveNext_eq (s : State) : serveNext s = forUpto 4 serveOne s := rfl

theorem serveOne_mb_other {m k : Nat} (h : k ≠ m) (s : State) : mbAt (serveOne s m) k = mbAt s k := by
  unfold serveOne
  split
  · exact ((notify_wgSame _ m).mbAt k).trans (((putPart_others s m _).trans (onMb_others _ m _)).mb k h)
  · rfl

/-- Mailbox m of t shows the part of its response after the one in s, and no NEXT waits. -/
def NextShown (s t : State) (m : Nat) : Prop :=
  (mbAt t m).st = .done ∧ (mbAt t m).part = (mbAt s m).part + 1 ∧ (mbAt t m).nextDue = false

theorem serveOne_shows {s : State} {m : Nat} (h : m < 4) (hdue : (mbAt s m).nextDue = true) : NextShown s (serveOne s m) m := by
  have hmb : mbAt (serveOne s m) m = { mbAt (putPart s m ((mbAt s m).part + 1)) m with st := .done, nextDue := false } := by
    unfold serveOne
    rw [if_pos hdue, (notify_wgSame _ m).mbAt m, mbAt_onMb_same _ _ _ h]
  have hpart : (mbAt (putPart s m ((mbAt s m).part + 1)) m).part = (mbAt s m).part + 1 := by
    unfold putPart
    rw [mbAt_onMb_same _ _ _ h]
  unfold NextShown
  rw [hmb]
  exact ⟨rfl, hpart, rfl⟩

/-- The mailboxes below n have had their turns: a later one waits as before. -/
theorem serveNext_mb_later {m : Nat} (s : State) : ∀ n ≤ m, mbAt (forUpto n serveOne s) m = mbAt s m := by
  intro n
  induction n with
  | zero => exact fun _ => rfl
  | succ n ih =>
    intro hn
    rw [forUpto_succ, serveOne_mb_other (by omega), ih (by omega)]

/-- What the turn of mailbox m has left of it stays. -/
theorem serveNext_mb_earlier {m : Nat} (s : State) :
    ∀ n, m < n → mbAt (forUpto n serveOne s) m = mbAt (forUpto (m + 1) serveOne s) m := by
  intro n hn
  induction n, hn using Nat.le_induction with
  | base => rfl
  | succ n hn ih => rw [forUpto_succ, serveOne_mb_other (by omega), ih]

/-- A waiting NEXT is served. -/
theorem serveNext_shows {s : State} {m : Nat} (h : m < 4) (hdue : (mbAt s m).nextDue = true) : NextShown s (serveNext s) m := by
  have hbefore : mbAt (forUpto m serveOne s) m = mbAt s m := serveNext_mb_later s m le_rfl
  have hshown : NextShown (forUpto m serveOne s) (serveOne (forUpto m serveOne s) m) m := serveOne_shows h (by rw [hbefore]; exact hdue)
  rw [serveNext_eq]
  unfold NextShown at hshown ⊢
  rw [serveNext_mb_earlier s 4 h, forUpto_succ, ← hbefore]
  exact hshown

/-- A doorbell of a mailbox that is reached writes its value (R340). -/
theorem exec_doorbellRing {s : State} {m : MboxId} (h : mbReach s m.val = true) : exec (.doorbellRing m) s = .next (doorbell s m.val 1) :=
  congrArg Host.Outcome.next (if_pos h)

theorem exec_doorbellNext {s : State} {m : MboxId} (h : mbReach s m.val = true) : exec (.doorbellNext m) s = .next (doorbell s m.val 2) :=
  congrArg Host.Outcome.next (if_pos h)

theorem exec_doorbellInvalid {s : State} {m : MboxId} {v : Word} (h : mbReach s m.val = true)
    (hv : mbLocked s m.val = true ∨ (v.toNat ≠ 1 ∧ v.toNat ≠ 2)) : exec (.doorbellInvalid m v) s = .next (doorbell s m.val v.toNat) := by
  refine congrArg Host.Outcome.next (if_pos ⟨h, hv.imp id fun ⟨hring, hnext⟩ => ⟨hring, ?_⟩⟩)
  simp [hnext]

theorem exec_mailboxPageWrite {s : State} {m : MboxId} {off : Nat} {v : Word} (h : mbReach s m.val = true) (hoff : off < 0xFE0)
    (halign : off % 4 = 0) : exec (.mailboxPageWrite m off v) s = .next (pageWrite s m.val off (leBytes 4 v.toNat)) :=
  congrArg Host.Outcome.next (if_pos ⟨h, hoff, halign⟩)

/- Transports. -/

/-- A frame error is counted and noted for the beat, and beside that the mailboxes and transports stay (R351). -/
theorem frameError_wg (s : State) (m : Nat) :
    (frameError s m).wg = { (onMb s m (fun x => { x with frameErr := satAdd 16 x.frameErr 1 })).wg with frameEv := true } := by
  unfold frameError
  dsimp only
  split
  next hev =>
    have hev : s.wg.frameEv = true := hev
    rw [← hev]
    rfl
  next => exact (raise_news _ 0x0E02 .minor 0 (by decide)).wg

/-- Event 0x0E02 is raised at most once in a beat. -/
theorem frameError_news (s : State) (m : Nat) : Logs s (frameError s m) (if s.wg.frameEv then [] else [(0x0E02, .minor)]) := by
  unfold frameError
  dsimp only
  by_cases hev : s.wg.frameEv = true
  · rw [if_pos hev]
    have hkept : (onMb s m (fun x => { x with frameErr := satAdd 16 x.frameErr 1 })).wg.frameEv = true := hev
    rw [if_pos hkept]
    exact Logs.from (Logs.same _) rfl
  · rw [if_neg hev]
    have hkept : ¬ (onMb s m (fun x => { x with frameErr := satAdd 16 x.frameErr 1 })).wg.frameEv = true := hev
    rw [if_neg hkept]
    exact (raise_news _ 0x0E02 .minor 0 (by decide)).news.from rfl

theorem frameError_mb (s : State) {m : Nat} (h : m < 4) :
    mbAt (frameError s m) m = { mbAt s m with frameErr := satAdd 16 (mbAt s m).frameErr 1 } := by
  have hwg : mbAt (frameError s m) m = mbAt (onMb s m (fun x => { x with frameErr := satAdd 16 x.frameErr 1 })) m := by
    unfold mbAt
    rw [frameError_wg]
  rw [hwg, mbAt_onMb_same _ _ _ h]

/-- Words below the doorbell enter the page and ring nothing (R337). -/
theorem transportWrite_below {s : State} {m o : Nat} {l : List Byte} (hne : 0 < l.length) (hend : o + l.length ≤ 0xFE0) :
    transportWrite s m o l = pagePut s m o l := by
  have hstart : o < 0xFE0 := by omega
  have hquiet : ¬ (o ≤ 0xFE0 ∧ 0xFE0 < o + l.length) := by omega
  unfold transportWrite
  dsimp only
  rw [if_pos hstart, if_neg hquiet, List.take_of_length_le (by omega)]

theorem exec_smbusWrite_below {s : State} {l : List Byte} (h : mbReach s 2 = true) (hmin : 4 ≤ l.length) (hmax : l.length ≤ 128)
    (hwords : l.length % 4 = 0) (hend : s.wg.smbOff + l.length ≤ 0xFE0) (hfree : mbLocked s 2 = false) :
    exec (.smbusWrite l true) s = .next { onMb s 2 (fun x => { x with page := x.page.putRun s.wg.smbOff 0#8 l }) with
      wg.smbOff := s.wg.smbOff + l.length, wg.smbNak := false } := by
  have hshape : ¬ (l.length < 4 ∨ 128 < l.length ∨ l.length % 4 ≠ 0 ∨ 0x1000 < s.wg.smbOff + l.length) := by omega
  have hpointer : (s.wg.smbOff + l.length) % 0x1000 = s.wg.smbOff + l.length := Nat.mod_eq_of_lt (by omega)
  refine congrArg Host.Outcome.next ?_
  dsimp only
  rw [if_neg (by simp [h]), if_neg hshape, if_neg (by simp [hfree]), if_pos rfl, if_pos (.inr (.inl hend)), hpointer,
    transportWrite_below (by omega) hend]
  rfl

theorem uartRangeOk_len {l : List Byte} (h : uartRangeOk l = true) : 4 ≤ leAt l 4 2 := by
  simp only [uartRangeOk, Bool.and_eq_true, decide_eq_true_eq] at h
  exact h.1.1.1.2

/-- A frame holds as many data bytes as its LEN says. -/
theorem uartFrame_data {s : State} {l : List Byte} (h : uartFrame s 1 l = true) : ((l.drop 6).take (leAt l 4 2)).length = leAt l 4 2 := by
  simp only [uartFrame, Bool.and_eq_true, decide_eq_true_eq, beq_iff_eq] at h
  obtain ⟨-, hlen⟩ := h
  simp [hlen]
  omega

theorem exec_uartWrite_below {s : State} {l : List Byte} (hframe : uartFrame s 1 l = true) (hcrc : uartCrcOk l = true)
    (hrange : uartRangeOk l = true) (hfree : mbLocked s 3 = false) (hend : leAt l 2 2 + leAt l 4 2 ≤ 0xFE0) :
    exec (.uartWrite l) s = .next (uartAnswer (pagePut s 3 (leAt l 2 2) ((l.drop 6).take (leAt l 4 2))) 0 []) := by
  have hlen := uartFrame_data hframe
  have hmin := uartRangeOk_len hrange
  refine congrArg Host.Outcome.next ?_
  rw [if_pos hframe, if_neg (by simp [hcrc]), if_neg (by simp [hrange]), if_neg (by simp [hfree]),
    transportWrite_below (by omega) (by omega)]

theorem exec_uartWrite_badCrc {s : State} {l : List Byte} (hframe : uartFrame s 1 l = true) (hcrc : uartCrcOk l = false) :
    exec (.uartWrite l) s = .next (uartAnswer (frameError s 3) 1 []) := by
  refine congrArg Host.Outcome.next ?_
  rw [if_pos hframe, if_pos (by simp [hcrc])]

/-- Settles O55: the mailboxes' clauses by the lemmas on doorbells, those of SMBus and UART by their branch and the frame error. -/
theorem mailboxTransports : Obligations.MailboxTransports := by
  refine fun s => ⟨fun m h => ⟨fun hlock off v => ?locked, fun hfree => ⟨fun hfw => ?rings, fun v hring hnext => ?invalid,
      fun off v hoff halign => ?pages, fun hdone hleft => ⟨fun hbusy => ?waits, fun hkeeper => ?served⟩⟩⟩,
    fun h => ⟨fun off halign hoff => ?offset, fun off ok hbad => ?nak, fun off halign hoff => ?pec,
      fun l hmin hmax hwords hend hfree => exec_smbusWrite_below h hmin hmax hwords hend hfree, ?smbRead, ?smbTimeout⟩,
    fun h => ⟨fun l hframe hcrc hrange hfree hend => exec_uartWrite_below hframe hcrc hrange hfree hend,
      fun l hframe hcrc => ?badCrc, fun l hframe hsync hop => ?held, fun l hframe hcrc hrange => ?uartRead,
      fun l hframe hcrc hoff hlen hrate => ?baud, ?uartTimeout, ?uartBreak⟩⟩
  case locked =>
    refine ⟨(exec_doorbellRing h).trans ?_, (exec_doorbellNext h).trans ?_, (exec_doorbellInvalid h (.inl hlock)).trans ?_,
      fun hoff halign => (exec_mailboxPageWrite h hoff halign).trans (congrArg _ (if_pos hlock))⟩
    · exact congrArg _ (doorbell_locked hlock 1)
    · exact congrArg _ (doorbell_locked hlock 2)
    · exact congrArg _ (doorbell_locked hlock _)
  case rings => exact (exec_doorbellRing h).trans (congrArg _ (doorbell_ring hfree hfw))
  case invalid => exact (exec_doorbellInvalid h (.inr ⟨hring, hnext⟩)).trans (congrArg _ (doorbell_invalid hfree hring hnext))
  case pages => exact (exec_mailboxPageWrite h hoff halign).trans (congrArg _ (if_neg (by simp [hfree])))
  case waits => exact (exec_doorbellNext h).trans (congrArg _ ((doorbell_next hfree hdone hleft).trans (if_neg (by simp [hbusy]))))
  case served =>
    refine ⟨_, (exec_doorbellNext h).trans (congrArg _ ((doorbell_next hfree hdone hleft).trans (if_pos hkeeper))), ?_⟩
    have hshown := serveNext_shows (s := onMb s m.val (fun x => { x with st := .busy, nextDue := true })) m.isLt
      (by rw [mbAt_onMb_same _ _ _ m.isLt])
    unfold NextShown at hshown
    rwa [mbAt_onMb_same _ _ _ m.isLt] at hshown
  case offset =>
    refine congrArg Host.Outcome.next ?_
    rw [if_neg (by simp [h]), if_neg (by omega), if_pos rfl]
  case nak =>
    refine congrArg Host.Outcome.next ?_
    rw [if_neg (by simp [h]), if_pos hbad]
  case pec =>
    have hexec : exec (.smbusSetOffset off false) s = .next (frameError { s with wg.smbNak := true } 2) := by
      refine congrArg Host.Outcome.next ?_
      rw [if_neg (by simp [h]), if_neg (by omega), if_neg (by decide)]
    refine ⟨_, hexec, ?_, ?_, ?_, ?_, (frameError_news { s with wg.smbNak := true } 2).from rfl⟩
    · rw [frameError_wg]; rfl
    · rw [frameError_wg]; rfl
    · rw [frameError_mb _ (by decide)]; rfl
    · rw [frameError_wg]
  case smbRead => exact congrArg Host.Outcome.next (if_neg (by simp [h]))
  case smbTimeout => exact congrArg Host.Outcome.next (if_pos h)
  case badCrc =>
    have hmb : mbAt (uartAnswer (frameError s 3) 1 []) 3 = { mbAt s 3 with frameErr := satAdd 16 (mbAt s 3).frameErr 1 } :=
      frameError_mb s (by decide)
    refine ⟨_, exec_uartWrite_badCrc hframe hcrc, rfl, ?_, ?_, frameError_news s 3⟩
    · rw [hmb]
    · rw [hmb]
  case held =>
    refine congrArg Host.Outcome.next ((if_neg (by simp [hframe])).trans (if_pos ?_))
    simp [h, hsync, hop]
  case uartRead =>
    refine congrArg Host.Outcome.next ?_
    rw [if_pos hframe, if_neg (by simp [hcrc]), if_neg (by simp [hrange])]
  case baud =>
    refine congrArg Host.Outcome.next ?_
    rw [if_pos hframe, if_neg (by simp [hcrc]), if_pos ⟨hoff, hlen, hrate⟩]
  case uartTimeout => exact congrArg Host.Outcome.next (if_pos h)
  case uartBreak =>
    refine ⟨_, congrArg Host.Outcome.next (if_pos h), ?_, ?_, (frameError_news { s with wg.uartPart := [] } 3).from rfl⟩
    · rw [frameError_wg]; rfl
    · rw [frameError_mb _ (by decide)]; rfl

end Sys2Proof.Machine
end

section
/-! PROOFS. Presence, the seal loop, WG3 and reading the journal (R368 to R376, R449, R450). -/

namespace Sys2Proof.Machine

open Sys2Proof

/- What Keeper's round keeps of WG3 and of the events raised. -/

/-- The state of WG3's seal stays, and the events raised before are still on the record. -/
structure SealKept (s t : State) : Prop where
  open3 : t.wg.open3 = s.wg.open3
  unsealS : t.wg.unsealS = s.wg.unsealS
  raised : s.hi.raised <:+ t.hi.raised

theorem SealKept.same (s : State) : SealKept s s := ⟨rfl, rfl, List.suffix_rfl⟩

theorem SealKept.trans {s t u : State} (h : SealKept s t) (k : SealKept t u) : SealKept s u :=
  ⟨k.open3.trans h.open3, k.unsealS.trans h.unsealS, h.raised.trans k.raised⟩

theorem SealKept.after {s t u : State} (k : SealKept t u) (h : SealKept s t) : SealKept s u := h.trans k

theorem SealKept.ite {s t u : State} (c : Prop) [Decidable c] (h : SealKept s t) (k : SealKept s u) :
    SealKept s (if c then t else u) := by
  split
  · exact h
  · exact k

/-- A state in which the named fields are the same. -/
theorem SealKept.of_eq {s t : State} (hopen : t.wg.open3 = s.wg.open3) (htime : t.wg.unsealS = s.wg.unsealS)
    (hraised : t.hi.raised = s.hi.raised) : SealKept s t := ⟨hopen, htime, hraised ▸ List.suffix_rfl⟩

theorem WgSame.sealKept {s t : State} (h : WgSame s t) (hraised : t.hi.raised = s.hi.raised) : SealKept s t :=
  .of_eq (by rw [h.wg]) (by rw [h.wg]) hraised

theorem Raised.sealKept {s t : State} {l : List (Nat × Sev)} (h : Raised s t l) : SealKept s t := by
  obtain ⟨pre, hpre, -⟩ := h.news
  exact ⟨by rw [h.wg], by rw [h.wg], pre, hpre.symm⟩

theorem EventRaised.after {s t u : State} {code : Nat} {sev : Sev} (h : EventRaised s t code sev) (k : SealKept t u) :
    EventRaised s u code sev := by
  obtain ⟨e, he, hcode⟩ := h
  exact ⟨e, k.raised.subset he, hcode⟩

theorem onMb_sealKept (s : State) (m : Nat) (f : Mbox → Mbox) : SealKept s (onMb s m f) := .of_eq rfl rfl rfl

theorem notify_sealKept (s : State) (m : Nat) : SealKept s (notify s m) := by
  have hsignal (v : Nat) : SealKept s (signal s v) :=
    .of_eq (by rw [(signal_quiet s v).wg]) (by rw [(signal_quiet s v).wg]) (signal_quiet s v).raised
  unfold notify
  exact .ite _ (hsignal 0) (.ite _ (hsignal 3) (.same s))

theorem putPart_sealKept (s : State) (m k : Nat) : SealKept s (putPart s m k) := (onMb_sealKept s m _).trans (onMb_sealKept _ m _)

theorem respond_sealKept (s : State) (m st seq winner beat : Nat) (body : List Byte) (fin : MbSt) :
    SealKept s (respond s m st seq winner beat body fin) := by
  unfold respond
  refine .ite _ (onMb_sealKept s m _) ?_
  exact (onMb_sealKept s m _).trans ((putPart_sealKept _ m 0).trans ((onMb_sealKept _ m _).trans (notify_sealKept _ m)))

/-- Only the queue of the writer changes as mirrors enter it. -/
theorem hwMirrors_hi (s : State) : (hwMirrors s).hi = s.hi := by
  unfold hwMirrors
  split
  · rfl
  · exact List.foldlRecOn (motive := fun (t : State) => t.hi = s.hi) _ _ rfl fun t ht e _ => by
      split
      · exact ht
      · exact ht

theorem jWrite_sealKept (s : State) (e : JEntry) : SealKept s (jWrite s e) := by
  refine (jWrite_wgSame s e).sealKept ?_
  unfold jWrite
  dsimp only
  rw [hwMirrors_hi]

theorem journal_sealKept (s : State) (m seq st link effect : Nat) : SealKept s (journal s m seq st link effect) := jWrite_sealKept s _

theorem supersede_sealKept (s : State) (m winner : Nat) : SealKept s (supersede s m winner) := by
  have htaken : SealKept s { s with rj.next := s.rj.next + 1 } := .of_eq rfl rfl rfl
  unfold supersede takeSeq
  dsimp only
  refine htaken.trans (.after (respond_sealKept _ _ _ _ _ _ _ _) ?_)
  exact .after (raise_news _ 0x0E01 .info 0 (by decide)).sealKept (.after (onMb_sealKept _ m _) (journal_sealKept _ m _ _ _ _))

theorem refuse_sealKept (s : State) (m st : Nat) : SealKept s (refuse s m st) :=
  (onMb_sealKept s m _).trans (respond_sealKept _ _ _ _ _ _ _ _)

theorem wakeActive_sealKept (s : State) : SealKept s (wakeActive s) := by
  refine (wakeActive_wgSame s).sealKept ?_
  unfold wakeActive wakeTo
  split <;> rfl

theorem accept_sealKept (s : State) (m : Nat) : SealKept s (accept s m) := by
  unfold accept
  have hseq : SealKept s (if recorded (mbOp s m) then takeSeq s else (0, s)).2 := by
    split
    · exact .of_eq rfl rfl rfl
    · exact .same s
  dsimp only
  generalize (if recorded (mbOp s m) then takeSeq s else (0, s)) = q at hseq ⊢
  have hbusy : SealKept s { onMb q.2 m (fun x => { x with st := .busy, accepted := satAdd 32 x.accepted 1 }) with
      wg.cur := some m, wg.curSeq := q.1, wg.wait := .none } := hseq.trans (.of_eq rfl rfl rfl)
  exact .ite _ hbusy (hbusy.trans (wakeActive_sealKept _))

theorem takeTurn_sealKept (s : State) (m : Nat) : SealKept s (takeTurn s m) := by
  unfold takeTurn
  refine .ite _ (refuse_sealKept _ _ _) (.ite _ (refuse_sealKept _ _ _) (.ite _ (respond_sealKept _ _ _ _ _ _ _ _)
    (.ite _ (refuse_sealKept _ _ _) ?_)))
  split
  · exact supersede_sealKept _ _ _
  · exact accept_sealKept _ _

theorem serveNext_sealKept (s : State) : SealKept s (serveNext s) := by
  rw [serveNext_eq]
  refine List.foldlRecOn (motive := SealKept s) _ _ (.same s) fun t ht m _ => ht.trans ?_
  unfold serveOne
  exact .ite _ ((putPart_sealKept t m _).trans ((onMb_sealKept _ m _).trans (notify_sealKept _ m))) (.same t)

theorem turns_sealKept (n : Nat) (s : State) : SealKept s (turns n s) := by
  induction n generalizing s with
  | zero => exact .same s
  | succ n ih =>
    unfold turns
    split
    · exact .same s
    · exact serveNext_sealKept s
    next m r hcur horder =>
      exact SealKept.trans (t := { s with wg.order := r }) (.of_eq rfl rfl rfl) ((takeTurn_sealKept _ m).trans (ih _))

theorem romRound_sealKept (s : State) : SealKept s (romRound s) := by
  unfold romRound
  refine .ite _ ?_ (.same s)
  exact .after (turns_sealKept 5 _) (.of_eq rfl rfl rfl)

/-- An answer, with the rest of the round that it ends, keeps WG3's seal and the events raised. -/
theorem answerAt_sealKept (s : State) (st : Nat) (body : List Byte) (effect : Nat) : SealKept s (answerAt s st body effect) := by
  unfold answerAt
  split
  next => exact .same s
  next m hcur =>
    dsimp only
    have hjournal : SealKept s (if recorded (mbOp s m) then journal s m s.wg.curSeq st 0 effect else s) :=
      .ite _ (journal_sealKept _ _ _ _ _ _) (.same s)
    generalize (if recorded (mbOp s m) then journal s m s.wg.curSeq st 0 effect else s) = a at hjournal ⊢
    have hheld (l : List (Key × Nat)) : SealKept a (if st ≤ 2 then { a with wg.held := a.wg.held ++ l } else a) :=
      .ite _ (.of_eq rfl rfl rfl) (.same a)
    have hended (u : State) : SealKept u { u with wg.cur := none, wg.curSeq := 0, wg.wait := .none } := .of_eq rfl rfl rfl
    refine hjournal.trans (.after (romRound_sealKept _) (.after (turns_sealKept 5 _) (.after (hended _) ?_)))
    exact .after (respond_sealKept _ m _ _ _ _ _ _) (hheld _)

end Sys2Proof.Machine
end

section
/-! PROOFS. The samplers of presence and of the seal loop, WG3, RESEAL, and the commands that read and mark the journal. -/

namespace Sys2Proof.Machine

open Sys2Proof

/- The samplers (R449, R450). -/

theorem exec_presenceSample_low {s : State} (h : alive s = true) : exec (.presenceSample true) s = .next { s with
    gr.presLow := true, gr.lowRun := min 50 (s.gr.lowRun + 1)
    gr.ageMs := if s.gr.qualified then s.gr.ageMs else s.gr.ageMs.map (fun n => n + 1) } := by
  refine congrArg Host.Outcome.next ?_
  rw [if_neg (by simp [h]), if_pos rfl]

theorem exec_presenceSample_high {s : State} (h : alive s = true) : exec (.presenceSample false) s = .next (
    if s.gr.qualified then { s with gr.presLow := false, gr.lowRun := 0, gr.qualified := false, gr.window := true, gr.ageMs := some 0 }
    else { s with gr.presLow := false, gr.lowRun := 0, gr.ageMs := s.gr.ageMs.map (fun n => n + 1) }) := by
  refine congrArg Host.Outcome.next ?_
  rw [if_neg (by simp [h]), if_neg (by decide)]

theorem exec_sealSample_open {s : State} (h : alive s = true) (b : Bool) :
    exec (.sealSample b !b) s = .next { s with gr.openRun := min 2 (s.gr.openRun + 1), gr.okRun := 0 } := by
  refine congrArg Host.Outcome.next ?_
  rw [if_neg (by simp [h]), if_pos (by simp)]

theorem exec_sealSample_closed {s : State} (h : alive s = true) (b : Bool) : exec (.sealSample b b) s = .next { s with
    gr.openRun := 0, gr.okRun := min 8 (s.gr.okRun + 1), gr.sealOk := s.gr.sealOk || decide (min 8 (s.gr.okRun + 1) = 8)
    gr.broken := s.gr.broken && decide (min 8 (s.gr.okRun + 1) ≠ 8) } := by
  refine congrArg Host.Outcome.next ?_
  rw [if_neg (by simp [h]), if_neg (by simp)]

/- A break (R373). -/

/-- A state record that is queued raises nothing. -/
theorem hwState_news (s : State) (typ : Nat) (payload : List Byte) : Raised s (hwState s typ payload) [] := by
  refine .ofQuiet (hwState_calm s typ payload) ?_
  unfold hwState hwHoldState
  exact .ite _ .same (.ite _ ⟨rfl, rfl, rfl, rfl⟩ ⟨rfl, rfl, rfl, rfl⟩)

/-- The state at a break, before it is reported. -/
def loopBroken (s : State) : State :=
  wg3Close { s with
    gr.latch := true, gr.sealOk := false, gr.broken := true, gr.window := false
    gr.breaks := satAdd 32 s.gr.breaks 1, gr.lifeBreaks := satAdd 32 s.gr.lifeBreaks 1, gr.breakBeat := beatNow s }

/-- The report of a break: event 0x0F04, and Heartwood's SEAL record once it has been scanned (R373, R405). -/
def breakReported (s : State) : State :=
  let s := raise s 0x0F04 .critical 0
  if s.hw.scanned then hwState s 4 (sealRecord s) else s

theorem breakReported_news (s : State) : Raised s (breakReported s) [(0x0F04, .critical)] := by
  have hevent := raise_news s 0x0F04 .critical 0 (by decide)
  unfold breakReported
  dsimp only
  split
  · exact hevent.trans (hwState_news _ _ _)
  · exact hevent

theorem exec_sealBreak {s : State} (h : alive s = true) (hopen : 2 ≤ s.gr.openRun) (hnew : s.gr.broken = false) :
    exec .sealBreak s = .next (breakReported (loopBroken s)) :=
  congrArg Host.Outcome.next (if_pos ⟨h, hopen, hnew⟩)

/- WG3 and RESEAL (R374, R376). -/

/-- A well-formed WG3_UNSEAL is answered by the row of its action as the checks of R374 say. -/
theorem unsealCmd_refused {s : State} {m act st : Nat} {p : List Byte} (h : AtCommand s 0x906 m p) (hlen : p.length = 6)
    (hrsv : leAt p 1 1 = 0) (hact : leAt p 0 1 = act) (hmax : act ≤ 1) (hst : presenceCheck s false = some st)
    (f : List Byte → State) : unsealCmd s act f = answer s st [] := by
  unfold unsealCmd
  rw [h.runs]
  simp [hlen, hrsv, hact, hmax, hst]

/-- A well-formed WG3_UNSEAL whose checks pass runs the row of its action (R376). -/
theorem unsealCmd_passing {s : State} {m act : Nat} {p : List Byte} (h : AtCommand s 0x906 m p) (hlen : p.length = 6)
    (hrsv : leAt p 1 1 = 0) (hact : leAt p 0 1 = act) (hmax : act ≤ 1) (hok : presenceCheck s false = none)
    (f : List Byte → State) : unsealCmd s act f = answer (f p) stOk [] := by
  unfold unsealCmd
  rw [h.runs]
  simp [hlen, hrsv, hact, hmax, hok]

/-- WG3's seal changed, and the command answered: the answer keeps it. -/
theorem AtCommand.resealed {s : State} {op m : Nat} {p : List Byte} (h : AtCommand s op m p) (opened : Bool) (seconds : Nat) :
    let e := { s with wg.open3 := opened, wg.unsealS := seconds }
    Answered s m stOk [] (answer e stOk []) ∧ (answer e stOk []).wg.open3 = opened ∧ (answer e stOk []).wg.unsealS = seconds := by
  intro e
  have hcalm : Calm s e := Calm.upd Calm.same
  have hanswered : Answered e m stOk [] (answer e stOk []) := answerAt_answered _ _ _ h.cur h.mbox h.order h.kept h.next
  have hkept : SealKept e (answer e stOk []) := answerAt_sealKept e stOk [] 0
  exact ⟨⟨hcalm.trans hanswered.calm, hanswered.done, hanswered.code, hanswered.body⟩, hkept.open3, hkept.unsealS⟩

/-- A presence-class command that its checks refuse (R374). -/
theorem presenceCmd_refused {s : State} {op m st : Nat} {p : List Byte} (h : AtCommand s op m p)
    (hst : presenceCheck s (op == 0x907) = some st) (f : List Byte → State) : presenceCmd s op f = answer s st [] := by
  unfold presenceCmd
  rw [h.runs, hst]

/-- A presence-class command whose checks pass (R374). -/
theorem presenceCmd_passing {s : State} {op m : Nat} {p : List Byte} (h : AtCommand s op m p)
    (hok : presenceCheck s (op == 0x907) = none) (f : List Byte → State) : presenceCmd s op f = f p := by
  unfold presenceCmd
  rw [h.runs, hok]

/-- The seal latch cleared and reported (R374). -/
def latchCleared (s : State) : State :=
  let s := raise { s with gr.latch := false } 0x0F05 .major 0
  hwState s 4 (sealRecord s)

theorem latchCleared_news (s : State) : Raised { s with gr.latch := false } (latchCleared s) [(0x0F05, .major)] :=
  (raise_news _ 0x0F05 .major 0 (by decide)).trans (hwState_news _ _ _)

theorem latchCleared_eventRaised (s : State) : EventRaised s (latchCleared s) 0x0F05 .major :=
  (raise_eventRaised { s with gr.latch := false } 0x0F05 .major 0).after (hwState_news _ _ _).sealKept

/-- A command answered after events: the answer leaves the state before them but for what Answered names. -/
theorem AtCommand.answered_raised {s e u : State} {op m : Nat} {p : List Byte} {l : List (Nat × Sev)} (h : AtCommand s op m p)
    (hwg : e.wg = s.wg) (hu : Raised e u l) (st : Nat) (body : List Byte) : Answered e m st body (answer u st body) := by
  have hanswered : Answered u m st body (answer u st body) := h.answered (hu.wg.trans hwg) st body 0
  exact ⟨hu.calm.trans hanswered.calm, hanswered.done, hanswered.code, hanswered.body⟩

/- The journal (R368, R371). -/

/-- What RJ_READ answers where entries stand (R371). -/
theorem rjRead_body {s : State} (h : s.rj.ent ≠ []) (first : Nat) :
    leBytes 1 (bit1 (decide (first < (if s.rj.ent.isEmpty then s.rj.next else rjOldest s)))) =
      leBytes 1 (if first < rjOldest s then 1 else 0) := by
  rw [if_neg (by simpa using h)]
  unfold bit1
  simp only [decide_eq_true_eq]

/-- Settles O57: each sampler by its branch; the break, WG3 and RESEAL by what their events and their answer keep. -/
theorem presenceSealAndJournal : Obligations.PresenceSealAndJournal := by
  refine fun s => ⟨fun halive => ⟨⟨_, exec_presenceSample_low halive, rfl⟩,
      fun hq => (exec_presenceSample_high halive).trans (congrArg _ (if_pos hq)),
      fun hq => (exec_presenceSample_high halive).trans (congrArg _ (if_neg (by simp [hq]))), fun hq hlow => ?qualified,
      fun n hwin hage hold => ?expiry, exec_sealSample_open halive, fun b hfew => ?counts, fun b hmany => ?intact,
      fun hopen hnew => ?breaks, fun hopen htime => congrArg _ (if_pos ⟨halive, hopen, htime⟩)⟩,
    fun m p h => ⟨fun st hst hlen hrsv => ⟨fun hact => ?unsealRefused, fun hact => ?sealRefused⟩,
      fun hok hlen hrsv => ⟨fun hact => ?unseals, fun hact => ?seals⟩⟩,
    fun m p h => ⟨fun st hst => ?resealRefused, fun hok => ⟨fun hclear => ?resealVain, fun hset => ?reseals⟩⟩,
    fun m p h hlen hmin hmax hne => ?reads, fun m p h hlen => ?marks, fun m p h hlen => ?badMark⟩
  case qualified => exact congrArg _ (if_pos ⟨halive, hq, hlow⟩)
  case expiry => exact congrArg _ (if_pos ⟨halive, hwin, by rw [hage]; exact hold⟩)
  case counts =>
    have hrun : min 8 (s.gr.okRun + 1) = s.gr.okRun + 1 := by omega
    have hless : s.gr.okRun + 1 ≠ 8 := by omega
    rw [exec_sealSample_closed halive, hrun]
    simp [hless]
  case intact =>
    have hrun : min 8 (s.gr.okRun + 1) = 8 := by omega
    rw [exec_sealSample_closed halive, hrun]
    simp
  case breaks =>
    have hnews := breakReported_news (loopBroken s)
    have hbeat : (breakReported (loopBroken s)).gr.breakBeat = beatNow s := by rw [hnews.calm.gr]; rfl
    refine ⟨_, exec_sealBreak halive hopen hnew, ?_, hnews.calm.hi, hnews.calm.hw, hnews.news.from rfl⟩
    rw [hbeat]
    exact hnews.frame
  case unsealRefused =>
    exact ⟨answer s st [], congrArg Host.Outcome.next (unsealCmd_refused h hlen hrsv hact (by decide) hst _), h.answered rfl _ _ _⟩
  case sealRefused =>
    exact ⟨answer s st [], congrArg Host.Outcome.next (unsealCmd_refused h hlen hrsv hact (by decide) hst _), h.answered rfl _ _ _⟩
  case unseals =>
    exact ⟨_, congrArg Host.Outcome.next (unsealCmd_passing h hlen hrsv hact (by decide) hok _), h.resealed true (leAt p 2 4)⟩
  case seals =>
    obtain ⟨hanswered, hopen, -⟩ := h.resealed false 0
    exact ⟨_, congrArg Host.Outcome.next (unsealCmd_passing h hlen hrsv hact (by decide) hok _), hanswered, hopen⟩
  case resealRefused =>
    exact ⟨answer s st [], congrArg Host.Outcome.next (presenceCmd_refused h hst _), h.answered rfl _ _ _⟩
  case resealVain =>
    exact ⟨answer s stIncons [], congrArg Host.Outcome.next ((presenceCmd_passing h hok _).trans (if_pos hclear)), h.answered rfl _ _ _⟩
  case reseals =>
    exact ⟨answer (latchCleared s) stOk [],
      congrArg Host.Outcome.next ((presenceCmd_passing h hok _).trans (if_neg (by simp [hset]))),
      (latchCleared_eventRaised s).after (answerAt_sealKept _ _ _ _),
      h.answered_raised (e := { s with gr.latch := false }) rfl (latchCleared_news s) _ _⟩
  case reads =>
    have hshape : ¬ (p.length ≠ 11 ∨ leAt p 8 2 = 0 ∨ 8192 < leAt p 8 2) := by omega
    refine h.ran (c := .rjRead) rfl ?_
    dsimp only
    rw [if_neg hshape, rjRead_body hne]
    exact h.answered rfl _ _ _
  case marks =>
    refine h.ran (c := .rjMark) rfl ?_
    rw [if_pos hlen]
    exact h.answered rfl _ _ _
  case badMark =>
    refine h.ran (c := .rjMark) rfl ?_
    rw [if_neg hlen]
    exact h.answered rfl _ _ _

end Sys2Proof.Machine
end

section
/-! PROOFS. The Heartwood log (R399 to R411): what an event and a record's way into the log leave of Heartwood. -/

namespace Sys2Proof.Machine

open Sys2Proof

/- The event ring alone. -/

/-- t is s with the host interface changed alone. -/
def InHi (s t : State) : Prop := ∃ h, t = { s with hi := h }

theorem InHi.same (s : State) : InHi s s := ⟨s.hi, rfl⟩

theorem InHi.trans {s t u : State} (h : InHi s t) (k : InHi t u) : InHi s u := by
  obtain ⟨a, rfl⟩ := h
  obtain ⟨b, rfl⟩ := k
  exact ⟨b, rfl⟩

theorem InHi.ite {s t u : State} (c : Prop) [Decidable c] (h : InHi s t) (k : InHi s u) : InHi s (if c then t else u) := by
  split
  · exact h
  · exact k

theorem InHi.hw {s t : State} (h : InHi s t) : t.hw = s.hw := by
  obtain ⟨a, rfl⟩ := h
  rfl

theorem signal_inHi (s : State) (v : Nat) : InHi s (signal s v) := by
  unfold signal
  exact .ite _ ⟨_, rfl⟩ ⟨_, rfl⟩

theorem evrPut_inHi (s : State) (e : Event) : InHi s (evrPut s e) := by
  have hput : InHi s { hostMemWrite s (s.hi.evr.base + 64 * s.hi.evr.tail) (eventBytes e s.hi.evr.phase) with
      hi.evr := s.hi.evr.advance } := ⟨_, rfl⟩
  unfold evrPut
  dsimp only
  split
  · exact hput.trans (signal_inHi _ _)
  · exact hput.trans (signal_inHi _ _)
  · exact hput

theorem evrOverflow_inHi (s : State) : InHi s (evrOverflow s) := by
  unfold evrOverflow
  exact .ite _ ((evrPut_inHi s _).trans ⟨_, rfl⟩) (.same s)

theorem evrEmit_inHi (s : State) (e : Event) : InHi s (evrEmit s e) := by
  have hover := evrOverflow_inHi s
  unfold evrEmit
  exact .ite _ hover (.ite _ (hover.trans ⟨_, rfl⟩) (hover.trans (evrPut_inHi _ _)))

theorem bootqDeliver_inHi (s : State) : InHi s (bootqDeliver s) := by
  have hemit (l : List Event) (u : State) : InHi u (l.foldl evrEmit u) :=
    List.foldlRecOn (motive := InHi u) _ _ (.same u) fun t ht e _ => ht.trans (evrEmit_inHi t e)
  have hclear : InHi s { s with hi.bootq := [], hi.bootLost := 0 } := ⟨_, rfl⟩
  have hlost (u : State) (n : Nat) : InHi u (evrOverflow { u with hi.evrLostNew := u.hi.evrLostNew + n }) :=
    InHi.trans ⟨_, rfl⟩ (evrOverflow_inHi _)
  unfold bootqDeliver
  exact .ite _ ((hclear.trans (hemit _ _)).trans (hlost _ _)) (.same s)

/-- An event to the ring changes the host interface alone (R330). -/
theorem raiseRing_inHi (s : State) (beat code : Nat) (sev : Sev) (detail : Nat) : InHi s (raiseRing s beat code sev detail) := by
  have hqueue (u : State) (e : Event) : InHi u (bootqAdd u e) := by
    unfold bootqAdd
    exact .ite _ ⟨_, rfl⟩ (.ite _ ⟨_, rfl⟩ ⟨_, rfl⟩)
  have hring (u : State) (e : Event) : InHi u (toRing u e) := by
    unfold toRing
    exact .ite _ ((bootqDeliver_inHi u).trans (evrEmit_inHi _ e)) (hqueue u e)
  unfold raiseRing
  exact InHi.trans ⟨_, rfl⟩ (hring _ _)

/-- A Major event's record enters Heartwood's queue behind those that wait, or is lost (R403). -/
theorem raise_major_queue (s : State) (code detail : Nat) : s.hw.queue <+: (raise s code .major detail).hw.queue := by
  have hring (u : State) (beat code : Nat) (sev : Sev) (detail : Nat) : (raiseRing u beat code sev detail).hw = u.hw :=
    (raiseRing_inHi u beat code sev detail).hw
  unfold raise raiseAt
  dsimp only
  rw [← congrArg Hw.queue (hring s s.beat.num code .major detail)]
  generalize raiseRing s s.beat.num code .major detail = u
  unfold hwEvent
  dsimp only
  split
  · exact List.prefix_rfl
  split
  · exact List.prefix_append _ _
  · rw [hring]
    exact List.prefix_rfl

/- The log. -/

/-- The log, the place of its heads, the beat and the journal stay, and so does the mark of the first copy. -/
structure LogKept (s t : State) : Prop where
  log : t.hw.log = s.hw.log
  next : t.hw.nextRseq = s.hw.nextRseq
  boot : t.hw.boot = s.hw.boot
  map : t.hw.map = s.hw.map
  head : t.hw.head = s.hw.head
  copy0 : t.hw.copy0 = s.hw.copy0
  num : t.beat.num = s.beat.num
  rj : t.rj = s.rj

theorem LogKept.same (s : State) : LogKept s s := ⟨rfl, rfl, rfl, rfl, rfl, rfl, rfl, rfl⟩

theorem LogKept.trans {s t u : State} (h : LogKept s t) (k : LogKept t u) : LogKept s u :=
  ⟨k.log.trans h.log, k.next.trans h.next, k.boot.trans h.boot, k.map.trans h.map, k.head.trans h.head, k.copy0.trans h.copy0,
    k.num.trans h.num, k.rj.trans h.rj⟩

theorem LogKept.after {s t u : State} (k : LogKept t u) (h : LogKept s t) : LogKept s u := h.trans k

theorem LogKept.of_events {s t : State} (h : HwEvents s.hw t.hw) (hnum : t.beat.num = s.beat.num) (hrj : t.rj = s.rj) : LogKept s t := by
  unfold HwEvents at h
  exact ⟨by rw [h], by rw [h], by rw [h], by rw [h], by rw [h], by rw [h], hnum, hrj⟩

theorem Raised.logKept {s t : State} {l : List (Nat × Sev)} (h : Raised s t l) : LogKept s t :=
  .of_events h.calm.hw (by rw [h.calm.beat]) h.rj

/-- The block at head A depends on the map and the heads' place alone. -/
theorem LogKept.hwHeadA {s t : State} (h : LogKept s t) : hwHeadA t = hwHeadA s := by
  unfold Machine.hwHeadA hwBlock
  rw [h.map, h.head]

theorem LogKept.hwHeadB {s t : State} (h : LogKept s t) : hwHeadB t = hwHeadB s := by
  unfold Machine.hwHeadB hwBlock
  rw [h.map, h.head]

theorem hwOpen_logKept (s : State) : LogKept s (hwOpen s) := by
  unfold hwOpen
  split
  · exact ⟨rfl, rfl, rfl, rfl, rfl, rfl, rfl, rfl⟩
  · exact .same s

/-- Opening the heads leaves what waits for them (R400). -/
theorem hwOpen_queue (s : State) : (hwOpen s).hw.queue = s.hw.queue := by
  unfold hwOpen
  split <;> rfl

/-- The log and the mark of the first copy after a record has been written or its state kept. -/
structure RecordIn (s t : State) (l : List HwRec) : Prop where
  log : t.hw.log = s.hw.log ++ l
  next : t.hw.nextRseq = s.hw.nextRseq + l.length
  copy0 : t.hw.copy0 = s.hw.copy0
  rj : t.rj = s.rj

/-- The record that a write puts at both heads with the next RSEQ (R401, R402). -/
def recordAt (s : State) (typ : Nat) (payload : List Byte) : HwRec :=
  { typ := typ, rseq := s.hw.nextRseq, beat := s.beat.num, boot := s.hw.boot, payload := payload.take 224,
    blks := [hwHeadA s, hwHeadB s] }

theorem LogKept.recordAt {s t : State} (h : LogKept s t) (typ : Nat) (payload : List Byte) :
    recordAt t typ payload = recordAt s typ payload := by
  unfold Machine.recordAt
  rw [h.next, h.num, h.boot, h.hwHeadA, h.hwHeadB]

/-- A write enters its record, whatever it opens before and closes behind it. -/
theorem hwWrite_recordIn (s : State) (typ : Nat) (payload : List Byte) :
    RecordIn s (hwWrite s typ payload) [recordAt s typ payload] := by
  have hopen := hwOpen_logKept s
  rw [← hopen.recordAt]
  unfold hwWrite
  dsimp only
  split
  · exact ⟨congrArg (· ++ _) hopen.log, congrArg (· + 1) hopen.next, hopen.copy0, hopen.rj⟩
  · exact ⟨congrArg (· ++ _) hopen.log, congrArg (· + 1) hopen.next, hopen.copy0, hopen.rj⟩

/-- A state that a record holds is kept beside the log (R402). -/
theorem hwNor_recordIn (s : State) (r : HwPend) : RecordIn s (hwNor s r) [] := by
  have hkept (u : State) (hlog : u.hw.log = s.hw.log) (hnext : u.hw.nextRseq = s.hw.nextRseq) (hcopy : u.hw.copy0 = s.hw.copy0)
      (hrj : u.rj = s.rj) : RecordIn s u [] := ⟨hlog.trans (List.append_nil _).symm, hnext, hcopy, hrj⟩
  unfold hwNor
  dsimp only
  split
  · exact hkept _ rfl rfl rfl rfl
  split
  · exact hkept _ rfl rfl rfl rfl
  split
  · exact hkept _ rfl rfl rfl rfl
  split
  · exact hkept _ rfl rfl rfl rfl
  · exact hkept _ rfl rfl rfl rfl

/-- A record that commits stands at the end of the log, and a mirror marks its entry (R370, R402). -/
theorem hwCommit_log (s : State) (r : HwPend) :
    (hwCommit s r).hw.log = s.hw.log ++ [recordAt s r.typ r.payload] ∧ (hwCommit s r).hw.nextRseq = s.hw.nextRseq + 1 ∧
      (hwCommit s r).hw.copy0 = s.hw.copy0 ∧
      ∀ n, r.kind = .mirror n → (hwCommit s r).rj.ent = s.rj.ent.map (fun e => if e.seq = n then { e with mirrored := true } else e) := by
  have hwrite := hwWrite_recordIn s r.typ r.payload
  have hnor := hwNor_recordIn (hwWrite s r.typ r.payload) r
  have hlog := hnor.log.trans ((List.append_nil _).trans hwrite.log)
  have hnext := hnor.next.trans hwrite.next
  have hcopy := hnor.copy0.trans hwrite.copy0
  have hrj := hnor.rj.trans hwrite.rj
  unfold hwCommit
  dsimp only
  split
  next n hk =>
    refine ⟨hlog, hnext, hcopy, fun i hi => ?_⟩
    obtain rfl : n = i := by simpa [hk] using hi
    dsimp only
    rw [hrj]
  next hk => exact ⟨hlog, hnext, hcopy, fun n hn => absurd hn (hk n)⟩

theorem hwMirrors_logKept (s : State) : LogKept s (hwMirrors s) :=
  .of_events (hwMirrors_calm s).hw (by rw [(hwMirrors_calm s).beat]) (hwMirrors_keeps s).rj

/-- Records that enter the queue leave the log (R403). -/
theorem hwRefill_logKept (s : State) : LogKept s (hwRefill s) := by
  unfold hwRefill
  exact .after (hwMirrors_logKept _) ⟨rfl, rfl, rfl, rfl, rfl, rfl, rfl, rfl⟩

/-- The retries of one program leave the log, and the records that wait keep their places (R408). -/
theorem hwRetries_kept (s : State) (n : Nat) :
    LogKept s (hwRetries s n) ∧ s.hw.queue <+: (hwRetries s n).hw.queue ∧ (hwRetries s n).jtag = s.jtag := by
  have hcount : LogKept s { s with hw.retries := (n :: s.hw.retries).take 1024 } := ⟨rfl, rfl, rfl, rfl, rfl, rfl, rfl, rfl⟩
  have hwarn (u : State) : LogKept u (raise { u with hw.wearBeat := some u.beat.num } 0x1203 .major 0) :=
    .after (raise_news _ 0x1203 .major 0 (by decide)).logKept ⟨rfl, rfl, rfl, rfl, rfl, rfl, rfl, rfl⟩
  have hbehind (u : State) : u.hw.queue <+: (raise { u with hw.wearBeat := some u.beat.num } 0x1203 .major 0).hw.queue :=
    raise_major_queue { u with hw.wearBeat := some u.beat.num } 0x1203 0
  unfold hwRetries
  dsimp only
  split
  next => exact ⟨hcount, List.prefix_rfl, rfl⟩
  next => exact ⟨hcount.trans (hwarn _), hbehind { s with hw.retries := (n :: s.hw.retries).take 1024 }, (raise_keeps _ _ _ _).jtag⟩

/-- The first program without a retry raises no warning (R408). -/
theorem hwRetries_first {s : State} (h : s.hw.retries = []) : hwRetries s 0 = { s with hw.retries := [0] } := by
  have hmilli : hwRetryMilli { s with hw.retries := [0] } ≤ 10 := by simp [hwRetryMilli]
  unfold hwRetries
  rw [h]
  exact if_pos (.inl hmilli)

end Sys2Proof.Machine
end

section
/-! PROOFS. What happens to the Heartwood log: programs, reclaim, erases, the scan and HW_READ (R399 to R411). -/

namespace Sys2Proof.Machine

open Sys2Proof

/- Programs (R402, R407). -/

/-- The state as a program ends: the heads are opened and the retries counted. -/
def programmed (s : State) (retries : Nat) : State := hwRetries (hwOpen s) (min retries 3)

theorem programmed_logKept (s : State) (retries : Nat) : LogKept s (programmed s retries) :=
  (hwOpen_logKept s).trans (hwRetries_kept _ _).1

theorem programmed_queue (s : State) (retries : Nat) : s.hw.queue <+: (programmed s retries).hw.queue := by
  rw [← hwOpen_queue s]
  exact (hwRetries_kept _ _).2.1

theorem programmed_ballsTaken (s : State) (retries : Nat) : ballsTaken (programmed s retries) = ballsTaken s := by
  have hjtag : (programmed s retries).jtag = s.jtag := (hwRetries_kept _ _).2.2.trans (hwOpen_keeps s).jtag
  unfold ballsTaken
  rw [hjtag]

/-- The first program without a retry leaves the spares, the retired blocks and the events as they are. -/
theorem programmed_first {s : State} (h : s.hw.retries = []) : (programmed s 0).hw.spares = s.hw.spares ∧
    (programmed s 0).hw.retired = s.hw.retired ∧ (programmed s 0).hi = s.hi := by
  have hopen : (hwOpen s).hw.retries = s.hw.retries ∧ (hwOpen s).hw.spares = s.hw.spares ∧
      (hwOpen s).hw.retired = s.hw.retired ∧ (hwOpen s).hi = s.hi := by
    unfold hwOpen
    split
    · exact ⟨rfl, rfl, rfl, rfl⟩
    · exact ⟨rfl, rfl, rfl, rfl⟩
  obtain ⟨hretries, hkept⟩ := hopen
  have hfirst : programmed s 0 = { hwOpen s with hw.retries := [0] } := hwRetries_first (hretries.trans h)
  rw [hfirst]
  exact hkept

/-- A program of the copy that is due, while the heads can take one. -/
theorem exec_programComplete {s : State} {r : HwPend} {q : List HwPend} {copy : Bool} (hq : s.hw.queue = r :: q)
    (hcan : hwCanProgram s = true) (hcopy : s.hw.copy0 = copy) (ok : Bool) (retries : Nat) :
    exec (.heartwoodProgramComplete copy ok retries) s = .next (
      let u := programmed s retries
      if ok = false ∨ ballsTaken u = true then blockFailure u (if copy then hwHeadB u else hwHeadA u)
      else if copy = false then { u with hw.copy0 := true }
      else hwRefill (hwCommit { u with hw.queue := u.hw.queue.drop 1, hw.copy0 := false } r)) := by
  have hdue : ¬ (hwCanProgram s = false ∨ copy ≠ s.hw.copy0) := by simp [hcan, hcopy]
  refine congrArg Host.Outcome.next ?_
  rw [hq]
  exact if_neg hdue

/-- The first element of a list stays in front of a longer one. -/
theorem head?_of_prefix {α : Type} {r : α} {q l l' : List α} (hq : l = r :: q) (h : l <+: l') : l'.head? = some r := by
  obtain ⟨k, rfl⟩ := h
  simp [hq]

/-- No copy of the forgotten block is read any more. -/
theorem hwForget_forgets (s : State) (b : Nat) : ∀ k ∈ (hwForget s b).hw.log, b ∉ k.blks := by
  intro k hk
  obtain ⟨r, -, hr⟩ := List.mem_filterMap.mp hk
  dsimp only at hr
  split at hr
  · exact absurd hr (by simp)
  · obtain rfl := Option.some.inj hr
    simp

/-- The log, the map, the retired blocks and the host interface stay. -/
structure MapKept (s t : State) : Prop where
  log : t.hw.log = s.hw.log
  map : t.hw.map = s.hw.map
  retired : t.hw.retired = s.hw.retired
  hi : t.hi = s.hi

theorem MapKept.trans {s t u : State} (h : MapKept s t) (k : MapKept t u) : MapKept s u :=
  ⟨k.log.trans h.log, k.map.trans h.map, k.retired.trans h.retired, k.hi.trans h.hi⟩

/-- The erase of a full anchor is counted. -/
def anchorErased (v a : Nat) (s : State) : State :=
  if v / 2 % 256 = 0 ∧ 512 ≤ v then { s with hw.erases := s.hw.erases.putAt a (s.hw.erases.getAt a 0 + 1) 0 } else s

theorem anchorErased_kept (v a : Nat) (s : State) : MapKept s (anchorErased v a s) := by
  unfold anchorErased
  split
  · exact ⟨rfl, rfl, rfl, rfl⟩
  · exact ⟨rfl, rfl, rfl, rfl⟩

/-- A worn anchor moves to a spare. -/
def anchorMoved (v a : Nat) (s : State) : State :=
  if hwMeanErases s + 1000 < s.hw.erases.getAt a 0 then
    match s.hw.spares with
    | [] => s
    | x :: r =>
      let s := { s with hw.spares := r ++ [a] }
      if v % 2 = 0 then { s with hw.anchorA := x } else { s with hw.anchorB := x }
  else s

theorem anchorMoved_kept (v a : Nat) (s : State) : MapKept s (anchorMoved v a s) := by
  unfold anchorMoved
  split
  · split
    · exact ⟨rfl, rfl, rfl, rfl⟩
    · dsimp only
      split
      · exact ⟨rfl, rfl, rfl, rfl⟩
      · exact ⟨rfl, rfl, rfl, rfl⟩
  · exact ⟨rfl, rfl, rfl, rfl⟩

/-- A rewrite of the block map leaves the log, the map and the retired blocks as they are (R400). -/
theorem mapRewrite_kept (s : State) : MapKept s (mapRewrite s) := by
  have hparts : mapRewrite s =
      let a := if s.hw.mapVer % 2 = 0 then s.hw.anchorA else s.hw.anchorB
      anchorMoved s.hw.mapVer a (anchorErased s.hw.mapVer a { s with hw.mapVer := s.hw.mapVer + 1 }) := rfl
  have hversion : MapKept s { s with hw.mapVer := s.hw.mapVer + 1 } := ⟨rfl, rfl, rfl, rfl⟩
  rw [hparts]
  exact hversion.trans ((anchorErased_kept _ _ _).trans (anchorMoved_kept _ _ _))

/-- The state in which a failed block has been retired and reported. -/
def blockRetired (s : State) (b : Nat) : State :=
  raise (hwForget { s with hw.retired := s.hw.retired ++ [b] } b) 0x1202 .minor 0

theorem blockRetired_news (s : State) (b : Nat) :
    Raised (hwForget { s with hw.retired := s.hw.retired ++ [b] } b) (blockRetired s b) [(0x1202, .minor)] :=
  raise_news _ 0x1202 .minor 0 (by decide)

/-- A failed block whose place a spare takes (R407). -/
theorem blockFailure_spare {s : State} {b x : Nat} {xs : List Nat} (h : s.hw.spares = x :: xs) :
    blockFailure s b = mapRewrite { blockRetired s b with
      hw.map := (blockRetired s b).hw.map.map (fun y => if y = b then x else y), hw.spares := xs } := by
  have hspares : (blockRetired s b).hw.spares = x :: xs := by
    have hhw := (blockRetired_news s b).calm.hw
    unfold HwEvents at hhw
    rw [hhw]
    exact h
  unfold blockFailure
  unfold blockRetired at hspares ⊢
  dsimp only
  rw [hspares]

/-- What the failure of a block with a spare leaves (R407). -/
theorem blockFailure_left {s : State} {b x : Nat} {xs : List Nat} (h : s.hw.spares = x :: xs) :
    (blockFailure s b).hw.retired = s.hw.retired ++ [b] ∧ (∀ k ∈ (blockFailure s b).hw.log, b ∉ k.blks) ∧
      (blockFailure s b).hw.map = s.hw.map.map (fun y => if y = b then x else y) ∧ Logs s (blockFailure s b) [(0x1202, .minor)] := by
  have hnews := blockRetired_news s b
  have hhw := hnews.calm.hw
  unfold HwEvents at hhw
  have hlog : (blockRetired s b).hw.log = (hwForget { s with hw.retired := s.hw.retired ++ [b] } b).hw.log := by rw [hhw]
  have hretired : (blockRetired s b).hw.retired = s.hw.retired ++ [b] := by rw [hhw]; rfl
  have hmap : (blockRetired s b).hw.map = s.hw.map := by rw [hhw]; rfl
  have hkept := mapRewrite_kept { blockRetired s b with
    hw.map := (blockRetired s b).hw.map.map (fun y => if y = b then x else y), hw.spares := xs }
  rw [blockFailure_spare h]
  refine ⟨hkept.retired.trans hretired, ?_, hkept.map.trans (congrArg (List.map _) hmap), ?_⟩
  · rw [hkept.log]
    dsimp only
    rw [hlog]
    exact hwForget_forgets _ b
  · unfold Logs
    rw [hkept.hi]
    exact hnews.news

/- Erases (R404, R408). -/

/-- The state as an erase ends: its time is noted, and its block is counted. -/
def eraseEnded (s : State) (b pct : Nat) : State :=
  let s := { s with hw.erasePct := min pct 0xFFFF }
  eraseDone (if 200 < pct then raise s 0x1204 .major 0 else s) b

/-- Beside what is noted only the records that wait change, and event 0x1204 is raised above twice the typical time. -/
theorem eraseEnded_left (s : State) (b pct : Nat) :
    HwEvents { s.hw with erasePct := min pct 0xFFFF, erases := s.hw.erases.putAt b (s.hw.erases.getAt b 0 + 1) 0 }
      (eraseEnded s b pct).hw ∧ Logs s (eraseEnded s b pct) (if 200 < pct then [(0x1204, .major)] else []) := by
  let u := if 200 < pct then raise { s with hw.erasePct := min pct 0xFFFF } 0x1204 .major 0
    else { s with hw.erasePct := min pct 0xFFFF }
  have hraised : Raised { s with hw.erasePct := min pct 0xFFFF } u (if 200 < pct then [(0x1204, .major)] else []) := by
    by_cases hslow : 200 < pct
    · simp only [u, if_pos hslow]
      exact raise_news _ 0x1204 .major 0 (by decide)
    · simp only [u, if_neg hslow]
      exact .same _
  have hevents : HwEvents { s.hw with erasePct := min pct 0xFFFF } u.hw := hraised.calm.hw
  have herases : u.hw.erases = s.hw.erases := by
    unfold HwEvents at hevents
    rw [hevents]
  have hcounted : HwEvents { s.hw with erasePct := min pct 0xFFFF, erases := s.hw.erases.putAt b (s.hw.erases.getAt b 0 + 1) 0 }
      { u.hw with erases := u.hw.erases.putAt b (u.hw.erases.getAt b 0 + 1) 0 } := by
    rw [herases]
    unfold HwEvents at hevents ⊢
    rw [hevents]
  have hdone := hwState_news { u with hw.erases := u.hw.erases.putAt b (u.hw.erases.getAt b 0 + 1) 0 } 7
    (wearChunk { u with hw.erases := u.hw.erases.putAt b (u.hw.erases.getAt b 0 + 1) 0 } (b / 55))
  have hlogs : Logs { s with hw.erasePct := min pct 0xFFFF } (eraseEnded s b pct) (if 200 < pct then [(0x1204, .major)] else []) := by
    have hboth := hraised.news.trans (hdone.news.from (s := u) rfl)
    rwa [List.append_nil] at hboth
  exact ⟨hcounted.trans hdone.calm.hw, hlogs.from rfl⟩

theorem exec_eraseComplete {s : State} {b : Nat} (h : s.hw.erasing = some b) (hwriter : hwWriter s = true)
    (hballs : ballsTaken s = false) (blank : Bool) (pct : Nat) :
    exec (.heartwoodEraseComplete blank pct) s = .next (
      let s := eraseEnded s b pct
      if blank = false ∧ s.hw.attempts = 0 then { s with hw.attempts := 1 }
      else
        let wiping := !s.hw.wipe.isEmpty
        let s := { s with hw.erasing := none, hw.attempts := 0, hw.wipe := s.hw.wipe.filter (fun x => x != b) }
        let spare := !s.hw.spares.isEmpty
        let s := if blank then s else blockFailure s b
        if hwKnown s = false then s
        else if wiping then wipeNext s
        else if blank || spare then { s with hw.used := s.hw.used - 1 }
        else s) := by
  have hblank : (blank && !ballsTaken s) = blank := by rw [hballs]; simp
  refine congrArg Host.Outcome.next ?_
  rw [h]
  dsimp only
  rw [if_neg (by simp [hwriter]), hblank]
  rfl

/-- A block that reads blank is given back to the log (R404). -/
theorem exec_eraseComplete_blank {s : State} {b : Nat} (h : s.hw.erasing = some b) (hwriter : hwWriter s = true)
    (hballs : ballsTaken s = false) (hwipe : s.hw.wipe = []) (pct : Nat) :
    exec (.heartwoodEraseComplete true pct) s = .next { eraseEnded s b pct with
      hw.erasing := none, hw.attempts := 0, hw.wipe := [], hw.used := (eraseEnded s b pct).hw.used - 1 } := by
  have hevents := (eraseEnded_left s b pct).1
  unfold HwEvents at hevents
  have hwiped : (eraseEnded s b pct).hw.wipe = [] := by rw [hevents]; exact hwipe
  have hscanned : (eraseEnded s b pct).hw.scanned = s.hw.scanned := by rw [hevents]
  have honline : (eraseEnded s b pct).hw.online = s.hw.online := by rw [hevents]
  have hknown : s.hw.scanned = true ∧ s.hw.online = true := by
    simp only [hwWriter, hwKnown, Bool.and_eq_true] at hwriter
    exact hwriter.2
  rw [exec_eraseComplete h hwriter hballs]
  simp [hwiped, hwKnown, hscanned, honline, hknown]

/- The scan (R399, R405). -/

/-- What the scan has found, and what it has brought into AON, stay. -/
structure ScanKept (s t : State) : Prop where
  online : t.hw.online = s.hw.online
  scanned : t.hw.scanned = s.hw.scanned
  log : t.hw.log = s.hw.log
  loaded : t.hw.loaded = s.hw.loaded
  cmb : t.cmb = s.cmb
  gr : t.gr = s.gr
  hl : t.hl = s.hl

theorem ScanKept.trans {s t u : State} (h : ScanKept s t) (k : ScanKept t u) : ScanKept s u :=
  ⟨k.online.trans h.online, k.scanned.trans h.scanned, k.log.trans h.log, k.loaded.trans h.loaded, k.cmb.trans h.cmb,
    k.gr.trans h.gr, k.hl.trans h.hl⟩

theorem ScanKept.after {s t u : State} (k : ScanKept t u) (h : ScanKept s t) : ScanKept s u := h.trans k

theorem Calm.scanKept {s t : State} (h : Calm s t) : ScanKept s t := by
  have hhw := h.hw
  unfold HwEvents at hhw
  exact ⟨by rw [hhw], by rw [hhw], by rw [hhw], by rw [hhw], h.cmb, h.gr, h.hl⟩

/-- State records that are written again only wait (R455). -/
theorem hwRewrite_calm (s : State) : Calm s (hwRewrite s) := by
  have hstate (u : State) (c : Prop) [Decidable c] (typ : Nat) (p : List Byte) : Calm u (if c then u else hwState u typ p) :=
    .ite _ .same (hwState_calm u typ p)
  unfold hwRewrite
  exact .after (hstate _ _ _ _) (.after (hstate _ _ _ _) (.after (hstate _ _ _ _) (Calm.foldl _ _ _ fun _ _ => hstate _ _ _ _)))

/-- The report of the last power failure (R406). -/
def powerFailTold (s : State) : State :=
  match s.hw.powerFail with
  | none => s
  | some d => raise { s with hw.powerFail := none } 0x1207 .info d

theorem powerFailTold_kept (s : State) : ScanKept s (powerFailTold s) := by
  unfold powerFailTold
  split
  next => exact Calm.same.scanKept
  next d hd => exact .after (raise_news _ 0x1207 .info d (by decide)).calm.scanKept ⟨rfl, rfl, rfl, rfl, rfl, rfl, rfl⟩

/-- The BOOT record of a boot that ends before READY (R456). -/
def bootTold (s : State) : State :=
  match s.hi.readiness with
  | .recovery => bootRecordWrite s
  | .failed => bootRecordWrite s
  | _ => s

theorem bootTold_kept (s : State) : ScanKept s (bootTold s) := by
  have hrecord : ScanKept s (bootRecordWrite s) := by
    unfold bootRecordWrite
    split
    · exact ScanKept.trans (hwState_calm s 9 (bootRecord s)).scanKept ⟨rfl, rfl, rfl, rfl, rfl, rfl, rfl⟩
    · exact Calm.same.scanKept
  unfold bootTold
  split
  · exact hrecord
  · exact hrecord
  · exact Calm.same.scanKept

/-- Heartwood is online, and what its newest state records hold has come into AON (R405). -/
def scanLoaded (s : State) : State :=
  hwLoad { hwLose s s.hw.lostAtReset with hw.lostAtReset := 0, hw.scanned := true, hw.online := true }

/-- The erase of HW_ERASE that the reset has interrupted goes on. -/
def scanErases (s : State) : State := { s with hw.erasing := s.hw.wipe.head?, hw.attempts := 0 }

theorem hwScanEnd_online (s : State) :
    hwScanEnd s true = romRound (bootTold (scanErases (hwMirrors (powerFailTold (hwRewrite (scanLoaded s)))))) := rfl

/-- The rest of a scan that succeeds keeps what it has loaded. -/
theorem hwScanEnd_kept (s : State) : ScanKept (scanLoaded s) (hwScanEnd s true) := by
  have herases (u : State) : ScanKept u (scanErases u) := ⟨rfl, rfl, rfl, rfl, rfl, rfl, rfl⟩
  rw [hwScanEnd_online]
  exact .after (romRound_calm _).scanKept (.after (bootTold_kept _) (.after (herases _) (.after (hwMirrors_calm _).scanKept
    (.after (powerFailTold_kept _) (hwRewrite_calm _).scanKept))))

theorem scanLoaded_left (s : State) : (scanLoaded s).hw.scanned = true ∧ (scanLoaded s).hw.online = true ∧
    (scanLoaded s).hw.log = s.hw.log ∧ (s.hw.loaded = false → (scanLoaded s).hw.loaded = true ∧
      (scanLoaded s).cmb.retired = s.hw.norRetired ∧ (scanLoaded s).gr.latch = (s.gr.latch || s.hw.norLatch) ∧
      (scanLoaded s).hl.session = s.hw.norSession) := by
  unfold scanLoaded hwLoad hwLose
  by_cases hloaded : s.hw.loaded = true
  · simp [hloaded]
  · simp [hloaded]

/-- Heartwood is offline: nothing waits for it, no retired page is known, and event 0x1201 has been raised (R399). -/
structure GoneOffline (s t : State) : Prop where
  scanned : t.hw.scanned = true
  online : t.hw.online = false
  queue : t.hw.queue = []
  retired : t.cmb.retired = []
  hl : t.hl = s.hl
  event : EventRaised s t 0x1201 .critical

theorem hwGoOffline_left (s : State) : GoneOffline s (hwGoOffline s) := by
  have hevent (u : State) : EventRaised u (raiseRing u u.beat.num 0x1201 .critical 0) 0x1201 .critical := by
    refine ⟨{ code := 0x1201, sev := .critical, seq := u.hi.evSeq, beat := u.beat.num, detail := 0 }, ?_, rfl, rfl, rfl⟩
    rw [raiseRing_raised]
    exact List.mem_cons_self
  obtain ⟨hi, hframe⟩ := raiseRing_inHi { hwLose s (hwEventsWaiting s) with
    hw.online := false, hw.scanned := true, hw.queue := [], hw.spill := [], hw.states := [], hw.copy0 := false
    hw.erasing := none, hw.attempts := 0, hw.wipe := [], cmb.retired := [] } s.beat.num 0x1201 .critical 0
  have hraised := hevent { hwLose s (hwEventsWaiting s) with
    hw.online := false, hw.scanned := true, hw.queue := [], hw.spill := [], hw.states := [], hw.copy0 := false
    hw.erasing := none, hw.attempts := 0, hw.wipe := [], cmb.retired := [] }
  have hoffline : hwGoOffline s = _ := hframe
  exact ⟨by rw [hoffline], by rw [hoffline], by rw [hoffline], by rw [hoffline], by rw [hoffline]; rfl, hraised⟩

/-- A scan that fails: Heartwood is offline, and no key is installed (R299, R399). -/
theorem hwScanEnd_offline (s : State) : (hwScanEnd s false).hw.scanned = true ∧ (hwScanEnd s false).hw.online = false ∧
    (hwScanEnd s false).hw.queue = [] ∧ (hwScanEnd s false).hl.keyCur = none ∧ (hwScanEnd s false).hl.keyNext = none ∧
    (hwScanEnd s false).cmb.retired = [] ∧ EventRaised s (hwScanEnd s false) 0x1201 .critical := by
  have hgone := hwGoOffline_left { hwLose s s.hw.lostAtReset with
    hw.lostAtReset := 0, hl.keyCur := none, hl.keyNext := none, hw.loaded := false
    gr.lifeBreaks := s.gr.lifeBreaks - (if s.hw.loaded then s.hw.norBreaks else 0) }
  exact ⟨hgone.scanned, hgone.online, hgone.queue, congrArg Hl.keyCur hgone.hl, congrArg Hl.keyNext hgone.hl, hgone.retired,
    hgone.event⟩

/- HW_READ (R411). -/

theorem hwRead_body {s : State} (h : s.hw.log ≠ []) (first : Nat) :
    leBytes 1 (bit1 (decide (first < (if s.hw.log.isEmpty then s.hw.nextRseq else hwOldest s)))) =
      leBytes 1 (if first < hwOldest s then 1 else 0) := by
  rw [if_neg (by simpa using h)]
  unfold bit1
  simp only [decide_eq_true_eq]

/-- Settles O58: programs by what they keep of the log, erases and the scan by what they leave. -/
theorem heartwoodLog : Obligations.HeartwoodLog := by
  refine fun s => ⟨fun r q retries hq hcan hballs => ⟨fun hfirst => ?firstCopy, fun hsecond => ?secondCopy,
      fun x xs hfirst hnone hspare => ?fails⟩,
    fun hwriter hidle hwipe hfew => ?reclaims,
    fun b pct herase hwriter hballs hwipe => ⟨?blank, fun hattempts => ?again⟩,
    fun hscan => ⟨fun hballs => ?online, ?failedScan, fun hruns hboot => ?deadline⟩,
    fun m p h hlen hmin hmax => ⟨fun hunknown => ?unknown, fun hknown hne => ?reads⟩⟩
  case firstCopy =>
    have hkept := programmed_logKept s retries
    have hexec : exec (.heartwoodProgramComplete false true retries) s = .next { programmed s retries with hw.copy0 := true } := by
      rw [exec_programComplete hq hcan hfirst]
      simp [programmed_ballsTaken, hballs]
    exact ⟨_, hexec, rfl, hkept.log, head?_of_prefix hq (programmed_queue s retries), hkept.rj⟩
  case secondCopy =>
    have hkept := programmed_logKept s retries
    obtain ⟨hlog, hnext, hcopy, hmirror⟩ := hwCommit_log { programmed s retries with
      hw.queue := (programmed s retries).hw.queue.drop 1, hw.copy0 := false } r
    have hrefill := hwRefill_logKept (hwCommit { programmed s retries with
      hw.queue := (programmed s retries).hw.queue.drop 1, hw.copy0 := false } r)
    have hexec : exec (.heartwoodProgramComplete true true retries) s = .next (hwRefill (hwCommit { programmed s retries with
        hw.queue := (programmed s retries).hw.queue.drop 1, hw.copy0 := false } r)) := by
      rw [exec_programComplete hq hcan hsecond]
      simp [programmed_ballsTaken, hballs]
    refine ⟨_, hexec, hrefill.copy0.trans hcopy, ?_, (hrefill.next.trans hnext).trans (congrArg (· + 1) hkept.next), fun n hn => ?_⟩
    · have hrecord : recordAt (programmed s retries) r.typ r.payload = recordAt s r.typ r.payload := hkept.recordAt _ _
      rw [hrefill.log, hlog]
      exact congrArg₂ (· ++ [·]) hkept.log hrecord
    · rw [hrefill.rj, hmirror n hn]
      exact congrArg (fun j => List.map _ j.ent) hkept.rj
  case fails =>
    obtain ⟨hspares, hretired, hhi⟩ := programmed_first hnone
    have hkept := programmed_logKept s 0
    have hexec : exec (.heartwoodProgramComplete false false 0) s = .next (blockFailure (programmed s 0) (hwHeadA s)) := by
      rw [exec_programComplete hq hcan hfirst, ← hkept.hwHeadA]
      simp
    obtain ⟨hret, hlog, hmap, hnews⟩ := blockFailure_left (b := hwHeadA s) (hspares.trans hspare)
    exact ⟨_, hexec, by rw [hret, hretired], hlog, by rw [hmap, hkept.map], hnews.from hhi⟩
  case reclaims =>
    exact ⟨_, congrArg Host.Outcome.next (if_pos (by simp [hwriter, hidle, hwipe, hfew])), rfl, hwForget_forgets _ _⟩
  case blank =>
    obtain ⟨hevents, hnews⟩ := eraseEnded_left s b pct
    unfold HwEvents at hevents
    refine ⟨_, exec_eraseComplete_blank herase hwriter hballs hwipe pct, rfl, ?_, ?_, ?_, ?_, hnews⟩
    · dsimp only
      rw [hevents]
    · dsimp only
      rw [hevents]
    · dsimp only
      rw [hevents]
    · dsimp only
      rw [hevents]
  case again =>
    have hevents := (eraseEnded_left s b pct).1
    unfold HwEvents at hevents
    have htries : (eraseEnded s b pct).hw.attempts = 0 := by rw [hevents]; exact hattempts
    refine ⟨{ eraseEnded s b pct with hw.attempts := 1 }, ?_, ?_, rfl, ?_⟩
    · rw [exec_eraseComplete herase hwriter hballs]
      simp [htries]
    · dsimp only
      rw [hevents]
      exact herase
    · dsimp only
      rw [hevents]
  case online =>
    have hkept := hwScanEnd_kept s
    obtain ⟨hscanned, honline, hlog, hload⟩ := scanLoaded_left s
    have hexec : exec (.heartwoodScanComplete true) s = .next (hwScanEnd s true) := by
      refine congrArg Host.Outcome.next ((if_pos hscan).trans ?_)
      rw [hballs]
      rfl
    refine ⟨_, hexec, hkept.scanned.trans hscanned, hkept.online.trans honline, hkept.log.trans hlog, fun hnew => ?_⟩
    obtain ⟨hloaded, hretired, hlatch, hsession⟩ := hload hnew
    exact ⟨hkept.loaded.trans hloaded, by rw [hkept.cmb, hretired], by rw [hkept.gr, hlatch], by rw [hkept.hl, hsession]⟩
  case failedScan =>
    exact ⟨hwScanEnd s false, congrArg Host.Outcome.next (if_pos hscan), hwScanEnd_offline s⟩
  case deadline =>
    exact ⟨hwScanEnd s false, congrArg Host.Outcome.next (if_pos (by simp [hscan, hruns, hboot])), hwScanEnd_offline s⟩
  case unknown =>
    have hshape : ¬ (p.length ≠ 11 ∨ leAt p 8 2 = 0 ∨ 1024 < leAt p 8 2) := by omega
    refine h.ran (c := .hwRead) rfl ?_
    dsimp only
    rw [if_neg hshape, if_pos hunknown]
    exact h.answered rfl _ _ _
  case reads =>
    have hshape : ¬ (p.length ≠ 11 ∨ leAt p 8 2 = 0 ∨ 1024 < leAt p 8 2) := by omega
    have hsure : ¬ hwKnown s = false := by simp [hknown]
    refine h.ran (c := .hwRead) rfl ?_
    dsimp only
    rw [if_neg hshape, if_neg hsure, hwRead_body hne]
    exact h.answered rfl _ _ _

end Sys2Proof.Machine
end

section
/-! PROOFS. The link layer of an UP port (R277, R282, R286, R287, R292, R300). -/

namespace Sys2Proof.Machine

open Sys2Proof

/- Changes of one port. -/

theorem portUp_st {s : State} {p : Nat} (h : portUp s p = true) : (portAt s p).st = .up := by
  simp only [portUp, Bool.and_eq_true, beq_iff_eq] at h
  exact h.2

/-- A port stays UP through a change that keeps its state. -/
theorem portUp_onPort {s : State} {p : Nat} {f : Port → Port} (h : portUp s p = true) (hf : ∀ x, (f x).st = x.st) :
    portUp (onPort s p f) p = true := by
  unfold portUp at h ⊢
  rw [(onPort_portsKept s p hf).st p]
  exact h

/- A NAK (R286). -/

/-- A NAK asks again for what the receiver awaits, after a count that leaves that as it is. -/
theorem sendNak_counted (s : State) {p : Nat} {f : Port → Port} (hp : p < 20) (hseq : ∀ x, (f x).rxSeq = x.rxSeq)
    (hnbr : ∀ x, (f x).nbrRank = x.nbrRank) : sendNak (onPort s p f) p = onPort s p (fun x =>
      let y := f x
      { y with gap := true, tx := satAdd 64 y.tx 1
               outq := mkFlit 0x12 s.beat.ownRank x.nbrRank 0 0 0 0 (leBytes 2 x.rxSeq) :: y.outq }) := by
  unfold sendNak giveTx
  dsimp only
  rw [onPort_onPort, onPort_onPort, portAt_onPort_same _ _ _ hp, hseq, hnbr]
  exact onPort_congr _ rfl

/-- A flit without SEQ whose HCRC fails is counted and asked for again. -/
theorem hcrcNak_counted {s : State} {p : Nat} {l : List Byte} (hp : p < 20) (hcrc : hcrcOk l = false) (hgap : (portAt s p).gap = false) :
    hcrcNak (rxCount s p) p l = onPort s p (fun x => { x with
      rx := satAdd 64 x.rx 1, gap := true, tx := satAdd 64 x.tx 1
      outq := mkFlit 0x12 s.beat.ownRank x.nbrRank 0 0 0 0 (leBytes 2 x.rxSeq) :: x.outq }) := by
  have hask : ¬ (hcrcOk l = true ∨ (portAt (rxCount s p) p).gap = true) := by
    unfold rxCount
    rw [portAt_onPort_same _ _ _ hp]
    simp [hcrc, hgap]
  unfold hcrcNak
  rw [if_neg hask]
  exact sendNak_counted s hp (fun _ => rfl) fun _ => rfl

/-- An ACK with the credits to return (Table 12.4). -/
theorem sendAck_eq (s : State) (p : Nat) : sendAck s p = onPort s p (fun x =>
    { x with unacked := 0, creditRet := 0, tx := satAdd 64 x.tx 1
             outq := mkFlit 0x11 s.beat.ownRank x.nbrRank 0 0 0 0 (leBytes 2 (x.rxSeq + 65535) ++ leBytes 2 x.creditRet) :: x.outq }) := by
  unfold sendAck giveTx
  dsimp only
  rw [onPort_onPort]
  exact onPort_congr _ rfl

/- A drop (R287). -/

/-- A port that takes TRAINING, with its attempt counted. -/
theorem portTrain_port (s : State) {p : Nat} (hp : p < 20) : ∃ a b c d, portAt (portTrain s p) p =
    { (portAt s p).linkClear with
      st := .training, spared := a, txSpared := b, weak := c, quick := d, attempts := satAdd 16 (portAt s p).attempts 1, fence := 0 } := by
  obtain ⟨a, b, c, d, htaken⟩ := portTaken_eq .training (portAt s p)
  refine ⟨a, b, c, d, ?_⟩
  unfold portTrain
  rw [portAt_onPort_same _ _ _ hp, portTo_port_same s .training hp, htaken]
  rfl

/-- The drops of a port within 1,000 beats, the coming one included. -/
abbrev dropsNear (s : State) (p : Nat) : List Nat := (s.beat.num :: (portAt s p).dropBeats).filter (fun b => decide (s.beat.num < b + 1000))

/-- A drop before the third within 1,000 beats: the port trains again, and the drop is counted and reported. -/
theorem portDrop_trains {s : State} {p code : Nat} (hp : p < 20) (hup : (portAt s p).st = .up) (hfew : (dropsNear s p).length < 3)
    (hcode : code ≠ 0x1206) : PortMoved s (portDrop s p code) p .training ∧
      (portAt (portDrop s p code) p).drops = satAdd 32 (portAt s p).drops 1 ∧ Logs s (portDrop s p code) [(code, .major)] := by
  have hraised := raise_news s code .major 0 hcode
  have hdrop : portDrop s p code = portTrain (onPort (raise s code .major 0) p (fun x =>
      { x with drops := satAdd 32 x.drops 1, dropBeats := (dropsNear s p).take 3 })) p := by
    unfold portDrop
    dsimp only
    rw [if_neg (by simp [hup]), if_neg (Nat.not_le.mpr hfew)]
  have hport : ∀ k, portAt (raise s code .major 0) k = portAt s k := hraised.calm.portAt
  generalize raise s code .major 0 = u at hraised hdrop hport
  obtain ⟨a, b, c, d, htrained⟩ := portTrain_port (onPort u p (fun x =>
    { x with drops := satAdd 32 x.drops 1, dropBeats := (dropsNear s p).take 3 })) hp
  rw [portAt_onPort_same _ _ _ hp, hport p] at htrained
  have honly : OnlyPorts u (portDrop s p code) := by
    rw [hdrop]
    exact (onPort_onlyPorts u p _).trans (portTrain_onlyPorts _ p)
  have hothers : ∀ k, k ≠ p → (portAt (portDrop s p code) k).st = (portAt s k).st := by
    intro k hk
    rw [hdrop]
    unfold portTrain
    rw [portAt_onPort_other _ _ _ _ (Ne.symm hk), portTo_port_other _ .training hk, portAt_onPort_other _ _ _ _ (Ne.symm hk), hport k]
  rw [← hdrop] at htrained
  generalize portDrop s p code = t at *
  have hrest : t = { s with hl := { s.hl with port := t.hl.port }, hi := t.hi, hw := t.hw } := by
    have hframe := honly.frame
    rw [hframe]
    rw [hraised.frame]
  refine ⟨⟨by rw [htrained], hothers, by rw [htrained]; exact ⟨rfl, rfl, rfl, rfl⟩, hrest, honly.hi ▸ hraised.calm.hi,
    honly.hw ▸ hraised.calm.hw⟩, by rw [htrained]; rfl, ?_⟩
  unfold Logs
  rw [honly.hi]
  exact hraised.news

/- A resend (R286). -/

/-- Flits sent again leave the transmitter in their order; of the port nothing else changes but their count. -/
theorem resent_port {p : Nat} (hp : p < 20) (l : List (List Byte)) (s : State) :
    ∃ n, portAt (l.foldl (fun s f => giveTx s p (withReplay f true)) s) p =
      { portAt s p with outq := (l.map (fun f => withReplay f true)).reverse ++ (portAt s p).outq, tx := n } := by
  induction l generalizing s with
  | nil => exact ⟨_, rfl⟩
  | cons f r ih =>
    obtain ⟨n, hrest⟩ := ih (giveTx s p (withReplay f true))
    have hfirst : portAt (giveTx s p (withReplay f true)) p =
        { portAt s p with outq := withReplay f true :: (portAt s p).outq, tx := satAdd 64 (portAt s p).tx 1 } :=
      portAt_onPort_same s p _ hp
    refine ⟨n, ?_⟩
    rw [List.foldl_cons, hrest, hfirst]
    simp

theorem resend_onlyPorts (s : State) (p n : Nat) : OnlyPorts s (resend s p n) :=
  (OnlyPorts.foldl (fun u f => giveTx_onlyPorts u p (withReplay f true)) _ s).trans (onPort_onlyPorts _ p _)

/-- A resend sends the buffer from a SEQ on with REPLAY set, counts it, and changes nothing else of the port. -/
theorem resend_port (s : State) {p : Nat} (hp : p < 20) (n : Nat) :
    let again := (portAt s p).buffer.filter (fun f => seqLe n (fSeq f))
    ∃ k, portAt (resend s p n) p = { portAt s p with
      outq := (again.map (fun f => withReplay f true)).reverse ++ (portAt s p).outq, tx := k
      replay := satAdd 32 (portAt s p).replay again.length } := by
  intro again
  obtain ⟨k, hsent⟩ := resent_port hp again s
  refine ⟨k, ?_⟩
  unfold resend
  dsimp only
  rw [portAt_onPort_same _ _ _ hp, hsent]

/- A seal group (R300). -/

theorem fType_cons (b : Byte) (l : List Byte) : fType (b :: l) = b.toNat := by
  simp [fType, leAt, bytesAt, leNat]

theorem sealHcrc_cons (b : Byte) (l : List Byte) : ∃ r, sealHcrc (b :: l) = b :: r := ⟨_, rfl⟩

/-- A flit keeps its type with whatever SEQ it is sent. -/
theorem fType_withSeq_mkFlit (typ src dst entry index inst ptag n : Nat) (pay : List Byte) :
    fType (withSeq (mkFlit typ src dst entry index inst ptag pay) n) = typ % 256 := by
  obtain ⟨r, hflit⟩ : ∃ r, mkFlit typ src dst entry index inst ptag pay = BitVec.ofNat 8 typ :: r := sealHcrc_cons _ _
  obtain ⟨q, hseq⟩ : ∃ q, withSeq (BitVec.ofNat 8 typ :: r) n = BitVec.ofNat 8 typ :: q := sealHcrc_cons _ _
  rw [hflit, hseq, fType_cons, BitVec.toNat_ofNat]

theorem fType_mkFlit (typ src dst entry index inst ptag : Nat) (pay : List Byte) :
    fType (mkFlit typ src dst entry index inst ptag pay) = typ % 256 := by
  obtain ⟨r, hflit⟩ : ∃ r, mkFlit typ src dst entry index inst ptag pay = BitVec.ofNat 8 typ :: r := sealHcrc_cons _ _
  rw [hflit, fType_cons, BitVec.toNat_ofNat]

/-- The port has taken one more flit to send, in the buffer or to wait for room; its seal group stands as before. -/
structure TagTaken (x y : Port) : Prop where
  sealTx : y.sealTx = x.sealTx
  group : y.group = x.group
  flits : y.buffer.length + y.txWait.length = x.buffer.length + x.txWait.length + 1

/-- A TAG flit is sent, or waits behind the control flits before it; it joins no group. -/
theorem txTry_tag {s : State} {p : Nat} {l : List Byte} (hp : p < 20) (hup : portUp s p = true) (htype : fType l = 6)
    (hsent : ∀ n, fType (withSeq l n) = 6) : TagTaken (portAt s p) (portAt (txTry s p l) p) := by
  have hctl : isCtl l = true := by simp [isCtl, htype]
  unfold txTry
  dsimp only
  rw [if_neg (by simp [hup])]
  split
  next =>
    unfold txNow giveTx
    dsimp only
    rw [portAt_onPort_same _ _ _ hp, portAt_onPort_same _ _ _ hp]
    exact ⟨by simp [hsent], rfl, by simp; omega⟩
  next =>
    have hsplit := List.length_eq_length_filter_add (l := (portAt s p).txWait) isCtl
    rw [portAt_onPort_same _ _ _ hp]
    refine ⟨rfl, rfl, ?_⟩
    simp only [hctl, Bool.not_true, Bool.false_or, Bool.true_and, List.length_append, List.length_singleton]
    have heta : (portAt s p).txWait.filter (fun w => isCtl w) = (portAt s p).txWait.filter isCtl := rfl
    rw [heta]
    omega

/-- An idle group closes with its TAG and the next GROUP; a GROUP that does not wrap leaves the port UP (R300). -/
theorem closeGroup_port {s : State} {p : Nat} (hp : p < 20) (hup : portUp s p = true) (hopen : (portAt s p).sealTx ≠ [])
    (hgroup : (portAt s p).group + 1 ≠ 2 ^ 32) :
    TagTaken { portAt s p with sealTx := [], group := (portAt s p).group + 1 } (portAt (closeGroup s p) p) := by
  have hclosed : portAt (onPort s p (fun x => { x with sealTx := [], group := x.group + 1 })) p =
      { portAt s p with sealTx := [], group := (portAt s p).group + 1 } := portAt_onPort_same _ _ _ hp
  unfold closeGroup
  dsimp only
  split
  next hnone => exact absurd hnone hopen
  next f r hf =>
    rw [if_neg hgroup, ← hclosed]
    exact txTry_tag hp (portUp_onPort hup fun _ => rfl) (fType_mkFlit _ _ _ _ _ _ _ _) fun n => fType_withSeq_mkFlit _ _ _ _ _ _ _ n _

end Sys2Proof.Machine
end

section
/-! PROOFS. The commands of an UP port: lanes, acknowledgements, replay and seal groups. -/

namespace Sys2Proof.Machine

open Sys2Proof

/- Lanes (R282). -/

theorem exec_laneFlitReceive_good {s : State} {p : PortId} {l : List Byte} (hup : portUp s p.val = true) (hflit : isFlit l 0x14 = true)
    (hcrc : hcrcOk l = true) (hlane : leAt (fPay l) 0 1 < 8) (hback : leAt (fPay l) 1 1 < 2) :
    exec (.laneFlitReceive p l) s = .next (onPort s p.val (fun x =>
      { x with rx := satAdd 64 x.rx 1, move := some (leAt (fPay l) 0 1, leAt (fPay l) 1 1 == 1) })) := by
  refine congrArg Host.Outcome.next ?_
  dsimp only
  rw [if_pos ⟨hup, hflit⟩, if_pos ⟨hcrc, hlane, hback⟩]
  exact onPort_onPort s p.val _ _

theorem exec_laneFlitReceive_bad {s : State} {p : PortId} {l : List Byte} (hup : portUp s p.val = true) (hflit : isFlit l 0x14 = true)
    (hcrc : hcrcOk l = false) : exec (.laneFlitReceive p l) s = .next (hcrcNak (rxCount s p.val) p.val l) := by
  refine congrArg Host.Outcome.next ?_
  dsimp only
  rw [if_pos ⟨hup, hflit⟩, if_neg (by simp [hcrc])]

theorem exec_laneSpareSwitch_rx {s : State} {p : PortId} {k : Nat} {back : Bool} (hup : portUp s p.val = true)
    (hmove : (portAt s p.val).laneTx = some (k, back)) : exec (.laneSpareSwitch ⟨p, false⟩) s = .next (
      let s' := onPort s p.val (fun x => { x with laneTx := none, spared := if back then none else some k })
      if (portAt s p.val).weak = true ∧ back = false then raise s' 0x0C05 .minor 0 else s') := by
  refine congrArg Host.Outcome.next ?_
  dsimp only
  rw [if_pos hup, if_neg (by decide), hmove]
  rfl

theorem exec_laneSpareSwitch_tx {s : State} {p : PortId} {k : Nat} {back : Bool} (hup : portUp s p.val = true)
    (hmove : (portAt s p.val).move = some (k, back)) : exec (.laneSpareSwitch ⟨p, true⟩) s =
      .next (onPort s p.val (fun x => { x with move := none, txSpared := if back then none else some k })) := by
  refine congrArg Host.Outcome.next ?_
  dsimp only
  rw [if_pos hup, if_pos rfl, hmove]
  rfl

/- Codewords (R277, R287). -/

theorem exec_uncorrectableCodeword {s : State} {p : PortId} (hup : portUp s p.val = true) : exec (.uncorrectableCodeword p) s = .next (
    let s' := onPort s p.val (fun x => { x with uncorr := satAdd 32 x.uncorr 1, uncorrBeat := x.uncorrBeat + 1 })
    if (portAt s p.val).gap then s' else sendNak s' p.val) := by
  refine congrArg Host.Outcome.next ?_
  dsimp only
  rw [if_pos hup, portAt_onPort_same _ _ _ p.isLt]

/- ACK and NAK (R286, R292). -/

theorem exec_flitAckReceive_bad {s : State} {p : PortId} {l : List Byte} (hup : portUp s p.val = true) (hflit : isFlit l 0x11 = true)
    (hcrc : hcrcOk l = false) : exec (.flitAckReceive p l) s = .next (hcrcNak (rxCount s p.val) p.val l) := by
  refine congrArg Host.Outcome.next ?_
  dsimp only
  rw [if_pos ⟨hup, hflit⟩, if_neg (by simp [hcrc])]

theorem exec_flitNakReceive_bad {s : State} {p : PortId} {l : List Byte} (hup : portUp s p.val = true) (hflit : isFlit l 0x12 = true)
    (hcrc : hcrcOk l = false) : exec (.flitNakReceive p l) s = .next (hcrcNak (rxCount s p.val) p.val l) := by
  refine congrArg Host.Outcome.next ?_
  dsimp only
  rw [if_pos ⟨hup, hflit⟩, if_neg (by simp [hcrc])]

/-- What an ACK makes of a port: the flits it covers leave the buffer, and credits return. -/
def ackTaken (l : List Byte) (x : Port) : Port :=
  let left := x.buffer.filter (fun f => !seqLe (fSeq f) (leAt (fPay l) 0 2))
  { x with rx := satAdd 64 x.rx 1, buffer := left, credit := min 64 (x.credit + leAt (fPay l) 2 2)
           timeouts := if left.length < x.buffer.length then 0 else x.timeouts }

/-- With nothing held back a port has nothing to send when a window opens or room appears. -/
theorem portFlush_idle {s : State} {p : Nat} (hwait : (portAt s p).txWait = []) (hsync : (portAt s p).syncq = [])
    (hunsched : (portAt s p).waitq = []) : portFlush (drainWait (portAt s p).txWait.length s p) p = s := by
  rw [hwait]
  unfold portFlush
  dsimp only [List.length_nil, drainWait]
  rw [hsync]
  dsimp only [List.length_nil, flushSync]
  rw [hunsched]
  rfl

theorem exec_flitAckReceive_idle {s : State} {p : PortId} {l : List Byte} (hup : portUp s p.val = true) (hflit : isFlit l 0x11 = true)
    (hcrc : hcrcOk l = true) (hwait : (portAt s p.val).txWait = []) (hsync : (portAt s p.val).syncq = [])
    (hunsched : (portAt s p.val).waitq = []) : exec (.flitAckReceive p l) s = .next (onPort s p.val (ackTaken l)) := by
  have hport : portAt (onPort s p.val (ackTaken l)) p.val = ackTaken l (portAt s p.val) := portAt_onPort_same _ _ _ p.isLt
  have hidle : portFlush (drainWait (portAt (onPort s p.val (ackTaken l)) p.val).txWait.length (onPort s p.val (ackTaken l)) p.val) p.val =
      onPort s p.val (ackTaken l) :=
    portFlush_idle (by rw [hport]; exact hwait) (by rw [hport]; exact hsync) (by rw [hport]; exact hunsched)
  refine congrArg Host.Outcome.next (Eq.trans ?_ hidle)
  dsimp only
  rw [if_pos ⟨hup, hflit⟩, if_pos hcrc]
  refine congrArg (fun u => portFlush (drainWait (portAt u p.val).txWait.length u p.val) p.val) ?_
  unfold rxCount
  rw [portAt_onPort_same _ _ _ p.isLt, onPort_onPort]
  exact onPort_congr _ rfl

theorem exec_flitNakReceive_good {s : State} {p : PortId} {l : List Byte} (hup : portUp s p.val = true) (hflit : isFlit l 0x12 = true)
    (hcrc : hcrcOk l = true) : exec (.flitNakReceive p l) s = .next (resend
      (onPort s p.val (fun x => { x with rx := satAdd 64 x.rx 1, nak := satAdd 32 x.nak 1 })) p.val (leAt (fPay l) 0 2)) := by
  refine congrArg Host.Outcome.next ?_
  dsimp only
  rw [if_pos ⟨hup, hflit⟩, if_pos hcrc]
  unfold rxCount
  rw [onPort_onPort]

theorem exec_ackTimer {s : State} {p : PortId} (hup : portUp s p.val = true)
    (hdue : (portAt s p.val).unacked ≠ 0 ∨ (portAt s p.val).creditRet ≠ 0) : exec (.ackTimer p) s = .next (sendAck s p.val) :=
  congrArg Host.Outcome.next (if_pos ⟨hup, hdue⟩)

/-- A replay timeout: the eighth in a row drops the port, an earlier one resends from the oldest flit (R286). -/
theorem exec_replayTimeout {s : State} {p : PortId} {f : List Byte} {r : List (List Byte)} (hup : portUp s p.val = true)
    (hbuffer : (portAt s p.val).buffer = f :: r) : exec (.replayTimeout p) s = .next (
      let s' := onPort s p.val (fun x => { x with timeouts := x.timeouts + 1 })
      if 8 ≤ (portAt s p.val).timeouts + 1 then portDrop s' p.val 0x0C02 else resend s' p.val (fSeq f)) := by
  refine congrArg Host.Outcome.next ?_
  dsimp only
  rw [if_pos ⟨hup, by simp [hbuffer]⟩, portAt_onPort_same _ _ _ p.isLt]
  dsimp only
  rw [hbuffer]

theorem exec_codewordErrorLimit {s : State} {p : PortId} (hup : portUp s p.val = true) (hmany : 32 < (portAt s p.val).uncorrBeat) :
    exec (.codewordErrorLimit p) s = .next (portDrop s p.val 0x0C02) :=
  congrArg Host.Outcome.next (if_pos ⟨hup, hmany⟩)

theorem exec_sealGroupClose {s : State} {p : PortId} (hup : portUp s p.val = true) :
    exec (.sealGroupClose p) s = .next (closeGroup s p.val) :=
  congrArg Host.Outcome.next (if_pos hup)

/-- Settles O52: every command by the branch that it takes on an UP port, and by what that does to the port. -/
theorem linkLayerOfAPort : Obligations.LinkLayerOfAPort := by
  intro s p hup
  have hp : p.val < 20 := p.isLt
  refine ⟨fun l hflit hcrc hlane hback => exec_laneFlitReceive_good hup hflit hcrc hlane hback, fun k back hmove => ?spareRx,
    fun k back hmove => exec_laneSpareSwitch_tx hup hmove, fun l hflit hcrc hgap => ⟨fun hack => ?badAck, fun hnak => ?badNak,
      fun hlane => ?badLane⟩,
    fun hgap => ?countOnly, fun hgap => ?countAndNak, fun hmany hfew => ?limit, fun l hflit hcrc hwait hsync hunsched => ?ack,
    fun l hflit hcrc => ?nak, fun hdue => ?timer, fun f r hbuffer => ⟨fun hless => ?replays, fun heighth hfew => ?gives⟩,
    fun hnone => ?noGroup, fun hopen hgroup => ?closes⟩
  case spareRx =>
    refine ⟨_, exec_laneSpareSwitch_rx hup hmove, ?_⟩
    dsimp only
    by_cases hweak : (portAt s p.val).weak = true ∧ back = false
    · have htold : ((portAt s p.val).weak && !back) = true := by simp [hweak]
      rw [if_pos hweak, if_pos htold]
      exact raise_news _ 0x0C05 .minor 0 (by decide)
    · have hquiet : ¬ ((portAt s p.val).weak && !back) = true := by simpa using hweak
      rw [if_neg hweak, if_neg hquiet]
      exact .same _
  case badAck => exact (exec_flitAckReceive_bad hup hack hcrc).trans (congrArg _ (hcrcNak_counted hp hcrc hgap))
  case badNak => exact (exec_flitNakReceive_bad hup hnak hcrc).trans (congrArg _ (hcrcNak_counted hp hcrc hgap))
  case badLane => exact (exec_laneFlitReceive_bad hup hlane hcrc).trans (congrArg _ (hcrcNak_counted hp hcrc hgap))
  case countOnly => exact (exec_uncorrectableCodeword hup).trans (congrArg _ (if_pos hgap))
  case countAndNak =>
    refine (exec_uncorrectableCodeword hup).trans (congrArg _ ((if_neg (by simp [hgap])).trans ?_))
    exact sendNak_counted s hp (fun _ => rfl) fun _ => rfl
  case limit => exact ⟨_, exec_codewordErrorLimit hup hmany, portDrop_trains hp (portUp_st hup) hfew (by decide)⟩
  case ack =>
    refine ⟨_, exec_flitAckReceive_idle hup hflit hcrc hwait hsync hunsched, rfl, ?_⟩
    rw [portAt_onPort_same _ _ _ hp]
    exact ⟨rfl, rfl, rfl⟩
  case nak =>
    obtain ⟨k, hport⟩ := resend_port (onPort s p.val (fun x => { x with rx := satAdd 64 x.rx 1, nak := satAdd 32 x.nak 1 })) hp
      (leAt (fPay l) 0 2)
    rw [portAt_onPort_same _ _ _ hp] at hport
    refine ⟨_, exec_flitNakReceive_good hup hflit hcrc, ((onPort_onlyPorts s p.val _).trans (resend_onlyPorts _ _ _)).frame, ?_⟩
    rw [hport]
    exact ⟨rfl, rfl, rfl, rfl⟩
  case timer => exact (exec_ackTimer hup hdue).trans (congrArg _ (sendAck_eq s p.val))
  case replays =>
    obtain ⟨k, hport⟩ := resend_port (onPort s p.val (fun x => { x with timeouts := x.timeouts + 1 })) hp (fSeq f)
    rw [portAt_onPort_same _ _ _ hp] at hport
    refine ⟨_, (exec_replayTimeout hup hbuffer).trans (congrArg _ (if_neg (by omega))),
      ((onPort_onlyPorts s p.val _).trans (resend_onlyPorts _ _ _)).frame, ?_⟩
    rw [hport]
    exact ⟨rfl, rfl, rfl⟩
  case gives =>
    have hport : portAt (onPort s p.val (fun x => { x with timeouts := x.timeouts + 1 })) p.val =
        { portAt s p.val with timeouts := (portAt s p.val).timeouts + 1 } := portAt_onPort_same _ _ _ hp
    have hnear : dropsNear (onPort s p.val (fun x => { x with timeouts := x.timeouts + 1 })) p.val = dropsNear s p.val := by
      unfold dropsNear
      rw [hport]
      rfl
    obtain ⟨hmoved, hdrops, hlogs⟩ := portDrop_trains (s := onPort s p.val (fun x => { x with timeouts := x.timeouts + 1 }))
      (code := 0x0C02) hp (by rw [hport]; exact portUp_st hup) (by rw [hnear]; exact hfew) (by decide)
    rw [hport] at hdrops
    exact ⟨_, (exec_replayTimeout hup hbuffer).trans (congrArg _ (if_pos (by omega))),
      hmoved.after (onPort_portsKept s p.val fun _ => rfl), hdrops, hlogs.from rfl⟩
  case noGroup =>
    refine (exec_sealGroupClose hup).trans (congrArg _ ?_)
    unfold closeGroup
    dsimp only
    rw [hnone]
  case closes =>
    have htag := closeGroup_port hp hup hopen hgroup
    exact ⟨_, exec_sealGroupClose hup, (closeGroup_onlyPorts s p.val).frame, htag.sealTx, htag.group, htag.flits⟩

end Sys2Proof.Machine
end
